-- ==== Sys2Proof/Word.lean ====
section
/-! DEFINITION. Words, bytes, bit fields, byte order and the small arithmetic the whole model uses. -/

namespace Sys2Proof

/-- One byte. -/
abbrev Byte := BitVec 8

/-- One 32-bit register word (R12). -/
abbrev Word := BitVec 32

/-- The largest value of a 32-bit tally. -/
def tallyMax : Nat := 0xFFFFFFFF

/-- A tally is a saturating counter: it holds at its maximum and never wraps (chapter 0, vocabulary). -/
def tallyAdd (t k : Nat) : Nat := min (t + k) tallyMax

/-- One more event in a tally. -/
def tallyInc (t : Nat) : Nat := tallyAdd t 1

/-- Bits [hi:lo] of a number. -/
def bitsOf (x hi lo : Nat) : Nat := (x >>> lo) % 2 ^ (hi + 1 - lo)

/-- 1 for true, 0 for false: a one-bit field. -/
def bit1 (b : Bool) : Nat := if b then 1 else 0

/-- A one-bit field at position `i`. -/
def bitAt (b : Bool) (i : Nat) : Nat := if b then 2 ^ i else 0

/-- The number that a list of bytes spells, least significant byte first. -/
def leNat : List Byte → Nat
  | [] => 0
  | b :: bs => b.toNat + 256 * leNat bs

/-- `k` bytes of a number, least significant byte first. -/
def natLe (n : Nat) : Nat → List Byte
  | 0 => []
  | k + 1 => BitVec.ofNat 8 n :: natLe (n / 256) k

/-- The number that a list of bytes spells, most significant byte first. -/
def beNat (bs : List Byte) : Nat := leNat bs.reverse

/-- `k` bytes of a number, most significant byte first. -/
def natBe (n k : Nat) : List Byte := (natLe n k).reverse

/-- The bytes `off` to `off + len - 1` of a list. -/
def slice (bs : List Byte) (off len : Nat) : List Byte := (bs.drop off).take len

/-- A little-endian field of `len` bytes at `off`. -/
def leField (bs : List Byte) (off len : Nat) : Nat := leNat (slice bs off len)

/-- The two's complement value of the low `w` bits of a number. -/
def signedOf (w n : Nat) : Int :=
  if (n % 2 ^ w) < 2 ^ (w - 1) then (n % 2 ^ w : Nat) else ((n % 2 ^ w : Nat) : Int) - (2 ^ w : Nat)

/-- The low `w` bits of an integer in two's complement. -/
def unsignedOf (w : Nat) (i : Int) : Nat := (i % (2 ^ w : Nat)).toNat

/-- An integer held between two bounds. -/
def clampInt (lo hi x : Int) : Int := max lo (min hi x)

/-- True where every byte of the list is zero. -/
def allZero (bs : List Byte) : Bool := bs.all (· == 0#8)

/-- Element `i` of a list, changed by `f`; a list too short is left as it is. -/
def updAt {α : Type} (l : List α) (i : Nat) (f : α → α) : List α := l.modify i f

/-- Element `i` of a list, replaced. -/
def putAt {α : Type} (l : List α) (i : Nat) (a : α) : List α := l.set i a

/-- The first `n` numbers. -/
def upTo (n : Nat) : List Nat := List.range n

/-- The number rounded up to a multiple of `k`. -/
def roundUp (n k : Nat) : Nat := (n + (k - 1)) / k * k

/-- Division rounded to the nearest integer, halves away from zero. -/
def divRound (a : Int) (b : Nat) : Int :=
  if a < 0 then -((((-a).toNat * 2 + b) / (2 * b) : Nat) : Int) else ((a.toNat * 2 + b) / (2 * b) : Nat)

/-- True where the numbers of a list rise strictly. -/
def strictlyRising : List Nat → Bool
  | [] => true
  | [_] => true
  | a :: b :: t => decide (a < b) && strictlyRising (b :: t)

/-- True where no number of the list comes twice. -/
def noRepeats (l : List Nat) : Bool := decide l.Nodup

/-- RFC 1982 comparison of two `w`-bit serial numbers: `a` is newer than `b`. -/
def serialNewer (w a b : Nat) : Bool :=
  let d := (a + 2 ^ w - b % 2 ^ w) % 2 ^ w
  decide (0 < d ∧ d < 2 ^ (w - 1))

/-! ### Module time as a number of ticks of 2⁻¹⁶ ns (R64) -/

/-- Ticks in one nanosecond. -/
def ticksPerNs : Nat := 65536

/-- The resolution of a raw stamp, 125 ps, in ticks (R65). -/
def stampUnit : Nat := 8192

/-- Ticks in one second. -/
def ticksPerSec : Nat := 65536000000000

/-- Ticks in one base period of 125 µs. -/
def ticksPerPeriod : Nat := 8192000000

/-- Ticks in `n` microseconds. -/
def usTicks (n : Nat) : Nat := n * 65536000

/-- Ticks in `n` nanoseconds. -/
def nsTicks (n : Nat) : Nat := n * ticksPerNs

/-- Ticks in `n` milliseconds. -/
def msTicks (n : Nat) : Nat := n * 65536000000

/-- The whole seconds of a time. -/
def timeSec (t : Nat) : Nat := t / ticksPerSec

/-- The nanoseconds field of a time. -/
def timeNs (t : Nat) : Nat := t % ticksPerSec / ticksPerNs

/-- The fraction field of a time. -/
def timeFrac (t : Nat) : Nat := t % ticksPerNs

/-- A time made of its three fields. -/
def mkTime (sec ns frac : Nat) : Nat := sec * ticksPerSec + ns * ticksPerNs + frac

/-- The 12-byte time of R64. -/
def timeBytes (t : Nat) : List Byte := natLe (timeSec t) 6 ++ natLe (timeNs t) 4 ++ natLe (timeFrac t) 2

/-- `n` seconds of the always-on oscillator, in nanoseconds. -/
def aonSec (n : Nat) : Nat := n * 1000000000

/-- `n` milliseconds of the always-on oscillator, in nanoseconds. -/
def aonMs (n : Nat) : Nat := n * 1000000

/-- `n` microseconds of the always-on oscillator, in nanoseconds. -/
def aonUs (n : Nat) : Nat := n * 1000

end Sys2Proof
end

