-- ==== Sys2Proof/Machine/Data.lean ====
section
/-! DEFINITION. The plain data of the model that is not a unit's own register state: the parsed sections of a
configuration bit-stream (chapter 2 and the units' chapters), ledger records (R323), the retained image (R217),
and the content of a keeper cartridge (R308). -/

namespace Sys2Proof.Machine

/-! ### Sections of a bit-stream -/

/-- One port entry of `PORTS` (R98). -/
structure PortCfg where
  mode : Nat := 0
  prp : Bool := false
  tagged : Bool := false
  pcp : Nat := 0
  vid : Nat := 0
  deriving DecidableEq, Repr, Inhabited

/-- `PORTS` (R98). -/
structure PortsSec where
  ethertype : Nat := 0x88B6
  groupMac : Nat := 0
  ports : List PortCfg := []
  deriving DecidableEq, Repr, Inhabited

/-- One entry of `STATIONS` (R99). -/
structure StationCfg where
  number : Nat := 0
  port : Nat := 0
  wdgMode : Nat := 0
  mac : Nat := 0
  wdgTime : Nat := 1
  respTime : Nat := 0
  pathDelay : Nat := 0
  deriving DecidableEq, Repr, Inhabited

/-- One entry of `POINTS` (R201). -/
structure PointCfg where
  tag : Nat := 0
  kind : Nat := 0
  forceable : Bool := false
  task : Nat := 0
  source : Nat := 0
  init : Nat := 0
  deriving DecidableEq, Repr, Inhabited

/-- One subscription of `SV_SUBS` (R118). -/
structure SubCfg where
  port : Nat := 0
  localOk : Bool := false
  testAccept : Bool := false
  appid : Nat := 0
  destMac : Nat := 0
  rate : Nat := 0
  noAsdu : Nat := 1
  chCount : Nat := 1
  firstChannel : Nat := 0
  confRev : Nat := 0
  maxDelay : Nat := 0
  svId : List Byte := []
  deriving DecidableEq, Repr, Inhabited

/-- `SV_SUBS` (R118). -/
structure SvSec where
  channels : Nat := 0
  alignLatency : Nat := 50000
  archFirst : Nat := 0
  archSegments : Nat := 0
  subs : List SubCfg := []
  deriving DecidableEq, Repr, Inhabited

/-- One timetable step (R140). -/
structure PheStep where
  op : Nat := 0
  flags : Nat := 0
  len : Nat := 0
  mod : Nat := 1
  phase : Nat := 0
  a : Nat := 0
  b : Nat := 0
  c : Nat := 0
  d : Nat := 0
  deriving DecidableEq, Repr, Inhabited

/-- A measurement unit entry (R146). -/
structure UnitCfg where
  f0 : Nat := 0
  cls : Nat := 0
  rate : Nat := 0
  keep : Bool := false
  phasors : Nat := 1
  window : Nat := 0
  storeFirst : Nat := 0
  storeWords : Nat := 0
  deriving DecidableEq, Repr, Inhabited

/-- A ring descriptor (R139, R145). -/
structure RingCfg where
  base : Nat := 0
  lenLog2 : Nat := 1
  kind : Nat := 0
  stride : Nat := 1
  deriving DecidableEq, Repr, Inhabited

/-- A publication stream entry (R147). -/
structure StreamCfg where
  idcode : Nat := 1
  host : Nat := 1
  mode : Nat := 0
  rate : Nat := 0
  role : Nat := 0
  start : Nat := 0
  timeBase : Nat := 0
  tcpPort : Nat := 4712
  udpPort : Nat := 4713
  bodyLen : Nat := 0
  udpDest : List Byte := []
  units : List Nat := []
  cfg2 : List Byte := []
  cfg3 : List Byte := []
  deriving DecidableEq, Repr, Inhabited

/-- `PHE_TABLE` (R145). Coefficients are binary32 words. -/
structure PheSec where
  steps : List PheStep := []
  units : List UnitCfg := []
  rings : List RingCfg := []
  streams : List StreamCfg := []
  coefs : List Nat := []
  deriving DecidableEq, Repr, Inhabited

/-- A terminal of `TOPOLOGY` (R175). `threshold` is a binary32 word. -/
structure TermCfg where
  station : Nat := 0
  kind : Nat := 0
  singleOk : Bool := false
  frontDelay : Int := 0
  threshold : Nat := 0
  name : List Byte := []
  deriving DecidableEq, Repr, Inhabited

/-- A segment of `TOPOLOGY` (R176). -/
structure SegCfg where
  endA : Nat := 0
  endB : Nat := 0
  length : Nat := 1000
  velocity : Nat := 100000000
  refOffset : Nat := 0
  refTerminal : Nat := 0
  taps : List Nat := []
  deriving DecidableEq, Repr, Inhabited

/-- `TOPOLOGY` (R174), with the section's bytes as loaded (the table memory shows them). -/
structure TopoSec where
  terms : List TermCfg := []
  segs : List SegCfg := []
  junctions : Nat := 0
  groupWindow : Nat := 10
  collect : Nat := 1000
  minConf : Nat := 0
  raw : List Byte := []
  deriving DecidableEq, Repr, Inhabited

/-- A block call table entry (R206). -/
structure CallCfg where
  codeOff : Nat := 0
  inst : Nat := 0
  blockType : Nat := 0
  deriving DecidableEq, Repr, Inhabited

/-- A task entry of `TASKS` (R196). -/
structure TaskCfg where
  task : Nat := 0
  rank : Nat := 1
  period : Nat := 2
  phase : Nat := 0
  deadline : Nat := 1000
  calls : List CallCfg := []
  deriving DecidableEq, Repr, Inhabited

/-- An instance of `INSTANCES` (R207, R208): its address in 256-byte units, its header, and its INIT runs. -/
structure InstCfg where
  addr : Nat := 0
  blockType : Nat := 1
  tag : Nat := 1
  size : Nat := 64
  task : Nat := 0
  layout : Nat := 0
  retainOff : Nat := 0
  retainLen : Nat := 0
  runs : List (Nat × List Byte) := []
  deriving DecidableEq, Repr, Inhabited

/-- A carry record (R215). -/
structure CarryCfg where
  src : Nat := 0
  dst : Nat := 0
  len : Nat := 0
  task : Nat := 0
  deriving DecidableEq, Repr, Inhabited

/-- `INSTANCES` (R208). -/
structure InstSec where
  baseUnit : Nat := 0
  units : Nat := 1
  shadowUnit : Nat := 0
  insts : List InstCfg := []
  carries : List CarryCfg := []
  deriving DecidableEq, Repr, Inhabited

/-- A task descriptor of `IMAGES` (R202): bases in 64-byte units, lists of point numbers. -/
structure ImgCfg where
  inBase : Nat := 0
  inList : List Nat := []
  outBase : Nat := 0
  outList : List Nat := []
  deriving DecidableEq, Repr, Inhabited

/-- `IMAGES` (R202). -/
structure ImgSec where
  policy : Nat := 0
  descs : List ImgCfg := []
  deriving DecidableEq, Repr, Inhabited

/-- `BUDGETS` (R240): (budget, rank) of each slot, and the port budgets. -/
structure BudgetSec where
  slots : List (Nat × Nat) := []
  ports : List Nat := []
  deriving DecidableEq, Repr, Inhabited

/-- `POWER` (R245): ceilings as (CEIL, BAND) in 1/16 °C; the coefficients are binary32 words. -/
structure PowerSec where
  ceilingMw : Nat := 40000
  fixedMin : Nat := 0
  overPeriods : Nat := 8
  sensors : List (Int × Nat) := []
  coef : List Nat := []
  portCoef : List Nat := []
  deriving DecidableEq, Repr, Inhabited

/-- `MEMMAP` (R282): descriptors (first unit, units, code). -/
structure MapSec where
  spareUnit : Nat := 0
  streamFirst : Nat := 0
  stageFirst : Nat := 240
  descs : List (Nat × Nat × Nat) := []
  deriving DecidableEq, Repr, Inhabited

/-- A ward region (R298). -/
structure Region where
  base64 : Nat := 0
  len64 : Nat := 0
  read : Nat := 0
  write : Nat := 0
  deriving DecidableEq, Repr, Inhabited

/-- A central rule (R303). -/
structure Rule where
  base : Nat := 0
  len64 : Nat := 1
  space : Nat := 0
  read : Nat := 0
  write : Nat := 0
  deriving DecidableEq, Repr, Inhabited

/-- `LEDGER_LIMITS` (R328): entries (code, burst, refill). -/
structure LimitSec where
  defBurst : Nat := 1
  defRefill : Nat := 1
  entries : List (Nat × Nat × Nat) := []
  deriving DecidableEq, Repr, Inhabited

/-- `FIELD_IO` (R383): DI (type, filter, wire break), DO (group, shared), AO mode. -/
structure FieldSec where
  di : List (Nat × Nat × Nat) := []
  dout : List (Nat × Bool) := []
  ao : List Nat := []
  deriving DecidableEq, Repr, Inhabited

/-- `PTP_PROFILE` (R87). -/
structure PtpSec where
  profile : Nat := 1
  domain : Nat := 0
  priority1 : Nat := 0
  priority2 : Nat := 0
  logSync : Int := 0
  sources : List Nat := []
  taiUtcInit : Int := 0
  slaveA : Nat := 0xFF
  slaveB : Nat := 0xFF
  hostSlave : Nat := 0
  pcp : Nat := 0
  masterMask : Nat := 0
  taggedMask : Nat := 0
  vid : Nat := 0
  deriving DecidableEq, Repr, Inhabited

/-- One entry of `ASYMMETRY` (R78): `ING`, `EGR`, `ASYM` in 2⁻¹⁶ ns. -/
structure AsymCfg where
  ing : Int := 0
  egr : Int := 0
  asym : Int := 0
  deriving DecidableEq, Repr, Inhabited

/-- `PAIR` (R257). -/
structure PairSec where
  mode : Nat := 0
  alivePeriods : Nat := 2
  reseedAfter : Nat := 2
  negotiateS : Nat := 1
  deriving DecidableEq, Repr, Inhabited

/-- A full stream as the units take it: the header facts of R39 and every section of R41. -/
structure Generation where
  gen : Nat := 0
  blvl : Nat := 0
  unitUse : Nat := 0
  digest : List Byte := []
  ports : PortsSec := {}
  stations : List StationCfg := []
  points : List PointCfg := []
  sv : SvSec := {}
  phe : PheSec := {}
  topo : TopoSec := {}
  tasks : List TaskCfg := []
  codeEntries : List Nat := []
  insts : InstSec := {}
  images : ImgSec := {}
  budgets : BudgetSec := {}
  power : PowerSec := {}
  memmap : MapSec := {}
  wards : List (List Region) := []
  central : List Rule := []
  limits : LimitSec := {}
  fieldIo : FieldSec := {}
  ptp : PtpSec := {}
  asym : List AsymCfg := []
  pair : PairSec := {}
  deriving DecidableEq, Repr, Inhabited

/-! ### Ledger records, retained image, keeper cartridge -/

/-- A ledger record (R323); `data` is the words of R326. `arr` is the always-on instant at which the front end took it, for
the hold buffer alone: a stored record has none. -/
structure LedgerRecord where
  seq : Nat := 0
  time : Nat := 0
  code : Nat := 0
  source : Nat := 0xFFFF
  gen : Nat := 0
  flags : Nat := 0
  eui : Nat := 0
  data : List Nat := []
  arr : Nat := 0
  keeper : Nat := 0
  deriving DecidableEq, Repr, Inhabited

/-- What a retained bank holds of one task (R216): RETAIN lines (address, bytes), committed output values by tag,
cycle count, skip tally and task-table generation. -/
structure TaskBank where
  lines : List (Nat × List Byte) := []
  outs : List (Nat × Nat) := []
  cycle : Nat := 0
  skips : Nat := 0
  tgen : Nat := 0
  deriving DecidableEq, Repr, Inhabited

/-- A force: its table entry, point tag and value (R212). -/
structure Force where
  idx : Nat := 0
  tag : Nat := 0
  value : Nat := 0
  deriving DecidableEq, Repr, Inhabited

/-- A retained image (R217): the round's stamp, generation, behaviour level, force table and each task's bank. -/
structure RetImage where
  stamp : Nat := 0
  gen : Nat := 0
  blvl : Nat := 0
  forces : List Force := []
  banks : List (Nat × TaskBank) := []
  deriving DecidableEq, Repr, Inhabited

/-- A retained slot: its image, and whether its digest is good (R217). -/
structure RetSlot where
  image : RetImage := {}
  good : Bool := true
  deriving DecidableEq, Repr, Inhabited

/-- A retire-map entry: maker's EUI-48, page, spare index (R291). -/
structure RetireEntry where
  eui : Nat := 0
  page : Nat := 0
  spare : Nat := 0
  deriving DecidableEq, Repr, Inhabited

/-- An entry of the access set that the host ports use (R346). -/
structure HostPortCfg where
  port : Nat := 0
  mode : Nat := 0
  vid : Nat := 0
  ipv4 : Nat := 0
  plen4 : Nat := 0
  plen6 : Nat := 0
  ipv6 : Nat := 0
  gwMac : Nat := 0
  deriving DecidableEq, Repr, Inhabited

/-- A neighbour entry of the access set (R346). -/
structure NeighbourCfg where
  port : Nat := 0
  mac : Nat := 0
  addr : Nat := 0
  deriving DecidableEq, Repr, Inhabited

/-- An access set (R346): ports, neighbours, certificates, client rules (role, fingerprint). -/
structure AccessSet where
  serial : Nat := 0
  ports : List HostPortCfg := []
  neighbours : List NeighbourCfg := []
  certs : List (List Byte) := []
  rules : List (Nat × List Byte) := []
  deriving DecidableEq, Repr, Inhabited

/-- A generation slot: the stored stream and whether its store is complete (R43, R309). -/
structure GenSlot where
  bytes : List Byte := []
  deriving DecidableEq, Repr, Inhabited

/-- What the identity block holds beside the identity and the manufacture date, which never change (R308). -/
structure IdBlock where
  commissioned : Bool := false
  side : Nat := 0
  names : List Nat := []
  blvl : Nat := 0
  highWater : Nat := 0
  current : Option Nat := none
  staged : Option Nat := none
  deriving DecidableEq, Repr, Inhabited

/-- One stored copy of the identity block: its write count, whether its CRC-32 holds, its content (R309). -/
structure IdCopy where
  count : Nat := 0
  good : Bool := true
  block : IdBlock := {}
  deriving DecidableEq, Repr, Inhabited

/-- One stored copy of the epoch reserve (R309). -/
structure ReserveCopy where
  count : Nat := 0
  good : Bool := true
  value : Nat := 0
  deriving DecidableEq, Repr, Inhabited

/-- The content of a keeper cartridge (R308). `idCopies` and `reserveCopies` are the blocks that stand twice in the
flash; `commissioned` to `highWater`, the slot roles `current` and `staged`, and `epochReserve` are their content as the
KPR read it at the mount and has changed it since (R309; log entry 104, DESIGN CHOICE). `lostPages` are the ledger pages whose CRC-32
fails: the 1,024 pages of the founding ledger, then the 16,384 of the running ledger. -/
structure Cartridge where
  ident : Nat := 0
  mfgDay : Nat := 0
  idCopies : List IdCopy := [{}, {}]
  reserveCopies : List ReserveCopy := [{}, {}]
  commissioned : Bool := false
  side : Nat := 0
  names : List Nat := []
  blvl : Nat := 0
  highWater : Nat := 0
  slots : List (Option GenSlot) := [none, none]
  current : Option Nat := none
  staged : Option Nat := none
  retained : List (Option RetSlot) := [none, none]
  retireMap : List RetireEntry := []
  epochReserve : Nat := 0
  mark : Nat := 0
  founding : List LedgerRecord := []
  running : List LedgerRecord := []
  lostPages : List Nat := []
  hasKey : Bool := false
  access : Option AccessSet := none
  written : Nat := 0
  replaceLeft : Nat := 1000
  readOnly : Bool := false
  deriving DecidableEq, Repr, Inhabited

/-- A surge window (chapter 4), once complete: three phases of samples. -/
structure SurgeWindow where
  port : Nat := 0
  station : Nat := 0
  windowId : Nat := 0
  t0 : Nat := 0
  interval : Nat := 0
  count : Nat := 0
  scale : Nat := 0
  quality : Nat := 0
  phases : List (List Int) := []
  stamp : Nat := 0
  deriving DecidableEq, Repr, Inhabited

/-- A location result record (R185). `distSeg` and the other measures are binary32 words. -/
structure WceRecord where
  event : Nat := 0
  inception : Nat := 0
  segment : Nat := 0xFFFF
  refTerminal : Nat := 0xFF
  method : Nat := 0
  distSeg : Nat := 0
  distRef : Nat := 0
  confidence : Nat := 0
  residual : Nat := 0
  used : Nat := 0
  seen : Nat := 0
  flags : Nat := 0
  gen : Nat := 0
  latency : Nat := 0
  deriving DecidableEq, Repr, Inhabited

/-- A mailbox record (R156). -/
structure MbRec where
  value : Nat := 0
  qual : Nat := 0
  gen : Nat := 0
  writer : Nat := 0
  stampSec : Nat := 0
  stampNs : Nat := 0
  deriving DecidableEq, Repr, Inhabited

/-- An image record (R203). -/
structure ImgRec where
  value : Nat := 0
  quality : Nat := 0
  changes : Nat := 0
  stampSec : Nat := 0
  stampNs : Nat := 0
  deriving DecidableEq, Repr, Inhabited

end Sys2Proof.Machine
end

