-- ==== Sys2Proof/Syntax.lean ====
section
/-! DEFINITION. The commands of the block: one constructor of `Instr` for each row of spec/opcode_table.json, in the
table's order, with the operands the chapters give the operation or event. The table gives its rows no operand bits;
the operands are the model's reading of the chapters (log entry 1, DESIGN CHOICE). -/

namespace Sys2Proof

open Sys2Proof.Machine (Cartridge)

/-- When a command takes place: `t` module time in ticks of 2⁻¹⁶ ns since the PTP epoch (R64), `a` nanoseconds of
the always-on oscillator since module reset (R335). -/
structure When where
  t : Nat := 0
  a : Nat := 0
  tag : Nat := 0
  deriving DecidableEq, Repr, Inhabited

/-- Who writes or reads a register: the firmware (identity 0), a host session (identity 9), a split lane
(identities 1 to 3), the debug master (identity 11), or another identity (R34). -/
inductive Agent where
  | firmware
  | host (ses : Fin 8)
  | lane (k : Fin 3)
  | debug
  | other (ident : Fin 32)
  deriving DecidableEq, Repr, Inhabited

/-- A failed injection of the comparator self-test (R233): lane 3 stands for a no-majority injection. -/
structure SelfTestFail where
  lane : Fin 4
  group : Fin 15
  bit : Fin 64
  deriving DecidableEq, Repr

/-- Errors that a unit's hardware finds in itself (R337, sources 32 to 37): how many, the cage of a port error, and the field
outputs that an error affects, bits 7 to 0 the DO and 11 to 8 the AO. -/
structure UnitErrors where
  count : Nat := 0
  inst : Nat := 0
  outputs : Nat := 0
  deriving DecidableEq, Repr, Inhabited

/-- The digests that the three lanes compare at a rejoin (R227, R232). -/
structure Digests where
  d0 : Nat := 0
  d1 : Nat := 0
  d2 : Nat := 0
  deriving DecidableEq, Repr, Inhabited

/-- What the code checks of one line find in the DRAM (R281, R287, R288): no error; under STRONG a corrected error of `bits`
bits in one of the ten devices of the line's sub-channel, or an uncorrectable one; under LIGHT the 64-bit words, bit k for
word k, of which one bit is corrected (`fixed`) and those that cannot be corrected (`lost`). -/
inductive MemFault where
  | none
  | corrected (device : Fin 10) (bits : Nat)
  | uncorrectable
  | words (fixed lost : Fin 256)
  deriving DecidableEq, Repr, Inhabited

/-- What the PTM measures over the period that a strobe closes (R242): input energy in µJ, the rails in mW, the charges
of the stalls whose work runs on engine time, the lanes' digests where the strobe ends a split interval, and the islands
that the strobe does not reach (R33): bits 0 Triad, 1 Phasor, 2 Wavefront, 3 Market, 4 Memory controller, 5 Time, 6 to 21
Port, 22 Host, 23 Pair link, 24 Always-on. -/
structure Measured where
  unseen : Nat := 0
  dram : List (Nat × MemFault) := []
  uj : Nat := 0
  rails : List Nat := []
  spent : List (Nat × Nat) := []
  digests : Digests := {}
  deriving DecidableEq, Repr, Inhabited

/-- A received Sync (R68, R77, R82): the port, `t1` of the message, the raw receive stamp `t2`, the correctionField,
and the frequency estimate the exchange yields, in 1/256 ppb. Ports 64 and 65 are HIF0 and HIF1. A Follow_Up carries
the precise `t1`; a Pdelay_Resp_Follow_Up the peer's receipt time as `t1` and its transmit time as `t2`. `domain` is the
message's PTP domain. -/
structure SyncFrame where
  port : Fin 66
  domain : Nat := 0
  seqId : Nat := 0
  t1 : Nat := 0
  t2 : Nat := 0
  corr : Int := 0
  twoStep : Bool := false
  freqEst : Int := 0
  deriving DecidableEq, Repr

/-- The grandmaster fields of an Announce, its domain and the clock that sent it (R82, R83, R86). -/
structure Announce where
  domain : Nat := 0
  sender : Nat := 0
  identity : Nat := 0
  clockClass : Nat := 248
  accuracy : Nat := 0xFE
  variance : Nat := 0xFFFF
  priority1 : Nat := 128
  priority2 : Nat := 128
  stepsRemoved : Nat := 0
  utcOffset : Int := 0
  leap61 : Bool := false
  leap59 : Bool := false
  inaccuracy : Nat := 0
  powerId : Nat := 0
  deriving DecidableEq, Repr, Inhabited

/-- An IRIG-B frame as decoded (R85): the on-time stamp, and its label: two-digit year, day of year, second of day in
local time, local offset from UTC in seconds, 1344 time quality and leap bits. -/
structure IrigFrame where
  onTime : Nat := 0
  year : Nat := 0
  day : Nat := 1
  secOfDay : Nat := 0
  localOffset : Int := 0
  quality : Nat := 0
  leapPending : Bool := false
  leapDelete : Bool := false
  freqEst : Int := 0
  deriving DecidableEq, Repr, Inhabited

/-- A received Pdelay_Resp (R77, R79): raw receive stamp, correctionField, and the two-step flag. -/
structure PdelayResp where
  port : Fin 66
  domain : Nat := 0
  t4 : Nat := 0
  corr : Int := 0
  twoStep : Bool := false
  deriving DecidableEq, Repr

/-- One input entry of a REPLY (chapter 4). -/
structure ReplyInput where
  value : Nat := 0
  quality : Nat := 0
  stampSec : Nat := 0
  stampNs : Nat := 0
  deriving DecidableEq, Repr, Inhabited

/-- A REPLY frame (R101, R109): `stamp` is the lane's raw arrival stamp, `fcsOk` its frame check. -/
structure ReplyFrame where
  station : Nat := 0
  srcMac : Nat := 0
  task : Fin 16 := 0
  epoch : Nat := 0
  side : Nat := 0
  ackSeq : Nat := 0
  status : Nat := 0
  inCount : Nat := 0
  lengthOk : Bool := true
  inputs : List ReplyInput := []
  stamp : Nat := 0
  fcsOk : Bool := true
  deriving DecidableEq, Repr, Inhabited

/-- The sender and sequence number of a redundancy control trailer (R96). -/
structure Rct where
  src : Nat := 0
  seq : Nat := 0
  deriving DecidableEq, Repr, Inhabited

/-- A HELLO frame (chapter 4); `stamp` is raw. -/
structure HelloFrame where
  rct : Option Rct := none
  station : Nat := 0
  reason : Nat := 0
  stamp : Nat := 0
  deriving DecidableEq, Repr, Inhabited

/-- A SURGE_WINDOW fragment (chapter 4); `stamp` is raw. -/
structure SurgeFrag where
  rct : Option Rct := none
  station : Nat := 0
  windowId : Nat := 0
  t0 : Nat := 0
  interval : Nat := 0
  count : Nat := 1
  frag : Nat := 0
  fragCount : Nat := 1
  phase : Nat := 0
  scale : Nat := 0
  quality : Nat := 0
  first : Nat := 0
  samples : List Int := []
  stamp : Nat := 0
  deriving DecidableEq, Repr, Inhabited

/-- Why a frame is dropped at a station port (R27, R96, R101, R114). -/
inductive DropKind where
  | etherType
  | hsr
  | reservedType
  | version
  | exchange
  | noCredit
  | svNoCredit
  | surgeNoCredit
  deriving DecidableEq, Repr, Inhabited

/-- A queue of R115 in which an error is met. -/
inductive CtlQueue where
  | port (n : Fin 64)
  | forces
  | mailbox
  deriving DecidableEq, Repr, Inhabited

/-- A data-class queue of R115, with the place in it of the window or frame that holds the word. -/
inductive DataQueue where
  | sv (n : Fin 64)
  | surge (pos : Nat)
  | publication (p : Fin 2) (pos : Nat)
  deriving DecidableEq, Repr, Inhabited

/-- One ASDU of a sampled-value frame (R117, R120). -/
structure Asdu where
  smpCnt : Nat := 0
  values : List (Int × Nat) := []
  deriving DecidableEq, Repr, Inhabited

/-- A sampled-value frame (R117): `stamp` is its raw ingress stamp. -/
structure SvFrame where
  rct : Option Rct := none
  appid : Nat := 0x4000
  svId : List Byte := []
  confRev : Nat := 0
  smpSynch : Nat := 0
  rate : Option Nat := none
  simulated : Bool := false
  asdus : List Asdu := []
  stamp : Nat := 0
  deriving DecidableEq, Repr, Inhabited

/-- Where a C37.118.2 command comes from: a TCP connection of the stream, or UDP from an address (R164). -/
inductive C37Path where
  | tcp (conn : Nat)
  | udp (src : List Byte)
  deriving DecidableEq, Repr, Inhabited

/-- A C37.118.2 command frame (R164), and the host port that one by UDP came in by. -/
structure C37Cmd where
  host : Fin 2 := 0
  stream : Fin 64 := 0
  path : C37Path := .tcp 0
  idcode : Nat := 0
  chkOk : Bool := true
  deriving DecidableEq, Repr, Inhabited

/-- The fifteen bit groups of one lane's transaction (R224). -/
structure LaneTx where
  groups : List Nat := []
  deriving DecidableEq, Repr, Inhabited



/-- A transaction of a master (R34, R295): register space is 1, memory 0; `size` is its length in bytes; `memFaults` says by
line of the access, from its first, what the code check finds; `d` the lanes' digests where it is the write that ends a split
interval. -/
structure Tx where
  ident : Fin 18 := 0
  space : Fin 2 := 0
  addr : Nat := 0
  size : Nat := 4
  isWrite : Bool := false
  data : List Byte := []
  memFaults : List (Nat × MemFault) := []
  ses : Fin 8 := 0
  d : Digests := {}
  deriving DecidableEq, Repr, Inhabited

/-- A budgeted stall: a BGT slot, or the transmit stall of a port (R238). -/
inductive Stall where
  | slot (s : Fin 64)
  | port (n : Fin 64)
  deriving DecidableEq, Repr, Inhabited

/-- The header of a received link frame (R256) that matters to its receiver. -/
structure LinkHdr where
  lane : Fin 4 := 0
  epoch : Nat := 0
  side : Nat := 0
  role : Nat := 0
  deriving DecidableEq, Repr, Inhabited

/-- A received HEARTBEAT (R258); `wants` names the tasks in which the sender has found a latent divergence (R269, log entry
108, DESIGN CHOICE). -/
structure Heartbeat where
  hdr : LinkHdr := {}
  wants : Nat := 0
  pcount : Nat := 0
  gen : Nat := 0
  digest16 : Nat := 0
  blvl : Nat := 0
  flags : Nat := 0
  reserve : Nat := 0
  ack : List Nat := []
  heldGen : Nat := 0
  heldDigest : Nat := 0
  deriving DecidableEq, Repr, Inhabited

/-- What a HANDOVER frame names (R270, R273): the strobe H, and the cause of the hand-over for the new primary's record (log entry
109, DESIGN CHOICE). -/
structure HandoverMsg where
  h : Nat := 0
  cause : Nat := 3
  deriving DecidableEq, Repr, Inhabited

/-- Why a link frame is discarded (R256). -/
inductive LinkErr where
  | reservedType
  | badCrc
  | ownSide
  deriving DecidableEq, Repr, Inhabited

/-- A complete COPY as received (R264). `lost` says a frame of it was lost or failed its CRC (R266). -/
structure CopyMsg where
  task : Fin 16 := 0
  tgen : Nat := 0
  cycle : Nat := 0
  base : Nat := 0
  lines : List (Nat × List Byte) := []
  outs : List Nat := []
  forces : Option (List (Nat × Nat)) := none
  skips : Nat := 0
  digest : Nat := 0
  lost : Bool := false
  deriving DecidableEq, Repr, Inhabited

/-- A RESEED frame: lines, or the end record (R267). -/
inductive ReseedMsg where
  | lines (task : Fin 16) (lines : List (Nat × List Byte))
  | done (task : Fin 16) (outs : List Nat) (cycle skips : Nat) (forces : List (Nat × Nat))
  deriving DecidableEq, Repr, Inhabited

/-- What a TLS handshake shows (R349): the version, cipher suite, group and signature scheme that the client settles for, by
their numbers in RFC 8446, whether it rests on a resumption, a pre-shared key or early data; each certificate's fingerprint,
whether every signature and proof holds, and the validity periods in seconds. -/
structure Handshake where
  version : Nat := 0x0304
  suite : Nat := 0x1302
  group : Nat := 0x0018
  scheme : Nat := 0x0503
  resumed : Bool := false
  certs : List (List Byte) := []
  proven : Bool := true
  chainOk : Bool := true
  validity : List (Nat × Nat) := []
  deriving DecidableEq, Repr, Inhabited

/-- A block of a firmware image, and how the flash of the slot took it (R362, R366): its erasure before the first block, its
write. -/
structure FlashBlock where
  bytes : List Byte := []
  flashOk : Bool := true
  deriving DecidableEq, Repr, Inhabited

/-- The action of a LOAD_COMMIT with target 3 (R347, R354): commit, with whether the set's first certificate carries the keeper's
public key; revert, which target 1 alone knows; abort. -/
inductive AccessAct where
  | commit (keyOk : Bool)
  | revert
  | abort
  deriving DecidableEq, Repr, Inhabited

/-- An ARCHIVE_READ mode 1 request (R354). -/
structure RowsReq where
  segment : Nat := 0
  chFirst : Nat := 0
  chCount : Nat := 0
  rows : Nat := 0
  rowFirst : Nat := 0
  deriving DecidableEq, Repr, Inhabited

/-- The rows that an ARCHIVE_READ asks for, and the faults that its reads meet (address, what the code check finds). -/
structure RowsRead where
  req : RowsReq := {}
  faults : List (Nat × MemFault) := []
  deriving DecidableEq, Repr, Inhabited

/-- The nanoseconds of a time and their fraction of 2⁻¹⁶ (R64). -/
structure SubSec where
  ns : Nat := 0
  frac : Nat := 0
  deriving DecidableEq, Repr, Inhabited

/-- A Pdelay_Req: its domain, and its stamp as it arrived. -/
structure PdelayReq where
  domain : Nat := 0
  rxStamp : Nat := 0
  deriving DecidableEq, Repr, Inhabited

/-- A task's freeze, and the stations whose on-time reply is still being received (R107). -/
structure Freeze where
  task : Fin 16 := 0
  receiving : List Nat := []
  deriving DecidableEq, Repr, Inhabited

/-- The commands of the CM64: the rows of the opcode table. -/
inductive Instr where
  | powerApplied (w : When) (feed1 feed2 : Nat) (coding : Fin 4) (latchOpen powerGood : Bool)
  | bootRomSelect (w : When)
  | comparatorSelftest (w : When) (fail : Option SelfTestFail)
  | memClear (w : When) (who : Agent)
  | memClearDone (w : When)
  | keeperCheck (w : When)
  | generationLoad (w : When)
  | pairNegotiation (w : When)
  | negotiateTimeout (w : When)
  | periodStrobe (w : When) (m : Measured)
  | maskMiss (w : When)
  | strobeLoss (w : When) (island : Nat)
  | syncReceived (w : When) (f : SyncFrame)
  | ptpAnnounceReceived (w : When) (port : Fin 66) (f : Announce)
  | ppsEdge (w : When) (stamp : Nat) (freqEst : Int)
  | irigbFrame (w : When) (f : IrigFrame)
  | sourceLoss (w : When)
  | sourceQualified (w : When) (kind : Fin 4) (port : Fin 66)
  | acqTimeout (w : When)
  | holdoverLimit (w : When)
  | leapApply (w : When)
  | tmbSnap (w : When) (who : Agent)
  | stepAccept (w : When) (who : Agent)
  | tmbFreqTrimWrite (w : When) (who : Agent) (v : Word)
  | tmbPhaseStepWrite (w : When) (who : Agent) (v : Word)
  | tmbSrcWrite (w : When) (who : Agent) (v : Word)
  | pulseArm (w : When) (who : Agent) (g : Fin 12)
  | pulseDisarm (w : When) (who : Agent) (g : Fin 12)
  | pulseEdge (w : When) (g : Fin 12)
  | syncTransmit (w : When) (port : Fin 64) (stampA stampB : Nat)
  | announceTransmit (w : When) (port : Fin 64)
  | pdelayReqTransmit (w : When) (port : Fin 66) (stamp : Nat)
  | pdelayReqReceived (w : When) (port : Fin 66) (m : PdelayReq) (txStamp : Nat)
  | pdelayRespReceived (w : When) (f : PdelayResp)
  | portLinkChange (w : When) (port : Fin 64) (up : Bool)
  | laserOffWrite (w : When) (who : Agent) (port : Fin 64) (off : Bool)
  | replyReceived (w : When) (port : Fin 64) (f : ReplyFrame)
  | helloReceived (w : When) (port : Fin 64) (f : HelloFrame)
  | resyncSend (w : When) (station : Fin 2048) (task : Fin 16)
  | surgeFragmentReceived (w : When) (port : Fin 64) (f : SurgeFrag)
  | surgeWindowTimeout (w : When) (port : Fin 64) (station windowId : Nat)
  | unknownFrame (w : When) (port : Fin 64) (kind : DropKind)
  | prpSupervision (w : When) (port : Fin 32)
  | controlQueueError (w : When) (q : CtlQueue)
  | dataQueueError (w : When) (q : DataQueue) (corrected : Bool)
  | opticalModuleChange (w : When) (cage : Fin 16) (fitted highPower signal txFault : Bool)
  | svFrameReceived (w : When) (port : Fin 64) (f : SvFrame)
  | subscriptionLost (w : When) (sub : Fin 512)
  | slotEmit (w : When)
  | sviFrzReq (w : When) (who : Agent)
  | sviFrzRelease (w : When) (who : Agent) (win : Fin 4)
  | archiveFreeze (w : When) (ses : Fin 8) (pre post tSec : Nat) (tNs : SubSec)
  | archiveRelease (w : When) (ses : Fin 8) (win : Nat)
  | archiveReadRows (w : When) (ses : Fin 8) (r : RowsRead)
  | archiveReadMemory (w : When) (ses : Fin 8) (addr len64 : Nat) (faults : List (Nat × MemFault))
  | publicationFrameSend (w : When) (host : Fin 2) (readFault : MemFault)
  | c37TcpConnect (w : When) (host : Fin 2) (stream : Fin 64) (conn : Nat)
  | c37TcpClose (w : When) (stream : Fin 64) (conn : Nat)
  | c37TxOff (w : When) (c : C37Cmd)
  | c37TxOn (w : When) (c : C37Cmd)
  | c37SendCfg2 (w : When) (c : C37Cmd)
  | c37SendCfg3 (w : When) (c : C37Cmd)
  | c37CommandIgnored (w : When)
  | wceWindowTake (w : When)
  | wceCollectExpiry (w : When)
  | wceResult (w : When)
  | wceRecommit (w : When)
  | taskFreeze (w : When) (f : Freeze)
  | taskStartSignal (w : When) (task : Fin 16) (d : Digests)
  | seqCommit (w : When) (who : Agent) (task : Fin 16)
  | commitComplete (w : When) (task : Fin 16)
  | retNow (w : When) (who : Agent)
  | forceSet (w : When) (ses : Fin 8) (tag : Nat) (value : Word)
  | forceClear (w : When) (ses : Fin 8) (tag : Nat)
  | forceRead (w : When) (ses : Fin 8) (idx : Nat)
  | triadTransaction (w : When) (cycle : Nat) (l0 l1 l2 : LaneTx)
  | rejoinStartTimeout (w : When)
  | tcmCopyComplete (w : When)
  | rejoinFinalStep (w : When) (d : Digests)
  | split (w : When) (who : Agent)
  | splitEnd (w : When) (who : Agent) (d : Digests)
  | debugArm (w : When) (who : Agent) (lane : Fin 4)
  | debugDetach (w : When) (who : Agent)
  | debugArmLapse (w : When)
  | probeAttach (w : When) (lane : Fin 4) (session : Nat)
  | probeDetach (w : When)
  | masterTransaction (w : When) (tx : Tx)
  | budgetExhausted (w : When) (stall : Stall) (charge : Nat) (d : Digests)
  | sensorConversion (w : When) (sensor : Fin 12) (temp : Int)
  | thermalDegradedEntry (w : When)
  | thermalHandoverRepeat (w : When)
  | thermalDegradedExit (w : When)
  | feedStateChange (w : When) (mv1 mv2 : Nat) (carry : Fin 3)
  | powerFail (w : When) (rideLow : Bool)
  | finalRoundComplete (w : When) (complete : Bool) (stored : Nat)
  | bankTest (w : When)
  | bankTestComplete (w : When) (ride hold : Nat)
  | overtempTrip (w : When) (sensor : Fin 12)
  | overtempRecover (w : When)
  | wvlAlive (w : When) (who : Agent)
  | heartbeatReceived (w : When) (h : Heartbeat)
  | linkFrameDiscard (w : When) (lane : Fin 4) (e : LinkErr)
  | laneDown (w : When) (lane : Fin 4)
  | heartbeatMiss (w : When)
  | takeover (w : When)
  | copyReceived (w : When) (h : LinkHdr) (c : CopyMsg)
  | reseedSend (w : When) (task : Fin 16) (lines : Nat)
  | reseedReceived (w : When) (h : LinkHdr) (m : ReseedMsg)
  | relinquishReceived (w : When) (h : LinkHdr) (hstrobe : Nat)
  | handoverAnnounce (w : When)
  | handoverReceived (w : When) (h : LinkHdr) (m : HandoverMsg)
  | handoverAckReceived (w : When) (h : LinkHdr) (hstrobe : Nat)
  | handoverStrobe (w : When)
  | yieldToPartner (w : When)
  | wvlHandover (w : When) (who : Agent)
  | pairHandover (w : When) (ses : Fin 8)
  | pairTakeover (w : When) (ses : Fin 8)
  | pairResync (w : When) (ses : Fin 8)
  | pairEpochAdvance (w : When) (ses : Fin 8) (amount : Nat)
  | pairForcePrimary (w : When) (ses : Fin 8)
  | scrubFloor (w : When) (fault : MemFault)
  | scrubLine (w : When) (who : Agent) (fault : MemFault)
  | retire (w : When) (who : Agent)
  | retireCopyComplete (w : When) (faults : List (Nat × MemFault))
  | purgeForeign (w : When) (who : Agent)
  | ceLogAck (w : When) (who : Agent) (idx : Fin 32)
  | crtRtInstall (w : When) (who : Agent)
  | crtRtEmpty (w : When) (who : Agent)
  | crtRtInvalidAction (w : When) (who : Agent)
  | crtDrainComplete (w : When)
  | wardDrainComplete (w : When) (ward : Fin 9)
  | keeperInsert (w : When) (c : Cartridge)
  | boltClose (w : When)
  | boltOpen (w : When)
  | keeperSafe (w : When)
  | keeperRemove (w : When)
  | commission (w : When) (who : Agent)
  | recommission (w : When) (who : Agent)
  | keeperPageAdmit (w : When)
  | bitstreamStoreComplete (w : When) (ok : Bool)
  | partnerStoreComplete (w : When) (ok : Bool)
  | keeperStale (w : When)
  | ledgerPageTimeout (w : When)
  | suppressionSummary (w : When)
  | lgrReq (w : When) (who : Agent)
  | lgrRead (w : When) (who : Agent)
  | lgrSnap (w : When) (who : Agent)
  | ledgerSnap (w : When) (ses : Fin 8)
  | ledgerRead (w : When) (ses : Fin 8) (first count : Nat)
  | sourceSevere (w : When) (source : Fin 48) (d : Digests) (e : UnitErrors)
  | fcrAck (w : When) (who : Agent) (source : Fin 64)
  | fcrCfgWrite (w : When) (who : Agent) (v : Word)
  | shpConnect (w : When) (port : Fin 2) (linkLocal : Bool)
  | tlsHandshake (w : When) (ses : Fin 8) (h : Handshake)
  | handshakeTimeout (w : When) (ses : Fin 8)
  | sessionIdleTimeout (w : When) (ses : Fin 8)
  | sessionClose (w : When) (ses : Fin 8) (framing : Bool)
  | hello (w : When) (ses : Fin 8) (version : Nat)
  | read (w : When) (ses : Fin 8) (addrs : List Nat)
  | write (w : When) (ses : Fin 8) (entries : List (Nat × Word))
  | shpReservedType (w : When) (ses : Fin 8) (ty : Nat)
  | bitstreamLoadBlock (w : When) (ses : Fin 8) (offset : Nat) (data : List Byte)
  | firmwareLoadBlock (w : When) (ses : Fin 8) (offset : Nat) (data : FlashBlock)
  | accessSetLoadBlock (w : When) (ses : Fin 8) (offset : Nat) (data : List Byte)
  | bitstreamCommit (w : When) (ses : Fin 8)
  | bitstreamRevert (w : When) (ses : Fin 8)
  | bitstreamAbort (w : When) (ses : Fin 8)
  | bslAbort (w : When) (who : Agent)
  | bitstreamLoadTimeout (w : When)
  | firmwareCommit (w : When) (ses : Fin 8)
  | firmwareReadbackComplete (w : When) (flashOk : Bool)
  | firmwareRevert (w : When) (ses : Fin 8)
  | firmwareAbort (w : When) (ses : Fin 8)
  | updAbort (w : When) (who : Agent)
  | firmwareLoadTimeout (w : When)
  | accessSetCommit (w : When) (ses : Fin 8) (act : AccessAct) (chainOk : Bool)
  | accessSetStored (w : When)
  | notifySubscribe (w : When) (ses : Fin 8) (kinds : Fin 4) (sources : BitVec 160)
  | notifyLostReport (w : When) (ses : Fin 8)
  | bulkReadWithheld (w : When) (ses : Fin 8)
  | trimZero (w : When) (ses : Fin 8) (channel : Nat) (v : Int)
  | trimSpan (w : When) (ses : Fin 8) (channel : Nat) (v : Int)
  | hostArpRequest (w : When) (port : Fin 2) (target : Nat)
  | hostNeighbourSolicitation (w : When) (port : Fin 2) (target : Nat)
  | hostEchoRequest (w : When) (port : Fin 2) (v6 : Bool) (target : Nat)
  | hostFrameDiscard (w : When) (port : Fin 2)
  | hostLinkChange (w : When) (port : Fin 2) (up : Bool)
  | diChangeAccept (w : When) (ch : Fin 16) (level : Bool) (stamp : Nat)
  | diWireBreak (w : When) (ch : Fin 16)
  | diWireBreakClear (w : When) (ch : Fin 16)
  | outputApply (w : When) (task : Fin 16)
  | doToggleWaitEnd (w : When) (ch : Fin 8)
  | doShutdown (w : When) (ch : Fin 8)
  | doRetry (w : When) (ch : Fin 8) (holds : Bool)
  | doMismatch (w : When) (ch : Fin 8) (present : Bool)
  | aoTerminalFault (w : When) (ch : Fin 4)
  | aoTerminalTest (w : When) (ch : Fin 4) (inRange : Bool)
  | aoCommission (w : When) (who : Agent) (ch : Fin 4)
  | aoCommissionEnd (w : When) (who : Agent)
  | zeroButton (w : When)
  | spanButton (w : When)
  | commissionTimeout (w : When)
  | fieldSupplyChange (w : When) (mv : Nat)
  | terminalBlockUnplug (w : When)
  | restartWarm (w : When) (who : Agent)
  | restartCold (w : When) (who : Agent)
  | restartExecute (w : When) (stored : Nat)
  | latchOpen (w : When)
  | latchClose (w : When)
  | registerWrite (w : When) (who : Agent) (addr : Nat) (v : Word) (d : Digests)
  | followUpReceived (w : When) (f : SyncFrame) (isPdelay : Bool)
  | ptpFrameDiscard (w : When) (port : Fin 66)
  | frameCheckError (w : When) (port : Fin 66)
  | partnerCommitReceived (w : When) (h : LinkHdr) (gen digest : Nat)
  | activationPeriodReceived (w : When) (h : LinkHdr) (a : Nat)
  | keeperWriteComplete (w : When) (ok : Bool)
  | scrubAboveFloor (w : When) (fault : MemFault)
  deriving DecidableEq, Repr

end Sys2Proof
end

