-- ==== Sys2Proof/Config.lean ====
section
/-! DEFINITION. What an implementation fixes and the spec leaves open: free values. None has a body, so nothing can
be proved about the value it takes. `State.fresh` counts the free values already used. -/

namespace Sys2Proof.Config

/-- The frequency steering the servo chooses after a sample (R68 gives its bandwidths and bounds, not its law), in
1/256 ppb, before the clamps of R73. Log entry 10, DESIGN CHOICE. -/
opaque servoSteer : Nat → Int

/-- The fixed coefficients of the FIR filters, in units of 2⁻³⁰, by rate code, phase and tap (R123 gives error bounds, not
the coefficients). Log entry 11, DESIGN CHOICE. -/
opaque firCoef : Nat → Nat → Nat → Int

/-- Which of its two integer neighbours an aligned value that is a fraction takes (R123, R125 state no rounding). Log entry
21, DESIGN CHOICE. -/
opaque countUp : Int → Nat → Bool

/-- Which of the three binary32 neighbours of the exact result a magnitude, angle or FREQ result takes (R137: within
1 unit in the last place). Log entry 12, DESIGN CHOICE. -/
opaque ulpPick : Nat → Fin 3

/-- What a read of the sealed keeper key material answers (R402: content not described). Log entry 13, DESIGN CHOICE. -/
opaque keyMaterial : Nat → BitVec 32

/-- What a read of the fuse shadow answers (R402 names it, its layout is not given). Log entry 13, DESIGN CHOICE. -/
opaque fuseShadow : Nat → BitVec 32

/-- The engine cycles that the location of an event uses (R188 gives a bound, not the count). Log entry 14, DESIGN CHOICE. -/
opaque engineCycles : Nat → Nat

/-- What a unit takes from a word of main memory that it could not read (R288: such a read returns no data). Log
entry 18, DESIGN CHOICE. -/
opaque unreadable : Nat → BitVec 32

/-- The digest of a task of which a line could not be read (R269, R288: the read returns no data). Log entry 18, DESIGN
CHOICE. -/
opaque openDigest : Nat → BitVec 64

/-- The word of a result that the spec does not state: the angle of zero, arithmetic on what is not a finite number.
Log entry 19, DESIGN CHOICE. -/
opaque openWord : Nat → BitVec 32

/-- The sub-sample position of a peak among three equal samples, given the three (R171 states none); the value lies between
−0.5 and 0.5. Log entry 31, DESIGN CHOICE. -/
opaque flatDelta : Nat → Nat → Nat → BitVec 32

/-- The fields of a result that the spec does not state, by field and by the event's inputs: its generation, terminals and
times (R184, R185). Log entry 32, DESIGN CHOICE. -/
opaque resultWord : Nat → List Int → BitVec 32

/-- The number by which record 0x0705 gives the cause that ended a debug session (R236, R325 state no numbers). Log
entry 29, DESIGN CHOICE. -/
opaque debugEndCause : Nat → BitVec 32

/-- How long the hand-over after a split takes, in ns, by the count of splits (R232 gives a bound). Log entry 102, DESIGN
CHOICE. -/
opaque splitStepNs : Nat → Nat

/-- The group that record 0x0701 gives for a lane fenced with no vote (R227 states none). Log entry 28, DESIGN CHOICE. -/
opaque noVoteGroup : Nat → BitVec 32

/-- The number by which record 0x0903 gives a feed's state (R249, R325 state no numbers). Log entry 59, DESIGN CHOICE. -/
opaque feedWord : Nat → BitVec 32

/-- The number by which record 0x0904 gives a hold-up bank (R251, R325 state no numbers). Log entry 59, DESIGN CHOICE. -/
opaque bankWord : Nat → BitVec 32

/-- Which neighbour half of an odd link delay takes, at a module time (R82 states no rounding). Log entry 17, DESIGN CHOICE. -/
opaque halfUp : Nat → Bool

/-- The cause of a change from ORPHAN or MISMATCH to SYNCING at a module time: R270 lists none. Log entry 62, DESIGN CHOICE. -/
opaque rejoinCause : Nat → Fin 14

end Sys2Proof.Config
end

