-- ==== Sys2Proof/Machine/UnitState.lean ====
section
/-! DEFINITION. The state of each unit, one structure a unit, every field with its value at module reset: the
value of the spec's Reset column (R403), or the value the log entries name. -/

namespace Sys2Proof.Machine

/-! ### Event registers (R358, R359) -/

/-- Which unit event register an event bit lies in. -/
inductive EvtReg where
  | prt (n : Nat)
  | tevt (t : Nat)
  | tmb | fcr | ptm | wvl | lgr | kpr | svi | phe | wce | upd | bsl | hif
  deriving DecidableEq, Repr, Inhabited

/-- A W1C bit that hardware has set (R13): the register's address, the bit, the reader whose copy it is where the register
is held twice (`some true` the host), and the instant on both clocks. -/
structure HwMark where
  addr : Nat := 0
  bit : Nat := 0
  reader : Option Bool := none
  now : Nat := 0
  aon : Nat := 0
  deriving DecidableEq, Repr, Inhabited

/-- The unit event registers, and the EVT block (chapter 16). The time base and the bit-stream loader have no
event register: their sources assert at each happening. `hw` holds the W1C bits that hardware set at the latest instant. -/
structure EvtState where
  hw : List HwMark := []
  prt : List Nat := List.replicate 64 0
  tevt : List Nat := List.replicate 16 0
  fcr : Nat := 0
  ptm : Nat := 0
  wvl : Nat := 0
  lgr : Nat := 0
  kpr : Nat := 0
  svi : Nat := 0
  phe : Nat := 0
  wce : Nat := 0
  upd : Nat := 0
  hif : Nat := 0
  pend : BitVec 160 := 0
  fwEn : BitVec 160 := 0
  hostEn : BitVec 160 := 0
  deriving DecidableEq, Repr, Inhabited

/-! ### GEN: fuses, start-up, restart (chapters 0, 14, 19) -/

/-- A restart that has been requested and not yet executed (R396): its kind, and the always-on time it is due at;
`atH` says it waits for the strobe H of a hand-over first. -/
structure RestartReq where
  cold : Bool := false
  due : Nat := 0
  atH : Bool := false
  entry : Nat := 1
  deriving DecidableEq, Repr, Inhabited

/-- The fuses, the GEN block and the start-up state. -/
structure GenState where
  unitPresent : Nat := 7
  eui : Nat := 0
  blvlMin : Nat := 0
  blvlMax : Nat := 0
  entry : Nat := 0
  kind : Nat := 0
  reason : Nat := 0
  held : Bool := false
  latchOpen : Bool := false
  phase : Nat := 0
  powerGood : Bool := false
  commandedCold : Bool := false
  turned : Bool := false
  restart : Option RestartReq := none
  deriving DecidableEq, Repr, Inhabited

/-! ### TMB (chapter 3) -/

/-- One copy of the `TMB_SNAP_` registers: module time, period count, period index. -/
structure TmbSnap where
  time : Nat := 0
  pcount : Nat := 0
  deriving DecidableEq, Repr, Inhabited

/-- A pulse generator (R89, R90). `k` is the index of the pulse in progress or next; `active` the pulse level. -/
structure PulseGen where
  polarity : Bool := false
  armed : Bool := false
  running : Bool := false
  late : Bool := false
  done : Bool := false
  conflict : Bool := false
  disarming : Bool := false
  startLo : Nat := 0
  startHi : Nat := 0
  startNs : Nat := 0
  period : Nat := 0
  width : Nat := 0
  count : Nat := 0
  remaining : Nat := 0
  k : Nat := 0
  deriving DecidableEq, Repr, Inhabited

/-- What is known of one source: PTP on a port, or the pin sources (kind 2 IRIG-B, 3 PPS and IRIG-B). `announce` is the
last Announce of the port's master, `rival` the last one of another clock that has not taken its place. -/
structure SourceSeen where
  kind : Nat := 0
  port : Nat := 0
  announce : Announce := {}
  rival : Option (Announce × Nat) := none
  lastAnnounce : Nat := 0
  lastSync : Nat := 0
  qualifiedSince : Option Nat := none
  deriving DecidableEq, Repr, Inhabited

/-- The time base. Frequencies are in 1/256 ppb; `freqUsed` is the total steering in use at the always-on instant
`freqAt`; `acqJudged` says that P5 has ended, `acqChecked` that the 30 s of R74 are over; `lostAt` is when the source in
use was lost with the servo LOCKED (R88); `utcLog` the changes of the TAI − UTC offset, newest first, each with the offset
it replaced; `irigLeaps` the leap seconds tracked from 1344 bits (R86); `twoStepRx` the arrival of the waiting Sync,
corrected by the constants of that moment (R78); `pdelayT1` the raw stamps of the Pdelay_Reqs that wait for their answer; `asymOld` the
constants that the last `ASYMMETRY` swap replaced at the module time `asymAt`. -/
structure TmbState where
  tpo : List Bool := List.replicate 4 false
  state : Nat := 0
  timeSet : Bool := false
  implausible : Bool := false
  acqTimeout : Bool := false
  trimRefused : Bool := false
  srcPort : Nat := 0x7F
  srcKind : Nat := 0
  usedKind : Nat := 0
  usedPort : Nat := 0x7F
  sources : List SourceSeen := []
  offset : Int := 0
  servoFreq : Int := 0
  freqTrim : Int := 0
  freqUsed : Int := 0
  freqAt : Nat := 0
  lastSampleAt : Nat := 0
  utcKnown : Bool := false
  stepLeft : Int := 0
  badOffset : Int := 0
  goodRun : Nat := 0
  lastEst : Option Int := none
  outlierRun : Nat := 0
  outliers : Nat := 0
  refusals : Nat := 0
  everLocked : Bool := false
  lockedSince : Option Nat := none
  leftLocked : Option Nat := none
  stateLog : List (Nat × Nat) := []
  holdSince : Option Nat := none
  holdLimit : Nat := 0
  ocxoAtEntry : Int := 0
  p5Start : Nat := 0
  acqJudged : Bool := false
  acqChecked : Bool := false
  lostAt : Option Nat := none
  lastPps : Option Nat := none
  ppsSeen : Option Nat := none
  irigSeen : Option Nat := none
  irigLabel : Option (Nat × Nat) := none
  taiUtc : Int := 0
  leapAdd : Bool := false
  leapDel : Bool := false
  leapAt : Nat := 0
  lastLeap : Option (Nat × Bool) := none
  utcLog : List (Nat × Int) := []
  irigLeaps : Int := 0
  retainedLoad : Option Nat := none
  gens : List PulseGen := List.replicate 12 {}
  snapFw : TmbSnap := {}
  snapHost : TmbSnap := {}
  meanDelay : List Int := List.replicate 66 0
  asymOld : List AsymCfg := []
  asymAt : Option Nat := none
  pdelayT1 : List (Option Nat) := List.replicate 66 none
  pdelayResp : List (Option PdelayResp) := List.replicate 66 none
  twoStep : Option SyncFrame := none
  twoStepRx : Int := 0
  deriving DecidableEq, Repr, Inhabited

/-! ### PRT (chapter 4) -/

/-- The PTP and supervision messages that a station port sends (R110). -/
inductive MsgKind where
  | sync
  | pdelayReq
  | pdelayResp (rx tx : Nat)
  | announce
  | supervision
  deriving DecidableEq, Repr, Inhabited

/-- The PTP event messages leave first (R110). -/
def MsgKind.event : MsgKind → Bool
  | .sync => true
  | .pdelayReq => true
  | .pdelayResp _ _ => true
  | .announce => false
  | .supervision => false



/-- A Pdelay_Resp. -/
def MsgKind.isResp : MsgKind → Bool
  | .pdelayResp _ _ => true
  | .sync => false
  | .pdelayReq => false
  | .announce => false
  | .supervision => false

/-- A message that waits for its port's transmit stall (R110, R116), with its redundancy sequence number. -/
structure WaitMsg where
  kind : MsgKind := .sync
  rct : Option Nat := none
  deferred : Bool := false
  deriving DecidableEq, Repr, Inhabited

/-- A redundancy trailer seen on a lane of a PRP pair (R96): sender, sequence number, lane, and when. -/
structure RctSeen where
  rct : Rct := {}
  lane : Nat := 0
  at_ : Nat := 0
  deriving DecidableEq, Repr, Inhabited

/-- A frame waiting in a port's control-class output queue; `enq` says that the sequencer has had credit for it (R114),
`rct` is its redundancy sequence number on a PRP pair. -/
structure OutFrame where
  enq : Bool := false
  rct : Option Nat := none
  station : Nat := 0
  task : Nat := 0
  seq : Nat := 0
  resync : Bool := false
  apply : Nat := 0
  outs : List Nat := []
  bytes : Nat := 0
  rank : Nat := 0
  deferred : Bool := false
  deriving DecidableEq, Repr, Inhabited

/-- A surge window under reassembly (R103): its fragments, and when the first came; `closed` once it has been queued or
discarded, so that it counts once. -/
structure PartialWin where
  station : Nat := 0
  windowId : Nat := 0
  first : Nat := 0
  frags : List SurgeFrag := []
  closed : Bool := false
  deriving DecidableEq, Repr, Inhabited

/-- One station port. `txCredit` is what is left of the bytes granted to the sequencer for the period, `ctlCredit` of the
16 further control frames (R114); `rctNext` numbers the frames that a PRP pair sends, `rctSeen` holds what its duplicate
discard remembers (R96). -/
structure PortState where
  laserOff : Bool := false
  link : Bool := false
  signal : Bool := false
  fitted : Bool := false
  highPower : Bool := false
  txFault : Bool := false
  fenced : Bool := false
  resuming : Bool := false
  selFw : Nat := 0
  selHost : Nat := 0
  outq : List OutFrame := []
  waitq : List WaitMsg := []
  svq : Nat := 0
  txCredit : Nat := 0
  rctNext : Nat := 0
  rctSeen : List RctSeen := []
  spent : Nat := 0
  overshoot : Nat := 0
  exhausted : Bool := false
  txBytes : Nat := 0
  syncSent : Bool := false
  reqSent : Bool := false
  respSent : Bool := false
  heldReq : Option (Nat × Nat) := none
  ctlCredit : Nat := 0
  partials : List PartialWin := []
  txDefer : Nat := 0
  late : Nat := 0
  stale : Nat := 0
  unknown : Nat := 0
  discard : Nat := 0
  ptpDiscard : Nat := 0
  dataDrop : Nat := 0
  surgeDiscard : Nat := 0
  fcsErr : Nat := 0
  qreset : Nat := 0
  eccCorr : Nat := 0
  resync : Nat := 0
  deriving DecidableEq, Repr, Inhabited

/-- A station as the primary holds it (R112): the status bits of its last valid reply; `valid` once it has replied. -/
structure StnState where
  number : Nat := 0
  valid : Bool := false
  state : Nat := 0
  missed : Nat := 0
  status : Nat := 0
  deriving DecidableEq, Repr, Inhabited

/-- How the latest cycle EXCHANGE of a stream was answered. -/
inductive AckState where
  | none
  | late
  | onTime
  deriving DecidableEq, Repr, Inhabited

/-- A stream: one station's exchange with one task (R99). `seq` is the latest `SEQ` once `sent`; `ack` tells of the latest
cycle EXCHANGE, `verdict` what the last freeze found; `reply` holds the on-time reply of the cycle; `copies` names the
lanes that have delivered a reply to the latest EXCHANGE, `lateLane` the lane of a PRP pair on which a late copy waits for
the other one (R97). -/
structure StreamState where
  station : Nat := 0
  task : Nat := 0
  seq : Nat := 0
  sent : Bool := false
  cycleSeq : Nat := 0
  skipped : Bool := false
  ack : AckState := .none
  answered : Bool := false
  copies : List Nat := []
  lateLane : Option Nat := none
  judged : Bool := false
  verdict : AckState := .none
  outs : List Nat := []
  apply : Nat := 0
  reply : Option ReplyFrame := none
  resyncBy : Option Nat := none
  deriving DecidableEq, Repr, Inhabited

/-- The station ports and the stations. -/
structure PrtState where
  ports : List PortState := List.replicate 64 {}
  stations : List StnState := []
  streams : List StreamState := []
  deriving DecidableEq, Repr, Inhabited

/-! ### SVI (chapter 5) -/

/-- A sample held by the intake: its index S × rate + SmpCnt, and per channel its value and flags (R126). -/
structure SampleRow where
  idx : Nat := 0
  chans : List (Int × Nat) := []
  deriving DecidableEq, Repr, Inhabited

/-- One subscription's state (R122). -/
structure SubState where
  state : Nat := 0
  lastAccept : Nat := 0
  synch : Nat := 0
  notBefore : Nat := 0
  rows : List SampleRow := []
  counted : Nat := 0
  frames : Nat := 0
  missing : Nat := 0
  interp : Nat := 0
  discard : Nat := 0
  mismatch : Nat := 0
  deriving DecidableEq, Repr, Inhabited

/-- An archive segment descriptor (R130). -/
structure SegState where
  firstSlot : Nat := 0
  rows : Nat := 0
  gen : Nat := 0
  channels : Nat := 0
  state : Nat := 0
  windows : Nat := 0
  deriving DecidableEq, Repr, Inhabited

/-- A freeze window (R131, R132): slots `first` to `last`. -/
structure WinState where
  state : Nat := 0
  host : Bool := false
  clipped : Bool := false
  first : Nat := 0
  last : Nat := 0
  deriving DecidableEq, Repr, Inhabited

/-- The sampled-value intake and the archive writer. After a swap of `SV_SUBS`, `oldSec` and `oldSubs` serve the slots
before `boundary` that are still to be emitted (R127). -/
structure SviState where
  subs : List SubState := []
  subSelFw : Nat := 0
  subSelHost : Nat := 0
  unsubscribed : Nat := 0
  lastSlot : Option Nat := none
  boundary : Nat := 0
  oldSubs : Option (List SubState) := none
  oldSec : SvSec := {}
  oldGen : Nat := 0
  segs : List SegState := List.replicate 192 {}
  writing : Option Nat := none
  lastSeg : Nat := 0
  half : List Byte := []
  stopped : Bool := false
  archSlot : Nat := 0
  skipped : Nat := 0
  wins : List WinState := List.replicate 4 {}
  tLo : Nat := 0
  tHi : Nat := 0
  tNs : Nat := 0
  pre : Nat := 0
  post : Nat := 0
  frzWin : Nat := 0
  frzResult : Nat := 0
  fenced : Bool := false
  deriving DecidableEq, Repr, Inhabited

/-! ### PHE and publication (chapter 6) -/

/-- A store word: its address, binary32 value and flags; a word not listed is 0 with INVALID (R138). -/
structure StoreWord where
  addr : Nat := 0
  value : Nat := 0
  flags : Nat := 1
  deriving DecidableEq, Repr, Inhabited

/-- A value that a PUB step wrote: byte offset, bytes, and the flags it carries. -/
structure PubVal where
  off : Nat := 0
  bytes : List Byte := []
  flags : Nat := 0
  deriving DecidableEq, Repr, Inhabited

/-- A completed data frame waiting in a host port's publication queue, for a TCP connection or, with none, by UDP; `era`
stands beside its SOC (R92). -/
structure PubFrame where
  dest : Option Nat := none
  era : Nat := 0
  stream : Nat := 0
  host : Nat := 0
  due : Nat := 0
  bytes : List Byte := []
  deriving DecidableEq, Repr, Inhabited

/-- A TCP connection to a stream (R159, R164); data frames dated from `since` on go to it while it is on. -/
structure TcpConn where
  conn : Nat := 0
  host : Nat := 0
  on : Bool := false
  since : Nat := 0
  deriving DecidableEq, Repr, Inhabited

/-- A data stream's state; data frames dated from `udpSince` on go by UDP while `udpOn`. -/
structure StrState where
  frames : Nat := 0
  dropped : Nat := 0
  udpOn : Bool := false
  udpSince : Nat := 0
  conns : List TcpConn := []
  body : List PubVal := []
  deriving DecidableEq, Repr, Inhabited

/-- The phasor engine, the mailbox and the publication queues. `held` are the slots emitted while stall slot 16 was
exhausted (R25). Of the mailbox (R20), `newest` is the bank of the newest complete set, `locked` the task whose snapshot
holds a bank, and `before` the bank of the set committed before the instant of the latest commit. -/
structure PheState where
  held : List (Nat × List (Int × Nat)) := []
  locked : Option (Nat × Nat) := none
  before : Option (Nat × Nat × Nat) := none
  store : List StoreWord := []
  freqRegs : List Nat := List.replicate 64 0
  freqFlags : List Nat := List.replicate 64 0
  freqInvalid : List Bool := List.replicate 64 false
  unitInvalid : List Nat := List.replicate 64 0
  gen : Nat := 0
  slot : Nat := 0
  cycles : Nat := 0
  running : Bool := false
  fenced : Bool := false
  unitSelFw : Nat := 0
  unitSelHost : Nat := 0
  strSelFw : Nat := 0
  strSelHost : Nat := 0
  winSelFw : Nat := 0
  winSelHost : Nat := 0
  streams : List StrState := List.replicate 64 {}
  queue : List PubFrame := []
  cmdIgnored : Nat := 0
  eccCorr : Nat := 0
  banks : List (List (Nat × MbRec)) := [[], [], []]
  newest : Nat := 0
  pendMb : List (Nat × MbRec) := []
  deriving DecidableEq, Repr, Inhabited

/-! ### WCE (chapter 7) -/

/-- An arrival (R171, R172): terminal, time in ticks (signed parts kept exact), peak amplitude (binary64 word),
polarity, later peaks, the window's start and end as seen at the line, its quality. -/
structure Arrival where
  term : Nat := 0
  time : Int := 0
  peak : Nat := 0
  negative : Bool := false
  later : List Int := []
  winStart : Int := 0
  winEnd : Int := 0
  quest : Bool := false
  deriving DecidableEq, Repr, Inhabited

/-- An event, open or closed (R173), with the topology it was opened under (R190). -/
structure WceEvent where
  comp : Nat := 0
  arrivals : List Arrival := []
  opened : Nat := 0
  closed : Nat := 0
  forced : Bool := false
  topo : TopoSec := {}
  gen : Nat := 0
  deriving DecidableEq, Repr, Inhabited

/-- The wavefront engine. -/
structure WceState where
  queue : List SurgeWindow := []
  openEvents : List WceEvent := []
  closed : List WceEvent := []
  events : Nat := 0
  log : List WceRecord := List.replicate 256 {}
  segTable : List WceRecord := List.replicate 256 {}
  gen : Nat := 0
  running : Bool := false
  fenced : Bool := false
  termSelFw : Nat := 0
  termSelHost : Nat := 0
  terms : List (Nat × Nat) := List.replicate 64 (0, 0)
  recommitBy : Option Nat := none
  windows : Nat := 0
  quiet : Nat := 0
  reject : Nat := 0
  unassigned : Nat := 0
  dup : Nat := 0
  forced : Nat := 0
  noLoc : Nat := 0
  delayed : Nat := 0
  drop : Nat := 0
  eccCorr : Nat := 0
  cycles : Nat := 0
  deriving DecidableEq, Repr, Inhabited

/-! ### SEQ (chapter 8) -/

/-- A task's state: 0 committed, 1 started, 2 ready, 3 committing (SEQ_TASK_DETAIL). `buf` is the dispatch buffer,
the committed values by tag; `localSets` the sets waiting for their apply time at the local outputs, keyed 16 × kind +
channel; `dirty` the instance lines written in the cycle; `moved` says, until the first freeze after a swap, where each
input's record comes from: a task and an address; `leaving` names the records of the old image that other tasks take over,
`left` holds them once this task's own first freeze has moved its image (R214); `retAll` the commits that still refresh
the whole shadow; `skipAt` the strobe time of a skipped start whose replies are not yet judged; `committedAt` when the last
commit completed, in module time and always-on time (R199). -/
structure TaskState where
  state : Nat := 0
  t0 : Nat := 0
  readyAt : Nat := 0
  frozen : Bool := false
  cycles : Nat := 0
  digest : Nat := 0
  skips : Nat := 0
  consec : Nat := 0
  runMax : Nat := 0
  gen : Nat := 0
  swapped : Bool := false
  moved : Option (List (Option (Nat × Nat))) := none
  leaving : List (Nat × Nat) := []
  left : List (Nat × ImgRec) := []
  committedAt : Option (Nat × Nat) := none
  skipAt : Option Nat := none
  retAll : Nat := 0
  buf : List (Nat × Nat) := []
  prevBuf : List (Nat × Nat) := []
  forced : List Nat := []
  localSets : List (Nat × List (Nat × Nat)) := []
  banks : List TaskBank := [{}, {}]
  cur : Nat := 0
  dirty : List Nat := []
  dirtyPrev : List Nat := []
  dirtyLink : List Nat := []
  deriving DecidableEq, Repr, Inhabited

/-- The image sequencer. `runs` is the task that the triad executes (R197); without one the firmware runs. -/
structure SeqState where
  runs : Option Nat := none
  tasks : List TaskState := List.replicate 16 {}
  forces : List Force := []
  forcesSent : Bool := false
  running : Bool := false
  lastWarm : Bool := false
  commitRefused : Bool := false
  retSkipped : Bool := false
  retSuspended : Bool := false
  retNow : Bool := false
  retWriting : Bool := false
  retLast : Option Nat := none
  retBase : Nat := 0
  selFw : Nat := 0
  selHost : Nat := 0
  deriving DecidableEq, Repr, Inhabited

/-! ### TRD (chapter 9) -/

/-- What of a lane's own memory no transaction shows (R227, R230, R232): halted outside the triad; its TCM and architectural
state equal to the voted lanes'; the upper 256 KiB of its TCM zeroed and not written since; its level-1 caches holding lines;
and, in a split interval, the entry it started at with its lane number. -/
structure LaneState where
  halted : Bool := false
  tcmSame : Bool := true
  archSame : Bool := true
  upperZero : Bool := false
  cached : Bool := false
  entry : Option (Nat × Nat) := none
  deriving DecidableEq, Repr, Inhabited

/-- The triad. Mode: 0 TRIPLEX, 1 DUPLEX, 2 REJOINING, 3 SPLIT, 4 STOPPED, 5 SELFTEST. `archSaved` says that the Tumbler holds
the voted architectural state of a split point. -/
structure TrdState where
  lanes : List LaneState := List.replicate 3 {}
  archSaved : Bool := false
  mode : Nat := 5
  fencedLane : Nat := 3
  retired : Bool := false
  debugBroken : Bool := false
  debugLane : Nat := 0
  debugLive : Bool := false
  evt : Nat := 0
  diffCycle : Nat := 0
  diffGroup : Nat := 0
  diffNoMaj : Bool := false
  diffLane : Nat := 3
  splitEndCause : Nat := 0
  splitRefuse : Nat := 0
  splitEntry : List Nat := [0, 0, 0]
  splitDone : List Bool := [false, false, false]
  splitInPeriod : Bool := false
  selfBit : Nat := 0
  selfGroup : Nat := 0
  selfLane : Nat := 0
  selfPass : Bool := false
  selfDone : Bool := false
  dbgLane : Nat := 0
  armLane : Option Nat := none
  armUntil : Nat := 0
  dbgRefuse : Nat := 0
  dbgRefused : Nat := 0
  fences : Nat := 0
  laneFences : List Nat := [0, 0, 0]
  rejoinMax : Nat := 0
  splits : Nat := 0
  splitRefused : Nat := 0
  fencedAt : Nat := 0
  rejoinAt : Option Nat := none
  copyDone : Bool := false
  deriving DecidableEq, Repr, Inhabited

/-! ### BGT and PTM (chapter 10) -/

/-- A stall slot's counters (R238, R239). -/
structure SlotState where
  budget : Nat := 0
  rank : Nat := 0
  spent : Nat := 0
  last : Nat := 0
  overshoot : Nat := 0
  exhausted : Bool := false
  exhaustions : Nat := 0
  withheld : Nat := 0
  overMax : Nat := 0
  deriving DecidableEq, Repr, Inhabited

/-- The rank a slot has by default (R238). -/
def defaultRank (s : Nat) : Nat :=
  if s < 16 then 1 else if s < 19 then 2 else if s = 19 then 3 else if s = 20 then 4 else if s < 23 then 5
  else if s = 23 then 6 else if s = 24 then 7 else if s = 25 then 8 else 0

/-- The boot set of R423: budget 0, except 4,096 bytes for slots 22 and 25. -/
def bootSlot (s : Nat) : SlotState :=
  { budget := if s = 22 ∨ s = 25 then 4096 else 0, rank := defaultRank s }

/-- The budget unit: admission mask in force, the next one delivered, and the misses; `bulkShut` is since when stall slot 25 has
been withheld or exhausted without interruption (R356). -/
structure BgtState where
  bulkShut : Option Nat := none
  slots : List SlotState := (List.range 64).map bootSlot
  mask : Nat := 0xFFFFFFFFFFFFFFFF
  next : Option Nat := none
  missMode : Nat := 0
  missRun : Nat := 0
  missed : Nat := 0
  selFw : Nat := 0
  selHost : Nat := 0
  booting : Bool := true
  firstMask : Bool := false
  deriving DecidableEq, Repr, Inhabited

/-- The power and thermal manager. Feed state: 0 lost, 1 good, 2 over-voltage. -/
structure PtmState where
  degraded : Bool := false
  mv : List Nat := [0, 0]
  feed : List Nat := [0, 0]
  carry : Nat := 0
  powerMw : Nat := 0
  capUj : Nat := 0
  mandUj : Nat := 0
  allowUj : Nat := 0
  h : Nat := 0x10000
  overCap : Nat := 0
  degradedCount : Nat := 0
  bankRide : Nat := 0
  bankHold : Nat := 0
  bankFault : Bool := false
  bankTesting : Bool := false
  bankTested : Bool := false
  lastBankTest : Nat := 0
  goodSince : Option Nat := none
  ride : Bool := false
  rideSince : Nat := 0
  powerFail : Bool := false
  temps : List Int := List.replicate 12 0
  rails : List Nat := List.replicate 8 0
  overRun : Nat := 0
  hotRun : List Nat := List.replicate 12 0
  coolSince : Option Nat := none
  lastReq : Nat := 0
  withheldSet : Nat := 0
  tripped : List Nat := []
  measured : Measured := {}
  deriving DecidableEq, Repr, Inhabited

/-! ### WVL (chapter 11) -/

/-- What the last heartbeats told of the partner. -/
structure PartnerState where
  present : Bool := false
  everSeen : Bool := false
  side : Nat := 0
  role : Nat := 0
  flags : Nat := 0
  gen : Nat := 0
  digest16 : Nat := 0
  blvl : Nat := 0
  epoch : Nat := 0
  reserve : Nat := 0
  ack : List Nat := []
  heldGen : Nat := 0
  heldDigest : Nat := 0
  deriving DecidableEq, Repr, Inhabited

/-- A hand-over in progress on the primary (R272, R273): when asked, its cause, H once fixed, and whether the
acknowledgement has come. `forced` marks a RELINQUISH; `reply` is the session that waits for H. -/
structure Handover where
  asked : Nat := 0
  cause : Nat := 3
  h : Option Nat := none
  acked : Bool := false
  forced : Bool := false
  reply : Option Nat := none
  deriving DecidableEq, Repr, Inhabited

/-- A copy that the primary has sent and whose application it has not judged yet (R266): its cycle, its `BASE`, the period
its last frame left in, the lines it carried that the next copy must carry where this one was not applied. -/
structure SentCopy where
  cycle : Nat := 0
  base : Nat := 0
  period : Nat := 0
  lines : List Nat := []
  deriving DecidableEq, Repr, Inhabited

/-- What each side holds of one task's copies (R264 to R269). On the primary: the copies sent, the one whose bytes are
still leaving (`pending`, `left`, in commit order `order`), the `BASE` of the next one and the lines it must carry besides
those written since, what `ACK` last showed, the cycle of the latest copy dropped, dropped copies in a row, the reseed's
position. On the standby: the cycle last applied, and whether the reseed's end record has come. -/
structure CopyState where
  sent : List SentCopy := []
  pending : Option CopyMsg := none
  left : Nat := 0
  order : Nat := 0
  base : Nat := 0
  extra : List Nat := []
  acked : Nat := 0
  lostAt : Nat := 0
  applied : Nat := 0
  droppedRun : Nat := 0
  ended : Bool := false
  reseedPos : Nat := 0
  deriving DecidableEq, Repr, Inhabited

/-- The header of a link frame sent (R256): its type, the mask of the lanes it leaves on, its payload bytes, its link
sequence number, the sender's epoch, side and role. A payload of more than 4,096 bytes leaves as several frames, numbered
from `lseq`. -/
structure LinkTx where
  msg : Nat := 0
  lanes : Nat := 0
  length : Nat := 0
  lseq : Nat := 0
  epoch : Nat := 0
  side : Nat := 0
  role : Nat := 0
  deriving DecidableEq, Repr, Inhabited

/-- A takeover that a standby has ahead: the period count of its strobe, its cause, and whether the epoch is already
loaded (R271). -/
structure Takeover where
  count : Nat := 0
  cause : Nat := 1
  loaded : Bool := false
  deriving DecidableEq, Repr, Inhabited

/-- The pair link. Role: 0 NEGOTIATING … 5 MISMATCH (R255). `hbSeen` and `hbPrev` tell of a heartbeat in this period and
in the one before, `epochHeld` that an epoch of this module has been in force. -/
structure WvlState where
  role : Nat := 0
  side : Nat := 0
  coding : Nat := 1
  lanesUp : Nat := 0
  lseq : Nat := 0
  laneSeen : List Nat := [0, 0, 0, 0]
  epoch : Nat := 0
  unreserved : Bool := false
  notCurrent : Nat := 0
  reseed : Nat := 0
  partner : PartnerState := {}
  hbSeen : Bool := false
  hbPrev : Bool := true
  missRun : Nat := 0
  lastRole : Nat := 0
  lastCause : Nat := 0
  hbMissed : Nat := 0
  takeovers : Nat := 0
  copyDropped : Nat := 0
  linkErr : Nat := 0
  latent : Nat := 0
  reseeds : Nat := 0
  copyMax : Nat := 0
  gapMax : Nat := 0
  appliedCount : Nat := 0
  aliveAt : Option Nat := none
  lastHbStrobe : Nat := 0
  handover : Option Handover := none
  takeAt : Option Takeover := none
  copies : List CopyState := List.replicate 16 {}
  copySeq : Nat := 0
  ownSideNoted : Bool := false
  mismatchCause : Nat := 0
  yielding : Bool := false
  yieldAt : Nat := 0
  epochHeld : Bool := false
  epochNext : Option Nat := none
  epochWait : Bool := false
  p6Start : Nat := 0
  deriving DecidableEq, Repr, Inhabited

/-! ### MEM (chapter 12) -/

/-- Main memory: bytes listed by address, whether the clear has filled the array (R285), the units that are LIGHT
(the map in force), the lines whose codeword is known bad (R293), and the lines that hold errors of the DRAM, with what their
code checks find until they are written or scrubbed (log entry 121, DESIGN CHOICE). -/
structure Memory where
  errs : List (Nat × MemFault) := []
  cells : List Host.Cell := []
  cleared : Bool := false
  light : List Nat := []
  poisoned : List Nat := []
  deriving DecidableEq, Repr, Inhabited

/-- A correctable-error log entry (R287). -/
structure CeEntry where
  line : Nat := 0
  code : Nat := 0
  device : Nat := 0
  bits : Nat := 0
  finder : Nat := 0
  count : Nat := 0
  first : Nat := 0
  last : Nat := 0
  deriving DecidableEq, Repr, Inhabited

/-- The memory controller. -/
structure MemState where
  mem : Memory := {}
  mapApplied : Bool := false
  clearBusy : Bool := false
  clearDone : Bool := false
  clearRefused : Bool := false
  ueStrongFlag : Bool := false
  ceLog : List CeEntry := List.replicate 32 {}
  devCe : List Nat := List.replicate 20 0
  devSelFw : Nat := 0
  devSelHost : Nat := 0
  ceStrong : Nat := 0
  ceLight : Nat := 0
  ueStrong : Nat := 0
  ueLight : Nat := 0
  scrubUeLight : Nat := 0
  ceLogLost : Nat := 0
  ueFirst : Nat := 0
  ueAny : Bool := false
  retirePageFw : Nat := 0
  retirePageHost : Nat := 0
  resultFw : Nat := 0
  resultHost : Nat := 0
  scrubLineFw : Nat := 0
  scrubLineHost : Nat := 0
  retiring : Option (Nat × Nat × Bool) := none
  retired : List (Nat × Nat) := []
  keptSpares : List Nat := []
  unsaved : List RetireEntry := []
  scrubPos : Nat := 0
  passDone : Option Nat := none
  deriving DecidableEq, Repr, Inhabited

/-! ### WRD and CRT (chapter 13) -/

/-- A first-refusal capture (WRD_w_FIRST, CRT_FIRST). -/
structure Capture where
  valid : Bool := false
  space : Nat := 0
  cause : Nat := 0
  write : Bool := false
  ident : Nat := 0
  addr : Nat := 0
  deriving DecidableEq, Repr, Inhabited

/-- A ward. -/
structure WardState where
  regions : List Region := []
  epoch : Nat := 0
  ack : Nat := 0
  refused : Nat := 0
  first : Capture := {}
  deriving DecidableEq, Repr, Inhabited

/-- The wards and the central rule table; `loaded` is set once P4 has ended (R299, R301). -/
structure WrdState where
  loaded : Bool := false
  wards : List WardState := List.replicate 9 {}
  fixed : List Rule := []
  runtime : List (Nat × Rule) := []
  epoch : Nat := 0
  ack : Nat := 0
  refused : Nat := 0
  first : Capture := {}
  draining : Bool := false
  rtSlot : Nat := 0
  rtBaseLo : Nat := 0
  rtBaseHi : Nat := 0
  rtLength : Nat := 0
  rtSpace : Nat := 0
  rtRead : Nat := 0
  rtWrite : Nat := 0
  rtResult : Nat := 0
  rtRefused : Nat := 0
  waiting : Nat := 0
  deriving DecidableEq, Repr, Inhabited

/-! ### FCR (chapter 15) -/

/-- A reporting unit's 8-bit report tally for a source, held in its own island, and what the always-on island last saw of it
(R22). Units are told apart by a number that has a meaning within one source only: a ward, a port, a cage, an island; among the
queues the sequencer is 64, the phasor island 65, the WCE 66. -/
structure Tally where
  unit : Nat := 0
  count : Nat := 0
  sampled : Nat := 0
  deriving DecidableEq, Repr, Inhabited

/-- A fault source: its tally, the always-on instants of its events within W (newest first), settings, severity. `tallies`
holds the report tallies of the units that have reported it (R22). -/
structure FcrSource where
  tallies : List Tally := []
  events : Nat := 0
  recent : List Nat := []
  n : Nat := 1
  wms : Nat := 1
  due : Bool := false
  dueAt : Nat := 0
  severe : Bool := false
  fenced : Bool := false
  inst : Nat := 0xFF
  forced : Bool := false
  deriving DecidableEq, Repr, Inhabited

/-- The default (W in ms, N) of a source (R337). -/
def fcrDefault (i : Nat) : Nat × Nat :=
  if i < 16 then (10000, 3)
  else match i with
    | 16 => (60000, 2)
    | 18 => (60000, 3)
    | 19 => (60000, 64)
    | 21 => (60000, 16)
    | 23 => (1000, 1)
    | 25 => (60000, 1)
    | 26 => (60000, 1)
    | 27 => (1000, 8)
    | 28 => (60000, 8)
    | 29 => (1000, 64)
    | 30 => (1000, 4)
    | 31 => (1000, 16)
    | 32 => (10000, 4)
    | 33 => (10000, 4)
    | 34 => (10000, 4)
    | 35 => (10000, 4)
    | 36 => (10000, 4)
    | 37 => (10000, 4)
    | 17 => (1, 1)
    | 20 => (1, 1)
    | 22 => (1, 1)
    | 24 => (1, 1)
    | _ => (0, 0)

/-- A source at reset. -/
def fcrSource0 (i : Nat) : FcrSource := { n := (fcrDefault i).2, wms := (fcrDefault i).1 }

/-- A fault history record (R342). -/
structure HistRec where
  hseq : Nat := 0
  time : Nat := 0
  source : Nat := 0
  kind : Nat := 0
  byWhom : Nat := 0
  inst : Nat := 0xFF
  count : Nat := 0
  deriving DecidableEq, Repr, Inhabited

/-- The fault collector. -/
structure FcrState where
  sources : List FcrSource := (List.range 48).map fcrSource0
  blocked : List Nat := []
  handoverSent : Bool := false
  hist : List HistRec := List.replicate 32 {}
  histSeq : Nat := 0
  histRead : Nat := 0
  selFw : Nat := 0
  selHost : Nat := 0
  deriving DecidableEq, Repr, Inhabited

/-! ### LGR and KPR (chapter 14) -/

/-- A token bucket (R328): the code it serves (none: the shared one), its size, refill in tokens per 1,000 s, its
level in units of 10⁻¹² token, and when it was last filled. -/
structure Bucket where
  code : Option Nat := none
  burst : Nat := 256
  refill : Nat := 100000
  level : Nat := 256000000000000
  last : Nat := 0
  deriving DecidableEq, Repr, Inhabited

/-- Pending suppressions (R329): the code reported, the count, first and last times. -/
structure Suppressed where
  code : Nat := 0
  count : Nat := 0
  first : Nat := 0
  last : Nat := 0
  deriving DecidableEq, Repr, Inhabited

/-- The ledger front end. `owner` is the keeper the held records are numbered for (its identity); a record held for another keeper
names that one. `markDone` is the owner's assignment mark whose losses have been recorded; `readSeqs` lists what the firmware has
read in its snapshot. -/
structure LgrState where
  held : List LedgerRecord := []
  unnumbered : List LedgerRecord := []
  owner : Option Nat := none
  nextSeq : Nat := 1
  lostKept : Nat := 0
  lostOwner : Nat := 0
  markDone : Nat := 0
  buckets : List Bucket := [{}]
  pending : List Suppressed := []
  suppressedCount : Nat := 0
  dropped : Nat := 0
  stopped : Bool := false
  snapLow : Nat := 0
  snapHigh : Nat := 0
  rdLo : Nat := 0
  rdHi : Nat := 0
  rdCode : Nat := 0
  readSeqs : List Nat := []
  recBytes : List Byte := List.replicate 64 0
  reqCode : Nat := 0
  reqData : List Nat := [0, 0, 0, 0, 0, 0]
  reqResult : Nat := 0
  deriving DecidableEq, Repr, Inhabited

/-- The held records that the page being filled still takes: pages hold the numbers 64 k + 1 to 64 k + 64 (R330). -/
def LgrState.pageRoom (l : LgrState) : Nat := 64 - ((l.held.head?.map (·.seq)).getD 1 - 1) % 64

/-- When the oldest record of the page being filled arrived. -/
def LgrState.oldest (l : LgrState) : Nat := ((l.held.take l.pageRoom).map (·.arr)).foldl min ((l.held.head?.map (·.arr)).getD 0)

/-- What a queued keeper job writes. -/
inductive JobKind where
  | reserve (v : Nat)
  | retire (e : RetireEntry)
  | clearReserve
  | purge (eui : Nat)
  | identity (b : IdBlock)
  | retained (img : RetImage)
  | ledger (n : Nat)
  | bitstream (gen : Nat) (bytes : List Byte) (delta : Bool)
  | access (a : AccessSet)
  deriving DecidableEq, Repr, Inhabited

/-- A keeper job: its class in the order of R318, what it writes, and how many pages it still has. -/
structure KprJob where
  cls : Nat := 0
  kind : JobKind := .clearReserve
  pages : Nat := 1
  deriving DecidableEq, Repr, Inhabited

/-- The keeper interface. `bucket` is the daily allowance left, in units of 1/(86,400 × 10⁹) byte, so that one
nanosecond refills 8 GiB of them (R317). `STATE`: 0 ABSENT, 1 BLANK, 2 OK, 3 READ_ONLY, 4 FOREIGN, 5 FAULT. -/
structure KprState where
  cartridge : Option Cartridge := none
  state : Nat := 0
  boltOpen : Bool := false
  safe : Bool := false
  confirmBad : Bool := false
  confirm : Option Nat := none
  newBlvl : Nat := 0
  names : List Nat := List.replicate 12 0
  refuse : Nat := 0
  startIdent : Option Nat := none
  passed : Option Nat := none
  jobs : List KprJob := []
  inFlight : Option KprJob := none
  bucket : Nat := 8589934592 * 86400000000000
  bucketAt : Nat := 0
  lastPage : Option Nat := none
  throttled : Bool := false
  reserveOnly : Bool := false
  notOkSince : Option Nat := some 0
  staleReported : Bool := false
  lifeNoted : Bool := false
  lastRecorded : Nat := 0
  deriving DecidableEq, Repr, Inhabited

/-! ### BSL and UPD (chapters 2 and 17) -/

/-- A bit-stream load in progress: its owner (none once that session has closed), its blocks by offset. -/
structure BslLoad where
  owner : Option Nat := none
  total : Nat := 0
  header : List Byte := []
  blocks : List (Nat × List Byte) := []
  checked : List Nat := []
  since : Nat := 0
  deriving DecidableEq, Repr, Inhabited

/-- The bit-stream loader. `storeGen` and `storeBytes` are the stream whose store was last accepted; `ownDone` and
`partnerDone` say which stores of a delta are complete (no partner: none). -/
structure BslState where
  load : Option BslLoad := none
  storing : Bool := false
  storeDelta : Bool := false
  storeGen : Nat := 0
  storeBytes : List Byte := []
  partnerDone : Option Bool := none
  ownDone : Option Bool := none
  swapPending : Bool := false
  refused : Bool := false
  refuse : Nat := 0
  refuseOffset : Nat := 0
  genCur : Nat := 0
  genPrev : Nat := 0
  genStaged : Nat := 0
  genHigh : Nat := 0
  newSlot : Option Nat := none
  swapA : Nat := 0
  committer : Option Nat := none
  deriving DecidableEq, Repr, Inhabited

/-- A firmware slot: state 0 EMPTY … 5 FAILED (UPD_STAT), and its image. `factory` marks the image that the module left
the factory with, which the boot ROM's checks accept (log entry 6, DESIGN CHOICE). -/
structure FwSlot where
  state : Nat := 0
  image : List Byte := []
  factory : Bool := false
  deriving DecidableEq, Repr, Inhabited

/-- The header of the factory image (R361): every behaviour level, version 1 (log entry 6, DESIGN CHOICE). -/
def factoryImage : List Byte := natLe 0x4D574655 4 ++ natLe 1 4 ++ natLe 0x64 4 ++ natLe 0xFFFF0000 4 ++ natLe 0 4 ++ natLe 0xFFFFFFFF 4 ++ natLe 1 4 ++ natLe 0 4

/-- A firmware load in progress. -/
structure UpdLoad where
  owner : Option Nat := none
  total : Nat := 0
  header : List Byte := []
  blocks : List (Nat × List Byte) := []
  since : Nat := 0
  deriving DecidableEq, Repr, Inhabited

/-- The firmware update unit and the boot ROM's slots; `keys` are the fused key hashes. -/
structure UpdState where
  slots : List FwSlot := [{ state := 3, image := factoryImage, factory := true }, {}]
  active : Nat := 0
  trial : Bool := false
  fellBack : Option (Nat × Nat) := none
  keys : List (Option (List Byte)) := [none, none, none, none]
  secFuse : Nat := 0
  hwRev : Nat := 0
  verRun : Nat := 0
  refused : Bool := false
  refuse : Nat := 0
  refuseOffset : Nat := 0
  storing : Bool := false
  committer : Option Nat := none
  skipBlvl : Bool := false
  load : Option UpdLoad := none
  deriving DecidableEq, Repr, Inhabited

/-! ### FIO (chapter 18) -/

/-- A digital input. -/
structure DiState where
  level : Bool := false
  changes : Nat := 0
  stamp : Nat := 0
  broken : Bool := false
  deriving DecidableEq, Repr, Inhabited

/-- A digital output (on its group's lowest channel): state driven, wanted value, last change, wait, faults. -/
structure DoState where
  driven : Bool := false
  want : Bool := false
  lastChange : Option Nat := none
  waiting : Bool := false
  shutdown : Bool := false
  mismatch : Bool := false
  failed : Bool := false
  deriving DecidableEq, Repr, Inhabited

/-- A loop output: commanded current in µA, whether it drives, fault, trims, and the ramp: the current it left from,
in units of 10⁻⁷ µA, and when. -/
structure AoState where
  cmd : Nat := 0
  driving : Bool := false
  fault : Bool := false
  failed : Bool := false
  zero : Int := 0
  span : Int := 0
  from10 : Int := 0
  fromAt : Nat := 0
  deriving DecidableEq, Repr, Inhabited

/-- Commissioning mode (R381). -/
structure Commissioning where
  ch : Nat := 0
  level : Nat := 0
  lastPress : Nat := 0
  deriving DecidableEq, Repr, Inhabited

/-- The local field I/O. -/
structure FioState where
  di : List DiState := List.replicate 16 {}
  dout : List DoState := List.replicate 8 {}
  ao : List AoState := List.replicate 4 {}
  standby : Bool := true
  supplyMv : Nat := 0
  supplySeen : Bool := false
  unplugged : Bool := false
  doDefer : Nat := 0
  maskFw : Nat := 0
  maskHost : Nat := 0
  seenFw : Bool := false
  seenHost : Bool := false
  faultFw : Bool := false
  aoSel : Nat := 0
  comm : Option Commissioning := none
  deriving DecidableEq, Repr, Inhabited

/-! ### HIF (chapter 16) -/

/-- A queued notification (R357). -/
structure Notif where
  kind : Nat := 1
  source : Nat := 0xFFFF
  count : Nat := 1
  time : Nat := 0
  result : Option WceRecord := none
  deriving DecidableEq, Repr, Inhabited

/-- A bulk read that stall slot 25 carries (R356): when it was asked for, its bytes in all and those charged, the status of the
complete reply, the bytes of one delivered item, the offset of a failing word, whether it is a LEDGER_READ, the data read so
far; of main memory the reads still to be issued, by line, and what the code checks will find, by line from `line`. -/
structure Bulk where
  since : Nat := 0
  total : Nat := 0
  done : Nat := 0
  status : Nat := 0
  unit : Nat := 4
  offset : Nat := 0
  ledger : Bool := false
  data : List Byte := []
  reads : List (List (Nat × Nat)) := []
  faults : List (Nat × MemFault) := []
  line : Nat := 0
  deriving DecidableEq, Repr, Inhabited

/-! ### What the block sends out (the model's own record of it) -/

/-- The Ethernet header and trailer of a frame on a station or host port: addresses, 802.1Q tag (priority, VLAN), EtherType,
and on a lane of a PRP pair the redundancy trailer's sequence number and lane. -/
structure EthHdr where
  dst : Nat := 0
  src : Nat := 0
  tag : Option (Nat × Nat) := none
  etherType : Nat := 0
  rct : Option (Nat × Nat) := none
  deriving DecidableEq, Repr, Inhabited

/-- Where a publication frame goes (R159, R345): a TCP connection, whose peer's address its first segment told, or by UDP an
address; the TCP or UDP port, and the link-layer destination of a UDP frame. -/
structure PubTo where
  conn : Option Nat := none
  addr : List Byte := []
  port : Nat := 0
  mac : Option Nat := none
  deriving DecidableEq, Repr, Inhabited

/-- The header of an SHP message (R351): `LENGTH` in bytes, `TYPE`, `FLAGS` (bit 0 `REPLY`, bit 1 `NOTIFY`), `TAG`. -/
structure ShpHead where
  length : Nat := 0
  ty : Nat := 0
  flags : Nat := 0
  tag : Nat := 0
  deriving DecidableEq, Repr, Inhabited

/-- The certificate that the module presents (R347): the chain of the access set in force, a self-signed one over the keeper key
with the keeper's identity as its subject, or one over the module's fused key. -/
inductive Presented where
  | chain (certs : List (List Byte))
  | keeperKey (ident : Nat)
  | fusedKey
  deriving DecidableEq, Repr, Inhabited

/-- A frame, message, pin change or answer that leaves the block. -/
inductive Out where
  | exchange (port station task seq epoch side apply flags wdg : Nat) (outs : List Nat) (hdr : EthHdr) (frame : List Byte)
  | ptp (port : Nat) (msg : Nat) (time : Nat) (corr : Int) (gm : Announce) (hdr : EthHdr)
  | supervision (port : Nat) (hdr : EthHdr)
  | link (h : LinkTx) (data : List Nat)
  | copy (h : LinkTx) (m : CopyMsg)
  | reseed (h : LinkTx) (m : ReseedMsg)
  | pub (host stream : Nat) (peer : PubTo) (bytes : List Byte)
  | cfgFrame (host stream : Nat) (peer : PubTo) (cfg3 : Bool) (bytes : List Byte)
  | tcpReset (host : Nat)
  | shp (ses : Nat) (hdr : ShpHead) (status detail : Nat) (payload : List Nat)
  | notify (ses : Nat) (hdr : ShpHead) (n : Notif)
  | certificate (ses : Nat) (c : Presented)
  | shpClosed (ses : Nat)
  | alert (ses : Nat)
  | arpReply (port target : Nat)
  | neighbourReply (port target : Nat)
  | echoReply (port : Nat) (target : Nat)
  | tpo (g : Nat) (level : Bool)
  | dout (ch : Nat) (level : Bool)
  | ao (ch : Nat) (current10 : Int)
  | resp (ident : Nat) (ok : Bool) (data : List Byte)
  | tx (groups : List Nat)
  | strobe (pcount : Nat)
  | slot (g : Nat)
  deriving DecidableEq, Repr, Inhabited

/-! ### Host sessions -/

/-- A reply that has not left (R352): `waits` names the work that it waits for (0 a bulk read, 1 a bit-stream commit,
2 a firmware commit, 3 an access set commit, 4 a hand-over); without it the reply is complete and waits for those before it. `ty` and `tag` are those of its request (R351). -/
structure HeldReply where
  waits : Option Nat := none
  ty : Nat := 0
  tag : Nat := 0
  status : Nat := 0
  detail : Nat := 0
  payload : List Nat := []
  deriving DecidableEq, Repr, Inhabited

/-- An SHP session (R349 to R353). `role` 0 before the handshake completes; `reqTy` and `reqTag` are those of the latest request. -/
structure Session where
  port : Nat := 0
  role : Nat := 0
  bootstrap : Bool := false
  linkLocal : Bool := false
  opened : Nat := 0
  lastMsg : Nat := 0
  helloDone : Bool := false
  outstanding : Nat := 0
  reqTy : Nat := 0
  reqTag : Nat := 0
  kinds : Nat := 0
  sources : BitVec 160 := 0
  queue : List Notif := []
  lost : Nat := 0
  snapLow : Nat := 0
  snapHigh : Nat := 0
  hasSnap : Bool := false
  bulks : List Bulk := []
  replies : List HeldReply := []
  accessBlocks : List (Nat × List Byte) := []
  deriving DecidableEq, Repr, Inhabited

/-- The host interface. `egress` is what sessions that have ended left behind publication, each with its host port (R28). -/
structure HifState where
  links : List Bool := [false, false]
  sessions : List (Option Session) := List.replicate 8 none
  egress : List (Nat × Out) := []
  access : Option AccessSet := none
  accessStoring : List (Option Nat) := []
  accessReady : List AccessSet := []
  selFw : Nat := 0
  selHost : Nat := 0
  tlsFail : Nat := 0
  roleRefused : Nat := 0
  notifyLost : Nat := 0
  discard : List Nat := [0, 0]
  fcsErr : List Nat := [0, 0]
  deriving DecidableEq, Repr, Inhabited

/-! ### Configuration in force and swaps (chapter 2) -/

/-- The generation in force, a committed delta's generation while swaps are pending, which of its sections are
carried and which have swapped. `fixedA` says the activation period A is fixed; `stream` holds the bytes of the stream
in force, `merged` those of the committed delta's merged stream. -/
structure CfgState where
  cur : Generation := {}
  next : Option Generation := none
  carried : List Nat := []
  swapped : List Nat := []
  loaded : Bool := false
  fixedA : Bool := false
  stream : List Byte := []
  merged : List Byte := []
  deriving DecidableEq, Repr, Inhabited

/-- A register latch of R404: the `_LO` register's address, and the half it latched, for one reader. -/
structure Latch where
  addr : Nat := 0
  hi : Nat := 0
  deriving DecidableEq, Repr, Inhabited

end Sys2Proof.Machine
end

