-- ==== Sys2Proof/Machine/State.lean ====
section
/-! DEFINITION. The whole state of the block, why a step may stop, and the state right after reset. -/

namespace Sys2Proof.Machine

/-- Why the block stops with a fault. It has no constructor: every refusal the spec describes (an error response, a
status, a refusal code) is an effect on `State`, so no meaning stops with a fault. -/
inductive Fault where
  deriving DecidableEq, Repr

/-- Why the block refuses a command. -/
inductive Refusal where
  /-- Raised by `exec` for a command that has no meaning yet: safe (the machine stops where the hardware goes on). -/
  | notModelled (mnemonic : String)
  deriving DecidableEq, Repr

/-- The state of the CM64 module. `now` is module time in ticks (R64), `aon` the always-on oscillator in ns since
module reset (R335), `pcount` the 64-bit period count of the last strobe (R66), `followers` what each of the 25 islands'
follower counters shows where it no longer agrees with module time (R19): its value and the always-on time of it, from which
it runs on by itself; `out` what has left the block, newest first (the model's own record), `fresh` the index of the next
free value (the model's own); `msgTag` the `TAG` of the SHP message at hand (R351). -/
structure State where
  pending : List Instr := []
  now : Nat := 0
  aon : Nat := 0
  pcount : Nat := 0
  followers : List (Option (Nat × Nat)) := List.replicate 25 none
  discont : Bool := false
  fresh : Nat := 0
  msgTag : Nat := 0
  gen : GenState := {}
  evt : EvtState := {}
  tmb : TmbState := {}
  prt : PrtState := {}
  svi : SviState := {}
  phe : PheState := {}
  wce : WceState := {}
  seq : SeqState := {}
  trd : TrdState := {}
  bgt : BgtState := {}
  ptm : PtmState := {}
  wvl : WvlState := {}
  mem : MemState := {}
  wrd : WrdState := {}
  fcr : FcrState := {}
  lgr : LgrState := {}
  kpr : KprState := {}
  bsl : BslState := {}
  upd : UpdState := {}
  fio : FioState := {}
  hif : HifState := {}
  cfg : CfgState := {}
  latchFw : List Latch := []
  latchHost : List Latch := []
  out : List Out := []
  deriving DecidableEq, Repr, Inhabited

/-- The state right after module reset: phase P0, every register at the value of its Reset column (R403), main
memory holding nothing, no command waiting. Values the spec leaves to fuses, boot, latch and stores are the ones log
entry 6, DESIGN CHOICE names. -/
def State.reset : State := {}

/-- What a command answers. -/
abbrev Result := Host.Outcome State Fault Refusal

end Sys2Proof.Machine
end

