-- ==== Sys2Proof/Machine/Ops.lean ====
section
/-! DEFINITION. The named operations the meanings share: time, output, main memory, event sources, fault reports,
ledger appends, and who may write. -/

namespace Sys2Proof.Machine

open Sys2Proof

/-! ### Time and output -/

/-- A command takes place at its own instant, or at the module's present one if that is later (log entry 2, DESIGN CHOICE); an
SHP message has its tag. -/
def State.at (s : State) (w : When) : State := { s with now := max s.now w.t, aon := max s.aon w.a, msgTag := w.tag }

/-- The islands of R30, by the numbers of `Measured.unseen`; the time island holds module time itself. -/
def triadIsland : Nat := 0
def phasorIsland : Nat := 1
def waveIsland : Nat := 2
def marketIsland : Nat := 3
def memIsland : Nat := 4
def timeIsland : Nat := 5
def portIsland (p : Nat) : Nat := 6 + p / 4
def hostIsland : Nat := 22
def linkIsland : Nat := 23
def aonIsland : Nat := 24

/-- Module time as an island reads it (R19): its follower's, which runs on from its own clock where it has not been corrected
at the last strobe (R33); a corrected one agrees with the time island to the tick (log entry 83, DESIGN CHOICE). -/
def State.islandTime (s : State) (i : Nat) : Nat :=
  match s.followers.getD i none with
  | some f => f.1 + (s.aon - f.2) * ticksPerNs
  | none => s.now

/-- The followers of the islands that `cut` selects run on by themselves from here on; the others agree with module time. -/
def State.freed (s : State) (cut : Nat → Bool) : List (Option (Nat × Nat)) :=
  (List.range 25).map fun i => if cut i && i != timeIsland then some (s.islandTime i, s.aon) else none

/-- Something leaves the block. -/
def emit (o : Out) (s : State) : State := { s with out := o :: s.out }

/-- The next free value's index. -/
def draw (s : State) : Nat × State := (s.fresh, { s with fresh := s.fresh + 1 })

/-- A state transformer run only where a condition holds. -/
def when (c : Bool) (f : State → State) (s : State) : State := if c then f s else s

/-- Period index of the current period: 0 to 7,999 (R32). -/
def State.pidx (s : State) : Nat := s.pcount % 8000

/-! ### Roles, keeper and units -/

/-- Optional unit present: bit 0 PHE, 1 WCE, 2 AOB (R4). -/
def State.present (s : State) (u : Nat) : Bool := s.gen.unitPresent.testBit u

/-- The module is PRIMARY. -/
def State.primary (s : State) : Bool := s.wvl.role == 1

/-- `SEQ_STAT.STANDBY`: roles 2 to 5 (R255). -/
def State.standbyRole (s : State) : Bool := decide (2 ≤ s.wvl.role ∧ s.wvl.role ≤ 5)

/-- The partner's heartbeats show a STANDBY partner. -/
def State.partnerStandby (s : State) : Bool := s.wvl.partner.present && s.wvl.partner.role == 3

/-- A partner in service: heartbeats present, role SYNCING or STANDBY (R60). -/
def State.partnerInService (s : State) : Bool :=
  s.wvl.partner.present && (s.wvl.partner.role == 2 || s.wvl.partner.role == 3)

/-- A keeper that can be written: mounted in state OK, bolt closed. -/
def State.keeperWritable (s : State) : Bool := s.kpr.state == 2 && s.kpr.cartridge.isSome && !s.kpr.boltOpen

/-- A keeper that can be read: state OK or READ_ONLY. -/
def State.keeperReadable (s : State) : Bool :=
  (s.kpr.state == 2 || s.kpr.state == 3) && s.kpr.cartridge.isSome

/-- Changes the cartridge in the slot. -/
def modCart (f : Cartridge → Cartridge) (s : State) : State :=
  { s with kpr := { s.kpr with cartridge := s.kpr.cartridge.map f } }

/-- The cartridge in the slot, or a blank one where there is none. -/
def State.cart (s : State) : Cartridge := s.kpr.cartridge.getD {}

/-- `TMB_STAT.TRACEABLE`: ACQUIRING, LOCKED or HOLDOVER. -/
def State.traceable (s : State) : Bool := s.tmb.state == 1 || s.tmb.state == 2 || s.tmb.state == 3

/-- The role of a host session: 0 none, 1 READER, 2 OPERATOR, 3 ENGINEER. -/
def State.sesRole (s : State) (i : Fin 8) : Nat :=
  match s.hif.sessions.getD i.val none with
  | some x => x.role
  | none => 0

/-- The write comes from the firmware. -/
def isFw : Agent → Bool
  | .firmware => true
  | _ => false

/-- The write comes from a host session of at least the role `r`. -/
def hostAtLeast (r : Nat) (who : Agent) (s : State) : Bool :=
  match who with
  | .host i => decide (r ≤ s.sesRole i)
  | _ => false

/-- The firmware, or the host in the ENGINEER role. -/
def fwOrEngineer (who : Agent) (s : State) : Bool := isFw who || hostAtLeast 3 who s

/-- The 5-bit identity of an agent (R34). -/
def identOf : Agent → Nat
  | .firmware => 0
  | .host _ => 9
  | .lane k => 1 + k.val
  | .debug => 11
  | .other i => i.val

/-- A host access uses the host's copy of double-held state (R353). -/
def isHost : Agent → Bool
  | .host _ => true
  | _ => false

/-! ### Main memory (chapter 12) -/

/-- Bytes of main memory: 16 GiB. -/
def memSize : Nat := 0x400000000

/-- The 64 MiB unit of an address (R282). -/
def unitOf (a : Nat) : Nat := a / 0x4000000

/-- The unit of an address is under LIGHT. -/
def Memory.isLight (m : Memory) (a : Nat) : Bool := m.light.contains (unitOf a)

/-- What an unlisted address reads as: zero under STRONG once the clear has run (R285, R286), and nothing, an
uncorrectable read, otherwise (R284). -/
def Memory.unlisted (m : Memory) (a : Nat) : Option Byte :=
  if m.cleared && !m.isLight a then some 0 else none

/-- The byte listed at an address. -/
def cellAt : List Host.Cell → Nat → Option Byte
  | [], _ => none
  | (b, v) :: t, a => if b = a then some v else cellAt t a

/-- Lists, replaces or removes one address in a rising list. -/
def putCell : List Host.Cell → Nat → Option Byte → List Host.Cell
  | [], a, some v => [(a, v)]
  | [], _, none => []
  | (b, v) :: t, a, x =>
    if b < a then (b, v) :: putCell t a x
    else if b = a then (match x with
      | some y => (a, y) :: t
      | none => t)
    else (match x with
      | some y => (a, y) :: (b, v) :: t
      | none => (b, v) :: t)

/-- One byte as a read finds it; none is an uncorrectable read (R288). -/
def Memory.readByte (m : Memory) (a : Nat) : Option Byte :=
  if m.poisoned.contains (a / 64) then none
  else match cellAt m.cells a with
    | some v => some v
    | none => m.unlisted a

/-- Stores one byte, keeping the canonical form. -/
def Memory.putByte (m : Memory) (a : Nat) (v : Byte) : Memory :=
  { m with cells := putCell m.cells a (if m.unlisted a = some v then none else some v) }

/-- `n` bytes from an address; none where one of them cannot be read. -/
def Memory.readBytes (m : Memory) (a : Nat) : Nat → Option (List Byte)
  | 0 => some []
  | n + 1 => do
    let b ← m.readByte a
    let t ← m.readBytes (a + 1) n
    pure (b :: t)

/-- Stores bytes at rising addresses. -/
def Memory.putBytes (m : Memory) (a : Nat) : List Byte → Memory
  | [] => m
  | b :: t => (m.putByte a b).putBytes (a + 1) t

/-- What the code checks of a line find: what a command says of it, or the error that the DRAM holds. -/
def Memory.finding (m : Memory) (f : MemFault) (line : Nat) : MemFault :=
  if f = .none then ((m.errs.find? (·.1 == line)).map (·.2)).getD .none else f

/-- The 64-bit words of a line that `n` bytes at `a` touch. -/
def wordsIn (a n : Nat) : List Nat := (List.range 8).filter fun k => decide (a % 64 / 8 ≤ k ∧ k ≤ (a % 64 + n - 1) / 8)

/-- A read of `n` bytes at `a` within one line fails its check, where the code checks find `f` (R281, R284, R288). -/
def Memory.fails (m : Memory) (f : MemFault) (a n : Nat) : Bool :=
  (m.readBytes a n).isNone || (match f with
    | .uncorrectable => !m.isLight a
    | .words _ lost => m.isLight a && (wordsIn a n).any lost.val.testBit
    | .corrected _ _ => false
    | .none => false)

/-- The corrections that a read of `n` bytes at `a` within one line meets, each a device and its bits; under LIGHT one bit a
word (R281, R287). -/
def Memory.fixes (m : Memory) (f : MemFault) (a n : Nat) : List (Fin 10 × Nat) :=
  match f with
  | .corrected d b => if m.isLight a || m.fails f a n then [] else [(d, b)]
  | .words fixed lost =>
    if m.isLight a then ((wordsIn a n).filter fun k => fixed.val.testBit k && !lost.val.testBit k && (m.readBytes (a / 64 * 64 + 8 * k) 8).isSome).map fun _ => (0, 1) else []
  | .uncorrectable => []
  | .none => []

/-- A finding without the words of a LIGHT line that a write of `n` bytes at `a` has written anew. -/
def faultAfterWrite (f : MemFault) (light : Bool) (a n : Nat) : MemFault :=
  match f with
  | .words fixed lost =>
    if light then
      let keep (x : Fin 256) : Fin 256 := Fin.ofNat 256 ((List.range 8).foldl (fun v k => if (wordsIn a n).contains k then v else v + bitAt (x.val.testBit k) k) 0)
      if keep fixed = 0 ∧ keep lost = 0 then .none else .words (keep fixed) (keep lost)
    else .none
  | .none => .none
  | .corrected _ _ => .none
  | .uncorrectable => .none

/-- The errors left once the lines of `n` bytes at `a` have been written. -/
def Memory.mended (m : Memory) (a n : Nat) : List (Nat × MemFault) :=
  (m.errs.map fun e =>
    if 64 * e.1 + 63 < a ∨ a + n ≤ 64 * e.1 then e
    else (e.1, faultAfterWrite e.2 (m.isLight (64 * e.1)) (max a (64 * e.1)) (min (a + n) (64 * e.1 + 64) - max a (64 * e.1)))).filter (·.2 != .none)

/-- Bytes of the code's unit at an address: 64 under STRONG, 8 under LIGHT (R284). -/
def Memory.granule (m : Memory) (a : Nat) : Nat := if m.isLight a then 8 else 64

/-- The first granule's line that a write of `n` bytes at `a` covers only in part and that cannot be read (R284). -/
def Memory.partialBad (m : Memory) (a n : Nat) : Option Nat :=
  let g0 := m.granule a
  let last := a + n - 1
  let g1 := m.granule last
  let b0 := a / g0 * g0
  let b1 := last / g1 * g1
  if n = 0 then none
  else if (a ≠ b0 ∨ a + n < b0 + g0) ∧ m.fails (m.finding .none (b0 / 64)) b0 g0 then some (b0 / 64)
  else if (a + n < b1 + g1) ∧ m.fails (m.finding .none (b1 / 64)) b1 g1 then some (b1 / 64)
  else none

/-- A write as the controller performs it: refused with the line that could not be read, or done (R284). -/
def Memory.write (m : Memory) (a : Nat) (bs : List Byte) : Except Nat Memory :=
  match m.partialBad a bs.length with
  | some line => .error line
  | none => .ok ((({ m with
      errs := m.mended a bs.length
      poisoned := m.poisoned.filter fun l => !(decide (a ≤ 64 * l + 63 ∧ 64 * l < a + bs.length)) } : Memory)).putBytes a bs)

/-- The clear of R285: every line zero under STRONG. -/
def Memory.clear (_ : Memory) : Memory := { cleared := true }

/-- The bytes of the retired pages are those that their spare pages held so far, and the unit of the spares holds none that a
master reaches (R291, R292). -/
def Memory.redirect (m : Memory) (spareUnit : Nat) (pages : List (Nat × Nat)) : Memory :=
  let src (p : Nat) : Nat := (spareUnit * 1024 + p) * 65536
  let spares := pages.map fun p => (65536 * p.1, m.cells.filter fun c => decide (src p.2 ≤ c.1 ∧ c.1 < src p.2 + 65536), src p.2)
  let m := { m with cells := m.cells.filter fun c => c.1 / 0x4000000 != spareUnit && !(pages.any (·.1 == c.1 / 65536)) }
  spares.foldl (fun m p => p.2.1.foldl (fun m c => m.putByte (c.1 - p.2.2 + p.1) c.2) m) m

/-- Applying the region map (R283, R286): the words of every LIGHT unit hold no valid codeword yet. -/
def Memory.applyMap (m : Memory) (light : List Nat) : Memory :=
  { m with light := light, cells := m.cells.filter fun c => !(light.contains (unitOf c.1)) && !(decide (c.2 = 0#8) && m.cleared) }

/-- The canonical form of main memory: listed addresses rise strictly, and none holds what it would read unlisted. -/
abbrev Memory.wf (m : Memory) : Prop :=
  m.cells.Pairwise (fun x y => x.1 < y.1) ∧ ∀ c ∈ m.cells, m.unlisted c.1 ≠ some c.2

/-- Replaces main memory. -/
def State.setMem (s : State) (m : Memory) : State := { s with mem := { s.mem with mem := m } }

/-- A little-endian word of memory at an address, for the units that read images and lines. -/
def State.memWord (s : State) (a : Nat) : Option Nat := (s.mem.mem.readBytes a 4).map leNat

/-! ### Event sources (R358, R359) -/

/-- A section in force: the new generation's where the section has swapped. -/
def State.sect (s : State) (ty : Nat) : Generation :=
  match s.cfg.next with
  | some g => if s.cfg.swapped.contains ty then g else s.cfg.cur
  | none => s.cfg.cur

/-- The mapping of mailbox points, a swap of its own at the TAI second boundary (R57); no section has this type. -/
def mappingSwap : Nat := 0xFFFF

/-- A unit that a delta takes out of use is still referred to, by the mailbox points of the old generation until their
mapping swaps (R42, R57): the wavefront engine. -/
def State.stillMapped (s : State) (u : Nat) : Bool :=
  u == 1 && s.cfg.cur.unitUse.testBit 1 && !s.cfg.swapped.contains mappingSwap
    && (match s.cfg.next with
      | some g => !g.unitUse.testBit 1
      | none => false)
    && s.cfg.cur.points.any fun p => p.kind == 2 && decide (7168 ≤ p.source)

/-- An optional unit is present and the sections in force use it (R6, R8, R42). -/
def State.inUse (s : State) (u : Nat) : Bool :=
  s.present u && ((s.sect (if u = 0 then 5 else if u = 1 then 6 else 0x11)).unitUse.testBit u || s.stillMapped u)

/-- The sources of an absent or unused unit never assert (R6, R8, R9). -/
def sourceMay (n : Nat) (s : State) : Bool :=
  if 148 ≤ n ∧ n ≤ 151 then s.inUse 0
  else if 152 ≤ n ∧ n ≤ 155 then s.inUse 1
  else true

/-- The first notification of a source that waits counts one assertion more. -/
def raiseFirst (src : Nat) : List Notif → List Notif
  | [] => []
  | y :: t => if y.kind = 1 ∧ y.source = src then { y with count := y.count + 1 } :: t else y :: raiseFirst src t

/-- A session's queue takes a notification, or counts it lost (R357). -/
def Session.push (x : Session) (n : Notif) : Session × Bool :=
  if x.queue.length < 256 then ({ x with queue := x.queue ++ [n] }, true)
  else if n.kind = 1 ∧ x.queue.any (fun y => y.kind = 1 ∧ y.source = n.source) then
    ({ x with queue := raiseFirst n.source x.queue }, true)
  else ({ x with lost := x.lost + 1 }, false)

/-- Queues a notification for every session that `sub` selects; each one dropped counts in `HIF_NOTIFY_LOST`. -/
def notifyAll (sub : Session → Bool) (n : Notif) (s : State) : State :=
  let step (acc : List (Option Session) × Nat) (x : Option Session) : List (Option Session) × Nat :=
    match x with
    | some y => if sub y then let (z, ok) := y.push n; (acc.1 ++ [some z], if ok then acc.2 else acc.2 + 1) else (acc.1 ++ [x], acc.2)
    | none => (acc.1 ++ [x], acc.2)
  let r := s.hif.sessions.foldl step ([], 0)
  { s with hif := { s.hif with sessions := r.1, notifyLost := tallyAdd s.hif.notifyLost r.2 } }

/-- Hardware sets a W1C bit at the present instant (R13). -/
def hwSet (addr bit : Nat) (reader : Option Bool) (s : State) : State :=
  let m : HwMark := { addr := addr, bit := bit, reader := reader, now := s.now, aon := s.aon }
  { s with evt := { s.evt with hw := m :: s.evt.hw.filter fun x => decide (x.now = s.now ∧ x.aon = s.aon) && x != m } }

/-- The bits of a register, as a reader sees it, that hardware has set at the present instant: a W1C write clears none of
them (R13). -/
def State.hwBits (s : State) (host : Bool) (addr : Nat) : Nat :=
  (s.evt.hw.filter fun x => x.addr == addr && decide (x.now = s.now ∧ x.aon = s.aon) && (x.reader == none || x.reader == some host)).foldl
    (fun n x => n ||| 2 ^ x.bit) 0

/-- Event source `n` asserts: its pending bit is set, and the subscribed sessions are notified (R357, R359). -/
def assertSource (n : Nat) (s : State) : State :=
  if sourceMay n s then
    let s := hwSet (0x140000 + n / 32 * 4) (n % 32) none { s with evt := { s.evt with pend := s.evt.pend ||| (1#160 <<< n) } }
    if s.evt.hostEn.getLsbD n then
      notifyAll (fun x => x.kinds % 2 = 1 ∧ x.sources.getLsbD n) { kind := 1, source := n, time := s.islandTime hostIsland } s
    else s
  else s

/-- The event register's value. -/
def EvtState.get (e : EvtState) : EvtReg → Nat
  | .prt n => e.prt.getD n 0
  | .tevt t => e.tevt.getD t 0
  | .tmb => 0
  | .fcr => e.fcr
  | .ptm => e.ptm
  | .wvl => e.wvl
  | .lgr => e.lgr
  | .kpr => e.kpr
  | .svi => e.svi
  | .phe => e.phe
  | .wce => e.wce
  | .upd => e.upd
  | .bsl => 0
  | .hif => e.hif

/-- The event register with a new value. -/
def EvtState.put (e : EvtState) (v : Nat) : EvtReg → EvtState
  | .prt n => { e with prt := putAt e.prt n v }
  | .tevt t => { e with tevt := putAt e.tevt t v }
  | .tmb => e
  | .fcr => { e with fcr := v }
  | .ptm => { e with ptm := v }
  | .wvl => { e with wvl := v }
  | .lgr => { e with lgr := v }
  | .kpr => { e with kpr := v }
  | .svi => { e with svi := v }
  | .phe => { e with phe := v }
  | .wce => { e with wce := v }
  | .upd => { e with upd := v }
  | .bsl => e
  | .hif => { e with hif := v }

/-- The event source that a bit of an event register asserts (R358): one source a register for the ports, tasks, UPD
and HIF, one a bit for the other units. -/
def EvtReg.source : EvtReg → Nat → Nat
  | .prt n, _ => n
  | .tevt t, _ => 64 + t
  | .tmb, b => 80 + b
  | .fcr, b => 96 + b
  | .ptm, b => 112 + b
  | .wvl, b => 120 + b
  | .lgr, b => 128 + b
  | .kpr, b => 136 + b
  | .svi, b => 144 + b
  | .phe, b => 148 + b
  | .wce, b => 152 + b
  | .upd, _ => 156
  | .bsl, b => 157 + b
  | .hif, _ => 159

/-- The address of a unit's event register (chapter 20). -/
def EvtReg.addr : EvtReg → Nat
  | .prt n => 0x2000C + 0x400 * n
  | .tevt t => 0x60100 + 4 * t
  | .tmb => 0
  | .fcr => 0xD0004
  | .ptm => 0x90004
  | .wvl => 0xA000C
  | .lgr => 0xE0004
  | .kpr => 0xF0004
  | .svi => 0x30004
  | .phe => 0x40004
  | .wce => 0x50004
  | .upd => 0x110008
  | .bsl => 0
  | .hif => 0x130004

/-- Sets a bit of a unit's event register; the source asserts where the bit goes from 0 to 1 (R359). The time base
and the loader have no register: each of their happenings asserts. -/
def raise (r : EvtReg) (bit : Nat) (s : State) : State :=
  let s := hwSet r.addr bit none s
  if (s.evt.get r).testBit bit then s
  else assertSource (r.source bit) { s with evt := s.evt.put (s.evt.get r + 2 ^ bit) r }

/-! ### Fault reports (R22, R335) -/

/-- The events of a source that still lie within W of the present instant. -/
def inWindow (aon wms : Nat) (l : List Nat) : List Nat := l.filter fun e => decide (aon ≤ e + aonMs wms)

/-- One event reaches the fault collector: the tally rises and the window takes it; below severity the N-th event within W
makes the source due to become severe, in the instance that this event names (R335). Reserved sources never are. -/
def FcrSource.event (x : FcrSource) (aon inst : Nat) : FcrSource :=
  let r := aon :: inWindow aon x.wms x.recent
  let x := { x with events := tallyInc x.events, recent := r }
  if x.severe || x.due then x else { x with inst := inst, due := decide (x.n ≤ r.length), dueAt := aon }

/-- The tally that a reporting unit keeps for the source. -/
def FcrSource.tally (x : FcrSource) (unit : Nat) : Tally := (x.tallies.find? (·.unit == unit)).getD { unit := unit }

/-- The unit's tally replaced. -/
def FcrSource.putTally (x : FcrSource) (y : Tally) : FcrSource := { x with tallies := y :: x.tallies.filter (·.unit != y.unit) }

/-- One report in the unit's own 8-bit tally (R22): a local increment. -/
def FcrSource.bump (x : FcrSource) (unit : Nat) : FcrSource :=
  x.putTally { x.tally unit with count := ((x.tally unit).count + 1) % 256 }

/-- `n` events reach the fault collector. -/
def FcrSource.eventsN (x : FcrSource) (aon inst : Nat) : Nat → FcrSource
  | 0 => x
  | n + 1 => (x.event aon inst).eventsN aon inst n

/-- The always-on island samples a unit's tally and counts the difference (R22). -/
def FcrSource.sample (x : FcrSource) (unit aon inst : Nat) : FcrSource :=
  let y := x.tally unit
  (x.eventsN aon inst ((y.count + 256 - y.sampled) % 256)).putTally { y with sampled := y.count }

/-- A unit reports one event of a fault source, naming the cage, task or lane it concerns (0xFF for none): its own tally
counts, and the next always-on cycle samples it (R22). -/
def reportBy (unit src inst : Nat) (s : State) : State :=
  if src < 38 then { s with fcr := { s.fcr with sources := updAt s.fcr.sources src (fun x => (x.bump unit).sample unit s.aon inst) } } else s

/-- A report of a source that one unit reports, or, of source 35, each cage's island. -/
def report (src inst : Nat) (s : State) : State := reportBy (if src = 35 then inst else 0) src inst s

/-- The source is severe now. -/
def State.severe (s : State) (src : Nat) : Bool := (s.fcr.sources.getD src {}).severe

/-- The source's fence is in force. -/
def State.fencedSrc (s : State) (src : Nat) : Bool := (s.fcr.sources.getD src {}).fenced

/-! ### Keeper jobs (R317, R318) -/

/-- Queues a keeper job; jobs of a better class go ahead of worse ones, in arrival order within a class (R318). -/
def insertJob (j : KprJob) : List KprJob → List KprJob
  | [] => [j]
  | x :: t => if j.cls < x.cls then j :: x :: t else x :: insertJob j t

/-- Keeper jobs are withdrawn: what still waits is `l` (R317). -/
def setJobs (l : List KprJob) (s : State) : State := { s with kpr := { s.kpr with jobs := l, throttled := s.kpr.throttled && !l.isEmpty } }

/-- A keeper write waits for the governor; `THROTTLED` is set while pages wait, and its entry asserts source 142
(R317). -/
def queueJob (j : KprJob) (s : State) : State :=
  let s := { s with kpr := { s.kpr with jobs := insertJob j s.kpr.jobs } }
  if s.kpr.throttled then s else raise .kpr 6 { s with kpr := { s.kpr with throttled := true } }

/-! ### The ledger front end (chapter 14) -/

/-- Codes marked † are exempt from rate limits (R325, R343, R360, R370, R387). -/
def exempt (code : Nat) : Bool :=
  [0x0101, 0x0103, 0x0203, 0x0602, 0x0603, 0x0604, 0x0605, 0x0606, 0x0701, 0x0702, 0x0703, 0x0704, 0x0705, 0x0901,
   0x0902, 0x0903, 0x0904, 0x0A01, 0x0A02, 0x0A03, 0x0A05, 0x0A06, 0x0A08, 0x0A09, 0x0A0A, 0x0B01, 0x0E01, 0x0E02,
   0x0F01, 0x0F02, 0x0F03, 0x0F04, 0x0F05, 0x0F06, 0x0F07, 0x0F08, 0x1002, 0x1003, 0x1004, 0x0D02, 0x0D03, 0x0D04,
   0x0D05, 0x0D06, 0x1302, 0x1304, 0x1305, 0x1102, 0x1103, 0x1104, 0x1105, 0x1202, 0x1203].contains code

/-- One token, in the units of a bucket's level. -/
def tokenUnit : Nat := 1000000000000

/-- A bucket filled up to the present instant. -/
def Bucket.fill (b : Bucket) (aon : Nat) : Bucket :=
  { b with level := min (b.burst * tokenUnit) (b.level + (aon - b.last) * b.refill), last := aon }

/-- The position of the bucket that a code draws on: its own, or the shared one. -/
def bucketFor (bs : List Bucket) (code : Nat) : Nat :=
  match bs.findIdx? (fun b => b.code == some code) with
  | some i => i
  | none => (bs.findIdx? (fun b => b.code == none)).getD 0

/-- The code that a bucket's suppressions report: the shared bucket reports 0xFFFF (R329). -/
def Bucket.reports (b : Bucket) : Nat := b.code.getD 0xFFFF

/-- Counts one suppressed record. -/
def suppress (l : List Suppressed) (code time : Nat) : List Suppressed :=
  if l.any (·.code == code) then
    l.map fun x => if x.code == code then { x with count := x.count + 1, last := time } else x
  else l ++ [{ code := code, count := 1, first := time, last := time }]

/-- The keeper that a record arriving now belongs to: the one mounted OK or READ_ONLY, else the one that passed P3
in this start; none while a BLANK keeper is mounted, or while no keeper is known (R324). -/
def State.recordOwner (s : State) : Option Nat :=
  if s.kpr.state = 2 ∨ s.kpr.state = 3 then s.kpr.cartridge.map (·.ident)
  else if s.kpr.state = 1 then none
  else s.kpr.passed

/-- Records waiting in the hold buffer (`LGR_STAT.HOLD`). -/
def State.hold (s : State) : Nat := s.lgr.held.length + s.lgr.unnumbered.length

/-- A slot may issue work now: admitted, not exhausted, its charge below its budget (R24, R25, R239). -/
def State.slotOpen (s : State) (i : Nat) : Bool :=
  let x := s.bgt.slots.getD i {}
  s.bgt.mask.testBit i && !x.exhausted && decide (x.spent < x.budget)

/-- Puts a page of held records into the keeper's queue where one is due (R330): full, or `force`; a writable keeper, stall
slot 22 open, and no ledger page already queued. -/
def queueLedger (force : Bool) (s : State) : State :=
  let busy := s.kpr.jobs.any (·.cls == 2) || (match s.kpr.inFlight with | some j => j.cls == 2 | none => false)
  if s.keeperWritable && !busy && s.slotOpen 22 && (decide (s.lgr.pageRoom ≤ s.lgr.held.length) || (force && !s.lgr.held.isEmpty)) then
    queueJob { cls := 2, kind := .ledger (min s.lgr.pageRoom s.lgr.held.length), pages := 1 } s
  else s

/-- The order of requests that arrive in one always-on cycle: by unit, then by `SOURCE` (R324). The record of a commissioning and
that of losses stay before all others. -/
def LedgerRecord.rank (r : LedgerRecord) : Nat := if r.code = 0x0F06 ∨ r.code = 0x0E02 then 0 else r.code / 256 * 65536 + r.source

/-- A record takes its place among those held for the same keeper: behind them, but for the ones of its own always-on cycle that
come after it (R324; log entry 139, DEDUCED). -/
def placeRecord (r : LedgerRecord) : List LedgerRecord → List LedgerRecord
  | [] => [r]
  | x :: t =>
    if x.arr = r.arr ∧ x.keeper = r.keeper ∧ r.rank < x.rank then
      { r with seq := x.seq } :: (x :: t).map fun y => if y.keeper = r.keeper then { y with seq := y.seq + 1 } else y
    else x :: placeRecord r t

/-- Numbers of records held for a keeper that has never been this module's run on from those held for it already; they are given
anew at its mount (R331). -/
def LgrState.seqFor (l : LgrState) (k : Nat) : Nat :=
  if l.owner = some k then l.nextSeq else (l.held.filter (·.keeper == k)).length + 1

/-- Source 130 asserts where the records held pass 49,152 (R330). -/
def noteHold (was : Nat) (s : State) : State := when (decide (was ≤ 49152 ∧ 49152 < s.hold)) (raise .lgr 2) s

/-- A record enters the hold buffer, numbered where its keeper is known, or is dropped where the buffer is full
(R324, R330, R331). -/
def holdRecord (r : LedgerRecord) (s : State) : State :=
  if 65536 ≤ s.hold then
    raise .lgr 3 { s with lgr := { s.lgr with dropped := tallyInc s.lgr.dropped } }
  else
    let was := s.hold
    let l := s.lgr
    let s :=
      match s.recordOwner with
      | some k => { s with lgr := { l with
          held := placeRecord { r with seq := l.seqFor k, keeper := k } l.held
          nextSeq := if l.owner = some k then l.nextSeq + 1 else l.nextSeq } }
      | none => { s with lgr := { l with unnumbered := placeRecord r l.unnumbered } }
    queueLedger false (noteHold was s)

/-- A record that no limit suppresses: accepted, or dropped where the buffer is full (R332). -/
def takeRecord (r : LedgerRecord) (s : State) : Nat × State := (if 65536 ≤ s.hold then 2 else 0, holdRecord r s)

/-- A bucket holds a token. -/
def Bucket.hasToken (b : Bucket) : Bool := decide (tokenUnit ≤ b.level)

/-- A bucket after one token is taken. -/
def Bucket.take (b : Bucket) : Bucket := { b with level := b.level - tokenUnit }

/-- Puts a bucket back in its place. -/
def putBucket (i : Nat) (b : Bucket) (s : State) : State := { s with lgr := { s.lgr with buckets := putAt s.lgr.buckets i b } }

/-- A record that its bucket suppresses: counted per code; the code that begins suppression asserts source 129 (R328, R334). -/
def suppressRecord (code time : Nat) (s : State) : State :=
  let isFirst := !(s.lgr.pending.any (·.code == code))
  when isFirst (raise .lgr 1)
    { s with lgr := { s.lgr with pending := suppress s.lgr.pending code time, suppressedCount := tallyInc s.lgr.suppressedCount } }

/-- The bucket that a code draws on, filled up to the present instant. -/
def State.bucket (s : State) (code : Nat) : Bucket := (s.lgr.buckets.getD (bucketFor s.lgr.buckets code) {}).fill s.aon

/-- What the front end answers to a record request: 0 accepted, 1 suppressed, 2 dropped (R332). -/
def admitRecord (r : LedgerRecord) (s : State) : Nat × State :=
  if exempt r.code then takeRecord r s
  else if (s.bucket r.code).hasToken then takeRecord r (putBucket (bucketFor s.lgr.buckets r.code) (s.bucket r.code).take s)
  else (1, suppressRecord r.code r.time (putBucket (bucketFor s.lgr.buckets r.code) (s.bucket r.code) s))

/-- The record's `FLAGS` (R323). -/
def State.recFlags (s : State) (fw : Bool) : Nat :=
  bitAt s.standbyRole 0 + bitAt (s.wvl.side == 1) 1 + bitAt (!s.traceable) 2 + bitAt fw 3

/-- A record of the present moment. -/
def mkRecord (code source : Nat) (data : List Nat) (s : State) : LedgerRecord :=
  { time := s.islandTime aonIsland, code := code, source := source, gen := s.bsl.genCur, flags := s.recFlags false, eui := s.gen.eui, data := data, arr := s.aon }

/-- A unit requests a ledger record (R324). -/
def ledger (code source : Nat) (data : List Nat) (s : State) : State := (admitRecord (mkRecord code source data s) s).2

/-- The two words of a 64-bit quantity, low first (R326). -/
def two (n : Nat) : List Nat := [n % 2 ^ 32, n / 2 ^ 32 % 2 ^ 32]

/-- A 32-bit word of a signed quantity. -/
def sword (i : Int) : Nat := unsignedOf 32 i

/-! ### Stall charges (R25, R239) -/

/-- A slot charged `n` units of its budget. -/
def SlotState.charge (x : SlotState) (n : Nat) : SlotState := { x with spent := x.spent + n }

/-- Work is issued on a BGT slot: its charge rises; the exhaustion itself is BUDGET_EXHAUSTED. -/
def chargeSlot (i n : Nat) (s : State) : State :=
  { s with bgt := { s.bgt with slots := updAt s.bgt.slots i (·.charge n) } }

/-- Since when stall slot 25 has been withheld or exhausted is noted (R356). -/
def noteBulk (s : State) : State :=
  { s with bgt := { s.bgt with bulkShut := if s.slotOpen 25 then none else some (s.bgt.bulkShut.getD s.aon) } }

/-- A port's transmit stall is charged wire bytes (R116). -/
def chargePort (n bytes : Nat) (s : State) : State :=
  { s with prt := { s.prt with ports := updAt s.prt.ports n fun p => { p with spent := p.spent + bytes } } }

/-- A port as held. -/
def State.port (s : State) (n : Nat) : PortState := s.prt.ports.getD n {}

/-- Changes a port. -/
def modPort (n : Nat) (f : PortState → PortState) (s : State) : State :=
  { s with prt := { s.prt with ports := updAt s.prt.ports n f } }

/-- Changes a task of the sequencer. -/
def modTask (t : Nat) (f : TaskState → TaskState) (s : State) : State :=
  { s with seq := { s.seq with tasks := updAt s.seq.tasks t f } }

/-- A task as held. -/
def State.task (s : State) (t : Nat) : TaskState := s.seq.tasks.getD t {}

/-- Changes a session. -/
def modSes (i : Fin 8) (f : Session → Session) (s : State) : State :=
  { s with hif := { s.hif with sessions := updAt s.hif.sessions i.val (·.map f) } }

/-- The configuration tables a task runs on: the new ones once it has swapped (R56, R214). -/
def State.taskGen (s : State) (t : Nat) : Generation :=
  match s.cfg.next with
  | some g => if (s.task t).swapped then g else s.cfg.cur
  | none => s.cfg.cur

/-- The task entry in force for a task. -/
def State.taskCfg (s : State) (t : Nat) : Option TaskCfg := (s.taskGen t).tasks.find? (·.task == t)

/-- A publication frame may leave the host port now: SHP traffic comes after it (R28). -/
def State.pubFirst (s : State) (h : Nat) : Bool :=
  !s.phe.fenced && s.slotOpen (17 + h) && s.hif.links.getD h false && s.phe.queue.any (·.host == h)

/-- A reply on its session, with its header (R351): a payload of whole words, the request's type and tag. -/
def HeldReply.out (r : HeldReply) (ses : Nat) : Out :=
  .shp ses { length := 4 * r.payload.length, ty := r.ty, flags := 1, tag := r.tag } r.status r.detail r.payload

/-- A notification on its session, with its header (R351, R357). -/
def Notif.out (n : Notif) (ses : Nat) : Out :=
  .notify ses { length := if n.kind = 2 then 0x54 else 0x14, ty := 0xA, flags := 2 } n

/-- The complete replies of a session, in front of every one that still waits (R352). -/
def Session.ready (x : Session) : List HeldReply := x.replies.takeWhile (·.waits.isNone)

/-- The complete replies of a session leave, in order (R352). -/
def flushReplies (i : Fin 8) (s : State) : State :=
  match s.hif.sessions.getD i.val none with
  | some x =>
    let s := modSes i (fun x => { x with
      lastMsg := if x.ready.isEmpty then x.lastMsg else s.aon
      outstanding := x.outstanding - x.ready.length, replies := x.replies.drop x.ready.length }) s
    { s with out := (x.ready.map (·.out i.val)).reverse ++ s.out }
  | none => s

/-- The replies of a session leave its host port, unless a publication frame goes first (R28). -/
def sendReplies (i : Fin 8) (s : State) : State :=
  match s.hif.sessions.getD i.val none with
  | some x => if s.pubFirst x.port then s else flushReplies i s
  | none => s

/-- Notifications leave, in order (log entry 9, DESIGN CHOICE), but behind publication (R28). -/
def drainNotifs (s : State) : State :=
  (List.range 8).foldl (fun s i =>
    match s.hif.sessions.getD i none with
    | some x =>
      if s.pubFirst x.port then s
      else
        let s := x.queue.foldl (fun s n => emit (n.out i) s) s
        { s with hif := { s.hif with sessions := putAt s.hif.sessions i (some { x with queue := [] }) } }
    | none => s) s

/-- What ended sessions left behind publication leaves the host ports on which publication goes first no longer (R28). -/
def drainEgress (s : State) : State :=
  let go (p : Nat × Out) : Bool := !s.pubFirst p.1
  { s with out := ((s.hif.egress.filter go).map (·.2)).reverse ++ s.out
           hif := { s.hif with egress := s.hif.egress.filter fun p => !go p } }

/-- The SHP traffic that waited behind publication leaves (R28). -/
def drainShp (s : State) : State := drainNotifs ((List.finRange 8).foldl (fun s i => sendReplies i s) (drainEgress s))

/-- Answers an SHP request: status and detail of R355, with the payload words; the reply leaves after those of the
requests before it (R352). -/
def answer (i : Fin 8) (status detail : Nat) (payload : List Nat) (s : State) : State :=
  sendReplies i (modSes i (fun x => { x with replies := x.replies ++
    [{ ty := x.reqTy, tag := x.reqTag, status := status, detail := detail, payload := payload }] }) s)

/-- The reply of the request at hand waits for the work `kind`. -/
def defer (kind : Nat) (i : Fin 8) (s : State) : State :=
  modSes i (fun x => { x with replies := x.replies ++ [{ waits := some kind, ty := x.reqTy, tag := x.reqTag }] }) s

/-- The first reply that waits for the work `kind` is complete. -/
def fillReply (kind : Nat) (r : HeldReply) : List HeldReply → List HeldReply
  | [] => []
  | x :: t => if x.waits = some kind then { r with ty := x.ty, tag := x.tag } :: t else x :: fillReply kind r t

/-- Answers the session's first request that waits for the work `kind`; none waits where the session is another by now. -/
def answerLate (kind : Nat) (i : Fin 8) (status detail : Nat) (payload : List Nat) (s : State) : State :=
  sendReplies i (modSes i (fun x => { x with replies := fillReply kind { status := status, detail := detail, payload := payload } x.replies }) s)

/-- Answers a session by its number, where there is one to answer. -/
def answerTo (kind : Nat) (i : Option Nat) (status detail : Nat) (payload : List Nat) (s : State) : State :=
  match i with
  | some n => if h : n < 8 then answerLate kind ⟨n, h⟩ status detail payload s else s
  | none => s

/-- A `ROLE` reply or entry counts (chapter 16, `HIF_ROLE_REFUSED`). -/
def countRole (status : Nat) (s : State) : State :=
  when (decide (status = 3)) (fun s => { s with hif := { s.hif with roleRefused := tallyInc s.hif.roleRefused } }) s

/-- Answers an SHP request, counting a `ROLE` reply. -/
def reply (i : Fin 8) (status detail : Nat) (payload : List Nat) (s : State) : State :=
  answer i status detail payload (countRole status s)

/-- Things leave a host port, or wait there behind publication (R28). -/
def leaveHost (p : Nat) (l : List Out) (s : State) : State :=
  if s.pubFirst p then { s with hif := { s.hif with egress := s.hif.egress ++ l.map fun o => (p, o) } }
  else { s with out := l.reverse ++ s.out }

/-- Session `i` ends (R350): its complete replies leave, and then the end of its connection, behind publication (R28); its
subscription ends with it, loads it owns stay open without an owner (R50), a reply it
waits for is lost; the closing is recorded with its cause where the session had a role (R360). -/
def closeSession (i : Nat) (cause : Nat) (s : State) : State :=
  match s.hif.sessions.getD i none with
  | none => s
  | some x =>
    let free (o : Option Nat) : Option Nat := if o = some i then none else o
    let s := { s with
      hif := { s.hif with sessions := putAt s.hif.sessions i none, accessStoring := s.hif.accessStoring.map free }
      bsl := { s.bsl with load := s.bsl.load.map fun l => { l with owner := free l.owner }, committer := free s.bsl.committer }
      upd := { s.upd with load := s.upd.load.map fun l => { l with owner := free l.owner }, committer := free s.upd.committer } }
    let s := when (decide (0 < x.role)) (ledger 0x1302 x.port [x.port, cause]) s
    leaveHost x.port (x.ready.map (·.out i) ++ [.shpClosed i]) (raise .hif 1 s)

/-- A message of a session is handled by `f` where the session is open, has said HELLO, and has the role `r`; a first
message other than HELLO closes the session with FORMAT, a lower role is answered with ROLE (R352, R354, R355). With
16 requests outstanding no message is read (R352). In bootstrap only HELLO, KPR_ READ and WRITE, and target 3 loads pass (R348);
`boot` marks those. `ty` is the message's type (R351). -/
def withSession (i : Fin 8) (ty r : Nat) (boot : Bool) (f : State → State) (s : State) : State :=
  match s.hif.sessions.getD i.val none with
  | none => s
  | some x =>
    if x.role = 0 ∨ 16 ≤ x.outstanding then s
    else
      let s := modSes i (fun y => { y with outstanding := y.outstanding + 1, lastMsg := s.aon, reqTy := ty, reqTag := s.msgTag }) s
      if !x.helloDone then closeSession i.val 3 (reply i 1 0 [] s)
      else if x.bootstrap && !boot then reply i 3 0 [] s
      else if x.role < r then reply i 3 0 [] s
      else f s

end Sys2Proof.Machine
end

