-- ==== Sys2Proof/Machine/KeeperOps.lean ====
section
/-! DEFINITION. What the keeper interface and the ledger do (chapter 14), as operations other units share: storing
records, mounting a cartridge, the P3 check, the endurance governor, and reading records back. -/

namespace Sys2Proof.Machine

open Sys2Proof

/-! ### The cartridge -/

/-- The four words of a 128-bit identity, lowest first (R310). -/
def idWords (i : Nat) : List Nat := (List.range 4).map fun k => i / 2 ^ (32 * k) % 2 ^ 32

/-- The highest sequence number stored in a cartridge (R333). -/
def Cartridge.highest (c : Cartridge) : Nat :=
  match c.running.getLast? with
  | some r => r.seq
  | none => (c.founding.getLast?.map (·.seq)).getD 0

/-- The lowest sequence number that the running ledger still holds (R333). -/
def Cartridge.lowest (c : Cartridge) : Nat := (c.running.head?.map (·.seq)).getD 0

/-- 384 TiB, the endurance that R316 counts against. -/
def enduranceBytes : Nat := 384 * 2 ^ 40

/-- 35 years of 365.25 days, in quarters of a day (R316). -/
def lifeQuarterDays : Nat := 35 * 1461

/-- `KPR_LIFE_REMAIN`: the lowest of the three terms of R316, each rounded down, at a day since 1970-01-01 TAI. -/
def Cartridge.life (c : Cartridge) (day : Nat) : Nat :=
  let wear := 1000 * (enduranceBytes - c.written) / enduranceBytes
  let age := 1000 * (lifeQuarterDays - 4 * (day - c.mfgDay)) / lifeQuarterDays
  min wear (min age (min 1000 c.replaceLeft))

/-- Days of module time since 1970-01-01 TAI. -/
def State.today (s : State) : Nat := timeSec s.now / 86400

/-- `KPR_LIFE_REMAIN` of the mounted keeper. -/
def State.keeperLife (s : State) : Nat := match s.kpr.cartridge with
  | some c => if s.kpr.state = 0 then 0 else c.life s.today
  | none => 0

/-- The newest complete retained slot. -/
def Cartridge.newestSlot (c : Cartridge) : Option RetSlot :=
  c.retained.foldl (fun acc x => match acc, x with
    | some y, some r => if y.image.stamp ≤ r.image.stamp then some r else some y
    | none, r => r
    | y, none => y) none

/-- The newest complete retained image, where it passes its digest: an older one never stands in for it (R219, R421). -/
def Cartridge.newestImage (c : Cartridge) : Option RetImage := c.newestSlot.bind fun r => if r.good then some r.image else none

/-- The slot that the next retained round writes: the older of the two (R217). -/
def Cartridge.roundSlot (c : Cartridge) : Nat :=
  match c.newestSlot, c.retained.head? with
  | some n, some (some r) => if r == n then 1 else 0
  | _, _ => 0

/-- Bytes written to the keeper: they wear it and draw on the daily allowance (R316, R317). -/
def keeperCharge (bytes : Nat) (s : State) : State :=
  modCart (fun c => { c with written := c.written + bytes })
    { s with kpr := { s.kpr with bucket := s.kpr.bucket - bytes * 86400000000000 } }

/-- The daily allowance refilled up to the present instant (R317). -/
def refillBucket (s : State) : State :=
  { s with kpr := { s.kpr with
      bucket := min (8589934592 * 86400000000000) (s.kpr.bucket + (s.aon - s.kpr.bucketAt) * 8589934592)
      bucketAt := s.aon } }

/-- The keeper is not OK from now on, where it was (R320). -/
def notOkFrom (s : State) : State :=
  { s with kpr := { s.kpr with notOkSince := some (s.kpr.notOkSince.getD s.aon) } }

/-- The keeper turns READ_ONLY: source 141, a severe fault of the keeper source, and its record (R316). -/
def enterReadOnly (s : State) : State :=
  let s := notOkFrom (modCart (fun c => { c with readOnly := true }) { s with kpr := { s.kpr with state := 3 } })
  let s := ledger 0x0F05 0xFFFF [] (report 25 0xFF (raise .kpr 5 s))
  when (!s.lgr.stopped) (fun s => raise .lgr 7 { s with lgr := { s.lgr with stopped := true } }) s

/-- The life thresholds of R316: 100‰ once a mount, and 0‰, which a keeper may have come to outside this module. -/
def lifeCheck (s : State) : State :=
  let l := s.keeperLife
  let s := when (decide (l ≤ 100) && !s.kpr.lifeNoted && (s.kpr.state == 2 || s.kpr.state == 3))
    (fun s => ledger 0x0F04 0xFFFF [l] (raise .kpr 4 { s with kpr := { s.kpr with lifeNoted := true } })) s
  when (decide (l = 0) && (s.kpr.state == 2 || (s.kpr.state == 3 && !s.cart.readOnly))) enterReadOnly s

/-! ### Blocks kept in two copies (R309) -/

/-- The identity block as the KPR holds it. -/
def Cartridge.idBlock (c : Cartridge) : IdBlock :=
  { commissioned := c.commissioned, side := c.side, names := c.names, blvl := c.blvl, highWater := c.highWater
    current := c.current, staged := c.staged }

/-- The valid copy of the identity block with the higher write count. -/
def Cartridge.newestId (c : Cartridge) : Option IdCopy :=
  c.idCopies.foldl (fun acc x => match acc with
    | some y => if x.good && decide (y.count < x.count) then some x else some y
    | none => if x.good then some x else none) none

/-- The valid copy of the epoch reserve with the higher write count. -/
def Cartridge.newestReserve (c : Cartridge) : Option ReserveCopy :=
  c.reserveCopies.foldl (fun acc x => match acc with
    | some y => if x.good && decide (y.count < x.count) then some x else some y
    | none => if x.good then some x else none) none

/-- The copy of the identity block that the next write takes: the one that is not the newest. -/
def Cartridge.oldId (c : Cartridge) : Nat := if c.newestId == c.idCopies[0]? then 1 else 0

/-- The copy of the epoch reserve that the next write takes. -/
def Cartridge.oldReserve (c : Cartridge) : Nat := if c.newestReserve == c.reserveCopies[0]? then 1 else 0

/-- A page of the identity block is written: one copy, with the next write count. -/
def Cartridge.writeId (b : IdBlock) (c : Cartridge) : Cartridge :=
  { c with idCopies := putAt c.idCopies c.oldId { count := ((c.newestId.map (·.count)).getD 0 + 1) % 2 ^ 32, good := true, block := b } }

/-- A page of the epoch reserve is written: one copy, with the next write count. -/
def Cartridge.writeReserve (v : Nat) (c : Cartridge) : Cartridge :=
  { c with
    reserveCopies := putAt c.reserveCopies c.oldReserve { count := ((c.newestReserve.map (·.count)).getD 0 + 1) % 2 ^ 32, good := true, value := v }
    epochReserve := v }

/-- A page of the job is cut short: the copy it was writing no longer passes its CRC-32, and the other stays in force. -/
def Cartridge.cutShort (k : JobKind) (c : Cartridge) : Cartridge :=
  match k with
  | .identity _ => { c with idCopies := updAt c.idCopies c.oldId fun x => { x with good := false } }
  | .reserve _ => { c with reserveCopies := updAt c.reserveCopies c.oldReserve fun x => { x with good := false } }
  | .clearReserve => { c with reserveCopies := updAt c.reserveCopies c.oldReserve fun x => { x with good := false } }
  | _ => c

/-- The content that a mount finds in force; an identity block of the same keeper that still waits to be written stands
before it (R309, R321). -/
def Cartridge.readBlocks (waits : Option IdBlock) (c : Cartridge) : Cartridge :=
  let b := waits.getD ((c.newestId.map (·.block)).getD {})
  { c with
    commissioned := b.commissioned, side := b.side, names := b.names, blvl := b.blvl, highWater := b.highWater
    current := b.current, staged := b.staged, epochReserve := (c.newestReserve.map (·.value)).getD 0 }

/-- The identity block that waits to be written. -/
def State.idWaits (s : State) : Option IdBlock := s.kpr.jobs.findSome? fun j => match j.kind with
  | .identity b => some b
  | _ => none

/-- The identity block is to be written as it stands: two pages, one copy each, in place of one that still waits (R308, R309,
R318). -/
def writeIdentity (s : State) : State :=
  let waits (j : KprJob) : Bool := match j.kind with
    | .identity _ => true
    | _ => false
  queueJob { cls := 0, kind := .identity s.cart.idBlock, pages := 2 }
    { s with kpr := { s.kpr with jobs := s.kpr.jobs.filter fun j => !waits j } }

/-! ### Pages (R317) -/

/-- The last 16 MiB of the bucket, in bucket units. -/
def reserveUnits : Nat := 16777216 * 86400000000000

/-- One 4 KiB page in bucket units. -/
def pageUnits : Nat := 4096 * 86400000000000

/-- The pages that the first `n` held records stand in. -/
def LgrState.pagesOf (l : LgrState) (n : Nat) : Nat :=
  match (l.held.take n).head?, (l.held.take n).getLast? with
  | some a, some b => (b.seq - 1) / 64 + 1 - (a.seq - 1) / 64
  | _, _ => 0

/-- The held records that `k` pages take, from the first on. -/
def LgrState.recordsIn (l : LgrState) (k : Nat) : Nat := if k = 0 then 0 else l.pageRoom + 64 * (k - 1)

/-! ### Storing records (R322, R330) -/

/-- The ledger page of record `n`: its place in the founding ledger, or in the ring of the running one (R308). -/
def foundingPage (n : Nat) : Nat := (n - 1) / 64

/-- The page of the running ledger's ring that record `n` stands in. -/
def runningPage (n : Nat) : Nat := 1024 + (n - 1) % 1048576 / 64

/-- One record stored: in the founding ledger up to number 65,536, and in the running ledger, which keeps the last
1,048,576 (R322); a page begun anew has a good CRC-32 again. -/
def Cartridge.store (c : Cartridge) (r : LedgerRecord) : Cartridge :=
  let r := { r with arr := 0, keeper := 0 }
  { c with
    lostPages := if (r.seq - 1) % 64 = 0 then c.lostPages.filter (fun p => p != runningPage r.seq) else c.lostPages
    founding := if r.seq ≤ 65536 then c.founding ++ [r] else c.founding
    running := if c.running.length < 1048576 then c.running ++ [r] else c.running.drop 1 ++ [r] }

/-- A record of the firmware's snapshot is overwritten before the firmware has read it: source 132 (R333). -/
def noteOverwritten (r : LedgerRecord) (s : State) : State :=
  when (decide (1048576 ≤ s.cart.running.length))
    (fun s =>
      let q := s.cart.lowest
      when (decide (s.lgr.snapLow ≤ q ∧ q ≤ s.lgr.snapHigh ∧ 65536 < q ∧ q < r.seq) && !(s.lgr.readSeqs.contains q)) (raise .lgr 4) s) s

/-- Stores one held record. -/
def storeOne (r : LedgerRecord) (s : State) : State :=
  let s := modCart (·.store r) (noteOverwritten r s)
  when (decide (r.seq = 65536)) (raise .lgr 5) s

/-- Stores the first `n` held records in sequence order; source 128 (R330). -/
def storeHeld (n : Nat) (s : State) : State :=
  let rs := s.lgr.held.take n
  if rs.isEmpty then s
  else
    let s := rs.foldl (fun s r => storeOne r s) s
    raise .lgr 0 { s with lgr := { s.lgr with held := s.lgr.held.drop n } }

/-- The first `n` held records are stored in pages of their own, charged to the keeper and to stall slot 22 (R317, R330). -/
def storePages (n : Nat) (s : State) : State :=
  let bytes := 4096 * s.lgr.pagesOf n
  chargeSlot 22 bytes (keeperCharge bytes (storeHeld n s))

/-- What the bucket admits of the pages that its reserve does not serve. -/
def State.freePages (s : State) : Nat := (s.kpr.bucket - reserveUnits) / pageUnits

/-- The ledger flush before a restart: `n` held records are stored to a writable keeper, in at most `pages` pages, which the
governor and stall slot 22 admit; the count of those that could not be stored is kept (R331). -/
def flushHeld (pages n : Nat) (s : State) : State :=
  let k := min pages s.freePages
  let s := when (s.keeperWritable && s.slotOpen 22) (storePages (min n (s.lgr.recordsIn k))) s
  { s with lgr := { s.lgr with lostKept := s.lgr.lostKept + s.hold, lostOwner := s.lgr.owner.getD s.lgr.lostOwner } }

/-! ### Adopting a keeper's ledger (R324, R331) -/

/-- Numbers records from `n` upward. -/
def numberFrom (n : Nat) : List LedgerRecord → List LedgerRecord
  | [] => []
  | r :: t => { r with seq := n } :: numberFrom (n + 1) t

/-- The records held for a keeper that is mounted: `first`, then those held for it, numbered or not yet, all numbered from the
highest number that it has stored + 1; the newest give way where the buffer is full (R324, R330, R331; log entry 138, DESIGN
CHOICE). -/
def numberHeld (ident : Nat) (first : List LedgerRecord) (s : State) : State :=
  let was := s.hold
  let all := first ++ s.lgr.held ++ s.lgr.unnumbered
  let rs := (numberFrom (s.cart.highest + 1) (all.take 65536)).map fun r => { r with keeper := ident }
  let s := noteHold was { s with lgr := { s.lgr with
      held := rs, unnumbered := [], owner := some ident, nextSeq := s.cart.highest + 1 + rs.length
      dropped := tallyAdd s.lgr.dropped (all.length - rs.length) } }
  when (decide (rs.length < all.length)) (raise .lgr 3) s

/-- Records held for keepers other than `ident` are discarded and counted; for each of those keepers a record names how many
(R331). -/
def discardOthers (ident : Nat) (s : State) : List LedgerRecord × State :=
  let gone := s.lgr.held.filter (·.keeper != ident)
  let lost := ((gone.map (·.keeper)).eraseDups).map fun k => mkRecord 0x0E02 0xFFFF ((gone.filter (·.keeper == k)).length :: idWords k) s
  (lost, { s with lgr := { s.lgr with held := s.lgr.held.filter (·.keeper == ident), dropped := tallyAdd s.lgr.dropped gone.length } })

/-- What a mount finds lost (R331): the larger of the count that a restart kept and the excess of the keeper's mark over the
highest number stored, unless that mark has been accounted for; records that were lost unnumbered count for the keeper mounted
(log entry 138, DESIGN CHOICE). -/
def State.lostAtMount (s : State) (ident : Nat) : List LedgerRecord :=
  let ahead := if s.lgr.owner = some ident ∧ s.lgr.markDone = s.cart.mark then 0 else s.cart.mark - s.cart.highest
  let n := max s.lgr.lostKept ahead
  let who := if s.lgr.lostKept < ahead ∨ s.lgr.lostOwner = 0 then ident else s.lgr.lostOwner
  if n = 0 then [] else [mkRecord 0x0E02 0xFFFF (n :: idWords who) s]

/-- A keeper mounted in OK or READ_ONLY takes the ledger up: records held for another keeper are discarded and
counted, losses are recorded first, the records held follow (R324, R331). `first` is the commissioning record. -/
def adoptKeeper (ident : Nat) (first : List LedgerRecord) (s : State) : State :=
  let lost := s.lostAtMount ident
  let r := discardOthers ident s
  numberHeld ident (first ++ r.1 ++ lost) { r.2 with lgr := { r.2.lgr with lostKept := 0, lostOwner := 0, markDone := s.cart.mark } }

/-! ### Mounting and the P3 check (R311, R312, R321) -/

/-- The module has taken a generation in P4: a keeper mounted from now on is mounted in service (R393). -/
def State.inService (s : State) : Bool := s.cfg.loaded

/-- `KPR_STAT.STATE` of a cartridge at its mount (R311, R321). -/
def mountState (c : Cartridge) (s : State) : Nat :=
  if c.newestId.isNone then 5
  else if s.inService && s.kpr.startIdent != some c.ident then 4
  else if !c.commissioned then 1
  else if c.readOnly || c.life s.today == 0 then 3
  else 2

/-- Copies the generations and the high-water mark that the slot roles name into the loader's registers. -/
def copyRoles (s : State) : State :=
  let genOf (i : Option Nat) : Nat := match i with
    | some k => match s.cart.slots.getD k none with
      | some g => leField g.bytes 0x14 4
      | none => 0
    | none => 0
  let prev := match s.cart.current with
    | some 0 => genOf (some 1)
    | some _ => genOf (some 0)
    | none => match s.cart.slots with
      | [some _, none] => genOf (some 0)
      | _ => genOf (some 1)
  { s with bsl := { s.bsl with genPrev := prev, genStaged := genOf s.cart.staged, genHigh := s.cart.highWater } }

/-- An access set comes into force (R347, R359, R360). -/
def accessInForce (a : AccessSet) (s : State) : State :=
  ledger 0x1304 0xFFFF [a.serial] (raise .hif 3 { s with hif := { s.hif with access := some a } })

/-- An access set's store fails: the commit is refused with detail 0x06 (R347). -/
def accessFailed (s : State) : State :=
  let k := s.hif.accessReady.length
  answerTo 3 (s.hif.accessStoring.getD k none) 8 6 [0, 0, 0]
    { s with hif := { s.hif with accessStoring := s.hif.accessStoring.eraseIdx k } }

/-- The keeper writes that still wait are given up: they were for another keeper. -/
def dropJobs (s : State) : State :=
  let n := (s.kpr.jobs.filter fun j => match j.kind with
    | .access _ => true
    | _ => false).length
  (List.range n).foldl (fun s _ => accessFailed s) (setJobs [] s)

/-- Mounts the cartridge in the slot (R311): its state, names, ledger, the event and record of the mount, and before P4
has ended the access set it carries (R346). -/
def mountKeeper (s : State) : State :=
  match s.kpr.cartridge with
  | none => s
  | some c0 =>
    let c := c0.readBlocks (if s.lgr.owner == some c0.ident then s.idWaits else none)
    let st := mountState c s
    let s := { s with kpr := { s.kpr with cartridge := some c } }
    let s := { s with kpr := { s.kpr with
        state := st, safe := false, names := (c.names ++ List.replicate 12 0).take 12, lifeNoted := false
        notOkSince := if st = 2 then none else some (s.kpr.notOkSince.getD s.aon)
        staleReported := if st = 2 then false else s.kpr.staleReported } }
    let s := when (decide (st ≠ 4) && s.lgr.owner.isSome && s.lgr.owner != some c.ident) dropJobs s
    let s := when (decide (st = 2 ∨ st = 3)) (fun s => copyRoles (adoptKeeper c.ident [] s)) s
    let s := raise .kpr 0 s
    let s := if st = 4 then ledger 0x0F03 0xFFFF [] (raise .kpr 3 s) else ledger 0x0F02 0xFFFF (idWords c.ident) s
    let s := when (decide (st = 2) && s.lgr.stopped) (fun s => raise .lgr 7 { s with lgr := { s.lgr with stopped := false } }) s
    let s := when (decide (st ≠ 2) && !s.lgr.stopped) (fun s => raise .lgr 7 { s with lgr := { s.lgr with stopped := true } }) s
    let s := when (decide (st = 2)) (fun s => s.mem.unsaved.foldl (fun s e =>
      if s.kpr.jobs.any (fun j => j.kind == .retire e) then s else queueJob { cls := 0, kind := .retire e } s) s) s
    let s := match c.access with
      | some a => when (!s.inService && decide (st = 2 ∨ st = 3) && s.hif.access != some a) (accessInForce a) s
      | none => s
    lifeCheck s

/-- The first cause of R312 that holds; 0 where the keeper passes. -/
def p3Cause (s : State) : Nat :=
  let c := s.cart
  if s.kpr.state = 0 then 1
  else if s.kpr.state = 5 then 5
  else if s.kpr.state = 1 then 2
  else if c.blvl < s.gen.blvlMin ∨ s.gen.blvlMax < c.blvl then 3
  else if c.side ≠ s.wvl.side then 4
  else 0

/-- The P3 check (R312): the refusal with its record and event, or the start goes on to P4. -/
def checkKeeper (s : State) : State :=
  let cause := p3Cause s
  if cause = 0 then
    let id := s.cart.ident
    let stamp := if s.tmb.state = 0 then s.cart.newestImage.map (·.stamp) else none
    { s with
      kpr := { s.kpr with refuse := 0, passed := some id, startIdent := some id }
      gen := { s.gen with phase := 4, held := false }
      tmb := { s.tmb with retainedLoad := stamp } }
  else
    let s := { s with kpr := { s.kpr with refuse := cause }, gen := { s.gen with held := true } }
    let s := when (decide (s.kpr.state = 2)) (ledger 0x0F08 0xFFFF [cause, s.cart.blvl]) s
    raise .kpr 7 s

/-! ### The governor (R317, R318) -/



/-- The allowance a job of a class needs before its next page (R317). -/
def needUnits (cls : Nat) : Nat := if cls = 0 then pageUnits else reserveUnits + pageUnits

/-- `RESERVE_ONLY` follows the bucket; entry asserts source 142 (R317). -/
def noteReserve (s : State) : State :=
  let low := decide (s.kpr.bucket < reserveUnits)
  let was := s.kpr.reserveOnly
  let s := { s with kpr := { s.kpr with reserveOnly := low } }
  when (low && !was) (raise .kpr 6) s

/-- The governor admits a page of this job now: the keeper can be written, none is in flight, 1,000 µs have passed and
the allowance covers it (R317, R318). -/
def State.admits (s : State) (j : KprJob) : Bool :=
  let paced := match s.kpr.lastPage with
    | some x => decide (x + 1000000 ≤ s.aon)
    | none => true
  s.keeperWritable && s.kpr.inFlight.isNone && paced && decide (needUnits j.cls ≤ s.kpr.bucket)

/-- The ledger page writer's stall, slot 22, is closed to a ledger page that waits (R25). -/
def State.stalled (s : State) (j : KprJob) : Bool := j.cls == 2 && !s.slotOpen 22

/-- A page of job `j` is put in flight, and wears the keeper (R316, R318); `held` and `rest` wait before and after it. -/
def issuePage (j : KprJob) (held rest : List KprJob) (s : State) : State :=
  let j' := { j with pages := j.pages - 1 }
  let jobs := held ++ (if j.pages ≤ 1 then rest else j' :: rest)
  let s := { s with kpr := { s.kpr with
      inFlight := some j', jobs := jobs, lastPage := some s.aon, throttled := !jobs.isEmpty } }
  let s := when (decide (j.cls = 2)) (chargeSlot 22 4096) s
  lifeCheck (noteReserve (keeperCharge 4096 s))

/-- The first page that waits, and whose stall is open, goes out where the governor admits it. -/
def admitFirst (s : State) : State :=
  match s.kpr.jobs.span s.stalled with
  | (_, []) => s
  | (held, j :: rest) => if s.admits j then issuePage j held rest s else s

/-- The governor's bucket is brought up to the present instant, then the next page, if one waits, is admitted. -/
def admitPage (s : State) : State := admitFirst (noteReserve (refillBucket s))

/-- The retire map takes an entry; a page of the same module that is already listed is not listed twice (R291). -/
def Cartridge.addRetire (c : Cartridge) (e : RetireEntry) : Cartridge :=
  if c.retireMap.length < 512 then { c with retireMap := c.retireMap ++ [e] } else c

/-- RFC 1982 order of epochs; 0, an epoch or reserve never used, comes first (R260, R261). -/
def epochAhead (a b : Nat) : Bool := a % 2 ^ 32 != 0 && (b % 2 ^ 32 == 0 || serialNewer 32 a b)

/-- What a page writes as it completes: one copy of a block kept in two (R309). A reserve is never lowered but by
recommissioning (R261, R315). -/
def copyWritten (k : JobKind) (s : State) : State :=
  match k with
  | .identity b => modCart (·.writeId b) s
  | .reserve v => modCart (fun c => c.writeReserve (if epochAhead v c.epochReserve then v else c.epochReserve)) s
  | .clearReserve => modCart (·.writeReserve 0) s
  | _ => s

/-- What the last page of a job completes (R309). -/
def jobDone (k : JobKind) (s : State) : State :=
  match k with
  | .reserve _ => { s with wvl := { s.wvl with unreserved := false } }
  | .clearReserve => s
  | .purge e => modCart (fun c => { c with retireMap := c.retireMap.filter fun x => x.eui == e }) s
  | .retire e =>
    modCart (·.addRetire e) { s with mem := { s.mem with unsaved := s.mem.unsaved.filter (· != e) } }
  | .identity _ => s
  | .retained img =>
    modCart (fun c => { c with retained := putAt c.retained c.roundSlot (some { image := img }) })
      { s with seq := { s.seq with retWriting := false, retLast := some s.aon } }
  | .ledger n => queueLedger false (storeHeld n s)
  | .bitstream _ _ _ => s
  | .access a =>
    modCart (fun c => { c with access := some a }) { s with hif := { s.hif with accessReady := s.hif.accessReady ++ [a] } }

/-- The page in flight is cut short by a removal or by loss of power (R309). -/
def cutShort (s : State) : State := match s.kpr.inFlight with
  | some j => modCart (·.cutShort j.kind) s
  | none => s



/-- A keeper write that fails: source 143 and the keeper source (R334, R337). -/
def jobFailed (k : JobKind) (s : State) : State :=
  let s := report 25 0xFF (raise .kpr 7 s)
  match k with
  | .reserve _ => ledger 0x0A03 0xFFFF [] (raise .wvl 7 { s with wvl := { s.wvl with
      unreserved := true, epochNext := if s.wvl.epochWait then s.wvl.epochNext else none } })
  | .clearReserve => s
  | .purge _ => s
  | .retained _ => { s with seq := { s.seq with retWriting := false } }
  | .retire e => { s with mem := { s.mem with unsaved := if s.mem.unsaved.contains e then s.mem.unsaved else s.mem.unsaved ++ [e] } }
  | .identity _ => s
  | .ledger _ => s
  | .bitstream _ _ _ => s
  | .access _ => s

/-- Jobs of the same work as `k` that still wait are withdrawn (a failed or abandoned store is not resumed). -/
def dropCls (cls : Nat) (s : State) : State :=
  setJobs (s.kpr.jobs.filter fun j => j.cls != cls) s

/-- A retained round in progress is abandoned, and its pages do not wait (R319). -/
def abandonRound (s : State) : State := dropCls 1 { s with seq := { s.seq with retWriting := false } }

/-! ### Reading records (R333) -/

/-- A record as it is answered: the founding record, the running record, or a lost one; a page that fails its CRC-32 is
lost (R309). -/
def findRecord (c : Cartridge) (n : Nat) : Option LedgerRecord :=
  if n ≤ 65536 then (if c.lostPages.contains (foundingPage n) then none else c.founding.find? (·.seq == n))
  else if c.lostPages.contains (runningPage n) then none
  else c.running.find? (·.seq == n)

/-- The 64 bytes of a record (R323). -/
def LedgerRecord.bytes (r : LedgerRecord) : List Byte :=
  natLe r.seq 8 ++ natLe (timeSec r.time) 6 ++ natLe (timeNs r.time) 4 ++ natLe (timeFrac r.time) 2
    ++ natLe r.code 2 ++ natLe r.source 2 ++ natLe r.gen 4 ++ natLe r.flags 2 ++ natLe 0 2
    ++ natLe r.eui 6 ++ natLe 0 2 ++ (r.data.flatMap (natLe · 4) ++ List.replicate 24 0).take 24

/-- The answer to a read of number `n` (R333): 0 with the record, 1 lost, with `SEQ` = n and all else zero. -/
def answerRecord (c : Cartridge) (n : Nat) : Nat × List Byte :=
  match findRecord c n with
  | some r => (0, r.bytes)
  | none => (1, natLe n 8 ++ List.replicate 56 0)

end Sys2Proof.Machine
end

