-- ==== Sys2Proof/Machine/LoaderOps.lean ====
section
/-! DEFINITION. Refusals and replies of the loads (chapters 2, 16 and 17), and what ends a committed store early. -/

namespace Sys2Proof.Machine

open Sys2Proof

/-- `BSL_REFUSE`: section, detail and code. -/
def packRefuse (code sec detail : Nat) : Nat := sec % 256 * 65536 + detail % 256 * 256 + code % 256

/-- A refusal of the bit-stream loader: status, registers, record 0x1001 and source 157 (R49, R63). -/
def noteRefusal (code sec detail offset : Nat) (s : State) : State :=
  let s := hwSet 0x100004 5 none { s with bsl := { s.bsl with refused := true, refuse := packRefuse code sec detail, refuseOffset := offset } }
  ledger 0x1001 0xFFFF [code, sec, detail, offset] (raise .bsl 0 s)

/-- Answers a bit-stream load message about a generation: `GEN`, `REFUSE`, `REFUSE_OFFSET` (R354). -/
def replyLoad (i : Fin 8) (gen status detail : Nat) (s : State) : State :=
  reply i status detail [gen, if status = 8 then s.bsl.refuse else 0, if status = 8 then s.bsl.refuseOffset else 0] s

/-- Answers the commit of a bit-stream whose store has ended. -/
def answerLoad (i : Option Nat) (gen status detail : Nat) (s : State) : State :=
  answerTo 1 i status detail [gen, if status = 8 then s.bsl.refuse else 0, if status = 8 then s.bsl.refuseOffset else 0] s

/-- Link frames that a payload of `n` bytes takes, at most 4,096 bytes each (R256). -/
def linkFrameCount (n : Nat) : Nat := max 1 ((n + 4095) / 4096)

/-- The lane that the frame numbered `lseq` takes: the lanes that are up are used in turn (R256; log entry 64, DESIGN CHOICE). -/
def spreadLane (lanesUp lseq : Nat) : Nat :=
  let up := (List.range 4).filter lanesUp.testBit
  2 ^ up.getD (lseq % max 1 up.length) 0

/-- The header that a frame on `lanes` takes now (R256): its number, and the sender's epoch, side and role. -/
def State.linkHdr (s : State) (msg lanes n : Nat) : LinkTx :=
  { msg := msg, lanes := lanes, length := n, lseq := s.wvl.lseq, epoch := s.wvl.epoch, side := s.wvl.side, role := s.wvl.role }

/-- The link sequence numbers that a payload of `n` bytes takes are used up (R256). -/
def nextLseq (n : Nat) (s : State) : State := { s with wvl := { s.wvl with lseq := (s.wvl.lseq + linkFrameCount n) % 2 ^ 32 } }

/-- A payload of `n` bytes leaves, spread over the lanes that are up as its frames are numbered (R256). -/
def linkFrames (msg n : Nat) (f : LinkTx → Out) (s : State) : State := emit (f (s.linkHdr msg s.wvl.lanesUp n)) (nextLseq n s)

/-- Sends a frame on the link. The signals of R60 have no frame type in R256; the model gives them 0x61 (commit),
0x62 (store reported) and 0x63 (activation period), its own record of them (log entry 4, DESIGN CHOICE). -/
def linkSend (msg : Nat) (data : List Nat) (s : State) : State :=
  if s.wvl.lanesUp = 0 then s
  else emit (.link (s.linkHdr msg (spreadLane s.wvl.lanesUp s.wvl.lseq) (4 * data.length)) data) (nextLseq (4 * data.length) s)

/-- Sends a frame on every lane that is up (R256, R272). -/
def linkSendAll (msg : Nat) (data : List Nat) (s : State) : State :=
  if s.wvl.lanesUp = 0 then s
  else emit (.link (s.linkHdr msg s.wvl.lanesUp (4 * data.length)) data) (nextLseq (4 * data.length) s)

/-- The previous slot: the one that is not current. -/
def Cartridge.prevSlot (c : Cartridge) : Nat := match c.current with
  | some 0 => 1
  | _ => 0

/-- Empties the previous slot (R60). -/
def emptyPrev (s : State) : State :=
  if s.keeperWritable then
    copyRoles (writeIdentity (modCart (fun c => { c with
      slots := putAt c.slots c.prevSlot none, staged := if c.staged = some c.prevSlot then none else c.staged }) s))
  else s

/-- The pages of a bit-stream store that still wait are withdrawn. -/
def dropStream (s : State) : State :=
  setJobs (s.kpr.jobs.filter fun j => match j.kind with
    | .bitstream _ _ _ => false
    | _ => true) s

/-- A committed stream's store fails here or in the partner: the commit is refused with `KEEPER`, on the primary where
the stream is a delta (R52, R60), and source 158 asserts as `SWAP_PENDING` clears (R63). `told` says that the partner
reported its own failure. -/
def storeFailed (told : Bool) (s : State) : State :=
  if !s.bsl.storing then s
  else
    let who := s.bsl.committer
    let mine := s.bsl.ownDone = some true
    let swapping := s.bsl.swapPending
    let s := if s.bsl.storeDelta && mine then emptyPrev s else s
    let s := when (!s.bsl.storeDelta || s.primary || who.isSome) (noteRefusal 0x17 0 0 0) (dropStream s)
    let s := when (s.bsl.storeDelta && !told) (linkSend 0x62 [0]) s
    let s := { s with
      bsl := { s.bsl with storing := false, storeDelta := false, ownDone := none, partnerDone := none, committer := none, swapPending := false }
      cfg := if s.bsl.storeDelta then { s.cfg with next := none, carried := [], swapped := [], fixedA := false, merged := [] } else s.cfg }
    answerLoad who s.bsl.storeGen 8 0x17 (when swapping (raise .bsl 1) s)

/-- The keeper can be written no more: a store of this module that is not complete fails; one that is complete leaves only the
partner's to wait for (R60). -/
def ownStoreFails (s : State) : State := if s.bsl.ownDone = some true then s else storeFailed false s

/-- The store of a committed delta is over here, with A fixed: the commit is answered (R60). -/
def endStore (s : State) : State :=
  let who := s.bsl.committer
  answerLoad who s.bsl.storeGen 0 0
    { s with bsl := { s.bsl with storing := false, storeDelta := false, ownDone := none, partnerDone := none, committer := none } }

/-- Both stores of a committed delta are complete: the primary fixes A, tells its partner, and answers the commit
(R56, R60, R63). -/
def fixA (s : State) : State :=
  let a := s.pcount + 800
  endStore (linkSend 0x63 (two a) { s with cfg := { s.cfg with fixedA := true }, bsl := { s.bsl with swapA := a } })

/-- The primary fixes A once its own store and, where a partner takes part, the partner's are complete (R60, R61). -/
def maybeFixA (s : State) : State :=
  if s.primary && s.bsl.storing && s.bsl.storeDelta && s.bsl.ownDone == some true && s.bsl.partnerDone != some false then fixA s else s

end Sys2Proof.Machine
end

