-- ==== Sys2Proof/Machine/FcrOps.lean ====
section
/-! DEFINITION. The fault collector's operations that other units share (chapter 15): history records, the restart of a
module that is not primary. -/

namespace Sys2Proof.Machine

open Sys2Proof

/-- A source as held. -/
def State.source (s : State) (i : Nat) : FcrSource := s.fcr.sources.getD i {}

/-- Changes a source. -/
def modSrc (i : Nat) (f : FcrSource → FcrSource) (s : State) : State :=
  { s with fcr := { s.fcr with sources := updAt s.fcr.sources i f } }

/-- Events of a source now within W. -/
def State.inWin (s : State) (i : Nat) : Nat := (inWindow s.aon (s.source i).wms (s.source i).recent).length

/-- A history record (R342): `kind` 1 severe, 2 acknowledged, 3 RELINQUISH sent, 4 hand-over blocked, 5 restart;
overwriting an unread one asserts source 110. -/
def history (src kind byWhom : Nat) (s : State) : State :=
  let h := s.fcr.histSeq + 1
  let i := s.fcr.histSeq % 32
  let unread := decide (s.fcr.histRead < (s.fcr.hist.getD i {}).hseq)
  let x : HistRec := { hseq := h, time := s.islandTime aonIsland, source := src, kind := kind, byWhom := byWhom, inst := (s.source src).inst, count := s.inWin src }
  when unread (raise .fcr 14) { s with fcr := { s.fcr with hist := putAt s.fcr.hist i x, histSeq := h } }

/-- The ledger's `SOURCE` for a fault source: the instance it names, if any. -/
def State.srcInst (s : State) (i : Nat) : Nat := if (s.source i).inst = 0xFF then 0xFFFF else (s.source i).inst

/-- The forcing sources (R338). -/
def forcing : List Nat := [17, 20, 22, 24]

/-- A restart is requested (R396): its kind, entry, and the always-on time it is due at. -/
def requestRestart (cold : Bool) (entry due : Nat) (atH : Bool) (s : State) : State :=
  { s with gen := { s.gen with restart := some { cold := cold, due := due, atH := atH, entry := entry } } }

/-- A forcing source on a module that is not primary (R340): sources 17 and 20 restart it; 22 and 24 are recorded. -/
def offPrimary (i : Nat) (s : State) : State :=
  if i = 17 ∨ i = 20 then
    ledger 0x0D06 (s.srcInst i) [i] (history i 5 0 (requestRestart false 3 s.aon false s))
  else s

/-- A module leaves PRIMARY with the source that forced it still severe (R340). -/
def leftPrimary (s : State) : State :=
  forcing.foldl (fun s i => if (s.source i).severe && (s.source i).forced then offPrimary i s else s) s

end Sys2Proof.Machine
end

