-- ==== Sys2Proof/Machine/FioOps.lean ====
section
/-! DEFINITION. The local field inputs and outputs (chapter 18): what a value applied to an output does, the faults and
the common fault bit, the standby state. -/

namespace Sys2Proof.Machine

open Sys2Proof

/-! ### Configuration (R383) -/

/-- A digital input's type, filter time and wire-break monitoring. -/
def State.diCfg (s : State) (i : Nat) : Nat × Nat × Nat := s.cfg.cur.fieldIo.di.getD i (0, 0, 0)

/-- The size of the group of a digital output; 1 where nothing is configured. -/
def State.doGroup (s : State) (j : Nat) : Nat := max 1 (s.cfg.cur.fieldIo.dout.getD j (1, false)).1

/-- The lowest channel of a digital output's group (R374). -/
def State.doLeader (s : State) (j : Nat) : Nat := j / s.doGroup j * s.doGroup j

/-- The pin is marked `SHARED`. -/
def State.doShared (s : State) (j : Nat) : Bool := (s.cfg.cur.fieldIo.dout.getD j (1, false)).2

/-- The mode of a loop output: 0 unused, 1 source, 2 sink; unused without the AOB (R9). -/
def State.aoMode (s : State) (c : Nat) : Nat := if s.present 2 then s.cfg.cur.fieldIo.ao.getD c 0 else 0

/-- Changes a digital input, a digital output, a loop output. -/
def modDi (i : Nat) (f : DiState → DiState) (s : State) : State := { s with fio := { s.fio with di := updAt s.fio.di i f } }

/-- Changes a digital output. -/
def modDo (j : Nat) (f : DoState → DoState) (s : State) : State := { s with fio := { s.fio with dout := updAt s.fio.dout j f } }

/-- Changes a loop output. -/
def modAo (c : Nat) (f : AoState → AoState) (s : State) : State := { s with fio := { s.fio with ao := updAt s.fio.ao c f } }

/-- A digital output as held. -/
def State.dout (s : State) (j : Nat) : DoState := s.fio.dout.getD j {}

/-- A loop output as held. -/
def State.ao (s : State) (c : Nat) : AoState := s.fio.ao.getD c {}

/-- A loop output is held at high impedance: its terminal voltage is out of range, or its own electronics failed (R379,
R385). -/
def AoState.held (x : AoState) : Bool := x.fault || x.failed

/-! ### The common fault bit (R385) -/

/-- The field supply lies outside 18.0 V to 32.0 V, once measured (R376). -/
def State.supplyBad (s : State) : Bool := s.fio.supplySeen && (decide (s.fio.supplyMv < 18000) || decide (32000 < s.fio.supplyMv))

/-- The live conditions by the bits of `FIO_FAULT_MASK`: DI, DO, AO, supply. -/
def State.fioConds (s : State) : Nat :=
  ((List.range 16).map fun i => bitAt ((s.fio.di.getD i {}).broken && decide ((s.diCfg i).1 ≠ 0)) i).sum
    + ((List.range 8).map fun j => bitAt ((s.dout j).shutdown || (s.dout j).mismatch || (s.dout j).failed) (16 + j)).sum
    + ((List.range 4).map fun c => bitAt ((s.ao c).held && decide (s.aoMode c ≠ 0)) (24 + c)).sum
    + bitAt s.supplyBad 28

/-- `FIO_STAT.FAULT` under a mask. -/
def State.fioFault (s : State) (mask : Nat) : Bool :=
  (List.range 29).any fun i => s.fioConds.testBit i && !mask.testBit i

/-- After any change: `FAULT_SEEN` of both readers, and record 0x1201 where `FAULT` rises under the firmware's mask. -/
def fioRefresh (s : State) : State :=
  let f := s.fioFault s.fio.maskFw
  let rose := f && !s.fio.faultFw
  let s := { s with fio := { s.fio with
    faultFw := f, seenFw := s.fio.seenFw || f, seenHost := s.fio.seenHost || s.fioFault s.fio.maskHost } }
  when rose (ledger 0x1201 0xFFFF [s.fio.maskFw]) (when (s.fioFault s.fio.maskHost) (hwSet 0x120000 1 (some true)) (when f (hwSet 0x120000 1 (some false)) s))

/-! ### Digital outputs (R375) -/

/-- The least distance of two changes of a channel: 10 ms. -/
def toggleTicks : Nat := msTicks 10

/-- The state of a channel's pins leaves the block: on where it is driven, unless it is shut down or failed, or the terminal
block is out (R376, R385, R416). -/
def showDo (j : Nat) (s : State) : State :=
  let x := s.dout j
  emit (.dout j (x.driven && !x.shutdown && !x.failed && !s.fio.unplugged)) s

/-- A channel takes a state, which its pins follow. A mismatch is one of a channel that is off (R376). -/
def driveDo (j : Nat) (v : Bool) (s : State) : State :=
  let x := s.dout j
  let s := modDo j (fun x => { x with driven := v, want := v, lastChange := some s.now, waiting := false, mismatch := x.mismatch && !v }) s
  when (x.mismatch && v) fioRefresh (showDo j s)

/-- A pulse generator owns the channel (R91). -/
def State.doOwned (s : State) (j : Nat) : Bool := (s.tmb.gens.getD (4 + j) {}).armed

/-- A dispatched value reaches a channel at its apply time (R375, R91, R384). -/
def applyDo (ch : Nat) (v : Bool) (s : State) : State :=
  let j := s.doLeader ch
  if s.fio.standby || s.doOwned j then s
  else
    let x := s.dout j
    let soon := match x.lastChange with
      | some t => decide (s.now < t + toggleTicks)
      | none => false
    if soon then
      if x.waiting then modDo j (fun y => { y with want := v }) s
      else if v = x.driven then modDo j (fun y => { y with want := v }) s
      else
        modDo j (fun y => { y with want := v, waiting := true })
          { s with fio := { s.fio with doDefer := tallyInc s.fio.doDefer } }
    else if v = x.driven then modDo j (fun y => { y with want := v, waiting := false }) s
    else driveDo j v s

/-! ### Loop outputs (R377 to R382). Currents are in units of 10⁻⁷ µA, so that trims stay exact. -/

/-- A trimmed current in units of 10⁻⁷ µA, limited to 0 to 24,000 µA (R377, R380). -/
def aoTarget (x : AoState) : Int :=
  let cmd : Int := clampInt 3500 22000 x.cmd
  clampInt 0 240000000000 (cmd * 10 * (1000000 + x.span) + x.zero * 1000000)

/-- The slew limit of R36 over a stretch of module time: 1.6 mA per ms. -/
def aoSlew (dt : Nat) : Int := (dt * 16000 * 1000000 / 65536000000 : Nat)

/-- The current that a loop output carries now, in units of 10⁻⁷ µA. -/
def aoCurrent (x : AoState) (now : Nat) : Int :=
  let t := aoTarget x
  let d := aoSlew (now - x.fromAt)
  if !x.driving || x.held then 0
  else if x.from10 ≤ t then min t (x.from10 + d) else max t (x.from10 - d)

/-- A change of command or trim redirects the ramp from the present current (R377). -/
def aoRedirect (c : Nat) (f : AoState → AoState) (s : State) : State :=
  modAo c (fun x => { f x with from10 := aoCurrent x s.now, fromAt := s.now }) s

/-- The current that a loop output drives towards leaves the block, in 0.1 µA: 0 at high impedance, or while the terminal block is
out (R416). -/
def showAo (c : Nat) (s : State) : State :=
  let x := s.ao c
  emit (.ao c (if x.driving && !x.held && !s.fio.unplugged then aoTarget x / 1000000 else 0)) s

/-- A commanded current: a channel that was high-impedance starts at its target at once (R382). -/
def applyAo (c cmd : Nat) (s : State) : State :=
  if s.fio.standby || s.aoMode c == 0 then s
  else
    let x := s.ao c
    let s := if x.driving then aoRedirect c (fun y => { y with cmd := cmd }) s
      else modAo c (fun y => { y with cmd := cmd, driving := true, from10 := aoTarget { y with cmd := cmd }, fromAt := s.now }) s
    showAo c s

/-- `FIO_AO_TARGET_c`: the trimmed target in µA, 0 while high-impedance. -/
def State.aoTargetUa (s : State) (c : Nat) : Nat :=
  let x := s.ao c
  if x.driving && !x.held then (divRound (aoTarget x) 10000000).toNat else 0

/-- The channel goes to high impedance. -/
def aoHighZ (c : Nat) (s : State) : State := emit (.ao c 0) (modAo c (fun x => { x with driving := false }) s)

/-- Electronics of the field I/O that fail (R385): bit j of the mask is DO j, bit 8 + c is AO c. A digital output, with its
group, is off, a loop output at high impedance, and both contribute to `FAULT`. -/
def failOutputs (m : Nat) (s : State) : State :=
  let s := (List.range 8).foldl (fun s j =>
    if m.testBit j then emit (.dout (s.doLeader j) false) (modDo (s.doLeader j) (fun x => { x with failed := true }) s) else s) s
  let s := (List.range 4).foldl (fun s c =>
    if m.testBit (8 + c) then emit (.ao c 0) (modAo c (fun x => { x with failed := true }) s) else s) s
  fioRefresh s

/-- A pulse is in progress on the channel (R91). -/
def State.doPulse (s : State) (j : Nat) : Bool := s.doOwned j && (s.tmb.gens.getD (4 + j) {}).running

/-- A channel as it goes into the standby state. -/
def DoState.standby (x : DoState) (pulse : Bool) (now : Nat) : DoState :=
  if pulse then { x with waiting := false }
  else { x with driven := false, want := false, waiting := false, lastChange := if x.driven then some now else x.lastChange }

/-- Every digital output but those that `keep` names goes off, every loop output to high impedance. -/
def outputsOpen (keep : Nat → Bool) (s : State) : State :=
  let offDo := (List.range 8).filter fun j => (s.dout j).driven && !keep j
  let offAo := (List.range 4).filter fun c => (s.ao c).driving
  let s := { s with fio := { s.fio with
    dout := s.fio.dout.mapIdx (fun j (x : DoState) => x.standby (keep j) s.now)
    ao := s.fio.ao.map (fun (x : AoState) => { x with driving := false }) } }
  { s with out := (offAo.map fun c => Out.ao c 0) ++ (offDo.map fun j => Out.dout j false) ++ s.out }

/-- The standby state (R384): every DO off but one that a pulse in progress still drives (R91), every AO high-impedance. -/
def fioStandby (s : State) : State :=
  let t := outputsOpen s.doPulse s
  fioRefresh { t with fio := { t.fio with standby := true } }

/-- A TPO pin takes a level. -/
def setTpo (g : Nat) (level : Bool) (s : State) : State :=
  if s.tmb.tpo.getD g false = level then s else emit (.tpo g level) { s with tmb := { s.tmb with tpo := putAt s.tmb.tpo g level } }

/-- The TPO pin of a generator: the pulse level while a pulse runs, else the level opposite it (R90, R414). -/
def showTpo (g : Nat) (s : State) : State :=
  let x := s.tmb.gens.getD g {}
  if g < 4 then setTpo g (x.running != x.polarity) s else s

/-- Without power, and at every start, the outputs open (R382) and the TPO pins rest low. -/
def pinsRest (s : State) : State := (List.range 4).foldl (fun s g => setTpo g false s) (outputsOpen (fun _ => false) s)

/-- The module has stopped without power (R250). -/
def State.stopped (s : State) : Bool := s.ptm.powerFail && !s.gen.powerGood

/-- Commissioning mode ends with a cause: 0 `END`, 1 timeout, 2 became PRIMARY (R381, R387). -/
def endCommissioning (cause : Nat) (s : State) : State :=
  match s.fio.comm with
  | some c => ledger 0x1203 0xFFFF [c.ch, 0, cause] (aoHighZ c.ch { s with fio := { s.fio with comm := none } })
  | none => s

/-- The module becomes PRIMARY: the FIO leaves the standby state (R384, R381). -/
def fioPrimary (s : State) : State :=
  let s := endCommissioning 2 s
  { s with fio := { s.fio with standby := false } }

end Sys2Proof.Machine
end

