-- ==== Sys2Proof/Machine/Digest.lean ====
section
/-! DEFINITION. Digests and check sums the spec names: SHA-384 (FIPS 180-4), CRC-CCITT, CRC-64, and the ECDSA P-384
verification of FIPS 186-5, over lists of bytes. -/

namespace Sys2Proof.Machine

open Sys2Proof

/-! ### SHA-384 (FIPS 180-4) -/

/-- The round constants of SHA-384. -/
def shaK : List (BitVec 64) :=
  [0x428a2f98d728ae22, 0x7137449123ef65cd, 0xb5c0fbcfec4d3b2f, 0xe9b5dba58189dbbc, 0x3956c25bf348b538, 0x59f111f1b605d019, 0x923f82a4af194f9b, 0xab1c5ed5da6d8118]
    ++ [0xd807aa98a3030242, 0x12835b0145706fbe, 0x243185be4ee4b28c, 0x550c7dc3d5ffb4e2, 0x72be5d74f27b896f, 0x80deb1fe3b1696b1, 0x9bdc06a725c71235, 0xc19bf174cf692694]
    ++ [0xe49b69c19ef14ad2, 0xefbe4786384f25e3, 0x0fc19dc68b8cd5b5, 0x240ca1cc77ac9c65, 0x2de92c6f592b0275, 0x4a7484aa6ea6e483, 0x5cb0a9dcbd41fbd4, 0x76f988da831153b5]
    ++ [0x983e5152ee66dfab, 0xa831c66d2db43210, 0xb00327c898fb213f, 0xbf597fc7beef0ee4, 0xc6e00bf33da88fc2, 0xd5a79147930aa725, 0x06ca6351e003826f, 0x142929670a0e6e70]
    ++ [0x27b70a8546d22ffc, 0x2e1b21385c26c926, 0x4d2c6dfc5ac42aed, 0x53380d139d95b3df, 0x650a73548baf63de, 0x766a0abb3c77b2a8, 0x81c2c92e47edaee6, 0x92722c851482353b]
    ++ [0xa2bfe8a14cf10364, 0xa81a664bbc423001, 0xc24b8b70d0f89791, 0xc76c51a30654be30, 0xd192e819d6ef5218, 0xd69906245565a910, 0xf40e35855771202a, 0x106aa07032bbd1b8]
    ++ [0x19a4c116b8d2d0c8, 0x1e376c085141ab53, 0x2748774cdf8eeb99, 0x34b0bcb5e19b48a8, 0x391c0cb3c5c95a63, 0x4ed8aa4ae3418acb, 0x5b9cca4f7763e373, 0x682e6ff3d6b2b8a3]
    ++ [0x748f82ee5defb2fc, 0x78a5636f43172f60, 0x84c87814a1f0ab72, 0x8cc702081a6439ec, 0x90befffa23631e28, 0xa4506cebde82bde9, 0xbef9a3f7b2c67915, 0xc67178f2e372532b]
    ++ [0xca273eceea26619c, 0xd186b8c721c0c207, 0xeada7dd6cde0eb1e, 0xf57d4f7fee6ed178, 0x06f067aa72176fba, 0x0a637dc5a2c898a6, 0x113f9804bef90dae, 0x1b710b35131c471b]
    ++ [0x28db77f523047d84, 0x32caab7b40c72493, 0x3c9ebe0a15c9bebc, 0x431d67c49c100d4c, 0x4cc5d4becb3e42b6, 0x597f299cfc657e2a, 0x5fcb6fab3ad6faec, 0x6c44198c4a475817]

/-- The initial hash value of SHA-384. -/
def shaH0 : List (BitVec 64) :=
  [0xcbbb9d5dc1059ed8, 0x629a292a367cd507, 0x9159015a3070dd17, 0x152fecd8f70e5939, 0x67332667ffc00b31, 0x8eb44a8768581511, 0xdb0c2e0d64f98fa7, 0x47b5481dbefa4fa4]

/-- The eight working words. -/
structure ShaRegs where
  a : BitVec 64
  b : BitVec 64
  c : BitVec 64
  d : BitVec 64
  e : BitVec 64
  f : BitVec 64
  g : BitVec 64
  h : BitVec 64

/-- Rotation to the right. -/
def rotr (x : BitVec 64) (n : Nat) : BitVec 64 := x.rotateRight n

/-- One round of the compression. -/
def shaRound (r : ShaRegs) (kw : BitVec 64 × BitVec 64) : ShaRegs :=
  let s1 := rotr r.e 14 ^^^ rotr r.e 18 ^^^ rotr r.e 41
  let ch := (r.e &&& r.f) ^^^ (~~~r.e &&& r.g)
  let t1 := r.h + s1 + ch + kw.1 + kw.2
  let s0 := rotr r.a 28 ^^^ rotr r.a 34 ^^^ rotr r.a 39
  let maj := (r.a &&& r.b) ^^^ (r.a &&& r.c) ^^^ (r.b &&& r.c)
  { a := t1 + s0 + maj, b := r.a, c := r.b, d := r.c, e := r.d + t1, f := r.e, g := r.f, h := r.g }

/-- The message schedule, newest word first. -/
def shaSchedule : Nat → List (BitVec 64) → List (BitVec 64)
  | 0, w => w
  | n + 1, w =>
    let x := w.getD 1 0
    let y := w.getD 14 0
    let s1 := rotr x 19 ^^^ rotr x 61 ^^^ (x >>> 6)
    let s0 := rotr y 1 ^^^ rotr y 8 ^^^ (y >>> 7)
    shaSchedule n ((s1 + w.getD 6 0 + s0 + w.getD 15 0) :: w)

/-- The sixteen words of a block, newest first. -/
def shaWords (block : List Byte) : List (BitVec 64) :=
  ((List.range 16).map fun i => BitVec.ofNat 64 (beNat (slice block (8 * i) 8))).reverse

/-- The registers that hold a hash value. -/
def shaRegs (h : List (BitVec 64)) : ShaRegs :=
  { a := h.getD 0 0, b := h.getD 1 0, c := h.getD 2 0, d := h.getD 3 0
    e := h.getD 4 0, f := h.getD 5 0, g := h.getD 6 0, h := h.getD 7 0 }

/-- One block into the hash value. -/
def shaBlock (h : List (BitVec 64)) (block : List Byte) : List (BitVec 64) :=
  let w := (shaSchedule 64 (shaWords block)).reverse
  let r := (shaK.zip w).foldl shaRound (shaRegs h)
  List.zipWith (· + ·) h [r.a, r.b, r.c, r.d, r.e, r.f, r.g, r.h]

/-- `n` blocks of 128 bytes into the hash value. -/
def shaBlocks : Nat → List Byte → List (BitVec 64) → List (BitVec 64)
  | 0, _, h => h
  | n + 1, bs, h => shaBlocks n (bs.drop 128) (shaBlock h (bs.take 128))

/-- The padded message. -/
def shaPad (bs : List Byte) : List Byte :=
  bs ++ [0x80#8] ++ List.replicate ((239 - bs.length % 128) % 128) 0#8 ++ natBe (8 * bs.length) 16

/-- SHA-384 of a message, 48 bytes. -/
def sha384 (bs : List Byte) : List Byte :=
  let m := shaPad bs
  ((shaBlocks (m.length / 128) m shaH0).take 6).flatMap fun x => natBe x.toNat 8

/-! ### Cyclic redundancy checks -/

/-- One byte into a `w`-bit CRC, most significant bit first. -/
def crcByte (w poly : Nat) (c : Nat) (b : Byte) : Nat :=
  (List.range 8).foldl (fun x _ => if x.testBit (w - 1) then ((x <<< 1) % 2 ^ w) ^^^ poly else (x <<< 1) % 2 ^ w)
    (c ^^^ (b.toNat <<< (w - 8)))

/-- CRC-CCITT, polynomial 0x1021, initial value 0xFFFF (R160). -/
def crcCcitt (bs : List Byte) : Nat := bs.foldl (crcByte 16 0x1021) 0xFFFF

/-- CRC-64 with polynomial 0x42F0_E1EB_A9EA_3693 (R269), initial value 0, most significant bit first: the spec gives
the polynomial alone (log entry 15, PRESUMED). -/
def crc64 (bs : List Byte) : Nat := bs.foldl (crcByte 64 0x42F0E1EBA9EA3693) 0

/-! ### ECDSA P-384 (FIPS 186-5, R361) -/

/-- The field prime of P-384. -/
def p384p : Nat := 2 ^ 384 - 2 ^ 128 - 2 ^ 96 + 2 ^ 32 - 1

/-- The order of the base point. -/
def p384n : Nat :=
  0xffffffffffffffffffffffffffffffffffffffffffffffffc7634d81f4372ddf581a0db248b0a77aecec196accc52973

/-- The coefficient b of the curve. -/
def p384b : Nat :=
  0xb3312fa7e23ee7e4988e056be3f82d19181d9c6efe8141120314088f5013875ac656398d8a2ed19d2a85c8edd3ec2aef

/-- The base point. -/
def p384g : Nat × Nat :=
  (0xaa87ca22be8b05378eb1c71ef320ad746e1d3b628ba79b9859f741e082542a385502f25dbf55296c3a545e3872760ab7,
   0x3617de4a96262c6f5d9e98bf9292dc29f8f41dbd289a147ce9da3113b5f0b8c00a60b1ce1d7e819d7a431d7c90ea0e5f)

/-- Power modulo `m`, over the `n` low bits of the exponent. -/
def powMod (m : Nat) : Nat → Nat → Nat → Nat
  | 0, _, _ => 1 % m
  | n + 1, b, e =>
    let t := powMod m n (b * b % m) (e / 2)
    if e % 2 = 1 then t * b % m else t

/-- The inverse modulo a prime of 384 bits. -/
def invMod (m a : Nat) : Nat := powMod m 384 a (m - 2)

/-- A point of the curve; none is the point at infinity. -/
abbrev EcPoint := Option (Nat × Nat)

/-- The sum of two points. -/
def ecAdd (p q : EcPoint) : EcPoint :=
  match p, q with
  | none, q => q
  | p, none => p
  | some (x1, y1), some (x2, y2) =>
    if x1 = x2 ∧ (y1 + y2) % p384p = 0 then none
    else
      let l :=
        if x1 = x2 then (3 * x1 * x1 + (p384p - 3)) * invMod p384p (2 * y1) % p384p
        else (y2 + p384p - y1) * invMod p384p (x2 + p384p - x1) % p384p
      let x3 := (l * l + 2 * p384p - x1 - x2) % p384p
      some (x3, (l * (x1 + p384p - x3) + p384p - y1) % p384p)

/-- A multiple of a point, over the `n` low bits of the factor. -/
def ecMul : Nat → Nat → EcPoint → EcPoint
  | 0, _, _ => none
  | n + 1, k, p =>
    let t := ecMul n (k / 2) (ecAdd p p)
    if k % 2 = 1 then ecAdd t p else t

/-- The point lies on the curve, its coordinates in range. -/
def onCurve (x y : Nat) : Bool :=
  decide (x < p384p ∧ y < p384p ∧ y * y % p384p = (x * x * x + (p384p - 3) * x + p384b) % p384p)

/-- The signature (r then s) over a 48-byte digest verifies under the public key (x then y), all big-endian. -/
def ecdsaVerify (key digest sig : List Byte) : Bool :=
  let x := beNat (slice key 0 48)
  let y := beNat (slice key 48 48)
  let r := beNat (slice sig 0 48)
  let t := beNat (slice sig 48 48)
  if onCurve x y && decide (0 < r ∧ r < p384n ∧ 0 < t ∧ t < p384n) then
    let w := invMod p384n t
    match ecAdd (ecMul 384 (beNat digest * w % p384n) (some p384g)) (ecMul 384 (r * w % p384n) (some (x, y))) with
    | some (px, _) => px % p384n == r
    | none => false
  else false

end Sys2Proof.Machine
end

