-- ==== Sys2Proof/Machine/Gates.lean ====
section
/-! DEFINITION. The gates of chapter 13: sealed regions, wards and the central rule table, their verdicts and what a refusal
leaves. -/

namespace Sys2Proof.Machine

open Sys2Proof

/-- Changes the wards and the central rule table. -/
def modWrd (f : WrdState → WrdState) (s : State) : State := { s with wrd := f s.wrd }

/-- Bytes of the register space that the network decodes (R400). -/
def regSize : Nat := 0x150000

/-- Bytes of a space: memory 0, register network 1. -/
def spaceSize (space : Nat) : Nat := if space = 1 then regSize else memSize

/-! ### Regions and rules (R296, R297, R300 to R304) -/

/-- A span touches a range. -/
def touches (a n lo hi : Nat) : Bool := decide (a ≤ hi ∧ lo < a + n)

/-- The sealed regions (R304). -/
def sealedRanges : List (Nat × Nat) := [(0x8000, 0x8FFF), (0x10030, 0x10037), (0xC8000, 0xCFFFF), (0xF8000, 0xFFFFF)]

/-- An access to the register network meets a sealed region. -/
def isSealed (a n : Nat) : Bool := sealedRanges.any fun r => touches a n r.1 r.2

/-- A region covers a byte. -/
def Region.covers (r : Region) (a : Nat) : Bool := decide (r.len64 ≠ 0 ∧ 64 * r.base64 ≤ a ∧ a < 64 * r.base64 + 64 * r.len64)

/-- The number of the region that decides a byte: the highest-numbered enabled one (R297). -/
def decidingRegion (rs : List Region) (a : Nat) : Option Nat :=
  ((List.range rs.length).filter fun i => (rs.getD i {}).covers a).getLast?

/-- What a gate says: `none` admits; otherwise the cause of the capture, 0 no grant, 1 boundary. -/
abbrev Verdict := Option Nat

/-- A ward's verdict (R296, R297). -/
def wardVerdict (rs : List Region) (ident a n : Nat) (write : Bool) : Verdict :=
  match decidingRegion rs a with
  | none => some 0
  | some i =>
    if decidingRegion rs (a + n - 1) ≠ some i then some 1
    else if (if write then (rs.getD i {}).write else (rs.getD i {}).read).testBit ident then none
    else some 0

/-- The ward of an address (R297). -/
def wardOf (space a : Nat) : Nat := if space = 1 then 8 else a / 0x80000000

/-- The fixed boot rule of every ward, one rule over the whole of it (R296, R299). -/
def bootWard (ident space a n : Nat) : Verdict :=
  if wardOf space (a + n - 1) ≠ wardOf space a then some 1 else if ident = 0 ∨ ident = 16 then none else some 0

/-- A rule covers a byte of its space. -/
def Rule.covers (r : Rule) (space a : Nat) : Bool := decide (r.space = space ∧ r.base ≤ a ∧ a < r.base + 64 * r.len64)

/-- The rule names an identity. -/
def Rule.names (r : Rule) (ident : Nat) : Bool := r.read.testBit ident || r.write.testBit ident

/-- The boot rule set (R301). -/
def bootRules : List Rule :=
  [{ base := 0, len64 := 0x5400, space := 1, read := 2 ^ 9, write := 2 ^ 9 },
   { base := 0x110000, len64 := 0x400, space := 1, read := 2 ^ 12, write := 2 ^ 12 },
   { base := 0x100000, len64 := 0x400, space := 1, read := 2 ^ 13, write := 2 ^ 13 },
   { base := 0x3C0000000, len64 := 0x1000000, space := 0, read := 2 ^ 13, write := 2 ^ 13 }]

/-- The rules in force. -/
def WrdState.rules (w : WrdState) : List Rule := if w.loaded then w.fixed ++ w.runtime.map (·.2) else bootRules

/-- The central table's verdict (R296, R300, R302). -/
def centralVerdict (rs : List Rule) (space ident a n : Nat) (write : Bool) : Verdict :=
  match rs.find? fun r => r.names ident && r.covers space a with
  | none => some 0
  | some r =>
    if !r.covers space (a + n - 1) then some 1
    else if (if write then r.write else r.read).testBit ident then none
    else some 0

/-- The capture of a first refusal (R307). -/
def Capture.take (c : Capture) (space cause ident a : Nat) (write : Bool) : Capture :=
  if c.valid then c else { valid := true, space := space, cause := cause, write := write, ident := ident, addr := a }

/-- A refusal's words in the ledger: identity, address, space, direction. -/
def refusalData (ident a space : Nat) (write : Bool) : List Nat := ident :: two a ++ [space, bit1 write]

/-- A refusal by a ward (R307). -/
def wardRefuse (i space cause ident a : Nat) (write : Bool) (s : State) : State :=
  let s := modWrd (fun w => { w with wards := updAt w.wards i fun x =>
    { x with refused := tallyInc x.refused, first := x.first.take space cause ident a write } }) s
  reportBy i 29 0xFF (ledger 0x0C01 i (refusalData ident a space write) (hwSet (0xC000C + 0x100 * i) 31 none s))

/-- A refusal by the central rule table (R307). -/
def centralRefuse (space cause ident a : Nat) (write : Bool) (s : State) : State :=
  let s := modWrd (fun w => { w with refused := tallyInc w.refused, first := w.first.take space cause ident a write }) s
  reportBy 9 29 0xFF (ledger 0x0C02 0xFFFF (refusalData ident a space write) (hwSet 0xC8010 31 none s))

/-- The privileged identities. -/
def privileged (ident : Nat) : Bool := decide (9 ≤ ident ∧ ident ≤ 13)

/-- What the ward of an address says of an access: its regions, or before a generation is loaded the boot rule (R299). -/
def gateVerdict (ident space a n : Nat) (write : Bool) (s : State) : Verdict :=
  if s.wrd.loaded then wardVerdict (s.wrd.wards.getD (wardOf space a) {}).regions ident a n write else bootWard ident space a n

/-- The gate of an identity: the central table or the ward of the first byte. -/
def gateCheck (ident space a n : Nat) (write : Bool) (s : State) : Bool × State :=
  if privileged ident then
    match centralVerdict s.wrd.rules space ident a n write with
    | none => (true, s)
    | some c => (false, centralRefuse space c ident a write s)
  else
    match gateVerdict ident space a n write s with
    | none => (true, s)
    | some c => (false, wardRefuse (wardOf space a) space c ident a write s)

/-- The unit that holds spare pages. -/
def State.spareUnit (s : State) : Nat := s.cfg.cur.memmap.spareUnit

/-- The access touches `SPARE_UNIT` (R292). -/
def State.inSpare (s : State) (a n : Nat) : Bool := s.mem.mapApplied && touches a n (s.spareUnit * 0x4000000) (s.spareUnit * 0x4000000 + 0x3FFFFFF)

/-- A unit's own access to main memory as identity `ident`: judged by its gate, and kept out of `SPARE_UNIT` (R292, R295). -/
def unitMay (ident a n : Nat) (write : Bool) (s : State) : Bool × State :=
  let r := gateCheck ident 0 a n write s
  (r.1 && !r.2.inSpare a n, r.2)

end Sys2Proof.Machine
end

