-- ==== Sys2Proof/Machine/MemOps.lean ====
section
/-! DEFINITION. What the memory controller does (chapter 12): errors and their log, reads by the units, scrubbing,
page retirement. -/

namespace Sys2Proof.Machine

open Sys2Proof

/-! ### Errors (R287, R288) -/

/-- Lines in one 64 MiB unit. -/
def unitLines : Nat := 1048576

/-- A line's unit is under LIGHT. -/
def State.lineLight (s : State) (line : Nat) : Bool := s.mem.mem.isLight (64 * line)

/-- Changes the memory controller's registers. -/
def modMem (f : MemState → MemState) (s : State) : State := { s with mem := f s.mem }

/-- The log table takes a correction: the line's own entry, or the lowest free one; none is counted as lost (R287). -/
def logCorrection (line : Nat) (light : Bool) (dev bits finder : Nat) (s : State) : State :=
  let code := bit1 light
  let fresh : CeEntry :=
    { line := line, code := code, device := dev, bits := min bits 255, finder := finder, count := 1, first := s.islandTime memIsland, last := s.islandTime memIsland }
  let l := s.mem.ceLog
  match l.findIdx? (fun e => e.count != 0 && e.line == line) with
  | some i => modMem (fun m => { m with ceLog := updAt l i fun e =>
      { e with code := code, device := dev, bits := min bits 255, finder := finder, count := tallyInc e.count, last := s.islandTime memIsland } }) s
  | none => match l.findIdx? (fun e => e.count == 0) with
    | some i => modMem (fun m => { m with ceLog := putAt l i fresh }) s
    | none => modMem (fun m => { m with ceLogLost := tallyInc m.ceLogLost }) s

/-- The device of a correction: one of the ten of the line's sub-channel, which even and odd lines take in turn (chapter
12, R281). -/
def lineDevice (line : Nat) (dev : Fin 10) : Nat := 10 * (line % 2) + dev.val

/-- One correctable error of a line, found by a demand read (0), a scrub (1) or a retirement copy (2) (R287). -/
def correctable (line : Nat) (dev : Fin 10) (bits finder : Nat) (s : State) : State :=
  let light := s.lineLight line
  let d := lineDevice line dev
  let s := modMem (fun m =>
    if light then { m with ceLight := tallyInc m.ceLight }
    else { m with ceStrong := tallyInc m.ceStrong, devCe := updAt m.devCe d tallyInc }) s
  logCorrection line light (if light then 0xFF else d) bits finder (report 19 0xFF s)

/-- One uncorrectable read of a line (R288). -/
def uncorrectable (line : Nat) (s : State) : State :=
  if s.lineLight line then
    report 21 0xFF (modMem (fun m => { m with ueLight := tallyInc m.ueLight }) s)
  else
    report 20 0xFF (hwSet 0xB0000 6 none (modMem (fun m => { m with
      ueStrong := tallyInc m.ueStrong, ueStrongFlag := true, ueAny := true, ueFirst := if m.ueAny then m.ueFirst else line }) s))

/-! ### Reads -/

/-- The part of each 64-byte line that `n` bytes at `a` cover: address and length. -/
def linePieces (a n : Nat) : List (Nat × Nat) :=
  (List.range ((a % 64 + n + 63) / 64)).map fun k =>
    let lo := max a (64 * (a / 64 + k))
    (lo, min (a + n) (64 * (a / 64 + k) + 64) - lo)

/-- What the code check finds in line `k` of a span. -/
def faultAt (faults : List (Nat × MemFault)) (k : Nat) : MemFault := ((faults.find? (·.1 == k)).map (·.2)).getD .none

/-- A read of `n` bytes at `a` within one line by the reader `finder` (0 demand, 1 scrub, 2 retirement copy), where the code
checks find `f`: whether it passes; every correction that it meets is counted, and a failed one (R287, R288). -/
def readLine (a n : Nat) (f : MemFault) (finder : Nat) (s : State) : Bool × State :=
  let m := s.mem.mem
  let s := (m.fixes f a n).foldl (fun s c => correctable (a / 64) c.1 c.2 finder s) s
  if m.fails f a n then (false, uncorrectable (a / 64) s) else (true, s)

/-- A demand read of `n` bytes at `a` within one line: whether it passes its check; `f` is what the command says that the code
checks find (R287, R288). -/
def readPiece (a n : Nat) (f : MemFault) (s : State) : Bool × State := readLine a n (s.mem.mem.finding f (a / 64)) 0 s

/-- The first and the last granule of a write, each read for its merge where the write covers it in part (R284). -/
def Memory.mergeReads (m : Memory) (a n : Nat) : List (Nat × Nat) :=
  let g0 := m.granule a
  let g1 := m.granule (a + n - 1)
  let b0 := a / g0 * g0
  let b1 := (a + n - 1) / g1 * g1
  if n = 0 then []
  else if b0 = b1 then (if n < g0 then [(b0, g0)] else [])
  else (if a = b0 then [] else [(b0, g0)]) ++ (if a + n = b1 + g1 then [] else [(b1, g1)])

/-- The reads for the merge of a partial write, up to one that cannot be read (R284, R287, R288). -/
def mergeRead (a : Nat) (faults : List (Nat × MemFault)) : List (Nat × Nat) → State → Bool × State
  | [], s => (true, s)
  | p :: t, s => match readPiece p.1 p.2 (faultAt faults (p.1 / 64 - a / 64)) s with
    | (true, s) => mergeRead a faults t s
    | (false, s) => (false, s)

/-- What a demand read of `n` bytes at `a` answers: the bytes, or none where a line of it fails its check; `faults` says
by line of the span what the code check finds in the DRAM. -/
def demandRead (a n : Nat) (faults : List (Nat × MemFault)) (s : State) : Option (List Byte) × State :=
  let r := (linePieces a n).foldl (fun (acc : Bool × State) p =>
    let r := readPiece p.1 p.2 (faultAt faults (p.1 / 64 - a / 64)) acc.2
    (acc.1 && r.1, r.2)) (true, s)
  (if r.1 then r.2.mem.mem.readBytes a n else none, r.2)

/-- A unit's own read of `n` bytes at `a`, a read of each line: none where its gate refuses one or one fails its check
(R288, R295, R307). -/
def unitRead (ident a n : Nat) (s : State) : Option (List Byte) × State :=
  let r := (linePieces a n).foldl (fun (acc : Bool × State) p =>
    let g := unitMay ident p.1 p.2 false acc.2
    if g.1 then
      let r := readPiece p.1 p.2 .none g.2
      (acc.1 && r.1, r.2)
    else (false, g.2)) (true, s)
  (if r.1 then r.2.mem.mem.readBytes a n else none, r.2)

/-- A word that the SEQ reads for itself; where the read fails or is refused it takes a free value, since the spec states
none (log entry 18, DESIGN CHOICE). -/
def unitWord (a : Nat) (s : State) : Nat × State :=
  match unitRead 4 a 4 s with
  | (some bs, s) => (leNat bs, s)
  | (none, s) => let (i, s) := draw s; ((Config.unreadable i).toNat, s)

/-! ### Instance lines and their digests (R207, R269) -/

/-- The byte address of an offset in the instance region. -/
def Generation.instAddr (g : Generation) (off : Nat) : Nat := g.insts.baseUnit * 0x4000000 + off

/-- The instances of a task. -/
def Generation.taskInsts (g : Generation) (t : Nat) : List InstCfg := g.insts.insts.filter (·.task == t)

/-- The instance line of a byte address, with its task, in the tables each task runs on. -/
def State.lineOwner (s : State) (a : Nat) : Option Nat :=
  (List.range 16).find? fun t => ((s.taskGen t).taskInsts t).any fun i =>
    let b := (s.taskGen t).instAddr (256 * i.addr)
    decide (b ≤ a ∧ a < b + roundUp i.size 256)

/-- The CRC-64 of an instance line: its 8-byte address, then its content (R269). -/
def Memory.lineCrc (m : Memory) (a : Nat) : Nat := crc64 (natLe a 8 ++ (m.readBytes a 256).getD [])

/-- The CRC of an instance line as the module reads it from its own memory: none where a read of it fails (R269, R288, R292). -/
def readCrc (a : Nat) (s : State) : Option Nat × State :=
  if s.inSpare a 256 then (none, s)
  else
    let r := (linePieces a 256).foldl (fun (acc : Bool × State) p =>
      let r := readPiece p.1 p.2 .none acc.2
      (acc.1 && r.1, r.2)) (true, s)
    (if r.1 then some (r.2.mem.mem.lineCrc a) else none, r.2)

/-- A task's digest after `f`, or where a line of it could not be read a free value, since the spec states none (log entry 18,
DESIGN CHOICE). -/
def newDigest (t : Nat) (v : Option Nat) (s : State) : State :=
  match v with
  | some d => modTask t (fun x => { x with digest := d }) s
  | none =>
    let (i, s) := draw s
    modTask t (fun x => { x with digest := (Config.openDigest i).toNat }) s

/-- `n` bytes at `a` are written: each instance line touched gives its old CRC, as read, up for its new one (R269). -/
def State.storeMem (s : State) (a n : Nat) (m : Memory) : State :=
  ((List.range ((a % 256 + n + 255) / 256)).foldl (fun s k =>
    let l := a / 256 * 256 + 256 * k
    match s.lineOwner l with
    | some t =>
      let r := readCrc l s
      newDigest t (r.1.map fun c => (s.task t).digest ^^^ c ^^^ m.lineCrc l) r.2
    | none => s) s).setMem m

/-! ### Writes -/

/-- A unit's own write within one line: where its gate refuses it nothing is written, and a merge into a line that cannot
be read is refused (R284, R295, R307). -/
def writePiece (ident a : Nat) (bs : List Byte) (s : State) : State :=
  match unitMay ident a bs.length true s with
  | (false, s) => s
  | (true, s) => match mergeRead a [] (s.mem.mem.mergeReads a bs.length) s with
    | (false, s) => s
    | (true, s) => match s.mem.mem.write a bs with
      | .ok m => s.storeMem a bs.length m
      | .error line => uncorrectable line s

/-- A unit's own write, a write of each line. -/
def unitWrite (ident a : Nat) (bs : List Byte) (s : State) : State :=
  (linePieces a bs.length).foldl (fun s p => writePiece ident p.1 ((bs.drop (p.1 - a)).take p.2) s) s

/-- The DRAM's errors in a line are no more: the line has been written anew. -/
def Memory.renew (m : Memory) (line : Nat) : Memory := { m with errs := m.errs.filter (·.1 != line) }

/-- A line that no longer holds a valid codeword where the code checks found `f` in it (R293): a STRONG line until it is written
whole, a LIGHT line in the words that were lost. -/
def Memory.spoil (m : Memory) (f : MemFault) (line : Nat) : Memory :=
  match f with
  | .uncorrectable =>
    if m.isLight (64 * line) then m
    else { m with poisoned := if m.poisoned.contains line then m.poisoned else line :: m.poisoned }
  | .words _ lost =>
    if m.isLight (64 * line) then { m with cells := m.cells.filter fun c => !(decide (c.1 / 64 = line) && lost.val.testBit (c.1 % 64 / 8)) } else m
  | .corrected _ _ => m
  | .none => m

/-! ### Scrubbing (R289, R290) -/

/-- The page being moved by a retirement copy. -/
def State.movingPage (s : State) : Option Nat := s.mem.retiring.map (·.1)

/-- Words of a LIGHT line that read as uncorrectable where the code checks find `f`: those lost and those never written. -/
def lightBad (line : Nat) (f : MemFault) (s : State) : Nat :=
  ((List.range 8).filter fun k => s.mem.mem.fails f (64 * line + 8 * k) 8).length

/-- What is left of the DRAM's errors in a line whose corrected words are written back (R289). -/
def faultAfterScrub : MemFault → MemFault
  | .words _ lost => if lost = 0 then .none else .words 0 lost
  | .corrected _ _ => .none
  | .uncorrectable => .uncorrectable
  | .none => .none

/-- A corrected line is written back (R289). -/
def Memory.scrubbed (m : Memory) (line : Nat) : Memory :=
  { m with errs := (m.errs.map fun e => if e.1 = line then (e.1, faultAfterScrub e.2) else e).filter (·.2 != .none) }

/-- One line as the scrubber reads it: corrected, logged and written back, or counted as uncorrectable (R288, R289); the lost
words of a LIGHT line count in `MEM_SCRUB_UE_LIGHT` alone. -/
def scrubRead (line : Nat) (f : MemFault) (s : State) : State :=
  let f := s.mem.mem.finding f line
  let s :=
    if s.lineLight line then
      (s.mem.mem.fixes f (64 * line) 64).foldl (fun s c => correctable line c.1 c.2 1 s)
        (modMem (fun m => { m with scrubUeLight := tallyAdd m.scrubUeLight (lightBad line f s) }) s)
    else (readLine (64 * line) 64 f 1 s).2
  s.setMem (s.mem.mem.scrubbed line)

/-- One line scrubbed, where the ward admits identity 15 (R295, R296). -/
def scrubOne (line : Nat) (f : MemFault) (s : State) : State :=
  match unitMay 15 (64 * line) 64 false s with
  | (true, s) => scrubRead line f s
  | (false, s) => s

/-- A pass skips the line: a retirement copy moves it (R289). -/
def State.scrubSkips (s : State) (line : Nat) : Bool := s.movingPage == some (line / 1024)

/-- A line number moved past `SPARE_UNIT`, and to the start after the last line. -/
def State.scrubFrom (s : State) (line : Nat) : Nat :=
  let past (l : Nat) : Nat := if l / unitLines = s.spareUnit then (s.spareUnit + 1) * unitLines else l
  let l := past line
  if 256 * unitLines ≤ l then past 0 else l

/-- The scrubber's next line (R289): the position moves on, and a complete pass is noted. -/
def scrubNext (f : MemFault) (s : State) : State :=
  if !s.mem.mapApplied then s
  else
    let line := s.scrubFrom s.mem.scrubPos
    let nxt := s.scrubFrom (line + 1)
    let s := if s.scrubSkips line then s else scrubOne line f s
    modMem (fun m => { m with scrubPos := nxt, passDone := if nxt < line then some s.aon else m.passDone }) s

/-! ### Retirement (R291 to R293) -/

/-- Spare indexes in use: those of keeper entries, foreign included, as last read, and those in force here. -/
def State.usedSpares (s : State) : List Nat :=
  (if s.keeperReadable then s.cart.retireMap.map (·.spare) else s.mem.keptSpares) ++ s.mem.unsaved.map (·.spare) ++ s.mem.retired.map (·.2)

/-- The lowest free spare index. -/
def State.freeSpare (s : State) : Option Nat := (List.range 512).find? fun i => !(s.usedSpares.contains i)

/-- `MEM_RETIRE_RESULT`: spare index and code. -/
def retireResult (code spare : Nat) : Nat := spare % 512 * 256 + code % 256

/-- A result reaches the reader that asked for the retirement (R294). -/
def setRetireResult (host : Bool) (v : Nat) (s : State) : State :=
  modMem (fun m => if host then { m with resultHost := v } else { m with resultFw := v }) s

/-- The map of R283 in P4: the LIGHT units, and the own module's retired pages. -/
def applyMemmap (s : State) : State :=
  let m := s.cfg.cur.memmap
  let light := (m.descs.filter fun d => d.2.2 == 1).flatMap fun d => (List.range d.2.1).map (d.1 + ·)
  let own := (s.cart.retireMap.filter fun e => e.eui == s.gen.eui)
  let pages := own.foldl (fun l e => (l.filter (·.1 != e.page)) ++ [(e.page, e.spare)]) ([] : List (Nat × Nat))
  modMem (fun x => { x with mem := (x.mem.redirect m.spareUnit pages).applyMap light, mapApplied := true, retired := pages, scrubPos := if m.spareUnit = 0 then unitLines else 0 }) s

end Sys2Proof.Machine
end

