-- ==== Sys2Proof/Machine/Float.lean ====
section
/-! DEFINITION. IEEE 754 binary arithmetic with round-to-nearest-even (R137), exact on rationals; and the circular
functions of the phasor engine, in fixed point with 200 fraction bits. -/

namespace Sys2Proof.Machine

open Sys2Proof

/-! ### Binary floating point -/

/-- A binary floating-point value: not a number, infinite, or `m · 2^e` with a sign. -/
inductive Fp where
  | nan
  | inf (neg : Bool)
  | fin (neg : Bool) (m : Nat) (e : Int)
  deriving DecidableEq, Repr, Inhabited

/-- A format: bits of the significand, the exponents of the least and the greatest unit in the last place. -/
structure Fmt where
  p : Nat
  emin : Int
  emax : Int

/-- binary32. -/
def b32 : Fmt := ⟨24, -149, 104⟩

/-- binary64. -/
def b64 : Fmt := ⟨53, -1074, 971⟩

/-- `2^e` for a power that is not negative, else 1. -/
def pow2 (e : Int) : Nat := 2 ^ e.toNat

/-- The fraction `n/d · 2^x` as a numerator and a denominator. -/
def scaled (n d : Nat) (x : Int) : Nat × Nat := (n * pow2 x, d * pow2 (-x))

/-- A quotient rounded to nearest, ties to even. -/
def rneDiv (a b : Nat) : Nat :=
  let q := a / b
  let r := a % b
  if b < 2 * r ∨ (2 * r = b ∧ q % 2 = 1) then q + 1 else q

/-- The exponent of the unit in the last place of `n/d · 2^e` in a format. -/
def ulpExp (f : Fmt) (n d : Nat) (e : Int) : Int :=
  let c : Int := (Nat.log2 n : Int) - Nat.log2 d + e - f.p + 1
  let s := scaled n d (e - c)
  max f.emin (if s.1 < 2 ^ (f.p - 1) * s.2 then c - 1 else c)

/-- The value `n/d · 2^e` with a sign, rounded to a format. -/
def roundRat (f : Fmt) (neg : Bool) (n d : Nat) (e : Int) : Fp :=
  if n = 0 then .fin neg 0 f.emin
  else
    let u := ulpExp f n d e
    let s := scaled n d (e - u)
    let q := rneDiv s.1 s.2
    let m := if q = 2 ^ f.p then q / 2 else q
    let v := if q = 2 ^ f.p then u + 1 else u
    if f.emax < v then .inf neg else .fin neg m v

/-- Rounded again, to a format. -/
def Fp.round (f : Fmt) : Fp → Fp
  | .nan => .nan
  | .inf s => .inf s
  | .fin s m e => roundRat f s m 1 e

/-- The number that a binary32 word encodes. -/
def dec32 (w : Nat) : Fp :=
  let neg := w.testBit 31
  let ex := bitsOf w 30 23
  let fr := bitsOf w 22 0
  if ex = 255 then (if fr = 0 then .inf neg else .nan)
  else if ex = 0 then .fin neg fr (-149)
  else .fin neg (fr + 0x800000) ((ex : Int) - 150)

/-- The number that a binary64 word encodes. -/
def dec64 (w : Nat) : Fp :=
  let neg := w.testBit 63
  let ex := bitsOf w 62 52
  let fr := bitsOf w 51 0
  if ex = 2047 then (if fr = 0 then .inf neg else .nan)
  else if ex = 0 then .fin neg fr (-1074)
  else .fin neg (fr + 2 ^ 52) ((ex : Int) - 1075)

/-- The quiet NaN of binary32 that the model writes. -/
def nan32 : Nat := 0x7FC00000

/-- The binary32 word of a value rounded to binary32. -/
def enc32 (x : Fp) : Nat :=
  match x.round b32 with
  | .nan => nan32
  | .inf s => bitAt s 31 + 0x7F800000
  | .fin s m e => bitAt s 31 + (if m < 0x800000 then m else (e + 150).toNat * 0x800000 + (m - 0x800000))

/-- The binary64 word of a value rounded to binary64. -/
def enc64 (x : Fp) : Nat :=
  match x.round b64 with
  | .nan => 0x7FF8000000000000
  | .inf s => bitAt s 63 + 0x7FF0000000000000
  | .fin s m e => bitAt s 63 + (if m < 2 ^ 52 then m else (e + 1075).toNat * 2 ^ 52 + (m - 2 ^ 52))

/-- The negative of a value. -/
def Fp.neg : Fp → Fp
  | .nan => .nan
  | .inf s => .inf (!s)
  | .fin s m e => .fin (!s) m e

/-- The absolute value. -/
def Fp.abs : Fp → Fp
  | .nan => .nan
  | .inf _ => .inf false
  | .fin _ m e => .fin false m e

/-- A product in a format. -/
def Fp.mul (f : Fmt) : Fp → Fp → Fp
  | .nan, _ => .nan
  | _, .nan => .nan
  | .inf a, .inf b => .inf (a != b)
  | .inf a, .fin b m _ => if m = 0 then .nan else .inf (a != b)
  | .fin a m _, .inf b => if m = 0 then .nan else .inf (a != b)
  | .fin a m e, .fin b n k => roundRat f (a != b) (m * n) 1 (e + k)

/-- A finite value as an integer multiple of `2^x`. -/
def alignTo (s : Bool) (m : Nat) (e x : Int) : Int :=
  let v : Int := (m * pow2 (e - x) : Nat)
  if s then -v else v

/-- A sum in a format. -/
def Fp.add (f : Fmt) : Fp → Fp → Fp
  | .nan, _ => .nan
  | _, .nan => .nan
  | .inf a, .inf b => if a = b then .inf a else .nan
  | .inf a, .fin _ _ _ => .inf a
  | .fin _ _ _, .inf b => .inf b
  | .fin a m e, .fin b n k =>
    let x := min e k
    let v := alignTo a m e x + alignTo b n k x
    if v = 0 then .fin (a && b) 0 f.emin else roundRat f (decide (v < 0)) v.natAbs 1 x

/-- A difference in a format. -/
def Fp.sub (f : Fmt) (a b : Fp) : Fp := Fp.add f a b.neg

/-- A quotient in a format. -/
def Fp.div (f : Fmt) : Fp → Fp → Fp
  | .nan, _ => .nan
  | _, .nan => .nan
  | .inf _, .inf _ => .nan
  | .inf a, .fin b _ _ => .inf (a != b)
  | .fin a _ _, .inf b => .fin (a != b) 0 f.emin
  | .fin a m e, .fin b n k =>
    if n = 0 then (if m = 0 then .nan else .inf (a != b)) else roundRat f (a != b) m n (e - k)

/-- An integer as an exact value. -/
def fpInt (i : Int) : Fp := .fin (decide (i < 0)) i.natAbs 0

/-- A fraction rounded to binary64. -/
def fpRat (n : Int) (d : Nat) : Fp := roundRat b64 (decide (n < 0)) n.natAbs d 0

/-- A finite value compared: `a ≤ b`; false where one of them is not a number. -/
def Fp.le : Fp → Fp → Bool
  | .nan, _ => false
  | _, .nan => false
  | .inf a, .inf b => a || !b
  | .inf a, .fin _ _ _ => a
  | .fin _ _ _, .inf b => !b
  | .fin a m e, .fin b n k => decide (alignTo a m e (min e k) ≤ alignTo b n k (min e k))

/-- A finite value compared: `a < b`. -/
def Fp.lt (a b : Fp) : Bool := a.le b && !(b.le a)

/-- The value is a finite number. -/
def Fp.isFin : Fp → Bool
  | .fin _ _ _ => true
  | _ => false

/-- The largest integer not above a finite value, or 0. -/
def Fp.floor : Fp → Int
  | .fin s m e => let v := alignTo s m e (min e 0); v / ((pow2 (-(min e 0)) : Nat) : Int)
  | _ => 0

/-! ### Fixed point with 200 fraction bits -/

/-- One, in fixed point. -/
def fxOne : Nat := 2 ^ 200

/-- π, in fixed point. -/
def fxPi : Nat := 5048344754617993871973410141242436836214643421488662971535368

/-- The integer square root, by bisection over `k` bits. -/
def isqrtGo (n : Nat) : Nat → Nat → Nat
  | 0, r => r
  | k + 1, r => let c := r + 2 ^ k; isqrtGo n k (if c * c ≤ n then c else r)

/-- The largest integer whose square is not above `n`. -/
def isqrt (n : Nat) : Nat := isqrtGo n (Nat.log2 n / 2 + 1) 0

/-- An alternating Taylor sum: `t` the present term, `x2` the square, `k` the index of the term, rising by two; the
divisor of the next term is given by `d`. -/
def taylor (d : Nat → Nat) (x2 : Int) : Nat → Nat → Int → Int → Int
  | 0, _, _, acc => acc
  | n + 1, k, t, acc =>
    let t' := -(t * x2 / fxOne) / (d k : Int)
    taylor d x2 n (k + 2) t' (acc + t')

/-- The sine of an angle from 0 to π/4. -/
def fxSin (x : Nat) : Nat := (taylor (fun k => (k + 1) * (k + 2)) (x * x / fxOne : Nat) 40 1 x x).toNat

/-- The cosine of an angle from 0 to π/4. -/
def fxCos (x : Nat) : Nat := (taylor (fun k => (k + 1) * (k + 2)) (x * x / fxOne : Nat) 40 0 fxOne fxOne).toNat

/-- The terms of the arctangent series: power `t`, index `k`. -/
def atanGo (x2 : Int) : Nat → Nat → Int → Int → Int
  | 0, _, _, acc => acc
  | n + 1, k, t, acc => let t' := -(t * x2 / fxOne); atanGo x2 n (k + 2) t' (acc + t' / (k + 2 : Nat))

/-- One halving of the argument of the arctangent: x / (1 + √(1 + x²)). -/
def atanHalf (x : Nat) : Nat := x * fxOne / (fxOne + isqrt (fxOne * fxOne + x * x))

/-- The arctangent of a value from 0 to 1: four halvings, then the series. -/
def fxAtan (x : Nat) : Nat :=
  let y := atanHalf (atanHalf (atanHalf (atanHalf x)))
  16 * (atanGo (y * y / fxOne : Nat) 30 1 y y).toNat

/-- The angle of a complex number with parts `a` (real) and `b` (imaginary), not both zero, within (−π, +π]. -/
def fxArg (a b : Int) : Int :=
  let p := a.natAbs
  let q := b.natAbs
  let t : Nat := if q ≤ p then fxAtan (q * fxOne / p) else fxPi / 2 - fxAtan (p * fxOne / q)
  let u : Int := if a < 0 then (fxPi : Int) - t else t
  if b < 0 then -u else u

/-- An angle mapped to (−π, +π]. -/
def fxWrap (x : Int) : Int := if (fxPi : Int) < x then x - 2 * fxPi else if x ≤ -(fxPi : Int) then x + 2 * fxPi else x

/-- The correctly rounded binary64 cosine and sine of 2πk/14400 (R142). -/
def turnTable (k : Nat) : Fp × Fp :=
  let q := k % 14400 / 3600
  let r := k % 3600
  let ang (n : Nat) : Nat := fxPi * n / 7200
  let c0 : Nat := if r ≤ 1800 then fxCos (ang r) else fxSin (ang (3600 - r))
  let s0 : Nat := if r ≤ 1800 then fxSin (ang r) else fxCos (ang (3600 - r))
  let f (neg : Bool) (n : Nat) : Fp := roundRat b64 (neg && n != 0) n 1 (-200)
  if q = 0 then (f false c0, f false s0)
  else if q = 1 then (f true s0, f false c0)
  else if q = 2 then (f true c0, f true s0)
  else (f false s0, f true c0)

/-! ### Results within one unit in the last place (R137) -/

/-- The greatest magnitude of binary32 not above `n/d · 2^e`, as an encoded word without sign, and whether it is exact. -/
def below32 (n d : Nat) (e : Int) : Nat × Bool :=
  if n = 0 then (0, true)
  else
    let u := ulpExp b32 n d e
    let s := scaled n d (e - u)
    let m := s.1 / s.2
    if b32.emax < u then (0x7F7FFFFF, false)
    else ((if m < 0x800000 then m else (u + 150).toNat * 0x800000 + (m - 0x800000)), s.1 % s.2 == 0)

/-- The word that the implementation picks: one of the two neighbours of an inexact result, or one of the three of an
exact one; an exact zero stays zero. -/
def pick32 (i : Nat) (neg : Bool) (n d : Nat) (e : Int) : Nat :=
  let (w, exact) := below32 n d e
  let k := (Config.ulpPick i).val
  let m := if n = 0 then 0 else if exact then w + k - 1 else w + k % 2
  bitAt (neg && n != 0) 31 + m

/-- The picked word of a fixed-point value. -/
def pickFx (i : Nat) (x : Int) : Nat := pick32 i (decide (x < 0)) x.natAbs 1 (-200)

/-- The picked word of a square root of `n · 2^e`. -/
def pickSqrt (i : Nat) (n : Nat) (e : Int) : Nat :=
  let e' : Int := if e % 2 = 0 then e else e - 1
  let n' := (if e % 2 = 0 then n else 2 * n) * 2 ^ 120
  let r := isqrt n'
  let m := if r * r = n' then 2 * r else 2 * r + 1
  pick32 i false m 1 ((e' - 120) / 2 - 1)

end Sys2Proof.Machine
end

