-- ==== Sys2Proof/Machine/TmbOps.lean ====
section
/-! DEFINITION. The time base (chapter 3): sources, the servo, holdover, and stamps, as operations other units share. -/

namespace Sys2Proof.Machine

open Sys2Proof

/-! ### Profile and stamps (R76, R78, R81) -/

/-- The time profile in force. -/
def State.ptp (s : State) : PtpSec := s.cfg.cur.ptp

/-- A port may be slave: a designated station port, or a host port named by `HOST_SLAVE` (R81). -/
def State.slaveCapable (s : State) (p : Nat) : Bool :=
  if p < 64 then s.ptp.slaveA == p || s.ptp.slaveB == p
  else if p < 66 then s.ptp.hostSlave.testBit (p - 64)
  else false

/-- A station port is a master port (R81). -/
def State.masterPort (s : State) (p : Nat) : Bool := p < 64 && s.ptp.masterMask.testBit p

/-- The port constants in force. -/
def State.asymOf (s : State) (p : Nat) : AsymCfg := (s.sect 0x13).asym.getD p {}

/-- The constants that belong to a stamp (R78): those in force from the swap's strobe on, for a stamp taken before it the ones
they replaced. -/
def State.asymWhen (s : State) (p stamp : Nat) : AsymCfg :=
  match s.tmb.asymAt with
  | some t => if stamp < t then s.tmb.asymOld.getD p {} else s.asymOf p
  | none => s.asymOf p

/-- The stamps of a peer delay exchange straddle the swap of the constants (R78). -/
def State.straddles (s : State) (first last : Nat) : Bool :=
  match s.tmb.asymAt with
  | some t => decide (first < t ∧ t ≤ last)
  | none => false

/-- A receive stamp with `ING` applied (R76). -/
def State.rxStamp (s : State) (p stamp : Nat) : Int := (stamp : Int) - (s.asymWhen p stamp).ing

/-- A transmit stamp with `EGR` applied (R76). -/
def State.txStamp (s : State) (p stamp : Nat) : Int := (stamp : Int) + (s.asymWhen p stamp).egr

/-- A raw stamp taken now at a port: its island's follower, at the stamp's resolution of 125 ps (R65, R75). -/
def State.rawStamp (s : State) (p : Nat) : Nat := s.islandTime (if p < 64 then portIsland p else hostIsland) / stampUnit * stampUnit

/-- A receive stamp as a module time. -/
def State.rxTime (s : State) (p stamp : Nat) : Nat := (s.rxStamp p stamp).toNat

/-! ### Messages on station ports (R110, R116) -/

/-- The logical port of a lane (R96). -/
def State.logical (s : State) (p : Nat) : Nat :=
  if 32 ≤ p ∧ (s.cfg.cur.ports.ports.getD (p - 32) {}).prp then p - 32 else p

/-- A lane belongs to a PRP pair. -/
def State.isPrp (s : State) (p : Nat) : Bool := (s.cfg.cur.ports.ports.getD (s.logical p) {}).prp && s.logical p < 32

/-- A port's transmit budget (R116): 0 until the loaded sections come into force (R423). -/
def State.portBudget (s : State) (p : Nat) : Nat := if s.bgt.booting then 0 else (s.sect 0xB).budgets.ports.getD p 0

/-- The port's transmit stall admits a frame of `bytes` wire bytes now. -/
def State.portRoom (s : State) (p bytes : Nat) : Bool := !(s.port p).exhausted && decide ((s.port p).spent + bytes ≤ s.portBudget p)

/-- A message waits for its port's stall: counted in `PRT_n_TX_DEFER`, once a period. -/
def waitMsg (p : Nat) (m : WaitMsg) (s : State) : State :=
  modPort p (fun x => { x with
    waitq := x.waitq.filter (fun y => y.kind != m.kind) ++ [{ m with deferred := true }]
    txDefer := if m.deferred then x.txDefer else tallyInc x.txDefer }) s

/-- Frames of the same order or before it wait on the port already (R110). -/
def PortState.before (x : PortState) (event : Bool) : Bool :=
  x.waitq.any (fun y => y.kind.event || !event) || (!event && !x.outq.isEmpty)

/-- A message leaves by `send`, or waits behind the frames that come before it or for the stall (R110, R116). -/
def sendMsg (p bytes : Nat) (m : WaitMsg) (send : State → State) (s : State) : State :=
  if s.portRoom p bytes && !(s.port p).before m.kind.event then send s else waitMsg p m s

/-- The next redundancy sequence number of a PRP pair; none on a single port (R96). -/
def takeRct (lp : Nat) (prp : Bool) (s : State) : Option Nat × State :=
  if prp then (some (s.port lp).rctNext, modPort lp (fun x => { x with rctNext := (x.rctNext + 1) % 65536 }) s) else (none, s)

/-! ### Servo states (R69 to R72) -/

/-- ±100 ppm in 1/256 ppb (R73). -/
def freqMax : Int := 25600000

/-- The steering that is asked for, clamped (R73): none in FREE, in HOLDOVER and EXPIRED the last frequency estimate, else
the servo's output (R69); `TMB_FREQ_TRIM`, itself clamped in use, comes on top. -/
def State.freqTarget (s : State) : Int :=
  let trim := clampInt (-freqMax) freqMax s.tmb.freqTrim
  if s.tmb.state = 0 then 0
  else if 3 ≤ s.tmb.state then clampInt (-freqMax) freqMax (s.tmb.lastEst.getD 0 + trim)
  else clampInt (-freqMax) freqMax (s.tmb.servoFreq + trim)

/-- `TMB_FREQ`: the steering in use; while LOCKED it moves at no more than 50 ppb/s (R73). -/
def State.freqNow (s : State) : Int :=
  if s.tmb.state = 2 then
    let d : Int := ((s.aon - s.tmb.freqAt) * 12800 / 1000000000 : Nat)
    clampInt (s.tmb.freqUsed - d) (s.tmb.freqUsed + d) s.freqTarget
  else s.freqTarget

/-- Takes up the steering in use at this instant before one of its parts changes. -/
def freqHold (s : State) : State := { s with tmb := { s.tmb with freqUsed := s.freqNow, freqAt := s.aon } }

/-- An event of the time base: source 80 + `n`. -/
def tmbEvent (n : Nat) (s : State) : State := raise .tmb n s

/-- P5 ends: the start goes on to P6, unless the hinge latch is open (R389, R391). -/
def endP5 (s : State) : State :=
  if s.gen.phase = 5 then
    let s := { s with tmb := { s.tmb with acqJudged := true } }
    if s.gen.latchOpen then s
    else { s with gen := { s.gen with phase := 6 }, wvl := { s.wvl with p6Start := s.aon } }
  else s

/-- How long the servo has been LOCKED, where it is. -/
def State.lockedFor (s : State) : Nat :=
  match s.tmb.lockedSince with
  | some t => if s.tmb.state = 2 then s.aon - t else 0
  | none => 0

/-- The servo's state and what is kept of the change. Entry into LOCKED ends the phase steps: in LOCKED the time base never
steps (R36, R68). -/
def putServo (new : Nat) (s : State) : State :=
  { s with tmb := { s.tmb with state := new, goodRun := 0, outlierRun := 0
                               stepLeft := if new = 2 then 0 else s.tmb.stepLeft
                               lostAt := none
                               lockedSince := if new = 2 then some s.aon else none
                               leftLocked := if s.tmb.state = 2 then some s.aon else s.tmb.leftLocked
                               stateLog := (s.now, new) :: s.tmb.stateLog.take 63
                               everLocked := s.tmb.everLocked || decide (new = 2) } }

/-- Holdover starts (R72): its limit is 3,600 s after less than 600 s in LOCKED, else 28,800 s. -/
def startHoldover (locked : Nat) (s : State) : State :=
  { s with tmb := { s.tmb with
      holdSince := some s.aon, holdLimit := if locked < aonSec 600 then 3600 else 28800, ocxoAtEntry := s.ptm.temps.getD 7 0 } }

/-- Holdover ends; outside holdover `TMB_HOLD_LIMIT` reads 0 (log entry 92, DESIGN CHOICE). -/
def endHoldover (s : State) : State := { s with tmb := { s.tmb with holdSince := none, holdLimit := 0 } }

/-- The events of a servo state (R94), and the report of EXPIRED (R336). -/
def servoEvents (new : Nat) (s : State) : State :=
  let s := tmbEvent 0 s
  if new = 2 then tmbEvent 1 s else if new = 3 then tmbEvent 2 s else if new = 4 then report 22 0xFF (tmbEvent 3 s) else s

/-- The servo enters a state (R70, R72, R94): events, record, holdover figures, the end of P5, the report of EXPIRED. -/
def setServo (new : Nat) (s : State) : State :=
  let old := s.tmb.state
  if old = new then s
  else
    let locked := s.lockedFor
    let s := putServo new (freqHold s)
    let s := if new = 3 then startHoldover locked s else if new = 4 then s else endHoldover s
    let s := ledger 0x0103 0xFFFF [old, new] (servoEvents new s)
    if new = 2 then endP5 s else s

/-- The servo state in force at an instant of module time, from the last 64 changes. -/
def State.servoAt (s : State) (t : Nat) : Nat :=
  match s.tmb.stateLog.find? (fun x => decide (x.1 ≤ t)) with
  | some x => x.2
  | none => 0

/-- The TAI minus UTC offset in force at an instant of module time (R93, R163): the present one, or the one that the first
change after that instant replaced. -/
def State.taiUtcAt (s : State) (t : Nat) : Int :=
  match (s.tmb.utcLog.reverse.find? (fun x => decide (t < x.1))) with
  | some x => x.2
  | none => s.tmb.taiUtc

/-- The TAI minus UTC offset changes at an instant; the last 64 changes are kept. -/
def putTaiUtc (at_ : Nat) (v : Int) (s : State) : State :=
  if s.tmb.taiUtc = v then s
  else { s with tmb := { s.tmb with taiUtc := v, utcLog := (at_, s.tmb.taiUtc) :: s.tmb.utcLog.take 63 } }

/-- `TMB_HOLD_ELAPSED`. -/
def State.holdElapsed (s : State) : Nat := match s.tmb.holdSince with
  | some t => (s.aon - t) / 1000000000
  | none => 0

/-- The holdover limit in force is reached: EXPIRED (R70). -/
def checkHoldover (s : State) : State :=
  match s.tmb.holdSince with
  | some t => if s.tmb.state = 3 ∧ t + aonSec s.tmb.holdLimit ≤ s.aon then setServo 4 s else s
  | none => s

/-- An OCXO reading revises the holdover limit (R72): outside ±1 °C of the reading at entry, 4 h. -/
def holdoverRevise (temp : Int) (s : State) : State :=
  if s.tmb.holdSince.isSome ∧ s.tmb.holdLimit = 28800 ∧ (temp - s.tmb.ocxoAtEntry).natAbs > 16 then
    checkHoldover { s with tmb := { s.tmb with holdLimit := 14400 } }
  else s

/-! ### The pending leap (R85, R93) -/

/-- When the UTC day of an instant of UTC ends, in module time: a deletion takes the day's last second away. -/
def leapInstant (utc offset : Int) (del : Bool) : Nat :=
  ((utc / 86400 + 1) * 86400 + offset - (if del then 1 else 0)).toNat * ticksPerSec

/-- A pending leap is dated anew: module time turns out to be `t`. -/
def redateLeap (t : Nat) (s : State) : State :=
  if s.tmb.leapAdd || s.tmb.leapDel then
    { s with tmb := { s.tmb with leapAt := leapInstant ((timeSec t : Int) - s.tmb.taiUtc) s.tmb.taiUtc s.tmb.leapDel } }
  else s

/-! ### Offset samples (R67, R68, R70) -/

/-- A coarse set (R67): module time is loaded from the sample, and the next strobe carries the new count and corrects the
followers (R19); the day that a pending leap ends is that of the new time (R93). -/
def coarseSet (offset : Int) (s : State) : State :=
  let shift (t : Nat) : Nat := ((t : Int) - offset).toNat
  redateLeap (shift s.now) { s with
    now := shift s.now, discont := true, followers := s.freed fun _ => true, svi := { s.svi with lastSlot := none }
    tmb := { s.tmb with timeSet := true, stepLeft := 0, lastPps := s.tmb.lastPps.map shift, asymAt := s.tmb.asymAt.map shift
                        irigLabel := s.tmb.irigLabel.map fun p => (shift p.1, p.2) } }

/-- `TMB_OFFSET` saturates at the ends of its range. -/
def satOffset (x : Int) : Int := clampInt (-2147483648) 2147483647 x

/-- The servo chooses a steering: a free value within the bounds of R73. -/
def steer (s : State) : State :=
  let (i, s) := draw (freqHold s)
  { s with tmb := { s.tmb with servoFreq := clampInt (-freqMax) freqMax (Config.servoSteer i) } }

/-- A sample in ACQUIRING (R68, R70): phase steps above 1 µs, the run of good samples, LOCKED after eight. The first good sample
of a run need not lie within 20 ppb of the one before it (log entry 125, DESIGN CHOICE). -/
def acquireSample (offset est : Int) (s : State) : State :=
  let near := match s.tmb.lastEst with
    | some e => decide ((est - e).natAbs ≤ 20 * 256)
    | none => false
  let good := decide (offset.natAbs ≤ nsTicks 100)
  let run := if good && near then s.tmb.goodRun + 1 else if good then 1 else 0
  let s := steer { s with tmb := { s.tmb with
    stepLeft := if usTicks 1 < offset.natAbs then -offset else s.tmb.stepLeft
    goodRun := run, lastEst := some est } }
  if 8 ≤ run then setServo 2 s else s

/-- One offset sample of the source in use (R68, R70). The sample that makes the coarse set counts as a good one, at offset 0
(log entry 125, DESIGN CHOICE). -/
def servoSample (offset est : Int) (s : State) : State :=
  let s := { s with tmb := { s.tmb with offset := satOffset offset, lastSampleAt := s.aon } }
  if s.tmb.state = 2 then
    if usTicks 1 < offset.natAbs then
      let run := s.tmb.outlierRun + 1
      let s := { s with tmb := { s.tmb with outliers := tallyInc s.tmb.outliers, outlierRun := run } }
      if 4 ≤ run then setServo 3 s else s
    else steer { s with tmb := { s.tmb with outlierRun := 0, lastEst := some est } }
  else if s.tmb.implausible then { s with tmb := { s.tmb with badOffset := offset } }
  else if s.tmb.state = 1 then acquireSample offset est s
  else if s.tmb.state = 0 ∧ s.gen.phase = 5 then
    acquireSample 0 est (setServo 1 (coarseSet offset s))
  else if offset.natAbs ≤ msTicks 1 then
    acquireSample offset est (setServo 1 { s with tmb := { s.tmb with timeSet := true } })
  else tmbEvent 5 { s with tmb := { s.tmb with implausible := true, badOffset := offset } }

/-! ### Sources (R70, R87, R88) -/

/-- The priority of a source kind: its place in `SOURCES`; none where it is not listed. -/
def State.sourceRank (s : State) (kind : Nat) : Option Nat := s.ptp.sources.findIdx? (· == kind)

/-- The source has been heard within its timeout: Announce and Sync, or a valid edge, within 3 s (R70). -/
def SourceSeen.alive (x : SourceSeen) (aon : Nat) : Bool :=
  if x.kind = 1 then decide (aon < x.lastAnnounce + aonSec 3) else decide (aon < x.lastSync + aonSec 3)

/-- The source as seen, if it has been. -/
def State.seen (s : State) (kind port : Nat) : Option SourceSeen :=
  s.tmb.sources.find? fun x => x.kind == kind && x.port == port

/-- Changes what is known of a source, entering it first if need be. -/
def modSource (kind port : Nat) (f : SourceSeen → SourceSeen) (s : State) : State :=
  let l := if (s.seen kind port).isSome then s.tmb.sources else s.tmb.sources ++ [{ kind := kind, port := port }]
  { s with tmb := { s.tmb with sources := l.map fun x => if x.kind == kind && x.port == port then f x else x } }

/-- The source in use is lost and none replaces it (R70): LOCKED stays for 3 s in which another may be selected (R88). Phase
steps that are outstanding are given up, in every state (log entry 126, DESIGN CHOICE). -/
def sourceGone (s : State) : State :=
  let s := { s with tmb := { s.tmb with stepLeft := 0 } }
  if s.tmb.state = 2 then { s with tmb := { s.tmb with lostAt := some s.aon } }
  else if s.tmb.state = 1 then setServo (if s.tmb.everLocked then 3 else 0) s
  else s

/-- LOCKED without a source for 3 s is HOLDOVER (R70, R88). -/
def graceEnd (s : State) : State :=
  match s.tmb.lostAt with
  | some t => if s.tmb.state = 2 ∧ s.tmb.usedKind = 0 ∧ t + aonSec 3 ≤ s.aon then setServo 3 s else s
  | none => s

/-- The clock in use is another one from now on (R88): event 84; an offset that another clock was refused for counts no
more (R70), and a waiting two-step Sync is dropped. -/
def sourceChanged (s : State) : State :=
  tmbEvent 4 { s with tmb := { s.tmb with implausible := false, twoStep := none, lastSampleAt := s.aon } }

/-- The TAI minus UTC offset under IRIG-B: `TAI_UTC_INIT`, and the leaps tracked since (R86). A leap that takes place while PTP
supplies time is none of these (log entry 127, DESIGN CHOICE). -/
def State.irigOffset (s : State) : Int := s.ptp.taiUtcInit + s.tmb.irigLeaps

/-- The source in use changes (R88): event 84; kind 0 leaves none. -/
def selectSource (kind port : Nat) (s : State) : State :=
  let s := { s with tmb := { s.tmb with srcKind := kind, srcPort := port } }
  if s.tmb.usedKind = kind ∧ s.tmb.usedPort = port then s
  else
    let irig := kind = 2 ∨ kind = 3
    let s := sourceChanged { s with tmb := { s.tmb with
        usedKind := kind, usedPort := port, utcKnown := s.tmb.utcKnown || decide irig
        lostAt := if kind = 0 then s.tmb.lostAt else none } }
    let s := if irig then putTaiUtc s.now s.irigOffset s else s
    if kind = 0 then sourceGone s else s

/-- Data set comparison of the best master clock algorithm (R82; IEEE 1588-2019 Clause 9.3.4): the fields in their order;
the lower one is the better clock. -/
def clockRank (a : Announce) : List Nat :=
  [a.priority1, a.clockClass, a.accuracy, a.variance, a.priority2, a.identity, a.stepsRemoved, a.sender]

/-- The first list comes before the second, element by element. -/
def listBefore : List Nat → List Nat → Bool
  | a :: t, b :: u => decide (a < b) || (decide (a = b) && listBefore t u)
  | _, _ => false

/-- One clock is better than another; equal ones are told apart by the port that hears them. -/
def SourceSeen.better (x y : SourceSeen) : Bool := listBefore (clockRank x.announce ++ [x.port]) (clockRank y.announce ++ [y.port])

/-- The best qualified source among some, by `SOURCES`; among the slave-capable ports the best master clock algorithm decides
(R88). -/
def State.bestOf (s : State) (ok : SourceSeen → Bool) : Option SourceSeen :=
  s.tmb.sources.foldl (fun best x =>
    if ok x && x.qualifiedSince.isSome && x.alive s.aon && (s.sourceRank x.kind).isSome then
      match best with
      | none => some x
      | some b =>
        let rx := (s.sourceRank x.kind).getD 9
        let rb := (s.sourceRank b.kind).getD 9
        if rx < rb ∨ (rx = rb ∧ x.better b) then some x else best
    else best) none

/-- The best qualified source of all. -/
def State.bestSource (s : State) : Option SourceSeen := s.bestOf fun _ => true

/-- With PTP in use, a port that hears a better master takes over (R81, R88). -/
def electMaster (s : State) : State :=
  if s.tmb.usedKind ≠ 1 then s
  else match s.bestOf (fun x => x.kind == 1) with
    | some x => selectSource 1 x.port s
    | none => s

/-- Leap flags and UTC offset from the source (R86, R93): a flag's change asserts source 87. `utc` is the instant of UTC in the
announced day, `label` the offset that instant was taken with; a leap that has been applied is not announced again, and until
module time has been set each announcement dates the leap (R85). -/
def setLeap (utc label offset : Int) (add del : Bool) (s : State) : State :=
  let at_ := leapInstant utc label del
  let past := match s.tmb.lastLeap with
    | some x => x.1 == at_
    | none => false
  let add := add && !past
  let del := del && !past
  let changed := add != s.tmb.leapAdd || del != s.tmb.leapDel
  let s := putTaiUtc s.now offset { s with tmb := { s.tmb with utcKnown := true, leapAdd := add, leapDel := del
                                                               leapAt := if changed || !s.tmb.timeSet then at_ else s.tmb.leapAt } }
  when changed (tmbEvent 7) s

/-! ### Civil time for IRIG-B labels (R85) -/

/-- Days from 1970-01-01 to January 1 of a year. -/
def yearStart (y : Nat) : Int :=
  let p : Int := (y : Int) - 1
  365 * ((y : Int) - 1970) + (p / 4 - p / 100 + p / 400) - (492 - 19 + 4)

/-- The TAI seconds of a label read in a given year. -/
def irigSeconds (f : IrigFrame) (year : Nat) (taiUtc : Int) : Int :=
  (yearStart year + (f.day : Int) - 1) * 86400 + f.secOfDay - f.localOffset + taiUtc

/-- The TAI seconds of a label, its two-digit year placed in the century nearest to a reference time (R85), among the
twelve from 1900 on (log entry 93, DESIGN CHOICE). -/
def irigLabelAt (f : IrigFrame) (taiUtc : Int) (ref : Nat) : Int :=
  let cand := (List.range 12).map fun k => irigSeconds f (1900 + 100 * k + f.year % 100) taiUtc
  cand.foldl (fun b x => if (x - (timeSec ref : Int)).natAbs < (b - (timeSec ref : Int)).natAbs then x else b)
    (cand.headD 0)

end Sys2Proof.Machine
end

