-- ==== Sys2Proof/Machine/PheOps.lean ====
section
/-! DEFINITION. The phasor engine's datapath, the phasor mailbox and the data frames (chapter 6). -/

namespace Sys2Proof.Machine

open Sys2Proof

/-- Changes the phasor engine's state. -/
def modPhe (f : PheState → PheState) (s : State) : State := { s with phe := f s.phe }

/-- The `PHE_TABLE` in force. -/
def State.pheSec (s : State) : PheSec := (s.sect 5).phe

/-- The instant of a grid slot count, truncated to ticks (R124). -/
def slotTime (g : Nat) : Nat := g * ticksPerSec / 14400

/-- The grid slot count `d` slots back. -/
def slotBack (g d : Nat) : Nat := g - d

/-! ### The store (R138, R139). Flags: bit 0 `INVALID`, 1 `QUEST`, 2 `INTERP`, 3 `UNSYNC`. -/

/-- A store word: its value and flags. -/
def storeGet (l : List StoreWord) (a : Nat) : StoreWord := (l.find? (·.addr == a)).getD { addr := a }

/-- Writes a store word, the list kept in rising order; a word at its start value is not listed. -/
def storePut (x : StoreWord) : List StoreWord → List StoreWord
  | [] => if x.value = 0 ∧ x.flags = 1 then [] else [x]
  | y :: t =>
    if y.addr < x.addr then y :: storePut x t
    else
      let r := if y.addr = x.addr then t else y :: t
      if x.value = 0 ∧ x.flags = 1 then r else x :: r

/-- A value read, with its flags. -/
abbrev Flagged := Fp × Nat

/-- A store word as a number. -/
def State.word (s : State) (a : Nat) : Flagged := let x := storeGet s.phe.store a; (dec32 x.value, x.flags)

/-- Writes a result word, rounded once to binary32. -/
def putWord (a : Nat) (v : Fp) (flags : Nat) (s : State) : State :=
  modPhe (fun p => { p with store := storePut { addr := a, value := enc32 v, flags := flags } p.store }) s

/-- Writes a result word that is already binary32. -/
def putBits (a w flags : Nat) (s : State) : State :=
  modPhe (fun p => { p with store := storePut { addr := a, value := w, flags := flags } p.store }) s

/-- The store address of tap `k` of a ring at slot count `g` (R139). -/
def RingCfg.tap (r : RingCfg) (g k : Nat) : Nat :=
  let n := 2 ^ r.lenLog2
  let i := (g / r.stride + n * (k / n + 1) - k) % n
  r.base + i * (if r.kind = 1 then 2 else 1)

/-- A ring descriptor of a table. -/
def PheSec.ring (t : PheSec) (i : Nat) : RingCfg := t.rings.getD i {}

/-- A coefficient as a number. -/
def PheSec.coef (t : PheSec) (i : Nat) : Fp := dec32 (t.coefs.getD i 0)

/-! ### Complex arithmetic in binary64 (R137) -/

/-- A complex value. -/
abbrev Cx := Fp × Fp

/-- The complex value at a store address, with the OR of both words' flags. -/
def State.cx (s : State) (a : Nat) : Cx × Nat :=
  let x := s.word a
  let y := s.word (a + 1)
  ((x.1, y.1), x.2 ||| y.2)

/-- A complex sum. -/
def cadd (x y : Cx) : Cx := (Fp.add b64 x.1 y.1, Fp.add b64 x.2 y.2)

/-- A complex product, each product and each sum formed in binary64. -/
def cmul (x y : Cx) : Cx :=
  (Fp.sub b64 (Fp.mul b64 x.1 y.1) (Fp.mul b64 x.2 y.2), Fp.add b64 (Fp.mul b64 x.1 y.2) (Fp.mul b64 x.2 y.1))

/-- The conjugate. -/
def conj (x : Cx) : Cx := (x.1, x.2.neg)

/-- Writes a complex result. -/
def putCx (a : Nat) (v : Cx) (flags : Nat) (s : State) : State := putWord (a + 1) v.2 flags (putWord a v.1 flags s)

/-- √2 and √3/2, correctly rounded to binary64. -/
def sqrt2 : Fp := dec64 0x3FF6A09E667F3BCD

/-- √3/2. -/
def sqrt3half : Fp := dec64 0x3FEBB67AE8584CAA

/-- a = e^(j2π/3). -/
def rotA : Cx := (dec32 0xBF000000, sqrt3half)

/-- a². -/
def rotA2 : Cx := (dec32 0xBF000000, sqrt3half.neg)

/-- One third of a complex sum (R154). -/
def third (x : Cx) : Cx := (Fp.div b64 x.1 (fpInt 3), Fp.div b64 x.2 (fpInt 3))

/-- A finite value as an integer multiple of 2⁻¹⁰⁷⁴; 0 for what is not finite. -/
def Fp.units : Fp → Int
  | .fin s m e => alignTo s m e (-1074)
  | _ => 0

/-- The argument of a complex value in fixed point, where it has one. -/
def cxArg (x : Cx) : Option Int :=
  if x.1.isFin && x.2.isFin && decide (x.1.units ≠ 0 ∨ x.2.units ≠ 0) then some (fxArg x.1.units x.2.units) else none

/-- A result the spec does not state, or does not fix to the last place: a fresh free value feeds `f`. -/
def withFree (f : Nat → Nat) (s : State) : Nat × State := let (i, s) := draw s; (f i, s)

/-- The magnitude of a complex value (R137, R156). -/
def magnitude (x : Cx) (s : State) : Nat × State :=
  if x.1.isFin && x.2.isFin then
    let n := x.1.units.natAbs ^ 2 + x.2.units.natAbs ^ 2
    withFree (fun i => pickSqrt i n (-2148)) s
  else withFree (fun i => (Config.openWord i).toNat) s

/-- The angle of a complex value within (−π, +π] (R156). -/
def angleOf (x : Cx) (s : State) : Nat × State :=
  match cxArg x with
  | some a => withFree (fun i =>
      let w := pickFx i a
      if 0x40490FDB ≤ w % 0x80000000 then w - w % 0x80000000 + 0x40490FDA else w) s
  | none => withFree (fun i => (Config.openWord i).toNat) s

/-! ### Filters (R142, R152) -/

/-- Σ h_k · y_k, from the oldest tap to the newest, and the OR of the taps' flags. -/
def filterSum (t : PheSec) (ring coef len g : Nat) (s : State) : Cx × Nat :=
  ((List.range len).reverse).foldl (fun acc k =>
    let y := s.cx ((t.ring ring).tap g k)
    let h := t.coef (coef + k)
    (cadd acc.1 (Fp.mul b64 h y.1.1, Fp.mul b64 h y.1.2), acc.2 ||| y.2)) ((fpInt 0, fpInt 0), 0)

/-- A frequency register clamped to ±5 Hz, and whether it lay outside (R143). -/
def clampDelta (d : Fp) : Fp × Bool :=
  if (fpInt 5).lt d then (fpInt 5, true) else if d.lt (fpInt (-5)) then (fpInt (-5), true) else (d, false)

/-- The interpolated gain correction at a deviation (R152). -/
def gainAt (t : PheSec) (d : Nat) (delta : Fp) : Fp :=
  let x := Fp.mul b64 (Fp.add b64 delta (fpInt 5)) (fpRat 128 5)
  let i := (min x.floor 255).toNat
  let e0 := t.coef (d + i)
  Fp.add b64 e0 (Fp.mul b64 (Fp.sub b64 x (fpInt i)) (Fp.sub b64 (t.coef (d + i + 1)) e0))

/-- 50 or 60 Hz. -/
def nominal (sixty : Bool) : Nat := if sixty then 60 else 50

/-- FETCH (R142). -/
def stepFetch (t : PheSec) (vals : List (Int × Nat)) (g : Nat) (x : PheStep) (s : State) : State :=
  let v := vals.getD x.a (0, 1)
  putWord ((t.ring x.b).tap g 0) (Fp.mul b64 (fpInt v.1) (t.coef x.c)) v.2 s

/-- DEMOD (R142). -/
def stepDemod (t : PheSec) (g : Nat) (x : PheStep) (s : State) : State :=
  let y := s.word ((t.ring x.a).tap g 0)
  let k := nominal (x.flags.testBit 0) * (g % 14400) % 14400
  let f := turnTable k
  let re := Fp.mul b64 y.1 (Fp.mul b64 sqrt2 f.1)
  let im := Fp.mul b64 y.1 (Fp.mul b64 sqrt2 f.2.neg)
  putCx ((t.ring x.b).tap g 0) (re, im) y.2 s

/-- DECIM (R142). -/
def stepDecim (t : PheSec) (g : Nat) (x : PheStep) (s : State) : State :=
  let r := filterSum t x.a x.b x.len g s
  putCx ((t.ring x.c).tap g 0) r.1 r.2 s

/-- FILT (R142, R143, R152). -/
def stepFilt (t : PheSec) (g : Nat) (x : PheStep) (s : State) : State :=
  let r := filterSum t x.a x.b x.len g s
  if x.flags.testBit 1 then
    let u := x.flags / 4
    let d := clampDelta (dec32 (s.phe.freqRegs.getD u 0))
    let k := gainAt t x.d d.1
    let fl := r.2 ||| s.phe.freqFlags.getD u 0 ||| (if d.2 then 2 else 0)
    putCx x.c (Fp.mul b64 r.1.1 k, Fp.mul b64 r.1.2 k) fl s
  else putCx x.c r.1 r.2 s

/-- The validity of a unit's frequency result changes: source 150 (R168). -/
def noteFreq (u : Nat) (bad : Bool) (s : State) : State :=
  if s.phe.freqInvalid.getD u false = bad then s
  else raise .phe 2 (modPhe (fun p => { p with freqInvalid := putAt p.freqInvalid u bad }) s)

/-- FREQ (R142, R143, R153). -/
def stepFreq (x : PheStep) (s : State) : State :=
  let m := s.cx x.a
  let z := s.cx x.b
  let p := s.cx x.c
  let fl := m.2 ||| z.2 ||| p.2
  let u := x.flags / 4
  let f0 := nominal (x.flags.testBit 0)
  let finish (freq rocof reg : Nat) (far : Bool) (s : State) : State :=
    let fl := fl ||| (if far then 2 else 0)
    let s := putBits (x.d + 1) rocof fl (putBits x.d freq fl s)
    let s := if fl.testBit 0 then s else modPhe (fun p => { p with
      freqRegs := putAt p.freqRegs u reg, freqFlags := putAt p.freqFlags u fl }) s
    noteFreq u (fl.testBit 0) s
  match cxArg m.1, cxArg z.1, cxArg p.1 with
  | some am, some az, some ap =>
    let d1 := fxWrap (ap - az)
    let d0 := fxWrap (az - am)
    let dev : Int := (d0 + d1) * 14400 * fxOne / (4 * x.len * fxPi : Nat)
    let rocof : Int := (d1 - d0) * (14400 * 14400) * fxOne / (2 * x.len * x.len * fxPi : Nat)
    let (a, s) := withFree (fun i => pickFx i ((f0 * fxOne : Nat) + dev)) s
    let (b, s) := withFree (fun i => pickFx i rocof) s
    let (c, s) := withFree (fun i => pickFx i dev) s
    finish a b c (decide (5 * fxOne < dev.natAbs)) s
  | _, _, _ =>
    let (a, s) := withFree (fun i => (Config.openWord i).toNat) s
    let (b, s) := withFree (fun i => (Config.openWord i).toNat) s
    let (c, s) := withFree (fun i => (Config.openWord i).toNat) s
    finish a b c (!((Fp.sub b64 (dec32 a) (fpInt f0)).abs.le (fpInt 5))) s

/-- SYMC (R142, R154). -/
def stepSymc (x : PheStep) (s : State) : State :=
  let a := s.cx x.a
  let b := s.cx (x.a + 2)
  let c := s.cx (x.a + 4)
  let fl := a.2 ||| b.2 ||| c.2
  let x1 := third (cadd (cadd a.1 (cmul rotA b.1)) (cmul rotA2 c.1))
  if x.flags.testBit 0 then putCx x.b x1 fl s
  else
    let x0 := third (cadd (cadd a.1 b.1) c.1)
    let x2 := third (cadd (cadd a.1 (cmul rotA2 b.1)) (cmul rotA c.1))
    putCx (x.b + 4) x2 fl (putCx (x.b + 2) x1 fl (putCx x.b x0 fl s))

/-- POWER (R142). -/
def stepPower (x : PheStep) (s : State) : State :=
  let r : Cx × Nat := (List.range x.len).foldl (fun acc k =>
    let v := s.cx (x.a + 2 * k)
    let i := s.cx (x.b + 2 * k)
    (cadd acc.1 (cmul v.1 (conj i.1)), acc.2 ||| v.2 ||| i.2)) ((fpInt 0, fpInt 0), 0)
  putCx x.c r.1 r.2 s

/-! ### The mailbox (R20, R156, R157, R158) -/

/-- The newest complete set. -/
def State.newestSet (s : State) : List (Nat × MbRec) := s.phe.banks.getD s.phe.newest []

/-- One slot of a set, replaced. -/
def setSlot (l : List (Nat × MbRec)) (x : Nat × MbRec) : List (Nat × MbRec) := (l.filter (·.1 != x.1)) ++ [x]

/-- The bank of the set that a snapshot starting now takes (R20): the newest, but for one committed in the same cycle. -/
def State.snapBank (s : State) : Nat :=
  match s.phe.before with
  | some (t, a, b) => if t = s.now ∧ a = s.aon then b else s.phe.newest
  | none => s.phe.newest

/-- A set has been committed in this very cycle. -/
def State.justCommitted (s : State) : Bool := match s.phe.before with
  | some (t, a, _) => decide (t = s.now ∧ a = s.aon)
  | none => false

/-- The bank that the writers write (R20): not the newest, and never one that a reader holds. Commits of one cycle make one set
(log entry 123, DEDUCED). -/
def State.writeBank (s : State) : Nat :=
  let b := (s.phe.newest + 1) % 3
  if s.justCommitted then s.phe.newest
  else if s.phe.locked.any (·.2 == b) then (s.phe.newest + 2) % 3 else b

/-- A set is completed by one commit in the bank that the writers hold: each slot's latest record (R20, R157). -/
def commitSet (recs : List (Nat × MbRec)) (s : State) : State :=
  let b := s.writeBank
  let set := recs.foldl setSlot s.newestSet
  modPhe (fun p => { p with banks := putAt p.banks b set, newest := b, before := some (s.now, s.aon, s.snapBank) }) s

/-- `QUAL` of a record whose value has flags, stamped `t` (R156). -/
def State.qualOf (s : State) (flags t : Nat) : Nat :=
  let st := s.servoAt t
  flags % 16 + (if st = 2 ∨ st = 3 then 0 else 0x40)

/-- MBOX (R142, R156). -/
def stepMbox (g : Nat) (x : PheStep) (s : State) : State :=
  let t := slotTime (slotBack g x.d)
  let w := s.word x.a
  let c := s.cx x.a
  let fl := if x.c = 1 ∨ x.c = 2 then c.2 else w.2
  let (v, fl, s) : Nat × Nat × State :=
    if x.c = 1 then let (v, s) := magnitude c.1 s; (v, c.2, s)
    else if x.c = 2 then let (v, s) := angleOf c.1 s; (v, c.2, s)
    else if x.c = 4 then let y := storeGet s.phe.store (x.a + 1); (y.value, y.flags, s)
    else ((storeGet s.phe.store x.a).value, fl, s)
  let r : MbRec := { value := v, qual := s.qualOf fl t, gen := s.phe.gen % 256, writer := 1, stampSec := timeSec t % 2 ^ 32, stampNs := timeNs t }
  modPhe (fun p => { p with pendMb := setSlot p.pendMb (x.b, r) }) s

/-! ### Data frames (R159 to R163) -/

/-- A 32-bit word of a frame: network byte order; an `INVALID` value is a quiet NaN (R160). -/
def frameWord (v flags : Nat) : List Byte := natBe (if flags.testBit 0 then nan32 else v) 4

/-- The word is not a number. -/
def isNan32 (w : Nat) : Bool := bitsOf w 30 23 == 255 && bitsOf w 22 0 != 0

/-- The bytes and flags of one value of a PUB step; bit 0 of the flags marks a NaN. -/
def pubValue (fmt a : Nat) (s : State) : (List Byte × Nat) × State :=
  let mark (fl : Nat) (ws : List Nat) : Nat := if ws.any isNan32 then fl ||| 1 else fl
  if fmt = 0 then
    let x := storeGet s.phe.store a
    ((frameWord x.value x.flags, mark x.flags [x.value]), s)
  else
    let c := s.cx a
    if fmt = 6 then
      let (m, s) := magnitude c.1 s
      let (n, s) := angleOf c.1 s
      ((frameWord m c.2 ++ frameWord n c.2, mark c.2 [m, n]), s)
    else
      let re := (storeGet s.phe.store a).value
      let im := (storeGet s.phe.store (a + 1)).value
      ((frameWord re c.2 ++ frameWord im c.2, mark c.2 [re, im]), s)

/-- Changes a stream's state. -/
def modStr (i : Nat) (f : StrState → StrState) (s : State) : State := modPhe (fun p => { p with streams := updAt p.streams i f }) s

/-- PUB (R142, R160). -/
def stepPub (x : PheStep) (s : State) : State :=
  let size := if x.c = 0 then 4 else 8
  (List.range x.len).foldl (fun s k =>
    let (v, s) := pubValue x.c (x.a + (if x.c = 0 then k else 2 * k)) s
    let off := x.d + size * k
    modStr x.b (fun y => { y with body := (y.body.filter (·.off != off)) ++ [{ off := off, bytes := v.1, flags := v.2 }] }) s) s

/-- The blocks of the PMUs in a stream's frame body, from its CFG-2 frame: each one's first byte and length. -/
def pmuBlocks (cfg2 : List Byte) : Nat → Nat → Nat → List (Nat × Nat)
  | 0, _, _ => []
  | n + 1, off, pos =>
    let ph := beNat (slice cfg2 (pos + 20) 2)
    let an := beNat (slice cfg2 (pos + 22) 2)
    let dg := beNat (slice cfg2 (pos + 24) 2)
    let len := 2 + 8 * ph + 8 + 4 * an + 2 * dg
    let size := 26 + 16 * (ph + an + 16 * dg) + 4 * (ph + an + dg) + 4
    (off, len) :: pmuBlocks cfg2 n (off + len) (pos + size)

/-- The PMU blocks of a stream. -/
def StreamCfg.blocks (x : StreamCfg) : List (Nat × Nat) := pmuBlocks x.cfg2 (beNat (slice x.cfg2 18 2)) 0 20

/-- The strobe count at which a pending `PHE_TABLE` swaps. -/
def State.pheSwapAt (s : State) : Option Nat :=
  if s.cfg.next.isSome && s.cfg.carried.contains 5 && !s.cfg.swapped.contains 5 && s.cfg.fixedA then some (roundUp s.bsl.swapA 8000) else none

/-- A committed delta changes this stream and has not swapped yet (R161). -/
def State.streamChanging (s : State) (i : Nat) : Bool :=
  match s.cfg.next with
  | some g => s.cfg.carried.contains 5 && !s.cfg.swapped.contains 5 && g.phe.streams.getD i {} != s.cfg.cur.phe.streams.getD i {}
  | none => false

/-- STAT of a PMU block whose values carry `fl` in all (R161). -/
def State.pmuStat (s : State) (i fl t : Nat) : Nat :=
  let st := s.servoAt t
  let away := match s.tmb.leftLocked with
    | some x => (s.aon - x) / 1000000000
    | none => 1000
  let since := if st = 2 then 0 else if st = 0 then 3 else if away < 10 then 0 else if away < 100 then 1 else if away < 1000 then 2 else 3
  let q := if st = 2 then 1 else if st = 3 then 2 else if st = 1 then 5 else 7
  bitAt (fl.testBit 0) 15 + bitAt (decide (st ≠ 2 ∧ st ≠ 3) || fl.testBit 3) 13 + bitAt (s.streamChanging i) 10
    + bitAt (fl.testBit 2) 9 + q * 64 + since * 16

/-- The CM64 status word of a PMU block (R162). -/
def State.pmuWord (s : State) (fl t : Nat) : Nat :=
  let swapSoon := match s.pheSwapAt with
    | some c => decide (c * ticksPerPeriod ≤ s.islandTime phasorIsland + 2 * ticksPerSec)
    | none => false
  bitAt (decide (s.servoAt t ≠ 2)) 4 + bitAt (fl.testBit 1) 3 + bitAt swapSoon 2 + bitAt (!s.primary) 1 + bitAt s.trd.debugBroken 0

/-- The time quality byte of a frame dated `t` (R163). -/
def State.timeQuality (s : State) (t : Nat) : Nat :=
  let st := s.servoAt t
  let q := if st = 2 then 0 else if st = 3 then 4 else if st = 1 then 7 else 0xF
  let ahead (at_ : Nat) : Bool := decide (t < at_ ∧ at_ ≤ t + 60 * ticksPerSec)
  let after (at_ : Nat) : Bool := decide (at_ ≤ t ∧ t < at_ + 86400 * ticksPerSec)
  let pend := (s.tmb.leapAdd || s.tmb.leapDel) && ahead s.tmb.leapAt
  match s.tmb.lastLeap with
  | some (at_, add) =>
    let dir := if pend then s.tmb.leapDel else !add
    bitAt (dir && (pend || ahead at_ || after at_)) 6 + bitAt (after at_) 5 + bitAt (pend || ahead at_) 4 + q
  | none => bitAt (s.tmb.leapDel && pend) 6 + bitAt pend 4 + q

/-- `SOC` of an instant (R163). -/
def State.soc (s : State) (t : Nat) : Nat := unsignedOf 32 ((timeSec t : Int) - s.taiUtcAt t)

/-- The era of an instant, which the model's own records carry beside its `SOC` (R92). -/
def State.era (s : State) (t : Nat) : Nat := ((timeSec t : Int) - s.taiUtcAt t).toNat / 2 ^ 32

/-- `FRACSEC` of grid slot index `g` dated `t` (R160, R163). -/
def State.fracsec (s : State) (timeBase g t : Nat) : Nat :=
  s.timeQuality t * 2 ^ 24 + (if timeBase = 0 then g else (g * 625 * 2 + 9) / 18)

/-- Bytes laid over a list at an offset. -/
def overlay (bs : List Byte) (off : Nat) (v : List Byte) : List Byte := bs.take off ++ v ++ bs.drop (off + v.length)

/-- A frame closed with its `CHK` (R159). -/
def withChk (bs : List Byte) : List Byte := bs ++ natBe (crcCcitt bs) 2

/-- The flags of the values that lie in a block of the body. -/
def blockFlags (body : List PubVal) (b : Nat × Nat) : Nat :=
  (body.filter fun v => decide (b.1 ≤ v.off ∧ v.off < b.1 + b.2)).foldl (fun f v => f ||| v.flags) 0

/-- A complete data frame dated at slot count `g` (R160). -/
def dataFrame (i : Nat) (x : StreamCfg) (g : Nat) (s : State) : List Byte :=
  let t := slotTime g
  let body := (s.phe.streams.getD i {}).body
  let raw := body.foldl (fun bs v => overlay bs v.off v.bytes) (List.replicate x.bodyLen 0)
  let full := (x.blocks.foldl (fun bs b =>
    let fl := blockFlags body b
    overlay (overlay bs b.1 (natBe (s.pmuStat i fl t) 2)) (b.1 + b.2 - 2) (natBe (s.pmuWord fl t) 2)) raw)
  withChk (natBe 0xAA02 2 ++ natBe (x.bodyLen + 16) 2 ++ natBe x.idcode 2 ++ natBe (s.soc t) 4
    ++ natBe (s.fracsec x.timeBase (g % 14400) t) 4 ++ full)

/-- A stream publishes now: `ROLE` 0 only while the module is primary (R165), never while the PHE is fenced (R167). -/
def State.publishes (s : State) (x : StreamCfg) : Bool :=
  !s.phe.fenced && (x.role == 1 || s.primary) && decide (s.gen.phase = 7)

/-- The host ports and connections that a stream's data frame dated `t` goes to: each TCP connection that is on, and UDP
where it is on, from the next reporting instant after the command on (R164). -/
def streamDests (x : StreamCfg) (y : StrState) (t : Nat) : List (Nat × Option Nat) :=
  (if (x.mode = 1 ∨ x.mode = 2) ∧ y.udpOn ∧ y.udpSince ≤ t then ((List.range 2).filter x.host.testBit).map fun h => (h, none) else [])
    ++ (if x.mode = 2 then [] else (y.conns.filter fun k => k.on && decide (k.since ≤ t)).map fun k => (k.host, some k.conn))

/-- COMMIT of a data frame (R142, R160, R165): queued for each destination; each PMU block with a NaN counts. -/
def commitFrame (i g : Nat) (s : State) : State :=
  match s.pheSec.streams[i]? with
  | none => s
  | some x =>
    let y := s.phe.streams.getD i {}
    let bad := ((x.blocks.zip x.units).filter fun p => (blockFlags y.body p.1).testBit 0).map (·.2)
    let s := bad.foldl (fun s u => modPhe (fun p => { p with unitInvalid := updAt p.unitInvalid u tallyInc }) s) s
    if s.publishes x then
      let bytes := dataFrame i x g s
      modPhe (fun p => { p with queue := p.queue ++ (streamDests x y (slotTime g)).map fun h =>
        { dest := h.2, era := s.era (slotTime g), stream := i, host := h.1, due := s.islandTime phasorIsland, bytes := bytes } }) s
    else s

/-- COMMIT (R142, R157). -/
def stepCommit (g : Nat) (x : PheStep) (s : State) : State :=
  if x.b = 0 then modPhe (fun p => { p with pendMb := [] }) (commitSet s.phe.pendMb s)
  else commitFrame x.c (slotBack g x.d) s

/-- A step's cost in cycles (R144). -/
def PheStep.cost (x : PheStep) : Nat :=
  match x.op with
  | 2 => 4
  | 3 => 4 + (2 * x.len + 15) / 16
  | 4 => 6 + (2 * x.len + 15) / 16
  | 5 => 24
  | 6 => 12
  | 7 => 8 + 2 * x.len
  | 9 => 2 + x.len
  | _ => 2

/-- One step (R142). -/
def runStep (t : PheSec) (vals : List (Int × Nat)) (g : Nat) (x : PheStep) (s : State) : State :=
  match x.op with
  | 1 => stepFetch t vals g x s
  | 2 => stepDemod t g x s
  | 3 => stepDecim t g x s
  | 4 => stepFilt t g x s
  | 5 => stepFreq x s
  | 6 => stepSymc x s
  | 7 => stepPower x s
  | 8 => stepMbox g x s
  | 9 => stepPub x s
  | 10 => stepCommit g x s
  | _ => s

/-- The engine processes a slot: every step whose `MOD` and `PHASE` select it, in ascending index (R141); one grid slot is
charged to stall slot 16 (R239). -/
def pheRun (vals : List (Int × Nat)) (g : Nat) (s : State) : State :=
  let t := s.pheSec
  let steps := t.steps.filter fun x => g % 14400 % x.mod == x.phase
  let cost := (steps.map (·.cost)).sum
  let s := chargeSlot 16 1 s
  let s := steps.foldl (fun s x => runStep t vals g x s) s
  modPhe (fun p => { p with slot := g, cycles := max p.cycles cost }) s

/-- An emitted slot reaches the engine; one that its exhausted stall may not start waits for the next strobe (R25). -/
def pheSlot (vals : List (Int × Nat)) (g : Nat) (s : State) : State :=
  if !s.phe.running || s.phe.fenced then s
  else if s.slotOpen 16 && s.phe.held.isEmpty then pheRun vals g s
  else modPhe (fun p => { p with held := p.held ++ [(g, vals)] }) s



/-- The store at its start value: 0 with `INVALID` (R138, R167). -/
def clearStore (s : State) : State := modPhe (fun p => { p with store := [] }) s

/-- The streams whose connections a swap closes: those that go, or take another `IDCODE` (log entry 114, DESIGN CHOICE). -/
def State.closesConns (s : State) (g : Generation) (i : Nat) : Bool :=
  !(s.phe.streams.getD i {}).conns.isEmpty &&
    (decide (g.phe.streams.length ≤ i) || (s.pheSec.streams.getD i {}).idcode != (g.phe.streams.getD i {}).idcode)

/-- The engine takes its next slot as soon as it comes: none waits for its stall (R25). A fenced engine takes none, and what it
holds is frozen (R23). -/
def State.pheIdle (s : State) : Bool := s.phe.fenced || !s.phe.running || (s.phe.held.isEmpty && s.slotOpen 16)

/-- The timetable swaps (R150): words outside kept units are cleared, source 148, record 0x0401; connections that close with
their stream assert source 149 (R168). -/
def pheSwap (g : Generation) (s : State) : State :=
  let s := when ((List.range 64).any (s.closesConns g)) (raise .phe 1) s
  let kept := (g.phe.units.filter (·.keep)).map fun u => (u.storeFirst, u.storeWords)
  let inKept (a : Nat) : Bool := kept.any fun k => decide (k.1 ≤ a ∧ a < k.1 + k.2)
  let keepU (i : Nat) : Bool := (g.phe.units.getD i {}).keep && decide (i < g.phe.units.length)
  let old := s.pheSec
  let s := modPhe (fun p => { p with
    store := p.store.filter fun x => inKept x.addr
    freqRegs := (List.range 64).map fun i => if keepU i then p.freqRegs.getD i 0 else 0
    freqFlags := (List.range 64).map fun i => if keepU i then p.freqFlags.getD i 0 else 0
    freqInvalid := (List.range 64).map fun i => keepU i && p.freqInvalid.getD i false
    gen := g.gen, running := g.unitUse.testBit 0 && s.present 0
    streams := (List.range 64).map fun i =>
      let y := p.streams.getD i {}
      let x := g.phe.streams.getD i {}
      if i < g.phe.streams.length then
        if old.streams[i]? = some x then y
        else { y with body := [], udpOn := x.start = 1, udpSince := 0, conns := if s.closesConns g i then [] else y.conns }
      else { y with body := [], udpOn := false, conns := [] } }) s
  ledger 0x0401 0xFFFF [g.gen] (raise .phe 0 s)

/-! ### What the SEQ reads (R158, R187) -/

/-- Frames per second of a rate code (R148). -/
def rateOf (c : Nat) : Nat := [10, 12, 15, 20, 25, 30, 50, 60, 100, 120, 200, 240].getD c 10

/-- The staleness limit of a slot, in ticks: 2/F + `WINDOW` + 2 ms for the unit whose store range the slot's MBOX step
reads; none where no unit owns it (R158). -/
def State.staleLimit (s : State) (slot : Nat) : Option Nat :=
  match s.pheSec.steps.find? (fun x => x.op == 8 && x.b == slot) with
  | none => none
  | some x =>
    (s.pheSec.units.find? fun u => decide (u.storeFirst ≤ x.a ∧ x.a < u.storeFirst + u.storeWords)).map fun u =>
      2 * ticksPerSec / rateOf u.rate + usTicks u.window + msTicks 2

/-- A mailbox slot as a snapshot that starts now finds it: `STALE` (bit 4) and `FENCED` (bit 5) set by the SEQ. -/
def State.snapshotSlot (s : State) (slot : Nat) : MbRec :=
  let r := (((s.phe.banks.getD s.snapBank []).find? (·.1 == slot)).map (·.2)).getD {}
  let stamp := mkTime r.stampSec r.stampNs 0
  let age := s.islandTime marketIsland % (2 ^ 32 * ticksPerSec)
  let old := match s.staleLimit slot with
    | some l => decide (stamp + l < age)
    | none => false
  let stale :=
    if slot < 7168 then r.writer == 0 || r.gen != s.phe.gen % 256 || old
    else r.writer == 0 || r.gen != s.wce.gen % 256
  let fenced := if slot < 7168 then s.phe.fenced else s.wce.fenced
  { r with qual := r.qual % 16 + (if r.qual.testBit 6 then 0x40 else 0) + bitAt stale 4 + bitAt fenced 5 }

/-- A control-class error of the mailbox (R115, R158): all three banks empty; the WCE recommits within 1 ms (R187). -/
def mailboxReset (s : State) : State :=
  modPhe (fun p => { p with banks := [[], [], []], newest := 0, pendMb := [], before := none })
    { s with wce := { s.wce with recommitBy := some (s.aon + aonMs 1) } }

end Sys2Proof.Machine
end

