-- ==== Sys2Proof/Machine/SviOps.lean ====
section
/-! DEFINITION. The sampled-value intake, alignment, and the archive writer (chapter 5). -/

namespace Sys2Proof.Machine

open Sys2Proof

/-- Changes the intake's state. -/
def modSvi (f : SviState → SviState) (s : State) : State := { s with svi := f s.svi }

/-- `SV_SUBS` in force. -/
def State.svSec (s : State) : SvSec := (s.sect 4).sv

/-- Samples per second of a rate code (R118). -/
def svRate (c : Nat) : Nat := [4000, 4800, 12800, 14400].getD c 14400

/-! ### Frames and samples (R117, R120 to R122, R126) -/

/-- A sample's second and age: `S`, and `d` in ticks times the rate (R120). -/
def sampleSecond (arrival : Int) (rate cnt : Nat) : Int × Int :=
  let unit : Int := (rate * ticksPerSec : Nat)
  let x : Int := arrival * rate - (cnt * ticksPerSec : Nat)
  let s := (x * 2 + unit) / (2 * unit)
  (s, x - s * unit)

/-- The flags that a stream's SmpSynch gives: bit 0 `INVALID`, 3 `UNSYNC` (R126). -/
def synchFlags (c : SubCfg) (y : Nat) : Nat :=
  if y = 2 then 0
  else if y = 0 ∨ y = 3 ∨ y = 4 ∨ y = 255 then 9
  else if c.localOk then 0 else 8

/-- The flags of a source sample's 32-bit quality: validity bits 0 and 1, detailQual 2 to 9, substituted 10, test 11,
operatorBlocked 12 (R126; the bit places are those of IEC 61850, log entry 20, PRESUMED). -/
def qualityFlags (c : SubCfg) (q : Nat) : Nat :=
  let v := q % 4
  let inv := v == 1 || v == 2 || (q.testBit 11 && !c.testAccept) || q.testBit 12
  let quest := v == 3 || bitsOf q 9 2 != 0 || q.testBit 10 || (q.testBit 11 && c.testAccept)
  bitAt inv 0 + bitAt quest 1

/-- The largest magnitude of a count (R126). -/
def countMax : Int := 134217727

/-- A channel's value and flags as the intake takes them (R126). -/
def takeChannel (c : SubCfg) (synch : Nat) (x : Int × Nat) : Int × Nat :=
  let fl := qualityFlags c x.2 ||| synchFlags c synch
  if countMax < x.1 ∨ x.1 < -countMax then (clampInt (-countMax) countMax x.1, fl ||| 2) else (x.1, fl)

/-- The sample's instant is not after the last emitted slot's (R124). -/
def lateSample (idx rate : Nat) (last : Option Nat) : Bool := match last with
  | some g => decide (idx * 14400 ≤ g * rate)
  | none => false

/-- The index of an ASDU's sample: its second times the rate, and its count (R120). -/
def SubCfg.index (c : SubCfg) (arrival : Int) (a : Asdu) : Nat :=
  ((sampleSecond arrival (svRate c.rate) a.smpCnt).1 * svRate c.rate + a.smpCnt).toNat

/-- An ASDU's sample has its place: its age lies within the bounds, its index is not held yet, and its instant is neither before
the subscription begins nor already emitted (R120, R121, R124, R127). -/
def SubState.fits (x : SubState) (c : SubCfg) (arrival : Int) (last : Option Nat) (a : Asdu) : Bool :=
  let rate := svRate c.rate
  let d := (sampleSecond arrival rate a.smpCnt).2
  let idx := c.index arrival a
  decide (-((usTicks 10 * rate : Nat) : Int) ≤ d ∧ d ≤ (nsTicks c.maxDelay * rate : Nat) ∧ 0 ≤ (sampleSecond arrival rate a.smpCnt).1 ∧ a.smpCnt < rate)
    && !(x.rows.any (·.idx == idx)) && !lateSample idx rate last && decide (x.notBefore * rate ≤ idx * ticksPerSec)

/-- One ASDU: its sample is held, or discarded and counted (R120, R121, R124, R127). -/
def takeAsdu (c : SubCfg) (arrival : Int) (last : Option Nat) (synch now : Nat) (a : Asdu) (x : SubState) : SubState × Bool :=
  if x.fits c arrival last a then ({ x with rows := x.rows ++ [{ idx := c.index arrival a, chans := a.values.map (takeChannel c synch) }], lastAccept := now }, true)
  else ({ x with discard := tallyInc x.discard }, false)

/-- The frame is of the subscription: logical port, APPID, svID (R117). -/
def SubCfg.matches (c : SubCfg) (port : Nat) (f : SvFrame) : Bool :=
  let trim (l : List Byte) : List Byte := (l.reverse.dropWhile (· == 0#8)).reverse
  c.port == port && c.appid == f.appid && trim c.svId == trim f.svId

/-- The frame has what the subscription expects (R122). -/
def SubCfg.agrees (c : SubCfg) (f : SvFrame) : Bool :=
  c.confRev == f.confRev && f.asdus.length == c.noAsdu && f.asdus.all (fun a => a.values.length == c.chCount)
    && (match f.rate with
      | some r => r == svRate c.rate
      | none => true)

/-- One frame reaches its subscription; it is accepted where at least one of its samples is (R126; log entry 99, DESIGN
CHOICE). -/
def takeFrame (c : SubCfg) (f : SvFrame) (arrival : Int) (last : Option Nat) (now : Nat) (x : SubState) : SubState :=
  if !c.agrees f then { x with state := 3, mismatch := tallyInc x.mismatch }
  else
    let r := f.asdus.foldl (fun (acc : SubState × Bool) a =>
      let y := takeAsdu c arrival last f.smpSynch now a acc.1
      (y.1, acc.2 || y.2)) (x, false)
    let y := r.1
    if r.2 then { y with state := 1, frames := tallyInc y.frames, synch := f.smpSynch }
    else if y.state = 3 then { y with state := 1 } else y



/-- A station port takes frames: it runs and its cage is not fenced. -/
def State.portTakes (s : State) (p : Nat) : Bool := (s.cfg.cur.ports.ports.getD p {}).mode != 0 && !(s.port p).fenced && !(s.port p).highPower

/-- How long the duplicate discard of IEC 62439-3 remembers a frame: 400 ms (log entry 25, PRESUMED). -/
def rctForget : Nat := aonMs 400

/-- The duplicate discard of a PRP pair (R96): a frame whose redundancy trailer has come on the other lane is a duplicate;
any other is remembered. -/
def duplicate (p : Nat) (rct : Option Rct) (s : State) : Bool × State :=
  match rct with
  | none => (false, s)
  | some r =>
    if !s.isPrp p then (false, s)
    else
      let lp := s.logical p
      let l := (s.port lp).rctSeen.filter fun x => decide (s.aon < x.at_ + rctForget)
      if l.any (fun x => x.rct == r && x.lane != p) then (true, s)
      else (false, modPort lp (fun y => { y with rctSeen := l ++ [{ rct := r, lane := p, at_ := s.aon }] }) s)

/-! ### Alignment (R123 to R125) -/

/-- A held source sample of a channel; none is missing (R125). -/
def SubState.raw (x : SubState) (i k : Nat) : Option (Int × Nat) :=
  if x.state = 1 then (x.rows.find? (·.idx == i)).map fun r => r.chans.getD k (0, 1) else none

/-- A source sample after gap filling: a fraction with its flags; `filled` is 0 for a held sample, 1 for a replaced one,
2 for an unfilled one. -/
structure Source where
  num : Int := 0
  den : Nat := 1
  flags : Nat := 1
  filled : Nat := 2

/-- The four-point value through held neighbours, with its weights and their common divisor. -/
def lagrange (x : SubState) (k : Nat) (den : Nat) (pts : List (Nat × Int)) : Source :=
  let ys := pts.map fun p => (x.raw p.1 k, p.2)
  if ys.all (·.1.isSome) then
    { num := (ys.map fun y => ((y.1.getD (0, 0)).1) * y.2).sum
      den := den
      flags := ys.foldl (fun f y => f ||| (y.1.getD (0, 0)).2) 4
      filled := 1 }
  else {}

/-- Source sample `i` of a channel (R125). -/
def SubState.source (x : SubState) (i k : Nat) : Source :=
  match x.raw i k with
  | some v => { num := v.1, den := 1, flags := v.2, filled := 0 }
  | none =>
    if i < 3 then {}
    else if (x.raw (i - 1) k).isSome ∧ (x.raw (i + 1) k).isSome then
      lagrange x k 6 [(i - 2, -1), (i - 1, 4), (i + 1, 4), (i + 2, -1)]
    else if (x.raw (i - 1) k).isSome then
      lagrange x k 10 [(i - 2, -3), (i - 1, 10), (i + 2, 5), (i + 3, -2)]
    else if (x.raw (i + 1) k).isSome then
      lagrange x k 10 [(i - 3, -2), (i - 2, 5), (i + 1, 10), (i + 2, -3)]
    else {}

/-- A fraction as an aligned count: one of its two integer neighbours, which one is open (log entry 21, DESIGN CHOICE). -/
def roundCount (num : Int) (den : Nat) : Int :=
  clampInt (-countMax) countMax (num / den + (if num % den ≠ 0 ∧ Config.countUp num den then 1 else 0))

/-- The numerator, over 30 × 2³⁰, of what the FIR of a rate forms of 8 source samples at a phase; gap filling divides by 1,
6 or 10 (R123, R125). -/
def firSum (rate phase : Nat) (src : List Source) : Int :=
  (src.mapIdx fun j v => Config.firCoef rate phase j * v.num * (30 / v.den : Nat)).sum

/-- One aligned channel of slot `g` (R123, R125): at 14,400 samples/s the sample itself, else what the FIR forms of
the 8 nearest samples; the phase is where the slot lies between two source samples. -/
def alignChannel (c : SubCfg) (x : SubState) (k g : Nat) : Int × Nat :=
  if c.rate = 3 then
    let v := x.source g k
    (roundCount v.num v.den, v.flags)
  else
    let i0 := g * svRate c.rate / 14400
    let src := (List.range 8).map fun j => x.source (i0 + j - 3) k
    (roundCount (firSum c.rate (g * svRate c.rate % 14400) src) (30 * 2 ^ 30), src.foldl (fun f v => f ||| v.flags) 0)

/-- Every aligned channel of a slot, in channel order. -/
def alignAll (sec : SvSec) (subs : List SubState) (g : Nat) : List (Int × Nat) :=
  (List.range sec.channels).map fun ch =>
    match sec.subs.findIdx? (fun c => decide (c.firstChannel ≤ ch ∧ ch < c.firstChannel + c.chCount)) with
    | some i =>
      let c := sec.subs.getD i {}
      alignChannel c (subs.getD i {}) (ch - c.firstChannel) g
    | none => (0, 1)

/-- The source samples up to slot `g` judged: filled and unfilled ones counted, each once; rows no longer needed are
let go. -/
def judgeSamples (c : SubCfg) (g : Nat) (x : SubState) : SubState :=
  let i1 := g * svRate c.rate / 14400
  let i0 := if x.counted = 0 ∨ i1 < x.counted then i1 - 1 else x.counted
  let src := (List.range (min (i1 - i0) 16)).map fun j => x.source (i0 + 1 + j) 0
  { x with
    counted := i1
    interp := tallyAdd x.interp (src.filter (·.filled == 1)).length
    missing := tallyAdd x.missing (src.filter (·.filled == 2)).length
    rows := x.rows.filter fun r => decide (i1 ≤ r.idx + 16) }

/-! ### The archive (R128 to R130) -/

/-- A segment as held. -/
def State.seg (s : State) (i : Nat) : SegState := s.svi.segs.getD i {}

/-- Changes a segment. -/
def modSeg (i : Nat) (f : SegState → SegState) (s : State) : State := modSvi (fun v => { v with segs := updAt v.segs i f }) s

/-- Rows that a segment takes at a row width. -/
def segRows (channels : Nat) : Nat := 67108864 / (4 * channels)

/-- Segments frozen. -/
def State.frozenSegs (s : State) : Nat := (s.svi.segs.filter (·.state == 3)).length

/-- A window's slots meet the segment's rows. -/
def winMeets (w : WinState) (g : SegState) : Bool :=
  decide (0 < g.rows ∧ g.firstSlot ≤ w.last ∧ w.first < g.firstSlot + g.rows)

/-- Changes a window. -/
def modWin (i : Nat) (f : WinState → WinState) (s : State) : State := modSvi (fun v => { v with wins := updAt v.wins i f }) s

/-- A window becomes FROZEN: source 145. -/
def winDone (i : Nat) (clip : Bool) (s : State) : State :=
  raise .svi 1 (modWin i (fun w => { w with state := 2, clipped := w.clipped || clip }) s)

/-- Segment `g` is frozen for window `i`, or, past half of the archive, the window ends here, clipped (R132). -/
def freezeFor (i g : Nat) (s : State) : State :=
  let x := s.seg g
  if x.state = 3 then modSeg g (fun y => { y with windows := y.windows ||| 2 ^ i }) s
  else if s.svSec.archSegments < 2 * (s.frozenSegs + 1) then winDone i true s
  else modSeg g (fun y => { y with state := 3, windows := y.windows ||| 2 ^ i }) s

/-- The pending windows that meet a segment just closed freeze it; one whose last slot lies in it is FROZEN. -/
def windowsAtClose (g : Nat) (s : State) : State :=
  (List.range 4).foldl (fun s i =>
    let w := s.svi.wins.getD i {}
    if w.state = 1 && winMeets w (s.seg g) then
      let s := freezeFor i g s
      let w := s.svi.wins.getD i {}
      if w.state = 1 ∧ w.last < (s.seg g).firstSlot + (s.seg g).rows then winDone i false s else s
    else s) s

/-- The writer closes its segment (R129): a held half-word is written with zeros. -/
def closeSegment (s : State) : State :=
  match s.svi.writing with
  | none => s
  | some g =>
    let x := s.seg g
    let s :=
      if s.svi.half.isEmpty then s
      else
        let a := (s.svSec.archFirst + g) * 0x4000000 + 4 * x.channels * (x.rows + 1) - 4
        let s := unitWrite 6 a (s.svi.half ++ List.replicate 4 0) s
        modSeg g (fun y => { y with rows := y.rows + 1 }) (modSvi (fun v => { v with archSlot := x.firstSlot + x.rows }) s)
    let s := modSeg g (fun y => { y with state := if y.state = 3 then 3 else 2 }) (modSvi (fun v => { v with half := [], writing := none, lastSeg := g }) s)
    windowsAtClose g s

/-- The next segment in ring order that is not frozen. -/
def State.nextSegment (s : State) : Option Nat :=
  let n := s.svSec.archSegments
  let order := (List.range n).map fun k => (s.svi.lastSeg + 1 + k) % n
  order.find? fun g => (s.seg g).state != 3

/-- The writer opens the next segment for a first slot (R129); pending windows that end before it are FROZEN. -/
def openSegment (slot gen channels : Nat) (s : State) : State :=
  match s.nextSegment with
  | none => s
  | some g =>
    let s := modSeg g (fun _ => { firstSlot := slot, rows := 0, gen := gen, channels := channels, state := 1, windows := 0 })
      (modSvi (fun v => { v with writing := some g, half := [] }) s)
    (List.range 4).foldl (fun s i =>
      let w := s.svi.wins.getD i {}
      if w.state = 1 ∧ w.last < slot then winDone i false s else s) s

/-- The archive word of an aligned sample (R128). -/
def archWord (v : Int × Nat) : Nat :=
  unsignedOf 28 v.1 * 16 + bitAt (v.2.testBit 3) 3 + bitAt (v.2.testBit 1) 2 + bitAt (v.2.testBit 2) 1 + bitAt (v.2.testBit 0) 0

/-- A writer whose stall is withheld or exhausted closes its segment (R129); a fenced one stays as it is (R23). -/
def archiveStop (s : State) : State :=
  if !s.svi.fenced && s.svi.writing.isSome && !s.slotOpen 21 then modSvi (fun v => { v with stopped := true }) (closeSegment s) else s

/-- One row written into the open segment in whole words (R129). -/
def writeRow (g : Nat) (vals : List (Int × Nat)) (slot : Nat) (s : State) : State :=
  let x := s.seg g
  let held := s.svi.half
  let issued := x.rows + (if held.isEmpty then 0 else 1)
  let bytes := held ++ vals.flatMap fun v => natLe (archWord v) 4
  let n := bytes.length / 8 * 8
  let a := (s.svSec.archFirst + g) * 0x4000000 + 4 * x.channels * issued - held.length
  let s := chargeSlot 21 n (unitWrite 6 a (bytes.take n) s)
  let rest := bytes.drop n
  let s := modSeg g (fun y => { y with rows := if rest.isEmpty then issued + 1 else issued })
    (modSvi (fun v => { v with half := rest, archSlot := if rest.isEmpty then slot else v.archSlot }) s)
  if segRows x.channels ≤ issued + 1 then closeSegment s else archiveStop s

/-- A segment's rows are always consecutive slots: the writer closes it where slots are missing (R129). -/
def closeIfGap (slot : Nat) (s : State) : State :=
  match s.svi.writing with
  | some g => if (s.seg g).firstSlot + (s.seg g).rows + (if s.svi.half.isEmpty then 0 else 1) = slot then s else closeSegment s
  | none => s

/-- The archive writer takes an emitted slot, or skips it while its stall is stopped (R129). -/
def archiveRow (gen channels : Nat) (vals : List (Int × Nat)) (slot : Nat) (s : State) : State :=
  if channels = 0 ∨ s.svSec.archSegments = 0 then s
  else if !s.slotOpen 21 then
    modSvi (fun v => { v with stopped := true, skipped := tallyInc v.skipped }) (closeSegment s)
  else
    let s := closeIfGap slot (modSvi (fun v => { v with stopped := false }) s)
    let s := if s.svi.writing.isNone then openSegment slot gen channels s else s
    match s.svi.writing with
    | some g => writeRow g vals slot s
    | none => modSvi (fun v => { v with skipped := tallyInc v.skipped }) s

/-! ### Freezing (R131 to R133) -/

/-- The oldest archived row's slot; the next slot to come where nothing is archived. -/
def State.oldestRow (s : State) : Nat :=
  let l := (s.svi.segs.filter fun g => decide (0 < g.rows)).map (·.firstSlot)
  match l with
  | [] => s.svi.lastSlot.getD (s.islandTime phasorIsland * 14400 / ticksPerSec) + 1
  | a :: t => t.foldl min a

/-- ⌈a / b⌉ for a slot index. -/
def ceilDiv (a b : Nat) : Nat := (a + (b - 1)) / b

/-- A freeze's window in slots: T, PRE and POST (R131). -/
def freezeSlots (t pre post : Nat) : Nat × Nat :=
  (ceilDiv ((t - msTicks pre) * 14400) ticksPerSec, (t + msTicks post) * 14400 / ticksPerSec)

/-- Segments by the slot of their first row. -/
def State.insertSeg (s : State) (g : Nat) : List Nat → List Nat
  | [] => [g]
  | h :: t => if (s.seg g).firstSlot < (s.seg h).firstSlot then g :: h :: t else h :: s.insertSeg g t

/-- An accepted window freezes every segment that holds rows of it, the one being written among them, oldest first; it is
FROZEN where its last slot's segment has closed (R132). -/
def assignWindow (i first last : Nat) (host clip : Bool) (s : State) : State :=
  let s := modWin i (fun _ => { state := 1, host := host, clipped := clip, first := first, last := last }) s
  let done := (List.range 192).filter fun g => (s.seg g).state != 0 && winMeets (s.svi.wins.getD i {}) (s.seg g)
  let s := (done.foldr s.insertSeg []).foldl (fun s g => if (s.svi.wins.getD i {}).state = 1 then freezeFor i g s else s) s
  let past := match s.svi.writing with
    | some g => decide (last < (s.seg g).firstSlot)
    | none => decide (last ≤ s.svi.archSlot ∧ 0 < s.svi.archSlot)
  if (s.svi.wins.getD i {}).state = 1 && past then winDone i false s else s

/-- The time T of a freeze request: now where it is zero (R131). -/
def State.freezeTime (s : State) (tSec tNs tFrac : Nat) : Nat :=
  if tSec = 0 ∧ tNs = 0 ∧ tFrac = 0 then s.islandTime phasorIsland else mkTime tSec tNs tFrac

/-- The segments that would be frozen with a window of slots `start` to `last`: those of it that no window holds come on top
(R131). -/
def State.frozenWith (s : State) (start last : Nat) : Nat :=
  let shared := (s.svi.segs.filter fun g => g.state == 3 && winMeets { first := start, last := last } g).length
  s.frozenSegs + (ceilDiv (last + 1 - start) (segRows s.svSec.channels) + 1) - shared

/-- A freeze request (R131): its code and window. The order in which the codes are tried is the model's (log entry 22, DESIGN CHOICE). -/
def freezeRequest (host : Bool) (tSec tNs tFrac pre post : Nat) (s : State) : (Nat × Nat) × State :=
  let sec := s.svSec
  let now := s.islandTime phasorIsland
  let t := s.freezeTime tSec tNs tFrac
  let (first, last) := freezeSlots t pre post
  let old := s.oldestRow
  let start := max first old
  let fail (c : Nat) (s : State) : (Nat × Nat) × State := ((c, 0), ledger 0x0301 0xFFFF [0, c] (raise .svi 2 s))
  if 1000000000 ≤ tNs ∨ 60000 < pre ∨ 60000 < post ∨ sec.archSegments = 0 ∨ sec.channels = 0 then fail 6 s
  else if now + 60 * ticksPerSec < t then fail 5 s
  else if last < old then fail 4 s
  else match s.svi.wins.findIdx? (·.state == 0) with
    | none => fail 2 s
    | some i =>
      if sec.archSegments < 2 * s.frozenWith start last then fail 3 s
      else
        let clip := decide (first < old)
        let c := if clip then 1 else 0
        let s := assignWindow i start last host clip s
        let s := when clip (raise .svi 2) s
        ((c, i), ledger 0x0301 0xFFFF [i, c] s)

/-- A window is released (R133): its segments that no other window holds become live, or in writing again. -/
def releaseWindow (i : Nat) (s : State) : State :=
  let s := modWin i (fun _ => {}) s
  modSvi (fun v => { v with segs := v.segs.mapIdx fun k g =>
    if g.state = 3 ∧ g.windows.testBit i then
      let m := g.windows - 2 ^ i
      { g with windows := m, state := if m ≠ 0 then 3 else if v.writing = some k then 1 else 2 }
    else g }) s

/-! ### Emission and the swap (R124, R127) -/

/-- The latest slot that has been due by now, the slots of the old second by the old latency (R124, R127). -/
def State.dueSlot (s : State) : Nat :=
  let by' (lat : Nat) : Nat := (s.islandTime phasorIsland - nsTicks lat) * 14400 / ticksPerSec
  if s.svi.oldSubs.isSome && decide (by' s.svSec.alignLatency < s.svi.boundary) then min (by' s.svi.oldSec.alignLatency) (s.svi.boundary - 1)
  else by' s.svSec.alignLatency

/-- The slot to be emitted next: the one after the last, or, where the grid starts anew, the next that falls due. -/
def State.nextSlot (s : State) : Nat :=
  match s.svi.lastSlot with
  | some g => g + 1
  | none => ceilDiv ((s.islandTime phasorIsland - nsTicks s.svSec.alignLatency) * 14400) ticksPerSec

/-- The new subscriptions at a swap: an entry unchanged but for `FIRST_CHANNEL` keeps its state (R127). -/
def swapSubs (old new : SvSec) (subs : List SubState) (boundary : Nat) : List SubState :=
  new.subs.map fun c =>
    match old.subs.findIdx? (fun o => { o with firstChannel := 0 } == { c with firstChannel := 0 }) with
    | some i => subs.getD i {}
    | none => { notBefore := boundary }

/-- `SV_SUBS` swaps at the TAI second `sec`: the slots of the old second that are still to come run under the old
section (R127); the archive's segment closes (R129). -/
def sviSwap (old new : Generation) (sec : Nat) (s : State) : State :=
  let subs := s.svi.subs
  modSvi (fun v => { v with
    boundary := sec * 14400, oldSubs := some subs, oldSec := old.sv, oldGen := old.gen
    subs := swapSubs old.sv new.sv subs (sec * ticksPerSec) }) s

end Sys2Proof.Machine
end

