-- ==== Sys2Proof/Machine/SwapOps.lean ====
section
/-! DEFINITION. The swaps of a committed delta (R56): which are due, which are done, and what the last one brings
about. -/

namespace Sys2Proof.Machine

open Sys2Proof

/-- The section types of the task-tables swap point. -/
def taskTables : List Nat := [2, 3, 7, 8, 9, 10]



/-- The activation period A is fixed and its strobe has come. -/
def State.pastA (s : State) : Bool := s.cfg.next.isSome && s.cfg.fixedA && decide (s.bsl.swapA ≤ s.pcount)

/-- The mailbox mapping of a generation: the slot that each mailbox point reads. -/
def Generation.mailboxMap (g : Generation) : List (Nat × Nat) := (g.points.filter (·.kind == 2)).map fun p => (p.tag, p.source)

/-- The mailbox mapping swaps with this delta (R57): it carries `PHE_TABLE`, or `POINTS` with another mapping. -/
def State.mapsSwap (s : State) : Bool :=
  s.cfg.carried.contains 5 || (s.cfg.carried.contains 3 && match s.cfg.next with
    | some g => g.mailboxMap != s.cfg.cur.mailboxMap
    | none => false)

/-- A swap is done already. -/
def State.isSwapped (s : State) (ty : Nat) : Bool := s.cfg.swapped.contains ty

/-- Task `t` of the new generation has swapped; one that only the old generation has ends at A. -/
def State.taskDone (s : State) (g : Generation) (t : Nat) : Bool :=
  if g.tasks.any (·.task == t) then (s.task t).swapped else s.pastA

/-- Every task has swapped. -/
def State.tasksDone (s : State) (g : Generation) : Bool :=
  !(s.cfg.carried.any taskTables.contains) || (List.range 16).all (s.taskDone g)

/-- Every swap of the delta has taken place. -/
def State.swapsDone (s : State) (g : Generation) : Bool :=
  s.pastA && s.tasksDone g && (!s.mapsSwap || s.isSwapped mappingSwap)
    && s.cfg.carried.all fun ty => taskTables.contains ty || s.isSwapped ty

/-- A section's swap has taken place. -/
def markSwapped (ty : Nat) (s : State) : State :=
  if s.isSwapped ty then s else { s with cfg := { s.cfg with swapped := ty :: s.cfg.swapped } }



/-- After the last swap (R56, R59, R63): the new generation is in force as a whole, `SWAP_PENDING` clears with source
158, and a retained round starts at once, from which the schedule of rounds counts on. -/
def finishSwaps (s : State) : State :=
  match s.cfg.next with
  | none => s
  | some g =>
    if s.swapsDone g then
      let s := { s with
        cfg := { s.cfg with cur := { g with insts := { g.insts with carries := [] } }, next := none, carried := [], swapped := [], fixedA := false, stream := s.cfg.merged, merged := [] }
        bsl := { s.bsl with swapPending := false }
        seq := { s.seq with
          retNow := true
          retBase := s.pcount
          tasks := s.seq.tasks.mapIdx fun t x => { x with
            swapped := false
            gen := g.gen
            banks := x.banks.map fun b => if b.tgen = x.gen then { b with tgen := g.gen } else b
            buf := let own := ((g.images.descs.getD t {}).outList.map fun i => (g.points.getD i {}).tag)
                   x.buf.filter fun p => own.contains p.1 } } }
      raise .bsl 1 s
    else s

/-- The period count of the first TAI second boundary at or after A. -/
def State.boundaryCount (s : State) : Nat := roundUp s.bsl.swapA 8000

/-- The strobe that the schedule of retained rounds counts on from (R63). -/
def retainFrom (strobe : Nat) (s : State) : State := { s with seq := { s.seq with retBase := strobe } }

end Sys2Proof.Machine
end

