-- ==== Sys2Proof/Machine/Tmb.lean ====
section
/-! DEFINITION. The commands of the time base: samples, sources, trims, PTP messages, pulse generators (chapter 3). -/

namespace Sys2Proof.Machine

open Sys2Proof

/-! ### Samples -/

/-- A PTP frame on a port without the role it needs is dropped and counted (R81). -/
def ptpDrop (p : Nat) (s : State) : State :=
  if p < 64 then modPort p (fun x => { x with ptpDiscard := tallyInc x.ptpDiscard }) s
  else { s with hif := { s.hif with discard := updAt s.hif.discard (p - 64) tallyInc } }

/-- The port is the selected PTP slave port. -/
def State.selectedPort (s : State) (p : Nat) : Bool := s.tmb.usedKind == 1 && s.tmb.usedPort == p

/-- A received PTP frame reaches the time base: nothing comes from a fenced cage (R23), nor from an optical module of a higher
power class (R413). -/
def State.ptpHears (s : State) (p : Nat) : Bool := !decide (p < 64) || (!(s.port p).fenced && !(s.port p).highPower)

/-- A PTP frame is taken by `f` where its port's role `ok` and its domain allow it; else it is dropped and counted (R81,
R82; log entry 94, DESIGN CHOICE). -/
def takePtp (p domain : Nat) (ok : Bool) (f : State → State) (s : State) : State :=
  if !s.ptpHears p then s else if !ok || domain != s.ptp.domain then ptpDrop p s else f s

/-- The arrival of a Sync, with the constants in force when it is stamped (R76 to R78). -/
def State.syncArrival (s : State) (p t2 : Nat) : Int := s.rxStamp p t2 - (s.asymWhen p t2).asym

/-- The offset of a Sync (R77). -/
def syncOffset (s : State) (p t1 : Nat) (arrival corr : Int) : Int := arrival - t1 - corr - s.tmb.meanDelay.getD p 0

/-- SYNC_RECEIVED (R68, R77, R82): one sample on the selected port; a two-step Sync waits for its Follow_Up. -/
def execSyncReceived (w : When) (f : SyncFrame) (s : State) : Result :=
  let p := f.port.val
  let s := s.at w
  .next (takePtp p f.domain (s.slaveCapable p) (fun s =>
    let s := modSource 1 p (fun x => { x with lastSync := s.aon }) s
    let arrival := s.syncArrival p f.t2
    if !s.selectedPort p then s
    else if f.twoStep then { s with tmb := { s.tmb with twoStep := some f, twoStepRx := arrival } }
    else servoSample (syncOffset s p f.t1 arrival f.corr) f.freqEst s) s)

/-- The mean link delay of a completed peer-delay exchange; half of an odd difference is either neighbour (log entry 17, DESIGN CHOICE). -/
def peerDelay (s : State) (p t1 t4 : Nat) (turn : Int) : Int :=
  ((s.rxStamp p t4 - s.txStamp p t1) - turn + (if Config.halfUp s.now then 1 else 0)) / 2

/-- A peer delay exchange ends: its mean link delay is taken, or it is discarded where its stamps straddle the swap of the
port's constants (R78). -/
def endExchange (p t1 t4 : Nat) (turn : Int) (s : State) : State :=
  { s with tmb := { s.tmb with
    meanDelay := if s.straddles t1 t4 then s.tmb.meanDelay else putAt s.tmb.meanDelay p (peerDelay s p t1 t4 turn)
    pdelayResp := putAt s.tmb.pdelayResp p none, pdelayT1 := putAt s.tmb.pdelayT1 p none } }

/-- FOLLOW_UP_RECEIVED (R82): the precise origin of a two-step Sync, or the turnaround of a two-step answer. -/
def execFollowUpReceived (w : When) (f : SyncFrame) (isPdelay : Bool) (s : State) : Result :=
  let p := f.port.val
  let s := s.at w
  .next (takePtp p f.domain (s.slaveCapable p) (fun s =>
    if isPdelay then
      match s.tmb.pdelayResp.getD p none, s.tmb.pdelayT1.getD p none with
      | some r, some t1 =>
        endExchange p t1 r.t4 ((f.t2 : Int) - f.t1 + r.corr + f.corr) s
      | _, _ => s
    else
      match s.tmb.twoStep with
      | some y =>
        if y.port = f.port ∧ y.seqId = f.seqId ∧ s.selectedPort p then
          servoSample (syncOffset s p f.t1 s.tmb.twoStepRx (y.corr + f.corr)) f.freqEst { s with tmb := { s.tmb with twoStep := none } }
        else s
      | none => s) s)

/-- An Announce of the port's master: it stays qualified, or is from the second one within the receipt timeout of 3 s on (R70, R82;
that the window is this timeout is log entry 128, DESIGN CHOICE). -/
def SourceSeen.heard (x : SourceSeen) (f : Announce) (aon : Nat) : SourceSeen :=
  let again := decide (0 < x.lastAnnounce ∧ aon < x.lastAnnounce + aonSec 3)
  { x with announce := f, lastAnnounce := aon
           qualifiedSince := if again then (match x.qualifiedSince with
             | some t => some t
             | none => some aon) else none }

/-- An Announce of another clock on the port: with its second one within the timeout a better clock, or any once the
master has fallen silent, becomes the port's master; else it is remembered (R82). -/
def SourceSeen.contend (x : SourceSeen) (f : Announce) (aon : Nat) : SourceSeen :=
  match x.rival with
  | some (r, t) =>
    if r.sender = f.sender ∧ aon < t + aonSec 3 ∧ (x.lastAnnounce + aonSec 3 ≤ aon ∨ listBefore (clockRank f) (clockRank x.announce)) then
      { x with announce := f, lastAnnounce := aon, qualifiedSince := some aon, rival := none }
    else { x with rival := some (f, aon) }
  | none => { x with rival := some (f, aon) }

/-- PTP_ANNOUNCE_RECEIVED (R70, R81, R82, R86): the port's master is qualified, or another clock contends with it; the best
master clock algorithm decides, from which a clock 255 steps away or more is shut out (IEEE 1588-2019 Clause 9.3.2.5; log entry
128, PRESUMED); the selected master gives UTC. -/
def execPtpAnnounceReceived (w : When) (port : Fin 66) (f : Announce) (s : State) : Result :=
  let p := port.val
  let s := s.at w
  .next (takePtp p f.domain (s.slaveCapable p) (fun s =>
    if 255 ≤ f.stepsRemoved then s else
    let was := s.seen 1 p
    let own := match was with
      | some x => decide (x.lastAnnounce = 0 ∨ x.announce.sender = f.sender)
      | none => true
    let s := modSource 1 p (fun x => if own then x.heard f s.aon else x.contend f s.aon) s
    let now := ((s.seen 1 p).getD {}).announce
    let changed := match was with
      | some x => decide (x.lastAnnounce ≠ 0 ∧ x.announce.sender ≠ now.sender)
      | none => false
    let s := electMaster (if changed && s.selectedPort p then sourceChanged s else s)
    if s.selectedPort p && decide (now = f) then setLeap ((timeSec s.now : Int) - f.utcOffset) f.utcOffset f.utcOffset f.leap61 f.leap59 s
    else s) s)

/-- An accepted edge of a pin source keeps it qualified. -/
def edgeSeen (kind : Nat) (s : State) : State :=
  let alive := match s.seen kind 0x7F with
    | some x => x.qualifiedSince.isSome && x.alive s.aon
    | none => false
  modSource kind 0x7F (fun x => { x with lastSync := s.aon, qualifiedSince := if alive then x.qualifiedSince else some s.aon }) s

/-- The distance of a PPS edge from the IRIG-B on-time point, over whole seconds, and the label's second at the edge. -/
def ppsLabel (stamp onTime label : Nat) : Int × Int :=
  let d : Int := (stamp : Int) - onTime
  let k := divRound d ticksPerSec
  (d - k * ticksPerSec, (label : Int) + k)

/-- The IRIG-B label, while frames still come: 3 s without one, and PPS has no label, so it is no source (R70, R84). -/
def State.label (s : State) : Option (Nat × Nat) :=
  match s.tmb.irigSeen with
  | some t => if s.aon < t + aonSec 3 then s.tmb.irigLabel else none
  | none => none

/-- No PPS edge has been accepted for 3 s (R70, R84). -/
def State.ppsLost (s : State) : Bool :=
  match s.tmb.ppsSeen with
  | some t => decide (t + aonSec 3 ≤ s.aon)
  | none => true

/-- PPS_EDGE (R84, R86): accepted 1 s ± 10 µs after the previous accepted edge, or first after loss; with source kind 3
it gives the phase of the second that IRIG-B names. -/
def execPpsEdge (w : When) (stamp : Nat) (freqEst : Int) (s : State) : Result :=
  let s := s.at w
  let ok := match s.tmb.lastPps with
    | some t => s.ppsLost || decide (((stamp : Int) - t - ticksPerSec).natAbs ≤ usTicks 10)
    | none => true
  let near := match s.label with
    | some (onTime, label) => decide ((ppsLabel stamp onTime label).1.natAbs ≤ usTicks 1)
    | none => true
  if !ok || !near then .next s
  else
    let s := { s with tmb := { s.tmb with lastPps := some stamp, ppsSeen := some s.aon } }
    match s.label with
    | some (onTime, label) =>
      let s := edgeSeen 3 s
      if s.tmb.usedKind = 3 then
        .next (servoSample ((stamp : Int) - (ppsLabel stamp onTime label).2 * ticksPerSec) freqEst s)
      else .next s
    | none => .next s

/-- The reference for a two-digit year: module time, or the retained-image stamp while FREE (R85). -/
def State.yearRef (s : State) : Nat :=
  if s.tmb.state = 0 then (match s.tmb.retainedLoad with
    | some t => t
    | none => ((s.cart.newestImage).map (·.stamp)).getD s.now)
  else s.now

/-- The offset that a label is converted with (R85): the label 23:59:60 belongs to the day that the leap ends, so where the leap
has been applied already it takes the offset of that day. -/
def State.labelOffset (s : State) (f : IrigFrame) : Int :=
  match s.tmb.lastLeap with
  | some (at_, true) => if f.secOfDay = 86400 ∧ at_ ≤ s.now ∧ s.now < at_ + 2 * ticksPerSec then s.irigOffset - 1 else s.irigOffset
  | _ => s.irigOffset

/-- IRIGB_FRAME (R85, R86): quality above 3 is rejected with source 93; else the label is taken, and its pending bits date the
leap by the label's own day. -/
def execIrigbFrame (w : When) (f : IrigFrame) (s : State) : Result :=
  let s := s.at w
  if 3 < f.quality then .next (tmbEvent 13 s)
  else
    let off := s.labelOffset f
    let label := irigLabelAt f off s.yearRef
    let s := { s with tmb := { s.tmb with irigSeen := some s.aon, irigLabel := some (f.onTime, label.toNat) } }
    let s := edgeSeen 2 s
    let utc := label - off - (if f.secOfDay = 86400 then 1 else 0)
    let s := if s.tmb.usedKind = 2 ∨ s.tmb.usedKind = 3 then
        setLeap utc off s.irigOffset (f.leapPending && !f.leapDelete) (f.leapPending && f.leapDelete) s
      else s
    if s.tmb.usedKind = 2 then .next (servoSample ((f.onTime : Int) - label * ticksPerSec) f.freqEst s)
    else .next s

/-- SOURCE_LOSS (R70, R88, R94): the source in use has timed out; the best qualified one replaces it at once. Without one LOCKED
becomes HOLDOVER 3 s later. Where PPS was lost, and not only its label, that is event 92. -/
def execSourceLoss (w : When) (s : State) : Result :=
  let s := s.at w
  let k := s.tmb.usedKind
  let gone := match s.seen k s.tmb.usedPort with
    | some x => !x.alive s.aon || (decide (k = 1) && decide (max x.lastSync s.tmb.lastSampleAt + aonSec 3 ≤ s.aon))
    | none => true
  if k = 0 then .next (graceEnd s)
  else if !gone then .next s
  else
    let s := modSource k s.tmb.usedPort (fun x => { x with qualifiedSince := none }) s
    let s := when (decide (k = 3) && s.ppsLost) (fun s => tmbEvent 12 { s with tmb := { s.tmb with lastPps := none } }) s
    .next (match s.bestSource with
      | some x => selectSource x.kind x.port s
      | none => selectSource 0 0x7F s)

/-- SOURCE_QUALIFIED (R88): a listed source, qualified, is taken where none is in use; a higher-priority one after 16 s
without interruption. -/
def execSourceQualified (w : When) (kind : Fin 4) (port : Fin 66) (s : State) : Result :=
  let s := s.at w
  let k := kind.val
  let p := if k = 1 then port.val else 0x7F
  .next (match s.seen k p, s.sourceRank k with
    | some x, some r =>
      match x.qualifiedSince with
      | some t =>
        if !x.alive s.aon then s
        else if s.tmb.usedKind = 0 then selectSource k p s
        else match s.sourceRank s.tmb.usedKind with
          | some u => if r < u ∧ t + aonSec 16 ≤ s.aon then selectSource k p s else s
          | none => if t + aonSec 16 ≤ s.aon then selectSource k p s else s
      | none => s
    | _, _ => s)

/-- ACQ_TIMEOUT (R74, R389): 30 s after P5 began, judged once; where the time base is not LOCKED then, the flag, the event,
and the end of P5 where it still lasts. -/
def execAcqTimeout (w : When) (s : State) : Result :=
  let s := s.at w
  .next (if 5 ≤ s.gen.phase ∧ !s.tmb.acqChecked ∧ s.tmb.p5Start + aonSec 30 ≤ s.aon then
      let s := { s with tmb := { s.tmb with acqChecked := true } }
      if s.tmb.state = 2 then s
      else endP5 (when (!s.tmb.acqTimeout) (tmbEvent 14) (hwSet 0x10004 6 none { s with tmb := { s.tmb with acqTimeout := true } }))
    else s)

/-- HOLDOVER_LIMIT (R70, R72). -/
def execHoldoverLimit (w : When) (s : State) : Result := .next (checkHoldover (s.at w))

/-- LEAP_APPLY (R93): the offset moves by one second, the flags clear. -/
def execLeapApply (w : When) (s : State) : Result :=
  let s := s.at w
  .next (if (s.tmb.leapAdd || s.tmb.leapDel) && decide (s.tmb.leapAt ≤ s.now) then
      let add := s.tmb.leapAdd
      let d : Int := if add then 1 else -1
      let irig := s.tmb.usedKind = 2 ∨ s.tmb.usedKind = 3
      tmbEvent 7 (putTaiUtc s.tmb.leapAt (s.tmb.taiUtc + d) { s with tmb := { s.tmb with
        leapAdd := false, leapDel := false, lastLeap := some (s.tmb.leapAt, add)
        irigLeaps := if irig then s.tmb.irigLeaps + d else s.tmb.irigLeaps } })
    else s)

/-! ### Register commands (R71, R73, R353) -/

/-- `TMB_CTRL.SNAP` (R353): the writer's copy. -/
def tmbSnapAct (who : Agent) (s : State) : State :=
  let x : TmbSnap := { time := s.islandTime (if isFw who then triadIsland else hostIsland), pcount := s.pcount }
  if isFw who then { s with tmb := { s.tmb with snapFw := x } }
  else if hostAtLeast 2 who s then { s with tmb := { s.tmb with snapHost := x } }
  else s

/-- `TMB_CTRL.STEP_ACCEPT` (R71). -/
def stepAcceptAct (who : Agent) (s : State) : State :=
  if fwOrEngineer who s && s.tmb.implausible then
    let off := s.tmb.badOffset
    let s := ledger 0x0101 0xFFFF (two (unsignedOf 64 off)) s
    setServo 1 (redateLeap ((s.now : Int) - off).toNat { s with tmb := { s.tmb with implausible := false, timeSet := true, stepLeft := -off } })
  else s

/-- `TMB_STAT.TRIM_REFUSED` is set; source 86 where it was clear. -/
def setTrimRefused (s : State) : State :=
  when (!s.tmb.trimRefused) (tmbEvent 6) (hwSet 0x10004 5 none { s with tmb := { s.tmb with trimRefused := true } })

/-- A refused trim or source write (R73): flag, tally, record. -/
def trimRefuse (addr value : Nat) (s : State) : State :=
  let s := setTrimRefused s
  ledger 0x0102 0xFFFF [addr, value] { s with tmb := { s.tmb with refusals := tallyInc s.tmb.refusals } }

/-- A write of `TMB_FREQ_TRIM` (R73). -/
def freqTrimAct (who : Agent) (v : Word) (s : State) : State :=
  if isFw who then
    let x := v.toInt
    let s := freqHold s
    let s := { s with tmb := { s.tmb with freqTrim := x } }
    when (decide (x < -freqMax ∨ freqMax < x)) setTrimRefused s
  else s

/-- A write of `TMB_PHASE_STEP` (R73): added to the steps that are outstanding (log entry 126, DESIGN CHOICE), or refused while
LOCKED or above 10 µs. -/
def phaseStepAct (who : Agent) (v : Word) (s : State) : State :=
  if isFw who then
    if s.tmb.state = 2 ∨ 655360000 < v.toInt.natAbs then trimRefuse 0x00010034 v.toNat s
    else { s with tmb := { s.tmb with stepLeft := s.tmb.stepLeft + v.toInt } }
  else s

/-- A write of `TMB_SRC` (R73, R81, R87): ignored for values that name no port or kind; refused for a port that is not
slave-capable or a kind that is not listed. -/
def tmbSrcAct (who : Agent) (v : Word) (s : State) : State :=
  if isFw who then
    let port := bitsOf v.toNat 22 16
    let kind := bitsOf v.toNat 3 0
    if (65 < port ∧ port ≠ 0x7F) ∨ 3 < kind then s
    else if (port ≠ 0x7F ∧ !s.slaveCapable port) ∨ (kind ≠ 0 ∧ (s.sourceRank kind).isNone) then trimRefuse 0x00010008 v.toNat s
    else selectSource kind port s
  else s

/-! ### Pulse generators (R89 to R91) -/

/-- A generator as held. -/
def State.pg (s : State) (g : Nat) : PulseGen := s.tmb.gens.getD g {}

/-- Changes a generator. -/
def modPg (g : Nat) (f : PulseGen → PulseGen) (s : State) : State := { s with tmb := { s.tmb with gens := updAt s.tmb.gens g f } }

/-- A status bit of a generator that asserts its source when it is set (R94). -/
def pgEvent (g : Nat) (s : State) : State := if g < 4 then tmbEvent (8 + g) s else tmbEvent 15 s

/-- The programme's start time. -/
def PulseGen.start (x : PulseGen) : Nat := mkTime (x.startLo + x.startHi * 2 ^ 32) x.startNs 0

/-- Ticks in a count of 8 ns units. -/
def units8 (n : Nat) : Nat := nsTicks (8 * n)

/-- The programme breaks a constraint other than lateness (R89, R90). -/
def pgConflict (g : Nat) (x : PulseGen) (s : State) : Bool :=
  decide (1000000000 ≤ x.startNs) ||
    (if g < 4 then decide (x.width < 2 ∨ x.period ≤ x.width ∨ x.period < 4)
     else decide (x.width < 125000 ∨ x.period < 250000) || s.doLeader (g - 4) != g - 4 || !s.primary)

/-- `ARM` (R90): from the voted path only (R226); ignored while the generator is ARMED (log entry 111, DESIGN CHOICE). -/
def pulseArmAct (who : Agent) (g : Nat) (s : State) : State :=
  let x := s.pg g
  if !isFw who || x.armed then s
  else
    let late := decide (x.start < s.now + usTicks 2)
    let bad := pgConflict g x s
    if late || bad then
      let s := when (late && !x.late) (pgEvent g) (when bad (hwSet (0x10104 + 0x20 * g) 4 none) (when late (hwSet (0x10104 + 0x20 * g) 2 none) s))
      modPg g (fun y => { y with late := y.late || late, conflict := y.conflict || bad }) s
    else modPg g (fun y => { y with armed := true, running := false, disarming := false, remaining := y.count, k := 0 }) s

/-- A programme ends: `DONE` (R89, R91). -/
def pgEnd (g : Nat) (s : State) : State :=
  let was := (s.pg g).done
  when (!was) (pgEvent g) (hwSet (0x10104 + 0x20 * g) 3 none (modPg g (fun y => { y with armed := false, running := false, disarming := false, done := true }) s))

/-- `DISARM` (R90): at the end of any pulse in progress. -/
def pgDisarm (g : Nat) (s : State) : State :=
  let x := s.pg g
  if !x.armed then s
  else if x.running then modPg g (fun y => { y with disarming := true }) s
  else pgEnd g s

/-- `DISARM`, from the voted path only. -/
def pulseDisarmAct (who : Agent) (g : Nat) (s : State) : State := if isFw who then pgDisarm g s else s

/-- The armed generators of the digital outputs disarm (R91). -/
def disarmDo (s : State) : State := (List.range 8).foldl (fun s j => pgDisarm (4 + j) s) s

/-- A generator drives its pin: a TPO, or a digital output, whose toggle limit does not apply (R91, R375); in standby no edge
drives a digital output on (R384). -/
def pgDrive (g : Nat) (pulse : Bool) (s : State) : State :=
  if g < 4 then showTpo g s else driveDo (g - 4) (pulse != (s.pg g).polarity && !s.fio.standby) s

/-- The next edge time of an armed generator. -/
def PulseGen.nextEdge (x : PulseGen) : Nat := x.start + x.k * units8 x.period + (if x.running then units8 x.width else 0)

/-- PULSE_EDGE (R89): the next edge, once module time has reached it; the count runs down at each trailing edge. -/
def execPulseEdge (w : When) (g : Fin 12) (s : State) : Result :=
  let s := s.at w
  let n := g.val
  let x := s.pg n
  if !x.armed ∨ s.stopped ∨ s.now < x.nextEdge then .next s
  else if !x.running then .next (pgDrive n true (modPg n (fun y => { y with running := true }) s))
  else
    let s := pgDrive n false (modPg n (fun y => { y with running := false, k := y.k + 1, remaining := y.remaining - 1 }) s)
    .next (if x.disarming ∨ (x.count ≠ 0 ∧ x.remaining ≤ 1) then pgEnd n s else s)

/-! ### PTP messages sent and answered (R79, R80, R82, R83, R110) -/

/-- Wire bytes of a PTP message of `payload` bytes on a station port: header, tag, trailer, check sequence, preamble and
gap, at least a minimum frame (R116). -/
def ptpWire (s : State) (p payload : Nat) : Nat :=
  let tag := if s.ptp.taggedMask.testBit (s.logical p) then 4 else 0
  let rct := if s.isPrp p then 6 else 0
  max 64 (14 + tag + payload + rct + 4) + 20

/-- The upper lane of a PRP pair's lower lane. -/
def State.prpLow (s : State) (p : Nat) : Bool := (s.cfg.cur.ports.ports.getD p {}).prp && p < 32

/-- A station port can send: the module is PRIMARY (R275, R276, R388), the port runs, its link is up, its laser on, its cage
not fenced. -/
def State.portSends (s : State) (p : Nat) : Bool :=
  let x := s.port p
  s.primary && (s.cfg.cur.ports.ports.getD p {}).mode != 0 && x.link && !x.laserOff && !x.fenced && !x.highPower

/-- The header of a PTP message (R81, R82, R102); the group addresses are those of IEEE 1588-2019 Annex E (log entry 25,
PRESUMED). -/
def State.ptpHdr (s : State) (p : Nat) (peer : Bool) (rct : Option Nat) : EthHdr :=
  { dst := if peer then 0x0180C200000E else 0x011B19000000, src := s.gen.eui, etherType := 0x88F7
    tag := if s.ptp.taggedMask.testBit (s.logical p) then some (s.ptp.pcp, s.ptp.vid) else none
    rct := rct.map fun q => (q, if p < 32 then 0xA else 0xB) }

/-- The module's own clock identity, from its fused EUI-48 with 0xFFFE between its halves (R83; log entry 95, PRESUMED). -/
def State.clockId (s : State) : Nat := s.gen.eui / 2 ^ 24 * 2 ^ 40 + 0xFFFE * 2 ^ 24 + s.gen.eui % 2 ^ 24

/-- The grandmaster fields announced on master ports (R83). In ACQUIRING and LOCKED without a PTP source in use, so with IRIG-B
alone and in the 3 s after the source in use was lost, they are those of PPS and IRIG-B (log entry 129, DESIGN CHOICE). The
TLV of C37.238-2017 is passed on and sent under that profile alone (R82; log entry 25, PRESUMED). -/
def State.announced (s : State) : Announce :=
  let add := if s.ptp.profile = 2 then 10 else 0
  let own (cls acc : Nat) : Announce :=
    { domain := s.ptp.domain, sender := s.clockId, identity := s.clockId, clockClass := cls, accuracy := acc
      priority1 := s.ptp.priority1, priority2 := s.ptp.priority2, stepsRemoved := 0, utcOffset := s.tmb.taiUtc, leap61 := s.tmb.leapAdd, leap59 := s.tmb.leapDel, inaccuracy := add }
  if s.tmb.state = 1 ∨ s.tmb.state = 2 then
    if s.tmb.usedKind = 1 then
      match s.seen 1 s.tmb.usedPort with
      | some x => { x.announce with
          domain := s.ptp.domain, sender := s.clockId, stepsRemoved := x.announce.stepsRemoved + 1
          inaccuracy := if s.ptp.profile = 2 then min 0xFFFFFFFF (x.announce.inaccuracy + 10) else 0
          powerId := if s.ptp.profile = 2 then x.announce.powerId else 0 }
      | none => own 6 0x21
    else own 6 0x21
  else if s.tmb.state = 3 then own 7 0x23
  else if s.tmb.state = 4 then own 52 0xFE
  else own 248 0xFE

/-- One Sync on one lane (R79): the corrected stamp's whole nanoseconds, and its fraction plus `ASYM` in the
correction field. -/
def sendSync (p stamp : Nat) (rct : Option Nat) (s : State) : State :=
  let t := (s.txStamp p stamp).toNat
  let s := modPort p (fun x => { x with syncSent := true }) s
  chargePort p (ptpWire s p 44)
    (emit (.ptp p 0 (t / ticksPerNs * ticksPerNs) ((timeFrac t : Int) + (s.asymWhen p stamp).asym) { domain := s.ptp.domain } (s.ptpHdr p false rct)) s)

/-- One Announce on one lane (R83). -/
def sendAnnounce (p : Nat) (rct : Option Nat) (s : State) : State :=
  chargePort p (ptpWire s p 64) (emit (.ptp p 0xB s.now 0 s.announced (s.ptpHdr p false rct)) s)

/-- A Sync is due on a lane: it leaves where the lane can send, or waits (R110, R116). -/
def syncLane (p stamp : Nat) (rct : Option Nat) (s : State) : State :=
  if s.portSends p && !(s.port p).syncSent then sendMsg p (ptpWire s p 44) { kind := .sync, rct := rct } (sendSync p stamp rct) s else s

/-- An Announce is due on a lane. -/
def announceLane (p : Nat) (rct : Option Nat) (s : State) : State :=
  if s.portSends p then sendMsg p (ptpWire s p 64) { kind := .announce, rct := rct } (sendAnnounce p rct) s else s

/-- SYNC_TRANSMIT (R79, R80, R110): a master port, outside FREE, at most once a period; both lanes of a PRP pair. -/
def execSyncTransmit (w : When) (port : Fin 64) (stampA stampB : Nat) (s : State) : Result :=
  let s := s.at w
  let p := port.val
  if !s.masterPort p || s.tmb.state == 0 then .next s
  else
    let prp := s.prpLow p
    let (q, s) := takeRct p prp s
    let s := syncLane p stampA q s
    .next (if prp then syncLane (p + 32) stampB q s else s)

/-- ANNOUNCE_TRANSMIT (R83). -/
def execAnnounceTransmit (w : When) (port : Fin 64) (s : State) : Result :=
  let s := s.at w
  let p := port.val
  if !s.masterPort p then .next s
  else
    let prp := s.prpLow p
    let (q, s) := takeRct p prp s
    let s := announceLane p q s
    .next (if prp then announceLane (p + 32) q s else s)

/-- The port has a PTP role. -/
def State.ptpRole (s : State) (p : Nat) : Bool :=
  s.slaveCapable p || s.masterPort p || (decide (32 ≤ p ∧ p < 64) && s.masterPort (p - 32) && s.prpLow (p - 32))

/-- The port may send PTP: a host port that runs, or a station port that can send. -/
def State.ptpSends (s : State) (p : Nat) : Bool :=
  if p < 64 then s.portSends p else decide (3 ≤ s.gen.phase) && s.hif.links.getD (p - 64) false

/-- The redundancy sequence number of a peer delay message: each lane of a PRP pair has its own exchange. -/
def takeLaneRct (p : Nat) (s : State) : Option Nat × State :=
  let lp := if 32 ≤ p ∧ s.prpLow (p - 32) then p - 32 else p
  takeRct lp (s.prpLow lp && decide (p < 64)) s

/-- A Pdelay_Req leaves: the transmit stamp is kept (R79). -/
def sendPdelayReq (p stamp : Nat) (rct : Option Nat) (s : State) : State :=
  let s := { s with tmb := { s.tmb with pdelayT1 := putAt s.tmb.pdelayT1 p (some stamp), pdelayResp := putAt s.tmb.pdelayResp p none } }
  let s := emit (.ptp p 2 0 0 { domain := s.ptp.domain } (s.ptpHdr p true rct)) s
  if p < 64 then chargePort p (ptpWire s p 54) (modPort p (fun x => { x with reqSent := true }) s) else s

/-- PDELAY_REQ_TRANSMIT (R79, R82, R110): at most once a period on a station port. -/
def execPdelayReqTransmit (w : When) (port : Fin 66) (stamp : Nat) (s : State) : Result :=
  let s := s.at w
  let p := port.val
  if !s.ptpRole p || !s.ptpSends p || (p < 64 && (s.port p).reqSent) then .next s
  else
    let (q, s) := takeLaneRct p s
    .next (if p < 64 then sendMsg p (ptpWire s p 54) { kind := .pdelayReq, rct := q } (sendPdelayReq p stamp q) s else sendPdelayReq p stamp q s)

/-- A Pdelay_Resp leaves: the turnaround, fractions included, in the correction field (R79); one whose stamps straddle the swap
of the port's constants is discarded (R78). -/
def sendPdelayResp (p rx tx : Nat) (rct : Option Nat) (s : State) : State :=
  if s.straddles rx tx then s else
  let s := emit (.ptp p 3 0 (s.txStamp p tx - s.rxStamp p rx) { domain := s.ptp.domain } (s.ptpHdr p true rct)) s
  if p < 64 then chargePort p (ptpWire s p 54) (modPort p (fun x => { x with respSent := true, heldReq := none }) s) else s

/-- A Pdelay_Resp is due on a port. -/
def answerPdelay (p rx tx : Nat) (s : State) : State :=
  let (q, s) := takeLaneRct p s
  if p < 64 then sendMsg p (ptpWire s p 54) { kind := .pdelayResp rx tx, rct := q } (sendPdelayResp p rx tx q) s
  else sendPdelayResp p rx tx q s

/-- The period's Pdelay_Resp has left the port, or waits for its stall (R110). -/
def State.respDue (s : State) (p : Nat) : Bool := (s.port p).respSent || (s.port p).waitq.any fun m => m.kind.isResp

/-- PDELAY_REQ_RECEIVED (R79, R110): answered one-step, at most once a period on a station port. -/
def execPdelayReqReceived (w : When) (port : Fin 66) (m : PdelayReq) (txStamp : Nat) (s : State) : Result :=
  let p := port.val
  let s := s.at w
  .next (takePtp p m.domain (s.ptpRole p) (fun s =>
    if !s.ptpSends p then s
    else if p < 64 ∧ s.respDue p then modPort p (fun x => { x with heldReq := some (m.rxStamp, txStamp) }) s
    else answerPdelay p m.rxStamp txStamp s) s)

/-- PDELAY_RESP_RECEIVED (R77, R79, R82): completes the exchange; a two-step answer waits for its follow-up. -/
def execPdelayRespReceived (w : When) (f : PdelayResp) (s : State) : Result :=
  let p := f.port.val
  let s := s.at w
  .next (takePtp p f.domain (s.ptpRole p) (fun s =>
    match s.tmb.pdelayT1.getD p none with
    | none => s
    | some t1 =>
      if f.twoStep then
        (if s.slaveCapable p then { s with tmb := { s.tmb with pdelayResp := putAt s.tmb.pdelayResp p (some f) } } else s)
      else endExchange p t1 f.t4 f.corr s) s)

/-- PTP_FRAME_DISCARD (R81, R82). -/
def execPtpFrameDiscard (w : When) (port : Fin 66) (s : State) : Result :=
  let s := s.at w
  .next (if s.ptpHears port.val then ptpDrop port.val s else s)

/-! ### Messages that waited (R110, R116) -/

/-- Wire bytes of a supervision frame: a minimum frame (log entry 25, PRESUMED). -/
def supervisionWire : Nat := 84

/-- One supervision frame on one lane (R96); its address and EtherType are those of IEC 62439-3 (log entry 25, PRESUMED). -/
def sendSupervision (p : Nat) (rct : Option Nat) (s : State) : State :=
  emit (.supervision p { dst := 0x01154E000100, src := s.gen.eui, etherType := 0x88FB, rct := rct.map fun q => (q, if p < 32 then 0xA else 0xB) })
    (chargePort p supervisionWire s)

/-- The wire bytes of a message. -/
def State.msgWire (s : State) (p : Nat) (k : MsgKind) : Nat :=
  match k with
  | .sync => ptpWire s p 44
  | .pdelayReq => ptpWire s p 54
  | .pdelayResp _ _ => ptpWire s p 54
  | .announce => ptpWire s p 64
  | .supervision => supervisionWire

/-- A message that waited leaves; the stamp of one that is stamped is the strobe's time in the port's island (log entry 96, DESIGN
CHOICE). In FREE no Sync leaves (R69). -/
def sendWaited (p : Nat) (m : WaitMsg) (s : State) : State :=
  if !s.portSends p then s
  else match m.kind with
    | .sync => if s.tmb.state = 0 then s else sendSync p (s.rawStamp p) m.rct s
    | .pdelayReq => sendPdelayReq p (s.rawStamp p) m.rct s
    | .pdelayResp rx _ => sendPdelayResp p rx (s.rawStamp p) m.rct s
    | .announce => sendAnnounce p m.rct s
    | .supervision => sendSupervision p m.rct s

/-- Waiting messages of one order leave while the stall admits the next one; each left is deferred. -/
def drainMsgs (p : Nat) : List WaitMsg → State → State
  | [], s => s
  | m :: t, s => if s.portRoom p (s.msgWire p m.kind) then drainMsgs p t (sendWaited p m s) else (m :: t).foldl (fun s x => waitMsg p x s) s

/-- The messages of one order that wait on a port leave (R110). -/
def drainWaiting (event : Bool) (p : Nat) (s : State) : State :=
  let l := (s.port p).waitq
  if (s.port p).fenced || l.isEmpty then s
  else drainMsgs p (l.filter fun m => m.kind.event == event) (modPort p (fun x => { x with waitq := x.waitq.filter fun m => m.kind.event != event }) s)

/-! ### What the strobe does to the time base (R67, R94) -/

/-- An outstanding phase step of at most 10 µs is applied across one base period (R67), and never in LOCKED (R36, R68). -/
def phaseStepApply (s : State) : State :=
  if s.tmb.state = 2 then s
  else
    let d := clampInt (-655360000) 655360000 s.tmb.stepLeft
    { s with tmb := { s.tmb with stepLeft := s.tmb.stepLeft - d } }

end Sys2Proof.Machine
end

