-- ==== Sys2Proof/Machine/SeqOps.lean ====
section
/-! DEFINITION. The image sequencer's operations (chapters 4 and 8): streams and dispatch, image records, instances, the
commit, the swap of a task's tables, retained rounds, warm and cold restart. -/

namespace Sys2Proof.Machine

open Sys2Proof

/-! ### Points, stations, streams (R99, R201, R202) -/

/-- A task's image descriptor. -/
def Generation.desc (g : Generation) (t : Nat) : ImgCfg := g.images.descs.getD t {}

/-- A task's output points, in list order. -/
def Generation.outPts (g : Generation) (t : Nat) : List PointCfg := (g.desc t).outList.map fun i => g.points.getD i {}

/-- A task's input points, in list order. -/
def Generation.inPts (g : Generation) (t : Nat) : List PointCfg := (g.desc t).inList.map fun i => g.points.getD i {}

/-- The outputs of a stream in the order the station protocol carries them (R202). -/
def Generation.streamOuts (g : Generation) (t st : Nat) : List PointCfg := (g.outPts t).filter fun p => p.kind == 1 && p.source == st

/-- The inputs of a stream. -/
def Generation.streamIns (g : Generation) (t st : Nat) : List PointCfg := (g.inPts t).filter fun p => p.kind == 0 && p.source == st

/-- The task maps the station. -/
def Generation.maps (g : Generation) (t st : Nat) : Bool :=
  !(g.streamOuts t st).isEmpty || !(g.streamIns t st).isEmpty

/-- The stations that a task maps, in ascending number. -/
def Generation.taskStations (g : Generation) (t : Nat) : List StationCfg := g.stations.filter fun x => g.maps t x.number

/-- The tasks that map a station now, each by the tables it runs on. -/
def State.stationTasks (s : State) (st : Nat) : List Nat := (List.range 16).filter fun t => (s.taskGen t).maps t st

/-- A station's entry in force (R58). A deleted station that only a task without an entry in the new tables mapped is served until
the last swap of the delta, since that task never swaps (log entry 133, DESIGN CHOICE). -/
def State.stationCfg (s : State) (st : Nat) : Option StationCfg :=
  let of (g : Generation) := g.stations.find? (·.number == st)
  match s.cfg.next with
  | none => of s.cfg.cur
  | some g =>
    match (s.stationTasks st).findSome? fun t => if (s.task t).swapped then of g else none with
    | some x => some x
    | none => match (s.stationTasks st).findSome? fun t => if (s.task t).swapped then none else of s.cfg.cur with
      | some x => some x
      | none => if (of g).isSome || !s.pastA then of s.cfg.cur else none

/-- A station as the primary holds it. -/
def State.stn (s : State) (st : Nat) : StnState := (s.prt.stations.find? (·.number == st)).getD { number := st }

/-- Changes a station. -/
def modStn (st : Nat) (f : StnState → StnState) (s : State) : State :=
  let x := f (s.stn st)
  { s with prt := { s.prt with stations := (s.prt.stations.filter (·.number != st)) ++ [x] } }

/-- A stream as held. -/
def State.stream (s : State) (st t : Nat) : StreamState :=
  (s.prt.streams.find? fun x => x.station == st && x.task == t).getD { station := st, task := t }

/-- Changes a stream. -/
def modStream (st t : Nat) (f : StreamState → StreamState) (s : State) : State :=
  let x := f (s.stream st t)
  { s with prt := { s.prt with streams := (s.prt.streams.filter fun y => !(y.station == st && y.task == t)) ++ [x] } }

/-! ### Transmission on a station port (R106, R110, R116) -/

/-- Wire bytes of an EXCHANGE with `outs` outputs on a lane (R108). -/
def exchangeWire (s : State) (p outs : Nat) : Nat :=
  let c := s.cfg.cur.ports.ports.getD (s.logical p) {}
  max 64 (14 + (if c.tagged then 4 else 0) + 32 + 4 * outs + (if s.isPrp p then 6 else 0) + 4) + 20



/-- `a` leaves before `b`: cycle frames by task rank, task, station; then resync frames (R110). -/
def frameBefore (a b : OutFrame) : Bool :=
  let k (x : OutFrame) : Nat := (if x.resync then 1 else 0) * 2 ^ 24 + x.rank * 2 ^ 16 + x.task * 2 ^ 11 + x.station
  decide (k a < k b)

/-- A frame in its place in the output queue. -/
def insertFrame (x : OutFrame) : List OutFrame → List OutFrame
  | [] => [x]
  | y :: t => if frameBefore x y then x :: y :: t else y :: insertFrame x t

/-- `FLAGS` of an EXCHANGE (R101). -/
def exchangeFlags (side : Nat) (resync : Bool) (st : StationCfg) : Nat :=
  bitAt (side == 1) 0 + bitAt (!resync) 1 + bitAt resync 2 + bitAt (st.wdgMode == 1) 3

/-- An EXCHANGE from its header on (R101, chapter 4): `VERSION` 1, `TYPE` 1, the stream, the flags, the epoch, and the
outputs with their apply time and the station's watchdog time. -/
def exchangeBytes (x : OutFrame) (epoch flags wdgTime : Nat) : List Byte :=
  natLe 1 1 ++ natLe 1 1 ++ natLe x.station 2 ++ natLe x.seq 2 ++ natLe flags 2 ++ natLe epoch 4 ++ natLe x.task 1 ++ natLe 0 1
    ++ natLe (16 + 4 * x.outs.length) 2 ++ timeBytes x.apply ++ natLe wdgTime 2 ++ natLe x.outs.length 2 ++ x.outs.flatMap (natLe · 4)

/-- The Ethernet header of a station protocol frame to a station: from the module's own address, tagged where the port's
entry says so, with the redundancy trailer on a PRP pair (R96, R101, R102). -/
def State.exchangeHdr (s : State) (p mac : Nat) (rct : Option Nat) : EthHdr :=
  let c := s.cfg.cur.ports.ports.getD (s.logical p) {}
  { dst := mac, src := s.gen.eui, etherType := s.cfg.cur.ports.ethertype
    tag := if c.tagged then some (c.pcp, c.vid) else none
    rct := rct.map fun q => (q, if p < 32 then 0xA else 0xB) }

/-- The frame leaves the lane: charged, and on the medium where the lane can send; `EPOCH` and `SIDE` are the
hardware's (R102, R116). -/
def sendFrame (p : Nat) (x : OutFrame) (s : State) : State :=
  let st := (s.stationCfg x.station).getD {}
  let flags := exchangeFlags s.wvl.side x.resync st
  let s := chargePort p x.bytes s
  let s := if x.resync then modPort p (fun y => { y with resync := tallyInc y.resync }) s else s
  if s.portSends p then
    emit (.exchange p x.station x.task x.seq s.wvl.epoch s.wvl.side x.apply flags st.wdgTime x.outs (s.exchangeHdr p st.mac x.rct)
      (exchangeBytes x s.wvl.epoch flags st.wdgTime)) s
  else s

/-- Frames that are left in the output queue are deferred, each once a period (R116). -/
def deferFrames (p : Nat) (l : List OutFrame) (s : State) : State :=
  modPort p (fun y => { y with
    outq := l.map fun z => { z with deferred := true }
    txDefer := tallyAdd y.txDefer (l.filter (!·.deferred)).length }) s

/-- The output queue leaves in order while the sequencer has had credit for the next frame and the transmit stall admits
it; each frame left is deferred (R114, R116). -/
def drainPortGo (p : Nat) : List OutFrame → State → State
  | [], s => modPort p (fun y => { y with outq := [] }) s
  | x :: t, s => if x.enq && s.portRoom p x.bytes then drainPortGo p t (sendFrame p x s) else deferFrames p (x :: t) s

/-- A resync frame leaves while at least 250 µs remain before its apply time (R113); a cycle frame has no such limit. -/
def State.timely (s : State) (x : OutFrame) : Bool := !x.resync || decide (s.islandTime marketIsland + usTicks 250 ≤ x.apply)

/-- A port's output queue drains; a fenced cage's queue is frozen, only a primary sends, under an epoch that its keeper
has reserved, and PTP event messages that wait come first (R23, R110, R112, R261). A resync frame for which it is too late is
given up: the next cycle frame serves (R113). -/
def drainPort (p : Nat) (s : State) : State :=
  if (s.port p).fenced || !s.primary || s.wvl.epochWait then s
  else
    let l := (s.port p).outq.filter s.timely
    if (s.port p).waitq.any (·.kind.event) then deferFrames p l s else drainPortGo p l s

/-- Everything that waits on a port leaves in the order of R110. -/
def drainAll (p : Nat) (s : State) : State := drainWaiting false p (drainPort p (drainWaiting true p s))

/-- Every port's queues drain. -/
def drainPorts (s : State) : State :=
  (List.range 64).foldl (fun s p => if (s.port p).outq.isEmpty && (s.port p).waitq.isEmpty then s else drainAll p s) s

/-- Frames enter the output queue while the sequencer has credit for them (R114): the queue, and the credit left. -/
def enqueueFrames : Nat → List OutFrame → List OutFrame × Nat
  | credit, [] => ([], credit)
  | credit, x :: t =>
    if x.enq then
      let r := enqueueFrames credit t
      (x :: r.1, r.2)
    else if x.bytes ≤ credit then
      let r := enqueueFrames (credit - x.bytes) t
      ({ x with enq := true } :: r.1, r.2)
    else (x :: t, credit)

/-- The frames of a port for which there is credit are enqueued. -/
def PortState.enqueue (x : PortState) : PortState :=
  let r := enqueueFrames x.txCredit x.outq
  { x with outq := r.1, txCredit := r.2 }

/-- The grant of a strobe (R114): what the transmit budget admits in the period after the 640 bytes for PTP and supervision
and what waits in the queue, and 16 further control frames on the receive side; unused credits have expired. -/
def PortState.grant (x : PortState) (budget : Nat) : PortState :=
  let held := ((x.outq.filter (·.enq)).map (·.bytes)).sum
  { x with txCredit := budget - x.spent - 640 - held, ctlCredit := 16 }.enqueue

/-- Every port grants its credits for the period. -/
def grantPorts (s : State) : State :=
  { s with prt := { s.prt with ports := s.prt.ports.mapIdx fun p x => if x.fenced then x else x.grant (s.portBudget p) } }

/-- The lanes of a logical port. -/
def State.lanes (s : State) (p : Nat) : List Nat := if s.isPrp p then [p, p + 32] else [p]

/-- A frame for a station's port goes towards the output queues of its lanes; a cycle frame replaces one still waiting for
its stream, and a fenced cage's queue stays as it is (R23, R96, R116). -/
def queueFrame (p : Nat) (x : OutFrame) (s : State) : State :=
  let (q, s) := takeRct p (s.isPrp p) s
  (s.lanes p).foldl (fun s l =>
    let x := { x with bytes := exchangeWire s l x.outs.length, rct := q }
    modPort l (fun y => if y.fenced then y else { y with
      outq := insertFrame x (y.outq.filter fun z => x.resync || !(z.station == x.station && z.task == x.task && !z.resync)) }.enqueue) s) s

/-- The next `SEQ` of a stream (R104); one that no table has named for a while starts at 0 again (log entry 97, DESIGN
CHOICE). -/
def StreamState.nextSeq (x : StreamState) : Nat := if x.sent then (x.seq + 1) % 65536 else 0

/-- A task's rank. -/
def State.taskRank (s : State) (t : Nat) : Nat := ((s.taskCfg t).map (·.rank)).getD 16

/-- A late copy on a PRP pair whose other copy did not come on time counts on its lane (R97). -/
def settleLate (st t : Nat) (s : State) : State :=
  match (s.stream st t).lateLane with
  | some p => modStream st t (fun x => { x with lateLane := none }) (modPort p (fun y => { y with late := tallyInc y.late }) s)
  | none => s

/-- One cycle EXCHANGE of a stream (R106, R111). -/
def queueExchange (t apply : Nat) (skipped : Bool) (st : StationCfg) (outs : List Nat) (s : State) : State :=
  let s := settleLate st.number t s
  let seq := (s.stream st.number t).nextSeq
  let s := modStream st.number t (fun x => { x with
    seq := seq, sent := true, cycleSeq := seq, skipped := skipped, ack := .none, answered := false, copies := [], outs := outs
    apply := apply, reply := none }) s
  queueFrame st.port { station := st.number, task := t, seq := seq, apply := apply, outs := outs, rank := s.taskRank t } s

/-! ### Dispatch (R198 step 2, R200, R213, R214) -/

/-- The force held on a tag (R212). -/
def State.forceOn (s : State) (tag : Nat) : Option Nat := (s.seq.forces.find? (·.tag == tag)).map (·.value)

/-- The value last committed for a tag: by the task, else by any task (R214). -/
def State.committed (s : State) (t tag : Nat) : Option Nat :=
  let of (u : Nat) : Option Nat := ((s.task u).buf.find? (·.1 == tag)).map (·.2)
  match of t with
  | some v => some v
  | none => (List.range 16).findSome? of

/-- What a dispatch sends for an output point: its force, its committed value, or `INIT`. -/
def State.dispatched (s : State) (t : Nat) (p : PointCfg) : Nat :=
  match s.forceOn p.tag with
  | some v => v
  | none => (s.committed t p.tag).getD p.init

/-- The values for the local outputs, keyed 16 × kind + channel. -/
def State.localValues (s : State) (t : Nat) : List (Nat × Nat) :=
  (((s.taskGen t).outPts t).filter fun p => p.kind == 4 || p.kind == 5).map fun p => (16 * p.kind + p.source, s.dispatched t p)

/-- The dispatch of a task at a start (R106, R198): EXCHANGE frames queued, the local set held until its apply time. -/
def dispatch (t apply : Nat) (skipped : Bool) (s : State) : State :=
  let g := s.taskGen t
  let set := s.localValues t
  let s := (g.taskStations t).foldl (fun s st =>
    queueExchange t apply skipped st ((g.streamOuts t st.number).map (s.dispatched t)) s) s
  if set.isEmpty then s else modTask t (fun x => { x with localSets := x.localSets ++ [(apply, set)] }) s

/-! ### Image records (R203, R204) -/

/-- The bytes of a record. -/
def ImgRec.bytes (r : ImgRec) : List Byte :=
  natLe r.value 4 ++ natLe r.quality 2 ++ natLe r.changes 2 ++ natLe r.stampSec 4 ++ natLe r.stampNs 4

/-- The record that bytes spell. -/
def imgRecOf (bs : List Byte) : ImgRec :=
  { value := leField bs 0 4, quality := leField bs 4 2, changes := leField bs 6 2, stampSec := leField bs 8 4, stampNs := leField bs 12 4 }

/-- The address of record `i` of an image. -/
def recAddr (base i : Nat) : Nat := 64 * base + 16 * i

/-- A record as the SEQ reads it; one that cannot be read holds free values (log entry 18, DESIGN CHOICE). -/
def readRec (a : Nat) (s : State) : ImgRec × State :=
  match unitRead 4 a 16 s with
  | (some bs, s) => (imgRecOf bs, s)
  | (none, s) =>
    let (i, s) := draw s
    let (j, s) := draw s
    ({ value := (Config.unreadable i).toNat, quality := (Config.unreadable j).toNat % 2048 }, s)

/-- Writes a record. -/
def writeRec (a : Nat) (r : ImgRec) (s : State) : State := unitWrite 4 a r.bytes s

/-- `CHANGES` after a new record: counted where `VALUE`, `INVALID` or `QUEST` differ (R204). -/
def withChanges (old new : ImgRec) : ImgRec :=
  let moved := decide (old.value ≠ new.value ∨ old.quality % 4 ≠ new.quality % 4)
  { new with changes := if moved then (old.changes + 1) % 65536 else old.changes }

/-- `NOT_UPDATED` set (bit 2). -/
def notUpdated (r : ImgRec) : ImgRec := { r with quality := r.quality ||| 4 }

/-- A record before its first sample (R204). -/
def initRec (p : PointCfg) : ImgRec := { value := p.init, quality := 4 }

/-- A station input from a reply entry (R204). -/
def stationRec (e : ReplyInput) (status : Nat) : ImgRec :=
  { value := e.value
    quality := e.quality % 4 + bitAt (e.quality.testBit 2) 9 + bitAt (e.quality.testBit 3) 10 + bitAt (status.testBit 5) 4
    stampSec := e.stampSec, stampNs := e.stampNs }

/-- A mailbox point's record from its snapshot (R204). -/
def mailboxRec (old : ImgRec) (m : MbRec) : ImgRec :=
  if m.writer = 0 then
    { old with quality := (old.quality &&& 0x7AF) ||| 4 ||| 0x20 ||| bitAt (m.qual.testBit 5) 6 ||| bitAt (m.qual.testBit 6) 4 }
  else
    let same := decide (m.stampSec = old.stampSec ∧ m.stampNs = old.stampNs)
    { value := m.value
      quality := m.qual % 4 + bitAt same 2 + bitAt (m.qual.testBit 2) 7 + bitAt (m.qual.testBit 3) 8
        + bitAt (m.qual.testBit 4) 5 + bitAt (m.qual.testBit 5) 6 + bitAt (m.qual.testBit 6) 4
      stampSec := m.stampSec, stampNs := m.stampNs }

/-- The mailbox slot that a point reads now: the mapping changes at the TAI second boundary (R57). -/
def State.slotOf (s : State) (tag : Nat) : Option Nat :=
  let g := match s.cfg.next with
    | some n => if s.isSwapped mappingSwap then n else s.cfg.cur
    | none => s.cfg.cur
  (g.points.find? fun p => p.tag == tag && p.kind == 2).map (·.source)

/-- A mailbox point at a freeze: its slot, or, added or deleted by a pending delta, no value (R57). -/
def mailboxPoint (p : PointCfg) (old : ImgRec) (s : State) : ImgRec :=
  match s.slotOf p.tag with
  | some slot => mailboxRec old (s.snapshotSlot slot)
  | none =>
    if s.isSwapped mappingSwap then { old with quality := old.quality ||| 4 ||| 0x20 }
    else { initRec p with quality := 0x24 }

/-- A DI point at a freeze (R372, R373). -/
def diRec (d : DiState) : ImgRec :=
  { value := d.changes % 65536 * 65536 + bit1 d.level, quality := bit1 d.broken
    stampSec := timeSec d.stamp % 2 ^ 32, stampNs := timeNs d.stamp }

/-- An input record at a freeze, forces first (R204, R213). -/
def inputRec (g : Generation) (t : Nat) (p : PointCfg) (old : ImgRec) (s : State) : ImgRec :=
  match s.forceOn p.tag with
  | some v => withChanges old { value := v, quality := 8, stampSec := timeSec (s.islandTime marketIsland) % 2 ^ 32, stampNs := timeNs (s.islandTime marketIsland) }
  | none =>
    if p.kind = 0 then
      match (s.stream p.source t).reply with
      | some r =>
        match (g.streamIns t p.source).findIdx? (·.tag == p.tag) with
        | some i => withChanges old (stationRec (r.inputs.getD i {}) r.status)
        | none => notUpdated old
      | none => notUpdated old
    else if p.kind = 2 then withChanges old (mailboxPoint p old s)
    else if p.kind = 3 then withChanges old (diRec (s.fio.di.getD p.source {}))
    else old

/-- The record that an input takes over at the first freeze after a swap (R214 step 2): from its old place, or from what
the task that had it put aside when its own image moved; one with a new tag starts anew. -/
def movedRec (p : PointCfg) (src : Option (Nat × Nat)) (s : State) : ImgRec × State :=
  match src with
  | none => (initRec p, s)
  | some (u, a) =>
    match (s.task u).left.find? (·.1 == p.tag) with
    | some r => (r.2, s)
    | none => readRec a s

/-- The records of a task's inputs as they stand before its freeze, all read before any is written. -/
def priorRecs (t : Nat) (pts : List PointCfg) (base : Nat) (s : State) : List ImgRec × State :=
  (List.range pts.length).foldl (fun (acc : List ImgRec × State) i =>
    let r := match (s.task t).moved with
      | some l => movedRec (pts.getD i {}) (l.getD i none) acc.2
      | none => readRec (recAddr base i) acc.2
    (acc.1 ++ [r.1], r.2)) ([], s)

/-- The records of the old image that other tasks take over are put aside before the image moves. -/
def putAside (t : Nat) (s : State) : State :=
  let r := (s.task t).leaving.foldl (fun (acc : List (Nat × ImgRec) × State) x =>
    let r := readRec x.2 acc.2
    (acc.1 ++ [(x.1, r.1)], r.2)) ([], s)
  modTask t (fun x => { x with leaving := [], left := x.left ++ r.1 }) r.2

/-- The inputs of a task set at its freeze (R204, R214 step 2). -/
def freezeInputs (t : Nat) (s : State) : State :=
  let g := s.taskGen t
  let d := g.desc t
  let pts := g.inPts t
  let (olds, s) := priorRecs t pts d.inBase s
  let s := putAside t s
  let s := (List.range pts.length).foldl (fun s i =>
    writeRec (recAddr d.inBase i) (inputRec g t (pts.getD i {}) (olds.getD i {}) s) s) s
  modTask t (fun x => { x with moved := none, forced := (pts.map (·.tag)).filter fun tag => (s.forceOn tag).isSome }) s

/-- The input takes a force: of the table that the freeze read, once that freeze has taken place (R213). -/
def State.inputForced (s : State) (t tag : Nat) (old : ImgRec) : Bool :=
  if (s.task t).frozen then (s.task t).forced.contains tag else old.quality == 8 || (s.forceOn tag).isSome

/-- An on-time reply enters the image as it passes its checks (R106, R107, R198 step 3), but for forced inputs. -/
def lateInputs (t st : Nat) (r : ReplyFrame) (s : State) : State :=
  let g := s.taskGen t
  let d := g.desc t
  let pts := g.inPts t
  (List.range pts.length).foldl (fun s i =>
    let p := pts.getD i {}
    if p.kind = 0 ∧ p.source = st then
      let a := recAddr d.inBase i
      let (old, s) := readRec a s
      if s.inputForced t p.tag old then s
      else match (g.streamIns t st).findIdx? (·.tag == p.tag) with
        | some k => writeRec a (withChanges old (stationRec (r.inputs.getD k {}) r.status)) s
        | none => s
    else s) s

/-! ### Instances (R207, R208, R215) -/

/-- The bytes that an instance starts from: the runs' bytes, and zero everywhere else (R208). -/
def InstCfg.initBytes (i : InstCfg) : List Byte :=
  let n := roundUp i.size 256
  i.runs.foldl (fun l r => (l.take r.1 ++ r.2 ++ l.drop (r.1 + r.2.length)).take n) (List.replicate n 0)

/-- Initialises an instance: every byte written (R208). -/
def initInstance (g : Generation) (i : InstCfg) (s : State) : State := unitWrite 4 (g.instAddr (256 * i.addr)) i.initBytes s

/-- An instance kept across an on-line change (R215). -/
def keptInstance (old : Generation) (i : InstCfg) : Bool :=
  old.insts.insts.any fun o => o.tag == i.tag && o.blockType == i.blockType && o.layout == i.layout && o.addr == i.addr && o.size == i.size

/-- Before the swap: every new or changed instance is initialised (R215). -/
def initNewInstances (old new : Generation) (s : State) : State :=
  (new.insts.insts.filter fun i => !keptInstance old i).foldl (fun s i => initInstance new i s) s

/-- At the swap: the carry records of a task (R215). -/
def executeCarries (g : Generation) (t : Nat) (s : State) : State :=
  (g.insts.carries.filter (·.task == t)).foldl (fun s c =>
    match unitRead 4 (g.instAddr c.src) c.len s with
    | (some bs, s) => unitWrite 4 (g.instAddr c.dst) bs s
    | (none, s) => s) s

/-- The 256-byte lines of instances, in their order. -/
def Generation.linesOf (g : Generation) (l : List InstCfg) : List Nat :=
  l.flatMap fun i => (List.range ((i.size + 255) / 256)).map fun k => g.instAddr (256 * (i.addr + k))

/-- The 256-byte lines of a task's instances. -/
def Generation.taskLines (g : Generation) (t : Nat) : List Nat := g.linesOf (g.taskInsts t)

/-- An instance takes its place in a list ordered by address. -/
def insertInst (i : InstCfg) : List InstCfg → List InstCfg
  | [] => [i]
  | x :: r => if i.addr ≤ x.addr then i :: x :: r else x :: insertInst i r

/-- The RETAIN lines of a task (R207, R209). -/
def Generation.retainLines (g : Generation) (t : Nat) : List Nat :=
  (g.taskInsts t).flatMap fun i => (List.range (i.retainLen / 256)).map fun k => g.instAddr (256 * i.addr + i.retainOff + 256 * k)

/-- The XOR of the CRCs of lines as they are read: none where one cannot be read (R269, R288). -/
def readDigest : List Nat → State → Option Nat × State
  | [], s => (some 0, s)
  | a :: t, s =>
    let r := readCrc a s
    let q := readDigest t r.2
    ((r.1.bind fun c => q.1.map (c ^^^ ·)), q.2)

/-- The digest of a task is computed in full, at a start, at a swap and at each reseed: the XOR over every line of the CRC-64 of
its address and content (R269; log entry 107, DEDUCED). -/
def countDigest (t : Nat) (s : State) : State :=
  let r := readDigest ((s.taskGen t).taskLines t) s
  newDigest t r.1 r.2

/-- The voted path has written `n` bytes at `a`: the lines are marked for the shadow and the copy (R216, R264). -/
def markDirty (a n : Nat) (s : State) : State :=
  match s.lineOwner a with
  | none => s
  | some t =>
    let ls := (List.range ((a % 256 + n + 255) / 256)).map fun k => a / 256 * 256 + 256 * k
    modTask t (fun x => { x with dirty := x.dirty ++ ls.filter fun l => !(x.dirty.contains l) }) s

/-! ### Commit (R199, R216) -/

/-- The committed values by tag: the captured ones first, older ones kept while swaps are pending (R214). -/
def captureBuf (vals : List (Nat × Nat)) (pend : Bool) (old : List (Nat × Nat)) : List (Nat × Nat) :=
  vals ++ if pend then old.filter fun p => !(vals.any (·.1 == p.1)) else []

/-- The values of a task's output records (R199 step 1). -/
def captureOutputs (t : Nat) (s : State) : List (Nat × Nat) × State :=
  let g := s.taskGen t
  let d := g.desc t
  let pts := g.outPts t
  (List.range pts.length).foldl (fun (acc : List (Nat × Nat) × State) i =>
    let r := unitWord (recAddr d.outBase i) acc.2
    (acc.1 ++ [((pts.getD i {}).tag, r.1)], r.2)) ([], s)

/-- The bank after a commit: its lines refreshed, those that are RETAIN no longer gone, its values those of the cycle
(R209, R216). -/
def refreshBank (b : TaskBank) (ret : List Nat) (lines : List (Nat × List Byte)) (outs : List (Nat × Nat)) (cycle skips tgen : Nat) : TaskBank :=
  { lines := (b.lines.filter fun l => ret.contains l.1 && !(lines.any (·.1 == l.1))) ++ lines, outs := outs, cycle := cycle, skips := skips, tgen := tgen }

/-- The content of instance lines as identity `ident` reads them; one that it cannot read is left out (R288, R295). -/
def readLines (ident : Nat) (ls : List Nat) (s : State) : List (Nat × List Byte) × State :=
  ls.foldl (fun (acc : List (Nat × List Byte) × State) a =>
    match unitRead ident a 256 acc.2 with
    | (some bs, s) => (acc.1 ++ [(a, bs)], s)
    | (none, s) => (acc.1, s)) ([], s)

/-- An access of the sequencer to the retained shadow and the staging buffer in `SHADOW_UNIT` is judged by its gate (R208, R295);
where they lie within the unit the spec does not say, so the whole unit is judged (log entry 136, DESIGN CHOICE). -/
def shadowMay (unit : Nat) (write : Bool) (s : State) : Bool × State := unitMay 4 (unit * 0x4000000) 0x4000000 write s

/-- The shadow takes a commit and flips (R216); a write of it that is refused leaves the current bank (R295). -/
def shadowCommit (t : Nat) (outs : List (Nat × Nat)) (cycle : Nat) (s : State) : State :=
  let x := s.task t
  let g := s.taskGen t
  let ret := g.retainLines t
  let ls := if 0 < x.retAll then ret else ret.filter fun l => x.dirty.contains l || x.dirtyPrev.contains l
  let nb := 1 - x.cur
  let (lines, s) := readLines 4 ls s
  let b := refreshBank (x.banks.getD nb {}) ret lines outs cycle x.skips x.gen
  let r := shadowMay g.insts.shadowUnit true s
  if r.1 then modTask t (fun y => { y with banks := putAt y.banks nb b, cur := nb, retAll := y.retAll - 1 }) r.2 else r.2

/-- The three things a commit does (R199): capture, shadow, cycle count. -/
def commitTask (t : Nat) (s : State) : State :=
  let (outs, s) := captureOutputs t s
  let cyc := ((s.task t).cycles + 1) % 2 ^ 64
  let s := shadowCommit t outs cyc s
  modTask t (fun x => { x with
    prevBuf := x.buf, buf := captureBuf outs s.cfg.next.isSome x.buf, cycles := cyc, state := 0, frozen := false, committedAt := some (s.now, s.aon)
    dirtyPrev := x.dirty, dirty := []
    dirtyLink := x.dirtyLink ++ x.dirty.filter fun l => !(x.dirtyLink.contains l) }) s

/-! ### The swap of a task (R58, R59, R214) -/

/-- A task's event bit. -/
def taskEvent (t bit : Nat) (s : State) : State := raise (.tevt t) bit s

/-- Where the records of the new image's inputs stand before the first freeze: a task of the old tables, and an address
(R214 step 2). -/
def movedFrom (old new : Generation) (t : Nat) : List (Option (Nat × Nat)) :=
  (new.inPts t).map fun p => (List.range 16).findSome? fun u =>
    ((old.inPts u).findIdx? (·.tag == p.tag)).map fun i => (u, recAddr (old.desc u).inBase i)

/-- The records of a task's old image that other tasks of the new tables take over: tag and address. -/
def leavingRecs (old new : Generation) (t : Nat) : List (Nat × Nat) :=
  let mine := (new.inPts t).map (·.tag)
  ((old.inPts t).mapIdx fun i p => (p.tag, recAddr (old.desc t).inBase i)).filter fun x =>
    !(mine.contains x.1) && new.points.any (·.tag == x.1)

/-- The forces on points of the task whose tag the new generation deletes are dropped (R59). -/
def dropForces (old new : Generation) (t : Nat) (s : State) : State :=
  let gone := s.seq.forces.filter fun f =>
    old.points.any (fun p => p.tag == f.tag && p.task == t) && !(new.points.any (·.tag == f.tag))
  gone.foldl (fun s f =>
    taskEvent t 3 (ledger 0x0604 t [f.tag] { s with seq := { s.seq with forces := s.seq.forces.filter (·.idx != f.idx), forcesSent := false } })) s

/-- Task `t` swaps to the new tables (R214, R215): values by tag, records moved, carries executed, the shadow marked. -/
def swapTask (t : Nat) (s : State) : State :=
  match s.cfg.next with
  | none => s
  | some g =>
    let old := s.cfg.cur
    let vals := (g.outPts t).map fun p => (p.tag, (s.committed t p.tag).getD p.init)
    let s := dropForces old g t s
    let s := modTask t (fun x => { x with
      swapped := true, gen := g.gen, buf := captureBuf vals true x.buf, moved := some (movedFrom old g t)
      leaving := leavingRecs old g t, left := [], retAll := 2 }) s
    countDigest t (taskEvent t 2 (executeCarries g t s))

/-- A task that only the old generation has ends at A: the forces on its deleted tags are dropped there (R56, R59). -/
def endOldTasks (g : Generation) (s : State) : State :=
  (List.range 16).foldl (fun s t =>
    if s.cfg.cur.tasks.any (·.task == t) && !(g.tasks.any (·.task == t)) then dropForces s.cfg.cur g t s else s) s

/-! ### Cycle starts (R195, R198, R211) -/

/-- A task entry's cycle starts at this period count (R195). -/
def TaskCfg.due (c : TaskCfg) (count : Nat) : Bool := count % c.period == c.phase

/-- The task's entry for a start now: the new one from A on, unless the start is skipped (R56); a task that the new
generation lacks has none from A on. -/
def State.startCfg (s : State) (t : Nat) : Option (TaskCfg × Bool) :=
  match s.cfg.next with
  | none => (s.cfg.cur.tasks.find? (·.task == t)).map fun c => (c, false)
  | some g =>
    if (s.task t).swapped then (g.tasks.find? (·.task == t)).map fun c => (c, false)
    else if s.pastA && s.cfg.carried.any taskTables.contains then (g.tasks.find? (·.task == t)).map fun c => (c, true)
    else (s.cfg.cur.tasks.find? (·.task == t)).map fun c => (c, false)

/-- A start that falls due before the previous commit is skipped (R111, R211); it carries the values of the cycle before one whose
commit completed in the strobe's own instant. -/
def skipStart (t apply : Nat) (s : State) : State :=
  let x := s.task t
  let n := x.consec + 1
  let s := if x.state = 0 then
      modTask t (fun y => { y with buf := x.buf }) (dispatch t apply true (modTask t (fun y => { y with buf := x.prevBuf }) s))
    else dispatch t apply true s
  let s := modTask t (fun y => { y with skips := tallyInc y.skips, consec := n, skipAt := some s.now }) s
  let s := ledger 0x0601 t (two x.cycles) (taskEvent t 0 s)
  if n % 4 = 0 then taskEvent t 1 (report t t s) else s

/-- The previous cycle has not committed in time for a start at the strobe `tp`: it is still open, or its commit completed
in the strobe's own instant (R199). -/
def TaskState.lateFor (x : TaskState) (tp aon : Nat) : Bool :=
  x.state != 0 || match x.committedAt with
    | some (t, a) => decide (tp ≤ t ∧ aon ≤ a)
    | none => false

/-- Task `t` starts a cycle at the strobe of time `tp` (R198), or skips it; on a module that is not primary only the swap
takes place (R61). -/
def startTask (t tp count : Nat) (s : State) : State :=
  match s.startCfg t with
  | none => s
  | some (c, swaps) =>
    if !c.due count then s
    else if !s.primary then when swaps (swapTask t) s
    else
      let apply := tp + c.period * ticksPerPeriod
      if (s.task t).lateFor tp s.aon then skipStart t apply s
      else
        let s := when swaps (swapTask t) s
        let s := modTask t (fun x => { x with state := 1, t0 := tp, frozen := false, consec := 0, skipAt := none }) s
        dispatch t apply false s

/-- The tasks in the order of dispatch: by rank, then number (R110, R197). -/
def State.taskOrder (s : State) : List Nat :=
  (List.range 17).flatMap fun r => (List.range 16).filter fun t => s.taskRank t == r

/-! ### The triad's schedule (R197) -/

/-- The ready task of the highest rank that still has budget in the period. -/
def State.nextTask (s : State) : Option Nat := s.taskOrder.find? fun t => (s.task t).state == 2 && s.slotOpen t

/-- The triad runs that task, or the firmware; a split, stopped or testing triad, and one whose power has failed, runs
none. -/
def reschedule (s : State) : State :=
  let runs := if 3 ≤ s.trd.mode ∨ s.ptm.powerFail then none else s.nextTask
  { s with seq := { s.seq with runs := runs } }

/-! ### Station states (R112) -/

/-- The state that the verdicts on a station's streams give; none where not every stream has been judged. -/
def stationState (l : List StreamState) : Option Nat :=
  if l.any (fun x => x.judged && x.verdict == .none) then some 2
  else if l.any (fun x => x.judged && x.verdict == .late) then some 3
  else if l.all (fun x => x.judged && x.verdict == .onTime) then some 1
  else none

/-- A station takes a state: records and events of the changes that R112 names. -/
def setStation (st port new : Nat) (s : State) : State :=
  let old := (s.stn st).state
  let s := modStn st (fun x => { x with state := new }) s
  if new = 2 ∧ old ≠ 2 then ledger 0x0201 port [st] (raise (.prt port) 1 s)
  else if new = 1 ∧ (old = 2 ∨ old = 0) then ledger 0x0202 port [st] (raise (.prt port) 2 s)
  else s

/-- What a freeze knows of a stream's latest cycle EXCHANGE: an on-time reply that is still being received counts as on
time (R107), and stays so judged until the next freeze where it then fails its frame check (log entry 130, DESIGN CHOICE). -/
def StreamState.atFreeze (x : StreamState) (receiving : List Nat) : AckState :=
  if receiving.contains x.station then .onTime else x.ack

/-- The streams of a task are judged at its freeze, and its stations' states follow (R112); `receiving` names the stations
whose on-time reply is still being received (R107). A station that has never answered stays IDLE (log entry 24, DEDUCED). -/
def evaluateStations (t : Nat) (receiving : List Nat) (s : State) : State :=
  ((s.taskGen t).taskStations t).foldl (fun s c =>
    let st := c.number
    let v := (s.stream st t).atFreeze receiving
    let s := modStream st t (fun x => { x with judged := x.sent, verdict := v }) s
    let s := if v == .onTime then s else modStn st (fun x => { x with missed := min 255 (x.missed + 1) }) s
    match stationState ((s.stationTasks st).map (s.stream st)) with
    | some v => if (s.stn st).valid || receiving.contains st then setStation st c.port v s else s
    | none => s) s

/-- Every station is IDLE and every stream starts anew (R112, R274). -/
def resetStations (s : State) : State :=
  { s with prt := { s.prt with
    stations := s.prt.stations.map fun x => { x with state := 0, valid := false }
    streams := []
    ports := s.prt.ports.map fun p => { p with outq := [], waitq := [] } } }

/-! ### Retained rounds (R217) -/

/-- The content of a retained image behind its header page: the force table, each task's values and RETAIN lines. The
layout within the pages is the model's (log entry 23, DESIGN CHOICE). -/
def RetImage.body (r : RetImage) : List Byte :=
  (r.forces.flatMap fun f => natLe f.idx 4 ++ natLe f.tag 4 ++ natLe f.value 4)
    ++ (r.banks.flatMap fun b => b.2.outs.flatMap fun o => natLe o.1 4 ++ natLe o.2 4)
    ++ (r.banks.flatMap fun b => b.2.lines.flatMap fun l => natLe l.1 8 ++ l.2)

/-- Pages of a body that differ from those of another. -/
def pagesDiffering (a b : List Byte) : Nat :=
  ((List.range ((a.length + 4095) / 4096)).filter fun k => slice a (4096 * k) 4096 != slice b (4096 * k) 4096).length

/-- The image that a round copies now. -/
def State.roundImage (s : State) : RetImage :=
  { stamp := s.islandTime marketIsland, gen := s.bsl.genCur, blvl := s.cart.blvl, forces := s.seq.forces
    banks := ((List.range 16).filter fun t => (s.taskCfg t).isSome).map fun t => (t, (s.task t).banks.getD (s.task t).cur {}) }

/-- Pages that a round writes: the header page, and those that differ from the slot's present content (R217). -/
def State.roundPages (s : State) (img : RetImage) : Nat :=
  let was := match s.cart.retained.getD s.cart.roundSlot none with
    | some r => r.image.body
    | none => []
  1 + pagesDiffering img.body was

/-- A retained round starts (R217), or is skipped while the previous write continues; without a writable keeper none is
started. The round reads the banks and writes the staging buffer, both in `SHADOW_UNIT` (R295). -/
def startRound (s : State) : State :=
  if !s.keeperWritable then { s with seq := { s.seq with retSuspended := true } }
  else if s.seq.retWriting then hwSet 0x60000 4 none { s with seq := { s.seq with retSkipped := true } }
  else
    let r := shadowMay s.cfg.cur.insts.shadowUnit false s
    let w := shadowMay s.cfg.cur.insts.shadowUnit true r.2
    if r.1 && w.1 then
      let img := w.2.roundImage
      queueJob { cls := 1, kind := .retained img, pages := w.2.roundPages img } { w.2 with seq := { w.2.seq with retWriting := true } }
    else w.2

/-! ### Restart (R209, R219) -/

/-- The images of a task before a first sample: inputs at `INIT`, outputs at given values (R219). -/
def initImages (g : Generation) (t : Nat) (out : PointCfg → Nat) (s : State) : State :=
  let d := g.desc t
  let ins := g.inPts t
  let outs := g.outPts t
  let s := (List.range ins.length).foldl (fun s i => writeRec (recAddr d.inBase i) (initRec (ins.getD i {})) s) s
  (List.range outs.length).foldl (fun s i => writeRec (recAddr d.outBase i) { value := out (outs.getD i {}) } s) s

/-- A task starts over with given values, counts and lines of RETAIN data (R209, R219); both banks of its shadow hold what
it starts from (R216). -/
def restartTask (g : Generation) (t : Nat) (bank : Option TaskBank) (s : State) : State :=
  let old := bank.getD {}
  let value (p : PointCfg) : Nat := ((old.outs.find? (·.1 == p.tag)).map (·.2)).getD p.init
  let ret := g.retainLines t
  let s := (g.taskInsts t).foldl (fun s i => initInstance g i s) s
  let s := (old.lines.filter fun l => ret.contains l.1).foldl (fun s l => unitWrite 4 l.1 l.2 s) s
  let s := initImages g t value s
  let (lines, s) := readLines 4 ret s
  let bank : TaskBank := { lines := lines, outs := (g.outPts t).map fun p => (p.tag, value p), cycle := old.cycle, skips := old.skips, tgen := g.gen }
  countDigest t <| modTask t (fun x => { x with
    banks := [bank, bank], cur := 0, leaving := [], left := [], committedAt := none
    state := 0, frozen := false, cycles := old.cycle, skips := old.skips, consec := 0, gen := g.gen, moved := none
    buf := (g.outPts t).map fun p => (p.tag, value p)
    localSets := [], dirty := [], dirtyPrev := [], dirtyLink := [], retAll := 2, skipAt := none }) s

/-- How many forces a cold restart clears: those of the table, or, of a module that comes up with an empty one, those of
the retained image that it does not take (log entry 91, DEDUCED). -/
def State.forcesCleared (s : State) : Nat :=
  if s.seq.forces.isEmpty && s.keeperReadable then (s.cart.newestSlot.map (·.image.forces.length)).getD 0 else s.seq.forces.length

/-- Every task of the generation restarts cold (R219): forces cleared, records 0x0605 and 0x0606. -/
def restartCold (reason : Nat) (s : State) : State :=
  let g := s.cfg.cur
  let n := s.forcesCleared
  let s := g.tasks.foldl (fun s c => restartTask g c.task none s) s
  let s := { s with
    seq := { s.seq with forces := [], forcesSent := false, lastWarm := false, running := true }
    gen := { s.gen with kind := 2, reason := reason } }
  ledger 0x0606 0xFFFF [n] (ledger 0x0605 0xFFFF [reason] s)

/-- Every task restarts warm from an image (R219). -/
def restartWarm (img : RetImage) (s : State) : State :=
  let g := s.cfg.cur
  let s := g.tasks.foldl (fun s c => restartTask g c.task ((img.banks.find? (·.1 == c.task)).map (·.2)) s) s
  { s with
    seq := { s.seq with forces := img.forces, forcesSent := false, lastWarm := true, running := true }
    gen := { s.gen with kind := 1, reason := 0 } }

/-- The reason for a cold restart, 0 where a warm one is possible (R219, R394); of several the model names the first in this order,
and without a keeper in OK or READ_ONLY no retained slot can be read (log entry 146, DEDUCED). -/
def State.coldReason (s : State) : Nat :=
  if s.gen.commandedCold then 6
  else if s.kpr.state = 3 then 5
  else if s.kpr.state ≠ 2 then 1
  else match s.cart.newestImage with
    | none => 1
    | some img =>
      if s.gen.turned ∨ img.gen ≠ s.bsl.genCur then 2
      else if s.cfg.cur.tasks.any (fun c => match img.banks.find? (·.1 == c.task) with
          | some b => b.2.tgen != s.cfg.cur.gen
          | none => true) then 3
      else if img.blvl ≠ s.cart.blvl then 4
      else 0

/-- The restart of a module that enters PRIMARY from P6 (R394). -/
def restartFromKeeper (s : State) : State :=
  let r := s.coldReason
  match r, s.cart.newestImage with
  | 0, some img => restartWarm img s
  | _, _ => restartCold r s

end Sys2Proof.Machine
end

