-- ==== Sys2Proof/Machine/TrdOps.lean ====
section
/-! DEFINITION. The triad (chapter 9) as operations other units share: fencing, stopping, rejoin, split intervals, and
the end of a debug session. -/

namespace Sys2Proof.Machine

open Sys2Proof

/-- Changes the triad's state. -/
def modTrd (f : TrdState → TrdState) (s : State) : State := { s with trd := f s.trd }

/-- Sets a bit of `TRD_EVT`. Only minority fences count at the triad source, as R337 lists (log entry 27, DEDUCED). -/
def trdEvent (b : Nat) (s : State) : State :=
  hwSet 0x70008 b none (if s.trd.evt.testBit b then s else modTrd (fun t => { t with evt := t.evt + 2 ^ b }) s)

/-- Changes a lane. -/
def modLane (k : Nat) (f : LaneState → LaneState) (s : State) : State := modTrd (fun t => { t with lanes := updAt t.lanes k f }) s

/-- A lane leaves the triad: it is halted, and its memory and architectural state no longer follow the voted lanes' (R225,
R235). -/
def laneOut (k : Nat) (s : State) : State := modLane k (fun x => { x with halted := true, tcmSame := false, archSame := false }) s

/-- The lanes load one architectural state and invalidate their level-1 caches (R227, R232). -/
def lanesReload (s : State) : State := modTrd (fun t => { t with lanes := t.lanes.map fun x => { x with archSame := true, cached := false } }) s

/-- The triad stops (R228): no further transaction leaves it. -/
def triadStop (s : State) : State :=
  if s.trd.mode = 4 then s else report 17 0xFF (modTrd (fun t => { t with mode := 4, rejoinAt := none, copyDone := false }) s)

/-- A lane is fenced by a minority decision (R227); the fourth time since start it is retired. -/
def fenceLane (lane group : Nat) (s : State) : State :=
  let s := modTrd (fun t => { t with
    mode := 1, fencedLane := lane, fencedAt := s.now, rejoinAt := none, copyDone := false
    fences := tallyInc t.fences, laneFences := updAt t.laneFences lane (· + 1) }) s
  let s := ledger 0x0701 lane [lane, group] (report 16 lane (trdEvent 0 (laneOut lane s)))
  if 4 ≤ s.trd.laneFences.getD lane 0 then ledger 0x0702 lane [lane] (trdEvent 2 (modTrd (fun t => { t with retired := true }) s))
  else s

/-- The group that the record of a fence without a vote names: the spec states none, a free value (log entry 28, DESIGN CHOICE). -/
def noGroup (lane : Nat) : Nat := (Config.noVoteGroup lane).toNat

/-- The lane whose digest differs from the two others' (R227, R232): 3 for none, 4 for no majority. -/
def oddLane (d : Digests) : Nat :=
  if d.d0 = d.d1 ∧ d.d1 = d.d2 then 3
  else if d.d1 = d.d2 then 0
  else if d.d0 = d.d2 then 1
  else if d.d0 = d.d1 then 2
  else 4

/-- Rejoin starts at a task boundary (R227), not for a retired lane, nor while a debug session holds it (R236). -/
def rejoinStart (s : State) : State :=
  if s.trd.mode = 1 ∧ s.trd.fencedLane < 3 ∧ !s.trd.retired ∧ !s.trd.debugLive then
    modTrd (fun t => { t with mode := 2, rejoinAt := some s.now, copyDone := false }) s
  else s

/-- The hand-over after a split (R232): each lane invalidates its caches, zeroes the upper 256 KiB of its TCM, and reloads the
state saved at the split; the step is charged to the split stall whatever its budget (R25; log entry 102, DESIGN CHOICE);
then the three compare digests: voting resumes, or a lane is fenced, or the triad stops. -/
def splitRejoin (cause : Nat) (d : Digests) (s : State) : State :=
  let s := modTrd (fun t => { t with
    lanes := t.lanes.map fun x => { x with upperZero := true, cached := false, archSame := true, entry := none }
    archSaved := false, splitEndCause := cause, mode := 0, splitDone := [false, false, false] }) s
  let s := chargeSlot 23 (min 5000 (Config.splitStepNs s.trd.splits)) s
  let o := oddLane d
  if o = 3 then s
  else if o = 4 then triadStop s
  else report 18 o (trdEvent 3 (fenceLane o (noGroup o) s))

/-- A split interval is interrupted (R231). -/
def splitInterrupted (cause : Nat) (d : Digests) (s : State) : State := if s.trd.mode = 3 then splitRejoin cause d s else s

/-- A task is ready. -/
def State.taskReady (s : State) : Bool := s.seq.tasks.any fun x => x.state == 2

/-- A debug session ends (R236): `cause` 0 the probe detached, 1 `DETACH`, 2 the module became primary. The number that
the record gives for the cause is a free value (log entry 29, DESIGN CHOICE). -/
def endDebug (cause : Nat) (s : State) : State :=
  if s.trd.debugLive then
    let s := modTrd (fun t => { t with debugLive := false, fencedLane := t.debugLane, fencedAt := s.now }) (laneOut s.trd.debugLane s)
    ledger 0x0705 s.trd.debugLane [(Config.debugEndCause cause).toNat] (trdEvent 4 s)
  else s

/-- A debug attach is armed (R234). -/
def State.armed (s : State) : Option Nat :=
  match s.trd.armLane with
  | some l => if s.aon < s.trd.armUntil then some l else none
  | none => none

end Sys2Proof.Machine
end

