-- ==== Sys2Proof/Machine/WvlOps.lean ====
section
/-! DEFINITION. The pair link's operations (chapter 11): roles, the primacy epoch and its reserve, link frames, copies and
reseeds, hand-over, becoming and leaving PRIMARY. -/

namespace Sys2Proof.Machine

open Sys2Proof

/-- Changes the pair link's state. -/
def modWvl (f : WvlState → WvlState) (s : State) : State := { s with wvl := f s.wvl }

/-- The `PAIR` section in force (R257). -/
def State.pair (s : State) : PairSec := s.cfg.cur.pair

/-- The tasks that this module runs. -/
def State.myTasks (s : State) : List Nat := (List.range 16).filter fun t => (s.taskCfg t).isSome

/-- A copy state as held. -/
def State.copyState (s : State) (t : Nat) : CopyState := s.wvl.copies.getD t {}

/-- Changes a task's copy state. -/
def modCopy (t : Nat) (f : CopyState → CopyState) (s : State) : State := modWvl (fun w => { w with copies := updAt w.copies t f }) s

/-- A task bit set in a mask. -/
def setBit (m t : Nat) : Nat := if m.testBit t then m else m + 2 ^ t

/-- A task bit cleared in a mask. -/
def clrBit (m t : Nat) : Nat := if m.testBit t then m - 2 ^ t else m

/-! ### Roles and epochs (R255, R260, R261, R270) -/

/-- A role change with its cause: `WVL_LAST_CHANGE`, its record, sources 120 and 125. A role of service enters P7; MISMATCH
out of P6 is that phase's failure exit (R389). -/
def setRole (new cause : Nat) (s : State) : State :=
  let old := s.wvl.role
  if new = old then s
  else
    let s := modWvl (fun w => { w with role := new, lastRole := new, lastCause := cause, ownSideNoted := false }) s
    let s := if new = 1 ∨ new = 2 ∨ new = 3 then { s with gen := { s.gen with phase := 7, held := false } }
      else if old = 0 then { s with gen := { s.gen with held := true } } else s
    let s := raise .wvl 0 (ledger 0x0A01 0xFFFF [old, new, cause] s)
    when (decide (new = 3 ∨ new = 5)) (raise .wvl 5) s

/-- The pair (`EPOCH`, `SIDE`) is newer than another (R260). -/
def newerPair (e sd e' sd' : Nat) : Bool := serialNewer 32 e e' || (decide (e = e') && decide (sd = 0 ∧ sd' = 1))

/-- The epoch in force changes: its record, source 127 (R261). -/
def setEpoch (new : Nat) (s : State) : State :=
  let new := new % 2 ^ 32
  let old := s.wvl.epoch
  let s := modWvl (fun w => { w with epoch := new, epochHeld := true, epochNext := none, epochWait := false }) s
  if new = old then s else raise .wvl 7 (ledger 0x0A02 0xFFFF [old, new] s)

/-- The reserve cannot be written: `UNRESERVED`, its record, source 127 (R261). -/
def reserveFailed (s : State) : State := raise .wvl 7 (ledger 0x0A03 0xFFFF [] (modWvl (fun w => { w with unreserved := true }) s))

/-- A reserve write waits already for at least this value. -/
def State.reserveQueued (s : State) (v : Nat) : Bool :=
  let has (j : KprJob) : Bool := match j.kind with
    | .reserve x => x == v || epochAhead x v
    | _ => false
  s.kpr.jobs.any has || (match s.kpr.inFlight with | some j => has j | none => false)

/-- The reserve is raised in the background (R261). -/
def raiseReserve (v : Nat) (s : State) : State :=
  let v := v % 2 ^ 32
  if epochAhead v s.cart.epochReserve && !s.reserveQueued v then queueJob { cls := 0, kind := .reserve v, pages := 2 } s else s

/-- An epoch is reserved before it is used (R261): it comes into force at once where the reserve covers it or cannot be
written, and otherwise from the strobe after its reserve is written; no EXCHANGE leaves until then (log entry 105,
DESIGN CHOICE). -/
def secureEpoch (v : Nat) (s : State) : State :=
  let v := v % 2 ^ 32
  if !s.keeperWritable then setEpoch v (reserveFailed s)
  else
    let s := modWvl (fun w => { w with unreserved := false }) s
    if epochAhead v s.cart.epochReserve then raiseReserve v (modWvl (fun w => { w with epochNext := some v, epochWait := true }) s)
    else raiseReserve (v + 1) (setEpoch v s)

/-- An epoch that waits comes into force once it is reserved, or, where a new primary waits for it, once its reserve
cannot be written (R261, R262). -/
def reservedEpoch (s : State) : State :=
  match s.wvl.epochNext with
  | some e =>
    if !epochAhead e s.cart.epochReserve then raiseReserve (e + 1) (setEpoch e s)
    else if s.wvl.epochWait && (s.wvl.unreserved || !s.keeperWritable) then
      setEpoch e (when (!s.wvl.unreserved) reserveFailed s)
    else s
  | none => s

/-- The greater of two epochs. -/
def maxEpoch (a b : Nat) : Nat := if epochAhead b a then b else a

/-- The epoch of a module that enters PRIMARY from P6 or by FORCE_PRIMARY (R261). -/
def startEpoch (s : State) : State :=
  let p := s.wvl.partner
  let used := maxEpoch s.cart.epochReserve (if p.everSeen then maxEpoch p.reserve p.epoch else 0)
  secureEpoch (used + 1) s

/-- The epoch of a takeover: one more than the partner's, or than the module's own where that is newer (R271, R274). -/
def loadEpoch (s : State) : State :=
  let pe := s.wvl.partner.epoch
  let top := if s.wvl.epochHeld && serialNewer 32 s.wvl.epoch pe then s.wvl.epoch else pe
  secureEpoch (top + 1) s

/-! ### Tasks current and under reseed (R266, R267) -/

/-- Task `t` is not current (source 123). -/
def notCurrent (t : Nat) (s : State) : State :=
  raise .wvl 3 (modWvl (fun w => { w with notCurrent := setBit w.notCurrent t }) s)

/-- Task `t` is current again (source 123). -/
def current (t : Nat) (s : State) : State :=
  let was := s.wvl.notCurrent.testBit t
  let s := modWvl (fun w => { w with notCurrent := clrBit w.notCurrent t, reseed := clrBit w.reseed t }) s
  when was (raise .wvl 3) s

/-- Task `t` comes under reseed, and counts once. -/
def underReseed (t : Nat) (s : State) : State :=
  let was := s.wvl.reseed.testBit t
  let s := modWvl (fun w => { w with reseed := setBit w.reseed t, reseeds := if was then w.reseeds else tallyInc w.reseeds }) s
  notCurrent t s

/-- A copy was dropped: one count, not current, source 123 (R266). -/
def copyDrop (t : Nat) (s : State) : State :=
  notCurrent t (modWvl (fun w => { w with copyDropped := tallyInc w.copyDropped }) s)

/-- The primary starts a task's reseed from its first line, its digest computed in full (R267, R269). -/
def startReseed (t : Nat) (s : State) : State :=
  let s := countDigest t (underReseed t s)
  let s := modCopy t (fun c => { c with sent := [], pending := none, left := 0, extra := [], droppedRun := 0, ended := false, reseedPos := 0 }) s
  modTask t (fun x => { x with dirtyLink := [] }) s

/-- A module that becomes SYNCING has every task reseeded (R268). -/
def enterSync (s : State) : State :=
  let s := modWvl (fun w => { w with copies := List.replicate 16 {} }) s
  let s := s.myTasks.foldl (fun s t => underReseed t (modTask t (fun x => { x with state := 0, frozen := false, localSets := [], gen := (s.taskGen t).gen }) s)) s
  if s.gen.kind = 0 then
    let s := s.myTasks.foldl (fun s t => initImages (s.taskGen t) t (·.init) s) s
    { s with gen := { s.gen with kind := 3 } }
  else s

/-! ### Copies of the primary (R264 to R267) -/

/-- Bytes that a copy charges (R264). -/
def copyBytes (m : CopyMsg) : Nat :=
  64 + 264 * m.lines.length + 4 * m.outs.length + 8 * (match m.forces with | some f => f.length | none => 0) + 16

/-- The force table as a copy carries it: tag and value by entry, 0 and 0 for an empty one below the last. -/
def State.forceWords (s : State) : List (Nat × Nat) :=
  let n := s.seq.forces.foldl (fun m f => max m (f.idx + 1)) 0
  (List.range n).map fun i => match s.seq.forces.find? (·.idx == i) with
    | some f => (f.tag, f.value)
    | none => (0, 0)

/-- The values a copy carries, all of the task's, in list order. -/
def State.copyOuts (s : State) (t : Nat) : List Nat :=
  ((s.taskGen t).outPts t).map fun p => (s.committed t p.tag).getD p.init

/-- The copy of the cycle just committed, its lines as the pair-link DMA reads them (R34, R264). -/
def copyMsg (t : Fin 16) (s : State) : CopyMsg × State :=
  let x := s.task t.val
  let c := s.copyState t.val
  let (lines, s) := readLines 10 (x.dirtyLink ++ c.extra.filter fun l => !(x.dirtyLink.contains l)) s
  ({ task := t, tgen := x.gen, cycle := x.cycles, base := c.base, lines := lines, outs := s.copyOuts t.val
     forces := if s.seq.forcesSent then none else some s.forceWords, skips := x.skips, digest := x.digest }, s)

/-- The room that the copy stall has left in this period. -/
def State.copyRoom (s : State) : Nat :=
  let x := s.bgt.slots.getD 19 {}
  if s.slotOpen 19 && decide (s.wvl.lanesUp ≠ 0) && s.primary then x.budget - x.spent else 0

/-- The pending copy that was committed first. -/
def State.firstPending (s : State) : Option Nat :=
  ((List.range 16).filter fun t => (s.copyState t).pending.isSome).foldl (fun a t => match a with
    | some b => if (s.copyState t).order < (s.copyState b).order then some t else some b
    | none => some t) none

/-- The copy that leaves first moves on by the room left; a whole one is on the link (R264, R265). -/
def pumpOne (s : State) : State :=
  match s.firstPending with
  | none => s
  | some t =>
    let c := s.copyState t
    let n := min s.copyRoom c.left
    let s := chargeSlot 19 n s
    if c.left ≤ n then
      match c.pending with
      | some m => linkFrames 2 (copyBytes m) (fun h => .copy h m) (modCopy t (fun c => { c with
          pending := none, left := 0
          sent := c.sent ++ [{ cycle := m.cycle, base := m.base, period := s.pcount, lines := m.lines.map (·.1) }] }) s)
      | none => s
    else modCopy t (fun c => { c with left := c.left - n }) s

/-- Copies leave in commit order while the stall has room. -/
def pumpCopies (s : State) : State := (List.range 16).foldl (fun s _ => if s.copyRoom = 0 then s else pumpOne s) s

/-- The copy of a commit (R264): to a partner in service; one larger than 32 MiB is not sent and its task is reseeded. -/
def copySend (t : Nat) (s : State) : State :=
  if h : t < 16 then
    if s.primary && s.partnerInService && decide (s.pair.mode ≠ 0) then
      let (m, s) := copyMsg ⟨t, h⟩ s
      let b := copyBytes m
      if 33554432 < b then startReseed t s
      else
        let s := modWvl (fun w => { w with copyMax := max w.copyMax b, copySeq := w.copySeq + 1 }) s
        let s := modCopy t (fun c => { c with pending := some m, left := b, order := s.wvl.copySeq, base := m.cycle, extra := [] }) s
        let s := modTask t (fun x => { x with dirtyLink := [] }) s
        pumpCopies { s with seq := { s.seq with forcesSent := true } }
    else s
  else s

/-- Lines joined to those the next copy must carry. -/
def addLines (a b : List Nat) : List Nat := a ++ b.filter fun l => !(a.contains l)

/-- Enough copies in a row were dropped: the task is reseeded (R267). -/
def reseedIfDue (t : Nat) (s : State) : State :=
  if s.pair.reseedAfter ≤ (s.copyState t).droppedRun && !(s.wvl.reseed.testBit t && !(s.copyState t).ended) then startReseed t s else s

/-- A copy whose last frame has not left at the task's next start signal is dropped (R266). -/
def dropUnsentCopy (t : Nat) (s : State) : State :=
  match (s.copyState t).pending with
  | none => s
  | some m =>
    let s := modCopy t (fun c => { c with
      pending := none, left := 0, base := m.base, lostAt := max c.lostAt m.cycle
      extra := addLines c.extra (m.lines.map (·.1)), droppedRun := c.droppedRun + 1 }) s
    let s := if m.forces.isSome then { s with seq := { s.seq with forcesSent := false } } else s
    reseedIfDue t (copyDrop t s)

/-- Copies of a task that stay without a sign in a heartbeat's `ACK` (R266): `pcount` is the heartbeat's. The lines of a
failed copy, and of those in flight that build on it, travel again in the next copy, on the copy that `ACK` shows; a copy in
flight that builds on that one already carries them. -/
def judgeFailed (t pcount : Nat) (s : State) : State :=
  let c := s.copyState t
  let late := c.sent.filter fun e => decide (e.period + 2 ≤ pcount)
  if late.isEmpty then s
  else
    let (lost, alive) := (c.sent.filter fun e => !(decide (e.period + 2 ≤ pcount))).span fun e => e.base != c.acked
    let s := modCopy t (fun c => { c with
      sent := lost.map (fun e => { e with lines := [] }) ++ alive
      extra := addLines c.extra ((late ++ lost).flatMap (·.lines))
      base := if alive.isEmpty then c.acked else c.base
      lostAt := late.foldl (fun m e => max m e.cycle) c.lostAt, droppedRun := c.droppedRun + late.length }) s
    let s := { s with seq := { s.seq with forcesSent := false } }
    reseedIfDue t (late.foldl (fun s _ => copyDrop t s) s)

/-- What a heartbeat's `ACK` shows of a task's copies (R266, R267): those of its cycle and before it are applied. A task under
reseed becomes current with a copy behind its end record alone. -/
def judgeAck (t ack pcount : Nat) (s : State) : State :=
  let c := s.copyState t
  let (shown, rest) := c.sent.span fun e => !serialNewer 32 (e.cycle % 2 ^ 32) ack
  let s := match shown.getLast? with
    | some e =>
      let s := modCopy t (fun c => { c with sent := rest, acked := e.cycle, base := max c.base e.cycle, droppedRun := 0 }) s
      if c.lostAt < e.cycle ∧ (c.ended ∨ !s.wvl.reseed.testBit t) then current t s else s
    | none => s
  judgeFailed t pcount s

/-- The lines of a task in address order, as a reseed carries them (R267). -/
def State.reseedLines (s : State) (t : Nat) : List Nat := (s.taskGen t).linesOf (((s.taskGen t).taskInsts t).foldr insertInst [])

/-- RESEED frames of `n` lines at most, and the end record behind the last (R267 steps 1 and 2): from the budget that copies
leave. -/
def reseedStep (t : Fin 16) (n : Nat) (s : State) : State :=
  let c := s.copyState t.val
  let all := s.reseedLines t.val
  if !s.primary || !s.partnerInService || !(s.wvl.reseed.testBit t.val) || c.ended || s.firstPending.isSome || s.copyRoom = 0 then s
  else
    let k := min (min n (all.length - c.reseedPos)) (s.copyRoom / 264)
    let (lines, s) := readLines 10 ((all.drop c.reseedPos).take k) s
    let s := if k = 0 then s
      else modCopy t.val (fun c => { c with reseedPos := c.reseedPos + k })
        (chargeSlot 19 (264 * k) (linkFrames 3 (264 * k) (fun h => .reseed h (.lines t lines)) s))
    let x := s.task t.val
    let endBytes := 16 + 4 * (s.copyOuts t.val).length + 8 * s.forceWords.length
    if c.reseedPos + k = all.length ∧ endBytes ≤ s.copyRoom then
      let s := chargeSlot 19 endBytes (linkFrames 3 endBytes (fun h => .reseed h (.done t (s.copyOuts t.val) x.cycles x.skips s.forceWords)) s)
      modCopy t.val (fun c => { c with
        ended := true, extra := addLines c.extra (c.sent.flatMap (·.lines)), lostAt := max c.lostAt x.cycles, acked := x.cycles, base := x.cycles
        droppedRun := 0 }) s
    else s

/-- The partner is lost: copies it has not shown must be carried again. -/
def copiesLost (s : State) : State :=
  (List.range 16).foldl (fun s t => modCopy t (fun c => { c with
    extra := addLines (addLines c.extra (c.sent.flatMap (·.lines))) (match c.pending with | some m => m.lines.map (·.1) | none => [])
    sent := [], pending := none, left := 0, base := c.acked }) s) { s with seq := { s.seq with forcesSent := false } }

/-! ### Copies at the standby (R265 to R269) -/

/-- Lines enter the instance image of their task. -/
def applyLines (t : Nat) (ls : List (Nat × List Byte)) (s : State) : State :=
  ls.foldl (fun s l => if s.lineOwner l.1 = some t ∧ l.2.length = 256 then unitWrite 10 l.1 l.2 s else s) s

/-- The force table that a copy carries. -/
def forcesOf (l : List (Nat × Nat)) : List Force :=
  ((List.range l.length).map fun i => { idx := i, tag := (l.getD i (0, 0)).1, value := (l.getD i (0, 0)).2 : Force }).filter (·.tag != 0)

/-- Values, counters and forces of a cycle of the primary. -/
def applyCycle (t : Nat) (outs : List Nat) (cycle skips : Nat) (forces : Option (List (Nat × Nat))) (s : State) : State :=
  let tags := ((s.taskGen t).outPts t).map (·.tag)
  let vals := tags.zip outs
  let s := modTask t (fun x => { x with buf := captureBuf vals s.cfg.next.isSome x.buf, cycles := cycle, skips := skips }) s
  match forces with
  | some f => { s with seq := { s.seq with forces := forcesOf f, forcesSent := false } }
  | none => s

/-- The copy counts as the standby's commit for its shadow (R216). -/
def standbyCommit (t : Nat) (lines : List Nat) (vals : List (Nat × Nat)) (cycle : Nat) (s : State) : State :=
  let s := shadowCommit t vals cycle (modTask t (fun x => { x with dirty := lines }) s)
  modTask t (fun x => { x with dirtyPrev := x.dirty, dirty := [] }) s

/-- A SYNCING module whose tasks are all current becomes STANDBY (R268). -/
def syncDone (s : State) : State :=
  if s.wvl.role = 2 ∧ s.myTasks.all (fun t => !(s.wvl.notCurrent.testBit t)) then setRole 3 10 s else s

/-- A latent divergence (R269): counted, recorded, reported, source 124, and the task is reseeded: the primary is told by a
signal that the spec gives no frame type, 0x64 in the model's record of it (log entry 108, DESIGN CHOICE). -/
def latent (t : Nat) (s : State) : State :=
  let s := modWvl (fun w => { w with latent := tallyInc w.latent }) s
  let s := raise .wvl 4 (report 28 0xFF (ledger 0x0A07 t [t] s))
  linkSend 0x64 [t] (modCopy t (fun c => { c with ended := false }) (underReseed t s))

/-- A complete copy at the standby (R265, R266, R267, R269). -/
def copyTaken (m : CopyMsg) (s : State) : State :=
  let t := m.task.val
  let c := s.copyState t
  let seeding := s.wvl.reseed.testBit t
  if s.wvl.role ≠ 2 ∧ s.wvl.role ≠ 3 then s
  else if m.lost || m.tgen != (s.task t).gen || (!seeding && m.base != c.applied) then copyDrop t s
  else
    let s := applyLines t m.lines s
    let s := applyCycle t m.outs m.cycle m.skips m.forces s
    let s := standbyCommit t (m.lines.map (·.1)) ((((s.taskGen t).outPts t).map (·.tag)).zip m.outs) m.cycle s
    let s := modCopy t (fun c => { c with applied := m.cycle }) (modWvl (fun w => { w with appliedCount := tallyInc w.appliedCount }) s)
    let same := (s.task t).digest == m.digest
    if seeding then
      if c.ended && same then syncDone (current t (modCopy t (fun c => { c with ended := false }) s)) else s
    else if same then syncDone (current t s)
    else latent t s

/-- A RESEED frame at the standby (R267). -/
def reseedTaken (m : ReseedMsg) (s : State) : State :=
  if s.wvl.role ≠ 2 ∧ s.wvl.role ≠ 3 then s
  else match m with
    | .lines t ls =>
      let s := if s.wvl.reseed.testBit t.val && !(s.copyState t.val).ended then s
        else modCopy t.val (fun c => { c with ended := false }) (underReseed t.val s)
      modTask t.val (fun x => { x with retAll := 2 }) (applyLines t.val ls s)
    | .done t outs cycle skips forces =>
      if s.wvl.reseed.testBit t.val then
        countDigest t.val
          (modCopy t.val (fun c => { c with ended := true, applied := cycle }) (applyCycle t.val outs cycle skips (some forces) s))
      else s

/-! ### Becoming and leaving PRIMARY (R274 to R276) -/

/-- What every entry into PRIMARY does: the stations start anew, the FIO leaves its standby state, a debug session ends. -/
def primaryCommon (s : State) : State :=
  let s := modWvl (fun w => { w with
    handover := none, takeAt := none, yielding := false, notCurrent := 0, reseed := 0, copies := List.replicate 16 {} }) s
  let s := endDebug 2 (fioPrimary (resetStations s))
  { s with seq := { s.seq with running := true } }

/-- PRIMARY out of P6 (R261, R263, R394). -/
def primaryFromP6 (s : State) : State :=
  if s.wvl.role = 0 ∧ s.gen.phase = 6 then restartFromKeeper (primaryCommon (setRole 1 9 (startEpoch s))) else s

/-- One local output value (R274): applied at once. -/
def applyLocal (p : Nat × Nat) (s : State) : State :=
  if p.1 / 16 = 4 then applyDo (p.1 % 16) (p.2.testBit 0) s
  else if p.1 / 16 = 5 then applyAo (p.1 % 16) p.2 s
  else s

/-- A task at a takeover (R274): under reseed it restarts cold alone with the forces kept; not current, from its last
applied copy; both are recorded. -/
def takeTask (t : Nat) (s : State) : State :=
  let note (s : State) : State := ledger 0x0A06 t (t :: two (s.copyState t).applied) s
  if s.wvl.reseed.testBit t then restartTask (s.taskGen t) t none (note s)
  else if s.wvl.notCurrent.testBit t then note s
  else s

/-- The takeover of a STANDBY module at its strobe (R271, R274). -/
def takeOver (k : Takeover) (s : State) : State :=
  let s := if k.loaded then s else loadEpoch s
  let tasks := s.myTasks
  let s := tasks.foldl (fun s t => takeTask t s) s
  let s := tasks.foldl (fun s t => modTask t (fun x => { x with state := 0, frozen := false, localSets := [], skipAt := none, consec := 0 }) s) s
  let s := setRole 1 k.cause s
  let gap := (s.pcount - s.wvl.lastHbStrobe) * 125
  let s := modWvl (fun w => { w with takeovers := tallyInc w.takeovers, gapMax := if k.cause = 1 then max w.gapMax gap else w.gapMax }) s
  let s := primaryCommon s
  let s := tasks.foldl (fun s t => (s.localValues t).foldl (fun s p => applyLocal p s) s) s
  let s := maybeFixA (startRound s)
  drainPorts (s.taskOrder.foldl (fun s t => startTask t (s.pcount * ticksPerPeriod) s.pcount s) s)

/-- A hand-over that a session asked for and that names no H is refused with `WRONG_ROLE` where the module leaves PRIMARY
first (log entry 63, DESIGN CHOICE). -/
def dropHandover (s : State) : State :=
  match s.wvl.handover with
  | some x => answerTo 4 x.reply 8 1 (two 0) s
  | none => s

/-- The module leaves PRIMARY (R275, R340). -/
def leavePrimary (cause : Nat) (s : State) : State :=
  let s := setRole 2 cause (dropHandover s)
  let s := resetStations s
  let s := if s.trd.mode = 4 then s else fioStandby s
  let s := disarmDo s
  let s := modWvl (fun w => { w with handover := none, takeAt := none, yielding := false, epochNext := none, epochWait := false }) s
  leftPrimary (enterSync s)

/-! ### Joining (R254, R263, R268) -/

/-- The module's behaviour level: its keeper's, or, without one, that of the generation in force. -/
def State.blvl (s : State) : Nat := match s.kpr.cartridge with
  | some c => c.blvl
  | none => s.cfg.cur.blvl

/-- The first 16 bytes of the current stream's `DIGEST`. -/
def State.digest16 (s : State) : Nat := leNat (s.cfg.cur.digest.take 16)

/-- The first cause of R268 that the partner's heartbeat shows; 0 where its checks pass. -/
def joinCause (s : State) : Nat :=
  let p := s.wvl.partner
  if p.blvl ≠ s.blvl then 3
  else if p.gen ≠ s.bsl.genCur then 4
  else if p.digest16 ≠ s.digest16 then 5
  else if p.flags.testBit 4 || s.bsl.swapPending then 6
  else 0

/-- MISMATCH with a cause, recorded where it is new (R254, R268). -/
def mismatch (cause : Nat) (s : State) : State :=
  let same := decide (s.wvl.role = 5 ∧ s.wvl.mismatchCause = cause)
  let s := if same then s else ledger 0x0A08 0xFFFF [cause] s
  let how := if s.wvl.role = 0 then 9 else 13
  setRole 5 how (modWvl (fun w => { w with mismatchCause := cause }) s)

/-- A module joins its primary partner (R263, R268); no code of R270 names a change from ORPHAN or MISMATCH: its
cause is a free value (log entry 62, DESIGN CHOICE). -/
def join (s : State) : State :=
  let c := joinCause s
  if c ≠ 0 then mismatch c s
  else
    let how := if s.wvl.role = 0 then 9 else (Config.rejoinCause s.now).val
    syncDone (enterSync (setRole 2 how (modWvl (fun w => { w with mismatchCause := 0 }) s)))

/-! ### Link frames (R254, R256) -/

/-- A frame that claims the receiver's own side (R254, R256): counted; MISMATCH in P6, a record once per role after it. -/
def ownSideFrame (s : State) : State :=
  let s := modWvl (fun w => { w with linkErr := tallyInc w.linkErr }) s
  if s.wvl.role = 0 then (if s.gen.phase = 6 then mismatch 2 s else s)
  else if s.wvl.ownSideNoted then s
  else ledger 0x0A08 0xFFFF [2] (modWvl (fun w => { w with ownSideNoted := true }) s)

/-- A lane's state changes: its record, the pair source, source 122 (R256). -/
def laneChange (lane : Nat) (up : Bool) (s : State) : State :=
  let s := modWvl (fun w => { w with lanesUp := if up then setBit w.lanesUp lane else clrBit w.lanesUp lane }) s
  raise .wvl 2 (report 28 0xFF (ledger 0x0A04 lane [lane, bit1 up] s))

/-- What any valid frame of the partner does (R256, R260, R275). -/
def frameSeen (h : LinkHdr) (s : State) : State :=
  let lane := h.lane.val
  let s := modWvl (fun w => { w with laneSeen := putAt w.laneSeen lane s.aon }) s
  let s := if s.wvl.lanesUp.testBit lane then s else laneChange lane true s
  let newer := newerPair h.epoch h.side s.wvl.epoch s.wvl.side
  let s := when (newer && s.primary && decide (h.role = 1))
    (modWvl fun w => { w with yielding := true, yieldAt := if w.yielding then w.yieldAt else s.pcount + 1 }) s
  when (newer && decide (s.trd.mode = 4)) fioStandby s

/-- A link frame of the partner reaches `f`, unless the link is off or the frame claims the own side (R256, R257). -/
def linkIn (h : LinkHdr) (f : State → State) (s : State) : State :=
  if s.pair.mode = 0 then s
  else if h.side = s.wvl.side then ownSideFrame s
  else f (frameSeen h s)

/-! ### Hand-over (R272, R273, R338) -/

/-- An orderly hand-over is requested (R273): accepted by a primary whose partner is STANDBY. -/
def requestHandover (cause : Nat) (who : Option Nat) (s : State) : State :=
  raise .wvl 6 (modWvl (fun w => { w with handover := some { asked := s.islandTime linkIsland, cause := cause, reply := who } }) s)

/-- The primary can hand over now: its partner is STANDBY and no hand-over is under way. -/
def State.canHandOver (s : State) : Bool :=
  s.primary && s.partnerStandby && s.wvl.handover.isNone && decide (s.pair.mode ≠ 0)

/-- The strobe H of a forced hand-over of a primary that is under way already. -/
def State.forcedH (s : State) : Option Nat := s.wvl.handover.bind fun x => if x.forced then x.h else none

/-- RELINQUISH is sent for a forcing source (R272, R338): H is the period count + 2, or the strobe that an earlier RELINQUISH has
named (log entry 63, DESIGN CHOICE). -/
def relinquish (src : Nat) (s : State) : State :=
  let h := s.forcedH.getD (s.pcount + 2)
  let who := match s.wvl.handover with
    | some x => if x.h.isNone then x.reply else none
    | none => none
  let s := linkSendAll 4 (two h) (modWvl (fun w => { w with
    handover := some { asked := s.islandTime linkIsland, cause := 2, h := some h, acked := true, forced := true } }) s)
  let s := modSrc src (fun x => { x with forced := true }) { s with fcr := { s.fcr with handoverSent := true, blocked := s.fcr.blocked.filter (· != src) } }
  let s := raise .fcr 15 (ledger 0x0D03 (s.srcInst src) (src :: two h) (history src 3 0 s))
  answerTo 4 who 0 0 (two h) s

/-- Source 22 waits for a partner that is traceable (R339). -/
def State.forceReady (s : State) (src : Nat) : Bool :=
  s.partnerStandby && (src != 22 || s.wvl.partner.flags.testBit 0)

/-- Blocked hand-overs go ahead at the heartbeat that lets them (R338, R339). -/
def unblock (s : State) : State :=
  s.fcr.blocked.foldl (fun s i => if s.primary && s.severe i && s.forceReady i then relinquish i s else s) s



/-- A role change is due at the strobe of a period count: its cycle starts are not the old role's (R272, R273). -/
def State.changeDue (s : State) (count : Nat) : Bool :=
  (match s.wvl.handover with
    | some x => x.acked && (match x.h with | some h => decide (h ≤ count) | none => false)
    | none => false)
  || s.wvl.yielding

/-! ### Heartbeats (R258, R259) -/

/-- `FLAGS` of a heartbeat. -/
def State.hbFlags (s : State) : Nat :=
  bitAt s.traceable 0 + bitAt s.ptm.degraded 1 + bitAt s.gen.latchOpen 2 + bitAt (s.kpr.state == 2) 3 + bitAt s.bsl.swapPending 4
    + bitAt s.trd.debugBroken 5

/-- `WVL_ALIVE` was written within the last `ALIVE_PERIODS` periods. -/
def State.alive (s : State) : Bool := match s.wvl.aliveAt with
  | some p => decide (s.pcount - p ≤ s.pair.alivePeriods)
  | none => false

/-- The heartbeat of a strobe (R258), on every lane that is up; while none is, on all four. -/
def sendHeartbeat (s : State) : State :=
  if s.pair.mode = 0 ∨ s.trd.mode = 4 ∨ !s.alive then s
  else
    let d := s.digest16
    let ack := if s.wvl.role = 2 ∨ s.wvl.role = 3 then s.wvl.copies.map fun c => c.applied % 2 ^ 32 else List.replicate 16 0
    let words := two s.pcount ++ [s.bsl.genCur] ++ two d ++ two (d / 2 ^ 64) ++ [s.blvl, s.hbFlags, s.cart.epochReserve, 0, 0] ++ ack
    let lanes := if s.wvl.lanesUp = 0 then 15 else s.wvl.lanesUp
    emit (.link (s.linkHdr 1 lanes 112) words) (nextLseq 112 s)

end Sys2Proof.Machine
end

