-- ==== Sys2Proof/Machine/Fcr.lean ====
section
/-! DEFINITION. The commands of the fault collector (chapter 15). -/

namespace Sys2Proof.Machine

open Sys2Proof

/-- The event class of a source, the bit of `FCR_EVT` (R344). -/
def fcrClass (i : Nat) : Nat :=
  if i < 16 then 0
  else if i < 19 then 1
  else if i < 22 then 2
  else if i < 24 then 3
  else if i < 26 then 4
  else if i = 26 then 5
  else if i = 27 then 6
  else if i = 28 then 7
  else if i = 29 then 8
  else if i < 32 then 9
  else if i < 35 then 10
  else if i = 35 then 11
  else if i = 36 then 12
  else 13

/-- The four ports of a cage. -/
def cagePorts (c : Nat) : List Nat := (List.range 4).map (4 * c + ·)

/-- The fence of a source that has one (R337). -/
def fenceSource (i : Nat) (d : Digests) (s : State) : State :=
  let mark := modSrc i (fun x => { x with fenced := true })
  if i = 18 then splitInterrupted 5 d (mark s)
  else if i = 32 then mark { s with svi := { s.svi with fenced := true } }
  else if i = 33 then mark { s with phe := { s.phe with fenced := true } }
  else if i = 34 then mark { s with wce := { s.wce with fenced := true } }
  else if i = 35 then (cagePorts (s.source i).inst).foldl (fun s p => modPort p (fun x => { x with fenced := true, resuming := false }) s) (mark s)
  else s

/-- A forcing source on a primary (R338, R339, R228): RELINQUISH, or a blocked hand-over; source 17 restarts a primary
without a STANDBY partner. -/
def forceSource (i : Nat) (s : State) : State :=
  if s.forceReady i then relinquish i s
  else
    let s := { s with fcr := { s.fcr with blocked := if s.fcr.blocked.contains i then s.fcr.blocked else s.fcr.blocked ++ [i] } }
    let s := raise .fcr 15 (ledger 0x0D04 (s.srcInst i) [i] (history i 4 0 s))
    if i = 17 then requestRestart false 2 s.aon false s else s

/-- A source becomes severe (R335): its record, its class, its fence, its forced hand-over. -/
def becomeSevere (i : Nat) (d : Digests) (s : State) : State :=
  let s := modSrc i (fun x => { x with severe := true, due := false }) s
  let s := raise .fcr (fcrClass i) (ledger 0x0D01 (s.srcInst i) [i, s.inWin i, (s.source i).wms] (history i 1 0 s))
  let s := fenceSource i d s
  if forcing.contains i then (if s.primary then forceSource i s else offPrimary i s) else s

/-- Errors that the hardware of a unit finds in itself (R337, sources 32 to 37): each is an event of its source, which
for a port names the cage; the outputs that a field I/O error affects switch off (R385). -/
def unitErrors (i : Nat) (e : UnitErrors) (s : State) : State :=
  if i < 32 ∨ 37 < i then s
  else
    let s := (List.range e.count).foldl (fun s _ => report i (if i = 35 then e.inst else 0xFF) s) s
    if i = 37 ∧ 0 < e.count then failOutputs e.outputs s else s

/-- The sources that became due in one always-on cycle take effect together, in ascending number (R335; log entry 137, DEDUCED). -/
def severeWith (i : Nat) (d : Digests) (s : State) : State :=
  (List.range 48).foldl (fun t j =>
    if (t.source j).due && !(t.source j).severe && (t.source j).dueAt == (s.source i).dueAt then becomeSevere j d t else t) s

/-- SOURCE_SEVERE (R335): a source whose N-th event fell within W; the errors that no other command reports come with it
(log entry 87, DESIGN CHOICE). -/
def execSourceSevere (w : When) (source : Fin 48) (d : Digests) (e : UnitErrors) (s : State) : Result :=
  let i := source.val
  let s := unitErrors i e (s.at w)
  .next (if (s.source i).due && !(s.source i).severe then severeWith i d s else s)

/-- The release of a source's fence (R341, R167, R191); a port cage resumes at the next strobe. -/
def releaseFence (i : Nat) (s : State) : State :=
  if !(s.source i).fenced then s
  else
    let s := modSrc i (fun x => { x with fenced := false }) s
    if i = 32 then { s with svi := { s.svi with fenced := false, lastSlot := some s.dueSlot } }
    else if i = 33 then { s with phe := { s.phe with fenced := false, store := [], held := [] } }
    else if i = 35 then { s with prt := { s.prt with ports := s.prt.ports.map fun p => { p with resuming := p.fenced } } }
    else if i = 34 then { s with wce := { s.wce with
      fenced := false, queue := [], openEvents := [], closed := []
      drop := tallyAdd s.wce.drop (s.wce.queue.length + s.wce.openEvents.length + s.wce.closed.length) } }
    else s

/-- A write of `FCR_ACK` (R341): by the firmware, or the host as OPERATOR or ENGINEER. -/
def fcrAckAct (who : Agent) (i : Nat) (s : State) : State :=
  let byWhom := if isFw who then 1 else 2
  if (isFw who || hostAtLeast 2 who s) && (s.source i).severe then
    let s := ledger 0x0D02 (s.srcInst i) [i, byWhom] (history i 2 byWhom s)
    let s := releaseFence i s
    let s := modSrc i (fun x => { x with severe := false, due := false, recent := [], forced := false }) s
    { s with fcr := { s.fcr with blocked := s.fcr.blocked.filter (· != i) } }
  else s

/-- A source's `FCR_CFG` word. -/
def FcrSource.cfg (x : FcrSource) : Nat := x.n * 2 ^ 24 + x.wms

/-- The source that a reader has selected. -/
def State.fcrSel (s : State) (who : Agent) : Nat := if isHost who then s.fcr.selHost else s.fcr.selFw

/-- A value that `FCR_CFG` takes (R336): the source has settings of its own, and both fields are in range. -/
def State.fcrCfgTaken (s : State) (who : Agent) (v : Word) : Bool :=
  let i := s.fcrSel who
  decide (i < 38) && !(forcing.contains i) && decide (1 ≤ v.toNat / 2 ^ 24 ∧ 1 ≤ v.toNat % 65536 ∧ v.toNat % 65536 ≤ 60000)

/-- A write of `FCR_CFG` (R336). -/
def fcrCfgAct (who : Agent) (v : Word) (s : State) : State :=
  let i := s.fcrSel who
  if fwOrEngineer who s && s.fcrCfgTaken who v then
    let old := (s.source i).cfg
    let s := modSrc i (fun x => { x with n := v.toNat / 2 ^ 24, wms := v.toNat % 65536, recent := [] }) s
    ledger 0x0D05 0xFFFF [i, old, (s.source i).cfg] s
  else s

end Sys2Proof.Machine
end

