-- ==== Sys2Proof/Machine/Hif.lean ====
section
/-! DEFINITION. Host sessions, access sets, notifications and the host ports (chapter 16). -/

namespace Sys2Proof.Machine

open Sys2Proof

/-! ### Sessions (R348 to R352) -/

/-- No access set is in force. -/
def State.bootstrap (s : State) : Bool := s.hif.access.isNone

/-- The mode of a host port: 0 off, 1 1000BASE-X, 2 10GBASE-R (R345). -/
def State.hostMode (s : State) (p : Nat) : Nat := match s.hif.access with
  | some a => ((a.ports.find? (·.port == p)).map (·.mode)).getD 0
  | none => if p = 0 then 1 else 0

/-- Sessions open. -/
def State.sessionsOpen (s : State) : Nat := (s.hif.sessions.filter (·.isSome)).length

/-- SHP_CONNECT (R350, R348): the lowest free index takes the connection, or it is reset. -/
def execShpConnect (w : When) (port : Fin 2) (linkLocal : Bool) (s : State) : Result :=
  let s := s.at w
  let ok := decide (3 ≤ s.gen.phase ∧ s.hostMode port.val ≠ 0 ∧ s.sessionsOpen < 8)
    && (!s.bootstrap || (decide (port.val = 0 ∧ s.sessionsOpen = 0) && linkLocal))
  if ok then
    let i := (s.hif.sessions.findIdx? (·.isNone)).getD 0
    let x : Session := { port := port.val, linkLocal := linkLocal, bootstrap := s.bootstrap, opened := s.aon, lastMsg := s.aon }
    .next (raise .hif 1 { s with hif := { s.hif with sessions := putAt s.hif.sessions i (some x) } })
  else .next (emit (.tcpReset port.val) s)

/-- The first 8 bytes of a fingerprint, as two words. -/
def fpWords (f : List Byte) : List Nat := [leField f 0 4, leField f 4 4]

/-- A handshake that fails (R349): alert, tally, event, record; the session is gone. -/
def handshakeFails (i : Fin 8) (leaf : List Byte) (s : State) : State :=
  match s.hif.sessions.getD i.val none with
  | none => s
  | some x =>
    let s := { s with hif := { s.hif with sessions := putAt s.hif.sessions i.val none, tlsFail := tallyInc s.hif.tlsFail } }
    emit (.alert i.val) (ledger 0x1303 x.port (x.port :: fpWords leaf) (raise .hif 1 (raise .hif 2 s)))

/-- The client rules that name a certificate of the chain. -/
def matchedRules (a : AccessSet) (certs : List (List Byte)) : List (Nat × List Byte) :=
  a.rules.filter fun r => certs.contains r.2

/-- The chain is within its validity at module time, where module time is set (R349). -/
def validNow (h : Handshake) (s : State) : Bool :=
  !s.tmb.timeSet || h.validity.all fun v => decide (v.1 ≤ timeSec s.now ∧ timeSec s.now ≤ v.2)

/-- The certificate that the module presents (R347): a keeper is commissioned where one with an identity is mounted. -/
def State.presented (s : State) : Presented :=
  match s.hif.access with
  | some a => .chain a.certs
  | none => if s.kpr.state = 0 ∨ s.cart.ident = 0 then .fusedKey else .keeperKey s.cart.ident

/-- The handshake is one that R349 allows: TLS 1.3, its suite, group and signature scheme, no resumption, pre-shared key or early
data, and a client certificate. -/
def allowedHandshake (h : Handshake) : Bool :=
  decide (h.version = 0x0304 ∧ h.suite = 0x1302 ∧ h.group = 0x0018 ∧ h.scheme = 0x0503) && !h.resumed && !h.certs.isEmpty

/-- TLS_HANDSHAKE (R347 to R349): the module presents its certificate; a handshake that is not allowed fails as one that finds no
role does (log entry 135, DESIGN CHOICE). -/
def execTlsHandshake (w : When) (ses : Fin 8) (h : Handshake) (s : State) : Result :=
  let s := s.at w
  match s.hif.sessions.getD ses.val none with
  | none => .next s
  | some x =>
    if x.role ≠ 0 then .next s
    else
      let leaf := h.certs.headD []
      let s := emit (.certificate ses.val s.presented) s
      if !allowedHandshake h then .next (handshakeFails ses leaf s)
      else if x.bootstrap then
        if h.proven then
          let s := modSes ses (fun y => { y with role := 3, lastMsg := s.aon }) s
          .next (ledger 0x1305 x.port (fpWords leaf) s)
        else .next (handshakeFails ses leaf s)
      else
        let rs := matchedRules (s.hif.access.getD {}) h.certs
        let role : Nat := rs.foldl (fun m r => max m r.1) 0
        let fp := ((rs.find? (·.1 == role)).map (·.2)).getD []
        if h.proven && h.chainOk && validNow h s && decide (role ≠ 0) then
          let s := modSes ses (fun y => { y with role := role, lastMsg := s.aon }) s
          .next (ledger 0x1301 x.port (x.port :: role :: fpWords fp) s)
        else .next (handshakeFails ses leaf s)

/-- HANDSHAKE_TIMEOUT (R349): 10 s. -/
def execHandshakeTimeout (w : When) (ses : Fin 8) (s : State) : Result :=
  let s := s.at w
  match s.hif.sessions.getD ses.val none with
  | some x => if x.role = 0 ∧ x.opened + aonSec 10 ≤ s.aon then .next (handshakeFails ses [] s) else .next s
  | none => .next s

/-- SESSION_IDLE_TIMEOUT (R350): 30 s without a message, no reply outstanding. -/
def execSessionIdleTimeout (w : When) (ses : Fin 8) (s : State) : Result :=
  let s := s.at w
  match s.hif.sessions.getD ses.val none with
  | some x =>
    if x.role ≠ 0 ∧ x.outstanding = 0 ∧ x.lastMsg + aonSec 30 ≤ s.aon then .next (closeSession ses.val 1 s) else .next s
  | none => .next s

/-- SESSION_CLOSE (R350, R351): by the host, or for a framing fault. -/
def execSessionClose (w : When) (ses : Fin 8) (framing : Bool) (s : State) : Result :=
  .next (closeSession ses.val (if framing then 3 else 0) (s.at w))

/-- The identity of the mounted keeper, 0 with none. -/
def State.keeperId (s : State) : Nat := if s.kpr.state = 0 then 0 else s.cart.ident

/-- The payload of a `HELLO` reply (R354). -/
def helloReply (role : Nat) (s : State) : List Nat :=
  [1 + role * 65536 + s.wvl.side * 16777216, s.wvl.role] ++ idWords s.keeperId
    ++ [s.bsl.genCur, s.cart.blvl, s.gen.unitPresent] ++ two s.gen.eui

/-- HELLO (R354): a `VERSION` other than 1 closes the session. -/
def execHello (w : When) (ses : Fin 8) (version : Nat) (s : State) : Result :=
  let s := s.at w
  match s.hif.sessions.getD ses.val none with
  | none => .next s
  | some x =>
    if x.role = 0 ∨ 16 ≤ x.outstanding then .next s
    else
      let s := modSes ses (fun y => { y with outstanding := y.outstanding + 1, lastMsg := s.aon, reqTy := 1, reqTag := s.msgTag }) s
      if version ≠ 1 then .next (closeSession ses.val 3 (reply ses 1 0 [] s))
      else .next (reply ses 0 0 (helloReply x.role s) (modSes ses (fun y => { y with helloDone := true }) s))

/-- SHP_RESERVED_TYPE (R351, R354): a reserved type is answered with `TYPE`, a payload whose length is wrong for its type with
`FORMAT`; the types that bootstrap takes at all are `HELLO`, `READ`, `WRITE` and the load messages (R348). -/
def execShpReservedType (w : When) (ses : Fin 8) (ty : Nat) (s : State) : Result :=
  .next (withSession ses ty 0 (decide (1 ≤ ty ∧ ty ≤ 5)) (fun s => if 1 ≤ ty ∧ ty ≤ 13 then reply ses 1 0 [] s else reply ses 2 0 [] s) (s.at w))

/-! ### The ledger, for the host (R333) -/

/-- LEDGER_SNAP (R333, R320). -/
def execLedgerSnap (w : When) (ses : Fin 8) (s : State) : Result :=
  .next (withSession ses 6 1 false (fun s =>
    if s.keeperReadable then
      let lo := s.cart.lowest
      let hi := s.cart.highest
      reply ses 0 0 (two lo ++ two hi) (modSes ses (fun y => { y with snapLow := lo, snapHigh := hi, hasSnap := true }) s)
    else reply ses 10 0 [] s) (s.at w))

/-! ### Notifications (R357) -/

/-- NOTIFY_SUBSCRIBE: replaces the session's subscription. -/
def execNotifySubscribe (w : When) (ses : Fin 8) (kinds : Fin 4) (sources : BitVec 160) (s : State) : Result :=
  .next (withSession ses 10 1 false (fun s =>
    reply ses 0 0 [] (modSes ses (fun y => { y with kinds := kinds.val, sources := sources }) s)) (s.at w))

/-- NOTIFY_LOST_REPORT: as soon as room returns, one notification tells the number lost. -/
def execNotifyLostReport (w : When) (ses : Fin 8) (s : State) : Result :=
  let s := s.at w
  match s.hif.sessions.getD ses.val none with
  | some x =>
    if 0 < x.lost ∧ x.queue.length < 256 then
      .next (modSes ses (fun y => { y with lost := 0, queue := y.queue ++ [{ kind := 3, count := x.lost, time := s.islandTime hostIsland }] }) s)
    else .next s
  | none => .next s



/-! ### Access sets (R346, R347) -/

/-- One entry of an access set: its type, value, and whether its padding is zero. -/
structure AccessEntry where
  ty : Nat
  value : List Byte
  padOk : Bool
  deriving Inhabited

/-- The entries of an access set; none where they do not fill it exactly. -/
def accessEntries : Nat → List Byte → Option (List AccessEntry)
  | _, [] => some []
  | 0, _ => none
  | n + 1, bs =>
    let len := leField bs 2 2
    let pad := roundUp len 4
    if bs.length < 4 ∨ bs.length < 4 + pad then none
    else (accessEntries n (bs.drop (4 + pad))).map
      (({ ty := leField bs 0 2, value := slice bs 4 len, padOk := allZero (slice bs (4 + len) (pad - len)) } : AccessEntry) :: ·)

/-- The reserved bytes of an entry are zero. -/
def AccessEntry.zerosOk (e : AccessEntry) : Bool :=
  e.padOk && (match e.ty with
    | 1 => allZero (slice e.value 10 2) && allZero (slice e.value 34 2)
    | 2 => allZero (slice e.value 1 1)
    | 4 => allZero (slice e.value 1 3)
    | _ => true)

/-- An entry's type and fields are in range. -/
def AccessEntry.rangeOk (e : AccessEntry) : Bool :=
  let v := e.value
  match e.ty with
  | 1 => decide (v.length = 36 ∧ leField v 0 1 ≤ 1 ∧ leField v 1 1 ≤ 2 ∧ leField v 2 2 ≤ 4094 ∧ leField v 8 1 ≤ 32 ∧ leField v 9 1 ≤ 128)
  | 2 => decide (v.length = 24 ∧ leField v 0 1 ≤ 1)
  | 3 => !v.isEmpty
  | 4 => decide (v.length = 52 ∧ 1 ≤ leField v 0 1 ∧ leField v 0 1 ≤ 3)
  | _ => false

/-- The access set that entries spell. Addresses and MACs are numbers, most significant byte first. -/
def accessOf (serial : Nat) (es : List AccessEntry) : AccessSet :=
  let of (t : Nat) := (es.filter (·.ty == t)).map (·.value)
  { serial := serial
    ports := (of 1).map fun v => { port := leField v 0 1, mode := leField v 1 1, vid := leField v 2 2, ipv4 := beNat (slice v 4 4), plen4 := leField v 8 1, plen6 := leField v 9 1, ipv6 := beNat (slice v 12 16), gwMac := beNat (slice v 28 6) }
    neighbours := (of 2).map fun v => { port := leField v 0 1, mac := beNat (slice v 2 6), addr := beNat (slice v 8 16) }
    certs := of 3
    rules := (of 4).map fun v => (leField v 0 1, slice v 4 48) }

/-- The counts of R346: one PORT for each host port, up to 32 neighbours, 1 to 4 certificates, 1 to 64 rules. -/
def accessCounts (es : List AccessEntry) : Bool :=
  let n (t : Nat) := (es.filter (·.ty == t)).length
  let ps := (es.filter (·.ty == 1)).map fun e => leField e.value 0 1
  decide (n 1 = 2) && ps.contains 0 && ps.contains 1
    && decide (n 2 ≤ 32 ∧ 1 ≤ n 3 ∧ n 3 ≤ 4 ∧ 1 ≤ n 4 ∧ n 4 ≤ 64)

/-- The digest of a set, its field taken as zero (R346). -/
def accessDigest (bs : List Byte) : List Byte := sha384 (bs.take 0x10 ++ List.replicate 48 0 ++ bs.drop 0x40)

/-- The checks of R347 in order: the detail that refuses the set, or the set. -/
def accessCheck (bs : List Byte) (keyOk chainOk : Bool) (s : State) : Except Nat AccessSet :=
  let len := leField bs 4 4
  let es := accessEntries 65536 (bs.drop 0x40)
  let serial := leField bs 8 4
  if leField bs 0 4 ≠ 0x54434158 ∨ len < 64 ∨ 65536 < len ∨ len ≠ bs.length ∨ leField bs 0xC 4 ≠ 0
      ∨ accessDigest bs ≠ slice bs 0x10 48 then .error 1
  else match es with
    | none => .error 2
    | some es =>
      if !(es.all (·.zerosOk)) then .error 1
      else if !(es.all (·.rangeOk)) || !accessCounts es then .error 2
      else if serial ≤ ((s.hif.access.map (·.serial)).getD 0) then .error 3
      else if !keyOk || !chainOk then .error 4
      else if !((accessOf serial es).rules.any (·.1 == 3)) then .error 5
      else if !s.keeperWritable then .error 6
      else .ok (accessOf serial es)

/-- ACCESS_SET_LOAD_BLOCK (R347): a block at any offset is held for the session, where it ends within the 65,536 bytes of a set
(log entry 16, DESIGN CHOICE). -/
def execAccessSetLoadBlock (w : When) (ses : Fin 8) (offset : Nat) (data : List Byte) (s : State) : Result :=
  .next (withSession ses 4 3 true (fun s =>
    if data.isEmpty || decide (4096 < data.length) then reply ses 1 0 [] s
    else if 65536 < offset + data.length then reply ses 9 0 [0, 0, 0] s
    else
      let s := modSes ses (fun y => { y with accessBlocks := y.accessBlocks ++ [(offset, data)] }) s
      reply ses 0 0 [0, 0, 0] s) (s.at w))

/-- A block laid over the bytes loaded before it; bytes never loaded are zero. -/
def layBlock (bs : List Byte) (b : Nat × List Byte) : List Byte :=
  bs.take b.1 ++ List.replicate (b.1 - bs.length) 0 ++ b.2 ++ bs.drop (b.1 + b.2.length)

/-- The bytes that a session has loaded for target 3: a later block replaces what it covers of an earlier one. -/
def State.accessBytes (s : State) (ses : Fin 8) : List Byte :=
  match s.hif.sessions.getD ses.val none with
  | some x => x.accessBlocks.foldl layBlock []
  | none => []

/-- The commit of an access set (R347): the checks, then the store under the governor. -/
def commitAccess (ses : Fin 8) (bs : List Byte) (keyOk chainOk : Bool) (s : State) : State :=
  match accessCheck bs keyOk chainOk s with
  | .error d => reply ses 8 d [0, 0, 0] s
  | .ok a =>
    let s := queueJob { cls := 3, kind := .access a, pages := (bs.length + 4095) / 4096 } (defer 3 ses s)
    { s with hif := { s.hif with accessStoring := s.hif.accessStoring ++ [some ses.val] } }

/-- ACCESS_SET_COMMIT (R347, R354): the commit of what the session has loaded; the abort action gives it up, the revert action is
out of range for this target. -/
def execAccessSetCommit (w : When) (ses : Fin 8) (act : AccessAct) (chainOk : Bool) (s : State) : Result :=
  .next (withSession ses 5 3 true (fun s =>
    let dropped := modSes ses (fun y => { y with accessBlocks := [] }) s
    match act with
    | .commit keyOk => commitAccess ses (s.accessBytes ses) keyOk chainOk dropped
    | .revert => reply ses 9 0 [0, 0, 0] s
    | .abort => reply ses 0 0 [0, 0, 0] dropped) (s.at w))

/-- ACCESS_SET_STORED (R347): the set comes into force; the committing session is answered, and every session closes. -/
def execAccessSetStored (w : When) (s : State) : Result :=
  let s := s.at w
  match s.hif.accessReady with
  | [] => .next s
  | a :: rest =>
    let who := s.hif.accessStoring.headD none
    let s := accessInForce a { s with hif := { s.hif with accessReady := rest, accessStoring := s.hif.accessStoring.drop 1 } }
    let s := answerTo 3 who 0 0 [0, 0, 0] s
    .next ((List.range 8).foldl (fun s i => closeSession i 2 s) s)

/-! ### Host ports (R345, R359) -/

/-- The link-local address of the host ports: fe80::/64 and the modified EUI-64 of the fused EUI-48 (R345), which is the
module's (chapter 20; log entry 88, DEDUCED). -/
def State.linkLocal (s : State) : Nat :=
  let e := s.gen.eui
  0xFE80 * 2 ^ 112 + ((e / 2 ^ 24 ^^^ 0x020000) * 2 ^ 40 + 0xFFFE * 2 ^ 24 + e % 2 ^ 24)

/-- The address settings of a host port. -/
def State.hostCfg (s : State) (p : Nat) : HostPortCfg :=
  match s.hif.access with
  | some a => (a.ports.find? (·.port == p)).getD {}
  | none => {}

/-- The module owns an address on a host port that runs. -/
def State.ownsAddr (s : State) (p : Nat) (v6 : Bool) (target : Nat) : Bool :=
  decide (3 ≤ s.gen.phase ∧ s.hostMode p ≠ 0) &&
    (if v6 then decide (target = s.linkLocal ∨ (target = (s.hostCfg p).ipv6 ∧ target ≠ 0))
     else decide (target = (s.hostCfg p).ipv4 ∧ target ≠ 0))

/-- HOST_ARP_REQUEST (R345). -/
def execHostArpRequest (w : When) (port : Fin 2) (target : Nat) (s : State) : Result :=
  let s := s.at w
  .next (if s.ownsAddr port.val false target then emit (.arpReply port.val target) s else s)

/-- HOST_NEIGHBOUR_SOLICITATION (R345). -/
def execHostNeighbourSolicitation (w : When) (port : Fin 2) (target : Nat) (s : State) : Result :=
  let s := s.at w
  .next (if s.ownsAddr port.val true target then emit (.neighbourReply port.val target) s else s)

/-- HOST_ECHO_REQUEST (R345). -/
def execHostEchoRequest (w : When) (port : Fin 2) (v6 : Bool) (target : Nat) (s : State) : Result :=
  let s := s.at w
  .next (if s.ownsAddr port.val v6 target then emit (.echoReply port.val target) s else s)

/-- HOST_FRAME_DISCARD (R345): dropped and counted in `HIF_DISCARD_p`. -/
def execHostFrameDiscard (w : When) (port : Fin 2) (s : State) : Result :=
  let s := s.at w
  .next { s with hif := { s.hif with discard := updAt s.hif.discard port.val tallyInc } }

/-- HOST_LINK_CHANGE (R359). -/
def execHostLinkChange (w : When) (port : Fin 2) (up : Bool) (s : State) : Result :=
  let s := s.at w
  if s.hif.links.getD port.val false = up then .next s
  else .next (raise .hif 0 { s with hif := { s.hif with links := putAt s.hif.links port.val up } })

end Sys2Proof.Machine
end

