-- ==== Sys2Proof/Machine/Keeper.lean ====
section
/-! DEFINITION. The commands of the keeper and the ledger (chapter 14). -/

namespace Sys2Proof.Machine

open Sys2Proof

/-- KEEPER_INSERT (R311): a cartridge goes into an empty slot whose bolt is open; nothing is mounted. -/
def execKeeperInsert (w : When) (c : Cartridge) (s : State) : Result :=
  let s := s.at w
  .next (if s.kpr.boltOpen && s.kpr.cartridge.isNone then { s with kpr := { s.kpr with cartridge := some c } } else s)

/-- BOLT_CLOSE (R311, R312, R321, R389): mounts the cartridge in the slot, from P3 on, and a start that has not left P4 is in P3
again; writes resume, and in service a retained round starts at the next strobe. -/
def execBoltClose (w : When) (s : State) : Result :=
  let s := s.at w
  if !s.kpr.boltOpen then .next s
  else
    let s := raise .kpr 1 { s with kpr := { s.kpr with boltOpen := false, safe := false } }
    let s := when (decide (3 ≤ s.gen.phase)) mountKeeper s
    let s := when (decide (s.gen.phase = 4) && !s.inService) (fun s => { s with gen := { s.gen with phase := 3, held := true } }) s
    .next (if s.kpr.state = 2 ∧ s.inService then { s with seq := { s.seq with retNow := true } } else s)

/-- BOLT_OPEN (R319): no new page, a bit-stream store refused with `KEEPER`, a retained round abandoned. -/
def execBoltOpen (w : When) (s : State) : Result :=
  let s := s.at w
  if s.kpr.boltOpen then .next s
  else
    let s := if s.keeperReadable then { s with mem := { s.mem with keptSpares := s.cart.retireMap.map (·.spare) } } else s
    let s := raise .kpr 1 { s with kpr := { s.kpr with boltOpen := true, state := 0 } }
    let s := ownStoreFails (abandonRound (notOkFrom s))
    .next (when (!s.lgr.stopped && s.kpr.cartridge.isSome)
      (fun s => raise .lgr 7 { s with lgr := { s.lgr with stopped := true } }) s)

/-- A page in flight ends; its job's last page completes what the job writes. -/
def pageEnds (ok : Bool) (s : State) : State :=
  match s.kpr.inFlight with
  | none => s
  | some j =>
    let s := { s with kpr := { s.kpr with inFlight := none } }
    if !ok then
      let s := jobFailed j.kind (modCart (·.cutShort j.kind) s)
      let s := if j.pages = 0 then s else setJobs (s.kpr.jobs.filter (· != j)) s
      match j.kind with
      | .bitstream _ _ _ => storeFailed false s
      | .access _ => accessFailed s
      | _ => s
    else
      let s := copyWritten j.kind s
      if j.pages = 0 then jobDone j.kind s else s

/-- The pages that the pacing of R317 lets through from an always-on instant until now. -/
def State.pagesSince (s : State) (start : Nat) : Nat :=
  let t := match s.kpr.lastPage with
    | some x => max start (x + 1000000)
    | none => start
  if s.aon < t then 0 else (s.aon - t) / 1000000 + 1

/-- The pages of the first class of R318 that wait. -/
def State.blockPages (s : State) : Nat := ((s.kpr.jobs.filter (·.cls == 0)).map (·.pages)).sum

/-- The governor has let those pages through since an instant: by its pacing, and by the whole bucket (R317). -/
def State.blocksFit (s : State) (start : Nat) : Bool := decide (s.blockPages ≤ min (s.pagesSince start) (s.kpr.bucket / pageUnits))

/-- The pages of the first class of R318 that wait or are in flight are written before a restart proceeds (R315, R331; log
entry 104, DESIGN CHOICE), where the governor lets them through; a restart waits for them for at most 2 s. -/
def flushBlocks (start : Nat) (s : State) : State :=
  if s.keeperWritable then
    let s := pageEnds true s
    if s.blocksFit start then
      (s.kpr.jobs.filter (·.cls == 0)).foldl (fun s j =>
        jobDone j.kind ((List.range j.pages).foldl (fun s _ => keeperCharge 4096 (copyWritten j.kind s)) s))
        (setJobs (s.kpr.jobs.filter (·.cls != 0)) s)
    else s
  else s

/-- What is stored before a restart that has been due since `start`: the blocks, then `n` held records (R317, R331). -/
def flushKeeper (start n : Nat) (s : State) : State :=
  flushHeld (s.pagesSince start - s.blockPages) n (flushBlocks start s)

/-- KEEPER_SAFE (R319): the page in flight is complete, `SAFE` is set, source 138. -/
def execKeeperSafe (w : When) (s : State) : Result :=
  let s := s.at w
  .next (if s.kpr.boltOpen && !s.kpr.safe && s.kpr.cartridge.isSome then
      let s := pageEnds true s
      raise .kpr 2 { s with kpr := { s.kpr with safe := true } }
    else s)

/-- KEEPER_REMOVE (R319, R393): the cartridge leaves the slot; before P4 has ended the start returns to P3. -/
def execKeeperRemove (w : When) (s : State) : Result :=
  let s := s.at w
  if s.kpr.boltOpen && s.kpr.cartridge.isSome then
    let s := cutShort s
    let s := { s with
      kpr := { s.kpr with cartridge := none, state := 0, safe := false, inFlight := none }, bsl := { s.bsl with newSlot := none } }
    let s := ledger 0x0F01 0xFFFF [] (raise .kpr 0 s)
    .next (if !s.inService && decide (3 ≤ s.gen.phase) then
        raise .kpr 7 { s with gen := { s.gen with phase := 3, held := true }, kpr := { s.kpr with refuse := 1 } }
      else s)
  else .next s

/-- Commissioning is accepted (R313): in P3 with cause `BLANK`, from the host in the ENGINEER role. -/
def State.mayCommission (s : State) (who : Agent) : Bool :=
  hostAtLeast 3 who s && decide (s.gen.phase = 3 ∧ s.kpr.refuse = 2 ∧ s.kpr.state = 1)

/-- Commissioning (R313, R347): the BLANK keeper of P3 becomes OK, record 1 is the commissioning record, and the
start goes on. -/
def commissionAct (who : Agent) (s : State) : State :=
  if s.mayCommission who then
    let side := s.wvl.side
    let names := s.kpr.names
    let lvl := s.kpr.newBlvl
    let s := modCart (fun c => { c with
      commissioned := true, side := side, names := names, blvl := lvl, highWater := 0, epochReserve := 0, hasKey := true }) s
    let s := queueJob { cls := 0, kind := .clearReserve, pages := 2 }
      (writeIdentity { s with kpr := { s.kpr with state := 2, notOkSince := none } })
    let s := copyRoles (adoptKeeper s.cart.ident [mkRecord 0x0F06 0xFFFF [] s] s)
    let s := when s.lgr.stopped (fun s => raise .lgr 7 { s with lgr := { s.lgr with stopped := false } }) s
    checkKeeper s
  else s

/-- Recommissioning is judged here (R315): the host in the ENGINEER role, in P3, P4, ORPHAN or MISMATCH, unless the keeper is
READ_ONLY. -/
def State.mayRecommission (s : State) (who : Agent) : Bool :=
  hostAtLeast 3 who s && decide (s.gen.phase = 3 ∨ s.gen.phase = 4 ∨ s.wvl.role = 4 ∨ s.wvl.role = 5) && s.kpr.state != 3

/-- `KPR_CONFIRM` holds the value of `KPR_ID_0`. -/
def State.confirmed (s : State) : Bool := s.kpr.confirm == some (s.cart.ident % 2 ^ 32)

/-- The keeper writes that would fill an emptied area again are given up with it: those that wait are withdrawn, and the one in
flight completes nothing (R315; log entry 140, DESIGN CHOICE). -/
def dropRefills (s : State) : State :=
  let refills (j : KprJob) : Bool := match j.kind with
    | .retained _ => true
    | .retire _ => true
    | .purge _ => true
    | .bitstream _ _ _ => true
    | _ => false
  let s := ownStoreFails (abandonRound s)
  let s := setJobs (s.kpr.jobs.filter fun j => !refills j) s
  { s with kpr := { s.kpr with inFlight := s.kpr.inFlight.map fun j => if refills j then { j with kind := .ledger 0 } else j } }

/-- Recommissioning (R315): of a keeper in OK, with `KPR_CONFIRM` right; a wrong one sets `CONFIRM_BAD`. -/
def recommissionAct (who : Agent) (s : State) : State :=
  if s.mayRecommission who then
    if !s.confirmed then hwSet 0xF0000 9 none { s with kpr := { s.kpr with confirmBad := true } }
    else if s.keeperWritable then
      let names := s.kpr.names
      let lvl := s.kpr.newBlvl
      let s := dropRefills s
      let s := modCart (fun c => { c with
        slots := [none, none], current := none, staged := none, retained := [none, none], retireMap := []
        highWater := 0, epochReserve := 0, names := names, blvl := lvl }) s
      let s := queueJob { cls := 0, kind := .clearReserve, pages := 2 } (writeIdentity s)
      let s := ledger 0x0F07 0xFFFF [] (copyRoles s)
      { s with gen := { s.gen with restart := some { cold := false, due := s.aon, entry := 4 } } }
    else s
  else s

/-- KEEPER_PAGE_ADMIT (R317, R318); a keeper that turns READ_ONLY ends a committed store (R52) and a round. -/
def execKeeperPageAdmit (w : When) (s : State) : Result :=
  let s := admitPage (s.at w)
  .next (if s.kpr.state = 3 then ownStoreFails (abandonRound s) else s)

/-- KEEPER_WRITE_COMPLETE (R309): the page in flight finishes or fails. -/
def execKeeperWriteComplete (w : When) (ok : Bool) (s : State) : Result := .next (pageEnds ok (s.at w))

/-- `SEQ_RET_AGE`: seconds since the last complete retained image, saturating; all ones for none since start. -/
def State.retAge (s : State) : Nat := match s.seq.retLast with
  | some t => min 0xFFFFFFFF ((s.aon - t) / 1000000000)
  | none => 0xFFFFFFFF

/-- KEEPER_STALE (R320): 60 s without an OK keeper and a retained image older than 60 s report to source 24. -/
def execKeeperStale (w : When) (s : State) : Result :=
  let s := s.at w
  .next (match s.kpr.notOkSince with
    | some t =>
      if decide (t + aonSec 60 ≤ s.aon ∧ 60 < s.retAge) && !s.kpr.staleReported then
        report 24 0xFF { s with kpr := { s.kpr with staleReported := true } }
      else s
    | none => s)

/-- LEDGER_PAGE_TIMEOUT (R330): 1 s after its oldest record arrived the partial page is written. -/
def execLedgerPageTimeout (w : When) (s : State) : Result :=
  let s := s.at w
  .next (if !s.lgr.held.isEmpty && decide (s.lgr.oldest + aonSec 1 ≤ s.aon) then queueLedger true s else s)

/-- One summary record (R329), with the code that the bucket reports. -/
def summaryRecord (code : Nat) (x : Suppressed) (s : State) : LedgerRecord :=
  mkRecord 0x0E01 0xFFFF [code, x.count, timeSec x.first % 2 ^ 32, timeNs x.first, timeSec x.last % 2 ^ 32, timeNs x.last] s

/-- The summaries of the codes whose bucket holds a whole token now (R329). -/
def summarise (all : Bool) (s : State) : State :=
  s.lgr.pending.foldl (fun s x =>
    let i := bucketFor s.lgr.buckets x.code
    let b := (s.lgr.buckets.getD i {}).fill s.aon
    if all || decide (tokenUnit ≤ b.level) then
      let s := { s with lgr := { s.lgr with buckets := putAt s.lgr.buckets i b, pending := s.lgr.pending.filter (·.code != x.code) } }
      (admitRecord (summaryRecord b.reports x s) s).2
    else s) s

/-- SUPPRESSION_SUMMARY (R329). -/
def execSuppressionSummary (w : When) (s : State) : Result := .next (summarise false (s.at w))

/-- A record that the firmware requests (R332); its time is the arrival's. -/
def lgrReqAct (who : Agent) (s : State) : State :=
  if isFw who then
    let code := s.lgr.reqCode % 65536
    if 0x8000 ≤ code ∧ code ≤ 0xFFFE then
      let r := mkRecord code (s.lgr.reqCode / 65536) s.lgr.reqData s
      let p := admitRecord { r with flags := s.recFlags true } s
      { p.2 with lgr := { p.2.lgr with reqResult := p.1 } }
    else raise .lgr 6 { s with lgr := { s.lgr with reqResult := 3 } }
  else s

/-- The firmware's snapshot (R333). -/
def lgrSnapAct (who : Agent) (s : State) : State :=
  if isFw who && s.keeperReadable then
    { s with lgr := { s.lgr with snapLow := s.cart.lowest, snapHigh := s.cart.highest, readSeqs := [] } }
  else s

/-- The firmware reads the record that `LGR_RD_SEQ` names (R333, R320): code 0 record, 1 lost, 2 `RANGE`, 3 no keeper. -/
def lgrReadAct (who : Agent) (s : State) : State :=
  if isFw who then
    let n := s.lgr.rdLo + s.lgr.rdHi * 2 ^ 32
    if !s.keeperReadable then { s with lgr := { s.lgr with rdCode := 3 } }
    else if s.lgr.snapHigh < n then { s with lgr := { s.lgr with rdCode := 2 } }
    else
      let a := answerRecord s.cart n
      { s with lgr := { s.lgr with rdCode := a.1, recBytes := a.2, readSeqs := n :: s.lgr.readSeqs.filter (· != n) } }
  else s

end Sys2Proof.Machine
end

