-- ==== Sys2Proof/Machine/BudgetOps.lean ====
section
/-! DEFINITION. Budgets at the strobe, the admission mask of R243 in binary64, and the feeds (chapter 10). -/

namespace Sys2Proof.Machine

open Sys2Proof

/-- Changes the power and thermal manager's state. -/
def modPtm (f : PtmState → PtmState) (s : State) : State := { s with ptm := f s.ptm }

/-- Changes the budget unit's state. -/
def modBgt (f : BgtState → BgtState) (s : State) : State := { s with bgt := f s.bgt }

/-! ### Budgets (R25, R238, R239) -/

/-- The unit of a slot (`BGT_DETAIL.UNIT`): 0 ns, 1 bytes, 2 grid slots. -/
def slotUnit (i : Nat) : Nat :=
  if i < 16 then 0 else if i = 16 then 2 else if i = 20 ∨ i = 23 then 0 else if i < 26 then 1 else 0

/-- The generation whose section is in force in the period of count `k`, where its swap point is the first one at or after
`point` (R56, R242). -/
def State.sectAt (s : State) (ty point k : Nat) : Generation :=
  match s.cfg.next with
  | some g => if s.cfg.fixedA && s.cfg.carried.contains ty && decide (point ≤ k) then g else s.sect ty
  | none => s.sect ty

/-- A task has an entry in the period of count `k`: in the tables it runs on, or in those that it takes up from A on; one that
the delta removes ends at A (R56). -/
def State.hasTaskAt (s : State) (t k : Nat) : Bool :=
  match s.cfg.next with
  | none => (s.taskCfg t).isSome
  | some g =>
    let past := s.cfg.fixedA && s.cfg.carried.any taskTables.contains && decide (s.bsl.swapA ≤ k)
    if past then g.tasks.any (·.task == t) else (s.taskCfg t).isSome

/-- The mailbox mapping of the old generation still refers, in the period of count `k`, to the wavefront engine that the delta
takes out of use (R42, R57). -/
def State.mappedAt (s : State) (k : Nat) : Bool :=
  s.stillMapped 1 && !(s.cfg.fixedA && decide (if s.cfg.carried.contains 5 then s.boundaryCount < k else s.boundaryCount ≤ k))

/-- The slot's stall receives its budget in the period of count `k`: its task is configured, its unit is present and used
(R238). -/
def State.slotUsed (s : State) (k i : Nat) : Bool :=
  if i < 16 then s.hasTaskAt i k
  else if i = 16 ∨ i = 17 ∨ i = 18 then s.present 0 && (s.sectAt 5 s.boundaryCount k).unitUse.testBit 0
  else if i = 20 then s.present 1 && ((s.sectAt 6 s.bsl.swapA k).unitUse.testBit 1 || s.mappedAt k)
  else if i = 21 then (s.sectAt 4 s.boundaryCount k).sv.archSegments != 0 && (s.sectAt 4 s.boundaryCount k).sv.channels != 0
  else true

/-- A slot's budget under given budgets in the period of count `k`. -/
def State.slotBudget (s : State) (b : BudgetSec) (k i : Nat) : Nat := if s.slotUsed k i then (b.slots.getD i (0, 0)).1 else 0

/-- A period ends for a slot: the charge of the work issued in it, what ran on engine time included, and the overshoot,
which counts against the next budget (R25). -/
def SlotState.close (x : SlotState) (extra : Nat) (withheld : Bool) : SlotState :=
  let total := x.spent + extra
  let excess := total - x.budget
  let hit := decide (0 < total ∧ x.budget ≤ total) && !x.exhausted
  { x with
    spent := excess, last := total - x.overshoot, overshoot := excess, exhausted := false
    exhaustions := tallyAdd x.exhaustions (bit1 hit), withheld := tallyAdd x.withheld (bit1 withheld), overMax := max x.overMax excess }

/-- The budget and rank of the new period; an overshoot that fills it leaves the stall exhausted. -/
def SlotState.reload (x : SlotState) (budget rank : Nat) : SlotState :=
  let full := decide (0 < x.spent ∧ budget ≤ x.spent)
  { x with budget := budget, rank := rank, exhausted := full, exhaustions := tallyAdd x.exhaustions (bit1 full) }

/-- A port's transmit stall at the strobe (R25, R116), and what it does once a period. -/
def PortState.close (p : PortState) (budget : Nat) : PortState :=
  let excess := p.spent - budget
  { p with txBytes := p.spent - p.overshoot, overshoot := excess, spent := excess, exhausted := false
           syncSent := false, reqSent := false, respSent := false
           outq := p.outq.map fun f => { f with deferred := false }
           waitq := p.waitq.map fun f => { f with deferred := false } }

/-! ### The admission mask (R242 to R244, R250, R423) -/

/-- The generation whose section is in force at the next period: the new one where its swap falls at that strobe
(R242). -/
def State.sectNext (s : State) (ty : Nat) : Generation := s.sectAt ty s.bsl.swapA (s.pcount + 1)

/-- Every slot admitted but the deferrable ones, 20 to 25. -/
def mandatoryMask : Nat := 0xFFFFFFFFFFFFFFFF - 0x3F00000

/-- `derate_mw` at an inlet temperature in 1/16 °C (R244): 4,000 mW a degree is 250 mW a sixteenth. -/
def derateMw (t : Int) : Int := if t ≤ 880 then 180000 else if 1120 ≤ t then 120000 else 180000 - 250 * (t - 880)

/-- A sum in binary64, from zero, in the order of the list (log entry 33, DESIGN CHOICE). -/
def sum64 (l : List Fp) : Fp := l.foldl (Fp.add b64) (fpInt 0)

/-- A coefficient times a charge, in binary64. -/
def energy (coef units : Nat) : Fp := Fp.mul b64 (dec32 coef) (fpInt units)

/-- The greater of two numbers. -/
def Fp.maxOf (a b : Fp) : Fp := if a.le b then b else a

/-- The lesser of two numbers. -/
def Fp.minOf (a b : Fp) : Fp := if a.le b then a else b

/-- Sensor 4 is left out on a module without the WCE (R245). -/
def State.sensors (s : State) : List Nat := (List.range 12).filter fun i => i != 4 || s.present 1

/-- (`CEIL` − temperature) / `BAND` of a sensor, not clamped. -/
def State.margin (s : State) (p : PowerSec) (i : Nat) : Fp :=
  let c := p.sensors.getD i (0, 16)
  Fp.div b64 (fpInt (c.1 - s.ptm.temps.getD i 0)) (fpInt c.2)

/-- h of R243. -/
def State.headroom (s : State) (p : PowerSec) : Fp :=
  s.sensors.foldl (fun h i => Fp.minOf h (Fp.maxOf (fpInt 0) (s.margin p i))) (fpInt 1)

/-- What the PTM computes for one mask. -/
structure MaskCalc where
  cap : Fp
  mand : Fp
  allow : Fp
  h : Fp
  mask : Nat

/-- Deferrable slots in the order of admission: by rank, then by slot. -/
def deferrable (b : BudgetSec) : List Nat :=
  [4, 5, 6, 7, 8].flatMap fun r => [20, 21, 22, 23, 24, 25].filter fun i => (b.slots.getD i (0, 0)).2 == r

/-- The computation of R243 from the period measured last; `RIDE` withholds ranks 4 to 8 (R250). -/
def State.computeMask (s : State) : MaskCalc :=
  let b := (s.sectNext 0xB).budgets
  let p := (s.sectNext 0xC).power
  let cap := fpRat (min (p.ceilingMw : Int) (derateMw (s.ptm.temps.getD 0 0))) 8
  let k (i : Nat) : Nat := p.coef.getD i 0
  let kp (n : Nat) : Nat := p.portCoef.getD n 0
  let spent := sum64 (((List.range 64).map fun i => energy (k i) (s.bgt.slots.getD i {}).last)
    ++ (List.range 64).map fun n => energy (kp n) (s.port n).txBytes)
  let u := Fp.maxOf (Fp.sub b64 (fpInt s.ptm.measured.uj) spent) (dec32 p.fixedMin)
  let mand := Fp.add b64 u (sum64 (((List.range 20).map fun i => energy (k i) (s.slotBudget b (s.pcount + 1) i))
    ++ (List.range 64).map fun n => energy (kp n) (b.ports.getD n 0)))
  let h := s.headroom p
  let allow := if mand.lt cap then Fp.mul b64 h (Fp.sub b64 cap mand) else fpInt 0
  let go := (deferrable b).foldl (fun (acc : Nat × Fp × Bool) i =>
    let used := Fp.add b64 acc.2.1 (energy (k i) (s.slotBudget b (s.pcount + 1) i))
    if !acc.2.2 && used.le allow then (acc.1 + 2 ^ i, used, false) else (acc.1, acc.2.1, true)) (mandatoryMask, fpInt 0, s.ptm.ride)
  { cap := cap, mand := mand, allow := allow, h := h, mask := go.1 }

/-- A quantity in µJ as a register shows it. -/
def ujOf (x : Fp) : Nat := min 0xFFFFFFFF x.floor.toNat

/-- The sensors' reading against their ceilings over the period just begun: runs of periods at or above `CEIL`. -/
def hotRuns (p : PowerSec) (s : State) : List Nat :=
  (List.range 12).map fun i =>
    if s.sensors.contains i && decide ((p.sensors.getD i (0, 16)).1 ≤ s.ptm.temps.getD i 0) then s.ptm.hotRun.getD i 0 + 1 else 0

/-- Every sensor reads at or below `CEIL` − `BAND` (R248). -/
def State.cool (s : State) (p : PowerSec) : Bool :=
  s.sensors.all fun i =>
    let c := p.sensors.getD i (0, 16)
    decide (s.ptm.temps.getD i 0 ≤ c.1 - (c.2 : Int))

/-- The PTM computes the mask for the next period (R242, R243, R247, R248, R253); `first` is period E of R423, whose excess
does not count. -/
def computeNext (first : Bool) (s : State) : State :=
  let c := s.computeMask
  let p := (s.sectNext 0xC).power
  let above := c.cap.le c.mand && !first
  let h := min 0x10000 (Fp.mul b64 c.h (fpInt 65536)).floor.toNat
  let below := c.h.lt (fpInt 1)
  let was := decide (s.ptm.h < 0x10000)
  let calm := s.cool p && c.mand.le (Fp.mul b64 (fpRat 9 10) c.cap)
  let s := modBgt (fun b => { b with next := some c.mask }) s
  let s := modPtm (fun m => { m with
    capUj := ujOf c.cap, mandUj := ujOf c.mand, allowUj := ujOf c.allow, h := if below then min h 0xFFFF else 0x10000
    overCap := tallyAdd m.overCap (bit1 above), overRun := if above then m.overRun + 1 else 0, hotRun := hotRuns p s
    coolSince := if calm then (match m.coolSince with | some x => some x | none => some s.aon) else none }) s
  when (below != was) (raise .ptm 2) s

/-- The mask of the strobe takes effect (R24, R423): the set of withheld stalls may change (source 112). -/
def setMask (m mode : Nat) (s : State) : State :=
  let old := s.bgt.mask
  let s := modBgt (fun b => { b with mask := m, missMode := mode }) s
  when (old != m) (raise .ptm 0) s

/-- What the BGT applies at a strobe: the mask delivered, the last one after one miss, ranks 4 to 8 withheld after two; the
boot set until the sections come into force, and ranks 4 to 8 withheld in period E (R24, R423). -/
def applyMask (s : State) : State :=
  if s.bgt.booting then
    if s.cfg.loaded then setMask mandatoryMask 0 (modBgt (fun b => { b with booting := false, firstMask := true, missRun := 0, next := none }) s) else s
  else
    let s := modBgt (fun b => { b with firstMask := false }) s
    match s.bgt.next with
    | some m => setMask m 0 (modBgt (fun b => { b with missRun := 0, next := none }) s)
    | none => if s.bgt.missRun < 2 then setMask s.bgt.mask 1 s else setMask mandatoryMask 2 s

/-- The period that a strobe ends is closed (R25, R239, R242), and the energy measured over it is held. -/
def closePeriod (m : Measured) (s : State) : State :=
  let s := modPtm (fun x => { x with measured := m, powerMw := min 0xFFFFFFFF (8 * m.uj), rails := (m.rails ++ List.replicate 8 0).take 8 }) s
  let mask := s.bgt.mask
  let extra (i : Nat) : Nat := ((m.spent.filter (·.1 == i)).map (·.2)).foldl (· + ·) 0
  let s := modBgt (fun x => { x with slots := x.slots.mapIdx (fun i y => y.close (extra i) (!(mask.testBit i))) }) s
  { s with prt := { s.prt with ports := s.prt.ports.mapIdx fun n p => p.close (s.portBudget n) } }

/-- Every budget counter is reloaded from the sections in force, or from the boot set (R25, R423). -/
def reloadBudgets (s : State) : State :=
  let b := (s.sect 0xB).budgets
  let boot := s.bgt.booting
  let now (i : Nat) (y : SlotState) : SlotState :=
    if boot then y.reload (bootSlot i).budget (defaultRank i) else y.reload (s.slotBudget b s.pcount i) (b.slots.getD i (0, 0)).2
  let s := modBgt (fun x => { x with slots := x.slots.mapIdx now }) s
  { s with prt := { s.prt with ports := s.prt.ports.mapIdx fun n p => { p with exhausted := decide (0 < p.spent ∧ s.portBudget n ≤ p.spent) } } }

/-! ### Thermal-degraded state (R247) -/

/-- The hottest sensor: the lowest margin, the lowest number on a tie. -/
def State.hottest (s : State) : Nat :=
  let p := (s.sect 0xC).power
  s.sensors.foldl (fun best i => if (s.margin p i).lt (s.margin p best) then i else best) 0

/-- The causes of R247 that hold now: bit 0 mandatory excess, bit 1 a sensor at its ceiling. -/
def State.thermalCause (s : State) : Nat :=
  bit1 (decide ((s.sect 0xC).power.overPeriods ≤ s.ptm.overRun)) + 2 * bit1 (s.ptm.hotRun.any fun n => decide (8000 ≤ n))

/-- The hand-over request of a primary in thermal-degraded state beside a STANDBY partner (R247, R273). -/
def thermalRequest (s : State) : State :=
  if s.canHandOver then requestHandover 4 none (modPtm (fun m => { m with lastReq := s.aon }) s) else s

/-! ### Power fail (R250, R412) -/

/-- Power fail is signalled: status, source 117; the triad halts (R218), and the final retained round and the ledger's end
run on the 40 ms bank. -/
def signalPowerFail (s : State) : State :=
  if s.ptm.powerFail then s
  else raise .ptm 5 (reschedule (modTrd (fun t => { t with mode := 4 }) (modPtm (fun m => { m with powerFail := true }) s)))

/-- The module holds the state of every task, as PRIMARY or as STANDBY: retained rounds run (log entry 34, DEDUCED). -/
def State.holdsState (s : State) : Bool := s.gen.phase == 7 && (s.wvl.role == 1 || s.wvl.role == 3)

/-- The state of a feed by its voltage in mV: 0 lost, 1 good, 2 over-voltage (R249). -/
def feedState (old mv : Nat) : Nat :=
  if 75000 < mv then 2
  else if 34000 ≤ mv then 1
  else if 32000 ≤ mv then (if old = 1 then 1 else 0)
  else 0

end Sys2Proof.Machine
end

