-- ==== Sys2Proof/Machine/Ptm.lean ====
section
/-! DEFINITION. The commands of the budget unit and of the power and thermal manager (chapter 10, and R412). -/

namespace Sys2Proof.Machine

open Sys2Proof

/-- BUDGET_EXHAUSTED (R25, R239): `charge` more units have been issued on a stall; where its charge reaches its budget it
is exhausted until the next strobe; an exhausted split stall ends a split interval (R231), and an exhausted archive stall closes
the segment (R129). -/
def execBudgetExhausted (w : When) (st : Stall) (charge : Nat) (d : Digests) (s : State) : Result :=
  let s := s.at w
  match st with
  | .slot i =>
    let s := chargeSlot i.val charge s
    let x := s.bgt.slots.getD i.val {}
    .next (if x.budget ≤ x.spent ∧ !x.exhausted then
        let s := modBgt (fun b => { b with slots := updAt b.slots i.val fun y => { y with exhausted := true, exhaustions := tallyInc y.exhaustions } }) s
        let s := when (decide (i.val = 23)) (splitInterrupted 3 d) (when (decide (i.val = 21)) archiveStop s)
        drainShp (reschedule (noteBulk s))
      else s)
  | .port n =>
    let s := chargePort n.val charge s
    .next (if s.portBudget n.val ≤ (s.port n.val).spent then modPort n.val (fun p => { p with exhausted := true }) s else s)

/-- MASK_MISS (R24): the mask of the next period is late and is discarded; the miss is counted and reported (source 118,
fault source 27). While the boot set runs no mask is due (R423). -/
def execMaskMiss (w : When) (s : State) : Result :=
  let s := s.at w
  if s.bgt.booting || s.bgt.next.isNone then .next s
  else
    let s := modBgt (fun b => { b with next := none, missRun := b.missRun + 1, missed := tallyInc b.missed }) s
    .next (report 27 0xFF (raise .ptm 6 s))

/-- SENSOR_CONVERSION (R242, R244): a reading in 1/16 °C; sensor 4 reads 0 °C without the WCE (R245); the OCXO's, sensor 7,
revises the holdover limit (R72). -/
def execSensorConversion (w : When) (sensor : Fin 12) (temp : Int) (s : State) : Result :=
  let s := s.at w
  let i := sensor.val
  let t := if s.sensors.contains i then signedOf 16 (unsignedOf 16 temp) else 0
  let s := modPtm (fun m => { m with temps := putAt m.temps i t }) s
  let s := when (decide (i = 7)) (holdoverRevise t) s
  let p := (s.sect 0xC).power
  let hot := s.sensors.contains i && decide ((p.sensors.getD i (0, 16)).1 ≤ t)
  let s := if hot then s else modPtm (fun m => { m with hotRun := putAt m.hotRun i 0 }) s
  .next (if s.cool p then s else modPtm (fun m => { m with coolSince := none }) s)

/-- THERMAL_DEGRADED_ENTRY (R247). -/
def execThermalDegradedEntry (w : When) (s : State) : Result :=
  let s := s.at w
  let cause := s.thermalCause
  if s.ptm.degraded || s.bgt.booting || cause = 0 then .next s
  else
    let hot := s.hottest
    let s := modPtm (fun m => { m with degraded := true, degradedCount := tallyInc m.degradedCount, lastReq := s.aon, coolSince := none }) s
    let s := ledger 0x0901 0xFFFF [cause, s.ptm.mandUj, s.ptm.capUj, hot] (report 26 0xFF s)
    .next (thermalRequest (raise .ptm 1 s))

/-- THERMAL_HANDOVER_REPEAT (R247): every second while the state lasts. -/
def execThermalHandoverRepeat (w : When) (s : State) : Result :=
  let s := s.at w
  .next (if s.ptm.degraded && decide (s.ptm.lastReq + aonSec 1 ≤ s.aon) then thermalRequest s else s)

/-- THERMAL_DEGRADED_EXIT (R248): after 60 s without interruption; it returns no role. -/
def execThermalDegradedExit (w : When) (s : State) : Result :=
  let s := s.at w
  .next (match s.ptm.coolSince with
    | some t =>
      if s.ptm.degraded && decide (t + aonSec 60 ≤ s.aon) then
        raise .ptm 1 (ledger 0x0902 0xFFFF [] (modPtm (fun m => { m with degraded := false }) s))
      else s
    | none => s)

/-- One feed takes its voltage; a change of its state is recorded (source 115, R249). -/
def setFeed (i mv : Nat) (s : State) : State :=
  let old := s.ptm.feed.getD i 0
  let new := feedState old mv
  let s := modPtm (fun m => { m with mv := putAt m.mv i mv, feed := putAt m.feed i new }) s
  if new = old then s else ledger 0x0903 (i + 1) [i + 1, (Config.feedWord new).toNat] (raise .ptm 3 s)

/-- A feed is good. -/
def State.feedGood (s : State) : Bool := s.ptm.feed.any (· == 1)

/-- `PTM_STAT.RIDE` follows the feeds (R250): the loss of the last good feed sets it, a feed that becomes good within 10 ms
clears it, and one that comes later finds power fail; `was` says that a feed was good before. -/
def followRide (was : Bool) (s : State) : State :=
  let good := s.feedGood
  if was && !good && !s.ptm.ride && !s.ptm.powerFail then raise .ptm 4 (modPtm (fun m => { m with ride := true, rideSince := s.aon }) s)
  else if good && s.ptm.ride && !s.ptm.powerFail then
    (if s.aon ≤ s.ptm.rideSince + aonMs 10 then modPtm (fun m => { m with ride := false }) s else signalPowerFail s)
  else s

/-- P0 ends with a feed good, power good on every rail and the hold-up banks tested (R389). -/
def endP0 (s : State) : State :=
  if s.gen.phase = 0 ∧ s.ptm.bankTested ∧ s.gen.powerGood ∧ s.feedGood then { s with gen := { s.gen with phase := 1 } } else s

/-- Since when a feed has been good, which charges the hold-up banks (R411). -/
def noteGood (s : State) : State :=
  let g := s.feedGood
  modPtm (fun m => { m with goodSince := if g then some (m.goodSince.getD s.aon) else none }) s

/-- The feed that carries more than 90 % of the input current (R249): a reversed feed, which reads 0 mV, carries none (R410). -/
def carrying (carry mv1 mv2 : Nat) : Nat := if (carry = 1 ∧ mv1 = 0) ∨ (carry = 2 ∧ mv2 = 0) then 0 else carry

/-- FEED_STATE_CHANGE (R249, R250, R389): both feed voltages in mV and the feed that carries more than 90 % of the current. -/
def execFeedStateChange (w : When) (mv1 mv2 : Nat) (carry : Fin 3) (s : State) : Result :=
  let s := s.at w
  let was := s.feedGood
  let s := noteGood (setFeed 1 mv2 (setFeed 0 mv1 s))
  .next (endP0 (followRide was (modPtm (fun m => { m with carry := carrying carry.val mv1 mv2 }) s)))

/-- POWER_FAIL (R250, R218): 10 ms of continuous loss, or the ride-through bank below its reserve voltage. -/
def execPowerFail (w : When) (rideLow : Bool) (s : State) : Result :=
  let s := s.at w
  .next (if s.ptm.ride && (rideLow || decide (s.ptm.rideSince + aonMs 10 ≤ s.aon)) then signalPowerFail s else s)

/-- The pages that the power-fail round may write: at most 5 MiB, and what the whole bucket holds (R317). -/
def State.roundAllowance (s : State) : Nat := min 1280 (s.kpr.bucket / pageUnits)

/-- The retained image of the power-fail round, where the pages left take it (R218). -/
def finalImage (left : Nat) (s : State) : Nat × State :=
  let img := s.roundImage
  let n := s.roundPages img
  if s.holdsState && decide (n ≤ left) then
    (left - n, keeperCharge (4096 * n) (modCart (fun c => { c with retained := putAt c.retained c.roundSlot (some { image := img }) }) s))
  else (left, s)

/-- What the final round writes before the bank is exhausted (R218, R317, R331): the assignment mark, the retained image where
`complete`, then `stored` held records. -/
def finalRound (complete : Bool) (stored : Nat) (s : State) : State :=
  let s := refillBucket s
  let pages := s.roundAllowance
  if s.keeperWritable && decide (0 < pages) then
    let mark := s.lgr.nextSeq - 1
    let s := keeperCharge 4096 (modCart (fun c => { c with mark := mark }) s)
    if complete then
      let r := finalImage (pages - 1) s
      storePages (min stored (r.2.lgr.recordsIn r.1)) r.2
    else s
  else s

/-- The rail goes down. -/
def powerGone (s : State) : State := { s with gen := { s.gen with powerGood := false } }

/-- FINAL_ROUND_COMPLETE (R250): the round ends or the 40 ms bank is exhausted; the module stops without power, its outputs open
(R382), with nothing running until POWER_APPLIED. -/
def execFinalRoundComplete (w : When) (complete : Bool) (stored : Nat) (s : State) : Result :=
  let s := s.at w
  .next (if s.ptm.powerFail then powerGone (pinsRest (finalRound complete stored s)) else s)

/-- The hold-up banks have charged: a feed has been good for 0.4 s (R411; log entry 142, DESIGN CHOICE). -/
def State.charged (s : State) : Bool := match s.ptm.goodSince with
  | some t => s.feedGood && decide (t + aonMs 400 ≤ s.aon)
  | none => false

/-- BANK_TEST (R251): in P0 once the banks have charged, or 24 h after the last test; not while `RIDE` is set. -/
def execBankTest (w : When) (s : State) : Result :=
  let s := s.at w
  let due := (decide (s.gen.phase = 0 ∧ !s.ptm.bankTested) && s.charged) || (s.ptm.bankTested && decide (s.ptm.lastBankTest + aonSec 86400 ≤ s.aon))
  .next (if due && !s.ptm.ride && !s.ptm.bankTesting then modPtm (fun m => { m with bankTesting := true }) s else s)

/-- A bank below 80 % of rated (R251): `bank` 0 is the ride-through bank, 1 the 40 ms bank, and the number that the record gives it is a free value. -/
def bankFault (bank permille : Nat) (s : State) : State :=
  if permille < 800 then ledger 0x0904 0xFFFF [(Config.bankWord bank).toNat, permille] (report 26 0xFF (raise .ptm 7 s)) else s

/-- BANK_TEST_COMPLETE (R251, R389): capacitances in per mille of rated. In P0 the test ends the phase. -/
def execBankTestComplete (w : When) (ride hold : Nat) (s : State) : Result :=
  let s := s.at w
  if !s.ptm.bankTesting then .next s
  else
    let ride := ride % 65536
    let hold := hold % 65536
    let s := modPtm (fun m => { m with
      bankTesting := false, bankTested := true, lastBankTest := s.aon, bankRide := ride, bankHold := hold
      bankFault := decide (ride < 800 ∨ hold < 800) }) s
    let s := bankFault 1 hold (bankFault 0 ride s)
    .next (endP0 s)

/-- The trip point of a sensor in 1/16 °C (R412). -/
def tripPoint (i : Nat) : Option Int :=
  if i = 0 then some 1280 else if 2 ≤ i ∧ i ≤ 5 then some 1840 else if i = 10 then some 1920 else none

/-- OVERTEMP_TRIP (R412): the protection's own comparator; power fail follows, and the conversion switches off at the end
of the round. -/
def execOvertempTrip (w : When) (sensor : Fin 12) (s : State) : Result :=
  let s := s.at w
  .next (if (tripPoint sensor.val).isSome then
      signalPowerFail (modPtm (fun m => { m with tripped := if m.tripped.contains sensor.val then m.tripped else m.tripped ++ [sensor.val] }) s)
    else s)

end Sys2Proof.Machine
end

