-- ==== Sys2Proof/Machine/Upd.lean ====
section
/-! DEFINITION. The firmware update unit and the boot ROM (chapter 17). -/

namespace Sys2Proof.Machine

open Sys2Proof

/-! ### The image header (R361, R366) -/

/-- The first byte of a span that is not zero. -/
def firstNonZero (bs : List Byte) (off len : Nat) : Option Nat :=
  ((slice bs off len).findIdx? (· != 0)).map (off + ·)

/-- The first reserved byte of an image header that is not zero. -/
def reservedBad (bs : List Byte) : Option Nat :=
  [(0x07, 1), (0x1E, 2), (0x24, 28), (0xA0, 96), (0x190, 112)].findSome? fun p => firstNonZero bs p.1 p.2

/-- The digest of an image over its signed part (R361). -/
def imageDigest (img : List Byte) : List Byte :=
  let len := leField img 0x20 4
  sha384 (slice img 0 0x100 ++ slice img 0x200 (len - 0x200))

/-- The behaviour level check is skipped while no keeper is in OK or READ_ONLY (R363). -/
def State.blvlSkipped (s : State) : Bool := !s.keeperReadable

/-- The header checks 0x01 to 0x0A in order: the code of the first that fails, and its offset. `boot` leaves out 0x06
and 0x07 (R366, R367). -/
def imageCheck (boot : Bool) (bs : List Byte) (s : State) : Option (Nat × Nat) :=
  let key := s.upd.keys.getD (leField bs 6 1) none
  let lo := leField bs 0x10 4
  let hi := leField bs 0x14 4
  let lvl := s.cart.blvl
  if leField bs 0 4 ≠ 0x4D574655 then some (1, 0)
  else if leField bs 4 2 ≠ 1 then some (2, 4)
  else if 3 < leField bs 6 1 then some (2, 6)
  else if let some o := reservedBad bs then some (2, o)
  else if leField bs 8 4 ≠ 0x64 then some (3, 8)
  else if s.upd.hwRev < leField bs 0xC 2 ∨ leField bs 0xE 2 < s.upd.hwRev ∨ leField bs 0xE 2 < leField bs 0xC 2 then some (4, 0xC)
  else if leField bs 0x20 4 < 4096 ∨ 67108864 < leField bs 0x20 4 then some (5, 0x20)
  else if !boot && (decide (hi < lo) || (!s.blvlSkipped && decide (lvl < lo ∨ hi < lvl))) then some (6, 0x10)
  else if !boot && decide (leField bs 0x18 4 < s.upd.verRun) then some (7, 0x18)
  else if 255 < leField bs 0x1C 2 ∨ leField bs 0x1C 2 < s.upd.secFuse then some (8, 0x1C)
  else if key ≠ some (sha384 (slice bs 0x40 96)) then some (9, 0x40)
  else if !ecdsaVerify (slice bs 0x40 96) (slice bs 0x100 48) (slice bs 0x130 96) then some (10, 0x130)
  else none

/-! ### Loads (R362 to R366) -/

/-- The slot that is not running. -/
def State.spareSlot (s : State) : Nat := 1 - s.upd.active

/-- Changes a firmware slot. -/
def modFwSlot (n : Nat) (f : FwSlot → FwSlot) (s : State) : State :=
  { s with upd := { s.upd with slots := updAt s.upd.slots n f } }

/-- Event bit of the update unit; source 156 (R370). -/
def updEvent (bit : Nat) (s : State) : State := raise .upd bit s

/-- A firmware refusal (R366): status, registers, record and event. -/
def updRefuse (code offset : Nat) (s : State) : State :=
  let s := hwSet 0x110004 4 none { s with upd := { s.upd with refused := true, refuse := code, refuseOffset := offset } }
  ledger 0x1101 0xFFFF [code, offset] (updEvent 0 s)

/-- The load is given up and the slot left EMPTY (R365). -/
def updDrop (s : State) : State :=
  if s.upd.load.isSome then
    modFwSlot s.spareSlot (fun _ => {}) { s with upd := { s.upd with load := none } }
  else s

/-- Answers a firmware load message. -/
def replyUpd (i : Fin 8) (status detail : Nat) (s : State) : State :=
  reply i status detail [0, if status = 8 then s.upd.refuse else 0, if status = 8 then s.upd.refuseOffset else 0] s

/-- Answers the commit of an image whose read-back has ended. -/
def answerUpd (i : Option Nat) (status detail : Nat) (s : State) : State :=
  answerTo 2 i status detail [0, if status = 8 then s.upd.refuse else 0, if status = 8 then s.upd.refuseOffset else 0] s

/-- A refusal that ends the load, answered. -/
def updRefuseAll (i : Fin 8) (code offset : Nat) (s : State) : State :=
  replyUpd i 8 code (updRefuse code offset (updDrop s))

/-- Bytes of a block at an offset of a load of `total` bytes: 4,096, or what is left (R48). -/
def blockSize (total offset : Nat) : Nat := min 4096 (total - offset)

/-- Every block of a load of `total` bytes has arrived. -/
def allBlocks (blocks : List (Nat × List Byte)) (total : Nat) : Bool :=
  (List.range ((total + 4095) / 4096)).all fun k => blocks.any (·.1 == 4096 * k)

/-- The bytes of a complete load. -/
def joinBlocks (blocks : List (Nat × List Byte)) (total : Nat) : List Byte :=
  (List.range ((total + 4095) / 4096)).flatMap fun k => ((blocks.find? (·.1 == 4096 * k)).map (·.2)).getD []

/-- Bytes accepted in a load. -/
def loadBytes (blocks : List (Nat × List Byte)) : Nat := blocks.foldl (fun n b => n + b.2.length) 0

/-- A first block (R362): the header is checked; the inactive slot is erased and marked LOADING. A slot whose erasure or write
fails is left EMPTY, and the load refused with `FLASH` (R366). -/
def updFirst (i : Fin 8) (offset : Nat) (b : FlashBlock) (s : State) : State :=
  let data := b.bytes
  if s.upd.storing then replyUpd i 8 0x0D (updRefuse 0x0D 0 s)
  else if offset ≠ 0 ∨ data.length ≠ 4096 then updRefuseAll i 0x0B offset s
  else match imageCheck false data s with
    | some (c, o) => updRefuseAll i c o s
    | none =>
      let s := modFwSlot s.spareSlot (fun _ => { state := 1 }) s
      let l : UpdLoad := { owner := some i.val, total := leField data 0x20 4, header := data.take 512, blocks := [(0, data)], since := s.aon }
      let s := { s with upd := { s.upd with load := some l, skipBlvl := s.blvlSkipped } }
      if b.flashOk then replyUpd i 0 0 s else updRefuseAll i 0x10 0 s

/-- The load is the session's, and its 60 s start again: a block or commit of its owner, or of the session that takes up a load
whose owner has closed (R49, R50, R365). -/
def updTouch (i : Fin 8) (l : UpdLoad) (s : State) : State :=
  { s with upd := { s.upd with load := some { l with owner := some i.val, since := s.aon } } }

/-- The load takes a block. -/
def UpdLoad.add (l : UpdLoad) (offset : Nat) (data : List Byte) : UpdLoad := { l with blocks := l.blocks ++ [(offset, data)] }

/-- A later block of the owner's load. -/
def updNext (i : Fin 8) (l : UpdLoad) (offset : Nat) (b : FlashBlock) (s : State) : State :=
  let data := b.bytes
  let s := updTouch i l s
  if offset % 4096 ≠ 0 ∨ l.total ≤ offset ∨ data.length ≠ blockSize l.total offset then updRefuseAll i 0x0B offset s
  else match l.blocks.find? (·.1 == offset) with
    | some x => if x.2 = data then replyUpd i 0 0 s else updRefuseAll i 0x0B offset s
    | none => if b.flashOk then replyUpd i 0 0 (updTouch i (l.add offset data) s) else updRefuseAll i 0x10 offset s

/-- FIRMWARE_LOAD_BLOCK (R362, R365). -/
def execFirmwareLoadBlock (w : When) (ses : Fin 8) (offset : Nat) (data : FlashBlock) (s : State) : Result :=
  .next (withSession ses 4 3 false (fun s =>
    if data.bytes.isEmpty || decide (4096 < data.bytes.length) then reply ses 1 0 [] s
    else match s.upd.load with
      | none => updFirst ses offset data s
      | some l =>
        if l.owner = some ses.val ∨ (l.owner = none ∧ offset ≠ 0) then updNext ses l offset data s
        else replyUpd ses 8 0x0D (updRefuse 0x0D 0 s)) (s.at w))

/-- FIRMWARE_COMMIT (R364, R365): accepted once every block has arrived; the read-back follows, and until it ends every commit is
`BUSY`. -/
def execFirmwareCommit (w : When) (ses : Fin 8) (s : State) : Result :=
  .next (withSession ses 5 3 false (fun s =>
    match s.upd.load with
    | none =>
      let code := if s.upd.storing then 0x0D else 0x0F
      replyUpd ses 8 code (updRefuse code 0 s)
    | some l =>
      if l.owner ≠ some ses.val ∧ l.owner ≠ none then replyUpd ses 8 0x0D (updRefuse 0x0D 0 s)
      else if allBlocks l.blocks l.total then
        let s := modFwSlot s.spareSlot (fun x => { x with image := joinBlocks l.blocks l.total }) s
        defer 2 ses { s with upd := { s.upd with storing := true, committer := some ses.val, load := none } }
      else updRefuseAll ses 0x0F 0 s) (s.at w))

/-- FIRMWARE_READBACK_COMPLETE (R364): a match marks the slot STAGED, and the commit is answered. -/
def execFirmwareReadbackComplete (w : When) (flashOk : Bool) (s : State) : Result :=
  let s := s.at w
  if !s.upd.storing then .next s
  else
    let who := s.upd.committer
    let n := s.spareSlot
    let img := (s.upd.slots.getD n {}).image
    let s := { s with upd := { s.upd with storing := false, committer := none } }
    if flashOk && imageDigest img == slice img 0x100 48 then
      let s := updEvent 1 (modFwSlot n (fun x => { x with state := 2 }) s)
      let s := ledger 0x1102 n [n, leField img 0x18 4, leField img 0x1C 2, bit1 s.upd.skipBlvl] s
      .next (answerUpd who 0 0 s)
    else
      let code := if flashOk then 0x0C else 0x10
      let s := updRefuse code (if flashOk then 0x100 else 0) (modFwSlot n (fun _ => {}) s)
      .next (answerUpd who 8 code s)

/-- FIRMWARE_REVERT (R364): a LOAD_COMMIT, answered with `RANGE`; like any other it keeps its session's load open (R365). -/
def execFirmwareRevert (w : When) (ses : Fin 8) (s : State) : Result :=
  .next (withSession ses 5 3 false (fun s => replyUpd ses 9 0 (match s.upd.load with
    | some l => if l.owner = some ses.val ∨ l.owner = none then updTouch ses l s else s
    | none => s)) (s.at w))

/-- FIRMWARE_ABORT (R364, R53): the owner abandons its load; another session's is `BUSY`. -/
def execFirmwareAbort (w : When) (ses : Fin 8) (s : State) : Result :=
  .next (withSession ses 5 3 false (fun s =>
    match s.upd.load with
    | none => replyUpd ses 0 0 s
    | some l => if l.owner = some ses.val ∨ l.owner = none then replyUpd ses 0 0 (updDrop s) else replyUpd ses 8 0x0D (updRefuse 0x0D 0 s)) (s.at w))

/-- `UPD_CTRL.ABORT`, from the firmware or the host in the ENGINEER role (R364). -/
def updAbortAct (who : Agent) (s : State) : State := if fwOrEngineer who s then updDrop s else s

/-- FIRMWARE_LOAD_TIMEOUT (R365): 60 s without a block or commit. -/
def execFirmwareLoadTimeout (w : When) (s : State) : Result :=
  let s := s.at w
  .next (match s.upd.load with
    | some l => if l.since + aonSec 60 ≤ s.aon then updRefuse 0x0E 0 (updDrop s) else s
    | none => s)

/-! ### The boot ROM (R367, R368) -/

/-- A slot's image verifies in full, header and digest; the factory image does (log entry 6, DESIGN CHOICE). -/
def slotVerifies (n : Nat) (s : State) : Bool :=
  let x := s.upd.slots.getD n {}
  x.state != 0 && x.state != 1 && ((x.factory && decide (s.upd.secFuse ≤ leField x.image 0x1C 2)) || (imageCheck true x.image s).isNone && x.image.length == leField x.image 0x20 4
    && imageDigest x.image == slice x.image 0x100 48)

/-- The slot in a state. -/
def slotIn (st : Nat) (s : State) : Option Nat := s.upd.slots.findIdx? (·.state == st)

/-- The firmware of slot `n` starts: its version and its behaviour range are the module's from now on. -/
def startSlot (n : Nat) (trial : Bool) (s : State) : State :=
  let img := (s.upd.slots.getD n {}).image
  { s with
    upd := { s.upd with active := n, trial := trial, verRun := leField img 0x18 4 }
    gen := { s.gen with blvlMin := leField img 0x10 4, blvlMax := leField img 0x14 4, phase := 2, held := false } }

/-- A slot that fails: marked FAILED, and remembered until a start reaches P3. -/
def failSlot (n cause : Nat) (s : State) : State :=
  let s := modFwSlot n (fun x => { x with state := 5 }) s
  { s with upd := { s.upd with fellBack := some (n, cause), trial := false } }

/-- BOOT_ROM_SELECT (R367): in P1 the STAGED slot, else the ACTIVE one, is verified and started; on failure the other
slot; else the module is held. A trial that restarted before P3 has failed. -/
def execBootRomSelect (w : When) (s : State) : Result :=
  let s := s.at w
  if s.gen.phase ≠ 1 then .next s
  else
    let s := if s.upd.trial then failSlot s.upd.active 0 s else s
    let first := match slotIn 2 s with
      | some n => n
      | none => (slotIn 3 s).getD 0
    let trial := (slotIn 2 s).isSome
    if slotVerifies first s then .next (startSlot first trial s)
    else
      let s := if trial then failSlot first 1 s else s
      let other := 1 - first
      if slotVerifies other s then .next (startSlot other false s)
      else .next { s with gen := { s.gen with held := true } }

/-- A start reaches P3: a trial slot becomes ACTIVE, fuses burn, a fall-back is told (R367, R368). -/
def reachP3 (s : State) : State :=
  let s := if s.upd.trial then
      let n := s.upd.active
      let img := (s.upd.slots.getD n {}).image
      let s := modFwSlot (1 - n) (fun x => if x.state = 3 then { x with state := 4 } else x) s
      let s := modFwSlot n (fun x => { x with state := 3 }) { s with upd := { s.upd with trial := false } }
      let s := ledger 0x1103 n [n, leField img 0x18 4] s
      let v := leField img 0x1C 2
      if s.upd.secFuse < v then
        let old := s.upd.secFuse
        ledger 0x1105 0xFFFF [old, v] (updEvent 3 { s with upd := { s.upd with secFuse := v } })
      else s
    else s
  match s.upd.fellBack with
  | some (n, cause) => ledger 0x1104 n [n, cause] (updEvent 2 { s with upd := { s.upd with fellBack := none } })
  | none => s

end Sys2Proof.Machine
end

