-- ==== Sys2Proof/Machine/WceOps.lean ====
section
/-! DEFINITION. The wavefront engine's arithmetic (chapter 7): arrival detection, the topology's travel times, the fits,
and a result's record. All of it is binary64 with round-to-nearest-even (R184); times are taken from the event's earliest
arrival (log entry 30, DESIGN CHOICE). -/

namespace Sys2Proof.Machine

open Sys2Proof

/-! ### binary64 shorthands -/

/-- A sum in binary64. -/
def fadd (a b : Fp) : Fp := Fp.add b64 a b

/-- A difference in binary64. -/
def fsub (a b : Fp) : Fp := Fp.sub b64 a b

/-- A product in binary64. -/
def fmul (a b : Fp) : Fp := Fp.mul b64 a b

/-- A quotient in binary64. -/
def fdiv (a b : Fp) : Fp := Fp.div b64 a b

/-- Zero. -/
def f0 : Fp := .fin false 0 0

/-- A sum of a list, in list order. -/
def fsum (l : List Fp) : Fp := l.foldl fadd f0

/-- The square root in binary64, correctly rounded. -/
def fsqrt : Fp → Fp
  | .fin false m e =>
    if m = 0 then .fin false 0 0
    else
      let k : Nat := 130 + (if e % 2 = 0 then 0 else 1)
      let x := m * 2 ^ k
      let r := isqrt x
      let h : Int := (e - (k : Int)) / 2
      roundRat b64 false (2 * r + (if r * r = x then 0 else 1)) 1 (h - 1)
  | .inf false => .inf false
  | _ => .nan

/-- Ticks as nanoseconds in binary64. -/
def ticksNs (i : Int) : Fp := fpRat i 65536

/-- The nearest tick to a time in nanoseconds; 0 for what is not finite. -/
def nsToTicks (x : Fp) : Int := (fadd (fmul x (fpInt 65536)) (fpRat 1 2)).floor

/-! ### Arrival detection (R170 to R172) -/

/-- K of R170 for an interval in ticks: 400 ns over it, halves rounded up, held in 2 to 16. -/
def filterK (interval : Nat) : Nat :=
  if interval = 0 then 16 else max 2 (min 16 ((2 * 400 * ticksPerNs + interval) / (2 * interval)))

/-- Sample `i` of a phase, scaled. -/
def scaled64 (scale : Fp) (l : List Int) (i : Nat) : Fp := fmul (fpInt (l.getD i 0)) scale

/-- The two aerial modes of a window (R170). -/
def aerial (x : SurgeWindow) : List Fp × List Fp :=
  let sc := dec32 x.scale
  let ph (p i : Nat) : Fp := scaled64 sc (x.phases.getD p []) i
  let r3 := fsqrt (fpInt 3)
  ((List.range x.count).map fun i => fdiv (fsub (fsub (fmul (fpInt 2) (ph 0 i)) (ph 1 i)) (ph 2 i)) (fpInt 3),
   (List.range x.count).map fun i => fdiv (fsub (ph 1 i) (ph 2 i)) r3)

/-- The matched derivative filter's value at `n` (R170). -/
def derivAt (m : List Fp) (k : Nat) (tauUs : Fp) (n : Nat) : Fp :=
  let a := fsum ((m.drop (n + 1 - k)).take k)
  let b := fsum ((m.drop (n + 1 - 2 * k)).take k)
  fdiv (fsub a b) (fmul (fpInt (k * k : Nat)) tauUs)

/-- The filter over a window, from n = 2K − 1 on; zeros stand before it. -/
def deriv (m : List Fp) (k : Nat) (tauUs : Fp) : List Fp :=
  (List.range m.length).map fun n => if n + 1 < 2 * k then f0 else derivAt m k tauUs n

/-- The index of the largest magnitude in a range, the lower one on a tie. -/
def peakIn (y : List Fp) (lo n : Nat) : Nat :=
  (List.range n).foldl (fun best i =>
    if (y.getD best f0).abs.lt (y.getD (lo + i) f0).abs then lo + i else best) lo

/-- Half of one, and its negative. -/
def fhalf : Fp := fpRat 1 2

/-- The vertex's offset δ at a peak (R171), held within ± 0.5; none where the three values lie on a line. -/
def vertex (y : List Fp) (n : Nat) : Option Fp :=
  let a := y.getD (n - 1) f0
  let b := y.getD n f0
  let c := y.getD (n + 1) f0
  let d := fmul (fpInt 2) (fadd (fsub a (fmul (fpInt 2) b)) c)
  match fdiv (fsub a c) d with
  | .fin s m e =>
    let v : Fp := .fin s m e
    some (if fhalf.lt v then fhalf else if v.lt fhalf.neg then fhalf.neg else v)
  | _ => none

/-- q5 of R171: the nearest multiple of 5 ns, ties away from zero, in ticks. -/
def q5 : Fp → Int
  | .fin s m e =>
    let num := 2 * m * pow2 e + 5 * pow2 (-e)
    let v : Int := ((num / (10 * pow2 (-e)) : Nat) : Int) * (5 * 65536)
    if s then -v else v
  | _ => 0

/-- The time of a peak (R171) with δ, in ticks. -/
def peakTime (x : SurgeWindow) (k n : Nat) (front : Int) (delta : Fp) : Int :=
  (x.t0 : Int) + (2 * ((n : Int) - (k : Int)) + 1) * (x.interval : Int) / 2 + q5 (fmul delta (ticksNs x.interval)) - front

/-- δ of a peak; a free value between −0.5 and 0.5 where R171 states none, the same for the same samples (R184; log entry 31,
DESIGN CHOICE). -/
def deltaOf (y : List Fp) (n : Nat) : Fp :=
  match vertex y n with
  | some d => d
  | none =>
    let at' (i : Nat) : Nat := enc64 (y.getD i f0)
    fsub (fpRat (Config.flatDelta (at' (n - 1)) (at' n) (at' (n + 1))).toNat 4294967296) fhalf

/-- The later peaks of R172: local maxima that reach half the threshold, 2K samples apart, up to 8. -/
def laterPeaks (y : List Fp) (thr : Fp) (k first count : Nat) : List Nat :=
  ((List.range (count - 1)).foldl (fun (acc : List Nat × Nat) n =>
    let m (i : Nat) : Fp := (y.getD i f0).abs
    if decide (acc.2 + 2 * k ≤ n) && decide (acc.1.length < 8) && (fdiv thr (fpInt 2)).le (m n) && (m (n - 1)).lt (m n) && (m (n + 1)).le (m n)
    then (acc.1 ++ [n], n) else acc) ([], first)).1

/-- The arrival of a window at a terminal (R170 to R172), or none: the window is quiet. -/
def findArrival (x : SurgeWindow) (term : Nat) (c : TermCfg) : Option Arrival :=
  let k := filterK x.interval
  let tau := fpRat x.interval 65536000
  let (ma, mb) := aerial x
  let ya := deriv ma k tau
  let yb := deriv mb k tau
  let thr := dec32 c.threshold
  match (List.range x.count).find? (fun n => decide (2 * k ≤ n + 1) && (thr.le (ya.getD n f0).abs || thr.le (yb.getD n f0).abs)) with
  | none => none
  | some n0 =>
    let y := if (ya.getD n0 f0).abs.lt (yb.getD n0 f0).abs then yb else ya
    let ns := peakIn y n0 (min (2 * k) (x.count - n0))
    if ns < 2 * k ∨ x.count < ns + 2 then none
    else
      let front := c.frontDelay
      let later := (laterPeaks y thr k ns x.count).map fun n => peakTime x k n front (deltaOf y n)
      some {
        term := term, time := peakTime x k ns front (deltaOf y ns), peak := enc64 (y.getD ns f0).abs
        negative := (y.getD ns f0).lt f0, later := later, winStart := (x.t0 : Int) - front
        winEnd := (x.t0 : Int) + (x.count * x.interval : Nat) - front, quest := x.quality.testBit 1 || x.quality.testBit 3 }

/-! ### The graph (R178) -/

/-- A segment's travel time in ns: `LENGTH` / `VELOCITY`. -/
def SegCfg.travel (x : SegCfg) : Fp := roundRat b64 false (x.length * 1000000) x.velocity 0

/-- Shortest times from a start node, by node. -/
abbrev Times := List (Nat × Fp)

/-- The time of a node; none where it cannot be reached. -/
def timeOf (l : Times) (n : Nat) : Option Fp := (l.find? (·.1 == n)).map (·.2)

/-- A node's time lowered to a smaller one. -/
def lower (l : Times) (n : Nat) (x : Fp) : Times :=
  match timeOf l n with
  | some y => if x.lt y then (l.filter (·.1 != n)) ++ [(n, x)] else l
  | none => l ++ [(n, x)]

/-- One pass over the segments. -/
def relax (segs : List SegCfg) (l : Times) : Times :=
  segs.foldl (fun l g =>
    let l := match timeOf l g.endA with
      | some x => lower l g.endB (fadd x g.travel)
      | none => l
    match timeOf l g.endB with
    | some x => lower l g.endA (fadd x g.travel)
    | none => l) l

/-- Passes until every route is settled. -/
def relaxN (segs : List SegCfg) : Nat → Times → Times
  | 0, l => l
  | n + 1, l => relaxN segs n (relax segs l)

/-- The shortest times τ(n→i) of every node that a terminal's component holds (R178). -/
def TopoSec.times (t : TopoSec) (node : Nat) : Times := relaxN t.segs (t.terms.length + t.junctions) [(node, f0)]

/-- Nodes reached within `n` segments of a set. -/
def reach (segs : List SegCfg) : Nat → List Nat → List Nat
  | 0, l => l
  | n + 1, l => reach segs n (segs.foldl (fun l g =>
      if l.contains g.endA && !(l.contains g.endB) then l ++ [g.endB]
      else if l.contains g.endB && !(l.contains g.endA) then l ++ [g.endA] else l) l)

/-- The nodes of a node's component. -/
def TopoSec.component (t : TopoSec) (node : Nat) : List Nat := reach t.segs (t.terms.length + t.junctions) [node]

/-- A component's name: its lowest node. -/
def TopoSec.compOf (t : TopoSec) (node : Nat) : Nat := (t.component node).foldl min node

/-- The terminals of a component, by number. -/
def TopoSec.compTerms (t : TopoSec) (comp : Nat) : List Nat := (List.range t.terms.length).filter fun i => t.compOf i == comp

/-- The segments of a component, by number. -/
def TopoSec.compSegs (t : TopoSec) (comp : Nat) : List Nat :=
  (List.range t.segs.length).filter fun i => t.compOf (t.segs.getD i {}).endA == comp

/-- W of R188 for the component that needs the most. -/
def TopoSec.work (t : TopoSec) : Nat :=
  ((List.range t.terms.length).map fun i =>
    let c := t.compOf i
    let tc := (t.compTerms c).length
    let sc := (t.compSegs c).length
    500 + tc * 2348 + (sc + 4) * (120 + 40 * tc)).foldl max 0

/-- `WCE_BUDGET_MIN` (R188): ⌈2.5 × W / 32⌉ ns a period. -/
def TopoSec.budgetMin (t : TopoSec) : Nat := (5 * t.work + 63) / 64

/-! ### The fits (R180, R181) -/

/-- An arrival as the fits use it: its terminal, its time in ns from the earliest, the times from its terminal. -/
structure Obs where
  term : Nat := 0
  t : Fp := f0
  times : Times := []

/-- A candidate: segment, distance from `END_A` in m, inception in ns from the earliest arrival, ss, ρ, residuals. -/
structure Cand where
  seg : Nat := 0
  x : Fp := f0
  t0 : Fp := f0
  ss : Fp := f0
  rho : Fp := f0
  clamped : Bool := false
  resid : List (Nat × Fp) := []

/-- A segment's velocity in m/ns, and its length in m. -/
def SegCfg.vel (g : SegCfg) : Fp := fpRat g.velocity 1000000000

/-- A segment's length in m. -/
def SegCfg.metres (g : SegCfg) : Fp := fpRat g.length 1000

/-- τ from a segment's end to an observation's terminal. -/
def Obs.tau (o : Obs) (node : Nat) : Fp := (timeOf o.times node).getD f0

/-- The breakpoint x_i of a terminal on a segment, in m. -/
def breakpoint (g : SegCfg) (o : Obs) : Fp :=
  fdiv (fmul (fadd (fsub (o.tau g.endB) (o.tau g.endA)) g.travel) g.vel) (fpInt 2)

/-- A value into a rising list, once. -/
def insertFp (x : Fp) : List Fp → List Fp
  | [] => [x]
  | y :: t => if x.lt y then x :: y :: t else if y.lt x then y :: insertFp x t else y :: t

/-- The intervals of a segment on which every side is constant (R179's arrival model), as bounds in m. -/
def intervals (g : SegCfg) (os : List Obs) : List (Fp × Fp) :=
  let l := g.metres
  let cuts := ((os.map (breakpoint g)).filter fun x => f0.lt x && x.lt l).foldl (fun acc x => insertFp x acc) []
  (f0 :: cuts).zip (cuts ++ [l])

/-- The fit of R180 on one interval; none where x is unobservable. -/
def fitInterval (seg : Nat) (g : SegCfg) (os : List Obs) (iv : Fp × Fp) : Option Cand :=
  let v := g.vel
  let sides := os.map fun o => if iv.2.le (breakpoint g o) then (1 : Int) else -1
  let as := (os.zip sides).map fun p =>
    fsub p.1.t (if p.2 = 1 then p.1.tau g.endA else fadd (p.1.tau g.endB) g.travel)
  let n : Int := os.length
  let sg : Int := sides.sum
  let det := n * n - sg * sg
  if det = 0 then none
  else
    let sa := fsum as
    let ssa := fsum ((as.zip sides).map fun p => fmul (fpInt p.2) p.1)
    let u := fdiv (fsub (fmul (fpInt n) ssa) (fmul (fpInt sg) sa)) (fpInt det)
    let lo := fdiv iv.1 v
    let hi := fdiv iv.2 v
    let uc := if u.lt lo then lo else if hi.lt u then hi else u
    let moved := (fmul v (fpInt 20)).lt (fsub (fmul v uc) (fmul v u)).abs
    let t0 := fdiv (fsub sa (fmul (fpInt sg) uc)) (fpInt n)
    let r := (as.zip sides).map fun p => fsub (fsub p.1 t0) (fmul (fpInt p.2) uc)
    let ss := fsum (r.map fun x => fmul x x)
    some { seg := seg, x := fmul v uc, t0 := t0, ss := ss, rho := fsqrt (fdiv ss (fpInt (max 1 (n - 2)))), clamped := moved
           resid := (os.map (·.term)).zip r }

/-- The candidates of a set of segments. -/
def candidates (t : TopoSec) (segs : List Nat) (os : List Obs) : List Cand :=
  segs.flatMap fun i => let g := t.segs.getD i {}; (intervals g os).filterMap (fitInterval i g os)

/-- The smallest ss of a list. -/
def leastSs (l : List Cand) : Fp := l.foldl (fun m c => if c.ss.lt m then c.ss else m) (.inf false)

/-- `a` comes before `b` among equal candidates: lower segment, then smaller x. -/
def candBefore (a b : Cand) : Bool := decide (a.seg < b.seg) || (decide (a.seg = b.seg) && a.x.lt b.x)

/-- A candidate into its place. -/
def insertCand (x : Cand) : List Cand → List Cand
  | [] => [x]
  | y :: t => if candBefore x y then x :: y :: t else y :: insertCand x t

/-- The equal candidates of R181, those within 1 ns² of the least ss, the chosen one first. -/
def equalCands (l : List Cand) : List Cand :=
  let m := leastSs l
  (l.filter fun c => c.ss.le (fadd m (fpInt 1))).foldl (fun acc c => insertCand c acc) []

/-- The segments in rising order of their best ss, ties by number. -/
def bestSegs (l : List Cand) : List Nat :=
  let segs := (l.map (·.seg)).eraseDups
  let best (i : Nat) : Fp := leastSs (l.filter (·.seg == i))
  let ins (i : Nat) (acc : List Nat) : List Nat :=
    (acc.filter fun j => (best j).lt (best i) || (!((best i).lt (best j)) && decide (j < i))) ++ [i]
      ++ (acc.filter fun j => !((best j).lt (best i) || (!((best i).lt (best j)) && decide (j < i))))
  (segs.foldl (fun acc i => ins i acc) []).take 4

/-- The terminal with the largest residual, and that residual. -/
def worstResid (c : Cand) : Nat × Fp :=
  c.resid.foldl (fun w p => if w.2.lt p.2.abs then (p.1, p.2.abs) else w) (0, f0)

/-- What a method yields: equal candidates, chosen first, terminals used, f_match (single-ended). -/
structure Located where
  method : Nat := 0
  cands : List Cand := []
  used : List Nat := []
  fmatch : Fp := f0

/-- Double- and multi-ended location (R181). -/
def locateFit (t : TopoSec) (comp : Nat) (os : List Obs) : Located :=
  let all := candidates t (t.compSegs comp) os
  let eq := equalCands all
  match eq with
  | [] => {}
  | c :: _ =>
    let w := worstResid c
    if 4 ≤ os.length ∧ (fpInt 200).lt w.2 then
      let os' := os.filter (·.term != w.1)
      match equalCands (candidates t (bestSegs all) os') with
      | [] => {}
      | e => { method := 2, cands := e, used := os'.map (·.term) }
    else { method := if os.length = 2 then 1 else 2, cands := eq, used := os.map (·.term) }

/-- The share of a hypothesis' predictions that fall on a listed peak (R182 steps 3 and 4). -/
def matchShare (v l d : Fp) (later : List Fp) (lo hi : Fp) : Fp :=
  let two := fpInt 2
  let preds := [fdiv (fmul two d) v, fdiv (fmul (fpInt 4) d) v, fdiv (fmul two (fsub l d)) v].filter fun p => lo.le p && p.le hi
  let hits := preds.filter fun p => later.any fun q => (fsub q p).abs.le (fpInt 50)
  fdiv (fpInt hits.length) (fpInt preds.length)

/-- Single-ended location (R182); times are ns after the arrival. -/
def locateSingle (t : TopoSec) (a : Arrival) : Located :=
  match (List.range t.segs.length).find? fun i => (t.segs.getD i {}).endA == a.term || (t.segs.getD i {}).endB == a.term with
  | none => {}
  | some i =>
    let g := t.segs.getD i {}
    let v := g.vel
    let l := g.metres
    let fromA := g.endA == a.term
    let taps := g.taps.map fun p => fdiv (fmul (fpInt 2) (fpRat (if fromA then p else g.length - p : Nat) 1000)) v
    let later := a.later.map fun x => ticksNs (x - a.time)
    match later.find? fun d => !(taps.any fun p => (fsub d p).abs.le (fpInt 50)) with
    | none => {}
    | some d =>
      let h := fdiv (fmul v d) (fpInt 2)
      let lo := ticksNs (a.winStart - a.time)
      let hi := ticksNs (a.winEnd - a.time)
      let m1 := matchShare v l h later lo hi
      let m2 := matchShare v l (fsub l h) later lo hi
      let first := !(m1.lt m2)
      let dist := if first then h else fsub l h
      if dist.lt f0 || l.lt dist then {}
      else
        let x := if fromA then dist else fsub l dist
        { method := 3, cands := [{ seg := i, x := x, t0 := (fdiv dist v).neg }], used := [a.term], fmatch := if first then m1 else m2 }

/-- The method of an event and what it yields (R179). -/
def locate (e : WceEvent) (ref : Int) : Located :=
  let t := e.topo
  let os := e.arrivals.map fun a => ({ term := a.term, t := ticksNs (a.time - ref), times := t.times a.term } : Obs)
  if 2 ≤ os.length then locateFit t e.comp os
  else match e.arrivals with
    | [a] => if (t.terms.getD a.term {}).singleOk then locateSingle t a else {}
    | _ => {}

/-! ### The result (R183, R185) -/

/-- The confidence of a candidate (R183). -/
def confidence (e : WceEvent) (r : Located) (c : Cand) : Fp :=
  let q := fdiv c.rho (fpInt 50)
  let fm := if r.method = 2 then fpInt 1 else if r.method = 1 then fpRat 9 10 else fmul (fpRat 6 10) r.fmatch
  let fr := if r.method = 3 then fpInt 1 else fdiv (fpInt 1) (fadd (fpInt 1) (fmul q q))
  let snr := (e.arrivals.filter fun a => r.used.contains a.term).foldl (fun m a =>
    let x := fdiv (dec64 a.peak) (fmul (fpInt 4) (dec32 (e.topo.terms.getD a.term {}).threshold))
    if x.lt m then x else m) (fpInt 1)
  let amb := fdiv (fpInt 1) (fpInt r.cands.length)
  fmul (fmul (fmul fm fr) snr) amb

/-- A binary64 value as a binary32 word. -/
def toB32 (x : Fp) : Nat := enc32 (x.round b32)

/-- A mask of terminals. -/
def termMask (l : List Nat) : Nat := (l.map fun i => 2 ^ i).sum

/-- The record of a candidate within a result (R185); `flags` are the result's. -/
def candRecord (e : WceEvent) (r : Located) (ref : Int) (c : Cand) (ev flags lat : Nat) : WceRecord :=
  let g := e.topo.segs.getD c.seg {}
  { event := ev, inception := (ref + nsToTicks c.t0).toNat, segment := c.seg, refTerminal := g.refTerminal, method := r.method
    distSeg := toB32 c.x, distRef := toB32 (fadd (fpRat g.refOffset 1000) c.x), confidence := toB32 (confidence e r c)
    residual := toB32 c.rho, used := termMask r.used, seen := termMask (e.arrivals.map (·.term)), flags := flags
    gen := e.gen % 65536, latency := lat }

end Sys2Proof.Machine
end

