-- ==== Sys2Proof/Machine/Wce.lean ====
section
/-! DEFINITION. The commands of the wavefront engine (chapter 7). -/

namespace Sys2Proof.Machine

open Sys2Proof

/-- Changes the wavefront engine's state. -/
def modWce (f : WceState → WceState) (s : State) : State := { s with wce := f s.wce }

/-- The topology in force. -/
def State.topo (s : State) : TopoSec := (s.sect 6).topo

/-- The engine works now: its stall, slot 20, is admitted and it is not fenced (R189, R191). -/
def State.wceOpen (s : State) : Bool := s.wce.running && !s.wce.fenced && s.slotOpen 20

/-- What `WCE_TERM_DETAIL` keeps of a terminal: `LAST` and `SNR`. -/
def noteTerm (i last snr : Nat) (s : State) : State := modWce (fun w => { w with terms := putAt w.terms i (last, snr) }) s

/-- P / `THRESHOLD` × 16, saturating at 255. -/
def snrOf (a : Arrival) (c : TermCfg) : Nat := min 255 ((fdiv (fmul (dec64 a.peak) (fpInt 16)) (dec32 c.threshold)).floor).toNat

/-- The earliest time of an event's arrivals. -/
def WceEvent.first (e : WceEvent) : Int := match e.arrivals with
  | [] => 0
  | a :: t => t.foldl (fun m x => min m x.time) a.time

/-- The latest time of an event's arrivals. -/
def WceEvent.last (e : WceEvent) : Int := match e.arrivals with
  | [] => 0
  | a :: t => t.foldl (fun m x => max m x.time) a.time

/-- An arrival may join an event (R173): same component, and the span stays within `GROUP_WINDOW`. -/
def joins (e : WceEvent) (comp window : Nat) (a : Arrival) : Bool :=
  e.comp == comp && decide (max e.last a.time - min e.first a.time ≤ (usTicks window : Nat))

/-- An arrival in an event's list, in terminal order. -/
def insertArrival (a : Arrival) : List Arrival → List Arrival
  | [] => [a]
  | b :: t => if a.term < b.term then a :: b :: t else b :: insertArrival a t

/-- An event closes: it waits for its result (R173). -/
def closeEvent (e : WceEvent) (at' : Nat) (s : State) : State := modWce (fun w => { w with closed := w.closed ++ [{ e with closed := at' }] }) s

/-- A forced close counts, and asserts source 154 (R173, R194). -/
def forceClose (e : WceEvent) (s : State) : State :=
  raise .wce 2 (closeEvent { e with forced := true } (s.islandTime waveIsland) (modWce (fun w => { w with forced := tallyInc w.forced }) s))

/-- An event that holds an arrival from every terminal of its component (R173). -/
def WceEvent.complete (e : WceEvent) : Bool := (e.topo.compTerms e.comp).all fun i => e.arrivals.any (·.term == i)

/-- An event among the open ones: it stays, or closes as complete. -/
def keepOrClose (before after : List WceEvent) (e : WceEvent) (at' : Nat) (s : State) : State :=
  if e.complete then closeEvent e at' (modWce (fun w => { w with openEvents := before ++ after }) s)
  else modWce (fun w => { w with openEvents := before ++ e :: after }) s

/-- An arrival joins, duplicates or opens an event (R173); `at'` is the arrival of its window. -/
def takeArrival (a : Arrival) (at' : Nat) (s : State) : State :=
  let t := s.topo
  let comp := t.compOf a.term
  let evs := s.wce.openEvents
  match evs.findIdx? (fun e => joins e comp t.groupWindow a) with
  | some i =>
    let e := evs.getD i {}
    let before := evs.take i
    let after := evs.drop (i + 1)
    match e.arrivals.find? (·.term == a.term) with
    | some b =>
      let keep := if a.time < b.time then a else b
      let e := { e with arrivals := e.arrivals.map fun x => if x.term = a.term then keep else x }
      keepOrClose before after e at' (modWce (fun w => { w with dup := tallyInc w.dup }) s)
    | none => keepOrClose before after { e with arrivals := insertArrival a e.arrivals } at' s
  | none =>
    let s := if 4 ≤ evs.length then
        forceClose (evs.getD 0 {}) (modWce (fun w => { w with openEvents := evs.drop 1 }) s)
      else s
    keepOrClose s.wce.openEvents [] { comp := comp, arrivals := [a], opened := s.islandTime waveIsland, topo := t, gen := s.wce.gen } at' s

/-- Events close `COLLECT` after the engine took their first window (R173). -/
def collectExpiry (s : State) : State :=
  let ended (e : WceEvent) : Bool := decide (e.opened + usTicks e.topo.collect ≤ s.islandTime waveIsland)
  let done := s.wce.openEvents.filter ended
  let s := modWce (fun y => { y with openEvents := y.openEvents.filter fun e => !ended e }) s
  done.foldl (fun s e => closeEvent e (e.opened + usTicks e.topo.collect) s) s

/-- WCE_WINDOW_TAKE (R169 to R173): the first window of the queue. -/
def execWceWindowTake (w : When) (s : State) : Result :=
  let s := s.at w
  match s.wce.queue with
  | [] => .next s
  | x :: rest =>
    if !s.wceOpen then .next s
    else
      let s := collectExpiry (modWce (fun y => { y with queue := rest }) s)
      match s.topo.terms.findIdx? (·.station == x.station) with
      | none => .next (modWce (fun y => { y with unassigned := tallyInc y.unassigned }) s)
      | some i =>
        let c := s.topo.terms.getD i {}
        let a := x.stamp
        let bad := x.quality.testBit 0 || x.quality.testBit 2 || decide (x.count < 4 * filterK x.interval + 2)
          || decide (a + usTicks 1 < x.t0 + x.count * x.interval) || decide (x.t0 + ticksPerSec < a)
        if bad then .next (noteTerm i 3 (s.wce.terms.getD i (0, 0)).2 (modWce (fun y => { y with reject := tallyInc y.reject }) s))
        else
          let s := modWce (fun y => { y with windows := tallyInc y.windows }) s
          match findArrival x i c with
          | none => .next (noteTerm i 2 (s.wce.terms.getD i (0, 0)).2 (modWce (fun y => { y with quiet := tallyInc y.quiet }) s))
          | some r => .next (takeArrival r a (noteTerm i 1 (snrOf r c) s))

/-- WCE_COLLECT_EXPIRY (R173). -/
def execWceCollectExpiry (w : When) (s : State) : Result :=
  let s := s.at w
  .next (if s.wce.fenced then s else collectExpiry s)

/-- Every open event closes at a `TOPOLOGY` swap (R190). -/
def closeAll (s : State) : State :=
  s.wce.openEvents.foldl (fun s e => closeEvent e (s.islandTime waveIsland) s) (modWce (fun w => { w with openEvents := [] }) s)

/-- The ledger record of a candidate (R327). -/
def resultLedger (r : WceRecord) (inception idx m : Nat) (s : State) : LedgerRecord :=
  { mkRecord 0x0501 r.refTerminal
      [r.event % 2 ^ 32, r.segment + r.method * 65536 + (idx % 16 + min m 4 * 16) * 2 ^ 24, r.distSeg, r.confidence, r.residual, r.flags] s with
    time := inception }

/-- The records of one result: they draw one token together (R186, R327). -/
def ledgerGroup (l : List LedgerRecord) (s : State) : State :=
  match l with
  | [] => s
  | r :: rest =>
    match admitRecord r s with
    | (1, s) => rest.foldl (fun s x => suppressRecord x.code x.time s) s
    | (_, s) => rest.foldl (fun s x => holdRecord x s) s

/-- The four mailbox records of a result (R187). -/
def resultSlots (r : WceRecord) : List (Nat × MbRec) :=
  let q := bitAt (r.flags.testBit 0) 1 + bitAt (r.flags.testBit 1) 6
  let one (k v : Nat) : Nat × MbRec :=
    (7168 + 4 * r.segment + k,
     { value := v, qual := q, gen := r.gen % 256, writer := 2, stampSec := timeSec r.inception % 2 ^ 32, stampNs := timeNs r.inception })
  [one 0 r.distSeg, one 1 r.distRef, one 2 r.confidence, one 3 (enc32 (fpInt r.method))]

/-- A field of the event's result that the spec does not state: a free value, the same for the same inputs (R184; log entry
32, DESIGN CHOICE). -/
def WceEvent.openField (e : WceEvent) (k : Nat) : Nat :=
  (Config.resultWord k ((e.gen : Int) :: e.arrivals.flatMap fun a => [(a.term : Int), a.time])).toNat

/-- The record of a result without a location (R185): its earliest arrival; the distances and the residual are free
values, since the spec states none (log entry 32, DESIGN CHOICE). -/
def noLocation (e : WceEvent) (ref : Int) (ev flags lat : Nat) : WceRecord :=
  { event := ev, inception := ref.toNat, segment := 0xFFFF, refTerminal := 0xFF, method := 0
    distSeg := e.openField 0, distRef := e.openField 1, confidence := 0, residual := e.openField 2
    used := 0, seen := termMask (e.arrivals.map (·.term)), flags := flags, gen := e.gen % 65536, latency := lat }

/-- `FLAGS` of a result (R185). -/
def resultFlags (e : WceEvent) (r : Located) (t0 : Nat) (conf : Fp) (delayed : Bool) (s : State) : Nat :=
  let amb := decide (1 < r.cands.length)
  let quest := amb || e.arrivals.any (·.quest) || conf.lt (dec32 e.topo.minConf)
  let sv := s.servoAt t0
  bitAt quest 0 + bitAt (sv != 2 && sv != 3) 1 + bitAt e.forced 2 + bitAt delayed 3
    + bitAt (match r.cands with | c :: _ => c.clamped | [] => false) 4 + bitAt s.standbyRole 5 + bitAt amb 6

/-- A result goes to its five places (R186, R194). -/
def deliverResult (r : WceRecord) (ledgers : List LedgerRecord) (s : State) : State :=
  let s := modWce (fun w => { w with
    events := r.event, log := putAt w.log ((r.event - 1) % 256) r
    segTable := if r.method = 0 then w.segTable else putAt w.segTable r.segment r }) s
  let s := if r.method = 0 then s else commitSet (resultSlots r) s
  let s := ledgerGroup ledgers s
  notifyAll (fun x => x.kinds.testBit 1) { kind := 2, time := s.islandTime hostIsland, result := some r } s

/-- A result without a location (R185, R186). -/
def resultNone (e : WceEvent) (r : Located) (ref : Int) (ev lat : Nat) (delayed : Bool) (s : State) : State :=
  let x := noLocation e ref ev (resultFlags e r ref.toNat f0 delayed s) lat
  let s := modWce (fun w => { w with noLoc := tallyInc w.noLoc, delayed := if delayed then tallyInc w.delayed else w.delayed }) s
  let s := deliverResult x [resultLedger x x.inception 0 0 s] s
  when delayed (raise .wce 2) (raise .wce 1 (raise .wce 0 s))

/-- A single-ended result has no fit: its residual is a free value, since the spec states none (log entry 32, DESIGN CHOICE). -/
def freeResidual (e : WceEvent) (r : Located) (x : WceRecord) : WceRecord :=
  if r.method = 3 then { x with residual := e.openField 2 } else x

/-- A result whose best candidate is `c`, with up to four candidates recorded (R184, R186). -/
def resultFound (e : WceEvent) (r : Located) (c : Cand) (ref : Int) (ev lat : Nat) (delayed : Bool) (s : State) : State :=
  let t0 := (ref + nsToTicks c.t0).toNat
  let flags := resultFlags e r t0 (confidence e r c) delayed s
  let x := freeResidual e r (candRecord e r ref c ev flags lat)
  let recs := x :: ((r.cands.take 4).drop 1).map fun c => candRecord e r ref c ev flags lat
  let s := modWce (fun w => { w with delayed := if delayed then tallyInc w.delayed else w.delayed }) s
  let s := deliverResult x (recs.mapIdx fun k y => resultLedger y x.inception k r.cands.length s) s
  when delayed (raise .wce 2) (raise .wce 0 s)

/-- The engine's cycles for an event: a free value capped by the event's work (log entry 14, DESIGN CHOICE). -/
def countCycles (e : WceEvent) (s : State) : State :=
  let (i, s) := draw s
  modWce (fun w => { w with cycles := max w.cycles (min (Config.engineCycles i) e.topo.work) }) s

/-- The result of a closed event (R179 to R187, R189). -/
def resultOf (e : WceEvent) (s : State) : State :=
  let ref := e.first
  let r := locate e ref
  let ev := s.wce.events + 1
  let delayed := decide (e.closed + msTicks 5 < s.islandTime waveIsland)
  let lat := min 0xFFFFFFFF ((s.islandTime waveIsland - e.closed) / usTicks 1)
  match r.cands with
  | [] => resultNone e r ref ev lat delayed (countCycles e s)
  | c :: _ => resultFound e r c ref ev lat delayed (countCycles e s)

/-- Every closed event is computed (R190). -/
def computeClosed (s : State) : State :=
  s.wce.closed.foldl (fun s e => resultOf e s) (modWce (fun w => { w with closed := [] }) s)

/-- WCE_RESULT (R179): the event that closed first. -/
def execWceResult (w : When) (s : State) : Result :=
  let s := s.at w
  match s.wce.closed with
  | [] => .next s
  | e :: rest => .next (if s.wceOpen then resultOf e (modWce (fun y => { y with closed := rest }) s) else s)

/-- WCE_RECOMMIT (R187): every entry of the segment table, with its original stamp; a fenced engine commits nothing (R23), and a
stopped stall waits (R25). -/
def execWceRecommit (w : When) (s : State) : Result :=
  let s := s.at w
  match s.wce.recommitBy with
  | none => .next s
  | some _ =>
    if s.wce.fenced || !s.slotOpen 20 then .next s
    else
      let s := modWce (fun y => { y with recommitBy := none }) s
      .next (commitSet ((s.wce.segTable.filter fun r => r.event != 0).flatMap resultSlots) s)

end Sys2Proof.Machine
end

