-- ==== Sys2Proof/Machine/RegRead.lean ====
section
/-! DEFINITION. What a register reads, block by block (chapter 20 and the units' register tables), the table memories of
R402, and the latches of R404. Each function answers none where its block holds no register. -/

namespace Sys2Proof.Machine

open Sys2Proof

/-- The low 32 bits of a number. -/
def lo32 (n : Nat) : Nat := n % 2 ^ 32

/-- Bits [63:32] of a number. -/
def hi32 (n : Nat) : Nat := n / 2 ^ 32 % 2 ^ 32

/-- `n` words of 4 bytes from `base`: the word that `f` gives for an index, where `off` names one. -/
def regArray (off base n : Nat) (f : Nat → Nat) : Option Nat :=
  if base ≤ off ∧ off < base + 4 * n then some (f ((off - base) / 4)) else none

/-- The first of two answers. -/
def orReg (a b : Option Nat) : Option Nat := match a with
  | some v => some v
  | none => b

/-! ### GEN and TMB -/

/-- GEN. -/
def genRead (s : State) (off : Nat) : Option Nat :=
  let g := s.gen
  match off with
  | 0x00 => some 0x64
  | 0x04 => some (g.unitPresent % 8)
  | 0x08 => some (lo32 g.eui)
  | 0x0C => some (hi32 g.eui % 65536)
  | 0x10 => some g.blvlMin
  | 0x14 => some g.blvlMax
  | 0x18 => some (g.entry * 2 ^ 20 + g.kind * 2 ^ 18 + g.reason * 2 ^ 12 + bitAt g.held 4 + bitAt g.latchOpen 3 + g.phase)
  | 0x1C => some 0
  | _ => none

/-- An edge or frame within the last 3 s. -/
def State.within3s (s : State) (x : Option Nat) : Bool := match x with
  | some t => decide (s.aon < t + aonSec 3)
  | none => false

/-- `TMB_STAT`. -/
def State.tmbStat (s : State) : Nat :=
  let t := s.tmb
  bitAt t.timeSet 10 + bitAt (t.stepLeft != 0) 9 + bitAt (s.within3s t.irigSeen) 8 + bitAt (s.within3s t.ppsSeen) 7
    + bitAt t.acqTimeout 6 + bitAt t.trimRefused 5 + bitAt t.implausible 4 + bitAt s.traceable 3 + t.state

/-- A pulse generator's registers. -/
def pgRead (x : PulseGen) (off : Nat) : Option Nat :=
  match off with
  | 0x00 => some (bitAt x.polarity 2)
  | 0x04 => some (bitAt x.conflict 4 + bitAt x.done 3 + bitAt x.late 2 + bitAt x.running 1 + bitAt x.armed 0)
  | 0x08 => some x.startLo
  | 0x0C => some x.startHi
  | 0x10 => some x.startNs
  | 0x14 => some x.period
  | 0x18 => some x.width
  | 0x1C => some (if x.armed then x.remaining else x.count)
  | _ => none

/-- TMB. -/
def tmbRead (s : State) (host : Bool) (off : Nat) : Option Nat :=
  let t := s.tmb
  let x := if host then t.snapHost else t.snapFw
  if 0x100 ≤ off ∧ off < 0x280 then pgRead (s.pg ((off - 0x100) / 0x20)) ((off - 0x100) % 0x20)
  else match off with
    | 0x00 => some 0
    | 0x04 => some s.tmbStat
    | 0x08 => some (t.srcPort * 65536 + t.srcKind)
    | 0x0C => some (lo32 (timeSec x.time))
    | 0x10 => some (hi32 (timeSec x.time) % 65536)
    | 0x14 => some (timeNs x.time)
    | 0x18 => some (timeFrac x.time)
    | 0x1C => some (lo32 x.pcount)
    | 0x20 => some (hi32 x.pcount)
    | 0x24 => some (x.pcount % 8000)
    | 0x28 => some (sword t.offset)
    | 0x2C => some (sword s.freqNow)
    | 0x30 => some (sword t.freqTrim)
    | 0x34 => some 0
    | 0x38 => some (lo32 s.holdElapsed)
    | 0x3C => some t.holdLimit
    | 0x40 => some (bitAt t.leapDel 17 + bitAt t.leapAdd 16 + unsignedOf 16 t.taiUtc)
    | 0x44 => some t.refusals
    | 0x48 => some t.outliers
    | _ => none

/-! ### PRT (R116) -/

/-- The stations mapped on a logical port, in the order of their positions (R99). -/
def State.portStations (s : State) (p : Nat) : List StationCfg :=
  match s.cfg.next with
  | none => s.cfg.cur.stations.filter (·.port == p)
  | some _ => ((List.range 2048).filterMap s.stationCfg).filter (·.port == p)

/-- `PRT_n_STN_DETAIL` at a position. -/
def State.stnDetail (s : State) (p pos : Nat) : Nat :=
  match (s.portStations p)[pos]? with
  | some c =>
    let x := s.stn c.number
    2 ^ 31 + c.number * 65536 + x.missed * 256 + bitAt (x.status.testBit 5) 5 + bitAt (x.status.testBit 3) 4
      + bitAt (x.status.testBit 2) 3 + x.state
  | none => 0

/-- Stations of a port in a state. -/
def State.stnIn (s : State) (p st : Nat) : Nat := ((s.portStations p).filter fun c => (s.stn c.number).state == st).length

/-- `PRT_n_CFG`. `STATIONS` of a PRP pair's upper lane shows the pair's count (R96; log entry 131, DESIGN CHOICE). -/
def State.prtCfg (s : State) (n : Nat) : Nat :=
  let c := s.cfg.cur.ports.ports.getD n {}
  (s.portStations (s.logical n)).length * 65536 + bitAt c.tagged 5 + bitAt (s.isPrp n && decide (32 ≤ n)) 4
    + bitAt (s.isPrp n && decide (n < 32)) 3 + c.mode

/-- `PRT_n_STAT`. -/
def State.prtStat (s : State) (n : Nat) : Nat :=
  let x := s.port n
  bitAt (s.portSends n) 4 + bitAt x.txFault 3 + bitAt x.fitted 2 + bitAt x.signal 1 + bitAt x.link 0

/-- One port's registers. -/
def prtRead (s : State) (host : Bool) (n off : Nat) : Option Nat :=
  let x := s.port n
  let sel := if host then x.selHost else x.selFw
  match off with
  | 0x00 => some (bit1 x.laserOff)
  | 0x04 => some (s.prtCfg n)
  | 0x08 => some (s.prtStat n)
  | 0x0C => some (s.evt.prt.getD n 0)
  | 0x10 => some sel
  | 0x14 => some (s.stnDetail n sel)
  | 0x18 => some (s.stnIn n 0 * 2 ^ 24 + s.stnIn n 3 * 65536 + s.stnIn n 2 * 256 + s.stnIn n 1)
  | 0x1C => some (((x.outq.filter (·.enq)).length + x.waitq.length) % 65536)
  | 0x20 => some (x.svq % 65536)
  | 0x24 => some ((s.wce.queue.filter (·.port == n)).length)
  | 0x28 => some (s.portBudget n)
  | 0x2C => some (lo32 x.txBytes)
  | 0x30 => some x.txDefer
  | 0x34 => some x.late
  | 0x38 => some x.stale
  | 0x3C => some x.unknown
  | 0x40 => some x.discard
  | 0x44 => some x.ptpDiscard
  | 0x48 => some x.dataDrop
  | 0x4C => some x.surgeDiscard
  | 0x50 => some x.fcsErr
  | 0x54 => some x.qreset
  | 0x58 => some x.eccCorr
  | 0x5C => some x.resync
  | _ => none

/-! ### SVI, PHE, WCE -/

/-- `SVI_SUB_DETAIL` of a subscription. -/
def State.subDetail (s : State) (i : Nat) : Nat :=
  match s.svSec.subs[i]? with
  | some c =>
    let x := s.svi.subs.getD i {}
    2 ^ 31 + c.port * 65536 + x.synch % 256 * 256 + x.state
  | none => 0

/-- A tally of the selected subscription; 0 where none is selected. -/
def State.subTally (s : State) (i : Nat) (f : SubState → Nat) : Nat :=
  if i < s.svSec.subs.length then f (s.svi.subs.getD i {}) else 0

/-- `SVI_FRZ_w_STAT`. -/
def State.winStat (s : State) (w : Nat) : Nat :=
  let x := s.svi.wins.getD w {}
  (s.svi.segs.filter fun g => g.state == 3 && g.windows.testBit w).length * 2 ^ 24 + bitAt x.host 3 + bitAt x.clipped 2 + x.state

/-- Subscriptions in a state. -/
def State.subsActive (s : State) : Nat := ((s.svi.subs.take s.svSec.subs.length).filter (·.state == 1)).length

/-- SVI. -/
def sviRead (s : State) (host : Bool) (off : Nat) : Option Nat :=
  let v := s.svi
  let sel := if host then v.subSelHost else v.subSelFw
  match off with
  | 0x00 => some (s.subsActive * 65536 + (s.svSec.subs.length - s.subsActive))
  | 0x04 => some s.evt.svi
  | 0x08 => some sel
  | 0x0C => some (s.subDetail sel)
  | 0x10 => some (s.subTally sel (·.frames))
  | 0x14 => some (s.subTally sel (·.missing))
  | 0x18 => some (s.subTally sel (·.interp))
  | 0x1C => some (s.subTally sel (·.discard))
  | 0x20 => some (s.subTally sel (·.mismatch))
  | 0x24 => some v.unsubscribed
  | 0x28 => some (lo32 v.archSlot)
  | 0x2C => some (hi32 v.archSlot)
  | 0x30 => some (v.writing.getD 0 * 2 ^ 24 + s.frozenSegs * 65536 + s.svSec.archSegments * 256 + bit1 (v.writing.isSome && !v.stopped))
  | 0x34 => some v.skipped
  | 0x40 => some (v.frzWin * 16)
  | 0x44 => some v.tLo
  | 0x48 => some v.tHi
  | 0x4C => some v.tNs
  | 0x50 => some v.pre
  | 0x54 => some v.post
  | 0x58 => some v.frzResult
  | _ => regArray off 0x60 4 s.winStat

/-- `PHE_UNIT_DETAIL`. -/
def State.unitDetail (s : State) (i : Nat) : Nat :=
  match s.pheSec.units[i]? with
  | some u => 2 ^ 31 + bitAt (s.phe.freqInvalid.getD i false) 16 + u.phasors * 256 + u.rate * 16 + bitAt u.keep 3 + u.f0 * 4 + u.cls
  | none => 0

/-- `PHE_STR_DETAIL`. -/
def State.strDetail (s : State) (i : Nat) : Nat :=
  match s.pheSec.streams[i]? with
  | some c =>
    let x := s.phe.streams.getD i {}
    2 ^ 31 + x.conns.length * 65536 + bitAt x.udpOn 2 + c.mode
  | none => 0

/-- A section of the pending delta has not swapped yet. -/
def State.awaits (s : State) (ty : Nat) : Bool := s.cfg.next.isSome && s.cfg.carried.contains ty && !s.isSwapped ty

/-- PHE. -/
def pheRead (s : State) (host : Bool) (off : Nat) : Option Nat :=
  let p := s.phe
  let u := if host then p.unitSelHost else p.unitSelFw
  let t := if host then p.strSelHost else p.strSelFw
  match off with
  | 0x00 => some (s.pheSec.streams.length * 2 ^ 24 + s.pheSec.units.length * 65536 + bitAt (s.awaits 5) 2 + bitAt p.fenced 1 + bitAt p.running 0)
  | 0x04 => some s.evt.phe
  | 0x08 => some p.gen
  | 0x0C => some (lo32 p.slot)
  | 0x10 => some (hi32 p.slot)
  | 0x14 => some (p.cycles % 65536)
  | 0x18 => some u
  | 0x1C => some (s.unitDetail u)
  | 0x20 => some (if u < s.pheSec.units.length then p.unitInvalid.getD u 0 else 0)
  | 0x24 => some t
  | 0x28 => some (s.strDetail t)
  | 0x2C => some ((p.streams.getD t {}).frames)
  | 0x30 => some ((p.streams.getD t {}).dropped)
  | 0x34 => some p.cmdIgnored
  | 0x38 => some p.eccCorr
  | 0x40 => some (if host then p.winSelHost else p.winSelFw)
  | _ => none

/-- `WCE_TERM_DETAIL`. -/
def State.termDetail (s : State) (i : Nat) : Nat :=
  match s.topo.terms[i]? with
  | some c => let x := s.wce.terms.getD i (0, 0); 2 ^ 31 + c.station * 65536 + x.1 * 256 + x.2
  | none => 0

/-- WCE. -/
def wceRead (s : State) (host : Bool) (off : Nat) : Option Nat :=
  let w := s.wce
  let sel := if host then w.termSelHost else w.termSelFw
  match off with
  | 0x00 => some (w.openEvents.length * 65536 + bitAt (!s.slotOpen 20) 3 + bitAt (s.awaits 6) 2 + bitAt w.fenced 1 + bitAt w.running 0)
  | 0x04 => some s.evt.wce
  | 0x08 => some sel
  | 0x0C => some (s.termDetail sel)
  | 0x10 => some w.gen
  | 0x14 => some (lo32 w.events)
  | 0x18 => some (hi32 w.events)
  | 0x1C => some w.queue.length
  | 0x20 => some w.windows
  | 0x24 => some w.quiet
  | 0x28 => some w.reject
  | 0x2C => some w.unassigned
  | 0x30 => some w.dup
  | 0x34 => some w.forced
  | 0x38 => some w.noLoc
  | 0x3C => some w.delayed
  | 0x40 => some w.drop
  | 0x44 => some w.eccCorr
  | 0x48 => some (lo32 w.cycles)
  | 0x4C => some (if w.running then s.topo.budgetMin else 0)
  | _ => none

/-! ### SEQ and TRD -/

/-- `SEQ_TASK_DETAIL`. -/
def State.taskDetail (s : State) (t : Nat) : Nat :=
  match s.taskCfg t with
  | some c =>
    let x := s.task t
    2 ^ 31 + x.state * 2 ^ 29 + c.rank * 2 ^ 24 + min 255 x.consec * 65536 + c.period
  | none => 0

/-- SEQ. -/
def seqRead (s : State) (host : Bool) (off : Nat) : Option Nat :=
  let q := s.seq
  let sel := if host then q.selHost else q.selFw
  let x := s.task sel
  match off with
  | 0x00 => some (bitAt (s.cfg.loaded && !s.keeperWritable) 5 + bitAt q.retSkipped 4 + bitAt q.commitRefused 3 + bitAt q.lastWarm 2 + bitAt s.standbyRole 1 + bitAt q.running 0)
  | 0x04 => some 0
  | 0x08 => some 0
  | 0x0C => some q.forces.length
  | 0x10 => some s.retAge
  | 0x20 => some sel
  | 0x24 => some (s.taskDetail sel)
  | 0x28 => some (((s.taskCfg sel).map (·.phase)).getD 0)
  | 0x2C => some (((s.taskCfg sel).map (·.deadline)).getD 0)
  | 0x30 => some (lo32 x.cycles)
  | 0x34 => some (hi32 x.cycles)
  | 0x38 => some x.skips
  | 0x3C => some (lo32 x.runMax)
  | 0x40 => some x.gen
  | _ => regArray off 0x100 16 (s.evt.tevt.getD · 0)

/-- Seconds left on a debug arm. -/
def State.armLeft (s : State) : Nat := match s.armed with
  | some _ => (s.trd.armUntil - s.aon + 999999999) / 1000000000
  | none => 0

/-- TRD. -/
def trdRead (s : State) (off : Nat) : Option Nat :=
  let t := s.trd
  match off with
  | 0x00 => some (t.debugLane % 4 * 1024 + bitAt t.debugBroken 9 + bitAt t.retired 8 + t.fencedLane % 4 * 16 + t.mode)
  | 0x04 => some 0
  | 0x08 => some t.evt
  | 0x0C => some (t.diffCycle % 2 ^ 20 * 4096 + t.diffGroup % 16 * 256 + bitAt t.diffNoMaj 2 + t.diffLane % 4)
  | 0x10 => some (t.splitEndCause % 16 * 16 + t.splitRefuse % 16)
  | 0x14 => some (t.splitEntry.getD 0 0)
  | 0x18 => some (t.splitEntry.getD 1 0)
  | 0x1C => some (t.splitEntry.getD 2 0)
  | 0x20 => some 0
  | 0x24 => some (t.selfBit % 1024 * 16384 + t.selfGroup % 16 * 1024 + t.selfLane % 4 * 256 + bitAt t.selfPass 1 + bitAt t.selfDone 0)
  | 0x28 => some (t.dbgLane % 4 * 16)
  | 0x2C => some (s.armLeft % 65536 * 65536 + t.dbgRefuse % 16)
  | 0x30 => some t.fences
  | 0x34 => some (lo32 t.rejoinMax)
  | 0x38 => some t.splits
  | 0x3C => some t.splitRefused
  | 0x40 => some t.dbgRefused
  | _ => none

/-! ### BGT, PTM, WVL, MEM -/

/-- A mask of the slots that a test selects. -/
def slotMask (l : List SlotState) (f : SlotState → Bool) : Nat := (l.mapIdx fun i x => bitAt (f x) i).sum

/-- BGT. -/
def bgtRead (s : State) (host : Bool) (off : Nat) : Option Nat :=
  let b := s.bgt
  let sel := if host then b.selHost else b.selFw
  let x := b.slots.getD sel {}
  match off with
  | 0x00 => some b.missMode
  | 0x04 => some (lo32 b.mask)
  | 0x08 => some (hi32 b.mask)
  | 0x0C => some (lo32 (slotMask b.slots (·.exhausted)))
  | 0x10 => some (hi32 (slotMask b.slots (·.exhausted)))
  | 0x14 => some b.missed
  | 0x20 => some sel
  | 0x24 => some (bitAt x.exhausted 7 + bitAt (b.mask.testBit sel) 6 + slotUnit sel * 16 + x.rank % 16)
  | 0x28 => some x.budget
  | 0x2C => some (lo32 x.last)
  | 0x30 => some x.exhaustions
  | 0x34 => some x.withheld
  | 0x38 => some (lo32 x.overMax)
  | _ => none

/-- `PTM_STAT`. -/
def State.ptmStat (s : State) : Nat :=
  let p := s.ptm
  p.carry * 256 + bitAt p.bankFault 7 + bitAt p.powerFail 6 + bitAt p.ride 5 + bitAt (p.feed.getD 1 0 == 1) 4
    + bitAt (p.feed.getD 0 0 == 1) 3 + bitAt (decide (880 < p.temps.getD 0 0)) 2 + bitAt (decide (p.h < 0x10000)) 1 + bitAt p.degraded 0

/-- PTM. -/
def ptmRead (s : State) (off : Nat) : Option Nat :=
  let p := s.ptm
  match off with
  | 0x00 => some s.ptmStat
  | 0x04 => some s.evt.ptm
  | 0x08 => some (p.mv.getD 0 0)
  | 0x0C => some (p.mv.getD 1 0)
  | 0x10 => some p.powerMw
  | 0x14 => some p.capUj
  | 0x18 => some p.mandUj
  | 0x1C => some p.allowUj
  | 0x20 => some p.h
  | 0x24 => some p.overCap
  | 0x28 => some p.degradedCount
  | 0x2C => some (p.bankHold * 65536 + p.bankRide)
  | _ => orReg (regArray off 0x40 12 fun i => unsignedOf 16 (p.temps.getD i 0)) (regArray off 0x80 8 (p.rails.getD · 0))

/-- WVL. -/
def wvlRead (s : State) (off : Nat) : Option Nat :=
  let w := s.wvl
  let p := w.partner
  let named := match w.handover with
    | some x => x.h.isSome && !x.forced
    | none => false
  match off with
  | 0x00 => some (w.lanesUp % 16 * 4096 + bitAt named 6 + bitAt w.unreserved 5 + bitAt p.present 4 + bitAt (w.side == 1) 3 + w.role)
  | 0x04 => some 0
  | 0x08 => some 0
  | 0x0C => some s.evt.wvl
  | 0x10 => some w.epoch
  | 0x14 => some (if s.kpr.state = 0 then 0 else s.cart.epochReserve)
  | 0x18 => some w.notCurrent
  | 0x1C => some w.reseed
  | 0x20 => some (p.flags % 256 * 256 + p.side * 8 + p.role)
  | 0x24 => some p.gen
  | 0x28 => some (w.lastRole * 16 + w.lastCause)
  | 0x30 => some w.hbMissed
  | 0x34 => some w.takeovers
  | 0x38 => some w.copyDropped
  | 0x3C => some w.linkErr
  | 0x40 => some w.latent
  | 0x44 => some w.reseeds
  | 0x48 => some (lo32 (s.bgt.slots.getD 19 {}).last)
  | 0x4C => some w.copyMax
  | 0x50 => some (lo32 w.gapMax)
  | 0x54 => some w.appliedCount
  | _ => none

/-- `MEM_STAT`. -/
def State.memStat (s : State) : Nat :=
  let m := s.mem
  bitAt m.clearRefused 7 + bitAt m.ueStrongFlag 6 + bitAt (m.ceLog.all (·.count != 0)) 5 + bitAt (!m.unsaved.isEmpty) 4
    + bitAt m.retiring.isSome 3 + bitAt m.clearDone 2 + bitAt m.clearBusy 1 + bitAt m.mapApplied 0

/-- The keeper's retire entries, or none without a readable keeper. -/
def State.retireEntries (s : State) : List RetireEntry := if s.keeperReadable then s.cart.retireMap else []

/-- MEM. -/
def memRead (s : State) (host : Bool) (off : Nat) : Option Nat :=
  let m := s.mem
  let sel := if host then m.devSelHost else m.devSelFw
  match off with
  | 0x00 => some s.memStat
  | 0x04 => some 0
  | 0x08 => some (if host then m.retirePageHost else m.retirePageFw)
  | 0x0C => some (if host then m.resultHost else m.resultFw)
  | 0x10 => some (if host then m.scrubLineHost else m.scrubLineFw)
  | 0x14 => some 0
  | 0x18 => some sel
  | 0x1C => some (if sel < 20 then m.devCe.getD sel 0 else 0)
  | 0x20 => some m.ceStrong
  | 0x24 => some m.ceLight
  | 0x28 => some m.ueStrong
  | 0x2C => some m.ueLight
  | 0x30 => some m.scrubUeLight
  | 0x34 => some m.ceLogLost
  | 0x38 => some (m.ueFirst % 2 ^ 28)
  | 0x3C => some (m.scrubPos % 2 ^ 28)
  | 0x40 => some (match m.passDone with
    | some t => min 0xFFFFFFFF ((s.aon - t) / 1000000000)
    | none => 0xFFFFFFFF)
  | 0x44 => some s.retireEntries.length
  | 0x48 => some (s.retireEntries.filter (·.eui != s.gen.eui)).length
  | _ => regArray off 0x60 8 fun i => ((List.range 32).map fun j => bitAt (m.mem.light.contains (32 * i + j)) j).sum

/-! ### WRD and CRT (chapter 13) -/

/-- A first-refusal capture as a register. -/
def Capture.word (c : Capture) : Nat :=
  bitAt c.valid 31 + c.space * 65536 + c.cause * 512 + bitAt c.write 8 + c.ident

/-- One ward's registers. -/
def wardRead (w : WardState) (off : Nat) : Option Nat :=
  match off with
  | 0x00 => some w.epoch
  | 0x04 => some w.ack
  | 0x08 => some w.refused
  | 0x0C => some w.first.word
  | 0x10 => some (lo32 w.first.addr)
  | 0x14 => some (hi32 w.first.addr)
  | _ => none

/-- The central rule table's registers. -/
def crtRead (w : WrdState) (off : Nat) : Option Nat :=
  match off with
  | 0x00 => some (w.runtime.length * 65536 + w.fixed.length)
  | 0x04 => some w.epoch
  | 0x08 => some w.ack
  | 0x0C => some w.refused
  | 0x10 => some w.first.word
  | 0x14 => some (lo32 w.first.addr)
  | 0x18 => some (hi32 w.first.addr)
  | 0x1C => some w.rtSlot
  | 0x20 => some w.rtBaseLo
  | 0x24 => some w.rtBaseHi
  | 0x28 => some w.rtLength
  | 0x2C => some w.rtSpace
  | 0x30 => some w.rtRead
  | 0x34 => some w.rtWrite
  | 0x38 => some 0
  | 0x3C => some w.rtResult
  | 0x40 => some w.rtRefused
  | _ => none

/-- WRD and CRT. -/
def wrdRead (s : State) (off : Nat) : Option Nat :=
  if off < 0x900 then wardRead (s.wrd.wards.getD (off / 0x100) {}) (off % 0x100)
  else if 0x8000 ≤ off then crtRead s.wrd (off - 0x8000)
  else none

/-! ### FCR, LGR, KPR -/

/-- A mask of the sources that a test selects. -/
def State.srcMask (s : State) (f : FcrSource → Bool) : Nat := (s.fcr.sources.mapIdx fun i x => bitAt (f x) i).sum

/-- `FCR_DETAIL`; `IN_WINDOW` saturates at 255. -/
def State.srcDetail (s : State) (i : Nat) : Nat :=
  let x := s.source i
  bitAt x.severe 31 + bitAt x.fenced 30 + bitAt (forcing.contains i) 29 + min 255 (s.inWin i)

/-- FCR. -/
def fcrRead (s : State) (host : Bool) (off : Nat) : Option Nat :=
  let f := s.fcr
  let sel := if host then f.selHost else f.selFw
  match off with
  | 0x00 => some ((f.sources.filter (·.severe)).length * 4 + bitAt f.handoverSent 1 + bitAt (!f.blocked.isEmpty) 0)
  | 0x04 => some s.evt.fcr
  | 0x08 => some (lo32 (s.srcMask (·.severe)))
  | 0x0C => some (hi32 (s.srcMask (·.severe)))
  | 0x10 => some (lo32 (s.srcMask (·.fenced)))
  | 0x14 => some (hi32 (s.srcMask (·.fenced)))
  | 0x18 => some 0
  | 0x20 => some sel
  | 0x24 => some (s.srcDetail sel)
  | 0x28 => some (s.source sel).cfg
  | 0x2C => some (s.source sel).events
  | 0x30 => some (lo32 f.histSeq)
  | 0x34 => some f.histRead
  | _ => none

/-- LGR. -/
def lgrRead (s : State) (off : Nat) : Option Nat :=
  let l := s.lgr
  let top := if s.keeperReadable then s.cart.highest else 0
  match off with
  | 0x00 => some (bitAt (!l.pending.isEmpty) 19 + bitAt l.stopped 18 + bitAt (decide (65536 ≤ top)) 17 + s.hold)
  | 0x04 => some s.evt.lgr
  | 0x08 => some 0
  | 0x0C => some (lo32 top)
  | 0x10 => some (hi32 top)
  | 0x14 => some (lo32 l.snapLow)
  | 0x18 => some (hi32 l.snapLow)
  | 0x1C => some (lo32 l.snapHigh)
  | 0x20 => some (hi32 l.snapHigh)
  | 0x24 => some l.rdLo
  | 0x28 => some l.rdHi
  | 0x30 => some (l.rdCode % 4 * 2)
  | 0x34 => some l.suppressedCount
  | 0x38 => some l.dropped
  | 0x40 => some l.reqCode
  | 0x5C => some (l.reqResult % 16)
  | _ => orReg (regArray off 0x44 6 (l.reqData.getD · 0)) (regArray off 0x100 16 fun i => leField l.recBytes (4 * i) 4)

/-- Pages that wait for the governor. -/
def State.backlog (s : State) : Nat := (s.kpr.jobs.map (·.pages)).sum

/-- `KPR_STAT`. -/
def State.kprStat (s : State) : Nat :=
  let k := s.kpr
  bitAt k.confirmBad 9 + (if k.state = 0 then 0 else s.cart.side % 2 * 256) + bitAt k.reserveOnly 7 + bitAt k.throttled 6
    + bitAt k.inFlight.isSome 5 + bitAt k.safe 4 + bitAt k.boltOpen 3 + k.state

/-- The daily allowance left now, in MiB (R317); it reads 0 in P0, as at module reset (R403; log entry 144, DESIGN CHOICE). -/
def State.dayLeft (s : State) : Nat := if s.gen.phase = 0 then 0 else (refillBucket s).kpr.bucket / (1048576 * 86400000000000)

/-- KPR; what the keeper gives reads 0 while none is mounted. -/
def kprRead (s : State) (off : Nat) : Option Nat :=
  let k := s.kpr
  let of (f : Cartridge → Nat) : Nat := if k.state = 0 then 0 else f s.cart
  match off with
  | 0x00 => some s.kprStat
  | 0x04 => some s.evt.kpr
  | 0x08 => some 0
  | 0x20 => some s.keeperLife
  | 0x24 => some (of (·.blvl))
  | 0x28 => some 0
  | 0x2C => some k.newBlvl
  | 0x30 => some (of fun c => lo32 (c.written / 1048576))
  | 0x34 => some s.dayLeft
  | 0x38 => some (lo32 s.backlog)
  | 0x3C => some (of (·.mfgDay))
  | 0x70 => some (k.refuse % 16)
  | _ => orReg (regArray off 0x10 4 fun i => of fun c => c.ident / 2 ^ (32 * i) % 2 ^ 32) (regArray off 0x40 12 fun i => if k.state = 0 then 0 else k.names.getD i 0)

/-! ### BSL, UPD, FIO, HIF, EVT -/

/-- BSL. -/
def bslRead (s : State) (off : Nat) : Option Nat :=
  let b := s.bsl
  let loading := b.load.isSome
  let storing := b.storing && b.ownDone != some true
  match off with
  | 0x00 => some 0
  | 0x04 => some (bitAt (b.genHigh == 0xFFFFFFFF) 6 + bitAt b.refused 5 + bitAt s.cart.staged.isSome 4 + bitAt b.swapPending 3
      + bitAt storing 2 + bitAt loading 1 + bitAt (!loading && !storing) 0)
  | 0x08 => some b.refuse
  | 0x0C => some b.refuseOffset
  | 0x10 => some b.genCur
  | 0x14 => some b.genPrev
  | 0x18 => some b.genStaged
  | 0x1C => some b.genHigh
  | 0x20 => some (lo32 b.swapA)
  | 0x24 => some (hi32 b.swapA)
  | 0x28 => some (match b.load with
    | some l => loadBytes l.blocks
    | none => 0)
  | _ => none

/-- The version of the staged image. -/
def State.stagedVersion (s : State) : Nat := match slotIn 2 s with
  | some n => leField (s.upd.slots.getD n {}).image 0x18 4
  | none => 0

/-- UPD. -/
def updRead (s : State) (off : Nat) : Option Nat :=
  let u := s.upd
  let st (i : Nat) : Nat := (u.slots.getD i {}).state
  match off with
  | 0x00 => some 0
  | 0x04 => some (u.active * 4096 + st 1 * 512 + st 0 * 64 + bitAt u.trial 5 + bitAt u.refused 4 + bitAt (slotIn 2 s).isSome 3
      + bitAt u.storing 2 + bitAt u.load.isSome 1 + bitAt (u.load.isNone && !u.storing) 0)
  | 0x08 => some s.evt.upd
  | 0x0C => some (u.refuse % 256)
  | 0x10 => some u.refuseOffset
  | 0x14 => some u.verRun
  | 0x18 => some s.stagedVersion
  | 0x1C => some (u.secFuse % 256)
  | 0x20 => some (u.hwRev % 65536)
  | 0x24 => some (match u.load with
    | some l => loadBytes l.blocks
    | none => 0)
  | _ => none

/-- The mask that a reader holds; the AO bits read 0 without the AOB (R9). -/
def State.faultMask (s : State) (host : Bool) : Nat :=
  let m := if host then s.fio.maskHost else s.fio.maskFw
  if s.present 2 then m else m - m / 2 ^ 24 % 16 * 2 ^ 24

/-- FIO without the AO group. -/
def fioRead (s : State) (host : Bool) (off : Nat) : Option Nat :=
  let f := s.fio
  match off with
  | 0x00 => some (bitAt (f.supplySeen && !s.supplyBad) 3 + bitAt f.standby 2 + bitAt (if host then f.seenHost else f.seenFw) 1
      + bitAt (s.fioFault (s.faultMask host)) 0)
  | 0x04 => some (s.faultMask host)
  | 0x08 => some ((List.range 16).map fun i => bitAt (f.di.getD i {}).level i).sum
  | 0x0C => some ((List.range 8).map fun j => bitAt (s.doOwned (s.doLeader j)) (8 + j) + bitAt (s.dout (s.doLeader j)).driven j).sum
  | 0x10 => some f.supplyMv
  | 0x14 => some f.doDefer
  | 0x100 => some (f.aoSel * 16)
  | 0x104 => some (match f.comm with
    | some c => c.ch * 16 + c.level * 2 + 1
    | none => 0)
  | _ => orReg (regArray off 0x110 4 s.aoTargetUa)
      (orReg (regArray off 0x120 4 fun c => sword (s.ao c).zero) (regArray off 0x130 4 fun c => sword (s.ao c).span))

/-- `HIF_SES_DETAIL`. -/
def State.sesDetail (s : State) (i : Nat) : Nat :=
  match s.hif.sessions.getD i none with
  | some x => 2 ^ 31 + min 16 x.outstanding * 512 + x.kinds % 4 * 128 + bitAt x.bootstrap 6 + x.role * 16 + x.port
  | none => 0

/-- HIF. -/
def hifRead (s : State) (host : Bool) (off : Nat) : Option Nat :=
  let h := s.hif
  let sel := if host then h.selHost else h.selFw
  match off with
  | 0x00 => some (s.sessionsOpen * 256 + bitAt s.bootstrap 2 + bitAt (h.links.getD 1 false) 1 + bitAt (h.links.getD 0 false) 0)
  | 0x04 => some s.evt.hif
  | 0x08 => some ((h.access.map (·.serial)).getD 0)
  | 0x10 => some sel
  | 0x14 => some (s.sesDetail sel)
  | 0x20 => some h.tlsFail
  | 0x24 => some h.roleRefused
  | 0x28 => some h.notifyLost
  | _ => orReg (regArray off 0x2C 2 (h.discard.getD · 0)) (regArray off 0x34 2 (h.fcsErr.getD · 0))

/-- Word `w` of a 160-bit event mask. -/
def evtWord (x : BitVec 160) (w : Nat) : Nat := x.toNat / 2 ^ (32 * w) % 2 ^ 32

/-- `EVT_NEXT` (R359): the lowest pending source that the firmware's mask lets through. -/
def EvtState.next (e : EvtState) : Nat :=
  match (List.range 160).find? fun i => e.pend.getLsbD i && e.fwEn.getLsbD i with
  | some i => 2 ^ 31 + i
  | none => 0

/-- EVT. -/
def evtRead (s : State) (off : Nat) : Option Nat :=
  if off = 0x60 then some s.evt.next
  else orReg (regArray off 0x00 5 (evtWord s.evt.pend)) (orReg (regArray off 0x20 5 (evtWord s.evt.fwEn)) (regArray off 0x40 5 (evtWord s.evt.hostEn)))

/-- The register at an address, for a reader (chapter 20): none where the address holds no register. -/
def regValue (host : Bool) (a : Nat) (s : State) : Option Nat :=
  let off := a % 0x10000
  match a / 0x10000 with
  | 0 => genRead s off
  | 1 => tmbRead s host off
  | 2 => prtRead s host (off / 0x400) (off % 0x400)
  | 3 => sviRead s host off
  | 4 => pheRead s host off
  | 5 => wceRead s host off
  | 6 => seqRead s host off
  | 7 => trdRead s off
  | 8 => bgtRead s host off
  | 9 => ptmRead s off
  | 10 => wvlRead s off
  | 11 => memRead s host off
  | 12 => wrdRead s off
  | 13 => fcrRead s host off
  | 14 => lgrRead s off
  | 15 => kprRead s off
  | 16 => bslRead s off
  | 17 => updRead s off
  | 18 => fioRead s host off
  | 19 => hifRead s host off
  | 20 => evtRead s off
  | _ => none

/-! ### Table memories and windows (R402) -/



/-- A segment descriptor (R130). -/
def SegState.bytes (g : SegState) : List Byte :=
  natLe g.firstSlot 8 ++ natLe g.rows 4 ++ natLe g.gen 4 ++ natLe g.channels 2 ++ natLe g.state 1 ++ natLe g.windows 1 ++ List.replicate 12 0

/-- A location result record (R185). -/
def WceRecord.bytes (r : WceRecord) : List Byte :=
  natLe r.event 8 ++ timeBytes r.inception ++ natLe r.segment 2 ++ natLe r.refTerminal 1 ++ natLe r.method 1 ++ natLe r.distSeg 4
    ++ natLe r.distRef 4 ++ natLe r.confidence 4 ++ natLe r.residual 4 ++ natLe r.used 8 ++ natLe r.seen 8 ++ natLe r.flags 2
    ++ natLe r.gen 2 ++ natLe r.latency 4

/-- A record of the result log or segment table; all zero while empty. -/
def wceEntry (r : WceRecord) : List Byte := if r.event = 0 then List.replicate 64 0 else r.bytes

/-- A correctable-error log entry (R287). -/
def CeEntry.bytes (e : CeEntry) : List Byte :=
  if e.count = 0 then List.replicate 32 0
  else natLe e.line 4 ++ natLe e.code 1 ++ natLe e.device 1 ++ natLe e.bits 1 ++ natLe e.finder 1 ++ natLe e.count 4 ++ timeBytes e.first
    ++ natLe (timeSec e.last) 4 ++ natLe (timeNs e.last) 4

/-- A fault history record (R342). -/
def HistRec.bytes (h : HistRec) : List Byte :=
  if h.hseq = 0 then List.replicate 32 0
  else natLe h.hseq 4 ++ timeBytes h.time ++ natLe h.source 1 ++ natLe h.kind 1 ++ natLe h.byWhom 1 ++ natLe h.inst 1 ++ natLe h.count 4 ++ List.replicate 8 0

/-- A ward region (R298). -/
def Region.bytes (r : Region) : List Byte := natLe r.base64 4 ++ natLe r.len64 4 ++ natLe r.read 4 ++ natLe r.write 4

/-- A rule slot (R303). -/
def Rule.bytes (r : Rule) : List Byte :=
  natLe r.base 8 ++ natLe r.len64 4 ++ natLe r.space 1 ++ List.replicate 3 0 ++ natLe r.read 4 ++ natLe r.write 4 ++ List.replicate 8 0

/-- The rule in force in a slot. -/
def WrdState.slotRule (w : WrdState) (i : Nat) : Option Rule :=
  if i < w.fixed.length then w.fixed[i]? else (w.runtime.find? (·.1 == i)).map (·.2)

/-- A timetable step (R140). -/
def PheStep.bytes (x : PheStep) : List Byte :=
  natLe x.op 1 ++ natLe x.flags 1 ++ natLe x.len 2 ++ natLe x.mod 2 ++ natLe x.phase 2 ++ natLe x.a 4 ++ natLe x.b 4 ++ natLe x.c 4
    ++ natLe x.d 4 ++ List.replicate 8 0

/-- A ring descriptor (R145). -/
def RingCfg.bytes (r : RingCfg) : List Byte := natLe r.base 4 ++ natLe r.lenLog2 1 ++ natLe r.kind 1 ++ natLe r.stride 2

/-- The word at word index `i` of an area of the PHE window (R168); beyond the area it reads 0. -/
def State.pheArea (s : State) (area i : Nat) : Nat :=
  let p := s.pheSec
  match area with
  | 0 => match p.steps[i / 8]? with
    | some x => leField x.bytes (4 * (i % 8)) 4
    | none => 0
  | 1 => p.coefs.getD i 0
  | 2 => if i < 262144 then (storeGet s.phe.store i).value else 0
  | 3 => if i < 32768 then ((List.range 8).map fun k => (storeGet s.phe.store (8 * i + k)).flags % 16 * 2 ^ (4 * k)).sum else 0
  | 4 => match p.rings[i / 2]? with
    | some x => leField x.bytes (4 * (i % 2)) 4
    | none => 0
  | _ => 0

/-- A word of a table of records of `size` bytes. -/
def tableWord (size off : Nat) (f : Nat → List Byte) : Nat := leField (f (off / size)) (off % size) 4

/-- The table memory at an address, for a reader: none where the address lies in no table. The content of the sealed
tables is not described (log entry 13, DESIGN CHOICE). -/
def tableValue (host : Bool) (a : Nat) (s : State) : Option Nat :=
  if 0x8000 ≤ a ∧ a < 0x9000 then some (Config.fuseShadow a).toNat
  else if 0x38000 ≤ a ∧ a < 0x39800 then some (tableWord 32 (a - 0x38000) fun i => (s.seg i).bytes)
  else if 0x48000 ≤ a ∧ a < 0x50000 then
    let w := if host then s.phe.winSelHost else s.phe.winSelFw
    some (s.pheArea (bitsOf w 10 8) (w % 32 * 8192 + (a - 0x48000) / 4))
  else if 0x54000 ≤ a ∧ a < 0x58000 then some (leField s.topo.raw (a - 0x54000) 4)
  else if 0x58000 ≤ a ∧ a < 0x5C000 then some (tableWord 64 (a - 0x58000) fun i => wceEntry (s.wce.log.getD i {}))
  else if 0x5C000 ≤ a ∧ a < 0x60000 then some (tableWord 64 (a - 0x5C000) fun i => wceEntry (s.wce.segTable.getD i {}))
  else if 0xB1000 ≤ a ∧ a < 0xB1400 then some (tableWord 32 (a - 0xB1000) fun i => (s.mem.ceLog.getD i {}).bytes)
  else if 0xC0000 ≤ a ∧ a < 0xC0900 ∧ 0x80 ≤ a % 0x100 then
    some (tableWord 16 (a % 0x80) fun i => (((s.wrd.wards.getD ((a - 0xC0000) / 0x100) {}).regions.getD i {}).bytes))
  else if 0xC9000 ≤ a ∧ a < 0xCB000 then
    some (tableWord 32 (a - 0xC9000) fun i => match s.wrd.slotRule i with
      | some r => r.bytes
      | none => List.replicate 32 0)
  else if 0xD1000 ≤ a ∧ a < 0xD1400 then some (tableWord 32 (a - 0xD1000) fun i => (s.fcr.hist.getD i {}).bytes)
  else if 0xF8000 ≤ a ∧ a < 0x100000 then some (Config.keyMaterial a).toNat
  else none

/-! ### Latches (R404) -/

/-- The RO `_LO` registers whose `_HI` partner stands behind them, the `TMB_SNAP_` pairs left out. -/
def loRegs : List Nat :=
  [0x00008, 0x30028, 0x4000C, 0x50014, 0x60030, 0x80004, 0x8000C, 0xC8014, 0xD0008, 0xD0010, 0xE000C, 0xE0014, 0xE001C, 0x100020]
    ++ (List.range 9).map fun w => 0xC0010 + 0x100 * w

/-- A reader's latches. -/
def State.latches (s : State) (host : Bool) : List Latch := if host then s.latchHost else s.latchFw

/-- Latches the partner of a `_LO` register for a reader. -/
def latchHi (host : Bool) (a hi : Nat) (s : State) : State :=
  let l := { addr := a, hi := hi : Latch } :: (s.latches host).filter (·.addr != a)
  if host then { s with latchHost := l } else { s with latchFw := l }

/-- A read of an address that holds a register, with the latches of identities 0 and 9 (R353, R404); other identities
read the live halves (log entry 40, DEDUCED). -/
def readReg (host latching : Bool) (a : Nat) (s : State) : Option Nat × State :=
  match regValue host a s with
  | none => (tableValue host a s, s)
  | some v =>
    if !latching then (some v, s)
    else if loRegs.contains a then (some v, latchHi host a ((regValue host (a + 4) s).getD 0) s)
    else if 4 ≤ a ∧ loRegs.contains (a - 4) then
      match (s.latches host).find? (·.addr == a - 4) with
      | some l => (some l.hi, s)
      | none => (some v, s)
    else (some v, s)

end Sys2Proof.Machine
end

