-- ==== Sys2Proof/Machine/AccessOps.lean ====
section
/-! DEFINITION. The checks of R295 on a transaction: sealed regions, the central rule table, the wards, and the refusals of
the target; and the run-time rules of the central table (chapter 13, R226, R422, R400). -/

namespace Sys2Proof.Machine

open Sys2Proof

/-! ### Checks of the target (R5, R9, R12, R14, R226, R292, R422) -/

/-- The address lies in the range of an absent unit. -/
def State.absentAt (s : State) (a : Nat) : Bool :=
  (a / 0x10000 == 4 && !s.present 0) || (a / 0x10000 == 5 && !s.present 1) || (a / 0x100 == 0x1201 && !s.present 2)



/-- A split lane or the debug master. -/
def outsider (ident : Nat) : Bool := decide (1 ≤ ident ∧ ident ≤ 3) || ident == 11

/-- A `CRT_RT_` register that takes writes (chapter 13). -/
def crtRtReg (a : Nat) : Bool := decide (0xC801C ≤ a ∧ a ≤ 0xC8040)

/-- `TRD_SPLIT_END`. -/
def splitEndAddr : Nat := 0x70020

/-- A register refuses a write by an identity, whatever the rules say (R226, R422, chapter 13); reads are served (log entry 122,
DEDUCED), and a table memory is no register: it ignores every write (R402). -/
def fileRefuses (ident a : Nat) (write : Bool) (s : State) : Bool :=
  write && (regValue false a s).isSome && ((outsider ident && !(a == splitEndAddr && decide (ident ≤ 3))) || (crtRtReg a && ident != 0))

/-- The checks of a register's target in the order of R295: the status that refuses the access, if one does. -/
def regTarget (ident a size : Nat) (write : Bool) (s : State) : Option Nat × State :=
  if s.absentAt a then (some 5, ledger 0x0001 0xFFFF [a, ident] s)
  else if size ≠ 4 ∨ a % 4 ≠ 0 then (some 6, s)
  else if (orReg (regValue false a s) (tableValue false a s)).isNone then (some 7, s)
  else if fileRefuses ident a write s then (some 4, ledger 0x0707 0xFFFF [ident, a] s)
  else (none, s)

/-- Every check of R295 on an access of `n` bytes at `a` in its order: the status that refuses it, as the host would read it
(R307), or none. An address past its space is refused whatever the rules say, and nothing records it (R14, R400, log entry 42,
DEDUCED). -/
def checkAccess (ident space a n : Nat) (write : Bool) (s : State) : Option Nat × State :=
  let n := max 1 n
  if ident = 11 ∧ space = 1 ∧ isSealed a n then
    (some 4, ledger 0x0706 0xFFFF [a] { s with trd := { s.trd with dbgRefused := tallyInc s.trd.dbgRefused } })
  else if spaceSize space ≤ a then (some 7, s)
  else match gateCheck ident space a n write s with
    | (false, s) => (some 4, s)
    | (true, s) =>
      if spaceSize space < a + n then (some 7, s)
      else if space = 1 then regTarget ident a n write s
      else if s.inSpare a n then (some 4, s)
      else (none, s)



/-- A master may issue now: nothing leaves a stopped triad (R228), its vote issues nothing while it is split and a lane
only then, until it has ended its part and waits for the others (R230, R231), and the debug identity issues only while a probe holds its lane (R235, R236). -/
def State.issues (s : State) (ident : Nat) : Bool :=
  if ident = 0 then s.trd.mode != 4 && s.trd.mode != 3
  else if ident ≤ 3 then s.trd.mode == 3 && !(s.trd.splitDone.getD (ident - 1) false)
  else if ident = 11 then s.trd.debugLive
  else true

/-- A session writes registers only in the OPERATOR role or above (R354). -/
def State.mayWrite (s : State) (who : Agent) : Bool := !isHost who || hostAtLeast 2 who s

/-- A command that is the write of one register by `who`: one that may not issue does nothing, one that a check refuses is
answered with an error response (R295, R422), and the register's own rule `act` decides on any other. -/
def asWrite (who : Agent) (addr : Nat) (act : State → State) (s : State) : State :=
  if !s.issues (identOf who) then s
  else if !s.mayWrite who then emit (.resp (identOf who) false []) s
  else match checkAccess (identOf who) 1 addr 4 true s with
    | (none, s) => act s
    | (some _, s) => emit (.resp (identOf who) false []) s

/-- The response to a register write that found the rule table at epoch `was`: a run-time rule change holds it until the
change has drained (R306). -/
def answerWrite (ident : Nat) (ok : Bool) (was : Nat) (s : State) : State :=
  if s.wrd.draining && s.wrd.epoch != was then modWrd (fun x => { x with waiting := x.waiting + 1 }) s else emit (.resp ident ok []) s

/-- A command that is the write of `CRT_RT_COMMIT`: the write is answered too, once its change has drained (R306). -/
def asCommit (who : Agent) (act : State → State) (s : State) : State :=
  asWrite who 0xC8038 (fun t => answerWrite (identOf who) true s.wrd.epoch (act t)) s

/-! ### Run-time rules (R300, R302, R305, R306) -/

/-- The rule that the `CRT_RT_` registers spell. -/
def WrdState.rtRule (w : WrdState) : Rule :=
  { base := w.rtBaseLo + w.rtBaseHi * 2 ^ 32, len64 := w.rtLength, space := w.rtSpace, read := w.rtRead, write := w.rtWrite }

/-- Two rules overlap (R302). -/
def Rule.overlaps (a b : Rule) : Bool :=
  a.space == b.space && decide (a.base < b.base + 64 * b.len64 ∧ b.base < a.base + 64 * a.len64)
    && (List.range 32).any fun i => a.names i && b.names i

/-- A mask names an identity outside 9 to 13. -/
def wrongMask (m : Nat) : Bool := (List.range 32).any fun i => m.testBit i && !privileged i

/-- Why an install is refused: 0 `DONE`, 1 `FIXED`, 2 `OVERLAP`, 3 `IDENTITY`, 4 `RANGE`, 5 `NO_TABLE`. The order is the
model's (log entry 43, DESIGN CHOICE). -/
def WrdState.installCode (w : WrdState) : Nat :=
  let r := w.rtRule
  if !w.loaded then 5
  else if r.len64 = 0 ∨ r.base % 64 ≠ 0 ∨ 1 < r.space ∨ spaceSize r.space < r.base + 64 * r.len64 then 4
  else if w.rtSlot < w.fixed.length then 1
  else if wrongMask r.read || wrongMask r.write then 3
  else if (w.fixed ++ (w.runtime.filter (·.1 != w.rtSlot)).map (·.2)).any r.overlaps then 2
  else 0

/-- Why emptying a slot is refused. -/
def WrdState.emptyCode (w : WrdState) : Nat := if !w.loaded then 5 else if w.rtSlot < w.fixed.length then 1 else 0

/-- The rule table changes: its epoch rises, and the change drains; its result shows `DONE` once it has (R305, R306). -/
def crtChanged (rt : List (Nat × Rule)) (s : State) : State :=
  modWrd (fun w => { w with runtime := rt, epoch := (w.epoch + 1) % 2 ^ 32, draining := true }) s

/-- A refused commit: counted; an overlap is recorded (R302), and so is a rule that names a reserved identity, whatever it is
refused for (R35). -/
def crtRefused (code : Nat) (install : Bool) (s : State) : State :=
  let w := s.wrd
  let reserved := install && decide (2 ^ 18 ≤ w.rtRead ∨ 2 ^ 18 ≤ w.rtWrite)
  let s := modWrd (fun w => { w with rtResult := code, rtRefused := tallyInc w.rtRefused }) s
  when (decide (code = 2) || reserved) (ledger 0x0C03 w.rtSlot [w.rtSlot, code]) s

/-- `ACTION` 1. -/
def crtInstallAct (who : Agent) (s : State) : State :=
  if !isFw who then s
  else
    let c := s.wrd.installCode
    if c = 0 then crtChanged ((s.wrd.runtime.filter (·.1 != s.wrd.rtSlot)) ++ [(s.wrd.rtSlot, s.wrd.rtRule)]) s else crtRefused c true s

/-- `ACTION` 2. -/
def crtEmptyAct (who : Agent) (s : State) : State :=
  if !isFw who then s
  else
    let c := s.wrd.emptyCode
    if c = 0 then crtChanged (s.wrd.runtime.filter (·.1 != s.wrd.rtSlot)) s else crtRefused c false s

/-- `ACTION` 0 or 3: the result is `RANGE`. -/
def crtInvalidAct (who : Agent) (s : State) : State := if !isFw who then s else crtRefused 4 false s

end Sys2Proof.Machine
end

