-- ==== Sys2Proof/Machine/Sections.lean ====
section
/-! DEFINITION. The header, the directory and the sections of a configuration bit-stream as the loader reads them
(R39, R40 and the layouts of the units' chapters). Every reader is total; the checks stand in `Checks.lean`. -/

namespace Sys2Proof.Machine

open Sys2Proof

/-- A byte of a section. -/
def u8 (b : List Byte) (o : Nat) : Nat := leField b o 1

/-- A 16-bit field. -/
def u16 (b : List Byte) (o : Nat) : Nat := leField b o 2

/-- A 32-bit field. -/
def u32 (b : List Byte) (o : Nat) : Nat := leField b o 4

/-- A signed 32-bit field. -/
def i32 (b : List Byte) (o : Nat) : Int := signedOf 32 (u32 b o)

/-- A MAC address as a number, its first octet in bits [47:40] (log entry 44, DEDUCED). -/
def macAt (b : List Byte) (o : Nat) : Nat := beNat (slice b o 6)

/-- `n` entries of `size` bytes from `off`. -/
def entriesAt (b : List Byte) (off size n : Nat) : List (List Byte) := (List.range n).map fun i => slice b (off + size * i) size

/-! ### Header and directory (R39, R40) -/

/-- A directory entry. -/
structure DirEntry where
  ty : Nat := 0
  flags : Nat := 0
  off : Nat := 0
  len : Nat := 0
  spare : Nat := 0
  digest : List Byte := []
  deriving DecidableEq, Repr, Inhabited

/-- The directory of a stream. -/
def directory (b : List Byte) : List DirEntry :=
  (entriesAt b 0x80 32 (u16 b 0x24)).map fun e =>
    { ty := u16 e 0, flags := u16 e 2, off := u32 e 4, len := u32 e 8, spare := u32 e 0xC, digest := slice e 0x10 16 }

/-- Bytes of a section of a stream. -/
def DirEntry.bytes (e : DirEntry) (stream : List Byte) : List Byte := slice stream e.off e.len

/-! ### Chapters 3 and 4 -/

/-- `PORTS` (R98). -/
def parsePorts (b : List Byte) : PortsSec :=
  { ethertype := if u16 b 0 = 0 then 0x88B6 else u16 b 0
    groupMac := macAt b 2
    ports := (entriesAt b 0x10 8 64).map fun e =>
      { mode := u8 e 0, prp := (u8 e 1).testBit 0, tagged := (u8 e 1).testBit 1, pcp := u8 e 2, vid := u16 e 4 } }

/-- `STATIONS` (R99). -/
def parseStations (b : List Byte) : List StationCfg :=
  (entriesAt b 16 32 (u16 b 0)).map fun e =>
    { number := u16 e 0, port := u8 e 2, wdgMode := u8 e 3, mac := macAt e 4, wdgTime := u16 e 0xA, respTime := u32 e 0xC
      pathDelay := u32 e 0x10 }

/-- `PTP_PROFILE` (R87). -/
def parsePtp (b : List Byte) : PtpSec :=
  let src := u32 b 8
  { profile := u16 b 0, domain := u8 b 2, priority1 := u8 b 3, priority2 := u8 b 4, logSync := signedOf 8 (u8 b 5)
    sources := [bitsOf src 3 0, bitsOf src 7 4, bitsOf src 11 8].takeWhile (· != 0)
    taiUtcInit := i32 b 0xC, slaveA := u8 b 0x10, slaveB := u8 b 0x11, hostSlave := u8 b 0x12, pcp := u8 b 0x13
    masterMask := leField b 0x14 8, taggedMask := leField b 0x1C 8, vid := u16 b 0x24 }

/-- `ASYMMETRY` (R78). -/
def parseAsym (b : List Byte) : List AsymCfg :=
  (entriesAt b 0 12 66).map fun e => { ing := i32 e 0, egr := i32 e 4, asym := i32 e 8 }

/-! ### Chapters 5 to 7 -/

/-- `SV_SUBS` (R118). -/
def parseSv (b : List Byte) : SvSec :=
  { channels := u16 b 2, alignLatency := u32 b 4, archFirst := u16 b 8, archSegments := u16 b 0xA
    subs := (entriesAt b 32 64 (u16 b 0)).map fun e =>
      { port := u8 e 0, localOk := (u8 e 1).testBit 0, testAccept := (u8 e 1).testBit 1, appid := u16 e 2, destMac := macAt e 4
        rate := u8 e 0xA, noAsdu := u8 e 0xB, chCount := u8 e 0xC, firstChannel := u16 e 0xE, confRev := u32 e 0x10
        maxDelay := u32 e 0x14, svId := slice e 0x20 32 } }

/-- A timetable step (R140). -/
def parseStep (e : List Byte) : PheStep :=
  { op := u8 e 0, flags := u8 e 1, len := u16 e 2, mod := u16 e 4, phase := u16 e 6, a := u32 e 8, b := u32 e 0xC, c := u32 e 0x10
    d := u32 e 0x14 }

/-- A measurement unit (R146). -/
def parseUnit (e : List Byte) : UnitCfg :=
  { f0 := u8 e 0, cls := u8 e 1, rate := u8 e 2, keep := u8 e 3 != 0, phasors := u8 e 4, window := u32 e 8, storeFirst := u32 e 0xC
    storeWords := u32 e 0x10 }

/-- A ring descriptor (R145). -/
def parseRing (e : List Byte) : RingCfg := { base := u32 e 0, lenLog2 := u8 e 4, kind := u8 e 5, stride := u16 e 6 }

/-- A stream entry (R147); `b` is the whole section. -/
def parseStream (b e : List Byte) : StreamCfg :=
  { idcode := u16 e 0, host := u8 e 2, mode := u8 e 3, rate := u8 e 4, role := u8 e 5, start := u8 e 6, timeBase := u8 e 7
    tcpPort := if u16 e 8 = 0 then 4712 else u16 e 8
    udpPort := if u16 e 0xA = 0 then 4713 else u16 e 0xA
    bodyLen := u16 e 0xC, udpDest := slice e 0x10 16
    units := ((slice e 0x20 64).map (·.toNat)).filter (· != 0xFF)
    cfg2 := slice b (u32 e 0x60) (u32 e 0x64), cfg3 := slice b (u32 e 0x68) (u32 e 0x6C) }

/-- `PHE_TABLE` (R145). -/
def parsePhe (b : List Byte) : PheSec :=
  { steps := (entriesAt b (u32 b 0xC) 32 (u16 b 0)).map parseStep
    units := (entriesAt b (u32 b 0x10) 32 (u8 b 2)).map parseUnit
    rings := (entriesAt b (u32 b 0x14) 8 (u16 b 4)).map parseRing
    streams := (entriesAt b (u32 b 0x18) 128 (u8 b 3)).map (parseStream b)
    coefs := (entriesAt b (u32 b 0x1C) 4 (u32 b 8)).map fun e => u32 e 0 }

/-- `TOPOLOGY` (R174 to R176). -/
def parseTopo (b : List Byte) : TopoSec :=
  let nt := u16 b 0
  { terms := (entriesAt b 0x20 32 nt).map fun e =>
      { station := u16 e 0, kind := u8 e 2, singleOk := (u8 e 3).testBit 0, frontDelay := i32 e 4, threshold := u32 e 8, name := slice e 0x10 16 }
    segs := (entriesAt b (0x20 + 32 * nt) 48 (u16 b 2)).map fun e =>
      { endA := u16 e 0, endB := u16 e 2, length := u32 e 4, velocity := u32 e 8, refOffset := u32 e 0xC, refTerminal := u8 e 0x10
        taps := (List.range (u8 e 0x11)).map fun i => u32 e (0x14 + 4 * i) }
    junctions := u16 b 4, groupWindow := u32 b 8, collect := u32 b 0xC, minConf := u32 b 0x10, raw := b }

/-! ### Chapter 8 -/

/-- `POINTS` (R201). -/
def parsePoints (b : List Byte) : List PointCfg :=
  (entriesAt b 16 16 (u32 b 0)).map fun e =>
    { tag := u32 e 0, kind := u8 e 4, forceable := (u8 e 5).testBit 0, task := u8 e 6, source := u32 e 8, init := u32 e 0xC }

/-- `TASKS` (R196, R206). -/
def parseTasks (b : List Byte) : List TaskCfg :=
  (entriesAt b 16 32 (u8 b 0)).map fun e =>
    { task := u8 e 0, rank := u8 e 1, period := u16 e 4, phase := u16 e 6, deadline := u32 e 8
      calls := (entriesAt b (u32 e 0xC) 16 (u32 e 0x10)).map fun c => { codeOff := u32 c 0, inst := u32 c 4, blockType := u32 c 8 } }

/-- The entry points of `CODE` (R210). -/
def parseCode (b : List Byte) : List Nat := (entriesAt b 16 4 (u32 b 0)).map fun e => u32 e 0

/-- The runs at an offset of `INSTANCES`, at most `fuel` of them, up to the one of length 0 (R208). -/
def parseRuns (b : List Byte) : Nat → Nat → List (Nat × List Byte)
  | 0, _ => []
  | fuel + 1, pos =>
    let len := u32 b (pos + 4)
    if len = 0 then [] else (u32 b pos, slice b (pos + 8) len) :: parseRuns b fuel (pos + 8 + roundUp len 4)

/-- An instance from its directory entry (R207, R208). -/
def parseInst (b e : List Byte) : InstCfg :=
  let at' := u32 e 4
  let h := slice b (at' + 8) 32
  { addr := u32 e 0, blockType := u32 h 0, tag := u32 h 4, size := u32 h 8, task := u8 h 0xC, layout := u16 h 0xE
    retainOff := u32 h 0x10, retainLen := u32 h 0x14, runs := parseRuns b (b.length / 8 + 1) at' }

/-- `INSTANCES` (R208, R215). -/
def parseInsts (b : List Byte) : InstSec :=
  { baseUnit := u16 b 4, units := u16 b 6, shadowUnit := u16 b 8
    insts := (entriesAt b (u32 b 0xC) 8 (u32 b 0)).map (parseInst b)
    carries := (entriesAt b (u32 b 0x10) 16 (u32 b 0x14)).map fun c => { src := u32 c 0, dst := u32 c 4, len := u32 c 8, task := u8 c 0xC } }

/-- `IMAGES` (R202). -/
def parseImages (b : List Byte) : ImgSec :=
  { policy := u8 b 0
    descs := (entriesAt b 0x20 32 16).map fun e =>
      { inBase := u32 e 0, inList := (entriesAt b (u32 e 8) 4 (u32 e 4)).map fun x => u32 x 0
        outBase := u32 e 0xC, outList := (entriesAt b (u32 e 0x14) 4 (u32 e 0x10)).map fun x => u32 x 0 } }

/-! ### Chapters 10 to 14 and 18 -/

/-- `BUDGETS` (R240). -/
def parseBudgets (b : List Byte) : BudgetSec :=
  { slots := (entriesAt b 0x10 8 64).map fun e => (u32 e 0, u8 e 4), ports := (entriesAt b 0x210 4 64).map fun e => u32 e 0 }

/-- `POWER` (R245). -/
def parsePower (b : List Byte) : PowerSec :=
  { ceilingMw := u32 b 0, fixedMin := u32 b 4, overPeriods := u16 b 8
    sensors := (entriesAt b 0x10 8 12).map fun e => (signedOf 16 (u16 e 0), u16 e 2)
    coef := (entriesAt b 0x70 4 64).map fun e => u32 e 0, portCoef := (entriesAt b 0x170 4 64).map fun e => u32 e 0 }

/-- `PAIR` (R257). -/
def parsePair (b : List Byte) : PairSec := { mode := u8 b 0, alivePeriods := u8 b 1, reseedAfter := u8 b 2, negotiateS := u8 b 3 }

/-- `MEMMAP` (R282). -/
def parseMap (b : List Byte) : MapSec :=
  { spareUnit := u16 b 2, streamFirst := u16 b 4, stageFirst := u16 b 6
    descs := (entriesAt b 0x20 8 (u16 b 0)).map fun e => (u16 e 0, u16 e 2, u8 e 4) }

/-- `WARDS` (R298): nine wards of eight regions. -/
def parseWards (b : List Byte) : List (List Region) :=
  (entriesAt b 0x10 128 9).map fun w => (entriesAt w 0 16 8).map fun e =>
    { base64 := u32 e 0, len64 := u32 e 4, read := u32 e 8, write := u32 e 0xC }

/-- `CENTRAL` (R303). -/
def parseCentral (b : List Byte) : List Rule :=
  (entriesAt b 16 32 (u16 b 0)).map fun e =>
    { base := leField e 0 8, len64 := u32 e 8, space := u8 e 0xC, read := u32 e 0x10, write := u32 e 0x14 }

/-- `LEDGER_LIMITS` (R328). -/
def parseLimits (b : List Byte) : LimitSec :=
  { defBurst := u16 b 2, defRefill := u32 b 4, entries := (entriesAt b 16 8 (u16 b 0)).map fun e => (u16 e 0, u16 e 2, u32 e 4) }

/-- `FIELD_IO` (R383). -/
def parseField (b : List Byte) : FieldSec :=
  { di := (entriesAt b 0 4 16).map fun e => (u8 e 0, u8 e 1, u8 e 2)
    dout := (entriesAt b 0x40 2 8).map fun e => (u8 e 0, (u8 e 1).testBit 0)
    ao := (entriesAt b 0x50 4 4).map fun e => u8 e 0 }

/-- A generation with one section of a stream taken into it (R41). -/
def Generation.take (g : Generation) (ty : Nat) (b : List Byte) : Generation :=
  match ty with
  | 0x01 => { g with ports := parsePorts b }
  | 0x02 => { g with stations := parseStations b }
  | 0x03 => { g with points := parsePoints b }
  | 0x04 => { g with sv := parseSv b }
  | 0x05 => { g with phe := parsePhe b }
  | 0x06 => { g with topo := parseTopo b }
  | 0x07 => { g with tasks := parseTasks b }
  | 0x08 => { g with codeEntries := parseCode b }
  | 0x09 => { g with insts := parseInsts b }
  | 0x0A => { g with images := parseImages b }
  | 0x0B => { g with budgets := parseBudgets b }
  | 0x0C => { g with power := parsePower b }
  | 0x0D => { g with memmap := parseMap b }
  | 0x0E => { g with wards := parseWards b }
  | 0x0F => { g with central := parseCentral b }
  | 0x10 => { g with limits := parseLimits b }
  | 0x11 => { g with fieldIo := parseField b }
  | 0x12 => { g with ptp := parsePtp b }
  | 0x13 => { g with asym := parseAsym b }
  | 0x14 => { g with pair := parsePair b }
  | _ => g

/-- The header's facts and the sections of a stream, over what `g` holds already. -/
def Generation.takeStream (g : Generation) (b : List Byte) : Generation :=
  let g := { g with gen := u32 b 0x14, blvl := u32 b 0x10, unitUse := u32 b 0xC, digest := slice b 0x30 48 }
  (directory b).foldl (fun g e => g.take e.ty (e.bytes b)) g

end Sys2Proof.Machine
end

