-- ==== Sys2Proof/Machine/Checks.lean ====
section
/-! DEFINITION. The content check of each section by itself (R48 step 4): the code of R54, the unit's detail, and the offset
within the section. A section is judged header first, then entry by entry, each entry by ascending detail, then as a whole
(log entry 45, DEDUCED). -/

namespace Sys2Proof.Machine

open Sys2Proof

/-- A failed check: code, detail, offset. -/
abbrev Fail := Nat × Nat × Nat

/-- A check that fails where `c` holds. -/
def failIf (c : Bool) (f : Fail) : Option Fail := if c then some f else none

/-- `SECTION_CONTENT` with a detail. -/
def badIf (c : Bool) (detail off : Nat) : Option Fail := failIf c (0x12, detail, off)

/-- The first check that fails. -/
def firstOf (l : List (Option Fail)) : Option Fail := l.findSome? id

/-- The first check that fails over entries 0 to n − 1. -/
def eachOf (n : Nat) (f : Nat → Option Fail) : Option Fail := (List.range n).findSome? f

/-- A reserved span holds a byte that is not zero. -/
def nz (b : List Byte) (off len : Nat) : Bool := !(allZero (slice b off len))

/-- What a content check knows besides the section: `UNIT_USE`, and for a delta the generation it changes. -/
structure CheckCtx where
  unitUse : Nat := 0
  base : Option Generation := none
  deriving DecidableEq, Repr, Inhabited

/-- `UNDECLARED_UNIT` (R42). -/
def undeclared (c : Bool) (off : Nat) : Option Fail := failIf c (0x11, 0, off)

/-- The optional unit a point needs (R201). -/
def PointCfg.needs (p : PointCfg) : Option Nat :=
  if p.kind = 2 then (if p.source < 7168 then some 0 else some 1) else if p.kind = 5 then some 2 else none

/-- The point needs a unit that `UNIT_USE` does not declare. -/
def PointCfg.undeclared (p : PointCfg) (use : Nat) : Bool := match p.needs with
  | some u => !use.testBit u
  | none => false

/-- A MAC address has the group bit. -/
def groupMac (m : Nat) : Bool := m.testBit 40

/-! ### Binary32 fields -/

/-- Finite and not negative. -/
def f32NonNeg (w : Nat) : Bool := decide (w < 0x7F800000) || w == 0x80000000

/-- Not negative, and at most the positive value `top`. -/
def f32UpTo (top w : Nat) : Bool := decide (w ≤ top) || w == 0x80000000

/-! ### Chapters 3 and 4 -/

/-- `PORTS` (R98). -/
def checkPorts (b : List Byte) : Option Fail :=
  let s := parsePorts b
  let port (n : Nat) : PortCfg := s.ports.getD n {}
  firstOf
    [badIf (b.length != 528) 1 0, badIf (nz b 8 8) 1 8,
     badIf (decide (s.ethertype < 0x600) || s.ethertype == 0x88BA || s.ethertype == 0x88F7) 2 0, badIf (!groupMac s.groupMac) 2 2,
     eachOf 64 fun n => firstOf
      [badIf (nz b (0x13 + 8 * n) 1 || nz b (0x16 + 8 * n) 2 || decide (3 < u8 b (0x11 + 8 * n))) 1 (0x10 + 8 * n),
       badIf (decide (2 < (port n).mode)) 2 (0x10 + 8 * n)],
     eachOf 16 fun c => badIf ((List.range 4).any fun i => (List.range 4).any fun j =>
        (port (4 * c + i)).mode != 0 && (port (4 * c + j)).mode != 0 && (port (4 * c + i)).mode != (port (4 * c + j)).mode) 3 (0x10 + 32 * c),
     eachOf 64 fun n => badIf ((port n).prp &&
        (decide (32 ≤ n) || (port n).mode == 0 || (port n).mode != (port (n + 32)).mode)) 4 (0x10 + 8 * n),
     eachOf 64 fun n => badIf (decide (7 < (port n).pcp) ||
        (if (port n).tagged then decide ((port n).vid < 1 ∨ 4094 < (port n).vid) else (port n).vid != 0)) 5 (0x10 + 8 * n)]

/-- `STATIONS` (R99, R100). -/
def checkStations (b : List Byte) : Option Fail :=
  let n := u16 b 0
  let l := parseStations b
  firstOf
    [badIf (decide (n < 1 ∨ 2048 < n ∨ b.length ≠ 16 + 32 * n)) 0x10 0, badIf (nz b 2 14) 0x10 2,
     eachOf n fun i =>
      let x := l.getD i {}
      let o := 16 + 32 * i
      let before := (l.take i).filter fun y => y.port == x.port
      firstOf
       [badIf (nz b (o + 0x14) 12) 0x10 o,
        badIf (decide (2047 < x.number) || (decide (0 < i) && decide (x.number ≤ (l.getD (i - 1) {}).number))) 0x11 o,
        badIf (decide (63 < x.port)) 0x12 o,
        badIf (decide (128 ≤ before.length)) 0x13 o,
        badIf (groupMac x.mac || before.any fun y => y.mac == x.mac) 0x14 o,
        badIf (decide (1 < x.wdgMode ∨ x.wdgTime < 1)) 0x15 o]]

/-- The source nibbles of `PTP_PROFILE` (R87). -/
def sourcesBad (src : Nat) : Bool :=
  let l := [bitsOf src 3 0, bitsOf src 7 4, bitsOf src 11 8]
  let used := l.takeWhile (· != 0)
  l.any (fun v => decide (3 < v)) || !noRepeats used || (l.drop used.length).any (· != 0)

/-- `PTP_PROFILE` (R87). Other bits of `HOST_SLAVE` and bits [31:12] of `SOURCES` that are not zero count as reserved bytes: detail
0x01 (log entry 132, DESIGN CHOICE). -/
def checkPtp (b : List Byte) : Option Fail :=
  let p := parsePtp b
  let slave (v : Nat) : Bool := v != 0xFF
  firstOf
    [badIf (b.length != 64) 1 0,
     badIf (nz b 6 2 || nz b 0x26 26 || decide (3 < p.hostSlave) || u32 b 8 / 2 ^ 12 != 0) 1 0,
     badIf (decide (p.profile < 1 ∨ 2 < p.profile) || decide (p.logSync < -3 ∨ 0 < p.logSync) || decide (7 < p.pcp)
        || (if p.taggedMask = 0 then p.vid != 0 else decide (p.vid < 1 ∨ 4094 < p.vid))
        || (slave p.slaveA && decide (63 < p.slaveA)) || (slave p.slaveB && decide (63 < p.slaveB))) 2 0,
     badIf ((slave p.slaveA && p.masterMask.testBit p.slaveA) || (slave p.slaveB && p.masterMask.testBit p.slaveB)
        || (slave p.slaveA && p.slaveA == p.slaveB)) 3 0x10,
     badIf (sourcesBad (u32 b 8)) 4 8]

/-! ### Chapter 5 -/

/-- Samples of lookahead of a rate code (R123). -/
def lookahead (rate : Nat) : Nat := if rate = 3 then 3 else 6

/-- The samples per second of a rate code (R118). -/
def rateHz (rate : Nat) : Nat := [4000, 4800, 12800, 14400].getD rate 14400

/-- The channel ranges tile 0 to `n` − 1 exactly (R119). -/
def tiles (l : List (Nat × Nat)) (n : Nat) : Bool :=
  (List.range n).all (fun c => (l.filter fun r => decide (r.1 ≤ c ∧ c < r.1 + r.2)).length == 1)
    && l.all fun r => decide (r.1 + r.2 ≤ n)

/-- `SV_SUBS` (R118, R119). -/
def checkSv (cx : CheckCtx) (b : List Byte) : Option Fail :=
  let n := u16 b 0
  let s := parseSv b
  firstOf
    [badIf (b.length != 32 + 64 * n || nz b 0xC 20) 1 0,
     badIf (decide (512 < n ∨ 2048 < s.channels ∨ s.alignLatency < 50000 ∨ 2000000 < s.alignLatency ∨ 255 < s.archFirst)
        || (s.archSegments != 0 && decide (s.archSegments < 4 ∨ 192 < s.archSegments))) 2 0,
     eachOf n fun i =>
      let x := s.subs.getD i {}
      let o := 32 + 64 * i
      let before := s.subs.take i
      firstOf
       [badIf (nz b (o + 0xD) 1 || nz b (o + 0x18) 8 || decide (3 < u8 b (o + 1))) 1 o,
        badIf (decide (63 < x.port ∨ x.appid < 0x4000 ∨ 0x7FFF < x.appid ∨ 3 < x.rate ∨ x.noAsdu < 1 ∨ 8 < x.noAsdu ∨ x.chCount < 1
          ∨ 24 < x.chCount) || !groupMac x.destMac || allZero x.svId) 2 o,
        badIf (decide (8 ≤ (before.filter fun y => y.port == x.port).length)) 3 o,
        badIf (before.any fun y => y.port == x.port && y.appid == x.appid && y.svId == x.svId) 5 o,
        badIf (decide (s.alignLatency * rateHz x.rate < (x.maxDelay + 20000) * rateHz x.rate + lookahead x.rate * 1000000000)) 6 o],
     badIf (!tiles (s.subs.map fun x => (x.firstChannel, x.chCount)) s.channels) 4 0,
     badIf (s.archSegments != 0 && decide (256 < s.archFirst + s.archSegments)) 7 8,
     badIf (match cx.base with
      | some g => g.sv.archFirst != s.archFirst || g.sv.archSegments != s.archSegments
      | none => false) 9 8]

/-! ### Chapter 7 -/

/-- The node numbers of a topology (R174). -/
def TopoSec.node (t : TopoSec) (n : Nat) : Bool := decide (n < t.terms.length ∨ (64 ≤ n ∧ n < 64 + t.junctions))

/-- Segment ends at a node. -/
def TopoSec.degree (t : TopoSec) (n : Nat) : Nat := ((t.segs.map (·.endA)).filter (· == n)).length + ((t.segs.map (·.endB)).filter (· == n)).length

/-- The longest travel time between two terminals of one component exceeds the group window (R177, R178). -/
def TopoSec.tooFar (t : TopoSec) : Bool :=
  (List.range t.terms.length).any fun i =>
    let times := t.times i
    (List.range t.terms.length).any fun j => match timeOf times j with
      | some x => (fpInt (1000 * t.groupWindow)).lt x
      | none => false

/-- `TOPOLOGY` (R174 to R177). -/
def checkTopo (b : List Byte) : Option Fail :=
  let t := parseTopo b
  let nt := u16 b 0
  let ns := u16 b 2
  firstOf
    [badIf (b.length != 32 + 32 * nt + 48 * ns || nz b 6 2 || nz b 0x14 12) 1 0,
     badIf (decide (nt < 1 ∨ 64 < nt ∨ ns < 1 ∨ 256 < ns ∨ 256 < t.junctions ∨ t.groupWindow < 10 ∨ 20000 < t.groupWindow ∨ t.collect < 1000
        ∨ 100000 < t.collect) || !f32UpTo 0x3F800000 t.minConf) 2 0,
     eachOf nt fun i =>
      let x := t.terms.getD i {}
      let o := 0x20 + 32 * i
      firstOf
       [badIf (nz b (o + 0xC) 4 || decide (1 < u8 b (o + 3))) 1 o,
        badIf (decide (1 < x.kind ∨ x.threshold = 0 ∨ 0x7F800000 ≤ x.threshold)) 2 o,
        badIf (t.degree i == 0) 3 o,
        badIf ((t.terms.take i).any fun y => y.station == x.station) 4 o,
        badIf (x.singleOk && t.degree i != 1) 8 o],
     eachOf ns fun i =>
      let x := t.segs.getD i {}
      let o := 0x20 + 32 * nt + 48 * i
      firstOf
       [badIf (nz b (o + 0x12) 2 || nz b (o + 0x24) 12) 1 o,
        badIf (decide (x.length < 1000 ∨ 1000000000 < x.length ∨ x.velocity < 100000000 ∨ 299792458 < x.velocity ∨ nt ≤ x.refTerminal
          ∨ 4 < u8 b (o + 0x11)) || !strictlyRising x.taps || x.taps.any (fun p => decide (x.length ≤ p))
          || nz b (o + 0x14 + 4 * u8 b (o + 0x11)) (16 - 4 * u8 b (o + 0x11))) 2 o,
        badIf (!t.node x.endA || !t.node x.endB || x.endA == x.endB) 3 o],
     badIf ((List.range t.junctions).any fun j => t.degree (64 + j) == 0) 3 0,
     badIf (t.tooFar || decide (t.collect < t.groupWindow + 1000)) 5 8]

/-! ### Chapter 8 -/

/-- The largest `SOURCE` of a kind (R201). -/
def sourceMax (kind : Nat) : Nat := [2047, 2047, 8191, 15, 7, 3].getD kind 0

/-- `POINTS` (R201, R220). -/
def checkPoints (cx : CheckCtx) (b : List Byte) : Option Fail :=
  let n := u32 b 0
  let l := parsePoints b
  firstOf
    [badIf (decide (n < 1 ∨ 131072 < n ∨ b.length ≠ 16 + 16 * n) || nz b 4 12) 0x20 0,
     eachOf n fun i =>
      let p := l.getD i {}
      let o := 16 + 16 * i
      firstOf
       [badIf (nz b (o + 7) 1 || decide (1 < u8 b (o + 5))) 0x20 o,
        badIf (decide (p.tag < 1 ∨ 0xFFFFFFFE < p.tag) || (l.take i).any fun q => q.tag == p.tag) 0x21 o,
        badIf (decide (5 < p.kind ∨ sourceMax p.kind < p.source ∨ 15 < p.task)) 0x22 o,
        badIf (decide (3 ≤ p.kind) && (l.take i).any fun q => q.kind == p.kind && q.source == p.source) 0x24 o,
        undeclared (p.undeclared cx.unitUse) o]]

/-- The byte range of a task's call table (R196). -/
def callSpan (b : List Byte) (i : Nat) : Nat × Nat := let o := 16 + 32 * i; (u32 b (o + 0xC), u32 b (o + 0xC) + 16 * u32 b (o + 0x10))

/-- Two byte ranges share a byte. -/
def meets (a b : Nat × Nat) : Bool := decide (a.1 < b.2 ∧ b.1 < a.2)

/-- `TASKS` (R196, R206, R220); for a delta the periods and phases of surviving tasks (R55). -/
def checkTasks (cx : CheckCtx) (b : List Byte) : Option Fail :=
  let n := u8 b 0
  let l := parseTasks b
  let tail := 16 + 32 * n
  firstOf
    [badIf (decide (n < 1 ∨ 16 < n ∨ b.length < tail) || nz b 1 15) 0x30 0,
     eachOf n fun i =>
      let x := l.getD i {}
      let o := 16 + 32 * i
      let sp := callSpan b i
      let cnt := u32 b (o + 0x10)
      firstOf
       [badIf (nz b (o + 2) 2 || nz b (o + 0x14) 12) 0x30 o,
        badIf (decide (sp.1 % 16 ≠ 0 ∨ sp.1 < tail ∨ cnt < 1 ∨ 262144 < cnt ∨ b.length < sp.2)
          || (List.range i).any fun j => meets sp (callSpan b j)) 0x30 o,
        badIf ((List.range cnt).any fun k => nz b (sp.1 + 16 * k + 0xC) 4) 0x30 o,
        badIf (decide (15 < x.task ∨ x.rank < 1 ∨ 16 < x.rank ∨ x.period < 2 ∨ x.period ≤ x.phase)
          || (l.take i).any fun y => y.task == x.task) 0x31 o,
        badIf (decide (x.deadline < 1000 ∨ x.period * 125000 < x.deadline + 17000)) 0x32 o,
        failIf (match cx.base with
          | some g => (g.tasks.any fun y => y.task == x.task && (y.period != x.period || y.phase != x.phase))
          | none => false) (0x0D, 0, o)]]

/-- `CODE` (R210). -/
def checkCode (b : List Byte) : Option Fail :=
  let n := u32 b 0
  let l := parseCode b
  firstOf
    [badIf (decide (268435456 < b.length ∨ b.length < 16 ∨ n < 1 ∨ b.length < 16 + 4 * n) || nz b 4 12) 0x60 0,
     badIf (!strictlyRising l || l.any fun o => decide (o % 64 ≠ 0 ∨ b.length ≤ o)) 0x60 16]

/-- The runs of an instance lie inside the section, up to the one of length 0. -/
def runsFit (b : List Byte) : Nat → Nat → Bool
  | 0, _ => false
  | fuel + 1, pos =>
    let len := u32 b (pos + 4)
    if b.length < pos + 8 then false
    else if len = 0 then true
    else decide (pos + 8 + len ≤ b.length) && runsFit b fuel (pos + 8 + roundUp len 4)

/-- Runs in order, apart, and inside their instance (R208). -/
def runsOrdered (size : Nat) : Nat → List (Nat × List Byte) → Bool
  | _, [] => true
  | e, r :: t => decide (e ≤ r.1 ∧ r.1 + r.2.length ≤ size) && runsOrdered size (r.1 + r.2.length) t

/-- The byte range of an instance in its region. -/
def InstCfg.span (i : InstCfg) : Nat × Nat := (256 * i.addr, 256 * i.addr + i.size)

/-- A byte range lies inside some instance. -/
def insideInst (l : List InstCfg) (a n : Nat) : Bool := l.any fun i => decide (i.span.1 ≤ a ∧ a + n ≤ i.span.2)

/-- An instance's header breaks R207. -/
def InstCfg.headerBad (i : InstCfg) : Bool :=
  decide (i.blockType = 0 ∨ i.tag < 1 ∨ 0xFFFFFFFE < i.tag ∨ i.size % 64 ≠ 0 ∨ i.size < 64 ∨ 0x4000000 < i.size ∨ 15 < i.task
    ∨ i.retainLen % 256 ≠ 0 ∨ i.retainOff % 256 ≠ 0 ∨ roundUp i.size 256 < i.retainOff + i.retainLen)
    || (if i.retainLen = 0 then i.retainOff != 0 else decide (i.retainOff < 256))

/-- What a delta's `INSTANCES` must keep of the generation it changes (R215). -/
def instDelta (s : InstSec) (g : Generation) (o : Nat) : Option Fail :=
  firstOf
    [badIf (s.baseUnit != g.insts.baseUnit || s.units != g.insts.units || s.shadowUnit != g.insts.shadowUnit) 0x44 4,
     badIf (s.insts.any fun i =>
        !(g.insts.insts.any fun y => y.tag == i.tag && y.blockType == i.blockType && y.layout == i.layout && y.addr == i.addr && y.size == i.size)
          && g.insts.insts.any fun y => meets i.span y.span) 0x44 0,
     eachOf s.carries.length fun k =>
      let c := s.carries.getD k {}
      badIf (c.len % 4 != 0 || !insideInst g.insts.insts c.src c.len || !insideInst s.insts c.dst c.len) 0x44 (o + 16 * k)]

/-- `INSTANCES` (R207, R208, R215, R220). -/
def checkInsts (cx : CheckCtx) (b : List Byte) : Option Fail :=
  let n := u32 b 0
  let dir := u32 b 0xC
  let co := u32 b 0x10
  let cn := u32 b 0x14
  let s := parseInsts b
  firstOf
    [badIf (decide (b.length < 32 ∨ n < 1 ∨ 262144 < n ∨ s.units < 1 ∨ 16 < s.units ∨ 256 < s.baseUnit + s.units ∨ 255 < s.shadowUnit
        ∨ b.length < dir + 8 * n ∨ b.length < co + 16 * cn) || nz b 0xA 2 || nz b 0x18 8) 0x40 0,
     badIf ((List.range cn).any fun k => nz b (co + 16 * k + 0xD) 3) 0x40 co,
     eachOf n fun k =>
      let i := s.insts.getD k {}
      let at' := u32 b (dir + 8 * k + 4)
      firstOf
       [badIf (!runsFit b (b.length / 8 + 1) at') 0x40 (dir + 8 * k),
        badIf (i.headerBad || nz b (at' + 8 + 0xD) 1 || nz b (at' + 8 + 0x18) 8 || decide (s.units * 0x4000000 < i.span.2)
          || (s.insts.take k).any fun y => y.tag == i.tag || meets i.span y.span) 0x41 (dir + 8 * k),
        badIf ((match i.runs with
          | r :: _ => decide (r.1 ≠ 0 ∨ r.2.length < 32)
          | [] => true) || !runsOrdered i.size 0 i.runs) 0x45 at'],
     badIf (decide (2097152 < (s.insts.map (·.retainLen)).sum)) 0x43 0,
     match cx.base with
     | none => badIf (cn != 0) 0x44 0x14
     | some g => instDelta s g co]

/-- A point list lies inside `IMAGES`. -/
def listFits (b : List Byte) (off n : Nat) : Bool := n == 0 || decide (0x220 ≤ off ∧ off + 4 * n ≤ b.length)

/-- The byte ranges of a task's images. -/
def ImgCfg.spans (d : ImgCfg) : List (Nat × Nat) :=
  ([(64 * d.inBase, 64 * d.inBase + 16 * d.inList.length), (64 * d.outBase, 64 * d.outBase + 16 * d.outList.length)]).filter fun r => decide (r.1 < r.2)

/-- `IMAGES` (R202, R220). -/
def checkImages (b : List Byte) : Option Fail :=
  let s := parseImages b
  firstOf
    [badIf (decide (b.length < 0x220 ∨ 2 < s.policy) || nz b 1 31) 0x50 0,
     eachOf 16 fun t =>
      let o := 0x20 + 32 * t
      badIf (nz b (o + 0x18) 8 || !listFits b (u32 b (o + 8)) (u32 b (o + 4)) || !listFits b (u32 b (o + 0x14)) (u32 b (o + 0x10))) 0x50 o,
     eachOf 16 fun t =>
      let own := (s.descs.getD t {}).spans
      let before := (s.descs.take t).flatMap ImgCfg.spans
      badIf (own.any (fun r => before.any (meets r) || decide (memSize < r.2)) || (match own with
        | [r, q] => meets r q
        | _ => false)) 0x52 (0x20 + 32 * t)]

/-! ### Chapters 10 to 14 and 18 -/

/-- The budget range of a slot whose range is fixed (R238). -/
def budgetMax (i : Nat) : Nat :=
  if i < 16 then 125000
  else match i with
    | 16 => 16
    | 17 => 156250
    | 18 => 156250
    | 19 => 393216
    | 20 => 125000
    | 21 => 1048576
    | 22 => 1048576
    | 23 => 125000
    | 24 => 1048576
    | 25 => 312500
    | _ => 0

/-- The least budget of a slot (R238). -/
def budgetMin (i : Nat) : Nat := if i = 22 ∨ i = 25 then 4096 else 0

/-- `BUDGETS` by itself (R240, R241). -/
def checkBudgets (b : List Byte) : Option Fail :=
  let s := parseBudgets b
  firstOf
    [badIf (b.length != 784 || nz b 0 16) 1 0,
     eachOf 64 fun i =>
      let x := s.slots.getD i (0, 0)
      let o := 0x10 + 8 * i
      firstOf
       [badIf (nz b (o + 5) 3) 1 o,
        badIf (if 20 ≤ i ∧ i ≤ 25 then decide (x.2 < 4 ∨ 8 < x.2) else x.2 != defaultRank i) 2 o,
        badIf (decide (x.1 < budgetMin i ∨ budgetMax i < x.1)) 3 o]]

/-- The highest `CEIL` of a sensor in °C (R245). -/
def ceilLimit (i : Nat) : Int := [75, 95, 105, 105, 105, 105, 95, 85, 80, 80, 110, 85].getD i 0

/-- `POWER` (R245). -/
def checkPower (b : List Byte) : Option Fail :=
  let s := parsePower b
  firstOf
    [badIf (b.length != 624 || nz b 0xA 6) 0x10 0,
     badIf (decide (s.ceilingMw < 40000 ∨ 180000 < s.ceilingMw ∨ s.overPeriods < 8 ∨ 8000 < s.overPeriods) || !f32UpTo 0x46AFC800 s.fixedMin) 0x11 0,
     eachOf 12 fun i =>
      let x := s.sensors.getD i (0, 0)
      let o := 0x10 + 8 * i
      firstOf [badIf (nz b (o + 4) 4) 0x10 o, badIf (decide (x.2 < 16 ∨ 320 < x.2) || decide (16 * ceilLimit i < x.1)) 0x11 o],
     eachOf 64 fun i => badIf (!f32NonNeg (s.coef.getD i 0)) 0x12 (0x70 + 4 * i),
     eachOf 64 fun i => badIf (!f32NonNeg (s.portCoef.getD i 0)) 0x12 (0x170 + 4 * i)]

/-- `PAIR` (R257). -/
def checkPair (b : List Byte) : Option Fail :=
  let p := parsePair b
  firstOf
    [badIf (b.length != 32 || nz b 4 28) 1 0,
     badIf (decide (1 < p.mode ∨ p.alivePeriods < 2 ∨ 80 < p.alivePeriods ∨ p.reseedAfter < 2 ∨ 64 < p.reseedAfter ∨ p.negotiateS < 1
        ∨ 10 < p.negotiateS)) 2 0]

/-- The code of a unit in a map: 0 STRONG, 1 LIGHT (R282). -/
def MapSec.code (m : MapSec) (u : Nat) : Nat := ((m.descs.find? fun d => decide (d.1 ≤ u ∧ u < d.1 + d.2.1)).map (·.2.2)).getD 0

/-- Units `u` to `u + n - 1` exist and are all under a code. -/
def MapSec.allCode (m : MapSec) (u n code : Nat) : Bool := decide (u + n ≤ 256) && (List.range n).all fun k => m.code (u + k) == code

/-- Two ranges of units share a unit. -/
def unitsMeet (a n b k : Nat) : Bool := decide (a < b + k ∧ b < a + n)

/-- `MEMMAP` (R282). -/
def checkMap (b : List Byte) : Option Fail :=
  let n := u16 b 0
  let m := parseMap b
  let past (i : Nat) : Nat := let d := m.descs.getD i (0, 0, 0); d.1 + d.2.1
  firstOf
    [badIf (b.length != 32 + 8 * n || nz b 8 24) 1 0,
     badIf (decide (n < 1 ∨ 32 < n ∨ 255 < m.spareUnit)) 2 0,
     eachOf n fun i =>
      let d := m.descs.getD i (0, 0, 0)
      let o := 0x20 + 8 * i
      firstOf
       [badIf (nz b (o + 5) 3) 1 o, badIf (decide (d.2.1 = 0 ∨ 256 < d.1 + d.2.1 ∨ 1 < d.2.2)) 2 o,
        badIf (d.1 != if i = 0 then 0 else past (i - 1)) 3 o],
     badIf (past (n - 1) != 256) 3 0,
     badIf (!m.allCode m.streamFirst 16 0 || !m.allCode m.stageFirst 16 0 || unitsMeet m.streamFirst 16 m.stageFirst 16
        || unitsMeet m.streamFirst 16 m.spareUnit 1 || unitsMeet m.stageFirst 16 m.spareUnit 1) 4 2]

/-- A mask names an identity of a set of bits. -/
def maskHas (m bits : Nat) : Bool := m &&& bits != 0

/-- Identities 18 to 31 (R35). -/
def reservedIds : Nat := 0xFFFC0000

/-- The first and the last 64-byte unit of a ward's range, one past the end (R297). -/
def wardSpan (w : Nat) : Nat × Nat := if w < 8 then (w * 0x2000000, (w + 1) * 0x2000000) else (0, 0x5400)

/-- `WARDS` by itself (R298, R51). -/
def checkWards (b : List Byte) : Option Fail :=
  let ws := parseWards b
  firstOf
    [badIf (b.length != 1168 || nz b 0 16) 1 0,
     eachOf 72 fun k =>
      let r := (ws.getD (k / 8) []).getD (k % 8) {}
      let o := 0x10 + 16 * k
      let sp := wardSpan (k / 8)
      firstOf
       [failIf (maskHas r.read reservedIds) (0x14, 0, o + 8), failIf (maskHas r.write reservedIds) (0x14, 0, o + 0xC),
        badIf (if r.len64 = 0 then decide (r.base64 ≠ 0 ∨ r.read ≠ 0 ∨ r.write ≠ 0) else decide (r.base64 < sp.1 ∨ sp.2 < r.base64 + r.len64)) 2 o,
        badIf (maskHas r.read 0x3E00 || maskHas r.write 0x3E00) 3 o]]

/-- `CENTRAL` by itself (R303, R51). -/
def checkCentral (b : List Byte) : Option Fail :=
  let n := u16 b 0
  let l := parseCentral b
  firstOf
    [badIf (decide (256 < n) || b.length != 16 + 32 * n || nz b 2 14) 1 0,
     eachOf n fun i =>
      let r := l.getD i {}
      let o := 16 + 32 * i
      firstOf
       [badIf (nz b (o + 0xD) 3 || nz b (o + 0x18) 8) 1 o,
        failIf (maskHas r.read reservedIds) (0x14, 0, o + 0x10), failIf (maskHas r.write reservedIds) (0x14, 0, o + 0x14),
        badIf (decide (1 < r.space ∨ r.base % 64 ≠ 0 ∨ r.len64 < 1 ∨ spaceSize r.space < r.base + 64 * r.len64)) 2 o,
        badIf (maskHas r.read 0x3C1FF || maskHas r.write 0x3C1FF) 3 o],
     eachOf n fun i => failIf ((l.take i).any fun q => (l.getD i {}).overlaps q) (0x13, 0, 16 + 32 * i)]

/-- `LEDGER_LIMITS` (R328). -/
def checkLimits (b : List Byte) : Option Fail :=
  let n := u16 b 0
  let s := parseLimits b
  let refillBad (r : Nat) : Bool := decide (r < 1 ∨ 10000000 < r)
  firstOf
    [badIf (b.length != 16 + 8 * n || nz b 8 8) 1 0,
     badIf (decide (1024 < n ∨ s.defBurst < 1) || refillBad s.defRefill) 2 0,
     eachOf n fun i =>
      let x := s.entries.getD i (0, 0, 0)
      let o := 16 + 8 * i
      firstOf
       [badIf (decide (x.2.1 < 1) || refillBad x.2.2 || x.1 == 0 || x.1 == 0xFFFF) 2 o,
        badIf (decide (0 < i) && decide (x.1 ≤ (s.entries.getD (i - 1) (0, 0, 0)).1)) 3 o,
        badIf (exempt x.1) 4 o]]

/-- `FIELD_IO` (R383, R42). -/
def checkField (cx : CheckCtx) (b : List Byte) : Option Fail :=
  let s := parseField b
  let out (j : Nat) : Nat × Bool := s.dout.getD j (1, false)
  firstOf
    [badIf (b.length != 128) 1 0,
     badIf (((List.range 16).any fun i => nz b (4 * i + 3) 1) || ((List.range 8).any fun j => decide (1 < u8 b (0x41 + 2 * j)))
        || ((List.range 4).any fun c => nz b (0x51 + 4 * c) 3) || nz b 0x60 32) 1 0,
     eachOf 16 fun i =>
      let x := s.di.getD i (0, 0, 0)
      badIf (!([0, 1, 3].contains x.1) || decide (200 < x.2.1 ∨ 1 < x.2.2)) 2 (4 * i),
     eachOf 8 fun j => badIf (!([1, 2, 4].contains (out j).1)) 2 (0x40 + 2 * j),
     eachOf 4 fun c => badIf (decide (2 < s.ao.getD c 0)) 2 (0x50 + 4 * c),
     eachOf 8 fun j => let g := (out j).1; badIf ((List.range g).any fun k => out (j - j % g + k) != out j) 3 (0x40 + 2 * j),
     undeclared (s.ao.any (· != 0) && !cx.unitUse.testBit 2) 0x50]

end Sys2Proof.Machine
end

