-- ==== Sys2Proof/Machine/PheChecks.lean ====
section
/-! DEFINITION. The content check of `PHE_TABLE` (R138 to R151): header and arrays, then rings, units and streams entry by
entry, then the steps, then the table as a whole (log entry 45, DEDUCED). -/

namespace Sys2Proof.Machine

open Sys2Proof

/-! ### Configuration frames (R159, R162; the field places are those of C37.118.2, log entry 46, PRESUMED) -/

/-- What a configuration frame says of one PMU. -/
structure PmuDecl where
  format : Nat := 0
  ph : Nat := 0
  an : Nat := 0
  dg : Nat := 0
  fnom : Nat := 0
  deriving DecidableEq, Repr, Inhabited

/-- A 16-bit field in network order. -/
def be16 (b : List Byte) (o : Nat) : Nat := beNat (slice b o 2)

/-- The PMUs of a CFG-2 frame from a position, and where they end. -/
def cfg2Pmus (b : List Byte) : Nat → Nat → List PmuDecl × Nat
  | 0, pos => ([], pos)
  | n + 1, pos =>
    let d : PmuDecl := { format := be16 b (pos + 18), ph := be16 b (pos + 20), an := be16 b (pos + 22), dg := be16 b (pos + 24) }
    let fnomAt := pos + 26 + 16 * (d.ph + d.an + 16 * d.dg) + 4 * (d.ph + d.an + d.dg)
    let rest := cfg2Pmus b n (fnomAt + 4)
    ({ d with fnom := be16 b fnomAt } :: rest.1, rest.2)

/-- The end of `n` names of variable length, each a length byte and its bytes. -/
def namesEnd (b : List Byte) : Nat → Nat → Nat
  | 0, pos => pos
  | n + 1, pos => namesEnd b n (pos + 1 + u8 b pos)

/-- The PMUs of a CFG-3 frame from a position, and where they end. -/
def cfg3Pmus (b : List Byte) : Nat → Nat → List PmuDecl × Nat
  | 0, pos => ([], pos)
  | n + 1, pos =>
    let p := pos + 1 + u8 b pos
    let d : PmuDecl := { format := be16 b (p + 18), ph := be16 b (p + 20), an := be16 b (p + 22), dg := be16 b (p + 24) }
    let fnomAt := namesEnd b (d.ph + d.an + 16 * d.dg) (p + 26) + 12 * d.ph + 8 * d.an + 4 * d.dg + 21
    let rest := cfg3Pmus b n (fnomAt + 4)
    ({ d with fnom := be16 b fnomAt } :: rest.1, rest.2)

/-- Bytes of a PMU's block in the data frame: STAT, phasors, FREQ and DFREQ, analogs, digitals. -/
def PmuDecl.size (d : PmuDecl) : Nat := 10 + 8 * d.ph + 4 * d.an + 2 * d.dg

/-- The declared PMUs match a stream and its units. -/
def pmusMatch (t : PheSec) (x : StreamCfg) (l : List PmuDecl) : Bool :=
  l.length == x.units.length && (l.map PmuDecl.size).sum == x.bodyLen
    && (l.zip x.units).all fun p =>
      let u := t.units.getD p.2 {}
      bitsOf p.1.format 3 1 == 7 && decide (1 ≤ p.1.dg ∧ p.1.ph ≤ u.phasors) && (p.1.fnom % 2 == 1) == (u.f0 == 0)

/-- `TIME_BASE` of a stream. -/
def StreamCfg.base (x : StreamCfg) : Nat := if x.timeBase = 0 then 14400 else 1000000

/-- A configuration frame parses and matches its stream (R149, detail 0x07). -/
def cfgGood (t : PheSec) (x : StreamCfg) (cfg3 : Bool) (b : List Byte) : Bool :=
  let k := if cfg3 then 16 else 14
  let n := be16 b (k + 4)
  let l := if n != x.units.length then ([], 0) else if cfg3 then cfg3Pmus b n (k + 6) else cfg2Pmus b n (k + 6)
  be16 b 0 == (if cfg3 then 0xAA52 else 0xAA32) && be16 b 2 == b.length && be16 b 4 == x.idcode
    && beNat (slice b (k + 1) 3) == x.base && pmusMatch t x l.1 && l.2 + 4 == b.length

/-! ### Operands (R142, detail 0x02) -/

/-- Store words of a ring, one past its end. -/
def RingCfg.past (r : RingCfg) : Nat := r.base + 2 ^ r.lenLog2 * (if r.kind = 1 then 2 else 1)

/-- A ring's own fields break R139. -/
def RingCfg.bad (r : RingCfg) : Bool :=
  decide (r.lenLog2 < 1 ∨ 12 < r.lenLog2 ∨ 1 < r.kind ∨ r.stride < 1 ∨ 14400 % r.stride ≠ 0 ∨ 262144 < r.past)
    || (r.kind == 1 && decide (r.base % 2 ≠ 0))

/-- Ring `i` is declared and of a kind. -/
def PheSec.ringOf (t : PheSec) (i kind : Nat) : Bool := decide (i < t.rings.length) && (t.ring i).kind == kind

/-- `n` store words from `a` lie in the store; complex values at even addresses. -/
def storeFits (cx : Bool) (a n : Nat) : Bool := decide (a + n ≤ 262144) && (!cx || a % 2 == 0)

/-- A filter's operands: complex ring, taps the ring holds, coefficients declared. -/
def PheSec.filterFits (t : PheSec) (x : PheStep) : Bool :=
  t.ringOf x.a 1 && decide (1 ≤ x.len ∧ x.len ≤ 2 ^ (t.ring x.a).lenLog2 ∧ x.b + x.len ≤ t.coefs.length)

/-- Words a PUB step reads. -/
def PheStep.pubWords (x : PheStep) : Nat := x.len * (if x.c = 0 then 1 else 2)

/-- Bytes a PUB step writes. -/
def PheStep.pubBytes (x : PheStep) : Nat := 4 * x.pubWords

/-- The step's opcode and operands are in range (R142, R156). -/
def PheSec.operandsFit (t : PheSec) (x : PheStep) : Bool :=
  match x.op with
  | 0 => true
  | 1 => decide (x.a ≤ 2047 ∧ x.c < t.coefs.length) && t.ringOf x.b 0
  | 2 => t.ringOf x.a 0 && t.ringOf x.b 1
  | 3 => t.filterFits x && t.ringOf x.c 1
  | 4 => t.filterFits x && decide (x.flags / 4 < t.units.length) && storeFits true x.c 2
      && (!x.flags.testBit 1 || decide (x.d + 257 ≤ t.coefs.length))
  | 5 => decide (1 ≤ x.len ∧ x.len ≤ 240 ∧ x.flags / 4 < t.units.length) && storeFits true x.a 2 && storeFits true x.b 2
      && storeFits true x.c 2 && storeFits false x.d 2
  | 6 => storeFits true x.a 6 && storeFits true x.b (if x.flags.testBit 0 then 2 else 6)
  | 7 => (x.len == 1 || x.len == 3) && storeFits true x.a (2 * x.len) && storeFits true x.b (2 * x.len) && storeFits false x.c 2
  | 8 => decide (x.c ≤ 4) && storeFits (decide (1 ≤ x.c)) x.a (if x.c = 0 then 1 else 2)
  | 9 => (x.c == 0 || x.c == 5 || x.c == 6) && decide (1 ≤ x.len ∧ x.b < t.streams.length) && storeFits (x.c != 0) x.a x.pubWords
  | 10 => x.a == 0 && (x.b == 0 || (x.b == 1 && decide (x.c < t.streams.length)))
  | _ => false

/-- Bits of `FLAGS` that an opcode uses. -/
def flagBits (op : Nat) : Nat := match op with
  | 2 => 1
  | 4 => 0xFF
  | 5 => 0xFD
  | 6 => 1
  | _ => 0

/-! ### Ranges (R146, detail 0x05) -/

/-- Words `r` lie inside a unit's range. -/
def UnitCfg.owns (u : UnitCfg) (r : Nat × Nat) : Bool := decide (u.storeFirst ≤ r.1 ∧ r.2 ≤ u.storeFirst + u.storeWords)

/-- The store words of a ring. -/
def RingCfg.words (r : RingCfg) : Nat × Nat := (r.base, r.past)

/-- The store words that a step writes; none for a step that writes no store word. -/
def PheSec.writes (t : PheSec) (x : PheStep) : Option (Nat × Nat) :=
  match x.op with
  | 1 => some (t.ring x.b).words
  | 2 => some (t.ring x.b).words
  | 3 => some (t.ring x.c).words
  | 4 => some (x.c, x.c + 2)
  | 5 => some (x.d, x.d + 2)
  | 6 => some (x.b, x.b + (if x.flags.testBit 0 then 2 else 6))
  | 7 => some (x.c, x.c + 2)
  | _ => none

/-- One round of the trace from FILT back through the rings: a ring that DEMOD or DECIM reads serves the units of the ring
that they write. -/
def PheSec.traceRound (t : PheSec) (l : List (Nat × Nat)) : List (Nat × Nat) :=
  t.steps.foldl (fun l x =>
    let into := if x.op = 2 then some x.b else if x.op = 3 then some x.c else none
    match into with
    | some r => (l.filter (·.1 == r)).foldl (fun l p => if l.contains (x.a, p.2) then l else (x.a, p.2) :: l) l
    | none => l) l

/-- The units that the rings serve, as pairs of ring and unit: FILT's ring serves the unit that it names. -/
def PheSec.ringUnits (t : PheSec) : List (Nat × Nat) :=
  (List.range t.rings.length).foldl (fun l _ => t.traceRound l) ((t.steps.filter (·.op == 4)).map fun x => (x.a, x.flags / 4))

/-- The store words that SYMC and POWER read. -/
def PheStep.reads (x : PheStep) : List (Nat × Nat) :=
  match x.op with
  | 6 => [(x.a, x.a + 6)]
  | 7 => [(x.a, x.a + 2 * x.len), (x.b, x.b + 2 * x.len)]
  | _ => []

/-- The units whose FILT steps write one of these words. -/
def PheSec.filtUnits (t : PheSec) (l : List (Nat × Nat)) : List Nat :=
  (t.steps.filter fun y => y.op == 4 && l.any (meets (y.c, y.c + 2))).map (·.flags / 4)

/-- The units that a step's writes serve (R146): those that FILT and FREQ name; of a ring, those it leads to; of SYMC and
POWER, those of the phasors they read and of the FREQ steps that read what they write (log entry 101, DEDUCED). -/
def PheSec.serves (t : PheSec) (x : PheStep) : List Nat :=
  let ring (r : Nat) : List Nat := (t.ringUnits.filter (·.1 == r)).map (·.2)
  let made := match t.writes x with
    | some r => (t.steps.filter fun y => y.op == 5 && [(y.a, y.a + 2), (y.b, y.b + 2), (y.c, y.c + 2)].any (meets r)).map (·.flags / 4)
    | none => []
  let sequences := (t.steps.filter fun y => y.op == 6 && match t.writes y with
    | some r => x.reads.any (meets r)
    | none => false).flatMap fun y => t.filtUnits y.reads
  match x.op with
  | 1 => ring x.b
  | 2 => ring x.b
  | 3 => ring x.c
  | 4 => [x.flags / 4]
  | 5 => [x.flags / 4]
  | 6 => t.filtUnits x.reads ++ made
  | 7 => t.filtUnits x.reads ++ sequences
  | _ => []

/-- The step writes outside the range of the unit its writes serve; one whose writes lead to no unit must write inside some
one unit's. -/
def PheSec.outOfRange (t : PheSec) (x : PheStep) : Bool :=
  match t.writes x with
  | none => false
  | some r =>
    let us := t.serves x
    if us.isEmpty then !(t.units.any fun u => u.owns r)
    else !(us.any fun i => (t.units.getD i {}).owns r)

/-! ### Units and streams -/

/-- A unit's class, rate or f₀ is outside the table of R151. -/
def UnitCfg.badRate (u : UnitCfg) : Bool :=
  decide (1 < u.f0 ∨ 1 < u.cls ∨ 11 < u.rate) || (u.cls == 1 && decide ((if u.f0 = 0 then 100 else 120) < rateOf u.rate))

/-- A kept unit differs from the generation in force (R149, detail 0x0B): its f₀, its range, the rings inside it. -/
def keepBad (t base : PheSec) (i : Nat) : Bool :=
  let u := t.units.getD i {}
  match base.units[i]? with
  | none => true
  | some v => u.f0 != v.f0 || u.storeFirst != v.storeFirst || u.storeWords != v.storeWords
      || t.rings.filter (fun r => u.owns r.words) != base.rings.filter (fun r => u.owns r.words)

/-- The arrays of the section: where each stands and how long it is. -/
def pheSpans (b : List Byte) : List (Nat × Nat) :=
  let sp (o n : Nat) : Nat × Nat := (u32 b o, u32 b o + n)
  ([sp 0xC (32 * u16 b 0), sp 0x10 (32 * u8 b 2), sp 0x14 (8 * u16 b 4), sp 0x18 (128 * u8 b 3), sp 0x1C (4 * u32 b 8)]).filter
    fun r => decide (r.1 < r.2)

/-- The header of `PHE_TABLE` breaks R145. -/
def pheHeaderBad (b : List Byte) : Bool :=
  let sp := pheSpans b
  decide (b.length < 64 ∨ u16 b 0 < 1 ∨ 8192 < u16 b 0 ∨ 64 < u8 b 2 ∨ 64 < u8 b 3 ∨ 4096 < u16 b 4 ∨ 65536 < u32 b 8)
    || nz b 6 2 || nz b 0x20 32 || (List.range 5).any (fun k => u32 b (0xC + 4 * k) % 8 != 0)
    || sp.any (fun r => decide (r.1 < 64 ∨ b.length < r.2))
    || (List.range sp.length).any fun i => (sp.take i).any (meets (sp.getD i (0, 0)))

/-- A stream entry (R147, R149). -/
def checkStream (b : List Byte) (t : PheSec) (i o : Nat) : Option Fail :=
  let x := t.streams.getD i {}
  let span (at' : Nat) : Bool := decide (u32 b (o + at') % 8 = 0 ∧ 64 ≤ u32 b (o + at') ∧ u32 b (o + at') + u32 b (o + at' + 4) ≤ b.length)
  firstOf
    [badIf (nz b (o + 0xE) 2 || nz b (o + 0x70) 16 || !span 0x60 || !span 0x68) 1 o,
     badIf (decide (x.idcode < 1 ∨ 65534 < x.idcode ∨ x.host < 1 ∨ 3 < x.host ∨ 2 < x.mode ∨ 1 < x.role ∨ 1 < x.start ∨ 1 < x.timeBase)
       || (x.start == 1 && x.mode == 0) || (t.streams.take i).any (fun y => y.idcode == x.idcode)) 1 o,
     badIf (decide (x.units.length < 1) || x.units.any fun u => decide (t.units.length ≤ u)) 1 (o + 0x20),
     badIf (decide (11 < x.rate) || x.units.any fun u => (t.units.getD u {}).rate != x.rate) 6 (o + 4),
     badIf (!cfgGood t x false x.cfg2) 7 (o + 0x60), badIf (!cfgGood t x true x.cfg3) 7 (o + 0x68),
     badIf (x.mode != 0 && decide (1472 < x.bodyLen + 16 ∨ 1472 < x.cfg2.length ∨ 1472 < x.cfg3.length)) 9 o]

/-- A PUB step writes outside its stream's body, or over a STAT field or the status word (R149, detail 0x08). -/
def PheSec.pubBad (t : PheSec) (x : PheStep) : Bool :=
  let s := t.streams.getD x.b {}
  let r := (x.d, x.d + x.pubBytes)
  x.op == 9 && (decide (s.bodyLen < r.2) || s.blocks.any fun k => meets r (k.1, k.1 + 2) || meets r (k.1 + k.2 - 2, k.1 + k.2))

/-- `PHE_TABLE` by itself. -/
def checkPhe (cx : CheckCtx) (b : List Byte) : Option Fail :=
  if pheHeaderBad b then some (0x12, 1, 0)
  else
    let t := parsePhe b
    let stepOff := u32 b 0xC
    let unitOff := u32 b 0x10
    let ringOff := u32 b 0x14
    let strOff := u32 b 0x18
    firstOf
      [eachOf t.rings.length fun i => badIf (t.ring i).bad 2 (ringOff + 8 * i),
       eachOf t.units.length fun i =>
        let u := t.units.getD i {}
        let o := unitOff + 32 * i
        firstOf
         [badIf (nz b (o + 5) 3 || nz b (o + 0x14) 12 || decide (1 < u8 b (o + 3) ∨ u.phasors < 1 ∨ 32 < u.phasors)) 1 o,
          badIf (decide (262144 < u.storeFirst + u.storeWords)
            || (t.units.take i).any fun v => meets (u.storeFirst, u.storeFirst + u.storeWords) (v.storeFirst, v.storeFirst + v.storeWords)) 5 o,
          badIf u.badRate 6 o,
          badIf (u.keep && (match cx.base with
            | some g => keepBad t g.phe i
            | none => false)) 0xB o],
       eachOf t.streams.length fun i => checkStream b t i (strOff + 128 * i),
       eachOf t.steps.length fun i =>
        let x := t.steps.getD i {}
        let o := stepOff + 32 * i
        firstOf
         [badIf (nz b (o + 0x18) 8 || decide (x.op ≤ 10 ∧ x.flags &&& (255 - flagBits x.op) ≠ 0)) 1 o,
          badIf (!t.operandsFit x) 2 o,
          badIf (decide (x.mod < 1 ∨ 14400 % x.mod ≠ 0 ∨ x.mod ≤ x.phase) || (x.op == 3 && x.mod != (t.ring x.c).stride)) 3 o,
          badIf (t.outOfRange x) 5 o,
          badIf (t.pubBad x) 8 o,
          badIf (x.op == 8 && (decide (7167 < x.b) || (t.steps.take i).any fun y => y.op == 8 && y.b == x.b)) 0xC o],
       badIf ((List.range 14400).any fun g => decide (34000 < ((t.steps.filter fun x => g % x.mod == x.phase).map PheStep.cost).sum)) 4 0]

/-! ### A section by its type (R48 step 4) -/

/-- `ASYMMETRY` (R78). -/
def checkAsym (b : List Byte) : Option Fail := badIf (b.length != 792) 1 0

/-- The content check of one section by itself. A section of an optional unit needs that unit declared (R42). -/
def checkSection (cx : CheckCtx) (ty : Nat) (b : List Byte) : Option Fail :=
  match ty with
  | 0x01 => checkPorts b
  | 0x02 => checkStations b
  | 0x03 => checkPoints cx b
  | 0x04 => checkSv cx b
  | 0x05 => if cx.unitUse.testBit 0 then checkPhe cx b else some (0x11, 0, 0)
  | 0x06 => if cx.unitUse.testBit 1 then checkTopo b else some (0x11, 0, 0)
  | 0x07 => checkTasks cx b
  | 0x08 => checkCode b
  | 0x09 => checkInsts cx b
  | 0x0A => checkImages b
  | 0x0B => checkBudgets b
  | 0x0C => checkPower b
  | 0x0D => checkMap b
  | 0x0E => checkWards b
  | 0x0F => checkCentral b
  | 0x10 => checkLimits b
  | 0x11 => checkField cx b
  | 0x12 => checkPtp b
  | 0x13 => checkAsym b
  | 0x14 => checkPair b
  | _ => none

end Sys2Proof.Machine
end

