-- ==== Sys2Proof/Machine/Cross.lean ====
section
/-! DEFINITION. The cross-section checks of R51, over a full stream or the merged result of a delta. -/

namespace Sys2Proof.Machine

open Sys2Proof

/-- A cross-section fault: code, reported section, detail, and the entry at fault as (section that holds it, offset in
that section). -/
structure CrossFault where
  code : Nat := 0x12
  sec : Nat := 0
  detail : Nat := 0
  home : Nat := 0
  rel : Nat := 0
  deriving DecidableEq, Repr, Inhabited

/-- A fault of `SECTION_CONTENT` in the section's own entry. -/
def crossIf (c : Bool) (sec detail rel : Nat) : Option CrossFault := if c then some { sec := sec, detail := detail, home := sec, rel := rel } else none

/-- A fault whose referring entry lies in another section. -/
def crossIn (c : Bool) (sec detail home rel : Nat) : Option CrossFault :=
  if c then some { sec := sec, detail := detail, home := home, rel := rel } else none

/-- The first fault. -/
def firstFault (l : List (Option CrossFault)) : Option CrossFault := l.findSome? id

/-- The first fault over entries 0 to n − 1. -/
def eachFault (n : Nat) (f : Nat → Option CrossFault) : Option CrossFault := (List.range n).findSome? f

/-- What the checks look at: the generation under test, the bytes of each of its sections, and whether each section is
there. -/
structure CrossCtx where
  g : Generation := {}
  parts : List (Nat × List Byte) := []
  deriving DecidableEq, Repr, Inhabited

/-- The bytes of a section. -/
def CrossCtx.raw (x : CrossCtx) (ty : Nat) : List Byte := ((x.parts.find? (·.1 == ty)).map (·.2)).getD []

/-- A section is there. -/
def CrossCtx.has (x : CrossCtx) (ty : Nat) : Bool := x.parts.any (·.1 == ty)

/-- The entry of a port. -/
def Generation.port (g : Generation) (p : Nat) : PortCfg := g.ports.ports.getD p {}

/-- The upper lane of a PRP pair (R96). -/
def Generation.upper (g : Generation) (p : Nat) : Bool := decide (32 ≤ p) && (g.port (p - 32)).prp

/-- A port that cannot be named: off, or the upper lane of a pair. -/
def Generation.badPort (g : Generation) (p : Nat) : Bool := (g.port p).mode == 0 || g.upper p

/-- Wire bytes of a frame of the station protocol with `n` payload bytes on a port (R101, R108). -/
def Generation.frameWire (g : Generation) (p n : Nat) : Nat :=
  let e := g.port p
  max 64 (14 + (if e.tagged then 4 else 0) + 16 + n + 4 + (if e.prp then 6 else 0)) + 20

/-- Wire bytes of the cycle EXCHANGE of a stream (R102). -/
def Generation.outWire (g : Generation) (t : Nat) (x : StationCfg) : Nat := g.frameWire x.port (16 + 4 * (g.streamOuts t x.number).length)

/-- Wire bytes of the REPLY of a stream (R102). -/
def Generation.inWire (g : Generation) (t : Nat) (x : StationCfg) : Nat := g.frameWire x.port (20 + 16 * (g.streamIns t x.number).length)

/-- A task goes before another in dispatch: rank, then number (R110). -/
def taskBefore (a b : TaskCfg) : Bool := decide (a.rank < b.rank ∨ (a.rank = b.rank ∧ a.task < b.task))

/-- A task put in its place in dispatch order. -/
def insertTask (x : TaskCfg) : List TaskCfg → List TaskCfg
  | [] => [x]
  | y :: t => if taskBefore x y then x :: y :: t else y :: insertTask x t

/-- The tasks in dispatch order. -/
def Generation.ordered (g : Generation) : List TaskCfg := g.tasks.foldl (fun l x => insertTask x l) []

/-- The streams of a port in dispatch order: rank, task, station. -/
def Generation.portStreams (g : Generation) (p : Nat) : List (TaskCfg × StationCfg) :=
  g.ordered.flatMap fun t => ((g.stations.filter fun x => x.port == p).filter fun x => g.maps t.task x.number).map fun x => (t, x)

/-! ### BUDGET_SHORT (R27, R116) -/

/-- Bytes a port's budget must cover in a period. -/
def Generation.portNeed (g : Generation) (p : Nat) : Nat :=
  ((g.portStreams (if g.upper p then p - 32 else p)).map fun x => g.outWire x.1.task x.2).sum + 1542 + 640

/-- The budget of every port that is on. -/
def checkPortBudgets (g : Generation) : Option CrossFault :=
  eachFault 64 fun p =>
    if (g.port p).mode != 0 && decide (g.budgets.ports.getD p 0 < g.portNeed p) then
      some { code := 0x15, sec := 0xB, home := 0xB, rel := 0x210 + 4 * p }
    else none

/-! ### STATIONS (R100, R108) -/

/-- Picoseconds a wire byte takes on a port (R108). -/
def Generation.bytePs (g : Generation) (p : Nat) : Nat := if (g.port p).mode = 2 then 3200 else 8000

/-- The running sums of the bytes sent up to and including each stream. -/
def runningSums : Nat → List Nat → List Nat
  | _, [] => []
  | n, x :: t => (n + x) :: runningSums (n + x) t

/-- The deadline bound of a task on a port fails (R108), in picoseconds. -/
def Generation.lateOn (g : Generation) (p : Nat) (t : TaskCfg) : Bool :=
  let l := g.portStreams p
  let sums := runningSums (1542 + 280) (l.map fun x => g.outWire x.1.task x.2)
  let mine := (l.zip sums).filter fun x => x.1.1.task == t.task
  let e (x : (TaskCfg × StationCfg) × Nat) : Nat := 1000000 + x.2 * g.bytePs p + (2 * x.1.2.pathDelay + x.1.2.respTime) * 1000
  let worst := mine.foldl (fun m x => max m (e x)) 0
  let win := (mine.map fun x => g.inWire t.task x.1.2).sum * g.bytePs p
  !mine.isEmpty && decide (t.deadline * 1000 < worst + win)

/-- `STATIONS` against the other sections. -/
def crossStations (g : Generation) : Option CrossFault :=
  eachFault g.stations.length fun i =>
    let x := g.stations.getD i {}
    let o := 16 + 32 * i
    let ts := g.tasks.filter fun t => g.maps t.task x.number
    let slow := ts.foldl (fun m t => max m t.period) 0
    firstFault
      [crossIf (g.badPort x.port) 2 0x12 o,
       crossIf (!ts.isEmpty && decide (x.wdgTime < 2 * slow + 4)) 2 0x15 o,
       crossIf (decide (4 < ts.length) || ts.any fun t => decide (88 < (g.streamIns t.task x.number).length ∨ 360 < (g.streamOuts t.task x.number).length)) 2 0x16 o,
       crossIf (ts.any fun t => g.lateOn x.port t) 2 0x17 o]

/-! ### POINTS, SV_SUBS, PHE_TABLE, TOPOLOGY -/

/-- A task is in `TASKS`. -/
def Generation.hasTask (g : Generation) (t : Nat) : Bool := g.tasks.any (·.task == t)

/-- `POINTS` (R201, R220). -/
def crossPoints (g : Generation) : Option CrossFault :=
  eachFault g.points.length fun i =>
    let p := g.points.getD i {}
    let o := 16 + 16 * i
    firstFault
      [crossIf (!g.hasTask p.task) 3 0x22 o,
       crossIf (decide (p.kind ≤ 1) && !(g.stations.any fun x => x.number == p.source % 65536)) 3 0x23 o,
       crossIf (p.kind == 4 && p.source % (g.fieldIo.dout.getD p.source (1, false)).1 != 0) 3 0x24 o]

/-- `SV_SUBS` (R119). -/
def crossSv (g : Generation) : Option CrossFault :=
  let s := g.sv
  firstFault
    [eachFault s.subs.length fun i => crossIf (g.badPort (s.subs.getD i {}).port) 4 3 (32 + 64 * i),
     crossIf (s.archSegments != 0 && !g.memmap.allCode s.archFirst s.archSegments 1) 4 7 8,
     crossIn (s.archSegments != 0 && decide ((g.budgets.slots.getD 21 (0, 0)).1 < 8 * s.channels)) 4 8 0xB (0x10 + 8 * 21)]

/-- `D` of the COMMIT steps of a stream. -/
def PheSec.commitDelays (t : PheSec) (i : Nat) : List Nat := (t.steps.filter fun x => x.op == 10 && x.b == 1 && x.c == i).map (·.d)

/-- The latency check of R166 fails for a stream with a COMMIT delay, in units of 1/14,400 ns. -/
def tooSlow (g : Generation) (x : StreamCfg) (d : Nat) : Bool :=
  let window := x.units.foldl (fun m u => max m (g.phe.units.getD u {}).window) 0
  decide ((window * 1000 + 2000000) * 14400 < d * 1000000000 + (g.sv.alignLatency + 150000) * 14400)

/-- Bytes that the streams of a host port need in one period. -/
def Generation.pubNeed (g : Generation) (host : Nat) : Nat := ((g.phe.streams.filter fun x => x.host.testBit host).map fun x => x.bodyLen + 16).sum

/-- `PHE_TABLE` (R149, R166). -/
def crossPhe (x : CrossCtx) : Option CrossFault :=
  let g := x.g
  let t := g.phe
  let slot (i : Nat) : Nat := (g.budgets.slots.getD i (0, 0)).1
  if !x.has 5 || !g.unitUse.testBit 0 then none
  else firstFault
    [eachFault t.streams.length fun i =>
      crossIf ((t.commitDelays i).any fun d => tooSlow g (t.streams.getD i {}) d) 5 0xA (u32 (x.raw 5) 0x18 + 128 * i),
     eachFault g.points.length fun i =>
      let p := g.points.getD i {}
      crossIn (p.kind == 2 && decide (p.source < 7168) && !(t.steps.any fun y => y.op == 8 && y.b == p.source)) 5 0xC 3 (16 + 16 * i),
     crossIn (decide (slot 16 < 2)) 5 0xD 0xB (0x10 + 8 * 16),
     eachFault 2 fun h => crossIn (decide (slot (17 + h) < g.pubNeed h)) 5 0xD 0xB (0x10 + 8 * (17 + h))]

/-- `TOPOLOGY` (R177). -/
def crossTopo (x : CrossCtx) : Option CrossFault :=
  let g := x.g
  let t := g.topo
  if !x.has 6 || !g.unitUse.testBit 1 then none
  else firstFault
    [eachFault t.terms.length fun i => crossIf (!(g.stations.any fun y => y.number == (t.terms.getD i {}).station)) 6 4 (0x20 + 32 * i),
     crossIn (decide ((g.budgets.slots.getD 20 (0, 0)).1 < t.budgetMin)) 6 6 0xB (0x10 + 8 * 20),
     eachFault g.points.length fun i =>
      let p := g.points.getD i {}
      crossIn (p.kind == 2 && decide (7168 + 4 * t.segs.length ≤ p.source)) 6 7 3 (16 + 16 * i)]

/-! ### TASKS, INSTANCES, IMAGES (R220) -/

/-- The instance at an address of the region. -/
def Generation.instAt (g : Generation) (addr : Nat) : Option InstCfg := g.insts.insts.find? (·.addr == addr)

/-- A call entry that does not match `CODE` and `INSTANCES`. -/
def Generation.callBad (g : Generation) (t : Nat) (c : CallCfg) : Bool :=
  !g.codeEntries.contains c.codeOff || (match g.instAt c.inst with
    | some i => i.task != t || i.blockType != c.blockType
    | none => true)

/-- RETAIN bytes of a task. -/
def Generation.retainOf (g : Generation) (t : Nat) : Nat := ((g.taskInsts t).map (·.retainLen)).sum

/-- RETAIN bytes copied up to and including a task (R217 step 3). -/
def Generation.retainUpTo (g : Generation) (t : TaskCfg) : Nat :=
  ((g.tasks.filter fun x => decide (x.period < t.period ∨ (x.period = t.period ∧ x.task ≤ t.task))).map fun x => g.retainOf x.task).sum

/-- `TASKS` (R197, R206, R217). -/
def crossTasks (x : CrossCtx) : Option CrossFault :=
  let g := x.g
  let b := x.raw 7
  let spent (i : Nat) : Nat := ((g.tasks.take (i + 1)).map fun t => (g.budgets.slots.getD t.task (0, 0)).1).sum
  let earlier (i : Nat) : List Nat := (g.tasks.take i).flatMap fun t => t.calls.map (·.inst)
  firstFault
    [eachFault g.tasks.length fun i =>
      let t := g.tasks.getD i {}
      firstFault
        [eachFault t.calls.length fun k =>
          let c := t.calls.getD k {}
          crossIf (g.callBad t.task c || ((t.calls.take k).any fun y => y.inst == c.inst) || (earlier i).contains c.inst) 7 0x33
            (u32 b (16 + 32 * i + 0xC) + 16 * k),
         crossIf (decide (100000 < spent i ∨ 800000 * t.period < g.retainUpTo t)) 7 0x34 (16 + 32 * i)],
     crossIf (g.insts.insts.any fun i => !((earlier g.tasks.length).contains i.addr)) 7 0x33 0]

/-- Carry bytes of a task up to and including record `k`. -/
def InstSec.carried (s : InstSec) (k : Nat) : Nat :=
  (((s.carries.take (k + 1)).filter fun c => c.task == (s.carries.getD k {}).task).map (·.len)).sum

/-- `INSTANCES` (R207, R215). -/
def crossInsts (x : CrossCtx) : Option CrossFault :=
  let g := x.g
  let s := g.insts
  firstFault
    [crossIf (!g.memmap.allCode s.baseUnit s.units 0 || g.memmap.code s.shadowUnit != 0 || unitsMeet s.baseUnit s.units s.shadowUnit 1) 9 0x42 4,
     eachFault s.carries.length fun k =>
      let c := s.carries.getD k {}
      crossIf (match g.tasks.find? (·.task == c.task) with
        | some t => decide (6400 * (t.period * 125000 - t.deadline - 17000) < s.carried k * 1000)
        | none => true) 9 0x44 (u32 (x.raw 9) 0x10 + 16 * k)]

/-- A point may stand in a list of a task. -/
def Generation.listed (g : Generation) (t : Nat) (kinds : List Nat) (n : Nat) : Bool :=
  match g.points[n]? with
  | some p => p.task == t && kinds.contains p.kind
  | none => false

/-- A byte range lies in STRONG units, inside memory. -/
def MapSec.strong (m : MapSec) (r : Nat × Nat) : Bool :=
  decide (r.2 ≤ memSize) && m.allCode (unitOf r.1) (unitOf (r.2 - 1) + 1 - unitOf r.1) 0

/-- `IMAGES` (R202). -/
def crossImages (x : CrossCtx) : Option CrossFault :=
  let g := x.g
  let unit (u : Nat) : Nat := u * 0x4000000
  let kept := [(unit g.insts.baseUnit, unit (g.insts.baseUnit + g.insts.units)), (unit g.insts.shadowUnit, unit (g.insts.shadowUnit + 1))]
  let before (t : Nat) : List Nat := (g.images.descs.take t).flatMap fun d => d.inList ++ d.outList
  firstFault
    [eachFault 16 fun t =>
      let d := g.desc t
      let o := 0x20 + 32 * t
      let all := d.inList ++ d.outList
      firstFault
        [crossIf (!g.hasTask t && nz (x.raw 0xA) o 32) 0xA 0x50 o,
         crossIf (d.inList.any (fun n => !g.listed t [0, 2, 3] n) || d.outList.any (fun n => !g.listed t [1, 4, 5] n)
           || !noRepeats all || all.any (before t).contains) 0xA 0x51 o,
         crossIf (d.spans.any fun r => !g.memmap.strong r || kept.any (meets r)) 0xA 0x52 o],
     crossIf ((List.range g.points.length).any fun n => !((before 16).contains n)) 0xA 0x51 0]

/-! ### BUDGETS, WARDS, CENTRAL, FIELD_IO -/

/-- The highest port budget of a speed (R238). -/
def portMax (mode : Nat) : Nat := if mode = 1 then 15625 else if mode = 2 then 39062 else 0

/-- `BUDGETS` (R241). -/
def crossBudgets (g : Generation) : Option CrossFault :=
  firstFault
    [crossIf ((g.budgets.slots.getD 19 (0, 0)).1 != if g.pair.mode = 1 then 393216 else 0) 0xB 3 (0x10 + 8 * 19),
     eachFault 64 fun p => crossIf (decide (portMax (g.port p).mode < g.budgets.ports.getD p 0)) 0xB 3 (0x210 + 4 * p)]

/-- A number put in its place in a rising list. -/
def insertNat (n : Nat) : List Nat → List Nat
  | [] => [n]
  | m :: t => if n < m then n :: m :: t else if n = m then m :: t else m :: insertNat n t

/-- The addresses (in 64-byte units) of a ward where the access of some identity may change. -/
def wardCuts (g : Generation) (w : Nat) : List Nat :=
  let sp := wardSpan w
  let spare := g.memmap.spareUnit * 0x100000
  let rs := ((g.wards.getD w []).filter fun r => r.len64 != 0).flatMap fun r => [r.base64, r.base64 + r.len64]
  let cs := (g.central.filter fun r => r.space == 0).flatMap fun r => [r.base / 64, r.base / 64 + r.len64]
  (([sp.1, spare, spare + 0x100000] ++ rs ++ cs).filter fun a => decide (sp.1 ≤ a ∧ a < sp.2)).foldl (fun l a => insertNat a l) []

/-- `WARDS` against `CENTRAL` and `MEMMAP` (R298, R26), in entry order: the addresses that a region decides count for its
entry, those that none decides for the first entry of the ward. -/
def crossWards (g : Generation) : Option CrossFault :=
  let spare := g.memmap.spareUnit * 0x100000
  eachFault 8 fun w =>
    let rs := g.wards.getD w []
    let cuts := (wardCuts g w).map fun a => (a, decidingRegion rs (64 * a))
    eachFault 8 fun k =>
      let mine := cuts.filter fun c => c.2.getD 0 == k
      let region (c : Nat × Option Nat) : Region := match c.2 with
        | some i => rs.getD i {}
        | none => {}
      let ten (a : Nat) : Bool := g.central.any fun q => q.covers 0 (64 * a) && q.write.testBit 10
      let rel := 0x10 + 128 * w + 16 * k
      firstFault
        [crossIf (mine.any fun c => (maskHas (region c).write 0x1F || ten c.1) && maskHas (region c).write 0x200E0) 0xE 4 rel,
         crossIf (mine.any fun c => !(region c).read.testBit 15 && !decide (spare ≤ c.1 ∧ c.1 < spare + 0x100000)) 0xE 5 rel]

/-- The rules for identity 13 reach from `pos`, one after the other. -/
def grantedTo (g : Generation) : Nat → Nat → Nat
  | 0, pos => pos
  | n + 1, pos =>
    match g.central.find? fun r => r.read.testBit 13 && r.write.testBit 13 && r.covers 0 pos with
    | some r => grantedTo g n (r.base + 64 * r.len64)
    | none => pos

/-- `CENTRAL` (R303): identity 13 reads and writes the whole staging region. -/
def crossCentral (g : Generation) : Option CrossFault :=
  let lo := g.memmap.stageFirst * 0x4000000
  crossIf (decide (grantedTo g g.central.length lo < lo + 16 * 0x4000000)) 0xF 4 0

/-- `FIELD_IO` (R383). -/
def crossField (g : Generation) : Option CrossFault :=
  eachFault g.points.length fun i =>
    let p := g.points.getD i {}
    crossIn ((p.kind == 3 && (g.fieldIo.di.getD p.source (0, 0, 0)).1 == 0) || (p.kind == 5 && g.fieldIo.ao.getD p.source 0 == 0)) 0x11 4 3 (16 + 16 * i)

/-! ### The checks in order (R51) -/

/-- A header fault of R42, at the field `UNIT_USE`. -/
def unitFault (code : Nat) : CrossFault := { code := code, home := 0, rel := 0xC }

/-- The checks of R42 against a merged result. -/
def crossUnits (x : CrossCtx) : Option CrossFault :=
  let g := x.g
  let use := g.unitUse
  if g.points.any (·.undeclared use) || (g.fieldIo.ao.any (· != 0) && !use.testBit 2) then some (unitFault 0x11)
  else if (use.testBit 0 && !x.has 5) || (use.testBit 1 && !x.has 6) then some (unitFault 0x0B)
  else none

/-- The cross-section checks; `delta` adds those of R42. -/
def crossChecks (delta : Bool) (x : CrossCtx) : Option CrossFault :=
  let g := x.g
  firstFault
    [if delta then crossUnits x else none, checkPortBudgets g, crossStations g, crossPoints g, crossSv g, crossPhe x, crossTopo x,
     crossTasks x, crossInsts x, crossImages x, crossBudgets g, crossWards g, crossCentral g, crossField g]

/-! ### Checking a stored stream, and merging a delta (R46, R47, R48) -/

/-- The offset that a cross-section fault reports in a loaded stream (R51). -/
def CrossFault.offset (f : CrossFault) (dir : List DirEntry) : Nat :=
  if f.home = 0 then f.rel
  else match dir.find? (·.ty == f.home) with
    | some e => e.off + f.rel
    | none => 0xFFFFFFFF

/-- The digest of a stream: SHA-384 over the whole, with the field taken as zero (R39). -/
def streamDigest (b : List Byte) : List Byte := sha384 (b.take 0x30 ++ List.replicate 48 0 ++ b.drop 0x60)

/-- The sections of a stream by type. -/
def sectionParts (b : List Byte) : List (Nat × List Byte) := (directory b).map fun e => (e.ty, e.bytes b)

/-- A section put in its place by type, replacing an old one of the type. -/
def insertPart (p : Nat × List Byte) : List (Nat × List Byte) → List (Nat × List Byte)
  | [] => [p]
  | q :: t => if p.1 < q.1 then p :: q :: t else if p.1 = q.1 then p :: t else q :: insertPart p t

/-- The sections of a delta over its base, by ascending type; the own section of a unit that the delta takes out of use is
left out (R42, R46). -/
def mergeParts (use : Nat) (base delta : List (Nat × List Byte)) : List (Nat × List Byte) :=
  let l := (base ++ delta).foldl (fun l p => insertPart p l) []
  l.filter fun p => !((p.1 == 5 && !use.testBit 0) || (p.1 == 6 && !use.testBit 1))

/-- Sections as a full stream stores them: no carry records (R208). -/
def storedParts (l : List (Nat × List Byte)) : List (Nat × List Byte) :=
  l.map fun p => if p.1 = 9 then (9, overlay p.2 0x10 (List.replicate 8 0)) else p

/-- The body of a stream that is assembled: its directory entries and section bytes from offset `pos` on. -/
def assembleParts : Nat → List (Nat × List Byte) → List Byte × List Byte
  | _, [] => ([], [])
  | pos, p :: t =>
    let size := roundUp p.2.length 64
    let rest := assembleParts (pos + size) t
    let entry := natLe p.1 2 ++ natLe 0 2 ++ natLe pos 4 ++ natLe p.2.length 4 ++ natLe 0 4 ++ (sha384 p.2).take 16
    (entry ++ rest.1, p.2 ++ List.replicate (if t.isEmpty then 0 else size - p.2.length) 0 ++ rest.2)

/-- The merged full stream (R46): `KIND` 1, the delta's `GENERATION`, the sections from 0x1000 on, the digest computed. -/
def assembleStream (hdr : List Byte) (parts : List (Nat × List Byte)) : List Byte :=
  let body := assembleParts 0x1000 parts
  let head := hdr.take 6 ++ natLe 1 2 ++ slice hdr 8 16 ++ natLe 0 4 ++ natLe (0x1000 + body.2.length) 4 ++ natLe 0x80 4
    ++ natLe parts.length 2 ++ List.replicate 10 0 ++ List.replicate 48 0 ++ List.replicate 32 0
  let b := head ++ body.1 ++ List.replicate (0x1000 - 128 - body.1.length) 0 ++ body.2
  overlay b 0x30 (sha384 b)

end Sys2Proof.Machine
end

