-- ==== Sys2Proof/Machine/Fio.lean ====
section
/-! DEFINITION. The commands of the local field inputs and outputs (chapter 18). -/

namespace Sys2Proof.Machine

open Sys2Proof

/-- A stamp truncated to whole microseconds (R371). -/
def truncUs (t : Nat) : Nat := t / usTicks 1 * usTicks 1

/-- A digital input takes a level (R371, R373). -/
def acceptDi (i : Nat) (level : Bool) (stamp : Nat) (s : State) : State :=
  let x := s.fio.di.getD i {}
  if (s.diCfg i).1 = 0 ∨ x.broken ∨ x.level = level then s
  else modDi i (fun y => { y with level := level, changes := (y.changes + 1) % 65536, stamp := truncUs stamp }) s

/-- DI_CHANGE_ACCEPT (R371): the level of the run that began at `stamp`, once it has held for the filter time. -/
def execDiChangeAccept (w : When) (ch : Fin 16) (level : Bool) (stamp : Nat) (s : State) : Result :=
  let s := s.at w
  .next (if stamp + usTicks (100 * (s.diCfg ch.val).2.1) ≤ s.now then acceptDi ch.val level stamp s else s)

/-- DI_WIRE_BREAK (R373). -/
def execDiWireBreak (w : When) (ch : Fin 16) (s : State) : Result :=
  let s := s.at w
  let c := s.diCfg ch.val
  .next (if c.1 ≠ 0 ∧ c.2.2 = 1 then fioRefresh (modDi ch.val (fun x => { x with broken := true }) s) else s)

/-- DI_WIRE_BREAK_CLEAR (R373). -/
def execDiWireBreakClear (w : When) (ch : Fin 16) (s : State) : Result :=
  .next (fioRefresh (modDi ch.val (fun x => { x with broken := false }) (s.at w)))

/-- One value of a dispatched set at the local outputs, keyed 16 × kind + channel: a DO's bit 0, an AO's µA (R374,
R377). -/
def applyPoint (p : Nat × Nat) (s : State) : State :=
  if p.1 / 16 = 4 then applyDo (p.1 % 16) (p.2.testBit 0) s
  else if p.1 / 16 = 5 then applyAo (p.1 % 16) p.2 s
  else s

/-- OUTPUT_APPLY (R374, R375, R377): the task's sets whose apply time has come, oldest first. -/
def execOutputApply (w : When) (task : Fin 16) (s : State) : Result :=
  let s := s.at w
  let t := task.val
  let due := if s.stopped then [] else (s.task t).localSets.filter (·.1 ≤ s.now)
  let s := modTask t (fun x => { x with localSets := x.localSets.filter (fun p => !(decide (p.1 ≤ s.now))) }) s
  .next (due.foldl (fun s d => d.2.foldl (fun s p => applyPoint p s) s) s)

/-- DO_TOGGLE_WAIT_END (R375): the channel takes the latest value applied to it, unless a pulse generator owns it (R91). -/
def execDoToggleWaitEnd (w : When) (ch : Fin 8) (s : State) : Result :=
  let s := s.at w
  let j := s.doLeader ch.val
  let x := s.dout j
  let quiet := match x.lastChange with
    | some t => decide (t + toggleTicks ≤ s.now)
    | none => true
  .next (if x.waiting && s.doOwned j then modDo j (fun y => { y with waiting := false }) s
    else if x.waiting && quiet then
      (if x.want = x.driven then modDo j (fun y => { y with waiting := false }) s else driveDo j x.want s)
    else s)

/-- DO_SHUTDOWN (R376): a channel that is on, or its whole group, switches off. -/
def execDoShutdown (w : When) (ch : Fin 8) (s : State) : Result :=
  let s := s.at w
  let j := s.doLeader ch.val
  .next (if (s.dout j).driven then fioRefresh (emit (.dout j false) (modDo j (fun x => { x with shutdown := true }) s)) else s)

/-- DO_RETRY (R376): while commanded on, a shut-down channel tries again; the fault lasts until a retry holds. -/
def execDoRetry (w : When) (ch : Fin 8) (holds : Bool) (s : State) : Result :=
  let s := s.at w
  let j := s.doLeader ch.val
  let x := s.dout j
  .next (if x.shutdown && x.driven && holds && !x.failed then
      fioRefresh (showDo j (modDo j (fun y => { y with shutdown := false }) s))
    else s)

/-- The channel has been off for 20 ms (R376). -/
def State.doOff20 (s : State) (j : Nat) : Bool := !(s.dout j).driven && match (s.dout j).lastChange with
  | some t => decide (t + msTicks 20 ≤ s.now)
  | none => true

/-- DO_MISMATCH (R376): a channel that has been off for 20 ms sees its pin above 12 V, or no longer; a `SHARED` one reports none. -/
def execDoMismatch (w : When) (ch : Fin 8) (present : Bool) (s : State) : Result :=
  let s := s.at w
  let j := s.doLeader ch.val
  .next (if present && (!s.doOff20 j || s.doShared j) then s
    else fioRefresh (modDo j (fun x => { x with mismatch := present }) s))

/-- AO_TERMINAL_FAULT (R379): the channel is high-impedance and in fault. -/
def execAoTerminalFault (w : When) (ch : Fin 4) (s : State) : Result :=
  let s := s.at w
  .next (if s.aoMode ch.val = 0 then s else fioRefresh (emit (.ao ch.val 0) (modAo ch.val (fun x => { x with fault := true }) s)))

/-- AO_TERMINAL_TEST (R379): back in range, driving resumes under the slew limit. -/
def execAoTerminalTest (w : When) (ch : Fin 4) (inRange : Bool) (s : State) : Result :=
  let s := s.at w
  .next (if (s.ao ch.val).fault && inRange then
      fioRefresh (showAo ch.val (modAo ch.val (fun x => { x with fault := false, from10 := 0, fromAt := s.now }) s))
    else s)

/-- A trim (R380): only from the ENGINEER role; out of range is `RANGE`, without the AOB `ABSENT` (R9). -/
def trimAct (ses : Fin 8) (channel which : Nat) (bound v : Int) (get : AoState → Int) (put : AoState → AoState) (s : State) : State :=
  if !s.present 2 then reply ses 5 0 [] s
  else if 3 < channel ∨ v < -bound ∨ bound < v then reply ses 9 0 [] s
  else
    let old := get (s.ao channel)
    let s := aoRedirect channel put s
    let s := when (s.ao channel).driving (showAo channel) s
    reply ses 0 0 [] (ledger 0x1202 0xFFFF [channel, which, sword old, sword v] s)

/-- TRIM_ZERO (R380): ±2,000 units of 0.1 µA. -/
def execTrimZero (w : When) (ses : Fin 8) (channel : Nat) (v : Int) (s : State) : Result :=
  .next (withSession ses 13 3 false (trimAct ses channel 0 2000 v (·.zero) (fun x => { x with zero := v })) (s.at w))

/-- TRIM_SPAN (R380): ±20,000 ppm. -/
def execTrimSpan (w : When) (ses : Fin 8) (channel : Nat) (v : Int) (s : State) : Result :=
  .next (withSession ses 13 3 false (trimAct ses channel 1 20000 v (·.span) (fun x => { x with span := v })) (s.at w))

/-- Commissioning mode is entered (R381): from the host in the ENGINEER role, not while PRIMARY, not for a channel
that is unused or in fault, and not while the mode is in force. -/
def aoCommissionAct (who : Agent) (ch : Nat) (s : State) : State :=
  if hostAtLeast 3 who s && !s.primary && s.aoMode ch != 0 && !(s.ao ch).held && s.fio.comm.isNone then
    ledger 0x1203 0xFFFF [ch, 1, 0] { s with fio := { s.fio with comm := some { ch := ch, lastPress := s.aon } } }
  else s

/-- `FIO_AO_CTRL.END` (R381). -/
def aoCommissionEndAct (who : Agent) (s : State) : State := if hostAtLeast 3 who s then endCommissioning 0 s else s

/-- A button (R381): drives its level under the slew limit, or returns the channel to high impedance. -/
def pressButton (level cmd : Nat) (s : State) : State :=
  match s.fio.comm with
  | none => s
  | some c =>
    if c.level = level then
      aoHighZ c.ch { s with fio := { s.fio with comm := some { c with level := 0, lastPress := s.aon } } }
    else
      let s := aoRedirect c.ch (fun y => { y with cmd := cmd, driving := true }) s
      showAo c.ch { s with fio := { s.fio with comm := some { c with level := level, lastPress := s.aon } } }

/-- ZERO_BUTTON: 4,000 µA. -/
def execZeroButton (w : When) (s : State) : Result := .next (pressButton 1 4000 (s.at w))

/-- SPAN_BUTTON: 20,000 µA. -/
def execSpanButton (w : When) (s : State) : Result := .next (pressButton 2 20000 (s.at w))

/-- COMMISSION_TIMEOUT (R381): 600 s without a press. -/
def execCommissionTimeout (w : When) (s : State) : Result :=
  let s := s.at w
  .next (match s.fio.comm with
    | some c => if c.lastPress + aonSec 600 ≤ s.aon then endCommissioning 1 s else s
    | none => s)

/-- The outputs that are driven carry their states and currents again (R416). -/
def showOutputs (s : State) : State :=
  let s := (List.range 8).foldl (fun s j => if (s.dout j).driven then showDo j s else s) s
  (List.range 4).foldl (fun s c => if (s.ao c).driving then showAo c s else s) s

/-- FIELD_SUPPLY_CHANGE (R376): a supply after the terminal block has been out comes with the block, and its outputs close
again (R416; log entry 141, DESIGN CHOICE). -/
def execFieldSupplyChange (w : When) (mv : Nat) (s : State) : Result :=
  let s := s.at w
  let back := s.fio.unplugged && mv != 0
  .next (fioRefresh (when back showOutputs { s with fio := { s.fio with supplyMv := mv, supplySeen := true, unplugged := s.fio.unplugged && mv == 0 } }))

/-- Without the terminal block the field supply is absent (R376). -/
def supplyOff (s : State) : State := { s with fio := { s.fio with unplugged := true, supplyMv := 0, supplySeen := true } }

/-- TERMINAL_BLOCK_UNPLUG (R416): monitored inputs go to wire break, the others read off, both at once (log entry 141, DESIGN
CHOICE); every output opens its circuit, and the field supply, which comes over the same block, is gone. -/
def execTerminalBlockUnplug (w : When) (s : State) : Result :=
  let s := s.at w
  let s := (List.range 16).foldl (fun s i =>
    if (s.diCfg i).2.2 = 1 then modDi i (fun x => { x with broken := decide ((s.diCfg i).1 ≠ 0) }) s
    else acceptDi i false s.now s) s
  let s := supplyOff s
  .next (fioRefresh (showOutputs s))

end Sys2Proof.Machine
end

