-- ==== Sys2Proof/Machine/MemUnit.lean ====
section
/-! DEFINITION. The commands of the memory controller: the clear, scrubbing, page retirement, the error log
(chapter 12). -/

namespace Sys2Proof.Machine

open Sys2Proof

/-- `MEM_CTRL.CLEAR` (R285): accepted from the firmware in P2 only. -/
def memClearAct (who : Agent) (s : State) : State :=
  if !isFw who then s
  else if s.gen.phase = 2 then modMem (fun m => { m with clearBusy := true, clearDone := false }) s
  else hwSet 0xB0000 7 none (modMem (fun m => { m with clearRefused := true }) s)

/-- MEM_CLEAR_DONE (R285): every line holds zeros under STRONG; P2 ends where the self-test has passed. -/
def execMemClearDone (w : When) (s : State) : Result :=
  let s := s.at w
  .next (if s.mem.clearBusy then
      let s := modMem (fun m => { m with mem := m.mem.clear, clearBusy := false, clearDone := true }) s
      if s.gen.phase = 2 ∧ s.trd.selfPass then { s with gen := { s.gen with phase := 3 } } else s
    else s)

/-- SCRUB_FLOOR (R289): one line, charged to no stall. -/
def execScrubFloor (w : When) (fault : MemFault) (s : State) : Result := .next (scrubNext fault (s.at w))

/-- SCRUB_ABOVE_FLOOR (R289): one more line where stall slot 24 is admitted and has budget; 64 bytes are charged for a line
that is read. -/
def execScrubAboveFloor (w : When) (fault : MemFault) (s : State) : Result :=
  let s := s.at w
  .next (if s.mem.mapApplied && s.slotOpen 24 then
      scrubNext fault (when (!s.scrubSkips (s.scrubFrom s.mem.scrubPos)) (chargeSlot 24 64) s)
    else s)

/-- `MEM_CTRL.SCRUB_LINE` (R290, R294): the line of the writer's own `MEM_SCRUB_LINE`, one that a retirement copy moves
too. -/
def scrubLineAct (who : Agent) (fault : MemFault) (s : State) : State :=
  if fwOrEngineer who s then scrubOne (if isHost who then s.mem.scrubLineHost else s.mem.scrubLineFw) fault s else s

/-- `MEM_CTRL.RETIRE` (R293, R294): the copy starts, or the writer's result says why not. -/
def retireAct (who : Agent) (s : State) : State :=
  if !fwOrEngineer who s then s
  else
    let host := isHost who
    let page := if host then s.mem.retirePageHost else s.mem.retirePageFw
    if !s.mem.mapApplied then setRetireResult host (retireResult 4 0) s
    else if s.mem.retiring.isSome then setRetireResult host (retireResult 3 0) s
    else if 262143 < page ∨ page / 1024 = s.spareUnit then setRetireResult host (retireResult 2 0) s
    else match s.freeSpare with
      | none => setRetireResult host (retireResult 1 0) s
      | some i => modMem (fun m => { m with retiring := some (page, i, host) }) s

/-- One line of the page as the copy reads it (R293): corrections are logged and written corrected, a line that cannot be read
is reported, and what it has lost stays lost in the spare. -/
def retireLine (page : Nat) (faults : List (Nat × MemFault)) (s : State) (k : Nat) : State :=
  let line := 1024 * page + k
  let f := s.mem.mem.finding (faultAt faults k) line
  let s := (readLine (64 * line) 64 f 2 s).2
  s.setMem ((s.mem.mem.spoil f line).renew line)

/-- RETIRE_COPY_COMPLETE (R293): accesses switch to the spare; the keeper entry waits for its write. -/
def execRetireCopyComplete (w : When) (faults : List (Nat × MemFault)) (s : State) : Result :=
  let s := s.at w
  match s.mem.retiring with
  | none => .next s
  | some (page, i, host) =>
    let s := (List.range 1024).foldl (retireLine page faults) s
    let e : RetireEntry := { eui := s.gen.eui, page := page, spare := i }
    let s := modMem (fun m => { m with
      retiring := none, retired := (m.retired.filter (·.1 != page)) ++ [(page, i)], unsaved := m.unsaved ++ [e] }) s
    let s := ledger 0x0B01 0xFFFF [page, i] (setRetireResult host (retireResult 0 i) s)
    .next (if s.kpr.state = 2 then queueJob { cls := 0, kind := .retire e } s else s)

/-- `MEM_CTRL.PURGE_FOREIGN` (R291, R294): entries made by another module leave the keeper. -/
def purgeForeignAct (who : Agent) (s : State) : State :=
  if fwOrEngineer who s && s.keeperWritable then
    queueJob { cls := 0, kind := .purge s.gen.eui, pages := 2 } s
  else s

/-- A write of `MEM_CE_LOG_ACK` (R287, R294) frees an entry. -/
def ceLogAckAct (who : Agent) (idx : Nat) (s : State) : State :=
  if fwOrEngineer who s then modMem (fun m => { m with ceLog := putAt m.ceLog idx {} }) s else s

end Sys2Proof.Machine
end

