-- ==== Sys2Proof/Machine/Phe.lean ====
section
/-! DEFINITION. The commands of publication: data frames leaving, TCP connections, C37.118.2 commands (chapter 6). -/

namespace Sys2Proof.Machine

open Sys2Proof

/-- A data frame is dropped: counted, source 151 (R164, R168). -/
def dropFrame (x : PubFrame) (s : State) : State :=
  raise .phe 3 (modStr x.stream (fun y => { y with dropped := tallyInc y.dropped }) s)

/-- The publication queue without its first frame for a host port. -/
def popFrame (host : Nat) : List PubFrame → List PubFrame
  | [] => []
  | x :: t => if x.host = host then t else x :: popFrame host t

/-- An error of a data-class queue's LIGHT backing store: its line is not given, so it is a free value (R115, R287, R288,
log entry 106, DEDUCED). -/
def readerError (f : MemFault) (s : State) : State :=
  match f with
  | .none => s
  | .corrected _ b =>
    let (i, s) := draw s
    let line := (Config.unreadable i).toNat % 2 ^ 28
    logCorrection line true 0xFF b 0 (report 19 0xFF (modMem (fun m => { m with ceLight := tallyInc m.ceLight }) s))
  | .words fixed lost =>
    let one (s : State) : State :=
      let (i, s) := draw s
      logCorrection ((Config.unreadable i).toNat % 2 ^ 28) true 0xFF 1 0 (report 19 0xFF (modMem (fun m => { m with ceLight := tallyInc m.ceLight }) s))
    let s := ((List.range 8).filter fun k => fixed.val.testBit k && !lost.val.testBit k).foldl (fun s _ => one s) s
    if lost = 0 then s else report 21 0xFF (modMem (fun m => { m with ueLight := tallyInc m.ueLight }) s)
  | .uncorrectable => report 21 0xFF (modMem (fun m => { m with ueLight := tallyInc m.ueLight }) s)

/-- The read of a queue's backing store has failed. -/
def readFails : MemFault → Bool
  | .none => false
  | .corrected _ _ => false
  | .words _ lost => lost != 0
  | .uncorrectable => true

/-! ### Where frames go (R159, R345) -/

/-- Two addresses of `n` bits agree in their first `len`. -/
def samePrefix (n len a b : Nat) : Bool := a / 2 ^ (n - min n len) == b / 2 ^ (n - min n len)

/-- The link-layer destination of a frame to an address, IPv6 or IPv4-mapped, outside a TCP connection (R345): the neighbour entry
of an on-link address, else the gateway; none where the access set gives none. An address of a family of which the port has none
of its own is reached by none (log entry 124, DESIGN CHOICE). -/
def State.linkDest (s : State) (host : Nat) (addr : List Byte) : Option Nat :=
  match s.hif.access with
  | none => none
  | some a =>
    let c := (a.ports.find? (·.port == host)).getD {}
    let v := beNat addr
    let gate : Option Nat := if c.gwMac = 0 then none else some c.gwMac
    let near : Option Nat := (a.neighbours.find? fun n => n.port == host && n.addr == v).map (·.mac)
    if v / 2 ^ 32 = 0xFFFF then
      if c.ipv4 = 0 then none else if samePrefix 32 c.plen4 c.ipv4 (v % 2 ^ 32) then near else gate
    else if samePrefix 128 64 v (0xFE80 * 2 ^ 112) || (c.ipv6 != 0 && samePrefix 128 c.plen6 c.ipv6 v) then near
    else gate

/-- Where a frame of a stream for a destination goes (R159, R345): a TCP connection, or by UDP to `UDP_DEST`; none where it has no
link-layer destination. -/
def State.pubTo (s : State) (host : Nat) (x : StreamCfg) (conn : Option Nat) : Option PubTo :=
  match conn with
  | some n => some { conn := some n, port := x.tcpPort }
  | none => (s.linkDest host x.udpDest).map fun m => { addr := x.udpDest, port := x.udpPort, mac := some m }

/-- PUBLICATION_FRAME_SEND (R28, R160, R164, R167, R288): the oldest frame for the host port leaves within the
publication stall of that port; one that cannot be read is dropped, and a `ROLE` 0 stream's frame does not leave a module
that is no longer primary (R165), and one without a link-layer destination is dropped (R345). SHP traffic that waited behind the
last such frame follows (R28). -/
def execPublicationFrameSend (w : When) (host : Fin 2) (readFault : MemFault) (s : State) : Result :=
  let s := s.at w
  let h := host.val
  match s.phe.queue.find? (·.host == h) with
  | none => .next s
  | some x =>
    if s.phe.fenced || !s.slotOpen (17 + h) || !s.hif.links.getD h false then .next s
    else
      let s := modPhe (fun p => { p with queue := popFrame h p.queue }) (readerError readFault s)
      let c := s.pheSec.streams.getD x.stream {}
      if readFails readFault then .next (drainShp (dropFrame x s))
      else if !s.publishes c then .next (drainShp s)
      else match s.pubTo h c x.dest with
        | none => .next (drainShp (dropFrame x s))
        | some peer =>
          let s := chargeSlot (17 + h) x.bytes.length s
          .next (drainShp (emit (.pub h x.stream peer x.bytes) (modStr x.stream (fun y => { y with frames := tallyInc y.frames }) s)))

/-- The frames that the publication stalls could not send in their period, which ends at `tp`, are dropped whole (R164); a
fenced queue is frozen (R23). -/
def dropUnsent (tp : Nat) (s : State) : State :=
  if s.phe.fenced then s
  else
    let gone := s.phe.queue.filter fun x => decide (x.due < tp)
    gone.foldl (fun s x => dropFrame x s) (modPhe (fun p => { p with queue := p.queue.filter fun x => decide (tp ≤ x.due) }) s)

/-- C37_TCP_CONNECT (R159, R9): at most two connections a stream, on a host port the stream names; otherwise the attempt
is reset. -/
def execC37TcpConnect (w : When) (host : Fin 2) (stream : Fin 64) (conn : Nat) (s : State) : Result :=
  let s := s.at w
  let y := s.phe.streams.getD stream.val {}
  let ok := match s.pheSec.streams[stream.val]? with
    | some x => s.inUse 0 && x.host.testBit host.val && x.mode != 1 && decide (y.conns.length < 2) && !(y.conns.any (·.conn == conn))
    | none => false
  if ok then
    .next (raise .phe 1 (modStr stream.val (fun y => { y with conns := y.conns ++ [{ conn := conn, host := host.val }] }) s))
  else .next (emit (.tcpReset host.val) s)

/-- The frames that wait for a destination of a stream go with it (R164; log entry 100, DESIGN CHOICE); a fenced queue is frozen
(R23). -/
def dropFor (stream : Nat) (gone : Option Nat → Bool) (s : State) : State :=
  if s.phe.fenced then s else modPhe (fun p => { p with queue := p.queue.filter fun x => !(x.stream == stream && gone x.dest) }) s

/-- C37_TCP_CLOSE (R159, R168). -/
def execC37TcpClose (w : When) (stream : Fin 64) (conn : Nat) (s : State) : Result :=
  let s := s.at w
  let y := s.phe.streams.getD stream.val {}
  .next (if y.conns.any (·.conn == conn) then
      raise .phe 1 (dropFor stream.val (· == some conn) (modStr stream.val (fun y => { y with conns := y.conns.filter (·.conn != conn) }) s))
    else s)

/-- A command is ignored and counted (R164). -/
def ignoreCmd (s : State) : State := modPhe (fun p => { p with cmdIgnored := tallyInc p.cmdIgnored }) s

/-- A command is accepted: its `IDCODE`, its `CHK`, and where it comes from (R164). -/
def cmdAccepted (c : C37Cmd) (s : State) : Bool :=
  match s.pheSec.streams[c.stream.val]? with
  | none => false
  | some x => c.idcode == x.idcode && c.chkOk &&
      (match c.path with
        | .tcp n => (s.phe.streams.getD c.stream.val {}).conns.any (·.conn == n)
        | .udp src => x.mode == 1 && src == x.udpDest)

/-- A command handled by `f` where the PHE is in use and the command is accepted. -/
def withCmd (c : C37Cmd) (f : State → State) (s : State) : State :=
  if !s.inUse 0 then s else if cmdAccepted c s then f s else ignoreCmd s

/-- A connection's state; one that is off now starts with the next reporting instant (R164). -/
def TcpConn.set (k : TcpConn) (on : Bool) (now : Nat) : TcpConn := { k with on := on, since := if k.on then k.since else now }

/-- The UDP state of a stream. -/
def StrState.setUdp (y : StrState) (on : Bool) (now : Nat) : StrState :=
  { y with udpOn := on, udpSince := if y.udpOn then y.udpSince else now }

/-- The command governs a destination: the sender's own connection, or UDP, which in `MODE` 2 the commands of TCP govern. -/
def cmdGoverns (c : C37Cmd) (mode : Nat) : Option Nat → Bool
  | some k => match c.path with
    | .tcp n => k == n
    | .udp _ => false
  | none => match c.path with
    | .tcp _ => mode == 2
    | .udp _ => true

/-- Transmission on or off for the sender (R164): on, from the next reporting instant; off, at once, for frames that wait
as well. -/
def setTransmit (c : C37Cmd) (on : Bool) (s : State) : State :=
  let mode := (s.pheSec.streams.getD c.stream.val {}).mode
  let now := s.islandTime hostIsland
  let s := modStr c.stream.val (fun y =>
    let y := { y with conns := y.conns.map fun k => if cmdGoverns c mode (some k.conn) then k.set on now else k }
    if cmdGoverns c mode none then y.setUdp on now else y) s
  when (!on) (dropFor c.stream.val (cmdGoverns c mode)) s

/-- C37_TX_OFF (R164). -/
def execC37TxOff (w : When) (c : C37Cmd) (s : State) : Result := .next (withCmd c (setTransmit c false) (s.at w))

/-- C37_TX_ON (R164). -/
def execC37TxOn (w : When) (c : C37Cmd) (s : State) : Result := .next (withCmd c (setTransmit c true) (s.at w))

/-- The host port and the connection that a command came by: its answer goes back there. -/
def State.cmdFrom (s : State) (c : C37Cmd) : Nat × Option Nat :=
  match c.path with
  | .tcp n => ((((s.phe.streams.getD c.stream.val {}).conns.find? (·.conn == n)).map (·.host)).getD 0, some n)
  | .udp _ => (c.host.val, none)

/-- A configuration frame as Workbench prepared it, `SOC`, `FRACSEC` and `CHK` filled in at transmission (R160). -/
def State.cfgBytes (s : State) (stream : Nat) (cfg3 : Bool) : List Byte :=
  let x := s.pheSec.streams.getD stream {}
  let raw := if cfg3 then x.cfg3 else x.cfg2
  let now := s.islandTime hostIsland
  let g := now % ticksPerSec * 14400 / ticksPerSec
  let bs := overlay (overlay raw 6 (natBe (s.soc now) 4)) 10 (natBe (s.fracsec x.timeBase g now) 4)
  withChk (bs.take (raw.length - 2))

/-- A configuration frame answers a command where it came from (R159, R164); one without a link-layer destination is dropped and
counted like a data frame (R345, log entry 124, DESIGN CHOICE). -/
def cfgFrame (c : C37Cmd) (cfg3 : Bool) (s : State) : State :=
  let h := s.cmdFrom c
  match s.pubTo h.1 (s.pheSec.streams.getD c.stream.val {}) h.2 with
  | some peer => emit (.cfgFrame h.1 c.stream.val peer cfg3 (s.cfgBytes c.stream.val cfg3)) s
  | none => modStr c.stream.val (fun y => { y with dropped := tallyInc y.dropped }) s

/-- C37_SEND_CFG2 (R164). -/
def execC37SendCfg2 (w : When) (c : C37Cmd) (s : State) : Result := .next (withCmd c (cfgFrame c false) (s.at w))

/-- C37_SEND_CFG3 (R164). -/
def execC37SendCfg3 (w : When) (c : C37Cmd) (s : State) : Result := .next (withCmd c (cfgFrame c true) (s.at w))

/-- C37_COMMAND_IGNORED (R159, R164): any other command; without the PHE it is dropped without a count (R9). -/
def execC37CommandIgnored (w : When) (s : State) : Result :=
  let s := s.at w
  .next (if s.inUse 0 then ignoreCmd s else s)

end Sys2Proof.Machine
end

