-- ==== Sys2Proof/Machine/Ports.lean ====
section
/-! DEFINITION. The commands of the station ports (chapter 4): links, replies, HELLO and resync frames, surge windows,
drops, and the queue errors of R115. -/

namespace Sys2Proof.Machine

open Sys2Proof

/-- PORT_LINK_CHANGE (R95): `LINK`, and on a lane of a PRP pair `PRP_LANE` of the logical port. -/
def execPortLinkChange (w : When) (port : Fin 64) (up : Bool) (s : State) : Result :=
  let s := s.at w
  let p := port.val
  if (s.port p).link = up then .next s
  else
    let s := raise (.prt p) 0 (modPort p (fun x => { x with link := up }) s)
    .next (when (s.isPrp p) (raise (.prt (s.logical p)) 4) s)

/-- A write of `PRT_n_CTRL` (chapter 4): the firmware or the host as ENGINEER; each change is recorded. -/
def laserOffAct (who : Agent) (p : Nat) (off : Bool) (s : State) : State :=
  if fwOrEngineer who s && (s.port p).laserOff != off then
    ledger 0x0203 p [bit1 off] (modPort p (fun x => { x with laserOff := off }) s)
  else s

/-! ### Replies (R97, R101, R107, R109, R111) -/

/-- The station's entry, where the station is in the map on a logical port. -/
def State.mapped (s : State) (st lp : Nat) : Option StationCfg :=
  match s.stationCfg st with
  | some c => if c.port = lp then some c else none
  | none => none

/-- Inputs that a reply to the latest EXCHANGE of a stream carries. -/
def State.replyInputs (s : State) (st t : Nat) : Nat :=
  if (s.stream st t).seq = (s.stream st t).cycleSeq then ((s.taskGen t).streamIns t st).length else 0

/-- A reply's arrival stamp, with `ING` applied, is at or before t0 + d (R107). -/
def State.replyOnTime (s : State) (p st t : Nat) (f : ReplyFrame) : Bool :=
  let c := (s.taskCfg t).getD {}
  decide (s.rxTime p f.stamp ≤ (s.stream st t).apply - c.period * ticksPerPeriod + nsTicks c.deadline)

/-- The inputs of an on-time reply enter the image at once (R198 step 3), or, before the first freeze after a swap, at that
freeze, which first moves the image (R214). -/
def takeInputs (st t : Nat) (f : ReplyFrame) (s : State) : State :=
  let x := s.task t
  let s := if x.frozen then s else modStream st t (fun y => { y with reply := some f }) s
  if x.state = 1 ∧ (x.moved.isNone ∨ x.frozen) then lateInputs t st f s else s

/-- A late reply counts on its lane; on a PRP pair it waits while the other copy may still prove to be on time (R97): until the
task is ready, and where its start was skipped until the stream's next EXCHANGE. -/
def countLate (p st t : Nat) (s : State) : State :=
  if s.isPrp p && ((s.stream st t).skipped || decide ((s.task t).state = 1)) then modStream st t (fun y => { y with lateLane := some p }) s
  else modPort p (fun y => { y with late := tallyInc y.late }) s

/-- A valid reply answers its stream's latest EXCHANGE: the station's status bits, and for a cycle frame the verdict by
the arrival stamp (R107). -/
def acceptReply (p st t : Nat) (f : ReplyFrame) (s : State) : State :=
  let s := modStn st (fun x => { x with valid := true, status := f.status % 64 }) s
  let x := s.stream st t
  let s := modStream st t (fun y => { y with answered := true, copies := p :: y.copies }) s
  if x.seq ≠ x.cycleSeq then s
  else if s.replyOnTime p st t f then
    let s := modStream st t (fun y => { y with ack := .onTime }) s
    if x.skipped then s else takeInputs st t f s
  else countLate p st t (modStream st t (fun y => { y with ack := .late }) s)

/-- The other copy on a PRP pair: the first copy that is valid and on time is used, and a late one before it was a
duplicate; any other second copy is a duplicate, which settles a late first one (R97). -/
def prpCopy (p st t : Nat) (f : ReplyFrame) (s : State) : State :=
  if (s.stream st t).ack == .late && s.replyOnTime p st t f then
    acceptReply p st t f (modStream st t (fun y => { y with lateLane := none }) s)
  else settleLate st t (modStream st t (fun y => { y with copies := p :: y.copies }) s)

/-- A HELLO frame, or a late, stale or unknown reply, takes one of the period's 16 control frames; without one left it is dropped
and counted in `PRT_n_DISCARD` (R114; log entry 98, DEDUCED). -/
def ctlFrame (p : Nat) (f : State → State) (s : State) : State :=
  if (s.port p).ctlCredit = 0 then modPort p (fun x => { x with discard := tallyInc x.discard }) s
  else f (modPort p (fun x => { x with ctlCredit := x.ctlCredit - 1 }) s)

/-- `PRT_n_UNKNOWN` counts. -/
def countUnknown (p : Nat) (s : State) : State := modPort p (fun x => { x with unknown := tallyInc x.unknown }) s

/-- `PRT_n_STALE` counts. -/
def countStale (p : Nat) (s : State) : State := modPort p (fun x => { x with stale := tallyInc x.stale }) s

/-- REPLY_RECEIVED (R109, R114): the conditions in their order, then the verdict. -/
def execReplyReceived (w : When) (port : Fin 64) (f : ReplyFrame) (s : State) : Result :=
  let s := s.at w
  let p := port.val
  let st := f.station
  let t := f.task.val
  if !s.portTakes p then .next s
  else if !f.fcsOk then .next (modPort p (fun x => { x with fcsErr := tallyInc x.fcsErr }) s)
  else match s.mapped st (s.logical p) with
    | none => .next (ctlFrame p (countUnknown p) s)
    | some c =>
      if f.srcMac ≠ c.mac ∨ !((s.taskGen t).maps t st) then .next (ctlFrame p (countUnknown p) s)
      else
        let x := s.stream st t
        if !x.sent || decide (f.epoch ≠ s.wvl.epoch ∨ f.side ≠ s.wvl.side ∨ f.ackSeq ≠ x.seq) then .next (ctlFrame p (countStale p) s)
        else if x.answered && (!s.isPrp p || x.copies.contains p) then .next (ctlFrame p (countStale p) s)
        else if !f.lengthOk || decide (f.inCount ≠ s.replyInputs st t ∨ f.inputs.length ≠ f.inCount) then
          .next (modPort p (fun x => { x with discard := tallyInc x.discard }) s)
        else
          let take := if x.answered then prpCopy p st t f else acceptReply p st t f
          .next (if x.seq = x.cycleSeq ∧ !s.replyOnTime p st t f then ctlFrame p take s else take s)

/-! ### HELLO and resync (R113) -/

/-- HELLO_RECEIVED (R112, R113): the primary owes each of the station's streams one resync frame within two base
periods; a standby ignores it. -/
def execHelloReceived (w : When) (port : Fin 64) (f : HelloFrame) (s : State) : Result :=
  let s := s.at w
  let p := port.val
  if !s.portTakes p then .next s
  else
    let (dup, s) := duplicate p f.rct s
    if dup then .next s
    else .next (ctlFrame p (fun s =>
      if !s.primary then s
      else match s.mapped f.station (s.logical p) with
        | none => countUnknown p s
        | some _ =>
          let by_ := s.rxTime p f.stamp + 2 * ticksPerPeriod
          (s.stationTasks f.station).foldl (fun s t => modStream f.station t (fun x => { x with resyncBy := some by_ }) s) s) s)

/-- RESYNC_SEND (R113): the current cycle frame again, under a new `SEQ`, where 250 µs remain before its apply time. -/
def execResyncSend (w : When) (station : Fin 2048) (task : Fin 16) (s : State) : Result :=
  let s := s.at w
  let st := station.val
  let t := task.val
  let x := s.stream st t
  match x.resyncBy, s.stationCfg st with
  | some by_, some c =>
    let s := modStream st t (fun y => { y with resyncBy := none }) s
    let now := s.islandTime marketIsland
    if s.primary && x.sent && decide (now ≤ by_ ∧ now + usTicks 250 ≤ x.apply) then
      let seq := x.nextSeq
      let s := modStream st t (fun y => { y with seq := seq, answered := false, copies := [] }) s
      let s := queueFrame c.port { station := st, task := t, seq := seq, resync := true, apply := x.apply, outs := x.outs, rank := s.taskRank t } s
      .next ((s.lanes c.port).foldl (fun s q => drainPort q s) s)
    else .next s
  | _, _ => .next s

/-! ### Surge windows (R103) -/

/-- The fragment's own fields lie in range (chapter 4). -/
def fragOk (f : SurgeFrag) : Bool :=
  decide (1 ≤ f.fragCount ∧ f.fragCount ≤ 6 ∧ f.frag < f.fragCount ∧ f.phase ≤ 2 ∧ 1 ≤ f.count ∧ f.count ≤ 1024
    ∧ 1 ≤ f.samples.length ∧ f.samples.length ≤ 512 ∧ f.first + f.samples.length ≤ f.count)

/-- Two fragments of one window conflict: their window fields differ, or they carry the same index or sample with a
different content; stamp and redundancy trailer are not content. -/
def fragsConflict (a b : SurgeFrag) : Bool :=
  let a' := { a with stamp := b.stamp, rct := b.rct }
  a' != b && (decide (a.t0 ≠ b.t0 ∨ a.interval ≠ b.interval ∨ a.count ≠ b.count ∨ a.fragCount ≠ b.fragCount
      ∨ a.scale ≠ b.scale ∨ a.quality ≠ b.quality ∨ a.frag = b.frag)
    || decide (a.phase = b.phase ∧ a.first < b.first + b.samples.length ∧ b.first < a.first + a.samples.length))

/-- The samples of a phase in order, where the fragments cover all of them. -/
def phaseSamples (count ph : Nat) (fs : List SurgeFrag) : Option (List Int) :=
  let mine := fs.filter (·.phase == ph)
  let l := (List.range count).filterMap fun i =>
    (mine.find? fun f => decide (f.first ≤ i ∧ i < f.first + f.samples.length)).map fun f => f.samples.getD (i - f.first) 0
  if l.length = count then some l else none

/-- The complete window that fragments make; none while one is missing. -/
def assembleWindow (p : Nat) (fs : List SurgeFrag) (stamp : Nat) : Option SurgeWindow :=
  match fs.head? with
  | none => none
  | some f =>
    if fs.length ≠ f.fragCount then none
    else match phaseSamples f.count 0 fs, phaseSamples f.count 1 fs, phaseSamples f.count 2 fs with
      | some a, some b, some c => some { port := p, station := f.station, windowId := f.windowId, t0 := f.t0, interval := f.interval
                                         count := f.count, scale := f.scale, quality := f.quality, phases := [a, b, c], stamp := stamp }
      | _, _, _ => none

/-- A window is discarded and counted (R103). -/
def surgeDiscard (p : Nat) (s : State) : State := modPort p (fun x => { x with surgeDiscard := tallyInc x.surgeDiscard }) s

/-- A complete window is queued for the WCE, or discarded (R103, R9); one for a WCE that is present but not in use is discarded
and counted as for an absent one (log entry 113, DESIGN CHOICE). -/
def queueWindow (p : Nat) (x : SurgeWindow) (s : State) : State :=
  if s.inUse 1 && (s.stationCfg x.station).isSome && decide (s.wce.queue.length < 512) then
    { s with wce := { s.wce with queue := s.wce.queue ++ [x] } }
  else surgeDiscard p s

/-- The window under reassembly of a station and window number. -/
def PortState.partial? (x : PortState) (st id : Nat) : Option PartialWin :=
  x.partials.find? fun y => y.station == st && y.windowId == id

/-- Puts a window under reassembly back. -/
def setPartial (p : Nat) (y : PartialWin) (s : State) : State :=
  modPort p (fun x => { x with partials := (x.partials.filter fun z => !(z.station == y.station && z.windowId == y.windowId)) ++ [y] }) s

/-- 1 ms after its first fragment a window under reassembly is gone, an incomplete one counted once (R103). -/
def expirePartial (p station windowId : Nat) (s : State) : State :=
  match (s.port p).partial? station windowId with
  | some y =>
    if y.first + msTicks 1 ≤ s.islandTime (portIsland p) then
      let s := when (!y.closed) (surgeDiscard p) s
      modPort p (fun x => { x with partials := x.partials.filter fun z => !(z.station == station && z.windowId == windowId) }) s
    else s
  | none => s

/-- SURGE_FRAGMENT_RECEIVED (R103): a repeat with the same content changes nothing; a field out of range discards the window as
a conflict does, and an `INTERVAL` below 100 ns is taken (log entry 112, DESIGN CHOICE). -/
def execSurgeFragmentReceived (w : When) (port : Fin 64) (f : SurgeFrag) (s : State) : Result :=
  let s := s.at w
  if !s.portTakes port.val then .next s
  else
    let p := s.logical port.val
    let stamp := s.rxTime port.val f.stamp
    let (dup, s) := duplicate port.val f.rct s
    if dup then .next s else
    let s := expirePartial p f.station f.windowId s
    let y := ((s.port p).partial? f.station f.windowId).getD { station := f.station, windowId := f.windowId, first := s.islandTime (portIsland p) }
    if y.closed then .next s
    else if !fragOk f || y.frags.any (fragsConflict f) then .next (surgeDiscard p (setPartial p { y with closed := true } s))
    else if y.frags.any (fun g => g.frag == f.frag) then .next s
    else
      let y := { y with frags := y.frags ++ [f] }
      match assembleWindow p y.frags stamp with
      | some x => .next (queueWindow p x (setPartial p { y with closed := true, frags := [] } s))
      | none => .next (setPartial p y s)

/-- SURGE_WINDOW_TIMEOUT (R103): 1 ms after its first fragment an incomplete window counts once and is gone. -/
def execSurgeWindowTimeout (w : When) (port : Fin 64) (station windowId : Nat) (s : State) : Result :=
  let s := s.at w
  .next (expirePartial (s.logical port.val) station windowId s)

/-! ### Drops, supervision, cages -/

/-- UNKNOWN_FRAME (R27, R96, R101, R114): dropped and counted by its kind. -/
def execUnknownFrame (w : When) (port : Fin 64) (kind : DropKind) (s : State) : Result :=
  let s := s.at w
  let p := port.val
  if !s.portTakes p then .next s
  else match kind with
    | .svNoCredit => .next (modPort p (fun x => { x with dataDrop := tallyInc x.dataDrop }) s)
    | .surgeNoCredit => .next (surgeDiscard p s)
    | .etherType | .hsr | .reservedType | .version | .exchange | .noCredit =>
      .next (modPort p (fun x => { x with discard := tallyInc x.discard }) s)

/-- FRAME_CHECK_ERROR (R107): counted for the port; the ports of a fenced cage do not receive (R23, R337). -/
def execFrameCheckError (w : When) (port : Fin 66) (s : State) : Result :=
  let s := s.at w
  if port.val < 64 then .next (when (s.portTakes port.val) (modPort port.val (fun x => { x with fcsErr := tallyInc x.fcsErr })) s)
  else .next { s with hif := { s.hif with fcsErr := updAt s.hif.fcsErr (port.val - 64) tallyInc } }



/-- PRP_SUPERVISION (R96): supervision frames on both lanes of a pair; nothing is sent before the module has been PRIMARY
(R388). -/
def execPrpSupervision (w : When) (port : Fin 32) (s : State) : Result :=
  let s := s.at w
  let p := port.val
  if !s.isPrp p then .next s
  else
    let (q, s) := takeRct p true s
    let one (p : Nat) (s : State) : State :=
      if s.portSends p then sendMsg p supervisionWire { kind := .supervision, rct := q } (sendSupervision p q) s else s
    .next (one (p + 32) (one p s))

/-- OPTICAL_MODULE_CHANGE (R413): the cage's four ports; a module of a higher power class carries no traffic and shows no
signal. -/
def execOpticalModuleChange (w : When) (cage : Fin 16) (fitted highPower signal txFault : Bool) (s : State) : Result :=
  let s := s.at w
  .next ((List.range 4).foldl (fun s k => modPort (4 * cage.val + k) (fun x => { x with
    fitted := fitted, highPower := fitted && highPower, signal := fitted && signal && !highPower, txFault := fitted && txFault }) s) s)

/-! ### Queue errors (R115) -/

/-- CONTROL_QUEUE_ERROR (R115): the queue is reset, and the control-class source reported. -/
def execControlQueueError (w : When) (q : CtlQueue) (s : State) : Result :=
  let s := s.at w
  match q with
  | .port n =>
    let s := modPort n.val (fun x => { x with outq := x.outq.filter (!·.enq), waitq := [], qreset := tallyInc x.qreset }) s
    .next (reportBy n.val 30 0xFF (raise (.prt n.val) 3 s))
  | .forces => .next (reportBy 64 30 0xFF s)
  | .mailbox => .next (reportBy 65 30 0xFF (mailboxReset s))

/-- DATA_QUEUE_ERROR (R115, R160, R194, R288): corrected and counted, or the frame or window dropped and reported. -/
def execDataQueueError (w : When) (q : DataQueue) (corrected : Bool) (s : State) : Result :=
  let s := readerError (if corrected then .corrected 0 1 else .uncorrectable) (s.at w)
  match q with
  | .sv n =>
    if corrected then .next (modPort n.val (fun x => { x with eccCorr := tallyInc x.eccCorr }) s)
    else .next (reportBy n.val 31 0xFF (raise (.prt n.val) 5 (modPort n.val (fun x => { x with dataDrop := tallyInc x.dataDrop, svq := x.svq - 1 }) s)))
  | .surge pos =>
    if corrected then .next { s with wce := { s.wce with eccCorr := tallyInc s.wce.eccCorr } }
    else .next (reportBy 66 31 0xFF (raise .wce 2 { s with wce := { s.wce with drop := tallyInc s.wce.drop, queue := s.wce.queue.eraseIdx pos } }))
  | .publication p pos =>
    if corrected then .next { s with phe := { s.phe with eccCorr := tallyInc s.phe.eccCorr } }
    else match (s.phe.queue.filter (·.host == p.val))[pos]? with
      | some x => .next (reportBy 65 31 0xFF (dropFrame x { s with phe := { s.phe with queue := s.phe.queue.erase x } }))
      | none => .next (reportBy 65 31 0xFF (raise .phe 3 s))

end Sys2Proof.Machine
end

