-- ==== Sys2Proof/Machine/Seq.lean ====
section
/-! DEFINITION. The commands of the image sequencer (chapter 8): freeze, start signal, commit, retained round, forces. -/

namespace Sys2Proof.Machine

open Sys2Proof

/-- TASK_FREEZE (R198 step 5, R204, R112): d + 2 µs after t0; a reply stamped on time that is still being received counts as
on time (R107); the snapshot locks the mailbox's bank (R20). A skipped start has no freeze: only its replies are judged, at
the same distance from it (log entry 26, DESIGN CHOICE). -/
def execTaskFreeze (w : When) (f : Freeze) (s : State) : Result :=
  let s := s.at w
  let t := f.task.val
  let x := s.task t
  match s.taskCfg t with
  | none => .next s
  | some c =>
    let wait := nsTicks c.deadline + usTicks 2
    if !s.primary then .next s
    else match x.skipAt with
      | some t0 =>
        if t0 + wait ≤ s.islandTime marketIsland then .next (modTask t (fun y => { y with skipAt := none }) (evaluateStations t f.receiving s)) else .next s
      | none =>
        if decide (x.state = 1 ∧ x.t0 + wait ≤ s.islandTime marketIsland) && !x.frozen then
          let s := evaluateStations t f.receiving s
          let s := modPhe (fun p => { p with locked := some (t, s.snapBank) }) s
          .next (modTask t (fun y => { y with frozen := true }) (freezeInputs t s))
        else .next s

/-- The late copies of a task's streams count, once no on-time copy can come any more (R97, R106 step 6). -/
def settleTask (t : Nat) (s : State) : State := ((s.taskGen t).taskStations t).foldl (fun s c => settleLate c.number t s) s

/-- TASK_START_SIGNAL (R198 step 8): the task is ready; a copy of its last cycle not yet sent is dropped (R266), and a
split interval ends (R231); the triad's schedule is decided anew (R197). -/
def execTaskStartSignal (w : When) (task : Fin 16) (d : Digests) (s : State) : Result :=
  let s := s.at w
  let t := task.val
  let x := s.task t
  if decide (x.state = 1) && x.frozen && s.primary then
    let s := modPhe (fun p => { p with locked := p.locked.filter (·.1 != t) }) (settleTask t (dropUnsentCopy t s))
    .next (reschedule (splitInterrupted 2 d (modTask t (fun y => { y with state := 2, readyAt := s.islandTime marketIsland }) s)))
  else .next s

/-- A write of `SEQ_COMMIT` (R199, R226, R227): a ready task commits, and a fenced lane starts to rejoin; nothing leaves a
halted or stopped triad (R218, R228). -/
def seqCommitAct (who : Agent) (t : Nat) (s : State) : State :=
  if !isFw who || s.ptm.powerFail || decide (s.trd.mode = 4) then s
  else if (s.task t).state ≠ 2 then hwSet 0x60000 3 none { s with seq := { s.seq with commitRefused := true } }
  else
    let run := (s.islandTime marketIsland - (s.task t).readyAt) / ticksPerNs
    reschedule (rejoinStart (modTask t (fun y => { y with state := 3, runMax := max y.runMax run }) s))

/-- COMMIT_COMPLETE (R199, R264): capture, shadow, count; then the copy to the standby. A stopped triad commits nothing
(R228), and power fail abandons a commit that has not flipped (R218). -/
def execCommitComplete (w : When) (task : Fin 16) (s : State) : Result :=
  let s := s.at w
  let t := task.val
  if (s.task t).state = 3 ∧ s.trd.mode ≠ 4 ∧ !s.ptm.powerFail then .next (copySend t (commitTask t s)) else .next s

/-- A write of `SEQ_CTRL.RET_NOW` (R217): a round at the next strobe, asked for by the firmware or an OPERATOR. -/
def retNowAct (who : Agent) (s : State) : State :=
  if isFw who || hostAtLeast 2 who s then { s with seq := { s.seq with retNow := true } } else s

/-! ### Forces (R212) -/

/-- A point in force with a tag, by the tables its task runs on. -/
def State.pointOf (s : State) (tag : Nat) : Option PointCfg :=
  (List.range 16).findSome? fun t => (s.taskGen t).points.find? fun p => p.tag == tag && p.task == t

/-- `FORCE_POLICY` lets the point be forced. -/
def State.forceable (s : State) (p : PointCfg) : Bool :=
  let pol := (s.taskGen p.task).images.policy
  decide (pol = 2) || (decide (pol = 1) && p.forceable)

/-- The lowest free entry of the force table. -/
def State.freeForce (s : State) : Option Nat :=
  (List.range 4096).find? fun i => !(s.seq.forces.any (·.idx == i))

/-- What a set answers and does (R212). -/
def forceSetResult (tag value : Nat) (s : State) : Nat × State :=
  if !s.primary then (5, s)
  else match s.pointOf tag with
    | none => (2, s)
    | some p =>
      if !s.forceable p then (3, s)
      else
        let done (f : List Force) : Nat × State :=
          (0, ledger 0x0602 p.task [tag, value] { s with seq := { s.seq with forces := f, forcesSent := false } })
        if s.seq.forces.any (·.tag == tag) then
          done (s.seq.forces.map fun f => if f.tag = tag then { f with value := value } else f)
        else match s.freeForce with
          | some i => done (s.seq.forces ++ [{ idx := i, tag := tag, value := value }])
          | none => (4, s)

/-- What a clear answers and does (R212). -/
def forceClearResult (tag : Nat) (s : State) : Nat × State :=
  if !s.primary then (5, s)
  else match s.pointOf tag with
    | none => (2, s)
    | some p =>
      if s.seq.forces.any (·.tag == tag) then
        (1, ledger 0x0603 p.task [tag] { s with seq := { s.seq with forces := s.seq.forces.filter (·.tag != tag), forcesSent := false } })
      else (1, s)

/-- Answers a `FORCE` (R354): its result code and the force table entry's contents. -/
def replyForce (ses : Fin 8) (code tag value : Nat) (s : State) : State := reply ses (if code ≤ 1 then 0 else 8) code [tag, value] s

/-- FORCE_SET (R212). -/
def execForceSet (w : When) (ses : Fin 8) (tag : Nat) (value : Word) (s : State) : Result :=
  .next (withSession ses 12 3 false (fun s =>
    let r := forceSetResult tag value.toNat s
    replyForce ses r.1 tag value.toNat r.2) (s.at w))

/-- FORCE_CLEAR (R212): the answer carries the value of the force cleared (R354). -/
def execForceClear (w : When) (ses : Fin 8) (tag : Nat) (s : State) : Result :=
  .next (withSession ses 12 3 false (fun s =>
    let r := forceClearResult tag s
    replyForce ses r.1 tag (((s.seq.forces.find? (·.tag == tag)).map (·.value)).getD 0) r.2) (s.at w))

/-- FORCE_READ (R212): an entry's force, `CLEARED` for an empty one, `RANGE` beyond the table. -/
def execForceRead (w : When) (ses : Fin 8) (idx : Nat) (s : State) : Result :=
  .next (withSession ses 12 3 false (fun s =>
    if 4095 < idx then reply ses 9 0 [] s
    else match s.seq.forces.find? (·.idx == idx) with
      | some f => replyForce ses 0 f.tag f.value s
      | none => replyForce ses 1 0 0 s) (s.at w))

end Sys2Proof.Machine
end

