-- ==== Sys2Proof/Machine/Svi.lean ====
section
/-! DEFINITION. The commands of the sampled-value intake and the archive (chapter 5). -/

namespace Sys2Proof.Machine

open Sys2Proof

/-- A subscription's change of state or of SmpSynch: sources 144 and 147 (R122, R126). -/
def noteSub (old new : SubState) (s : State) : State :=
  let s := when (decide (old.state ≠ new.state)) (raise .svi 0) s
  when (decide (old.state ≠ 0 ∧ old.synch ≠ new.synch)) (raise .svi 3) s

/-- SV_FRAME_RECEIVED (R117 to R122): the frame's samples are held, or discarded and counted; a frame that matches no
subscription is counted, a simulated one needs `TEST_ACCEPT`; the second copy on a PRP pair never reaches the SVI (R96). -/
def execSvFrameReceived (w : When) (port : Fin 64) (f : SvFrame) (s : State) : Result :=
  let s := s.at w
  let p := port.val
  if !s.portTakes p || !s.cfg.loaded then .next s
  else
    let (dup, s) := duplicate p f.rct s
    if dup then .next s else
    let lp := s.logical p
    let arrival := s.rxStamp p f.stamp
    let s := match s.svi.oldSubs with
      | some l => modSvi (fun v => { v with oldSubs := some (l.mapIdx fun i x =>
          let c := v.oldSec.subs.getD i {}
          if c.matches lp f && (!f.simulated || c.testAccept) then takeFrame c f arrival v.lastSlot (s.islandTime phasorIsland) x else x) }) s
      | none => s
    match s.svSec.subs.findIdx? (·.matches lp f) with
    | none => .next (modSvi (fun v => { v with unsubscribed := tallyInc v.unsubscribed }) s)
    | some i =>
      let c := s.svSec.subs.getD i {}
      let x := s.svi.subs.getD i {}
      if f.simulated && !c.testAccept then .next s
      else
        let y := takeFrame c f arrival s.svi.lastSlot (s.islandTime phasorIsland) x
        .next (noteSub x y (modSvi (fun v => { v with subs := putAt v.subs i y }) s))

/-- SUBSCRIPTION_LOST (R122): no sample accepted for 4 ms. -/
def execSubscriptionLost (w : When) (sub : Fin 512) (s : State) : Result :=
  let s := s.at w
  let x := s.svi.subs.getD sub.val {}
  .next (if x.state = 1 ∧ x.lastAccept + msTicks 4 ≤ s.islandTime phasorIsland then
      raise .svi 0 (modSvi (fun v => { v with subs := putAt v.subs sub.val { x with state := 2 } }) s)
    else s)

/-- `TOPOLOGY` swaps: every open event is closed and computed under the old one, before any window is taken under the new
one (R190). A fenced engine's events stay as they are (R23). -/
def swapTopology (g : Generation) (s : State) : State :=
  let s := markSwapped 6 (if s.wce.fenced then s else computeClosed (closeAll s))
  raise .wce 3 (modWce (fun w => { w with gen := g.gen, running := s.inUse 1 }) s)

/-- The mailbox mapping swaps (R57). A wavefront engine that the delta takes out of use, and that this mapping was the last to
refer to, has run under its topology until now (R42). -/
def swapMapping (g : Generation) (s : State) : State :=
  let s := markSwapped mappingSwap s
  if s.cfg.carried.contains 6 && !s.isSwapped 6 && !g.unitUse.testBit 1 then swapTopology g s else s

/-- A pending `PHE_TABLE` and the mailbox mapping swap before the first slot of the new second runs (R57, R127, R150): slots that
wait for their stall run under the old table (R25). -/
def swapAtSlot (g : Nat) (s : State) : State :=
  match s.cfg.next with
  | some n =>
    if s.pastA && decide (s.boundaryCount ≤ s.pcount ∧ s.boundaryCount / 8000 * 14400 ≤ g) && s.pheIdle then
      let s := if s.cfg.carried.contains 5 && !s.isSwapped 5 then markSwapped 5 (pheSwap n s) else s
      let s := finishSwaps (if s.mapsSwap then swapMapping n s else s)
      if s.cfg.next.isNone then retainFrom (s.pcount + 1) s else s
    else s
  | none => s

/-- The slots that waited for their stall start at the strobe that reloads its budget (R25); those of a fenced engine are
frozen (R23). -/
def pheHeld (s : State) : State :=
  if s.phe.fenced then s
  else
    let l := s.phe.held
    l.foldl (fun s x => pheSlot x.2 x.1 (swapAtSlot x.1 s)) (modPhe (fun p => { p with held := [] }) s)

/-- The slots of the old second have all been emitted: the archive's segment closes (R129). -/
def endOldSubs (g : Nat) (s : State) : State :=
  if s.svi.oldSubs.isSome ∧ s.svi.boundary ≤ g then
    modSvi (fun v => { v with oldSubs := none }) (closeSegment s)
  else s

/-- `ALIGN_LATENCY` for a slot: the old section's for the slots of the old second after a swap (R127). -/
def State.latencyOf (s : State) (g : Nat) : Nat :=
  if s.svi.oldSubs.isSome ∧ g < s.svi.boundary then s.svi.oldSec.alignLatency else s.svSec.alignLatency

/-- SLOT_EMIT (R124): once module time reaches t_g + `ALIGN_LATENCY`, slot g goes to the phasor engine and the archive
writer. -/
def execSlotEmit (w : When) (s : State) : Result :=
  let s := s.at w
  let g := s.nextSlot
  if !s.cfg.loaded || s.svi.fenced || decide (s.islandTime phasorIsland < slotTime g + nsTicks (s.latencyOf g)) then .next s
  else
    let s := endOldSubs g (swapAtSlot g s)
    let sec := if s.svi.oldSubs.isSome then s.svi.oldSec else s.svSec
    let subs := s.svi.oldSubs.getD s.svi.subs
    let gen := if s.svi.oldSubs.isSome then s.svi.oldGen else (s.sect 4).gen
    let vals := alignAll sec subs g
    let s := modSvi (fun v => { v with
      lastSlot := some g
      subs := v.subs.mapIdx fun i x => judgeSamples (s.svSec.subs.getD i {}) g x }) s
    let s := emit (.slot g) s
    .next (archiveRow gen sec.channels vals g (pheSlot vals g s))

/-- `SVI_FRZ_CTRL.REQ` (R131): from the firmware only. -/
def sviFrzReqAct (who : Agent) (s : State) : State :=
  if isFw who then
    let v := s.svi
    let (r, s) := freezeRequest false (v.tLo + v.tHi * 2 ^ 32) v.tNs 0 v.pre v.post s
    modSvi (fun v => { v with frzResult := r.2 * 256 + r.1 }) s
  else s

/-- `SVI_FRZ_CTRL.RELEASE` (R133): from the firmware only. -/
def sviFrzReleaseAct (who : Agent) (win : Nat) (s : State) : State := if isFw who then releaseWindow win s else s

/-- ARCHIVE_FREEZE (R131, R354, R355): from the OPERATOR role. -/
def execArchiveFreeze (w : When) (ses : Fin 8) (pre post tSec : Nat) (tNs : SubSec) (s : State) : Result :=
  .next (withSession ses 8 2 false (fun s =>
    let (r, s) := freezeRequest true tSec tNs.ns tNs.frac pre post s
    reply ses (if r.1 ≤ 1 then 0 else 8) r.1 [r.2] s) (s.at w))

/-- ARCHIVE_RELEASE (R133): the release action of `ARCHIVE_FREEZE`. -/
def execArchiveRelease (w : When) (ses : Fin 8) (win : Nat) (s : State) : Result :=
  .next (withSession ses 8 2 false (fun s =>
    if 3 < win then reply ses 9 0 [win] s else reply ses 0 0 [win] (releaseWindow win s)) (s.at w))

end Sys2Proof.Machine
end

