-- ==== Sys2Proof/Machine/Trd.lean ====
section
/-! DEFINITION. The commands of the triad (chapter 9). -/

namespace Sys2Proof.Machine

open Sys2Proof

/-- COMPARATOR_SELFTEST (R233): in P2; a failure is recorded and holds the module in P2. -/
def execComparatorSelftest (w : When) (fail : Option SelfTestFail) (s : State) : Result :=
  let s := s.at w
  if s.gen.phase = 2 ∧ s.trd.mode = 5 ∧ !s.trd.selfDone then
    match fail with
    | none => .next (modTrd (fun t => { t with selfDone := true, selfPass := true, mode := 0 }) s)
    | some f =>
      let s := modTrd (fun t => { t with selfDone := true, selfLane := f.lane.val, selfGroup := f.group.val, selfBit := f.bit.val }) s
      .next (ledger 0x0703 (if f.lane.val = 3 then 0xFFFF else f.lane.val) [f.lane.val, f.group.val, f.bit.val] { s with gen := { s.gen with held := true } })
  else .next s

/-! ### The vote (R224, R225) -/

/-- A lane's bit group. -/
def laneGroup (l : LaneTx) (g : Nat) : Nat := l.groups.getD g 0

/-- The lowest of the 15 groups in which two lanes' transactions differ; none where they agree. -/
def diffGroup (a b : LaneTx) : Option Nat := (List.range 15).find? fun g => laneGroup a g != laneGroup b g

/-- The transaction that leaves the Tumbler; the lanes that run have lines in their caches. -/
def issueTx (l : LaneTx) (s : State) : State :=
  emit (.tx ((List.range 15).map (laneGroup l))) (modTrd (fun t => { t with lanes := t.lanes.map fun x => { x with cached := x.cached || !x.halted } }) s)

/-- Records a decision in `TRD_LAST_DIFF`. -/
def lastDiff (lane group cycle : Nat) (noMaj : Bool) (s : State) : State :=
  modTrd (fun t => { t with diffLane := lane, diffGroup := group, diffCycle := cycle % 2 ^ 20, diffNoMaj := noMaj }) s

/-- The majority is issued and the differing lane fenced (R225, R227). -/
def voteMinority (lane group cycle : Nat) (l : LaneTx) (s : State) : State :=
  fenceLane lane group (lastDiff lane group cycle false (issueTx l s))

/-- A compared duplex (R225). -/
def voteDuplex (cycle : Nat) (a b : LaneTx) (s : State) : State :=
  match diffGroup a b with
  | none => issueTx a s
  | some g => triadStop (lastDiff 3 g cycle true s)

/-- Three lanes vote (R225). -/
def voteTriplex (cycle : Nat) (a b c : LaneTx) (s : State) : State :=
  match diffGroup a b, diffGroup b c, diffGroup a c with
  | none, none, _ => issueTx a s
  | none, some g, _ => voteMinority 2 g cycle a s
  | some g, none, _ => voteMinority 0 g cycle b s
  | some g, some _, none => voteMinority 1 g cycle a s
  | some g, some h, some k => triadStop (lastDiff 3 (min g (min h k)) cycle true s)

/-- The lane that does not vote now: the fenced one, or the one out for debug; 3 for none. -/
def State.silentLane (s : State) : Nat := if s.trd.debugLive then s.trd.debugLane else s.trd.fencedLane

/-- TRIAD_TRANSACTION (R225): nothing leaves a stopped triad, or one under self-test; split lanes issue unvoted (R230). -/
def execTriadTransaction (w : When) (cycle : Nat) (l0 l1 l2 : LaneTx) (s : State) : Result :=
  let s := s.at w
  let m := s.trd.mode
  if m = 0 then .next (voteTriplex cycle l0 l1 l2 s)
  else if m = 1 ∨ m = 2 then
    match s.silentLane with
    | 0 => .next (voteDuplex cycle l1 l2 s)
    | 1 => .next (voteDuplex cycle l0 l2 s)
    | _ => .next (voteDuplex cycle l0 l1 s)
  else .next s

/-! ### Rejoin (R227) -/

/-- REJOIN_START_TIMEOUT: a module that runs no task starts the rejoin 125 µs after the fence. -/
def execRejoinStartTimeout (w : When) (s : State) : Result :=
  let s := s.at w
  .next (if !(s.primary && s.seq.running) && decide (s.trd.fencedAt + usTicks 125 ≤ s.now) then rejoinStart s else s)

/-- TCM_COPY_COMPLETE: the lane's TCM holds what the pair's holds, and the pair's writes are mirrored into it (R227). -/
def execTcmCopyComplete (w : When) (s : State) : Result :=
  let s := s.at w
  .next (if s.trd.mode = 2 then
      modLane s.trd.fencedLane (fun x => { x with tcmSame := true }) (modTrd (fun t => { t with copyDone := true }) s)
    else s)

/-- The length of the rejoin that ends now, in whole microseconds. -/
def State.rejoinUs (s : State) : Nat := match s.trd.rejoinAt with
  | some t => (s.now - t) / usTicks 1
  | none => 0

/-- REJOIN_FINAL_STEP: with no task ready, after the copy, the lane loads the pair's architectural state and every lane
invalidates its caches; digests that agree make the triad triplex again. -/
def execRejoinFinalStep (w : When) (d : Digests) (s : State) : Result :=
  let s := s.at w
  if s.trd.mode = 2 ∧ s.trd.copyDone ∧ !s.taskReady then
    let s := modLane s.trd.fencedLane (fun x => { x with halted := false }) (lanesReload s)
    match oddLane d with
    | 3 =>
      let us := s.rejoinUs
      .next (trdEvent 1 (modTrd (fun t => { t with
        mode := 0, fencedLane := 3, debugBroken := false, rejoinAt := none, copyDone := false, rejoinMax := max t.rejoinMax us }) s))
    | 4 => .next (triadStop s)
    | l => .next (fenceLane l (noGroup l) s)
  else .next s

/-! ### Split (R229 to R232) -/

/-- Why a split point is refused; 0 where it is accepted (R229, R337). -/
def splitRefusal (s : State) : Nat :=
  let x := s.bgt.slots.getD 23 {}
  if s.trd.mode ≠ 0 ∨ s.armed.isSome then 1
  else if s.taskReady then 2
  else if !s.bgt.mask.testBit 23 || x.exhausted || decide (x.budget < x.spent + 10000) || s.fencedSrc 18 then 3
  else if s.trd.splitInPeriod then 4
  else if s.trd.splitEntry.any (· == 0) then 5
  else 0

/-- A write of `TRD_CTRL.SPLIT`: the firmware's. The voted architectural state is saved, and lane k starts at its entry with
its number (R230); interrupts are held while the mode is SPLIT. -/
def splitAct (who : Agent) (s : State) : State :=
  if !isFw who then s
  else
    let r := splitRefusal s
    if r = 0 then modTrd (fun t => { t with
      archSaved := true
      lanes := t.lanes.mapIdx fun k x => { x with entry := some (t.splitEntry.getD k 0, k), upperZero := false, archSame := false }
      mode := 3, splits := tallyInc t.splits, splitRefuse := 0, splitInPeriod := true, splitDone := [false, false, false] }) s
    else modTrd (fun t => { t with splitRefuse := r, splitRefused := tallyInc t.splitRefused }) s

/-- A write of `TRD_SPLIT_END`: a split lane ends its job; the last one ends the interval. -/
def splitEndAct (who : Agent) (d : Digests) (s : State) : State :=
  match who with
  | .lane k =>
    if s.trd.mode = 3 then
      let s := modTrd (fun t => { t with splitDone := putAt t.splitDone k.val true }) s
      if s.trd.splitDone.all (· == true) then splitRejoin 1 d s else s
    else s
  | _ => s

/-! ### Debug (R234 to R236) -/

/-- A write of `TRD_DBG_CTRL.ARM`: the host as ENGINEER; lane 3 arms nothing. -/
def debugArmAct (who : Agent) (lane : Nat) (s : State) : State :=
  if hostAtLeast 3 who s then
    modTrd (fun t => { t with
      dbgLane := lane, armLane := if lane < 3 then some lane else none, armUntil := s.aon + aonSec 600 }) s
  else s

/-- A write of `TRD_DBG_CTRL.DETACH`: the host's, which writes as OPERATOR at least (R236, R354). -/
def debugDetachAct (who : Agent) (s : State) : State := if hostAtLeast 2 who s then endDebug 1 s else s

/-- DEBUG_ARM_LAPSE (R234): 600 s after the arm. -/
def execDebugArmLapse (w : When) (s : State) : Result :=
  let s := s.at w
  .next (if s.trd.armLane.isSome ∧ s.trd.armUntil ≤ s.aon then modTrd (fun t => { t with armLane := none }) s else s)

/-- Why an attach is refused; 0 where it is accepted (R234). A triad with a retired lane is never triplex, so that cause is
judged before the mode (log entry 103, DEDUCED). -/
def attachRefusal (lane : Nat) (s : State) : Nat :=
  if s.primary then 1
  else if s.armed ≠ some lane then 2
  else if s.trd.retired then 4
  else if s.trd.mode ≠ 0 then 3
  else 0

/-- PROBE_ATTACH (R234, R235). -/
def execProbeAttach (w : When) (lane : Fin 4) (session : Nat) (s : State) : Result :=
  let s := s.at w
  let r := attachRefusal lane.val s
  if r = 0 then
    let s := modTrd (fun t => { t with mode := 1, debugBroken := true, debugLive := true, debugLane := lane.val }) (laneOut lane.val s)
    .next (ledger 0x0704 lane.val [lane.val, session] (trdEvent 4 s))
  else .next (modTrd (fun t => { t with dbgRefuse := r, dbgRefused := tallyInc t.dbgRefused }) s)

/-- PROBE_DETACH (R236). -/
def execProbeDetach (w : When) (s : State) : Result := .next (endDebug 0 (s.at w))

end Sys2Proof.Machine
end

