-- ==== Sys2Proof/Machine/Wvl.lean ====
section
/-! DEFINITION. The commands of the pair link (chapter 11). -/

namespace Sys2Proof.Machine

open Sys2Proof

/-! ### Heartbeats and lanes -/

/-- A write of `WVL_ALIVE` (R258): the firmware's alone. -/
def wvlAliveAct (who : Agent) (s : State) : State :=
  if isFw who then modWvl (fun w => { w with aliveAt := some s.pcount }) s else s

/-- What a heartbeat tells of the partner (R258, R259): a partner that was lost is regained. -/
def partnerSeen (h : Heartbeat) (s : State) : State :=
  let was := s.wvl.partner.present
  let s := modWvl (fun w => { w with
    hbSeen := true, missRun := 0, lastHbStrobe := s.pcount
    partner := {
      present := true, everSeen := true, side := h.hdr.side, role := h.hdr.role, flags := h.flags, gen := h.gen
      digest16 := h.digest16, blvl := h.blvl, epoch := h.hdr.epoch, reserve := h.reserve, ack := h.ack
      heldGen := h.heldGen, heldDigest := h.heldDigest } }) s
  when (!was) (fun s => raise .wvl 1 (report 28 0xFF (ledger 0x0A05 0xFFFF [1] s))) s

/-- A primary at a heartbeat (R266 to R269): a partner that enters SYNCING is reseeded, so is a task in which it found a
latent divergence, and `ACK` judges the copies. -/
def primaryHeartbeat (h : Heartbeat) (before : Nat) (s : State) : State :=
  if s.partnerInService then
    let s := if h.hdr.role = 2 ∧ before ≠ 2 then s.myTasks.foldl (fun s t => startReseed t s) s
      else (s.myTasks.filter h.wants.testBit).foldl (fun s t => if s.wvl.reseed.testBit t && !(s.copyState t).ended then s else startReseed t s) s
    s.myTasks.foldl (fun s t => judgeAck t (h.ack.getD t 0) h.pcount s) s
  else s

/-- A heartbeat by the receiver's role (R261, R263, R268). -/
def heartbeatByRole (h : Heartbeat) (before : Nat) (s : State) : State :=
  match s.wvl.role with
  | 0 =>
    if s.gen.phase ≠ 6 ∨ s.wvl.coding = 0 ∨ s.wvl.coding = 3 then s
    else if h.hdr.role = 1 then join s
    else if h.hdr.role = 0 then (if s.wvl.side = 0 then primaryFromP6 s else join s)
    else s
  | 1 => primaryHeartbeat h before s
  | 3 => if s.keeperWritable then raiseReserve (h.hdr.epoch + 1) s else s
  | 4 => if h.hdr.role = 1 then join s else s
  | 5 => if h.hdr.role = 1 ∧ s.wvl.mismatchCause ≠ 1 then join s else s
  | _ => s

/-- HEARTBEAT_RECEIVED (R258 to R261, R263, R266, R268, R338). -/
def execHeartbeatReceived (w : When) (h : Heartbeat) (s : State) : Result :=
  let s := s.at w
  .next (linkIn h.hdr (fun s =>
    let before := if s.wvl.partner.present then s.wvl.partner.role else 7
    heartbeatByRole h before (unblock (partnerSeen h s))) s)

/-- LINK_FRAME_DISCARD (R254, R256). -/
def execLinkFrameDiscard (w : When) (lane : Fin 4) (e : LinkErr) (s : State) : Result :=
  let s := s.at w
  .next (if s.pair.mode = 0 ∨ 4 ≤ lane.val then s
    else match e with
      | .ownSide => ownSideFrame s
      | .reservedType => modWvl (fun x => { x with linkErr := tallyInc x.linkErr }) s
      | .badCrc => modWvl (fun x => { x with linkErr := tallyInc x.linkErr }) s)

/-- LANE_DOWN (R256): a lane that has seen no valid frame for 1 ms. -/
def execLaneDown (w : When) (lane : Fin 4) (s : State) : Result :=
  let s := s.at w
  let l := lane.val
  .next (if s.wvl.lanesUp.testBit l && decide (s.wvl.laneSeen.getD l 0 + aonMs 1 ≤ s.aon) then laneChange l false s else s)

/-- The partner is lost (R259, R271, R276). A primary whose committed delta is being stored keeps waiting for the partner's
report (log entry 90, DESIGN CHOICE). -/
def partnerLost (s : State) : State :=
  let s := modWvl (fun w => { w with partner := { w.partner with present := false } }) s
  let s := raise .wvl 1 (report 28 0xFF (ledger 0x0A05 0xFFFF [0] s))
  match s.wvl.role with
  | 1 => copiesLost s
  | 2 => setRole 4 12 s
  | 3 => modWvl (fun w => { w with takeAt := some { count := s.pcount + 1, cause := 1, loaded := true } }) (loadEpoch s)
  | _ => s

/-- HEARTBEAT_MISS (R259): a period of the receiver that ended without a heartbeat, once a period. -/
def execHeartbeatMiss (w : When) (s : State) : Result :=
  let s := s.at w
  .next (if s.pair.mode ≠ 0 && !s.wvl.hbPrev then
      let s := modWvl (fun x => { x with hbPrev := true, hbMissed := tallyInc x.hbMissed, missRun := x.missRun + 1 }) s
      if 2 ≤ s.wvl.missRun && s.wvl.partner.present then partnerLost s else s
    else s)

/-! ### Copies -/

/-- COPY_RECEIVED (R265, R266, R267, R269). -/
def execCopyReceived (w : When) (h : LinkHdr) (c : CopyMsg) (s : State) : Result := .next (linkIn h (copyTaken c) (s.at w))

/-- RESEED_SEND (R267). -/
def execReseedSend (w : When) (task : Fin 16) (lines : Nat) (s : State) : Result := .next (reseedStep task lines (s.at w))

/-- RESEED_RECEIVED (R267). -/
def execReseedReceived (w : When) (h : LinkHdr) (m : ReseedMsg) (s : State) : Result := .next (linkIn h (reseedTaken m) (s.at w))

/-! ### Hand-over and takeover -/

/-- The first strobe at least 10 µs away. -/
def State.soonStrobe (s : State) : Nat := (s.islandTime linkIsland + usTicks 10 + (ticksPerPeriod - 1)) / ticksPerPeriod

/-- A STANDBY module prepares a takeover at a strobe. -/
def prepareTake (count cause : Nat) (s : State) : State :=
  if s.wvl.role = 3 then modWvl (fun w => { w with takeAt := some { count := count, cause := cause } }) s else s

/-- RELINQUISH_RECEIVED (R272): at H, or at the first strobe at least 10 µs away. -/
def execRelinquishReceived (w : When) (h : LinkHdr) (hstrobe : Nat) (s : State) : Result :=
  .next (linkIn h (fun s => prepareTake (max hstrobe s.soonStrobe) 2 s) (s.at w))

/-- HANDOVER_RECEIVED (R270, R273): acknowledged by a STANDBY module, which takes over at H. -/
def execHandoverReceived (w : When) (h : LinkHdr) (m : HandoverMsg) (s : State) : Result :=
  .next (linkIn h (fun s => if s.wvl.role = 3 then prepareTake m.h m.cause (linkSend 6 (two m.h) s) else s) (s.at w))

/-- Every committed task's latest copy has been reported in `ACK` (R273). -/
def State.allAcked (s : State) : Bool :=
  s.myTasks.all fun t =>
    let c := s.copyState t
    c.sent.isEmpty && c.pending.isNone && !(s.wvl.notCurrent.testBit t)

/-- The strobe of this period serves as S (R273). -/
def State.handoverTest (s : State) (x : Handover) : Bool :=
  let at' := s.pcount * ticksPerPeriod
  x.h.isNone && decide (x.asked + usTicks 250 ≤ at') && (s.allAcked || decide (x.asked + usTicks 4500 ≤ at'))

/-- HANDOVER_ANNOUNCE (R273 steps 1 and 2). -/
def execHandoverAnnounce (w : When) (s : State) : Result :=
  let s := s.at w
  match s.wvl.handover with
  | none => .next s
  | some x =>
    if s.primary && s.handoverTest x then
      let h := s.pcount + 2
      let s := linkSend 5 (two h ++ [x.cause]) (modWvl (fun y => { y with handover := some { x with h := some h, reply := none } }) s)
      .next (answerTo 4 x.reply 0 0 (two h) s)
    else .next s

/-- HANDOVER_ACK_RECEIVED (R273 step 4): in time before the strobe H − 1. -/
def execHandoverAckReceived (w : When) (h : LinkHdr) (hstrobe : Nat) (s : State) : Result :=
  .next (linkIn h (fun s =>
    match s.wvl.handover with
    | some x =>
      if x.h = some hstrobe ∧ s.pcount + 1 < hstrobe then modWvl (fun y => { y with handover := some { x with acked := true } }) s else s
    | none => s) (s.at w))

/-- A restart that waits for H follows it (R396). -/
def restartAtH (now : Bool) (s : State) : State :=
  { s with gen := { s.gen with restart := s.gen.restart.map fun r =>
      if r.atH then { r with atH := false, due := if now then s.aon else r.due } else r } }

/-- The tasks whose first start at or after A falls on the strobe of a role change swap on the module that has left PRIMARY too
(R61). -/
def swapAtChange (s : State) : State := finishSwaps (s.taskOrder.foldl (fun s t => startTask t (s.pcount * ticksPerPeriod) s.pcount s) s)

/-- HANDOVER_STROBE (R273 step 4, R272, R275): at H the primary gives up its role, or abandons the hand-over. -/
def execHandoverStrobe (w : When) (s : State) : Result :=
  let s := s.at w
  match s.wvl.handover with
  | some x =>
    if s.primary && (match x.h with | some h => decide (h ≤ s.pcount) | none => false) then
      if x.acked then
        let s := when (!x.forced) (raise .wvl 6) s
        .next (restartAtH true (swapAtChange (leavePrimary x.cause s)))
      else
        let s := modWvl (fun y => { y with handover := none }) s
        .next (restartAtH false (raise .wvl 6 (ledger 0x0A09 0xFFFF [] s)))
    else .next s
  | none => .next s

/-- YIELD_TO_PARTNER (R260, R275): from the next strobe on. A restart that waited for H of an orderly hand-over follows (R396). -/
def execYieldToPartner (w : When) (s : State) : Result :=
  let s := s.at w
  .next (if s.primary && s.wvl.yielding && decide (s.wvl.yieldAt ≤ s.pcount) then restartAtH true (swapAtChange (leavePrimary 8 s)) else s)

/-- TAKEOVER (R271, R274). -/
def execTakeover (w : When) (s : State) : Result :=
  let s := s.at w
  match s.wvl.takeAt with
  | some k => .next (if s.wvl.role = 3 ∧ k.count ≤ s.pcount then takeOver k s else s)
  | none => .next s

/-- A write of `WVL_CTRL.HANDOVER` (R273): the firmware's; ignored unless a hand-over can be made. -/
def wvlHandoverAct (who : Agent) (s : State) : State :=
  if isFw who && s.canHandOver then requestHandover 3 none s else s

/-! ### Pair commands (R279) -/

/-- A refused `PAIR_COMMAND`. -/
def pairRefuse (ses : Fin 8) (code : Nat) (s : State) : State := reply ses 8 code (two 0) s

/-- An accepted `PAIR_COMMAND` is recorded. -/
def pairAccept (action : Nat) (s : State) : State := ledger 0x0A0A 0xFFFF [action] s

/-- A hand-over or reseed is in progress. -/
def State.pairBusy (s : State) : Bool := s.wvl.handover.isSome || s.wvl.takeAt.isSome || s.wvl.reseed != 0

/-- PAIR_HANDOVER (R273, R279): answered once H is fixed. -/
def execPairHandover (w : When) (ses : Fin 8) (s : State) : Result :=
  .next (withSession ses 11 2 false (fun s =>
    if s.pair.mode = 0 ∨ !s.primary then pairRefuse ses 1 s
    else if !s.partnerStandby then pairRefuse ses 2 s
    else if s.pairBusy then pairRefuse ses 3 s
    else requestHandover 3 (some ses.val) (pairAccept 1 (defer 4 ses s))) (s.at w))

/-- PAIR_TAKEOVER (R270, R279): the first strobe at least 10 µs after the command. -/
def execPairTakeover (w : When) (ses : Fin 8) (s : State) : Result :=
  .next (withSession ses 11 2 false (fun s =>
    if s.pair.mode = 0 ∨ (s.wvl.role ≠ 2 ∧ s.wvl.role ≠ 3) then pairRefuse ses 1 s
    else if s.wvl.role = 2 then pairRefuse ses 2 s
    else if s.pairBusy then pairRefuse ses 3 s
    else reply ses 0 0 (two 0) (prepareTake s.soonStrobe 6 (pairAccept 2 s))) (s.at w))

/-- PAIR_RESYNC (R279). -/
def execPairResync (w : When) (ses : Fin 8) (s : State) : Result :=
  .next (withSession ses 11 3 false (fun s =>
    if s.pair.mode = 0 ∨ (s.wvl.role ≠ 2 ∧ s.wvl.role ≠ 3) then pairRefuse ses 1 s
    else if s.wvl.role = 2 then pairRefuse ses 2 s
    else if s.pairBusy then pairRefuse ses 3 s
    else reply ses 0 0 (two 0) (enterSync (setRole 2 11 (pairAccept 3 s)))) (s.at w))

/-- PAIR_EPOCH_ADVANCE (R262, R279): the reserve is written first; the epoch follows from the next strobe. -/
def execPairEpochAdvance (w : When) (ses : Fin 8) (amount : Nat) (s : State) : Result :=
  .next (withSession ses 11 3 false (fun s =>
    if s.pair.mode = 0 ∨ !s.primary then pairRefuse ses 1 s
    else if amount = 0 ∨ 2 ^ 30 < amount then pairRefuse ses 4 s
    else if !s.keeperWritable then pairRefuse ses 5 s
    else
      let e := (s.wvl.epochNext.getD s.wvl.epoch + amount) % 2 ^ 32
      let s := queueJob { cls := 0, kind := .reserve e, pages := 2 } (modWvl (fun x => { x with epochNext := some e }) (pairAccept 4 s))
      reply ses 0 0 (two 0) s) (s.at w))

/-- PAIR_FORCE_PRIMARY (R276, R279): PRIMARY at once, every task cold. -/
def execPairForcePrimary (w : When) (ses : Fin 8) (s : State) : Result :=
  .next (withSession ses 11 3 false (fun s =>
    if s.pair.mode = 0 ∨ (s.wvl.role ≠ 4 ∧ s.wvl.role ≠ 5) then pairRefuse ses 1 s
    else
      let s := setRole 1 7 (startEpoch (pairAccept 5 s))
      let s := modWvl (fun x => { x with takeovers := tallyInc x.takeovers }) s
      reply ses 0 0 (two 0) (restartCold 6 (primaryCommon s))) (s.at w))

/-! ### P6 (R254, R257, R263) -/

/-- PAIR_NEGOTIATION (R254, R257, R263): P6 begins; a faulty coding is MISMATCH, `MODE` 0 is PRIMARY at once. -/
def execPairNegotiation (w : When) (s : State) : Result :=
  let s := s.at w
  .next (if s.gen.phase = 6 ∧ s.wvl.role = 0 then
      if s.wvl.coding = 0 ∨ s.wvl.coding = 3 then mismatch 1 s
      else if s.pair.mode = 0 then primaryFromP6 s
      else s
    else s)

/-- NEGOTIATE_TIMEOUT (R263): PRIMARY alone when `NEGOTIATE_S` ends. -/
def execNegotiateTimeout (w : When) (s : State) : Result :=
  let s := s.at w
  .next (if s.pair.mode ≠ 0 ∧ s.wvl.p6Start + aonSec s.pair.negotiateS ≤ s.aon ∧ s.wvl.coding ≠ 0 ∧ s.wvl.coding ≠ 3 then primaryFromP6 s else s)

end Sys2Proof.Machine
end

