-- ==== Sys2Proof/Machine/RegWrite.lean ====
section
/-! DEFINITION. What a write of a register does, block by block: the access types of R13, the writer rules of each block's
chapter, and the answers of R354 to an ignored or role-restricted write. -/

namespace Sys2Proof.Machine

open Sys2Proof

/-- How a write answers: the status of R355, and the entry's detail (1: ignored, R354). -/
abbrev WriteAnswer := Nat × Nat

/-- Done. -/
def wDone : WriteAnswer := (0, 0)

/-- Ignored (R354). -/
def wIgnored : WriteAnswer := (0, 1)

/-- The session's role is too low (R354). -/
def wRole : WriteAnswer := (3, 0)

/-- A write that every writer may make. -/
def anyWriter (s : State) : WriteAnswer × State := (wDone, s)

/-- A write of the firmware; every other one is ignored. -/
def fwWrite (who : Agent) (t : State) (s : State) : WriteAnswer × State := if isFw who then (wDone, t) else (wIgnored, s)

/-- A write of the firmware or of the host in at least the role `r`. -/
def fwOrHost (r : Nat) (who : Agent) (t : State) (s : State) : WriteAnswer × State :=
  if isFw who || hostAtLeast r who s then (wDone, t) else if isHost who then (wRole, s) else (wIgnored, s)

/-- A write of the host in the ENGINEER role; the firmware's is ignored. -/
def engineerWrite (who : Agent) (t : State) (s : State) : WriteAnswer × State :=
  if hostAtLeast 3 who s then (wDone, t) else if isHost who then (wRole, s) else (wIgnored, s)

/-- A write of state that is held once for the firmware and once for the host (R353). -/
def heldTwice (who : Agent) (fw host : State) (s : State) : WriteAnswer × State :=
  match who with
  | .firmware => (wDone, fw)
  | .host _ => (wDone, host)
  | _ => (wIgnored, s)

/-- Clears the bits of `x` that `v` selects: a W1C write (R13). -/
def w1c (x v : Nat) : Nat := x ^^^ (x &&& v)

/-- A W1C write of a unit's event register. -/
def evtClear (r : EvtReg) (v : Nat) (s : State) : WriteAnswer × State :=
  anyWriter { s with evt := s.evt.put (w1c (s.evt.get r) v) r }

/-! ### Actions of registers that have a command of their own elsewhere -/

/-- The bit-stream load is given up (R53): nothing of it stays; a committed one goes on. -/
def bslDrop (s : State) : State :=
  { s with bsl := { s.bsl with load := none } }

/-- `BSL_CTRL.ABORT` (R53): by the firmware or the host as ENGINEER. -/
def bslAbortAct (who : Agent) (s : State) : State := if fwOrEngineer who s then bslDrop s else s

/-- `GEN_RESTART` with a right key (R396, R397): after a hand-over where the partner is STANDBY, else within 1 ms. -/
def restartAct (who : Agent) (cold : Bool) (s : State) : State :=
  if !fwOrEngineer who s then s
  else if s.primary && s.partnerStandby && decide (s.pair.mode ≠ 0) then
    when s.wvl.handover.isNone (requestHandover 3 none) (requestRestart cold 1 (s.aon + aonMs 5) true s)
  else requestRestart cold 1 s.aon false s

/-- A write of `GEN_RESTART` (R396): ignored but for the key and a kind 1 or 2. -/
def genRestartWrite (who : Agent) (v : Nat) (s : State) : WriteAnswer × State :=
  let kind := v % 4
  if v / 65536 = 0x5A17 ∧ (kind = 1 ∨ kind = 2) then fwOrHost 3 who (restartAct who (kind == 2) s) s else (wIgnored, s)

/-! ### Blocks -/

/-- TMB but for the generators (R71, R73, R353): the fields of `TMB_CTRL` are judged alone (R354). -/
def tmbWrite (who : Agent) (off : Nat) (v : Word) (s : State) : WriteAnswer × State :=
  let n := v.toNat
  match off with
  | 0x00 =>
    let step := n.testBit 1
    let t := when step (stepAcceptAct who) (when (n.testBit 0) (tmbSnapAct who) s)
    (if step && isHost who && !hostAtLeast 3 who s then wRole else wDone, t)
  | 0x04 => anyWriter { s with tmb := { s.tmb with
      acqTimeout := s.tmb.acqTimeout && !n.testBit 6, trimRefused := s.tmb.trimRefused && !n.testBit 5 } }
  | 0x08 => fwWrite who (tmbSrcAct who v s) s
  | 0x30 => fwWrite who (freqTrimAct who v s) s
  | 0x34 => fwWrite who (phaseStepAct who v s) s
  | _ => (wIgnored, s)

/-- `TMB_PG_g_CTRL` (R90): the polarity, unless armed, which sets the rest level of a TPO pin (R414), then `ARM`, then `DISARM`. -/
def pgCtrlAct (who : Agent) (g v : Nat) (s : State) : State :=
  let s := showTpo g (modPg g (fun x => if x.armed then x else { x with polarity := v.testBit 2 }) s)
  when (v.testBit 1) (pulseDisarmAct who g) (when (v.testBit 0) (pulseArmAct who g) s)

/-- A programme register, which takes no write while its generator is armed (R90). -/
def pgSet (g : Nat) (f : PulseGen → PulseGen) (s : State) : State := modPg g (fun x => if x.armed then x else f x) s

/-- A pulse generator's registers: the firmware's alone (R226). -/
def pgWrite (who : Agent) (g off v : Nat) (s : State) : WriteAnswer × State :=
  match off with
  | 0x00 => fwWrite who (pgCtrlAct who g v s) s
  | 0x04 => fwWrite who (modPg g (fun x => { x with
      conflict := x.conflict && !v.testBit 4, done := x.done && !v.testBit 3, late := x.late && !v.testBit 2 }) s) s
  | 0x08 => fwWrite who (pgSet g (fun x => { x with startLo := v }) s) s
  | 0x0C => fwWrite who (pgSet g (fun x => { x with startHi := v % 65536 }) s) s
  | 0x10 => fwWrite who (pgSet g (fun x => { x with startNs := v - v % 8 }) s) s
  | 0x14 => fwWrite who (pgSet g (fun x => { x with period := v }) s) s
  | 0x18 => fwWrite who (pgSet g (fun x => { x with width := v }) s) s
  | 0x1C => fwWrite who (pgSet g (fun x => { x with count := v }) s) s
  | _ => (wIgnored, s)

/-- One port. -/
def prtWrite (who : Agent) (p off v : Nat) (s : State) : WriteAnswer × State :=
  match off with
  | 0x00 => fwOrHost 3 who (laserOffAct who p (v.testBit 0) s) s
  | 0x0C => evtClear (.prt p) (v % 64) s
  | 0x10 => heldTwice who (modPort p (fun x => { x with selFw := v % 128 }) s) (modPort p (fun x => { x with selHost := v % 128 }) s) s
  | _ => (wIgnored, s)

/-- `SVI_FRZ_CTRL`: `WIN` is stored, then `RELEASE`, then `REQ`. -/
def frzCtrlAct (who : Agent) (v : Nat) (s : State) : State :=
  let s := modSvi (fun x => { x with frzWin := bitsOf v 5 4 }) s
  when (v.testBit 0) (sviFrzReqAct who) (when (v.testBit 1) (sviFrzReleaseAct who s.svi.frzWin) s)

/-- SVI. -/
def sviWrite (who : Agent) (off v : Nat) (s : State) : WriteAnswer × State :=
  match off with
  | 0x04 => evtClear .svi (v % 16) s
  | 0x08 => heldTwice who (modSvi (fun x => { x with subSelFw := v % 512 }) s) (modSvi (fun x => { x with subSelHost := v % 512 }) s) s
  | 0x40 => fwWrite who (frzCtrlAct who v s) s
  | 0x44 => fwWrite who (modSvi (fun x => { x with tLo := v }) s) s
  | 0x48 => fwWrite who (modSvi (fun x => { x with tHi := v % 65536 }) s) s
  | 0x4C => fwWrite who (modSvi (fun x => { x with tNs := v }) s) s
  | 0x50 => fwWrite who (modSvi (fun x => { x with pre := v % 65536 }) s) s
  | 0x54 => fwWrite who (modSvi (fun x => { x with post := v % 65536 }) s) s
  | _ => (wIgnored, s)

/-- The fields of `PHE_WIN_SEL`: `AREA` and `PAGE`. -/
def winSel (v : Nat) : Nat := bitsOf v 10 8 * 256 + v % 32

/-- PHE. -/
def pheWrite (who : Agent) (off v : Nat) (s : State) : WriteAnswer × State :=
  let p := s.phe
  match off with
  | 0x04 => evtClear .phe (v % 16) s
  | 0x18 => heldTwice who { s with phe := { p with unitSelFw := v % 64 } } { s with phe := { p with unitSelHost := v % 64 } } s
  | 0x24 => heldTwice who { s with phe := { p with strSelFw := v % 64 } } { s with phe := { p with strSelHost := v % 64 } } s
  | 0x40 => heldTwice who { s with phe := { p with winSelFw := winSel v } } { s with phe := { p with winSelHost := winSel v } } s
  | _ => (wIgnored, s)

/-- WCE. -/
def wceWrite (who : Agent) (off v : Nat) (s : State) : WriteAnswer × State :=
  match off with
  | 0x04 => evtClear .wce (v % 16) s
  | 0x08 => heldTwice who { s with wce := { s.wce with termSelFw := v % 64 } } { s with wce := { s.wce with termSelHost := v % 64 } } s
  | _ => (wIgnored, s)

/-- SEQ (R199, R217, R226). -/
def seqWrite (who : Agent) (off v : Nat) (s : State) : WriteAnswer × State :=
  let q := s.seq
  match off with
  | 0x00 => anyWriter { s with seq := { q with retSkipped := q.retSkipped && !v.testBit 4, commitRefused := q.commitRefused && !v.testBit 3 } }
  | 0x04 => anyWriter (when (v.testBit 0) (retNowAct who) s)
  | 0x08 => fwWrite who (seqCommitAct who (v % 16) s) s
  | 0x20 => heldTwice who { s with seq := { q with selFw := v % 16 } } { s with seq := { q with selHost := v % 16 } } s
  | _ => if 0x100 ≤ off ∧ off < 0x140 then evtClear (.tevt ((off - 0x100) / 4)) (v % 16) s else (wIgnored, s)

/-- `TRD_DBG_CTRL` (R234, R236, R354): `LANE` is stored, then `DETACH`, then `ARM`; each field is judged alone, and only an
ENGINEER's write reaches `LANE` and `ARM`. -/
def dbgCtrlAct (who : Agent) (v : Nat) (s : State) : State :=
  let lane := bitsOf v 5 4
  let s := when (hostAtLeast 3 who s) (modTrd (fun t => { t with dbgLane := lane })) s
  when (v.testBit 0) (debugArmAct who lane) (when (v.testBit 1) (debugDetachAct who) s)

/-- A write of `TRD_DBG_CTRL`: the firmware's is ignored; an OPERATOR's that would arm is answered `ROLE`. -/
def dbgCtrlWrite (who : Agent) (v : Nat) (s : State) : WriteAnswer × State :=
  if !isHost who then (wIgnored, s)
  else (if v.testBit 0 && !hostAtLeast 3 who s then wRole else wDone, dbgCtrlAct who v s)

/-- TRD. -/
def trdWrite (who : Agent) (d : Digests) (off v : Nat) (s : State) : WriteAnswer × State :=
  match off with
  | 0x04 => fwWrite who (when (v.testBit 0) (splitAct who) s) s
  | 0x08 => anyWriter (modTrd (fun t => { t with evt := w1c t.evt (v % 32) }) s)
  | 0x14 => fwWrite who (modTrd (fun t => { t with splitEntry := putAt t.splitEntry 0 v }) s) s
  | 0x18 => fwWrite who (modTrd (fun t => { t with splitEntry := putAt t.splitEntry 1 v }) s) s
  | 0x1C => fwWrite who (modTrd (fun t => { t with splitEntry := putAt t.splitEntry 2 v }) s) s
  | 0x20 => match who with
    | .lane _ => (wDone, splitEndAct who d s)
    | _ => (wIgnored, s)
  | 0x28 => dbgCtrlWrite who v s
  | _ => (wIgnored, s)

/-- BGT. -/
def bgtWrite (who : Agent) (off v : Nat) (s : State) : WriteAnswer × State :=
  match off with
  | 0x20 => heldTwice who { s with bgt := { s.bgt with selFw := v % 64 } } { s with bgt := { s.bgt with selHost := v % 64 } } s
  | _ => (wIgnored, s)

/-- PTM. -/
def ptmWrite (off v : Nat) (s : State) : WriteAnswer × State :=
  match off with
  | 0x04 => evtClear .ptm (v % 256) s
  | _ => (wIgnored, s)

/-- WVL (R226). -/
def wvlWrite (who : Agent) (off v : Nat) (s : State) : WriteAnswer × State :=
  match off with
  | 0x04 => fwWrite who (when (v.testBit 0) (wvlHandoverAct who) s) s
  | 0x08 => fwWrite who (wvlAliveAct who s) s
  | 0x0C => evtClear .wvl (v % 256) s
  | _ => (wIgnored, s)



/-- `MEM_CTRL` as a writer in the ENGINEER role or the firmware sets it. -/
def memCtrlAct (who : Agent) (v : Nat) (s : State) : State :=
  let s := when (v.testBit 1) (retireAct who) s
  let s := when (v.testBit 2) (scrubLineAct who .none) s
  when (v.testBit 3) (purgeForeignAct who) s

/-- MEM: the host writes only what R294 names, and only as ENGINEER. -/
def memWrite (who : Agent) (off v : Nat) (s : State) : WriteAnswer × State :=
  let m := s.mem
  match off with
  | 0x00 => fwWrite who { s with mem := { m with
      ueStrongFlag := m.ueStrongFlag && !v.testBit 6, clearRefused := m.clearRefused && !v.testBit 7 } } s
  | 0x04 =>
    if isFw who then (wDone, memCtrlAct who v (when (v.testBit 0) (memClearAct who) s))
    else if v / 2 % 8 = 0 then (wIgnored, s)
    else fwOrHost 3 who (memCtrlAct who v s) s
  | 0x08 => fwOrHost 3 who { s with mem := if isHost who then { m with retirePageHost := v % 2 ^ 18 } else { m with retirePageFw := v % 2 ^ 18 } } s
  | 0x10 => fwOrHost 3 who { s with mem := if isHost who then { m with scrubLineHost := v % 2 ^ 28 } else { m with scrubLineFw := v % 2 ^ 28 } } s
  | 0x14 => fwOrHost 3 who (ceLogAckAct who (v % 32) s) s
  | 0x18 => fwWrite who { s with mem := { m with devSelFw := v % 32 } } s
  | _ => (wIgnored, s)

/-- `CRT_RT_COMMIT`. -/
def crtCommit (who : Agent) (v : Nat) (s : State) : State :=
  match v % 4 with
  | 1 => crtInstallAct who s
  | 2 => crtEmptyAct who s
  | _ => crtInvalidAct who s

/-- WRD and CRT: the first-refusal captures re-arm; the `CRT_RT_` registers are the firmware's. -/
def wrdWrite (who : Agent) (off v : Nat) (s : State) : WriteAnswer × State :=
  let w := s.wrd
  let rearm (c : Capture) : Capture := { c with valid := c.valid && !v.testBit 31 }
  if off < 0x900 then
    if off % 0x100 = 0x0C then anyWriter { s with wrd := { w with wards := updAt w.wards (off / 0x100) fun x => { x with first := rearm x.first } } }
    else (wIgnored, s)
  else match off with
    | 0x8010 => anyWriter { s with wrd := { w with first := rearm w.first } }
    | 0x801C => fwWrite who { s with wrd := { w with rtSlot := v % 256 } } s
    | 0x8020 => fwWrite who { s with wrd := { w with rtBaseLo := v } } s
    | 0x8024 => fwWrite who { s with wrd := { w with rtBaseHi := v } } s
    | 0x8028 => fwWrite who { s with wrd := { w with rtLength := v } } s
    | 0x802C => fwWrite who { s with wrd := { w with rtSpace := v % 2 } } s
    | 0x8030 => fwWrite who { s with wrd := { w with rtRead := v } } s
    | 0x8034 => fwWrite who { s with wrd := { w with rtWrite := v } } s
    | 0x8038 => fwWrite who (crtCommit who v s) s
    | _ => (wIgnored, s)

/-- FCR (R336, R341, R342). -/
def fcrWrite (who : Agent) (off : Nat) (v : Word) (s : State) : WriteAnswer × State :=
  let n := v.toNat
  let f := s.fcr
  match off with
  | 0x04 => evtClear .fcr (n % 65536) s
  | 0x18 => fwOrHost 2 who (fcrAckAct who (n % 64) s) s
  | 0x20 => heldTwice who { s with fcr := { f with selFw := n % 64 } } { s with fcr := { f with selHost := n % 64 } } s
  | 0x28 => if fwOrEngineer who s && !s.fcrCfgTaken who v then (wIgnored, s) else fwOrHost 3 who (fcrCfgAct who v s) s
  | 0x34 => fwWrite who { s with fcr := { f with histRead := n } } s
  | _ => (wIgnored, s)

/-- `LGR_CTRL`: `SNAP`, then `READ`, then `REQ`. -/
def lgrCtrlAct (who : Agent) (v : Nat) (s : State) : State :=
  when (v.testBit 2) (lgrReqAct who) (when (v.testBit 1) (lgrReadAct who) (when (v.testBit 0) (lgrSnapAct who) s))

/-- LGR: the firmware's alone but for the event register (R332). -/
def lgrWrite (who : Agent) (off v : Nat) (s : State) : WriteAnswer × State :=
  let l := s.lgr
  match off with
  | 0x04 => evtClear .lgr (v % 256) s
  | 0x08 => fwWrite who (lgrCtrlAct who v s) s
  | 0x24 => fwWrite who { s with lgr := { l with rdLo := v } } s
  | 0x28 => fwWrite who { s with lgr := { l with rdHi := v } } s
  | 0x40 => fwWrite who { s with lgr := { l with reqCode := v } } s
  | _ => if 0x44 ≤ off ∧ off < 0x5C then fwWrite who { s with lgr := { l with reqData := putAt l.reqData ((off - 0x44) / 4) v } } s else (wIgnored, s)

/-- `KPR_CTRL`: `COMMISSION`, then `RECOMMISSION`. -/
def kprCtrlAct (who : Agent) (v : Nat) (s : State) : State :=
  when (v.testBit 1) (recommissionAct who) (when (v.testBit 0) (commissionAct who) s)

/-- A write of `KPR_CTRL` that starts nothing is answered as ignored (R315, R354). -/
def State.kprCtrlIgnored (s : State) (who : Agent) (v : Nat) : Bool :=
  (v.testBit 0 || v.testBit 1) && !(v.testBit 0 && s.mayCommission who)
    && !(v.testBit 1 && s.mayRecommission who && s.confirmed && s.keeperWritable)

/-- KPR: the host's as ENGINEER but for the flags (chapter 14). -/
def kprWrite (who : Agent) (off v : Nat) (s : State) : WriteAnswer × State :=
  let k := s.kpr
  match off with
  | 0x00 => anyWriter { s with kpr := { k with confirmBad := k.confirmBad && !v.testBit 9 } }
  | 0x04 => evtClear .kpr (v % 256) s
  | 0x08 => if hostAtLeast 3 who s && s.kprCtrlIgnored who v then (wIgnored, kprCtrlAct who v s) else engineerWrite who (kprCtrlAct who v s) s
  | 0x28 => engineerWrite who { s with kpr := { k with confirm := some v } } s
  | 0x2C => engineerWrite who { s with kpr := { k with newBlvl := v } } s
  | _ => if 0x40 ≤ off ∧ off < 0x70 then engineerWrite who { s with kpr := { k with names := putAt k.names ((off - 0x40) / 4) v } } s else (wIgnored, s)

/-- BSL (R53, R54): clearing `REFUSED` clears `SECTION` and `DETAIL` with `CODE`, and leaves `BSL_REFUSE_OFFSET` (log entry 110,
DESIGN CHOICE). -/
def bslWrite (who : Agent) (off v : Nat) (s : State) : WriteAnswer × State :=
  match off with
  | 0x00 => fwOrHost 3 who (when (v.testBit 0) (bslAbortAct who) s) s
  | 0x04 => anyWriter (if v.testBit 5 then { s with bsl := { s.bsl with refused := false, refuse := 0 } } else s)
  | _ => (wIgnored, s)

/-- UPD (R364). -/
def updWrite (who : Agent) (off v : Nat) (s : State) : WriteAnswer × State :=
  match off with
  | 0x00 => fwOrHost 3 who (when (v.testBit 0) (updAbortAct who) s) s
  | 0x04 => anyWriter { s with upd := { s.upd with refused := s.upd.refused && !v.testBit 4 } }
  | 0x08 => evtClear .upd (v % 16) s
  | _ => (wIgnored, s)

/-- A written `FIO_FAULT_MASK`: bits 28 to 0; the AO bits stay as they are without the AOB (R9). -/
def maskWrite (old v : Nat) (s : State) : Nat :=
  if s.present 2 then v % 2 ^ 29 else v % 2 ^ 24 + old / 2 ^ 24 % 16 * 2 ^ 24 + v / 2 ^ 28 % 2 * 2 ^ 28

/-- `FIO_AO_CTRL` (R381): `CHANNEL` is stored, then `END`, then `COMMISSION`. -/
def aoCtrlAct (who : Agent) (v : Nat) (s : State) : State :=
  let ch := bitsOf v 5 4
  let s := { s with fio := { s.fio with aoSel := ch } }
  when (v.testBit 0) (aoCommissionAct who ch) (when (v.testBit 1) (aoCommissionEndAct who) s)

/-- A write of `FIO_AO_CTRL` with `COMMISSION` is ignored while the module is PRIMARY, or while the channel is unused or in
fault (R381). -/
def State.aoCtrlIgnored (s : State) (v : Nat) : Bool :=
  v.testBit 0 && (s.primary || s.aoMode (bitsOf v 5 4) == 0 || (s.ao (bitsOf v 5 4)).held)

/-- A write of `FIO_AO_CTRL` by the host as ENGINEER, unless it is ignored. -/
def aoCtrlWrite (who : Agent) (v : Nat) (s : State) : State :=
  if hostAtLeast 3 who s && !s.aoCtrlIgnored v then aoCtrlAct who v s else s

/-- FIO (R385). -/
def fioWrite (who : Agent) (off v : Nat) (s : State) : WriteAnswer × State :=
  let f := s.fio
  match off with
  | 0x00 => heldTwice who (fioRefresh { s with fio := { f with seenFw := f.seenFw && !v.testBit 1 } })
      (fioRefresh { s with fio := { f with seenHost := f.seenHost && !v.testBit 1 } }) s
  | 0x04 => heldTwice who (fioRefresh { s with fio := { f with maskFw := maskWrite f.maskFw v s } })
      (fioRefresh { s with fio := { f with maskHost := maskWrite f.maskHost v s } }) s
  | 0x100 => if hostAtLeast 3 who s && s.aoCtrlIgnored v then (wIgnored, s) else engineerWrite who (aoCtrlAct who v s) s
  | _ => (wIgnored, s)

/-- HIF. -/
def hifWrite (who : Agent) (off v : Nat) (s : State) : WriteAnswer × State :=
  let h := s.hif
  match off with
  | 0x04 => evtClear .hif (v % 16) s
  | 0x10 => heldTwice who { s with hif := { h with selFw := v % 8 } } { s with hif := { h with selHost := v % 8 } } s
  | _ => (wIgnored, s)

/-- A word of a 160-bit mask replaced. -/
def putMask (x : BitVec 160) (w v : Nat) : BitVec 160 :=
  BitVec.ofNat 160 (x.toNat - evtWord x w * 2 ^ (32 * w) + v * 2 ^ (32 * w))

/-- EVT: the pending bits and the firmware's mask are the firmware's alone. -/
def evtWrite (who : Agent) (off v : Nat) (s : State) : WriteAnswer × State :=
  let e := s.evt
  if off < 0x14 then fwWrite who { s with evt := { e with pend := putMask e.pend (off / 4) (w1c (evtWord e.pend (off / 4)) v) } } s
  else if 0x20 ≤ off ∧ off < 0x34 then fwWrite who { s with evt := { e with fwEn := putMask e.fwEn ((off - 0x20) / 4) v } } s
  else if 0x40 ≤ off ∧ off < 0x54 then fwOrHost 3 who { s with evt := { e with hostEn := putMask e.hostEn ((off - 0x40) / 4) v } } s
  else (wIgnored, s)

/-- A write that every check has passed: RO registers and table memories ignore it (R13, R402), and a W1C bit that hardware
sets in the same clock is not cleared. -/
def writeReg (who : Agent) (d : Digests) (a : Nat) (v : Word) (s : State) : WriteAnswer × State :=
  let v := v &&& ~~~(BitVec.ofNat 32 (s.hwBits (isHost who) a))
  let off := a % 0x10000
  let n := v.toNat
  match a / 0x10000 with
  | 0 => if off = 0x1C then genRestartWrite who n s else (wIgnored, s)
  | 1 => if 0x100 ≤ off ∧ off < 0x280 then pgWrite who ((off - 0x100) / 0x20) ((off - 0x100) % 0x20) n s else tmbWrite who off v s
  | 2 => prtWrite who (off / 0x400) (off % 0x400) n s
  | 3 => sviWrite who off n s
  | 4 => pheWrite who off n s
  | 5 => wceWrite who off n s
  | 6 => seqWrite who off n s
  | 7 => trdWrite who d off n s
  | 8 => bgtWrite who off n s
  | 9 => ptmWrite off n s
  | 10 => wvlWrite who off n s
  | 11 => memWrite who off n s
  | 12 => wrdWrite who off n s
  | 13 => fcrWrite who off v s
  | 14 => lgrWrite who off n s
  | 15 => kprWrite who off n s
  | 16 => bslWrite who off n s
  | 17 => updWrite who off n s
  | 18 => fioWrite who off n s
  | 19 => hifWrite who off n s
  | 20 => evtWrite who off n s
  | _ => (wIgnored, s)

end Sys2Proof.Machine
end

