-- ==== Sys2Proof/Machine/Bsl.lean ====
section
/-! DEFINITION. The bit-stream loader (chapter 2): blocks, commit, revert, abort, timeout, the stores of a pair, and the
choice of a generation in P4. -/

namespace Sys2Proof.Machine

open Sys2Proof

/-! ### The first block (R39, R40, R55) -/

/-- A header failure. -/
def hdrIf (c : Bool) (code off : Nat) : Option Fail := failIf c (code, 0, off)

/-- Section types that cannot change on line (R41). -/
def offLine : List Nat := [0x01, 0x0D, 0x0F, 0x11, 0x12, 0x14]

/-- Section types that a full stream must carry (R41). -/
def required (use : Nat) : List Nat :=
  [0x01, 0x02, 0x03, 0x07, 0x08, 0x09, 0x0A, 0x0B, 0x0C, 0x0D, 0x0E, 0x0F, 0x10, 0x11, 0x12, 0x13, 0x14]
    ++ (if use.testBit 0 then [5] else []) ++ (if use.testBit 1 then [6] else [])

/-- The byte range of a section. -/
def DirEntry.span (e : DirEntry) : Nat × Nat := (e.off, e.off + e.len)

/-- The offset of directory entry `i`. -/
def dirOff (i : Nat) : Nat := 0x80 + 32 * i

/-- The directory checks: count, entries one by one, and their overlap. -/
def dirInvalid (b : List Byte) (total : Nat) : Option Fail :=
  let d := directory b
  firstOf
    [hdrIf (u32 b 0x20 != 0x80) 9 0x20,
     hdrIf (decide (u16 b 0x24 < 1 ∨ 64 < u16 b 0x24)) 9 0x24,
     eachOf d.length fun i =>
      let e := d.getD i {}
      hdrIf (decide (e.flags ≠ 0 ∨ e.spare ≠ 0 ∨ e.off % 64 ≠ 0 ∨ e.off < 0x1000 ∨ e.len < 1 ∨ total < e.off + e.len)
        || (d.take i).any fun y => meets e.span y.span) 9 (dirOff i)]

/-- The checks of R55 in order over the first block; `stored` is a stored stream's length in P4, where R47 leaves some out,
and where the model leaves out check 14 too: a read-only keeper's generations still load (log entry 89, DESIGN CHOICE). -/
def headerCheck (b : List Byte) (stored : Option Nat) (s : State) : Option Fail :=
  let p4 := stored.isSome
  let kind := u16 b 6
  let use := u32 b 0xC
  let lvl := u32 b 0x10
  let total := u32 b 0x1C
  let d := directory b
  let base := s.cfg.next.getD s.cfg.cur
  let delta := kind == 2
  firstOf
    [hdrIf (u32 b 0 != 0x53424658) 1 0,
     hdrIf (u16 b 4 != 1) 2 4, hdrIf (kind != 1 && kind != 2) 2 6, hdrIf (decide (8 ≤ use)) 2 0xC,
     hdrIf (kind == 1 && u32 b 0x18 != 0) 2 0x18, hdrIf (nz b 0x26 10) 2 0x26, hdrIf (nz b 0x60 32) 2 0x60,
     hdrIf (u32 b 8 != 0x64) 3 8,
     hdrIf ((List.range 3).any fun u => use.testBit u && !s.present u) 4 0xC,
     hdrIf (decide (lvl < s.gen.blvlMin ∨ s.gen.blvlMax < lvl) || (delta && s.cfg.loaded && lvl != base.blvl)) 5 0x10,
     hdrIf (!p4 && s.bsl.genHigh == 0xFFFFFFFF) 7 0x14,
     hdrIf (decide (total < 4224 ∨ 0x40000000 < total) || (match stored with
      | some n => n != total
      | none => false)) 8 0x1C,
     hdrIf (!p4 && delta && (!s.cfg.loaded || u32 b 0x18 != base.gen)) 0xC 0x18,
     hdrIf (!p4 && decide (u32 b 0x14 ≤ s.bsl.genHigh)) 6 0x14,
     dirInvalid b total,
     eachOf d.length fun i =>
      let e := d.getD i {}
      hdrIf (decide (e.ty < 1 ∨ 0x14 < e.ty) || (d.take i).any fun y => y.ty == e.ty) 0xA (dirOff i),
     hdrIf (!delta && (required use).any fun t => !(d.any fun e => e.ty == t)) 0xB 0x80,
     eachOf d.length fun i => hdrIf (!p4 && delta && offLine.contains (d.getD i {}).ty) 0xD (dirOff i),
     hdrIf (!p4 && !s.keeperWritable) 0x17 0]

/-! ### Sections and gaps (R48 step 4) -/

/-- A section of the stream, or a gap between two. -/
structure Piece where
  first : Nat := 0
  past : Nat := 0
  entry : Option DirEntry := none
  deriving DecidableEq, Repr, Inhabited

/-- A directory entry put in its place by offset. -/
def insertEntry (e : DirEntry) : List DirEntry → List DirEntry
  | [] => [e]
  | y :: t => if e.off < y.off then e :: y :: t else y :: insertEntry e t

/-- Sections in offset order with the gaps between them; `pos` is where the section before ended, if any. -/
def piecesFrom (pos : Option Nat) : List DirEntry → List Piece
  | [] => []
  | e :: t =>
    let here : Piece := { first := e.off, past := e.off + e.len, entry := some e }
    let rest := here :: piecesFrom (some (e.off + e.len)) t
    match pos with
    | some p => if p < e.off then { first := p, past := e.off } :: rest else rest
    | none => rest

/-- The pieces of a stream in offset order. -/
def pieces (b : List Byte) : List Piece := piecesFrom none ((directory b).foldl (fun l e => insertEntry e l) [])

/-- The context of a stream's content checks. -/
def State.checkCtx (s : State) (b : List Byte) : CheckCtx :=
  { unitUse := u32 b 0xC, base := if u16 b 6 = 2 then some (s.cfg.next.getD s.cfg.cur) else none }

/-- A refusal in full: code, section, detail, offset. -/
structure LoadFault where
  code : Nat := 0
  sec : Nat := 0
  detail : Nat := 0
  off : Nat := 0
  deriving DecidableEq, Repr, Inhabited

/-- A header failure as a refusal. -/
def Fail.header (f : Fail) : LoadFault := { code := f.1, off := f.2.2 }

/-- `SEC_DIGEST` of a section whose bytes are all there (R40, R48). -/
def checkDigest (p : Piece) (bytes : List Byte) : Option LoadFault :=
  p.entry.bind fun e => if (sha384 bytes).take 16 ≠ e.digest then some { code := 0xF, sec := e.ty, off := p.first } else none

/-- The content of a section, or the zeros of a gap (R40, R48, R51). -/
def checkContent (cx : CheckCtx) (p : Piece) (bytes : List Byte) : Option LoadFault :=
  match p.entry with
  | none => (bytes.findIdx? (· != 0)).map fun i => { code := 9, off := p.first + i }
  | some e => (checkSection cx e.ty bytes).map fun f => { code := f.1, sec := e.ty, detail := f.2.1, off := p.first + f.2.2 }

/-- The checks of one piece whose bytes are all there: its digest, then its content (R48 step 4). -/
def checkPiece (cx : CheckCtx) (p : Piece) (bytes : List Byte) : Option LoadFault :=
  (checkDigest p bytes).or (checkContent cx p bytes)

/-- Every block that a piece lies in has arrived. -/
def pieceHere (blocks : List (Nat × List Byte)) (p : Piece) : Bool :=
  (List.range ((p.past + 4095) / 4096 - p.first / 4096)).all fun k => blocks.any (·.1 == 4096 * (p.first / 4096 + k))

/-- The bytes of a piece from its blocks. -/
def pieceBytes (blocks : List (Nat × List Byte)) (p : Piece) : List Byte :=
  let k := p.first / 4096
  let all := (List.range ((p.past + 4095) / 4096 - k)).flatMap fun i => ((blocks.find? (·.1 == 4096 * (k + i))).map (·.2)).getD []
  slice all (p.first - 4096 * k) (p.past - p.first)

/-- The pieces that a load has complete and not yet checked. -/
def BslLoad.due (l : BslLoad) : List Piece := (pieces l.header).filter fun p => !l.checked.contains p.first && pieceHere l.blocks p

/-! ### Refusals -/

/-- A refusal that leaves a load in progress as it is: `BUSY`, `PAIR_NOT_STAGED`, and those that meet no load (R49). -/
def refuseKeep (i : Fin 8) (code gen : Nat) (s : State) : State := replyLoad i gen 8 code (noteRefusal code 0 0 0 s)

/-- A refusal that abandons the load (R49). -/
def refuseLoad (i : Fin 8) (f : LoadFault) (gen : Nat) (s : State) : State :=
  replyLoad i gen 8 f.code (noteRefusal f.code f.sec f.detail f.off (bslDrop s))

/-- `GENERATION` of a load. -/
def BslLoad.gen (l : BslLoad) : Nat := u32 l.header 0x14

/-- A session may act on the load: it owns it, or nobody does (R50). -/
def BslLoad.mine (l : BslLoad) (i : Fin 8) : Bool := l.owner == some i.val || l.owner == none

/-! ### Blocks (R48, R50, R52) -/

/-- A received block is held in the staging region (R52), as identity 13 writes it (R284, R295). -/
def stageBlock (off : Nat) (data : List Byte) (s : State) : State :=
  unitWrite 13 (s.cfg.cur.memmap.stageFirst * 0x4000000 + off) data s

/-- A block of the load `l`, the session now its owner. -/
def takeBlock (i : Fin 8) (l : BslLoad) (off : Nat) (data : List Byte) (s : State) : State :=
  let l := { l with owner := some i.val, since := s.aon }
  let s := { s with bsl := { s.bsl with load := some l } }
  let order : LoadFault := { code := 0xE, off := off }
  if off % 4096 ≠ 0 ∨ l.total ≤ off ∨ data.length ≠ blockSize l.total off then refuseLoad i order l.gen s
  else match l.blocks.find? (·.1 == off) with
    | some b => if b.2 = data then replyLoad i l.gen 0 0 s else refuseLoad i order l.gen s
    | none =>
      let l := { l with blocks := l.blocks ++ [(off, data)] }
      let due := l.due
      let s := stageBlock off data { s with bsl := { s.bsl with load := some { l with checked := due.map (·.first) ++ l.checked } } }
      match due.findSome? fun p => checkPiece (s.checkCtx l.header) p (pieceBytes l.blocks p) with
      | some f => refuseLoad i f l.gen s
      | none => replyLoad i l.gen 0 0 s

/-- A block while no load is in progress: it must be the first of a stream (R48 step 1, R55). -/
def firstBlock (i : Fin 8) (off : Nat) (data : List Byte) (s : State) : State :=
  let gen := u32 data 0x14
  if off ≠ 0 ∨ data.length ≠ 4096 then refuseLoad i { code := 0xE, off := off } 0 s
  else match headerCheck data none s with
    | some f => refuseLoad i f.header gen s
    | none => takeBlock i { total := u32 data 0x1C, header := data } 0 data s

/-- BITSTREAM_LOAD_BLOCK (R48 to R50). -/
def execBitstreamLoadBlock (w : When) (ses : Fin 8) (offset : Nat) (data : List Byte) (s : State) : Result :=
  .next (withSession ses 4 3 false (fun s =>
    if data.isEmpty || decide (4096 < data.length) then reply ses 1 0 [] s
    else match s.bsl.load with
      | none => firstBlock ses offset data s
      | some l =>
        if l.owner = some ses.val ∨ (l.owner = none ∧ offset ≠ 0) then takeBlock ses l offset data s
        else refuseKeep ses 0x16 l.gen s) (s.at w))

/-! ### Commit (R45, R46, R48, R51, R60, R62) -/

/-- What a complete stream becomes: the generation, the stream to store, and the types it carries. -/
structure Prepared where
  g : Generation := {}
  bytes : List Byte := []
  types : List Nat := []
  deriving DecidableEq, Repr, Inhabited

/-- The own sections of units that a delta takes out of use: they swap to nothing, and the unit is held idle once no section
in force refers to it (R42). -/
def droppedTypes (old new : Generation) : List Nat :=
  (if old.unitUse.testBit 0 && !new.unitUse.testBit 0 then [5] else []) ++ (if old.unitUse.testBit 1 && !new.unitUse.testBit 1 then [6] else [])

/-- The facts of a header, and sections, as a generation. -/
def generationOf (hdr : List Byte) (parts : List (Nat × List Byte)) : Generation :=
  parts.foldl (fun g p => g.take p.1 p.2) { gen := u32 hdr 0x14, blvl := u32 hdr 0x10, unitUse := u32 hdr 0xC, digest := slice hdr 0x30 48 }

/-- The checks after `BUSY`: `DIGEST`; again the base, which a commit since the first block may have moved, and the
high-water mark, which a store since then may have raised (R43, R62); then the cross-section checks over the stream or
the merged result (R48, R51). -/
def prepare (b : List Byte) (s : State) : Except LoadFault Prepared :=
  let delta := u16 b 6 == 2
  let own := sectionParts b
  if streamDigest b ≠ slice b 0x30 48 then .error { code := 0x10, off := 0x30 }
  else if delta && u32 b 0x18 != s.cfg.cur.gen then .error { code := 0xC, off := 0x18 }
  else if u32 b 0x14 ≤ s.bsl.genHigh then .error { code := 6, off := 0x14 }
  else
    let parts := if delta then mergeParts (u32 b 0xC) (sectionParts s.cfg.stream) own else own
    let bytes := if delta then assembleStream (b.take 128) (storedParts parts) else b
    let g := generationOf bytes parts
    let g := if delta && !(own.any fun p => p.1 == 9) then { g with insts := { g.insts with carries := [] } } else g
    match crossChecks delta { g := g, parts := parts } with
    | some f => .error { code := f.code, sec := f.sec, detail := f.detail, off := f.offset (directory b) }
    | none => .ok { g := g, bytes := bytes, types := own.map (·.1) ++ droppedTypes s.cfg.cur g }

/-- Pages that a stream takes in the keeper. -/
def streamPages (b : List Byte) : Nat := (b.length + 4095) / 4096

/-- `DIGEST` of a stream as a number. -/
def digestNat (hdr : List Byte) : Nat := leNat (slice hdr 0x30 48)

/-- A commit is accepted (R45, R46, R52, R56): the keeper write is queued; a delta's swaps are pending from now on. `pair`
says that the other module of the pair stores it too, and will tell when it has (R60). `BSL_SWAP_A_LO` and `_HI` go on showing the
last A until the new one is fixed (R63; log entry 134, DESIGN CHOICE). -/
def acceptCommit (who : Option Nat) (delta pair : Bool) (p : Prepared) (s : State) : State :=
  let s := { s with
    bsl := { s.bsl with
      load := none, storing := true, storeDelta := delta, storeGen := p.g.gen, storeBytes := p.bytes, ownDone := none, committer := who
      partnerDone := if pair then some false else none, swapPending := s.bsl.swapPending || delta }
    cfg := if delta then { s.cfg with next := some p.g, carried := p.types, swapped := [], fixedA := false, merged := p.bytes } else s.cfg }
  let s := ledger 0x1003 0xFFFF [p.g.gen, if delta then 2 else 1] s
  queueJob { cls := 3, kind := .bitstream p.g.gen p.bytes delta, pages := streamPages p.bytes } s

/-- The causes of `BUSY` at a commit (R46, R60, R62; and while a store runs). -/
def State.commitBusy (s : State) (delta : Bool) : Bool :=
  s.bsl.swapPending || s.bsl.storing || (delta && (s.cart.staged.isSome || !s.primary))

/-- The partner holds the same delta, loaded and uncommitted (R60). -/
def State.partnerHolds (s : State) (hdr : List Byte) : Bool :=
  s.wvl.partner.heldGen == u32 hdr 0x14 && s.wvl.partner.heldDigest == digestNat hdr

/-- A commit of the load `l` by its owner. -/
def commitLoad (i : Fin 8) (l : BslLoad) (s : State) : State :=
  let s := { s with bsl := { s.bsl with load := some { l with owner := some i.val, since := s.aon } } }
  let delta := u16 l.header 6 == 2
  if !allBlocks l.blocks l.total then refuseLoad i { code := 0x1A } l.gen s
  else if s.commitBusy delta then refuseKeep i 0x16 l.gen s
  else match prepare (joinBlocks l.blocks l.total) s with
    | .error f => refuseLoad i f l.gen s
    | .ok p =>
      if delta && s.partnerInService && !s.partnerHolds l.header then refuseKeep i 0x18 l.gen s
      else if !s.keeperWritable then refuseLoad i { code := 0x17 } l.gen s
      else
        let pair := delta && s.partnerInService
        let s := acceptCommit (some i.val) delta pair p (defer 1 i s)
        when pair (linkSend 0x61 (l.gen :: two (digestNat l.header))) s

/-- BITSTREAM_COMMIT (R48 step 5, R49, R50). -/
def execBitstreamCommit (w : When) (ses : Fin 8) (s : State) : Result :=
  .next (withSession ses 5 3 false (fun s =>
    match s.bsl.load with
    | none => refuseKeep ses 0x1A 0 s
    | some l => if l.mine ses then commitLoad ses l s else refuseKeep ses 0x16 l.gen s) (s.at w))

/-! ### Revert, abort, timeout (R47, R49, R53) -/

/-- A slot is staged for the next restart (R47); the start in progress does not try it (R390). -/
def stageSlot (k : Nat) (s : State) : State :=
  modCart (fun c => { c with staged := some k }) { s with bsl := { s.bsl with newSlot := some k } }

/-- The previous slot is staged for the next restart (R47). -/
def stagePrevious (i : Fin 8) (s : State) : State :=
  match s.cart.slots.getD s.cart.prevSlot none with
  | none => replyLoad i 0 9 0 s
  | some x =>
    let s := copyRoles (writeIdentity (stageSlot s.cart.prevSlot s))
    replyLoad i (u32 x.bytes 0x14) 0 0 (ledger 0x1004 0xFFFF [] s)

/-- BITSTREAM_REVERT (R47, R49, R390): without a writable keeper it is refused with `KEEPER`, which abandons a load in progress. -/
def execBitstreamRevert (w : When) (ses : Fin 8) (s : State) : Result :=
  .next (withSession ses 5 3 false (fun s =>
    let foreign := match s.bsl.load with
      | some l => !l.mine ses
      | none => false
    if foreign || s.bsl.swapPending || s.bsl.storing then refuseKeep ses 0x16 0 s
    else
      let s := { s with bsl := { s.bsl with load := s.bsl.load.map fun l => { l with owner := some ses.val, since := s.aon } } }
      if !s.keeperWritable then refuseLoad ses { code := 0x17 } ((s.bsl.load.map (·.gen)).getD 0) s
      else stagePrevious ses s) (s.at w))

/-- BITSTREAM_ABORT (R53): the owner gives the load up; another session is `BUSY`; with no load, `OK`. -/
def execBitstreamAbort (w : When) (ses : Fin 8) (s : State) : Result :=
  .next (withSession ses 5 3 false (fun s =>
    match s.bsl.load with
    | none => replyLoad ses 0 0 0 s
    | some l => if l.mine ses then replyLoad ses l.gen 0 0 (bslDrop s) else refuseKeep ses 0x16 l.gen s) (s.at w))

/-- BITSTREAM_LOAD_TIMEOUT (R49): 60 s without a block or commit of the owner. -/
def execBitstreamLoadTimeout (w : When) (s : State) : Result :=
  let s := s.at w
  .next (match s.bsl.load with
    | some l => if l.since + aonSec 60 ≤ s.aon then noteRefusal 0x19 0 0 0 (bslDrop s) else s
    | none => s)

/-! ### Stores (R43, R45, R46, R52, R56, R60) -/

/-- A page of a stream store still waits or is in flight. -/
def State.streamWaits (s : State) : Bool :=
  let is (j : KprJob) : Bool := match j.kind with
    | .bitstream _ _ _ => true
    | _ => false
  s.kpr.jobs.any is || (match s.kpr.inFlight with
    | some j => is j
    | none => false)

/-- The stored stream stands in the previous slot and the high-water mark rises (R43, R45, R46). -/
def storeSlot (staged : Bool) (s : State) : State :=
  let k := s.cart.prevSlot
  let s := modCart (fun c => { c with
    slots := putAt c.slots k (some { bytes := s.bsl.storeBytes })
    highWater := max c.highWater s.bsl.storeGen }) s
  copyRoles (writeIdentity (when staged (stageSlot k) s))

/-- The own store is complete: a full stream is staged and answered; a delta's instances are initialised, the completion
is told to the partner, and A follows where both stores are done (R45, R56, R60, R215). -/
def storeDone (s : State) : State :=
  if s.bsl.storeDelta then
    let s := storeSlot false { s with bsl := { s.bsl with ownDone := some true } }
    let s := match s.cfg.next with
      | some g => initNewInstances s.cfg.cur g s
      | none => s
    let s := when (s.bsl.partnerDone.isSome) (linkSend 0x62 [1]) s
    if s.cfg.fixedA then endStore s else maybeFixA s
  else
    let who := s.bsl.committer
    let s := storeSlot true s
    answerLoad who s.bsl.storeGen 0 0 { s with bsl := { s.bsl with storing := false, committer := none } }

/-- BITSTREAM_STORE_COMPLETE (R52, R56). -/
def execBitstreamStoreComplete (w : When) (ok : Bool) (s : State) : Result :=
  let s := s.at w
  .next (if !s.bsl.storing || s.bsl.ownDone.isSome || s.streamWaits then s
    else if ok && s.keeperWritable then storeDone s
    else storeFailed false s)

/-- PARTNER_STORE_COMPLETE (R60, R61). -/
def execPartnerStoreComplete (w : When) (ok : Bool) (s : State) : Result :=
  let s := s.at w
  .next (if !s.bsl.storing || !s.bsl.storeDelta then s
    else if ok then maybeFixA { s with bsl := { s.bsl with partnerDone := some true } }
    else storeFailed true s)

/-- The standby's part of a commit: the same delta, loaded and complete, is prepared and stored; else the failure is told
(R60). -/
def partnerCommit (gen digest : Nat) (s : State) : State :=
  let fail := linkSend 0x62 [0] s
  match s.bsl.load with
  | none => fail
  | some l =>
    if u16 l.header 6 ≠ 2 ∨ l.gen ≠ gen ∨ digestNat l.header ≠ digest ∨ !allBlocks l.blocks l.total ∨ s.bsl.storing ∨ s.bsl.swapPending
        ∨ !s.keeperWritable then fail
    else match prepare (joinBlocks l.blocks l.total) s with
      | .error f => linkSend 0x62 [0] (noteRefusal f.code f.sec f.detail f.off (bslDrop s))
      | .ok p => acceptCommit none true true p s

/-- PARTNER_COMMIT_RECEIVED (R60). -/
def execPartnerCommitReceived (w : When) (h : LinkHdr) (gen digest : Nat) (s : State) : Result :=
  .next (linkIn h (fun s => if s.wvl.role = 2 ∨ s.wvl.role = 3 then partnerCommit gen digest s else s) (s.at w))

/-- ACTIVATION_PERIOD_RECEIVED (R60, R61): the module that is not primary takes A over; a store of its own that still runs
goes on to its end. -/
def execActivationPeriodReceived (w : When) (h : LinkHdr) (a : Nat) (s : State) : Result :=
  .next (linkIn h (fun s =>
    if s.primary || !s.bsl.storing || !s.bsl.storeDelta then s
    else
      let s := { s with cfg := { s.cfg with fixedA := true }, bsl := { s.bsl with swapA := a } }
      if s.bsl.ownDone = some true then endStore s else s) (s.at w))

/-! ### P4 (R10, R47, R283, R299, R389, R390) -/

/-- The first check that a stored stream fails, every `SEC_DIGEST` before the contents (R47): its code, or the generation
it holds. -/
def checkStored (b : List Byte) (s : State) : Except Nat Generation :=
  match headerCheck b (some b.length) s with
  | some f => .error f.1
  | none =>
    let firstBad (check : Piece → List Byte → Option LoadFault) : Option LoadFault :=
      (pieces b).findSome? fun p => check p (slice b p.first (p.past - p.first))
    match (firstBad checkDigest).or (firstBad (checkContent { unitUse := u32 b 0xC })) with
    | some f => .error f.code
    | none =>
      if streamDigest b ≠ slice b 0x30 48 then .error 0x10
      else
        let g := generationOf b (sectionParts b)
        match crossChecks false { g := g, parts := sectionParts b } with
        | some f => .error f.code
        | none => .ok g

/-- A bucket that starts full (R328). -/
def fullBucket (code : Option Nat) (burst refill aon : Nat) : Bucket :=
  { code := code, burst := burst, refill := refill, level := burst * tokenUnit, last := aon }

/-- The buckets of `LEDGER_LIMITS`, every one full (R328). -/
def LimitSec.buckets (l : LimitSec) (aon : Nat) : List Bucket :=
  fullBucket none l.defBurst l.defRefill aon :: l.entries.map fun e => fullBucket (some e.1) e.2.1 e.2.2 aon

/-- The units take their sections from a generation (R389); the gates' epochs become 1 and are acknowledged at the drain
(R299, R301, R306). -/
def unitsTake (g : Generation) (s : State) : State :=
  { s with
    svi := { s.svi with subs := g.sv.subs.map (fun _ => {}), lastSeg := g.sv.archSegments - 1 }
    phe := { s.phe with
      gen := g.gen, running := g.unitUse.testBit 0
      streams := (List.range 64).map fun i => { udpOn := decide (i < g.phe.streams.length) && (g.phe.streams.getD i {}).start == 1 } }
    wce := { s.wce with gen := g.gen, running := g.unitUse.testBit 1 }
    seq := { s.seq with tasks := s.seq.tasks.map fun x => { x with gen := g.gen } }
    wrd := { s.wrd with
      loaded := true, fixed := g.central, runtime := [], epoch := 1, draining := true
      wards := s.wrd.wards.mapIdx fun i x => { x with regions := g.wards.getD i [], epoch := 1 } } }

/-- A generation comes into force at the end of P4 (R47, R283, R299, R389): P5 begins, and ends at once with an empty
source list. -/
def takeGeneration (g : Generation) (b : List Byte) (s : State) : State :=
  let s := unitsTake g { s with
    cfg := { cur := g, loaded := true, stream := b }
    bsl := { s.bsl with genCur := g.gen }
    gen := { s.gen with phase := 5, held := false }
    tmb := { s.tmb with p5Start := s.aon } }
  let s := applyMemmap s
  let s := unitWrite 13 (g.memmap.streamFirst * 0x4000000) b s
  if g.ptp.sources.isEmpty then endP5 s else s

/-- The roles of the slots after a choice: slot `k` is current (R45, R47), and its behaviour level is the keeper's (R314). That a
staged stream or a revert became current is noted for the restart (R394). -/
def slotsChosen (k lvl : Nat) (s : State) : State :=
  let new := s.cart.current != some k || s.cart.staged.isSome || s.cart.blvl != lvl
  let s := { s with gen := { s.gen with turned := s.cart.staged == some k } }
  let s := modCart (fun c => { c with current := some k, staged := c.staged.filter fun x => s.bsl.newSlot == some x }) s
  copyRoles (if s.keeperWritable && new then writeIdentity (modCart (fun c => { c with blvl := lvl }) s) else s)

/-- No generation loads: the module is held in P4, the staged mark clear (R47, R389), but for a stream staged in this start. -/
def heldInP4 (s : State) : State :=
  let s := if s.cart.staged.isSome && s.cart.staged != s.bsl.newSlot then copyRoles (when s.keeperWritable writeIdentity (modCart (fun c => { c with staged := none }) s)) else s
  { s with gen := { s.gen with held := true } }

/-- The slots are tried in turn; each refusal is recorded (R47). -/
def tryStored : List Nat → State → State
  | [], s => heldInP4 s
  | k :: t, s =>
    match s.cart.slots.getD k none with
    | none => tryStored t s
    | some x =>
      match checkStored x.bytes s with
      | .ok g => takeGeneration g x.bytes (slotsChosen k g.blvl s)
      | .error code => tryStored t (ledger 0x1002 0xFFFF [u32 x.bytes 0x14, code] s)

/-- The slots that this start tries (R47): the staged generation first, else the current one, then the other slot; not the one
that a commit or revert of this start has staged (R390). -/
def State.slotsToTry (s : State) : List Nat :=
  match (s.cart.staged.filter fun k => s.bsl.newSlot != some k).or s.cart.current with
  | some k => [k, 1 - k].filter fun k => s.bsl.newSlot != some k
  | none => []

/-- GENERATION_LOAD (R47, R390). -/
def execGenerationLoad (w : When) (s : State) : Result :=
  let s := s.at w
  .next (if s.gen.phase ≠ 4 ∨ s.gen.held ∨ s.cfg.loaded then s else tryStored s.slotsToTry s)

end Sys2Proof.Machine
end

