-- ==== Sys2Proof/Machine/Bulk.lean ====
section
/-! DEFINITION. Bulk reads by a host session (R133, R333, R354, R356): what they read, and stall slot 25 that carries them.
Main memory is read and judged as the stall issues each read; ledger records are read when the request is taken (log entry 47,
DESIGN CHOICE). -/

namespace Sys2Proof.Machine

open Sys2Proof

/-- Bytes as the words of a reply, four bytes a word. -/
def wordsOf (bs : List Byte) : List Nat := (List.range ((bs.length + 3) / 4)).map fun k => leNat (slice bs (4 * k) 4)

/-- What a reply carries of a bulk read of which `done` bytes have gone through the stall: whole items only. -/
def Bulk.payload (b : Bulk) : List Nat :=
  let n := min b.done b.data.length / b.unit
  let ws := wordsOf (b.data.take (b.unit * n))
  if b.ledger then ws else n :: b.offset :: ws

/-- The bulk reads of a session. -/
def State.bulks (s : State) (i : Fin 8) : List Bulk := match s.hif.sessions.getD i.val none with
  | some x => x.bulks
  | none => []

/-- The first bulk read of a session ends with a status. -/
def endBulk (i : Fin 8) (status : Nat) (b : Bulk) (s : State) : State :=
  answerLate 0 i status 0 b.payload (modSes i (fun x => { x with bulks := x.bulks.drop 1 }) s)

/-- Bytes that slot 25 may still issue in this period. -/
def State.bulkRoom (s : State) : Nat :=
  let x := s.bgt.slots.getD 25 {}
  if s.slotOpen 25 then x.budget - x.spent else 0

/-- A bulk read has nothing left to issue. -/
def Bulk.ended (b : Bulk) : Bool := b.reads.isEmpty && b.done == b.total

/-- The bytes of each 32-bit word that the parts of a read name. -/
def wordParts (ps : List (Nat × Nat)) : List (Nat × Nat) := ps.flatMap fun p =>
  (List.range ((p.1 % 4 + p.2 + 3) / 4)).map fun k =>
    let a := max p.1 (p.1 / 4 * 4 + 4 * k)
    (a, min (p.1 + p.2) (p.1 / 4 * 4 + 4 * k + 4) - a)

/-- Bytes that parts of a read name. -/
def partBytes (ps : List (Nat × Nat)) : Nat := (ps.map (·.2)).sum

/-- The bytes of words up to the first that fails its check. -/
def Memory.wordsUpTo (m : Memory) (f : MemFault) : List (Nat × Nat) → List Byte
  | [] => []
  | p :: t => if m.fails f p.1 p.2 then [] else (m.readBytes p.1 p.2).getD [] ++ m.wordsUpTo f t

/-- The corrections that a read of words of one line meets: one of a STRONG line, one of each 64-bit word of a LIGHT line (R287). -/
def Memory.fixesIn (m : Memory) (f : MemFault) (ws : List (Nat × Nat)) : List (Fin 10 × Nat) :=
  match ws with
  | [] => []
  | p :: _ => if m.isLight p.1 then ((ws.map (·.1 / 8 * 8)).eraseDups).flatMap fun x => m.fixes f x 8 else m.fixes f p.1 p.2

/-- What a read of words of one line delivers, up to the first that cannot be read (R287, R288). -/
def readWords (f : MemFault) (ws : List (Nat × Nat)) (s : State) : List Byte × State :=
  let line := (ws.headD (0, 0)).1 / 64
  let m := s.mem.mem
  let f := m.finding f line
  let bs := m.wordsUpTo f ws
  let s := (m.fixesIn f ws).foldl (fun s c => correctable line c.1 c.2 0 s) s
  (bs, if bs.length < partBytes ws then uncorrectable line s else s)

/-- The first byte of a read's parts, and how many bytes lie from it to their end. -/
def partSpan (ps : List (Nat × Nat)) : Nat × Nat :=
  let a := (ps.headD (0, 0)).1
  let z := ps.getLastD (0, 0)
  (a, z.1 + z.2 - a)

/-- A bulk read after a read that delivered `bs` of `n` bytes: a word that fails ends it with `MEMORY` (R288); `t` is left to read. -/
def Bulk.got (b : Bulk) (t : List (List (Nat × Nat))) (n : Nat) (bs : List Byte) : Bulk :=
  let b := { b with reads := t, data := b.data ++ bs, done := b.done + bs.length }
  if bs.length < n then { b with reads := [], total := b.done, offset := b.done, status := 11 } else b

/-- One issue of stall slot 25 (R25, R295, R305): a stretch of ledger records, or a read of main memory, at most one line, judged
as it is issued. A refused read ends the reply with the status of R307; a word that fails ends it with `MEMORY` (R288). -/
def issueBulk (b : Bulk) (s : State) : Bulk × State :=
  match b.reads with
  | [] =>
    let k := min (b.total - b.done) s.bulkRoom
    ({ b with done := b.done + k }, noteBulk (chargeSlot 25 k s))
  | ps :: t =>
    let n := partBytes ps
    let a := (partSpan ps).1
    let s := noteBulk (chargeSlot 25 n s)
    match checkAccess 9 0 a (partSpan ps).2 false s with
    | (some st, s) => ({ b with reads := [], data := [], done := 0, total := 0, status := st }, s)
    | (none, s) =>
      let r := readWords (faultAt b.faults (a / 64 - b.line)) (wordParts ps) s
      (b.got t n r.1, r.2)

/-- A session's bulk reads move on, in order, as far as the stall lets them, in at most `n` steps. -/
def pumpBulk (i : Fin 8) : Nat → State → State
  | 0, s => s
  | n + 1, s =>
    match s.bulks i with
    | [] => s
    | b :: _ =>
      if b.ended then pumpBulk i n (endBulk i b.status b s)
      else if !s.slotOpen 25 then s
      else
        let r := issueBulk b s
        pumpBulk i n (modSes i (fun x => { x with bulks := r.1 :: x.bulks.drop 1 }) r.2)

/-- The steps that a session's bulk reads can take. -/
def State.bulkSteps (s : State) (i : Fin 8) : Nat := ((s.bulks i).map fun b => b.reads.length + 3).sum

/-- Every session's bulk reads move on (R356). -/
def drainBulk (s : State) : State :=
  (List.finRange 8).foldl (fun s i => if (s.bulks i).isEmpty then s else pumpBulk i (s.bulkSteps i) s) (noteBulk s)

/-- A bulk read joins the session's queue, and the stall takes it up at once where it can. -/
def startBulk (i : Fin 8) (b : Bulk) (s : State) : State :=
  let s := defer 0 i (modSes i (fun x => { x with bulks := x.bulks ++ [{ b with since := s.aon }] }) s)
  pumpBulk i (s.bulkSteps i) s

/-- LEDGER_READ (R333, R320): the records from `first` onward, stopping after `HIGH`. -/
def execLedgerRead (w : When) (ses : Fin 8) (first count : Nat) (s : State) : Result :=
  .next (withSession ses 7 1 false (fun s =>
    let x := (s.hif.sessions.getD ses.val none).getD {}
    if !s.keeperReadable then reply ses 10 0 [] s
    else if count < 1 ∨ 1000 < count ∨ !x.hasSnap ∨ x.snapHigh < first then reply ses 9 0 [] s
    else
      let n := min count (x.snapHigh + 1 - first)
      startBulk ses { unit := 64, ledger := true, total := 64 * n, data := (List.range n).flatMap fun k => (answerRecord s.cart (first + k)).2 } s) (s.at w))

/-- The parts of one line stand together in one read. -/
def groupLines : List (Nat × Nat) → List (List (Nat × Nat))
  | [] => []
  | p :: t => match groupLines t with
    | [] => [[p]]
    | g :: r => if (g.head?.map (·.1 / 64)) = some (p.1 / 64) then (p :: g) :: r else [p] :: g :: r

/-- A bulk read of main memory through the gate as identity 9 reads (R295, R307), line by line; `unit` is what is delivered
whole. -/
def bulkRead (unit : Nat) (parts : List (Nat × Nat)) (faults : List (Nat × MemFault)) (ses : Fin 8) (s : State) : State :=
  startBulk ses { unit := unit, reads := groupLines parts, faults := faults, line := (parts.head?.map (·.1)).getD 0 / 64, total := (parts.map (·.2)).sum } s

/-- The reads that rows take: each row's bytes line by line. -/
def rowReads (a width words rows : Nat) : List (Nat × Nat) := (List.range rows).flatMap fun k => linePieces (a + width * k) (4 * words)

/-- The address of the first value that a row request names. -/
def State.rowAddr (s : State) (r : RowsReq) : Nat :=
  (s.svSec.archFirst + r.segment) * 0x4000000 + 4 * (s.seg r.segment).channels * r.rowFirst + 4 * r.chFirst

/-- ARCHIVE_READ_ROWS (R133, R354). -/
def execArchiveReadRows (w : When) (ses : Fin 8) (a : RowsRead) (s : State) : Result :=
  let r := a.req
  .next (withSession ses 9 1 false (fun s =>
    let g := s.seg r.segment
    if 65528 < 4 * r.rows * r.chCount ∨ 192 ≤ r.segment then reply ses 9 0 [] s
    else if g.state ≠ 3 ∨ g.rows < r.rowFirst + r.rows then reply ses 8 0 [] s
    else if g.channels < r.chFirst + r.chCount then reply ses 9 0 [] s
    else bulkRead (max 1 (4 * r.chCount)) (rowReads (s.rowAddr r) (4 * g.channels) r.chCount r.rows) a.faults ses s) (s.at w))

/-- ARCHIVE_READ_MEMORY (R354): under identity 9, through the central rule table. -/
def execArchiveReadMemory (w : When) (ses : Fin 8) (addr len64 : Nat) (faults : List (Nat × MemFault)) (s : State) : Result :=
  .next (withSession ses 9 1 false (fun s =>
    if len64 < 1 ∨ 1023 < len64 then reply ses 9 0 [] s
    else bulkRead 64 (linePieces addr (64 * len64)) faults ses s) (s.at w))

/-- BULK_READ_WITHHELD (R356): the stall has been withheld or exhausted for 1 s on end while the reply waited; it ends with what
has been read. -/
def execBulkReadWithheld (w : When) (ses : Fin 8) (s : State) : Result :=
  let s := s.at w
  .next (match s.bulks ses, s.bgt.bulkShut with
    | b :: _, some since => if max since b.since + aonSec 1 ≤ s.aon then endBulk ses 13 b s else s
    | _, _ => s)

end Sys2Proof.Machine
end

