-- ==== Sys2Proof/Machine/Commands.lean ====
section
/-! DEFINITION. The commands that are a write of one register, each by the agent that it names: the checks that every
transaction passes (R295), then what the register does. -/

namespace Sys2Proof.Machine

open Sys2Proof

/-- MEM_CLEAR (R285). -/
def execMemClear (w : When) (who : Agent) (s : State) : Result := .next (asWrite who 0xB0004 (memClearAct who) (s.at w))

/-- TMB_SNAP (R353). -/
def execTmbSnap (w : When) (who : Agent) (s : State) : Result := .next (asWrite who 0x10000 (tmbSnapAct who) (s.at w))

/-- STEP_ACCEPT (R71). -/
def execStepAccept (w : When) (who : Agent) (s : State) : Result := .next (asWrite who 0x10000 (stepAcceptAct who) (s.at w))

/-- TMB_FREQ_TRIM_WRITE (R73). -/
def execTmbFreqTrimWrite (w : When) (who : Agent) (v : Word) (s : State) : Result := .next (asWrite who 0x10030 (freqTrimAct who v) (s.at w))

/-- TMB_PHASE_STEP_WRITE (R73). -/
def execTmbPhaseStepWrite (w : When) (who : Agent) (v : Word) (s : State) : Result := .next (asWrite who 0x10034 (phaseStepAct who v) (s.at w))

/-- TMB_SRC_WRITE (R88). -/
def execTmbSrcWrite (w : When) (who : Agent) (v : Word) (s : State) : Result := .next (asWrite who 0x10008 (tmbSrcAct who v) (s.at w))

/-- PULSE_ARM (R90, R226). -/
def execPulseArm (w : When) (who : Agent) (g : Fin 12) (s : State) : Result :=
  .next (asWrite who (0x10100 + 0x20 * g.val) (pulseArmAct who g.val) (s.at w))

/-- PULSE_DISARM (R90, R226). -/
def execPulseDisarm (w : When) (who : Agent) (g : Fin 12) (s : State) : Result :=
  .next (asWrite who (0x10100 + 0x20 * g.val) (pulseDisarmAct who g.val) (s.at w))

/-- LASER_OFF_WRITE (R95). -/
def execLaserOffWrite (w : When) (who : Agent) (port : Fin 64) (off : Bool) (s : State) : Result :=
  .next (asWrite who (0x20000 + 0x400 * port.val) (laserOffAct who port.val off) (s.at w))

/-- SVI_FRZ_REQ (R131). -/
def execSviFrzReq (w : When) (who : Agent) (s : State) : Result := .next (asWrite who 0x30040 (sviFrzReqAct who) (s.at w))

/-- SVI_FRZ_RELEASE (R131). -/
def execSviFrzRelease (w : When) (who : Agent) (win : Fin 4) (s : State) : Result :=
  .next (asWrite who 0x30040 (sviFrzReleaseAct who win.val) (s.at w))

/-- SEQ_COMMIT (R199). -/
def execSeqCommit (w : When) (who : Agent) (task : Fin 16) (s : State) : Result := .next (asWrite who 0x60008 (seqCommitAct who task.val) (s.at w))

/-- RET_NOW (R217). -/
def execRetNow (w : When) (who : Agent) (s : State) : Result := .next (asWrite who 0x60004 (retNowAct who) (s.at w))

/-- SPLIT (R229). -/
def execSplit (w : When) (who : Agent) (s : State) : Result := .next (asWrite who 0x70004 (splitAct who) (s.at w))

/-- SPLIT_END (R231). -/
def execSplitEnd (w : When) (who : Agent) (d : Digests) (s : State) : Result := .next (asWrite who splitEndAddr (splitEndAct who d) (s.at w))

/-- DEBUG_ARM (R234). -/
def execDebugArm (w : When) (who : Agent) (lane : Fin 4) (s : State) : Result := .next (asWrite who 0x70028 (debugArmAct who lane.val) (s.at w))

/-- DEBUG_DETACH (R236). -/
def execDebugDetach (w : When) (who : Agent) (s : State) : Result := .next (asWrite who 0x70028 (debugDetachAct who) (s.at w))

/-- WVL_ALIVE (R258). -/
def execWvlAlive (w : When) (who : Agent) (s : State) : Result := .next (asWrite who 0xA0008 (wvlAliveAct who) (s.at w))

/-- WVL_HANDOVER (R273). -/
def execWvlHandover (w : When) (who : Agent) (s : State) : Result := .next (asWrite who 0xA0004 (wvlHandoverAct who) (s.at w))

/-- SCRUB_LINE (R290, R294). -/
def execScrubLine (w : When) (who : Agent) (fault : MemFault) (s : State) : Result := .next (asWrite who 0xB0004 (scrubLineAct who fault) (s.at w))

/-- RETIRE (R293, R294). -/
def execRetire (w : When) (who : Agent) (s : State) : Result := .next (asWrite who 0xB0004 (retireAct who) (s.at w))

/-- PURGE_FOREIGN (R291, R294). -/
def execPurgeForeign (w : When) (who : Agent) (s : State) : Result := .next (asWrite who 0xB0004 (purgeForeignAct who) (s.at w))

/-- CE_LOG_ACK (R287, R294). -/
def execCeLogAck (w : When) (who : Agent) (idx : Fin 32) (s : State) : Result := .next (asWrite who 0xB0014 (ceLogAckAct who idx.val) (s.at w))

/-- CRT_RT_INSTALL (R300, R302, R305). -/
def execCrtRtInstall (w : When) (who : Agent) (s : State) : Result := .next (asCommit who (crtInstallAct who) (s.at w))

/-- CRT_RT_EMPTY (R300, R305). -/
def execCrtRtEmpty (w : When) (who : Agent) (s : State) : Result := .next (asCommit who (crtEmptyAct who) (s.at w))

/-- CRT_RT_INVALID_ACTION (chapter 13, `CRT_RT_COMMIT`). -/
def execCrtRtInvalidAction (w : When) (who : Agent) (s : State) : Result := .next (asCommit who (crtInvalidAct who) (s.at w))

/-- COMMISSION (R313). -/
def execCommission (w : When) (who : Agent) (s : State) : Result := .next (asWrite who 0xF0008 (commissionAct who) (s.at w))

/-- RECOMMISSION (R315). -/
def execRecommission (w : When) (who : Agent) (s : State) : Result := .next (asWrite who 0xF0008 (recommissionAct who) (s.at w))

/-- LGR_REQ (R332). -/
def execLgrReq (w : When) (who : Agent) (s : State) : Result := .next (asWrite who 0xE0008 (lgrReqAct who) (s.at w))

/-- LGR_READ (R333). -/
def execLgrRead (w : When) (who : Agent) (s : State) : Result := .next (asWrite who 0xE0008 (lgrReadAct who) (s.at w))

/-- LGR_SNAP (R333). -/
def execLgrSnap (w : When) (who : Agent) (s : State) : Result := .next (asWrite who 0xE0008 (lgrSnapAct who) (s.at w))

/-- FCR_ACK (R341). -/
def execFcrAck (w : When) (who : Agent) (source : Fin 64) (s : State) : Result := .next (asWrite who 0xD0018 (fcrAckAct who source.val) (s.at w))

/-- FCR_CFG_WRITE (R336). -/
def execFcrCfgWrite (w : When) (who : Agent) (v : Word) (s : State) : Result := .next (asWrite who 0xD0028 (fcrCfgAct who v) (s.at w))

/-- BSL_ABORT (R53). -/
def execBslAbort (w : When) (who : Agent) (s : State) : Result := .next (asWrite who 0x100000 (bslAbortAct who) (s.at w))

/-- UPD_ABORT (R364). -/
def execUpdAbort (w : When) (who : Agent) (s : State) : Result := .next (asWrite who 0x110000 (updAbortAct who) (s.at w))

/-- AO_COMMISSION (R381): the write of `FIO_AO_CTRL` with `CHANNEL` and `COMMISSION`. -/
def execAoCommission (w : When) (who : Agent) (ch : Fin 4) (s : State) : Result :=
  .next (asWrite who 0x120100 (aoCtrlWrite who (1 + 16 * ch.val)) (s.at w))

/-- AO_COMMISSION_END (R381). -/
def execAoCommissionEnd (w : When) (who : Agent) (s : State) : Result := .next (asWrite who 0x120100 (aoCommissionEndAct who) (s.at w))

/-- RESTART_WARM (R396, R397). -/
def execRestartWarm (w : When) (who : Agent) (s : State) : Result := .next (asWrite who 0x1C (restartAct who false) (s.at w))

/-- RESTART_COLD (R396, R397). -/
def execRestartCold (w : When) (who : Agent) (s : State) : Result := .next (asWrite who 0x1C (restartAct who true) (s.at w))

end Sys2Proof.Machine
end

