-- ==== Sys2Proof/Machine/Registers.lean ====
section
/-! DEFINITION. Register and memory accesses: transactions of masters, register writes, and the `READ` and `WRITE` messages
of the host (R295, R354). -/

namespace Sys2Proof.Machine

open Sys2Proof

/-- One register write: the checks of R295, then the register; the answer is a status and a detail of R355. -/
def tryWrite (who : Agent) (d : Digests) (a : Nat) (v : Word) (s : State) : WriteAnswer × State :=
  match checkAccess (identOf who) 1 a 4 true s with
  | (some st, s) => ((st, 0), s)
  | (none, s) => writeReg who d a v s

/-- One register read of the host. -/
def tryRead (a : Nat) (s : State) : (Nat × Nat) × State :=
  match checkAccess 9 1 a 4 false s with
  | (some st, s) => ((0, st), s)
  | (none, s) =>
    let r := readReg true true a s
    ((r.1.getD 0, 0), r.2)



/-- REGISTER_WRITE (R13, R14, R295, R422): refused with an error response, or performed by the register's rules. -/
def execRegisterWrite (w : When) (who : Agent) (addr : Nat) (v : Word) (d : Digests) (s : State) : Result :=
  let s := s.at w
  if !s.issues (identOf who) then .next s
  else if !s.mayWrite who then .next (emit (.resp (identOf who) false []) s)
  else
    let r := tryWrite who d addr v s
    .next (answerWrite (identOf who) (decide (r.1.1 = 0)) s.wrd.epoch r.2)

/-! ### The host's messages (R354) -/

/-- The first status of a list that is not `OK`. -/
def firstBad (l : List Nat) : Nat := (l.find? (· != 0)).getD 0

/-- READ: every entry is attempted. -/
def readEntries : List Nat → State → List (Nat × Nat) × State
  | [], s => ([], s)
  | a :: t, s =>
    let (r, s) := tryRead a s
    let (l, s) := readEntries t s
    (r :: l, s)

/-- READ (R354): at most 64 entries. -/
def execRead (w : When) (ses : Fin 8) (addrs : List Nat) (s : State) : Result :=
  .next (withSession ses 2 1 true (fun s =>
    if addrs.isEmpty || decide (64 < addrs.length) then reply ses 9 0 [] s
    else
      let (l, s) := readEntries addrs s
      reply ses (firstBad (l.map (·.2))) 0 (addrs.length :: l.flatMap fun x => [x.1, x.2]) s) (s.at w))

/-- An address of the KPR block, which alone takes writes in bootstrap (R348). -/
def kprAddr (a : Nat) : Bool := decide (0xF0000 ≤ a ∧ a < 0x100000)

/-- The session runs in bootstrap. -/
def State.sesBoot (s : State) (i : Fin 8) : Bool := match s.hif.sessions.getD i.val none with
  | some x => x.bootstrap
  | none => false

/-- WRITE: entries run in order until one is not `OK`; the entries after it report `SKIPPED`, each `ROLE` entry counts. -/
def writeEntries (ses : Fin 8) (d : Digests) : List (Nat × Word) → State → List WriteAnswer × State
  | [], s => ([], s)
  | (a, v) :: t, s =>
    let (r, s) := if s.sesBoot ses && !kprAddr a then (wRole, s) else tryWrite (.host ses) d a v s
    let s := countRole r.1 s
    if r.1 = 0 then
      let (l, s) := writeEntries ses d t s
      (r :: l, s)
    else (r :: t.map fun _ => (12, 0), s)

/-- WRITE (R354). -/
def execWrite (w : When) (ses : Fin 8) (entries : List (Nat × Word)) (s : State) : Result :=
  .next (withSession ses 3 2 true (fun s =>
    if entries.isEmpty || decide (64 < entries.length) then reply ses 9 0 [] s
    else
      let (l, s) := writeEntries ses {} entries s
      answer ses (firstBad (l.map (·.1))) 0 (entries.length :: l.map fun x => x.1 + x.2 * 65536) s) (s.at w))

/-! ### Transactions (R34, R295, R307) -/

/-- The agent of an identity. -/
def agentOf (ident : Nat) (ses : Fin 8) : Agent :=
  match ident with
  | 0 => .firmware
  | 1 => .lane 0
  | 2 => .lane 1
  | 3 => .lane 2
  | 9 => .host ses
  | 11 => .debug
  | i => .other (Fin.ofNat 32 i)

/-- An error response. -/
def respond (ident : Nat) (ok : Bool) (data : List Byte) (s : State) : State := emit (.resp ident ok data) s

/-- An admitted read of main memory (R288). -/
def memReadTx (tx : Tx) (s : State) : State :=
  match demandRead tx.addr tx.size tx.memFaults s with
  | (some bs, s) => respond tx.ident.val true bs s
  | (none, s) => respond tx.ident.val false [] s



/-- An admitted write of main memory (R284); the voted path's lines are marked for the shadow and the copy (R216, R264). -/
def memWriteTx (tx : Tx) (s : State) : State :=
  match mergeRead tx.addr tx.memFaults (s.mem.mem.mergeReads tx.addr tx.data.length) s with
  | (false, s) => respond tx.ident.val false [] s
  | (true, s) =>
    match s.mem.mem.write tx.addr tx.data with
    | .error line => respond tx.ident.val false [] (uncorrectable line s)
    | .ok m =>
      let s := when (decide (tx.ident.val = 0)) (markDirty tx.addr tx.data.length) (s.storeMem tx.addr tx.data.length m)
      respond tx.ident.val true [] s

/-- An admitted register access. -/
def regTx (tx : Tx) (s : State) : State :=
  if tx.isWrite then
    let r := writeReg (agentOf tx.ident.val tx.ses) tx.d tx.addr (BitVec.ofNat 32 (leNat tx.data)) s
    answerWrite tx.ident.val (decide (r.1.1 = 0)) s.wrd.epoch r.2
  else
    let r := readReg (tx.ident.val == 9) (tx.ident.val == 9 || tx.ident.val == 0) tx.addr s
    respond tx.ident.val true (natLe (r.1.getD 0) 4) r.2

/-- MASTER_TRANSACTION (R295): every check in order, then the access; a refusal ends with an error response (R307). -/
def execMasterTransaction (w : When) (tx : Tx) (s : State) : Result :=
  let s := s.at w
  let n := if tx.isWrite then tx.data.length else tx.size
  if !s.issues tx.ident.val then .next s
  else match checkAccess tx.ident.val tx.space.val tx.addr n tx.isWrite s with
    | (some _, s) => .next (respond tx.ident.val false [] s)
    | (none, s) =>
      .next (if tx.space.val = 1 then regTx tx s
        else if tx.isWrite then memWriteTx tx s
        else memReadTx tx s)

end Sys2Proof.Machine
end

