-- ==== Sys2Proof/Machine/Startup.lean ====
section
/-! DEFINITION. Start-up, restart and the hinge latch (chapter 19). -/

namespace Sys2Proof.Machine

open Sys2Proof

/-! ### What survives a start (R388, R403) -/

/-- The fused and stored things that no start changes, in a block that is otherwise at reset: fuses, firmware slots, the
cartridge and its bolt, the trims of the loop outputs, the backplane coding, the latch. Commands still waiting, and the
model's own record of outputs and free values, stay. Every output opens, and the pins rest. -/
def survives (s : State) : State :=
  let s := pinsRest s
  let g : GenState := {}
  { State.reset with
    pending := s.pending, out := s.out, fresh := s.fresh
    gen := { g with unitPresent := s.gen.unitPresent, eui := s.gen.eui, latchOpen := s.gen.latchOpen }
    upd := { s.upd with verRun := 0, refused := false, refuse := 0, refuseOffset := 0, storing := false, committer := none, skipBlvl := false, load := none }
    kpr := { cartridge := (cutShort s).kpr.cartridge, boltOpen := s.kpr.boltOpen }
    fio := { ao := s.fio.ao.map fun x => { zero := x.zero, span := x.span } }
    wvl := { side := s.wvl.side, coding := s.wvl.coding } }

/-- Every slot that was LOADING, or STAGED by a commit whose read-back did not end, is EMPTY at a start (R365). -/
def dropUnstaged (s : State) : State :=
  { s with upd := { s.upd with slots := s.upd.slots.map fun x => if x.state = 1 then {} else x } }



/-- The slot coding as P0 reads it (R254): 0b01 side A, 0b10 side B; any other is faulty. -/
def readCoding (coding : Nat) (s : State) : State :=
  modWvl (fun x => { x with coding := coding, side := if coding = 2 then 1 else 0 }) s

/-- POWER_APPLIED (R388, R389, R395, R412): a start with entry 0, module time running from 0 (R69); nothing happens while the
over-temperature protection still holds the conversion off, which OVERTEMP_RECOVER ends. -/
def execPowerApplied (w : When) (feed1 feed2 : Nat) (coding : Fin 4) (latchOpen powerGood : Bool) (s : State) : Result :=
  if s.ptm.tripped.isEmpty then
    let s := (readCoding coding.val (dropUnstaged (survives s))).at w
    .next <| noteGood { s with
      now := 0
      gen := { s.gen with entry := 0, latchOpen := latchOpen, powerGood := powerGood }
      ptm := { s.ptm with mv := [feed1, feed2], feed := [feedState 0 feed1, feedState 0 feed2] } }
  else .next (s.at w)

/-- A start without loss of power at the feeds: the always-on island keeps the daily keeper allowance and the count of held
records that could not be stored (R317, R331), and the banks stay charged (R411); what the PTM measured is at reset (R403). -/
def startAnew (w : When) (entry : Nat) (cold : Bool) (s : State) : State :=
  let filled := refillBucket (s.at w)
  let t := (dropUnstaged (survives s)).at w
  { t with
    now := 0
    gen := { t.gen with entry := entry, commandedCold := cold, powerGood := true }
    ptm := { t.ptm with goodSince := s.ptm.goodSince }
    kpr := { t.kpr with bucket := filled.kpr.bucket, bucketAt := t.aon }
    lgr := { t.lgr with lostKept := s.lgr.lostKept, lostOwner := s.lgr.lostOwner } }

/-- OVERTEMP_RECOVER (R412): the protection's own comparators find every tripped sensor 15 °C below its trip (log entry 143,
DEDUCED), and the module that the trip has stopped restarts at P0 with entry 0. -/
def execOvertempRecover (w : When) (s : State) : Result :=
  if !s.gen.powerGood && !s.ptm.tripped.isEmpty then
    let t := startAnew w 0 false s
    .next { t with lgr := { t.lgr with lostKept := 0, lostOwner := 0 } }
  else .next (s.at w)

/-- A restart has waited for the blocks that wait: the governor has let them through, no keeper takes them, or 2 s have passed
(R317, R331). -/
def State.flushed (s : State) (due : Nat) : Bool := !s.keeperWritable || s.blocksFit due || decide (due + aonSec 2 ≤ s.aon)

/-- RESTART_EXECUTE (R331, R388, R395, R396): a requested restart takes place; the blocks that wait, then `stored` held
records are stored first. A module whose power has failed stops instead (R250, R412). -/
def execRestartExecute (w : When) (stored : Nat) (s : State) : Result :=
  match s.gen.restart with
  | some r =>
    let t := refillBucket (s.at w)
    if t.gen.powerGood && !t.ptm.powerFail && !r.atH && decide (r.due ≤ t.aon) && t.flushed r.due then
      .next (startAnew w r.entry r.cold (flushKeeper r.due stored t))
    else .next (s.at w)
  | none => .next (s.at w)

/-! ### P3 (R311, R312, R367, R389) -/

/-- KEEPER_CHECK (R312): the firmware slot that has reached P3 is settled, the cartridge is mounted behind a closed bolt
and checked. -/
def execKeeperCheck (w : When) (s : State) : Result :=
  let s := s.at w
  if s.gen.phase ≠ 3 then .next s
  else
    let s := reachP3 s
    .next (checkKeeper (when (decide (s.kpr.state = 0) && !s.kpr.boltOpen) mountKeeper s))

/-! ### The hinge latch (R391, R398) -/

/-- LATCH_OPEN (R398): a primary beside a STANDBY partner asks for an orderly hand-over, one without it is refused. -/
def execLatchOpen (w : When) (s : State) : Result :=
  let s := s.at w
  if s.gen.latchOpen then .next s
  else
    let s := { s with gen := { s.gen with latchOpen := true } }
    .next (if !s.primary then s
      else if s.canHandOver then requestHandover 5 none s
      else if s.partnerStandby then s
      else ledger 0x0A09 5 [] s)

/-- LATCH_CLOSE (R391, R398): the warning ends, and a module held at the end of P5 enters P6. -/
def execLatchClose (w : When) (s : State) : Result :=
  let s := s.at w
  let s := { s with gen := { s.gen with latchOpen := false } }
  .next (if s.tmb.acqJudged then endP5 s else s)

/-- STROBE_LOSS (R33): an island reports time base loss to the fault collector; its follower counter goes on. -/
def execStrobeLoss (w : When) (island : Nat) (s : State) : Result :=
  let s := s.at w
  .next (reportBy island 23 0xFF (if (s.followers.getD island none).isSome || island == timeIsland then s else
    { s with followers := putAt s.followers island (some (s.islandTime island, s.aon)) }))

/-! ### The status LEDs (R399) -/

/-- What an LED shows. -/
inductive Led where
  | off
  | flashing
  | steady
  deriving DecidableEq, Repr

/-- `RUN`. -/
def State.ledRun (s : State) : Led := if s.gen.phase = 0 then .off else if s.gen.phase = 7 then .steady else .flashing

/-- `ROLE`. -/
def State.ledRole (s : State) : Led := if s.wvl.role = 1 then .steady else if s.wvl.role = 2 ∨ s.wvl.role = 3 then .flashing else .off

/-- `FLT`. -/
def State.ledFlt (s : State) : Led :=
  if s.gen.held ∨ s.wvl.role = 4 ∨ s.wvl.role = 5 then .steady
  else if s.fcr.sources.any (·.severe) then .flashing else .off

/-- `LATCH`: flashing on a primary, which removal would take out of service; steady where removal is safe. -/
def State.ledLatch (s : State) : Led := if !s.gen.latchOpen then .off else if s.primary then .flashing else .steady

end Sys2Proof.Machine
end

