-- ==== Sys2Proof/Machine/Strobe.lean ====
section
/-! DEFINITION. The period strobe (R32, R66) and what every unit does at it. -/

namespace Sys2Proof.Machine

open Sys2Proof

/-! ### Which period the strobe begins (R66, R67, R421) -/

/-- ⌈t / 125 µs⌉: the first period that starts at or after an instant. -/
def firstPeriodAt (t : Nat) : Nat := (t + (ticksPerPeriod - 1)) / ticksPerPeriod

/-- The strobe of the next period, its count one higher, but for a discontinuity: after a coarse set the first period at or
after the time set (R67); the latest period reached where module time has moved on further. -/
def nextCount (s : State) (now : Nat) : Nat :=
  max (if s.discont then firstPeriodAt s.now else s.pcount + 1) (now / ticksPerPeriod)

/-- Module time and the period count at the strobe; the stamp of the retained image is loaded where one waits (R421). -/
def strobeTime (w : When) (s : State) : State :=
  let t := s.at w
  let load := if s.tmb.state = 0 then s.tmb.retainedLoad else none
  match load with
  | some stamp =>
    let c := firstPeriodAt stamp
    { t with now := c * ticksPerPeriod, pcount := c, discont := false, tmb := { t.tmb with retainedLoad := none } }
  | none =>
    let c := nextCount s t.now
    { t with now := max t.now (c * ticksPerPeriod), pcount := c, discont := false, tmb := { t.tmb with retainedLoad := none } }

/-- Module time Tp of the period in progress. -/
def State.tp (s : State) : Nat := s.pcount * ticksPerPeriod

/-! ### Swaps at a strobe (R56, R57) -/

/-- At the strobe of A the committed generation is the module's, and the slots of the keeper exchange roles (R46). -/
def generationAtA (g : Generation) (s : State) : State :=
  if s.bsl.genCur = g.gen then s
  else
    let s := { s with bsl := { s.bsl with genCur := g.gen } }
    if s.keeperWritable then copyRoles (writeIdentity (modCart (fun c => { c with current := some c.prevSlot }) s)) else s

/-- The buckets at a swap: those of unchanged entries keep their tokens, every other starts full (R328). -/
def swapBuckets (old new : LimitSec) (aon : Nat) (l : List Bucket) : List Bucket :=
  let kept (code : Option Nat) (full : Bucket) : Bucket := (l.find? (·.code == code)).getD full
  let dflt := fullBucket none new.defBurst new.defRefill aon
  (if old.defBurst = new.defBurst ∧ old.defRefill = new.defRefill then kept none dflt else dflt)
    :: new.entries.map fun e =>
      let full := fullBucket (some e.1) e.2.1 e.2.2 aon
      if old.entries.contains e then kept (some e.1) full else full

/-- `LEDGER_LIMITS` swaps: pending suppressions are summarised first (R328). -/
def swapLimits (g : Generation) (s : State) : State :=
  let s := summarise true s
  { s with lgr := { s.lgr with buckets := swapBuckets s.cfg.cur.limits g.limits s.aon s.lgr.buckets } }



/-- The first `LEDGER_LIMITS` come into force (R328): what the boot bucket suppressed is summarised, and every bucket starts full. -/
def firstLimits (s : State) : State :=
  let s := summarise true s
  { s with lgr := { s.lgr with buckets := s.cfg.cur.limits.buckets s.aon } }

/-- `WARDS` swaps: every ward's regions, and its epoch one higher (R305); the acknowledged epoch follows at the drain (R306). -/
def swapWards (g : Generation) (s : State) : State :=
  { s with wrd := { s.wrd with wards := s.wrd.wards.mapIdx fun i x =>
      { x with regions := g.wards.getD i [], epoch := (x.epoch + 1) % 2 ^ 32 } } }

/-- `ASYMMETRY` swaps: the constants that were in force go on applying to the stamps taken before this strobe (R78). -/
def swapAsym (s : State) : State := { s with tmb := { s.tmb with asymOld := (s.sect 0x13).asym, asymAt := some s.now } }

/-- What a section does when it swaps at a period boundary; the topology of a wavefront engine that the mailbox mapping still
refers to goes with that mapping (R42). -/
def swapSection (g : Generation) (ty : Nat) (s : State) : State :=
  if !s.cfg.carried.contains ty || s.isSwapped ty || (ty == 6 && s.stillMapped 1) then s
  else markSwapped ty (match ty with
    | 0x06 => swapTopology g s
    | 0x0E => swapWards g s
    | 0x10 => swapLimits g s
    | 0x13 => swapAsym s
    | _ => s)

/-- Sections whose swap point is the period boundary. -/
def periodSections : List Nat := [0x06, 0x0B, 0x0C, 0x0E, 0x10, 0x13]

/-- The swaps at the TAI second boundary: `SV_SUBS`, and the mailbox mapping where the delta carries no `PHE_TABLE` (R57,
R127). -/
def swapAtSecond (g : Generation) (s : State) : State :=
  let s := if s.cfg.carried.contains 4 && !s.isSwapped 4 then markSwapped 4 (sviSwap s.cfg.cur g (s.boundaryCount / 8000) s) else s
  if !s.cfg.carried.contains 5 && s.mapsSwap && !s.isSwapped mappingSwap then swapMapping g s else s

/-- `PHE_TABLE` and the mailbox mapping swap at the second boundary itself where a fenced intake brings no slot, once the slots
that waited have run (R25, R57, R150). -/
def swapUnslotted (s : State) : State :=
  match s.cfg.next with
  | some g =>
    if s.pastA && decide (s.boundaryCount ≤ s.pcount) && s.cfg.carried.contains 5 && !s.isSwapped 5 && s.svi.fenced && s.pheIdle then
      swapMapping g (markSwapped 5 (pheSwap g s))
    else s
  | none => s

/-- Errors arise in the DRAM: the code checks find them from now on (R281, log entry 121, DESIGN CHOICE). -/
def takeErrors (l : List (Nat × MemFault)) (s : State) : State :=
  s.setMem { s.mem.mem with errs := l ++ s.mem.mem.errs.filter fun e => !(l.any (·.1 == e.1)) }

/-- The swaps of a strobe at or after A (R56). -/
def strobeSwaps (s : State) : State :=
  match s.cfg.next with
  | none => s
  | some g =>
    if !s.pastA then s
    else
      let s := periodSections.foldl (fun s ty => swapSection g ty s) (endOldTasks g (generationAtA g s))
      if s.boundaryCount ≤ s.pcount then swapAtSecond g s else s

/-! ### Budgets and mask (R24, R25, R242, R423) -/

/-- The period that ends is closed, the mask of the new one takes effect, sections swap, the counters reload, and the mask
of the next period is computed. Suppressions of the boot bucket are summarised at strobe E (R328). -/
def strobeBudgets (m : Measured) (s : State) : State :=
  let s := closePeriod m s
  let s := when (s.bgt.booting && s.cfg.loaded) firstLimits s
  let s := reloadBudgets (strobeSwaps (applyMask s))
  if s.bgt.booting then s else computeNext s.bgt.firstMask s

/-! ### Tasks, ports, rounds, heartbeat -/

/-- The triad at a strobe: one split a period; a mask that withholds the split stall ends an interval (R229, R231). -/
def strobeTriad (d : Digests) (s : State) : State :=
  let s := modTrd (fun t => { t with splitInPeriod := false }) s
  if s.bgt.mask.testBit 23 then s else splitInterrupted 4 d s

/-- The takeover that this strobe is to bring (R271). -/
def State.takeDue (s : State) : Bool := match s.wvl.takeAt with
  | some k => s.wvl.role == 3 && decide (k.count ≤ s.pcount)
  | none => false

/-- Cycles start in the order of dispatch (R195, R198), but for a strobe at which the role changes, a triad that has stopped
(R228) and a module whose power has failed. -/
def strobeTasks (s : State) : State :=
  if s.changeDue s.pcount || s.takeDue || s.ptm.powerFail || decide (s.trd.mode = 4) then s
  else s.taskOrder.foldl (fun s t => startTask t s.tp s.pcount s) s

/-- Stations and streams that no table names any more are forgotten once no swap is pending (R58). -/
def pruneStations (s : State) : State :=
  if s.cfg.next.isSome then s
  else { s with prt := { s.prt with
    stations := s.prt.stations.filter fun x => s.cfg.cur.stations.any (·.number == x.number)
    streams := s.prt.streams.filter fun x => s.cfg.cur.maps x.task x.station } }

/-- Cages whose fence was released resume, whichever cage has been fenced since (R341). -/
def resumePorts (s : State) : State :=
  { s with prt := { s.prt with ports := s.prt.ports.map fun p => { p with fenced := p.fenced && !p.resuming, resuming := false } } }

/-- Delay requests held over the strobe are answered, where no answer of an earlier one still waits; a fenced cage's stay held
(R23, R110). -/
def answerHeld (s : State) : State :=
  (List.range 64).foldl (fun s p => match (s.port p).heldReq with
    | some r =>
      if (s.port p).fenced || s.respDue p then s
      else
        let s := modPort p (fun x => { x with heldReq := none }) s
        if s.ptpSends p then answerPdelay p r.1 (s.rawStamp p) s else s
    | none => s) s

/-- What the station ports send at a strobe, in the order of R110: delay responses that were held, then what waits on each
port. A module that leaves PRIMARY at this strobe sends nothing more (R275). -/
def strobePorts (s : State) : State := if s.changeDue s.pcount then s else drainPorts (answerHeld s)

/-- A retained round falls due (R59, R217): each 10 s, at a request, or where the keeper can be written again after rounds
were suspended. -/
def strobeRound (s : State) : State :=
  let due := s.holdsState && !s.ptm.powerFail &&
    (s.seq.retNow || (s.seq.retSuspended && s.keeperWritable) || decide ((s.pcount + 80000 - s.seq.retBase % 80000) % 80000 = 0))
  let s := { s with seq := { s.seq with retNow := false, retSuspended := !s.keeperWritable } }
  if due then startRound s else s

/-- The followers of the islands that the strobe reaches are corrected (R19); the others go on by themselves from what they
showed before it (R33). -/
def correctFollowers (unseen : Nat) (was s : State) : State := { s with followers := was.freed unseen.testBit }

/-- The pair link at a strobe: what was heard in the period that ends, an advanced epoch once it is reserved (R262), and
the heartbeat (R258). -/
def strobePair (s : State) : State :=
  let s := modWvl (fun x => { x with hbPrev := x.hbSeen, hbSeen := false }) s
  sendHeartbeat (reservedEpoch s)

/-- PERIOD_STROBE (R32, R66): `m` is what was measured and charged in the period that ends, and which islands the strobe
does not reach. A module that has stopped after power fail issues no strobe (R250). -/
def execPeriodStrobe (w : When) (m : Measured) (s : State) : Result :=
  if s.stopped then .next (s.at w)
  else
    let s := correctFollowers m.unseen (s.at w) (strobeTime w s)
    let s := archiveStop (strobeBudgets m (emit (.strobe s.pcount) (takeErrors m.dram s)))
    let s := swapUnslotted (pheHeld (dropUnsent s.tp (resumePorts (graceEnd (phaseStepApply s)))))
    let s := reschedule (strobeTasks (grantPorts (strobeTriad m.digests (strobePair s))))
    let s := pruneStations (finishSwaps (strobePorts s))
    .next (pumpCopies (drainBulk (drainShp (strobeRound s))))

end Sys2Proof.Machine
end

