-- ==== Sys2Proof/Machine/Wrd.lean ====
section
/-! DEFINITION. The commands of the wards and the central rule table (chapter 13). -/

namespace Sys2Proof.Machine

open Sys2Proof

/-- CRT_DRAIN_COMPLETE (R306): the epoch is acknowledged, the result of a commit that waits for it shows `DONE`, and the held
commits are answered. -/
def execCrtDrainComplete (w : When) (s : State) : Result :=
  let s := s.at w
  .next (if s.wrd.draining then
      let n := s.wrd.waiting
      let s := modWrd (fun x => { x with ack := x.epoch, draining := false, rtResult := if n = 0 then x.rtResult else 0, waiting := 0 }) s
      { s with out := List.replicate n (.resp 0 true []) ++ s.out }
    else s)

/-- WARD_DRAIN_COMPLETE (R306). -/
def execWardDrainComplete (w : When) (ward : Fin 9) (s : State) : Result :=
  .next (modWrd (fun x => { x with wards := updAt x.wards ward.val fun y => { y with ack := y.epoch } }) (s.at w))

end Sys2Proof.Machine
end

