-- ==== Sys2Proof/Machine/Dispatch.lean ====
section
/-! DEFINITION. One arm for each command: a direct call of its meaning. -/

namespace Sys2Proof.Machine

/-- The effect of a command on everything but the queue. -/
def exec (i : Instr) (s : State) : Host.Outcome State Fault Refusal :=
  match i with
  | .powerApplied w feed1 feed2 coding latchOpen powerGood => Sys2Proof.Machine.execPowerApplied w feed1 feed2 coding latchOpen powerGood s
  | .bootRomSelect w => Sys2Proof.Machine.execBootRomSelect w s
  | .comparatorSelftest w fail => Sys2Proof.Machine.execComparatorSelftest w fail s
  | .memClear w who => Sys2Proof.Machine.execMemClear w who s
  | .memClearDone w => Sys2Proof.Machine.execMemClearDone w s
  | .keeperCheck w => Sys2Proof.Machine.execKeeperCheck w s
  | .generationLoad w => Sys2Proof.Machine.execGenerationLoad w s
  | .pairNegotiation w => Sys2Proof.Machine.execPairNegotiation w s
  | .negotiateTimeout w => Sys2Proof.Machine.execNegotiateTimeout w s
  | .periodStrobe w m => Sys2Proof.Machine.execPeriodStrobe w m s
  | .maskMiss w => Sys2Proof.Machine.execMaskMiss w s
  | .strobeLoss w island => Sys2Proof.Machine.execStrobeLoss w island s
  | .syncReceived w f => Sys2Proof.Machine.execSyncReceived w f s
  | .ptpAnnounceReceived w port f => Sys2Proof.Machine.execPtpAnnounceReceived w port f s
  | .ppsEdge w stamp freqEst => Sys2Proof.Machine.execPpsEdge w stamp freqEst s
  | .irigbFrame w f => Sys2Proof.Machine.execIrigbFrame w f s
  | .sourceLoss w => Sys2Proof.Machine.execSourceLoss w s
  | .sourceQualified w kind port => Sys2Proof.Machine.execSourceQualified w kind port s
  | .acqTimeout w => Sys2Proof.Machine.execAcqTimeout w s
  | .holdoverLimit w => Sys2Proof.Machine.execHoldoverLimit w s
  | .leapApply w => Sys2Proof.Machine.execLeapApply w s
  | .tmbSnap w who => Sys2Proof.Machine.execTmbSnap w who s
  | .stepAccept w who => Sys2Proof.Machine.execStepAccept w who s
  | .tmbFreqTrimWrite w who v => Sys2Proof.Machine.execTmbFreqTrimWrite w who v s
  | .tmbPhaseStepWrite w who v => Sys2Proof.Machine.execTmbPhaseStepWrite w who v s
  | .tmbSrcWrite w who v => Sys2Proof.Machine.execTmbSrcWrite w who v s
  | .pulseArm w who g => Sys2Proof.Machine.execPulseArm w who g s
  | .pulseDisarm w who g => Sys2Proof.Machine.execPulseDisarm w who g s
  | .pulseEdge w g => Sys2Proof.Machine.execPulseEdge w g s
  | .syncTransmit w port stampA stampB => Sys2Proof.Machine.execSyncTransmit w port stampA stampB s
  | .announceTransmit w port => Sys2Proof.Machine.execAnnounceTransmit w port s
  | .pdelayReqTransmit w port stamp => Sys2Proof.Machine.execPdelayReqTransmit w port stamp s
  | .pdelayReqReceived w port m txStamp => Sys2Proof.Machine.execPdelayReqReceived w port m txStamp s
  | .pdelayRespReceived w f => Sys2Proof.Machine.execPdelayRespReceived w f s
  | .portLinkChange w port up => Sys2Proof.Machine.execPortLinkChange w port up s
  | .laserOffWrite w who port off => Sys2Proof.Machine.execLaserOffWrite w who port off s
  | .replyReceived w port f => Sys2Proof.Machine.execReplyReceived w port f s
  | .helloReceived w port f => Sys2Proof.Machine.execHelloReceived w port f s
  | .resyncSend w station task => Sys2Proof.Machine.execResyncSend w station task s
  | .surgeFragmentReceived w port f => Sys2Proof.Machine.execSurgeFragmentReceived w port f s
  | .surgeWindowTimeout w port station windowId => Sys2Proof.Machine.execSurgeWindowTimeout w port station windowId s
  | .unknownFrame w port kind => Sys2Proof.Machine.execUnknownFrame w port kind s
  | .prpSupervision w port => Sys2Proof.Machine.execPrpSupervision w port s
  | .controlQueueError w q => Sys2Proof.Machine.execControlQueueError w q s
  | .dataQueueError w q corrected => Sys2Proof.Machine.execDataQueueError w q corrected s
  | .opticalModuleChange w cage fitted highPower signal txFault => Sys2Proof.Machine.execOpticalModuleChange w cage fitted highPower signal txFault s
  | .svFrameReceived w port f => Sys2Proof.Machine.execSvFrameReceived w port f s
  | .subscriptionLost w sub => Sys2Proof.Machine.execSubscriptionLost w sub s
  | .slotEmit w => Sys2Proof.Machine.execSlotEmit w s
  | .sviFrzReq w who => Sys2Proof.Machine.execSviFrzReq w who s
  | .sviFrzRelease w who win => Sys2Proof.Machine.execSviFrzRelease w who win s
  | .archiveFreeze w ses pre post tSec tNs => Sys2Proof.Machine.execArchiveFreeze w ses pre post tSec tNs s
  | .archiveRelease w ses win => Sys2Proof.Machine.execArchiveRelease w ses win s
  | .archiveReadRows w ses r => Sys2Proof.Machine.execArchiveReadRows w ses r s
  | .archiveReadMemory w ses addr len64 faults => Sys2Proof.Machine.execArchiveReadMemory w ses addr len64 faults s
  | .publicationFrameSend w host readFault => Sys2Proof.Machine.execPublicationFrameSend w host readFault s
  | .c37TcpConnect w host stream conn => Sys2Proof.Machine.execC37TcpConnect w host stream conn s
  | .c37TcpClose w stream conn => Sys2Proof.Machine.execC37TcpClose w stream conn s
  | .c37TxOff w c => Sys2Proof.Machine.execC37TxOff w c s
  | .c37TxOn w c => Sys2Proof.Machine.execC37TxOn w c s
  | .c37SendCfg2 w c => Sys2Proof.Machine.execC37SendCfg2 w c s
  | .c37SendCfg3 w c => Sys2Proof.Machine.execC37SendCfg3 w c s
  | .c37CommandIgnored w => Sys2Proof.Machine.execC37CommandIgnored w s
  | .wceWindowTake w => Sys2Proof.Machine.execWceWindowTake w s
  | .wceCollectExpiry w => Sys2Proof.Machine.execWceCollectExpiry w s
  | .wceResult w => Sys2Proof.Machine.execWceResult w s
  | .wceRecommit w => Sys2Proof.Machine.execWceRecommit w s
  | .taskFreeze w f => Sys2Proof.Machine.execTaskFreeze w f s
  | .taskStartSignal w task d => Sys2Proof.Machine.execTaskStartSignal w task d s
  | .seqCommit w who task => Sys2Proof.Machine.execSeqCommit w who task s
  | .commitComplete w task => Sys2Proof.Machine.execCommitComplete w task s
  | .retNow w who => Sys2Proof.Machine.execRetNow w who s
  | .forceSet w ses tag value => Sys2Proof.Machine.execForceSet w ses tag value s
  | .forceClear w ses tag => Sys2Proof.Machine.execForceClear w ses tag s
  | .forceRead w ses idx => Sys2Proof.Machine.execForceRead w ses idx s
  | .triadTransaction w cycle l0 l1 l2 => Sys2Proof.Machine.execTriadTransaction w cycle l0 l1 l2 s
  | .rejoinStartTimeout w => Sys2Proof.Machine.execRejoinStartTimeout w s
  | .tcmCopyComplete w => Sys2Proof.Machine.execTcmCopyComplete w s
  | .rejoinFinalStep w d => Sys2Proof.Machine.execRejoinFinalStep w d s
  | .split w who => Sys2Proof.Machine.execSplit w who s
  | .splitEnd w who d => Sys2Proof.Machine.execSplitEnd w who d s
  | .debugArm w who lane => Sys2Proof.Machine.execDebugArm w who lane s
  | .debugDetach w who => Sys2Proof.Machine.execDebugDetach w who s
  | .debugArmLapse w => Sys2Proof.Machine.execDebugArmLapse w s
  | .probeAttach w lane session => Sys2Proof.Machine.execProbeAttach w lane session s
  | .probeDetach w => Sys2Proof.Machine.execProbeDetach w s
  | .masterTransaction w tx => Sys2Proof.Machine.execMasterTransaction w tx s
  | .budgetExhausted w stall charge d => Sys2Proof.Machine.execBudgetExhausted w stall charge d s
  | .sensorConversion w sensor temp => Sys2Proof.Machine.execSensorConversion w sensor temp s
  | .thermalDegradedEntry w => Sys2Proof.Machine.execThermalDegradedEntry w s
  | .thermalHandoverRepeat w => Sys2Proof.Machine.execThermalHandoverRepeat w s
  | .thermalDegradedExit w => Sys2Proof.Machine.execThermalDegradedExit w s
  | .feedStateChange w mv1 mv2 carry => Sys2Proof.Machine.execFeedStateChange w mv1 mv2 carry s
  | .powerFail w rideLow => Sys2Proof.Machine.execPowerFail w rideLow s
  | .finalRoundComplete w complete stored => Sys2Proof.Machine.execFinalRoundComplete w complete stored s
  | .bankTest w => Sys2Proof.Machine.execBankTest w s
  | .bankTestComplete w ride hold => Sys2Proof.Machine.execBankTestComplete w ride hold s
  | .overtempTrip w sensor => Sys2Proof.Machine.execOvertempTrip w sensor s
  | .overtempRecover w => Sys2Proof.Machine.execOvertempRecover w s
  | .wvlAlive w who => Sys2Proof.Machine.execWvlAlive w who s
  | .heartbeatReceived w h => Sys2Proof.Machine.execHeartbeatReceived w h s
  | .linkFrameDiscard w lane e => Sys2Proof.Machine.execLinkFrameDiscard w lane e s
  | .laneDown w lane => Sys2Proof.Machine.execLaneDown w lane s
  | .heartbeatMiss w => Sys2Proof.Machine.execHeartbeatMiss w s
  | .takeover w => Sys2Proof.Machine.execTakeover w s
  | .copyReceived w h c => Sys2Proof.Machine.execCopyReceived w h c s
  | .reseedSend w task lines => Sys2Proof.Machine.execReseedSend w task lines s
  | .reseedReceived w h m => Sys2Proof.Machine.execReseedReceived w h m s
  | .relinquishReceived w h hstrobe => Sys2Proof.Machine.execRelinquishReceived w h hstrobe s
  | .handoverAnnounce w => Sys2Proof.Machine.execHandoverAnnounce w s
  | .handoverReceived w h m => Sys2Proof.Machine.execHandoverReceived w h m s
  | .handoverAckReceived w h hstrobe => Sys2Proof.Machine.execHandoverAckReceived w h hstrobe s
  | .handoverStrobe w => Sys2Proof.Machine.execHandoverStrobe w s
  | .yieldToPartner w => Sys2Proof.Machine.execYieldToPartner w s
  | .wvlHandover w who => Sys2Proof.Machine.execWvlHandover w who s
  | .pairHandover w ses => Sys2Proof.Machine.execPairHandover w ses s
  | .pairTakeover w ses => Sys2Proof.Machine.execPairTakeover w ses s
  | .pairResync w ses => Sys2Proof.Machine.execPairResync w ses s
  | .pairEpochAdvance w ses amount => Sys2Proof.Machine.execPairEpochAdvance w ses amount s
  | .pairForcePrimary w ses => Sys2Proof.Machine.execPairForcePrimary w ses s
  | .scrubFloor w fault => Sys2Proof.Machine.execScrubFloor w fault s
  | .scrubLine w who fault => Sys2Proof.Machine.execScrubLine w who fault s
  | .retire w who => Sys2Proof.Machine.execRetire w who s
  | .retireCopyComplete w faults => Sys2Proof.Machine.execRetireCopyComplete w faults s
  | .purgeForeign w who => Sys2Proof.Machine.execPurgeForeign w who s
  | .ceLogAck w who idx => Sys2Proof.Machine.execCeLogAck w who idx s
  | .crtRtInstall w who => Sys2Proof.Machine.execCrtRtInstall w who s
  | .crtRtEmpty w who => Sys2Proof.Machine.execCrtRtEmpty w who s
  | .crtRtInvalidAction w who => Sys2Proof.Machine.execCrtRtInvalidAction w who s
  | .crtDrainComplete w => Sys2Proof.Machine.execCrtDrainComplete w s
  | .wardDrainComplete w ward => Sys2Proof.Machine.execWardDrainComplete w ward s
  | .keeperInsert w c => Sys2Proof.Machine.execKeeperInsert w c s
  | .boltClose w => Sys2Proof.Machine.execBoltClose w s
  | .boltOpen w => Sys2Proof.Machine.execBoltOpen w s
  | .keeperSafe w => Sys2Proof.Machine.execKeeperSafe w s
  | .keeperRemove w => Sys2Proof.Machine.execKeeperRemove w s
  | .commission w who => Sys2Proof.Machine.execCommission w who s
  | .recommission w who => Sys2Proof.Machine.execRecommission w who s
  | .keeperPageAdmit w => Sys2Proof.Machine.execKeeperPageAdmit w s
  | .bitstreamStoreComplete w ok => Sys2Proof.Machine.execBitstreamStoreComplete w ok s
  | .partnerStoreComplete w ok => Sys2Proof.Machine.execPartnerStoreComplete w ok s
  | .keeperStale w => Sys2Proof.Machine.execKeeperStale w s
  | .ledgerPageTimeout w => Sys2Proof.Machine.execLedgerPageTimeout w s
  | .suppressionSummary w => Sys2Proof.Machine.execSuppressionSummary w s
  | .lgrReq w who => Sys2Proof.Machine.execLgrReq w who s
  | .lgrRead w who => Sys2Proof.Machine.execLgrRead w who s
  | .lgrSnap w who => Sys2Proof.Machine.execLgrSnap w who s
  | .ledgerSnap w ses => Sys2Proof.Machine.execLedgerSnap w ses s
  | .ledgerRead w ses first count => Sys2Proof.Machine.execLedgerRead w ses first count s
  | .sourceSevere w source d e => Sys2Proof.Machine.execSourceSevere w source d e s
  | .fcrAck w who source => Sys2Proof.Machine.execFcrAck w who source s
  | .fcrCfgWrite w who v => Sys2Proof.Machine.execFcrCfgWrite w who v s
  | .shpConnect w port linkLocal => Sys2Proof.Machine.execShpConnect w port linkLocal s
  | .tlsHandshake w ses h => Sys2Proof.Machine.execTlsHandshake w ses h s
  | .handshakeTimeout w ses => Sys2Proof.Machine.execHandshakeTimeout w ses s
  | .sessionIdleTimeout w ses => Sys2Proof.Machine.execSessionIdleTimeout w ses s
  | .sessionClose w ses framing => Sys2Proof.Machine.execSessionClose w ses framing s
  | .hello w ses version => Sys2Proof.Machine.execHello w ses version s
  | .read w ses addrs => Sys2Proof.Machine.execRead w ses addrs s
  | .write w ses entries => Sys2Proof.Machine.execWrite w ses entries s
  | .shpReservedType w ses ty => Sys2Proof.Machine.execShpReservedType w ses ty s
  | .bitstreamLoadBlock w ses offset data => Sys2Proof.Machine.execBitstreamLoadBlock w ses offset data s
  | .firmwareLoadBlock w ses offset data => Sys2Proof.Machine.execFirmwareLoadBlock w ses offset data s
  | .accessSetLoadBlock w ses offset data => Sys2Proof.Machine.execAccessSetLoadBlock w ses offset data s
  | .bitstreamCommit w ses => Sys2Proof.Machine.execBitstreamCommit w ses s
  | .bitstreamRevert w ses => Sys2Proof.Machine.execBitstreamRevert w ses s
  | .bitstreamAbort w ses => Sys2Proof.Machine.execBitstreamAbort w ses s
  | .bslAbort w who => Sys2Proof.Machine.execBslAbort w who s
  | .bitstreamLoadTimeout w => Sys2Proof.Machine.execBitstreamLoadTimeout w s
  | .firmwareCommit w ses => Sys2Proof.Machine.execFirmwareCommit w ses s
  | .firmwareReadbackComplete w flashOk => Sys2Proof.Machine.execFirmwareReadbackComplete w flashOk s
  | .firmwareRevert w ses => Sys2Proof.Machine.execFirmwareRevert w ses s
  | .firmwareAbort w ses => Sys2Proof.Machine.execFirmwareAbort w ses s
  | .updAbort w who => Sys2Proof.Machine.execUpdAbort w who s
  | .firmwareLoadTimeout w => Sys2Proof.Machine.execFirmwareLoadTimeout w s
  | .accessSetCommit w ses act chainOk => Sys2Proof.Machine.execAccessSetCommit w ses act chainOk s
  | .accessSetStored w => Sys2Proof.Machine.execAccessSetStored w s
  | .notifySubscribe w ses kinds sources => Sys2Proof.Machine.execNotifySubscribe w ses kinds sources s
  | .notifyLostReport w ses => Sys2Proof.Machine.execNotifyLostReport w ses s
  | .bulkReadWithheld w ses => Sys2Proof.Machine.execBulkReadWithheld w ses s
  | .trimZero w ses channel v => Sys2Proof.Machine.execTrimZero w ses channel v s
  | .trimSpan w ses channel v => Sys2Proof.Machine.execTrimSpan w ses channel v s
  | .hostArpRequest w port target => Sys2Proof.Machine.execHostArpRequest w port target s
  | .hostNeighbourSolicitation w port target => Sys2Proof.Machine.execHostNeighbourSolicitation w port target s
  | .hostEchoRequest w port v6 target => Sys2Proof.Machine.execHostEchoRequest w port v6 target s
  | .hostFrameDiscard w port => Sys2Proof.Machine.execHostFrameDiscard w port s
  | .hostLinkChange w port up => Sys2Proof.Machine.execHostLinkChange w port up s
  | .diChangeAccept w ch level stamp => Sys2Proof.Machine.execDiChangeAccept w ch level stamp s
  | .diWireBreak w ch => Sys2Proof.Machine.execDiWireBreak w ch s
  | .diWireBreakClear w ch => Sys2Proof.Machine.execDiWireBreakClear w ch s
  | .outputApply w task => Sys2Proof.Machine.execOutputApply w task s
  | .doToggleWaitEnd w ch => Sys2Proof.Machine.execDoToggleWaitEnd w ch s
  | .doShutdown w ch => Sys2Proof.Machine.execDoShutdown w ch s
  | .doRetry w ch holds => Sys2Proof.Machine.execDoRetry w ch holds s
  | .doMismatch w ch present => Sys2Proof.Machine.execDoMismatch w ch present s
  | .aoTerminalFault w ch => Sys2Proof.Machine.execAoTerminalFault w ch s
  | .aoTerminalTest w ch inRange => Sys2Proof.Machine.execAoTerminalTest w ch inRange s
  | .aoCommission w who ch => Sys2Proof.Machine.execAoCommission w who ch s
  | .aoCommissionEnd w who => Sys2Proof.Machine.execAoCommissionEnd w who s
  | .zeroButton w => Sys2Proof.Machine.execZeroButton w s
  | .spanButton w => Sys2Proof.Machine.execSpanButton w s
  | .commissionTimeout w => Sys2Proof.Machine.execCommissionTimeout w s
  | .fieldSupplyChange w mv => Sys2Proof.Machine.execFieldSupplyChange w mv s
  | .terminalBlockUnplug w => Sys2Proof.Machine.execTerminalBlockUnplug w s
  | .restartWarm w who => Sys2Proof.Machine.execRestartWarm w who s
  | .restartCold w who => Sys2Proof.Machine.execRestartCold w who s
  | .restartExecute w stored => Sys2Proof.Machine.execRestartExecute w stored s
  | .latchOpen w => Sys2Proof.Machine.execLatchOpen w s
  | .latchClose w => Sys2Proof.Machine.execLatchClose w s
  | .registerWrite w who addr v d => Sys2Proof.Machine.execRegisterWrite w who addr v d s
  | .followUpReceived w f isPdelay => Sys2Proof.Machine.execFollowUpReceived w f isPdelay s
  | .ptpFrameDiscard w port => Sys2Proof.Machine.execPtpFrameDiscard w port s
  | .frameCheckError w port => Sys2Proof.Machine.execFrameCheckError w port s
  | .partnerCommitReceived w h gen digest => Sys2Proof.Machine.execPartnerCommitReceived w h gen digest s
  | .activationPeriodReceived w h a => Sys2Proof.Machine.execActivationPeriodReceived w h a s
  | .keeperWriteComplete w ok => Sys2Proof.Machine.execKeeperWriteComplete w ok s
  | .scrubAboveFloor w fault => Sys2Proof.Machine.execScrubAboveFloor w fault s

end Sys2Proof.Machine
end

