-- ==== Sys2Proof/Safety.lean ====
section
/-! DEFINITION. What counts as a legal state of the block, the parts of the state, which parts a command may change
(its footprint), and the frame that statements speak of. -/

namespace Sys2Proof.Machine

/-- The codes that a state's mode registers take, and the form of main memory: phase P0 to P7 (R389), role 0 to 5
(`WVL_STAT.ROLE`), triad mode 0 to 5 (`TRD_STAT.MODE`), servo state 0 to 4 (`TMB_STAT.STATE`), keeper state 0 to 5
(`KPR_STAT.STATE`). -/
structure State.Legal (s : State) : Prop where
  mem : s.mem.mem.wf
  phase : s.gen.phase ≤ 7
  role : s.wvl.role ≤ 5
  mode : s.trd.mode ≤ 5
  servo : s.tmb.state ≤ 4
  keeper : s.kpr.state ≤ 5

/-- The write of the register at `addr` by `who` is carried out: it may issue, its role writes registers, and every check of
R295 admits it. -/
def State.grants (s : State) (who : Agent) (addr : Nat) : Bool :=
  s.issues (identOf who) && s.mayWrite who && (checkAccess (identOf who) 1 addr 4 true s).1.isNone

/-- A reply to a host session: its index, status and detail, and the length of its payload (R355). -/
def Out.shpReply : Out → Option (Nat × Nat × Nat × Nat)
  | .shp i _ status detail payload => some (i, status, detail, payload.length)
  | _ => none

/-- A reply on a session to the request that a command carries, with its header (R351): a payload of whole words, the request's
type and its tag. -/
def shpOut (w : When) (ty ses status detail : Nat) (payload : List Nat) : Out :=
  .shp ses { length := 4 * payload.length, ty := ty, flags := 1, tag := w.tag } status detail payload

/-- No other source became due in the always-on cycle of source `i` (R335). -/
def FcrState.alone (f : FcrState) (i : Nat) : Bool :=
  (List.range 48).all fun j => j == i || !(f.sources.getD j {}).due || (f.sources.getD j {}).dueAt != (f.sources.getD i {}).dueAt

/-- Every read of main memory, by lines, that identity 9 issues for the parts of a bulk read is admitted (R295, R356). -/
def State.bulkGranted (s : State) (parts : List (Nat × Nat)) : Bool :=
  (groupLines parts).all fun ps =>
    (checkAccess 9 0 (partSpan ps).1 (partSpan ps).2 false s).1.isNone

/-- A frame on the link: its type, the sender's side and role, and its data (R256). -/
def Out.linkFrame : Out → Option (Nat × Nat × Nat × List Nat)
  | .link h data => some (h.msg, h.side, h.role, data)
  | _ => none

/-- The end of a reseed: its task, cycle count and skips (R267). -/
def Out.reseedEnd : Out → Option (Nat × Nat × Nat)
  | .reseed _ (.done t _ cycle skips _) => some (t.val, cycle, skips)
  | _ => none

/-- A state of the block runs: its next step answers a next state. -/
def State.runs (s : State) : Prop := ∃ t, step s = .next t

/-- The parts of the state that frames speak of. -/
inductive Part where
  /-- Module time and the always-on clock, and the tag of the message at hand. -/
  | time
  /-- The period count. -/
  | count
  /-- The index of the next free value (the model's own). -/
  | draws
  /-- The GEN block, fuses and start-up. -/
  | start
  /-- The event registers, `EVT_PEND` and the masks. -/
  | events
  /-- The servo, its sources and its figures. -/
  | timebase
  /-- The pulse generators and their pins. -/
  | pulses
  /-- The two copies of `TMB_SNAP_`. -/
  | snaps
  /-- The path delays and exchanges of PTP. -/
  | delays
  /-- The station ports. -/
  | ports
  /-- Stations and streams. -/
  | stations
  /-- The sampled-value intake. -/
  | intake
  /-- The archive: segments, windows and their registers. -/
  | archive
  /-- The phasor engine. -/
  | phasors
  /-- The data streams and the publication queues. -/
  | streams
  /-- The mailbox. -/
  | mailbox
  /-- The wavefront engine. -/
  | surges
  /-- The tasks. -/
  | tasks
  /-- The force table. -/
  | forces
  /-- The sequencer's own registers. -/
  | sequencer
  /-- The triad, but its debug lane. -/
  | triad
  /-- The debug lane. -/
  | debug
  /-- The stalls' budgets. -/
  | budgets
  /-- Power and temperature. -/
  | power
  /-- The pair, its link and its role. -/
  | pair
  /-- Main memory's contents. -/
  | memory
  /-- The memory controller's registers. -/
  | memctl
  /-- Wards and central rules. -/
  | wards
  /-- The fault collector. -/
  | faults
  /-- The ledger front end. -/
  | ledger
  /-- The mounted cartridge. -/
  | cartridge
  /-- The keeper interface. -/
  | keeper
  /-- The bit-stream loader. -/
  | loader
  /-- Firmware slots and the update unit. -/
  | firmware
  /-- The digital inputs. -/
  | inputs
  /-- The digital outputs. -/
  | outputs
  /-- The loop outputs and commissioning. -/
  | loops
  /-- The other registers of the field I/O. -/
  | field
  /-- The sessions. -/
  | sessions
  /-- The access set. -/
  | access
  /-- The other registers of the host interface. -/
  | host
  /-- The configuration in force and its swaps. -/
  | config
  /-- The register latches of R404. -/
  | latches
  /-- What has left the block (the model's own record). -/
  | sent
  deriving DecidableEq, Repr

/-- The time base without the parts that stand alone. -/
abbrev TmbState.rest (x : TmbState) : TmbState :=
  { x with gens := [], tpo := [], snapFw := {}, snapHost := {}, meanDelay := [], pdelayT1 := [], pdelayResp := [], twoStep := none }

/-- The intake without the archive. -/
abbrev SviState.rest (x : SviState) : SviState :=
  { x with segs := [], writing := none, lastSeg := 0, half := [], stopped := false, archSlot := 0, skipped := 0, wins := []
           tLo := 0, tHi := 0, tNs := 0, pre := 0, post := 0, frzWin := 0, frzResult := 0 }

/-- The archive without the intake. -/
abbrev SviState.arch (x : SviState) : SviState :=
  { x with subs := [], subSelFw := 0, subSelHost := 0, unsubscribed := 0, lastSlot := none, boundary := 0, oldSubs := none
           oldSec := {}, oldGen := 0, fenced := false }

/-- The phasor engine without streams and mailbox. -/
abbrev PheState.rest (x : PheState) : PheState := { x with streams := [], queue := [], banks := [], newest := 0, pendMb := [], locked := none, before := none }

/-- The sequencer's own registers. -/
abbrev SeqState.rest (x : SeqState) : SeqState := { x with tasks := [], forces := [], forcesSent := false }

/-- The triad without its debug lane. -/
abbrev TrdState.rest (x : TrdState) : TrdState :=
  { x with debugBroken := false, debugLane := 0, debugLive := false, dbgLane := 0, armLane := none, armUntil := 0, dbgRefuse := 0, dbgRefused := 0 }

/-- The debug lane. -/
abbrev TrdState.dbg (x : TrdState) : Bool × Nat × Bool × Nat × Option Nat × Nat × Nat × Nat :=
  (x.debugBroken, x.debugLane, x.debugLive, x.dbgLane, x.armLane, x.armUntil, x.dbgRefuse, x.dbgRefused)

/-- The memory controller without the memory. -/
abbrev MemState.rest (x : MemState) : MemState := { x with mem := {} }

/-- The keeper interface without the cartridge. -/
abbrev KprState.rest (x : KprState) : KprState := { x with cartridge := none }

/-- The field I/O without its channels. -/
abbrev FioState.rest (x : FioState) : FioState := { x with di := [], dout := [], ao := [], aoSel := 0, comm := none }

/-- The host interface without sessions and access set. -/
abbrev HifState.rest (x : HifState) : HifState := { x with sessions := [], egress := [], access := none, accessStoring := [], accessReady := [] }

/-- Every part. -/
def Part.all : List Part :=
  [.time, .count, .draws, .start, .events, .timebase, .pulses, .snaps, .delays, .ports, .stations, .intake, .archive, .phasors,
     .streams, .mailbox, .surges, .tasks, .forces, .sequencer, .triad, .debug, .budgets, .power, .pair, .memory, .memctl,
     .wards, .faults, .ledger, .cartridge, .keeper, .loader, .firmware, .inputs, .outputs, .loops, .field, .sessions, .access,
     .host, .config, .latches, .sent]

/-- A part is the same in both states. -/
def Part.Same (s t : State) : Part → Prop
  | .time => t.now = s.now ∧ t.aon = s.aon ∧ t.msgTag = s.msgTag
  | .count => t.pcount = s.pcount ∧ t.followers = s.followers ∧ t.discont = s.discont
  | .draws => t.fresh = s.fresh
  | .start => t.gen = s.gen
  | .events => t.evt = s.evt
  | .timebase => t.tmb.rest = s.tmb.rest
  | .pulses => t.tmb.gens = s.tmb.gens ∧ t.tmb.tpo = s.tmb.tpo
  | .snaps => t.tmb.snapFw = s.tmb.snapFw ∧ t.tmb.snapHost = s.tmb.snapHost
  | .delays => t.tmb.meanDelay = s.tmb.meanDelay ∧ t.tmb.pdelayT1 = s.tmb.pdelayT1 ∧ t.tmb.pdelayResp = s.tmb.pdelayResp ∧
      t.tmb.twoStep = s.tmb.twoStep
  | .ports => t.prt.ports = s.prt.ports
  | .stations => t.prt.stations = s.prt.stations ∧ t.prt.streams = s.prt.streams
  | .intake => t.svi.rest = s.svi.rest
  | .archive => t.svi.arch = s.svi.arch
  | .phasors => t.phe.rest = s.phe.rest
  | .streams => t.phe.streams = s.phe.streams ∧ t.phe.queue = s.phe.queue
  | .mailbox => t.phe.banks = s.phe.banks ∧ t.phe.newest = s.phe.newest ∧ t.phe.pendMb = s.phe.pendMb ∧
      t.phe.locked = s.phe.locked ∧ t.phe.before = s.phe.before
  | .surges => t.wce = s.wce
  | .tasks => t.seq.tasks = s.seq.tasks
  | .forces => t.seq.forces = s.seq.forces ∧ t.seq.forcesSent = s.seq.forcesSent
  | .sequencer => t.seq.rest = s.seq.rest
  | .triad => t.trd.rest = s.trd.rest
  | .debug => t.trd.dbg = s.trd.dbg
  | .budgets => t.bgt = s.bgt
  | .power => t.ptm = s.ptm
  | .pair => t.wvl = s.wvl
  | .memory => t.mem.mem = s.mem.mem
  | .memctl => t.mem.rest = s.mem.rest
  | .wards => t.wrd = s.wrd
  | .faults => t.fcr = s.fcr
  | .ledger => t.lgr = s.lgr
  | .cartridge => t.kpr.cartridge = s.kpr.cartridge
  | .keeper => t.kpr.rest = s.kpr.rest
  | .loader => t.bsl = s.bsl
  | .firmware => t.upd = s.upd
  | .inputs => t.fio.di = s.fio.di
  | .outputs => t.fio.dout = s.fio.dout
  | .loops => t.fio.ao = s.fio.ao ∧ t.fio.aoSel = s.fio.aoSel ∧ t.fio.comm = s.fio.comm
  | .field => t.fio.rest = s.fio.rest
  | .sessions => t.hif.sessions = s.hif.sessions ∧ t.hif.egress = s.hif.egress
  | .access => t.hif.access = s.hif.access ∧ t.hif.accessStoring = s.hif.accessStoring ∧ t.hif.accessReady = s.hif.accessReady
  | .host => t.hif.rest = s.hif.rest
  | .config => t.cfg = s.cfg
  | .latches => t.latchFw = s.latchFw ∧ t.latchHost = s.latchHost
  | .sent => t.out = s.out

/-- The frame of a command: the queue, and every part but those listed, are as they were. Where main memory is not listed,
every byte of it reads as before. -/
def Only (ps : List Part) (s t : State) : Prop := t.pending = s.pending ∧ ∀ p, p ∉ ps → p.Same s t

/-- The session may send requests of role `r` and is answered at once: it is open, has said HELLO, has the role, is not a
bootstrap session, no reply to an earlier request of its own waits (R352), and no publication frame goes before (R28). -/
def State.serves (s : State) (i : Fin 8) (r : Nat) : Bool :=
  match s.hif.sessions.getD i.val none with
  | some x => !s.pubFirst x.port && x.helloDone && !x.bootstrap && x.replies.isEmpty && decide (0 < x.role ∧ r ≤ x.role ∧ x.outstanding < 16)
  | none => false

end Sys2Proof.Machine

namespace Sys2Proof

open Sys2Proof.Machine

/-- The parts that a command may change: its footprint. -/
def Instr.touches : Instr → List Part
  | .powerApplied .. | .overtempRecover .. | .restartExecute .. =>
    Part.all
  | .bootRomSelect .. =>
    [.time, .start, .firmware]
  | .comparatorSelftest .. =>
    [.time, .start, .events, .triad, .ledger, .keeper, .sessions, .host]
  | .memClear .. | .retire .. | .ceLogAck .. =>
    [.time, .events, .debug, .memctl, .wards, .faults, .ledger, .keeper, .sessions, .host, .sent]
  | .memClearDone .. =>
    [.time, .start, .memory, .memctl]
  | .keeperCheck .. =>
    [.time, .start, .events, .timebase, .faults, .ledger, .cartridge, .keeper, .loader, .firmware, .sessions,
       .access, .host, .sent]
  | .generationLoad .. =>
    [.time, .draws, .start, .events, .timebase, .intake, .archive, .phasors, .streams, .surges, .tasks, .sequencer,
       .pair, .memory, .memctl, .wards, .faults, .ledger, .cartridge, .keeper, .loader, .sessions, .host, .config]
  | .pairNegotiation .. | .negotiateTimeout .. =>
    [.time, .draws, .start, .events, .ports, .stations, .tasks, .forces, .sequencer, .triad, .debug, .pair, .memory,
       .memctl, .wards, .faults, .ledger, .keeper, .loops, .field, .sessions, .host, .sent]
  | .periodStrobe .. =>
    [.time, .count, .draws, .start, .events, .timebase, .delays, .ports, .stations, .intake, .archive, .phasors,
       .streams, .mailbox, .surges, .tasks, .forces, .sequencer, .triad, .debug, .budgets, .power, .pair, .memory,
       .memctl, .wards, .faults, .ledger, .cartridge, .keeper, .loader, .sessions, .host, .config, .sent]
  | .maskMiss .. =>
    [.time, .events, .budgets, .faults, .sessions, .host]
  | .strobeLoss .. =>
    [.time, .count, .faults]
  | .syncReceived .. | .followUpReceived .. =>
    [.time, .count, .draws, .start, .events, .timebase, .delays, .ports, .intake, .pair, .faults, .ledger, .keeper,
       .sessions, .host]
  | .ptpAnnounceReceived .. =>
    [.time, .start, .events, .timebase, .delays, .ports, .pair, .faults, .ledger, .keeper, .sessions, .host]
  | .ppsEdge .. | .irigbFrame .. =>
    [.time, .count, .draws, .start, .events, .timebase, .intake, .pair, .faults, .ledger, .keeper, .sessions, .host]
  | .sourceLoss .. | .sourceQualified .. =>
    [.time, .start, .events, .timebase, .delays, .pair, .faults, .ledger, .keeper, .sessions, .host]
  | .acqTimeout .. =>
    [.time, .start, .events, .timebase, .pair, .sessions, .host]
  | .holdoverLimit .. =>
    [.time, .start, .events, .timebase, .pair, .faults, .ledger, .keeper, .sessions, .host]
  | .leapApply .. =>
    [.time, .events, .timebase, .sessions, .host]
  | .tmbSnap .. =>
    [.time, .events, .snaps, .debug, .wards, .faults, .ledger, .keeper, .sessions, .host, .sent]
  | .stepAccept .. =>
    [.time, .start, .events, .timebase, .debug, .pair, .wards, .faults, .ledger, .keeper, .sessions, .host, .sent]
  | .tmbFreqTrimWrite .. | .tmbPhaseStepWrite .. =>
    [.time, .events, .timebase, .debug, .wards, .faults, .ledger, .keeper, .sessions, .host, .sent]
  | .tmbSrcWrite .. =>
    [.time, .start, .events, .timebase, .delays, .debug, .pair, .wards, .faults, .ledger, .keeper, .sessions, .host,
       .sent]
  | .pulseArm .. | .pulseDisarm .. =>
    [.time, .events, .pulses, .debug, .wards, .faults, .ledger, .keeper, .sessions, .host, .sent]
  | .pulseEdge .. =>
    [.time, .events, .pulses, .ledger, .keeper, .outputs, .field, .sessions, .host, .sent]
  | .syncTransmit .. | .announceTransmit .. | .prpSupervision .. =>
    [.time, .ports, .sent]
  | .pdelayReqTransmit .. =>
    [.time, .delays, .ports, .sent]
  | .pdelayReqReceived .. =>
    [.time, .ports, .host, .sent]
  | .pdelayRespReceived .. =>
    [.time, .delays, .ports, .host]
  | .portLinkChange .. =>
    [.time, .events, .ports, .sessions, .host]
  | .laserOffWrite .. =>
    [.time, .events, .ports, .debug, .wards, .faults, .ledger, .keeper, .sessions, .host, .sent]
  | .replyReceived .. =>
    [.time, .draws, .events, .ports, .stations, .tasks, .memory, .memctl, .wards, .faults, .ledger, .keeper,
       .sessions, .host, .sent]
  | .helloReceived .. =>
    [.time, .ports, .stations]
  | .resyncSend .. =>
    [.time, .ports, .stations, .sent]
  | .surgeFragmentReceived .. =>
    [.time, .ports, .surges]
  | .surgeWindowTimeout .. | .unknownFrame .. | .opticalModuleChange .. =>
    [.time, .ports]
  | .controlQueueError .. =>
    [.time, .events, .ports, .mailbox, .surges, .faults, .sessions, .host]
  | .dataQueueError .. =>
    [.time, .draws, .events, .ports, .phasors, .streams, .surges, .memctl, .faults, .sessions, .host]
  | .svFrameReceived .. =>
    [.time, .events, .ports, .intake, .sessions, .host]
  | .subscriptionLost .. =>
    [.time, .events, .intake, .sessions, .host]
  | .slotEmit .. =>
    [.time, .draws, .start, .events, .intake, .archive, .phasors, .streams, .mailbox, .surges, .tasks, .sequencer,
       .budgets, .memory, .memctl, .wards, .faults, .ledger, .keeper, .loader, .sessions, .host, .config, .sent]
  | .sviFrzReq .. | .sviFrzRelease .. =>
    [.time, .events, .archive, .debug, .wards, .faults, .ledger, .keeper, .sessions, .host, .sent]
  | .archiveFreeze .. | .archiveRelease .. =>
    [.time, .events, .archive, .ledger, .keeper, .loader, .firmware, .sessions, .access, .host, .sent]
  | .archiveReadRows .. | .archiveReadMemory .. | .ledgerRead .. =>
    [.time, .events, .debug, .budgets, .memctl, .wards, .faults, .ledger, .keeper, .loader, .firmware, .sessions,
       .access, .host, .sent]
  | .publicationFrameSend .. =>
    [.time, .draws, .events, .streams, .budgets, .memctl, .faults, .sessions, .host, .sent]
  | .c37TcpConnect .. =>
    [.time, .events, .streams, .sessions, .host, .sent]
  | .c37TcpClose .. =>
    [.time, .events, .streams, .sessions, .host]
  | .c37TxOff .. | .c37TxOn .. =>
    [.time, .phasors, .streams]
  | .c37SendCfg2 .. | .c37SendCfg3 .. =>
    [.time, .phasors, .streams, .sent]
  | .c37CommandIgnored .. =>
    [.time, .phasors]
  | .wceWindowTake .. =>
    [.time, .events, .surges, .sessions, .host]
  | .wceCollectExpiry .. =>
    [.time, .surges]
  | .wceResult .. =>
    [.time, .draws, .events, .mailbox, .surges, .ledger, .keeper, .sessions, .host]
  | .wceRecommit .. =>
    [.time, .mailbox, .surges]
  | .taskFreeze .. =>
    [.time, .draws, .events, .stations, .mailbox, .tasks, .memory, .memctl, .wards, .faults, .ledger, .keeper,
       .sessions, .host]
  | .taskStartSignal .. =>
    [.time, .draws, .events, .ports, .stations, .mailbox, .tasks, .forces, .sequencer, .triad, .budgets, .pair,
       .memctl, .faults, .ledger, .keeper, .sessions, .host]
  | .seqCommit .. =>
    [.time, .events, .tasks, .sequencer, .triad, .debug, .wards, .faults, .ledger, .keeper, .sessions, .host, .sent]
  | .commitComplete .. =>
    [.time, .draws, .events, .tasks, .forces, .budgets, .pair, .memctl, .wards, .faults, .ledger, .keeper,
       .sessions, .host, .sent]
  | .retNow .. =>
    [.time, .events, .sequencer, .debug, .wards, .faults, .ledger, .keeper, .sessions, .host, .sent]
  | .forceSet .. | .forceClear .. =>
    [.time, .events, .forces, .ledger, .keeper, .loader, .firmware, .sessions, .access, .host, .sent]
  | .forceRead .. | .ledgerSnap .. | .sessionIdleTimeout .. | .sessionClose .. | .hello .. | .shpReservedType .. |
    .firmwareLoadBlock .. | .accessSetLoadBlock .. | .bitstreamAbort .. | .firmwareCommit .. | .firmwareRevert .. |
    .firmwareAbort .. | .accessSetCommit .. | .accessSetStored .. | .notifySubscribe .. =>
    [.time, .events, .ledger, .keeper, .loader, .firmware, .sessions, .access, .host, .sent]
  | .triadTransaction .. =>
    [.time, .events, .triad, .faults, .ledger, .keeper, .sessions, .host, .sent]
  | .rejoinStartTimeout .. | .tcmCopyComplete .. =>
    [.time, .triad]
  | .rejoinFinalStep .. =>
    [.time, .events, .triad, .debug, .faults, .ledger, .keeper, .sessions, .host]
  | .split .. | .debugDetach .. =>
    [.time, .events, .triad, .debug, .wards, .faults, .ledger, .keeper, .sessions, .host, .sent]
  | .splitEnd .. =>
    [.time, .events, .triad, .debug, .budgets, .wards, .faults, .ledger, .keeper, .sessions, .host, .sent]
  | .debugArm .. | .purgeForeign .. | .crtRtInstall .. | .crtRtEmpty .. | .crtRtInvalidAction .. | .lgrReq .. |
    .lgrRead .. | .lgrSnap .. | .fcrCfgWrite .. =>
    [.time, .events, .debug, .wards, .faults, .ledger, .keeper, .sessions, .host, .sent]
  | .debugArmLapse .. =>
    [.time, .debug]
  | .probeAttach .. | .probeDetach .. =>
    [.time, .events, .triad, .debug, .ledger, .keeper, .sessions, .host]
  | .masterTransaction .. =>
    [.time, .draws, .start, .events, .timebase, .pulses, .snaps, .delays, .ports, .intake, .archive, .phasors,
       .streams, .mailbox, .surges, .tasks, .forces, .sequencer, .triad, .debug, .budgets, .pair, .memory, .memctl,
       .wards, .faults, .ledger, .cartridge, .keeper, .loader, .firmware, .inputs, .outputs, .loops, .field,
       .sessions, .access, .host, .config, .latches, .sent]
  | .budgetExhausted .. =>
    [.time, .draws, .events, .ports, .archive, .tasks, .sequencer, .triad, .budgets, .memory, .memctl, .wards,
       .faults, .ledger, .keeper, .sessions, .host, .sent]
  | .sensorConversion .. =>
    [.time, .start, .events, .timebase, .power, .pair, .faults, .ledger, .keeper, .sessions, .host]
  | .thermalDegradedEntry .. =>
    [.time, .events, .power, .pair, .faults, .ledger, .keeper, .sessions, .host, .sent]
  | .thermalHandoverRepeat .. =>
    [.time, .events, .power, .pair, .sessions, .host, .sent]
  | .thermalDegradedExit .. =>
    [.time, .events, .power, .ledger, .keeper, .sessions, .host]
  | .feedStateChange .. =>
    [.time, .start, .events, .sequencer, .triad, .power, .ledger, .keeper, .sessions, .host]
  | .powerFail .. | .overtempTrip .. =>
    [.time, .events, .sequencer, .triad, .power, .sessions, .host]
  | .finalRoundComplete .. =>
    [.time, .start, .events, .pulses, .budgets, .ledger, .cartridge, .keeper, .outputs, .loops, .sessions, .host,
       .sent]
  | .bankTest .. =>
    [.time, .power]
  | .bankTestComplete .. =>
    [.time, .start, .events, .power, .faults, .ledger, .keeper, .sessions, .host]
  | .wvlAlive .. | .wvlHandover .. =>
    [.time, .events, .debug, .pair, .wards, .faults, .ledger, .keeper, .sessions, .host, .sent]
  | .heartbeatReceived .. =>
    [.time, .draws, .start, .events, .ports, .stations, .tasks, .forces, .sequencer, .triad, .debug, .pair, .memory,
       .memctl, .wards, .faults, .ledger, .keeper, .outputs, .loops, .field, .sessions, .host, .sent]
  | .linkFrameDiscard .. =>
    [.time, .start, .events, .pair, .ledger, .keeper, .sessions, .host]
  | .laneDown .. =>
    [.time, .events, .pair, .faults, .ledger, .keeper, .sessions, .host]
  | .heartbeatMiss .. =>
    [.time, .start, .events, .forces, .pair, .faults, .ledger, .keeper, .sessions, .host]
  | .takeover .. =>
    [.time, .draws, .start, .events, .delays, .ports, .stations, .tasks, .forces, .sequencer, .triad, .debug, .pair,
       .memory, .memctl, .wards, .faults, .ledger, .keeper, .loader, .outputs, .loops, .field, .sessions, .host,
       .config, .sent]
  | .copyReceived .. | .reseedReceived .. =>
    [.time, .draws, .start, .events, .tasks, .forces, .pair, .memory, .memctl, .wards, .faults, .ledger, .keeper,
       .outputs, .loops, .field, .sessions, .host, .sent]
  | .reseedSend .. =>
    [.time, .events, .budgets, .pair, .memctl, .wards, .faults, .ledger, .keeper, .sessions, .host, .sent]
  | .relinquishReceived .. | .handoverReceived .. | .handoverAckReceived .. =>
    [.time, .start, .events, .pair, .faults, .ledger, .keeper, .outputs, .loops, .field, .sessions, .host, .sent]
  | .handoverAnnounce .. =>
    [.time, .pair, .sessions, .host, .sent]
  | .handoverStrobe .. | .yieldToPartner .. =>
    [.time, .draws, .start, .events, .pulses, .ports, .stations, .tasks, .forces, .sequencer, .pair, .memory,
       .memctl, .wards, .faults, .ledger, .keeper, .loader, .outputs, .loops, .field, .sessions, .host, .config,
       .sent]
  | .pairHandover .. | .pairTakeover .. | .pairEpochAdvance .. =>
    [.time, .events, .pair, .ledger, .keeper, .loader, .firmware, .sessions, .access, .host, .sent]
  | .pairResync .. =>
    [.time, .draws, .start, .events, .tasks, .pair, .memory, .memctl, .wards, .faults, .ledger, .keeper, .loader,
       .firmware, .sessions, .access, .host, .sent]
  | .pairForcePrimary .. =>
    [.time, .draws, .start, .events, .ports, .stations, .tasks, .forces, .sequencer, .triad, .debug, .pair, .memory,
       .memctl, .wards, .faults, .ledger, .keeper, .loader, .firmware, .loops, .field, .sessions, .access, .host,
       .sent]
  | .scrubFloor .. =>
    [.time, .events, .memory, .memctl, .wards, .faults, .ledger, .keeper, .sessions, .host]
  | .scrubLine .. =>
    [.time, .events, .debug, .memory, .memctl, .wards, .faults, .ledger, .keeper, .sessions, .host, .sent]
  | .retireCopyComplete .. =>
    [.time, .events, .memory, .memctl, .faults, .ledger, .keeper, .sessions, .host]
  | .crtDrainComplete .. =>
    [.time, .wards, .sent]
  | .wardDrainComplete .. =>
    [.time, .wards]
  | .keeperInsert .. =>
    [.time, .cartridge]
  | .boltClose .. =>
    [.time, .start, .events, .sequencer, .faults, .ledger, .cartridge, .keeper, .loader, .sessions, .access, .host,
       .sent]
  | .boltOpen .. =>
    [.time, .events, .sequencer, .pair, .memctl, .ledger, .cartridge, .keeper, .loader, .sessions, .host, .config,
       .sent]
  | .keeperSafe .. | .keeperWriteComplete .. =>
    [.time, .events, .sequencer, .pair, .memctl, .faults, .ledger, .cartridge, .keeper, .loader, .sessions, .access,
       .host, .config, .sent]
  | .keeperRemove .. =>
    [.time, .start, .events, .ledger, .cartridge, .keeper, .loader, .sessions, .host]
  | .commission .. =>
    [.time, .start, .events, .timebase, .debug, .wards, .faults, .ledger, .cartridge, .keeper, .loader, .sessions,
       .host, .sent]
  | .recommission .. =>
    [.time, .start, .events, .sequencer, .debug, .pair, .wards, .faults, .ledger, .cartridge, .keeper, .loader,
       .sessions, .host, .config, .sent]
  | .keeperPageAdmit .. =>
    [.time, .events, .sequencer, .budgets, .pair, .faults, .ledger, .cartridge, .keeper, .loader, .sessions, .host,
       .config, .sent]
  | .bitstreamStoreComplete .. =>
    [.time, .draws, .events, .tasks, .pair, .memory, .memctl, .wards, .faults, .ledger, .cartridge, .keeper,
       .loader, .sessions, .host, .config, .sent]
  | .partnerStoreComplete .. =>
    [.time, .events, .pair, .ledger, .cartridge, .keeper, .loader, .sessions, .host, .config, .sent]
  | .keeperStale .. =>
    [.time, .faults, .keeper]
  | .ledgerPageTimeout .. =>
    [.time, .events, .keeper, .sessions, .host]
  | .suppressionSummary .. =>
    [.time, .events, .ledger, .keeper, .sessions, .host]
  | .sourceSevere .. =>
    [.time, .start, .events, .ports, .intake, .phasors, .surges, .triad, .budgets, .pair, .faults, .ledger, .keeper,
       .outputs, .loops, .field, .sessions, .host, .sent]
  | .fcrAck .. =>
    [.time, .events, .ports, .intake, .phasors, .streams, .surges, .debug, .wards, .faults, .ledger, .keeper,
       .sessions, .host, .sent]
  | .shpConnect .. =>
    [.time, .events, .sessions, .host, .sent]
  | .tlsHandshake .. | .handshakeTimeout .. =>
    [.time, .events, .ledger, .keeper, .sessions, .host, .sent]
  | .read .. =>
    [.time, .events, .debug, .wards, .faults, .ledger, .keeper, .loader, .firmware, .sessions, .access, .host,
       .latches, .sent]
  | .write .. | .registerWrite .. =>
    [.time, .start, .events, .timebase, .pulses, .snaps, .delays, .ports, .intake, .archive, .phasors, .streams,
       .mailbox, .surges, .tasks, .forces, .sequencer, .triad, .debug, .budgets, .pair, .memory, .memctl, .wards,
       .faults, .ledger, .cartridge, .keeper, .loader, .firmware, .inputs, .outputs, .loops, .field, .sessions,
       .access, .host, .config, .sent]
  | .bitstreamLoadBlock .. =>
    [.time, .draws, .events, .tasks, .memory, .memctl, .wards, .faults, .ledger, .keeper, .loader, .firmware,
       .sessions, .access, .host, .sent]
  | .bitstreamCommit .. =>
    [.time, .events, .pair, .ledger, .keeper, .loader, .firmware, .sessions, .access, .host, .config, .sent]
  | .bitstreamRevert .. =>
    [.time, .events, .ledger, .cartridge, .keeper, .loader, .firmware, .sessions, .access, .host, .sent]
  | .bslAbort .. =>
    [.time, .events, .debug, .wards, .faults, .ledger, .keeper, .loader, .sessions, .host, .sent]
  | .bitstreamLoadTimeout .. =>
    [.time, .events, .ledger, .keeper, .loader, .sessions, .host]
  | .firmwareReadbackComplete .. =>
    [.time, .events, .ledger, .keeper, .firmware, .sessions, .host, .sent]
  | .updAbort .. =>
    [.time, .events, .debug, .wards, .faults, .ledger, .keeper, .firmware, .sessions, .host, .sent]
  | .firmwareLoadTimeout .. =>
    [.time, .events, .ledger, .keeper, .firmware, .sessions, .host]
  | .notifyLostReport .. =>
    [.time, .sessions]
  | .bulkReadWithheld .. =>
    [.time, .sessions, .sent]
  | .trimZero .. | .trimSpan .. =>
    [.time, .events, .ledger, .keeper, .loader, .firmware, .loops, .sessions, .access, .host, .sent]
  | .hostArpRequest .. | .hostNeighbourSolicitation .. | .hostEchoRequest .. =>
    [.time, .sent]
  | .hostFrameDiscard .. =>
    [.time, .host]
  | .hostLinkChange .. =>
    [.time, .events, .sessions, .host]
  | .diChangeAccept .. =>
    [.time, .inputs]
  | .diWireBreak .. | .diWireBreakClear .. =>
    [.time, .events, .ledger, .keeper, .inputs, .field, .sessions, .host]
  | .outputApply .. =>
    [.time, .events, .tasks, .ledger, .keeper, .outputs, .loops, .field, .sessions, .host, .sent]
  | .doToggleWaitEnd .. | .doShutdown .. | .doRetry .. =>
    [.time, .events, .ledger, .keeper, .outputs, .field, .sessions, .host, .sent]
  | .doMismatch .. =>
    [.time, .start, .events, .pair, .ledger, .keeper, .outputs, .field, .sessions, .host]
  | .aoTerminalFault .. | .aoTerminalTest .. =>
    [.time, .events, .ledger, .keeper, .loops, .field, .sessions, .host, .sent]
  | .aoCommission .. | .aoCommissionEnd .. =>
    [.time, .events, .debug, .wards, .faults, .ledger, .keeper, .loops, .sessions, .host, .sent]
  | .zeroButton .. | .spanButton .. =>
    [.time, .loops, .sent]
  | .commissionTimeout .. =>
    [.time, .events, .ledger, .keeper, .loops, .sessions, .host, .sent]
  | .fieldSupplyChange .. =>
    [.time, .events, .ledger, .keeper, .field, .sessions, .host, .sent]
  | .terminalBlockUnplug .. =>
    [.time, .events, .ledger, .keeper, .inputs, .field, .sessions, .host, .sent]
  | .restartWarm .. | .restartCold .. =>
    [.time, .start, .events, .debug, .pair, .wards, .faults, .ledger, .keeper, .sessions, .host, .sent]
  | .latchOpen .. =>
    [.time, .start, .events, .pair, .ledger, .keeper, .sessions, .host, .sent]
  | .latchClose .. =>
    [.time, .start, .timebase, .pair]
  | .ptpFrameDiscard .. | .frameCheckError .. =>
    [.time, .ports, .host]
  | .partnerCommitReceived .. | .activationPeriodReceived .. =>
    [.time, .start, .events, .pair, .faults, .ledger, .keeper, .loader, .outputs, .loops, .field, .sessions, .host,
       .config, .sent]
  | .scrubAboveFloor .. =>
    [.time, .events, .budgets, .memory, .memctl, .wards, .faults, .ledger, .keeper, .sessions, .host]

end Sys2Proof
end

