-- ==== Sys2Proof/WellFormed.lean ====
section
/-! DEFINITION. Well-formed commands: operands that the frames, messages and registers which carry them can hold. A command
that is not well formed still has a meaning; it stands for nothing that the block could be sent. -/

namespace Sys2Proof

open Sys2Proof.Machine (Cartridge)

/-- An unsigned field of `n` bits holds `x`. -/
def fits (n x : Nat) : Bool := decide (x < 2 ^ n)

/-- A signed field of `n` bits holds `x`. -/
def fitsInt (n : Nat) (x : Int) : Bool := decide (-(2 ^ (n - 1) : Int) ≤ x ∧ x < (2 ^ (n - 1) : Int))

/-- A module time: 48 bits of seconds, in ticks of 2⁻¹⁶ ns (R64). -/
def timeOk (t : Nat) : Bool := decide (t < 2 ^ 48 * 1000000000 * 65536)

/-- A command takes place at a module time that the time format holds (R64), with a 32-bit tag (R351). -/
def When.ok (w : When) : Bool := timeOk w.t && fits 32 w.tag

/-- Two measured feeds in millivolts, as the PTM's registers hold them. -/
def feedOk (mv : Nat) : Bool := fits 32 mv

/-- A raw stamp: a module time at the stamp's resolution of 125 ps (R65). -/
def stampOk (t : Nat) : Bool := timeOk t && decide (t % stampUnit = 0)

/-- A Sync or Follow_Up (IEEE 1588): a 16-bit sequence number, 64-bit correction, the module's raw stamp `t2` of a message that
is stamped, and for `t1`, and a Follow_Up's `t2`, the other clock's time in whole nanoseconds. -/
def SyncFrame.ok (f : SyncFrame) (followUp : Bool) : Bool :=
  fits 8 f.domain && fits 16 f.seqId && timeOk f.t1 && (if followUp then timeOk f.t2 else stampOk f.t2) && fitsInt 64 f.corr

/-- An Announce (IEEE 1588, R83): its fields' widths. -/
def Announce.ok (f : Announce) : Bool :=
  fits 8 f.domain && fits 64 f.sender && fits 16 f.variance && fits 64 f.identity && fits 8 f.clockClass && fits 8 f.accuracy && fits 8 f.priority1 && fits 8 f.priority2
    && fits 16 f.stepsRemoved && fitsInt 16 f.utcOffset && fits 32 f.inaccuracy && fits 16 f.powerId

/-- An IRIG-B label (R85): two-digit year, day 1 to 366, second of day up to a leap second, a 4-bit time quality. -/
def IrigFrame.ok (f : IrigFrame) : Bool :=
  stampOk f.onTime && decide (f.year < 100 ∧ 1 ≤ f.day ∧ f.day ≤ 366 ∧ f.secOfDay ≤ 86400) && fits 4 f.quality

/-- A Pdelay_Resp (IEEE 1588, R79). -/
def PdelayResp.ok (f : PdelayResp) : Bool := fits 8 f.domain && stampOk f.t4 && fitsInt 64 f.corr

/-- One input of a REPLY (R101). -/
def ReplyInput.ok (x : ReplyInput) : Bool := fits 32 x.value && fits 16 x.quality && fits 32 x.stampSec && fits 32 x.stampNs

/-- A REPLY (R101): the widths of its fields, and its inputs as many as it says. -/
def ReplyFrame.ok (f : ReplyFrame) : Bool :=
  fits 16 f.station && fits 48 f.srcMac && fits 32 f.epoch && fits 1 f.side && fits 16 f.ackSeq && fits 16 f.status
    && fits 16 f.inCount && f.inputs.all ReplyInput.ok && decide (f.inputs.length = f.inCount) && stampOk f.stamp

/-- A redundancy control trailer: a 48-bit source address and a 16-bit sequence number (R96). -/
def rctOk (r : Option Rct) : Bool := match r with
  | some x => fits 48 x.src && fits 16 x.seq
  | none => true

/-- A HELLO (R101). -/
def HelloFrame.ok (f : HelloFrame) : Bool := rctOk f.rct && fits 16 f.station && fits 16 f.reason && stampOk f.stamp

/-- A SURGE_WINDOW fragment (R101): the widths of its fields, 16-bit samples. -/
def SurgeFrag.ok (f : SurgeFrag) : Bool :=
  rctOk f.rct && fits 16 f.station && fits 16 f.windowId && fits 32 f.interval && fits 16 f.count && fits 8 f.frag && fits 8 f.fragCount
    && fits 8 f.phase && fits 32 f.scale && fits 16 f.quality && fits 16 f.first && f.samples.all (fitsInt 16) && stampOk f.stamp

/-- One ASDU: a 16-bit count, INT32 values with 32-bit qualities (R117). -/
def Asdu.ok (x : Asdu) : Bool := fits 16 x.smpCnt && x.values.all fun v => fitsInt 32 v.1 && fits 32 v.2

/-- A sampled-value frame (IEC 61850-9-2, R117). -/
def SvFrame.ok (f : SvFrame) : Bool :=
  rctOk f.rct && fits 16 f.appid && fits 32 f.confRev && fits 8 f.smpSynch && f.asdus.all Asdu.ok && stampOk f.stamp

/-- A C37.118.2 command: a 16-bit IDCODE (R164). -/
def C37Cmd.ok (c : C37Cmd) : Bool := fits 16 c.idcode

/-- The widths of the fifteen bit groups (R224). -/
def groupWidths : List Nat := [16, 24, 24, 64, 64, 64, 64, 64, 64, 64, 64, 64, 64, 16, 16]

/-- One lane's transaction: fifteen groups within their widths (R224). -/
def LaneTx.ok (x : LaneTx) : Bool := decide (x.groups.length = 15) && (x.groups.zip groupWidths).all fun p => fits p.2 p.1

/-- A transaction: an address of 48 bits (R224), and at least one byte. -/
def Tx.ok (x : Tx) : Bool := fits 48 x.addr && (if x.isWrite then decide (1 ≤ x.data.length) else decide (1 ≤ x.size))

/-- A link frame's header (R256). -/
def LinkHdr.ok (h : LinkHdr) : Bool := fits 32 h.epoch && fits 8 h.side && fits 8 h.role

/-- A HEARTBEAT (R258): the widths of its payload's fields, sixteen acknowledgements. -/
def Heartbeat.ok (h : Heartbeat) : Bool :=
  h.hdr.ok && fits 16 h.wants && fits 64 h.pcount && fits 32 h.gen && fits 128 h.digest16 && fits 32 h.blvl && fits 32 h.flags && fits 32 h.reserve
    && decide (h.ack.length = 16) && h.ack.all (fits 32)

/-- Instance lines: a 64-bit address and 256 bytes each (R264). -/
def linesOk (l : List (Nat × List Byte)) : Bool := l.all fun x => fits 64 x.1 && decide (x.2.length = 256)

/-- Force entries: a tag and a value (R264). -/
def forcesOk (l : List (Nat × Nat)) : Bool := l.all fun x => fits 32 x.1 && fits 32 x.2

/-- A COPY (R264). -/
def CopyMsg.ok (c : CopyMsg) : Bool :=
  fits 32 c.tgen && fits 64 c.cycle && fits 64 c.base && linesOk c.lines && c.outs.all (fits 32) && forcesOk (c.forces.getD [])
    && fits 32 c.skips && fits 64 c.digest

/-- A RESEED frame (R267). -/
def ReseedMsg.ok : ReseedMsg → Bool
  | .lines _ l => linesOk l
  | .done _ outs cycle skips forces => outs.all (fits 32) && fits 64 cycle && fits 32 skips && forcesOk forces

/-- A handshake: SHA-384 fingerprints (R349). -/
def Handshake.ok (h : Handshake) : Bool :=
  fits 16 h.version && fits 16 h.suite && fits 16 h.group && fits 16 h.scheme && h.certs.all fun c => decide (c.length = 48)

/-- The fields of an ARCHIVE_READ mode 1 request (R354). -/
def RowsReq.ok (r : RowsReq) : Bool := fits 8 r.segment && fits 16 r.chFirst && fits 16 r.chCount && fits 16 r.rows && fits 32 r.rowFirst

/-- A LOAD_BLOCK message: a 32-bit offset; its data within an SHP message's length field (R354). -/
def blockOk (offset : Nat) (data : List Byte) : Bool := fits 32 offset && fits 16 data.length

/-- READ: a 16-bit count of 32-bit addresses (R354). -/
def addrsOk (l : List Nat) : Bool := fits 16 l.length && l.all (fits 32)

/-- WRITE: a 16-bit count of entries with 32-bit addresses (R354). -/
def entriesOk (l : List (Nat × Word)) : Bool := fits 16 l.length && l.all fun e => fits 32 e.1

/-- A cartridge: a 128-bit identity (R310), two copies of the identity block and of the epoch
reserve (R309), two generation slots, two retained slots, at most 512 retire entries (R291). -/
def cartridgeOk (c : Cartridge) : Bool :=
  fits 128 c.ident && decide (c.idCopies.length = 2 ∧ c.reserveCopies.length = 2 ∧ c.slots.length = 2 ∧ c.retained.length = 2 ∧ c.retireMap.length ≤ 512)

/-- What the PTM measures over a period (R242): at most the 64 slots' charges; the 25 islands (R33). -/
def Measured.ok (m : Measured) : Bool := fits 25 m.unseen && m.spent.all fun p => decide (p.1 < 64)

/-- The module time at which a command takes place. -/
def Instr.at : Instr → When
  | .powerApplied w _ _ _ _ _ => w
  | .bootRomSelect w => w
  | .comparatorSelftest w _ => w
  | .memClear w _ => w
  | .memClearDone w => w
  | .keeperCheck w => w
  | .generationLoad w => w
  | .pairNegotiation w => w
  | .negotiateTimeout w => w
  | .periodStrobe w _ => w
  | .maskMiss w => w
  | .strobeLoss w _ => w
  | .syncReceived w _ => w
  | .ptpAnnounceReceived w _ _ => w
  | .ppsEdge w _ _ => w
  | .irigbFrame w _ => w
  | .sourceLoss w => w
  | .sourceQualified w _ _ => w
  | .acqTimeout w => w
  | .holdoverLimit w => w
  | .leapApply w => w
  | .tmbSnap w _ => w
  | .stepAccept w _ => w
  | .tmbFreqTrimWrite w _ _ => w
  | .tmbPhaseStepWrite w _ _ => w
  | .tmbSrcWrite w _ _ => w
  | .pulseArm w _ _ => w
  | .pulseDisarm w _ _ => w
  | .pulseEdge w _ => w
  | .syncTransmit w _ _ _ => w
  | .announceTransmit w _ => w
  | .pdelayReqTransmit w _ _ => w
  | .pdelayReqReceived w _ _ _ => w
  | .pdelayRespReceived w _ => w
  | .portLinkChange w _ _ => w
  | .laserOffWrite w _ _ _ => w
  | .replyReceived w _ _ => w
  | .helloReceived w _ _ => w
  | .resyncSend w _ _ => w
  | .surgeFragmentReceived w _ _ => w
  | .surgeWindowTimeout w _ _ _ => w
  | .unknownFrame w _ _ => w
  | .prpSupervision w _ => w
  | .controlQueueError w _ => w
  | .dataQueueError w _ _ => w
  | .opticalModuleChange w _ _ _ _ _ => w
  | .svFrameReceived w _ _ => w
  | .subscriptionLost w _ => w
  | .slotEmit w => w
  | .sviFrzReq w _ => w
  | .sviFrzRelease w _ _ => w
  | .archiveFreeze w _ _ _ _ _ => w
  | .archiveRelease w _ _ => w
  | .archiveReadRows w _ _ => w
  | .archiveReadMemory w _ _ _ _ => w
  | .publicationFrameSend w _ _ => w
  | .c37TcpConnect w _ _ _ => w
  | .c37TcpClose w _ _ => w
  | .c37TxOff w _ => w
  | .c37TxOn w _ => w
  | .c37SendCfg2 w _ => w
  | .c37SendCfg3 w _ => w
  | .c37CommandIgnored w => w
  | .wceWindowTake w => w
  | .wceCollectExpiry w => w
  | .wceResult w => w
  | .wceRecommit w => w
  | .taskFreeze w _ => w
  | .taskStartSignal w _ _ => w
  | .seqCommit w _ _ => w
  | .commitComplete w _ => w
  | .retNow w _ => w
  | .forceSet w _ _ _ => w
  | .forceClear w _ _ => w
  | .forceRead w _ _ => w
  | .triadTransaction w _ _ _ _ => w
  | .rejoinStartTimeout w => w
  | .tcmCopyComplete w => w
  | .rejoinFinalStep w _ => w
  | .split w _ => w
  | .splitEnd w _ _ => w
  | .debugArm w _ _ => w
  | .debugDetach w _ => w
  | .debugArmLapse w => w
  | .probeAttach w _ _ => w
  | .probeDetach w => w
  | .masterTransaction w _ => w
  | .budgetExhausted w _ _ _ => w
  | .sensorConversion w _ _ => w
  | .thermalDegradedEntry w => w
  | .thermalHandoverRepeat w => w
  | .thermalDegradedExit w => w
  | .feedStateChange w _ _ _ => w
  | .powerFail w _ => w
  | .finalRoundComplete w _ _ => w
  | .bankTest w => w
  | .bankTestComplete w _ _ => w
  | .overtempTrip w _ => w
  | .overtempRecover w => w
  | .wvlAlive w _ => w
  | .heartbeatReceived w _ => w
  | .linkFrameDiscard w _ _ => w
  | .laneDown w _ => w
  | .heartbeatMiss w => w
  | .takeover w => w
  | .copyReceived w _ _ => w
  | .reseedSend w _ _ => w
  | .reseedReceived w _ _ => w
  | .relinquishReceived w _ _ => w
  | .handoverAnnounce w => w
  | .handoverReceived w _ _ => w
  | .handoverAckReceived w _ _ => w
  | .handoverStrobe w => w
  | .yieldToPartner w => w
  | .wvlHandover w _ => w
  | .pairHandover w _ => w
  | .pairTakeover w _ => w
  | .pairResync w _ => w
  | .pairEpochAdvance w _ _ => w
  | .pairForcePrimary w _ => w
  | .scrubFloor w _ => w
  | .scrubLine w _ _ => w
  | .retire w _ => w
  | .retireCopyComplete w _ => w
  | .purgeForeign w _ => w
  | .ceLogAck w _ _ => w
  | .crtRtInstall w _ => w
  | .crtRtEmpty w _ => w
  | .crtRtInvalidAction w _ => w
  | .crtDrainComplete w => w
  | .wardDrainComplete w _ => w
  | .keeperInsert w _ => w
  | .boltClose w => w
  | .boltOpen w => w
  | .keeperSafe w => w
  | .keeperRemove w => w
  | .commission w _ => w
  | .recommission w _ => w
  | .keeperPageAdmit w => w
  | .bitstreamStoreComplete w _ => w
  | .partnerStoreComplete w _ => w
  | .keeperStale w => w
  | .ledgerPageTimeout w => w
  | .suppressionSummary w => w
  | .lgrReq w _ => w
  | .lgrRead w _ => w
  | .lgrSnap w _ => w
  | .ledgerSnap w _ => w
  | .ledgerRead w _ _ _ => w
  | .sourceSevere w _ _ _ => w
  | .fcrAck w _ _ => w
  | .fcrCfgWrite w _ _ => w
  | .shpConnect w _ _ => w
  | .tlsHandshake w _ _ => w
  | .handshakeTimeout w _ => w
  | .sessionIdleTimeout w _ => w
  | .sessionClose w _ _ => w
  | .hello w _ _ => w
  | .read w _ _ => w
  | .write w _ _ => w
  | .shpReservedType w _ _ => w
  | .bitstreamLoadBlock w _ _ _ => w
  | .firmwareLoadBlock w _ _ _ => w
  | .accessSetLoadBlock w _ _ _ => w
  | .bitstreamCommit w _ => w
  | .bitstreamRevert w _ => w
  | .bitstreamAbort w _ => w
  | .bslAbort w _ => w
  | .bitstreamLoadTimeout w => w
  | .firmwareCommit w _ => w
  | .firmwareReadbackComplete w _ => w
  | .firmwareRevert w _ => w
  | .firmwareAbort w _ => w
  | .updAbort w _ => w
  | .firmwareLoadTimeout w => w
  | .accessSetCommit w _ _ _ => w
  | .accessSetStored w => w
  | .notifySubscribe w _ _ _ => w
  | .notifyLostReport w _ => w
  | .bulkReadWithheld w _ => w
  | .trimZero w _ _ _ => w
  | .trimSpan w _ _ _ => w
  | .hostArpRequest w _ _ => w
  | .hostNeighbourSolicitation w _ _ => w
  | .hostEchoRequest w _ _ _ => w
  | .hostFrameDiscard w _ => w
  | .hostLinkChange w _ _ => w
  | .diChangeAccept w _ _ _ => w
  | .diWireBreak w _ => w
  | .diWireBreakClear w _ => w
  | .outputApply w _ => w
  | .doToggleWaitEnd w _ => w
  | .doShutdown w _ => w
  | .doRetry w _ _ => w
  | .doMismatch w _ _ => w
  | .aoTerminalFault w _ => w
  | .aoTerminalTest w _ _ => w
  | .aoCommission w _ _ => w
  | .aoCommissionEnd w _ => w
  | .zeroButton w => w
  | .spanButton w => w
  | .commissionTimeout w => w
  | .fieldSupplyChange w _ => w
  | .terminalBlockUnplug w => w
  | .restartWarm w _ => w
  | .restartCold w _ => w
  | .restartExecute w _ => w
  | .latchOpen w => w
  | .latchClose w => w
  | .registerWrite w _ _ _ _ => w
  | .followUpReceived w _ _ => w
  | .ptpFrameDiscard w _ => w
  | .frameCheckError w _ => w
  | .partnerCommitReceived w _ _ _ => w
  | .activationPeriodReceived w _ _ => w
  | .keeperWriteComplete w _ => w
  | .scrubAboveFloor w _ => w

/-- The command's operands, beside its instant, are such as its frame, message or register holds. -/
def Instr.operandsOk : Instr → Bool
  | .powerApplied _ feed1 feed2 _ _ _ => feedOk feed1 && feedOk feed2
  | .bootRomSelect _ => true
  | .comparatorSelftest _ _ => true
  | .memClear _ _ => true
  | .memClearDone _ => true
  | .keeperCheck _ => true
  | .generationLoad _ => true
  | .pairNegotiation _ => true
  | .negotiateTimeout _ => true
  | .periodStrobe _ m => m.ok
  | .maskMiss _ => true
  | .strobeLoss _ island => fits 8 island
  | .syncReceived _ f => f.ok false
  | .ptpAnnounceReceived _ _ f => f.ok
  | .ppsEdge _ stamp _ => stampOk stamp
  | .irigbFrame _ f => f.ok
  | .sourceLoss _ => true
  | .sourceQualified _ _ _ => true
  | .acqTimeout _ => true
  | .holdoverLimit _ => true
  | .leapApply _ => true
  | .tmbSnap _ _ => true
  | .stepAccept _ _ => true
  | .tmbFreqTrimWrite _ _ _ => true
  | .tmbPhaseStepWrite _ _ _ => true
  | .tmbSrcWrite _ _ _ => true
  | .pulseArm _ _ _ => true
  | .pulseDisarm _ _ _ => true
  | .pulseEdge _ _ => true
  | .syncTransmit _ _ stampA stampB => stampOk stampA && stampOk stampB
  | .announceTransmit _ _ => true
  | .pdelayReqTransmit _ _ stamp => stampOk stamp
  | .pdelayReqReceived _ _ m txStamp => fits 8 m.domain && stampOk m.rxStamp && stampOk txStamp
  | .pdelayRespReceived _ f => f.ok
  | .portLinkChange _ _ _ => true
  | .laserOffWrite _ _ _ _ => true
  | .replyReceived _ _ f => f.ok
  | .helloReceived _ _ f => f.ok
  | .resyncSend _ _ _ => true
  | .surgeFragmentReceived _ _ f => f.ok
  | .surgeWindowTimeout _ _ station windowId => fits 16 station && fits 16 windowId
  | .unknownFrame _ _ _ => true
  | .prpSupervision _ _ => true
  | .controlQueueError _ _ => true
  | .dataQueueError _ _ _ => true
  | .opticalModuleChange _ _ _ _ _ _ => true
  | .svFrameReceived _ _ f => f.ok
  | .subscriptionLost _ _ => true
  | .slotEmit _ => true
  | .sviFrzReq _ _ => true
  | .sviFrzRelease _ _ _ => true
  | .archiveFreeze _ _ pre post tSec tNs => fits 16 pre && fits 16 post && fits 48 tSec && fits 32 tNs.ns && fits 16 tNs.frac
  | .archiveRelease _ _ win => fits 8 win
  | .archiveReadRows _ _ r => r.req.ok
  | .archiveReadMemory _ _ addr len64 _ => fits 64 addr && fits 32 len64
  | .publicationFrameSend _ _ _ => true
  | .c37TcpConnect _ _ _ _ => true
  | .c37TcpClose _ _ _ => true
  | .c37TxOff _ c => c.ok
  | .c37TxOn _ c => c.ok
  | .c37SendCfg2 _ c => c.ok
  | .c37SendCfg3 _ c => c.ok
  | .c37CommandIgnored _ => true
  | .wceWindowTake _ => true
  | .wceCollectExpiry _ => true
  | .wceResult _ => true
  | .wceRecommit _ => true
  | .taskFreeze _ f => f.receiving.all (fits 16)
  | .taskStartSignal _ _ _ => true
  | .seqCommit _ _ _ => true
  | .commitComplete _ _ => true
  | .retNow _ _ => true
  | .forceSet _ _ tag _ => fits 32 tag
  | .forceClear _ _ tag => fits 32 tag
  | .forceRead _ _ idx => fits 32 idx
  | .triadTransaction _ _ l0 l1 l2 => l0.ok && l1.ok && l2.ok
  | .rejoinStartTimeout _ => true
  | .tcmCopyComplete _ => true
  | .rejoinFinalStep _ _ => true
  | .split _ _ => true
  | .splitEnd _ _ _ => true
  | .debugArm _ _ _ => true
  | .debugDetach _ _ => true
  | .debugArmLapse _ => true
  | .probeAttach _ _ _ => true
  | .probeDetach _ => true
  | .masterTransaction _ tx => tx.ok
  | .budgetExhausted _ _ _ _ => true
  | .sensorConversion _ _ _ => true
  | .thermalDegradedEntry _ => true
  | .thermalHandoverRepeat _ => true
  | .thermalDegradedExit _ => true
  | .feedStateChange _ mv1 mv2 _ => feedOk mv1 && feedOk mv2
  | .powerFail _ _ => true
  | .finalRoundComplete _ _ _ => true
  | .bankTest _ => true
  | .bankTestComplete _ ride hold => fits 16 ride && fits 16 hold
  | .overtempTrip _ _ => true
  | .overtempRecover _ => true
  | .wvlAlive _ _ => true
  | .heartbeatReceived _ h => h.ok
  | .linkFrameDiscard _ _ _ => true
  | .laneDown _ _ => true
  | .heartbeatMiss _ => true
  | .takeover _ => true
  | .copyReceived _ h c => h.ok && c.ok
  | .reseedSend _ _ _ => true
  | .reseedReceived _ h m => h.ok && m.ok
  | .relinquishReceived _ h hstrobe => h.ok && fits 64 hstrobe
  | .handoverAnnounce _ => true
  | .handoverReceived _ h m => h.ok && fits 64 m.h && decide (3 ≤ m.cause ∧ m.cause ≤ 5)
  | .handoverAckReceived _ h hstrobe => h.ok && fits 64 hstrobe
  | .handoverStrobe _ => true
  | .yieldToPartner _ => true
  | .wvlHandover _ _ => true
  | .pairHandover _ _ => true
  | .pairTakeover _ _ => true
  | .pairResync _ _ => true
  | .pairEpochAdvance _ _ amount => fits 32 amount
  | .pairForcePrimary _ _ => true
  | .scrubFloor _ _ => true
  | .scrubLine _ _ _ => true
  | .retire _ _ => true
  | .retireCopyComplete _ faults => faults.all fun f => decide (f.1 < 1024)
  | .purgeForeign _ _ => true
  | .ceLogAck _ _ _ => true
  | .crtRtInstall _ _ => true
  | .crtRtEmpty _ _ => true
  | .crtRtInvalidAction _ _ => true
  | .crtDrainComplete _ => true
  | .wardDrainComplete _ _ => true
  | .keeperInsert _ c => cartridgeOk c
  | .boltClose _ => true
  | .boltOpen _ => true
  | .keeperSafe _ => true
  | .keeperRemove _ => true
  | .commission _ _ => true
  | .recommission _ _ => true
  | .keeperPageAdmit _ => true
  | .bitstreamStoreComplete _ _ => true
  | .partnerStoreComplete _ _ => true
  | .keeperStale _ => true
  | .ledgerPageTimeout _ => true
  | .suppressionSummary _ => true
  | .lgrReq _ _ => true
  | .lgrRead _ _ => true
  | .lgrSnap _ _ => true
  | .ledgerSnap _ _ => true
  | .ledgerRead _ _ first count => fits 64 first && fits 16 count
  | .sourceSevere _ _ _ e => decide (e.count ≤ 255 ∧ e.inst < 16 ∧ e.outputs < 4096)
  | .fcrAck _ _ _ => true
  | .fcrCfgWrite _ _ _ => true
  | .shpConnect _ _ _ => true
  | .tlsHandshake _ _ h => h.ok
  | .handshakeTimeout _ _ => true
  | .sessionIdleTimeout _ _ => true
  | .sessionClose _ _ _ => true
  | .hello _ _ version => fits 16 version
  | .read _ _ addrs => addrsOk addrs
  | .write _ _ entries => entriesOk entries
  | .shpReservedType _ _ ty => fits 16 ty
  | .bitstreamLoadBlock _ _ offset data => blockOk offset data
  | .firmwareLoadBlock _ _ offset data => blockOk offset data.bytes
  | .accessSetLoadBlock _ _ offset data => blockOk offset data
  | .bitstreamCommit _ _ => true
  | .bitstreamRevert _ _ => true
  | .bitstreamAbort _ _ => true
  | .bslAbort _ _ => true
  | .bitstreamLoadTimeout _ => true
  | .firmwareCommit _ _ => true
  | .firmwareReadbackComplete _ _ => true
  | .firmwareRevert _ _ => true
  | .firmwareAbort _ _ => true
  | .updAbort _ _ => true
  | .firmwareLoadTimeout _ => true
  | .accessSetCommit _ _ _ _ => true
  | .accessSetStored _ => true
  | .notifySubscribe _ _ _ _ => true
  | .notifyLostReport _ _ => true
  | .bulkReadWithheld _ _ => true
  | .trimZero _ _ channel v => fits 8 channel && fitsInt 32 v
  | .trimSpan _ _ channel v => fits 8 channel && fitsInt 32 v
  | .hostArpRequest _ _ target => fits 32 target
  | .hostNeighbourSolicitation _ _ target => fits 128 target
  | .hostEchoRequest _ _ _ target => fits 128 target
  | .hostFrameDiscard _ _ => true
  | .hostLinkChange _ _ _ => true
  | .diChangeAccept _ _ _ stamp => timeOk stamp
  | .diWireBreak _ _ => true
  | .diWireBreakClear _ _ => true
  | .outputApply _ _ => true
  | .doToggleWaitEnd _ _ => true
  | .doShutdown _ _ => true
  | .doRetry _ _ _ => true
  | .doMismatch _ _ _ => true
  | .aoTerminalFault _ _ => true
  | .aoTerminalTest _ _ _ => true
  | .aoCommission _ _ _ => true
  | .aoCommissionEnd _ _ => true
  | .zeroButton _ => true
  | .spanButton _ => true
  | .commissionTimeout _ => true
  | .fieldSupplyChange _ mv => fits 32 mv
  | .terminalBlockUnplug _ => true
  | .restartWarm _ _ => true
  | .restartCold _ _ => true
  | .restartExecute _ _ => true
  | .latchOpen _ => true
  | .latchClose _ => true
  | .registerWrite _ _ addr _ _ => fits 32 addr
  | .followUpReceived _ f _ => f.ok true
  | .ptpFrameDiscard _ _ => true
  | .frameCheckError _ _ => true
  | .partnerCommitReceived _ h gen digest => h.ok && fits 32 gen && fits 384 digest
  | .activationPeriodReceived _ h a => h.ok && fits 64 a
  | .keeperWriteComplete _ _ => true
  | .scrubAboveFloor _ _ => true

/-- A well-formed command. -/
def Instr.wf (c : Instr) : Bool := c.at.ok && c.operandsOk

end Sys2Proof
end

