-- ==== Sys2Proof/Certificates/Slice0/Obligations.lean ====
section
/-! DEFINITION. The statements about the block, one `def Obligations.<Name> : Prop` each. `Only ps s t` is a command's frame: the
queue and every part of the state outside `ps` are as they were. -/

open Sys2Proof Sys2Proof.Machine

/-- Step of a state whose queue begins with a command is exec of that command on the state with the queue's rest; with an empty
  queue the block idles. That the sender's commands wait in a queue, and that an empty one leaves the block idle, is the
  model's choice (log entry 5). (Rests on R1, 00_scope.) -/
def Obligations.StepTakesTheFrontCommand : Prop :=
  (∀ (c : Instr) (rest : List Instr) (s : State), step { s with pending := c :: rest } = exec c { s with pending := rest }) ∧
  (∀ s : State, s.pending = [] → step s = .next s)

/-- Reset leaves phase P0, role NEGOTIATING, the triad in SELFTEST, the servo in FREE, no keeper mounted, main memory with
  nothing listed, and no command waiting; that state is legal. (Rests on R389, R254, R222, R70, R312, R283.) -/
def Obligations.ResetStateIsLegal : Prop :=
  State.reset.Legal ∧ State.reset.gen.phase = 0 ∧ State.reset.wvl.role = 0 ∧ State.reset.trd.mode = 5
    ∧ State.reset.tmb.state = 0 ∧ State.reset.kpr.state = 0 ∧ State.reset.mem.mem.cells = [] ∧ State.reset.pending = []

/-- For every state, reachable or not: if it is legal (main memory canonical; phase, role, triad mode, servo state and keeper
  state within the codes their registers have) and step answers a next state, then that state is legal. (Rests on R389, R254,
  R222, R70, R312, R283.) -/
def Obligations.EveryStepKeepsTheStateLegal : Prop :=
  ∀ s t : State, s.Legal → step s = .next t → t.Legal

/-- Whatever exec answers, the queue of the next state is the queue it was given, and a step from a queue removes exactly its
  front (the queue is the model's own, log entry 5). (Rests on R1, 00_scope.) -/
def Obligations.NoCommandTouchesTheQueue : Prop :=
  (∀ (c : Instr) (s t : State), exec c s = .next t → t.pending = s.pending) ∧
  (∀ (c : Instr) (rest : List Instr) (s t : State), s.pending = c :: rest → step s = .next t → t.pending = rest)

/-- No command stops the block: each of the 217 commands has a next state from every state. What that state is, the statements
  by family say. (Rests on R1, 00_scope.) -/
def Obligations.EveryCommandIsAnswered : Prop :=
  ∀ (c : Instr) (s : State), ∃ t, exec c s = .next t

/-- The frame of every command: the queue and every part of the state outside Instr.touches are as they were; where main memory
  is not listed, every byte of it reads as before. (Rests on R8, R23, R33, R222, R283, R294, R308, R345, R389.) -/
def Obligations.CommandsTouchOnlyTheirParts : Prop :=
  ∀ (c : Instr) (s t : State), exec c s = .next t → Only c.touches s t ∧ (Part.memory ∉ c.touches →
    ∀ a, t.mem.mem.readByte a = s.mem.mem.readByte a)

/-- In a memory in canonical form a written byte reads back, every other byte reads as before, a write keeps the form and
  leaves every byte outside the lines it lies in, and after the clear every byte reads as zero. (Rests on R281, R283, R284,
  R285, R286.) -/
def Obligations.MemoryReadsWhatWasWritten : Prop :=
  (∀ (m : Memory) (a : Nat) (v : Byte), m.wf → m.poisoned.contains (a / 64) = false → (m.putByte a v).readByte a = some v) ∧
  (∀ (m : Memory) (a b : Nat) (v : Byte), b ≠ a → (m.putByte a v).readByte b = m.readByte b) ∧
  (∀ (m m' : Memory) (a : Nat) (bs : List Byte), m.wf → m.write a bs = .ok m' → m'.wf) ∧
  (∀ (m m' : Memory) (a b : Nat) (bs : List Byte), m.write a bs = .ok m' →
    (b < a / 64 * 64 ∨ (a + bs.length + 63) / 64 * 64 ≤ b) → m'.readByte b = m.readByte b) ∧
  (∀ (m : Memory) (a : Nat), m.clear.readByte a = some 0)

/-- POWER_APPLIED, OVERTEMP_RECOVER and RESTART_EXECUTE lead to phase P0 with the FIO in standby, the triad under self-test,
  main memory without content, no session and no configuration, and with the cartridge where it was, a page being written cut
  short; a restart waits until it is due, and while it waits for a hand-over. The model's own: the operands of the commands
  (log entry 1), when a command acts (log entry 2). (Rests on R388, R389, R254, R395, R396, R412.) -/
def Obligations.PowerAndRestartBeginAtP0 : Prop :=
  (∀ (w : When) (f1 f2 : Nat) (c : Fin 4) (latch good : Bool) (s : State), s.ptm.tripped = [] →
    ∃ t, exec (.powerApplied w f1 f2 c latch good) s = .next t ∧ t.pending = s.pending ∧ t.gen.phase = 0 ∧ t.gen.entry = 0
    ∧ t.gen.latchOpen = latch ∧ t.ptm.mv = [f1, f2] ∧ t.wvl.role = 0 ∧ t.wvl.coding = c.val
    ∧ t.wvl.side = (if c.val = 2 then 1 else 0) ∧ t.trd.mode = 5 ∧ t.fio.standby = true ∧ t.mem.mem = {}
    ∧ t.hif.sessions = List.replicate 8 none ∧ t.cfg = {} ∧ t.kpr.cartridge = (cutShort s).kpr.cartridge) ∧
  (∀ (w : When) (s : State), s.gen.powerGood = false → s.ptm.tripped ≠ [] → ∃ t, exec (.overtempRecover w) s = .next t
    ∧ t.pending = s.pending ∧ t.gen.phase = 0 ∧ t.gen.entry = 0 ∧ t.gen.powerGood = true ∧ t.wvl.role = 0 ∧ t.trd.mode = 5
    ∧ t.fio.standby = true ∧ t.mem.mem = {} ∧ t.cfg = {} ∧ t.kpr.cartridge = (cutShort s).kpr.cartridge) ∧
  (∀ (w : When) (stored : Nat) (r : RestartReq) (s : State), s.gen.restart = some r → s.gen.powerGood = true → r.atH = false →
    s.ptm.powerFail = false → r.due ≤ max s.aon w.a → (refillBucket (s.at w)).flushed r.due = true →
    ∃ t, exec (.restartExecute w stored) s = .next t ∧ t.pending = s.pending ∧ t.gen.phase = 0 ∧ t.gen.entry = r.entry
    ∧ t.gen.commandedCold = r.cold ∧ t.wvl.role = 0 ∧ t.trd.mode = 5 ∧ t.fio.standby = true ∧ t.mem.mem = {} ∧ t.cfg = {}
    ∧ t.hif.sessions = List.replicate 8 none
    ∧ t.kpr.cartridge = (cutShort (flushKeeper r.due stored (refillBucket (s.at w)))).kpr.cartridge) ∧
  (∀ (w : When) (stored : Nat) (r : RestartReq) (s : State), s.gen.restart = some r → s.gen.powerGood = true →
    (r.atH = true ∨ max s.aon w.a < r.due) → ∃ t, exec (.restartExecute w stored) s = .next t ∧ Only [.time] s t
    ∧ t.gen.restart = some r ∧ t.gen.phase = s.gen.phase)

/-- RESTART_WARM and RESTART_COLD from the firmware record the kind; outside PRIMARY with a STANDBY partner the request is due
  at once (within 1 ms), on such a primary it waits for H, at most 5 ms, and a hand-over with cause 3 is requested. The model's
  own: the operands of the commands (log entry 1), when a command acts (log entry 2). (Rests on R396, R397, R273.) -/
def Obligations.RestartsAreRequested : Prop :=
  (∀ (w : When) (s : State), (s.primary && s.partnerStandby && decide (s.pair.mode ≠ 0)) = false →
    (s.at w).grants .firmware 0x1C = true → ∃ t, exec (.restartWarm w .firmware) s = .next t ∧ Only [.time, .start] s t
    ∧ t.gen.restart = some { cold := false, entry := 1, due := max s.aon w.a, atH := false } ∧ t.gen.phase = s.gen.phase) ∧
  (∀ (w : When) (s : State), (s.primary && s.partnerStandby && decide (s.pair.mode ≠ 0)) = false →
    (s.at w).grants .firmware 0x1C = true → ∃ t, exec (.restartCold w .firmware) s = .next t ∧ Only [.time, .start] s t
    ∧ t.gen.restart = some { cold := true, entry := 1, due := max s.aon w.a, atH := false } ∧ t.gen.phase = s.gen.phase) ∧
  (∀ (w : When) (s : State), (s.primary && s.partnerStandby && decide (s.pair.mode ≠ 0)) = true → s.wvl.handover = none →
    (s.at w).grants .firmware 0x1C = true → ∃ t, exec (.restartCold w .firmware) s = .next t
    ∧ Only [.time, .start, .events, .pair, .sessions, .host] s t
    ∧ t.gen.restart = some { cold := true, entry := 1, due := max s.aon w.a + aonMs 5, atH := true }
    ∧ t.wvl.handover = some { asked := (s.at w).islandTime linkIsland, cause := 3 } ∧ t.wvl.role = s.wvl.role) ∧
  (∀ (w : When) (who : Agent) (s : State), fwOrEngineer who s = true →
    (s.primary && s.partnerStandby && decide (s.pair.mode ≠ 0)) = false → (s.at w).grants who 0x1C = true →
    ∃ t, exec (.restartWarm w who) s = .next t ∧ Only [.time, .start] s t
    ∧ t.gen.restart = some { cold := false, entry := 1, due := max s.aon w.a, atH := false } ∧ t.gen.phase = s.gen.phase) ∧
  (∀ (w : When) (who : Agent) (s : State), fwOrEngineer who s = true →
    (s.primary && s.partnerStandby && decide (s.pair.mode ≠ 0)) = false → (s.at w).grants who 0x1C = true →
    ∃ t, exec (.restartCold w who) s = .next t ∧ Only [.time, .start] s t
    ∧ t.gen.restart = some { cold := true, entry := 1, due := max s.aon w.a, atH := false } ∧ t.gen.phase = s.gen.phase) ∧
  (∀ (w : When) (who : Agent) (s : State), fwOrEngineer who s = true →
    (s.primary && s.partnerStandby && decide (s.pair.mode ≠ 0)) = true → (s.at w).grants who 0x1C = true →
    ∃ t, exec (.restartWarm w who) s = .next t ∧ Only [.time, .start, .events, .pair, .sessions, .host] s t
    ∧ t.gen.restart = some { cold := false, entry := 1, due := max s.aon w.a + aonMs 5, atH := true }
    ∧ t.wvl.handover = (if s.wvl.handover = none then some { asked := (s.at w).islandTime linkIsland, cause := 3 } else
    s.wvl.handover) ∧ t.wvl.role = s.wvl.role)

/-- BOOT_ROM_SELECT in P1 with no STAGED slot starts the ACTIVE slot that verifies and enters P2; the self-test in P2 passes,
  or its failed injection is recorded and holds the module in P2; the clear is accepted in P2 only, and its end leaves every
  byte of main memory zero and ends P2 after a passed self-test. The model's own: the operands of the commands (log entry 1),
  when a command acts (log entry 2). (Rests on R367, R233, R285, R389.) -/
def Obligations.P1AndP2 : Prop :=
  (∀ (w : When) (n : Nat) (s : State), s.gen.phase = 1 → s.upd.trial = false → slotIn 2 s = none → slotIn 3 s = some n →
    slotVerifies n s = true → ∃ t, exec (.bootRomSelect w) s = .next t ∧ Only [.time, .start, .firmware] s t ∧ t.gen.phase = 2
    ∧ t.gen.held = false ∧ t.upd.active = n ∧ t.upd.trial = false ∧ t.upd.verRun = leField (s.upd.slots.getD n {}).image 0x18 4
    ∧ t.upd.slots = s.upd.slots) ∧
  (∀ (w : When) (s : State), s.gen.phase = 2 → s.trd.mode = 5 → s.trd.selfDone = false →
    ∃ t, exec (.comparatorSelftest w none) s = .next t ∧ Only [.time, .triad] s t ∧ t.trd.selfDone = true
    ∧ t.trd.selfPass = true ∧ t.trd.mode = 0) ∧
  (∀ (w : When) (f : SelfTestFail) (s : State), s.gen.phase = 2 → s.trd.mode = 5 → s.trd.selfDone = false →
    ∃ t, exec (.comparatorSelftest w (some f)) s = .next t ∧ t.gen.phase = 2 ∧ t.gen.held = true ∧ t.trd.selfDone = true
    ∧ t.trd.selfPass = s.trd.selfPass ∧ t.trd.mode = 5 ∧ t.trd.selfLane = f.lane.val ∧ t.trd.selfGroup = f.group.val
    ∧ t.trd.selfBit = f.bit.val) ∧
  (∀ (w : When) (s : State), s.gen.phase = 2 → (s.at w).grants .firmware 0xB0004 = true →
    ∃ t, exec (.memClear w .firmware) s = .next t ∧ Only [.time, .memctl] s t ∧ t.mem.clearBusy = true
    ∧ t.mem.clearDone = false) ∧
  (∀ (w : When) (s : State), s.gen.phase ≠ 2 → (s.at w).grants .firmware 0xB0004 = true →
    ∃ t, exec (.memClear w .firmware) s = .next t ∧ Only [.time, .events, .memctl] s t ∧ t.mem.clearRefused = true
    ∧ t.mem.clearBusy = s.mem.clearBusy) ∧
  (∀ (w : When) (s : State), s.gen.phase = 2 → s.mem.clearBusy = true → s.trd.selfPass = true →
    ∃ t, exec (.memClearDone w) s = .next t ∧ Only [.time, .start, .memory, .memctl] s t ∧ t.mem.clearDone = true
    ∧ t.mem.clearBusy = false ∧ t.gen.phase = 3 ∧ ∀ a, t.mem.mem.readByte a = some 0)

/-- KEEPER_CHECK on a mounted keeper that fits ends P3, on an absent one holds the module there; GENERATION_LOAD puts a stored
  generation that passes its checks in force and ends P4, and holds without one; negotiation ends in PRIMARY alone, or in
  MISMATCH for a faulty slot coding. The model's own: the operands of the commands (log entry 1), when a command acts (log
  entry 2). (Rests on R312, R47, R254, R257, R263, R389.) -/
def Obligations.P3ToP7 : Prop :=
  (∀ (w : When) (s : State), s.gen.phase = 3 → s.upd.trial = false → s.upd.fellBack = none → s.kpr.state ≠ 0 → p3Cause s = 0 →
    ∃ t, exec (.keeperCheck w) s = .next t ∧ Only [.time, .start, .timebase, .keeper] s t ∧ t.gen.phase = 4 ∧ t.gen.held = false
    ∧ t.kpr.refuse = 0 ∧ t.kpr.passed = some s.cart.ident) ∧
  (∀ (w : When) (s : State), s.gen.phase = 3 → s.upd.trial = false → s.upd.fellBack = none → s.kpr.state = 0 →
    s.kpr.cartridge = none → ∃ t, exec (.keeperCheck w) s = .next t ∧ t.gen.phase = 3 ∧ t.gen.held = true ∧ t.kpr.refuse = 1
    ∧ t.kpr.passed = s.kpr.passed) ∧
  (∀ (w : When) (k : Nat) (x : GenSlot) (s : State), s.gen.phase = 4 → s.gen.held = false → s.cfg.loaded = false →
    s.cart.staged = none → s.cart.current = some k → s.cart.slots.getD k none = some x →
    ∃ t, exec (.generationLoad w) s = .next t ∧ ∀ g, checkStored x.bytes (s.at w) = .ok g →
    t.cfg = { cur := g, loaded := true, stream := x.bytes } ∧ t.bsl.genCur = g.gen ∧ 5 ≤ t.gen.phase ∧ t.gen.held = false
    ∧ t.wrd.loaded = true ∧ t.wrd.fixed = g.central) ∧
  (∀ (w : When) (s : State), s.gen.phase = 4 → s.gen.held = false → s.cfg.loaded = false → s.cart.staged = none →
    s.cart.current = none → ∃ t, exec (.generationLoad w) s = .next t ∧ Only [.time, .start] s t ∧ t.gen.phase = 4
    ∧ t.gen.held = true) ∧
  (∀ (w : When) (s : State), s.gen.phase = 6 → s.wvl.role = 0 → (s.wvl.coding = 0 ∨ s.wvl.coding = 3) →
    ∃ t, exec (.pairNegotiation w) s = .next t ∧ t.wvl.role = 5 ∧ t.wvl.mismatchCause = 1 ∧ t.gen.phase = 6 ∧ t.gen.held = true
    ∧ t.prt.ports = s.prt.ports) ∧
  (∀ (w : When) (s : State), s.gen.phase = 6 → s.wvl.role = 0 → s.wvl.coding ≠ 0 → s.wvl.coding ≠ 3 → s.pair.mode = 0 →
    ∃ t, exec (.pairNegotiation w) s = .next t ∧ t.wvl.role = 1 ∧ t.gen.phase = 7 ∧ t.gen.held = false ∧ t.seq.running = true) ∧
  (∀ (w : When) (s : State), s.gen.phase = 6 → s.wvl.role = 0 → s.wvl.coding ≠ 0 → s.wvl.coding ≠ 3 → s.pair.mode ≠ 0 →
    s.wvl.p6Start + aonSec s.pair.negotiateS ≤ max s.aon w.a → ∃ t, exec (.negotiateTimeout w) s = .next t ∧ t.wvl.role = 1
    ∧ t.gen.phase = 7 ∧ t.gen.held = false ∧ t.seq.running = true)

/-- A one-step SYNC_RECEIVED on the selected slave port takes an offset sample: within 1 µs it leaves the servo LOCKED with the
  run of outliers ended; beyond 1 µs it is an outlier, counted; the fourth consecutive outlier leads to HOLDOVER with event 82.
  A two-step Sync waits for its Follow_Up; a Sync on a port that may not be slave, or of another domain, is discarded and
  counted (the model's choice, log entry 94); nothing is heard from a fenced cage. The model's own: the operands of the
  commands (log entry 1), when a command acts (log entry 2). (Rests on R68, R70, R77, R82.) -/
def Obligations.AnOffsetSampleInLocked : Prop :=
  (∀ (w : When) (f : SyncFrame) (s : State), s.slaveCapable f.port.val = true → s.ptpHears f.port.val = true →
    f.domain = s.ptp.domain → s.selectedPort f.port.val = true → f.twoStep = false → s.tmb.state = 2 →
    (syncOffset s f.port.val f.t1 (s.syncArrival f.port.val f.t2) f.corr).natAbs ≤ usTicks 1 →
    ∃ t, exec (.syncReceived w f) s = .next t ∧ Only [.time, .draws, .timebase] s t ∧ t.tmb.state = 2 ∧ t.tmb.outlierRun = 0
    ∧ t.tmb.outliers = s.tmb.outliers
    ∧ t.tmb.offset = satOffset (syncOffset s f.port.val f.t1 (s.syncArrival f.port.val f.t2) f.corr)
    ∧ t.tmb.stepLeft = s.tmb.stepLeft) ∧
  (∀ (w : When) (f : SyncFrame) (s : State), s.slaveCapable f.port.val = true → s.ptpHears f.port.val = true →
    f.domain = s.ptp.domain → s.selectedPort f.port.val = true → f.twoStep = false → s.tmb.state = 2 →
    usTicks 1 < (syncOffset s f.port.val f.t1 (s.syncArrival f.port.val f.t2) f.corr).natAbs → s.tmb.outlierRun < 3 →
    ∃ t, exec (.syncReceived w f) s = .next t ∧ Only [.time, .timebase] s t ∧ t.tmb.state = 2
    ∧ t.tmb.outlierRun = s.tmb.outlierRun + 1 ∧ t.tmb.outliers = tallyInc s.tmb.outliers ∧ t.tmb.servoFreq = s.tmb.servoFreq) ∧
  (∀ (w : When) (f : SyncFrame) (s : State), s.slaveCapable f.port.val = true → s.ptpHears f.port.val = true →
    f.domain = s.ptp.domain → s.selectedPort f.port.val = true → f.twoStep = false → s.tmb.state = 2 →
    usTicks 1 < (syncOffset s f.port.val f.t1 (s.syncArrival f.port.val f.t2) f.corr).natAbs → 3 ≤ s.tmb.outlierRun →
    ∃ t, exec (.syncReceived w f) s = .next t ∧ Only [.time, .events, .timebase, .ledger, .keeper, .sessions, .host] s t
    ∧ t.tmb.state = 3 ∧ t.tmb.holdSince = some (max s.aon w.a) ∧ t.evt.pend.getLsbD 80 = true ∧ t.evt.pend.getLsbD 82 = true) ∧
  (∀ (w : When) (f : SyncFrame) (s : State), s.slaveCapable f.port.val = true → s.ptpHears f.port.val = true →
    f.domain = s.ptp.domain → s.selectedPort f.port.val = true → f.twoStep = true → ∃ t, exec (.syncReceived w f) s = .next t
    ∧ Only [.time, .timebase, .delays] s t ∧ t.tmb.twoStep = some f ∧ t.tmb.twoStepRx = s.syncArrival f.port.val f.t2
    ∧ t.tmb.meanDelay = s.tmb.meanDelay ∧ t.tmb.state = s.tmb.state) ∧
  (∀ (w : When) (f : SyncFrame) (s : State), (s.slaveCapable f.port.val = false ∨ f.domain ≠ s.ptp.domain) →
    s.ptpHears f.port.val = true → f.port.val < 64 → ∃ t, exec (.syncReceived w f) s = .next t ∧ Only [.time, .ports] s t
    ∧ t.prt.ports = updAt s.prt.ports f.port.val (fun x => { x with ptpDiscard := tallyInc x.ptpDiscard })) ∧
  (∀ (w : When) (f : SyncFrame) (s : State), (s.slaveCapable f.port.val = false ∨ f.domain ≠ s.ptp.domain) →
    s.ptpHears f.port.val = true → 64 ≤ f.port.val → ∃ t, exec (.syncReceived w f) s = .next t ∧ Only [.time, .host] s t
    ∧ t.hif.discard = updAt s.hif.discard (f.port.val - 64) tallyInc) ∧
  (∀ (w : When) (f : SyncFrame) (s : State), s.ptpHears f.port.val = false → ∃ t, exec (.syncReceived w f) s = .next t
    ∧ Only [.time] s t)

/-- In FREE, a sample in P5 loads module time from the sample, clears what is left of a phase step and marks the discontinuity;
  outside P5 a sample within 1 ms starts ACQUIRING without it, and one beyond 1 ms sets IMPLAUSIBLE, records the offset,
  asserts source 85 and leaves the servo in FREE. STEP_ACCEPT then starts ACQUIRING with the recorded offset to be slewed away.
  The model's own: the operands of the commands (log entry 1), when a command acts (log entry 2). (Rests on R67, R70, R71.) -/
def Obligations.TheFirstSampleSetsTime : Prop :=
  (∀ (w : When) (f : SyncFrame) (s : State), s.slaveCapable f.port.val = true → s.ptpHears f.port.val = true →
    f.domain = s.ptp.domain → s.selectedPort f.port.val = true → f.twoStep = false → s.tmb.state = 0 →
    s.tmb.implausible = false → s.gen.phase = 5 → ∃ t, exec (.syncReceived w f) s = .next t ∧ t.pending = s.pending
    ∧ t.tmb.state = 1 ∧ t.tmb.timeSet = true ∧ t.discont = true ∧ t.tmb.stepLeft = 0
    ∧ t.now = ((max s.now w.t : Int) - syncOffset s f.port.val f.t1 (s.syncArrival f.port.val f.t2) f.corr).toNat
    ∧ t.prt = s.prt ∧ t.seq = s.seq ∧ t.gen = s.gen) ∧
  (∀ (w : When) (f : SyncFrame) (s : State), s.slaveCapable f.port.val = true → s.ptpHears f.port.val = true →
    f.domain = s.ptp.domain → s.selectedPort f.port.val = true → f.twoStep = false → s.tmb.state = 0 →
    s.tmb.implausible = false → s.gen.phase ≠ 5 →
    (syncOffset s f.port.val f.t1 (s.syncArrival f.port.val f.t2) f.corr).natAbs ≤ msTicks 1 →
    ∃ t, exec (.syncReceived w f) s = .next t ∧ Only [.time, .draws, .events, .timebase, .ledger, .keeper, .sessions, .host] s t
    ∧ t.tmb.state = 1 ∧ t.tmb.timeSet = true ∧ t.now = max s.now w.t) ∧
  (∀ (w : When) (f : SyncFrame) (s : State), s.slaveCapable f.port.val = true → s.ptpHears f.port.val = true →
    f.domain = s.ptp.domain → s.selectedPort f.port.val = true → f.twoStep = false → s.tmb.state = 0 →
    s.tmb.implausible = false → s.gen.phase ≠ 5 →
    msTicks 1 < (syncOffset s f.port.val f.t1 (s.syncArrival f.port.val f.t2) f.corr).natAbs →
    ∃ t, exec (.syncReceived w f) s = .next t ∧ Only [.time, .events, .timebase, .sessions, .host] s t ∧ t.tmb.state = 0
    ∧ t.tmb.implausible = true ∧ t.tmb.badOffset = syncOffset s f.port.val f.t1 (s.syncArrival f.port.val f.t2) f.corr
    ∧ t.evt.pend.getLsbD 85 = true ∧ t.tmb.timeSet = s.tmb.timeSet) ∧
  (∀ (w : When) (who : Agent) (s : State), fwOrEngineer who s = true → s.tmb.implausible = true →
    (s.at w).grants who 0x10000 = true → ∃ t, exec (.stepAccept w who) s = .next t ∧ t.pending = s.pending ∧ t.tmb.state = 1
    ∧ t.tmb.implausible = false ∧ t.tmb.timeSet = true ∧ t.tmb.stepLeft = -s.tmb.badOffset ∧ t.now = max s.now w.t
    ∧ t.gen = s.gen ∧ t.discont = s.discont) ∧
  (∀ (w : When) (who : Agent) (s : State), (fwOrEngineer who s = false ∨ s.tmb.implausible = false) →
    (s.at w).grants who 0x10000 = true → ∃ t, exec (.stepAccept w who) s = .next t ∧ Only [.time] s t)

/-- A Follow_Up that matches the waiting Sync of the selected port takes the sample with both corrections; a Pdelay_Resp
  completes the exchange with half of the round trip less the peer's turnaround, at once in one step and with its follow-up in
  two (an odd difference is halved to either neighbour, log entry 17); a Pdelay_Req is answered at once, on a station port
  while its stall has room and no message stands before it, else it waits and is counted deferred, and a second one in a period
  waits; an answer whose stamps straddle the swap of the port's constants does not leave; a transmitted Pdelay_Req keeps its
  stamp, to which the constants of that instant are applied, on station and host ports alike. The model's own: the operands of
  the commands (log entry 1), when a command acts (log entry 2), the record of what leaves the block (log entry 4). (Rests on
  R77, R79, R82, R110.) -/
def Obligations.FollowUpsAndPathDelays : Prop :=
  (∀ (w : When) (f y : SyncFrame) (s : State), s.slaveCapable f.port.val = true → s.ptpHears f.port.val = true →
    f.domain = s.ptp.domain → s.tmb.twoStep = some y → y.port = f.port → y.seqId = f.seqId → s.selectedPort f.port.val = true →
    s.tmb.state = 2 → (syncOffset s f.port.val f.t1 s.tmb.twoStepRx (y.corr + f.corr)).natAbs ≤ usTicks 1 →
    ∃ t, exec (.followUpReceived w f false) s = .next t ∧ Only [.time, .draws, .timebase, .delays] s t ∧ t.tmb.twoStep = none
    ∧ t.tmb.offset = satOffset (syncOffset s f.port.val f.t1 s.tmb.twoStepRx (y.corr + f.corr)) ∧ t.tmb.outlierRun = 0
    ∧ t.tmb.state = 2) ∧
  (∀ (w : When) (f : SyncFrame) (s : State), s.slaveCapable f.port.val = true → s.ptpHears f.port.val = true →
    f.domain = s.ptp.domain → s.tmb.twoStep = none → ∃ t, exec (.followUpReceived w f false) s = .next t ∧ Only [.time] s t) ∧
  (∀ (w : When) (f : SyncFrame) (r : PdelayResp) (t1 : Nat) (s : State), s.slaveCapable f.port.val = true →
    s.ptpHears f.port.val = true → f.domain = s.ptp.domain → s.tmb.pdelayResp.getD f.port.val none = some r →
    s.tmb.pdelayT1.getD f.port.val none = some t1 → ∃ t, exec (.followUpReceived w f true) s = .next t
    ∧ Only [.time, .delays] s t
    ∧ t.tmb.meanDelay = (if s.straddles t1 r.t4 then s.tmb.meanDelay else putAt s.tmb.meanDelay f.port.val (peerDelay (s.at w)
    f.port.val t1 r.t4 ((f.t2 : Int) - f.t1 + r.corr + f.corr))) ∧ t.tmb.pdelayT1 = putAt s.tmb.pdelayT1 f.port.val none
    ∧ t.tmb.pdelayResp = putAt s.tmb.pdelayResp f.port.val none ∧ t.tmb.twoStep = s.tmb.twoStep) ∧
  (∀ (w : When) (f : PdelayResp) (t1 : Nat) (s : State), s.ptpRole f.port.val = true → s.ptpHears f.port.val = true →
    f.domain = s.ptp.domain → s.tmb.pdelayT1.getD f.port.val none = some t1 → f.twoStep = false →
    ∃ t, exec (.pdelayRespReceived w f) s = .next t ∧ Only [.time, .delays] s t
    ∧ t.tmb.meanDelay = (if s.straddles t1 f.t4 then s.tmb.meanDelay else putAt s.tmb.meanDelay f.port.val (peerDelay (s.at w)
    f.port.val t1 f.t4 f.corr)) ∧ t.tmb.pdelayT1 = putAt s.tmb.pdelayT1 f.port.val none ∧ t.tmb.twoStep = s.tmb.twoStep) ∧
  (∀ (s : State) (p t1 t4 : Nat) (turn : Int), (2 * peerDelay s p t1 t4 turn - (s.rxStamp p t4 - t1 - turn)).natAbs ≤ 1) ∧
  (∀ (w : When) (f : PdelayResp) (t1 : Nat) (s : State), s.slaveCapable f.port.val = true → s.ptpHears f.port.val = true →
    f.domain = s.ptp.domain → s.tmb.pdelayT1.getD f.port.val none = some t1 → f.twoStep = true →
    ∃ t, exec (.pdelayRespReceived w f) s = .next t ∧ Only [.time, .delays] s t
    ∧ t.tmb.pdelayResp = putAt s.tmb.pdelayResp f.port.val (some f) ∧ t.tmb.pdelayT1 = s.tmb.pdelayT1
    ∧ t.tmb.meanDelay = s.tmb.meanDelay) ∧
  (∀ (w : When) (f : PdelayResp) (s : State), s.ptpRole f.port.val = true → s.ptpHears f.port.val = true →
    f.domain = s.ptp.domain → s.tmb.pdelayT1.getD f.port.val none = none → ∃ t, exec (.pdelayRespReceived w f) s = .next t
    ∧ Only [.time] s t) ∧
  (∀ (w : When) (port : Fin 66) (d rx tx : Nat) (s : State), s.ptpRole port.val = true → s.ptpHears port.val = true →
    d = s.ptp.domain → s.ptpSends port.val = true → port.val < 64 → s.respDue port.val = false → s.straddles rx tx = false →
    s.portRoom port.val (ptpWire s port.val 54) = true → (s.port port.val).before true = false →
    ∃ t, exec (.pdelayReqReceived w port ⟨d, rx⟩ tx) s = .next t ∧ Only [.time, .ports, .sent] s t
    ∧ t.out = .ptp port.val 3 0 (s.txStamp port.val tx - s.rxStamp port.val rx) { domain := s.ptp.domain } (s.ptpHdr port.val
    true (takeLaneRct port.val s).1) :: s.out ∧ (port.val < s.prt.ports.length → (t.port port.val).respSent = true
    ∧ (t.port port.val).spent = (s.port port.val).spent + ptpWire s port.val 54)) ∧
  (∀ (w : When) (port : Fin 66) (d rx tx : Nat) (s : State), s.ptpRole port.val = true → s.ptpHears port.val = true →
    d = s.ptp.domain → s.ptpSends port.val = true → port.val < 64 → port.val < s.prt.ports.length → s.respDue port.val = false →
    (s.portRoom port.val (ptpWire s port.val 54) = false ∨ (s.port port.val).before true = true) →
    ∃ t, exec (.pdelayReqReceived w port ⟨d, rx⟩ tx) s = .next t ∧ Only [.time, .ports] s t
    ∧ (t.port port.val).waitq.getLast? = some { kind := .pdelayResp rx tx, rct := (takeLaneRct port.val s).1, deferred := true }
    ∧ (t.port port.val).txDefer = tallyInc (s.port port.val).txDefer) ∧
  (∀ (w : When) (port : Fin 66) (d rx tx : Nat) (s : State), s.ptpRole port.val = true → s.ptpHears port.val = true →
    d = s.ptp.domain → s.ptpSends port.val = true → port.val < 64 → s.respDue port.val = true →
    ∃ t, exec (.pdelayReqReceived w port ⟨d, rx⟩ tx) s = .next t ∧ Only [.time, .ports] s t
    ∧ t.prt.ports = updAt s.prt.ports port.val (fun x => { x with heldReq := some (rx, tx) })) ∧
  (∀ (w : When) (port : Fin 66) (d rx tx : Nat) (s : State), s.ptpRole port.val = true → d = s.ptp.domain →
    s.ptpSends port.val = true → 64 ≤ port.val → s.straddles rx tx = false →
    ∃ t, exec (.pdelayReqReceived w port ⟨d, rx⟩ tx) s = .next t ∧ Only [.time, .sent] s t
    ∧ t.out = .ptp port.val 3 0 (s.txStamp port.val tx - s.rxStamp port.val rx) { domain := s.ptp.domain } (s.ptpHdr port.val
    true none) :: s.out) ∧
  (∀ (w : When) (port : Fin 66) (d rx tx : Nat) (s : State), s.ptpRole port.val = true → s.ptpHears port.val = true →
    d = s.ptp.domain → 64 ≤ port.val → s.straddles rx tx = true → ∃ t, exec (.pdelayReqReceived w port ⟨d, rx⟩ tx) s = .next t
    ∧ Only [.time] s t) ∧
  (∀ (w : When) (port : Fin 66) (stamp : Nat) (s : State), s.ptpRole port.val = true → s.ptpSends port.val = true →
    port.val < 64 → (s.port port.val).reqSent = false → s.portRoom port.val (ptpWire s port.val 54) = true →
    (s.port port.val).before true = false → ∃ t, exec (.pdelayReqTransmit w port stamp) s = .next t
    ∧ Only [.time, .delays, .ports, .sent] s t ∧ t.tmb.pdelayT1 = putAt s.tmb.pdelayT1 port.val (some stamp)
    ∧ t.tmb.meanDelay = s.tmb.meanDelay
    ∧ t.out = .ptp port.val 2 0 0 { domain := s.ptp.domain } (s.ptpHdr port.val true (takeLaneRct port.val s).1) :: s.out) ∧
  (∀ (w : When) (port : Fin 66) (stamp : Nat) (s : State), s.ptpRole port.val = true → s.ptpSends port.val = true →
    port.val < 64 → port.val < s.prt.ports.length → (s.port port.val).reqSent = false →
    (s.portRoom port.val (ptpWire s port.val 54) = false ∨ (s.port port.val).before true = true) →
    ∃ t, exec (.pdelayReqTransmit w port stamp) s = .next t ∧ Only [.time, .ports] s t
    ∧ (t.port port.val).waitq.getLast? = some { kind := .pdelayReq, rct := (takeLaneRct port.val s).1, deferred := true }
    ∧ (t.port port.val).txDefer = tallyInc (s.port port.val).txDefer) ∧
  (∀ (w : When) (port : Fin 66) (stamp : Nat) (s : State), s.ptpRole port.val = true → s.ptpSends port.val = true →
    64 ≤ port.val → ∃ t, exec (.pdelayReqTransmit w port stamp) s = .next t ∧ Only [.time, .delays, .sent] s t
    ∧ t.tmb.pdelayT1 = putAt s.tmb.pdelayT1 port.val (some stamp) ∧ t.tmb.pdelayResp = putAt s.tmb.pdelayResp port.val none
    ∧ t.out = .ptp port.val 2 0 0 { domain := s.ptp.domain } (s.ptpHdr port.val true none) :: s.out) ∧
  (∀ (w : When) (port : Fin 66) (stamp : Nat) (s : State), (s.ptpRole port.val = false ∨ s.ptpSends port.val = false ∨
    (port.val < 64 ∧ (s.port port.val).reqSent = true)) → ∃ t, exec (.pdelayReqTransmit w port stamp) s = .next t
    ∧ Only [.time] s t) ∧
  (∀ (w : When) (port : Fin 66) (s : State), port.val < 64 → s.ptpHears port.val = true →
    ∃ t, exec (.ptpFrameDiscard w port) s = .next t ∧ Only [.time, .ports] s t
    ∧ t.prt.ports = updAt s.prt.ports port.val (fun x => { x with ptpDiscard := tallyInc x.ptpDiscard })) ∧
  (∀ (w : When) (port : Fin 66) (s : State), 64 ≤ port.val → ∃ t, exec (.ptpFrameDiscard w port) s = .next t
    ∧ Only [.time, .host] s t ∧ t.hif.discard = updAt s.hif.discard (port.val - 64) tallyInc)

/-- A PPS edge off its place by more than 10 µs while edges come is not taken; an accepted one without a label only becomes the
  last edge. An IRIG-B frame of a quality above 3 asserts source 93 and changes nothing else. An IRIG-B frame or PPS edge of
  the source in use is a sample. A second Announce of the same master within 3 s qualifies it from now, and the selected port's
  master gives UTC and the leap flags; an Announce 255 steps away or more changes nothing (3 s and 255 are the model's, log
  entry 128). A pending leap second moves the offset by one and clears its flags. The model's own: the operands of the commands
  (log entry 1), when a command acts (log entry 2). (Rests on R70, R84, R85, R86, R88, R93.) -/
def Obligations.PinSourcesAndAnnounces : Prop :=
  (∀ (w : When) (stamp : Nat) (est : Int) (a p : Nat) (s : State), s.tmb.lastPps = some p → s.tmb.ppsSeen = some a →
    max s.aon w.a < a + aonSec 3 → usTicks 10 < ((stamp : Int) - p - ticksPerSec).natAbs →
    ∃ t, exec (.ppsEdge w stamp est) s = .next t ∧ Only [.time] s t) ∧
  (∀ (w : When) (stamp : Nat) (est : Int) (a p : Nat) (s : State), s.tmb.lastPps = some p → s.tmb.ppsSeen = some a →
    ((stamp : Int) - p - ticksPerSec).natAbs ≤ usTicks 10 → (s.at w).label = none → ∃ t, exec (.ppsEdge w stamp est) s = .next t
    ∧ Only [.time, .timebase] s t ∧ t.tmb.lastPps = some stamp ∧ t.tmb.ppsSeen = some (max s.aon w.a)
    ∧ t.tmb.state = s.tmb.state ∧ t.tmb.sources = s.tmb.sources) ∧
  (∀ (w : When) (stamp : Nat) (est : Int) (a p onTime label : Nat) (s : State), s.tmb.lastPps = some p →
    s.tmb.ppsSeen = some a → ((stamp : Int) - p - ticksPerSec).natAbs ≤ usTicks 10 → (s.at w).label = some (onTime, label) →
    (ppsLabel stamp onTime label).1.natAbs ≤ usTicks 1 → s.tmb.usedKind = 3 → s.tmb.state = 2 →
    ((stamp : Int) - (ppsLabel stamp onTime label).2 * ticksPerSec).natAbs ≤ usTicks 1 →
    ∃ t, exec (.ppsEdge w stamp est) s = .next t ∧ Only [.time, .draws, .timebase] s t ∧ t.tmb.lastPps = some stamp
    ∧ t.tmb.state = 2 ∧ t.tmb.offset = satOffset ((stamp : Int) - (ppsLabel stamp onTime label).2 * ticksPerSec)
    ∧ t.tmb.outlierRun = 0) ∧
  (∀ (w : When) (f : IrigFrame) (s : State), 3 < f.quality → ∃ t, exec (.irigbFrame w f) s = .next t
    ∧ Only [.time, .events, .sessions, .host] s t ∧ t.evt.pend.getLsbD 93 = true) ∧
  (∀ (w : When) (f : IrigFrame) (s : State), f.quality ≤ 3 → s.tmb.usedKind ≠ 2 → s.tmb.usedKind ≠ 3 →
    ∃ t, exec (.irigbFrame w f) s = .next t ∧ Only [.time, .timebase] s t ∧ t.tmb.irigSeen = some (max s.aon w.a)
    ∧ t.tmb.irigLabel = some (f.onTime, (irigLabelAt f s.irigOffset (s.at w).yearRef).toNat) ∧ t.tmb.state = s.tmb.state
    ∧ t.tmb.taiUtc = s.tmb.taiUtc) ∧
  (∀ (w : When) (f : IrigFrame) (s : State), f.quality ≤ 3 → s.tmb.usedKind = 2 → s.tmb.state = 2 →
    ((f.onTime : Int) - irigLabelAt f s.irigOffset (s.at w).yearRef * ticksPerSec).natAbs ≤ usTicks 1 →
    ∃ t, exec (.irigbFrame w f) s = .next t ∧ Only [.time, .draws, .events, .timebase, .sessions, .host] s t ∧ t.tmb.state = 2
    ∧ t.tmb.taiUtc = s.irigOffset ∧ t.tmb.leapAdd = (f.leapPending && !f.leapDelete)
    ∧ t.tmb.leapDel = (f.leapPending && f.leapDelete)
    ∧ t.tmb.offset = satOffset ((f.onTime : Int) - irigLabelAt f s.irigOffset (s.at w).yearRef * ticksPerSec)) ∧
  (∀ (w : When) (port : Fin 66) (f : Announce) (x : SourceSeen) (s : State), s.slaveCapable port.val = true →
    s.ptpHears port.val = true → f.domain = s.ptp.domain → s.tmb.usedKind ≠ 1 → s.seen 1 port.val = some x →
    0 < x.lastAnnounce → max s.aon w.a < x.lastAnnounce + aonSec 3 → x.announce.sender = f.sender → f.stepsRemoved < 255 →
    x.qualifiedSince = none → ∃ t, exec (.ptpAnnounceReceived w port f) s = .next t ∧ Only [.time, .timebase] s t
    ∧ (t.seen 1 port.val).map (·.qualifiedSince) = some (some (max s.aon w.a)) ∧ (t.seen 1 port.val).map (·.announce) = some f
    ∧ t.tmb.taiUtc = s.tmb.taiUtc) ∧
  (∀ (w : When) (port : Fin 66) (f : Announce) (x : SourceSeen) (s : State), s.slaveCapable port.val = true →
    s.ptpHears port.val = true → f.domain = s.ptp.domain → s.tmb.usedKind = 1 → s.tmb.usedPort = port.val →
    s.tmb.sources = [x] → x.kind = 1 → x.port = port.val → 0 < x.lastAnnounce → max s.aon w.a < x.lastAnnounce + aonSec 3 →
    x.announce.sender = f.sender → f.stepsRemoved < 255 → ∃ t, exec (.ptpAnnounceReceived w port f) s = .next t
    ∧ Only [.time, .events, .timebase, .sessions, .host] s t ∧ (t.seen 1 port.val).map (·.announce) = some f
    ∧ t.tmb.usedKind = 1 ∧ t.tmb.usedPort = port.val ∧ t.tmb.taiUtc = f.utcOffset ∧ t.tmb.utcKnown = true
    ∧ t.tmb.leapAdd = f.leap61 ∧ t.tmb.leapDel = f.leap59) ∧
  (∀ (w : When) (port : Fin 66) (f : Announce) (s : State), port.val < 64 →
    (s.slaveCapable port.val = false ∨ f.domain ≠ s.ptp.domain) → s.ptpHears port.val = true →
    ∃ t, exec (.ptpAnnounceReceived w port f) s = .next t ∧ Only [.time, .ports] s t
    ∧ t.prt.ports = updAt s.prt.ports port.val (fun x => { x with ptpDiscard := tallyInc x.ptpDiscard })) ∧
  (∀ (w : When) (s : State), s.tmb.leapAdd = true → s.tmb.leapAt ≤ max s.now w.t → ∃ t, exec (.leapApply w) s = .next t
    ∧ Only [.time, .events, .timebase, .sessions, .host] s t ∧ t.tmb.taiUtc = s.tmb.taiUtc + 1 ∧ t.tmb.leapAdd = false
    ∧ t.tmb.leapDel = false ∧ t.evt.pend.getLsbD 87 = true) ∧
  (∀ (w : When) (s : State), s.tmb.leapAdd = false → s.tmb.leapDel = true → s.tmb.leapAt ≤ max s.now w.t →
    ∃ t, exec (.leapApply w) s = .next t ∧ Only [.time, .events, .timebase, .sessions, .host] s t
    ∧ t.tmb.taiUtc = s.tmb.taiUtc - 1 ∧ t.tmb.leapAdd = false ∧ t.tmb.leapDel = false) ∧
  (∀ (w : When) (port : Fin 66) (f : Announce) (s : State), s.slaveCapable port.val = true → s.ptpHears port.val = true →
    f.domain = s.ptp.domain → 255 ≤ f.stepsRemoved → ∃ t, exec (.ptpAnnounceReceived w port f) s = .next t ∧ Only [.time] s t)

/-- When the source in use has timed out and none replaces it, no source is in use and a LOCKED servo stays so for 3 s, then
  enters HOLDOVER; with none in use a qualified listed source is taken at once. 30 s into P5 without LOCKED, ACQ_TIMEOUT is set
  and the start goes on to P6. When the holdover limit is reached the servo enters EXPIRED. The model's own: the operands of
  the commands (log entry 1), when a command acts (log entry 2). (Rests on R70, R72, R74, R88, R389.) -/
def Obligations.SourcesTimeOutAndReturn : Prop :=
  (∀ (w : When) (x : SourceSeen) (s : State), s.tmb.sources = [x] → x.kind = s.tmb.usedKind → x.port = s.tmb.usedPort →
    (s.tmb.usedKind = 1 ∨ s.tmb.usedKind = 2) → x.lastSync + aonSec 3 ≤ max s.aon w.a →
    x.lastAnnounce + aonSec 3 ≤ max s.aon w.a → s.tmb.state = 2 → ∃ t, exec (.sourceLoss w) s = .next t
    ∧ Only [.time, .events, .timebase, .delays, .sessions, .host] s t ∧ t.tmb.state = 2 ∧ t.tmb.usedKind = 0
    ∧ t.tmb.lostAt = some (max s.aon w.a) ∧ t.evt.pend.getLsbD 84 = true) ∧
  (∀ (w : When) (s : State), s.tmb.usedKind = 0 → (s.tmb.state ≠ 2 ∨ s.tmb.lostAt = none) →
    ∃ t, exec (.sourceLoss w) s = .next t ∧ Only [.time] s t) ∧
  (∀ (w : When) (q : Nat) (s : State), s.tmb.usedKind = 0 → s.tmb.state = 2 → s.tmb.lostAt = some q →
    q + aonSec 3 ≤ max s.aon w.a → ∃ t, exec (.sourceLoss w) s = .next t
    ∧ Only [.time, .events, .timebase, .ledger, .keeper, .sessions, .host] s t ∧ t.tmb.state = 3
    ∧ t.tmb.holdSince = some (max s.aon w.a) ∧ t.evt.pend.getLsbD 82 = true) ∧
  (∀ (w : When) (kind : Fin 4) (port : Fin 66) (x : SourceSeen) (r q : Nat) (s : State), s.seen kind.val (if kind.val = 1 then
    port.val else 0x7F) = some x → s.sourceRank kind.val = some r → x.qualifiedSince = some q → x.alive (max s.aon w.a) = true →
    kind.val ≠ 0 → s.tmb.usedKind = 0 → ∃ t, exec (.sourceQualified w kind port) s = .next t
    ∧ Only [.time, .events, .timebase, .delays, .sessions, .host] s t ∧ t.tmb.usedKind = kind.val
    ∧ t.tmb.usedPort = (if kind.val = 1 then port.val else 0x7F) ∧ t.evt.pend.getLsbD 84 = true ∧ t.tmb.state = s.tmb.state
    ∧ t.tmb.twoStep = none) ∧
  (∀ (w : When) (s : State), s.gen.phase = 5 → s.gen.latchOpen = false → s.tmb.acqChecked = false → s.tmb.state ≠ 2 →
    s.tmb.p5Start + aonSec 30 ≤ max s.aon w.a → ∃ t, exec (.acqTimeout w) s = .next t
    ∧ Only [.time, .start, .events, .timebase, .pair, .sessions, .host] s t ∧ t.tmb.acqTimeout = true ∧ t.gen.phase = 6
    ∧ t.tmb.state = s.tmb.state ∧ t.wvl.p6Start = max s.aon w.a) ∧
  (∀ (w : When) (h : Nat) (s : State), s.tmb.state = 3 → s.tmb.holdSince = some h → h + aonSec s.tmb.holdLimit ≤ max s.aon w.a →
    ∃ t, exec (.holdoverLimit w) s = .next t ∧ Only [.time, .events, .timebase, .faults, .ledger, .keeper, .sessions, .host] s t
    ∧ t.tmb.state = 4 ∧ t.evt.pend.getLsbD 83 = true)

/-- SNAP takes the island's follower of module time and the period count into the writer's own copy; a TMB_FREQ_TRIM beyond the
  limit is taken but flagged; a TMB_PHASE_STEP is queued outside LOCKED up to 10 µs and refused otherwise with TRIM_REFUSED and
  a count; a TMB_SRC that names a designated port and listed kind selects it; writes by others than the firmware change
  nothing. The model's own: the operands of the commands (log entry 1), when a command acts (log entry 2). (Rests on R73, R87,
  R353.) -/
def Obligations.TimeBaseRegisters : Prop :=
  (∀ (w : When) (s : State), (s.at w).grants .firmware 0x10000 = true → ∃ t, exec (.tmbSnap w .firmware) s = .next t
    ∧ Only [.time, .snaps] s t ∧ t.tmb.snapFw = { time := (s.at w).islandTime triadIsland, pcount := s.pcount }
    ∧ t.tmb.snapHost = s.tmb.snapHost) ∧
  (∀ (w : When) (i : Fin 8) (s : State), 2 ≤ s.sesRole i → (s.at w).grants (.host i) 0x10000 = true →
    ∃ t, exec (.tmbSnap w (.host i)) s = .next t ∧ Only [.time, .snaps] s t
    ∧ t.tmb.snapHost = { time := (s.at w).islandTime hostIsland, pcount := s.pcount } ∧ t.tmb.snapFw = s.tmb.snapFw) ∧
  (∀ (w : When) (v : Word) (s : State), -25600000 ≤ v.toInt → v.toInt ≤ 25600000 → (s.at w).grants .firmware 0x10030 = true →
    ∃ t, exec (.tmbFreqTrimWrite w .firmware v) s = .next t ∧ Only [.time, .timebase] s t ∧ t.tmb.freqTrim = v.toInt
    ∧ t.tmb.trimRefused = s.tmb.trimRefused ∧ t.tmb.state = s.tmb.state) ∧
  (∀ (w : When) (v : Word) (s : State), 25600000 < v.toInt → (s.at w).grants .firmware 0x10030 = true →
    ∃ t, exec (.tmbFreqTrimWrite w .firmware v) s = .next t ∧ Only [.time, .events, .timebase, .sessions, .host] s t
    ∧ t.tmb.freqTrim = v.toInt ∧ t.tmb.trimRefused = true) ∧
  (∀ (w : When) (v : Word) (s : State), s.tmb.state ≠ 2 → v.toInt.natAbs ≤ 655360000 →
    (s.at w).grants .firmware 0x10034 = true → ∃ t, exec (.tmbPhaseStepWrite w .firmware v) s = .next t
    ∧ Only [.time, .timebase] s t ∧ t.tmb.stepLeft = s.tmb.stepLeft + v.toInt ∧ t.tmb.refusals = s.tmb.refusals) ∧
  (∀ (w : When) (v : Word) (s : State), (s.tmb.state = 2 ∨ 655360000 < v.toInt.natAbs) →
    (s.at w).grants .firmware 0x10034 = true → ∃ t, exec (.tmbPhaseStepWrite w .firmware v) s = .next t
    ∧ Only [.time, .events, .timebase, .ledger, .keeper, .sessions, .host] s t ∧ t.tmb.stepLeft = s.tmb.stepLeft
    ∧ t.tmb.refusals = tallyInc s.tmb.refusals ∧ t.tmb.trimRefused = true) ∧
  (∀ (w : When) (v : Word) (kind port : Nat) (s : State), kind = bitsOf v.toNat 3 0 → port = bitsOf v.toNat 22 16 → port ≤ 65 →
    (kind = 1 ∨ kind = 2 ∨ kind = 3) → s.slaveCapable port = true → (s.sourceRank kind).isSome = true → s.tmb.usedKind ≠ kind →
    (s.at w).grants .firmware 0x10008 = true → ∃ t, exec (.tmbSrcWrite w .firmware v) s = .next t
    ∧ Only [.time, .events, .timebase, .delays, .sessions, .host] s t ∧ t.tmb.srcKind = kind ∧ t.tmb.srcPort = port
    ∧ t.tmb.usedKind = kind ∧ t.tmb.usedPort = port ∧ t.tmb.refusals = s.tmb.refusals) ∧
  (∀ (w : When) (v : Word) (s : State), bitsOf v.toNat 22 16 ≤ 65 → bitsOf v.toNat 3 0 ≤ 3 →
    s.slaveCapable (bitsOf v.toNat 22 16) = false → (s.at w).grants .firmware 0x10008 = true →
    ∃ t, exec (.tmbSrcWrite w .firmware v) s = .next t
    ∧ Only [.time, .events, .timebase, .ledger, .keeper, .sessions, .host] s t ∧ t.tmb.usedKind = s.tmb.usedKind
    ∧ t.tmb.usedPort = s.tmb.usedPort ∧ t.tmb.srcKind = s.tmb.srcKind ∧ t.tmb.refusals = tallyInc s.tmb.refusals) ∧
  (∀ (w : When) (who : Agent) (v : Word) (s : State), isFw who = false → (s.at w).grants who 0x10008 = true →
    ∃ t, exec (.tmbSrcWrite w who v) s = .next t ∧ Only [.time] s t)

/-- ARM from the voted path loads the count and arms a generator whose START lies 2 µs ahead and whose figures fit; a START too
  near sets LATE, figures outside R89 or a channel that is not its group's lowest or a module that is not primary set CONFLICT,
  and neither arms anything. DISARM ends an armed generator between pulses at once, and a running one after its pulse. An edge
  that is due takes the TPO, or the digital output of a generator 4 to 11 (its leading edge not in standby), to the level of
  the pulse, and the next one back; it counts the pulse down, and after the last pulse, or that in which a disarm came, the
  generator is DONE, with its event. That ARM does nothing while armed is the model's choice (log entry 111); a polarity of 1
  inverts the level. The model's own: the operands of the commands (log entry 1), when a command acts (log entry 2), the record
  of what leaves the block (log entry 4). (Rests on R89, R90, R226.) -/
def Obligations.PulseGenerators : Prop :=
  (∀ (w : When) (g : Fin 12) (s : State), g.val < s.tmb.gens.length → (s.pg g.val).armed = false →
    max s.now w.t + usTicks 2 ≤ (s.pg g.val).start → pgConflict g.val (s.pg g.val) s = false →
    (s.at w).grants .firmware (0x10100 + 0x20 * g.val) = true → ∃ t, exec (.pulseArm w .firmware g) s = .next t
    ∧ Only [.time, .pulses] s t ∧ (t.pg g.val).armed = true ∧ (t.pg g.val).running = false
    ∧ (t.pg g.val).remaining = (s.pg g.val).count ∧ (t.pg g.val).k = 0) ∧
  (∀ (w : When) (g : Fin 12) (s : State), g.val < s.tmb.gens.length → (s.pg g.val).armed = false →
    (s.pg g.val).start < max s.now w.t + usTicks 2 → (s.at w).grants .firmware (0x10100 + 0x20 * g.val) = true →
    ∃ t, exec (.pulseArm w .firmware g) s = .next t ∧ Only [.time, .events, .pulses, .sessions, .host] s t
    ∧ (t.pg g.val).armed = false ∧ (t.pg g.val).late = true) ∧
  (∀ (w : When) (g : Fin 12) (who : Agent) (s : State), isFw who = false → (s.at w).grants who (0x10100 + 0x20 * g.val) = true →
    ∃ t, exec (.pulseArm w who g) s = .next t ∧ Only [.time] s t) ∧
  (∀ (w : When) (g : Fin 12) (s : State), g.val < s.tmb.gens.length → (s.pg g.val).armed = true → (s.pg g.val).running = false →
    (s.at w).grants .firmware (0x10100 + 0x20 * g.val) = true → ∃ t, exec (.pulseDisarm w .firmware g) s = .next t
    ∧ Only [.time, .events, .pulses, .sessions, .host] s t ∧ (t.pg g.val).armed = false ∧ (t.pg g.val).done = true) ∧
  (∀ (w : When) (g : Fin 12) (s : State), g.val < s.tmb.gens.length → (s.pg g.val).armed = true → (s.pg g.val).running = true →
    (s.at w).grants .firmware (0x10100 + 0x20 * g.val) = true → ∃ t, exec (.pulseDisarm w .firmware g) s = .next t
    ∧ Only [.time, .pulses] s t ∧ (t.pg g.val).armed = true ∧ (t.pg g.val).disarming = true) ∧
  (∀ (w : When) (g : Fin 12) (s : State), g.val < 4 → g.val < s.tmb.tpo.length → g.val < s.tmb.gens.length → s.stopped = false →
    (s.pg g.val).armed = true → (s.pg g.val).running = false → (s.pg g.val).nextEdge ≤ max s.now w.t →
    ∃ t, exec (.pulseEdge w g) s = .next t ∧ Only [.time, .pulses, .sent] s t ∧ (t.pg g.val).running = true
    ∧ (t.pg g.val).armed = true ∧ (t.pg g.val).remaining = (s.pg g.val).remaining
    ∧ t.tmb.tpo.getD g.val false = (!(s.pg g.val).polarity)
    ∧ t.out = (if s.tmb.tpo.getD g.val false = (!(s.pg g.val).polarity) then s.out else .tpo g.val (!(s.pg g.val).polarity) ::
    s.out)) ∧
  (∀ (w : When) (g : Fin 12) (s : State), g.val < 4 → g.val < s.tmb.tpo.length → g.val < s.tmb.gens.length → s.stopped = false →
    (s.pg g.val).armed = true → (s.pg g.val).running = true → (s.pg g.val).nextEdge ≤ max s.now w.t →
    (s.pg g.val).disarming = false → ((s.pg g.val).count = 0 ∨ 2 ≤ (s.pg g.val).remaining) →
    ∃ t, exec (.pulseEdge w g) s = .next t ∧ Only [.time, .pulses, .sent] s t ∧ (t.pg g.val).running = false
    ∧ (t.pg g.val).armed = true ∧ (t.pg g.val).k = (s.pg g.val).k + 1 ∧ (t.pg g.val).remaining = (s.pg g.val).remaining - 1
    ∧ t.tmb.tpo.getD g.val false = (s.pg g.val).polarity
    ∧ t.out = (if s.tmb.tpo.getD g.val false = (s.pg g.val).polarity then s.out else .tpo g.val (s.pg g.val).polarity :: s.out)) ∧
  (∀ (w : When) (g : Fin 12) (s : State), g.val < 4 → g.val < s.tmb.tpo.length → g.val < s.tmb.gens.length → s.stopped = false →
    (s.pg g.val).armed = true → (s.pg g.val).running = true → (s.pg g.val).nextEdge ≤ max s.now w.t →
    (s.pg g.val).disarming = false → (s.pg g.val).count ≠ 0 → (s.pg g.val).remaining ≤ 1 →
    ∃ t, exec (.pulseEdge w g) s = .next t ∧ Only [.time, .events, .pulses, .sessions, .host, .sent] s t
    ∧ (t.pg g.val).running = false ∧ (t.pg g.val).armed = false ∧ (t.pg g.val).done = true ∧ (t.pg g.val).k = (s.pg g.val).k + 1
    ∧ (t.pg g.val).remaining = (s.pg g.val).remaining - 1 ∧ t.tmb.tpo.getD g.val false = (s.pg g.val).polarity
    ∧ t.out = (if s.tmb.tpo.getD g.val false = (s.pg g.val).polarity then s.out else .tpo g.val (s.pg g.val).polarity :: s.out)
    ∧ ((s.pg g.val).done = false → t.evt.pend.getLsbD (if g.val < 4 then 88 + g.val else 95) = true)) ∧
  (∀ (w : When) (g : Fin 12) (s : State), g.val < 4 → g.val < s.tmb.tpo.length → g.val < s.tmb.gens.length → s.stopped = false →
    (s.pg g.val).armed = true → (s.pg g.val).running = true → (s.pg g.val).nextEdge ≤ max s.now w.t →
    (s.pg g.val).disarming = true → ∃ t, exec (.pulseEdge w g) s = .next t
    ∧ Only [.time, .events, .pulses, .sessions, .host, .sent] s t ∧ (t.pg g.val).running = false ∧ (t.pg g.val).armed = false
    ∧ (t.pg g.val).done = true ∧ (t.pg g.val).k = (s.pg g.val).k + 1 ∧ (t.pg g.val).remaining = (s.pg g.val).remaining - 1
    ∧ t.tmb.tpo.getD g.val false = (s.pg g.val).polarity
    ∧ t.out = (if s.tmb.tpo.getD g.val false = (s.pg g.val).polarity then s.out else .tpo g.val (s.pg g.val).polarity :: s.out)
    ∧ ((s.pg g.val).done = false → t.evt.pend.getLsbD (if g.val < 4 then 88 + g.val else 95) = true)) ∧
  (∀ (w : When) (g : Fin 12) (s : State), 4 ≤ g.val → g.val < s.tmb.gens.length → s.stopped = false →
    (s.pg g.val).armed = true → (s.pg g.val).running = false → (s.pg g.val).nextEdge ≤ max s.now w.t →
    ∃ t, exec (.pulseEdge w g) s = .next t
    ∧ Only [.time, .events, .pulses, .ledger, .keeper, .outputs, .field, .sessions, .host, .sent] s t
    ∧ (t.pg g.val).running = true ∧ (t.pg g.val).armed = true ∧ (t.pg g.val).remaining = (s.pg g.val).remaining
    ∧ (g.val - 4 < s.fio.dout.length → (t.dout (g.val - 4)).driven = (!(s.pg g.val).polarity && !s.fio.standby))
    ∧ ((s.dout (g.val - 4)).mismatch = false →
    t.out = .dout (g.val - 4) ((!(s.pg g.val).polarity && !s.fio.standby) && !(s.dout (g.val - 4)).shutdown && !(s.dout (g.val
    - 4)).failed && !s.fio.unplugged) :: s.out)) ∧
  (∀ (w : When) (g : Fin 12) (s : State), 4 ≤ g.val → g.val < s.tmb.gens.length → s.stopped = false →
    (s.pg g.val).armed = true → (s.pg g.val).running = true → (s.pg g.val).nextEdge ≤ max s.now w.t →
    (s.pg g.val).disarming = false → ((s.pg g.val).count = 0 ∨ 2 ≤ (s.pg g.val).remaining) →
    ∃ t, exec (.pulseEdge w g) s = .next t
    ∧ Only [.time, .events, .pulses, .ledger, .keeper, .outputs, .field, .sessions, .host, .sent] s t
    ∧ (t.pg g.val).running = false ∧ (t.pg g.val).armed = true ∧ (t.pg g.val).k = (s.pg g.val).k + 1
    ∧ (t.pg g.val).remaining = (s.pg g.val).remaining - 1 ∧ (g.val - 4 < s.fio.dout.length →
    (t.dout (g.val - 4)).driven = ((s.pg g.val).polarity && !s.fio.standby)) ∧ ((s.dout (g.val - 4)).mismatch = false →
    t.out = .dout (g.val - 4) (((s.pg g.val).polarity && !s.fio.standby) && !(s.dout (g.val - 4)).shutdown && !(s.dout (g.val -
    4)).failed && !s.fio.unplugged) :: s.out)) ∧
  (∀ (w : When) (g : Fin 12) (s : State), 4 ≤ g.val → g.val < s.tmb.gens.length → s.stopped = false →
    (s.pg g.val).armed = true → (s.pg g.val).running = true → (s.pg g.val).nextEdge ≤ max s.now w.t →
    (s.pg g.val).disarming = false → (s.pg g.val).count ≠ 0 → (s.pg g.val).remaining ≤ 1 →
    ∃ t, exec (.pulseEdge w g) s = .next t
    ∧ Only [.time, .events, .pulses, .ledger, .keeper, .outputs, .field, .sessions, .host, .sent] s t
    ∧ (t.pg g.val).running = false ∧ (t.pg g.val).armed = false ∧ (t.pg g.val).done = true ∧ (t.pg g.val).k = (s.pg g.val).k + 1
    ∧ (t.pg g.val).remaining = (s.pg g.val).remaining - 1 ∧ (g.val - 4 < s.fio.dout.length →
    (t.dout (g.val - 4)).driven = ((s.pg g.val).polarity && !s.fio.standby)) ∧ ((s.pg g.val).done = false →
    t.evt.pend.getLsbD (if g.val < 4 then 88 + g.val else 95) = true)) ∧
  (∀ (w : When) (g : Fin 12) (s : State), 4 ≤ g.val → g.val < s.tmb.gens.length → s.stopped = false →
    (s.pg g.val).armed = true → (s.pg g.val).running = true → (s.pg g.val).nextEdge ≤ max s.now w.t →
    (s.pg g.val).disarming = true → ∃ t, exec (.pulseEdge w g) s = .next t
    ∧ Only [.time, .events, .pulses, .ledger, .keeper, .outputs, .field, .sessions, .host, .sent] s t
    ∧ (t.pg g.val).running = false ∧ (t.pg g.val).armed = false ∧ (t.pg g.val).done = true ∧ (t.pg g.val).k = (s.pg g.val).k + 1
    ∧ (t.pg g.val).remaining = (s.pg g.val).remaining - 1 ∧ (g.val - 4 < s.fio.dout.length →
    (t.dout (g.val - 4)).driven = ((s.pg g.val).polarity && !s.fio.standby)) ∧ ((s.pg g.val).done = false →
    t.evt.pend.getLsbD (if g.val < 4 then 88 + g.val else 95) = true)) ∧
  (∀ (w : When) (g : Fin 12) (s : State), ((s.pg g.val).armed = false ∨ s.stopped = true ∨ max s.now w.t < (s.pg
    g.val).nextEdge) → ∃ t, exec (.pulseEdge w g) s = .next t ∧ Only [.time] s t) ∧
  (∀ (w : When) (g : Fin 12) (s : State), g.val < s.tmb.gens.length → (s.pg g.val).armed = false →
    max s.now w.t + usTicks 2 ≤ (s.pg g.val).start → pgConflict g.val (s.pg g.val) s = true →
    (s.at w).grants .firmware (0x10100 + 0x20 * g.val) = true → ∃ t, exec (.pulseArm w .firmware g) s = .next t
    ∧ Only [.time, .events, .pulses, .sessions, .host] s t ∧ (t.pg g.val).armed = false ∧ (t.pg g.val).conflict = true
    ∧ (t.pg g.val).late = (s.pg g.val).late) ∧
  (∀ (g : Nat) (x : PulseGen) (s : State), pgConflict g x s = true ↔ 1000000000 ≤ x.startNs ∨ (g < 4
    ∧ (x.width < 2 ∨ x.period ≤ x.width ∨ x.period < 4)) ∨ (4 ≤ g
    ∧ (x.width < 125000 ∨ x.period < 250000 ∨ s.doLeader (g - 4) ≠ g - 4 ∨ s.primary = false))) ∧
  (∀ (w : When) (g : Fin 12) (s : State), (s.pg g.val).armed = true →
    (s.at w).grants .firmware (0x10100 + 0x20 * g.val) = true → ∃ t, exec (.pulseArm w .firmware g) s = .next t
    ∧ Only [.time] s t) ∧
  (∀ (w : When) (g : Fin 12) (s : State), (s.pg g.val).armed = false →
    (s.at w).grants .firmware (0x10100 + 0x20 * g.val) = true → ∃ t, exec (.pulseDisarm w .firmware g) s = .next t
    ∧ Only [.time] s t)

/-- A master port that sends and has sent no Sync this period sends one outside FREE: its origin is the corrected transmit
  stamp, whole nanoseconds, with the fraction and the asymmetry in the correction. An Announce carries the announced figures.
  On a PRP pair both lanes carry it with one redundancy sequence number. A port that is no master, or cannot send (as outside
  PRIMARY), sends neither, a lane of a pair that can does so alone, and none sends a Sync in FREE or a second one in a period.
  A message for which the stall has no room, or that others stand before, waits and is counted. The model's own: the operands
  of the commands (log entry 1), when a command acts (log entry 2), the record of what leaves the block (log entry 4). (Rests
  on R79, R80, R83, R110.) -/
def Obligations.MasterPorts : Prop :=
  (∀ (w : When) (port : Fin 64) (a b : Nat) (s : State), s.masterPort port.val = true → s.tmb.state ≠ 0 →
    (s.port port.val).syncSent = false → s.portSends port.val = true → s.prpLow port.val = false →
    s.portRoom port.val (ptpWire s port.val 44) = true → (s.port port.val).before true = false →
    ∃ t, exec (.syncTransmit w port a b) s = .next t ∧ Only [.time, .ports, .sent] s t
    ∧ t.out = .ptp port.val 0 ((s.txStamp port.val a).toNat / ticksPerNs * ticksPerNs) ((timeFrac (s.txStamp port.val a).toNat
    : Int) + (s.asymWhen port.val a).asym) { domain := s.ptp.domain } (s.ptpHdr port.val false none) :: s.out) ∧
  (∀ (w : When) (port : Fin 64) (s : State), s.masterPort port.val = true → s.portSends port.val = true →
    s.prpLow port.val = false → s.portRoom port.val (ptpWire s port.val 64) = true → (s.port port.val).before false = false →
    ∃ t, exec (.announceTransmit w port) s = .next t ∧ Only [.time, .ports, .sent] s t
    ∧ t.out = .ptp port.val 0xB (max s.now w.t) 0 s.announced (s.ptpHdr port.val false none) :: s.out) ∧
  (∀ (w : When) (port : Fin 64) (a b : Nat) (s : State), s.masterPort port.val = true → s.tmb.state ≠ 0 →
    s.prpLow port.val = true → (s.port port.val).syncSent = false → (s.port (port.val + 32)).syncSent = false →
    s.portSends port.val = true → s.portSends (port.val + 32) = true → s.portRoom port.val (ptpWire s port.val 44) = true →
    s.portRoom (port.val + 32) (ptpWire s (port.val + 32) 44) = true → (s.port port.val).before true = false →
    (s.port (port.val + 32)).before true = false → ∃ t, exec (.syncTransmit w port a b) s = .next t
    ∧ Only [.time, .ports, .sent] s t
    ∧ t.out = .ptp (port.val + 32) 0 ((s.txStamp (port.val + 32) b).toNat / ticksPerNs * ticksPerNs) ((timeFrac (s.txStamp
    (port.val + 32) b).toNat : Int) + (s.asymWhen (port.val + 32) b).asym) { domain := s.ptp.domain } (s.ptpHdr (port.val + 32)
    false (some (s.port port.val).rctNext)) :: .ptp port.val 0 ((s.txStamp port.val a).toNat / ticksPerNs * ticksPerNs)
    ((timeFrac (s.txStamp port.val a).toNat : Int) + (s.asymWhen port.val a).asym) { domain := s.ptp.domain } (s.ptpHdr
    port.val false (some (s.port port.val).rctNext)) :: s.out) ∧
  (∀ (w : When) (port : Fin 64) (s : State), s.masterPort port.val = true → s.prpLow port.val = true →
    s.portSends port.val = true → s.portSends (port.val + 32) = true → s.portRoom port.val (ptpWire s port.val 64) = true →
    s.portRoom (port.val + 32) (ptpWire s (port.val + 32) 64) = true → (s.port port.val).before false = false →
    (s.port (port.val + 32)).before false = false → ∃ t, exec (.announceTransmit w port) s = .next t
    ∧ Only [.time, .ports, .sent] s t
    ∧ t.out = .ptp (port.val + 32) 0xB (max s.now w.t) 0 s.announced (s.ptpHdr (port.val + 32) false (some (s.port
    port.val).rctNext)) :: .ptp port.val 0xB (max s.now w.t) 0 s.announced (s.ptpHdr port.val false (some (s.port
    port.val).rctNext)) :: s.out) ∧
  (∀ (w : When) (port : Fin 64) (a b : Nat) (s : State), s.tmb.state = 0 → ∃ t, exec (.syncTransmit w port a b) s = .next t
    ∧ Only [.time] s t) ∧
  (∀ (w : When) (port : Fin 64) (a b : Nat) (s : State), s.masterPort port.val = true → s.tmb.state ≠ 0 →
    s.portSends port.val = false → s.prpLow port.val = false → ∃ t, exec (.syncTransmit w port a b) s = .next t
    ∧ Only [.time] s t) ∧
  (∀ (w : When) (port : Fin 64) (a b : Nat) (s : State), s.masterPort port.val = false →
    ∃ t, exec (.syncTransmit w port a b) s = .next t ∧ Only [.time] s t) ∧
  (∀ (w : When) (port : Fin 64) (s : State), s.masterPort port.val = false → ∃ t, exec (.announceTransmit w port) s = .next t
    ∧ Only [.time] s t) ∧
  (∀ (w : When) (port : Fin 64) (s : State), s.masterPort port.val = true → s.portSends port.val = false →
    s.prpLow port.val = false → ∃ t, exec (.announceTransmit w port) s = .next t ∧ Only [.time] s t) ∧
  (∀ (w : When) (port : Fin 64) (a b : Nat) (s : State), s.masterPort port.val = true → s.tmb.state ≠ 0 →
    s.prpLow port.val = true → s.portSends port.val = false → (s.port (port.val + 32)).syncSent = false →
    s.portSends (port.val + 32) = true → s.portRoom (port.val + 32) (ptpWire s (port.val + 32) 44) = true →
    (s.port (port.val + 32)).before true = false → ∃ t, exec (.syncTransmit w port a b) s = .next t
    ∧ Only [.time, .ports, .sent] s t
    ∧ t.out = .ptp (port.val + 32) 0 ((s.txStamp (port.val + 32) b).toNat / ticksPerNs * ticksPerNs) ((timeFrac (s.txStamp
    (port.val + 32) b).toNat : Int) + (s.asymWhen (port.val + 32) b).asym) { domain := s.ptp.domain } (s.ptpHdr (port.val + 32)
    false (some (s.port port.val).rctNext)) :: s.out) ∧
  (∀ (w : When) (port : Fin 64) (a b : Nat) (s : State), s.masterPort port.val = true → s.tmb.state ≠ 0 →
    s.prpLow port.val = true → (s.port port.val).syncSent = false → s.portSends port.val = true →
    s.portSends (port.val + 32) = false → s.portRoom port.val (ptpWire s port.val 44) = true →
    (s.port port.val).before true = false → ∃ t, exec (.syncTransmit w port a b) s = .next t ∧ Only [.time, .ports, .sent] s t
    ∧ t.out = .ptp port.val 0 ((s.txStamp port.val a).toNat / ticksPerNs * ticksPerNs) ((timeFrac (s.txStamp port.val a).toNat
    : Int) + (s.asymWhen port.val a).asym) { domain := s.ptp.domain } (s.ptpHdr port.val false (some (s.port
    port.val).rctNext)) :: s.out) ∧
  (∀ (w : When) (port : Fin 64) (s : State), s.masterPort port.val = true → s.prpLow port.val = true →
    s.portSends port.val = false → s.portSends (port.val + 32) = true →
    s.portRoom (port.val + 32) (ptpWire s (port.val + 32) 64) = true → (s.port (port.val + 32)).before false = false →
    ∃ t, exec (.announceTransmit w port) s = .next t ∧ Only [.time, .ports, .sent] s t
    ∧ t.out = .ptp (port.val + 32) 0xB (max s.now w.t) 0 s.announced (s.ptpHdr (port.val + 32) false (some (s.port
    port.val).rctNext)) :: s.out) ∧
  (∀ (w : When) (port : Fin 64) (s : State), s.masterPort port.val = true → s.prpLow port.val = true →
    s.portSends port.val = true → s.portSends (port.val + 32) = false → s.portRoom port.val (ptpWire s port.val 64) = true →
    (s.port port.val).before false = false → ∃ t, exec (.announceTransmit w port) s = .next t ∧ Only [.time, .ports, .sent] s t
    ∧ t.out = .ptp port.val 0xB (max s.now w.t) 0 s.announced (s.ptpHdr port.val false (some (s.port port.val).rctNext)) ::
    s.out) ∧
  (∀ (w : When) (port : Fin 64) (a b : Nat) (s : State), s.masterPort port.val = true → s.tmb.state ≠ 0 →
    (s.port port.val).syncSent = true → s.prpLow port.val = false → ∃ t, exec (.syncTransmit w port a b) s = .next t
    ∧ Only [.time] s t) ∧
  (∀ (w : When) (port : Fin 64) (a b : Nat) (s : State), port.val < s.prt.ports.length → s.masterPort port.val = true →
    s.tmb.state ≠ 0 → (s.port port.val).syncSent = false → s.portSends port.val = true → s.prpLow port.val = false →
    (s.portRoom port.val (ptpWire s port.val 44) = false ∨ (s.port port.val).before true = true) →
    ∃ t, exec (.syncTransmit w port a b) s = .next t ∧ Only [.time, .ports] s t
    ∧ (t.port port.val).waitq.getLast? = some { kind := .sync, deferred := true }
    ∧ (t.port port.val).txDefer = tallyInc (s.port port.val).txDefer ∧ (t.port port.val).syncSent = false) ∧
  (∀ (w : When) (port : Fin 64) (s : State), port.val < s.prt.ports.length → s.masterPort port.val = true →
    s.portSends port.val = true → s.prpLow port.val = false →
    (s.portRoom port.val (ptpWire s port.val 64) = false ∨ (s.port port.val).before false = true) →
    ∃ t, exec (.announceTransmit w port) s = .next t ∧ Only [.time, .ports] s t
    ∧ (t.port port.val).waitq.getLast? = some { kind := .announce, deferred := true }
    ∧ (t.port port.val).txDefer = tallyInc (s.port port.val).txDefer)

/-- A change of a port's link sets the link and PRT_n_EVT.LINK, with its source where the bit was clear, and on a lane of a PRP
  pair PRP_LANE of the logical port; a write of LASER_OFF by the firmware or an ENGINEER takes effect; a cage's module change
  sets its four ports alone, a high-power class taking the signal away; a dropped frame and a frame-check error of a port that
  receives count in the tally of their kind and nothing else changes; supervision frames go out on each lane of a pair that can
  send, both with one redundancy sequence number (their address and EtherType: log entry 25, PRESUMED). The model's own: the
  operands of the commands (log entry 1), when a command acts (log entry 2), the record of what leaves the block (log entry 4).
  (Rests on R27, R95, R96, R107, R114, R413.) -/
def Obligations.LinksAndLasers : Prop :=
  (∀ (w : When) (port : Fin 64) (up : Bool) (s : State), (s.port port.val).link ≠ up → port.val < s.prt.ports.length →
    port.val < s.evt.prt.length → ∃ t, exec (.portLinkChange w port up) s = .next t
    ∧ Only [.time, .events, .ports, .sessions, .host] s t ∧ (t.port port.val).link = up
    ∧ (t.port port.val).laserOff = (s.port port.val).laserOff ∧ (t.evt.prt.getD port.val 0).testBit 0 = true
    ∧ ((s.evt.prt.getD port.val 0).testBit 0 = false → t.evt.pend.getLsbD port.val = true)) ∧
  (∀ (w : When) (port : Fin 64) (up : Bool) (s : State), (s.port port.val).link ≠ up → port.val < s.prt.ports.length →
    s.isPrp port.val = true → port.val < s.evt.prt.length → s.logical port.val < s.evt.prt.length →
    ∃ t, exec (.portLinkChange w port up) s = .next t ∧ Only [.time, .events, .ports, .sessions, .host] s t
    ∧ (t.port port.val).link = up ∧ (t.evt.prt.getD port.val 0).testBit 0 = true
    ∧ (t.evt.prt.getD (s.logical port.val) 0).testBit 4 = true) ∧
  (∀ (w : When) (port : Fin 64) (up : Bool) (s : State), (s.port port.val).link = up →
    ∃ t, exec (.portLinkChange w port up) s = .next t ∧ Only [.time] s t) ∧
  (∀ (w : When) (who : Agent) (port : Fin 64) (off : Bool) (s : State), fwOrEngineer who s = true →
    port.val < s.prt.ports.length → (s.at w).grants who (0x20000 + 0x400 * port.val) = true →
    ∃ t, exec (.laserOffWrite w who port off) s = .next t
    ∧ Only [.time, .events, .ports, .ledger, .keeper, .sessions, .host] s t ∧ (t.port port.val).laserOff = off
    ∧ (t.port port.val).link = (s.port port.val).link) ∧
  (∀ (w : When) (who : Agent) (port : Fin 64) (off : Bool) (s : State), fwOrEngineer who s = true →
    (s.port port.val).laserOff = off → (s.at w).grants who (0x20000 + 0x400 * port.val) = true →
    ∃ t, exec (.laserOffWrite w who port off) s = .next t ∧ Only [.time] s t) ∧
  (∀ (w : When) (who : Agent) (port : Fin 64) (off : Bool) (s : State), fwOrEngineer who s = false →
    (s.at w).grants who (0x20000 + 0x400 * port.val) = true → ∃ t, exec (.laserOffWrite w who port off) s = .next t
    ∧ Only [.time] s t) ∧
  (∀ (w : When) (cage : Fin 16) (k : Fin 4) (fitted high signal fault : Bool) (s : State), 64 ≤ s.prt.ports.length →
    ∃ t, exec (.opticalModuleChange w cage fitted high signal fault) s = .next t ∧ Only [.time, .ports] s t
    ∧ (t.port (4 * cage.val + k.val)).fitted = fitted ∧ (t.port (4 * cage.val + k.val)).highPower = (fitted && high)
    ∧ (t.port (4 * cage.val + k.val)).signal = (fitted && signal && !high)
    ∧ (t.port (4 * cage.val + k.val)).txFault = (fitted && fault)
    ∧ (t.port (4 * cage.val + k.val)).link = (s.port (4 * cage.val + k.val)).link ∧ ∀ n, n / 4 ≠ cage.val → t.port n = s.port n) ∧
  (∀ (w : When) (port : Fin 64) (kind : DropKind) (s : State), s.portTakes port.val = true → kind ≠ .svNoCredit →
    kind ≠ .surgeNoCredit → ∃ t, exec (.unknownFrame w port kind) s = .next t ∧ Only [.time, .ports] s t
    ∧ t.prt.ports = updAt s.prt.ports port.val (fun x => { x with discard := tallyInc x.discard })) ∧
  (∀ (w : When) (port : Fin 64) (s : State), s.portTakes port.val = true →
    ∃ t, exec (.unknownFrame w port .svNoCredit) s = .next t ∧ Only [.time, .ports] s t
    ∧ t.prt.ports = updAt s.prt.ports port.val (fun x => { x with dataDrop := tallyInc x.dataDrop })) ∧
  (∀ (w : When) (port : Fin 64) (s : State), s.portTakes port.val = true →
    ∃ t, exec (.unknownFrame w port .surgeNoCredit) s = .next t ∧ Only [.time, .ports] s t
    ∧ t.prt.ports = updAt s.prt.ports port.val (fun x => { x with surgeDiscard := tallyInc x.surgeDiscard })) ∧
  (∀ (w : When) (port : Fin 64) (kind : DropKind) (s : State), s.portTakes port.val = false →
    ∃ t, exec (.unknownFrame w port kind) s = .next t ∧ Only [.time] s t) ∧
  (∀ (w : When) (port : Fin 66) (s : State), port.val < 64 → s.portTakes port.val = false →
    ∃ t, exec (.frameCheckError w port) s = .next t ∧ Only [.time] s t) ∧
  (∀ (w : When) (port : Fin 66) (s : State), port.val < 64 → s.portTakes port.val = true →
    ∃ t, exec (.frameCheckError w port) s = .next t ∧ Only [.time, .ports] s t
    ∧ t.prt.ports = updAt s.prt.ports port.val (fun x => { x with fcsErr := tallyInc x.fcsErr })) ∧
  (∀ (w : When) (port : Fin 66) (s : State), 64 ≤ port.val → ∃ t, exec (.frameCheckError w port) s = .next t
    ∧ Only [.time, .host] s t ∧ t.hif.fcsErr = updAt s.hif.fcsErr (port.val - 64) tallyInc) ∧
  (∀ (w : When) (port : Fin 32) (s : State), s.isPrp port.val = true → s.portSends port.val = true →
    s.portSends (port.val + 32) = true → s.portRoom port.val supervisionWire = true →
    s.portRoom (port.val + 32) supervisionWire = true → (s.port port.val).before false = false →
    (s.port (port.val + 32)).before false = false → ∃ t, exec (.prpSupervision w port) s = .next t
    ∧ Only [.time, .ports, .sent] s t
    ∧ t.out = .supervision (port.val + 32)
    { dst := 0x01154E000100, src := s.gen.eui, etherType := 0x88FB, rct := some ((s.port port.val).rctNext, 0xB) } ::
    .supervision port.val
    { dst := 0x01154E000100, src := s.gen.eui, etherType := 0x88FB, rct := some ((s.port port.val).rctNext, 0xA) } :: s.out) ∧
  (∀ (w : When) (port : Fin 32) (s : State), s.isPrp port.val = true → s.portSends port.val = true →
    s.portSends (port.val + 32) = false → s.portRoom port.val supervisionWire = true → (s.port port.val).before false = false →
    ∃ t, exec (.prpSupervision w port) s = .next t ∧ Only [.time, .ports, .sent] s t
    ∧ t.out = .supervision port.val
    { dst := 0x01154E000100, src := s.gen.eui, etherType := 0x88FB, rct := some ((s.port port.val).rctNext, 0xA) } :: s.out) ∧
  (∀ (w : When) (port : Fin 32) (s : State), s.isPrp port.val = true → s.portSends port.val = false →
    s.portSends (port.val + 32) = true → s.portRoom (port.val + 32) supervisionWire = true →
    (s.port (port.val + 32)).before false = false → ∃ t, exec (.prpSupervision w port) s = .next t
    ∧ Only [.time, .ports, .sent] s t
    ∧ t.out = .supervision (port.val + 32)
    { dst := 0x01154E000100, src := s.gen.eui, etherType := 0x88FB, rct := some ((s.port port.val).rctNext, 0xB) } :: s.out) ∧
  (∀ (w : When) (port : Fin 32) (s : State), s.isPrp port.val = true → s.portSends port.val = false →
    s.portSends (port.val + 32) = false → ∃ t, exec (.prpSupervision w port) s = .next t ∧ Only [.time, .ports] s t) ∧
  (∀ (w : When) (port : Fin 32) (s : State), s.isPrp port.val = false → ∃ t, exec (.prpSupervision w port) s = .next t
    ∧ Only [.time] s t)

/-- An uncorrectable error of a port's control-class queue drops its frames that wait, counts and reports source 30; the force
  and mailbox queues report it likewise and the mailbox is emptied. A corrected error of a data-class queue is counted for the
  queue and as a corrected LIGHT error; an uncorrected one drops the frame or window at its place and reports source 31 (that
  it counts as a LIGHT error of a line not given is the model's reading, log entry 106). The model's own: the operands of the
  commands (log entry 1), when a command acts (log entry 2). (Rests on R115, R160, R194, R205.) -/
def Obligations.QueueErrors : Prop :=
  (∀ (w : When) (n : Fin 64) (s : State), n.val < s.prt.ports.length → ∃ t, exec (.controlQueueError w (.port n)) s = .next t
    ∧ Only [.time, .events, .ports, .faults, .sessions, .host] s t ∧ (t.port n.val).outq = (s.port n.val).outq.filter (!·.enq)
    ∧ (t.port n.val).waitq = [] ∧ (t.port n.val).qreset = tallyInc (s.port n.val).qreset
    ∧ t.fcr = (reportBy n.val 30 0xFF (s.at w)).fcr) ∧
  (∀ (w : When) (s : State), ∃ t, exec (.controlQueueError w .forces) s = .next t ∧ Only [.time, .faults] s t
    ∧ t.fcr = (reportBy 64 30 0xFF (s.at w)).fcr) ∧
  (∀ (w : When) (s : State), ∃ t, exec (.controlQueueError w .mailbox) s = .next t
    ∧ Only [.time, .mailbox, .surges, .faults] s t ∧ t.wce.recommitBy = some (max s.aon w.a + aonMs 1)
    ∧ t.phe.banks = [[], [], []] ∧ t.phe.newest = 0 ∧ t.phe.pendMb = [] ∧ t.fcr = (reportBy 65 30 0xFF (s.at w)).fcr) ∧
  (∀ (w : When) (n : Fin 64) (s : State), ∃ t, exec (.dataQueueError w (.sv n) true) s = .next t
    ∧ Only [.time, .draws, .ports, .memctl, .faults] s t ∧ t.mem.ceLight = tallyInc s.mem.ceLight
    ∧ t.prt.ports = updAt s.prt.ports n.val (fun x => { x with eccCorr := tallyInc x.eccCorr })) ∧
  (∀ (w : When) (n : Fin 64) (s : State), n.val < s.prt.ports.length → ∃ t, exec (.dataQueueError w (.sv n) false) s = .next t
    ∧ Only [.time, .events, .ports, .memctl, .faults, .sessions, .host] s t ∧ t.mem.ueLight = tallyInc s.mem.ueLight
    ∧ (t.port n.val).dataDrop = tallyInc (s.port n.val).dataDrop ∧ (t.port n.val).svq = (s.port n.val).svq - 1
    ∧ t.fcr = (reportBy n.val 31 0xFF (readerError .uncorrectable (s.at w))).fcr) ∧
  (∀ (w : When) (pos : Nat) (s : State), ∃ t, exec (.dataQueueError w (.surge pos) false) s = .next t
    ∧ Only [.time, .events, .surges, .memctl, .faults, .sessions, .host] s t ∧ t.wce.queue = s.wce.queue.eraseIdx pos
    ∧ t.wce.drop = tallyInc s.wce.drop ∧ t.mem.ueLight = tallyInc s.mem.ueLight
    ∧ t.fcr = (reportBy 66 31 0xFF (readerError .uncorrectable (s.at w))).fcr) ∧
  (∀ (w : When) (pos : Nat) (s : State), ∃ t, exec (.dataQueueError w (.surge pos) true) s = .next t
    ∧ Only [.time, .draws, .surges, .memctl, .faults] s t ∧ t.wce.eccCorr = tallyInc s.wce.eccCorr ∧ t.wce.queue = s.wce.queue) ∧
  (∀ (w : When) (p : Fin 2) (pos : Nat) (s : State), ∃ t, exec (.dataQueueError w (.publication p pos) true) s = .next t
    ∧ Only [.time, .draws, .phasors, .memctl, .faults] s t ∧ t.phe.eccCorr = tallyInc s.phe.eccCorr) ∧
  (∀ (w : When) (p : Fin 2) (pos : Nat) (x : PubFrame) (s : State), (s.phe.queue.filter (·.host == p.val))[pos]? = some x →
    ∃ t, exec (.dataQueueError w (.publication p pos) false) s = .next t
    ∧ Only [.time, .events, .phasors, .streams, .memctl, .faults, .sessions, .host] s t ∧ t.phe.queue = s.phe.queue.erase x)

/-- A REPLY with a bad check, of no mapped station, of another source address or of a task that does not map the station, stale
  in epoch, side or sequence, or of a wrong length counts in its own tally, an unknown, stale or late one while the port has a
  control credit left in the period, else as discarded (log entry 98), and a second answer to one frame on a lane is stale; one
  that answers the latest cycle frame is on time where its corrected stamp is within the deadline, and late, and counted,
  beyond it. The model's own: the operands of the commands (log entry 1). (Rests on R97, R101, R107, R109, R111.) -/
def Obligations.RepliesAreJudged : Prop :=
  (∀ (w : When) (port : Fin 64) (f : ReplyFrame) (s : State), s.portTakes port.val = true → f.fcsOk = false →
    ∃ t, exec (.replyReceived w port f) s = .next t ∧ Only [.time, .ports] s t
    ∧ t.prt.ports = updAt s.prt.ports port.val (fun x => { x with fcsErr := tallyInc x.fcsErr })) ∧
  (∀ (w : When) (port : Fin 64) (f : ReplyFrame) (s : State), s.portTakes port.val = true → f.fcsOk = true →
    s.mapped f.station (s.logical port.val) = none → (s.port port.val).ctlCredit ≠ 0 →
    ∃ t, exec (.replyReceived w port f) s = .next t ∧ Only [.time, .ports] s t
    ∧ t.prt.ports = updAt s.prt.ports port.val (fun x =>
    { x with ctlCredit := x.ctlCredit - 1, unknown := tallyInc x.unknown })) ∧
  (∀ (w : When) (port : Fin 64) (f : ReplyFrame) (c : StationCfg) (s : State), s.portTakes port.val = true → f.fcsOk = true →
    s.mapped f.station (s.logical port.val) = some c → f.srcMac = c.mac →
    (s.taskGen f.task.val).maps f.task.val f.station = true →
    ((s.stream f.station f.task.val).sent = false ∨ f.epoch ≠ s.wvl.epoch ∨ f.side ≠ s.wvl.side ∨ f.ackSeq ≠ (s.stream
    f.station f.task.val).seq) → (s.port port.val).ctlCredit ≠ 0 → ∃ t, exec (.replyReceived w port f) s = .next t
    ∧ Only [.time, .ports] s t
    ∧ t.prt.ports = updAt s.prt.ports port.val (fun x => { x with ctlCredit := x.ctlCredit - 1, stale := tallyInc x.stale })) ∧
  (∀ (w : When) (port : Fin 64) (f : ReplyFrame) (c : StationCfg) (s : State), s.portTakes port.val = true → f.fcsOk = true →
    s.mapped f.station (s.logical port.val) = some c → f.srcMac = c.mac →
    (s.taskGen f.task.val).maps f.task.val f.station = true → (s.stream f.station f.task.val).sent = true →
    f.epoch = s.wvl.epoch → f.side = s.wvl.side → f.ackSeq = (s.stream f.station f.task.val).seq →
    (s.stream f.station f.task.val).answered = true →
    (s.isPrp port.val = false ∨ (s.stream f.station f.task.val).copies.contains port.val = true) →
    (s.port port.val).ctlCredit ≠ 0 → ∃ t, exec (.replyReceived w port f) s = .next t ∧ Only [.time, .ports] s t
    ∧ t.prt.ports = updAt s.prt.ports port.val (fun x => { x with ctlCredit := x.ctlCredit - 1, stale := tallyInc x.stale })) ∧
  (∀ (w : When) (port : Fin 64) (f : ReplyFrame) (s : State), s.portTakes port.val = true → f.fcsOk = true →
    s.mapped f.station (s.logical port.val) = none → (s.port port.val).ctlCredit = 0 →
    ∃ t, exec (.replyReceived w port f) s = .next t ∧ Only [.time, .ports] s t
    ∧ t.prt.ports = updAt s.prt.ports port.val (fun x => { x with discard := tallyInc x.discard })) ∧
  (∀ (w : When) (port : Fin 64) (f : ReplyFrame) (c : StationCfg) (k : TaskCfg) (s : State), s.portTakes port.val = true →
    f.fcsOk = true → s.mapped f.station (s.logical port.val) = some c → f.srcMac = c.mac →
    (s.taskGen f.task.val).maps f.task.val f.station = true → (s.stream f.station f.task.val).sent = true →
    f.epoch = s.wvl.epoch → f.side = s.wvl.side → f.ackSeq = (s.stream f.station f.task.val).seq →
    (s.stream f.station f.task.val).answered = false → f.lengthOk = true → f.inCount = s.replyInputs f.station f.task.val →
    f.inputs.length = f.inCount → (s.stream f.station f.task.val).seq = (s.stream f.station f.task.val).cycleSeq →
    (s.stream f.station f.task.val).skipped = false → (s.task f.task.val).frozen = false → (s.task f.task.val).state ≠ 1 →
    s.taskCfg f.task.val = some k →
    s.rxTime port.val f.stamp ≤ (s.stream f.station f.task.val).apply - k.period * ticksPerPeriod + nsTicks k.deadline →
    ∃ t, exec (.replyReceived w port f) s = .next t ∧ Only [.time, .stations] s t
    ∧ (t.stream f.station f.task.val).ack = .onTime ∧ (t.stream f.station f.task.val).reply = some f
    ∧ (t.stream f.station f.task.val).answered = true ∧ (t.stn f.station).valid = true
    ∧ (t.stn f.station).status = f.status % 64) ∧
  (∀ (w : When) (port : Fin 64) (f : ReplyFrame) (c : StationCfg) (k : TaskCfg) (s : State), s.portTakes port.val = true →
    f.fcsOk = true → s.mapped f.station (s.logical port.val) = some c → f.srcMac = c.mac →
    (s.taskGen f.task.val).maps f.task.val f.station = true → (s.stream f.station f.task.val).sent = true →
    f.epoch = s.wvl.epoch → f.side = s.wvl.side → f.ackSeq = (s.stream f.station f.task.val).seq →
    (s.stream f.station f.task.val).answered = false → f.lengthOk = true → f.inCount = s.replyInputs f.station f.task.val →
    f.inputs.length = f.inCount → (s.stream f.station f.task.val).seq = (s.stream f.station f.task.val).cycleSeq →
    s.isPrp port.val = false → s.taskCfg f.task.val = some k →
    (s.stream f.station f.task.val).apply - k.period * ticksPerPeriod + nsTicks k.deadline < s.rxTime port.val f.stamp →
    (s.port port.val).ctlCredit ≠ 0 → ∃ t, exec (.replyReceived w port f) s = .next t ∧ Only [.time, .ports, .stations] s t
    ∧ (t.stream f.station f.task.val).ack = .late
    ∧ (t.stream f.station f.task.val).reply = (s.stream f.station f.task.val).reply
    ∧ t.prt.ports = updAt s.prt.ports port.val (fun x => { x with ctlCredit := x.ctlCredit - 1, late := tallyInc x.late })) ∧
  (∀ (w : When) (port : Fin 64) (f : ReplyFrame) (c : StationCfg) (s : State), s.portTakes port.val = true → f.fcsOk = true →
    s.mapped f.station (s.logical port.val) = some c → f.srcMac ≠ c.mac → (s.port port.val).ctlCredit ≠ 0 →
    ∃ t, exec (.replyReceived w port f) s = .next t ∧ Only [.time, .ports] s t
    ∧ t.prt.ports = updAt s.prt.ports port.val (fun x =>
    { x with ctlCredit := x.ctlCredit - 1, unknown := tallyInc x.unknown })) ∧
  (∀ (w : When) (port : Fin 64) (f : ReplyFrame) (c : StationCfg) (s : State), s.portTakes port.val = true → f.fcsOk = true →
    s.mapped f.station (s.logical port.val) = some c → (s.taskGen f.task.val).maps f.task.val f.station = false →
    (s.port port.val).ctlCredit ≠ 0 → ∃ t, exec (.replyReceived w port f) s = .next t ∧ Only [.time, .ports] s t
    ∧ t.prt.ports = updAt s.prt.ports port.val (fun x =>
    { x with ctlCredit := x.ctlCredit - 1, unknown := tallyInc x.unknown })) ∧
  (∀ (w : When) (port : Fin 64) (f : ReplyFrame) (c : StationCfg) (s : State), s.portTakes port.val = true → f.fcsOk = true →
    s.mapped f.station (s.logical port.val) = some c → f.srcMac = c.mac →
    (s.taskGen f.task.val).maps f.task.val f.station = true → (s.stream f.station f.task.val).sent = true →
    f.epoch = s.wvl.epoch → f.side = s.wvl.side → f.ackSeq = (s.stream f.station f.task.val).seq →
    (s.stream f.station f.task.val).answered = false →
    (f.lengthOk = false ∨ f.inCount ≠ s.replyInputs f.station f.task.val ∨ f.inputs.length ≠ f.inCount) →
    ∃ t, exec (.replyReceived w port f) s = .next t ∧ Only [.time, .ports] s t
    ∧ t.prt.ports = updAt s.prt.ports port.val (fun x => { x with discard := tallyInc x.discard })) ∧
  (∀ (w : When) (port : Fin 64) (f : ReplyFrame) (c : StationCfg) (s : State), s.portTakes port.val = true → f.fcsOk = true →
    s.mapped f.station (s.logical port.val) = some c → f.srcMac = c.mac →
    (s.taskGen f.task.val).maps f.task.val f.station = true → (s.stream f.station f.task.val).sent = true →
    f.epoch = s.wvl.epoch → f.side = s.wvl.side → f.ackSeq = (s.stream f.station f.task.val).seq →
    (s.stream f.station f.task.val).answered = false → f.lengthOk = true → f.inCount = s.replyInputs f.station f.task.val →
    f.inputs.length = f.inCount → (s.stream f.station f.task.val).seq = (s.stream f.station f.task.val).cycleSeq →
    s.replyOnTime port.val f.station f.task.val f = false → (s.port port.val).ctlCredit = 0 →
    ∃ t, exec (.replyReceived w port f) s = .next t ∧ Only [.time, .ports] s t
    ∧ t.prt.ports = updAt s.prt.ports port.val (fun x => { x with discard := tallyInc x.discard }))

/-- A HELLO of a mapped station on the primary sets the time by which each of its streams owes a resync frame, two base periods
  after its arrival; on any other module, or as the second copy on a pair, it owes nothing. A resync frame goes out under a new
  sequence number where at least 250 µs remain, and the debt is gone either way. The model's own: the operands of the commands
  (log entry 1), when a command acts (log entry 2). (Rests on R112, R113.) -/
def Obligations.HelloAndResync : Prop :=
  (∀ (w : When) (port : Fin 64) (f : HelloFrame) (c : StationCfg) (task : Fin 16) (s : State), s.portTakes port.val = true →
    s.primary = true → s.mapped f.station (s.logical port.val) = some c → s.stationTasks f.station = [task.val] →
    (duplicate port.val f.rct (s.at w)).1 = false → (s.port port.val).ctlCredit ≠ 0 →
    ∃ t, exec (.helloReceived w port f) s = .next t ∧ Only [.time, .ports, .stations] s t
    ∧ (t.stream f.station task.val).resyncBy = some (s.rxTime port.val f.stamp + 2 * ticksPerPeriod)
    ∧ (t.stream f.station task.val).seq = (s.stream f.station task.val).seq) ∧
  (∀ (w : When) (port : Fin 64) (f : HelloFrame) (s : State), s.primary = false →
    ∃ t, exec (.helloReceived w port f) s = .next t ∧ Only [.time, .ports] s t) ∧
  (∀ (w : When) (port : Fin 64) (f : HelloFrame) (s : State), s.portTakes port.val = true →
    (duplicate port.val f.rct (s.at w)).1 = true → ∃ t, exec (.helloReceived w port f) s = .next t ∧ Only [.time] s t) ∧
  (∀ (w : When) (station : Fin 2048) (task : Fin 16) (by' : Nat) (c : StationCfg) (s : State), (s.stream station.val
    task.val).resyncBy = some by' → s.stationCfg station.val = some c → s.primary = true →
    (s.stream station.val task.val).sent = true → (s.at w).islandTime marketIsland ≤ by' →
    (s.at w).islandTime marketIsland + usTicks 250 ≤ (s.stream station.val task.val).apply →
    ∃ t, exec (.resyncSend w station task) s = .next t ∧ Only [.time, .events, .ports, .stations, .sessions, .host, .sent] s t
    ∧ (t.stream station.val task.val).resyncBy = none
    ∧ (t.stream station.val task.val).seq = (s.stream station.val task.val).nextSeq
    ∧ (t.stream station.val task.val).answered = false
    ∧ (t.stream station.val task.val).cycleSeq = (s.stream station.val task.val).cycleSeq) ∧
  (∀ (w : When) (station : Fin 2048) (task : Fin 16) (by' : Nat) (c : StationCfg) (s : State), (s.stream station.val
    task.val).resyncBy = some by' → s.stationCfg station.val = some c →
    (s.primary = false ∨ (s.stream station.val task.val).apply < (s.at w).islandTime marketIsland + usTicks 250) →
    ∃ t, exec (.resyncSend w station task) s = .next t ∧ Only [.time, .stations] s t
    ∧ (t.stream station.val task.val).resyncBy = none
    ∧ (t.stream station.val task.val).seq = (s.stream station.val task.val).seq) ∧
  (∀ (w : When) (port : Fin 64) (f : HelloFrame) (c : StationCfg) (task : Fin 16) (s : State), s.portTakes port.val = true →
    s.primary = true → s.mapped f.station (s.logical port.val) = some c → (s.stationTasks f.station).contains task.val = true →
    (duplicate port.val f.rct (s.at w)).1 = false → (s.port port.val).ctlCredit ≠ 0 →
    ∃ t, exec (.helloReceived w port f) s = .next t ∧ Only [.time, .ports, .stations] s t
    ∧ (t.stream f.station task.val).resyncBy = some (s.rxTime port.val f.stamp + 2 * ticksPerPeriod)
    ∧ (t.stream f.station task.val).seq = (s.stream f.station task.val).seq)

/-- A first fragment opens the window at its port; a repeat of a fragment held, and the second copy on a pair, changes nothing;
  a fragment out of its ranges (which the statement names), or in conflict with one held, ends and counts the window; the
  fragment that completes a window of a mapped station queues it for an engine in use, and a fragment of an ended window is
  dropped in silence; a window still incomplete 1 ms after its first fragment counts once and is gone. The model's own: the
  operands of the commands (log entry 1), when a command acts (log entry 2). (Rests on R103, R177.) -/
def Obligations.SurgeWindows : Prop :=
  (∀ (w : When) (port : Fin 64) (f : SurgeFrag) (s : State), s.portTakes port.val = true →
    (s.port (s.logical port.val)).partial? f.station f.windowId = none → s.logical port.val < s.prt.ports.length →
    fragOk f = true → 2 ≤ f.fragCount → (duplicate port.val f.rct (s.at w)).1 = false →
    ∃ t, exec (.surgeFragmentReceived w port f) s = .next t ∧ Only [.time, .ports] s t
    ∧ (t.port (s.logical port.val)).partial? f.station f.windowId = some
    { station := f.station, windowId := f.windowId, first := (s.at w).islandTime (portIsland (s.logical port.val)), frags := [f], closed := false }
    ∧ (t.port (s.logical port.val)).surgeDiscard = (s.port (s.logical port.val)).surgeDiscard) ∧
  (∀ (w : When) (port : Fin 64) (f : SurgeFrag) (s : State), s.portTakes port.val = true →
    (s.port (s.logical port.val)).partial? f.station f.windowId = none → s.logical port.val < s.prt.ports.length →
    fragOk f = false → (duplicate port.val f.rct (s.at w)).1 = false → ∃ t, exec (.surgeFragmentReceived w port f) s = .next t
    ∧ Only [.time, .ports] s t ∧ ((t.port (s.logical port.val)).partial? f.station f.windowId).map (·.closed) = some true
    ∧ (t.port (s.logical port.val)).surgeDiscard = tallyInc (s.port (s.logical port.val)).surgeDiscard) ∧
  (∀ (w : When) (port : Fin 64) (f : SurgeFrag) (y : PartialWin) (s : State), s.portTakes port.val = true →
    (s.port (s.logical port.val)).partial? f.station f.windowId = some y → (duplicate port.val f.rct (s.at w)).1 = false →
    y.closed = true → (s.at w).islandTime (portIsland (s.logical port.val)) < y.first + msTicks 1 →
    ∃ t, exec (.surgeFragmentReceived w port f) s = .next t ∧ Only [.time, .ports] s t
    ∧ (t.port (s.logical port.val)).partials = (s.port (s.logical port.val)).partials
    ∧ (t.port (s.logical port.val)).surgeDiscard = (s.port (s.logical port.val)).surgeDiscard) ∧
  (∀ (w : When) (port : Fin 64) (f : SurgeFrag) (y : PartialWin) (x : SurgeWindow) (s : State), s.portTakes port.val = true →
    (duplicate port.val f.rct (s.at w)).1 = false → (s.port (s.logical port.val)).partial? f.station f.windowId = some y →
    s.logical port.val < s.prt.ports.length → (s.at w).islandTime (portIsland (s.logical port.val)) < y.first + msTicks 1 →
    y.closed = false → fragOk f = true → y.frags.any (fragsConflict f) = false →
    y.frags.any (fun g => g.frag == f.frag) = false →
    assembleWindow (s.logical port.val) (y.frags ++ [f]) (s.rxTime port.val f.stamp) = some x → s.inUse 1 = true →
    (s.stationCfg f.station).isSome = true → s.wce.queue.length < 512 → ∃ t, exec (.surgeFragmentReceived w port f) s = .next t
    ∧ Only [.time, .ports, .surges] s t ∧ t.wce.queue = s.wce.queue ++ [x]
    ∧ ((t.port (s.logical port.val)).partial? f.station f.windowId).map (·.closed) = some true ∧ t.wce.closed = s.wce.closed) ∧
  (∀ (w : When) (port : Fin 64) (station windowId : Nat) (y : PartialWin) (s : State), (s.port (s.logical port.val)).partial?
    station windowId = some y → s.logical port.val < s.prt.ports.length →
    y.first + msTicks 1 ≤ (s.at w).islandTime (portIsland (s.logical port.val)) → y.closed = false →
    ∃ t, exec (.surgeWindowTimeout w port station windowId) s = .next t ∧ Only [.time, .ports] s t
    ∧ (t.port (s.logical port.val)).partial? station windowId = none
    ∧ (t.port (s.logical port.val)).surgeDiscard = tallyInc (s.port (s.logical port.val)).surgeDiscard) ∧
  (∀ (w : When) (port : Fin 64) (station windowId : Nat) (y : PartialWin) (s : State), (s.port (s.logical port.val)).partial?
    station windowId = some y → (s.at w).islandTime (portIsland (s.logical port.val)) < y.first + msTicks 1 →
    ∃ t, exec (.surgeWindowTimeout w port station windowId) s = .next t ∧ Only [.time] s t) ∧
  (∀ (w : When) (port : Fin 64) (f : SurgeFrag) (y : PartialWin) (s : State), s.portTakes port.val = true →
    (duplicate port.val f.rct (s.at w)).1 = false → (s.port (s.logical port.val)).partial? f.station f.windowId = some y →
    (s.at w).islandTime (portIsland (s.logical port.val)) < y.first + msTicks 1 → y.closed = false → fragOk f = true →
    y.frags.any (fragsConflict f) = false → y.frags.any (fun g => g.frag == f.frag) = true →
    ∃ t, exec (.surgeFragmentReceived w port f) s = .next t ∧ Only [.time, .ports] s t
    ∧ (t.port (s.logical port.val)).partials = (s.port (s.logical port.val)).partials
    ∧ (t.port (s.logical port.val)).surgeDiscard = (s.port (s.logical port.val)).surgeDiscard) ∧
  (∀ (w : When) (port : Fin 64) (f : SurgeFrag) (y : PartialWin) (s : State), s.portTakes port.val = true →
    (duplicate port.val f.rct (s.at w)).1 = false → (s.port (s.logical port.val)).partial? f.station f.windowId = some y →
    (s.at w).islandTime (portIsland (s.logical port.val)) < y.first + msTicks 1 → y.closed = false →
    s.logical port.val < s.prt.ports.length → fragOk f = true → y.frags.any (fragsConflict f) = true →
    ∃ t, exec (.surgeFragmentReceived w port f) s = .next t ∧ Only [.time, .ports] s t
    ∧ ((t.port (s.logical port.val)).partial? f.station f.windowId).map (·.closed) = some true
    ∧ (t.port (s.logical port.val)).surgeDiscard = tallyInc (s.port (s.logical port.val)).surgeDiscard) ∧
  (∀ (w : When) (port : Fin 64) (f : SurgeFrag) (y : PartialWin) (s : State), s.portTakes port.val = true →
    (duplicate port.val f.rct (s.at w)).1 = false → (s.port (s.logical port.val)).partial? f.station f.windowId = some y →
    (s.at w).islandTime (portIsland (s.logical port.val)) < y.first + msTicks 1 → y.closed = false →
    s.logical port.val < s.prt.ports.length → fragOk f = true → y.frags.any (fragsConflict f) = false →
    y.frags.any (fun g => g.frag == f.frag) = false →
    assembleWindow (s.logical port.val) (y.frags ++ [f]) (s.rxTime port.val f.stamp) = none →
    ∃ t, exec (.surgeFragmentReceived w port f) s = .next t ∧ Only [.time, .ports] s t
    ∧ (t.port (s.logical port.val)).partial? f.station f.windowId = some { y with frags := y.frags ++ [f] }
    ∧ (t.port (s.logical port.val)).surgeDiscard = (s.port (s.logical port.val)).surgeDiscard) ∧
  (∀ (w : When) (port : Fin 64) (f : SurgeFrag) (s : State), s.portTakes port.val = true →
    (duplicate port.val f.rct (s.at w)).1 = true → ∃ t, exec (.surgeFragmentReceived w port f) s = .next t ∧ Only [.time] s t) ∧
  (∀ f : SurgeFrag, fragOk f = true ↔ 1 ≤ f.fragCount ∧ f.fragCount ≤ 6 ∧ f.frag < f.fragCount ∧ f.phase ≤ 2 ∧ 1 ≤ f.count
    ∧ f.count ≤ 1024 ∧ 1 ≤ f.samples.length ∧ f.samples.length ≤ 512 ∧ f.first + f.samples.length ≤ f.count)

/-- A frame that matches no subscription is counted; one that disagrees with its subscription (revision, rate, number of
  samples or of channels) puts it into MISMATCH, counted, with its event; one that agrees is taken by it, no other subscription
  changing: a sample that has its place (the statement says which, by the second found from its arrival and count) is held with
  its values and flags, makes the subscription RUN and the frame count, and any other is discarded and counted (that one
  accepted sample makes a frame accepted is log entry 99); a simulated one that the subscription does not accept changes
  nothing; the second copy on a PRP pair changes nothing. A subscription without a sample for 4 ms is lost. A slot is emitted
  once module time has reached its instant plus the alignment latency, not before. The model's own: the operands of the
  commands (log entry 1), when a command acts (log entry 2), the record of what leaves the block (log entry 4). (Rests on R117,
  R121, R122, R124, R130.) -/
def Obligations.SampledValuesAreTakenAndEmitted : Prop :=
  (∀ (w : When) (port : Fin 64) (f : SvFrame) (s : State), s.portTakes port.val = true → s.cfg.loaded = true →
    s.svi.oldSubs = none → (duplicate port.val f.rct (s.at w)).1 = false →
    s.svSec.subs.findIdx? (·.matches (s.logical port.val) f) = none → ∃ t, exec (.svFrameReceived w port f) s = .next t
    ∧ Only [.time, .ports, .intake] s t ∧ t.svi.unsubscribed = tallyInc s.svi.unsubscribed ∧ t.svi.subs = s.svi.subs) ∧
  (∀ (w : When) (port : Fin 64) (f : SvFrame) (i : Nat) (s : State), s.portTakes port.val = true → s.cfg.loaded = true →
    s.svi.oldSubs = none → (duplicate port.val f.rct (s.at w)).1 = false → f.simulated = false →
    s.svSec.subs.findIdx? (·.matches (s.logical port.val) f) = some i → i < s.svi.subs.length →
    ∃ t, exec (.svFrameReceived w port f) s = .next t ∧ Only [.time, .events, .ports, .intake, .sessions, .host] s t
    ∧ t.svi.subs = putAt s.svi.subs i (takeFrame (s.svSec.subs.getD i {}) f (s.rxStamp port.val f.stamp) s.svi.lastSlot ((s.at
    w).islandTime phasorIsland) (s.svi.subs.getD i {})) ∧ t.svi.unsubscribed = s.svi.unsubscribed) ∧
  (∀ (w : When) (port : Fin 64) (f : SvFrame) (s : State), s.portTakes port.val = true →
    (duplicate port.val f.rct (s.at w)).1 = true → ∃ t, exec (.svFrameReceived w port f) s = .next t ∧ Only [.time] s t) ∧
  (∀ (w : When) (sub : Fin 512) (s : State), sub.val < s.svi.subs.length → (s.svi.subs.getD sub.val {}).state = 1 →
    (s.svi.subs.getD sub.val {}).lastAccept + msTicks 4 ≤ (s.at w).islandTime phasorIsland →
    ∃ t, exec (.subscriptionLost w sub) s = .next t ∧ Only [.time, .events, .intake, .sessions, .host] s t
    ∧ (t.svi.subs.getD sub.val {}).state = 2 ∧ t.svi.subs.length = s.svi.subs.length) ∧
  (∀ (w : When) (sub : Fin 512) (s : State), (s.at w).islandTime phasorIsland < (s.svi.subs.getD sub.val {}).lastAccept +
    msTicks 4 → ∃ t, exec (.subscriptionLost w sub) s = .next t ∧ Only [.time] s t) ∧
  (∀ (w : When) (s : State), s.cfg.loaded = true → s.cfg.next = none → s.svi.fenced = false →
    slotTime (s.at w).nextSlot + nsTicks (s.latencyOf (s.at w).nextSlot) ≤ (s.at w).islandTime phasorIsland →
    ∃ t, exec (.slotEmit w) s = .next t ∧ t.pending = s.pending ∧ t.svi.lastSlot = some (s.at w).nextSlot
    ∧ Out.slot (s.at w).nextSlot ∈ t.out ∧ t.seq.tasks = s.seq.tasks ∧ t.prt = s.prt) ∧
  (∀ (w : When) (s : State), (s.at w).islandTime phasorIsland < slotTime (s.at w).nextSlot + nsTicks (s.latencyOf (s.at
    w).nextSlot) → ∃ t, exec (.slotEmit w) s = .next t ∧ Only [.time] s t) ∧
  (∀ (w : When) (s : State), s.cfg.loaded = true → s.svi.fenced = false →
    slotTime (s.at w).nextSlot + nsTicks (s.latencyOf (s.at w).nextSlot) ≤ (s.at w).islandTime phasorIsland →
    ∃ t, exec (.slotEmit w) s = .next t ∧ t.pending = s.pending ∧ t.svi.lastSlot = some (s.at w).nextSlot
    ∧ Out.slot (s.at w).nextSlot ∈ t.out ∧ t.wvl = s.wvl ∧ t.kpr.cartridge = s.kpr.cartridge) ∧
  (∀ (w : When) (port : Fin 64) (f : SvFrame) (i : Nat) (s : State), s.portTakes port.val = true → s.cfg.loaded = true →
    f.simulated = false → (duplicate port.val f.rct (s.at w)).1 = false →
    s.svSec.subs.findIdx? (·.matches (s.logical port.val) f) = some i → i < s.svi.subs.length →
    ∃ t, exec (.svFrameReceived w port f) s = .next t ∧ t.pending = s.pending
    ∧ t.svi.subs = putAt s.svi.subs i (takeFrame (s.svSec.subs.getD i {}) f (s.rxStamp port.val f.stamp) s.svi.lastSlot ((s.at
    w).islandTime phasorIsland) (s.svi.subs.getD i {})) ∧ t.svi.lastSlot = s.svi.lastSlot) ∧
  (∀ (w : When) (port : Fin 64) (f : SvFrame) (i : Nat) (c : SubCfg) (x : SubState) (a : Asdu) (s : State), s.portTakes
    port.val = true → s.cfg.loaded = true → s.svi.oldSubs = none → (duplicate port.val f.rct (s.at w)).1 = false →
    s.svSec.subs.findIdx? (·.matches (s.logical port.val) f) = some i → c = s.svSec.subs.getD i {} → i < s.svi.subs.length →
    x = s.svi.subs.getD i {} → (f.simulated = false ∨ c.testAccept = true) → c.agrees f = false →
    ∃ t, exec (.svFrameReceived w port f) s = .next t ∧ Only [.time, .events, .ports, .intake, .sessions, .host] s t
    ∧ t.svi.subs = putAt s.svi.subs i { x with state := 3, mismatch := tallyInc x.mismatch } ∧ (x.state ≠ 3 →
    (t.evt.get .svi).testBit 0 = true)) ∧
  (∀ (w : When) (port : Fin 64) (f : SvFrame) (i : Nat) (c : SubCfg) (x : SubState) (a : Asdu) (s : State), s.portTakes
    port.val = true → s.cfg.loaded = true → s.svi.oldSubs = none → (duplicate port.val f.rct (s.at w)).1 = false →
    s.svSec.subs.findIdx? (·.matches (s.logical port.val) f) = some i → c = s.svSec.subs.getD i {} → i < s.svi.subs.length →
    x = s.svi.subs.getD i {} → (f.simulated = false ∨ c.testAccept = true) → c.agrees f = true → f.asdus = [a] →
    x.fits c (s.rxStamp port.val f.stamp) s.svi.lastSlot a = true → ∃ t, exec (.svFrameReceived w port f) s = .next t
    ∧ Only [.time, .events, .ports, .intake, .sessions, .host] s t
    ∧ t.svi.subs = putAt s.svi.subs i
    { x with state := 1, frames := tallyInc x.frames, synch := f.smpSynch, lastAccept := (s.at w).islandTime phasorIsland, rows := x.rows ++ [{ idx := c.index (s.rxStamp port.val f.stamp) a, chans := a.values.map (takeChannel c f.smpSynch) }] }
    ∧ (x.state ≠ 1 → (t.evt.get .svi).testBit 0 = true)) ∧
  (∀ (w : When) (port : Fin 64) (f : SvFrame) (i : Nat) (c : SubCfg) (x : SubState) (a : Asdu) (s : State), s.portTakes
    port.val = true → s.cfg.loaded = true → s.svi.oldSubs = none → (duplicate port.val f.rct (s.at w)).1 = false →
    s.svSec.subs.findIdx? (·.matches (s.logical port.val) f) = some i → c = s.svSec.subs.getD i {} → i < s.svi.subs.length →
    x = s.svi.subs.getD i {} → (f.simulated = false ∨ c.testAccept = true) → c.agrees f = true → f.asdus = [a] →
    x.fits c (s.rxStamp port.val f.stamp) s.svi.lastSlot a = false → ∃ t, exec (.svFrameReceived w port f) s = .next t
    ∧ Only [.time, .events, .ports, .intake, .sessions, .host] s t
    ∧ t.svi.subs = putAt s.svi.subs i { x with state := (if x.state = 3 then 1 else x.state), discard := tallyInc x.discard }) ∧
  (∀ (w : When) (port : Fin 64) (f : SvFrame) (i : Nat) (s : State), s.portTakes port.val = true → s.cfg.loaded = true →
    s.svi.oldSubs = none → (duplicate port.val f.rct (s.at w)).1 = false →
    s.svSec.subs.findIdx? (·.matches (s.logical port.val) f) = some i → f.simulated = true →
    (s.svSec.subs.getD i {}).testAccept = false → ∃ t, exec (.svFrameReceived w port f) s = .next t ∧ Only [.time, .ports] s t) ∧
  (∀ (c : SubCfg) (f : SvFrame), c.agrees f = true ↔ c.confRev = f.confRev ∧ f.asdus.length = c.noAsdu
    ∧ (∀ a ∈ f.asdus, a.values.length = c.chCount) ∧ (f.rate = none ∨ f.rate = some (svRate c.rate))) ∧
  (∀ (x : SubState) (c : SubCfg) (arrival : Int) (last : Option Nat) (a : Asdu), x.fits c arrival last a = true ↔ -((usTicks 10
    * svRate c.rate : Nat) : Int) ≤ (sampleSecond arrival (svRate c.rate) a.smpCnt).2
    ∧ (sampleSecond arrival (svRate c.rate) a.smpCnt).2 ≤ (nsTicks c.maxDelay * svRate c.rate : Nat)
    ∧ 0 ≤ (sampleSecond arrival (svRate c.rate) a.smpCnt).1 ∧ a.smpCnt < svRate c.rate
    ∧ (∀ r ∈ x.rows, r.idx ≠ c.index arrival a) ∧ (∀ g, last = some g → g * svRate c.rate < c.index arrival a * 14400)
    ∧ x.notBefore * svRate c.rate ≤ c.index arrival a * ticksPerSec) ∧
  (∀ (arrival : Int) (rate cnt : Nat), 0 < rate →
    let r := sampleSecond arrival rate cnt; arrival * rate = r.1 * (rate * ticksPerSec : Nat) + (cnt * ticksPerSec : Nat) + r.2
    ∧ -((rate * ticksPerSec : Nat) : Int) ≤ 2 * r.2 ∧ 2 * r.2 < (rate * ticksPerSec : Nat))

/-- A freeze request that the archive has room for (counted over the window's own slots, a segment frozen already counting
  once) takes the lowest free window for the slots from T less PRE, or the oldest row, to T plus POST, and answers its number
  with 0, or with 1, source 146 and CLIPPED exactly where the oldest row is later than its start; a T of zero is now. A request
  that takes none is answered with 6 out of range, 5 beyond 60 s, 4 where every slot is gone, 2 without a free window, 3
  without room, in that order (log entry 22). A release empties the window, and the segments that no other window holds become
  live. Others than the firmware do not reach SVI_FRZ_CTRL. The model's own: the operands of the commands (log entry 1), when a
  command acts (log entry 2), the record of what leaves the block (log entry 4). (Rests on R131, R132, R133, R354.) -/
def Obligations.ArchiveWindows : Prop :=
  (∀ (w : When) (tt first last i : Nat) (s : State), s.svi.tNs < 1000000000 → s.svi.pre ≤ 60000 → s.svi.post ≤ 60000 →
    s.svSec.archSegments ≠ 0 → s.svSec.channels ≠ 0 → tt = (s.at w).freezeTime (s.svi.tLo + s.svi.tHi * 2 ^ 32) s.svi.tNs 0 →
    first = (freezeSlots tt s.svi.pre s.svi.post).1 → last = (freezeSlots tt s.svi.pre s.svi.post).2 →
    tt ≤ (s.at w).islandTime phasorIsland + 60 * ticksPerSec → (s.at w).oldestRow ≤ last →
    s.svi.wins.findIdx? (·.state == 0) = some i → 2 * s.frozenWith (max first (s.at w).oldestRow) last ≤ s.svSec.archSegments →
    (s.at w).grants .firmware 0x30040 = true → ∃ t, exec (.sviFrzReq w .firmware) s = .next t
    ∧ Only [.time, .events, .archive, .ledger, .keeper, .sessions, .host] s t ∧ (t.svi.wins.getD i {}).state ≠ 0
    ∧ (t.svi.wins.getD i {}).host = false ∧ (t.svi.wins.getD i {}).first = max first (s.at w).oldestRow
    ∧ t.svi.frzResult = i * 256 + (if first < (s.at w).oldestRow then 1 else 0) ∧ (first < (s.at w).oldestRow →
    (t.svi.wins.getD i {}).clipped = true ∧ (t.evt.get .svi).testBit 2 = true)) ∧
  (∀ (w : When) (tt first last : Nat) (s : State), s.svi.tNs < 1000000000 → s.svi.pre ≤ 60000 → s.svi.post ≤ 60000 →
    s.svSec.archSegments ≠ 0 → s.svSec.channels ≠ 0 → tt = (s.at w).freezeTime (s.svi.tLo + s.svi.tHi * 2 ^ 32) s.svi.tNs 0 →
    first = (freezeSlots tt s.svi.pre s.svi.post).1 → last = (freezeSlots tt s.svi.pre s.svi.post).2 →
    (s.at w).islandTime phasorIsland + 60 * ticksPerSec < tt → (s.at w).grants .firmware 0x30040 = true →
    ∃ t, exec (.sviFrzReq w .firmware) s = .next t ∧ Only [.time, .events, .archive, .ledger, .keeper, .sessions, .host] s t
    ∧ t.svi.frzResult = 5 ∧ t.svi.wins = s.svi.wins ∧ t.svi.segs = s.svi.segs ∧ (t.evt.get .svi).testBit 2 = true) ∧
  (∀ (w : When) (tt first last : Nat) (s : State), s.svi.tNs < 1000000000 → s.svi.pre ≤ 60000 → s.svi.post ≤ 60000 →
    s.svSec.archSegments ≠ 0 → s.svSec.channels ≠ 0 → tt = (s.at w).freezeTime (s.svi.tLo + s.svi.tHi * 2 ^ 32) s.svi.tNs 0 →
    first = (freezeSlots tt s.svi.pre s.svi.post).1 → last = (freezeSlots tt s.svi.pre s.svi.post).2 →
    tt ≤ (s.at w).islandTime phasorIsland + 60 * ticksPerSec → last < (s.at w).oldestRow →
    (s.at w).grants .firmware 0x30040 = true → ∃ t, exec (.sviFrzReq w .firmware) s = .next t
    ∧ Only [.time, .events, .archive, .ledger, .keeper, .sessions, .host] s t ∧ t.svi.frzResult = 4 ∧ t.svi.wins = s.svi.wins
    ∧ t.svi.segs = s.svi.segs ∧ (t.evt.get .svi).testBit 2 = true) ∧
  (∀ (w : When) (tt first last : Nat) (s : State), s.svi.tNs < 1000000000 → s.svi.pre ≤ 60000 → s.svi.post ≤ 60000 →
    s.svSec.archSegments ≠ 0 → s.svSec.channels ≠ 0 → tt = (s.at w).freezeTime (s.svi.tLo + s.svi.tHi * 2 ^ 32) s.svi.tNs 0 →
    first = (freezeSlots tt s.svi.pre s.svi.post).1 → last = (freezeSlots tt s.svi.pre s.svi.post).2 →
    tt ≤ (s.at w).islandTime phasorIsland + 60 * ticksPerSec → (s.at w).oldestRow ≤ last →
    s.svi.wins.findIdx? (·.state == 0) = none → (s.at w).grants .firmware 0x30040 = true →
    ∃ t, exec (.sviFrzReq w .firmware) s = .next t ∧ Only [.time, .events, .archive, .ledger, .keeper, .sessions, .host] s t
    ∧ t.svi.frzResult = 2 ∧ t.svi.wins = s.svi.wins ∧ t.svi.segs = s.svi.segs ∧ (t.evt.get .svi).testBit 2 = true) ∧
  (∀ (w : When) (tt first last i : Nat) (s : State), s.svi.tNs < 1000000000 → s.svi.pre ≤ 60000 → s.svi.post ≤ 60000 →
    s.svSec.archSegments ≠ 0 → s.svSec.channels ≠ 0 → tt = (s.at w).freezeTime (s.svi.tLo + s.svi.tHi * 2 ^ 32) s.svi.tNs 0 →
    first = (freezeSlots tt s.svi.pre s.svi.post).1 → last = (freezeSlots tt s.svi.pre s.svi.post).2 →
    tt ≤ (s.at w).islandTime phasorIsland + 60 * ticksPerSec → (s.at w).oldestRow ≤ last →
    s.svi.wins.findIdx? (·.state == 0) = some i → s.svSec.archSegments < 2 * s.frozenWith (max first (s.at w).oldestRow) last →
    (s.at w).grants .firmware 0x30040 = true → ∃ t, exec (.sviFrzReq w .firmware) s = .next t
    ∧ Only [.time, .events, .archive, .ledger, .keeper, .sessions, .host] s t ∧ t.svi.frzResult = 3 ∧ t.svi.wins = s.svi.wins
    ∧ t.svi.segs = s.svi.segs ∧ (t.evt.get .svi).testBit 2 = true) ∧
  (∀ (w : When) (s : State), (1000000000 ≤ s.svi.tNs ∨ 60000 < s.svi.pre ∨ 60000 < s.svi.post ∨ s.svSec.archSegments = 0 ∨
    s.svSec.channels = 0) → (s.at w).grants .firmware 0x30040 = true → ∃ t, exec (.sviFrzReq w .firmware) s = .next t
    ∧ Only [.time, .events, .archive, .ledger, .keeper, .sessions, .host] s t ∧ t.svi.frzResult = 6 ∧ t.svi.wins = s.svi.wins
    ∧ t.svi.segs = s.svi.segs) ∧
  (∀ (w : When) (who : Agent) (s : State), isFw who = false → (s.at w).grants who 0x30040 = true →
    ∃ t, exec (.sviFrzReq w who) s = .next t ∧ Only [.time] s t) ∧
  (∀ (w : When) (win : Fin 4) (s : State), (s.at w).grants .firmware 0x30040 = true →
    ∃ t, exec (.sviFrzRelease w .firmware win) s = .next t ∧ Only [.time, .archive] s t
    ∧ t.svi = (releaseWindow win.val (s.at w)).svi ∧ (t.svi.wins.getD win.val {}) = {}) ∧
  (∀ (w : When) (ses : Fin 8) (win : Nat) (s : State), s.serves ses 2 = true → win < 4 →
    ∃ t, exec (.archiveRelease w ses win) s = .next t ∧ Only [.time, .archive, .sessions, .sent] s t
    ∧ t.svi = (releaseWindow win (s.at w)).svi ∧ t.out = shpOut w 8 ses.val 0 0 [win] :: s.out) ∧
  (∀ (w : When) (ses : Fin 8) (pre post tSec tt first last i : Nat) (f : SubSec) (s : State), s.serves ses 2 = true →
    f.ns < 1000000000 → pre ≤ 60000 → post ≤ 60000 → s.svSec.archSegments ≠ 0 → s.svSec.channels ≠ 0 →
    tt = (s.at w).freezeTime tSec f.ns f.frac → first = (freezeSlots tt pre post).1 → last = (freezeSlots tt pre post).2 →
    tt ≤ (s.at w).islandTime phasorIsland + 60 * ticksPerSec → (s.at w).oldestRow ≤ last →
    s.svi.wins.findIdx? (·.state == 0) = some i → 2 * s.frozenWith (max first (s.at w).oldestRow) last ≤ s.svSec.archSegments →
    ∃ t, exec (.archiveFreeze w ses pre post tSec f) s = .next t
    ∧ Only [.time, .events, .archive, .ledger, .keeper, .sessions, .host, .sent] s t ∧ (t.svi.wins.getD i {}).state ≠ 0
    ∧ (t.svi.wins.getD i {}).host = true ∧ (t.svi.wins.getD i {}).first = max first (s.at w).oldestRow
    ∧ t.out = shpOut w 8 ses.val 0 (if first < (s.at w).oldestRow then 1 else 0) [i] :: s.out ∧ (first < (s.at w).oldestRow →
    (t.svi.wins.getD i {}).clipped = true)) ∧
  (∀ (w : When) (ses : Fin 8) (pre post tSec tt first last i : Nat) (f : SubSec) (s : State), s.serves ses 2 = true →
    f.ns < 1000000000 → pre ≤ 60000 → post ≤ 60000 → s.svSec.archSegments ≠ 0 → s.svSec.channels ≠ 0 →
    tt = (s.at w).freezeTime tSec f.ns f.frac → first = (freezeSlots tt pre post).1 → last = (freezeSlots tt pre post).2 →
    tt ≤ (s.at w).islandTime phasorIsland + 60 * ticksPerSec → (s.at w).oldestRow ≤ last →
    s.svi.wins.findIdx? (·.state == 0) = some i → s.svSec.archSegments < 2 * s.frozenWith (max first (s.at w).oldestRow) last →
    ∃ t, exec (.archiveFreeze w ses pre post tSec f) s = .next t
    ∧ Only [.time, .events, .archive, .ledger, .keeper, .sessions, .host, .sent] s t
    ∧ t.out = shpOut w 8 ses.val 8 3 [0] :: s.out ∧ t.svi.wins = s.svi.wins ∧ t.svi.segs = s.svi.segs) ∧
  (∀ (w : When) (ses : Fin 8) (pre post tSec : Nat) (f : SubSec) (s : State), s.serves ses 2 = true →
    (1000000000 ≤ f.ns ∨ 60000 < pre ∨ 60000 < post ∨ s.svSec.archSegments = 0 ∨ s.svSec.channels = 0) →
    ∃ t, exec (.archiveFreeze w ses pre post tSec f) s = .next t
    ∧ Only [.time, .events, .archive, .ledger, .keeper, .sessions, .host, .sent] s t
    ∧ t.out = shpOut w 8 ses.val 8 6 [0] :: s.out ∧ t.svi.wins = s.svi.wins ∧ t.svi.segs = s.svi.segs) ∧
  (∀ (w : When) (ses : Fin 8) (pre post tSec : Nat) (f : SubSec) (x : Session) (s : State), s.hif.sessions.getD ses.val none =
    some x → x.role = 1 → x.helloDone = true → ∃ t, exec (.archiveFreeze w ses pre post tSec f) s = .next t
    ∧ Only [.time, .sessions, .host, .sent] s t ∧ t.out = shpOut w 8 ses.val 3 0 [] :: s.out
    ∧ t.hif.roleRefused = tallyInc s.hif.roleRefused)

/-- ARCHIVE_READ of rows that a frozen segment holds, or of memory that identity 9 may read, and LEDGER_READ within a snapshot
  start a bulk reply; out of range it is answered with RANGE, of a segment that is not frozen with PARTIAL's code 8, without a
  readable keeper with KEEPER. A bulk reply ends with status 13 once the stall has been withheld or exhausted for 1 s on end
  while it waited. The model's own: the operands of the commands (log entry 1), when a command acts (log entry 2), the record
  of what leaves the block (log entry 4). (Rests on R133, R320, R333, R354, R356.) -/
def Obligations.BulkReads : Prop :=
  (∀ (w : When) (ses : Fin 8) (r : RowsReq) (faults : List (Nat × MemFault)) (s : State), s.serves ses 1 = true →
    (65528 < 4 * r.rows * r.chCount ∨ 192 ≤ r.segment) → ∃ t, exec (.archiveReadRows w ses ⟨r, faults⟩) s = .next t
    ∧ Only [.time, .sessions, .sent] s t ∧ t.out = shpOut w 9 ses.val 9 0 [] :: s.out) ∧
  (∀ (w : When) (ses : Fin 8) (r : RowsReq) (faults : List (Nat × MemFault)) (s : State), s.serves ses 1 = true →
    4 * r.rows * r.chCount ≤ 65528 → r.segment < 192 →
    ((s.seg r.segment).state ≠ 3 ∨ (s.seg r.segment).rows < r.rowFirst + r.rows) →
    ∃ t, exec (.archiveReadRows w ses ⟨r, faults⟩) s = .next t ∧ Only [.time, .sessions, .sent] s t
    ∧ t.out = shpOut w 9 ses.val 8 0 [] :: s.out) ∧
  (∀ (w : When) (ses : Fin 8) (r : RowsReq) (faults : List (Nat × MemFault)) (s : State), s.serves ses 1 = true →
    4 * r.rows * r.chCount ≤ 65528 → r.segment < 192 → (s.seg r.segment).state = 3 →
    r.rowFirst + r.rows ≤ (s.seg r.segment).rows → r.chFirst + r.chCount ≤ (s.seg r.segment).channels →
    ∃ t, exec (.archiveReadRows w ses ⟨r, faults⟩) s = .next t
    ∧ Only [.time, .events, .budgets, .memctl, .wards, .faults, .ledger, .keeper, .sessions, .host, .sent] s t ∧ t.svi = s.svi
    ∧ t.mem.mem = s.mem.mem ∧ t.hif.sessions.length = s.hif.sessions.length) ∧
  (∀ (w : When) (ses : Fin 8) (r : RowsReq) (faults : List (Nat × MemFault)) (s : State), s.serves ses 1 = true → 0 < r.rows →
    0 < r.chCount → 4 * r.rows * r.chCount ≤ 65528 → r.segment < 192 → (s.seg r.segment).state = 3 →
    r.rowFirst + r.rows ≤ (s.seg r.segment).rows → r.chFirst + r.chCount ≤ (s.seg r.segment).channels → faults = [] →
    (s.at w).bulkGranted (rowReads (s.rowAddr r) (4 * (s.seg r.segment).channels) r.chCount r.rows) = true →
    s.mem.mem.errs = [] →
    (rowReads (s.rowAddr r) (4 * (s.seg r.segment).channels) r.chCount r.rows).all (fun p => (s.mem.mem.readBytes p.1
    p.2).isSome) = true → s.bulks ses = [] → s.slotOpen 25 = true →
    4 * r.chCount * r.rows ≤ (s.bgt.slots.getD 25 {}).budget - (s.bgt.slots.getD 25 {}).spent →
    ∃ t, exec (.archiveReadRows w ses ⟨r, faults⟩) s = .next t ∧ Only [.time, .budgets, .sessions, .sent] s t
    ∧ t.out = shpOut w 9 ses.val 0 0 (r.rows :: 0 :: wordsOf ((rowReads (s.rowAddr r) (4 * (s.seg r.segment).channels)
    r.chCount r.rows).flatMap fun p => (s.mem.mem.readBytes p.1 p.2).getD [])) :: s.out) ∧
  (∀ (w : When) (ses : Fin 8) (addr len64 : Nat) (faults : List (Nat × MemFault)) (s : State), s.serves ses 1 = true →
    (len64 < 1 ∨ 1023 < len64) → ∃ t, exec (.archiveReadMemory w ses addr len64 faults) s = .next t
    ∧ Only [.time, .sessions, .sent] s t ∧ t.out = shpOut w 9 ses.val 9 0 [] :: s.out) ∧
  (∀ (w : When) (ses : Fin 8) (addr len64 : Nat) (s : State), s.serves ses 1 = true → 1 ≤ len64 → len64 ≤ 1023 →
    (s.at w).bulkGranted (linePieces addr (64 * len64)) = true → s.mem.mem.errs = [] →
    (linePieces addr (64 * len64)).all (fun p => (s.mem.mem.readBytes p.1 p.2).isSome) = true → s.bulks ses = [] →
    s.slotOpen 25 = true → 64 * len64 ≤ (s.bgt.slots.getD 25 {}).budget - (s.bgt.slots.getD 25 {}).spent →
    ∃ t, exec (.archiveReadMemory w ses addr len64 []) s = .next t ∧ Only [.time, .budgets, .sessions, .sent] s t
    ∧ t.out = shpOut w 9 ses.val 0 0 (len64 :: 0 :: wordsOf ((linePieces addr (64 * len64)).flatMap fun p =>
    (s.mem.mem.readBytes p.1 p.2).getD [])) :: s.out ∧ t.mem.mem = s.mem.mem) ∧
  (∀ (w : When) (ses : Fin 8) (first count : Nat) (s : State), s.serves ses 1 = true → s.keeperReadable = false →
    ∃ t, exec (.ledgerRead w ses first count) s = .next t ∧ Only [.time, .sessions, .sent] s t
    ∧ t.out = shpOut w 7 ses.val 10 0 [] :: s.out) ∧
  (∀ (w : When) (ses : Fin 8) (first count : Nat) (x : Session) (s : State), s.hif.sessions.getD ses.val none = some x →
    s.serves ses 1 = true → s.keeperReadable = true → 1 ≤ count → count ≤ 1000 → x.hasSnap = true → first ≤ x.snapHigh →
    s.slotOpen 25 = false → ∃ t, exec (.ledgerRead w ses first count) s = .next t ∧ Only [.time, .sessions] s t
    ∧ t.hif.sessions.length = s.hif.sessions.length ∧ (t.bulks ses).length = x.bulks.length + 1) ∧
  (∀ (w : When) (ses : Fin 8) (b : Bulk) (rest : List Bulk) (r : HeldReply) (shut : Nat) (s : State), s.bulks ses = b :: rest →
    r.waits = some 0 → (s.hif.sessions.getD ses.val none).map (·.replies) = some [r] → s.bgt.bulkShut = some shut →
    max shut b.since + aonSec 1 ≤ max s.aon w.a →
    (s.hif.sessions.getD ses.val none).map (fun x => s.pubFirst x.port) = some false →
    ∃ t, exec (.bulkReadWithheld w ses) s = .next t ∧ Only [.time, .sessions, .sent] s t
    ∧ t.out = shpOut { w with tag := r.tag } r.ty ses.val 13 0 b.payload :: s.out ∧ (t.bulks ses).length = rest.length) ∧
  (∀ (w : When) (ses : Fin 8) (b : Bulk) (rest : List Bulk) (s : State), s.bulks ses = b :: rest →
    (s.bgt.bulkShut = none ∨ max s.aon w.a < b.since + aonSec 1) → ∃ t, exec (.bulkReadWithheld w ses) s = .next t
    ∧ Only [.time] s t) ∧
  (∀ (w : When) (ses : Fin 8) (first count : Nat) (x : Session) (s : State), s.hif.sessions.getD ses.val none = some x →
    s.serves ses 1 = true → s.keeperReadable = true → 1 ≤ count → count ≤ 1000 → x.hasSnap = true → first ≤ x.snapHigh →
    x.bulks = [] → s.slotOpen 25 = true →
    64 * min count (x.snapHigh + 1 - first) ≤ (s.bgt.slots.getD 25 {}).budget - (s.bgt.slots.getD 25 {}).spent →
    ∃ t, exec (.ledgerRead w ses first count) s = .next t ∧ t.pending = s.pending ∧ (t.bulks ses) = []
    ∧ t.kpr.cartridge = s.kpr.cartridge ∧ ((t.out.head?.bind Out.shpReply).map fun o => (o.1, o.2.1)) = some (ses.val, 0)) ∧
  (∀ (w : When) (ses : Fin 8) (addr st : Nat) (s : State), s.serves ses 1 = true → addr % 64 = 0 →
    (checkAccess 9 0 addr 64 false (s.at w)).1 = some st → s.bulks ses = [] → s.slotOpen 25 = true →
    64 ≤ (s.bgt.slots.getD 25 {}).budget - (s.bgt.slots.getD 25 {}).spent →
    ∃ t, exec (.archiveReadMemory w ses addr 1 []) s = .next t ∧ t.pending = s.pending ∧ shpOut w 9 ses.val st 0 [0, 0] ∈ t.out
    ∧ t.mem.mem = s.mem.mem ∧ t.svi = s.svi)

/-- A queued data frame of a stream that publishes leaves at the host port within that port's publication stall, to its TCP
  connection or by UDP to the stream's destination and port, is charged to it and counted; one without a link-layer destination
  is dropped and counted; that of a stream that no longer publishes leaves the queue unsent; one that cannot be read is dropped
  and counted instead. A stream takes at most two connections, on a port it names; any other attempt is reset. A close removes
  the connection. The model's own: the operands of the commands (log entry 1), the record of what leaves the block (log entry
  4). (Rests on R9, R28, R159, R160, R164, R167.) -/
def Obligations.PublicationAndConnections : Prop :=
  (∀ (w : When) (host : Fin 2) (x : PubFrame) (peer : PubTo) (s : State), s.phe.queue.find? (·.host == host.val) = some x →
    s.phe.fenced = false → s.slotOpen (17 + host.val) = true → s.hif.links.getD host.val false = true →
    s.publishes (s.pheSec.streams.getD x.stream {}) = true →
    s.pubTo host.val (s.pheSec.streams.getD x.stream {}) x.dest = some peer → s.hif.egress = [] →
    ∃ t, exec (.publicationFrameSend w host .none) s = .next t
    ∧ Only [.time, .phasors, .streams, .budgets, .sessions, .sent] s t ∧ t.phe.queue = popFrame host.val s.phe.queue
    ∧ Out.pub host.val x.stream peer x.bytes ∈ t.out ∧ (s.hif.sessions.all (·.isNone) = true →
    t.out = .pub host.val x.stream peer x.bytes :: s.out)
    ∧ t.phe.streams = updAt s.phe.streams x.stream (fun y => { y with frames := tallyInc y.frames })
    ∧ t.bgt.slots = updAt s.bgt.slots (17 + host.val) (·.charge x.bytes.length) ∧ t.phe.store = s.phe.store) ∧
  (∀ (w : When) (host : Fin 2) (x : PubFrame) (s : State), s.phe.queue.find? (·.host == host.val) = some x →
    s.phe.fenced = false → s.slotOpen (17 + host.val) = true → s.hif.links.getD host.val false = true →
    s.publishes (s.pheSec.streams.getD x.stream {}) = false → s.hif.egress = [] →
    ∃ t, exec (.publicationFrameSend w host .none) s = .next t ∧ Only [.time, .phasors, .streams, .sessions, .sent] s t
    ∧ t.phe.queue = popFrame host.val s.phe.queue ∧ (s.hif.sessions.all (·.isNone) = true → t.out = s.out)
    ∧ t.phe.streams = s.phe.streams ∧ t.phe.store = s.phe.store) ∧
  (∀ (w : When) (host : Fin 2) (x : PubFrame) (s : State), s.phe.queue.find? (·.host == host.val) = some x →
    s.phe.fenced = false → s.slotOpen (17 + host.val) = true → s.hif.links.getD host.val false = true →
    ∃ t, exec (.publicationFrameSend w host .uncorrectable) s = .next t
    ∧ Only [.time, .events, .phasors, .streams, .memctl, .faults, .sessions, .host, .sent] s t
    ∧ t.phe.queue = popFrame host.val s.phe.queue
    ∧ t.phe.streams = updAt s.phe.streams x.stream (fun y => { y with dropped := tallyInc y.dropped })
    ∧ t.mem.ueLight = tallyInc s.mem.ueLight ∧ t.mem.mem = s.mem.mem) ∧
  (∀ (w : When) (host : Fin 2) (f : MemFault) (s : State), s.phe.queue.find? (·.host == host.val) = none →
    ∃ t, exec (.publicationFrameSend w host f) s = .next t ∧ Only [.time] s t) ∧
  (∀ (w : When) (host : Fin 2) (stream : Fin 64) (conn : Nat) (x : StreamCfg) (s : State), s.pheSec.streams[stream.val]? = some
    x → s.inUse 0 = true → x.host.testBit host.val = true → x.mode ≠ 1 → stream.val < s.phe.streams.length →
    (s.phe.streams.getD stream.val {}).conns.length < 2 →
    (s.phe.streams.getD stream.val {}).conns.any (·.conn == conn) = false →
    ∃ t, exec (.c37TcpConnect w host stream conn) s = .next t ∧ Only [.time, .events, .streams, .sessions, .host] s t
    ∧ (t.phe.streams.getD stream.val {}).conns = (s.phe.streams.getD stream.val {}).conns ++
    [{ conn := conn, host := host.val, on := false }]
    ∧ (t.phe.streams.getD stream.val {}).udpOn = (s.phe.streams.getD stream.val {}).udpOn) ∧
  (∀ (w : When) (host : Fin 2) (stream : Fin 64) (conn : Nat) (s : State), 2 ≤ (s.phe.streams.getD stream.val {}).conns.length →
    ∃ t, exec (.c37TcpConnect w host stream conn) s = .next t ∧ Only [.time, .sent] s t ∧ t.out = .tcpReset host.val :: s.out) ∧
  (∀ (w : When) (stream : Fin 64) (conn : Nat) (s : State), stream.val < s.phe.streams.length →
    (s.phe.streams.getD stream.val {}).conns.any (·.conn == conn) = true → ∃ t, exec (.c37TcpClose w stream conn) s = .next t
    ∧ Only [.time, .events, .streams, .sessions, .host] s t
    ∧ (t.phe.streams.getD stream.val {}).conns = (s.phe.streams.getD stream.val {}).conns.filter (·.conn != conn)) ∧
  (∀ (w : When) (host : Fin 2) (x : PubFrame) (peer : PubTo) (dev : Fin 10) (bits : Nat) (s : State), s.phe.queue.find? (·.host
    == host.val) = some x → s.phe.fenced = false → s.slotOpen (17 + host.val) = true → s.hif.links.getD host.val false = true →
    s.publishes (s.pheSec.streams.getD x.stream {}) = true →
    s.pubTo host.val (s.pheSec.streams.getD x.stream {}) x.dest = some peer → s.hif.egress = [] →
    ∃ t, exec (.publicationFrameSend w host (.corrected dev bits)) s = .next t ∧ t.pending = s.pending
    ∧ t.phe.queue = popFrame host.val s.phe.queue ∧ Out.pub host.val x.stream peer x.bytes ∈ t.out
    ∧ t.phe.streams = updAt s.phe.streams x.stream (fun y => { y with frames := tallyInc y.frames })) ∧
  (∀ (w : When) (host : Fin 2) (x : PubFrame) (s : State), s.phe.queue.find? (·.host == host.val) = some x →
    s.phe.fenced = false → s.slotOpen (17 + host.val) = true → s.hif.links.getD host.val false = true →
    s.publishes (s.pheSec.streams.getD x.stream {}) = true →
    s.pubTo host.val (s.pheSec.streams.getD x.stream {}) x.dest = none → s.hif.egress = [] →
    ∃ t, exec (.publicationFrameSend w host .none) s = .next t
    ∧ Only [.time, .events, .phasors, .streams, .sessions, .host, .sent] s t ∧ t.phe.queue = popFrame host.val s.phe.queue
    ∧ t.phe.streams = updAt s.phe.streams x.stream (fun y => { y with dropped := tallyInc y.dropped })
    ∧ (s.hif.sessions.all (·.isNone) = true → t.out = s.out)) ∧
  (∀ (s : State) (host : Nat) (x : StreamCfg) (n : Nat), s.pubTo host x (some n) = some { conn := some n, port := x.tcpPort }) ∧
  (∀ (s : State) (host : Nat) (x : StreamCfg), s.pubTo host x none = (s.linkDest host x.udpDest).map (fun m =>
    { addr := x.udpDest, port := x.udpPort, mac := some m }))

/-- An accepted command turns the data of its own connection, or of the stream's UDP, on from now or off with the frames that
  still wait (log entry 100), or is answered, where it came from, with the configuration frame asked for, dropped and counted
  where it has no link-layer destination (log entry 124); one with a wrong IDCODE or check, or from elsewhere, is counted as
  ignored; without the PHE nothing happens. The model's own: the operands of the commands (log entry 1), when a command acts
  (log entry 2), the record of what leaves the block (log entry 4). (Rests on R9, R159, R160, R164.) -/
def Obligations.SynchrophasorCommands : Prop :=
  (∀ (w : When) (c : C37Cmd) (n : Nat) (s : State), s.inUse 0 = true → cmdAccepted c s = true → c.path = .tcp n →
    (s.pheSec.streams.getD c.stream.val {}).mode ≠ 2 → ∃ t, exec (.c37TxOn w c) s = .next t ∧ Only [.time, .streams] s t
    ∧ t.phe.streams = updAt s.phe.streams c.stream.val (fun y =>
    { y with conns := y.conns.map (fun k => if k.conn = n then k.set true ((s.at w).islandTime hostIsland) else k) })) ∧
  (∀ (w : When) (c : C37Cmd) (n : Nat) (s : State), s.inUse 0 = true → cmdAccepted c s = true → c.path = .tcp n →
    (s.pheSec.streams.getD c.stream.val {}).mode ≠ 2 → ∃ t, exec (.c37TxOff w c) s = .next t ∧ Only [.time, .streams] s t
    ∧ t.phe.streams = updAt s.phe.streams c.stream.val (fun y =>
    { y with conns := y.conns.map (fun k => if k.conn = n then k.set false ((s.at w).islandTime hostIsland) else k) })
    ∧ t.phe.queue = (if s.phe.fenced then s.phe.queue else s.phe.queue.filter (fun x => !(x.stream == c.stream.val && x.dest ==
    some n)))) ∧
  (∀ (w : When) (c : C37Cmd) (src : List Byte) (s : State), s.inUse 0 = true → cmdAccepted c s = true → c.path = .udp src →
    ∃ t, exec (.c37TxOn w c) s = .next t ∧ Only [.time, .streams] s t
    ∧ t.phe.streams = updAt s.phe.streams c.stream.val (fun y => y.setUdp true ((s.at w).islandTime hostIsland))) ∧
  (∀ (w : When) (c : C37Cmd) (n : Nat) (s : State), s.inUse 0 = true → cmdAccepted c s = true → c.path = .tcp n →
    (s.pheSec.streams.getD c.stream.val {}).mode = 2 → ∃ t, exec (.c37TxOn w c) s = .next t ∧ Only [.time, .streams] s t
    ∧ t.phe.streams = updAt s.phe.streams c.stream.val (fun y =>
    ({ y with conns := y.conns.map (fun k => if k.conn = n then k.set true ((s.at w).islandTime hostIsland) else k) } :
    StrState).setUdp true ((s.at w).islandTime hostIsland))) ∧
  (∀ (w : When) (c : C37Cmd) (src : List Byte) (s : State), s.inUse 0 = true → cmdAccepted c s = true → c.path = .udp src →
    ∃ t, exec (.c37TxOff w c) s = .next t ∧ Only [.time, .streams] s t
    ∧ t.phe.streams = updAt s.phe.streams c.stream.val (fun y => y.setUdp false ((s.at w).islandTime hostIsland))
    ∧ t.phe.queue = (if s.phe.fenced then s.phe.queue else s.phe.queue.filter (fun x => !(x.stream == c.stream.val && x.dest ==
    none)))) ∧
  (∀ (w : When) (c : C37Cmd) (peer : PubTo) (s : State), s.inUse 0 = true → cmdAccepted c s = true →
    s.pubTo (s.cmdFrom c).1 (s.pheSec.streams.getD c.stream.val {}) (s.cmdFrom c).2 = some peer →
    ∃ t, exec (.c37SendCfg2 w c) s = .next t ∧ Only [.time, .sent] s t
    ∧ t.out = .cfgFrame (s.cmdFrom c).1 c.stream.val peer false ((s.at w).cfgBytes c.stream.val false) :: s.out) ∧
  (∀ (w : When) (c : C37Cmd) (peer : PubTo) (s : State), s.inUse 0 = true → cmdAccepted c s = true →
    s.pubTo (s.cmdFrom c).1 (s.pheSec.streams.getD c.stream.val {}) (s.cmdFrom c).2 = some peer →
    ∃ t, exec (.c37SendCfg3 w c) s = .next t ∧ Only [.time, .sent] s t
    ∧ t.out = .cfgFrame (s.cmdFrom c).1 c.stream.val peer true ((s.at w).cfgBytes c.stream.val true) :: s.out) ∧
  (∀ (w : When) (c : C37Cmd) (s : State), s.inUse 0 = true → cmdAccepted c s = false → ∃ t, exec (.c37SendCfg3 w c) s = .next t
    ∧ Only [.time, .phasors] s t ∧ t.phe.cmdIgnored = tallyInc s.phe.cmdIgnored) ∧
  (∀ (w : When) (s : State), s.inUse 0 = true → ∃ t, exec (.c37CommandIgnored w) s = .next t ∧ Only [.time, .phasors] s t
    ∧ t.phe.cmdIgnored = tallyInc s.phe.cmdIgnored ∧ t.phe.store = s.phe.store) ∧
  (∀ (w : When) (s : State), s.inUse 0 = false → ∃ t, exec (.c37CommandIgnored w) s = .next t ∧ Only [.time] s t) ∧
  (∀ (w : When) (c : C37Cmd) (s : State), s.inUse 0 = true → cmdAccepted c s = true →
    s.pubTo (s.cmdFrom c).1 (s.pheSec.streams.getD c.stream.val {}) (s.cmdFrom c).2 = none →
    ∃ t, exec (.c37SendCfg2 w c) s = .next t ∧ Only [.time, .streams] s t
    ∧ t.phe.streams = updAt s.phe.streams c.stream.val (fun y => { y with dropped := tallyInc y.dropped })) ∧
  (∀ (w : When) (c : C37Cmd) (s : State), s.inUse 0 = true → cmdAccepted c s = true →
    s.pubTo (s.cmdFrom c).1 (s.pheSec.streams.getD c.stream.val {}) (s.cmdFrom c).2 = none →
    ∃ t, exec (.c37SendCfg3 w c) s = .next t ∧ Only [.time, .streams] s t
    ∧ t.phe.streams = updAt s.phe.streams c.stream.val (fun y => { y with dropped := tallyInc y.dropped }))

/-- The engine takes the first window of its queue: one of no terminal counts as unassigned, one out of its ranges as rejected,
  any other as taken. An event closes COLLECT after its first window, with that instant; the event that closed first gives the
  next result, which takes the next event number; after a mailbox reset every result of the segment table is committed once
  more, while slot 20 admits the engine: its four mailbox slots (the statement names them), with their original stamps, stand
  over those of the newest set in the bank that the writers hold, which becomes the newest. The model's own: the operands of
  the commands (log entry 1), when a command acts (log entry 2). (Rests on R169, R171, R172, R173, R179, R187.) -/
def Obligations.WavefrontEngine : Prop :=
  (∀ (w : When) (x : SurgeWindow) (rest : List SurgeWindow) (s : State), s.wce.queue = x :: rest → s.wceOpen = true →
    (s.wce.openEvents.all fun y => decide ((s.at w).islandTime waveIsland < y.opened + usTicks y.topo.collect)) = true →
    s.topo.terms.findIdx? (·.station == x.station) = none → ∃ t, exec (.wceWindowTake w) s = .next t ∧ Only [.time, .surges] s t
    ∧ t.wce.queue = rest ∧ t.wce.unassigned = tallyInc s.wce.unassigned ∧ t.wce.windows = s.wce.windows
    ∧ t.wce.openEvents = s.wce.openEvents) ∧
  (∀ (w : When) (x : SurgeWindow) (rest : List SurgeWindow) (i : Nat) (s : State), s.wce.queue = x :: rest → s.wceOpen = true →
    (s.wce.openEvents.all fun y => decide ((s.at w).islandTime waveIsland < y.opened + usTicks y.topo.collect)) = true →
    s.topo.terms.findIdx? (·.station == x.station) = some i → i < s.wce.terms.length →
    (x.quality.testBit 0 = true ∨ x.quality.testBit 2 = true ∨ x.count < 4 * filterK x.interval + 2) →
    ∃ t, exec (.wceWindowTake w) s = .next t ∧ Only [.time, .surges] s t ∧ t.wce.queue = rest
    ∧ t.wce.reject = tallyInc s.wce.reject ∧ t.wce.windows = s.wce.windows ∧ (t.wce.terms.getD i (0, 0)).1 = 3
    ∧ t.wce.openEvents = s.wce.openEvents) ∧
  (∀ (w : When) (x : SurgeWindow) (rest : List SurgeWindow) (i : Nat) (s : State), s.wce.queue = x :: rest → s.wceOpen = true →
    (s.wce.openEvents.all fun y => decide ((s.at w).islandTime waveIsland < y.opened + usTicks y.topo.collect)) = true →
    s.topo.terms.findIdx? (·.station == x.station) = some i → x.quality.testBit 0 = false → x.quality.testBit 2 = false →
    4 * filterK x.interval + 2 ≤ x.count → x.t0 + x.count * x.interval ≤ x.stamp + usTicks 1 → x.stamp ≤ x.t0 + ticksPerSec →
    ∃ t, exec (.wceWindowTake w) s = .next t ∧ Only [.time, .draws, .surges] s t ∧ t.wce.queue = rest
    ∧ t.wce.windows = tallyInc s.wce.windows ∧ t.wce.reject = s.wce.reject ∧ t.wce.unassigned = s.wce.unassigned) ∧
  (∀ (w : When) (s : State), s.wce.fenced = false → ∃ t, exec (.wceCollectExpiry w) s = .next t ∧ Only [.time, .surges] s t
    ∧ t.wce.openEvents = s.wce.openEvents.filter (fun e => decide ((s.at w).islandTime waveIsland < e.opened + usTicks
    e.topo.collect))
    ∧ t.wce.closed = s.wce.closed ++ (s.wce.openEvents.filter (fun e => decide (e.opened + usTicks e.topo.collect ≤ (s.at
    w).islandTime waveIsland))).map (fun e => { e with closed := e.opened + usTicks e.topo.collect })) ∧
  (∀ (w : When) (e : WceEvent) (rest : List WceEvent) (s : State), s.wce.closed = e :: rest → s.wceOpen = true →
    ∃ t, exec (.wceResult w) s = .next t
    ∧ Only [.time, .draws, .events, .mailbox, .surges, .forces, .ledger, .keeper, .sessions, .host] s t ∧ t.wce.closed = rest
    ∧ t.wce.events = s.wce.events + 1 ∧ t.wce.queue = s.wce.queue) ∧
  (∀ (w : When) (by' : Nat) (s : State), s.wce.recommitBy = some by' → s.wce.fenced = false → s.slotOpen 20 = true →
    ∃ t, exec (.wceRecommit w) s = .next t ∧ Only [.time, .mailbox, .surges] s t ∧ t.wce.recommitBy = none
    ∧ t.wce.segTable = s.wce.segTable ∧ t.wce.events = s.wce.events ∧ t.phe.newest = (s.at w).writeBank
    ∧ t.phe.banks = putAt s.phe.banks (s.at w).writeBank (((s.wce.segTable.filter fun r => r.event != 0).flatMap
    resultSlots).foldl setSlot s.newestSet) ∧ t.phe.pendMb = s.phe.pendMb ∧ t.phe.locked = s.phe.locked) ∧
  (∀ (w : When) (s : State), (s.wce.recommitBy = none ∨ s.wce.fenced = true ∨ s.slotOpen 20 = false) →
    ∃ t, exec (.wceRecommit w) s = .next t ∧ Only [.time] s t) ∧
  (∀ r : WceRecord, (resultSlots r).map (fun x => (x.1, x.2.value)) =
    [(7168 + 4 * r.segment, r.distSeg), (7168 + 4 * r.segment + 1, r.distRef), (7168 + 4 * r.segment + 2, r.confidence), (7168 + 4 * r.segment + 3, enc32 (fpInt r.method))]
    ∧ ∀ x ∈ resultSlots r, x.2.writer = 2 ∧ x.2.gen = r.gen % 256 ∧ x.2.stampSec = timeSec r.inception % 2 ^ 32
    ∧ x.2.stampNs = timeNs r.inception)

/-- On the primary a started task whose deadline and 2 µs have passed freezes its inputs once; a frozen one is ready at its
  start signal; SEQ_COMMIT from the voted path commits a ready task and is refused, with the flag set, for any other; the
  completed commit counts one cycle and leaves the task idle. A module that is not primary freezes nothing, and nobody but the
  firmware commits. The model's own: the operands of the commands (log entry 1), when a command acts (log entry 2). (Rests on
  R198, R199, R204, R227, R264.) -/
def Obligations.TaskCycle : Prop :=
  (∀ (w : When) (task : Fin 16) (recv : List Nat) (c : TaskCfg) (s : State), s.taskCfg task.val = some c → s.primary = true →
    task.val < s.seq.tasks.length → (s.task task.val).skipAt = none → (s.task task.val).state = 1 →
    (s.task task.val).frozen = false →
    (s.task task.val).t0 + (nsTicks c.deadline + usTicks 2) ≤ (s.at w).islandTime marketIsland →
    ∃ t, exec (.taskFreeze w ⟨task, recv⟩) s = .next t ∧ t.pending = s.pending
    ∧ t.phe.locked = some (task.val, (s.at w).snapBank) ∧ (t.task task.val).frozen = true ∧ (t.task task.val).state = 1
    ∧ (t.task task.val).cycles = (s.task task.val).cycles ∧ t.seq.forces = s.seq.forces ∧ t.wvl = s.wvl ∧ t.tmb = s.tmb) ∧
  (∀ (w : When) (task : Fin 16) (recv : List Nat) (s : State), s.primary = false →
    ∃ t, exec (.taskFreeze w ⟨task, recv⟩) s = .next t ∧ Only [.time] s t) ∧
  (∀ (w : When) (task : Fin 16) (d : Digests) (s : State), task.val < s.seq.tasks.length → (s.task task.val).state = 1 →
    (s.task task.val).frozen = true → s.primary = true → (s.copyState task.val).pending = none → s.trd.mode ≠ 3 →
    ∃ t, exec (.taskStartSignal w task d) s = .next t ∧ Only [.time, .ports, .stations, .mailbox, .tasks, .sequencer] s t
    ∧ (t.task task.val).state = 2 ∧ (t.task task.val).readyAt = (s.at w).islandTime marketIsland
    ∧ (t.task task.val).frozen = true ∧ t.seq.tasks.length = s.seq.tasks.length) ∧
  (∀ (w : When) (task : Fin 16) (s : State), task.val < s.seq.tasks.length → (s.task task.val).state = 2 → s.trd.mode ≠ 1 →
    s.trd.mode ≠ 4 → s.ptm.powerFail = false → (s.at w).grants .firmware 0x60008 = true →
    ∃ t, exec (.seqCommit w .firmware task) s = .next t ∧ Only [.time, .tasks, .sequencer] s t ∧ (t.task task.val).state = 3
    ∧ (t.task task.val).runMax = max (s.task task.val).runMax (((s.at w).islandTime marketIsland - (s.task task.val).readyAt) /
    ticksPerNs) ∧ (t.task task.val).cycles = (s.task task.val).cycles) ∧
  (∀ (w : When) (task : Fin 16) (s : State), (s.task task.val).state ≠ 2 → s.trd.mode ≠ 4 → s.ptm.powerFail = false →
    (s.at w).grants .firmware 0x60008 = true → ∃ t, exec (.seqCommit w .firmware task) s = .next t
    ∧ Only [.time, .events, .sequencer] s t ∧ t.seq.commitRefused = true) ∧
  (∀ (w : When) (who : Agent) (task : Fin 16) (s : State), (s.trd.mode = 4 ∨ s.ptm.powerFail = true) →
    (s.at w).grants who 0x60008 = true → ∃ t, exec (.seqCommit w who task) s = .next t ∧ Only [.time] s t) ∧
  (∀ (w : When) (who : Agent) (task : Fin 16) (s : State), isFw who = false → (s.at w).grants who 0x60008 = true →
    ∃ t, exec (.seqCommit w who task) s = .next t ∧ Only [.time] s t) ∧
  (∀ (w : When) (task : Fin 16) (s : State), task.val < s.seq.tasks.length → (s.task task.val).state = 3 → s.trd.mode ≠ 4 →
    s.ptm.powerFail = false → s.partnerInService = false → ∃ t, exec (.commitComplete w task) s = .next t
    ∧ t.pending = s.pending ∧ (t.task task.val).state = 0 ∧ (t.task task.val).cycles = ((s.task task.val).cycles + 1) % 2 ^ 64
    ∧ (t.task task.val).frozen = false ∧ (t.task task.val).skips = (s.task task.val).skips ∧ t.seq.forces = s.seq.forces
    ∧ t.wvl = s.wvl) ∧
  (∀ (w : When) (s : State), (s.at w).grants .firmware 0x60004 = true → ∃ t, exec (.retNow w .firmware) s = .next t
    ∧ Only [.time, .sequencer] s t ∧ t.seq.retNow = true) ∧
  (∀ (w : When) (task : Fin 16) (s : State), task.val < s.seq.tasks.length → (s.task task.val).state = 3 → s.trd.mode ≠ 4 →
    s.ptm.powerFail = false → ∃ t, exec (.commitComplete w task) s = .next t ∧ t.pending = s.pending
    ∧ (t.task task.val).state = 0 ∧ (t.task task.val).cycles = ((s.task task.val).cycles + 1) % 2 ^ 64
    ∧ (t.task task.val).frozen = false ∧ (t.task task.val).skips = (s.task task.val).skips ∧ t.seq.forces = s.seq.forces
    ∧ t.wvl.role = s.wvl.role) ∧
  (∀ (w : When) (task : Fin 16) (d : Digests) (s : State), task.val < s.seq.tasks.length → (s.task task.val).state = 1 →
    (s.task task.val).frozen = true → s.primary = true → ∃ t, exec (.taskStartSignal w task d) s = .next t
    ∧ t.pending = s.pending ∧ (t.task task.val).state = 2 ∧ (t.task task.val).readyAt = (s.at w).islandTime marketIsland
    ∧ t.fio = s.fio ∧ t.bsl = s.bsl) ∧
  (∀ (w : When) (who : Agent) (s : State), (isFw who = true ∨ hostAtLeast 2 who s = true) → (s.at w).grants who 0x60004 = true →
    ∃ t, exec (.retNow w who) s = .next t ∧ Only [.time, .sequencer] s t ∧ t.seq.retNow = true ∧ t.seq.running = s.seq.running) ∧
  (∀ (w : When) (task : Fin 16) (recv : List Nat) (c : TaskCfg) (n : Nat) (s : State), s.taskCfg task.val = some c →
    s.primary = true → task.val < s.seq.tasks.length → (s.task task.val).skipAt = some n →
    n + (nsTicks c.deadline + usTicks 2) ≤ (s.at w).islandTime marketIsland → ∃ t, exec (.taskFreeze w ⟨task, recv⟩) s = .next t
    ∧ t.pending = s.pending ∧ (t.task task.val).skipAt = none ∧ (t.task task.val).frozen = (s.task task.val).frozen
    ∧ (t.task task.val).state = (s.task task.val).state ∧ t.phe = s.phe)

/-- On the primary, an ENGINEER's FORCE of a point that the policy lets be forced replaces the entry of its tag or takes the
  lowest free entry; a clear removes the entry; a read answers the entry, 0 and 0 for an empty one and RANGE beyond the table.
  On any other module the answer is NOT_PRIMARY and nothing changes. The model's own: the operands of the commands (log entry
  1), the record of what leaves the block (log entry 4). (Rests on R212, R354.) -/
def Obligations.ForcesOfAnEngineer : Prop :=
  (∀ (w : When) (ses : Fin 8) (tag : Nat) (v : Word) (p : PointCfg) (i : Nat) (s : State), s.serves ses 3 = true →
    s.primary = true → s.pointOf tag = some p → s.forceable p = true → s.seq.forces.any (·.tag == tag) = false →
    s.freeForce = some i → ∃ t, exec (.forceSet w ses tag v) s = .next t
    ∧ Only [.time, .events, .forces, .ledger, .keeper, .sessions, .host, .sent] s t
    ∧ t.seq.forces = s.seq.forces ++ [{ idx := i, tag := tag, value := v.toNat }]
    ∧ t.out = shpOut w 12 ses.val 0 0 [tag, v.toNat] :: s.out) ∧
  (∀ (w : When) (ses : Fin 8) (tag : Nat) (v : Word) (p : PointCfg) (s : State), s.serves ses 3 = true → s.primary = true →
    s.pointOf tag = some p → s.forceable p = true → s.seq.forces.any (·.tag == tag) = true →
    ∃ t, exec (.forceSet w ses tag v) s = .next t
    ∧ Only [.time, .events, .forces, .ledger, .keeper, .sessions, .host, .sent] s t
    ∧ t.seq.forces = s.seq.forces.map (fun f => if f.tag = tag then { f with value := v.toNat } else f)
    ∧ t.out = shpOut w 12 ses.val 0 0 [tag, v.toNat] :: s.out) ∧
  (∀ (w : When) (ses : Fin 8) (tag : Nat) (v : Word) (s : State), s.serves ses 3 = true → s.primary = false →
    ∃ t, exec (.forceSet w ses tag v) s = .next t ∧ Only [.time, .sessions, .sent] s t
    ∧ t.out = shpOut w 12 ses.val 8 5 [tag, v.toNat] :: s.out) ∧
  (∀ (w : When) (ses : Fin 8) (tag : Nat) (p : PointCfg) (f : Force) (s : State), s.serves ses 3 = true → s.primary = true →
    s.pointOf tag = some p → s.seq.forces.find? (·.tag == tag) = some f → ∃ t, exec (.forceClear w ses tag) s = .next t
    ∧ Only [.time, .events, .forces, .ledger, .keeper, .sessions, .host, .sent] s t
    ∧ t.seq.forces = s.seq.forces.filter (·.tag != tag) ∧ t.out = shpOut w 12 ses.val 0 1 [tag, f.value] :: s.out) ∧
  (∀ (w : When) (ses : Fin 8) (idx : Nat) (f : Force) (s : State), s.serves ses 3 = true → idx ≤ 4095 →
    s.seq.forces.find? (·.idx == idx) = some f → ∃ t, exec (.forceRead w ses idx) s = .next t
    ∧ Only [.time, .sessions, .sent] s t ∧ t.out = shpOut w 12 ses.val 0 0 [f.tag, f.value] :: s.out) ∧
  (∀ (w : When) (ses : Fin 8) (idx : Nat) (s : State), s.serves ses 3 = true → 4095 < idx →
    ∃ t, exec (.forceRead w ses idx) s = .next t ∧ Only [.time, .sessions, .sent] s t
    ∧ t.out = shpOut w 12 ses.val 9 0 [] :: s.out)

/-- Three equal transactions issue once; one differing lane is fenced and the majority's transaction issues; three different
  ones, or two in DUPLEX, stop the triad, and nothing issues; no vote issues while the lanes are split. After a fence a module
  without tasks starts the rejoin 125 µs later; the copy's completion is noted; at the final step agreeing digests make the
  triad TRIPLEX. The model's own: the operands of the commands (log entry 1), when a command acts (log entry 2), the record of
  what leaves the block (log entry 4). (Rests on R222, R225, R227, R228, R232.) -/
def Obligations.TriadVotes : Prop :=
  (∀ (w : When) (cycle : Nat) (a : LaneTx) (s : State), s.trd.mode = 0 → ∃ t, exec (.triadTransaction w cycle a a a) s = .next t
    ∧ Only [.time, .triad, .sent] s t ∧ t.trd.mode = 0 ∧ t.trd.fences = s.trd.fences
    ∧ t.out = .tx ((List.range 15).map (laneGroup a)) :: s.out) ∧
  (∀ (w : When) (cycle g : Nat) (a b : LaneTx) (s : State), s.trd.mode = 0 → diffGroup a b = some g →
    ∃ t, exec (.triadTransaction w cycle a a b) s = .next t
    ∧ Only [.time, .events, .triad, .faults, .ledger, .keeper, .sessions, .host, .sent] s t ∧ t.trd.mode = 1
    ∧ t.trd.fencedLane = 2 ∧ t.trd.diffGroup = g ∧ t.trd.diffLane = 2 ∧ t.trd.fences = tallyInc s.trd.fences
    ∧ t.out.head? = some (.tx ((List.range 15).map (laneGroup a)))) ∧
  (∀ (w : When) (cycle g h k : Nat) (a b c : LaneTx) (s : State), s.trd.mode = 0 → diffGroup a b = some g →
    diffGroup b c = some h → diffGroup a c = some k → ∃ t, exec (.triadTransaction w cycle a b c) s = .next t
    ∧ Only [.time, .triad, .faults] s t ∧ t.trd.mode = 4 ∧ t.trd.diffNoMaj = true ∧ t.out = s.out) ∧
  (∀ (w : When) (cycle : Nat) (a b c : LaneTx) (s : State), (s.trd.mode = 3 ∨ s.trd.mode = 4 ∨ s.trd.mode = 5) →
    ∃ t, exec (.triadTransaction w cycle a b c) s = .next t ∧ Only [.time] s t) ∧
  (∀ (w : When) (cycle k : Nat) (a b c : LaneTx) (s : State), (s.trd.mode = 1 ∨ s.trd.mode = 2) → s.silentLane = 2 →
    diffGroup a b = some k → ∃ t, exec (.triadTransaction w cycle a b c) s = .next t ∧ Only [.time, .triad, .faults] s t
    ∧ t.trd.mode = 4 ∧ t.trd.diffNoMaj = true ∧ t.trd.diffLane = 3 ∧ t.out = s.out) ∧
  (∀ (w : When) (cycle : Nat) (a b c : LaneTx) (s : State), (s.trd.mode = 1 ∨ s.trd.mode = 2) → s.silentLane = 2 →
    diffGroup a b = none → ∃ t, exec (.triadTransaction w cycle a b c) s = .next t ∧ Only [.time, .triad, .sent] s t
    ∧ t.trd.mode = s.trd.mode ∧ t.out = .tx ((List.range 15).map (laneGroup a)) :: s.out) ∧
  (∀ (w : When) (s : State), (s.primary = false ∨ s.seq.running = false) → s.trd.fencedAt + usTicks 125 ≤ max s.now w.t →
    s.trd.mode = 1 → s.trd.fencedLane < 3 → s.trd.retired = false → s.trd.debugLive = false →
    ∃ t, exec (.rejoinStartTimeout w) s = .next t ∧ Only [.time, .triad] s t ∧ t.trd.mode = 2
    ∧ t.trd.rejoinAt = some (max s.now w.t) ∧ t.trd.copyDone = false ∧ t.trd.fencedLane = s.trd.fencedLane) ∧
  (∀ (w : When) (s : State), s.trd.mode = 2 → ∃ t, exec (.tcmCopyComplete w) s = .next t ∧ Only [.time, .triad] s t
    ∧ t.trd.copyDone = true ∧ t.trd.mode = 2) ∧
  (∀ (w : When) (n : Nat) (s : State), s.trd.mode = 2 → s.trd.copyDone = true → s.taskReady = false →
    ∃ t, exec (.rejoinFinalStep w { d0 := n, d1 := n, d2 := n }) s = .next t ∧ Only [.time, .events, .triad, .debug] s t
    ∧ t.trd.mode = 0 ∧ t.trd.fencedLane = 3 ∧ t.trd.rejoinAt = none ∧ t.trd.copyDone = false ∧ t.trd.debugBroken = false) ∧
  (∀ (w : When) (d : Digests) (s : State), s.trd.mode = 2 → (s.trd.copyDone = false ∨ s.taskReady = true) →
    ∃ t, exec (.rejoinFinalStep w d) s = .next t ∧ Only [.time] s t)

/-- SPLIT from the firmware with nothing against it splits the lanes and is counted; refused, it leaves the cause and the
  refusal's count. The last lane's SPLIT_END with agreeing digests makes the triad TRIPLEX again. An ENGINEER arms a lane for
  600 s; a probe attaches to the armed lane of a module that is not primary, which breaks the lane out; detaching, by register
  or at the probe, ends the session; an arm lapses at its end. The model's own: the operands of the commands (log entry 1),
  when a command acts (log entry 2). (Rests on R229, R230, R231, R234, R235, R236.) -/
def Obligations.SplitAndDebug : Prop :=
  (∀ (w : When) (s : State), splitRefusal (s.at w) = 0 → (s.at w).grants .firmware 0x70004 = true →
    ∃ t, exec (.split w .firmware) s = .next t ∧ Only [.time, .triad] s t ∧ t.trd.mode = 3
    ∧ t.trd.splits = tallyInc s.trd.splits ∧ t.trd.splitRefuse = 0 ∧ t.trd.splitInPeriod = true
    ∧ t.trd.splitDone = [false, false, false]) ∧
  (∀ (w : When) (s : State), splitRefusal (s.at w) ≠ 0 → (s.at w).grants .firmware 0x70004 = true →
    ∃ t, exec (.split w .firmware) s = .next t ∧ Only [.time, .triad] s t ∧ t.trd.mode = s.trd.mode
    ∧ t.trd.splitRefuse = splitRefusal (s.at w) ∧ t.trd.splitRefused = tallyInc s.trd.splitRefused) ∧
  (∀ (w : When) (k : Fin 3) (n : Nat) (s : State), s.trd.mode = 3 → (putAt s.trd.splitDone k.val true).all (· == true) = true →
    (s.at w).grants (.lane k) splitEndAddr = true → ∃ t, exec (.splitEnd w (.lane k) { d0 := n, d1 := n, d2 := n }) s = .next t
    ∧ Only [.time, .triad, .budgets] s t ∧ t.trd.mode = 0 ∧ t.trd.splitEndCause = 1 ∧ t.trd.splitDone = [false, false, false]) ∧
  (∀ (w : When) (k : Fin 3) (d : Digests) (s : State), s.trd.mode = 3 →
    (putAt s.trd.splitDone k.val true).all (· == true) = false → (s.at w).grants (.lane k) splitEndAddr = true →
    ∃ t, exec (.splitEnd w (.lane k) d) s = .next t ∧ Only [.time, .triad] s t ∧ t.trd.mode = 3
    ∧ t.trd.splitDone = putAt s.trd.splitDone k.val true) ∧
  (∀ (w : When) (who : Agent) (lane : Fin 4) (s : State), hostAtLeast 3 who s = true → lane.val < 3 →
    (s.at w).grants who 0x70028 = true → ∃ t, exec (.debugArm w who lane) s = .next t ∧ Only [.time, .debug] s t
    ∧ t.trd.armLane = some lane.val ∧ t.trd.armUntil = max s.aon w.a + aonSec 600 ∧ t.trd.dbgLane = lane.val) ∧
  (∀ (w : When) (lane : Fin 4) (session : Nat) (s : State), attachRefusal lane.val (s.at w) = 0 →
    ∃ t, exec (.probeAttach w lane session) s = .next t
    ∧ Only [.time, .events, .triad, .debug, .ledger, .keeper, .sessions, .host] s t ∧ t.trd.mode = 1 ∧ t.trd.debugLive = true
    ∧ t.trd.debugBroken = true ∧ t.trd.debugLane = lane.val ∧ t.trd.fences = s.trd.fences) ∧
  (∀ (w : When) (lane : Fin 4) (session : Nat) (s : State), attachRefusal lane.val (s.at w) ≠ 0 →
    ∃ t, exec (.probeAttach w lane session) s = .next t ∧ Only [.time, .debug] s t
    ∧ t.trd.dbgRefuse = attachRefusal lane.val (s.at w) ∧ t.trd.dbgRefused = tallyInc s.trd.dbgRefused
    ∧ t.trd.debugLive = s.trd.debugLive) ∧
  (∀ (w : When) (s : State), s.trd.debugLive = true → ∃ t, exec (.probeDetach w) s = .next t
    ∧ Only [.time, .events, .triad, .debug, .ledger, .keeper, .sessions, .host] s t ∧ t.trd.debugLive = false
    ∧ t.trd.fencedLane = s.trd.debugLane ∧ t.trd.mode = s.trd.mode) ∧
  (∀ (w : When) (who : Agent) (s : State), hostAtLeast 2 who s = true → s.trd.debugLive = true →
    (s.at w).grants who 0x70028 = true → ∃ t, exec (.debugDetach w who) s = .next t
    ∧ Only [.time, .events, .triad, .debug, .ledger, .keeper, .sessions, .host] s t ∧ t.trd.debugLive = false
    ∧ t.trd.fencedLane = s.trd.debugLane) ∧
  (∀ (w : When) (n : Nat) (s : State), s.trd.armLane = some n → s.trd.armUntil ≤ max s.aon w.a →
    ∃ t, exec (.debugArmLapse w) s = .next t ∧ Only [.time, .debug] s t ∧ t.trd.armLane = none)

/-- A strobe without a discontinuity raises the period count by one, or to the latest period that module time has reached, puts
  the strobe out and clears the discontinuity; after a coarse set the count is that of the first period at or after the time
  set. A module without power strobes no more. An island that loses the strobe reports source 23 and goes on from what its
  follower showed. The model's own: the operands of the commands (log entry 1), when a command acts (log entry 2), the record
  of what leaves the block (log entry 4). (Rests on R32, R33, R66, R67, R421.) -/
def Obligations.StrobeOpensAPeriod : Prop :=
  (∀ (w : When) (m : Measured) (s : State), (s.ptm.powerFail = false ∨ s.gen.powerGood = true) →
    (s.tmb.retainedLoad = none ∨ s.tmb.state ≠ 0) → s.discont = false → ∃ t, exec (.periodStrobe w m) s = .next t
    ∧ t.pending = s.pending ∧ t.pcount = max (s.pcount + 1) (max s.now w.t / ticksPerPeriod) ∧ t.discont = false
    ∧ Out.strobe t.pcount ∈ t.out ∧ t.gen = s.gen ∧ t.upd = s.upd ∧ t.fio.di = s.fio.di) ∧
  (∀ (w : When) (m : Measured) (s : State), (s.ptm.powerFail = false ∨ s.gen.powerGood = true) →
    (s.tmb.retainedLoad = none ∨ s.tmb.state ≠ 0) → s.discont = true → ∃ t, exec (.periodStrobe w m) s = .next t
    ∧ t.pcount = max (firstPeriodAt s.now) (max s.now w.t / ticksPerPeriod) ∧ t.discont = false ∧ Out.strobe t.pcount ∈ t.out) ∧
  (∀ (w : When) (m : Measured) (s : State), s.ptm.powerFail = true → s.gen.powerGood = false →
    ∃ t, exec (.periodStrobe w m) s = .next t ∧ Only [.time] s t) ∧
  (∀ (w : When) (island : Nat) (s : State), ∃ t, exec (.strobeLoss w island) s = .next t ∧ Only [.time, .count, .faults] s t
    ∧ t.fcr = (reportBy island 23 0xFF (s.at w)).fcr ∧ t.pcount = s.pcount ∧ (island ≠ timeIsland →
    island < s.followers.length → s.followers.getD island none = none →
    t.followers.getD island none = some ((s.at w).islandTime island, max s.aon w.a)))

/-- A charge below the budget only adds to what a stall has spent; the one that reaches the budget exhausts the stall, and
  counts it once a period; that of the split stall also ends a split interval. A late mask is discarded, counted and reported;
  while the boot set runs, none is due. The model's own: the operands of the commands (log entry 1), when a command acts (log
  entry 2). (Rests on R24, R25, R231, R239, R423.) -/
def Obligations.BudgetsAndMasks : Prop :=
  (∀ (w : When) (i : Fin 64) (n : Nat) (d : Digests) (s : State), (s.bgt.slots.getD i.val {}).spent + n < (s.bgt.slots.getD
    i.val {}).budget → ∃ t, exec (.budgetExhausted w (.slot i) n d) s = .next t ∧ Only [.time, .budgets] s t
    ∧ t.bgt.slots = updAt s.bgt.slots i.val (·.charge n) ∧ t.bgt.mask = s.bgt.mask) ∧
  (∀ (w : When) (i : Fin 64) (n : Nat) (d : Digests) (s : State), i.val < s.bgt.slots.length → (i.val ≠ 23 ∨ s.trd.mode ≠ 3) →
    (s.bgt.slots.getD i.val {}).budget ≤ (s.bgt.slots.getD i.val {}).spent + n → (s.bgt.slots.getD i.val {}).exhausted = false →
    ∃ t, exec (.budgetExhausted w (.slot i) n d) s = .next t ∧ Only [.time, .sequencer, .budgets, .sessions, .sent] s t
    ∧ (t.bgt.slots.getD i.val {}).exhausted = true
    ∧ (t.bgt.slots.getD i.val {}).exhaustions = tallyInc (s.bgt.slots.getD i.val {}).exhaustions
    ∧ (t.bgt.slots.getD i.val {}).spent = (s.bgt.slots.getD i.val {}).spent + n) ∧
  (∀ (w : When) (i : Fin 64) (n k : Nat) (s : State), i.val = 23 → s.trd.mode = 3 → i.val < s.bgt.slots.length →
    (s.bgt.slots.getD 23 {}).budget ≤ (s.bgt.slots.getD 23 {}).spent + n → (s.bgt.slots.getD 23 {}).exhausted = false →
    ∃ t, exec (.budgetExhausted w (.slot i) n { d0 := k, d1 := k, d2 := k }) s = .next t
    ∧ Only [.time, .sequencer, .triad, .budgets, .sessions, .sent] s t ∧ (t.bgt.slots.getD 23 {}).exhausted = true
    ∧ t.trd.mode = 0 ∧ t.trd.splitEndCause = 3) ∧
  (∀ (w : When) (n : Fin 64) (k : Nat) (d : Digests) (s : State), n.val < s.prt.ports.length →
    s.portBudget n.val ≤ (s.port n.val).spent + k → ∃ t, exec (.budgetExhausted w (.port n) k d) s = .next t
    ∧ Only [.time, .ports] s t ∧ (t.port n.val).exhausted = true ∧ (t.port n.val).spent = (s.port n.val).spent + k) ∧
  (∀ (w : When) (b : Nat) (s : State), s.bgt.booting = false → s.bgt.next = some b → ∃ t, exec (.maskMiss w) s = .next t
    ∧ Only [.time, .events, .budgets, .faults, .sessions, .host] s t ∧ t.bgt.next = none ∧ t.bgt.missed = tallyInc s.bgt.missed
    ∧ t.bgt.missRun = s.bgt.missRun + 1 ∧ t.bgt.mask = s.bgt.mask ∧ t.fcr = (report 27 0xFF (s.at w)).fcr) ∧
  (∀ (w : When) (s : State), s.bgt.booting = true → ∃ t, exec (.maskMiss w) s = .next t ∧ Only [.time] s t)

/-- A conversion is the sensor's new reading, and ends the sensor's hot run below its ceiling. Degradation is entered on its
  cause, counted and reported, and left 60 s after everything has stayed cool; while it lasts a primary with a STANDBY partner
  asks for a hand-over every second. The model's own: the operands of the commands (log entry 1), when a command acts (log
  entry 2). (Rests on R242, R244, R247, R248.) -/
def Obligations.HeatAndHandOver : Prop :=
  (∀ (w : When) (sensor : Fin 12) (temp : Int) (s : State), s.sensors.contains sensor.val = true →
    (sensor.val ≠ 7 ∨ s.tmb.holdSince = none) → sensor.val < s.ptm.temps.length →
    ∃ t, exec (.sensorConversion w sensor temp) s = .next t ∧ Only [.time, .power] s t
    ∧ t.ptm.temps.getD sensor.val 0 = signedOf 16 (unsignedOf 16 temp) ∧ t.ptm.mv = s.ptm.mv ∧ t.ptm.degraded = s.ptm.degraded) ∧
  (∀ (w : When) (s : State), s.ptm.degraded = false → s.bgt.booting = false → s.thermalCause ≠ 0 → s.primary = false →
    ∃ t, exec (.thermalDegradedEntry w) s = .next t
    ∧ Only [.time, .events, .power, .faults, .ledger, .keeper, .sessions, .host] s t ∧ t.ptm.degraded = true
    ∧ t.ptm.degradedCount = tallyInc s.ptm.degradedCount ∧ t.ptm.coolSince = none ∧ t.fcr = (report 26 0xFF (s.at w)).fcr) ∧
  (∀ (w : When) (s : State), s.ptm.degraded = true → s.ptm.lastReq + aonSec 1 ≤ max s.aon w.a → s.canHandOver = true →
    ∃ t, exec (.thermalHandoverRepeat w) s = .next t ∧ Only [.time, .events, .power, .pair, .sessions, .host] s t
    ∧ t.wvl.handover = some { asked := (s.at w).islandTime linkIsland, cause := 4 } ∧ t.ptm.lastReq = max s.aon w.a
    ∧ t.wvl.role = s.wvl.role) ∧
  (∀ (w : When) (s : State), s.ptm.degraded = false → ∃ t, exec (.thermalHandoverRepeat w) s = .next t ∧ Only [.time] s t) ∧
  (∀ (w : When) (c : Nat) (s : State), s.ptm.degraded = true → s.ptm.coolSince = some c → c + aonSec 60 ≤ max s.aon w.a →
    ∃ t, exec (.thermalDegradedExit w) s = .next t ∧ Only [.time, .events, .power, .ledger, .keeper, .sessions, .host] s t
    ∧ t.ptm.degraded = false ∧ t.wvl = s.wvl) ∧
  (∀ (w : When) (sensor : Fin 12) (temp : Int) (s : State), s.sensors.contains sensor.val = false →
    sensor.val < s.ptm.temps.length → ∃ t, exec (.sensorConversion w sensor temp) s = .next t
    ∧ Only [.time, .power, .timebase, .events, .faults, .ledger, .keeper, .sessions, .host] s t
    ∧ t.ptm.temps.getD sensor.val 1 = 0 ∧ t.ptm.mv = s.ptm.mv) ∧
  (∀ (w : When) (temp : Int) (s : State), s.sensors.contains 7 = true → 7 < s.ptm.temps.length → s.tmb.holdSince.isSome = true →
    s.tmb.holdLimit = 28800 → 16 < (signedOf 16 (unsignedOf 16 temp) - s.tmb.ocxoAtEntry).natAbs →
    ∃ t, exec (.sensorConversion w 7 temp) s = .next t
    ∧ Only [.time, .power, .timebase, .events, .faults, .ledger, .keeper, .sessions, .host] s t
    ∧ t.ptm.temps.getD 7 0 = signedOf 16 (unsignedOf 16 temp) ∧ t.tmb.holdLimit = 14400 ∧ t.ptm.mv = s.ptm.mv) ∧
  (∀ (w : When) (s : State), s.ptm.degraded = false → s.bgt.booting = false → s.thermalCause ≠ 0 →
    ∃ t, exec (.thermalDegradedEntry w) s = .next t
    ∧ Only [.time, .events, .power, .pair, .faults, .ledger, .keeper, .sessions, .host] s t ∧ t.ptm.degraded = true
    ∧ t.ptm.degradedCount = tallyInc s.ptm.degradedCount ∧ t.ptm.coolSince = none ∧ t.fcr = (report 26 0xFF (s.at w)).fcr
    ∧ (s.canHandOver = true → t.wvl.handover = some { asked := (s.at w).islandTime linkIsland, cause := 4 }))

/-- The feeds take their voltages and states; the loss of the last good one sets RIDE. 10 ms of RIDE, a low ride-through bank
  or a trip of the over-temperature comparator signals power fail, which halts the triad; the final round ends with the module
  without power and every output open. A bank test starts in P0 once the banks have charged, and ends it, a bank below 80 %
  being a fault. The model's own: the operands of the commands (log entry 1), when a command acts (log entry 2). (Rests on
  R218, R249, R250, R251, R389, R412.) -/
def Obligations.PowerAndBanks : Prop :=
  (∀ (w : When) (mv1 mv2 : Nat) (carry : Fin 3) (s : State), s.gen.phase ≠ 0 → s.ptm.mv.length = 2 → s.ptm.feed.length = 2 →
    ∃ t, exec (.feedStateChange w mv1 mv2 carry) s = .next t
    ∧ Only [.time, .events, .sequencer, .triad, .power, .ledger, .keeper, .sessions, .host] s t ∧ t.ptm.mv = [mv1, mv2]
    ∧ t.ptm.carry = carrying carry.val mv1 mv2
    ∧ t.ptm.feed = [feedState (s.ptm.feed.getD 0 0) mv1, feedState (s.ptm.feed.getD 1 0) mv2]) ∧
  (∀ (w : When) (mv1 mv2 : Nat) (carry : Fin 3) (s : State), s.gen.phase ≠ 0 →
    (s.ptm.feed = [1, 0] ∨ s.ptm.feed = [0, 1] ∨ s.ptm.feed = [1, 1]) → mv1 < 32000 → mv2 < 32000 → s.ptm.ride = false →
    s.ptm.powerFail = false → ∃ t, exec (.feedStateChange w mv1 mv2 carry) s = .next t
    ∧ Only [.time, .events, .power, .ledger, .keeper, .sessions, .host] s t ∧ t.ptm.ride = true
    ∧ t.ptm.rideSince = max s.aon w.a ∧ t.ptm.powerFail = false) ∧
  (∀ (w : When) (low : Bool) (s : State), s.ptm.ride = true → (low = true ∨ s.ptm.rideSince + aonMs 10 ≤ max s.aon w.a) →
    ∃ t, exec (.powerFail w low) s = .next t ∧ Only [.time, .events, .sequencer, .triad, .power, .sessions, .host] s t
    ∧ t.ptm.powerFail = true ∧ t.ptm.ride = true ∧ (s.ptm.powerFail = false → t.trd.mode = 4)) ∧
  (∀ (w : When) (s : State), s.ptm.ride = true → max s.aon w.a < s.ptm.rideSince + aonMs 10 →
    ∃ t, exec (.powerFail w false) s = .next t ∧ Only [.time] s t) ∧
  (∀ (w : When) (complete : Bool) (stored : Nat) (s : State), s.ptm.powerFail = true → s.keeperWritable = false →
    ∃ t, exec (.finalRoundComplete w complete stored) s = .next t
    ∧ Only [.time, .start, .keeper, .pulses, .outputs, .loops, .sent] s t ∧ t.gen.powerGood = false ∧ t.gen.phase = s.gen.phase
    ∧ (t.fio.dout.any (·.driven)) = false ∧ (t.fio.ao.any (·.driving)) = false ∧ t.tmb.gens = s.tmb.gens) ∧
  (∀ (w : When) (stored : Nat) (c : Cartridge) (s : State), s.ptm.powerFail = true → s.keeperWritable = true →
    s.kpr.cartridge = some c → 0 < (refillBucket (s.at w)).roundAllowance →
    ∃ t, exec (.finalRoundComplete w false stored) s = .next t
    ∧ Only [.time, .start, .cartridge, .keeper, .pulses, .outputs, .loops, .sent] s t ∧ t.gen.powerGood = false
    ∧ t.kpr.cartridge.map (·.mark) = some (s.lgr.nextSeq - 1) ∧ t.kpr.cartridge.map (·.slots) = some c.slots
    ∧ t.kpr.cartridge.map (·.access) = some c.access) ∧
  (∀ (w : When) (g : Nat) (s : State), s.gen.phase = 0 → s.ptm.bankTested = false → s.ptm.ride = false →
    s.ptm.bankTesting = false → s.feedGood = true → s.ptm.goodSince = some g → g + aonMs 400 ≤ max s.aon w.a →
    ∃ t, exec (.bankTest w) s = .next t ∧ Only [.time, .power] s t ∧ t.ptm.bankTesting = true ∧ t.ptm.bankTested = false) ∧
  (∀ (w : When) (s : State), s.ptm.bankTested = false → (s.feedGood = false ∨ s.ptm.goodSince = none) →
    ∃ t, exec (.bankTest w) s = .next t ∧ Only [.time] s t) ∧
  (∀ (w : When) (ride hold : Nat) (s : State), s.ptm.bankTesting = true → s.gen.phase = 0 → s.gen.powerGood = true →
    s.feedGood = true → 800 ≤ ride → ride < 65536 → 800 ≤ hold → hold < 65536 →
    ∃ t, exec (.bankTestComplete w ride hold) s = .next t ∧ Only [.time, .start, .power] s t ∧ t.ptm.bankTesting = false
    ∧ t.ptm.bankTested = true ∧ t.ptm.bankRide = ride ∧ t.ptm.bankHold = hold ∧ t.ptm.bankFault = false ∧ t.gen.phase = 1) ∧
  (∀ (w : When) (ride hold : Nat) (s : State), s.ptm.bankTesting = true → ride < 800 → hold < 65536 →
    ∃ t, exec (.bankTestComplete w ride hold) s = .next t ∧ t.ptm.bankTesting = false ∧ t.ptm.bankFault = true
    ∧ t.ptm.bankRide = ride ∧ t.wvl = s.wvl ∧ t.trd = s.trd) ∧
  (∀ (w : When) (sensor : Fin 12) (s : State), (sensor.val = 0 ∨ sensor.val = 2 ∨ sensor.val = 3 ∨ sensor.val = 4 ∨ sensor.val
    = 5 ∨ sensor.val = 10) → ∃ t, exec (.overtempTrip w sensor) s = .next t
    ∧ Only [.time, .events, .sequencer, .triad, .power, .sessions, .host] s t ∧ t.ptm.powerFail = true
    ∧ sensor.val ∈ t.ptm.tripped) ∧
  (∀ (w : When) (sensor : Fin 12) (s : State), (sensor.val = 1 ∨ 6 ≤ sensor.val ∧ sensor.val ≠ 10) →
    ∃ t, exec (.overtempTrip w sensor) s = .next t ∧ Only [.time] s t) ∧
  (∀ (w : When) (stored : Nat) (s : State), s.ptm.powerFail = true → ∃ t, exec (.finalRoundComplete w true stored) s = .next t
    ∧ Only
    [.time, .start, .events, .sequencer, .budgets, .cartridge, .keeper, .ledger, .sessions, .host, .pulses, .outputs, .loops, .sent]
    s t ∧ t.gen.powerGood = false ∧ t.gen.phase = s.gen.phase ∧ t.ptm = s.ptm) ∧
  (∀ (w : When) (s : State), s.ptm.bankTested = true → s.ptm.lastBankTest + aonSec 86400 ≤ max s.aon w.a → s.ptm.ride = false →
    s.ptm.bankTesting = false → ∃ t, exec (.bankTest w) s = .next t ∧ Only [.time, .power] s t ∧ t.ptm.bankTesting = true
    ∧ t.ptm.bankTested = true)

/-- A heartbeat of the partner is what the module knows of it from then on, and ends the run of misses; a period without one is
  missed and counted, once; a lane without a valid frame for 1 ms goes down with event 122; a frame that fails its checks
  counts on the link. WVL_ALIVE from the voted path notes the period. With the pair off no link frame has an effect. The
  model's own: the operands of the commands (log entry 1), when a command acts (log entry 2). (Rests on R254, R256, R257, R258,
  R259, R270.) -/
def Obligations.HeartbeatsAndLanes : Prop :=
  (∀ (w : When) (h : Heartbeat) (s : State), s.pair.mode ≠ 0 → h.hdr.side ≠ s.wvl.side →
    ∃ t, exec (.heartbeatReceived w h) s = .next t ∧ t.pending = s.pending ∧ t.wvl.partner.present = true
    ∧ t.wvl.partner.everSeen = true ∧ t.wvl.partner.role = h.hdr.role ∧ t.wvl.partner.epoch = h.hdr.epoch
    ∧ t.wvl.partner.gen = h.gen ∧ t.wvl.partner.flags = h.flags ∧ t.wvl.hbSeen = true ∧ t.wvl.missRun = 0 ∧ t.tmb = s.tmb
    ∧ t.upd = s.upd) ∧
  (∀ (w : When) (h : Heartbeat) (s : State), s.pair.mode = 0 → ∃ t, exec (.heartbeatReceived w h) s = .next t
    ∧ Only [.time] s t) ∧
  (∀ (w : When) (s : State), s.pair.mode ≠ 0 → s.wvl.hbPrev = false → s.wvl.missRun = 0 →
    ∃ t, exec (.heartbeatMiss w) s = .next t ∧ Only [.time, .pair] s t ∧ t.wvl.hbMissed = tallyInc s.wvl.hbMissed
    ∧ t.wvl.missRun = 1 ∧ t.wvl.hbPrev = true ∧ t.wvl.partner = s.wvl.partner ∧ t.wvl.role = s.wvl.role) ∧
  (∀ (w : When) (s : State), s.pair.mode ≠ 0 → s.wvl.partner.present = true → s.wvl.hbPrev = false → 1 ≤ s.wvl.missRun →
    ∃ t, exec (.heartbeatMiss w) s = .next t ∧ t.pending = s.pending ∧ t.wvl.hbMissed = tallyInc s.wvl.hbMissed
    ∧ t.wvl.missRun = s.wvl.missRun + 1 ∧ t.wvl.partner.present = false ∧ t.mem = s.mem) ∧
  (∀ (w : When) (s : State), s.wvl.hbPrev = true → ∃ t, exec (.heartbeatMiss w) s = .next t ∧ Only [.time] s t) ∧
  (∀ (w : When) (lane : Fin 4) (s : State), s.wvl.lanesUp.testBit lane.val = true →
    s.wvl.laneSeen.getD lane.val 0 + aonMs 1 ≤ max s.aon w.a → ∃ t, exec (.laneDown w lane) s = .next t
    ∧ Only [.time, .events, .pair, .faults, .ledger, .keeper, .sessions, .host] s t
    ∧ t.wvl.lanesUp = clrBit s.wvl.lanesUp lane.val ∧ t.wvl.role = s.wvl.role) ∧
  (∀ (w : When) (lane : Fin 4) (s : State), max s.aon w.a < s.wvl.laneSeen.getD lane.val 0 + aonMs 1 →
    ∃ t, exec (.laneDown w lane) s = .next t ∧ Only [.time] s t) ∧
  (∀ (w : When) (lane : Fin 4) (s : State), s.pair.mode ≠ 0 → ∃ t, exec (.linkFrameDiscard w lane .badCrc) s = .next t
    ∧ Only [.time, .pair] s t ∧ t.wvl.linkErr = tallyInc s.wvl.linkErr ∧ t.wvl.lanesUp = s.wvl.lanesUp
    ∧ t.wvl.role = s.wvl.role) ∧
  (∀ (w : When) (s : State), (s.at w).grants .firmware 0xA0008 = true → ∃ t, exec (.wvlAlive w .firmware) s = .next t
    ∧ Only [.time, .pair] s t ∧ t.wvl.aliveAt = some s.pcount ∧ t.wvl.role = s.wvl.role) ∧
  (∀ (w : When) (who : Agent) (s : State), isFw who = false → (s.at w).grants who 0xA0008 = true →
    ∃ t, exec (.wvlAlive w who) s = .next t ∧ Only [.time] s t) ∧
  (∀ (w : When) (lane : Fin 4) (s : State), s.pair.mode ≠ 0 → ∃ t, exec (.linkFrameDiscard w lane .reservedType) s = .next t
    ∧ Only [.time, .pair] s t ∧ t.wvl.linkErr = tallyInc s.wvl.linkErr ∧ t.wvl.lanesUp = s.wvl.lanesUp
    ∧ t.wvl.role = s.wvl.role) ∧
  (∀ (w : When) (lane : Fin 4) (s : State), s.pair.mode ≠ 0 → ∃ t, exec (.linkFrameDiscard w lane .ownSide) s = .next t
    ∧ t.pending = s.pending ∧ t.wvl.linkErr = tallyInc s.wvl.linkErr ∧ (s.wvl.role ≠ 0 → t.wvl.role = s.wvl.role)
    ∧ (s.wvl.role = 0 → s.gen.phase = 6 → t.wvl.role = 4 ∨ t.wvl.role = 5))

/-- A copy that is lost, of another task table or on another base is dropped and counted by a standby; one it takes gives the
  task the primary's cycle count. A module in no standby role takes none. Reseed lines put the task under reseed; the primary's
  reseed sends the lines that the stall admits and moves on by them. The model's own: the operands of the commands (log entry
  1), the record of what leaves the block (log entry 4). (Rests on R264, R265, R266, R267, R269.) -/
def Obligations.CopiesAndReseeds : Prop :=
  (∀ (w : When) (h : LinkHdr) (c : CopyMsg) (s : State), s.pair.mode ≠ 0 → h.side ≠ s.wvl.side →
    (s.wvl.role = 2 ∨ s.wvl.role = 3) → c.task.val < s.wvl.copies.length → c.lost = true →
    ∃ t, exec (.copyReceived w h c) s = .next t ∧ t.pending = s.pending ∧ t.wvl.copyDropped = tallyInc s.wvl.copyDropped
    ∧ t.seq.tasks = s.seq.tasks ∧ t.mem.mem = s.mem.mem ∧ t.wvl.appliedCount = s.wvl.appliedCount) ∧
  (∀ (w : When) (h : LinkHdr) (c : CopyMsg) (s : State), s.pair.mode ≠ 0 → h.side ≠ s.wvl.side → s.wvl.role = 3 →
    c.lost = false → c.task.val < s.seq.tasks.length → c.tgen = (s.task c.task.val).gen →
    s.wvl.reseed.testBit c.task.val = false → c.base = (s.copyState c.task.val).applied →
    ∃ t, exec (.copyReceived w h c) s = .next t ∧ t.pending = s.pending ∧ t.wvl.appliedCount = tallyInc s.wvl.appliedCount
    ∧ (t.task c.task.val).cycles = c.cycle ∧ (t.task c.task.val).skips = c.skips ∧ t.prt = s.prt ∧ t.tmb = s.tmb) ∧
  (∀ (w : When) (h : LinkHdr) (c : CopyMsg) (s : State), s.pair.mode = 0 → ∃ t, exec (.copyReceived w h c) s = .next t
    ∧ Only [.time] s t) ∧
  (∀ (w : When) (h : LinkHdr) (task : Fin 16) (ls : List (Nat × List Byte)) (s : State), s.pair.mode ≠ 0 → h.side ≠ s.wvl.side →
    s.wvl.role = 3 → task.val < s.seq.tasks.length → ∃ t, exec (.reseedReceived w h (.lines task ls)) s = .next t
    ∧ t.pending = s.pending ∧ t.wvl.reseed.testBit task.val = true ∧ (t.task task.val).retAll = 2 ∧ t.seq.forces = s.seq.forces) ∧
  (∀ (w : When) (task : Fin 16) (lines : Nat) (s : State), s.primary = true → s.partnerInService = true →
    s.wvl.reseed.testBit task.val = true → task.val < s.wvl.copies.length → (s.copyState task.val).ended = false →
    s.firstPending = none → 0 < lines → 264 ≤ s.copyRoom →
    (s.copyState task.val).reseedPos + lines < (s.reseedLines task.val).length →
    ∃ t, exec (.reseedSend w task lines) s = .next t
    ∧ Only [.time, .events, .pair, .budgets, .memctl, .wards, .faults, .ledger, .keeper, .sessions, .host, .sent] s t
    ∧ (t.copyState task.val).reseedPos = (s.copyState task.val).reseedPos + min lines (s.copyRoom / 264)
    ∧ (t.copyState task.val).ended = false) ∧
  (∀ (w : When) (task : Fin 16) (lines : Nat) (s : State), s.primary = false → ∃ t, exec (.reseedSend w task lines) s = .next t
    ∧ Only [.time] s t) ∧
  (∀ (w : When) (h : LinkHdr) (task : Fin 16) (outs : List Nat) (cycle skips : Nat) (forces : List (Nat × Nat)) (s : State),
    s.pair.mode ≠ 0 → h.side ≠ s.wvl.side → s.wvl.role = 3 → s.wvl.reseed.testBit task.val = true →
    task.val < s.wvl.copies.length → task.val < s.seq.tasks.length →
    ∃ t, exec (.reseedReceived w h (.done task outs cycle skips forces)) s = .next t ∧ t.pending = s.pending
    ∧ (t.copyState task.val).ended = true ∧ (t.copyState task.val).applied = cycle ∧ (t.task task.val).cycles = cycle) ∧
  (∀ (w : When) (task : Fin 16) (lines : Nat) (s : State), s.primary = true → s.partnerInService = true →
    s.wvl.reseed.testBit task.val = true → task.val < s.wvl.copies.length → (s.copyState task.val).ended = false →
    s.firstPending = none → (s.reseedLines task.val).length = (s.copyState task.val).reseedPos → s.copyRoom ≠ 0 →
    16 + 4 * (s.copyOuts task.val).length + 8 * s.forceWords.length ≤ s.copyRoom →
    ∃ t, exec (.reseedSend w task lines) s = .next t ∧ Only [.time, .pair, .budgets, .sent] s t
    ∧ (t.copyState task.val).ended = true ∧ (t.copyState task.val).base = (s.task task.val).cycles
    ∧ t.out.head?.bind Out.reseedEnd = some (task.val, (s.task task.val).cycles, (s.task task.val).skips))

/-- A requested hand-over is announced with H two periods ahead and H is kept; an acknowledgement in time is noted; at H an
  acknowledged primary leaves its role, one without is abandoned and stays. A STANDBY partner takes over at the strobe it has
  prepared, H of a RELINQUISH or HANDOVER (whose cause the HANDOVER frame carries, the model's choice, log entry 109), and is
  PRIMARY then; a primary that yields leaves PRIMARY at the next strobe. The model's own: the operands of the commands (log
  entry 1), when a command acts (log entry 2), the record of what leaves the block (log entry 4). (Rests on R260, R270, R271,
  R272, R273, R274, R275.) -/
def Obligations.HandOverAndTakeOver : Prop :=
  (∀ (w : When) (x : Handover) (s : State), s.wvl.handover = some x → s.primary = true → s.handoverTest x = true →
    x.reply = none → ∃ t, exec (.handoverAnnounce w) s = .next t ∧ Only [.time, .pair, .sent] s t
    ∧ t.wvl.handover = some { x with h := some (s.pcount + 2) } ∧ t.wvl.role = 1) ∧
  (∀ (w : When) (s : State), s.wvl.handover = none → ∃ t, exec (.handoverAnnounce w) s = .next t ∧ Only [.time] s t) ∧
  (∀ (w : When) (h : LinkHdr) (hs : Nat) (x : Handover) (s : State), s.pair.mode ≠ 0 → h.side ≠ s.wvl.side →
    s.wvl.handover = some x → x.h = some hs → s.pcount + 1 < hs → ∃ t, exec (.handoverAckReceived w h hs) s = .next t
    ∧ t.pending = s.pending ∧ t.wvl.handover = some { x with acked := true } ∧ t.wvl.role = s.wvl.role) ∧
  (∀ (w : When) (x : Handover) (hs : Nat) (s : State), s.wvl.handover = some x → s.primary = true → x.h = some hs →
    hs ≤ s.pcount → x.acked = true → ∃ t, exec (.handoverStrobe w) s = .next t ∧ t.pending = s.pending ∧ t.wvl.role ≠ 1
    ∧ t.wvl.handover = none ∧ t.wvl.lastCause = x.cause) ∧
  (∀ (w : When) (x : Handover) (hs : Nat) (s : State), s.wvl.handover = some x → s.primary = true → x.h = some hs →
    hs ≤ s.pcount → x.acked = false → ∃ t, exec (.handoverStrobe w) s = .next t ∧ t.wvl.role = 1 ∧ t.wvl.handover = none
    ∧ t.prt = s.prt ∧ t.fio = s.fio ∧ t.seq = s.seq) ∧
  (∀ (w : When) (h : LinkHdr) (hs : Nat) (s : State), s.pair.mode ≠ 0 → h.side ≠ s.wvl.side → s.wvl.role = 3 →
    s.wvl.takeAt = none → ∃ t, exec (.relinquishReceived w h hs) s = .next t ∧ t.pending = s.pending
    ∧ (t.wvl.takeAt.map (·.count)) = some (max hs (s.at w).soonStrobe) ∧ (t.wvl.takeAt.map (·.cause)) = some 2 ∧ t.wvl.role = 3) ∧
  (∀ (w : When) (h : LinkHdr) (m : HandoverMsg) (s : State), s.pair.mode ≠ 0 → h.side ≠ s.wvl.side → s.wvl.role = 3 →
    s.wvl.lanesUp ≠ 0 → ∃ t, exec (.handoverReceived w h m) s = .next t ∧ t.pending = s.pending
    ∧ t.wvl.takeAt = some { count := m.h, cause := m.cause } ∧ t.out.head?.bind Out.linkFrame = some (6, s.wvl.side, 3, two m.h)
    ∧ t.wvl.role = 3) ∧
  (∀ (w : When) (k : Takeover) (s : State), s.wvl.takeAt = some k → s.wvl.role = 3 → k.count ≤ s.pcount →
    ∃ t, exec (.takeover w) s = .next t ∧ t.pending = s.pending ∧ t.wvl.role = 1 ∧ t.wvl.lastCause = k.cause
    ∧ t.wvl.takeAt = none ∧ t.wvl.takeovers = tallyInc s.wvl.takeovers ∧ t.seq.running = true) ∧
  (∀ (w : When) (k : Takeover) (s : State), s.wvl.takeAt = some k → s.pcount < k.count → ∃ t, exec (.takeover w) s = .next t
    ∧ Only [.time] s t) ∧
  (∀ (w : When) (s : State), s.primary = true → s.wvl.yielding = true → s.wvl.yieldAt ≤ s.pcount →
    ∃ t, exec (.yieldToPartner w) s = .next t ∧ t.pending = s.pending ∧ t.wvl.role ≠ 1 ∧ t.wvl.yielding = false
    ∧ t.wvl.lastCause = 8) ∧
  (∀ (w : When) (s : State), (s.wvl.yielding = false ∨ s.pcount < s.wvl.yieldAt) → ∃ t, exec (.yieldToPartner w) s = .next t
    ∧ Only [.time] s t) ∧
  (∀ (w : When) (s : State), s.canHandOver = true → (s.at w).grants .firmware 0xA0004 = true →
    ∃ t, exec (.wvlHandover w .firmware) s = .next t ∧ Only [.time, .events, .pair, .sessions, .host] s t
    ∧ t.wvl.handover = some { asked := (s.at w).islandTime linkIsland, cause := 3 } ∧ t.wvl.role = s.wvl.role) ∧
  (∀ (w : When) (s : State), s.canHandOver = false → (s.at w).grants .firmware 0xA0004 = true →
    ∃ t, exec (.wvlHandover w .firmware) s = .next t ∧ Only [.time] s t)

/-- HANDOVER on a primary beside a STANDBY partner requests the hand-over and is answered at H; TAKEOVER on a STANDBY module
  prepares it for the first strobe 10 µs away; RESYNC takes a STANDBY module back to SYNCING; EPOCH_ADVANCE on a primary with a
  writable keeper secures the reserve and sets the next epoch; FORCE_PRIMARY makes an ORPHAN or MISMATCH module PRIMARY. In any
  other role the answer is a refusal with result 1. The model's own: the operands of the commands (log entry 1), when a command
  acts (log entry 2), the record of what leaves the block (log entry 4). (Rests on R262, R270, R273, R276, R279.) -/
def Obligations.PairCommands : Prop :=
  (∀ (w : When) (ses : Fin 8) (s : State), s.serves ses 2 = true → s.pair.mode ≠ 0 → s.primary = true →
    s.partnerStandby = true → (s.at w).pairBusy = false → ∃ t, exec (.pairHandover w ses) s = .next t
    ∧ Only [.time, .events, .pair, .ledger, .keeper, .sessions, .host] s t
    ∧ t.wvl.handover = some { asked := (s.at w).islandTime linkIsland, cause := 3, reply := some ses.val } ∧ t.wvl.role = 1) ∧
  (∀ (w : When) (ses : Fin 8) (s : State), s.serves ses 2 = true → (s.pair.mode = 0 ∨ s.primary = false) →
    ∃ t, exec (.pairHandover w ses) s = .next t ∧ t.pending = s.pending ∧ t.wvl = s.wvl
    ∧ t.out = shpOut w 11 ses.val 8 1 [0, 0] :: s.out) ∧
  (∀ (w : When) (ses : Fin 8) (s : State), s.serves ses 2 = true → s.pair.mode ≠ 0 → s.wvl.role = 3 →
    (s.at w).pairBusy = false → ∃ t, exec (.pairTakeover w ses) s = .next t ∧ t.pending = s.pending
    ∧ (t.wvl.takeAt.map (·.count)) = some (s.at w).soonStrobe ∧ (t.wvl.takeAt.map (·.cause)) = some 6 ∧ t.wvl.role = 3
    ∧ t.out = shpOut w 11 ses.val 0 0 [0, 0] :: s.out) ∧
  (∀ (w : When) (ses : Fin 8) (s : State), s.serves ses 3 = true → s.pair.mode ≠ 0 → s.wvl.role = 3 →
    (s.at w).pairBusy = false → ∃ t, exec (.pairResync w ses) s = .next t ∧ t.pending = s.pending ∧ t.wvl.role = 2
    ∧ t.wvl.lastCause = 11 ∧ t.out.head? = some (shpOut w 11 ses.val 0 0 [0, 0])) ∧
  (∀ (w : When) (ses : Fin 8) (n : Nat) (s : State), s.serves ses 3 = true → s.pair.mode ≠ 0 → s.primary = true → 1 ≤ n →
    n ≤ 2 ^ 30 → s.keeperWritable = true → ∃ t, exec (.pairEpochAdvance w ses n) s = .next t
    ∧ Only [.time, .events, .pair, .ledger, .keeper, .sessions, .host, .sent] s t
    ∧ t.wvl.epochNext = some ((s.wvl.epochNext.getD s.wvl.epoch + n) % 2 ^ 32) ∧ t.wvl.epoch = s.wvl.epoch
    ∧ t.out = shpOut w 11 ses.val 0 0 [0, 0] :: s.out) ∧
  (∀ (w : When) (ses : Fin 8) (s : State), s.serves ses 3 = true → s.pair.mode ≠ 0 → (s.wvl.role = 4 ∨ s.wvl.role = 5) →
    ∃ t, exec (.pairForcePrimary w ses) s = .next t ∧ t.pending = s.pending ∧ t.wvl.role = 1 ∧ t.wvl.lastCause = 7
    ∧ t.wvl.takeovers = tallyInc s.wvl.takeovers ∧ t.seq.running = true)

/-- From P4 on the scrubber's floor takes the next line, charged to nothing, and above the floor one more line charged 64 bytes
  to slot 24 where that stall is open. A single-line scrub takes the writer's own line. A corrected STRONG line is counted, its
  bytes as before. RETIRE starts the copy with the lowest free spare, or gives the writer's result FULL, RANGE, BUSY or NO_MAP;
  the complete copy puts the page on its spare, answers DONE and leaves the keeper entry to be written. Foreign entries are
  purged from a writable keeper by a keeper write, and a log entry is freed by its acknowledgement. From another writer these
  have no effect. The model's own: the operands of the commands (log entry 1), when a command acts (log entry 2). (Rests on
  R287, R288, R289, R290, R291, R293, R294.) -/
def Obligations.MemoryCare : Prop :=
  (∀ (w : When) (fault : MemFault) (s : State), s.mem.mapApplied = true → ∃ t, exec (.scrubFloor w fault) s = .next t
    ∧ Only [.time, .events, .memctl, .wards, .faults, .ledger, .keeper, .sessions, .host] s t
    ∧ t.mem.scrubPos = s.scrubFrom (s.scrubFrom s.mem.scrubPos + 1) ∧ t.mem.mem = s.mem.mem ∧ t.mem.retired = s.mem.retired) ∧
  (∀ (w : When) (fault : MemFault) (s : State), s.mem.mapApplied = false → ∃ t, exec (.scrubFloor w fault) s = .next t
    ∧ Only [.time] s t) ∧
  (∀ (w : When) (fault : MemFault) (s : State), s.mem.mapApplied = true → s.slotOpen 24 = true →
    s.scrubSkips (s.scrubFrom s.mem.scrubPos) = false → ∃ t, exec (.scrubAboveFloor w fault) s = .next t
    ∧ Only [.time, .events, .budgets, .memctl, .wards, .faults, .ledger, .keeper, .sessions, .host] s t
    ∧ t.mem.scrubPos = s.scrubFrom (s.scrubFrom s.mem.scrubPos + 1) ∧ t.bgt.slots = updAt s.bgt.slots 24 (·.charge 64)
    ∧ t.mem.mem = s.mem.mem) ∧
  (∀ (w : When) (fault : MemFault) (s : State), s.slotOpen 24 = false → ∃ t, exec (.scrubAboveFloor w fault) s = .next t
    ∧ Only [.time] s t) ∧
  (∀ (w : When) (d : Fin 10) (b : Nat) (s : State), (unitMay 15 (64 * s.mem.scrubLineFw) 64 false (s.at w)).1 = true →
    s.lineLight s.mem.scrubLineFw = false → (s.mem.mem.readBytes (64 * s.mem.scrubLineFw) 64).isSome = true →
    (s.at w).grants .firmware 0xB0004 = true → ∃ t, exec (.scrubLine w .firmware (.corrected d b)) s = .next t
    ∧ Only [.time, .memctl, .faults] s t ∧ t.mem.ceStrong = tallyInc s.mem.ceStrong
    ∧ t.mem.devCe = updAt s.mem.devCe (lineDevice s.mem.scrubLineFw d) tallyInc ∧ t.mem.mem = s.mem.mem
    ∧ t.mem.scrubPos = s.mem.scrubPos ∧ t.mem.ueStrong = s.mem.ueStrong) ∧
  (∀ (w : When) (i : Fin 8) (fault : MemFault) (s : State), s.sesRole i < 3 → (s.at w).grants (.host i) 0xB0004 = true →
    ∃ t, exec (.scrubLine w (.host i) fault) s = .next t ∧ Only [.time] s t) ∧
  (∀ (w : When) (i : Nat) (s : State), s.mem.mapApplied = true → s.mem.retiring = none → s.mem.retirePageFw ≤ 262143 →
    s.mem.retirePageFw / 1024 ≠ s.spareUnit → s.freeSpare = some i → (s.at w).grants .firmware 0xB0004 = true →
    ∃ t, exec (.retire w .firmware) s = .next t ∧ Only [.time, .memctl] s t
    ∧ t.mem.retiring = some (s.mem.retirePageFw, i, false) ∧ t.mem.resultFw = s.mem.resultFw
    ∧ t.mem.resultHost = s.mem.resultHost ∧ t.mem.retired = s.mem.retired) ∧
  (∀ (w : When) (s : State), s.mem.mapApplied = true → s.mem.retiring = none → s.mem.retirePageFw ≤ 262143 →
    s.mem.retirePageFw / 1024 ≠ s.spareUnit → s.freeSpare = none → (s.at w).grants .firmware 0xB0004 = true →
    ∃ t, exec (.retire w .firmware) s = .next t ∧ Only [.time, .memctl] s t ∧ t.mem.resultFw = 1 ∧ t.mem.retiring = none
    ∧ t.mem.retired = s.mem.retired) ∧
  (∀ (w : When) (s : State), s.mem.mapApplied = true → s.mem.retiring = none →
    (262143 < s.mem.retirePageFw ∨ s.mem.retirePageFw / 1024 = s.spareUnit) → (s.at w).grants .firmware 0xB0004 = true →
    ∃ t, exec (.retire w .firmware) s = .next t ∧ Only [.time, .memctl] s t ∧ t.mem.resultFw = 2 ∧ t.mem.retiring = none
    ∧ t.mem.retired = s.mem.retired) ∧
  (∀ (w : When) (s : State), s.mem.mapApplied = true → s.mem.retiring.isSome = true → (s.at w).grants .firmware 0xB0004 = true →
    ∃ t, exec (.retire w .firmware) s = .next t ∧ Only [.time, .memctl] s t ∧ t.mem.resultFw = 3
    ∧ t.mem.retiring = s.mem.retiring ∧ t.mem.resultHost = s.mem.resultHost) ∧
  (∀ (w : When) (s : State), s.mem.mapApplied = false → (s.at w).grants .firmware 0xB0004 = true →
    ∃ t, exec (.retire w .firmware) s = .next t ∧ Only [.time, .memctl] s t ∧ t.mem.resultFw = 4
    ∧ t.mem.retiring = s.mem.retiring) ∧
  (∀ (w : When) (i : Fin 8) (s : State), s.sesRole i < 3 → (s.at w).grants (.host i) 0xB0004 = true →
    ∃ t, exec (.retire w (.host i)) s = .next t ∧ Only [.time] s t) ∧
  (∀ (w : When) (page i : Nat) (s : State), s.mem.retiring = some (page, i, false) →
    ∃ t, exec (.retireCopyComplete w []) s = .next t ∧ t.pending = s.pending ∧ t.mem.retiring = none
    ∧ t.mem.retired = (s.mem.retired.filter (·.1 != page)) ++ [(page, i)] ∧ t.mem.resultFw = retireResult 0 i
    ∧ t.mem.resultHost = s.mem.resultHost ∧ t.mem.unsaved = s.mem.unsaved ++ [{ eui := s.gen.eui, page := page, spare := i }]
    ∧ t.mem.mem = s.mem.mem) ∧
  (∀ (w : When) (faults : List (Nat × MemFault)) (s : State), s.mem.retiring = none →
    ∃ t, exec (.retireCopyComplete w faults) s = .next t ∧ Only [.time] s t) ∧
  (∀ (w : When) (s : State), s.keeperWritable = true → (s.at w).grants .firmware 0xB0004 = true →
    ∃ t, exec (.purgeForeign w .firmware) s = .next t ∧ Only [.time, .events, .keeper, .sessions, .host] s t
    ∧ t.kpr.jobs = insertJob { cls := 0, kind := .purge s.gen.eui, pages := 2 } s.kpr.jobs ∧ t.mem.retired = s.mem.retired) ∧
  (∀ (w : When) (c : Cartridge) (e : Nat) (s : State), s.kpr.inFlight = some { kind := .purge e, pages := 0 } →
    s.kpr.cartridge = some c → ∃ t, exec (.keeperWriteComplete w true) s = .next t ∧ Only [.time, .cartridge, .keeper] s t
    ∧ (t.kpr.cartridge.map (·.retireMap)) = some (c.retireMap.filter (fun x => x.eui == e)) ∧ t.kpr.inFlight = none) ∧
  (∀ (w : When) (who : Agent) (s : State), (s.keeperWritable = false ∨ fwOrEngineer who s = false) →
    (s.at w).grants who 0xB0004 = true → ∃ t, exec (.purgeForeign w who) s = .next t ∧ Only [.time] s t) ∧
  (∀ (w : When) (idx : Fin 32) (s : State), (s.at w).grants .firmware 0xB0014 = true →
    ∃ t, exec (.ceLogAck w .firmware idx) s = .next t ∧ Only [.time, .memctl] s t ∧ t.mem.ceLog = putAt s.mem.ceLog idx.val {}
    ∧ t.mem.ceLogLost = s.mem.ceLogLost) ∧
  (∀ (w : When) (who : Agent) (idx : Fin 32) (s : State), fwOrEngineer who s = false → (s.at w).grants who 0xB0014 = true →
    ∃ t, exec (.ceLogAck w who idx) s = .next t ∧ Only [.time] s t) ∧
  (∀ (w : When) (who : Agent) (fault : MemFault) (s : State), fwOrEngineer who s = true → (s.at w).grants who 0xB0004 = true →
    ∃ t, exec (.scrubLine w who fault) s = .next t
    ∧ Only [.time, .events, .memctl, .wards, .faults, .ledger, .keeper, .sessions, .host] s t
    ∧ t.mem.rest = (scrubOne (if isHost who then s.mem.scrubLineHost else s.mem.scrubLineFw) fault (s.at w)).mem.rest
    ∧ t.mem.scrubPos = s.mem.scrubPos ∧ t.mem.retired = s.mem.retired) ∧
  (∀ (w : When) (who : Agent) (page i : Nat) (s : State), fwOrEngineer who s = true →
    page = (if isHost who then s.mem.retirePageHost else s.mem.retirePageFw) → s.mem.mapApplied = true → s.mem.retiring = none →
    page ≤ 262143 → page / 1024 ≠ s.spareUnit → s.freeSpare = some i → (s.at w).grants who 0xB0004 = true →
    ∃ t, exec (.retire w who) s = .next t ∧ Only [.time, .memctl] s t ∧ t.mem.retiring = some (page, i, isHost who)
    ∧ t.mem.retired = s.mem.retired ∧ t.mem.unsaved = s.mem.unsaved) ∧
  (∀ (w : When) (page i : Nat) (host : Bool) (faults : List (Nat × MemFault)) (s : State), s.mem.retiring = some (page, i,
    host) → ∃ t, exec (.retireCopyComplete w faults) s = .next t ∧ t.pending = s.pending ∧ t.mem.retiring = none
    ∧ t.mem.retired = (s.mem.retired.filter (·.1 != page)) ++ [(page, i)]
    ∧ (if host then t.mem.resultHost else t.mem.resultFw) = retireResult 0 i
    ∧ t.mem.unsaved = s.mem.unsaved ++ [{ eui := s.gen.eui, page := page, spare := i }]) ∧
  (∀ (w : When) (who : Agent) (s : State), fwOrEngineer who s = true → s.keeperWritable = true →
    (s.at w).grants who 0xB0004 = true → ∃ t, exec (.purgeForeign w who) s = .next t
    ∧ Only [.time, .events, .keeper, .sessions, .host] s t
    ∧ t.kpr.jobs = insertJob { cls := 0, kind := .purge s.gen.eui, pages := 2 } s.kpr.jobs ∧ t.mem.retired = s.mem.retired) ∧
  (∀ (w : When) (who : Agent) (idx : Fin 32) (s : State), fwOrEngineer who s = true → (s.at w).grants who 0xB0014 = true →
    ∃ t, exec (.ceLogAck w who idx) s = .next t ∧ Only [.time, .memctl] s t ∧ t.mem.ceLog = putAt s.mem.ceLog idx.val {}
    ∧ t.mem.ceLogLost = s.mem.ceLogLost)

/-- The firmware installs a rule in a slot or empties a slot: the table changes, the epoch rises by one and drains, and the
  write waits; the complete drain acknowledges it, shows DONE where a write waits for it, and answers those writes. Without a
  table NO_TABLE, in a slot of a fixed rule FIXED, overlapping a rule in force OVERLAP: the table, fixed and run-time, is as
  before and the refusal is counted. An action code out of range is answered RANGE. From any other writer there is no change of
  the table. A ward's drain acknowledges that ward's epoch. The model's own: the operands of the commands (log entry 1), when a
  command acts (log entry 2), the record of what leaves the block (log entry 4). (Rests on R300, R302, R305, R306.) -/
def Obligations.CentralRulesAtRunTime : Prop :=
  (∀ (w : When) (s : State), s.wrd.installCode = 0 → (s.at w).grants .firmware 0xC8038 = true →
    ∃ t, exec (.crtRtInstall w .firmware) s = .next t ∧ Only [.time, .wards] s t ∧ t.wrd.waiting = s.wrd.waiting + 1
    ∧ t.wrd.runtime = (s.wrd.runtime.filter (·.1 != s.wrd.rtSlot)) ++ [(s.wrd.rtSlot, s.wrd.rtRule)] ∧ t.wrd.fixed = s.wrd.fixed
    ∧ t.wrd.epoch = (s.wrd.epoch + 1) % 2 ^ 32 ∧ t.wrd.draining = true ∧ t.wrd.ack = s.wrd.ack ∧ t.wrd.rtResult = s.wrd.rtResult
    ∧ t.wrd.wards = s.wrd.wards) ∧
  (∀ (w : When) (s : State), s.wrd.installCode ≠ 0 → (s.at w).grants .firmware 0xC8038 = true →
    ∃ t, exec (.crtRtInstall w .firmware) s = .next t
    ∧ Only [.time, .events, .wards, .ledger, .keeper, .sessions, .host, .sent] s t
    ∧ t.out = .resp (identOf .firmware) true [] :: s.out ∧ t.wrd.waiting = s.wrd.waiting ∧ t.wrd.runtime = s.wrd.runtime
    ∧ t.wrd.fixed = s.wrd.fixed ∧ t.wrd.epoch = s.wrd.epoch ∧ t.wrd.rtResult = s.wrd.installCode
    ∧ t.wrd.rtRefused = tallyInc s.wrd.rtRefused) ∧
  (∀ (w : When) (s : State), s.wrd.loaded = false → (s.at w).grants .firmware 0xC8038 = true →
    ∃ t, exec (.crtRtInstall w .firmware) s = .next t ∧ t.wrd.rtResult = 5 ∧ t.wrd.runtime = s.wrd.runtime
    ∧ t.wrd.epoch = s.wrd.epoch) ∧
  (∀ (w : When) (r : Rule) (s : State), s.wrd.loaded = true → r ∈ s.wrd.fixed → s.wrd.fixed.length ≤ s.wrd.rtSlot →
    s.wrd.rtLength ≠ 0 → s.wrd.rtRule.base % 64 = 0 → s.wrd.rtSpace = 0 → s.wrd.rtRule.base + 64 * s.wrd.rtLength ≤ memSize →
    wrongMask s.wrd.rtRead = false → wrongMask s.wrd.rtWrite = false → r.overlaps s.wrd.rtRule = true →
    (s.at w).grants .firmware 0xC8038 = true → ∃ t, exec (.crtRtInstall w .firmware) s = .next t ∧ t.wrd.rtResult = 2
    ∧ t.wrd.runtime = s.wrd.runtime ∧ t.wrd.epoch = s.wrd.epoch) ∧
  (∀ (w : When) (who : Agent) (s : State), isFw who = false → ∃ t, exec (.crtRtInstall w who) s = .next t
    ∧ t.pending = s.pending ∧ t.wrd.runtime = s.wrd.runtime ∧ t.wrd.fixed = s.wrd.fixed ∧ t.wrd.epoch = s.wrd.epoch
    ∧ t.wrd.rtResult = s.wrd.rtResult ∧ t.mem = s.mem) ∧
  (∀ (w : When) (s : State), s.wrd.loaded = true → s.wrd.fixed.length ≤ s.wrd.rtSlot →
    (s.at w).grants .firmware 0xC8038 = true → ∃ t, exec (.crtRtEmpty w .firmware) s = .next t ∧ Only [.time, .wards] s t
    ∧ t.wrd.waiting = s.wrd.waiting + 1 ∧ t.wrd.runtime = s.wrd.runtime.filter (·.1 != s.wrd.rtSlot) ∧ t.wrd.fixed = s.wrd.fixed
    ∧ t.wrd.epoch = (s.wrd.epoch + 1) % 2 ^ 32 ∧ t.wrd.draining = true ∧ t.wrd.rtResult = s.wrd.rtResult) ∧
  (∀ (w : When) (s : State), s.wrd.loaded = true → s.wrd.rtSlot < s.wrd.fixed.length →
    (s.at w).grants .firmware 0xC8038 = true → ∃ t, exec (.crtRtEmpty w .firmware) s = .next t ∧ t.pending = s.pending
    ∧ t.wrd.fixed = s.wrd.fixed ∧ t.wrd.runtime = s.wrd.runtime ∧ t.wrd.rtResult = 1 ∧ t.wrd.epoch = s.wrd.epoch) ∧
  (∀ (w : When) (who : Agent) (s : State), isFw who = false → ∃ t, exec (.crtRtEmpty w who) s = .next t ∧ t.pending = s.pending
    ∧ t.wrd.runtime = s.wrd.runtime ∧ t.wrd.fixed = s.wrd.fixed ∧ t.wrd.epoch = s.wrd.epoch ∧ t.wrd.rtResult = s.wrd.rtResult
    ∧ t.mem = s.mem) ∧
  (∀ (w : When) (s : State), (s.at w).grants .firmware 0xC8038 = true → ∃ t, exec (.crtRtInvalidAction w .firmware) s = .next t
    ∧ Only [.time, .wards, .sent] s t ∧ t.out = .resp (identOf .firmware) true [] :: s.out ∧ t.wrd.rtResult = 4
    ∧ t.wrd.rtRefused = tallyInc s.wrd.rtRefused ∧ t.wrd.runtime = s.wrd.runtime ∧ t.wrd.epoch = s.wrd.epoch) ∧
  (∀ (w : When) (s : State), s.wrd.draining = true → ∃ t, exec (.crtDrainComplete w) s = .next t
    ∧ Only [.time, .wards, .sent] s t ∧ t.wrd.rtResult = (if s.wrd.waiting = 0 then s.wrd.rtResult else 0) ∧ t.wrd.waiting = 0
    ∧ t.out = List.replicate s.wrd.waiting (.resp 0 true []) ++ s.out ∧ t.wrd.ack = s.wrd.epoch ∧ t.wrd.draining = false
    ∧ t.wrd.runtime = s.wrd.runtime ∧ t.wrd.epoch = s.wrd.epoch) ∧
  (∀ (w : When) (s : State), s.wrd.draining = false → ∃ t, exec (.crtDrainComplete w) s = .next t ∧ Only [.time] s t) ∧
  (∀ (w : When) (ward : Fin 9) (s : State), ∃ t, exec (.wardDrainComplete w ward) s = .next t ∧ Only [.time, .wards] s t
    ∧ t.wrd.wards = updAt s.wrd.wards ward.val (fun y => { y with ack := y.epoch }) ∧ t.wrd.runtime = s.wrd.runtime
    ∧ t.wrd.epoch = s.wrd.epoch)

/-- A cartridge goes into an empty slot with its bolt open and is not mounted; closing the bolt mounts it (from P3 on) in the
  state its identity and condition give, and on an empty slot mounts nothing. Opening the bolt leaves the keeper ABSENT at
  once; SAFE follows; a cartridge leaves the slot only with the bolt open, and before P4 has ended that returns the start to
  P3. The model's own: the operands of the commands (log entry 1), when a command acts (log entry 2). Formalises: "A keeper
  removed before P4 has completed returns the module to P3, which waits for a keeper under R312." (R393.) -/
def Obligations.KeeperInTheSlot : Prop :=
  (∀ (w : When) (c : Cartridge) (s : State), s.kpr.boltOpen = true → s.kpr.cartridge = none →
    ∃ t, exec (.keeperInsert w c) s = .next t ∧ Only [.time, .cartridge] s t ∧ t.kpr.cartridge = some c ∧ t.kpr.boltOpen = true
    ∧ t.kpr.state = s.kpr.state) ∧
  (∀ (w : When) (c : Cartridge) (s : State), (s.kpr.boltOpen = false ∨ s.kpr.cartridge.isSome = true) →
    ∃ t, exec (.keeperInsert w c) s = .next t ∧ Only [.time] s t) ∧
  (∀ (w : When) (c : Cartridge) (s : State), s.kpr.boltOpen = true → 3 ≤ s.gen.phase → s.kpr.cartridge = some c →
    mountState c (s.at w) ≠ 2 → ∃ t, exec (.boltClose w) s = .next t ∧ t.pending = s.pending ∧ t.kpr.boltOpen = false
    ∧ t.kpr.state = mountState c (s.at w) ∧ t.kpr.safe = false ∧ t.kpr.cartridge.isSome = true) ∧
  (∀ (w : When) (s : State), s.kpr.boltOpen = true → s.kpr.cartridge = none → ∃ t, exec (.boltClose w) s = .next t
    ∧ t.pending = s.pending ∧ t.kpr.boltOpen = false ∧ t.kpr.state = s.kpr.state ∧ t.kpr.cartridge = none ∧ t.bsl = s.bsl) ∧
  (∀ (w : When) (s : State), s.kpr.boltOpen = false → ∃ t, exec (.boltClose w) s = .next t ∧ Only [.time] s t) ∧
  (∀ (w : When) (s : State), s.kpr.boltOpen = false → ∃ t, exec (.boltOpen w) s = .next t ∧ t.pending = s.pending
    ∧ t.kpr.boltOpen = true ∧ t.kpr.state = 0 ∧ t.kpr.cartridge = s.kpr.cartridge ∧ t.seq.retWriting = false
    ∧ t.mem.mem = s.mem.mem ∧ t.mem.retired = s.mem.retired ∧ t.wvl.role = s.wvl.role) ∧
  (∀ (w : When) (s : State), s.kpr.boltOpen = true → ∃ t, exec (.boltOpen w) s = .next t ∧ Only [.time] s t) ∧
  (∀ (w : When) (s : State), s.kpr.boltOpen = true → s.kpr.safe = false → s.kpr.cartridge.isSome = true →
    ∃ t, exec (.keeperSafe w) s = .next t ∧ t.pending = s.pending ∧ t.kpr.safe = true ∧ t.kpr.inFlight = none
    ∧ t.kpr.boltOpen = true) ∧
  (∀ (w : When) (s : State), s.kpr.boltOpen = false → ∃ t, exec (.keeperSafe w) s = .next t ∧ Only [.time] s t) ∧
  (∀ (w : When) (s : State), s.kpr.boltOpen = true → s.kpr.cartridge.isSome = true → s.inService = false → 3 ≤ s.gen.phase →
    ∃ t, exec (.keeperRemove w) s = .next t ∧ t.pending = s.pending ∧ t.kpr.cartridge = none ∧ t.kpr.state = 0 ∧ t.gen.phase = 3
    ∧ t.gen.held = true ∧ t.kpr.refuse = 1) ∧
  (∀ (w : When) (s : State), s.kpr.boltOpen = true → s.kpr.cartridge.isSome = true → s.inService = true →
    ∃ t, exec (.keeperRemove w) s = .next t ∧ t.pending = s.pending ∧ t.kpr.cartridge = none ∧ t.kpr.state = 0 ∧ t.gen = s.gen
    ∧ t.bsl.genCur = s.bsl.genCur ∧ t.mem.mem = s.mem.mem) ∧
  (∀ (w : When) (s : State), s.kpr.boltOpen = false → ∃ t, exec (.keeperRemove w) s = .next t ∧ Only [.time] s t) ∧
  (∀ (w : When) (s : State), s.kpr.boltOpen = true → 3 ≤ s.gen.phase → s.kpr.cartridge.isSome = true →
    ∃ t, exec (.boltClose w) s = .next t ∧ t.pending = s.pending ∧ t.kpr.boltOpen = false ∧ t.kpr.safe = false ∧ t.kpr.state ≠ 0
    ∧ t.mem.mem = s.mem.mem)

/-- COMMISSION by an engineer in P3 turns a BLANK keeper into an OK one with the written names and level, and is ignored
  otherwise. RECOMMISSION with KPR_CONFIRM right empties the slots, the retained slots and the retire map, keeps the ledgers,
  and the module restarts and stops in P4; with a wrong one it only sets CONFIRM_BAD; outside its places it has no effect. A
  page goes out where the governor admits it, and not within 1,000 microseconds of the last. A failed epoch reserve write
  leaves the epoch unreserved. The stale keeper is reported once. The model's own: the operands of the commands (log entry 1),
  when a command acts (log entry 2). (Rests on R309, R313, R315, R317, R318, R320.) -/
def Obligations.CommissioningAndTheGovernor : Prop :=
  (∀ (w : When) (i : Fin 8) (c : Cartridge) (s : State), 3 ≤ s.sesRole i → s.gen.phase = 3 → s.kpr.refuse = 2 →
    s.kpr.state = 1 → s.kpr.cartridge = some c → (s.at w).grants (.host i) 0xF0008 = true →
    ∃ t, exec (.commission w (.host i)) s = .next t ∧ t.pending = s.pending ∧ t.kpr.state = 2
    ∧ (t.kpr.cartridge.map (·.commissioned)) = some true ∧ (t.kpr.cartridge.map (·.side)) = some s.wvl.side
    ∧ (t.kpr.cartridge.map (·.names)) = some s.kpr.names ∧ (t.kpr.cartridge.map (·.blvl)) = some s.kpr.newBlvl
    ∧ (t.kpr.cartridge.map (·.highWater)) = some 0 ∧ (t.kpr.cartridge.map (·.epochReserve)) = some 0) ∧
  (∀ (w : When) (who : Agent) (s : State), (hostAtLeast 3 who s = false ∨ s.gen.phase ≠ 3 ∨ s.kpr.refuse ≠ 2 ∨ s.kpr.state ≠ 1)
    → (s.at w).grants who 0xF0008 = true → ∃ t, exec (.commission w who) s = .next t ∧ Only [.time] s t) ∧
  (∀ (w : When) (i : Fin 8) (c : Cartridge) (s : State), 3 ≤ s.sesRole i →
    (s.gen.phase = 3 ∨ s.gen.phase = 4 ∨ s.wvl.role = 4 ∨ s.wvl.role = 5) → s.keeperWritable = true → s.kpr.cartridge = some c →
    s.kpr.confirm = some (c.ident % 2 ^ 32) → (s.at w).grants (.host i) 0xF0008 = true →
    ∃ t, exec (.recommission w (.host i)) s = .next t ∧ t.pending = s.pending
    ∧ (t.kpr.cartridge.map (·.slots)) = some [none, none] ∧ (t.kpr.cartridge.map (·.retained)) = some [none, none]
    ∧ (t.kpr.cartridge.map (·.retireMap)) = some [] ∧ (t.kpr.cartridge.map (·.highWater)) = some 0
    ∧ (t.kpr.cartridge.map (·.names)) = some s.kpr.names ∧ (t.kpr.cartridge.map (·.ident)) = some c.ident
    ∧ (t.kpr.cartridge.map (·.side)) = some c.side ∧ (t.kpr.cartridge.map (·.running)) = some c.running
    ∧ (t.gen.restart.map (·.entry)) = some 4) ∧
  (∀ (w : When) (i : Fin 8) (c : Cartridge) (s : State), 3 ≤ s.sesRole i →
    (s.gen.phase = 3 ∨ s.gen.phase = 4 ∨ s.wvl.role = 4 ∨ s.wvl.role = 5) → s.keeperWritable = true → s.kpr.cartridge = some c →
    s.kpr.confirm ≠ some (c.ident % 2 ^ 32) → (s.at w).grants (.host i) 0xF0008 = true →
    ∃ t, exec (.recommission w (.host i)) s = .next t ∧ Only [.time, .events, .keeper] s t ∧ t.kpr.confirmBad = true
    ∧ t.kpr.state = s.kpr.state) ∧
  (∀ (w : When) (who : Agent) (s : State), s.gen.phase ≠ 3 → s.gen.phase ≠ 4 → s.wvl.role ≠ 4 → s.wvl.role ≠ 5 →
    (s.at w).grants who 0xF0008 = true → ∃ t, exec (.recommission w who) s = .next t ∧ Only [.time] s t) ∧
  (∀ (w : When) (j : KprJob) (rest : List KprJob) (s : State), s.kpr.jobs = j :: rest → s.stalled j = false →
    s.keeperWritable = true → s.kpr.inFlight = none →
    (s.kpr.lastPage.all fun a => decide (a + 1000000 ≤ max s.aon w.a)) = true → needUnits j.cls ≤ s.kpr.bucket →
    ∃ t, exec (.keeperPageAdmit w) s = .next t ∧ t.pending = s.pending ∧ t.kpr.inFlight = some { j with pages := j.pages - 1 }
    ∧ t.kpr.lastPage = some (max s.aon w.a) ∧ t.wvl = s.wvl) ∧
  (∀ (w : When) (a : Nat) (s : State), s.kpr.lastPage = some a → max s.aon w.a < a + 1000000 → s.kpr.state ≠ 3 →
    ∃ t, exec (.keeperPageAdmit w) s = .next t ∧ Only [.time, .events, .keeper, .sessions, .host] s t
    ∧ t.kpr.inFlight = s.kpr.inFlight ∧ t.kpr.jobs = s.kpr.jobs ∧ t.kpr.lastPage = s.kpr.lastPage) ∧
  (∀ (w : When) (v : Nat) (s : State), s.kpr.inFlight = some { kind := .reserve v, pages := 0 } →
    s.kpr.cartridge.isSome = true → epochAhead v s.cart.epochReserve = true →
    ∃ t, exec (.keeperWriteComplete w true) s = .next t ∧ Only [.time, .pair, .cartridge, .keeper] s t ∧ t.kpr.inFlight = none
    ∧ (t.kpr.cartridge.map (·.epochReserve)) = some v ∧ t.wvl.unreserved = false ∧ t.wvl.role = s.wvl.role
    ∧ t.kpr.jobs = s.kpr.jobs) ∧
  (∀ (w : When) (v : Nat) (s : State), s.kpr.inFlight = some { kind := .reserve v, pages := 0 } →
    ∃ t, exec (.keeperWriteComplete w false) s = .next t ∧ t.pending = s.pending ∧ t.kpr.inFlight = none
    ∧ (t.kpr.cartridge.map (·.epochReserve)) = (s.kpr.cartridge.map (·.epochReserve))
    ∧ (t.kpr.cartridge.map (·.slots)) = (s.kpr.cartridge.map (·.slots)) ∧ t.wvl.unreserved = true ∧ t.wvl.role = s.wvl.role) ∧
  (∀ (w : When) (ok : Bool) (s : State), s.kpr.inFlight = none → ∃ t, exec (.keeperWriteComplete w ok) s = .next t
    ∧ Only [.time] s t) ∧
  (∀ (w : When) (n : Nat) (s : State), s.kpr.notOkSince = some n → s.kpr.staleReported = false → n + aonSec 60 ≤ max s.aon w.a →
    60 < (s.at w).retAge → ∃ t, exec (.keeperStale w) s = .next t ∧ Only [.time, .faults, .keeper] s t
    ∧ t.kpr.staleReported = true
    ∧ (t.fcr.sources.getD 24 {}).events = ((report 24 0xFF (s.at w)).fcr.sources.getD 24 {}).events) ∧
  (∀ (w : When) (s : State), s.kpr.staleReported = true → ∃ t, exec (.keeperStale w) s = .next t ∧ Only [.time] s t) ∧
  (∀ (w : When) (ok : Bool) (j : KprJob) (s : State), s.kpr.inFlight = some j → j.pages ≠ 0 →
    ∃ t, exec (.keeperWriteComplete w ok) s = .next t ∧ t.pending = s.pending ∧ t.kpr.inFlight = none ∧ (ok = true →
    t.kpr.jobs = s.kpr.jobs) ∧ t.fio = s.fio) ∧
  (∀ (w : When) (e : RetireEntry) (s : State), s.kpr.inFlight = some { kind := .retire e, pages := 0 } →
    ∃ t, exec (.keeperWriteComplete w true) s = .next t ∧ Only [.time, .memctl, .cartridge, .keeper] s t ∧ t.kpr.inFlight = none
    ∧ t.mem.unsaved = s.mem.unsaved.filter (· != e) ∧ t.mem.retired = s.mem.retired) ∧
  (∀ (w : When) (img : RetImage) (c : Cartridge) (s : State), s.kpr.inFlight = some
    { kind := .retained img, pages := 0, cls := 1 } → s.kpr.cartridge = some c →
    ∃ t, exec (.keeperWriteComplete w true) s = .next t ∧ Only [.time, .sequencer, .cartridge, .keeper] s t
    ∧ t.kpr.inFlight = none ∧ t.seq.retWriting = false ∧ t.seq.retLast = some (max s.aon w.a)
    ∧ t.kpr.cartridge = some { c with retained := putAt c.retained c.roundSlot (some { image := img }) }) ∧
  (∀ (w : When) (n : Nat) (s : State), s.kpr.inFlight = some { kind := .ledger n, pages := 0, cls := 2 } →
    n ≤ s.lgr.held.length → ∃ t, exec (.keeperWriteComplete w true) s = .next t
    ∧ Only [.time, .events, .ledger, .cartridge, .keeper, .sessions, .host] s t ∧ t.kpr.inFlight = none
    ∧ t.lgr.held = s.lgr.held.drop n ∧ t.lgr.nextSeq = s.lgr.nextSeq) ∧
  (∀ (w : When) (a : AccessSet) (c : Cartridge) (s : State), s.kpr.inFlight = some { kind := .access a, pages := 0, cls := 3 } →
    s.kpr.cartridge = some c → ∃ t, exec (.keeperWriteComplete w true) s = .next t
    ∧ Only [.time, .cartridge, .keeper, .access] s t ∧ t.kpr.inFlight = none
    ∧ t.kpr.cartridge = some { c with access := some a } ∧ t.hif.accessReady = s.hif.accessReady ++ [a]
    ∧ t.hif.access = s.hif.access)

/-- A record that the firmware requests outside its codes is refused with code 3 and changes no record; from anyone else the
  request has no effect. A record of an exempt code is numbered and held. A snapshot latches LOW and HIGH; a read above HIGH
  answers 2, without a readable keeper 3, of a number the ledger does not hold it answers 1 with SEQ and zeros. A partial page
  waits for 1 s. Without a pending suppression there is nothing to summarise. The model's own: the operands of the commands
  (log entry 1), when a command acts (log entry 2). (Rests on R324, R329, R330, R332, R333, R320.) -/
def Obligations.LedgerRecordsAndReads : Prop :=
  (∀ (w : When) (s : State), (s.lgr.reqCode % 65536 < 0x8000 ∨ s.lgr.reqCode % 65536 = 0xFFFF) →
    (s.at w).grants .firmware 0xE0008 = true → ∃ t, exec (.lgrReq w .firmware) s = .next t
    ∧ Only [.time, .events, .ledger, .sessions, .host] s t ∧ t.lgr.reqResult = 3 ∧ t.lgr.held = s.lgr.held
    ∧ t.lgr.unnumbered = s.lgr.unnumbered ∧ t.lgr.nextSeq = s.lgr.nextSeq) ∧
  (∀ (w : When) (k : Nat) (s : State), 0x8000 ≤ s.lgr.reqCode % 65536 → s.lgr.reqCode % 65536 ≤ 0xFFFE →
    ((s.at w).bucket (s.lgr.reqCode % 65536)).hasToken = true → s.hold < 49152 → s.recordOwner = some k →
    (s.at w).grants .firmware 0xE0008 = true → ∃ t, exec (.lgrReq w .firmware) s = .next t
    ∧ Only [.time, .events, .ledger, .keeper, .sessions, .host] s t ∧ t.lgr.reqResult = 0
    ∧ t.lgr.nextSeq = (if s.lgr.owner = some k then s.lgr.nextSeq + 1 else s.lgr.nextSeq)
    ∧ t.lgr.held = placeRecord
    { { mkRecord (s.lgr.reqCode % 65536) (s.lgr.reqCode / 65536) s.lgr.reqData (s.at w) with flags := s.recFlags true } with seq := s.lgr.seqFor k, keeper := k }
    s.lgr.held ∧ t.kpr.cartridge = s.kpr.cartridge) ∧
  (∀ (w : When) (who : Agent) (s : State), isFw who = false → (s.at w).grants who 0xE0008 = true →
    ∃ t, exec (.lgrReq w who) s = .next t ∧ Only [.time] s t) ∧
  (∀ (w : When) (s : State), s.keeperReadable = true → (s.at w).grants .firmware 0xE0008 = true →
    ∃ t, exec (.lgrSnap w .firmware) s = .next t ∧ Only [.time, .ledger] s t ∧ t.lgr.snapLow = s.cart.lowest
    ∧ t.lgr.snapHigh = s.cart.highest ∧ t.lgr.held = s.lgr.held) ∧
  (∀ (w : When) (who : Agent) (s : State), (isFw who = false ∨ s.keeperReadable = false) → (s.at w).grants who 0xE0008 = true →
    ∃ t, exec (.lgrSnap w who) s = .next t ∧ Only [.time] s t) ∧
  (∀ (w : When) (s : State), s.keeperReadable = false → (s.at w).grants .firmware 0xE0008 = true →
    ∃ t, exec (.lgrRead w .firmware) s = .next t ∧ Only [.time, .ledger] s t ∧ t.lgr.rdCode = 3
    ∧ t.lgr.recBytes = s.lgr.recBytes ∧ t.lgr.held = s.lgr.held) ∧
  (∀ (w : When) (s : State), s.keeperReadable = true → s.lgr.snapHigh < s.lgr.rdLo + s.lgr.rdHi * 2 ^ 32 →
    (s.at w).grants .firmware 0xE0008 = true → ∃ t, exec (.lgrRead w .firmware) s = .next t ∧ Only [.time, .ledger] s t
    ∧ t.lgr.rdCode = 2 ∧ t.lgr.recBytes = s.lgr.recBytes) ∧
  (∀ (w : When) (n : Nat) (s : State), s.keeperReadable = true → n = s.lgr.rdLo + s.lgr.rdHi * 2 ^ 32 → n ≤ s.lgr.snapHigh →
    findRecord s.cart n = none → (s.at w).grants .firmware 0xE0008 = true → ∃ t, exec (.lgrRead w .firmware) s = .next t
    ∧ Only [.time, .ledger] s t ∧ t.lgr.rdCode = 1 ∧ t.lgr.recBytes = natLe n 8 ++ List.replicate 56 0) ∧
  (∀ (w : When) (n : Nat) (r : LedgerRecord) (s : State), s.keeperReadable = true → n = s.lgr.rdLo + s.lgr.rdHi * 2 ^ 32 →
    n ≤ s.lgr.snapHigh → findRecord s.cart n = some r → (s.at w).grants .firmware 0xE0008 = true →
    ∃ t, exec (.lgrRead w .firmware) s = .next t ∧ Only [.time, .ledger] s t ∧ t.lgr.rdCode = 0 ∧ t.lgr.recBytes = r.bytes) ∧
  (∀ (w : When) (who : Agent) (s : State), isFw who = false → (s.at w).grants who 0xE0008 = true →
    ∃ t, exec (.lgrRead w who) s = .next t ∧ Only [.time] s t) ∧
  (∀ (w : When) (s : State), (s.lgr.held = [] ∨ max s.aon w.a < s.lgr.oldest + aonSec 1) →
    ∃ t, exec (.ledgerPageTimeout w) s = .next t ∧ Only [.time] s t) ∧
  (∀ (w : When) (s : State), s.lgr.held ≠ [] → s.lgr.oldest + aonSec 1 ≤ max s.aon w.a → s.keeperWritable = true →
    s.kpr.jobs = [] → s.kpr.inFlight = none → s.slotOpen 22 = true → ∃ t, exec (.ledgerPageTimeout w) s = .next t
    ∧ Only [.time, .events, .keeper, .sessions, .host] s t
    ∧ t.kpr.jobs = [{ cls := 2, kind := .ledger (min s.lgr.pageRoom s.lgr.held.length), pages := 1 }] ∧ t.lgr = s.lgr
    ∧ t.kpr.throttled = true) ∧
  (∀ (w : When) (s : State), s.lgr.pending = [] → ∃ t, exec (.suppressionSummary w) s = .next t ∧ Only [.time] s t) ∧
  (∀ (w : When) (x : Suppressed) (k : Nat) (s : State), s.lgr.pending = [x] →
    tokenUnit ≤ (((s.lgr.buckets.getD (bucketFor s.lgr.buckets x.code) {}).fill (max s.aon w.a)).level) →
    bucketFor s.lgr.buckets x.code < s.lgr.buckets.length → s.hold < 49152 → s.recordOwner = some k → s.lgr.owner = some k →
    ∃ t, exec (.suppressionSummary w) s = .next t ∧ Only [.time, .events, .ledger, .keeper, .sessions, .host] s t
    ∧ t.lgr.pending = [] ∧ t.lgr.nextSeq = s.lgr.nextSeq + 1) ∧
  (∀ (w : When) (i : Fin 8) (x : Session) (s : State), s.hif.sessions.getD i.val none = some x → s.serves i 1 = true →
    s.keeperReadable = true → ∃ t, exec (.ledgerSnap w i) s = .next t ∧ Only [.time, .sessions, .sent] s t
    ∧ t.lgr.snapHigh = s.lgr.snapHigh
    ∧ (t.hif.sessions.getD i.val none).map (fun y => (y.snapLow, y.snapHigh, y.hasSnap, y.role)) = some (s.cart.lowest,
    s.cart.highest, true, x.role)) ∧
  (∀ (w : When) (x : Suppressed) (i : Nat) (s : State), s.lgr.pending.contains x = true → bucketFor s.lgr.buckets x.code = i →
    tokenUnit ≤ (((s.lgr.buckets.getD i {}).fill (max s.aon w.a)).level) → ∃ t, exec (.suppressionSummary w) s = .next t
    ∧ Only [.time, .events, .ledger, .keeper, .sessions, .host] s t ∧ (t.lgr.pending.all fun y => y.code != x.code) = true
    ∧ s.lgr.nextSeq ≤ t.lgr.nextSeq) ∧
  (∀ (w : When) (s : State), s.lgr.held ≠ [] → s.lgr.oldest + aonSec 1 ≤ max s.aon w.a → s.keeperWritable = true →
    s.kpr.jobs.any (·.cls == 2) = false → s.kpr.inFlight.any (·.cls == 2) = false → s.slotOpen 22 = true →
    ∃ t, exec (.ledgerPageTimeout w) s = .next t ∧ Only [.time, .events, .keeper, .sessions, .host] s t
    ∧ t.kpr.jobs.contains { cls := 2, kind := .ledger (min s.lgr.pageRoom s.lgr.held.length), pages := 1 } = true
    ∧ t.kpr.jobs.length = s.kpr.jobs.length + 1 ∧ (s.kpr.jobs.all (t.kpr.jobs.contains ·)) = true ∧ t.lgr = s.lgr)

/-- A source whose N-th event fell within W becomes severe once, with every other that became due in the same cycle (log entry
  137); one that is not due does not. The firmware's acknowledgement of a severe source clears severity, window history and
  fence and cancels a blocked hand-over, and restores no role; of a source that is not severe it has no effect. Source 22 sends
  no RELINQUISH to a partner whose heartbeat shows TRACEABLE at 0: the hand-over is blocked, stays blocked through such
  heartbeats, and goes ahead at the first that shows a traceable STANDBY. FCR_CFG of a source that is not forcing takes a write
  within range, clears the history without changing the severity, and is ignored otherwise. The model's own: the operands of
  the commands (log entry 1), when a command acts (log entry 2), the record of what leaves the block (log entry 4). Formalises:
  "Source 22 does not send RELINQUISH while the partner's heartbeat shows `TRACEABLE` at 0. The hand-over stays blocked under
  R338 until the partner is traceable again." (R339.) -/
def Obligations.FaultSources : Prop :=
  (∀ (w : When) (d : Digests) (s : State), (s.source 8).due = true → (s.source 8).severe = false → 8 < s.fcr.sources.length →
    ∃ t, exec (.sourceSevere w 8 d {}) s = .next t ∧ t.pending = s.pending ∧ (t.source 8).severe = true
    ∧ (t.source 8).due = false ∧ (t.source 8).fenced = (s.source 8).fenced ∧ t.wvl.role = s.wvl.role) ∧
  (∀ (w : When) (source : Fin 48) (d : Digests) (s : State), ((s.source source.val).due = false ∨ (s.source source.val).severe
    = true) → ∃ t, exec (.sourceSevere w source d {}) s = .next t ∧ Only [.time] s t) ∧
  (∀ (w : When) (d : Digests) (s : State), (s.source 32).due = true → (s.source 32).severe = false → s.fcr.alone 32 = true →
    32 < s.fcr.sources.length → ∃ t, exec (.sourceSevere w 32 d {}) s = .next t ∧ t.pending = s.pending
    ∧ (t.source 32).severe = true ∧ (t.source 32).fenced = true ∧ t.svi.fenced = true ∧ t.phe.fenced = s.phe.fenced
    ∧ t.wvl.role = s.wvl.role) ∧
  (∀ (w : When) (d : Digests) (s : State), (s.source 20).due = true → (s.source 20).severe = false → 20 < s.fcr.sources.length →
    s.primary = true → s.partnerStandby = false → ∃ t, exec (.sourceSevere w 20 d {}) s = .next t ∧ t.pending = s.pending
    ∧ (t.source 20).severe = true ∧ 20 ∈ t.fcr.blocked ∧ t.wvl.role = 1) ∧
  (∀ (w : When) (d : Digests) (s : State), (s.source 22).due = true → (s.source 22).severe = false → s.fcr.alone 22 = true →
    22 < s.fcr.sources.length → s.primary = true → s.partnerStandby = true → s.wvl.partner.flags.testBit 0 = false →
    ∃ t, exec (.sourceSevere w 22 d {}) s = .next t
    ∧ Only [.time, .start, .events, .faults, .ledger, .keeper, .sessions, .host] s t ∧ (t.source 22).severe = true
    ∧ 22 ∈ t.fcr.blocked ∧ t.wvl = s.wvl ∧ t.out = s.out) ∧
  (∀ (w : When) (h : Heartbeat) (s : State), s.pair.mode ≠ 0 → h.hdr.side ≠ s.wvl.side → h.hdr.role = 3 →
    h.flags.testBit 0 = false → s.primary = true → s.fcr.blocked = [22] → ∃ t, exec (.heartbeatReceived w h) s = .next t
    ∧ t.fcr.blocked = [22] ∧ t.wvl.handover = s.wvl.handover ∧ t.wvl.role = 1) ∧
  (∀ (w : When) (h : Heartbeat) (s : State), s.pair.mode ≠ 0 → h.hdr.side ≠ s.wvl.side → h.hdr.role = 3 →
    h.flags.testBit 0 = true → s.primary = true → s.severe 22 = true → s.fcr.blocked = [22] →
    ∃ t, exec (.heartbeatReceived w h) s = .next t ∧ t.fcr.blocked = []
    ∧ t.wvl.handover = some
    { asked := (s.at w).islandTime linkIsland, cause := 2, h := some (s.forcedH.getD (s.pcount + 2)), acked := true, forced := true }) ∧
  (∀ (w : When) (s : State), (s.source 8).severe = true → 8 < s.fcr.sources.length → (s.at w).grants .firmware 0xD0018 = true →
    ∃ t, exec (.fcrAck w .firmware 8) s = .next t ∧ t.pending = s.pending ∧ (t.source 8).severe = false
    ∧ (t.source 8).recent = [] ∧ (t.source 8).fenced = false ∧ t.wvl.role = s.wvl.role
    ∧ t.fcr.blocked = s.fcr.blocked.filter (· != 8)) ∧
  (∀ (w : When) (s : State), (s.source 32).severe = true → (s.source 32).fenced = true → 32 < s.fcr.sources.length →
    (s.at w).grants .firmware 0xD0018 = true → ∃ t, exec (.fcrAck w .firmware 32) s = .next t ∧ t.pending = s.pending
    ∧ (t.source 32).severe = false ∧ (t.source 32).fenced = false ∧ t.svi.fenced = false ∧ t.wvl.role = s.wvl.role) ∧
  (∀ (w : When) (source : Fin 64) (who : Agent) (s : State), (s.source source.val).severe = false →
    (s.at w).grants who 0xD0018 = true → ∃ t, exec (.fcrAck w who source) s = .next t ∧ Only [.time] s t) ∧
  (∀ (w : When) (i : Fin 8) (source : Fin 64) (s : State), s.sesRole i < 2 → ∃ t, exec (.fcrAck w (.host i) source) s = .next t
    ∧ Only [.time, .sent] s t ∧ t.out = .resp (identOf (.host i)) false [] :: s.out) ∧
  (∀ (w : When) (v : Word) (s : State), s.fcr.selFw = 8 → 8 < s.fcr.sources.length → 1 ≤ v.toNat / 2 ^ 24 →
    1 ≤ v.toNat % 65536 → v.toNat % 65536 ≤ 60000 → (s.at w).grants .firmware 0xD0028 = true →
    ∃ t, exec (.fcrCfgWrite w .firmware v) s = .next t ∧ Only [.time, .events, .faults, .ledger, .keeper, .sessions, .host] s t
    ∧ (t.source 8).n = v.toNat / 2 ^ 24 ∧ (t.source 8).wms = v.toNat % 65536 ∧ (t.source 8).recent = []
    ∧ (t.source 8).severe = (s.source 8).severe ∧ t.source 9 = s.source 9) ∧
  (∀ (w : When) (v : Word) (s : State), (60000 < v.toNat % 65536 ∨ v.toNat % 65536 = 0 ∨ v.toNat / 2 ^ 24 = 0) →
    (s.at w).grants .firmware 0xD0028 = true → ∃ t, exec (.fcrCfgWrite w .firmware v) s = .next t ∧ Only [.time] s t) ∧
  (∀ (w : When) (v : Word) (s : State), (forcing.contains s.fcr.selFw ∨ 38 ≤ s.fcr.selFw) →
    (s.at w).grants .firmware 0xD0028 = true → ∃ t, exec (.fcrCfgWrite w .firmware v) s = .next t ∧ Only [.time] s t) ∧
  (∀ (w : When) (source : Fin 48) (d : Digests) (s : State), (s.source source.val).due = true →
    (s.source source.val).severe = false → source.val < s.fcr.sources.length →
    ∃ t, exec (.sourceSevere w source d {}) s = .next t ∧ t.pending = s.pending ∧ (t.source source.val).severe = true
    ∧ (t.source source.val).due = false ∧ t.tmb = s.tmb ∧ t.bsl = s.bsl) ∧
  (∀ (w : When) (i j : Fin 48) (d : Digests) (s : State), (s.source i.val).due = true → (s.source i.val).severe = false →
    (s.source j.val).due = true → (s.source j.val).severe = false → (s.source j.val).dueAt = (s.source i.val).dueAt →
    j.val < s.fcr.sources.length → ∃ t, exec (.sourceSevere w i d {}) s = .next t ∧ t.pending = s.pending
    ∧ (t.source j.val).severe = true ∧ (t.source j.val).due = false) ∧
  (∀ (w : When) (who : Agent) (source : Fin 64) (s : State), (isFw who = true ∨ hostAtLeast 2 who s = true) →
    (s.source source.val).severe = true → source.val < s.fcr.sources.length → (s.at w).grants who 0xD0018 = true →
    ∃ t, exec (.fcrAck w who source) s = .next t ∧ t.pending = s.pending ∧ (t.source source.val).severe = false
    ∧ (t.source source.val).recent = [] ∧ (t.source source.val).fenced = false ∧ t.wvl.role = s.wvl.role
    ∧ t.fcr.blocked = s.fcr.blocked.filter (· != source.val)) ∧
  (∀ (w : When) (who : Agent) (v : Word) (i : Nat) (s : State), fwOrEngineer who s = true →
    i = (if isHost who then s.fcr.selHost else s.fcr.selFw) → i < 38 ∧ i < s.fcr.sources.length → i ∉ forcing →
    1 ≤ v.toNat / 2 ^ 24 → 1 ≤ v.toNat % 65536 → v.toNat % 65536 ≤ 60000 → (s.at w).grants who 0xD0028 = true →
    ∃ t, exec (.fcrCfgWrite w who v) s = .next t ∧ Only [.time, .events, .faults, .ledger, .keeper, .sessions, .host] s t
    ∧ (t.source i).n = v.toNat / 2 ^ 24 ∧ (t.source i).wms = v.toNat % 65536 ∧ (t.source i).recent = []
    ∧ (t.source i).severe = (s.source i).severe)

/-- An admitted write of main memory leaves memory as the write gives it, an admitted read returns the bytes with memory as
  before; a read of words that fail their check, and a partial write that meets one, end with an error response and no data. A
  transaction that the checks refuse ends with an error response and changes neither memory nor a unit. From a stopped triad
  nothing is issued, whether as a transaction or as a command that is a register's write; such a write that a check refuses is
  answered with an error response. The model's own: the operands of the commands (log entry 1), when a command acts (log entry
  2), the record of what leaves the block (log entry 4). (Rests on R14, R226, R228, R230, R284, R288, R295, R307.) -/
def Obligations.TransactionsOfMasters : Prop :=
  (∀ (w : When) (tx : Tx) (m : Memory) (s : State), s.issues tx.ident.val = true → tx.space = 0 → tx.isWrite = true →
    tx.memFaults = [] → (checkAccess tx.ident.val 0 tx.addr tx.data.length true (s.at w)).1 = none →
    s.mem.mem.write tx.addr tx.data = .ok m → ∃ t, exec (.masterTransaction w tx) s = .next t ∧ t.pending = s.pending
    ∧ t.mem.mem = m ∧ t.out = .resp tx.ident.val true [] :: s.out ∧ t.fio = s.fio ∧ t.prt = s.prt ∧ t.kpr = s.kpr) ∧
  (∀ (w : When) (tx : Tx) (bs : List Byte) (s : State), s.issues tx.ident.val = true → tx.space = 0 → tx.isWrite = false →
    tx.memFaults = [] → (checkAccess tx.ident.val 0 tx.addr tx.size false (s.at w)).1 = none →
    s.mem.mem.readBytes tx.addr tx.size = some bs → ∃ t, exec (.masterTransaction w tx) s = .next t ∧ t.pending = s.pending
    ∧ t.mem = s.mem ∧ t.out = .resp tx.ident.val true bs :: s.out ∧ t.fio = s.fio ∧ t.kpr = s.kpr) ∧
  (∀ (w : When) (tx : Tx) (s : State), s.issues tx.ident.val = true → tx.space = 0 → tx.isWrite = false →
    (checkAccess tx.ident.val 0 tx.addr tx.size false (s.at w)).1 = none → ((tx.memFaults = [(0, .uncorrectable)]
    ∧ 0 < tx.size) ∨ s.mem.mem.readBytes tx.addr tx.size = none) → ∃ t, exec (.masterTransaction w tx) s = .next t
    ∧ t.pending = s.pending ∧ t.mem.mem = s.mem.mem ∧ t.out = .resp tx.ident.val false [] :: s.out ∧ t.wvl.role = s.wvl.role) ∧
  (∀ (w : When) (tx : Tx) (st : Nat) (s : State), s.issues tx.ident.val = true →
    (checkAccess tx.ident.val tx.space.val tx.addr (if tx.isWrite then tx.data.length else tx.size) tx.isWrite (s.at w)).1 =
    some st → ∃ t, exec (.masterTransaction w tx) s = .next t
    ∧ Only [.time, .events, .triad, .wards, .faults, .ledger, .keeper, .sessions, .host, .debug, .sent] s t
    ∧ t.out = .resp tx.ident.val false [] :: s.out) ∧
  (∀ (w : When) (tx : Tx) (s : State), tx.ident = 0 → s.trd.mode = 4 → ∃ t, exec (.masterTransaction w tx) s = .next t
    ∧ Only [.time] s t) ∧
  (∀ (w : When) (tx : Tx) (i : Nat) (s : State), tx.ident.val = i → 9 ≤ i ∧ i ≤ 13 ∧ i ≠ 11 → tx.space = 0 →
    tx.isWrite = false → tx.addr + max 1 tx.size ≤ memSize →
    (centralVerdict s.wrd.rules 0 i tx.addr (max 1 tx.size) false).isSome = true →
    ∃ t, exec (.masterTransaction w tx) s = .next t ∧ t.pending = s.pending ∧ t.wrd.refused = tallyInc s.wrd.refused
    ∧ t.wrd.runtime = s.wrd.runtime ∧ t.mem.mem = s.mem.mem ∧ t.out = .resp i false [] :: s.out) ∧
  (∀ (w : When) (who : Agent) (task : Fin 16) (s : State), s.issues (identOf who) = false →
    ∃ t, exec (.seqCommit w who task) s = .next t ∧ Only [.time] s t) ∧
  (∀ (w : When) (who : Agent) (g : Fin 12) (s : State), s.issues (identOf who) = false →
    ∃ t, exec (.pulseArm w who g) s = .next t ∧ Only [.time] s t) ∧
  (∀ (w : When) (who : Agent) (s : State), s.issues (identOf who) = false → ∃ t, exec (.wvlHandover w who) s = .next t
    ∧ Only [.time] s t) ∧
  (∀ (w : When) (who : Agent) (task : Fin 16) (s : State), s.issues (identOf who) = true → s.mayWrite who = true →
    (checkAccess (identOf who) 1 0x60008 4 true (s.at w)).1.isSome = true → ∃ t, exec (.seqCommit w who task) s = .next t
    ∧ Only [.time, .events, .debug, .wards, .faults, .ledger, .keeper, .sessions, .host, .sent] s t
    ∧ t.out = .resp (identOf who) false [] :: s.out) ∧
  (∀ (w : When) (who : Agent) (g : Fin 12) (s : State), s.issues (identOf who) = true → s.mayWrite who = true →
    (checkAccess (identOf who) 1 (0x10100 + 0x20 * g.val) 4 true (s.at w)).1.isSome = true →
    ∃ t, exec (.pulseArm w who g) s = .next t
    ∧ Only [.time, .events, .debug, .wards, .faults, .ledger, .keeper, .sessions, .host, .sent] s t
    ∧ t.out = .resp (identOf who) false [] :: s.out ∧ t.tmb.gens = s.tmb.gens)

/-- A write of a register by the firmware takes effect; a host write that its register admits only from a higher role is ROLE
  and has no effect; a write of an RO register is ignored; a write beyond the register space ends with an error response. An
  access to the range of an absent unit that its gate admits ends with an error response, ABSENT for the host, has no effect,
  and requests the record 0x0001 under its limit. READ attempts every entry and answers its values; WRITE performs the entries
  and is refused with RANGE for no entry or more than 64. The model's own: the operands of the commands (log entry 1), when a
  command acts (log entry 2), the record of what leaves the block (log entry 4). Formalises: "An access to the register range
  or table memory of an absent unit ends with an error response." (R5.) -/
def Obligations.RegisterAccesses : Prop :=
  (∀ (w : When) (v : Word) (d : Digests) (s : State), s.wrd.loaded = false → s.trd.mode ≠ 4 →
    ∃ t, exec (.registerWrite w .firmware 0xB0008 v d) s = .next t ∧ Only [.time, .memctl, .sent] s t
    ∧ t.mem.retirePageFw = v.toNat % 2 ^ 18 ∧ t.mem.retirePageHost = s.mem.retirePageHost ∧ t.out = .resp 0 true [] :: s.out) ∧
  (∀ (w : When) (v : Word) (d : Digests) (s : State), s.wrd.loaded = false → s.trd.mode ≠ 4 →
    ∃ t, exec (.registerWrite w .firmware 0x18 v d) s = .next t ∧ Only [.time, .sent] s t ∧ t.out = .resp 0 true [] :: s.out) ∧
  (∀ (w : When) (addr : Nat) (v : Word) (d : Digests) (s : State), 0x14FFFD ≤ addr → s.trd.mode ≠ 4 →
    ∃ t, exec (.registerWrite w .firmware addr v d) s = .next t
    ∧ Only [.time, .events, .wards, .faults, .ledger, .keeper, .sessions, .host, .sent] s t ∧ t.out = .resp 0 false [] :: s.out) ∧
  (∀ (w : When) (i : Fin 8) (addr : Nat) (v : Word) (d : Digests) (s : State), s.sesRole i < 2 →
    ∃ t, exec (.registerWrite w (.host i) addr v d) s = .next t ∧ Only [.time, .sent] s t ∧ t.out = .resp 9 false [] :: s.out) ∧
  (∀ (w : When) (i : Fin 8) (x : Session) (s : State), s.hif.sessions.getD i.val none = some x → s.serves i 1 = true →
    s.wrd.loaded = false → ∃ t, exec (.read w i [0]) s = .next t ∧ Only [.time, .sessions, .sent] s t
    ∧ t.out = shpOut w 2 i.val 0 0 [1, 0x64, 0] :: s.out) ∧
  (∀ (w : When) (i : Fin 8) (x : Session) (addrs : List Nat) (s : State), s.hif.sessions.getD i.val none = some x →
    s.serves i 1 = true → (addrs = [] ∨ 64 < addrs.length) → ∃ t, exec (.read w i addrs) s = .next t
    ∧ Only [.time, .sessions, .sent] s t ∧ t.out = shpOut w 2 i.val 9 0 [] :: s.out) ∧
  (∀ (w : When) (i : Fin 8) (x : Session) (v : Word) (s : State), s.hif.sessions.getD i.val none = some x →
    s.serves i 3 = true → s.wrd.loaded = false → ∃ t, exec (.write w i [(0xF0028, v)]) s = .next t
    ∧ Only [.time, .keeper, .sessions, .sent] s t ∧ t.kpr.confirm = some v.toNat ∧ t.kpr.names = s.kpr.names
    ∧ t.out = shpOut w 3 i.val 0 0 [1, 0] :: s.out) ∧
  (∀ (w : When) (i : Fin 8) (x : Session) (v : Word) (s : State), s.hif.sessions.getD i.val none = some x →
    s.serves i 2 = true → x.role = 2 → s.wrd.loaded = false → ∃ t, exec (.write w i [(0xF0028, v)]) s = .next t
    ∧ Only [.time, .sessions, .host, .sent] s t ∧ t.kpr.confirm = s.kpr.confirm ∧ t.hif.roleRefused = tallyInc s.hif.roleRefused
    ∧ t.out = shpOut w 3 i.val 3 0 [1, 3] :: s.out) ∧
  (∀ (w : When) (i : Fin 8) (x : Session) (s : State), s.hif.sessions.getD i.val none = some x → s.serves i 2 = true →
    ∃ t, exec (.write w i []) s = .next t ∧ Only [.time, .sessions, .sent] s t ∧ t.out = shpOut w 3 i.val 9 0 [] :: s.out) ∧
  (∀ (w : When) (tx : Tx) (n : Nat) (s : State), tx.ident = 0 → tx.space = 1 → s.trd.mode ≠ 4 →
    n = max 1 (if tx.isWrite then tx.data.length else tx.size) → tx.addr + n ≤ regSize → s.absentAt tx.addr = true →
    gateVerdict 0 1 tx.addr n tx.isWrite s = none → ∃ t, exec (.masterTransaction w tx) s = .next t
    ∧ Only [.time, .events, .ledger, .keeper, .sessions, .host, .sent] s t ∧ t.out = .resp 0 false [] :: s.out
    ∧ t.lgr = (ledger 0x0001 0xFFFF [tx.addr, 0] (s.at w)).lgr) ∧
  (∀ (w : When) (i : Fin 8) (x : Session) (a : Nat) (v : Word) (s : State), s.hif.sessions.getD i.val none = some x →
    s.serves i 2 = true → a + 4 ≤ regSize → s.absentAt a = true → centralVerdict s.wrd.rules 1 9 a 4 true = none →
    ∃ t, exec (.write w i [(a, v)]) s = .next t ∧ Only [.time, .events, .ledger, .keeper, .sessions, .host, .sent] s t
    ∧ t.out = shpOut w 3 i.val 5 0 [1, 5] :: s.out) ∧
  (∀ (w : When) (i : Fin 8) (x : Session) (a : Nat) (s : State), s.hif.sessions.getD i.val none = some x → s.serves i 1 = true →
    a + 4 ≤ regSize → s.absentAt a = true → centralVerdict s.wrd.rules 1 9 a 4 false = none →
    ∃ t, exec (.read w i [a]) s = .next t ∧ Only [.time, .events, .ledger, .keeper, .sessions, .host, .sent] s t
    ∧ t.out = shpOut w 2 i.val 5 0 [1, 0, 5] :: s.out) ∧
  (∀ (w : When) (i : Fin 8) (addrs : List Nat) (s : State), s.serves i 1 = true → 1 ≤ addrs.length ∧ addrs.length ≤ 64 →
    ∃ t, exec (.read w i addrs) s = .next t ∧ t.pending = s.pending
    ∧ ((t.out.head?.bind Out.shpReply).map fun o => (o.1, o.2.2)) = some (i.val, 0, 1 + 2 * addrs.length) ∧ t.cfg = s.cfg
    ∧ t.seq.tasks = s.seq.tasks ∧ t.kpr.cartridge = s.kpr.cartridge) ∧
  (∀ (w : When) (i : Fin 8) (es : List (Nat × Word)) (s : State), s.serves i 2 = true → 1 ≤ es.length ∧ es.length ≤ 64 →
    ∃ t, exec (.write w i es) s = .next t ∧ t.pending = s.pending
    ∧ (t.out.any fun o => (o.shpReply.map fun o => (o.1, o.2.2)) == some (i.val, 0, 1 + es.length)) = true) ∧
  (∀ (w : When) (who : Agent) (addr : Nat) (v : Word) (d : Digests) (s : State), s.issues (identOf who) = true →
    s.mayWrite who = true → (tryWrite who d addr v (s.at w)).2.wrd.draining = false →
    ∃ t, exec (.registerWrite w who addr v d) s = .next t ∧ t.pending = s.pending
    ∧ t = emit (.resp (identOf who) (decide ((tryWrite who d addr v (s.at w)).1.1 = 0)) []) (tryWrite who d addr v (s.at w)).2) ∧
  (∀ (w : When) (tx : Tx) (s : State), tx.space = 1 → tx.isWrite = false → s.issues tx.ident.val = true →
    (checkAccess tx.ident.val 1 tx.addr tx.size false (s.at w)).1 = none → ∃ t, exec (.masterTransaction w tx) s = .next t
    ∧ t.pending = s.pending
    ∧ t.out.head? = some (.resp tx.ident.val true (natLe ((readReg (tx.ident.val == 9) (tx.ident.val == 9 || tx.ident.val == 0)
    tx.addr (s.at w)).1.getD 0) 4)) ∧ t.mem.mem = s.mem.mem ∧ t.cfg = s.cfg ∧ t.seq.tasks = s.seq.tasks) ∧
  (∀ (w : When) (tx : Tx) (s : State), tx.space = 1 → tx.isWrite = true → s.issues tx.ident.val = true →
    (checkAccess tx.ident.val 1 tx.addr tx.data.length true (s.at w)).1 = none →
    (writeReg (agentOf tx.ident.val tx.ses) tx.d tx.addr (BitVec.ofNat 32 (leNat tx.data)) (s.at w)).2.wrd.draining = false →
    ∃ t, exec (.masterTransaction w tx) s = .next t ∧ t.pending = s.pending
    ∧ t = emit (.resp tx.ident.val (decide ((writeReg (agentOf tx.ident.val tx.ses) tx.d tx.addr (BitVec.ofNat 32 (leNat
    tx.data)) (s.at w)).1.1 = 0)) []) (writeReg (agentOf tx.ident.val tx.ses) tx.d tx.addr (BitVec.ofNat 32 (leNat tx.data))
    (s.at w)).2)

/-- A connection takes a free session index from P3 on, or is reset; a handshake that matches gives the session its role, one
  that fails or lasts 10 s ends it and is counted. HELLO of version 1 opens the session for messages, any other version closes
  it; a session that closes sends its complete replies first, behind publication. A reply leaves after those of the requests
  before it; with 16 requests outstanding no message is read. Types outside the table are answered TYPE, a payload of a wrong
  length FORMAT. Thirty seconds without a message close an idle session, as its close does. A subscription replaces the one
  before; notifications lost are told once there is room. An address the module owns is answered, another is not; a discarded
  frame counts; a link change asserts its event. The model's own: the operands of the commands (log entry 1), when a command
  acts (log entry 2), the record of what leaves the block (log entry 4). (Rests on R345, R348, R349, R350, R352, R354, R357,
  R359.) -/
def Obligations.SessionsOfTheHost : Prop :=
  (∀ (w : When) (port : Fin 2) (ll : Bool) (s : State), 3 ≤ s.gen.phase → s.hostMode port.val ≠ 0 → s.sessionsOpen < 8 →
    s.hif.access.isSome = true → ∃ t, exec (.shpConnect w port ll) s = .next t ∧ Only [.time, .events, .sessions, .host] s t
    ∧ (t.hif.sessions.getD ((s.hif.sessions.findIdx? (·.isNone)).getD 0) none).map (fun y => (y.port, y.role, y.helloDone,
    y.opened)) = (if s.hif.sessions = [] then none else some (port.val, 0, false, max s.aon w.a)) ∧ t.out = s.out) ∧
  (∀ (w : When) (port : Fin 2) (ll : Bool) (s : State), (s.gen.phase < 3 ∨ s.hostMode port.val = 0 ∨ 8 ≤ s.sessionsOpen) →
    ∃ t, exec (.shpConnect w port ll) s = .next t ∧ Only [.time, .sent] s t ∧ t.out = .tcpReset port.val :: s.out) ∧
  (∀ (w : When) (ses : Fin 8) (h : Handshake) (x : Session) (s : State), s.hif.sessions.getD ses.val none = some x →
    x.role = 0 → x.bootstrap = true → allowedHandshake h = true → h.proven = true →
    ∃ t, exec (.tlsHandshake w ses h) s = .next t ∧ t.pending = s.pending
    ∧ (t.hif.sessions.getD ses.val none).map (fun y => (y.role, y.bootstrap, y.port)) = some (3, true, x.port)
    ∧ t.out = .certificate ses.val s.presented :: s.out ∧ t.kpr.cartridge = s.kpr.cartridge) ∧
  (∀ (w : When) (ses : Fin 8) (h : Handshake) (x : Session) (s : State), s.hif.sessions.getD ses.val none = some x →
    x.role = 0 → (h.proven = false ∨ allowedHandshake h = false) → ∃ t, exec (.tlsHandshake w ses h) s = .next t
    ∧ t.pending = s.pending ∧ t.hif.sessions.getD ses.val none = none ∧ t.hif.tlsFail = tallyInc s.hif.tlsFail
    ∧ t.out = .alert ses.val :: .certificate ses.val s.presented :: s.out) ∧
  (∀ (w : When) (ses : Fin 8) (x : Session) (s : State), s.hif.sessions.getD ses.val none = some x → x.role = 0 →
    x.opened + aonSec 10 ≤ max s.aon w.a → ∃ t, exec (.handshakeTimeout w ses) s = .next t ∧ t.pending = s.pending
    ∧ t.hif.sessions.getD ses.val none = none ∧ t.hif.tlsFail = tallyInc s.hif.tlsFail ∧ t.out = .alert ses.val :: s.out) ∧
  (∀ (w : When) (ses : Fin 8) (x : Session) (s : State), s.hif.sessions.getD ses.val none = some x →
    (x.role ≠ 0 ∨ max s.aon w.a < x.opened + aonSec 10) → ∃ t, exec (.handshakeTimeout w ses) s = .next t ∧ Only [.time] s t) ∧
  (∀ (w : When) (ses : Fin 8) (x : Session) (s : State), s.hif.sessions.getD ses.val none = some x → x.role ≠ 0 →
    x.outstanding = 0 → x.lastMsg + aonSec 30 ≤ max s.aon w.a → ∃ t, exec (.sessionIdleTimeout w ses) s = .next t
    ∧ t.pending = s.pending ∧ t.hif.sessions.getD ses.val none = none
    ∧ t.out = (leaveHost x.port (x.ready.map (·.out ses.val) ++ [.shpClosed ses.val]) s).out
    ∧ t.hif.egress = (leaveHost x.port (x.ready.map (·.out ses.val) ++ [.shpClosed ses.val]) s).hif.egress) ∧
  (∀ (w : When) (ses : Fin 8) (framing : Bool) (x : Session) (s : State), s.hif.sessions.getD ses.val none = some x →
    ∃ t, exec (.sessionClose w ses framing) s = .next t ∧ t.pending = s.pending ∧ t.hif.sessions.getD ses.val none = none
    ∧ t.bsl.storing = s.bsl.storing ∧ t.out = (leaveHost x.port (x.ready.map (·.out ses.val) ++ [.shpClosed ses.val]) s).out
    ∧ t.hif.egress = (leaveHost x.port (x.ready.map (·.out ses.val) ++ [.shpClosed ses.val]) s).hif.egress) ∧
  (∀ (w : When) (ses : Fin 8) (framing : Bool) (x : Session) (s : State), s.hif.sessions.getD ses.val none = some x →
    x.replies = [] → s.pubFirst x.port = true → ∃ t, exec (.sessionClose w ses framing) s = .next t ∧ t.pending = s.pending
    ∧ t.hif.sessions.getD ses.val none = none ∧ t.out = s.out ∧ t.hif.egress = s.hif.egress ++ [(x.port, .shpClosed ses.val)]) ∧
  (∀ (w : When) (ses : Fin 8) (framing : Bool) (s : State), s.hif.sessions.getD ses.val none = none →
    ∃ t, exec (.sessionClose w ses framing) s = .next t ∧ Only [.time] s t) ∧
  (∀ (w : When) (ses : Fin 8) (x : Session) (s : State), s.hif.sessions.getD ses.val none = some x → x.role ≠ 0 →
    x.outstanding < 16 → x.replies = [] → s.pubFirst x.port = false → ∃ t, exec (.hello w ses 1) s = .next t
    ∧ Only [.time, .sessions, .sent] s t
    ∧ (t.hif.sessions.getD ses.val none).map (fun y => (y.helloDone, y.role)) = some (true, x.role)
    ∧ t.out = shpOut w 1 ses.val 0 0 (helloReply x.role s) :: s.out) ∧
  (∀ (w : When) (ses : Fin 8) (version : Nat) (x : Session) (s : State), s.hif.sessions.getD ses.val none = some x →
    x.role ≠ 0 → version ≠ 1 → x.outstanding < 16 → x.replies = [] → s.pubFirst x.port = false →
    ∃ t, exec (.hello w ses version) s = .next t ∧ t.pending = s.pending ∧ t.hif.sessions.getD ses.val none = none
    ∧ t.out = .shpClosed ses.val :: shpOut w 1 ses.val 1 0 [] :: s.out) ∧
  (∀ (w : When) (ses : Fin 8) (x : Session) (kind : Nat) (s : State), s.hif.sessions.getD ses.val none = some x → x.role ≠ 0 →
    x.outstanding < 16 → x.replies = [{ waits := some kind }] → ∃ t, exec (.hello w ses 1) s = .next t
    ∧ Only [.time, .sessions] s t
    ∧ (t.hif.sessions.getD ses.val none).map (fun y => (y.outstanding, y.replies)) = some (x.outstanding + 1,
    [{ waits := some kind }, { ty := 1, tag := w.tag, payload := helloReply x.role s }]) ∧ t.out = s.out) ∧
  (∀ (w : When) (ses : Fin 8) (kinds : Fin 4) (sources : BitVec 160) (x : Session) (s : State), s.hif.sessions.getD ses.val
    none = some x → 16 ≤ x.outstanding → ∃ t, exec (.notifySubscribe w ses kinds sources) s = .next t ∧ Only [.time] s t) ∧
  (∀ (w : When) (ses : Fin 8) (version : Nat) (x : Session) (s : State), s.hif.sessions.getD ses.val none = some x →
    16 ≤ x.outstanding → ∃ t, exec (.hello w ses version) s = .next t ∧ Only [.time] s t) ∧
  (∀ (w : When) (ses : Fin 8) (ty : Nat) (s : State), s.serves ses 1 = true → (ty = 0 ∨ 13 < ty) →
    ∃ t, exec (.shpReservedType w ses ty) s = .next t ∧ Only [.time, .sessions, .sent] s t
    ∧ t.out = shpOut w ty ses.val 2 0 [] :: s.out) ∧
  (∀ (w : When) (ses : Fin 8) (ty : Nat) (s : State), s.serves ses 1 = true → 1 ≤ ty ∧ ty ≤ 13 →
    ∃ t, exec (.shpReservedType w ses ty) s = .next t ∧ Only [.time, .sessions, .sent] s t
    ∧ t.out = shpOut w ty ses.val 1 0 [] :: s.out) ∧
  (∀ (w : When) (ses : Fin 8) (kinds : Fin 4) (sources : BitVec 160) (x : Session) (s : State), s.hif.sessions.getD ses.val
    none = some x → s.serves ses 1 = true → ∃ t, exec (.notifySubscribe w ses kinds sources) s = .next t
    ∧ Only [.time, .sessions, .sent] s t
    ∧ (t.hif.sessions.getD ses.val none).map (fun y => (y.kinds, y.sources, y.role)) = some (kinds.val, sources, x.role)
    ∧ t.out = shpOut w 10 ses.val 0 0 [] :: s.out) ∧
  (∀ (w : When) (ses : Fin 8) (x : Session) (s : State), s.hif.sessions.getD ses.val none = some x → 0 < x.lost →
    x.queue.length < 256 → ∃ t, exec (.notifyLostReport w ses) s = .next t ∧ Only [.time, .sessions] s t
    ∧ (t.hif.sessions.getD ses.val none).map (fun y => (y.lost, y.queue)) = some (0, x.queue ++
    [{ kind := 3, count := x.lost, time := (s.at w).islandTime hostIsland }])) ∧
  (∀ (w : When) (ses : Fin 8) (x : Session) (s : State), s.hif.sessions.getD ses.val none = some x →
    (x.lost = 0 ∨ 256 ≤ x.queue.length) → ∃ t, exec (.notifyLostReport w ses) s = .next t ∧ Only [.time] s t) ∧
  (∀ (w : When) (port : Fin 2) (target : Nat) (s : State), s.ownsAddr port.val false target = true →
    ∃ t, exec (.hostArpRequest w port target) s = .next t ∧ Only [.time, .sent] s t
    ∧ t.out = .arpReply port.val target :: s.out) ∧
  (∀ (w : When) (port : Fin 2) (target : Nat) (s : State), s.ownsAddr port.val false target = false →
    ∃ t, exec (.hostArpRequest w port target) s = .next t ∧ Only [.time] s t) ∧
  (∀ (w : When) (port : Fin 2) (s : State), 3 ≤ s.gen.phase → s.hostMode port.val ≠ 0 →
    ∃ t, exec (.hostNeighbourSolicitation w port s.linkLocal) s = .next t ∧ Only [.time, .sent] s t
    ∧ t.out = .neighbourReply port.val s.linkLocal :: s.out) ∧
  (∀ (w : When) (port : Fin 2) (target : Nat) (s : State), s.hostMode port.val = 0 →
    ∃ t, exec (.hostNeighbourSolicitation w port target) s = .next t ∧ Only [.time] s t) ∧
  (∀ (w : When) (port : Fin 2) (v6 : Bool) (target : Nat) (s : State), s.ownsAddr port.val v6 target = true →
    ∃ t, exec (.hostEchoRequest w port v6 target) s = .next t ∧ Only [.time, .sent] s t
    ∧ t.out = .echoReply port.val target :: s.out) ∧
  (∀ (w : When) (port : Fin 2) (v6 : Bool) (target : Nat) (s : State), s.ownsAddr port.val v6 target = false →
    ∃ t, exec (.hostEchoRequest w port v6 target) s = .next t ∧ Only [.time] s t) ∧
  (∀ (w : When) (port : Fin 2) (s : State), ∃ t, exec (.hostFrameDiscard w port) s = .next t ∧ Only [.time, .host] s t
    ∧ t.hif.discard = updAt s.hif.discard port.val tallyInc ∧ t.hif.sessions = s.hif.sessions) ∧
  (∀ (w : When) (port : Fin 2) (up : Bool) (s : State), s.hif.links.getD port.val false ≠ up →
    ∃ t, exec (.hostLinkChange w port up) s = .next t ∧ Only [.time, .events, .sessions, .host] s t
    ∧ t.hif.links = putAt s.hif.links port.val up) ∧
  (∀ (w : When) (port : Fin 2) (s : State), ∃ t, exec (.hostLinkChange w port (s.hif.links.getD port.val false)) s = .next t
    ∧ Only [.time] s t) ∧
  (∀ (w : When) (ses : Fin 8) (h : Handshake) (x : Session) (r : Nat) (s : State), s.hif.sessions.getD ses.val none = some x →
    x.role = 0 → x.bootstrap = false → allowedHandshake h = true → h.proven = true → h.chainOk = true →
    validNow h (s.at w) = true → r = (matchedRules (s.hif.access.getD {}) h.certs).foldl (fun m q => max m q.1) 0 → r ≠ 0 →
    ∃ t, exec (.tlsHandshake w ses h) s = .next t ∧ Only [.time, .events, .ledger, .keeper, .sessions, .host, .sent] s t
    ∧ (t.hif.sessions.getD ses.val none).map (fun y => (y.role, y.bootstrap, y.port, y.lastMsg)) = some (r, false, x.port, max
    s.aon w.a) ∧ t.out = .certificate ses.val s.presented :: s.out) ∧
  (∀ (w : When) (port : Fin 2) (target : Nat) (s : State), s.ownsAddr port.val true target = true →
    ∃ t, exec (.hostNeighbourSolicitation w port target) s = .next t ∧ Only [.time, .sent] s t
    ∧ t.out = .neighbourReply port.val target :: s.out)

/-- A block of no bytes or more than 4,096 is answered FORMAT. A first block of a wrong offset or length, or whose header fails
  a check, is refused and no load stands; a new block of the owner's load is held in the staging region; a repeat with the same
  bytes is accepted; another session's block is BUSY. A commit without all blocks is INCOMPLETE; one that passes every check
  queues the keeper's store. Revert stages the previous slot. An abort or 60 s without a block give the load up. The model's
  own: the operands of the commands (log entry 1), when a command acts (log entry 2), the record of what leaves the block (log
  entry 4). (Rests on R47, R48, R49, R50, R53, R54.) -/
def Obligations.BitstreamLoadsOfTheHost : Prop :=
  (∀ (w : When) (i : Fin 8) (offset : Nat) (s : State), s.serves i 3 = true →
    ∃ t, exec (.bitstreamLoadBlock w i offset []) s = .next t ∧ Only [.time, .sessions, .sent] s t
    ∧ t.out = shpOut w 4 i.val 1 0 [] :: s.out) ∧
  (∀ (w : When) (i : Fin 8) (offset : Nat) (data : List Byte) (s : State), s.serves i 3 = true → s.bsl.load = none →
    1 ≤ data.length ∧ data.length ≤ 4096 → (offset ≠ 0 ∨ data.length ≠ 4096) →
    ∃ t, exec (.bitstreamLoadBlock w i offset data) s = .next t
    ∧ Only [.time, .events, .ledger, .keeper, .loader, .sessions, .host, .sent] s t ∧ t.bsl.load = none ∧ t.bsl.refused = true
    ∧ t.bsl.refuse = packRefuse 0xE 0 0 ∧ t.bsl.refuseOffset = offset ∧ t.bsl.storing = s.bsl.storing) ∧
  (∀ (w : When) (i : Fin 8) (data : List Byte) (s : State), s.serves i 3 = true → s.bsl.load = none → data.length = 4096 →
    ∃ t, exec (.bitstreamLoadBlock w i 0 data) s = .next t
    ∧ Only [.time, .events, .tasks, .memory, .memctl, .wards, .faults, .ledger, .keeper, .loader, .sessions, .host, .sent] s t
    ∧ t.bsl.storing = s.bsl.storing ∧ ∀ f, headerCheck data none (s.at w) = some f → t.bsl.load = none
    ∧ t.bsl.refuse = packRefuse f.1 0 0 ∧ t.bsl.refuseOffset = f.2.2 ∧ t.mem.mem = s.mem.mem) ∧
  (∀ (w : When) (i j : Fin 8) (l : BslLoad) (offset : Nat) (data : List Byte) (s : State), s.serves i 3 = true →
    s.bsl.load = some l → l.owner = some j.val → i ≠ j → 1 ≤ data.length ∧ data.length ≤ 4096 →
    ∃ t, exec (.bitstreamLoadBlock w i offset data) s = .next t
    ∧ Only [.time, .events, .ledger, .keeper, .loader, .sessions, .host, .sent] s t ∧ t.bsl.load = some l
    ∧ t.bsl.refuse = packRefuse 0x16 0 0 ∧ t.bsl.storing = s.bsl.storing) ∧
  (∀ (w : When) (i : Fin 8) (l : BslLoad) (offset : Nat) (data : List Byte) (s : State), s.serves i 3 = true →
    s.bsl.load = some l → l.owner = some i.val → 1 ≤ data.length ∧ data.length ≤ 4096 → offset % 4096 = 0 → offset < l.total →
    data.length = blockSize l.total offset → l.blocks.find? (fun b => b.1 == offset) = some (offset, data) →
    ∃ t, exec (.bitstreamLoadBlock w i offset data) s = .next t ∧ Only [.time, .loader, .sessions, .sent] s t
    ∧ t.bsl.load = some { l with since := max s.aon w.a } ∧ t.bsl.refused = s.bsl.refused) ∧
  (∀ (w : When) (i : Fin 8) (l : BslLoad) (offset a : Nat) (data : List Byte) (bl : List (Nat × List Byte)) (s : State),
    s.serves i 3 = true → s.bsl.load = some l → l.owner = some i.val → 1 ≤ data.length ∧ data.length ≤ 4096 →
    offset % 4096 = 0 → offset < l.total → data.length = blockSize l.total offset →
    l.blocks.find? (fun b => b.1 == offset) = none → bl = l.blocks ++ [(offset, data)] →
    ({ l with blocks := bl } : BslLoad).due = [] → a = s.cfg.cur.memmap.stageFirst * 0x4000000 + offset →
    a + data.length ≤ memSize → (∀ p ∈ linePieces a data.length, centralVerdict s.wrd.rules 0 13 p.1 p.2 true = none) →
    s.inSpare a data.length = false → s.mem.mem.partialBad a data.length = none →
    ∃ t, exec (.bitstreamLoadBlock w i offset data) s = .next t ∧ Only [.time, .memory, .tasks, .loader, .sessions, .sent] s t
    ∧ t.bsl.load = some { l with since := max s.aon w.a, blocks := bl } ∧ t.bsl.refused = s.bsl.refused
    ∧ t.mem.mem.readBytes a data.length = some data ∧ ∀ x, (x < a ∨ a + data.length ≤ x) →
    t.mem.mem.readByte x = s.mem.mem.readByte x) ∧
  (∀ (w : When) (i : Fin 8) (s : State), s.serves i 3 = true → s.bsl.load = none → ∃ t, exec (.bitstreamCommit w i) s = .next t
    ∧ Only [.time, .events, .ledger, .keeper, .loader, .sessions, .host, .sent] s t ∧ t.bsl.load = none
    ∧ t.bsl.refuse = packRefuse 0x1A 0 0 ∧ t.bsl.storing = s.bsl.storing) ∧
  (∀ (w : When) (i : Fin 8) (l : BslLoad) (s : State), s.serves i 3 = true → s.bsl.load = some l → l.owner = some i.val →
    allBlocks l.blocks l.total = false → ∃ t, exec (.bitstreamCommit w i) s = .next t
    ∧ Only [.time, .events, .ledger, .keeper, .loader, .sessions, .host, .sent] s t ∧ t.bsl.load = none
    ∧ t.bsl.refuse = packRefuse 0x1A 0 0 ∧ t.bsl.storing = s.bsl.storing) ∧
  (∀ (w : When) (i : Fin 8) (l : BslLoad) (s : State), s.serves i 3 = true → s.bsl.load = some l → l.owner = some i.val →
    allBlocks l.blocks l.total = true → u16 l.header 6 = 1 → s.commitBusy false = false → s.keeperWritable = true →
    ∃ t, exec (.bitstreamCommit w i) s = .next t
    ∧ Only [.time, .events, .ledger, .keeper, .loader, .sessions, .host, .config, .sent] s t ∧ t.bsl.load = none ∧ t.cfg = s.cfg
    ∧ ∀ p, prepare (joinBlocks l.blocks l.total) (s.at w) = .ok p → t.bsl.storing = true ∧ t.bsl.storeGen = p.g.gen
    ∧ t.bsl.storeBytes = p.bytes ∧ t.bsl.committer = some i.val) ∧
  (∀ (w : When) (i : Fin 8) (c : Cartridge) (x : GenSlot) (s : State), s.serves i 3 = true → s.bsl.load = none →
    s.bsl.swapPending = false → s.bsl.storing = false → s.keeperWritable = true → s.kpr.cartridge = some c →
    c.slots.getD c.prevSlot none = some x → ∃ t, exec (.bitstreamRevert w i) s = .next t
    ∧ Only [.time, .events, .ledger, .cartridge, .keeper, .loader, .sessions, .host, .sent] s t
    ∧ (t.kpr.cartridge.map (·.staged)) = some (some c.prevSlot) ∧ (t.kpr.cartridge.map (·.slots)) = some c.slots
    ∧ (t.kpr.cartridge.map (·.current)) = some c.current) ∧
  (∀ (w : When) (i : Fin 8) (l : BslLoad) (s : State), s.serves i 3 = true → s.bsl.load = some l →
    (l.owner = some i.val ∨ l.owner = none) → ∃ t, exec (.bitstreamAbort w i) s = .next t
    ∧ Only [.time, .loader, .sessions, .sent] s t ∧ t.bsl.load = none ∧ t.bsl.storing = s.bsl.storing
    ∧ t.bsl.refused = s.bsl.refused) ∧
  (∀ (w : When) (s : State), (s.at w).grants .firmware 0x100000 = true → ∃ t, exec (.bslAbort w .firmware) s = .next t
    ∧ Only [.time, .loader] s t ∧ t.bsl.load = none ∧ t.bsl.storing = s.bsl.storing ∧ t.bsl.genCur = s.bsl.genCur) ∧
  (∀ (w : When) (who : Agent) (s : State), fwOrEngineer who s = false → (s.at w).grants who 0x100000 = true →
    ∃ t, exec (.bslAbort w who) s = .next t ∧ Only [.time] s t) ∧
  (∀ (w : When) (l : BslLoad) (s : State), s.bsl.load = some l → l.since + aonSec 60 ≤ max s.aon w.a →
    ∃ t, exec (.bitstreamLoadTimeout w) s = .next t ∧ Only [.time, .events, .ledger, .keeper, .loader, .sessions, .host] s t
    ∧ t.bsl.load = none ∧ t.bsl.refuse = packRefuse 0x19 0 0 ∧ t.bsl.storing = s.bsl.storing) ∧
  (∀ (w : When) (l : BslLoad) (s : State), s.bsl.load = some l → max s.aon w.a < l.since + aonSec 60 →
    ∃ t, exec (.bitstreamLoadTimeout w) s = .next t ∧ Only [.time] s t) ∧
  (∀ (w : When) (who : Agent) (s : State), fwOrEngineer who s = true → (s.at w).grants who 0x100000 = true →
    ∃ t, exec (.bslAbort w who) s = .next t ∧ Only [.time, .loader] s t ∧ t.bsl.load = none ∧ t.bsl.storing = s.bsl.storing
    ∧ t.bsl.genCur = s.bsl.genCur) ∧
  (∀ (w : When) (i : Fin 8) (l : BslLoad) (s : State), s.serves i 3 = true → s.bsl.load = some l → l.owner = some i.val →
    allBlocks l.blocks l.total = true → u16 l.header 6 = 2 → s.pair.mode = 0 → s.commitBusy true = false →
    s.keeperWritable = true → ∃ t, exec (.bitstreamCommit w i) s = .next t
    ∧ Only [.time, .events, .ledger, .keeper, .loader, .sessions, .host, .config, .sent] s t ∧ t.bsl.load = none
    ∧ t.cfg.cur = s.cfg.cur ∧ ∀ p, prepare (joinBlocks l.blocks l.total) (s.at w) = .ok p → t.bsl.storing = true
    ∧ t.bsl.storeDelta = true ∧ t.bsl.swapPending = true ∧ t.cfg.next = some p.g ∧ t.cfg.fixedA = false)

/-- The own store of a full stream puts it in the previous slot, staged, and raises the high-water mark; a store that fails is
  refused with KEEPER and leaves no swap pending. On a primary the delta's activation period is fixed 800 periods on once every
  store is complete; the other module takes it over from its partner. A partner's commit without the same load, complete, is
  told as failed. The model's own: the operands of the commands (log entry 1), when a command acts (log entry 2), the record of
  what leaves the block (log entry 4). (Rests on R43, R45, R46, R52, R56, R60, R61.) -/
def Obligations.StoresOfAPair : Prop :=
  (∀ (w : When) (c : Cartridge) (s : State), s.bsl.storing = true → s.bsl.storeDelta = false → s.bsl.ownDone = none →
    s.streamWaits = false → s.keeperWritable = true → s.kpr.cartridge = some c →
    ∃ t, exec (.bitstreamStoreComplete w true) s = .next t
    ∧ Only [.time, .events, .cartridge, .keeper, .loader, .sessions, .host, .sent] s t ∧ t.bsl.storing = false
    ∧ (t.kpr.cartridge.map (·.slots)) = some (putAt c.slots c.prevSlot (some { bytes := s.bsl.storeBytes }))
    ∧ (t.kpr.cartridge.map (·.staged)) = some (some c.prevSlot)
    ∧ (t.kpr.cartridge.map (·.highWater)) = some (max c.highWater s.bsl.storeGen)
    ∧ (t.kpr.cartridge.map (·.current)) = some c.current ∧ t.cfg = s.cfg) ∧
  (∀ (w : When) (s : State), s.bsl.storing = true → s.bsl.storeDelta = false → s.bsl.ownDone = none → s.streamWaits = false →
    ∃ t, exec (.bitstreamStoreComplete w false) s = .next t ∧ t.pending = s.pending ∧ t.bsl.storing = false
    ∧ t.bsl.swapPending = false ∧ t.bsl.refuse = packRefuse 0x17 0 0 ∧ t.kpr.cartridge = s.kpr.cartridge ∧ t.cfg = s.cfg) ∧
  (∀ (w : When) (ok : Bool) (s : State), (s.bsl.storing = false ∨ s.bsl.ownDone.isSome = true ∨ s.streamWaits = true) →
    ∃ t, exec (.bitstreamStoreComplete w ok) s = .next t ∧ Only [.time] s t) ∧
  (∀ (w : When) (s : State), s.primary = true → s.bsl.storing = true → s.bsl.storeDelta = true → s.bsl.ownDone = some true →
    ∃ t, exec (.partnerStoreComplete w true) s = .next t ∧ Only [.time, .pair, .loader, .config, .sessions, .host, .sent] s t
    ∧ t.bsl.swapA = s.pcount + 800 ∧ t.cfg.fixedA = true ∧ t.bsl.storing = false ∧ t.kpr.cartridge = s.kpr.cartridge) ∧
  (∀ (w : When) (s : State), s.bsl.storing = true → s.bsl.storeDelta = true →
    ∃ t, exec (.partnerStoreComplete w false) s = .next t ∧ t.pending = s.pending ∧ t.bsl.storing = false
    ∧ t.bsl.swapPending = false ∧ t.cfg.next = none ∧ t.cfg.cur = s.cfg.cur ∧ t.bsl.swapA = s.bsl.swapA) ∧
  (∀ (w : When) (ok : Bool) (s : State), (s.bsl.storing = false ∨ s.bsl.storeDelta = false) →
    ∃ t, exec (.partnerStoreComplete w ok) s = .next t ∧ Only [.time] s t) ∧
  (∀ (w : When) (h : LinkHdr) (gen digest : Nat) (s : State), s.pair.mode ≠ 0 → h.side ≠ s.wvl.side → s.wvl.role = 3 →
    s.bsl.load = none → s.wvl.lanesUp ≠ 0 → ∃ t, exec (.partnerCommitReceived w h gen digest) s = .next t
    ∧ t.pending = s.pending ∧ t.bsl = s.bsl ∧ t.cfg = s.cfg ∧ t.out.head?.bind Out.linkFrame = some (0x62, s.wvl.side, 3, [0])) ∧
  (∀ (w : When) (h : LinkHdr) (l : BslLoad) (s : State), s.pair.mode ≠ 0 → h.side ≠ s.wvl.side → s.wvl.role = 3 →
    s.bsl.load = some l → u16 l.header 6 = 2 → allBlocks l.blocks l.total = true → s.bsl.storing = false →
    s.bsl.swapPending = false → s.keeperWritable = true →
    ∃ t, exec (.partnerCommitReceived w h l.gen (digestNat l.header)) s = .next t ∧ t.pending = s.pending
    ∧ t.cfg.cur = s.cfg.cur ∧ ∀ p, prepare (joinBlocks l.blocks l.total) (frameSeen h (s.at w)) = .ok p → t.bsl.storing = true
    ∧ t.bsl.storeDelta = true ∧ t.bsl.storeGen = p.g.gen ∧ t.bsl.swapPending = true ∧ t.cfg.next = some p.g) ∧
  (∀ (w : When) (h : LinkHdr) (gen digest : Nat) (s : State), s.pair.mode = 0 →
    ∃ t, exec (.partnerCommitReceived w h gen digest) s = .next t ∧ Only [.time] s t) ∧
  (∀ (w : When) (h : LinkHdr) (a : Nat) (s : State), s.pair.mode ≠ 0 → h.side ≠ s.wvl.side → s.wvl.role = 3 →
    s.bsl.storing = true → s.bsl.storeDelta = true → ∃ t, exec (.activationPeriodReceived w h a) s = .next t
    ∧ t.pending = s.pending ∧ t.bsl.swapA = a ∧ t.cfg.fixedA = true ∧ t.bsl.storing = decide (s.bsl.ownDone ≠ some true)
    ∧ t.cfg.next = s.cfg.next ∧ t.kpr.cartridge = s.kpr.cartridge) ∧
  (∀ (w : When) (h : LinkHdr) (a : Nat) (s : State), s.pair.mode ≠ 0 → h.side ≠ s.wvl.side → s.bsl.storing = false →
    ∃ t, exec (.activationPeriodReceived w h a) s = .next t ∧ t.pending = s.pending ∧ t.bsl = s.bsl
    ∧ t.cfg.fixedA = s.cfg.fixedA)

/-- A first block whose header passes opens the load and the slot; one that fails a check, or of a wrong offset, is refused and
  no load stands. A block of the owner's load is held; one whose flash write fails ends the load with FLASH. Until a read-back
  ends a commit is BUSY. A commit with every block starts the read-back into the slot that is not running; a read-back that
  fails empties that slot, one that matches stages it. A revert is RANGE and keeps the load of its session open. Aborts and 60
  s without a block give the load up. Access-set blocks are held by session, and its abort gives them up; a set that passes
  every check is stored under the governor, comes into force when stored, and closes every session. The model's own: the
  operands of the commands (log entry 1), when a command acts (log entry 2), the record of what leaves the block (log entry 4).
  (Rests on R346, R347, R362, R364, R365, R366, R53.) -/
def Obligations.FirmwareAndAccessSets : Prop :=
  (∀ (w : When) (i : Fin 8) (offset : Nat) (b : FlashBlock) (s : State), s.serves i 3 = true → s.upd.load = none →
    s.upd.storing = false → 1 ≤ b.bytes.length ∧ b.bytes.length ≤ 4096 → (offset ≠ 0 ∨ b.bytes.length ≠ 4096) →
    ∃ t, exec (.firmwareLoadBlock w i offset b) s = .next t
    ∧ Only [.time, .events, .firmware, .ledger, .keeper, .sessions, .host, .sent] s t ∧ t.upd.load = none ∧ t.upd.refused = true
    ∧ t.upd.refuse = 0x0B ∧ t.upd.refuseOffset = offset ∧ t.upd.slots = s.upd.slots) ∧
  (∀ (w : When) (i : Fin 8) (l : UpdLoad) (offset : Nat) (data : List Byte) (s : State), s.serves i 3 = true →
    s.upd.load = some l → (l.owner = some i.val ∨ (l.owner = none ∧ offset ≠ 0)) → 1 ≤ data.length ∧ data.length ≤ 4096 →
    offset % 4096 = 0 → offset < l.total → data.length = blockSize l.total offset →
    l.blocks.find? (fun b => b.1 == offset) = none →
    ∃ t, exec (.firmwareLoadBlock w i offset { bytes := data, flashOk := true }) s = .next t
    ∧ Only [.time, .firmware, .sessions, .sent] s t
    ∧ t.upd.load = some { l with owner := some i.val, since := max s.aon w.a, blocks := l.blocks ++ [(offset, data)] }
    ∧ t.upd.slots = s.upd.slots ∧ t.upd.refused = s.upd.refused) ∧
  (∀ (w : When) (i : Fin 8) (l : UpdLoad) (offset : Nat) (data : List Byte) (s : State), s.serves i 3 = true →
    s.upd.load = some l → (l.owner = some i.val ∨ (l.owner = none ∧ offset ≠ 0)) → 1 ≤ data.length ∧ data.length ≤ 4096 →
    offset % 4096 = 0 → offset < l.total → data.length = blockSize l.total offset →
    l.blocks.find? (fun b => b.1 == offset) = none →
    ∃ t, exec (.firmwareLoadBlock w i offset { bytes := data, flashOk := false }) s = .next t
    ∧ Only [.time, .events, .firmware, .ledger, .keeper, .sessions, .host, .sent] s t ∧ t.upd.load = none ∧ t.upd.refuse = 0x10
    ∧ t.upd.refuseOffset = offset ∧ t.upd.slots = updAt s.upd.slots s.spareSlot (fun _ => {})) ∧
  (∀ (w : When) (i : Fin 8) (data : List Byte) (s : State), s.serves i 3 = true → s.upd.load = none → s.upd.storing = false →
    data.length = 4096 → ∃ t, exec (.firmwareLoadBlock w i 0 { bytes := data, flashOk := true }) s = .next t
    ∧ t.pending = s.pending ∧ t.upd.active = s.upd.active ∧ (imageCheck false data (s.at w) = none →
    t.upd.load.map (fun l => (l.owner, l.blocks, l.since)) = some (some i.val, [(0, data)], max s.aon w.a)
    ∧ t.upd.slots = updAt s.upd.slots s.spareSlot (fun _ => { state := 1 })) ∧ ∀ f, imageCheck false data (s.at w) = some f →
    t.upd.load = none ∧ t.upd.refuse = f.1 ∧ t.upd.refuseOffset = f.2 ∧ t.upd.slots = s.upd.slots) ∧
  (∀ (w : When) (i : Fin 8) (s : State), s.serves i 3 = true → s.upd.load = none → ∃ t, exec (.firmwareCommit w i) s = .next t
    ∧ Only [.time, .events, .firmware, .ledger, .keeper, .sessions, .host, .sent] s t
    ∧ t.upd.refuse = (if s.upd.storing then 0x0D else 0x0F) ∧ t.upd.slots = s.upd.slots ∧ t.upd.storing = s.upd.storing
    ∧ t.upd.load = none) ∧
  (∀ (w : When) (i : Fin 8) (l : UpdLoad) (s : State), s.serves i 3 = true → s.upd.load = some l →
    (l.owner = some i.val ∨ l.owner = none) → allBlocks l.blocks l.total = true → ∃ t, exec (.firmwareCommit w i) s = .next t
    ∧ Only [.time, .firmware, .sessions] s t ∧ t.upd.storing = true ∧ t.upd.committer = some i.val ∧ t.upd.load = none
    ∧ t.upd.slots = updAt s.upd.slots s.spareSlot (fun x => { x with image := joinBlocks l.blocks l.total })
    ∧ t.upd.active = s.upd.active) ∧
  (∀ (w : When) (i : Fin 8) (l : UpdLoad) (s : State), s.serves i 3 = true → s.upd.load = some l →
    (l.owner = some i.val ∨ l.owner = none) → allBlocks l.blocks l.total = false → ∃ t, exec (.firmwareCommit w i) s = .next t
    ∧ Only [.time, .events, .firmware, .ledger, .keeper, .sessions, .host, .sent] s t ∧ t.upd.load = none ∧ t.upd.refuse = 0x0F
    ∧ t.upd.storing = s.upd.storing ∧ t.upd.slots = updAt s.upd.slots s.spareSlot (fun _ => {})) ∧
  (∀ (w : When) (s : State), s.upd.storing = true → ∃ t, exec (.firmwareReadbackComplete w false) s = .next t
    ∧ Only [.time, .events, .firmware, .ledger, .keeper, .sessions, .host, .sent] s t ∧ t.upd.storing = false
    ∧ t.upd.slots = updAt s.upd.slots s.spareSlot (fun _ => {}) ∧ t.upd.refuse = 0x10 ∧ t.upd.active = s.upd.active) ∧
  (∀ (w : When) (s : State), s.upd.storing = true → ∃ t, exec (.firmwareReadbackComplete w true) s = .next t
    ∧ Only [.time, .events, .firmware, .ledger, .keeper, .sessions, .host, .sent] s t ∧ t.upd.storing = false
    ∧ t.upd.active = s.upd.active
    ∧ (imageDigest (s.upd.slots.getD s.spareSlot {}).image = slice (s.upd.slots.getD s.spareSlot {}).image 0x100 48 →
    t.upd.slots = updAt s.upd.slots s.spareSlot (fun x => { x with state := 2 }))) ∧
  (∀ (w : When) (ok : Bool) (s : State), s.upd.storing = false → ∃ t, exec (.firmwareReadbackComplete w ok) s = .next t
    ∧ Only [.time] s t) ∧
  (∀ (w : When) (i : Fin 8) (s : State), s.serves i 3 = true → s.upd.load = none → ∃ t, exec (.firmwareRevert w i) s = .next t
    ∧ Only [.time, .sessions, .sent] s t ∧ t.out = shpOut w 5 i.val 9 0 [0, 0, 0] :: s.out) ∧
  (∀ (w : When) (i : Fin 8) (l : UpdLoad) (s : State), s.serves i 3 = true → s.upd.load = some l →
    (l.owner = some i.val ∨ l.owner = none) → ∃ t, exec (.firmwareRevert w i) s = .next t
    ∧ Only [.time, .firmware, .sessions, .sent] s t ∧ t.out = shpOut w 5 i.val 9 0 [0, 0, 0] :: s.out
    ∧ t.upd.load = some { l with owner := some i.val, since := max s.aon w.a } ∧ t.upd.slots = s.upd.slots) ∧
  (∀ (w : When) (i : Fin 8) (l : UpdLoad) (s : State), s.serves i 3 = true → s.upd.load = some l →
    (l.owner = some i.val ∨ l.owner = none) → ∃ t, exec (.firmwareAbort w i) s = .next t
    ∧ Only [.time, .firmware, .sessions, .sent] s t ∧ t.upd.load = none
    ∧ t.upd.slots = updAt s.upd.slots s.spareSlot (fun _ => {}) ∧ t.upd.storing = s.upd.storing) ∧
  (∀ (w : When) (s : State), s.upd.load.isSome = true → (s.at w).grants .firmware 0x110000 = true →
    ∃ t, exec (.updAbort w .firmware) s = .next t ∧ Only [.time, .firmware] s t ∧ t.upd.load = none
    ∧ t.upd.slots = updAt s.upd.slots s.spareSlot (fun _ => {}) ∧ t.upd.active = s.upd.active) ∧
  (∀ (w : When) (who : Agent) (s : State), (s.upd.load = none ∨ fwOrEngineer who s = false) →
    (s.at w).grants who 0x110000 = true → ∃ t, exec (.updAbort w who) s = .next t ∧ Only [.time] s t) ∧
  (∀ (w : When) (l : UpdLoad) (s : State), s.upd.load = some l → l.since + aonSec 60 ≤ max s.aon w.a →
    ∃ t, exec (.firmwareLoadTimeout w) s = .next t ∧ Only [.time, .events, .firmware, .ledger, .keeper, .sessions, .host] s t
    ∧ t.upd.load = none ∧ t.upd.refuse = 0x0E ∧ t.upd.slots = updAt s.upd.slots s.spareSlot (fun _ => {})) ∧
  (∀ (w : When) (s : State), s.upd.load = none → ∃ t, exec (.firmwareLoadTimeout w) s = .next t ∧ Only [.time] s t) ∧
  (∀ (w : When) (i : Fin 8) (x : Session) (offset : Nat) (data : List Byte) (s : State), s.hif.sessions.getD i.val none = some
    x → s.serves i 3 = true → 1 ≤ data.length ∧ data.length ≤ 4096 → offset + data.length ≤ 65536 →
    ∃ t, exec (.accessSetLoadBlock w i offset data) s = .next t ∧ Only [.time, .sessions, .sent] s t
    ∧ (t.hif.sessions.getD i.val none).map (·.accessBlocks) = some (x.accessBlocks ++ [(offset, data)])
    ∧ t.hif.access = s.hif.access) ∧
  (∀ (w : When) (i : Fin 8) (x : Session) (offset : Nat) (data : List Byte) (s : State), s.hif.sessions.getD i.val none = some
    x → s.serves i 3 = true → 1 ≤ data.length ∧ data.length ≤ 4096 → 65536 < offset + data.length →
    ∃ t, exec (.accessSetLoadBlock w i offset data) s = .next t ∧ Only [.time, .sessions, .sent] s t
    ∧ (t.hif.sessions.getD i.val none).map (·.accessBlocks) = some x.accessBlocks
    ∧ t.out = shpOut w 4 i.val 9 0 [0, 0, 0] :: s.out) ∧
  (∀ (w : When) (i : Fin 8) (keyOk chainOk : Bool) (s : State), s.serves i 3 = true → s.keeperWritable = true →
    ∃ t, exec (.accessSetCommit w i (.commit keyOk) chainOk) s = .next t
    ∧ Only [.time, .events, .keeper, .sessions, .access, .host, .sent] s t
    ∧ (t.hif.sessions.getD i.val none).map (·.accessBlocks) = some [] ∧ t.hif.access = s.hif.access
    ∧ t.kpr.cartridge = s.kpr.cartridge ∧ ∀ a, accessCheck (s.accessBytes i) keyOk chainOk s = .ok a →
    t.hif.accessStoring = s.hif.accessStoring ++ [some i.val]
    ∧ t.kpr.jobs = insertJob { cls := 3, kind := .access a, pages := ((s.accessBytes i).length + 4095) / 4096 } s.kpr.jobs) ∧
  (∀ (w : When) (i : Fin 8) (keyOk chainOk : Bool) (e : Nat) (s : State), s.serves i 3 = true →
    accessCheck (s.accessBytes i) keyOk chainOk s = .error e →
    ∃ t, exec (.accessSetCommit w i (.commit keyOk) chainOk) s = .next t ∧ Only [.time, .sessions, .sent] s t
    ∧ t.hif.access = s.hif.access ∧ t.out = shpOut w 5 i.val 8 e [0, 0, 0] :: s.out) ∧
  (∀ (w : When) (i : Fin 8) (chainOk : Bool) (s : State), s.serves i 3 = true →
    ∃ t, exec (.accessSetCommit w i .abort chainOk) s = .next t ∧ Only [.time, .sessions, .sent] s t
    ∧ (t.hif.sessions.getD i.val none).map (·.accessBlocks) = some [] ∧ t.out = shpOut w 5 i.val 0 0 [0, 0, 0] :: s.out) ∧
  (∀ (w : When) (i : Fin 8) (chainOk : Bool) (x : Session) (s : State), s.hif.sessions.getD i.val none = some x →
    s.serves i 3 = true → ∃ t, exec (.accessSetCommit w i .revert chainOk) s = .next t ∧ Only [.time, .sessions, .sent] s t
    ∧ (t.hif.sessions.getD i.val none).map (·.accessBlocks) = some x.accessBlocks
    ∧ t.out = shpOut w 5 i.val 9 0 [0, 0, 0] :: s.out) ∧
  (∀ (w : When) (a : AccessSet) (rest : List AccessSet) (s : State), s.hif.accessReady = a :: rest → s.hif.sessions.length = 8 →
    ∃ t, exec (.accessSetStored w) s = .next t ∧ t.pending = s.pending ∧ t.hif.access = some a ∧ t.hif.accessReady = rest
    ∧ t.hif.accessStoring.length = s.hif.accessStoring.length - 1 ∧ t.hif.sessions = List.replicate 8 none
    ∧ t.bsl.storing = s.bsl.storing) ∧
  (∀ (w : When) (s : State), s.hif.accessReady = [] → ∃ t, exec (.accessSetStored w) s = .next t ∧ Only [.time] s t) ∧
  (∀ (w : When) (who : Agent) (s : State), s.upd.load.isSome = true → fwOrEngineer who s = true →
    (s.at w).grants who 0x110000 = true → ∃ t, exec (.updAbort w who) s = .next t ∧ Only [.time, .firmware] s t
    ∧ t.upd.load = none ∧ t.upd.slots = updAt s.upd.slots s.spareSlot (fun _ => {}) ∧ t.upd.active = s.upd.active)

/-- A change of a used input that is not in wire break, once its level has held for the filter time, takes the level, counts,
  and stamps the change in whole microseconds; an unused input, a level that it has, and one held for less change nothing. A
  wire break is taken on a monitored input and ends with its clear. The field supply is as measured. Unplugging the terminal
  block leaves no field supply, reads an unmonitored input off, and opens every output; the outputs that are on close again
  with the supply (log entry 141). The model's own: the operands of the commands (log entry 1), when a command acts (log entry
  2), the record of what leaves the block (log entry 4). (Rests on R371, R373, R376, R416.) -/
def Obligations.FieldInputs : Prop :=
  (∀ (w : When) (ch : Fin 16) (level : Bool) (stamp : Nat) (s : State), (s.diCfg ch.val).1 ≠ 0 →
    (s.fio.di.getD ch.val {}).broken = false → (s.fio.di.getD ch.val {}).level ≠ level →
    stamp + usTicks (100 * (s.diCfg ch.val).2.1) ≤ max s.now w.t → ch.val < s.fio.di.length →
    ∃ t, exec (.diChangeAccept w ch level stamp) s = .next t ∧ Only [.time, .inputs] s t
    ∧ (t.fio.di.getD ch.val {}).level = level
    ∧ (t.fio.di.getD ch.val {}).changes = ((s.fio.di.getD ch.val {}).changes + 1) % 65536
    ∧ (t.fio.di.getD ch.val {}).stamp = truncUs stamp ∧ (t.fio.di.getD ch.val {}).broken = false ∧ ∀ j, j ≠ ch.val →
    t.fio.di.getD j {} = s.fio.di.getD j {}) ∧
  (∀ (w : When) (ch : Fin 16) (level : Bool) (stamp : Nat) (s : State), ((s.diCfg ch.val).1 = 0 ∨ (s.fio.di.getD ch.val
    {}).broken = true ∨ (s.fio.di.getD ch.val {}).level = level ∨ max s.now w.t < stamp + usTicks (100 * (s.diCfg ch.val).2.1))
    → ∃ t, exec (.diChangeAccept w ch level stamp) s = .next t ∧ Only [.time] s t) ∧
  (∀ (w : When) (ch : Fin 16) (s : State), (s.diCfg ch.val).1 ≠ 0 → (s.diCfg ch.val).2.2 = 1 → ch.val < s.fio.di.length →
    ∃ t, exec (.diWireBreak w ch) s = .next t ∧ t.pending = s.pending ∧ (t.fio.di.getD ch.val {}).broken = true
    ∧ (t.fio.di.getD ch.val {}).level = (s.fio.di.getD ch.val {}).level ∧ t.fio.dout = s.fio.dout) ∧
  (∀ (w : When) (ch : Fin 16) (s : State), (s.diCfg ch.val).2.2 ≠ 1 → ∃ t, exec (.diWireBreak w ch) s = .next t
    ∧ Only [.time] s t) ∧
  (∀ (w : When) (ch : Fin 16) (s : State), ch.val < s.fio.di.length → ∃ t, exec (.diWireBreakClear w ch) s = .next t
    ∧ t.pending = s.pending ∧ (t.fio.di.getD ch.val {}).broken = false
    ∧ (t.fio.di.getD ch.val {}).level = (s.fio.di.getD ch.val {}).level
    ∧ (t.fio.di.getD ch.val {}).changes = (s.fio.di.getD ch.val {}).changes) ∧
  (∀ (w : When) (mv : Nat) (s : State), (s.fio.unplugged = false ∨ mv = 0) → ∃ t, exec (.fieldSupplyChange w mv) s = .next t
    ∧ Only [.time, .events, .ledger, .keeper, .field, .sessions, .host] s t ∧ t.fio.supplyMv = mv ∧ t.fio.supplySeen = true
    ∧ t.fio.unplugged = s.fio.unplugged) ∧
  (∀ (w : When) (mv : Nat) (s : State), s.fio.unplugged = true → mv ≠ 0 → ∃ t, exec (.fieldSupplyChange w mv) s = .next t
    ∧ Only [.time, .events, .ledger, .keeper, .field, .sessions, .host, .sent] s t ∧ t.fio.supplyMv = mv
    ∧ t.fio.supplySeen = true ∧ t.fio.unplugged = false
    ∧ ((List.range 8).all fun j => !(s.dout j).driven || (s.dout j).shutdown || (s.dout j).failed || t.out.contains (.dout j
    true)) = true) ∧
  (∀ (w : When) (s : State), s.fio.di.length = 16 → ∃ t, exec (.terminalBlockUnplug w) s = .next t
    ∧ Only [.time, .events, .ledger, .keeper, .inputs, .field, .sessions, .host, .sent] s t ∧ t.fio.unplugged = true
    ∧ t.fio.supplyMv = 0 ∧ ((List.range 8).all fun j => !(s.dout j).driven || t.out.contains (.dout j false)) = true
    ∧ ((List.range 4).all fun c => !(s.ao c).driving || t.out.contains (.ao c 0)) = true ∧ ∀ i, i < 16 → (s.diCfg i).2.2 ≠ 1 →
    (s.diCfg i).1 ≠ 0 → (s.fio.di.getD i {}).broken = false → (t.fio.di.getD i {}).level = false)

/-- The sets of a task whose apply time has come leave it, oldest first, and each of their values reaches its channel; others
  wait. A value drives a digital output that has not changed for 10 ms and waits on one that has, and a loop output takes its
  current. A value that waited for the toggle limit drives the channel once 10 ms have passed, not before; on a channel that a
  pulse generator owns it is given up and drives nothing. A shut-down drives the pins of a channel that is on off and keeps its
  command; a retry that holds ends the fault and drives it on; a mismatch is taken on a channel that has been off for 20 ms and
  is not SHARED, and ends with its clear or with the channel's switching on. The model's own: the operands of the commands (log
  entry 1), when a command acts (log entry 2), the record of what leaves the block (log entry 4). (Rests on R91, R374, R375,
  R376, R384.) -/
def Obligations.FieldOutputs : Prop :=
  (∀ (w : When) (task : Fin 16) (s : State), task.val < s.seq.tasks.length → ∃ t, exec (.outputApply w task) s = .next t
    ∧ Only [.time, .tasks, .events, .ledger, .keeper, .outputs, .loops, .field, .sessions, .host, .sent] s t
    ∧ (t.task task.val).localSets = (s.task task.val).localSets.filter (fun p => !(decide (p.1 ≤ max s.now w.t)))
    ∧ (t.task task.val).cycles = (s.task task.val).cycles) ∧
  (∀ (w : When) (task : Fin 16) (s : State), (s.task task.val).localSets.all (fun p => decide (max s.now w.t < p.1)) = true →
    ∃ t, exec (.outputApply w task) s = .next t ∧ Only [.time] s t) ∧
  (∀ (w : When) (task : Fin 16) (s : State), s.stopped = false → task.val < s.seq.tasks.length →
    ∃ t, exec (.outputApply w task) s = .next t
    ∧ Only [.time, .tasks, .events, .ledger, .keeper, .outputs, .loops, .field, .sessions, .host, .sent] s t
    ∧ t.fio = ((((s.task task.val).localSets.filter (fun p => decide (p.1 ≤ max s.now w.t))).flatMap (·.2)).foldl (fun u p =>
    applyPoint p u) (s.at w)).fio
    ∧ t.out = ((((s.task task.val).localSets.filter (fun p => decide (p.1 ≤ max s.now w.t))).flatMap (·.2)).foldl (fun u p =>
    applyPoint p u) (s.at w)).out) ∧
  (∀ (w : When) (task : Fin 16) (s : State), s.stopped = true → ∃ t, exec (.outputApply w task) s = .next t
    ∧ Only [.time, .tasks] s t ∧ t.out = s.out) ∧
  (∀ (w : When) (task : Fin 16) (ch : Fin 8) (v a : Nat) (s : State), s.stopped = false →
    (s.task task.val).localSets = [(a, [(64 + ch.val, v)])] → a ≤ max s.now w.t → s.fio.standby = false →
    s.doOwned (s.doLeader ch.val) = false →
    ((s.dout (s.doLeader ch.val)).lastChange.all fun n => decide (n + toggleTicks ≤ max s.now w.t)) = true →
    v.testBit 0 ≠ (s.dout (s.doLeader ch.val)).driven → (s.dout (s.doLeader ch.val)).mismatch = false →
    s.doLeader ch.val < s.fio.dout.length → ∃ t, exec (.outputApply w task) s = .next t
    ∧ Only [.time, .tasks, .outputs, .sent] s t ∧ (t.dout (s.doLeader ch.val)).driven = v.testBit 0
    ∧ (t.dout (s.doLeader ch.val)).lastChange = some (max s.now w.t)
    ∧ t.out = .dout (s.doLeader ch.val) (v.testBit 0 && !(s.dout (s.doLeader ch.val)).shutdown && !(s.dout (s.doLeader
    ch.val)).failed && !s.fio.unplugged) :: s.out) ∧
  (∀ (w : When) (task : Fin 16) (ch : Fin 8) (v a n : Nat) (s : State), s.stopped = false →
    (s.task task.val).localSets = [(a, [(64 + ch.val, v)])] → a ≤ max s.now w.t → s.fio.standby = false →
    s.doOwned (s.doLeader ch.val) = false → (s.dout (s.doLeader ch.val)).lastChange = some n → max s.now w.t < n + toggleTicks →
    (s.dout (s.doLeader ch.val)).waiting = false → v.testBit 0 ≠ (s.dout (s.doLeader ch.val)).driven →
    s.doLeader ch.val < s.fio.dout.length → ∃ t, exec (.outputApply w task) s = .next t
    ∧ Only [.time, .tasks, .outputs, .field] s t ∧ (t.dout (s.doLeader ch.val)).driven = (s.dout (s.doLeader ch.val)).driven
    ∧ (t.dout (s.doLeader ch.val)).waiting = true ∧ (t.dout (s.doLeader ch.val)).want = v.testBit 0
    ∧ t.fio.doDefer = tallyInc s.fio.doDefer) ∧
  (∀ (w : When) (task : Fin 16) (ch : Fin 4) (v a : Nat) (s : State), s.stopped = false →
    (s.task task.val).localSets = [(a, [(80 + ch.val, v)])] → a ≤ max s.now w.t → s.fio.standby = false → s.aoMode ch.val ≠ 0 →
    ch.val < s.fio.ao.length → ∃ t, exec (.outputApply w task) s = .next t ∧ Only [.time, .tasks, .loops, .sent] s t
    ∧ (t.ao ch.val).cmd = v ∧ (t.ao ch.val).driving = true ∧ ((s.ao ch.val).driving = false →
    (t.ao ch.val).from10 = aoTarget { s.ao ch.val with cmd := v }) ∧ t.out.length = s.out.length + 1) ∧
  (∀ (w : When) (ch : Fin 8) (s : State), s.doOwned (s.doLeader ch.val) = false → (s.dout (s.doLeader ch.val)).waiting = true →
    ((s.dout (s.doLeader ch.val)).lastChange.all fun n => decide (n + toggleTicks ≤ max s.now w.t)) = true →
    (s.dout (s.doLeader ch.val)).want ≠ (s.dout (s.doLeader ch.val)).driven → ∃ t, exec (.doToggleWaitEnd w ch) s = .next t
    ∧ Only [.time, .events, .ledger, .keeper, .outputs, .field, .sessions, .host, .sent] s t
    ∧ (t.dout (s.doLeader ch.val)).driven = (s.dout (s.doLeader ch.val)).want ∧ (t.dout (s.doLeader ch.val)).waiting = false
    ∧ (t.dout (s.doLeader ch.val)).lastChange = some (max s.now w.t)
    ∧ (t.dout (s.doLeader ch.val)).mismatch = ((s.dout (s.doLeader ch.val)).mismatch && !(s.dout (s.doLeader ch.val)).want)
    ∧ t.out = .dout (s.doLeader ch.val) ((s.dout (s.doLeader ch.val)).want && !(s.dout (s.doLeader ch.val)).shutdown &&
    !(s.dout (s.doLeader ch.val)).failed && !s.fio.unplugged) :: s.out) ∧
  (∀ (w : When) (ch : Fin 8) (s : State), s.doOwned (s.doLeader ch.val) = false → (s.dout (s.doLeader ch.val)).waiting = true →
    ((s.dout (s.doLeader ch.val)).lastChange.all fun n => decide (n + toggleTicks ≤ max s.now w.t)) = true →
    (s.dout (s.doLeader ch.val)).want = (s.dout (s.doLeader ch.val)).driven → ∃ t, exec (.doToggleWaitEnd w ch) s = .next t
    ∧ Only [.time, .outputs] s t ∧ (t.dout (s.doLeader ch.val)).driven = (s.dout (s.doLeader ch.val)).driven
    ∧ (t.dout (s.doLeader ch.val)).waiting = false
    ∧ (t.dout (s.doLeader ch.val)).lastChange = (s.dout (s.doLeader ch.val)).lastChange) ∧
  (∀ (w : When) (ch : Fin 8) (s : State), s.doOwned (s.doLeader ch.val) = true → s.doLeader ch.val < s.fio.dout.length →
    ∃ t, exec (.doToggleWaitEnd w ch) s = .next t ∧ Only [.time, .outputs] s t ∧ (t.dout (s.doLeader ch.val)).waiting = false
    ∧ (t.dout (s.doLeader ch.val)).driven = (s.dout (s.doLeader ch.val)).driven
    ∧ (t.dout (s.doLeader ch.val)).want = (s.dout (s.doLeader ch.val)).want) ∧
  (∀ (w : When) (ch : Fin 8) (n : Nat) (s : State), ((s.dout (s.doLeader ch.val)).waiting = false ∨ s.doOwned (s.doLeader
    ch.val) = false) → ((s.dout (s.doLeader ch.val)).waiting = false ∨ (s.dout (s.doLeader ch.val)).lastChange = some n) →
    ((s.dout (s.doLeader ch.val)).waiting = false ∨ max s.now w.t < n + toggleTicks) →
    ∃ t, exec (.doToggleWaitEnd w ch) s = .next t ∧ Only [.time] s t) ∧
  (∀ (w : When) (ch : Fin 8) (s : State), (s.dout (s.doLeader ch.val)).driven = true → ∃ t, exec (.doShutdown w ch) s = .next t
    ∧ t.pending = s.pending ∧ (t.dout (s.doLeader ch.val)).shutdown = true ∧ (t.dout (s.doLeader ch.val)).driven = true
    ∧ t.out = .dout (s.doLeader ch.val) false :: s.out ∧ t.fio.di = s.fio.di) ∧
  (∀ (w : When) (ch : Fin 8) (s : State), (s.dout (s.doLeader ch.val)).driven = false → ∃ t, exec (.doShutdown w ch) s = .next t
    ∧ Only [.time] s t) ∧
  (∀ (w : When) (ch : Fin 8) (s : State), (s.dout (s.doLeader ch.val)).driven = true →
    (s.dout (s.doLeader ch.val)).shutdown = true → (s.dout (s.doLeader ch.val)).failed = false →
    ∃ t, exec (.doRetry w ch true) s = .next t ∧ t.pending = s.pending ∧ (t.dout (s.doLeader ch.val)).shutdown = false
    ∧ (t.dout (s.doLeader ch.val)).driven = true ∧ t.out = .dout (s.doLeader ch.val) (!s.fio.unplugged) :: s.out) ∧
  (∀ (w : When) (ch : Fin 8) (s : State), ∃ t, exec (.doRetry w ch false) s = .next t ∧ Only [.time] s t) ∧
  (∀ (w : When) (ch : Fin 8) (s : State), (s.at w).doOff20 (s.doLeader ch.val) = true → s.doShared (s.doLeader ch.val) = false →
    s.doLeader ch.val < s.fio.dout.length → ∃ t, exec (.doMismatch w ch true) s = .next t ∧ t.pending = s.pending
    ∧ (t.dout (s.doLeader ch.val)).mismatch = true ∧ (t.dout (s.doLeader ch.val)).driven = false ∧ t.fio.di = s.fio.di) ∧
  (∀ (w : When) (ch : Fin 8) (s : State), ((s.at w).doOff20 (s.doLeader ch.val) = false ∨ s.doShared (s.doLeader ch.val) =
    true) → ∃ t, exec (.doMismatch w ch true) s = .next t ∧ Only [.time] s t) ∧
  (∀ (w : When) (ch : Fin 8) (s : State), s.doLeader ch.val < s.fio.dout.length → ∃ t, exec (.doMismatch w ch false) s = .next t
    ∧ t.pending = s.pending ∧ (t.dout (s.doLeader ch.val)).mismatch = false
    ∧ (t.dout (s.doLeader ch.val)).driven = (s.dout (s.doLeader ch.val)).driven ∧ t.fio.di = s.fio.di) ∧
  (∀ (s : State) (j : Nat), s.doOff20 j = true ↔ (s.dout j).driven = false ∧ ∀ n, (s.dout j).lastChange = some n →
    n + msTicks 20 ≤ s.now)

/-- A terminal fault makes a used channel high-impedance and sets its fault; a test in range ends it. A trim within its bound
  replaces the channel's zero or span; out of range it is RANGE, without the AOB ABSENT. An engineer starts commissioning of
  one used channel outside PRIMARY; a button drives its level, and the same button again leaves high impedance; END, or 600 s
  without a press, ends the mode. SOURCE_SEVERE of a source whose errors no other command reports brings them (log entry 87):
  one below the threshold counts for the source and joins its window, and the source does not become severe; one of the field
  I/O that names a loop output leaves it at high impedance with its trims. The model's own: the operands of the commands (log
  entry 1), when a command acts (log entry 2), the record of what leaves the block (log entry 4). (Rests on R9, R377, R379,
  R380, R381, R335, R337, R385.) -/
def Obligations.LoopOutputs : Prop :=
  (∀ (w : When) (ch : Fin 4) (s : State), s.aoMode ch.val ≠ 0 → ch.val < s.fio.ao.length →
    ∃ t, exec (.aoTerminalFault w ch) s = .next t ∧ t.pending = s.pending ∧ (t.ao ch.val).fault = true
    ∧ t.out = .ao ch.val 0 :: s.out ∧ t.aoTargetUa ch.val = 0 ∧ t.fio.dout = s.fio.dout) ∧
  (∀ (w : When) (ch : Fin 4) (s : State), s.aoMode ch.val = 0 → ∃ t, exec (.aoTerminalFault w ch) s = .next t
    ∧ Only [.time] s t) ∧
  (∀ (w : When) (ch : Fin 4) (s : State), (s.ao ch.val).fault = true → ∃ t, exec (.aoTerminalTest w ch true) s = .next t
    ∧ t.pending = s.pending ∧ (t.ao ch.val).fault = false ∧ (t.ao ch.val).cmd = (s.ao ch.val).cmd
    ∧ (t.ao ch.val).driving = (s.ao ch.val).driving) ∧
  (∀ (w : When) (ch : Fin 4) (s : State), ∃ t, exec (.aoTerminalTest w ch false) s = .next t ∧ Only [.time] s t) ∧
  (∀ (w : When) (i : Fin 8) (ch : Fin 4) (v : Int) (s : State), s.serves i 3 = true → s.present 2 = true → -2000 ≤ v
    ∧ v ≤ 2000 → ch.val < s.fio.ao.length → ∃ t, exec (.trimZero w i ch.val v) s = .next t ∧ t.pending = s.pending
    ∧ (t.ao ch.val).zero = v ∧ (t.ao ch.val).span = (s.ao ch.val).span ∧ (t.ao ch.val).cmd = (s.ao ch.val).cmd
    ∧ t.fio.di = s.fio.di) ∧
  (∀ (w : When) (i : Fin 8) (channel : Nat) (v : Int) (s : State), s.serves i 3 = true → s.present 2 = true →
    (3 < channel ∨ v < -2000 ∨ 2000 < v) → ∃ t, exec (.trimZero w i channel v) s = .next t ∧ Only [.time, .sessions, .sent] s t
    ∧ t.out = shpOut w 13 i.val 9 0 [] :: s.out) ∧
  (∀ (w : When) (i : Fin 8) (channel : Nat) (v : Int) (s : State), s.serves i 3 = true → s.present 2 = false →
    ∃ t, exec (.trimZero w i channel v) s = .next t ∧ Only [.time, .sessions, .sent] s t
    ∧ t.out = shpOut w 13 i.val 5 0 [] :: s.out) ∧
  (∀ (w : When) (i : Fin 8) (ch : Fin 4) (v : Int) (s : State), s.serves i 3 = true → s.present 2 = true → -20000 ≤ v
    ∧ v ≤ 20000 → ch.val < s.fio.ao.length → ∃ t, exec (.trimSpan w i ch.val v) s = .next t ∧ t.pending = s.pending
    ∧ (t.ao ch.val).span = v ∧ (t.ao ch.val).zero = (s.ao ch.val).zero ∧ (t.ao ch.val).cmd = (s.ao ch.val).cmd
    ∧ t.fio.di = s.fio.di) ∧
  (∀ (w : When) (i : Fin 8) (channel : Nat) (v : Int) (s : State), s.serves i 3 = true → s.present 2 = true →
    (3 < channel ∨ v < -20000 ∨ 20000 < v) → ∃ t, exec (.trimSpan w i channel v) s = .next t
    ∧ Only [.time, .sessions, .sent] s t ∧ t.out = shpOut w 13 i.val 9 0 [] :: s.out) ∧
  (∀ (w : When) (i : Fin 8) (ch : Fin 4) (s : State), 3 ≤ s.sesRole i → s.primary = false → s.aoMode ch.val ≠ 0 →
    (s.ao ch.val).held = false → s.fio.comm = none → (s.at w).grants (.host i) 0x120100 = true →
    ∃ t, exec (.aoCommission w (.host i) ch) s = .next t ∧ Only [.time, .events, .ledger, .keeper, .loops, .sessions, .host] s t
    ∧ t.fio.comm = some { ch := ch.val, lastPress := max s.aon w.a } ∧ t.fio.aoSel = ch.val ∧ t.fio.ao = s.fio.ao) ∧
  (∀ (w : When) (who : Agent) (ch : Fin 4) (s : State), (hostAtLeast 3 who s = false ∨ s.primary = true ∨ s.aoMode ch.val = 0 ∨
    (s.ao ch.val).held = true) → (s.at w).grants who 0x120100 = true → ∃ t, exec (.aoCommission w who ch) s = .next t
    ∧ Only [.time] s t) ∧
  (∀ (w : When) (i : Fin 8) (c : Commissioning) (s : State), 3 ≤ s.sesRole i → s.fio.comm = some c →
    (s.at w).grants (.host i) 0x120100 = true → ∃ t, exec (.aoCommissionEnd w (.host i)) s = .next t
    ∧ Only [.time, .events, .ledger, .keeper, .loops, .sessions, .host, .sent] s t ∧ t.fio.comm = none
    ∧ (t.ao c.ch).driving = false ∧ t.out = .ao c.ch 0 :: s.out) ∧
  (∀ (w : When) (who : Agent) (s : State), (s.fio.comm = none ∨ hostAtLeast 3 who s = false) →
    (s.at w).grants who 0x120100 = true → ∃ t, exec (.aoCommissionEnd w who) s = .next t ∧ Only [.time] s t) ∧
  (∀ (w : When) (c : Commissioning) (s : State), s.fio.comm = some c → c.level ≠ 1 → c.ch < s.fio.ao.length →
    ∃ t, exec (.zeroButton w) s = .next t ∧ Only [.time, .loops, .sent] s t
    ∧ t.fio.comm = some { c with level := 1, lastPress := max s.aon w.a } ∧ (t.ao c.ch).cmd = 4000 ∧ (t.ao c.ch).driving = true) ∧
  (∀ (w : When) (c : Commissioning) (s : State), s.fio.comm = some c → c.level = 1 → ∃ t, exec (.zeroButton w) s = .next t
    ∧ Only [.time, .loops, .sent] s t ∧ t.fio.comm = some { c with level := 0, lastPress := max s.aon w.a }
    ∧ (t.ao c.ch).driving = false ∧ t.out = .ao c.ch 0 :: s.out) ∧
  (∀ (w : When) (c : Commissioning) (s : State), s.fio.comm = some c → c.level ≠ 2 → c.ch < s.fio.ao.length →
    ∃ t, exec (.spanButton w) s = .next t ∧ Only [.time, .loops, .sent] s t
    ∧ t.fio.comm = some { c with level := 2, lastPress := max s.aon w.a } ∧ (t.ao c.ch).cmd = 20000
    ∧ (t.ao c.ch).driving = true) ∧
  (∀ (w : When) (s : State), s.fio.comm = none → ∃ t, exec (.spanButton w) s = .next t ∧ Only [.time] s t) ∧
  (∀ (w : When) (c : Commissioning) (s : State), s.fio.comm = some c → c.lastPress + aonSec 600 ≤ max s.aon w.a →
    ∃ t, exec (.commissionTimeout w) s = .next t ∧ Only [.time, .events, .ledger, .keeper, .loops, .sessions, .host, .sent] s t
    ∧ t.fio.comm = none ∧ (t.ao c.ch).driving = false) ∧
  (∀ (w : When) (c : Commissioning) (s : State), s.fio.comm = some c → max s.aon w.a < c.lastPress + aonSec 600 →
    ∃ t, exec (.commissionTimeout w) s = .next t ∧ Only [.time] s t) ∧
  (∀ (w : When) (d : Digests) (ch : Fin 4) (s : State), ch.val < s.fio.ao.length →
    ∃ t, exec (.sourceSevere w 37 d { count := 1, outputs := 2 ^ (8 + ch.val) }) s = .next t ∧ t.pending = s.pending
    ∧ (t.ao ch.val).failed = true ∧ t.aoTargetUa ch.val = 0 ∧ (t.ao ch.val).zero = (s.ao ch.val).zero ∧ t.fio.di = s.fio.di) ∧
  (∀ (w : When) (d : Digests) (inst : Nat) (s : State), (s.source 35).due = false → (s.source 35).severe = false →
    1 < (s.source 35).n → inWindow (max s.aon w.a) (s.source 35).wms (s.source 35).recent = [] → 35 < s.fcr.sources.length →
    ∃ t, exec (.sourceSevere w 35 d { count := 1, inst := inst }) s = .next t ∧ Only [.time, .faults] s t
    ∧ (t.source 35).events = tallyInc (s.source 35).events ∧ (t.source 35).severe = false
    ∧ (t.source 35).recent = [max s.aon w.a])

/-- With the latch open the end of P5 leads nowhere: the module stays in P5 until the latch closes, and enters P6 then. Opening
  the latch is noted; on a primary that can hand over it requests a hand-over with cause 5, on any other module it does nothing
  more. Closing it ends the warning, and where acquisition was not waiting for it does nothing more. An open latch opened again
  changes nothing. The model's own: the operands of the commands (log entry 1), when a command acts (log entry 2). Formalises:
  "A module does not enter P6 while its hinge latch is open. It stays at the end of P5, with `GEN_START.LATCH_OPEN` set, until
  the latch closes." (R391.) -/
def Obligations.TheServiceLatch : Prop :=
  (∀ (w : When) (s : State), s.gen.latchOpen = false → s.canHandOver = true → s.primary = true →
    ∃ t, exec (.latchOpen w) s = .next t ∧ Only [.time, .start, .events, .pair, .sessions, .host] s t ∧ t.gen.latchOpen = true
    ∧ t.wvl.handover = some { asked := (s.at w).islandTime linkIsland, cause := 5 } ∧ t.wvl.role = 1) ∧
  (∀ (w : When) (s : State), s.gen.latchOpen = false → s.primary = false → ∃ t, exec (.latchOpen w) s = .next t
    ∧ Only [.time, .start] s t ∧ t.gen.latchOpen = true ∧ t.gen.phase = s.gen.phase) ∧
  (∀ (w : When) (s : State), s.gen.latchOpen = true → ∃ t, exec (.latchOpen w) s = .next t ∧ Only [.time] s t) ∧
  (∀ (w : When) (s : State), s.tmb.acqJudged = false → ∃ t, exec (.latchClose w) s = .next t ∧ Only [.time, .start] s t
    ∧ t.gen.latchOpen = false ∧ t.gen.phase = s.gen.phase) ∧
  (∀ (w : When) (s : State), s.gen.phase = 5 → s.gen.latchOpen = true → s.tmb.acqChecked = false → s.tmb.acqTimeout = true →
    s.tmb.state ≠ 2 → s.tmb.p5Start + aonSec 30 ≤ max s.aon w.a → ∃ t, exec (.acqTimeout w) s = .next t
    ∧ Only [.time, .events, .timebase] s t ∧ t.gen.phase = 5 ∧ t.gen.latchOpen = true ∧ t.tmb.acqJudged = true) ∧
  (∀ (w : When) (s : State), s.gen.phase = 5 → s.tmb.acqJudged = true → ∃ t, exec (.latchClose w) s = .next t
    ∧ Only [.time, .start, .timebase, .pair] s t ∧ t.gen.phase = 6 ∧ t.gen.latchOpen = false ∧ t.wvl.p6Start = max s.aon w.a
    ∧ t.tmb.state = s.tmb.state) ∧
  (∀ (c : Instr) (s t : State), s.gen.phase = 5 → s.gen.latchOpen = true → exec c s = .next t →
    t.gen.phase ≠ 6 ∨ t.gen.latchOpen = false) ∧
  (∀ (w : When) (s : State), s.gen.latchOpen = false → ∃ t, exec (.latchOpen w) s = .next t
    ∧ Only [.time, .start, .events, .pair, .ledger, .keeper, .sessions, .host] s t ∧ t.gen.latchOpen = true
    ∧ t.gen.phase = s.gen.phase ∧ t.wvl.role = s.wvl.role)

/-- When 30 s have passed since P5 began and the servo is not LOCKED, ACQ_TIMEOUT is set, event source 94 asserts, and the
  servo goes on as it was: its state, its source and what it knows of its sources are unchanged; a module still in P5 with its
  latch closed enters P6. In LOCKED no flag and no event follow. Before 30 s have passed, before P5, or a second time, nothing
  of it happens. The model's own: the operands of the commands (log entry 1), when a command acts (log entry 2). Formalises:
  "If the time base is not LOCKED 30 s after P5 begins, the CM64 does the following:" (R74.) -/
def Obligations.AcquisitionTimesOut : Prop :=
  (∀ (w : When) (s : State), 5 ≤ s.gen.phase → s.tmb.acqChecked = false → s.tmb.acqTimeout = false → s.tmb.state ≠ 2 →
    (s.evt.get .tmb).testBit 14 = false → s.tmb.p5Start + aonSec 30 ≤ max s.aon w.a → ∃ t, exec (.acqTimeout w) s = .next t
    ∧ Only [.time, .start, .events, .timebase, .pair, .sessions, .host] s t ∧ t.tmb.acqTimeout = true
    ∧ t.evt.pend.getLsbD 94 = true ∧ t.tmb.state = s.tmb.state ∧ t.tmb.usedKind = s.tmb.usedKind
    ∧ t.tmb.usedPort = s.tmb.usedPort ∧ t.tmb.sources = s.tmb.sources ∧ t.tmb.stepLeft = s.tmb.stepLeft
    ∧ t.gen.phase = (if s.gen.phase = 5 ∧ s.gen.latchOpen = false then 6 else s.gen.phase)) ∧
  (∀ (w : When) (s : State), 5 ≤ s.gen.phase → s.tmb.state = 2 → ∃ t, exec (.acqTimeout w) s = .next t
    ∧ Only [.time, .timebase] s t ∧ t.tmb.acqTimeout = s.tmb.acqTimeout ∧ t.tmb.state = 2 ∧ t.tmb.sources = s.tmb.sources
    ∧ t.tmb.usedKind = s.tmb.usedKind ∧ t.tmb.stepLeft = s.tmb.stepLeft) ∧
  (∀ (w : When) (s : State), (s.gen.phase < 5 ∨ s.tmb.acqChecked = true ∨ max s.aon w.a < s.tmb.p5Start + aonSec 30) →
    ∃ t, exec (.acqTimeout w) s = .next t ∧ Only [.time] s t)

/-- Every access of identity 11 that meets a sealed region of the register space, a read or a write, of any size, whatever
  rules are loaded and in every mode of the triad, ends with an error response; it counts once in TRD_DBG_REFUSED and requests
  the record 0x0706 with the address; no unit, no memory and no rule changes. (Where R400 gives the address no space, that
  refusal comes first, log entry 42.) The model's own: the operands of the commands (log entry 1), when a command acts (log
  entry 2), the record of what leaves the block (log entry 4). Formalises: "Identity 11 never reaches a sealed region (R36),
  whatever the rules say and in every mode. An attempt ends with an error response to the probe, one count in
  `TRD_DBG_REFUSED`, and a ledger record giving the address." (R237.) -/
def Obligations.SealedRegionsStaySealed : Prop :=
  (∀ (w : When) (tx : Tx) (s : State), tx.ident = 11 → tx.space = 1 → s.trd.debugLive = true →
    isSealed tx.addr (max 1 (if tx.isWrite then tx.data.length else tx.size)) = true →
    tx.addr + max 1 (if tx.isWrite then tx.data.length else tx.size) ≤ regSize → ∃ t, exec (.masterTransaction w tx) s = .next t
    ∧ Only [.time, .debug, .events, .ledger, .keeper, .sessions, .host, .sent] s t ∧ t.out = .resp 11 false [] :: s.out
    ∧ t.trd.dbgRefused = tallyInc s.trd.dbgRefused ∧ t.lgr = (ledger 0x0706 0xFFFF [tx.addr] (s.at w)).lgr ∧ t.mem = s.mem
    ∧ t.wrd = s.wrd) ∧
  (∀ (w : When) (a : Nat) (v : Word) (d : Digests) (s : State), s.trd.debugLive = true → isSealed a 4 = true → a + 4 ≤ regSize →
    ∃ t, exec (.registerWrite w .debug a v d) s = .next t
    ∧ Only [.time, .debug, .events, .ledger, .keeper, .sessions, .host, .sent] s t ∧ t.out = .resp 11 false [] :: s.out
    ∧ t.trd.dbgRefused = tallyInc s.trd.dbgRefused ∧ t.lgr = (ledger 0x0706 0xFFFF [a] (s.at w)).lgr
    ∧ t.kpr.cartridge = s.kpr.cartridge) ∧
  (∀ (w : When) (tx : Tx) (s : State), tx.ident = 11 → s.trd.debugLive = false → ∃ t, exec (.masterTransaction w tx) s = .next t
    ∧ Only [.time] s t)
end

