-- ==== Sys2Proof/Laws/Access.lean ====
section
/-! SUPPORT. What an admitted access is: the checks of R295 that admit one leave the state as it was, and a command that is a
register write, admitted, is the register's own rule. -/

namespace Sys2Proof.Laws

open Sys2Proof Sys2Proof.Machine

/-- A gate that admits an access changes nothing. -/
theorem gateCheck_admits {ident space a n : Nat} {write : Bool} {s : State} (h : (gateCheck ident space a n write s).1 = true) :
    (gateCheck ident space a n write s).2 = s := by
  revert h; unfold gateCheck
  split <;> split <;> simp

/-- A register file that admits an access changes nothing. -/
theorem regTarget_admits {ident a n : Nat} {write : Bool} {s : State} (h : (regTarget ident a n write s).1 = none) :
    (regTarget ident a n write s).2 = s := by
  revert h; unfold regTarget
  repeat' split
  all_goals simp

/-- Checks that admit an access change nothing. -/
theorem checkAccess_admits {ident space a n : Nat} {write : Bool} {s : State} (h : (checkAccess ident space a n write s).1 = none) :
    (checkAccess ident space a n write s).2 = s := by
  have hg := @gateCheck_admits ident space a (max 1 n) write s
  revert h; unfold checkAccess; dsimp only
  generalize gateCheck ident space a (max 1 n) write s = g at hg
  obtain ⟨b, s'⟩ := g
  cases b with
  | false => repeat' split
             all_goals simp_all
  | true =>
    obtain rfl : s' = s := hg rfl
    repeat' split
    all_goals first | (simp_all; done) | (simp_all; exact regTarget_admits)

/-- A granted register write is the register's own rule. -/
theorem asWrite_grants {who : Agent} {addr : Nat} {act : State → State} {s : State} (h : s.grants who addr = true) :
    asWrite who addr act s = act s := by
  simp only [State.grants, Bool.and_eq_true, Option.isNone_iff_eq_none] at h
  obtain ⟨⟨hi, hm⟩, hc⟩ := h
  have hs := checkAccess_admits hc
  unfold asWrite
  generalize checkAccess (identOf who) 1 addr 4 true s = g at hc hs
  obtain ⟨o, s'⟩ := g
  simp only at hc hs
  subst hc; subst hs
  simp [hi, hm]

/-- A master that may not issue writes no register. -/
theorem asWrite_silent {who : Agent} {addr : Nat} {act : State → State} {s : State} (h : s.issues (identOf who) = false) :
    asWrite who addr act s = s := by simp [asWrite, h]

end Sys2Proof.Laws
end

