-- ==== Sys2Proof/Laws/Lists.lean ====
section
/-! SUPPORT. Lists with one element changed: their length, and what each place reads as. -/

namespace Sys2Proof

variable {α : Type}

@[simp] theorem putAt_length (l : List α) (i : Nat) (a : α) : (putAt l i a).length = l.length := List.length_set

@[simp] theorem updAt_length (l : List α) (i : Nat) (f : α → α) : (updAt l i f).length = l.length := List.length_modify ..

theorem getD_putAt_self {l : List α} {i : Nat} (h : i < l.length) (a d : α) : (putAt l i a).getD i d = a := by
  simp [putAt, List.getD_eq_getElem?_getD, h]

theorem getD_putAt_other {l : List α} {i j : Nat} (h : i ≠ j) (a d : α) : (putAt l i a).getD j d = l.getD j d := by
  simp [putAt, List.getD_eq_getElem?_getD, List.getElem?_set_ne h]

theorem getD_updAt_self {l : List α} {i : Nat} (h : i < l.length) (f : α → α) (d : α) : (updAt l i f).getD i d = f (l.getD i d) := by
  simp [updAt, List.getD_eq_getElem?_getD, h, List.getElem?_modify]

theorem getD_updAt_other {l : List α} {i j : Nat} (h : i ≠ j) (f : α → α) (d : α) : (updAt l i f).getD j d = l.getD j d := by
  simp [updAt, List.getD_eq_getElem?_getD, List.getElem?_modify, h]

end Sys2Proof
end

