-- ==== Sys2Proof/Laws/Memory.lean ====
section
/-! SUPPORT. Main memory: every operation keeps the canonical form; a byte read after a write. -/

namespace Sys2Proof.Machine

open Sys2Proof

/-! ### Rising lists -/

/-- Listed addresses rise strictly. -/
abbrev Rising (l : List Host.Cell) : Prop := l.Pairwise (fun x y => x.1 < y.1)

theorem putCell_mem {l : List Host.Cell} {a : Nat} {x : Option Byte} {c : Host.Cell} (h : c ∈ putCell l a x) :
    c ∈ l ∨ (c.1 = a ∧ x = some c.2) := by
  induction l with
  | nil => cases x <;> simp_all [putCell]
  | cons d t ih =>
    obtain ⟨b, v⟩ := d
    simp only [putCell] at h
    split at h
    · rcases List.mem_cons.mp h with h | h
      · exact .inl (h ▸ List.mem_cons_self)
      · exact (ih h).imp (List.mem_cons_of_mem _) id
    · split at h
      · cases x with
        | none => exact .inl (List.mem_cons_of_mem _ h)
        | some y =>
          rcases List.mem_cons.mp h with h | h
          · exact .inr (by simp [h])
          · exact .inl (List.mem_cons_of_mem _ h)
      · cases x with
        | none => exact .inl h
        | some y =>
          rcases List.mem_cons.mp h with h | h
          · exact .inr (by simp [h])
          · exact .inl h

theorem putCell_rising {l : List Host.Cell} (h : Rising l) (a : Nat) (x : Option Byte) : Rising (putCell l a x) := by
  induction l with
  | nil => cases x <;> simp [putCell, Rising]
  | cons d t ih =>
    obtain ⟨b, v⟩ := d
    have ht := List.pairwise_cons.mp h
    simp only [putCell]
    split
    · rename_i hlt
      refine List.pairwise_cons.mpr ⟨fun c hc => ?_, ih ht.2⟩
      rcases putCell_mem hc with hc | hc
      · exact ht.1 c hc
      · simp only [hc.1]; exact hlt
    · split
      · rename_i heq
        subst heq
        cases x with
        | none => exact ht.2
        | some y => exact List.pairwise_cons.mpr ⟨ht.1, ht.2⟩
      · rename_i h1 h2
        cases x with
        | none => exact h
        | some y =>
          refine List.pairwise_cons.mpr ⟨fun c hc => ?_, h⟩
          rcases List.mem_cons.mp hc with hc | hc
          · subst hc; simp only; omega
          · have := ht.1 c hc; simp only at this ⊢; omega

/-! ### The canonical form is kept -/

theorem putByte_wf {m : Memory} (h : m.wf) (a : Nat) (v : Byte) : (m.putByte a v).wf := by
  refine ⟨putCell_rising h.1 _ _, fun c hc => ?_⟩
  have hu : (m.putByte a v).unlisted c.1 = m.unlisted c.1 := rfl
  rw [hu]
  rcases putCell_mem hc with hc | ⟨h1, h2⟩
  · exact h.2 c hc
  · intro hx
    split at h2
    · cases h2
    · rename_i hne
      exact hne (by rw [← h1, hx, h2])

theorem putBytes_wf {m : Memory} (h : m.wf) (a : Nat) (l : List Byte) : (m.putBytes a l).wf := by
  induction l generalizing m a with
  | nil => exact h
  | cons b t ih => exact ih (putByte_wf h a b) (a + 1)

/-- The marks and findings of lines are no part of the form. -/
theorem mark_wf {m : Memory} (h : m.wf) (e : List (Nat × MemFault)) (l : List Nat) : ({ m with errs := e, poisoned := l } : Memory).wf := h

/-- Fewer listed bytes keep the form. -/
theorem filter_wf {m : Memory} (h : m.wf) (p : Host.Cell → Bool) : ({ m with cells := m.cells.filter p } : Memory).wf :=
  ⟨h.1.filter _, fun c hc => h.2 c (List.mem_filter.mp hc).1⟩

theorem write_wf {m m' : Memory} (h : m.wf) {a : Nat} {bs : List Byte} (e : m.write a bs = .ok m') : m'.wf := by
  unfold Memory.write at e
  split at e
  · cases e
  · cases e
    exact putBytes_wf (mark_wf h _ _) a bs

theorem clear_wf (m : Memory) : m.clear.wf := ⟨List.Pairwise.nil, fun c hc => nomatch hc⟩

theorem applyMap_wf {m : Memory} (h : m.wf) (light : List Nat) : (m.applyMap light).wf := by
  refine ⟨h.1.filter _, fun c hc => ?_⟩
  have hk := (List.mem_filter.mp hc).2
  intro hx
  change (if (m.cleared && !light.contains (unitOf c.1)) = true then some (0#8) else none) = some c.2 at hx
  by_cases hc' : (m.cleared && !light.contains (unitOf c.1)) = true
  · rw [if_pos hc'] at hx
    have hz : c.2 = 0#8 := (Option.some.inj hx).symm
    simp_all
  · rw [if_neg hc'] at hx
    cases hx

theorem foldl_mem_wf {α : Type} {f : Memory → α → Memory} {l : List α} {m : Memory} (hf : ∀ m a, m.wf → (f m a).wf) (h : m.wf) :
    (l.foldl f m).wf := by
  induction l generalizing m with
  | nil => exact h
  | cons x t ih => exact ih (hf m x h)

theorem spoil_wf {m : Memory} (h : m.wf) (f : MemFault) (line : Nat) : (m.spoil f line).wf := by
  unfold Memory.spoil
  repeat' split
  all_goals first | exact h | exact filter_wf h _

theorem renew_wf {m : Memory} (h : m.wf) (line : Nat) : (m.renew line).wf := h

theorem scrubbed_wf {m : Memory} (h : m.wf) (line : Nat) : (m.scrubbed line).wf := h

theorem redirect_wf {m : Memory} (h : m.wf) (spareUnit : Nat) (pages : List (Nat × Nat)) : (m.redirect spareUnit pages).wf := by
  unfold Memory.redirect
  exact foldl_mem_wf (fun _ _ h => foldl_mem_wf (fun _ _ h => putByte_wf h _ _) h) (filter_wf h _)

/-! ### Reads after a write -/

theorem cellAt_putCell_self (l : List Host.Cell) (h : Rising l) (a : Nat) (x : Option Byte) : cellAt (putCell l a x) a = x := by
  induction l with
  | nil => cases x <;> simp [putCell, cellAt]
  | cons d t ih =>
    obtain ⟨b, v⟩ := d
    have ht := List.pairwise_cons.mp h
    have none_above : b ≤ a → ¬ b < a → cellAt t a = none := fun _ hge => by
      clear ih
      have : ∀ c ∈ t, a < c.1 := fun c hc => by have := ht.1 c hc; simp only at this; omega
      clear ht h
      induction t with
      | nil => rfl
      | cons e u ih =>
        have h1 := this e List.mem_cons_self
        obtain ⟨e1, e2⟩ := e
        simp only [cellAt]
        rw [if_neg (by simp only at h1; omega)]
        exact ih (fun c hc => this c (List.mem_cons_of_mem _ hc))
    simp only [putCell]
    split
    · rename_i hlt
      simp only [cellAt]
      rw [if_neg (by omega)]
      exact ih ht.2
    · split
      · rename_i h1 heq
        subst heq
        cases x with
        | none => exact none_above (Nat.le_refl _) (by omega)
        | some y => simp [cellAt]
      · rename_i h1 h2
        cases x with
        | some y => simp [cellAt]
        | none =>
          simp only [cellAt]
          rw [if_neg h2]
          have hlt : a < b := by omega
          clear ih none_above
          have : ∀ c ∈ t, a < c.1 := fun c hc => by have := ht.1 c hc; simp only at this; omega
          clear ht h
          induction t with
          | nil => rfl
          | cons e u ih =>
            have h1 := this e List.mem_cons_self
            obtain ⟨e1, e2⟩ := e
            simp only [cellAt]
            rw [if_neg (by simp only at h1; omega)]
            exact ih (fun c hc => this c (List.mem_cons_of_mem _ hc))

theorem cellAt_putCell_other (l : List Host.Cell) (a b : Nat) (x : Option Byte) (hne : b ≠ a) : cellAt (putCell l a x) b = cellAt l b := by
  induction l with
  | nil => cases x <;> simp [putCell, cellAt, Ne.symm hne]
  | cons d t ih =>
    obtain ⟨c, v⟩ := d
    simp only [putCell]
    split
    · simp only [cellAt, ih]
    · split
      · rename_i h1 heq
        subst heq
        cases x with
        | none => simp [cellAt, Ne.symm hne]
        | some y => simp [cellAt, Ne.symm hne]
      · cases x with
        | none => rfl
        | some y => simp [cellAt, Ne.symm hne]

/-- A byte stored in a line that is not poisoned reads back. -/
theorem readByte_putByte_self {m : Memory} (h : m.wf) {a : Nat} (hp : m.poisoned.contains (a / 64) = false) (v : Byte) :
    (m.putByte a v).readByte a = some v := by
  unfold Memory.readByte Memory.putByte
  simp only [hp, Bool.false_eq_true, if_false]
  rw [cellAt_putCell_self _ h.1]
  by_cases hu : m.unlisted a = some v
  · simp only [hu, if_true]
    exact hu
  · simp only [hu, if_false]

/-- A store leaves every other byte as it was. -/
theorem readByte_putByte_other (m : Memory) {a b : Nat} (hne : b ≠ a) (v : Byte) : (m.putByte a v).readByte b = m.readByte b := by
  unfold Memory.readByte Memory.putByte
  simp only
  rw [cellAt_putCell_other _ _ _ _ hne]
  rfl

/-- Bytes outside a stored span are as they were. -/
theorem readByte_putBytes_other (m : Memory) (a : Nat) (l : List Byte) {b : Nat} (h : b < a ∨ a + l.length ≤ b) :
    (m.putBytes a l).readByte b = m.readByte b := by
  induction l generalizing m a with
  | nil => rfl
  | cons x t ih =>
    simp only [List.length_cons] at h
    simp only [Memory.putBytes]
    rw [ih (m.putByte a x) (a + 1) (by omega), readByte_putByte_other m (by omega)]

end Sys2Proof.Machine
end

