-- ==== Sys2Proof/Laws/Moves.lean ====
section
/-! SUPPORT. What an operation can do, as one relation: `Moves P s t` says that `t` is reached from `s` with the queue as it
was, every part outside `P` as it was, and every code and form that `State.Legal` names kept. -/

set_option Elab.async false
set_option linter.all false

namespace Sys2Proof.Machine

open Sys2Proof

/-- `t` is reached from `s`: the same queue, every form that `s` keeps, and every part outside `P`. -/
structure Moves (P : List Part) (s t : State) : Prop where
  queue : t.pending = s.pending
  mem : s.mem.mem.wf → t.mem.mem.wf
  phase : s.gen.phase ≤ 7 → t.gen.phase ≤ 7
  role : s.wvl.role ≤ 5 → t.wvl.role ≤ 5
  mode : s.trd.mode ≤ 5 → t.trd.mode ≤ 5
  servo : s.tmb.state ≤ 4 → t.tmb.state ≤ 4
  keeper : s.kpr.state ≤ 5 → t.kpr.state ≤ 5
  same : ∀ p, p ∉ P → p.Same s t

/-- Every part of `A` is listed in `P`. -/
def Covers (P A : List Part) : Prop := ∀ p ∈ A, p ∈ P

theorem Covers.rfl {P : List Part} : Covers P P := fun _ h => h

theorem Covers.trans {P A B : List Part} (h : Covers P A) (hb : B.all A.contains = true) : Covers P B := fun p hp =>
  h p (List.contains_iff_mem.mp (List.all_eq_true.mp hb p hp))

theorem Covers.mem {P A : List Part} {p : Part} (h : Covers P A) (hp : A.contains p = true) : p ∈ P := h p (List.contains_iff_mem.mp hp)

theorem Part.same_refl (s : State) (p : Part) : p.Same s s := by
  cases p <;> simp [Part.Same]

theorem Moves.refl (P : List Part) (s : State) : Moves P s s := ⟨rfl, id, id, id, id, id, id, fun p _ => p.same_refl s⟩

/-- A legal state stays legal. -/
theorem Moves.legal {P : List Part} {s t : State} (h : Moves P s t) (hs : s.Legal) : t.Legal :=
  ⟨h.mem hs.mem, h.phase hs.phase, h.role hs.role, h.mode hs.mode, h.servo hs.servo, h.keeper hs.keeper⟩

theorem Moves.only {P : List Part} {s t : State} (h : Moves P s t) : Only P s t := ⟨h.queue, h.same⟩

/-! What a change of one unit keeps: the whole unit, or each of its parts that is not listed. -/

abbrev KTmb (P : List Part) (a b : TmbState) : Prop :=
  a = b ∨ ((a.rest = b.rest ∨ Part.timebase ∈ P) ∧ ((a.gens = b.gens ∧ a.tpo = b.tpo) ∨ Part.pulses ∈ P) ∧
    ((a.snapFw = b.snapFw ∧ a.snapHost = b.snapHost) ∨ Part.snaps ∈ P) ∧
    ((a.meanDelay = b.meanDelay ∧ a.pdelayT1 = b.pdelayT1 ∧ a.pdelayResp = b.pdelayResp ∧ a.twoStep = b.twoStep) ∨ Part.delays ∈ P))

abbrev KPrt (P : List Part) (a b : PrtState) : Prop :=
  a = b ∨ ((a.ports = b.ports ∨ Part.ports ∈ P) ∧ ((a.stations = b.stations ∧ a.streams = b.streams) ∨ Part.stations ∈ P))

abbrev KSvi (P : List Part) (a b : SviState) : Prop :=
  a = b ∨ ((a.rest = b.rest ∨ Part.intake ∈ P) ∧ (a.arch = b.arch ∨ Part.archive ∈ P))

abbrev KPhe (P : List Part) (a b : PheState) : Prop :=
  a = b ∨ ((a.rest = b.rest ∨ Part.phasors ∈ P) ∧ ((a.streams = b.streams ∧ a.queue = b.queue) ∨ Part.streams ∈ P) ∧
    ((a.banks = b.banks ∧ a.newest = b.newest ∧ a.pendMb = b.pendMb ∧ a.locked = b.locked ∧ a.before = b.before) ∨ Part.mailbox ∈ P))

abbrev KSeq (P : List Part) (a b : SeqState) : Prop :=
  a = b ∨ ((a.tasks = b.tasks ∨ Part.tasks ∈ P) ∧ ((a.forces = b.forces ∧ a.forcesSent = b.forcesSent) ∨ Part.forces ∈ P) ∧
    (a.rest = b.rest ∨ Part.sequencer ∈ P))

abbrev KTrd (P : List Part) (a b : TrdState) : Prop :=
  a = b ∨ ((a.rest = b.rest ∨ Part.triad ∈ P) ∧ (a.dbg = b.dbg ∨ Part.debug ∈ P))

abbrev KMem (P : List Part) (a b : MemState) : Prop :=
  a = b ∨ ((a.mem = b.mem ∨ Part.memory ∈ P) ∧ (a.rest = b.rest ∨ Part.memctl ∈ P))

abbrev KKpr (P : List Part) (a b : KprState) : Prop :=
  a = b ∨ ((a.cartridge = b.cartridge ∨ Part.cartridge ∈ P) ∧ (a.rest = b.rest ∨ Part.keeper ∈ P))

abbrev KFio (P : List Part) (a b : FioState) : Prop :=
  a = b ∨ ((a.di = b.di ∨ Part.inputs ∈ P) ∧ (a.dout = b.dout ∨ Part.outputs ∈ P) ∧
    ((a.ao = b.ao ∧ a.aoSel = b.aoSel ∧ a.comm = b.comm) ∨ Part.loops ∈ P) ∧ (a.rest = b.rest ∨ Part.field ∈ P))

abbrev KHif (P : List Part) (a b : HifState) : Prop :=
  a = b ∨ (((a.sessions = b.sessions ∧ a.egress = b.egress) ∨ Part.sessions ∈ P) ∧
    ((a.access = b.access ∧ a.accessStoring = b.accessStoring ∧ a.accessReady = b.accessReady) ∨ Part.access ∈ P) ∧
    (a.rest = b.rest ∨ Part.host ∈ P))

/-- A change of the state's components: each of its forms kept, each part kept or listed. -/
theorem Moves.chg {P : List Part} {s t : State} {p : List Instr} {n1 n2 n3 : Nat} {fl : List (Option (Nat × Nat))} {b : Bool} {n4 n5 : Nat} {gen : GenState} {evt : EvtState}
    {tmb : TmbState} {prt : PrtState} {svi : SviState} {phe : PheState} {wce : WceState} {seq : SeqState} {trd : TrdState}
    {bgt : BgtState} {ptm : PtmState} {wvl : WvlState} {mem : MemState} {wrd : WrdState} {fcr : FcrState} {lgr : LgrState}
    {kpr : KprState} {bsl : BslState} {upd : UpdState} {fio : FioState} {hif : HifState} {cfg : CfgState} {lf lh : List Latch}
    {out : List Out} (e1 : p = t.pending)
    (k1 : (n1 = t.now ∧ n2 = t.aon ∧ n5 = t.msgTag) ∨ Part.time ∈ P) (k2 : (n3 = t.pcount ∧ fl = t.followers ∧ b = t.discont) ∨ Part.count ∈ P)
    (k3 : n4 = t.fresh ∨ Part.draws ∈ P) (k4 : gen = t.gen ∨ Part.start ∈ P) (k5 : evt = t.evt ∨ Part.events ∈ P)
    (k6 : KTmb P tmb t.tmb) (k7 : KPrt P prt t.prt) (k8 : KSvi P svi t.svi) (k9 : KPhe P phe t.phe)
    (k10 : wce = t.wce ∨ Part.surges ∈ P) (k11 : KSeq P seq t.seq) (k12 : KTrd P trd t.trd)
    (k13 : bgt = t.bgt ∨ Part.budgets ∈ P) (k14 : ptm = t.ptm ∨ Part.power ∈ P) (k15 : wvl = t.wvl ∨ Part.pair ∈ P)
    (k16 : KMem P mem t.mem) (k17 : wrd = t.wrd ∨ Part.wards ∈ P) (k18 : fcr = t.fcr ∨ Part.faults ∈ P)
    (k19 : lgr = t.lgr ∨ Part.ledger ∈ P) (k20 : KKpr P kpr t.kpr) (k21 : bsl = t.bsl ∨ Part.loader ∈ P)
    (k22 : upd = t.upd ∨ Part.firmware ∈ P) (k23 : KFio P fio t.fio) (k24 : KHif P hif t.hif)
    (k25 : cfg = t.cfg ∨ Part.config ∈ P) (k26 : (lf = t.latchFw ∧ lh = t.latchHost) ∨ Part.latches ∈ P)
    (k27 : out = t.out ∨ Part.sent ∈ P)
    (e2 : t.mem.mem.wf → mem.mem.wf) (e3 : t.gen.phase ≤ 7 → gen.phase ≤ 7) (e4 : t.wvl.role ≤ 5 → wvl.role ≤ 5)
    (e5 : t.trd.mode ≤ 5 → trd.mode ≤ 5) (e6 : t.tmb.state ≤ 4 → tmb.state ≤ 4) (e7 : t.kpr.state ≤ 5 → kpr.state ≤ 5)
    (h : Moves P s t) :
    Moves P s ⟨p, n1, n2, n3, fl, b, n4, n5, gen, evt, tmb, prt, svi, phe, wce, seq, trd, bgt, ptm, wvl, mem, wrd, fcr, lgr, kpr, bsl, upd, fio,
      hif, cfg, lf, lh, out⟩ := by
  refine ⟨e1.trans h.queue, fun x => e2 (h.mem x), fun x => e3 (h.phase x), fun x => e4 (h.role x), fun x => e5 (h.mode x),
    fun x => e6 (h.servo x), fun x => e7 (h.keeper x), fun q hq => ?_⟩
  have hs := h.same q hq
  cases q <;> simp only [Part.Same] at hs ⊢
  case time => obtain ⟨a, b, c⟩ := k1.resolve_right hq; exact ⟨a.trans hs.1, b.trans hs.2.1, c.trans hs.2.2⟩
  case count => obtain ⟨a, b, c⟩ := k2.resolve_right hq; exact ⟨a.trans hs.1, b.trans hs.2.1, c.trans hs.2.2⟩
  case latches => obtain ⟨a, b⟩ := k26.resolve_right hq; exact ⟨a.trans hs.1, b.trans hs.2⟩
  case draws => exact (k3.resolve_right hq).trans hs
  case start => exact (k4.resolve_right hq).trans hs
  case events => exact (k5.resolve_right hq).trans hs
  case surges => exact (k10.resolve_right hq).trans hs
  case budgets => exact (k13.resolve_right hq).trans hs
  case power => exact (k14.resolve_right hq).trans hs
  case pair => exact (k15.resolve_right hq).trans hs
  case wards => exact (k17.resolve_right hq).trans hs
  case faults => exact (k18.resolve_right hq).trans hs
  case ledger => exact (k19.resolve_right hq).trans hs
  case loader => exact (k21.resolve_right hq).trans hs
  case firmware => exact (k22.resolve_right hq).trans hs
  case config => exact (k25.resolve_right hq).trans hs
  case sent => exact (k27.resolve_right hq).trans hs
  case timebase =>
    rcases k6 with rfl | k
    · exact hs
    · exact (k.1.resolve_right hq).trans hs
  case pulses =>
    rcases k6 with rfl | k
    · exact hs
    · obtain ⟨a, b⟩ := k.2.1.resolve_right hq
      exact ⟨a.trans hs.1, b.trans hs.2⟩
  case snaps =>
    rcases k6 with rfl | k
    · exact hs
    · obtain ⟨a, b⟩ := k.2.2.1.resolve_right hq
      exact ⟨a.trans hs.1, b.trans hs.2⟩
  case delays =>
    rcases k6 with rfl | k
    · exact hs
    · obtain ⟨a, b, c, d⟩ := k.2.2.2.resolve_right hq
      exact ⟨a.trans hs.1, b.trans hs.2.1, c.trans hs.2.2.1, d.trans hs.2.2.2⟩
  case ports =>
    rcases k7 with rfl | k
    · exact hs
    · exact (k.1.resolve_right hq).trans hs
  case stations =>
    rcases k7 with rfl | k
    · exact hs
    · obtain ⟨a, b⟩ := k.2.resolve_right hq
      exact ⟨a.trans hs.1, b.trans hs.2⟩
  case intake =>
    rcases k8 with rfl | k
    · exact hs
    · exact (k.1.resolve_right hq).trans hs
  case archive =>
    rcases k8 with rfl | k
    · exact hs
    · exact (k.2.resolve_right hq).trans hs
  case phasors =>
    rcases k9 with rfl | k
    · exact hs
    · exact (k.1.resolve_right hq).trans hs
  case streams =>
    rcases k9 with rfl | k
    · exact hs
    · obtain ⟨a, b⟩ := k.2.1.resolve_right hq
      exact ⟨a.trans hs.1, b.trans hs.2⟩
  case mailbox =>
    rcases k9 with rfl | k
    · exact hs
    · obtain ⟨a, b, c, d, e⟩ := k.2.2.resolve_right hq
      exact ⟨a.trans hs.1, b.trans hs.2.1, c.trans hs.2.2.1, d.trans hs.2.2.2.1, e.trans hs.2.2.2.2⟩
  case tasks =>
    rcases k11 with rfl | k
    · exact hs
    · exact (k.1.resolve_right hq).trans hs
  case forces =>
    rcases k11 with rfl | k
    · exact hs
    · obtain ⟨a, b⟩ := k.2.1.resolve_right hq
      exact ⟨a.trans hs.1, b.trans hs.2⟩
  case sequencer =>
    rcases k11 with rfl | k
    · exact hs
    · exact (k.2.2.resolve_right hq).trans hs
  case triad =>
    rcases k12 with rfl | k
    · exact hs
    · exact (k.1.resolve_right hq).trans hs
  case debug =>
    rcases k12 with rfl | k
    · exact hs
    · exact (k.2.resolve_right hq).trans hs
  case memory =>
    rcases k16 with rfl | k
    · exact hs
    · exact (k.1.resolve_right hq).trans hs
  case memctl =>
    rcases k16 with rfl | k
    · exact hs
    · exact (k.2.resolve_right hq).trans hs
  case cartridge =>
    rcases k20 with rfl | k
    · exact hs
    · exact (k.1.resolve_right hq).trans hs
  case keeper =>
    rcases k20 with rfl | k
    · exact hs
    · exact (k.2.resolve_right hq).trans hs
  case inputs =>
    rcases k23 with rfl | k
    · exact hs
    · exact (k.1.resolve_right hq).trans hs
  case outputs =>
    rcases k23 with rfl | k
    · exact hs
    · exact (k.2.1.resolve_right hq).trans hs
  case loops =>
    rcases k23 with rfl | k
    · exact hs
    · obtain ⟨a, b, c⟩ := k.2.2.1.resolve_right hq
      exact ⟨a.trans hs.1, b.trans hs.2.1, c.trans hs.2.2⟩
  case field =>
    rcases k23 with rfl | k
    · exact hs
    · exact (k.2.2.2.resolve_right hq).trans hs
  case sessions =>
    rcases k24 with rfl | k
    · exact hs
    · obtain ⟨a, b⟩ := k.1.resolve_right hq
      exact ⟨a.trans hs.1, b.trans hs.2⟩
  case access =>
    rcases k24 with rfl | k
    · exact hs
    · obtain ⟨a, b, c⟩ := k.2.1.resolve_right hq
      exact ⟨a.trans hs.1, b.trans hs.2.1, c.trans hs.2.2⟩
  case host =>
    rcases k24 with rfl | k
    · exact hs
    · exact (k.2.2.resolve_right hq).trans hs

/-- The state of an answered pair. -/
theorem of_pair {P : List Part} {s : State} {β : Type} {p : β × State} {i : β} {t : State} (e : p = (i, t)) (h : Moves P s p.2) :
    Moves P s t := by
  subst e
  exact h

/-- A code that one of two known codes replaces stays within its bound. -/
theorem ite_le {c : Prop} [Decidable c] {a b n : Nat} (ha : a ≤ n) (hb : b ≤ n) : (if c then a else b) ≤ n := by
  split <;> assumption

theorem foldl_moves {P : List Part} {s : State} {α : Type} {f : State → α → State} {l : List α} {t : State}
    (hf : ∀ t a, Moves P s t → Moves P s (f t a)) (h : Moves P s t) : Moves P s (l.foldl f t) := by
  induction l generalizing t with
  | nil => exact h
  | cons a l ih => exact ih (hf t a h)

theorem foldl_moves_snd {P : List Part} {s : State} {α β : Type} {f : β × State → α → β × State} {l : List α} {t : β × State}
    (hf : ∀ t a, Moves P s t.2 → Moves P s (f t a).2) (h : Moves P s t.2) : Moves P s (l.foldl f t).2 := by
  induction l generalizing t with
  | nil => exact h
  | cons a l ih => exact ih (hf t a h)

theorem ite_moves {P : List Part} {s : State} {c : Prop} [Decidable c] {a b : State} (ha : c → Moves P s a) (hb : ¬ c → Moves P s b) :
    Moves P s (if c then a else b) := by
  split
  · exact ha ‹_›
  · exact hb ‹_›

theorem ite_moves_snd {P : List Part} {s : State} {β : Type} {c : Prop} [Decidable c] {a b : β × State} (ha : c → Moves P s a.2)
    (hb : ¬ c → Moves P s b.2) : Moves P s (if c then a else b).2 := by
  split
  · exact ha ‹_›
  · exact hb ‹_›

theorem when_moves {P : List Part} {s t : State} {c : Bool} {f : State → State} (hf : ∀ t, Moves P s t → Moves P s (f t))
    (h : Moves P s t) : Moves P s (when c f t) := by
  unfold when
  split
  · exact hf t h
  · exact h

/-- Every next state that an answer gives is reached from `s`. -/
def Leads (P : List Part) (s : State) (r : Result) : Prop := ∀ t, r = .next t → Moves P s t

theorem next_leads {P : List Part} {s t : State} (h : Moves P s t) : Leads P s (.next t) := fun _ e => (Host.Outcome.next.inj e) ▸ h

theorem ite_leads {P : List Part} {s : State} {c : Prop} [Decidable c] {a b : Result} (ha : c → Leads P s a) (hb : ¬ c → Leads P s b) :
    Leads P s (if c then a else b) := by
  split
  · exact ha ‹_›
  · exact hb ‹_›

/-- A new main memory of the canonical form, where the old one had it. -/
theorem setMem_moves_of {P : List Part} {s t : State} {m : Memory} (hp : Part.memory ∈ P) (hm : s.mem.mem.wf → m.wf) (h : Moves P s t) :
    Moves P s (t.setMem m) :=
  ⟨h.queue, hm, h.phase, h.role, h.mode, h.servo, h.keeper, fun p hq => by
    have := h.same p hq
    cases p <;> first | exact this | exact absurd hp hq⟩

theorem setMem_moves {P : List Part} {s t : State} {m : Memory} (hp : Part.memory ∈ P) (hm : t.mem.mem.wf → m.wf) (h : Moves P s t) :
    Moves P s (t.setMem m) :=
  setMem_moves_of hp (fun x => hm (h.mem x)) h

end Sys2Proof.Machine
end

