-- ==== Sys2Proof/Laws/MovesOps.lean ====
section
/-! SUPPORT. What each operation of Machine/Ops.lean can do: the parts of the state it may change (`Moves`). -/

set_option Elab.async false
set_option linter.all false

namespace Sys2Proof.Machine

open Sys2Proof

theorem at_moves {P : List Part} {s0 : State} (w : When) {s : State} (hP : Covers P [.time])
    (hM : Moves P s0 s) : Moves P s0 (State.at s w) := by
  unfold State.at
  repeat' (first
    | with_reducible assumption
    | with_reducible exact Or.inl rfl
    | with_reducible exact hP.trans (by decide)
    | exact Or.inr (hP.mem (by decide))
    | exact hP.mem (by decide)
    | with_reducible refine of_pair ‹_ = (_, _)› ?_
    | with_reducible intro _
    | split
    | with_reducible exact id
    | with_reducible exact Or.inl ⟨rfl, rfl⟩
    | with_reducible exact Or.inl ⟨rfl, rfl, rfl⟩
    | with_reducible exact Or.inl ⟨rfl, rfl, rfl, rfl⟩
    | with_reducible exact Or.inl ⟨rfl, rfl, rfl, rfl, rfl⟩
    | decide
    | with_reducible apply ite_le
    | exact Nat.le_of_ble_eq_true rfl
    | with_reducible refine Moves.chg rfl ?_ ?_ ?_ ?_ ?_ ?_ ?_ ?_ ?_ ?_ ?_ ?_ ?_ ?_ ?_ ?_ ?_ ?_ ?_ ?_ ?_ ?_ ?_ ?_ ?_ ?_ ?_ ?_ ?_ ?_ ?_ ?_ ?_ ?_
    | with_reducible refine Or.inr (And.intro ?_ ?_)
    | with_reducible refine And.intro ?_ ?_)

theorem emit_moves {P : List Part} {s0 : State} (o : Out) {s : State} (hP : Covers P [.sent])
    (hM : Moves P s0 s) : Moves P s0 (emit o s) := by
  unfold emit
  repeat' (first
    | with_reducible assumption
    | with_reducible exact Or.inl rfl
    | with_reducible exact hP.trans (by decide)
    | exact Or.inr (hP.mem (by decide))
    | exact hP.mem (by decide)
    | with_reducible refine of_pair ‹_ = (_, _)› ?_
    | with_reducible intro _
    | split
    | with_reducible exact id
    | with_reducible exact Or.inl ⟨rfl, rfl⟩
    | with_reducible exact Or.inl ⟨rfl, rfl, rfl⟩
    | with_reducible exact Or.inl ⟨rfl, rfl, rfl, rfl⟩
    | with_reducible exact Or.inl ⟨rfl, rfl, rfl, rfl, rfl⟩
    | decide
    | with_reducible apply ite_le
    | exact Nat.le_of_ble_eq_true rfl
    | with_reducible refine Moves.chg rfl ?_ ?_ ?_ ?_ ?_ ?_ ?_ ?_ ?_ ?_ ?_ ?_ ?_ ?_ ?_ ?_ ?_ ?_ ?_ ?_ ?_ ?_ ?_ ?_ ?_ ?_ ?_ ?_ ?_ ?_ ?_ ?_ ?_ ?_
    | with_reducible refine Or.inr (And.intro ?_ ?_)
    | with_reducible refine And.intro ?_ ?_)

theorem draw_moves {P : List Part} {s0 : State}  {s : State} (hP : Covers P [.draws])
    (hM : Moves P s0 s) : Moves P s0 (draw s).2 := by
  unfold draw
  repeat' (first
    | with_reducible assumption
    | with_reducible exact Or.inl rfl
    | with_reducible exact hP.trans (by decide)
    | exact Or.inr (hP.mem (by decide))
    | exact hP.mem (by decide)
    | with_reducible refine of_pair ‹_ = (_, _)› ?_
    | with_reducible intro _
    | split
    | with_reducible exact id
    | with_reducible exact Or.inl ⟨rfl, rfl⟩
    | with_reducible exact Or.inl ⟨rfl, rfl, rfl⟩
    | with_reducible exact Or.inl ⟨rfl, rfl, rfl, rfl⟩
    | with_reducible exact Or.inl ⟨rfl, rfl, rfl, rfl, rfl⟩
    | decide
    | with_reducible apply ite_le
    | exact Nat.le_of_ble_eq_true rfl
    | with_reducible refine Moves.chg rfl ?_ ?_ ?_ ?_ ?_ ?_ ?_ ?_ ?_ ?_ ?_ ?_ ?_ ?_ ?_ ?_ ?_ ?_ ?_ ?_ ?_ ?_ ?_ ?_ ?_ ?_ ?_ ?_ ?_ ?_ ?_ ?_ ?_ ?_
    | with_reducible refine Or.inr (And.intro ?_ ?_)
    | with_reducible refine And.intro ?_ ?_)

theorem modCart_moves {P : List Part} {s0 : State} (f : Cartridge → Cartridge) {s : State} (hP : Covers P [.cartridge])
    (hM : Moves P s0 s) : Moves P s0 (modCart f s) := by
  unfold modCart
  repeat' (first
    | with_reducible assumption
    | with_reducible exact Or.inl rfl
    | with_reducible exact hP.trans (by decide)
    | exact Or.inr (hP.mem (by decide))
    | exact hP.mem (by decide)
    | with_reducible refine of_pair ‹_ = (_, _)› ?_
    | with_reducible intro _
    | split
    | with_reducible exact id
    | with_reducible exact Or.inl ⟨rfl, rfl⟩
    | with_reducible exact Or.inl ⟨rfl, rfl, rfl⟩
    | with_reducible exact Or.inl ⟨rfl, rfl, rfl, rfl⟩
    | with_reducible exact Or.inl ⟨rfl, rfl, rfl, rfl, rfl⟩
    | decide
    | with_reducible apply ite_le
    | exact Nat.le_of_ble_eq_true rfl
    | with_reducible refine Moves.chg rfl ?_ ?_ ?_ ?_ ?_ ?_ ?_ ?_ ?_ ?_ ?_ ?_ ?_ ?_ ?_ ?_ ?_ ?_ ?_ ?_ ?_ ?_ ?_ ?_ ?_ ?_ ?_ ?_ ?_ ?_ ?_ ?_ ?_ ?_
    | with_reducible refine Or.inr (And.intro ?_ ?_)
    | with_reducible refine And.intro ?_ ?_)

theorem notifyAll_moves {P : List Part} {s0 : State} (sub : Session → Bool) (n : Notif) {s : State} (hP : Covers P [.sessions, .host])
    (hM : Moves P s0 s) : Moves P s0 (notifyAll sub n s) := by
  unfold notifyAll
  repeat' (first
    | with_reducible assumption
    | with_reducible exact Or.inl rfl
    | with_reducible exact hP.trans (by decide)
    | exact Or.inr (hP.mem (by decide))
    | exact hP.mem (by decide)
    | with_reducible refine of_pair ‹_ = (_, _)› ?_
    | with_reducible apply foldl_moves
    | with_reducible apply foldl_moves_snd
    | with_reducible apply ite_moves
    | with_reducible apply ite_moves_snd
    | with_reducible intro _
    | split
    | with_reducible exact id
    | with_reducible exact Or.inl ⟨rfl, rfl⟩
    | with_reducible exact Or.inl ⟨rfl, rfl, rfl⟩
    | with_reducible exact Or.inl ⟨rfl, rfl, rfl, rfl⟩
    | with_reducible exact Or.inl ⟨rfl, rfl, rfl, rfl, rfl⟩
    | decide
    | with_reducible apply ite_le
    | exact Nat.le_of_ble_eq_true rfl
    | with_reducible refine Moves.chg rfl ?_ ?_ ?_ ?_ ?_ ?_ ?_ ?_ ?_ ?_ ?_ ?_ ?_ ?_ ?_ ?_ ?_ ?_ ?_ ?_ ?_ ?_ ?_ ?_ ?_ ?_ ?_ ?_ ?_ ?_ ?_ ?_ ?_ ?_
    | with_reducible refine Or.inr (And.intro ?_ ?_)
    | with_reducible refine And.intro ?_ ?_)

theorem hwSet_moves {P : List Part} {s0 : State} (addr bit : Nat) (reader : Option Bool) {s : State} (hP : Covers P [.events])
    (hM : Moves P s0 s) : Moves P s0 (hwSet addr bit reader s) := by
  unfold hwSet
  repeat' (first
    | with_reducible assumption
    | with_reducible exact Or.inl rfl
    | with_reducible exact hP.trans (by decide)
    | exact Or.inr (hP.mem (by decide))
    | exact hP.mem (by decide)
    | with_reducible refine of_pair ‹_ = (_, _)› ?_
    | with_reducible intro _
    | split
    | with_reducible exact id
    | with_reducible exact Or.inl ⟨rfl, rfl⟩
    | with_reducible exact Or.inl ⟨rfl, rfl, rfl⟩
    | with_reducible exact Or.inl ⟨rfl, rfl, rfl, rfl⟩
    | with_reducible exact Or.inl ⟨rfl, rfl, rfl, rfl, rfl⟩
    | decide
    | with_reducible apply ite_le
    | exact Nat.le_of_ble_eq_true rfl
    | with_reducible refine Moves.chg rfl ?_ ?_ ?_ ?_ ?_ ?_ ?_ ?_ ?_ ?_ ?_ ?_ ?_ ?_ ?_ ?_ ?_ ?_ ?_ ?_ ?_ ?_ ?_ ?_ ?_ ?_ ?_ ?_ ?_ ?_ ?_ ?_ ?_ ?_
    | with_reducible refine Or.inr (And.intro ?_ ?_)
    | with_reducible refine And.intro ?_ ?_)

theorem assertSource_moves {P : List Part} {s0 : State} (n : Nat) {s : State} (hP : Covers P [.events, .sessions, .host])
    (hM : Moves P s0 s) : Moves P s0 (assertSource n s) := by
  unfold assertSource
  repeat' (first
    | with_reducible assumption
    | with_reducible exact Or.inl rfl
    | with_reducible exact hP.trans (by decide)
    | exact Or.inr (hP.mem (by decide))
    | exact hP.mem (by decide)
    | with_reducible refine of_pair ‹_ = (_, _)› ?_
    | with_reducible apply hwSet_moves
    | with_reducible apply notifyAll_moves
    | with_reducible apply ite_moves
    | with_reducible apply ite_moves_snd
    | with_reducible intro _
    | split
    | with_reducible exact id
    | with_reducible exact Or.inl ⟨rfl, rfl⟩
    | with_reducible exact Or.inl ⟨rfl, rfl, rfl⟩
    | with_reducible exact Or.inl ⟨rfl, rfl, rfl, rfl⟩
    | with_reducible exact Or.inl ⟨rfl, rfl, rfl, rfl, rfl⟩
    | decide
    | with_reducible apply ite_le
    | exact Nat.le_of_ble_eq_true rfl
    | with_reducible refine Moves.chg rfl ?_ ?_ ?_ ?_ ?_ ?_ ?_ ?_ ?_ ?_ ?_ ?_ ?_ ?_ ?_ ?_ ?_ ?_ ?_ ?_ ?_ ?_ ?_ ?_ ?_ ?_ ?_ ?_ ?_ ?_ ?_ ?_ ?_ ?_
    | with_reducible refine Or.inr (And.intro ?_ ?_)
    | with_reducible refine And.intro ?_ ?_)

theorem raise_moves {P : List Part} {s0 : State} (r : EvtReg) (bit : Nat) {s : State} (hP : Covers P [.events, .sessions, .host])
    (hM : Moves P s0 s) : Moves P s0 (raise r bit s) := by
  unfold raise
  repeat' (first
    | with_reducible assumption
    | with_reducible exact Or.inl rfl
    | with_reducible exact hP.trans (by decide)
    | exact Or.inr (hP.mem (by decide))
    | exact hP.mem (by decide)
    | with_reducible refine of_pair ‹_ = (_, _)› ?_
    | with_reducible apply assertSource_moves
    | with_reducible apply hwSet_moves
    | with_reducible apply ite_moves
    | with_reducible apply ite_moves_snd
    | with_reducible intro _
    | split
    | with_reducible exact id
    | with_reducible exact Or.inl ⟨rfl, rfl⟩
    | with_reducible exact Or.inl ⟨rfl, rfl, rfl⟩
    | with_reducible exact Or.inl ⟨rfl, rfl, rfl, rfl⟩
    | with_reducible exact Or.inl ⟨rfl, rfl, rfl, rfl, rfl⟩
    | decide
    | with_reducible apply ite_le
    | exact Nat.le_of_ble_eq_true rfl
    | with_reducible refine Moves.chg rfl ?_ ?_ ?_ ?_ ?_ ?_ ?_ ?_ ?_ ?_ ?_ ?_ ?_ ?_ ?_ ?_ ?_ ?_ ?_ ?_ ?_ ?_ ?_ ?_ ?_ ?_ ?_ ?_ ?_ ?_ ?_ ?_ ?_ ?_
    | with_reducible refine Or.inr (And.intro ?_ ?_)
    | with_reducible refine And.intro ?_ ?_)

theorem reportBy_moves {P : List Part} {s0 : State} (unit src inst : Nat) {s : State} (hP : Covers P [.faults])
    (hM : Moves P s0 s) : Moves P s0 (reportBy unit src inst s) := by
  unfold reportBy
  repeat' (first
    | with_reducible assumption
    | with_reducible exact Or.inl rfl
    | with_reducible exact hP.trans (by decide)
    | exact Or.inr (hP.mem (by decide))
    | exact hP.mem (by decide)
    | with_reducible refine of_pair ‹_ = (_, _)› ?_
    | with_reducible apply ite_moves
    | with_reducible apply ite_moves_snd
    | with_reducible intro _
    | split
    | with_reducible exact id
    | with_reducible exact Or.inl ⟨rfl, rfl⟩
    | with_reducible exact Or.inl ⟨rfl, rfl, rfl⟩
    | with_reducible exact Or.inl ⟨rfl, rfl, rfl, rfl⟩
    | with_reducible exact Or.inl ⟨rfl, rfl, rfl, rfl, rfl⟩
    | decide
    | with_reducible apply ite_le
    | exact Nat.le_of_ble_eq_true rfl
    | with_reducible refine Moves.chg rfl ?_ ?_ ?_ ?_ ?_ ?_ ?_ ?_ ?_ ?_ ?_ ?_ ?_ ?_ ?_ ?_ ?_ ?_ ?_ ?_ ?_ ?_ ?_ ?_ ?_ ?_ ?_ ?_ ?_ ?_ ?_ ?_ ?_ ?_
    | with_reducible refine Or.inr (And.intro ?_ ?_)
    | with_reducible refine And.intro ?_ ?_)

theorem report_moves {P : List Part} {s0 : State} (src inst : Nat) {s : State} (hP : Covers P [.faults])
    (hM : Moves P s0 s) : Moves P s0 (report src inst s) := by
  unfold report
  repeat' (first
    | with_reducible assumption
    | with_reducible exact Or.inl rfl
    | with_reducible exact hP.trans (by decide)
    | exact Or.inr (hP.mem (by decide))
    | exact hP.mem (by decide)
    | with_reducible refine of_pair ‹_ = (_, _)› ?_
    | with_reducible apply reportBy_moves
    | with_reducible apply ite_moves
    | with_reducible apply ite_moves_snd
    | with_reducible intro _
    | split
    | with_reducible exact id
    | with_reducible exact Or.inl ⟨rfl, rfl⟩
    | with_reducible exact Or.inl ⟨rfl, rfl, rfl⟩
    | with_reducible exact Or.inl ⟨rfl, rfl, rfl, rfl⟩
    | with_reducible exact Or.inl ⟨rfl, rfl, rfl, rfl, rfl⟩
    | decide
    | with_reducible apply ite_le
    | exact Nat.le_of_ble_eq_true rfl
    | with_reducible refine Moves.chg rfl ?_ ?_ ?_ ?_ ?_ ?_ ?_ ?_ ?_ ?_ ?_ ?_ ?_ ?_ ?_ ?_ ?_ ?_ ?_ ?_ ?_ ?_ ?_ ?_ ?_ ?_ ?_ ?_ ?_ ?_ ?_ ?_ ?_ ?_
    | with_reducible refine Or.inr (And.intro ?_ ?_)
    | with_reducible refine And.intro ?_ ?_)

theorem setJobs_moves {P : List Part} {s0 : State} (l : List KprJob) {s : State} (hP : Covers P [.keeper])
    (hM : Moves P s0 s) : Moves P s0 (setJobs l s) := by
  unfold setJobs
  repeat' (first
    | with_reducible assumption
    | with_reducible exact Or.inl rfl
    | with_reducible exact hP.trans (by decide)
    | exact Or.inr (hP.mem (by decide))
    | exact hP.mem (by decide)
    | with_reducible refine of_pair ‹_ = (_, _)› ?_
    | with_reducible intro _
    | split
    | with_reducible exact id
    | with_reducible exact Or.inl ⟨rfl, rfl⟩
    | with_reducible exact Or.inl ⟨rfl, rfl, rfl⟩
    | with_reducible exact Or.inl ⟨rfl, rfl, rfl, rfl⟩
    | with_reducible exact Or.inl ⟨rfl, rfl, rfl, rfl, rfl⟩
    | decide
    | with_reducible apply ite_le
    | exact Nat.le_of_ble_eq_true rfl
    | with_reducible refine Moves.chg rfl ?_ ?_ ?_ ?_ ?_ ?_ ?_ ?_ ?_ ?_ ?_ ?_ ?_ ?_ ?_ ?_ ?_ ?_ ?_ ?_ ?_ ?_ ?_ ?_ ?_ ?_ ?_ ?_ ?_ ?_ ?_ ?_ ?_ ?_
    | with_reducible refine Or.inr (And.intro ?_ ?_)
    | with_reducible refine And.intro ?_ ?_)

theorem queueJob_moves {P : List Part} {s0 : State} (j : KprJob) {s : State} (hP : Covers P [.events, .keeper, .sessions, .host])
    (hM : Moves P s0 s) : Moves P s0 (queueJob j s) := by
  unfold queueJob
  repeat' (first
    | with_reducible assumption
    | with_reducible exact Or.inl rfl
    | with_reducible exact hP.trans (by decide)
    | exact Or.inr (hP.mem (by decide))
    | exact hP.mem (by decide)
    | with_reducible refine of_pair ‹_ = (_, _)› ?_
    | with_reducible apply raise_moves
    | with_reducible apply ite_moves
    | with_reducible apply ite_moves_snd
    | with_reducible intro _
    | split
    | with_reducible exact id
    | with_reducible exact Or.inl ⟨rfl, rfl⟩
    | with_reducible exact Or.inl ⟨rfl, rfl, rfl⟩
    | with_reducible exact Or.inl ⟨rfl, rfl, rfl, rfl⟩
    | with_reducible exact Or.inl ⟨rfl, rfl, rfl, rfl, rfl⟩
    | decide
    | with_reducible apply ite_le
    | exact Nat.le_of_ble_eq_true rfl
    | with_reducible refine Moves.chg rfl ?_ ?_ ?_ ?_ ?_ ?_ ?_ ?_ ?_ ?_ ?_ ?_ ?_ ?_ ?_ ?_ ?_ ?_ ?_ ?_ ?_ ?_ ?_ ?_ ?_ ?_ ?_ ?_ ?_ ?_ ?_ ?_ ?_ ?_
    | with_reducible refine Or.inr (And.intro ?_ ?_)
    | with_reducible refine And.intro ?_ ?_)

theorem queueLedger_moves {P : List Part} {s0 : State} (force : Bool) {s : State} (hP : Covers P [.events, .keeper, .sessions, .host])
    (hM : Moves P s0 s) : Moves P s0 (queueLedger force s) := by
  unfold queueLedger
  repeat' (first
    | with_reducible assumption
    | with_reducible exact Or.inl rfl
    | with_reducible exact hP.trans (by decide)
    | exact Or.inr (hP.mem (by decide))
    | exact hP.mem (by decide)
    | with_reducible refine of_pair ‹_ = (_, _)› ?_
    | with_reducible apply queueJob_moves
    | with_reducible apply ite_moves
    | with_reducible apply ite_moves_snd
    | with_reducible intro _
    | split
    | with_reducible exact id
    | with_reducible exact Or.inl ⟨rfl, rfl⟩
    | with_reducible exact Or.inl ⟨rfl, rfl, rfl⟩
    | with_reducible exact Or.inl ⟨rfl, rfl, rfl, rfl⟩
    | with_reducible exact Or.inl ⟨rfl, rfl, rfl, rfl, rfl⟩
    | decide
    | with_reducible apply ite_le
    | exact Nat.le_of_ble_eq_true rfl
    | with_reducible refine Moves.chg rfl ?_ ?_ ?_ ?_ ?_ ?_ ?_ ?_ ?_ ?_ ?_ ?_ ?_ ?_ ?_ ?_ ?_ ?_ ?_ ?_ ?_ ?_ ?_ ?_ ?_ ?_ ?_ ?_ ?_ ?_ ?_ ?_ ?_ ?_
    | with_reducible refine Or.inr (And.intro ?_ ?_)
    | with_reducible refine And.intro ?_ ?_)

theorem noteHold_moves {P : List Part} {s0 : State} (was : Nat) {s : State} (hP : Covers P [.events, .sessions, .host])
    (hM : Moves P s0 s) : Moves P s0 (noteHold was s) := by
  unfold noteHold
  repeat' (first
    | with_reducible assumption
    | with_reducible exact Or.inl rfl
    | with_reducible exact hP.trans (by decide)
    | exact Or.inr (hP.mem (by decide))
    | exact hP.mem (by decide)
    | with_reducible refine of_pair ‹_ = (_, _)› ?_
    | with_reducible apply raise_moves
    | with_reducible apply when_moves
    | with_reducible intro _
    | split
    | with_reducible exact id
    | with_reducible exact Or.inl ⟨rfl, rfl⟩
    | with_reducible exact Or.inl ⟨rfl, rfl, rfl⟩
    | with_reducible exact Or.inl ⟨rfl, rfl, rfl, rfl⟩
    | with_reducible exact Or.inl ⟨rfl, rfl, rfl, rfl, rfl⟩
    | decide
    | with_reducible apply ite_le
    | exact Nat.le_of_ble_eq_true rfl
    | with_reducible refine Moves.chg rfl ?_ ?_ ?_ ?_ ?_ ?_ ?_ ?_ ?_ ?_ ?_ ?_ ?_ ?_ ?_ ?_ ?_ ?_ ?_ ?_ ?_ ?_ ?_ ?_ ?_ ?_ ?_ ?_ ?_ ?_ ?_ ?_ ?_ ?_
    | with_reducible refine Or.inr (And.intro ?_ ?_)
    | with_reducible refine And.intro ?_ ?_)

theorem holdRecord_moves {P : List Part} {s0 : State} (r : LedgerRecord) {s : State} (hP : Covers P [.events, .ledger, .keeper, .sessions, .host])
    (hM : Moves P s0 s) : Moves P s0 (holdRecord r s) := by
  unfold holdRecord
  repeat' (first
    | with_reducible assumption
    | with_reducible exact Or.inl rfl
    | with_reducible exact hP.trans (by decide)
    | exact Or.inr (hP.mem (by decide))
    | exact hP.mem (by decide)
    | with_reducible refine of_pair ‹_ = (_, _)› ?_
    | with_reducible apply noteHold_moves
    | with_reducible apply queueLedger_moves
    | with_reducible apply raise_moves
    | with_reducible apply ite_moves
    | with_reducible apply ite_moves_snd
    | with_reducible intro _
    | split
    | with_reducible exact id
    | with_reducible exact Or.inl ⟨rfl, rfl⟩
    | with_reducible exact Or.inl ⟨rfl, rfl, rfl⟩
    | with_reducible exact Or.inl ⟨rfl, rfl, rfl, rfl⟩
    | with_reducible exact Or.inl ⟨rfl, rfl, rfl, rfl, rfl⟩
    | decide
    | with_reducible apply ite_le
    | exact Nat.le_of_ble_eq_true rfl
    | with_reducible refine Moves.chg rfl ?_ ?_ ?_ ?_ ?_ ?_ ?_ ?_ ?_ ?_ ?_ ?_ ?_ ?_ ?_ ?_ ?_ ?_ ?_ ?_ ?_ ?_ ?_ ?_ ?_ ?_ ?_ ?_ ?_ ?_ ?_ ?_ ?_ ?_
    | with_reducible refine Or.inr (And.intro ?_ ?_)
    | with_reducible refine And.intro ?_ ?_)

theorem takeRecord_moves {P : List Part} {s0 : State} (r : LedgerRecord) {s : State} (hP : Covers P [.events, .ledger, .keeper, .sessions, .host])
    (hM : Moves P s0 s) : Moves P s0 (takeRecord r s).2 := by
  unfold takeRecord
  repeat' (first
    | with_reducible assumption
    | with_reducible exact Or.inl rfl
    | with_reducible exact hP.trans (by decide)
    | exact Or.inr (hP.mem (by decide))
    | exact hP.mem (by decide)
    | with_reducible refine of_pair ‹_ = (_, _)› ?_
    | with_reducible apply holdRecord_moves
    | with_reducible apply ite_moves
    | with_reducible apply ite_moves_snd
    | with_reducible intro _
    | split
    | with_reducible exact id
    | with_reducible exact Or.inl ⟨rfl, rfl⟩
    | with_reducible exact Or.inl ⟨rfl, rfl, rfl⟩
    | with_reducible exact Or.inl ⟨rfl, rfl, rfl, rfl⟩
    | with_reducible exact Or.inl ⟨rfl, rfl, rfl, rfl, rfl⟩
    | decide
    | with_reducible apply ite_le
    | exact Nat.le_of_ble_eq_true rfl
    | with_reducible refine Moves.chg rfl ?_ ?_ ?_ ?_ ?_ ?_ ?_ ?_ ?_ ?_ ?_ ?_ ?_ ?_ ?_ ?_ ?_ ?_ ?_ ?_ ?_ ?_ ?_ ?_ ?_ ?_ ?_ ?_ ?_ ?_ ?_ ?_ ?_ ?_
    | with_reducible refine Or.inr (And.intro ?_ ?_)
    | with_reducible refine And.intro ?_ ?_)

theorem putBucket_moves {P : List Part} {s0 : State} (i : Nat) (b : Bucket) {s : State} (hP : Covers P [.ledger])
    (hM : Moves P s0 s) : Moves P s0 (putBucket i b s) := by
  unfold putBucket
  repeat' (first
    | with_reducible assumption
    | with_reducible exact Or.inl rfl
    | with_reducible exact hP.trans (by decide)
    | exact Or.inr (hP.mem (by decide))
    | exact hP.mem (by decide)
    | with_reducible refine of_pair ‹_ = (_, _)› ?_
    | with_reducible intro _
    | split
    | with_reducible exact id
    | with_reducible exact Or.inl ⟨rfl, rfl⟩
    | with_reducible exact Or.inl ⟨rfl, rfl, rfl⟩
    | with_reducible exact Or.inl ⟨rfl, rfl, rfl, rfl⟩
    | with_reducible exact Or.inl ⟨rfl, rfl, rfl, rfl, rfl⟩
    | decide
    | with_reducible apply ite_le
    | exact Nat.le_of_ble_eq_true rfl
    | with_reducible refine Moves.chg rfl ?_ ?_ ?_ ?_ ?_ ?_ ?_ ?_ ?_ ?_ ?_ ?_ ?_ ?_ ?_ ?_ ?_ ?_ ?_ ?_ ?_ ?_ ?_ ?_ ?_ ?_ ?_ ?_ ?_ ?_ ?_ ?_ ?_ ?_
    | with_reducible refine Or.inr (And.intro ?_ ?_)
    | with_reducible refine And.intro ?_ ?_)

theorem suppressRecord_moves {P : List Part} {s0 : State} (code time : Nat) {s : State} (hP : Covers P [.events, .ledger, .sessions, .host])
    (hM : Moves P s0 s) : Moves P s0 (suppressRecord code time s) := by
  unfold suppressRecord
  repeat' (first
    | with_reducible assumption
    | with_reducible exact Or.inl rfl
    | with_reducible exact hP.trans (by decide)
    | exact Or.inr (hP.mem (by decide))
    | exact hP.mem (by decide)
    | with_reducible refine of_pair ‹_ = (_, _)› ?_
    | with_reducible apply raise_moves
    | with_reducible apply when_moves
    | with_reducible intro _
    | split
    | with_reducible exact id
    | with_reducible exact Or.inl ⟨rfl, rfl⟩
    | with_reducible exact Or.inl ⟨rfl, rfl, rfl⟩
    | with_reducible exact Or.inl ⟨rfl, rfl, rfl, rfl⟩
    | with_reducible exact Or.inl ⟨rfl, rfl, rfl, rfl, rfl⟩
    | decide
    | with_reducible apply ite_le
    | exact Nat.le_of_ble_eq_true rfl
    | with_reducible refine Moves.chg rfl ?_ ?_ ?_ ?_ ?_ ?_ ?_ ?_ ?_ ?_ ?_ ?_ ?_ ?_ ?_ ?_ ?_ ?_ ?_ ?_ ?_ ?_ ?_ ?_ ?_ ?_ ?_ ?_ ?_ ?_ ?_ ?_ ?_ ?_
    | with_reducible refine Or.inr (And.intro ?_ ?_)
    | with_reducible refine And.intro ?_ ?_)

theorem admitRecord_moves {P : List Part} {s0 : State} (r : LedgerRecord) {s : State} (hP : Covers P [.events, .ledger, .keeper, .sessions, .host])
    (hM : Moves P s0 s) : Moves P s0 (admitRecord r s).2 := by
  unfold admitRecord
  repeat' (first
    | with_reducible assumption
    | with_reducible exact Or.inl rfl
    | with_reducible exact hP.trans (by decide)
    | exact Or.inr (hP.mem (by decide))
    | exact hP.mem (by decide)
    | with_reducible refine of_pair ‹_ = (_, _)› ?_
    | with_reducible apply suppressRecord_moves
    | with_reducible apply putBucket_moves
    | with_reducible apply takeRecord_moves
    | with_reducible apply ite_moves
    | with_reducible apply ite_moves_snd
    | with_reducible intro _
    | split
    | with_reducible exact id
    | with_reducible exact Or.inl ⟨rfl, rfl⟩
    | with_reducible exact Or.inl ⟨rfl, rfl, rfl⟩
    | with_reducible exact Or.inl ⟨rfl, rfl, rfl, rfl⟩
    | with_reducible exact Or.inl ⟨rfl, rfl, rfl, rfl, rfl⟩
    | decide
    | with_reducible apply ite_le
    | exact Nat.le_of_ble_eq_true rfl
    | with_reducible refine Moves.chg rfl ?_ ?_ ?_ ?_ ?_ ?_ ?_ ?_ ?_ ?_ ?_ ?_ ?_ ?_ ?_ ?_ ?_ ?_ ?_ ?_ ?_ ?_ ?_ ?_ ?_ ?_ ?_ ?_ ?_ ?_ ?_ ?_ ?_ ?_
    | with_reducible refine Or.inr (And.intro ?_ ?_)
    | with_reducible refine And.intro ?_ ?_)

theorem ledger_moves {P : List Part} {s0 : State} (code source : Nat) (data : List Nat) {s : State} (hP : Covers P [.events, .ledger, .keeper, .sessions, .host])
    (hM : Moves P s0 s) : Moves P s0 (ledger code source data s) := by
  unfold ledger
  repeat' (first
    | with_reducible assumption
    | with_reducible exact Or.inl rfl
    | with_reducible exact hP.trans (by decide)
    | exact Or.inr (hP.mem (by decide))
    | exact hP.mem (by decide)
    | with_reducible refine of_pair ‹_ = (_, _)› ?_
    | with_reducible apply admitRecord_moves
    | with_reducible intro _
    | split
    | with_reducible exact id
    | with_reducible exact Or.inl ⟨rfl, rfl⟩
    | with_reducible exact Or.inl ⟨rfl, rfl, rfl⟩
    | with_reducible exact Or.inl ⟨rfl, rfl, rfl, rfl⟩
    | with_reducible exact Or.inl ⟨rfl, rfl, rfl, rfl, rfl⟩
    | decide
    | with_reducible apply ite_le
    | exact Nat.le_of_ble_eq_true rfl
    | with_reducible refine Moves.chg rfl ?_ ?_ ?_ ?_ ?_ ?_ ?_ ?_ ?_ ?_ ?_ ?_ ?_ ?_ ?_ ?_ ?_ ?_ ?_ ?_ ?_ ?_ ?_ ?_ ?_ ?_ ?_ ?_ ?_ ?_ ?_ ?_ ?_ ?_
    | with_reducible refine Or.inr (And.intro ?_ ?_)
    | with_reducible refine And.intro ?_ ?_)

theorem chargeSlot_moves {P : List Part} {s0 : State} (i n : Nat) {s : State} (hP : Covers P [.budgets])
    (hM : Moves P s0 s) : Moves P s0 (chargeSlot i n s) := by
  unfold chargeSlot
  repeat' (first
    | with_reducible assumption
    | with_reducible exact Or.inl rfl
    | with_reducible exact hP.trans (by decide)
    | exact Or.inr (hP.mem (by decide))
    | exact hP.mem (by decide)
    | with_reducible refine of_pair ‹_ = (_, _)› ?_
    | with_reducible intro _
    | split
    | with_reducible exact id
    | with_reducible exact Or.inl ⟨rfl, rfl⟩
    | with_reducible exact Or.inl ⟨rfl, rfl, rfl⟩
    | with_reducible exact Or.inl ⟨rfl, rfl, rfl, rfl⟩
    | with_reducible exact Or.inl ⟨rfl, rfl, rfl, rfl, rfl⟩
    | decide
    | with_reducible apply ite_le
    | exact Nat.le_of_ble_eq_true rfl
    | with_reducible refine Moves.chg rfl ?_ ?_ ?_ ?_ ?_ ?_ ?_ ?_ ?_ ?_ ?_ ?_ ?_ ?_ ?_ ?_ ?_ ?_ ?_ ?_ ?_ ?_ ?_ ?_ ?_ ?_ ?_ ?_ ?_ ?_ ?_ ?_ ?_ ?_
    | with_reducible refine Or.inr (And.intro ?_ ?_)
    | with_reducible refine And.intro ?_ ?_)

theorem noteBulk_moves {P : List Part} {s0 : State}  {s : State} (hP : Covers P [.budgets])
    (hM : Moves P s0 s) : Moves P s0 (noteBulk s) := by
  unfold noteBulk
  repeat' (first
    | with_reducible assumption
    | with_reducible exact Or.inl rfl
    | with_reducible exact hP.trans (by decide)
    | exact Or.inr (hP.mem (by decide))
    | exact hP.mem (by decide)
    | with_reducible refine of_pair ‹_ = (_, _)› ?_
    | with_reducible apply ite_moves
    | with_reducible apply ite_moves_snd
    | with_reducible intro _
    | split
    | with_reducible exact id
    | with_reducible exact Or.inl ⟨rfl, rfl⟩
    | with_reducible exact Or.inl ⟨rfl, rfl, rfl⟩
    | with_reducible exact Or.inl ⟨rfl, rfl, rfl, rfl⟩
    | with_reducible exact Or.inl ⟨rfl, rfl, rfl, rfl, rfl⟩
    | decide
    | with_reducible apply ite_le
    | exact Nat.le_of_ble_eq_true rfl
    | with_reducible refine Moves.chg rfl ?_ ?_ ?_ ?_ ?_ ?_ ?_ ?_ ?_ ?_ ?_ ?_ ?_ ?_ ?_ ?_ ?_ ?_ ?_ ?_ ?_ ?_ ?_ ?_ ?_ ?_ ?_ ?_ ?_ ?_ ?_ ?_ ?_ ?_
    | with_reducible refine Or.inr (And.intro ?_ ?_)
    | with_reducible refine And.intro ?_ ?_)

theorem chargePort_moves {P : List Part} {s0 : State} (n bytes : Nat) {s : State} (hP : Covers P [.ports])
    (hM : Moves P s0 s) : Moves P s0 (chargePort n bytes s) := by
  unfold chargePort
  repeat' (first
    | with_reducible assumption
    | with_reducible exact Or.inl rfl
    | with_reducible exact hP.trans (by decide)
    | exact Or.inr (hP.mem (by decide))
    | exact hP.mem (by decide)
    | with_reducible refine of_pair ‹_ = (_, _)› ?_
    | with_reducible intro _
    | split
    | with_reducible exact id
    | with_reducible exact Or.inl ⟨rfl, rfl⟩
    | with_reducible exact Or.inl ⟨rfl, rfl, rfl⟩
    | with_reducible exact Or.inl ⟨rfl, rfl, rfl, rfl⟩
    | with_reducible exact Or.inl ⟨rfl, rfl, rfl, rfl, rfl⟩
    | decide
    | with_reducible apply ite_le
    | exact Nat.le_of_ble_eq_true rfl
    | with_reducible refine Moves.chg rfl ?_ ?_ ?_ ?_ ?_ ?_ ?_ ?_ ?_ ?_ ?_ ?_ ?_ ?_ ?_ ?_ ?_ ?_ ?_ ?_ ?_ ?_ ?_ ?_ ?_ ?_ ?_ ?_ ?_ ?_ ?_ ?_ ?_ ?_
    | with_reducible refine Or.inr (And.intro ?_ ?_)
    | with_reducible refine And.intro ?_ ?_)

theorem modPort_moves {P : List Part} {s0 : State} (n : Nat) (f : PortState → PortState) {s : State} (hP : Covers P [.ports])
    (hM : Moves P s0 s) : Moves P s0 (modPort n f s) := by
  unfold modPort
  repeat' (first
    | with_reducible assumption
    | with_reducible exact Or.inl rfl
    | with_reducible exact hP.trans (by decide)
    | exact Or.inr (hP.mem (by decide))
    | exact hP.mem (by decide)
    | with_reducible refine of_pair ‹_ = (_, _)› ?_
    | with_reducible intro _
    | split
    | with_reducible exact id
    | with_reducible exact Or.inl ⟨rfl, rfl⟩
    | with_reducible exact Or.inl ⟨rfl, rfl, rfl⟩
    | with_reducible exact Or.inl ⟨rfl, rfl, rfl, rfl⟩
    | with_reducible exact Or.inl ⟨rfl, rfl, rfl, rfl, rfl⟩
    | decide
    | with_reducible apply ite_le
    | exact Nat.le_of_ble_eq_true rfl
    | with_reducible refine Moves.chg rfl ?_ ?_ ?_ ?_ ?_ ?_ ?_ ?_ ?_ ?_ ?_ ?_ ?_ ?_ ?_ ?_ ?_ ?_ ?_ ?_ ?_ ?_ ?_ ?_ ?_ ?_ ?_ ?_ ?_ ?_ ?_ ?_ ?_ ?_
    | with_reducible refine Or.inr (And.intro ?_ ?_)
    | with_reducible refine And.intro ?_ ?_)

theorem modTask_moves {P : List Part} {s0 : State} (t : Nat) (f : TaskState → TaskState) {s : State} (hP : Covers P [.tasks])
    (hM : Moves P s0 s) : Moves P s0 (modTask t f s) := by
  unfold modTask
  repeat' (first
    | with_reducible assumption
    | with_reducible exact Or.inl rfl
    | with_reducible exact hP.trans (by decide)
    | exact Or.inr (hP.mem (by decide))
    | exact hP.mem (by decide)
    | with_reducible refine of_pair ‹_ = (_, _)› ?_
    | with_reducible intro _
    | split
    | with_reducible exact id
    | with_reducible exact Or.inl ⟨rfl, rfl⟩
    | with_reducible exact Or.inl ⟨rfl, rfl, rfl⟩
    | with_reducible exact Or.inl ⟨rfl, rfl, rfl, rfl⟩
    | with_reducible exact Or.inl ⟨rfl, rfl, rfl, rfl, rfl⟩
    | decide
    | with_reducible apply ite_le
    | exact Nat.le_of_ble_eq_true rfl
    | with_reducible refine Moves.chg rfl ?_ ?_ ?_ ?_ ?_ ?_ ?_ ?_ ?_ ?_ ?_ ?_ ?_ ?_ ?_ ?_ ?_ ?_ ?_ ?_ ?_ ?_ ?_ ?_ ?_ ?_ ?_ ?_ ?_ ?_ ?_ ?_ ?_ ?_
    | with_reducible refine Or.inr (And.intro ?_ ?_)
    | with_reducible refine And.intro ?_ ?_)

theorem modSes_moves {P : List Part} {s0 : State} (i : Fin 8) (f : Session → Session) {s : State} (hP : Covers P [.sessions])
    (hM : Moves P s0 s) : Moves P s0 (modSes i f s) := by
  unfold modSes
  repeat' (first
    | with_reducible assumption
    | with_reducible exact Or.inl rfl
    | with_reducible exact hP.trans (by decide)
    | exact Or.inr (hP.mem (by decide))
    | exact hP.mem (by decide)
    | with_reducible refine of_pair ‹_ = (_, _)› ?_
    | with_reducible intro _
    | split
    | with_reducible exact id
    | with_reducible exact Or.inl ⟨rfl, rfl⟩
    | with_reducible exact Or.inl ⟨rfl, rfl, rfl⟩
    | with_reducible exact Or.inl ⟨rfl, rfl, rfl, rfl⟩
    | with_reducible exact Or.inl ⟨rfl, rfl, rfl, rfl, rfl⟩
    | decide
    | with_reducible apply ite_le
    | exact Nat.le_of_ble_eq_true rfl
    | with_reducible refine Moves.chg rfl ?_ ?_ ?_ ?_ ?_ ?_ ?_ ?_ ?_ ?_ ?_ ?_ ?_ ?_ ?_ ?_ ?_ ?_ ?_ ?_ ?_ ?_ ?_ ?_ ?_ ?_ ?_ ?_ ?_ ?_ ?_ ?_ ?_ ?_
    | with_reducible refine Or.inr (And.intro ?_ ?_)
    | with_reducible refine And.intro ?_ ?_)

theorem flushReplies_moves {P : List Part} {s0 : State} (i : Fin 8) {s : State} (hP : Covers P [.sessions, .sent])
    (hM : Moves P s0 s) : Moves P s0 (flushReplies i s) := by
  unfold flushReplies
  repeat' (first
    | with_reducible assumption
    | with_reducible exact Or.inl rfl
    | with_reducible exact hP.trans (by decide)
    | exact Or.inr (hP.mem (by decide))
    | exact hP.mem (by decide)
    | with_reducible refine of_pair ‹_ = (_, _)› ?_
    | with_reducible apply modSes_moves
    | with_reducible apply ite_moves
    | with_reducible apply ite_moves_snd
    | with_reducible intro _
    | split
    | with_reducible exact id
    | with_reducible exact Or.inl ⟨rfl, rfl⟩
    | with_reducible exact Or.inl ⟨rfl, rfl, rfl⟩
    | with_reducible exact Or.inl ⟨rfl, rfl, rfl, rfl⟩
    | with_reducible exact Or.inl ⟨rfl, rfl, rfl, rfl, rfl⟩
    | decide
    | with_reducible apply ite_le
    | exact Nat.le_of_ble_eq_true rfl
    | with_reducible refine Moves.chg rfl ?_ ?_ ?_ ?_ ?_ ?_ ?_ ?_ ?_ ?_ ?_ ?_ ?_ ?_ ?_ ?_ ?_ ?_ ?_ ?_ ?_ ?_ ?_ ?_ ?_ ?_ ?_ ?_ ?_ ?_ ?_ ?_ ?_ ?_
    | with_reducible refine Or.inr (And.intro ?_ ?_)
    | with_reducible refine And.intro ?_ ?_)

theorem sendReplies_moves {P : List Part} {s0 : State} (i : Fin 8) {s : State} (hP : Covers P [.sessions, .sent])
    (hM : Moves P s0 s) : Moves P s0 (sendReplies i s) := by
  unfold sendReplies
  repeat' (first
    | with_reducible assumption
    | with_reducible exact Or.inl rfl
    | with_reducible exact hP.trans (by decide)
    | exact Or.inr (hP.mem (by decide))
    | exact hP.mem (by decide)
    | with_reducible refine of_pair ‹_ = (_, _)› ?_
    | with_reducible apply flushReplies_moves
    | with_reducible apply ite_moves
    | with_reducible apply ite_moves_snd
    | with_reducible intro _
    | split
    | with_reducible exact id
    | with_reducible exact Or.inl ⟨rfl, rfl⟩
    | with_reducible exact Or.inl ⟨rfl, rfl, rfl⟩
    | with_reducible exact Or.inl ⟨rfl, rfl, rfl, rfl⟩
    | with_reducible exact Or.inl ⟨rfl, rfl, rfl, rfl, rfl⟩
    | decide
    | with_reducible apply ite_le
    | exact Nat.le_of_ble_eq_true rfl
    | with_reducible refine Moves.chg rfl ?_ ?_ ?_ ?_ ?_ ?_ ?_ ?_ ?_ ?_ ?_ ?_ ?_ ?_ ?_ ?_ ?_ ?_ ?_ ?_ ?_ ?_ ?_ ?_ ?_ ?_ ?_ ?_ ?_ ?_ ?_ ?_ ?_ ?_
    | with_reducible refine Or.inr (And.intro ?_ ?_)
    | with_reducible refine And.intro ?_ ?_)

theorem drainNotifs_moves {P : List Part} {s0 : State}  {s : State} (hP : Covers P [.sessions, .sent])
    (hM : Moves P s0 s) : Moves P s0 (drainNotifs s) := by
  unfold drainNotifs
  repeat' (first
    | with_reducible assumption
    | with_reducible exact Or.inl rfl
    | with_reducible exact hP.trans (by decide)
    | exact Or.inr (hP.mem (by decide))
    | exact hP.mem (by decide)
    | with_reducible refine of_pair ‹_ = (_, _)› ?_
    | with_reducible apply emit_moves
    | with_reducible apply foldl_moves
    | with_reducible apply foldl_moves_snd
    | with_reducible apply ite_moves
    | with_reducible apply ite_moves_snd
    | with_reducible intro _
    | split
    | with_reducible exact id
    | with_reducible exact Or.inl ⟨rfl, rfl⟩
    | with_reducible exact Or.inl ⟨rfl, rfl, rfl⟩
    | with_reducible exact Or.inl ⟨rfl, rfl, rfl, rfl⟩
    | with_reducible exact Or.inl ⟨rfl, rfl, rfl, rfl, rfl⟩
    | decide
    | with_reducible apply ite_le
    | exact Nat.le_of_ble_eq_true rfl
    | with_reducible refine Moves.chg rfl ?_ ?_ ?_ ?_ ?_ ?_ ?_ ?_ ?_ ?_ ?_ ?_ ?_ ?_ ?_ ?_ ?_ ?_ ?_ ?_ ?_ ?_ ?_ ?_ ?_ ?_ ?_ ?_ ?_ ?_ ?_ ?_ ?_ ?_
    | with_reducible refine Or.inr (And.intro ?_ ?_)
    | with_reducible refine And.intro ?_ ?_)

theorem drainEgress_moves {P : List Part} {s0 : State}  {s : State} (hP : Covers P [.sessions, .sent])
    (hM : Moves P s0 s) : Moves P s0 (drainEgress s) := by
  unfold drainEgress
  repeat' (first
    | with_reducible assumption
    | with_reducible exact Or.inl rfl
    | with_reducible exact hP.trans (by decide)
    | exact Or.inr (hP.mem (by decide))
    | exact hP.mem (by decide)
    | with_reducible refine of_pair ‹_ = (_, _)› ?_
    | with_reducible intro _
    | split
    | with_reducible exact id
    | with_reducible exact Or.inl ⟨rfl, rfl⟩
    | with_reducible exact Or.inl ⟨rfl, rfl, rfl⟩
    | with_reducible exact Or.inl ⟨rfl, rfl, rfl, rfl⟩
    | with_reducible exact Or.inl ⟨rfl, rfl, rfl, rfl, rfl⟩
    | decide
    | with_reducible apply ite_le
    | exact Nat.le_of_ble_eq_true rfl
    | with_reducible refine Moves.chg rfl ?_ ?_ ?_ ?_ ?_ ?_ ?_ ?_ ?_ ?_ ?_ ?_ ?_ ?_ ?_ ?_ ?_ ?_ ?_ ?_ ?_ ?_ ?_ ?_ ?_ ?_ ?_ ?_ ?_ ?_ ?_ ?_ ?_ ?_
    | with_reducible refine Or.inr (And.intro ?_ ?_)
    | with_reducible refine And.intro ?_ ?_)

theorem drainShp_moves {P : List Part} {s0 : State}  {s : State} (hP : Covers P [.sessions, .sent])
    (hM : Moves P s0 s) : Moves P s0 (drainShp s) := by
  unfold drainShp
  repeat' (first
    | with_reducible assumption
    | with_reducible exact Or.inl rfl
    | with_reducible exact hP.trans (by decide)
    | exact Or.inr (hP.mem (by decide))
    | exact hP.mem (by decide)
    | with_reducible refine of_pair ‹_ = (_, _)› ?_
    | with_reducible apply drainEgress_moves
    | with_reducible apply drainNotifs_moves
    | with_reducible apply sendReplies_moves
    | with_reducible apply foldl_moves
    | with_reducible apply foldl_moves_snd
    | with_reducible intro _
    | split
    | with_reducible exact id
    | with_reducible exact Or.inl ⟨rfl, rfl⟩
    | with_reducible exact Or.inl ⟨rfl, rfl, rfl⟩
    | with_reducible exact Or.inl ⟨rfl, rfl, rfl, rfl⟩
    | with_reducible exact Or.inl ⟨rfl, rfl, rfl, rfl, rfl⟩
    | decide
    | with_reducible apply ite_le
    | exact Nat.le_of_ble_eq_true rfl
    | with_reducible refine Moves.chg rfl ?_ ?_ ?_ ?_ ?_ ?_ ?_ ?_ ?_ ?_ ?_ ?_ ?_ ?_ ?_ ?_ ?_ ?_ ?_ ?_ ?_ ?_ ?_ ?_ ?_ ?_ ?_ ?_ ?_ ?_ ?_ ?_ ?_ ?_
    | with_reducible refine Or.inr (And.intro ?_ ?_)
    | with_reducible refine And.intro ?_ ?_)

theorem answer_moves {P : List Part} {s0 : State} (i : Fin 8) (status detail : Nat) (payload : List Nat) {s : State} (hP : Covers P [.sessions, .sent])
    (hM : Moves P s0 s) : Moves P s0 (answer i status detail payload s) := by
  unfold answer
  repeat' (first
    | with_reducible assumption
    | with_reducible exact Or.inl rfl
    | with_reducible exact hP.trans (by decide)
    | exact Or.inr (hP.mem (by decide))
    | exact hP.mem (by decide)
    | with_reducible refine of_pair ‹_ = (_, _)› ?_
    | with_reducible apply sendReplies_moves
    | with_reducible apply modSes_moves
    | with_reducible intro _
    | split
    | with_reducible exact id
    | with_reducible exact Or.inl ⟨rfl, rfl⟩
    | with_reducible exact Or.inl ⟨rfl, rfl, rfl⟩
    | with_reducible exact Or.inl ⟨rfl, rfl, rfl, rfl⟩
    | with_reducible exact Or.inl ⟨rfl, rfl, rfl, rfl, rfl⟩
    | decide
    | with_reducible apply ite_le
    | exact Nat.le_of_ble_eq_true rfl
    | with_reducible refine Moves.chg rfl ?_ ?_ ?_ ?_ ?_ ?_ ?_ ?_ ?_ ?_ ?_ ?_ ?_ ?_ ?_ ?_ ?_ ?_ ?_ ?_ ?_ ?_ ?_ ?_ ?_ ?_ ?_ ?_ ?_ ?_ ?_ ?_ ?_ ?_
    | with_reducible refine Or.inr (And.intro ?_ ?_)
    | with_reducible refine And.intro ?_ ?_)

theorem defer_moves {P : List Part} {s0 : State} (kind : Nat) (i : Fin 8) {s : State} (hP : Covers P [.sessions])
    (hM : Moves P s0 s) : Moves P s0 (defer kind i s) := by
  unfold defer
  repeat' (first
    | with_reducible assumption
    | with_reducible exact Or.inl rfl
    | with_reducible exact hP.trans (by decide)
    | exact Or.inr (hP.mem (by decide))
    | exact hP.mem (by decide)
    | with_reducible refine of_pair ‹_ = (_, _)› ?_
    | with_reducible apply modSes_moves
    | with_reducible intro _
    | split
    | with_reducible exact id
    | with_reducible exact Or.inl ⟨rfl, rfl⟩
    | with_reducible exact Or.inl ⟨rfl, rfl, rfl⟩
    | with_reducible exact Or.inl ⟨rfl, rfl, rfl, rfl⟩
    | with_reducible exact Or.inl ⟨rfl, rfl, rfl, rfl, rfl⟩
    | decide
    | with_reducible apply ite_le
    | exact Nat.le_of_ble_eq_true rfl
    | with_reducible refine Moves.chg rfl ?_ ?_ ?_ ?_ ?_ ?_ ?_ ?_ ?_ ?_ ?_ ?_ ?_ ?_ ?_ ?_ ?_ ?_ ?_ ?_ ?_ ?_ ?_ ?_ ?_ ?_ ?_ ?_ ?_ ?_ ?_ ?_ ?_ ?_
    | with_reducible refine Or.inr (And.intro ?_ ?_)
    | with_reducible refine And.intro ?_ ?_)

theorem answerLate_moves {P : List Part} {s0 : State} (kind : Nat) (i : Fin 8) (status detail : Nat) (payload : List Nat) {s : State} (hP : Covers P [.sessions, .sent])
    (hM : Moves P s0 s) : Moves P s0 (answerLate kind i status detail payload s) := by
  unfold answerLate
  repeat' (first
    | with_reducible assumption
    | with_reducible exact Or.inl rfl
    | with_reducible exact hP.trans (by decide)
    | exact Or.inr (hP.mem (by decide))
    | exact hP.mem (by decide)
    | with_reducible refine of_pair ‹_ = (_, _)› ?_
    | with_reducible apply sendReplies_moves
    | with_reducible apply modSes_moves
    | with_reducible intro _
    | split
    | with_reducible exact id
    | with_reducible exact Or.inl ⟨rfl, rfl⟩
    | with_reducible exact Or.inl ⟨rfl, rfl, rfl⟩
    | with_reducible exact Or.inl ⟨rfl, rfl, rfl, rfl⟩
    | with_reducible exact Or.inl ⟨rfl, rfl, rfl, rfl, rfl⟩
    | decide
    | with_reducible apply ite_le
    | exact Nat.le_of_ble_eq_true rfl
    | with_reducible refine Moves.chg rfl ?_ ?_ ?_ ?_ ?_ ?_ ?_ ?_ ?_ ?_ ?_ ?_ ?_ ?_ ?_ ?_ ?_ ?_ ?_ ?_ ?_ ?_ ?_ ?_ ?_ ?_ ?_ ?_ ?_ ?_ ?_ ?_ ?_ ?_
    | with_reducible refine Or.inr (And.intro ?_ ?_)
    | with_reducible refine And.intro ?_ ?_)

theorem answerTo_moves {P : List Part} {s0 : State} (kind : Nat) (i : Option Nat) (status detail : Nat) (payload : List Nat) {s : State} (hP : Covers P [.sessions, .sent])
    (hM : Moves P s0 s) : Moves P s0 (answerTo kind i status detail payload s) := by
  unfold answerTo
  repeat' (first
    | with_reducible assumption
    | with_reducible exact Or.inl rfl
    | with_reducible exact hP.trans (by decide)
    | exact Or.inr (hP.mem (by decide))
    | exact hP.mem (by decide)
    | with_reducible refine of_pair ‹_ = (_, _)› ?_
    | with_reducible apply answerLate_moves
    | with_reducible apply ite_moves
    | with_reducible apply ite_moves_snd
    | with_reducible intro _
    | split
    | with_reducible exact id
    | with_reducible exact Or.inl ⟨rfl, rfl⟩
    | with_reducible exact Or.inl ⟨rfl, rfl, rfl⟩
    | with_reducible exact Or.inl ⟨rfl, rfl, rfl, rfl⟩
    | with_reducible exact Or.inl ⟨rfl, rfl, rfl, rfl, rfl⟩
    | decide
    | with_reducible apply ite_le
    | exact Nat.le_of_ble_eq_true rfl
    | with_reducible refine Moves.chg rfl ?_ ?_ ?_ ?_ ?_ ?_ ?_ ?_ ?_ ?_ ?_ ?_ ?_ ?_ ?_ ?_ ?_ ?_ ?_ ?_ ?_ ?_ ?_ ?_ ?_ ?_ ?_ ?_ ?_ ?_ ?_ ?_ ?_ ?_
    | with_reducible refine Or.inr (And.intro ?_ ?_)
    | with_reducible refine And.intro ?_ ?_)

theorem countRole_moves {P : List Part} {s0 : State} (status : Nat) {s : State} (hP : Covers P [.host])
    (hM : Moves P s0 s) : Moves P s0 (countRole status s) := by
  unfold countRole
  repeat' (first
    | with_reducible assumption
    | with_reducible exact Or.inl rfl
    | with_reducible exact hP.trans (by decide)
    | exact Or.inr (hP.mem (by decide))
    | exact hP.mem (by decide)
    | with_reducible refine of_pair ‹_ = (_, _)› ?_
    | with_reducible apply when_moves
    | with_reducible intro _
    | split
    | with_reducible exact id
    | with_reducible exact Or.inl ⟨rfl, rfl⟩
    | with_reducible exact Or.inl ⟨rfl, rfl, rfl⟩
    | with_reducible exact Or.inl ⟨rfl, rfl, rfl, rfl⟩
    | with_reducible exact Or.inl ⟨rfl, rfl, rfl, rfl, rfl⟩
    | decide
    | with_reducible apply ite_le
    | exact Nat.le_of_ble_eq_true rfl
    | with_reducible refine Moves.chg rfl ?_ ?_ ?_ ?_ ?_ ?_ ?_ ?_ ?_ ?_ ?_ ?_ ?_ ?_ ?_ ?_ ?_ ?_ ?_ ?_ ?_ ?_ ?_ ?_ ?_ ?_ ?_ ?_ ?_ ?_ ?_ ?_ ?_ ?_
    | with_reducible refine Or.inr (And.intro ?_ ?_)
    | with_reducible refine And.intro ?_ ?_)

theorem reply_moves {P : List Part} {s0 : State} (i : Fin 8) (status detail : Nat) (payload : List Nat) {s : State} (hP : Covers P [.sessions, .host, .sent])
    (hM : Moves P s0 s) : Moves P s0 (reply i status detail payload s) := by
  unfold reply
  repeat' (first
    | with_reducible assumption
    | with_reducible exact Or.inl rfl
    | with_reducible exact hP.trans (by decide)
    | exact Or.inr (hP.mem (by decide))
    | exact hP.mem (by decide)
    | with_reducible refine of_pair ‹_ = (_, _)› ?_
    | with_reducible apply countRole_moves
    | with_reducible apply answer_moves
    | with_reducible intro _
    | split
    | with_reducible exact id
    | with_reducible exact Or.inl ⟨rfl, rfl⟩
    | with_reducible exact Or.inl ⟨rfl, rfl, rfl⟩
    | with_reducible exact Or.inl ⟨rfl, rfl, rfl, rfl⟩
    | with_reducible exact Or.inl ⟨rfl, rfl, rfl, rfl, rfl⟩
    | decide
    | with_reducible apply ite_le
    | exact Nat.le_of_ble_eq_true rfl
    | with_reducible refine Moves.chg rfl ?_ ?_ ?_ ?_ ?_ ?_ ?_ ?_ ?_ ?_ ?_ ?_ ?_ ?_ ?_ ?_ ?_ ?_ ?_ ?_ ?_ ?_ ?_ ?_ ?_ ?_ ?_ ?_ ?_ ?_ ?_ ?_ ?_ ?_
    | with_reducible refine Or.inr (And.intro ?_ ?_)
    | with_reducible refine And.intro ?_ ?_)

theorem leaveHost_moves {P : List Part} {s0 : State} (p : Nat) (l : List Out) {s : State} (hP : Covers P [.sessions, .sent])
    (hM : Moves P s0 s) : Moves P s0 (leaveHost p l s) := by
  unfold leaveHost
  repeat' (first
    | with_reducible assumption
    | with_reducible exact Or.inl rfl
    | with_reducible exact hP.trans (by decide)
    | exact Or.inr (hP.mem (by decide))
    | exact hP.mem (by decide)
    | with_reducible refine of_pair ‹_ = (_, _)› ?_
    | with_reducible apply ite_moves
    | with_reducible apply ite_moves_snd
    | with_reducible intro _
    | split
    | with_reducible exact id
    | with_reducible exact Or.inl ⟨rfl, rfl⟩
    | with_reducible exact Or.inl ⟨rfl, rfl, rfl⟩
    | with_reducible exact Or.inl ⟨rfl, rfl, rfl, rfl⟩
    | with_reducible exact Or.inl ⟨rfl, rfl, rfl, rfl, rfl⟩
    | decide
    | with_reducible apply ite_le
    | exact Nat.le_of_ble_eq_true rfl
    | with_reducible refine Moves.chg rfl ?_ ?_ ?_ ?_ ?_ ?_ ?_ ?_ ?_ ?_ ?_ ?_ ?_ ?_ ?_ ?_ ?_ ?_ ?_ ?_ ?_ ?_ ?_ ?_ ?_ ?_ ?_ ?_ ?_ ?_ ?_ ?_ ?_ ?_
    | with_reducible refine Or.inr (And.intro ?_ ?_)
    | with_reducible refine And.intro ?_ ?_)

theorem closeSession_moves {P : List Part} {s0 : State} (i : Nat) (cause : Nat) {s : State} (hP : Covers P [.events, .ledger, .keeper, .loader, .firmware, .sessions, .access, .host, .sent])
    (hM : Moves P s0 s) : Moves P s0 (closeSession i cause s) := by
  unfold closeSession
  repeat' (first
    | with_reducible assumption
    | with_reducible exact Or.inl rfl
    | with_reducible exact hP.trans (by decide)
    | exact Or.inr (hP.mem (by decide))
    | exact hP.mem (by decide)
    | with_reducible refine of_pair ‹_ = (_, _)› ?_
    | with_reducible apply leaveHost_moves
    | with_reducible apply ledger_moves
    | with_reducible apply raise_moves
    | with_reducible apply when_moves
    | with_reducible apply ite_moves
    | with_reducible apply ite_moves_snd
    | with_reducible intro _
    | split
    | with_reducible exact id
    | with_reducible exact Or.inl ⟨rfl, rfl⟩
    | with_reducible exact Or.inl ⟨rfl, rfl, rfl⟩
    | with_reducible exact Or.inl ⟨rfl, rfl, rfl, rfl⟩
    | with_reducible exact Or.inl ⟨rfl, rfl, rfl, rfl, rfl⟩
    | decide
    | with_reducible apply ite_le
    | exact Nat.le_of_ble_eq_true rfl
    | with_reducible refine Moves.chg rfl ?_ ?_ ?_ ?_ ?_ ?_ ?_ ?_ ?_ ?_ ?_ ?_ ?_ ?_ ?_ ?_ ?_ ?_ ?_ ?_ ?_ ?_ ?_ ?_ ?_ ?_ ?_ ?_ ?_ ?_ ?_ ?_ ?_ ?_
    | with_reducible refine Or.inr (And.intro ?_ ?_)
    | with_reducible refine And.intro ?_ ?_)

theorem withSession_moves {P : List Part} {s0 : State} (i : Fin 8) (ty r : Nat) (boot : Bool) {f : State → State} {s : State}
    (hP : Covers P [.events, .ledger, .keeper, .loader, .firmware, .sessions, .access, .host, .sent]) (hf : ∀ t, Moves P s0 t → Moves P s0 (f t)) (h : Moves P s0 s) : Moves P s0 (withSession i ty r boot f s) := by
  unfold withSession
  repeat' (first
    | with_reducible assumption
    | with_reducible exact hP.trans (by decide)
    | with_reducible apply hf
    | with_reducible apply closeSession_moves
    | with_reducible apply reply_moves
    | with_reducible apply modSes_moves
    | with_reducible intro _
    | split)

end Sys2Proof.Machine
end

