-- ==== Sys2Proof/Laws/MovesKeeperOps.lean ====
section
/-! SUPPORT. What each operation of Machine/KeeperOps.lean can do: the parts of the state it may change (`Moves`). -/

set_option Elab.async false
set_option linter.all false

namespace Sys2Proof.Machine

open Sys2Proof

theorem keeperCharge_moves {P : List Part} {s0 : State} (bytes : Nat) {s : State} (hP : Covers P [.cartridge, .keeper])
    (hM : Moves P s0 s) : Moves P s0 (keeperCharge bytes s) := by
  unfold keeperCharge
  repeat' (first
    | with_reducible assumption
    | with_reducible exact Or.inl rfl
    | with_reducible exact hP.trans (by decide)
    | exact Or.inr (hP.mem (by decide))
    | exact hP.mem (by decide)
    | with_reducible refine of_pair ‹_ = (_, _)› ?_
    | with_reducible apply modCart_moves
    | with_reducible intro _
    | split
    | with_reducible exact id
    | with_reducible exact Or.inl ⟨rfl, rfl⟩
    | with_reducible exact Or.inl ⟨rfl, rfl, rfl⟩
    | with_reducible exact Or.inl ⟨rfl, rfl, rfl, rfl⟩
    | with_reducible exact Or.inl ⟨rfl, rfl, rfl, rfl, rfl⟩
    | decide
    | with_reducible apply ite_le
    | exact Nat.le_of_ble_eq_true rfl
    | with_reducible refine Moves.chg rfl ?_ ?_ ?_ ?_ ?_ ?_ ?_ ?_ ?_ ?_ ?_ ?_ ?_ ?_ ?_ ?_ ?_ ?_ ?_ ?_ ?_ ?_ ?_ ?_ ?_ ?_ ?_ ?_ ?_ ?_ ?_ ?_ ?_ ?_
    | with_reducible refine Or.inr (And.intro ?_ ?_)
    | with_reducible refine And.intro ?_ ?_)

theorem refillBucket_moves {P : List Part} {s0 : State}  {s : State} (hP : Covers P [.keeper])
    (hM : Moves P s0 s) : Moves P s0 (refillBucket s) := by
  unfold refillBucket
  repeat' (first
    | with_reducible assumption
    | with_reducible exact Or.inl rfl
    | with_reducible exact hP.trans (by decide)
    | exact Or.inr (hP.mem (by decide))
    | exact hP.mem (by decide)
    | with_reducible refine of_pair ‹_ = (_, _)› ?_
    | with_reducible intro _
    | split
    | with_reducible exact id
    | with_reducible exact Or.inl ⟨rfl, rfl⟩
    | with_reducible exact Or.inl ⟨rfl, rfl, rfl⟩
    | with_reducible exact Or.inl ⟨rfl, rfl, rfl, rfl⟩
    | with_reducible exact Or.inl ⟨rfl, rfl, rfl, rfl, rfl⟩
    | decide
    | with_reducible apply ite_le
    | exact Nat.le_of_ble_eq_true rfl
    | with_reducible refine Moves.chg rfl ?_ ?_ ?_ ?_ ?_ ?_ ?_ ?_ ?_ ?_ ?_ ?_ ?_ ?_ ?_ ?_ ?_ ?_ ?_ ?_ ?_ ?_ ?_ ?_ ?_ ?_ ?_ ?_ ?_ ?_ ?_ ?_ ?_ ?_
    | with_reducible refine Or.inr (And.intro ?_ ?_)
    | with_reducible refine And.intro ?_ ?_)

theorem notOkFrom_moves {P : List Part} {s0 : State}  {s : State} (hP : Covers P [.keeper])
    (hM : Moves P s0 s) : Moves P s0 (notOkFrom s) := by
  unfold notOkFrom
  repeat' (first
    | with_reducible assumption
    | with_reducible exact Or.inl rfl
    | with_reducible exact hP.trans (by decide)
    | exact Or.inr (hP.mem (by decide))
    | exact hP.mem (by decide)
    | with_reducible refine of_pair ‹_ = (_, _)› ?_
    | with_reducible intro _
    | split
    | with_reducible exact id
    | with_reducible exact Or.inl ⟨rfl, rfl⟩
    | with_reducible exact Or.inl ⟨rfl, rfl, rfl⟩
    | with_reducible exact Or.inl ⟨rfl, rfl, rfl, rfl⟩
    | with_reducible exact Or.inl ⟨rfl, rfl, rfl, rfl, rfl⟩
    | decide
    | with_reducible apply ite_le
    | exact Nat.le_of_ble_eq_true rfl
    | with_reducible refine Moves.chg rfl ?_ ?_ ?_ ?_ ?_ ?_ ?_ ?_ ?_ ?_ ?_ ?_ ?_ ?_ ?_ ?_ ?_ ?_ ?_ ?_ ?_ ?_ ?_ ?_ ?_ ?_ ?_ ?_ ?_ ?_ ?_ ?_ ?_ ?_
    | with_reducible refine Or.inr (And.intro ?_ ?_)
    | with_reducible refine And.intro ?_ ?_)

theorem enterReadOnly_moves {P : List Part} {s0 : State}  {s : State} (hP : Covers P [.events, .faults, .ledger, .cartridge, .keeper, .sessions, .host])
    (hM : Moves P s0 s) : Moves P s0 (enterReadOnly s) := by
  unfold enterReadOnly
  repeat' (first
    | with_reducible assumption
    | with_reducible exact Or.inl rfl
    | with_reducible exact hP.trans (by decide)
    | exact Or.inr (hP.mem (by decide))
    | exact hP.mem (by decide)
    | with_reducible refine of_pair ‹_ = (_, _)› ?_
    | with_reducible apply notOkFrom_moves
    | with_reducible apply ledger_moves
    | with_reducible apply report_moves
    | with_reducible apply raise_moves
    | with_reducible apply modCart_moves
    | with_reducible apply when_moves
    | with_reducible intro _
    | split
    | with_reducible exact id
    | with_reducible exact Or.inl ⟨rfl, rfl⟩
    | with_reducible exact Or.inl ⟨rfl, rfl, rfl⟩
    | with_reducible exact Or.inl ⟨rfl, rfl, rfl, rfl⟩
    | with_reducible exact Or.inl ⟨rfl, rfl, rfl, rfl, rfl⟩
    | decide
    | with_reducible apply ite_le
    | exact Nat.le_of_ble_eq_true rfl
    | with_reducible refine Moves.chg rfl ?_ ?_ ?_ ?_ ?_ ?_ ?_ ?_ ?_ ?_ ?_ ?_ ?_ ?_ ?_ ?_ ?_ ?_ ?_ ?_ ?_ ?_ ?_ ?_ ?_ ?_ ?_ ?_ ?_ ?_ ?_ ?_ ?_ ?_
    | with_reducible refine Or.inr (And.intro ?_ ?_)
    | with_reducible refine And.intro ?_ ?_)

theorem lifeCheck_moves {P : List Part} {s0 : State}  {s : State} (hP : Covers P [.events, .faults, .ledger, .cartridge, .keeper, .sessions, .host])
    (hM : Moves P s0 s) : Moves P s0 (lifeCheck s) := by
  unfold lifeCheck
  repeat' (first
    | with_reducible assumption
    | with_reducible exact Or.inl rfl
    | with_reducible exact hP.trans (by decide)
    | exact Or.inr (hP.mem (by decide))
    | exact hP.mem (by decide)
    | with_reducible refine of_pair ‹_ = (_, _)› ?_
    | with_reducible apply enterReadOnly_moves
    | with_reducible apply ledger_moves
    | with_reducible apply raise_moves
    | with_reducible apply when_moves
    | with_reducible intro _
    | split
    | with_reducible exact id
    | with_reducible exact Or.inl ⟨rfl, rfl⟩
    | with_reducible exact Or.inl ⟨rfl, rfl, rfl⟩
    | with_reducible exact Or.inl ⟨rfl, rfl, rfl, rfl⟩
    | with_reducible exact Or.inl ⟨rfl, rfl, rfl, rfl, rfl⟩
    | decide
    | with_reducible apply ite_le
    | exact Nat.le_of_ble_eq_true rfl
    | with_reducible refine Moves.chg rfl ?_ ?_ ?_ ?_ ?_ ?_ ?_ ?_ ?_ ?_ ?_ ?_ ?_ ?_ ?_ ?_ ?_ ?_ ?_ ?_ ?_ ?_ ?_ ?_ ?_ ?_ ?_ ?_ ?_ ?_ ?_ ?_ ?_ ?_
    | with_reducible refine Or.inr (And.intro ?_ ?_)
    | with_reducible refine And.intro ?_ ?_)

theorem writeIdentity_moves {P : List Part} {s0 : State}  {s : State} (hP : Covers P [.events, .keeper, .sessions, .host])
    (hM : Moves P s0 s) : Moves P s0 (writeIdentity s) := by
  unfold writeIdentity
  repeat' (first
    | with_reducible assumption
    | with_reducible exact Or.inl rfl
    | with_reducible exact hP.trans (by decide)
    | exact Or.inr (hP.mem (by decide))
    | exact hP.mem (by decide)
    | with_reducible refine of_pair ‹_ = (_, _)› ?_
    | with_reducible apply queueJob_moves
    | with_reducible intro _
    | split
    | with_reducible exact id
    | with_reducible exact Or.inl ⟨rfl, rfl⟩
    | with_reducible exact Or.inl ⟨rfl, rfl, rfl⟩
    | with_reducible exact Or.inl ⟨rfl, rfl, rfl, rfl⟩
    | with_reducible exact Or.inl ⟨rfl, rfl, rfl, rfl, rfl⟩
    | decide
    | with_reducible apply ite_le
    | exact Nat.le_of_ble_eq_true rfl
    | with_reducible refine Moves.chg rfl ?_ ?_ ?_ ?_ ?_ ?_ ?_ ?_ ?_ ?_ ?_ ?_ ?_ ?_ ?_ ?_ ?_ ?_ ?_ ?_ ?_ ?_ ?_ ?_ ?_ ?_ ?_ ?_ ?_ ?_ ?_ ?_ ?_ ?_
    | with_reducible refine Or.inr (And.intro ?_ ?_)
    | with_reducible refine And.intro ?_ ?_)

theorem noteOverwritten_moves {P : List Part} {s0 : State} (r : LedgerRecord) {s : State} (hP : Covers P [.events, .sessions, .host])
    (hM : Moves P s0 s) : Moves P s0 (noteOverwritten r s) := by
  unfold noteOverwritten
  repeat' (first
    | with_reducible assumption
    | with_reducible exact Or.inl rfl
    | with_reducible exact hP.trans (by decide)
    | exact Or.inr (hP.mem (by decide))
    | exact hP.mem (by decide)
    | with_reducible refine of_pair ‹_ = (_, _)› ?_
    | with_reducible apply raise_moves
    | with_reducible apply when_moves
    | with_reducible intro _
    | split
    | with_reducible exact id
    | with_reducible exact Or.inl ⟨rfl, rfl⟩
    | with_reducible exact Or.inl ⟨rfl, rfl, rfl⟩
    | with_reducible exact Or.inl ⟨rfl, rfl, rfl, rfl⟩
    | with_reducible exact Or.inl ⟨rfl, rfl, rfl, rfl, rfl⟩
    | decide
    | with_reducible apply ite_le
    | exact Nat.le_of_ble_eq_true rfl
    | with_reducible refine Moves.chg rfl ?_ ?_ ?_ ?_ ?_ ?_ ?_ ?_ ?_ ?_ ?_ ?_ ?_ ?_ ?_ ?_ ?_ ?_ ?_ ?_ ?_ ?_ ?_ ?_ ?_ ?_ ?_ ?_ ?_ ?_ ?_ ?_ ?_ ?_
    | with_reducible refine Or.inr (And.intro ?_ ?_)
    | with_reducible refine And.intro ?_ ?_)

theorem storeOne_moves {P : List Part} {s0 : State} (r : LedgerRecord) {s : State} (hP : Covers P [.events, .cartridge, .sessions, .host])
    (hM : Moves P s0 s) : Moves P s0 (storeOne r s) := by
  unfold storeOne
  repeat' (first
    | with_reducible assumption
    | with_reducible exact Or.inl rfl
    | with_reducible exact hP.trans (by decide)
    | exact Or.inr (hP.mem (by decide))
    | exact hP.mem (by decide)
    | with_reducible refine of_pair ‹_ = (_, _)› ?_
    | with_reducible apply noteOverwritten_moves
    | with_reducible apply raise_moves
    | with_reducible apply modCart_moves
    | with_reducible apply when_moves
    | with_reducible intro _
    | split
    | with_reducible exact id
    | with_reducible exact Or.inl ⟨rfl, rfl⟩
    | with_reducible exact Or.inl ⟨rfl, rfl, rfl⟩
    | with_reducible exact Or.inl ⟨rfl, rfl, rfl, rfl⟩
    | with_reducible exact Or.inl ⟨rfl, rfl, rfl, rfl, rfl⟩
    | decide
    | with_reducible apply ite_le
    | exact Nat.le_of_ble_eq_true rfl
    | with_reducible refine Moves.chg rfl ?_ ?_ ?_ ?_ ?_ ?_ ?_ ?_ ?_ ?_ ?_ ?_ ?_ ?_ ?_ ?_ ?_ ?_ ?_ ?_ ?_ ?_ ?_ ?_ ?_ ?_ ?_ ?_ ?_ ?_ ?_ ?_ ?_ ?_
    | with_reducible refine Or.inr (And.intro ?_ ?_)
    | with_reducible refine And.intro ?_ ?_)

theorem storeHeld_moves {P : List Part} {s0 : State} (n : Nat) {s : State} (hP : Covers P [.events, .ledger, .cartridge, .sessions, .host])
    (hM : Moves P s0 s) : Moves P s0 (storeHeld n s) := by
  unfold storeHeld
  repeat' (first
    | with_reducible assumption
    | with_reducible exact Or.inl rfl
    | with_reducible exact hP.trans (by decide)
    | exact Or.inr (hP.mem (by decide))
    | exact hP.mem (by decide)
    | with_reducible refine of_pair ‹_ = (_, _)› ?_
    | with_reducible apply storeOne_moves
    | with_reducible apply raise_moves
    | with_reducible apply foldl_moves
    | with_reducible apply foldl_moves_snd
    | with_reducible apply ite_moves
    | with_reducible apply ite_moves_snd
    | with_reducible intro _
    | split
    | with_reducible exact id
    | with_reducible exact Or.inl ⟨rfl, rfl⟩
    | with_reducible exact Or.inl ⟨rfl, rfl, rfl⟩
    | with_reducible exact Or.inl ⟨rfl, rfl, rfl, rfl⟩
    | with_reducible exact Or.inl ⟨rfl, rfl, rfl, rfl, rfl⟩
    | decide
    | with_reducible apply ite_le
    | exact Nat.le_of_ble_eq_true rfl
    | with_reducible refine Moves.chg rfl ?_ ?_ ?_ ?_ ?_ ?_ ?_ ?_ ?_ ?_ ?_ ?_ ?_ ?_ ?_ ?_ ?_ ?_ ?_ ?_ ?_ ?_ ?_ ?_ ?_ ?_ ?_ ?_ ?_ ?_ ?_ ?_ ?_ ?_
    | with_reducible refine Or.inr (And.intro ?_ ?_)
    | with_reducible refine And.intro ?_ ?_)

theorem storePages_moves {P : List Part} {s0 : State} (n : Nat) {s : State} (hP : Covers P [.events, .budgets, .ledger, .cartridge, .keeper, .sessions, .host])
    (hM : Moves P s0 s) : Moves P s0 (storePages n s) := by
  unfold storePages
  repeat' (first
    | with_reducible assumption
    | with_reducible exact Or.inl rfl
    | with_reducible exact hP.trans (by decide)
    | exact Or.inr (hP.mem (by decide))
    | exact hP.mem (by decide)
    | with_reducible refine of_pair ‹_ = (_, _)› ?_
    | with_reducible apply storeHeld_moves
    | with_reducible apply keeperCharge_moves
    | with_reducible apply chargeSlot_moves
    | with_reducible intro _
    | split
    | with_reducible exact id
    | with_reducible exact Or.inl ⟨rfl, rfl⟩
    | with_reducible exact Or.inl ⟨rfl, rfl, rfl⟩
    | with_reducible exact Or.inl ⟨rfl, rfl, rfl, rfl⟩
    | with_reducible exact Or.inl ⟨rfl, rfl, rfl, rfl, rfl⟩
    | decide
    | with_reducible apply ite_le
    | exact Nat.le_of_ble_eq_true rfl
    | with_reducible refine Moves.chg rfl ?_ ?_ ?_ ?_ ?_ ?_ ?_ ?_ ?_ ?_ ?_ ?_ ?_ ?_ ?_ ?_ ?_ ?_ ?_ ?_ ?_ ?_ ?_ ?_ ?_ ?_ ?_ ?_ ?_ ?_ ?_ ?_ ?_ ?_
    | with_reducible refine Or.inr (And.intro ?_ ?_)
    | with_reducible refine And.intro ?_ ?_)

theorem flushHeld_moves {P : List Part} {s0 : State} (pages n : Nat) {s : State} (hP : Covers P [.events, .budgets, .ledger, .cartridge, .keeper, .sessions, .host])
    (hM : Moves P s0 s) : Moves P s0 (flushHeld pages n s) := by
  unfold flushHeld
  repeat' (first
    | with_reducible assumption
    | with_reducible exact Or.inl rfl
    | with_reducible exact hP.trans (by decide)
    | exact Or.inr (hP.mem (by decide))
    | exact hP.mem (by decide)
    | with_reducible refine of_pair ‹_ = (_, _)› ?_
    | with_reducible apply storePages_moves
    | with_reducible apply when_moves
    | with_reducible intro _
    | split
    | with_reducible exact id
    | with_reducible exact Or.inl ⟨rfl, rfl⟩
    | with_reducible exact Or.inl ⟨rfl, rfl, rfl⟩
    | with_reducible exact Or.inl ⟨rfl, rfl, rfl, rfl⟩
    | with_reducible exact Or.inl ⟨rfl, rfl, rfl, rfl, rfl⟩
    | decide
    | with_reducible apply ite_le
    | exact Nat.le_of_ble_eq_true rfl
    | with_reducible refine Moves.chg rfl ?_ ?_ ?_ ?_ ?_ ?_ ?_ ?_ ?_ ?_ ?_ ?_ ?_ ?_ ?_ ?_ ?_ ?_ ?_ ?_ ?_ ?_ ?_ ?_ ?_ ?_ ?_ ?_ ?_ ?_ ?_ ?_ ?_ ?_
    | with_reducible refine Or.inr (And.intro ?_ ?_)
    | with_reducible refine And.intro ?_ ?_)

theorem numberHeld_moves {P : List Part} {s0 : State} (ident : Nat) (first : List LedgerRecord) {s : State} (hP : Covers P [.events, .ledger, .sessions, .host])
    (hM : Moves P s0 s) : Moves P s0 (numberHeld ident first s) := by
  unfold numberHeld
  repeat' (first
    | with_reducible assumption
    | with_reducible exact Or.inl rfl
    | with_reducible exact hP.trans (by decide)
    | exact Or.inr (hP.mem (by decide))
    | exact hP.mem (by decide)
    | with_reducible refine of_pair ‹_ = (_, _)› ?_
    | with_reducible apply noteHold_moves
    | with_reducible apply raise_moves
    | with_reducible apply when_moves
    | with_reducible intro _
    | split
    | with_reducible exact id
    | with_reducible exact Or.inl ⟨rfl, rfl⟩
    | with_reducible exact Or.inl ⟨rfl, rfl, rfl⟩
    | with_reducible exact Or.inl ⟨rfl, rfl, rfl, rfl⟩
    | with_reducible exact Or.inl ⟨rfl, rfl, rfl, rfl, rfl⟩
    | decide
    | with_reducible apply ite_le
    | exact Nat.le_of_ble_eq_true rfl
    | with_reducible refine Moves.chg rfl ?_ ?_ ?_ ?_ ?_ ?_ ?_ ?_ ?_ ?_ ?_ ?_ ?_ ?_ ?_ ?_ ?_ ?_ ?_ ?_ ?_ ?_ ?_ ?_ ?_ ?_ ?_ ?_ ?_ ?_ ?_ ?_ ?_ ?_
    | with_reducible refine Or.inr (And.intro ?_ ?_)
    | with_reducible refine And.intro ?_ ?_)

theorem discardOthers_moves {P : List Part} {s0 : State} (ident : Nat) {s : State} (hP : Covers P [.ledger])
    (hM : Moves P s0 s) : Moves P s0 (discardOthers ident s).2 := by
  unfold discardOthers
  repeat' (first
    | with_reducible assumption
    | with_reducible exact Or.inl rfl
    | with_reducible exact hP.trans (by decide)
    | exact Or.inr (hP.mem (by decide))
    | exact hP.mem (by decide)
    | with_reducible refine of_pair ‹_ = (_, _)› ?_
    | with_reducible intro _
    | split
    | with_reducible exact id
    | with_reducible exact Or.inl ⟨rfl, rfl⟩
    | with_reducible exact Or.inl ⟨rfl, rfl, rfl⟩
    | with_reducible exact Or.inl ⟨rfl, rfl, rfl, rfl⟩
    | with_reducible exact Or.inl ⟨rfl, rfl, rfl, rfl, rfl⟩
    | decide
    | with_reducible apply ite_le
    | exact Nat.le_of_ble_eq_true rfl
    | with_reducible refine Moves.chg rfl ?_ ?_ ?_ ?_ ?_ ?_ ?_ ?_ ?_ ?_ ?_ ?_ ?_ ?_ ?_ ?_ ?_ ?_ ?_ ?_ ?_ ?_ ?_ ?_ ?_ ?_ ?_ ?_ ?_ ?_ ?_ ?_ ?_ ?_
    | with_reducible refine Or.inr (And.intro ?_ ?_)
    | with_reducible refine And.intro ?_ ?_)

theorem adoptKeeper_moves {P : List Part} {s0 : State} (ident : Nat) (first : List LedgerRecord) {s : State} (hP : Covers P [.events, .ledger, .sessions, .host])
    (hM : Moves P s0 s) : Moves P s0 (adoptKeeper ident first s) := by
  unfold adoptKeeper
  repeat' (first
    | with_reducible assumption
    | with_reducible exact Or.inl rfl
    | with_reducible exact hP.trans (by decide)
    | exact Or.inr (hP.mem (by decide))
    | exact hP.mem (by decide)
    | with_reducible refine of_pair ‹_ = (_, _)› ?_
    | with_reducible apply discardOthers_moves
    | with_reducible apply numberHeld_moves
    | with_reducible intro _
    | split
    | with_reducible exact id
    | with_reducible exact Or.inl ⟨rfl, rfl⟩
    | with_reducible exact Or.inl ⟨rfl, rfl, rfl⟩
    | with_reducible exact Or.inl ⟨rfl, rfl, rfl, rfl⟩
    | with_reducible exact Or.inl ⟨rfl, rfl, rfl, rfl, rfl⟩
    | decide
    | with_reducible apply ite_le
    | exact Nat.le_of_ble_eq_true rfl
    | with_reducible refine Moves.chg rfl ?_ ?_ ?_ ?_ ?_ ?_ ?_ ?_ ?_ ?_ ?_ ?_ ?_ ?_ ?_ ?_ ?_ ?_ ?_ ?_ ?_ ?_ ?_ ?_ ?_ ?_ ?_ ?_ ?_ ?_ ?_ ?_ ?_ ?_
    | with_reducible refine Or.inr (And.intro ?_ ?_)
    | with_reducible refine And.intro ?_ ?_)

theorem copyRoles_moves {P : List Part} {s0 : State}  {s : State} (hP : Covers P [.loader])
    (hM : Moves P s0 s) : Moves P s0 (copyRoles s) := by
  unfold copyRoles
  repeat' (first
    | with_reducible assumption
    | with_reducible exact Or.inl rfl
    | with_reducible exact hP.trans (by decide)
    | exact Or.inr (hP.mem (by decide))
    | exact hP.mem (by decide)
    | with_reducible refine of_pair ‹_ = (_, _)› ?_
    | with_reducible intro _
    | split
    | with_reducible exact id
    | with_reducible exact Or.inl ⟨rfl, rfl⟩
    | with_reducible exact Or.inl ⟨rfl, rfl, rfl⟩
    | with_reducible exact Or.inl ⟨rfl, rfl, rfl, rfl⟩
    | with_reducible exact Or.inl ⟨rfl, rfl, rfl, rfl, rfl⟩
    | decide
    | with_reducible apply ite_le
    | exact Nat.le_of_ble_eq_true rfl
    | with_reducible refine Moves.chg rfl ?_ ?_ ?_ ?_ ?_ ?_ ?_ ?_ ?_ ?_ ?_ ?_ ?_ ?_ ?_ ?_ ?_ ?_ ?_ ?_ ?_ ?_ ?_ ?_ ?_ ?_ ?_ ?_ ?_ ?_ ?_ ?_ ?_ ?_
    | with_reducible refine Or.inr (And.intro ?_ ?_)
    | with_reducible refine And.intro ?_ ?_)

theorem accessInForce_moves {P : List Part} {s0 : State} (a : AccessSet) {s : State} (hP : Covers P [.events, .ledger, .keeper, .sessions, .access, .host])
    (hM : Moves P s0 s) : Moves P s0 (accessInForce a s) := by
  unfold accessInForce
  repeat' (first
    | with_reducible assumption
    | with_reducible exact Or.inl rfl
    | with_reducible exact hP.trans (by decide)
    | exact Or.inr (hP.mem (by decide))
    | exact hP.mem (by decide)
    | with_reducible refine of_pair ‹_ = (_, _)› ?_
    | with_reducible apply ledger_moves
    | with_reducible apply raise_moves
    | with_reducible intro _
    | split
    | with_reducible exact id
    | with_reducible exact Or.inl ⟨rfl, rfl⟩
    | with_reducible exact Or.inl ⟨rfl, rfl, rfl⟩
    | with_reducible exact Or.inl ⟨rfl, rfl, rfl, rfl⟩
    | with_reducible exact Or.inl ⟨rfl, rfl, rfl, rfl, rfl⟩
    | decide
    | with_reducible apply ite_le
    | exact Nat.le_of_ble_eq_true rfl
    | with_reducible refine Moves.chg rfl ?_ ?_ ?_ ?_ ?_ ?_ ?_ ?_ ?_ ?_ ?_ ?_ ?_ ?_ ?_ ?_ ?_ ?_ ?_ ?_ ?_ ?_ ?_ ?_ ?_ ?_ ?_ ?_ ?_ ?_ ?_ ?_ ?_ ?_
    | with_reducible refine Or.inr (And.intro ?_ ?_)
    | with_reducible refine And.intro ?_ ?_)

theorem accessFailed_moves {P : List Part} {s0 : State}  {s : State} (hP : Covers P [.sessions, .access, .sent])
    (hM : Moves P s0 s) : Moves P s0 (accessFailed s) := by
  unfold accessFailed
  repeat' (first
    | with_reducible assumption
    | with_reducible exact Or.inl rfl
    | with_reducible exact hP.trans (by decide)
    | exact Or.inr (hP.mem (by decide))
    | exact hP.mem (by decide)
    | with_reducible refine of_pair ‹_ = (_, _)› ?_
    | with_reducible apply answerTo_moves
    | with_reducible intro _
    | split
    | with_reducible exact id
    | with_reducible exact Or.inl ⟨rfl, rfl⟩
    | with_reducible exact Or.inl ⟨rfl, rfl, rfl⟩
    | with_reducible exact Or.inl ⟨rfl, rfl, rfl, rfl⟩
    | with_reducible exact Or.inl ⟨rfl, rfl, rfl, rfl, rfl⟩
    | decide
    | with_reducible apply ite_le
    | exact Nat.le_of_ble_eq_true rfl
    | with_reducible refine Moves.chg rfl ?_ ?_ ?_ ?_ ?_ ?_ ?_ ?_ ?_ ?_ ?_ ?_ ?_ ?_ ?_ ?_ ?_ ?_ ?_ ?_ ?_ ?_ ?_ ?_ ?_ ?_ ?_ ?_ ?_ ?_ ?_ ?_ ?_ ?_
    | with_reducible refine Or.inr (And.intro ?_ ?_)
    | with_reducible refine And.intro ?_ ?_)

theorem dropJobs_moves {P : List Part} {s0 : State}  {s : State} (hP : Covers P [.keeper, .sessions, .access, .sent])
    (hM : Moves P s0 s) : Moves P s0 (dropJobs s) := by
  unfold dropJobs
  repeat' (first
    | with_reducible assumption
    | with_reducible exact Or.inl rfl
    | with_reducible exact hP.trans (by decide)
    | exact Or.inr (hP.mem (by decide))
    | exact hP.mem (by decide)
    | with_reducible refine of_pair ‹_ = (_, _)› ?_
    | with_reducible apply accessFailed_moves
    | with_reducible apply setJobs_moves
    | with_reducible apply foldl_moves
    | with_reducible apply foldl_moves_snd
    | with_reducible intro _
    | split
    | with_reducible exact id
    | with_reducible exact Or.inl ⟨rfl, rfl⟩
    | with_reducible exact Or.inl ⟨rfl, rfl, rfl⟩
    | with_reducible exact Or.inl ⟨rfl, rfl, rfl, rfl⟩
    | with_reducible exact Or.inl ⟨rfl, rfl, rfl, rfl, rfl⟩
    | decide
    | with_reducible apply ite_le
    | exact Nat.le_of_ble_eq_true rfl
    | with_reducible refine Moves.chg rfl ?_ ?_ ?_ ?_ ?_ ?_ ?_ ?_ ?_ ?_ ?_ ?_ ?_ ?_ ?_ ?_ ?_ ?_ ?_ ?_ ?_ ?_ ?_ ?_ ?_ ?_ ?_ ?_ ?_ ?_ ?_ ?_ ?_ ?_
    | with_reducible refine Or.inr (And.intro ?_ ?_)
    | with_reducible refine And.intro ?_ ?_)

theorem mountState_le (c : Cartridge) (s : State) : mountState c s ≤ 5 := by
  unfold mountState
  repeat' (first | with_reducible apply ite_le | decide)

theorem mountKeeper_moves {P : List Part} {s0 : State}  {s : State} (hP : Covers P [.events, .faults, .ledger, .cartridge, .keeper, .loader, .sessions, .access, .host, .sent])
    (hM : Moves P s0 s) : Moves P s0 (mountKeeper s) := by
  unfold mountKeeper
  repeat' (first
    | with_reducible assumption
    | with_reducible exact Or.inl rfl
    | with_reducible exact hP.trans (by decide)
    | exact Or.inr (hP.mem (by decide))
    | exact hP.mem (by decide)
    | with_reducible refine of_pair ‹_ = (_, _)› ?_
    | with_reducible exact mountState_le _ _
    | with_reducible apply dropJobs_moves
    | with_reducible apply accessInForce_moves
    | with_reducible apply copyRoles_moves
    | with_reducible apply adoptKeeper_moves
    | with_reducible apply lifeCheck_moves
    | with_reducible apply ledger_moves
    | with_reducible apply queueJob_moves
    | with_reducible apply raise_moves
    | with_reducible apply foldl_moves
    | with_reducible apply foldl_moves_snd
    | with_reducible apply when_moves
    | with_reducible apply ite_moves
    | with_reducible apply ite_moves_snd
    | with_reducible intro _
    | split
    | with_reducible exact id
    | with_reducible exact Or.inl ⟨rfl, rfl⟩
    | with_reducible exact Or.inl ⟨rfl, rfl, rfl⟩
    | with_reducible exact Or.inl ⟨rfl, rfl, rfl, rfl⟩
    | with_reducible exact Or.inl ⟨rfl, rfl, rfl, rfl, rfl⟩
    | decide
    | with_reducible apply ite_le
    | exact Nat.le_of_ble_eq_true rfl
    | with_reducible refine Moves.chg rfl ?_ ?_ ?_ ?_ ?_ ?_ ?_ ?_ ?_ ?_ ?_ ?_ ?_ ?_ ?_ ?_ ?_ ?_ ?_ ?_ ?_ ?_ ?_ ?_ ?_ ?_ ?_ ?_ ?_ ?_ ?_ ?_ ?_ ?_
    | with_reducible refine Or.inr (And.intro ?_ ?_)
    | with_reducible refine And.intro ?_ ?_)

theorem checkKeeper_moves {P : List Part} {s0 : State}  {s : State} (hP : Covers P [.start, .events, .timebase, .ledger, .keeper, .sessions, .host])
    (hM : Moves P s0 s) : Moves P s0 (checkKeeper s) := by
  unfold checkKeeper
  repeat' (first
    | with_reducible assumption
    | with_reducible exact Or.inl rfl
    | with_reducible exact hP.trans (by decide)
    | exact Or.inr (hP.mem (by decide))
    | exact hP.mem (by decide)
    | with_reducible refine of_pair ‹_ = (_, _)› ?_
    | with_reducible apply ledger_moves
    | with_reducible apply raise_moves
    | with_reducible apply when_moves
    | with_reducible apply ite_moves
    | with_reducible apply ite_moves_snd
    | with_reducible intro _
    | split
    | with_reducible exact id
    | with_reducible exact Or.inl ⟨rfl, rfl⟩
    | with_reducible exact Or.inl ⟨rfl, rfl, rfl⟩
    | with_reducible exact Or.inl ⟨rfl, rfl, rfl, rfl⟩
    | with_reducible exact Or.inl ⟨rfl, rfl, rfl, rfl, rfl⟩
    | decide
    | with_reducible apply ite_le
    | exact Nat.le_of_ble_eq_true rfl
    | with_reducible refine Moves.chg rfl ?_ ?_ ?_ ?_ ?_ ?_ ?_ ?_ ?_ ?_ ?_ ?_ ?_ ?_ ?_ ?_ ?_ ?_ ?_ ?_ ?_ ?_ ?_ ?_ ?_ ?_ ?_ ?_ ?_ ?_ ?_ ?_ ?_ ?_
    | with_reducible refine Or.inr (And.intro ?_ ?_)
    | with_reducible refine And.intro ?_ ?_)

theorem noteReserve_moves {P : List Part} {s0 : State}  {s : State} (hP : Covers P [.events, .keeper, .sessions, .host])
    (hM : Moves P s0 s) : Moves P s0 (noteReserve s) := by
  unfold noteReserve
  repeat' (first
    | with_reducible assumption
    | with_reducible exact Or.inl rfl
    | with_reducible exact hP.trans (by decide)
    | exact Or.inr (hP.mem (by decide))
    | exact hP.mem (by decide)
    | with_reducible refine of_pair ‹_ = (_, _)› ?_
    | with_reducible apply raise_moves
    | with_reducible apply when_moves
    | with_reducible intro _
    | split
    | with_reducible exact id
    | with_reducible exact Or.inl ⟨rfl, rfl⟩
    | with_reducible exact Or.inl ⟨rfl, rfl, rfl⟩
    | with_reducible exact Or.inl ⟨rfl, rfl, rfl, rfl⟩
    | with_reducible exact Or.inl ⟨rfl, rfl, rfl, rfl, rfl⟩
    | decide
    | with_reducible apply ite_le
    | exact Nat.le_of_ble_eq_true rfl
    | with_reducible refine Moves.chg rfl ?_ ?_ ?_ ?_ ?_ ?_ ?_ ?_ ?_ ?_ ?_ ?_ ?_ ?_ ?_ ?_ ?_ ?_ ?_ ?_ ?_ ?_ ?_ ?_ ?_ ?_ ?_ ?_ ?_ ?_ ?_ ?_ ?_ ?_
    | with_reducible refine Or.inr (And.intro ?_ ?_)
    | with_reducible refine And.intro ?_ ?_)

theorem issuePage_moves {P : List Part} {s0 : State} (j : KprJob) (held rest : List KprJob) {s : State} (hP : Covers P [.events, .budgets, .faults, .ledger, .cartridge, .keeper, .sessions, .host])
    (hM : Moves P s0 s) : Moves P s0 (issuePage j held rest s) := by
  unfold issuePage
  repeat' (first
    | with_reducible assumption
    | with_reducible exact Or.inl rfl
    | with_reducible exact hP.trans (by decide)
    | exact Or.inr (hP.mem (by decide))
    | exact hP.mem (by decide)
    | with_reducible refine of_pair ‹_ = (_, _)› ?_
    | with_reducible apply noteReserve_moves
    | with_reducible apply lifeCheck_moves
    | with_reducible apply keeperCharge_moves
    | with_reducible apply chargeSlot_moves
    | with_reducible apply when_moves
    | with_reducible apply ite_moves
    | with_reducible apply ite_moves_snd
    | with_reducible intro _
    | split
    | with_reducible exact id
    | with_reducible exact Or.inl ⟨rfl, rfl⟩
    | with_reducible exact Or.inl ⟨rfl, rfl, rfl⟩
    | with_reducible exact Or.inl ⟨rfl, rfl, rfl, rfl⟩
    | with_reducible exact Or.inl ⟨rfl, rfl, rfl, rfl, rfl⟩
    | decide
    | with_reducible apply ite_le
    | exact Nat.le_of_ble_eq_true rfl
    | with_reducible refine Moves.chg rfl ?_ ?_ ?_ ?_ ?_ ?_ ?_ ?_ ?_ ?_ ?_ ?_ ?_ ?_ ?_ ?_ ?_ ?_ ?_ ?_ ?_ ?_ ?_ ?_ ?_ ?_ ?_ ?_ ?_ ?_ ?_ ?_ ?_ ?_
    | with_reducible refine Or.inr (And.intro ?_ ?_)
    | with_reducible refine And.intro ?_ ?_)

theorem admitFirst_moves {P : List Part} {s0 : State}  {s : State} (hP : Covers P [.events, .budgets, .faults, .ledger, .cartridge, .keeper, .sessions, .host])
    (hM : Moves P s0 s) : Moves P s0 (admitFirst s) := by
  unfold admitFirst
  repeat' (first
    | with_reducible assumption
    | with_reducible exact Or.inl rfl
    | with_reducible exact hP.trans (by decide)
    | exact Or.inr (hP.mem (by decide))
    | exact hP.mem (by decide)
    | with_reducible refine of_pair ‹_ = (_, _)› ?_
    | with_reducible apply issuePage_moves
    | with_reducible apply ite_moves
    | with_reducible apply ite_moves_snd
    | with_reducible intro _
    | split
    | with_reducible exact id
    | with_reducible exact Or.inl ⟨rfl, rfl⟩
    | with_reducible exact Or.inl ⟨rfl, rfl, rfl⟩
    | with_reducible exact Or.inl ⟨rfl, rfl, rfl, rfl⟩
    | with_reducible exact Or.inl ⟨rfl, rfl, rfl, rfl, rfl⟩
    | decide
    | with_reducible apply ite_le
    | exact Nat.le_of_ble_eq_true rfl
    | with_reducible refine Moves.chg rfl ?_ ?_ ?_ ?_ ?_ ?_ ?_ ?_ ?_ ?_ ?_ ?_ ?_ ?_ ?_ ?_ ?_ ?_ ?_ ?_ ?_ ?_ ?_ ?_ ?_ ?_ ?_ ?_ ?_ ?_ ?_ ?_ ?_ ?_
    | with_reducible refine Or.inr (And.intro ?_ ?_)
    | with_reducible refine And.intro ?_ ?_)

theorem admitPage_moves {P : List Part} {s0 : State}  {s : State} (hP : Covers P [.events, .budgets, .faults, .ledger, .cartridge, .keeper, .sessions, .host])
    (hM : Moves P s0 s) : Moves P s0 (admitPage s) := by
  unfold admitPage
  repeat' (first
    | with_reducible assumption
    | with_reducible exact Or.inl rfl
    | with_reducible exact hP.trans (by decide)
    | exact Or.inr (hP.mem (by decide))
    | exact hP.mem (by decide)
    | with_reducible refine of_pair ‹_ = (_, _)› ?_
    | with_reducible apply admitFirst_moves
    | with_reducible apply noteReserve_moves
    | with_reducible apply refillBucket_moves
    | with_reducible intro _
    | split
    | with_reducible exact id
    | with_reducible exact Or.inl ⟨rfl, rfl⟩
    | with_reducible exact Or.inl ⟨rfl, rfl, rfl⟩
    | with_reducible exact Or.inl ⟨rfl, rfl, rfl, rfl⟩
    | with_reducible exact Or.inl ⟨rfl, rfl, rfl, rfl, rfl⟩
    | decide
    | with_reducible apply ite_le
    | exact Nat.le_of_ble_eq_true rfl
    | with_reducible refine Moves.chg rfl ?_ ?_ ?_ ?_ ?_ ?_ ?_ ?_ ?_ ?_ ?_ ?_ ?_ ?_ ?_ ?_ ?_ ?_ ?_ ?_ ?_ ?_ ?_ ?_ ?_ ?_ ?_ ?_ ?_ ?_ ?_ ?_ ?_ ?_
    | with_reducible refine Or.inr (And.intro ?_ ?_)
    | with_reducible refine And.intro ?_ ?_)

theorem copyWritten_moves {P : List Part} {s0 : State} (k : JobKind) {s : State} (hP : Covers P [.cartridge])
    (hM : Moves P s0 s) : Moves P s0 (copyWritten k s) := by
  unfold copyWritten
  repeat' (first
    | with_reducible assumption
    | with_reducible exact Or.inl rfl
    | with_reducible exact hP.trans (by decide)
    | exact Or.inr (hP.mem (by decide))
    | exact hP.mem (by decide)
    | with_reducible refine of_pair ‹_ = (_, _)› ?_
    | with_reducible apply modCart_moves
    | with_reducible apply ite_moves
    | with_reducible apply ite_moves_snd
    | with_reducible intro _
    | split
    | with_reducible exact id
    | with_reducible exact Or.inl ⟨rfl, rfl⟩
    | with_reducible exact Or.inl ⟨rfl, rfl, rfl⟩
    | with_reducible exact Or.inl ⟨rfl, rfl, rfl, rfl⟩
    | with_reducible exact Or.inl ⟨rfl, rfl, rfl, rfl, rfl⟩
    | decide
    | with_reducible apply ite_le
    | exact Nat.le_of_ble_eq_true rfl
    | with_reducible refine Moves.chg rfl ?_ ?_ ?_ ?_ ?_ ?_ ?_ ?_ ?_ ?_ ?_ ?_ ?_ ?_ ?_ ?_ ?_ ?_ ?_ ?_ ?_ ?_ ?_ ?_ ?_ ?_ ?_ ?_ ?_ ?_ ?_ ?_ ?_ ?_
    | with_reducible refine Or.inr (And.intro ?_ ?_)
    | with_reducible refine And.intro ?_ ?_)

theorem jobDone_moves {P : List Part} {s0 : State} (k : JobKind) {s : State} (hP : Covers P [.events, .sequencer, .pair, .memctl, .ledger, .cartridge, .keeper, .sessions, .access, .host])
    (hM : Moves P s0 s) : Moves P s0 (jobDone k s) := by
  unfold jobDone
  repeat' (first
    | with_reducible assumption
    | with_reducible exact Or.inl rfl
    | with_reducible exact hP.trans (by decide)
    | exact Or.inr (hP.mem (by decide))
    | exact hP.mem (by decide)
    | with_reducible refine of_pair ‹_ = (_, _)› ?_
    | with_reducible apply storeHeld_moves
    | with_reducible apply ledger_moves
    | with_reducible apply queueLedger_moves
    | with_reducible apply modCart_moves
    | with_reducible apply setMem_moves
    | with_reducible apply clear_wf
    | with_reducible intro _
    | split
    | with_reducible exact id
    | with_reducible exact Or.inl ⟨rfl, rfl⟩
    | with_reducible exact Or.inl ⟨rfl, rfl, rfl⟩
    | with_reducible exact Or.inl ⟨rfl, rfl, rfl, rfl⟩
    | with_reducible exact Or.inl ⟨rfl, rfl, rfl, rfl, rfl⟩
    | decide
    | with_reducible apply ite_le
    | exact Nat.le_of_ble_eq_true rfl
    | with_reducible refine Moves.chg rfl ?_ ?_ ?_ ?_ ?_ ?_ ?_ ?_ ?_ ?_ ?_ ?_ ?_ ?_ ?_ ?_ ?_ ?_ ?_ ?_ ?_ ?_ ?_ ?_ ?_ ?_ ?_ ?_ ?_ ?_ ?_ ?_ ?_ ?_
    | with_reducible refine Or.inr (And.intro ?_ ?_)
    | with_reducible refine And.intro ?_ ?_)

theorem cutShort_moves {P : List Part} {s0 : State}  {s : State} (hP : Covers P [.cartridge])
    (hM : Moves P s0 s) : Moves P s0 (cutShort s) := by
  unfold cutShort
  repeat' (first
    | with_reducible assumption
    | with_reducible exact Or.inl rfl
    | with_reducible exact hP.trans (by decide)
    | exact Or.inr (hP.mem (by decide))
    | exact hP.mem (by decide)
    | with_reducible refine of_pair ‹_ = (_, _)› ?_
    | with_reducible apply modCart_moves
    | with_reducible intro _
    | split
    | with_reducible exact id
    | with_reducible exact Or.inl ⟨rfl, rfl⟩
    | with_reducible exact Or.inl ⟨rfl, rfl, rfl⟩
    | with_reducible exact Or.inl ⟨rfl, rfl, rfl, rfl⟩
    | with_reducible exact Or.inl ⟨rfl, rfl, rfl, rfl, rfl⟩
    | decide
    | with_reducible apply ite_le
    | exact Nat.le_of_ble_eq_true rfl
    | with_reducible refine Moves.chg rfl ?_ ?_ ?_ ?_ ?_ ?_ ?_ ?_ ?_ ?_ ?_ ?_ ?_ ?_ ?_ ?_ ?_ ?_ ?_ ?_ ?_ ?_ ?_ ?_ ?_ ?_ ?_ ?_ ?_ ?_ ?_ ?_ ?_ ?_
    | with_reducible refine Or.inr (And.intro ?_ ?_)
    | with_reducible refine And.intro ?_ ?_)

theorem jobFailed_moves {P : List Part} {s0 : State} (k : JobKind) {s : State} (hP : Covers P [.events, .sequencer, .pair, .memctl, .faults, .ledger, .keeper, .sessions, .host])
    (hM : Moves P s0 s) : Moves P s0 (jobFailed k s) := by
  unfold jobFailed
  repeat' (first
    | with_reducible assumption
    | with_reducible exact Or.inl rfl
    | with_reducible exact hP.trans (by decide)
    | exact Or.inr (hP.mem (by decide))
    | exact hP.mem (by decide)
    | with_reducible refine of_pair ‹_ = (_, _)› ?_
    | with_reducible apply ledger_moves
    | with_reducible apply report_moves
    | with_reducible apply raise_moves
    | with_reducible apply setMem_moves
    | with_reducible apply clear_wf
    | with_reducible apply ite_moves
    | with_reducible apply ite_moves_snd
    | with_reducible intro _
    | split
    | with_reducible exact id
    | with_reducible exact Or.inl ⟨rfl, rfl⟩
    | with_reducible exact Or.inl ⟨rfl, rfl, rfl⟩
    | with_reducible exact Or.inl ⟨rfl, rfl, rfl, rfl⟩
    | with_reducible exact Or.inl ⟨rfl, rfl, rfl, rfl, rfl⟩
    | decide
    | with_reducible apply ite_le
    | exact Nat.le_of_ble_eq_true rfl
    | with_reducible refine Moves.chg rfl ?_ ?_ ?_ ?_ ?_ ?_ ?_ ?_ ?_ ?_ ?_ ?_ ?_ ?_ ?_ ?_ ?_ ?_ ?_ ?_ ?_ ?_ ?_ ?_ ?_ ?_ ?_ ?_ ?_ ?_ ?_ ?_ ?_ ?_
    | with_reducible refine Or.inr (And.intro ?_ ?_)
    | with_reducible refine And.intro ?_ ?_)

theorem dropCls_moves {P : List Part} {s0 : State} (cls : Nat) {s : State} (hP : Covers P [.keeper])
    (hM : Moves P s0 s) : Moves P s0 (dropCls cls s) := by
  unfold dropCls
  repeat' (first
    | with_reducible assumption
    | with_reducible exact Or.inl rfl
    | with_reducible exact hP.trans (by decide)
    | exact Or.inr (hP.mem (by decide))
    | exact hP.mem (by decide)
    | with_reducible refine of_pair ‹_ = (_, _)› ?_
    | with_reducible apply setJobs_moves
    | with_reducible intro _
    | split
    | with_reducible exact id
    | with_reducible exact Or.inl ⟨rfl, rfl⟩
    | with_reducible exact Or.inl ⟨rfl, rfl, rfl⟩
    | with_reducible exact Or.inl ⟨rfl, rfl, rfl, rfl⟩
    | with_reducible exact Or.inl ⟨rfl, rfl, rfl, rfl, rfl⟩
    | decide
    | with_reducible apply ite_le
    | exact Nat.le_of_ble_eq_true rfl
    | with_reducible refine Moves.chg rfl ?_ ?_ ?_ ?_ ?_ ?_ ?_ ?_ ?_ ?_ ?_ ?_ ?_ ?_ ?_ ?_ ?_ ?_ ?_ ?_ ?_ ?_ ?_ ?_ ?_ ?_ ?_ ?_ ?_ ?_ ?_ ?_ ?_ ?_
    | with_reducible refine Or.inr (And.intro ?_ ?_)
    | with_reducible refine And.intro ?_ ?_)

theorem abandonRound_moves {P : List Part} {s0 : State}  {s : State} (hP : Covers P [.sequencer, .keeper])
    (hM : Moves P s0 s) : Moves P s0 (abandonRound s) := by
  unfold abandonRound
  repeat' (first
    | with_reducible assumption
    | with_reducible exact Or.inl rfl
    | with_reducible exact hP.trans (by decide)
    | exact Or.inr (hP.mem (by decide))
    | exact hP.mem (by decide)
    | with_reducible refine of_pair ‹_ = (_, _)› ?_
    | with_reducible apply dropCls_moves
    | with_reducible intro _
    | split
    | with_reducible exact id
    | with_reducible exact Or.inl ⟨rfl, rfl⟩
    | with_reducible exact Or.inl ⟨rfl, rfl, rfl⟩
    | with_reducible exact Or.inl ⟨rfl, rfl, rfl, rfl⟩
    | with_reducible exact Or.inl ⟨rfl, rfl, rfl, rfl, rfl⟩
    | decide
    | with_reducible apply ite_le
    | exact Nat.le_of_ble_eq_true rfl
    | with_reducible refine Moves.chg rfl ?_ ?_ ?_ ?_ ?_ ?_ ?_ ?_ ?_ ?_ ?_ ?_ ?_ ?_ ?_ ?_ ?_ ?_ ?_ ?_ ?_ ?_ ?_ ?_ ?_ ?_ ?_ ?_ ?_ ?_ ?_ ?_ ?_ ?_
    | with_reducible refine Or.inr (And.intro ?_ ?_)
    | with_reducible refine And.intro ?_ ?_)

end Sys2Proof.Machine
end

