-- ==== Sys2Proof/Laws/MovesLoaderOps.lean ====
section
/-! SUPPORT. What each operation of Machine/LoaderOps.lean can do: the parts of the state it may change (`Moves`). -/

set_option Elab.async false
set_option linter.all false

namespace Sys2Proof.Machine

open Sys2Proof

theorem noteRefusal_moves {P : List Part} {s0 : State} (code sec detail offset : Nat) {s : State} (hP : Covers P [.events, .ledger, .keeper, .loader, .sessions, .host])
    (hM : Moves P s0 s) : Moves P s0 (noteRefusal code sec detail offset s) := by
  unfold noteRefusal
  repeat' (first
    | with_reducible assumption
    | with_reducible exact Or.inl rfl
    | with_reducible exact hP.trans (by decide)
    | exact Or.inr (hP.mem (by decide))
    | exact hP.mem (by decide)
    | with_reducible refine of_pair ‹_ = (_, _)› ?_
    | with_reducible apply ledger_moves
    | with_reducible apply raise_moves
    | with_reducible apply hwSet_moves
    | with_reducible intro _
    | split
    | with_reducible exact id
    | with_reducible exact Or.inl ⟨rfl, rfl⟩
    | with_reducible exact Or.inl ⟨rfl, rfl, rfl⟩
    | with_reducible exact Or.inl ⟨rfl, rfl, rfl, rfl⟩
    | with_reducible exact Or.inl ⟨rfl, rfl, rfl, rfl, rfl⟩
    | decide
    | with_reducible apply ite_le
    | exact Nat.le_of_ble_eq_true rfl
    | with_reducible refine Moves.chg rfl ?_ ?_ ?_ ?_ ?_ ?_ ?_ ?_ ?_ ?_ ?_ ?_ ?_ ?_ ?_ ?_ ?_ ?_ ?_ ?_ ?_ ?_ ?_ ?_ ?_ ?_ ?_ ?_ ?_ ?_ ?_ ?_ ?_ ?_
    | with_reducible refine Or.inr (And.intro ?_ ?_)
    | with_reducible refine And.intro ?_ ?_)

theorem replyLoad_moves {P : List Part} {s0 : State} (i : Fin 8) (gen status detail : Nat) {s : State} (hP : Covers P [.sessions, .host, .sent])
    (hM : Moves P s0 s) : Moves P s0 (replyLoad i gen status detail s) := by
  unfold replyLoad
  repeat' (first
    | with_reducible assumption
    | with_reducible exact Or.inl rfl
    | with_reducible exact hP.trans (by decide)
    | exact Or.inr (hP.mem (by decide))
    | exact hP.mem (by decide)
    | with_reducible refine of_pair ‹_ = (_, _)› ?_
    | with_reducible apply reply_moves
    | with_reducible apply ite_moves
    | with_reducible apply ite_moves_snd
    | with_reducible intro _
    | split
    | with_reducible exact id
    | with_reducible exact Or.inl ⟨rfl, rfl⟩
    | with_reducible exact Or.inl ⟨rfl, rfl, rfl⟩
    | with_reducible exact Or.inl ⟨rfl, rfl, rfl, rfl⟩
    | with_reducible exact Or.inl ⟨rfl, rfl, rfl, rfl, rfl⟩
    | decide
    | with_reducible apply ite_le
    | exact Nat.le_of_ble_eq_true rfl
    | with_reducible refine Moves.chg rfl ?_ ?_ ?_ ?_ ?_ ?_ ?_ ?_ ?_ ?_ ?_ ?_ ?_ ?_ ?_ ?_ ?_ ?_ ?_ ?_ ?_ ?_ ?_ ?_ ?_ ?_ ?_ ?_ ?_ ?_ ?_ ?_ ?_ ?_
    | with_reducible refine Or.inr (And.intro ?_ ?_)
    | with_reducible refine And.intro ?_ ?_)

theorem answerLoad_moves {P : List Part} {s0 : State} (i : Option Nat) (gen status detail : Nat) {s : State} (hP : Covers P [.sessions, .sent])
    (hM : Moves P s0 s) : Moves P s0 (answerLoad i gen status detail s) := by
  unfold answerLoad
  repeat' (first
    | with_reducible assumption
    | with_reducible exact Or.inl rfl
    | with_reducible exact hP.trans (by decide)
    | exact Or.inr (hP.mem (by decide))
    | exact hP.mem (by decide)
    | with_reducible refine of_pair ‹_ = (_, _)› ?_
    | with_reducible apply answerTo_moves
    | with_reducible apply ite_moves
    | with_reducible apply ite_moves_snd
    | with_reducible intro _
    | split
    | with_reducible exact id
    | with_reducible exact Or.inl ⟨rfl, rfl⟩
    | with_reducible exact Or.inl ⟨rfl, rfl, rfl⟩
    | with_reducible exact Or.inl ⟨rfl, rfl, rfl, rfl⟩
    | with_reducible exact Or.inl ⟨rfl, rfl, rfl, rfl, rfl⟩
    | decide
    | with_reducible apply ite_le
    | exact Nat.le_of_ble_eq_true rfl
    | with_reducible refine Moves.chg rfl ?_ ?_ ?_ ?_ ?_ ?_ ?_ ?_ ?_ ?_ ?_ ?_ ?_ ?_ ?_ ?_ ?_ ?_ ?_ ?_ ?_ ?_ ?_ ?_ ?_ ?_ ?_ ?_ ?_ ?_ ?_ ?_ ?_ ?_
    | with_reducible refine Or.inr (And.intro ?_ ?_)
    | with_reducible refine And.intro ?_ ?_)

theorem nextLseq_moves {P : List Part} {s0 : State} (n : Nat) {s : State} (hP : Covers P [.pair])
    (hM : Moves P s0 s) : Moves P s0 (nextLseq n s) := by
  unfold nextLseq
  repeat' (first
    | with_reducible assumption
    | with_reducible exact Or.inl rfl
    | with_reducible exact hP.trans (by decide)
    | exact Or.inr (hP.mem (by decide))
    | exact hP.mem (by decide)
    | with_reducible refine of_pair ‹_ = (_, _)› ?_
    | with_reducible intro _
    | split
    | with_reducible exact id
    | with_reducible exact Or.inl ⟨rfl, rfl⟩
    | with_reducible exact Or.inl ⟨rfl, rfl, rfl⟩
    | with_reducible exact Or.inl ⟨rfl, rfl, rfl, rfl⟩
    | with_reducible exact Or.inl ⟨rfl, rfl, rfl, rfl, rfl⟩
    | decide
    | with_reducible apply ite_le
    | exact Nat.le_of_ble_eq_true rfl
    | with_reducible refine Moves.chg rfl ?_ ?_ ?_ ?_ ?_ ?_ ?_ ?_ ?_ ?_ ?_ ?_ ?_ ?_ ?_ ?_ ?_ ?_ ?_ ?_ ?_ ?_ ?_ ?_ ?_ ?_ ?_ ?_ ?_ ?_ ?_ ?_ ?_ ?_
    | with_reducible refine Or.inr (And.intro ?_ ?_)
    | with_reducible refine And.intro ?_ ?_)

theorem linkFrames_moves {P : List Part} {s0 : State} (msg n : Nat) (f : LinkTx → Out) {s : State} (hP : Covers P [.pair, .sent])
    (hM : Moves P s0 s) : Moves P s0 (linkFrames msg n f s) := by
  unfold linkFrames
  repeat' (first
    | with_reducible assumption
    | with_reducible exact Or.inl rfl
    | with_reducible exact hP.trans (by decide)
    | exact Or.inr (hP.mem (by decide))
    | exact hP.mem (by decide)
    | with_reducible refine of_pair ‹_ = (_, _)› ?_
    | with_reducible apply nextLseq_moves
    | with_reducible apply emit_moves
    | with_reducible intro _
    | split
    | with_reducible exact id
    | with_reducible exact Or.inl ⟨rfl, rfl⟩
    | with_reducible exact Or.inl ⟨rfl, rfl, rfl⟩
    | with_reducible exact Or.inl ⟨rfl, rfl, rfl, rfl⟩
    | with_reducible exact Or.inl ⟨rfl, rfl, rfl, rfl, rfl⟩
    | decide
    | with_reducible apply ite_le
    | exact Nat.le_of_ble_eq_true rfl
    | with_reducible refine Moves.chg rfl ?_ ?_ ?_ ?_ ?_ ?_ ?_ ?_ ?_ ?_ ?_ ?_ ?_ ?_ ?_ ?_ ?_ ?_ ?_ ?_ ?_ ?_ ?_ ?_ ?_ ?_ ?_ ?_ ?_ ?_ ?_ ?_ ?_ ?_
    | with_reducible refine Or.inr (And.intro ?_ ?_)
    | with_reducible refine And.intro ?_ ?_)

theorem linkSend_moves {P : List Part} {s0 : State} (msg : Nat) (data : List Nat) {s : State} (hP : Covers P [.pair, .sent])
    (hM : Moves P s0 s) : Moves P s0 (linkSend msg data s) := by
  unfold linkSend
  repeat' (first
    | with_reducible assumption
    | with_reducible exact Or.inl rfl
    | with_reducible exact hP.trans (by decide)
    | exact Or.inr (hP.mem (by decide))
    | exact hP.mem (by decide)
    | with_reducible refine of_pair ‹_ = (_, _)› ?_
    | with_reducible apply nextLseq_moves
    | with_reducible apply emit_moves
    | with_reducible apply ite_moves
    | with_reducible apply ite_moves_snd
    | with_reducible intro _
    | split
    | with_reducible exact id
    | with_reducible exact Or.inl ⟨rfl, rfl⟩
    | with_reducible exact Or.inl ⟨rfl, rfl, rfl⟩
    | with_reducible exact Or.inl ⟨rfl, rfl, rfl, rfl⟩
    | with_reducible exact Or.inl ⟨rfl, rfl, rfl, rfl, rfl⟩
    | decide
    | with_reducible apply ite_le
    | exact Nat.le_of_ble_eq_true rfl
    | with_reducible refine Moves.chg rfl ?_ ?_ ?_ ?_ ?_ ?_ ?_ ?_ ?_ ?_ ?_ ?_ ?_ ?_ ?_ ?_ ?_ ?_ ?_ ?_ ?_ ?_ ?_ ?_ ?_ ?_ ?_ ?_ ?_ ?_ ?_ ?_ ?_ ?_
    | with_reducible refine Or.inr (And.intro ?_ ?_)
    | with_reducible refine And.intro ?_ ?_)

theorem linkSendAll_moves {P : List Part} {s0 : State} (msg : Nat) (data : List Nat) {s : State} (hP : Covers P [.pair, .sent])
    (hM : Moves P s0 s) : Moves P s0 (linkSendAll msg data s) := by
  unfold linkSendAll
  repeat' (first
    | with_reducible assumption
    | with_reducible exact Or.inl rfl
    | with_reducible exact hP.trans (by decide)
    | exact Or.inr (hP.mem (by decide))
    | exact hP.mem (by decide)
    | with_reducible refine of_pair ‹_ = (_, _)› ?_
    | with_reducible apply nextLseq_moves
    | with_reducible apply emit_moves
    | with_reducible apply ite_moves
    | with_reducible apply ite_moves_snd
    | with_reducible intro _
    | split
    | with_reducible exact id
    | with_reducible exact Or.inl ⟨rfl, rfl⟩
    | with_reducible exact Or.inl ⟨rfl, rfl, rfl⟩
    | with_reducible exact Or.inl ⟨rfl, rfl, rfl, rfl⟩
    | with_reducible exact Or.inl ⟨rfl, rfl, rfl, rfl, rfl⟩
    | decide
    | with_reducible apply ite_le
    | exact Nat.le_of_ble_eq_true rfl
    | with_reducible refine Moves.chg rfl ?_ ?_ ?_ ?_ ?_ ?_ ?_ ?_ ?_ ?_ ?_ ?_ ?_ ?_ ?_ ?_ ?_ ?_ ?_ ?_ ?_ ?_ ?_ ?_ ?_ ?_ ?_ ?_ ?_ ?_ ?_ ?_ ?_ ?_
    | with_reducible refine Or.inr (And.intro ?_ ?_)
    | with_reducible refine And.intro ?_ ?_)

theorem emptyPrev_moves {P : List Part} {s0 : State}  {s : State} (hP : Covers P [.events, .cartridge, .keeper, .loader, .sessions, .host])
    (hM : Moves P s0 s) : Moves P s0 (emptyPrev s) := by
  unfold emptyPrev
  repeat' (first
    | with_reducible assumption
    | with_reducible exact Or.inl rfl
    | with_reducible exact hP.trans (by decide)
    | exact Or.inr (hP.mem (by decide))
    | exact hP.mem (by decide)
    | with_reducible refine of_pair ‹_ = (_, _)› ?_
    | with_reducible apply copyRoles_moves
    | with_reducible apply writeIdentity_moves
    | with_reducible apply modCart_moves
    | with_reducible apply ite_moves
    | with_reducible apply ite_moves_snd
    | with_reducible intro _
    | split
    | with_reducible exact id
    | with_reducible exact Or.inl ⟨rfl, rfl⟩
    | with_reducible exact Or.inl ⟨rfl, rfl, rfl⟩
    | with_reducible exact Or.inl ⟨rfl, rfl, rfl, rfl⟩
    | with_reducible exact Or.inl ⟨rfl, rfl, rfl, rfl, rfl⟩
    | decide
    | with_reducible apply ite_le
    | exact Nat.le_of_ble_eq_true rfl
    | with_reducible refine Moves.chg rfl ?_ ?_ ?_ ?_ ?_ ?_ ?_ ?_ ?_ ?_ ?_ ?_ ?_ ?_ ?_ ?_ ?_ ?_ ?_ ?_ ?_ ?_ ?_ ?_ ?_ ?_ ?_ ?_ ?_ ?_ ?_ ?_ ?_ ?_
    | with_reducible refine Or.inr (And.intro ?_ ?_)
    | with_reducible refine And.intro ?_ ?_)

theorem dropStream_moves {P : List Part} {s0 : State}  {s : State} (hP : Covers P [.keeper])
    (hM : Moves P s0 s) : Moves P s0 (dropStream s) := by
  unfold dropStream
  repeat' (first
    | with_reducible assumption
    | with_reducible exact Or.inl rfl
    | with_reducible exact hP.trans (by decide)
    | exact Or.inr (hP.mem (by decide))
    | exact hP.mem (by decide)
    | with_reducible refine of_pair ‹_ = (_, _)› ?_
    | with_reducible apply setJobs_moves
    | with_reducible intro _
    | split
    | with_reducible exact id
    | with_reducible exact Or.inl ⟨rfl, rfl⟩
    | with_reducible exact Or.inl ⟨rfl, rfl, rfl⟩
    | with_reducible exact Or.inl ⟨rfl, rfl, rfl, rfl⟩
    | with_reducible exact Or.inl ⟨rfl, rfl, rfl, rfl, rfl⟩
    | decide
    | with_reducible apply ite_le
    | exact Nat.le_of_ble_eq_true rfl
    | with_reducible refine Moves.chg rfl ?_ ?_ ?_ ?_ ?_ ?_ ?_ ?_ ?_ ?_ ?_ ?_ ?_ ?_ ?_ ?_ ?_ ?_ ?_ ?_ ?_ ?_ ?_ ?_ ?_ ?_ ?_ ?_ ?_ ?_ ?_ ?_ ?_ ?_
    | with_reducible refine Or.inr (And.intro ?_ ?_)
    | with_reducible refine And.intro ?_ ?_)

theorem storeFailed_moves {P : List Part} {s0 : State} (told : Bool) {s : State} (hP : Covers P [.events, .pair, .ledger, .cartridge, .keeper, .loader, .sessions, .host, .config, .sent])
    (hM : Moves P s0 s) : Moves P s0 (storeFailed told s) := by
  unfold storeFailed
  repeat' (first
    | with_reducible assumption
    | with_reducible exact Or.inl rfl
    | with_reducible exact hP.trans (by decide)
    | exact Or.inr (hP.mem (by decide))
    | exact hP.mem (by decide)
    | with_reducible refine of_pair ‹_ = (_, _)› ?_
    | with_reducible apply dropStream_moves
    | with_reducible apply emptyPrev_moves
    | with_reducible apply linkSend_moves
    | with_reducible apply answerLoad_moves
    | with_reducible apply noteRefusal_moves
    | with_reducible apply raise_moves
    | with_reducible apply when_moves
    | with_reducible apply ite_moves
    | with_reducible apply ite_moves_snd
    | with_reducible intro _
    | split
    | with_reducible exact id
    | with_reducible exact Or.inl ⟨rfl, rfl⟩
    | with_reducible exact Or.inl ⟨rfl, rfl, rfl⟩
    | with_reducible exact Or.inl ⟨rfl, rfl, rfl, rfl⟩
    | with_reducible exact Or.inl ⟨rfl, rfl, rfl, rfl, rfl⟩
    | decide
    | with_reducible apply ite_le
    | exact Nat.le_of_ble_eq_true rfl
    | with_reducible refine Moves.chg rfl ?_ ?_ ?_ ?_ ?_ ?_ ?_ ?_ ?_ ?_ ?_ ?_ ?_ ?_ ?_ ?_ ?_ ?_ ?_ ?_ ?_ ?_ ?_ ?_ ?_ ?_ ?_ ?_ ?_ ?_ ?_ ?_ ?_ ?_
    | with_reducible refine Or.inr (And.intro ?_ ?_)
    | with_reducible refine And.intro ?_ ?_)

theorem ownStoreFails_moves {P : List Part} {s0 : State}  {s : State} (hP : Covers P [.events, .pair, .ledger, .cartridge, .keeper, .loader, .sessions, .host, .config, .sent])
    (hM : Moves P s0 s) : Moves P s0 (ownStoreFails s) := by
  unfold ownStoreFails
  repeat' (first
    | with_reducible assumption
    | with_reducible exact Or.inl rfl
    | with_reducible exact hP.trans (by decide)
    | exact Or.inr (hP.mem (by decide))
    | exact hP.mem (by decide)
    | with_reducible refine of_pair ‹_ = (_, _)› ?_
    | with_reducible apply storeFailed_moves
    | with_reducible apply ite_moves
    | with_reducible apply ite_moves_snd
    | with_reducible intro _
    | split
    | with_reducible exact id
    | with_reducible exact Or.inl ⟨rfl, rfl⟩
    | with_reducible exact Or.inl ⟨rfl, rfl, rfl⟩
    | with_reducible exact Or.inl ⟨rfl, rfl, rfl, rfl⟩
    | with_reducible exact Or.inl ⟨rfl, rfl, rfl, rfl, rfl⟩
    | decide
    | with_reducible apply ite_le
    | exact Nat.le_of_ble_eq_true rfl
    | with_reducible refine Moves.chg rfl ?_ ?_ ?_ ?_ ?_ ?_ ?_ ?_ ?_ ?_ ?_ ?_ ?_ ?_ ?_ ?_ ?_ ?_ ?_ ?_ ?_ ?_ ?_ ?_ ?_ ?_ ?_ ?_ ?_ ?_ ?_ ?_ ?_ ?_
    | with_reducible refine Or.inr (And.intro ?_ ?_)
    | with_reducible refine And.intro ?_ ?_)

theorem endStore_moves {P : List Part} {s0 : State}  {s : State} (hP : Covers P [.loader, .sessions, .sent])
    (hM : Moves P s0 s) : Moves P s0 (endStore s) := by
  unfold endStore
  repeat' (first
    | with_reducible assumption
    | with_reducible exact Or.inl rfl
    | with_reducible exact hP.trans (by decide)
    | exact Or.inr (hP.mem (by decide))
    | exact hP.mem (by decide)
    | with_reducible refine of_pair ‹_ = (_, _)› ?_
    | with_reducible apply answerLoad_moves
    | with_reducible intro _
    | split
    | with_reducible exact id
    | with_reducible exact Or.inl ⟨rfl, rfl⟩
    | with_reducible exact Or.inl ⟨rfl, rfl, rfl⟩
    | with_reducible exact Or.inl ⟨rfl, rfl, rfl, rfl⟩
    | with_reducible exact Or.inl ⟨rfl, rfl, rfl, rfl, rfl⟩
    | decide
    | with_reducible apply ite_le
    | exact Nat.le_of_ble_eq_true rfl
    | with_reducible refine Moves.chg rfl ?_ ?_ ?_ ?_ ?_ ?_ ?_ ?_ ?_ ?_ ?_ ?_ ?_ ?_ ?_ ?_ ?_ ?_ ?_ ?_ ?_ ?_ ?_ ?_ ?_ ?_ ?_ ?_ ?_ ?_ ?_ ?_ ?_ ?_
    | with_reducible refine Or.inr (And.intro ?_ ?_)
    | with_reducible refine And.intro ?_ ?_)

theorem fixA_moves {P : List Part} {s0 : State}  {s : State} (hP : Covers P [.pair, .loader, .sessions, .config, .sent])
    (hM : Moves P s0 s) : Moves P s0 (fixA s) := by
  unfold fixA
  repeat' (first
    | with_reducible assumption
    | with_reducible exact Or.inl rfl
    | with_reducible exact hP.trans (by decide)
    | exact Or.inr (hP.mem (by decide))
    | exact hP.mem (by decide)
    | with_reducible refine of_pair ‹_ = (_, _)› ?_
    | with_reducible apply endStore_moves
    | with_reducible apply linkSend_moves
    | with_reducible intro _
    | split
    | with_reducible exact id
    | with_reducible exact Or.inl ⟨rfl, rfl⟩
    | with_reducible exact Or.inl ⟨rfl, rfl, rfl⟩
    | with_reducible exact Or.inl ⟨rfl, rfl, rfl, rfl⟩
    | with_reducible exact Or.inl ⟨rfl, rfl, rfl, rfl, rfl⟩
    | decide
    | with_reducible apply ite_le
    | exact Nat.le_of_ble_eq_true rfl
    | with_reducible refine Moves.chg rfl ?_ ?_ ?_ ?_ ?_ ?_ ?_ ?_ ?_ ?_ ?_ ?_ ?_ ?_ ?_ ?_ ?_ ?_ ?_ ?_ ?_ ?_ ?_ ?_ ?_ ?_ ?_ ?_ ?_ ?_ ?_ ?_ ?_ ?_
    | with_reducible refine Or.inr (And.intro ?_ ?_)
    | with_reducible refine And.intro ?_ ?_)

theorem maybeFixA_moves {P : List Part} {s0 : State}  {s : State} (hP : Covers P [.pair, .loader, .sessions, .config, .sent])
    (hM : Moves P s0 s) : Moves P s0 (maybeFixA s) := by
  unfold maybeFixA
  repeat' (first
    | with_reducible assumption
    | with_reducible exact Or.inl rfl
    | with_reducible exact hP.trans (by decide)
    | exact Or.inr (hP.mem (by decide))
    | exact hP.mem (by decide)
    | with_reducible refine of_pair ‹_ = (_, _)› ?_
    | with_reducible apply fixA_moves
    | with_reducible apply ite_moves
    | with_reducible apply ite_moves_snd
    | with_reducible intro _
    | split
    | with_reducible exact id
    | with_reducible exact Or.inl ⟨rfl, rfl⟩
    | with_reducible exact Or.inl ⟨rfl, rfl, rfl⟩
    | with_reducible exact Or.inl ⟨rfl, rfl, rfl, rfl⟩
    | with_reducible exact Or.inl ⟨rfl, rfl, rfl, rfl, rfl⟩
    | decide
    | with_reducible apply ite_le
    | exact Nat.le_of_ble_eq_true rfl
    | with_reducible refine Moves.chg rfl ?_ ?_ ?_ ?_ ?_ ?_ ?_ ?_ ?_ ?_ ?_ ?_ ?_ ?_ ?_ ?_ ?_ ?_ ?_ ?_ ?_ ?_ ?_ ?_ ?_ ?_ ?_ ?_ ?_ ?_ ?_ ?_ ?_ ?_
    | with_reducible refine Or.inr (And.intro ?_ ?_)
    | with_reducible refine And.intro ?_ ?_)

end Sys2Proof.Machine
end

