-- ==== Sys2Proof/Laws/MovesFcrOps.lean ====
section
/-! SUPPORT. What each operation of Machine/FcrOps.lean can do: the parts of the state it may change (`Moves`). -/

set_option Elab.async false
set_option linter.all false

namespace Sys2Proof.Machine

open Sys2Proof

theorem modSrc_moves {P : List Part} {s0 : State} (i : Nat) (f : FcrSource → FcrSource) {s : State} (hP : Covers P [.faults])
    (hM : Moves P s0 s) : Moves P s0 (modSrc i f s) := by
  unfold modSrc
  repeat' (first
    | with_reducible assumption
    | with_reducible exact Or.inl rfl
    | with_reducible exact hP.trans (by decide)
    | exact Or.inr (hP.mem (by decide))
    | exact hP.mem (by decide)
    | with_reducible refine of_pair ‹_ = (_, _)› ?_
    | with_reducible intro _
    | split
    | with_reducible exact id
    | with_reducible exact Or.inl ⟨rfl, rfl⟩
    | with_reducible exact Or.inl ⟨rfl, rfl, rfl⟩
    | with_reducible exact Or.inl ⟨rfl, rfl, rfl, rfl⟩
    | with_reducible exact Or.inl ⟨rfl, rfl, rfl, rfl, rfl⟩
    | decide
    | with_reducible apply ite_le
    | exact Nat.le_of_ble_eq_true rfl
    | with_reducible refine Moves.chg rfl ?_ ?_ ?_ ?_ ?_ ?_ ?_ ?_ ?_ ?_ ?_ ?_ ?_ ?_ ?_ ?_ ?_ ?_ ?_ ?_ ?_ ?_ ?_ ?_ ?_ ?_ ?_ ?_ ?_ ?_ ?_ ?_ ?_ ?_
    | with_reducible refine Or.inr (And.intro ?_ ?_)
    | with_reducible refine And.intro ?_ ?_)

theorem history_moves {P : List Part} {s0 : State} (src kind byWhom : Nat) {s : State} (hP : Covers P [.events, .faults, .sessions, .host])
    (hM : Moves P s0 s) : Moves P s0 (history src kind byWhom s) := by
  unfold history
  repeat' (first
    | with_reducible assumption
    | with_reducible exact Or.inl rfl
    | with_reducible exact hP.trans (by decide)
    | exact Or.inr (hP.mem (by decide))
    | exact hP.mem (by decide)
    | with_reducible refine of_pair ‹_ = (_, _)› ?_
    | with_reducible apply raise_moves
    | with_reducible apply when_moves
    | with_reducible intro _
    | split
    | with_reducible exact id
    | with_reducible exact Or.inl ⟨rfl, rfl⟩
    | with_reducible exact Or.inl ⟨rfl, rfl, rfl⟩
    | with_reducible exact Or.inl ⟨rfl, rfl, rfl, rfl⟩
    | with_reducible exact Or.inl ⟨rfl, rfl, rfl, rfl, rfl⟩
    | decide
    | with_reducible apply ite_le
    | exact Nat.le_of_ble_eq_true rfl
    | with_reducible refine Moves.chg rfl ?_ ?_ ?_ ?_ ?_ ?_ ?_ ?_ ?_ ?_ ?_ ?_ ?_ ?_ ?_ ?_ ?_ ?_ ?_ ?_ ?_ ?_ ?_ ?_ ?_ ?_ ?_ ?_ ?_ ?_ ?_ ?_ ?_ ?_
    | with_reducible refine Or.inr (And.intro ?_ ?_)
    | with_reducible refine And.intro ?_ ?_)

theorem requestRestart_moves {P : List Part} {s0 : State} (cold : Bool) (entry due : Nat) (atH : Bool) {s : State} (hP : Covers P [.start])
    (hM : Moves P s0 s) : Moves P s0 (requestRestart cold entry due atH s) := by
  unfold requestRestart
  repeat' (first
    | with_reducible assumption
    | with_reducible exact Or.inl rfl
    | with_reducible exact hP.trans (by decide)
    | exact Or.inr (hP.mem (by decide))
    | exact hP.mem (by decide)
    | with_reducible refine of_pair ‹_ = (_, _)› ?_
    | with_reducible intro _
    | split
    | with_reducible exact id
    | with_reducible exact Or.inl ⟨rfl, rfl⟩
    | with_reducible exact Or.inl ⟨rfl, rfl, rfl⟩
    | with_reducible exact Or.inl ⟨rfl, rfl, rfl, rfl⟩
    | with_reducible exact Or.inl ⟨rfl, rfl, rfl, rfl, rfl⟩
    | decide
    | with_reducible apply ite_le
    | exact Nat.le_of_ble_eq_true rfl
    | with_reducible refine Moves.chg rfl ?_ ?_ ?_ ?_ ?_ ?_ ?_ ?_ ?_ ?_ ?_ ?_ ?_ ?_ ?_ ?_ ?_ ?_ ?_ ?_ ?_ ?_ ?_ ?_ ?_ ?_ ?_ ?_ ?_ ?_ ?_ ?_ ?_ ?_
    | with_reducible refine Or.inr (And.intro ?_ ?_)
    | with_reducible refine And.intro ?_ ?_)

theorem offPrimary_moves {P : List Part} {s0 : State} (i : Nat) {s : State} (hP : Covers P [.start, .events, .faults, .ledger, .keeper, .sessions, .host])
    (hM : Moves P s0 s) : Moves P s0 (offPrimary i s) := by
  unfold offPrimary
  repeat' (first
    | with_reducible assumption
    | with_reducible exact Or.inl rfl
    | with_reducible exact hP.trans (by decide)
    | exact Or.inr (hP.mem (by decide))
    | exact hP.mem (by decide)
    | with_reducible refine of_pair ‹_ = (_, _)› ?_
    | with_reducible apply requestRestart_moves
    | with_reducible apply history_moves
    | with_reducible apply ledger_moves
    | with_reducible apply ite_moves
    | with_reducible apply ite_moves_snd
    | with_reducible intro _
    | split
    | with_reducible exact id
    | with_reducible exact Or.inl ⟨rfl, rfl⟩
    | with_reducible exact Or.inl ⟨rfl, rfl, rfl⟩
    | with_reducible exact Or.inl ⟨rfl, rfl, rfl, rfl⟩
    | with_reducible exact Or.inl ⟨rfl, rfl, rfl, rfl, rfl⟩
    | decide
    | with_reducible apply ite_le
    | exact Nat.le_of_ble_eq_true rfl
    | with_reducible refine Moves.chg rfl ?_ ?_ ?_ ?_ ?_ ?_ ?_ ?_ ?_ ?_ ?_ ?_ ?_ ?_ ?_ ?_ ?_ ?_ ?_ ?_ ?_ ?_ ?_ ?_ ?_ ?_ ?_ ?_ ?_ ?_ ?_ ?_ ?_ ?_
    | with_reducible refine Or.inr (And.intro ?_ ?_)
    | with_reducible refine And.intro ?_ ?_)

theorem leftPrimary_moves {P : List Part} {s0 : State}  {s : State} (hP : Covers P [.start, .events, .faults, .ledger, .keeper, .sessions, .host])
    (hM : Moves P s0 s) : Moves P s0 (leftPrimary s) := by
  unfold leftPrimary
  repeat' (first
    | with_reducible assumption
    | with_reducible exact Or.inl rfl
    | with_reducible exact hP.trans (by decide)
    | exact Or.inr (hP.mem (by decide))
    | exact hP.mem (by decide)
    | with_reducible refine of_pair ‹_ = (_, _)› ?_
    | with_reducible apply offPrimary_moves
    | with_reducible apply foldl_moves
    | with_reducible apply foldl_moves_snd
    | with_reducible apply ite_moves
    | with_reducible apply ite_moves_snd
    | with_reducible intro _
    | split
    | with_reducible exact id
    | with_reducible exact Or.inl ⟨rfl, rfl⟩
    | with_reducible exact Or.inl ⟨rfl, rfl, rfl⟩
    | with_reducible exact Or.inl ⟨rfl, rfl, rfl, rfl⟩
    | with_reducible exact Or.inl ⟨rfl, rfl, rfl, rfl, rfl⟩
    | decide
    | with_reducible apply ite_le
    | exact Nat.le_of_ble_eq_true rfl
    | with_reducible refine Moves.chg rfl ?_ ?_ ?_ ?_ ?_ ?_ ?_ ?_ ?_ ?_ ?_ ?_ ?_ ?_ ?_ ?_ ?_ ?_ ?_ ?_ ?_ ?_ ?_ ?_ ?_ ?_ ?_ ?_ ?_ ?_ ?_ ?_ ?_ ?_
    | with_reducible refine Or.inr (And.intro ?_ ?_)
    | with_reducible refine And.intro ?_ ?_)

end Sys2Proof.Machine
end

