-- ==== Sys2Proof/Laws/MovesFioOps.lean ====
section
/-! SUPPORT. What each operation of Machine/FioOps.lean can do: the parts of the state it may change (`Moves`). -/

set_option Elab.async false
set_option linter.all false

namespace Sys2Proof.Machine

open Sys2Proof

theorem modDi_moves {P : List Part} {s0 : State} (i : Nat) (f : DiState → DiState) {s : State} (hP : Covers P [.inputs])
    (hM : Moves P s0 s) : Moves P s0 (modDi i f s) := by
  unfold modDi
  repeat' (first
    | with_reducible assumption
    | with_reducible exact Or.inl rfl
    | with_reducible exact hP.trans (by decide)
    | exact Or.inr (hP.mem (by decide))
    | exact hP.mem (by decide)
    | with_reducible refine of_pair ‹_ = (_, _)› ?_
    | with_reducible intro _
    | split
    | with_reducible exact id
    | with_reducible exact Or.inl ⟨rfl, rfl⟩
    | with_reducible exact Or.inl ⟨rfl, rfl, rfl⟩
    | with_reducible exact Or.inl ⟨rfl, rfl, rfl, rfl⟩
    | with_reducible exact Or.inl ⟨rfl, rfl, rfl, rfl, rfl⟩
    | decide
    | with_reducible apply ite_le
    | exact Nat.le_of_ble_eq_true rfl
    | with_reducible refine Moves.chg rfl ?_ ?_ ?_ ?_ ?_ ?_ ?_ ?_ ?_ ?_ ?_ ?_ ?_ ?_ ?_ ?_ ?_ ?_ ?_ ?_ ?_ ?_ ?_ ?_ ?_ ?_ ?_ ?_ ?_ ?_ ?_ ?_ ?_ ?_
    | with_reducible refine Or.inr (And.intro ?_ ?_)
    | with_reducible refine And.intro ?_ ?_)

theorem modDo_moves {P : List Part} {s0 : State} (j : Nat) (f : DoState → DoState) {s : State} (hP : Covers P [.outputs])
    (hM : Moves P s0 s) : Moves P s0 (modDo j f s) := by
  unfold modDo
  repeat' (first
    | with_reducible assumption
    | with_reducible exact Or.inl rfl
    | with_reducible exact hP.trans (by decide)
    | exact Or.inr (hP.mem (by decide))
    | exact hP.mem (by decide)
    | with_reducible refine of_pair ‹_ = (_, _)› ?_
    | with_reducible intro _
    | split
    | with_reducible exact id
    | with_reducible exact Or.inl ⟨rfl, rfl⟩
    | with_reducible exact Or.inl ⟨rfl, rfl, rfl⟩
    | with_reducible exact Or.inl ⟨rfl, rfl, rfl, rfl⟩
    | with_reducible exact Or.inl ⟨rfl, rfl, rfl, rfl, rfl⟩
    | decide
    | with_reducible apply ite_le
    | exact Nat.le_of_ble_eq_true rfl
    | with_reducible refine Moves.chg rfl ?_ ?_ ?_ ?_ ?_ ?_ ?_ ?_ ?_ ?_ ?_ ?_ ?_ ?_ ?_ ?_ ?_ ?_ ?_ ?_ ?_ ?_ ?_ ?_ ?_ ?_ ?_ ?_ ?_ ?_ ?_ ?_ ?_ ?_
    | with_reducible refine Or.inr (And.intro ?_ ?_)
    | with_reducible refine And.intro ?_ ?_)

theorem modAo_moves {P : List Part} {s0 : State} (c : Nat) (f : AoState → AoState) {s : State} (hP : Covers P [.loops])
    (hM : Moves P s0 s) : Moves P s0 (modAo c f s) := by
  unfold modAo
  repeat' (first
    | with_reducible assumption
    | with_reducible exact Or.inl rfl
    | with_reducible exact hP.trans (by decide)
    | exact Or.inr (hP.mem (by decide))
    | exact hP.mem (by decide)
    | with_reducible refine of_pair ‹_ = (_, _)› ?_
    | with_reducible intro _
    | split
    | with_reducible exact id
    | with_reducible exact Or.inl ⟨rfl, rfl⟩
    | with_reducible exact Or.inl ⟨rfl, rfl, rfl⟩
    | with_reducible exact Or.inl ⟨rfl, rfl, rfl, rfl⟩
    | with_reducible exact Or.inl ⟨rfl, rfl, rfl, rfl, rfl⟩
    | decide
    | with_reducible apply ite_le
    | exact Nat.le_of_ble_eq_true rfl
    | with_reducible refine Moves.chg rfl ?_ ?_ ?_ ?_ ?_ ?_ ?_ ?_ ?_ ?_ ?_ ?_ ?_ ?_ ?_ ?_ ?_ ?_ ?_ ?_ ?_ ?_ ?_ ?_ ?_ ?_ ?_ ?_ ?_ ?_ ?_ ?_ ?_ ?_
    | with_reducible refine Or.inr (And.intro ?_ ?_)
    | with_reducible refine And.intro ?_ ?_)

theorem fioRefresh_moves {P : List Part} {s0 : State}  {s : State} (hP : Covers P [.events, .ledger, .keeper, .field, .sessions, .host])
    (hM : Moves P s0 s) : Moves P s0 (fioRefresh s) := by
  unfold fioRefresh
  repeat' (first
    | with_reducible assumption
    | with_reducible exact Or.inl rfl
    | with_reducible exact hP.trans (by decide)
    | exact Or.inr (hP.mem (by decide))
    | exact hP.mem (by decide)
    | with_reducible refine of_pair ‹_ = (_, _)› ?_
    | with_reducible apply ledger_moves
    | with_reducible apply hwSet_moves
    | with_reducible apply when_moves
    | with_reducible intro _
    | split
    | with_reducible exact id
    | with_reducible exact Or.inl ⟨rfl, rfl⟩
    | with_reducible exact Or.inl ⟨rfl, rfl, rfl⟩
    | with_reducible exact Or.inl ⟨rfl, rfl, rfl, rfl⟩
    | with_reducible exact Or.inl ⟨rfl, rfl, rfl, rfl, rfl⟩
    | decide
    | with_reducible apply ite_le
    | exact Nat.le_of_ble_eq_true rfl
    | with_reducible refine Moves.chg rfl ?_ ?_ ?_ ?_ ?_ ?_ ?_ ?_ ?_ ?_ ?_ ?_ ?_ ?_ ?_ ?_ ?_ ?_ ?_ ?_ ?_ ?_ ?_ ?_ ?_ ?_ ?_ ?_ ?_ ?_ ?_ ?_ ?_ ?_
    | with_reducible refine Or.inr (And.intro ?_ ?_)
    | with_reducible refine And.intro ?_ ?_)

theorem showDo_moves {P : List Part} {s0 : State} (j : Nat) {s : State} (hP : Covers P [.sent])
    (hM : Moves P s0 s) : Moves P s0 (showDo j s) := by
  unfold showDo
  repeat' (first
    | with_reducible assumption
    | with_reducible exact Or.inl rfl
    | with_reducible exact hP.trans (by decide)
    | exact Or.inr (hP.mem (by decide))
    | exact hP.mem (by decide)
    | with_reducible refine of_pair ‹_ = (_, _)› ?_
    | with_reducible apply emit_moves
    | with_reducible intro _
    | split
    | with_reducible exact id
    | with_reducible exact Or.inl ⟨rfl, rfl⟩
    | with_reducible exact Or.inl ⟨rfl, rfl, rfl⟩
    | with_reducible exact Or.inl ⟨rfl, rfl, rfl, rfl⟩
    | with_reducible exact Or.inl ⟨rfl, rfl, rfl, rfl, rfl⟩
    | decide
    | with_reducible apply ite_le
    | exact Nat.le_of_ble_eq_true rfl
    | with_reducible refine Moves.chg rfl ?_ ?_ ?_ ?_ ?_ ?_ ?_ ?_ ?_ ?_ ?_ ?_ ?_ ?_ ?_ ?_ ?_ ?_ ?_ ?_ ?_ ?_ ?_ ?_ ?_ ?_ ?_ ?_ ?_ ?_ ?_ ?_ ?_ ?_
    | with_reducible refine Or.inr (And.intro ?_ ?_)
    | with_reducible refine And.intro ?_ ?_)

theorem driveDo_moves {P : List Part} {s0 : State} (j : Nat) (v : Bool) {s : State} (hP : Covers P [.events, .ledger, .keeper, .outputs, .field, .sessions, .host, .sent])
    (hM : Moves P s0 s) : Moves P s0 (driveDo j v s) := by
  unfold driveDo
  repeat' (first
    | with_reducible assumption
    | with_reducible exact Or.inl rfl
    | with_reducible exact hP.trans (by decide)
    | exact Or.inr (hP.mem (by decide))
    | exact hP.mem (by decide)
    | with_reducible refine of_pair ‹_ = (_, _)› ?_
    | with_reducible apply showDo_moves
    | with_reducible apply fioRefresh_moves
    | with_reducible apply modDo_moves
    | with_reducible apply when_moves
    | with_reducible intro _
    | split
    | with_reducible exact id
    | with_reducible exact Or.inl ⟨rfl, rfl⟩
    | with_reducible exact Or.inl ⟨rfl, rfl, rfl⟩
    | with_reducible exact Or.inl ⟨rfl, rfl, rfl, rfl⟩
    | with_reducible exact Or.inl ⟨rfl, rfl, rfl, rfl, rfl⟩
    | decide
    | with_reducible apply ite_le
    | exact Nat.le_of_ble_eq_true rfl
    | with_reducible refine Moves.chg rfl ?_ ?_ ?_ ?_ ?_ ?_ ?_ ?_ ?_ ?_ ?_ ?_ ?_ ?_ ?_ ?_ ?_ ?_ ?_ ?_ ?_ ?_ ?_ ?_ ?_ ?_ ?_ ?_ ?_ ?_ ?_ ?_ ?_ ?_
    | with_reducible refine Or.inr (And.intro ?_ ?_)
    | with_reducible refine And.intro ?_ ?_)

theorem applyDo_moves {P : List Part} {s0 : State} (ch : Nat) (v : Bool) {s : State} (hP : Covers P [.events, .ledger, .keeper, .outputs, .field, .sessions, .host, .sent])
    (hM : Moves P s0 s) : Moves P s0 (applyDo ch v s) := by
  unfold applyDo
  repeat' (first
    | with_reducible assumption
    | with_reducible exact Or.inl rfl
    | with_reducible exact hP.trans (by decide)
    | exact Or.inr (hP.mem (by decide))
    | exact hP.mem (by decide)
    | with_reducible refine of_pair ‹_ = (_, _)› ?_
    | with_reducible apply driveDo_moves
    | with_reducible apply modDo_moves
    | with_reducible apply ite_moves
    | with_reducible apply ite_moves_snd
    | with_reducible intro _
    | split
    | with_reducible exact id
    | with_reducible exact Or.inl ⟨rfl, rfl⟩
    | with_reducible exact Or.inl ⟨rfl, rfl, rfl⟩
    | with_reducible exact Or.inl ⟨rfl, rfl, rfl, rfl⟩
    | with_reducible exact Or.inl ⟨rfl, rfl, rfl, rfl, rfl⟩
    | decide
    | with_reducible apply ite_le
    | exact Nat.le_of_ble_eq_true rfl
    | with_reducible refine Moves.chg rfl ?_ ?_ ?_ ?_ ?_ ?_ ?_ ?_ ?_ ?_ ?_ ?_ ?_ ?_ ?_ ?_ ?_ ?_ ?_ ?_ ?_ ?_ ?_ ?_ ?_ ?_ ?_ ?_ ?_ ?_ ?_ ?_ ?_ ?_
    | with_reducible refine Or.inr (And.intro ?_ ?_)
    | with_reducible refine And.intro ?_ ?_)

theorem aoRedirect_moves {P : List Part} {s0 : State} (c : Nat) (f : AoState → AoState) {s : State} (hP : Covers P [.loops])
    (hM : Moves P s0 s) : Moves P s0 (aoRedirect c f s) := by
  unfold aoRedirect
  repeat' (first
    | with_reducible assumption
    | with_reducible exact Or.inl rfl
    | with_reducible exact hP.trans (by decide)
    | exact Or.inr (hP.mem (by decide))
    | exact hP.mem (by decide)
    | with_reducible refine of_pair ‹_ = (_, _)› ?_
    | with_reducible apply modAo_moves
    | with_reducible intro _
    | split
    | with_reducible exact id
    | with_reducible exact Or.inl ⟨rfl, rfl⟩
    | with_reducible exact Or.inl ⟨rfl, rfl, rfl⟩
    | with_reducible exact Or.inl ⟨rfl, rfl, rfl, rfl⟩
    | with_reducible exact Or.inl ⟨rfl, rfl, rfl, rfl, rfl⟩
    | decide
    | with_reducible apply ite_le
    | exact Nat.le_of_ble_eq_true rfl
    | with_reducible refine Moves.chg rfl ?_ ?_ ?_ ?_ ?_ ?_ ?_ ?_ ?_ ?_ ?_ ?_ ?_ ?_ ?_ ?_ ?_ ?_ ?_ ?_ ?_ ?_ ?_ ?_ ?_ ?_ ?_ ?_ ?_ ?_ ?_ ?_ ?_ ?_
    | with_reducible refine Or.inr (And.intro ?_ ?_)
    | with_reducible refine And.intro ?_ ?_)

theorem showAo_moves {P : List Part} {s0 : State} (c : Nat) {s : State} (hP : Covers P [.sent])
    (hM : Moves P s0 s) : Moves P s0 (showAo c s) := by
  unfold showAo
  repeat' (first
    | with_reducible assumption
    | with_reducible exact Or.inl rfl
    | with_reducible exact hP.trans (by decide)
    | exact Or.inr (hP.mem (by decide))
    | exact hP.mem (by decide)
    | with_reducible refine of_pair ‹_ = (_, _)› ?_
    | with_reducible apply emit_moves
    | with_reducible apply ite_moves
    | with_reducible apply ite_moves_snd
    | with_reducible intro _
    | split
    | with_reducible exact id
    | with_reducible exact Or.inl ⟨rfl, rfl⟩
    | with_reducible exact Or.inl ⟨rfl, rfl, rfl⟩
    | with_reducible exact Or.inl ⟨rfl, rfl, rfl, rfl⟩
    | with_reducible exact Or.inl ⟨rfl, rfl, rfl, rfl, rfl⟩
    | decide
    | with_reducible apply ite_le
    | exact Nat.le_of_ble_eq_true rfl
    | with_reducible refine Moves.chg rfl ?_ ?_ ?_ ?_ ?_ ?_ ?_ ?_ ?_ ?_ ?_ ?_ ?_ ?_ ?_ ?_ ?_ ?_ ?_ ?_ ?_ ?_ ?_ ?_ ?_ ?_ ?_ ?_ ?_ ?_ ?_ ?_ ?_ ?_
    | with_reducible refine Or.inr (And.intro ?_ ?_)
    | with_reducible refine And.intro ?_ ?_)

theorem applyAo_moves {P : List Part} {s0 : State} (c cmd : Nat) {s : State} (hP : Covers P [.loops, .sent])
    (hM : Moves P s0 s) : Moves P s0 (applyAo c cmd s) := by
  unfold applyAo
  repeat' (first
    | with_reducible assumption
    | with_reducible exact Or.inl rfl
    | with_reducible exact hP.trans (by decide)
    | exact Or.inr (hP.mem (by decide))
    | exact hP.mem (by decide)
    | with_reducible refine of_pair ‹_ = (_, _)› ?_
    | with_reducible apply showAo_moves
    | with_reducible apply aoRedirect_moves
    | with_reducible apply modAo_moves
    | with_reducible apply ite_moves
    | with_reducible apply ite_moves_snd
    | with_reducible intro _
    | split
    | with_reducible exact id
    | with_reducible exact Or.inl ⟨rfl, rfl⟩
    | with_reducible exact Or.inl ⟨rfl, rfl, rfl⟩
    | with_reducible exact Or.inl ⟨rfl, rfl, rfl, rfl⟩
    | with_reducible exact Or.inl ⟨rfl, rfl, rfl, rfl, rfl⟩
    | decide
    | with_reducible apply ite_le
    | exact Nat.le_of_ble_eq_true rfl
    | with_reducible refine Moves.chg rfl ?_ ?_ ?_ ?_ ?_ ?_ ?_ ?_ ?_ ?_ ?_ ?_ ?_ ?_ ?_ ?_ ?_ ?_ ?_ ?_ ?_ ?_ ?_ ?_ ?_ ?_ ?_ ?_ ?_ ?_ ?_ ?_ ?_ ?_
    | with_reducible refine Or.inr (And.intro ?_ ?_)
    | with_reducible refine And.intro ?_ ?_)

theorem aoHighZ_moves {P : List Part} {s0 : State} (c : Nat) {s : State} (hP : Covers P [.loops, .sent])
    (hM : Moves P s0 s) : Moves P s0 (aoHighZ c s) := by
  unfold aoHighZ
  repeat' (first
    | with_reducible assumption
    | with_reducible exact Or.inl rfl
    | with_reducible exact hP.trans (by decide)
    | exact Or.inr (hP.mem (by decide))
    | exact hP.mem (by decide)
    | with_reducible refine of_pair ‹_ = (_, _)› ?_
    | with_reducible apply modAo_moves
    | with_reducible apply emit_moves
    | with_reducible intro _
    | split
    | with_reducible exact id
    | with_reducible exact Or.inl ⟨rfl, rfl⟩
    | with_reducible exact Or.inl ⟨rfl, rfl, rfl⟩
    | with_reducible exact Or.inl ⟨rfl, rfl, rfl, rfl⟩
    | with_reducible exact Or.inl ⟨rfl, rfl, rfl, rfl, rfl⟩
    | decide
    | with_reducible apply ite_le
    | exact Nat.le_of_ble_eq_true rfl
    | with_reducible refine Moves.chg rfl ?_ ?_ ?_ ?_ ?_ ?_ ?_ ?_ ?_ ?_ ?_ ?_ ?_ ?_ ?_ ?_ ?_ ?_ ?_ ?_ ?_ ?_ ?_ ?_ ?_ ?_ ?_ ?_ ?_ ?_ ?_ ?_ ?_ ?_
    | with_reducible refine Or.inr (And.intro ?_ ?_)
    | with_reducible refine And.intro ?_ ?_)

theorem failOutputs_moves {P : List Part} {s0 : State} (m : Nat) {s : State} (hP : Covers P [.events, .ledger, .keeper, .outputs, .loops, .field, .sessions, .host, .sent])
    (hM : Moves P s0 s) : Moves P s0 (failOutputs m s) := by
  unfold failOutputs
  repeat' (first
    | with_reducible assumption
    | with_reducible exact Or.inl rfl
    | with_reducible exact hP.trans (by decide)
    | exact Or.inr (hP.mem (by decide))
    | exact hP.mem (by decide)
    | with_reducible refine of_pair ‹_ = (_, _)› ?_
    | with_reducible apply fioRefresh_moves
    | with_reducible apply modAo_moves
    | with_reducible apply modDo_moves
    | with_reducible apply emit_moves
    | with_reducible apply foldl_moves
    | with_reducible apply foldl_moves_snd
    | with_reducible apply ite_moves
    | with_reducible apply ite_moves_snd
    | with_reducible intro _
    | split
    | with_reducible exact id
    | with_reducible exact Or.inl ⟨rfl, rfl⟩
    | with_reducible exact Or.inl ⟨rfl, rfl, rfl⟩
    | with_reducible exact Or.inl ⟨rfl, rfl, rfl, rfl⟩
    | with_reducible exact Or.inl ⟨rfl, rfl, rfl, rfl, rfl⟩
    | decide
    | with_reducible apply ite_le
    | exact Nat.le_of_ble_eq_true rfl
    | with_reducible refine Moves.chg rfl ?_ ?_ ?_ ?_ ?_ ?_ ?_ ?_ ?_ ?_ ?_ ?_ ?_ ?_ ?_ ?_ ?_ ?_ ?_ ?_ ?_ ?_ ?_ ?_ ?_ ?_ ?_ ?_ ?_ ?_ ?_ ?_ ?_ ?_
    | with_reducible refine Or.inr (And.intro ?_ ?_)
    | with_reducible refine And.intro ?_ ?_)

theorem outputsOpen_moves {P : List Part} {s0 : State} (keep : Nat → Bool) {s : State} (hP : Covers P [.outputs, .loops, .sent])
    (hM : Moves P s0 s) : Moves P s0 (outputsOpen keep s) := by
  unfold outputsOpen
  repeat' (first
    | with_reducible assumption
    | with_reducible exact Or.inl rfl
    | with_reducible exact hP.trans (by decide)
    | exact Or.inr (hP.mem (by decide))
    | exact hP.mem (by decide)
    | with_reducible refine of_pair ‹_ = (_, _)› ?_
    | with_reducible intro _
    | split
    | with_reducible exact id
    | with_reducible exact Or.inl ⟨rfl, rfl⟩
    | with_reducible exact Or.inl ⟨rfl, rfl, rfl⟩
    | with_reducible exact Or.inl ⟨rfl, rfl, rfl, rfl⟩
    | with_reducible exact Or.inl ⟨rfl, rfl, rfl, rfl, rfl⟩
    | decide
    | with_reducible apply ite_le
    | exact Nat.le_of_ble_eq_true rfl
    | with_reducible refine Moves.chg rfl ?_ ?_ ?_ ?_ ?_ ?_ ?_ ?_ ?_ ?_ ?_ ?_ ?_ ?_ ?_ ?_ ?_ ?_ ?_ ?_ ?_ ?_ ?_ ?_ ?_ ?_ ?_ ?_ ?_ ?_ ?_ ?_ ?_ ?_
    | with_reducible refine Or.inr (And.intro ?_ ?_)
    | with_reducible refine And.intro ?_ ?_)

theorem fioStandby_moves {P : List Part} {s0 : State}  {s : State} (hP : Covers P [.events, .ledger, .keeper, .outputs, .loops, .field, .sessions, .host, .sent])
    (hM : Moves P s0 s) : Moves P s0 (fioStandby s) := by
  unfold fioStandby
  repeat' (first
    | with_reducible assumption
    | with_reducible exact Or.inl rfl
    | with_reducible exact hP.trans (by decide)
    | exact Or.inr (hP.mem (by decide))
    | exact hP.mem (by decide)
    | with_reducible refine of_pair ‹_ = (_, _)› ?_
    | with_reducible apply outputsOpen_moves
    | with_reducible apply fioRefresh_moves
    | with_reducible intro _
    | split
    | with_reducible exact id
    | with_reducible exact Or.inl ⟨rfl, rfl⟩
    | with_reducible exact Or.inl ⟨rfl, rfl, rfl⟩
    | with_reducible exact Or.inl ⟨rfl, rfl, rfl, rfl⟩
    | with_reducible exact Or.inl ⟨rfl, rfl, rfl, rfl, rfl⟩
    | decide
    | with_reducible apply ite_le
    | exact Nat.le_of_ble_eq_true rfl
    | with_reducible refine Moves.chg rfl ?_ ?_ ?_ ?_ ?_ ?_ ?_ ?_ ?_ ?_ ?_ ?_ ?_ ?_ ?_ ?_ ?_ ?_ ?_ ?_ ?_ ?_ ?_ ?_ ?_ ?_ ?_ ?_ ?_ ?_ ?_ ?_ ?_ ?_
    | with_reducible refine Or.inr (And.intro ?_ ?_)
    | with_reducible refine And.intro ?_ ?_)

theorem setTpo_moves {P : List Part} {s0 : State} (g : Nat) (level : Bool) {s : State} (hP : Covers P [.pulses, .sent])
    (hM : Moves P s0 s) : Moves P s0 (setTpo g level s) := by
  unfold setTpo
  repeat' (first
    | with_reducible assumption
    | with_reducible exact Or.inl rfl
    | with_reducible exact hP.trans (by decide)
    | exact Or.inr (hP.mem (by decide))
    | exact hP.mem (by decide)
    | with_reducible refine of_pair ‹_ = (_, _)› ?_
    | with_reducible apply emit_moves
    | with_reducible apply ite_moves
    | with_reducible apply ite_moves_snd
    | with_reducible intro _
    | split
    | with_reducible exact id
    | with_reducible exact Or.inl ⟨rfl, rfl⟩
    | with_reducible exact Or.inl ⟨rfl, rfl, rfl⟩
    | with_reducible exact Or.inl ⟨rfl, rfl, rfl, rfl⟩
    | with_reducible exact Or.inl ⟨rfl, rfl, rfl, rfl, rfl⟩
    | decide
    | with_reducible apply ite_le
    | exact Nat.le_of_ble_eq_true rfl
    | with_reducible refine Moves.chg rfl ?_ ?_ ?_ ?_ ?_ ?_ ?_ ?_ ?_ ?_ ?_ ?_ ?_ ?_ ?_ ?_ ?_ ?_ ?_ ?_ ?_ ?_ ?_ ?_ ?_ ?_ ?_ ?_ ?_ ?_ ?_ ?_ ?_ ?_
    | with_reducible refine Or.inr (And.intro ?_ ?_)
    | with_reducible refine And.intro ?_ ?_)

theorem showTpo_moves {P : List Part} {s0 : State} (g : Nat) {s : State} (hP : Covers P [.pulses, .sent])
    (hM : Moves P s0 s) : Moves P s0 (showTpo g s) := by
  unfold showTpo
  repeat' (first
    | with_reducible assumption
    | with_reducible exact Or.inl rfl
    | with_reducible exact hP.trans (by decide)
    | exact Or.inr (hP.mem (by decide))
    | exact hP.mem (by decide)
    | with_reducible refine of_pair ‹_ = (_, _)› ?_
    | with_reducible apply setTpo_moves
    | with_reducible apply ite_moves
    | with_reducible apply ite_moves_snd
    | with_reducible intro _
    | split
    | with_reducible exact id
    | with_reducible exact Or.inl ⟨rfl, rfl⟩
    | with_reducible exact Or.inl ⟨rfl, rfl, rfl⟩
    | with_reducible exact Or.inl ⟨rfl, rfl, rfl, rfl⟩
    | with_reducible exact Or.inl ⟨rfl, rfl, rfl, rfl, rfl⟩
    | decide
    | with_reducible apply ite_le
    | exact Nat.le_of_ble_eq_true rfl
    | with_reducible refine Moves.chg rfl ?_ ?_ ?_ ?_ ?_ ?_ ?_ ?_ ?_ ?_ ?_ ?_ ?_ ?_ ?_ ?_ ?_ ?_ ?_ ?_ ?_ ?_ ?_ ?_ ?_ ?_ ?_ ?_ ?_ ?_ ?_ ?_ ?_ ?_
    | with_reducible refine Or.inr (And.intro ?_ ?_)
    | with_reducible refine And.intro ?_ ?_)

theorem pinsRest_moves {P : List Part} {s0 : State}  {s : State} (hP : Covers P [.pulses, .outputs, .loops, .sent])
    (hM : Moves P s0 s) : Moves P s0 (pinsRest s) := by
  unfold pinsRest
  repeat' (first
    | with_reducible assumption
    | with_reducible exact Or.inl rfl
    | with_reducible exact hP.trans (by decide)
    | exact Or.inr (hP.mem (by decide))
    | exact hP.mem (by decide)
    | with_reducible refine of_pair ‹_ = (_, _)› ?_
    | with_reducible apply setTpo_moves
    | with_reducible apply outputsOpen_moves
    | with_reducible apply foldl_moves
    | with_reducible apply foldl_moves_snd
    | with_reducible intro _
    | split
    | with_reducible exact id
    | with_reducible exact Or.inl ⟨rfl, rfl⟩
    | with_reducible exact Or.inl ⟨rfl, rfl, rfl⟩
    | with_reducible exact Or.inl ⟨rfl, rfl, rfl, rfl⟩
    | with_reducible exact Or.inl ⟨rfl, rfl, rfl, rfl, rfl⟩
    | decide
    | with_reducible apply ite_le
    | exact Nat.le_of_ble_eq_true rfl
    | with_reducible refine Moves.chg rfl ?_ ?_ ?_ ?_ ?_ ?_ ?_ ?_ ?_ ?_ ?_ ?_ ?_ ?_ ?_ ?_ ?_ ?_ ?_ ?_ ?_ ?_ ?_ ?_ ?_ ?_ ?_ ?_ ?_ ?_ ?_ ?_ ?_ ?_
    | with_reducible refine Or.inr (And.intro ?_ ?_)
    | with_reducible refine And.intro ?_ ?_)

theorem endCommissioning_moves {P : List Part} {s0 : State} (cause : Nat) {s : State} (hP : Covers P [.events, .ledger, .keeper, .loops, .sessions, .host, .sent])
    (hM : Moves P s0 s) : Moves P s0 (endCommissioning cause s) := by
  unfold endCommissioning
  repeat' (first
    | with_reducible assumption
    | with_reducible exact Or.inl rfl
    | with_reducible exact hP.trans (by decide)
    | exact Or.inr (hP.mem (by decide))
    | exact hP.mem (by decide)
    | with_reducible refine of_pair ‹_ = (_, _)› ?_
    | with_reducible apply aoHighZ_moves
    | with_reducible apply ledger_moves
    | with_reducible intro _
    | split
    | with_reducible exact id
    | with_reducible exact Or.inl ⟨rfl, rfl⟩
    | with_reducible exact Or.inl ⟨rfl, rfl, rfl⟩
    | with_reducible exact Or.inl ⟨rfl, rfl, rfl, rfl⟩
    | with_reducible exact Or.inl ⟨rfl, rfl, rfl, rfl, rfl⟩
    | decide
    | with_reducible apply ite_le
    | exact Nat.le_of_ble_eq_true rfl
    | with_reducible refine Moves.chg rfl ?_ ?_ ?_ ?_ ?_ ?_ ?_ ?_ ?_ ?_ ?_ ?_ ?_ ?_ ?_ ?_ ?_ ?_ ?_ ?_ ?_ ?_ ?_ ?_ ?_ ?_ ?_ ?_ ?_ ?_ ?_ ?_ ?_ ?_
    | with_reducible refine Or.inr (And.intro ?_ ?_)
    | with_reducible refine And.intro ?_ ?_)

theorem fioPrimary_moves {P : List Part} {s0 : State}  {s : State} (hP : Covers P [.events, .ledger, .keeper, .loops, .field, .sessions, .host, .sent])
    (hM : Moves P s0 s) : Moves P s0 (fioPrimary s) := by
  unfold fioPrimary
  repeat' (first
    | with_reducible assumption
    | with_reducible exact Or.inl rfl
    | with_reducible exact hP.trans (by decide)
    | exact Or.inr (hP.mem (by decide))
    | exact hP.mem (by decide)
    | with_reducible refine of_pair ‹_ = (_, _)› ?_
    | with_reducible apply endCommissioning_moves
    | with_reducible intro _
    | split
    | with_reducible exact id
    | with_reducible exact Or.inl ⟨rfl, rfl⟩
    | with_reducible exact Or.inl ⟨rfl, rfl, rfl⟩
    | with_reducible exact Or.inl ⟨rfl, rfl, rfl, rfl⟩
    | with_reducible exact Or.inl ⟨rfl, rfl, rfl, rfl, rfl⟩
    | decide
    | with_reducible apply ite_le
    | exact Nat.le_of_ble_eq_true rfl
    | with_reducible refine Moves.chg rfl ?_ ?_ ?_ ?_ ?_ ?_ ?_ ?_ ?_ ?_ ?_ ?_ ?_ ?_ ?_ ?_ ?_ ?_ ?_ ?_ ?_ ?_ ?_ ?_ ?_ ?_ ?_ ?_ ?_ ?_ ?_ ?_ ?_ ?_
    | with_reducible refine Or.inr (And.intro ?_ ?_)
    | with_reducible refine And.intro ?_ ?_)

end Sys2Proof.Machine
end

