-- ==== Sys2Proof/Laws/MovesHif.lean ====
section
/-! SUPPORT. What each operation of Machine/Hif.lean can do: the parts of the state it may change (`Moves`). -/

set_option Elab.async false
set_option linter.all false

namespace Sys2Proof.Machine

open Sys2Proof

theorem execShpConnect_moves (w : When) (port : Fin 2) (linkLocal : Bool) (s : State) :
    Leads [.time, .events, .sessions, .host, .sent] s (execShpConnect w port linkLocal s) := by
  have h := Moves.refl [.time, .events, .sessions, .host, .sent] s
  have hP := @Covers.rfl [.time, .events, .sessions, .host, .sent]
  unfold execShpConnect
  repeat' (first
    | with_reducible assumption
    | with_reducible exact Or.inl rfl
    | with_reducible exact hP.trans (by decide)
    | exact Or.inr (hP.mem (by decide))
    | exact hP.mem (by decide)
    | with_reducible refine of_pair ‹_ = (_, _)› ?_
    | with_reducible apply next_leads
    | with_reducible apply raise_moves
    | with_reducible apply emit_moves
    | with_reducible apply at_moves
    | with_reducible apply ite_moves
    | with_reducible apply ite_moves_snd
    | with_reducible apply ite_leads
    | with_reducible intro _
    | split
    | with_reducible exact id
    | with_reducible exact Or.inl ⟨rfl, rfl⟩
    | with_reducible exact Or.inl ⟨rfl, rfl, rfl⟩
    | with_reducible exact Or.inl ⟨rfl, rfl, rfl, rfl⟩
    | with_reducible exact Or.inl ⟨rfl, rfl, rfl, rfl, rfl⟩
    | decide
    | with_reducible apply ite_le
    | exact Nat.le_of_ble_eq_true rfl
    | dsimp only
    | with_reducible refine Moves.chg rfl ?_ ?_ ?_ ?_ ?_ ?_ ?_ ?_ ?_ ?_ ?_ ?_ ?_ ?_ ?_ ?_ ?_ ?_ ?_ ?_ ?_ ?_ ?_ ?_ ?_ ?_ ?_ ?_ ?_ ?_ ?_ ?_ ?_ ?_
    | with_reducible refine Or.inr (And.intro ?_ ?_)
    | with_reducible refine And.intro ?_ ?_)

theorem handshakeFails_moves {P : List Part} {s0 : State} (i : Fin 8) (leaf : List Byte) {s : State} (hP : Covers P [.events, .ledger, .keeper, .sessions, .host, .sent])
    (hM : Moves P s0 s) : Moves P s0 (handshakeFails i leaf s) := by
  unfold handshakeFails
  repeat' (first
    | with_reducible assumption
    | with_reducible exact Or.inl rfl
    | with_reducible exact hP.trans (by decide)
    | exact Or.inr (hP.mem (by decide))
    | exact hP.mem (by decide)
    | with_reducible refine of_pair ‹_ = (_, _)› ?_
    | with_reducible apply ledger_moves
    | with_reducible apply raise_moves
    | with_reducible apply emit_moves
    | with_reducible intro _
    | split
    | with_reducible exact id
    | with_reducible exact Or.inl ⟨rfl, rfl⟩
    | with_reducible exact Or.inl ⟨rfl, rfl, rfl⟩
    | with_reducible exact Or.inl ⟨rfl, rfl, rfl, rfl⟩
    | with_reducible exact Or.inl ⟨rfl, rfl, rfl, rfl, rfl⟩
    | decide
    | with_reducible apply ite_le
    | exact Nat.le_of_ble_eq_true rfl
    | with_reducible refine Moves.chg rfl ?_ ?_ ?_ ?_ ?_ ?_ ?_ ?_ ?_ ?_ ?_ ?_ ?_ ?_ ?_ ?_ ?_ ?_ ?_ ?_ ?_ ?_ ?_ ?_ ?_ ?_ ?_ ?_ ?_ ?_ ?_ ?_ ?_ ?_
    | with_reducible refine Or.inr (And.intro ?_ ?_)
    | with_reducible refine And.intro ?_ ?_)

theorem execTlsHandshake_moves (w : When) (ses : Fin 8) (h : Handshake) (s : State) :
    Leads [.time, .events, .ledger, .keeper, .sessions, .host, .sent] s (execTlsHandshake w ses h s) := by
  have h := Moves.refl [.time, .events, .ledger, .keeper, .sessions, .host, .sent] s
  have hP := @Covers.rfl [.time, .events, .ledger, .keeper, .sessions, .host, .sent]
  unfold execTlsHandshake
  repeat' (first
    | with_reducible assumption
    | with_reducible exact Or.inl rfl
    | with_reducible exact hP.trans (by decide)
    | exact Or.inr (hP.mem (by decide))
    | exact hP.mem (by decide)
    | with_reducible refine of_pair ‹_ = (_, _)› ?_
    | with_reducible apply next_leads
    | with_reducible apply handshakeFails_moves
    | with_reducible apply modSes_moves
    | with_reducible apply ledger_moves
    | with_reducible apply emit_moves
    | with_reducible apply at_moves
    | with_reducible apply foldl_moves
    | with_reducible apply foldl_moves_snd
    | with_reducible apply ite_moves
    | with_reducible apply ite_moves_snd
    | with_reducible apply ite_leads
    | with_reducible intro _
    | split
    | with_reducible exact id
    | with_reducible exact Or.inl ⟨rfl, rfl⟩
    | with_reducible exact Or.inl ⟨rfl, rfl, rfl⟩
    | with_reducible exact Or.inl ⟨rfl, rfl, rfl, rfl⟩
    | with_reducible exact Or.inl ⟨rfl, rfl, rfl, rfl, rfl⟩
    | decide
    | with_reducible apply ite_le
    | exact Nat.le_of_ble_eq_true rfl
    | dsimp only
    | with_reducible refine Moves.chg rfl ?_ ?_ ?_ ?_ ?_ ?_ ?_ ?_ ?_ ?_ ?_ ?_ ?_ ?_ ?_ ?_ ?_ ?_ ?_ ?_ ?_ ?_ ?_ ?_ ?_ ?_ ?_ ?_ ?_ ?_ ?_ ?_ ?_ ?_
    | with_reducible refine Or.inr (And.intro ?_ ?_)
    | with_reducible refine And.intro ?_ ?_)

theorem execHandshakeTimeout_moves (w : When) (ses : Fin 8) (s : State) :
    Leads [.time, .events, .ledger, .keeper, .sessions, .host, .sent] s (execHandshakeTimeout w ses s) := by
  have h := Moves.refl [.time, .events, .ledger, .keeper, .sessions, .host, .sent] s
  have hP := @Covers.rfl [.time, .events, .ledger, .keeper, .sessions, .host, .sent]
  unfold execHandshakeTimeout
  repeat' (first
    | with_reducible assumption
    | with_reducible exact Or.inl rfl
    | with_reducible exact hP.trans (by decide)
    | exact Or.inr (hP.mem (by decide))
    | exact hP.mem (by decide)
    | with_reducible refine of_pair ‹_ = (_, _)› ?_
    | with_reducible apply next_leads
    | with_reducible apply handshakeFails_moves
    | with_reducible apply at_moves
    | with_reducible apply ite_moves
    | with_reducible apply ite_moves_snd
    | with_reducible apply ite_leads
    | with_reducible intro _
    | split
    | with_reducible exact id
    | with_reducible exact Or.inl ⟨rfl, rfl⟩
    | with_reducible exact Or.inl ⟨rfl, rfl, rfl⟩
    | with_reducible exact Or.inl ⟨rfl, rfl, rfl, rfl⟩
    | with_reducible exact Or.inl ⟨rfl, rfl, rfl, rfl, rfl⟩
    | decide
    | with_reducible apply ite_le
    | exact Nat.le_of_ble_eq_true rfl
    | dsimp only
    | with_reducible refine Moves.chg rfl ?_ ?_ ?_ ?_ ?_ ?_ ?_ ?_ ?_ ?_ ?_ ?_ ?_ ?_ ?_ ?_ ?_ ?_ ?_ ?_ ?_ ?_ ?_ ?_ ?_ ?_ ?_ ?_ ?_ ?_ ?_ ?_ ?_ ?_
    | with_reducible refine Or.inr (And.intro ?_ ?_)
    | with_reducible refine And.intro ?_ ?_)

theorem execSessionIdleTimeout_moves (w : When) (ses : Fin 8) (s : State) :
    Leads [.time, .events, .ledger, .keeper, .loader, .firmware, .sessions, .access, .host, .sent] s (execSessionIdleTimeout w ses s) := by
  have h := Moves.refl [.time, .events, .ledger, .keeper, .loader, .firmware, .sessions, .access, .host, .sent] s
  have hP := @Covers.rfl [.time, .events, .ledger, .keeper, .loader, .firmware, .sessions, .access, .host, .sent]
  unfold execSessionIdleTimeout
  repeat' (first
    | with_reducible assumption
    | with_reducible exact Or.inl rfl
    | with_reducible exact hP.trans (by decide)
    | exact Or.inr (hP.mem (by decide))
    | exact hP.mem (by decide)
    | with_reducible refine of_pair ‹_ = (_, _)› ?_
    | with_reducible apply next_leads
    | with_reducible apply closeSession_moves
    | with_reducible apply at_moves
    | with_reducible apply ite_moves
    | with_reducible apply ite_moves_snd
    | with_reducible apply ite_leads
    | with_reducible intro _
    | split
    | with_reducible exact id
    | with_reducible exact Or.inl ⟨rfl, rfl⟩
    | with_reducible exact Or.inl ⟨rfl, rfl, rfl⟩
    | with_reducible exact Or.inl ⟨rfl, rfl, rfl, rfl⟩
    | with_reducible exact Or.inl ⟨rfl, rfl, rfl, rfl, rfl⟩
    | decide
    | with_reducible apply ite_le
    | exact Nat.le_of_ble_eq_true rfl
    | dsimp only
    | with_reducible refine Moves.chg rfl ?_ ?_ ?_ ?_ ?_ ?_ ?_ ?_ ?_ ?_ ?_ ?_ ?_ ?_ ?_ ?_ ?_ ?_ ?_ ?_ ?_ ?_ ?_ ?_ ?_ ?_ ?_ ?_ ?_ ?_ ?_ ?_ ?_ ?_
    | with_reducible refine Or.inr (And.intro ?_ ?_)
    | with_reducible refine And.intro ?_ ?_)

theorem execSessionClose_moves (w : When) (ses : Fin 8) (framing : Bool) (s : State) :
    Leads [.time, .events, .ledger, .keeper, .loader, .firmware, .sessions, .access, .host, .sent] s (execSessionClose w ses framing s) := by
  have h := Moves.refl [.time, .events, .ledger, .keeper, .loader, .firmware, .sessions, .access, .host, .sent] s
  have hP := @Covers.rfl [.time, .events, .ledger, .keeper, .loader, .firmware, .sessions, .access, .host, .sent]
  unfold execSessionClose
  repeat' (first
    | with_reducible assumption
    | with_reducible exact Or.inl rfl
    | with_reducible exact hP.trans (by decide)
    | exact Or.inr (hP.mem (by decide))
    | exact hP.mem (by decide)
    | with_reducible refine of_pair ‹_ = (_, _)› ?_
    | with_reducible apply next_leads
    | with_reducible apply closeSession_moves
    | with_reducible apply at_moves
    | with_reducible apply ite_moves
    | with_reducible apply ite_moves_snd
    | with_reducible apply ite_leads
    | with_reducible intro _
    | split
    | with_reducible exact id
    | with_reducible exact Or.inl ⟨rfl, rfl⟩
    | with_reducible exact Or.inl ⟨rfl, rfl, rfl⟩
    | with_reducible exact Or.inl ⟨rfl, rfl, rfl, rfl⟩
    | with_reducible exact Or.inl ⟨rfl, rfl, rfl, rfl, rfl⟩
    | decide
    | with_reducible apply ite_le
    | exact Nat.le_of_ble_eq_true rfl
    | dsimp only
    | with_reducible refine Moves.chg rfl ?_ ?_ ?_ ?_ ?_ ?_ ?_ ?_ ?_ ?_ ?_ ?_ ?_ ?_ ?_ ?_ ?_ ?_ ?_ ?_ ?_ ?_ ?_ ?_ ?_ ?_ ?_ ?_ ?_ ?_ ?_ ?_ ?_ ?_
    | with_reducible refine Or.inr (And.intro ?_ ?_)
    | with_reducible refine And.intro ?_ ?_)

theorem execHello_moves (w : When) (ses : Fin 8) (version : Nat) (s : State) :
    Leads [.time, .events, .ledger, .keeper, .loader, .firmware, .sessions, .access, .host, .sent] s (execHello w ses version s) := by
  have h := Moves.refl [.time, .events, .ledger, .keeper, .loader, .firmware, .sessions, .access, .host, .sent] s
  have hP := @Covers.rfl [.time, .events, .ledger, .keeper, .loader, .firmware, .sessions, .access, .host, .sent]
  unfold execHello
  repeat' (first
    | with_reducible assumption
    | with_reducible exact Or.inl rfl
    | with_reducible exact hP.trans (by decide)
    | exact Or.inr (hP.mem (by decide))
    | exact hP.mem (by decide)
    | with_reducible refine of_pair ‹_ = (_, _)› ?_
    | with_reducible apply next_leads
    | with_reducible apply closeSession_moves
    | with_reducible apply reply_moves
    | with_reducible apply modSes_moves
    | with_reducible apply at_moves
    | with_reducible apply ite_moves
    | with_reducible apply ite_moves_snd
    | with_reducible apply ite_leads
    | with_reducible intro _
    | split
    | with_reducible exact id
    | with_reducible exact Or.inl ⟨rfl, rfl⟩
    | with_reducible exact Or.inl ⟨rfl, rfl, rfl⟩
    | with_reducible exact Or.inl ⟨rfl, rfl, rfl, rfl⟩
    | with_reducible exact Or.inl ⟨rfl, rfl, rfl, rfl, rfl⟩
    | decide
    | with_reducible apply ite_le
    | exact Nat.le_of_ble_eq_true rfl
    | dsimp only
    | with_reducible refine Moves.chg rfl ?_ ?_ ?_ ?_ ?_ ?_ ?_ ?_ ?_ ?_ ?_ ?_ ?_ ?_ ?_ ?_ ?_ ?_ ?_ ?_ ?_ ?_ ?_ ?_ ?_ ?_ ?_ ?_ ?_ ?_ ?_ ?_ ?_ ?_
    | with_reducible refine Or.inr (And.intro ?_ ?_)
    | with_reducible refine And.intro ?_ ?_)

theorem execShpReservedType_moves (w : When) (ses : Fin 8) (ty : Nat) (s : State) :
    Leads [.time, .events, .ledger, .keeper, .loader, .firmware, .sessions, .access, .host, .sent] s (execShpReservedType w ses ty s) := by
  have h := Moves.refl [.time, .events, .ledger, .keeper, .loader, .firmware, .sessions, .access, .host, .sent] s
  have hP := @Covers.rfl [.time, .events, .ledger, .keeper, .loader, .firmware, .sessions, .access, .host, .sent]
  unfold execShpReservedType
  repeat' (first
    | with_reducible assumption
    | with_reducible exact Or.inl rfl
    | with_reducible exact hP.trans (by decide)
    | exact Or.inr (hP.mem (by decide))
    | exact hP.mem (by decide)
    | with_reducible refine of_pair ‹_ = (_, _)› ?_
    | with_reducible apply next_leads
    | with_reducible apply withSession_moves
    | with_reducible apply reply_moves
    | with_reducible apply at_moves
    | with_reducible apply ite_moves
    | with_reducible apply ite_moves_snd
    | with_reducible apply ite_leads
    | with_reducible intro _
    | split
    | with_reducible exact id
    | with_reducible exact Or.inl ⟨rfl, rfl⟩
    | with_reducible exact Or.inl ⟨rfl, rfl, rfl⟩
    | with_reducible exact Or.inl ⟨rfl, rfl, rfl, rfl⟩
    | with_reducible exact Or.inl ⟨rfl, rfl, rfl, rfl, rfl⟩
    | decide
    | with_reducible apply ite_le
    | exact Nat.le_of_ble_eq_true rfl
    | dsimp only
    | with_reducible refine Moves.chg rfl ?_ ?_ ?_ ?_ ?_ ?_ ?_ ?_ ?_ ?_ ?_ ?_ ?_ ?_ ?_ ?_ ?_ ?_ ?_ ?_ ?_ ?_ ?_ ?_ ?_ ?_ ?_ ?_ ?_ ?_ ?_ ?_ ?_ ?_
    | with_reducible refine Or.inr (And.intro ?_ ?_)
    | with_reducible refine And.intro ?_ ?_)

theorem execLedgerSnap_moves (w : When) (ses : Fin 8) (s : State) :
    Leads [.time, .events, .ledger, .keeper, .loader, .firmware, .sessions, .access, .host, .sent] s (execLedgerSnap w ses s) := by
  have h := Moves.refl [.time, .events, .ledger, .keeper, .loader, .firmware, .sessions, .access, .host, .sent] s
  have hP := @Covers.rfl [.time, .events, .ledger, .keeper, .loader, .firmware, .sessions, .access, .host, .sent]
  unfold execLedgerSnap
  repeat' (first
    | with_reducible assumption
    | with_reducible exact Or.inl rfl
    | with_reducible exact hP.trans (by decide)
    | exact Or.inr (hP.mem (by decide))
    | exact hP.mem (by decide)
    | with_reducible refine of_pair ‹_ = (_, _)› ?_
    | with_reducible apply next_leads
    | with_reducible apply withSession_moves
    | with_reducible apply reply_moves
    | with_reducible apply modSes_moves
    | with_reducible apply at_moves
    | with_reducible apply ite_moves
    | with_reducible apply ite_moves_snd
    | with_reducible apply ite_leads
    | with_reducible intro _
    | split
    | with_reducible exact id
    | with_reducible exact Or.inl ⟨rfl, rfl⟩
    | with_reducible exact Or.inl ⟨rfl, rfl, rfl⟩
    | with_reducible exact Or.inl ⟨rfl, rfl, rfl, rfl⟩
    | with_reducible exact Or.inl ⟨rfl, rfl, rfl, rfl, rfl⟩
    | decide
    | with_reducible apply ite_le
    | exact Nat.le_of_ble_eq_true rfl
    | dsimp only
    | with_reducible refine Moves.chg rfl ?_ ?_ ?_ ?_ ?_ ?_ ?_ ?_ ?_ ?_ ?_ ?_ ?_ ?_ ?_ ?_ ?_ ?_ ?_ ?_ ?_ ?_ ?_ ?_ ?_ ?_ ?_ ?_ ?_ ?_ ?_ ?_ ?_ ?_
    | with_reducible refine Or.inr (And.intro ?_ ?_)
    | with_reducible refine And.intro ?_ ?_)

theorem execNotifySubscribe_moves (w : When) (ses : Fin 8) (kinds : Fin 4) (sources : BitVec 160) (s : State) :
    Leads [.time, .events, .ledger, .keeper, .loader, .firmware, .sessions, .access, .host, .sent] s (execNotifySubscribe w ses kinds sources s) := by
  have h := Moves.refl [.time, .events, .ledger, .keeper, .loader, .firmware, .sessions, .access, .host, .sent] s
  have hP := @Covers.rfl [.time, .events, .ledger, .keeper, .loader, .firmware, .sessions, .access, .host, .sent]
  unfold execNotifySubscribe
  repeat' (first
    | with_reducible assumption
    | with_reducible exact Or.inl rfl
    | with_reducible exact hP.trans (by decide)
    | exact Or.inr (hP.mem (by decide))
    | exact hP.mem (by decide)
    | with_reducible refine of_pair ‹_ = (_, _)› ?_
    | with_reducible apply next_leads
    | with_reducible apply withSession_moves
    | with_reducible apply reply_moves
    | with_reducible apply modSes_moves
    | with_reducible apply at_moves
    | with_reducible intro _
    | split
    | with_reducible exact id
    | with_reducible exact Or.inl ⟨rfl, rfl⟩
    | with_reducible exact Or.inl ⟨rfl, rfl, rfl⟩
    | with_reducible exact Or.inl ⟨rfl, rfl, rfl, rfl⟩
    | with_reducible exact Or.inl ⟨rfl, rfl, rfl, rfl, rfl⟩
    | decide
    | with_reducible apply ite_le
    | exact Nat.le_of_ble_eq_true rfl
    | dsimp only
    | with_reducible refine Moves.chg rfl ?_ ?_ ?_ ?_ ?_ ?_ ?_ ?_ ?_ ?_ ?_ ?_ ?_ ?_ ?_ ?_ ?_ ?_ ?_ ?_ ?_ ?_ ?_ ?_ ?_ ?_ ?_ ?_ ?_ ?_ ?_ ?_ ?_ ?_
    | with_reducible refine Or.inr (And.intro ?_ ?_)
    | with_reducible refine And.intro ?_ ?_)

theorem execNotifyLostReport_moves (w : When) (ses : Fin 8) (s : State) :
    Leads [.time, .sessions] s (execNotifyLostReport w ses s) := by
  have h := Moves.refl [.time, .sessions] s
  have hP := @Covers.rfl [.time, .sessions]
  unfold execNotifyLostReport
  repeat' (first
    | with_reducible assumption
    | with_reducible exact Or.inl rfl
    | with_reducible exact hP.trans (by decide)
    | exact Or.inr (hP.mem (by decide))
    | exact hP.mem (by decide)
    | with_reducible refine of_pair ‹_ = (_, _)› ?_
    | with_reducible apply next_leads
    | with_reducible apply modSes_moves
    | with_reducible apply at_moves
    | with_reducible apply ite_moves
    | with_reducible apply ite_moves_snd
    | with_reducible apply ite_leads
    | with_reducible intro _
    | split
    | with_reducible exact id
    | with_reducible exact Or.inl ⟨rfl, rfl⟩
    | with_reducible exact Or.inl ⟨rfl, rfl, rfl⟩
    | with_reducible exact Or.inl ⟨rfl, rfl, rfl, rfl⟩
    | with_reducible exact Or.inl ⟨rfl, rfl, rfl, rfl, rfl⟩
    | decide
    | with_reducible apply ite_le
    | exact Nat.le_of_ble_eq_true rfl
    | dsimp only
    | with_reducible refine Moves.chg rfl ?_ ?_ ?_ ?_ ?_ ?_ ?_ ?_ ?_ ?_ ?_ ?_ ?_ ?_ ?_ ?_ ?_ ?_ ?_ ?_ ?_ ?_ ?_ ?_ ?_ ?_ ?_ ?_ ?_ ?_ ?_ ?_ ?_ ?_
    | with_reducible refine Or.inr (And.intro ?_ ?_)
    | with_reducible refine And.intro ?_ ?_)

theorem execAccessSetLoadBlock_moves (w : When) (ses : Fin 8) (offset : Nat) (data : List Byte) (s : State) :
    Leads [.time, .events, .ledger, .keeper, .loader, .firmware, .sessions, .access, .host, .sent] s (execAccessSetLoadBlock w ses offset data s) := by
  have h := Moves.refl [.time, .events, .ledger, .keeper, .loader, .firmware, .sessions, .access, .host, .sent] s
  have hP := @Covers.rfl [.time, .events, .ledger, .keeper, .loader, .firmware, .sessions, .access, .host, .sent]
  unfold execAccessSetLoadBlock
  repeat' (first
    | with_reducible assumption
    | with_reducible exact Or.inl rfl
    | with_reducible exact hP.trans (by decide)
    | exact Or.inr (hP.mem (by decide))
    | exact hP.mem (by decide)
    | with_reducible refine of_pair ‹_ = (_, _)› ?_
    | with_reducible apply next_leads
    | with_reducible apply withSession_moves
    | with_reducible apply reply_moves
    | with_reducible apply modSes_moves
    | with_reducible apply at_moves
    | with_reducible apply ite_moves
    | with_reducible apply ite_moves_snd
    | with_reducible apply ite_leads
    | with_reducible intro _
    | split
    | with_reducible exact id
    | with_reducible exact Or.inl ⟨rfl, rfl⟩
    | with_reducible exact Or.inl ⟨rfl, rfl, rfl⟩
    | with_reducible exact Or.inl ⟨rfl, rfl, rfl, rfl⟩
    | with_reducible exact Or.inl ⟨rfl, rfl, rfl, rfl, rfl⟩
    | decide
    | with_reducible apply ite_le
    | exact Nat.le_of_ble_eq_true rfl
    | dsimp only
    | with_reducible refine Moves.chg rfl ?_ ?_ ?_ ?_ ?_ ?_ ?_ ?_ ?_ ?_ ?_ ?_ ?_ ?_ ?_ ?_ ?_ ?_ ?_ ?_ ?_ ?_ ?_ ?_ ?_ ?_ ?_ ?_ ?_ ?_ ?_ ?_ ?_ ?_
    | with_reducible refine Or.inr (And.intro ?_ ?_)
    | with_reducible refine And.intro ?_ ?_)

theorem commitAccess_moves {P : List Part} {s0 : State} (ses : Fin 8) (bs : List Byte) (keyOk chainOk : Bool) {s : State} (hP : Covers P [.events, .keeper, .sessions, .access, .host, .sent])
    (hM : Moves P s0 s) : Moves P s0 (commitAccess ses bs keyOk chainOk s) := by
  unfold commitAccess
  repeat' (first
    | with_reducible assumption
    | with_reducible exact Or.inl rfl
    | with_reducible exact hP.trans (by decide)
    | exact Or.inr (hP.mem (by decide))
    | exact hP.mem (by decide)
    | with_reducible refine of_pair ‹_ = (_, _)› ?_
    | with_reducible apply reply_moves
    | with_reducible apply defer_moves
    | with_reducible apply queueJob_moves
    | with_reducible intro _
    | split
    | with_reducible exact id
    | with_reducible exact Or.inl ⟨rfl, rfl⟩
    | with_reducible exact Or.inl ⟨rfl, rfl, rfl⟩
    | with_reducible exact Or.inl ⟨rfl, rfl, rfl, rfl⟩
    | with_reducible exact Or.inl ⟨rfl, rfl, rfl, rfl, rfl⟩
    | decide
    | with_reducible apply ite_le
    | exact Nat.le_of_ble_eq_true rfl
    | with_reducible refine Moves.chg rfl ?_ ?_ ?_ ?_ ?_ ?_ ?_ ?_ ?_ ?_ ?_ ?_ ?_ ?_ ?_ ?_ ?_ ?_ ?_ ?_ ?_ ?_ ?_ ?_ ?_ ?_ ?_ ?_ ?_ ?_ ?_ ?_ ?_ ?_
    | with_reducible refine Or.inr (And.intro ?_ ?_)
    | with_reducible refine And.intro ?_ ?_)

theorem execAccessSetCommit_moves (w : When) (ses : Fin 8) (act : AccessAct) (chainOk : Bool) (s : State) :
    Leads [.time, .events, .ledger, .keeper, .loader, .firmware, .sessions, .access, .host, .sent] s (execAccessSetCommit w ses act chainOk s) := by
  have h := Moves.refl [.time, .events, .ledger, .keeper, .loader, .firmware, .sessions, .access, .host, .sent] s
  have hP := @Covers.rfl [.time, .events, .ledger, .keeper, .loader, .firmware, .sessions, .access, .host, .sent]
  unfold execAccessSetCommit
  repeat' (first
    | with_reducible assumption
    | with_reducible exact Or.inl rfl
    | with_reducible exact hP.trans (by decide)
    | exact Or.inr (hP.mem (by decide))
    | exact hP.mem (by decide)
    | with_reducible refine of_pair ‹_ = (_, _)› ?_
    | with_reducible apply next_leads
    | with_reducible apply commitAccess_moves
    | with_reducible apply withSession_moves
    | with_reducible apply reply_moves
    | with_reducible apply modSes_moves
    | with_reducible apply at_moves
    | with_reducible intro _
    | split
    | with_reducible exact id
    | with_reducible exact Or.inl ⟨rfl, rfl⟩
    | with_reducible exact Or.inl ⟨rfl, rfl, rfl⟩
    | with_reducible exact Or.inl ⟨rfl, rfl, rfl, rfl⟩
    | with_reducible exact Or.inl ⟨rfl, rfl, rfl, rfl, rfl⟩
    | decide
    | with_reducible apply ite_le
    | exact Nat.le_of_ble_eq_true rfl
    | dsimp only
    | with_reducible refine Moves.chg rfl ?_ ?_ ?_ ?_ ?_ ?_ ?_ ?_ ?_ ?_ ?_ ?_ ?_ ?_ ?_ ?_ ?_ ?_ ?_ ?_ ?_ ?_ ?_ ?_ ?_ ?_ ?_ ?_ ?_ ?_ ?_ ?_ ?_ ?_
    | with_reducible refine Or.inr (And.intro ?_ ?_)
    | with_reducible refine And.intro ?_ ?_)

theorem execAccessSetStored_moves (w : When) (s : State) :
    Leads [.time, .events, .ledger, .keeper, .loader, .firmware, .sessions, .access, .host, .sent] s (execAccessSetStored w s) := by
  have h := Moves.refl [.time, .events, .ledger, .keeper, .loader, .firmware, .sessions, .access, .host, .sent] s
  have hP := @Covers.rfl [.time, .events, .ledger, .keeper, .loader, .firmware, .sessions, .access, .host, .sent]
  unfold execAccessSetStored
  repeat' (first
    | with_reducible assumption
    | with_reducible exact Or.inl rfl
    | with_reducible exact hP.trans (by decide)
    | exact Or.inr (hP.mem (by decide))
    | exact hP.mem (by decide)
    | with_reducible refine of_pair ‹_ = (_, _)› ?_
    | with_reducible apply next_leads
    | with_reducible apply accessInForce_moves
    | with_reducible apply closeSession_moves
    | with_reducible apply answerTo_moves
    | with_reducible apply at_moves
    | with_reducible apply foldl_moves
    | with_reducible apply foldl_moves_snd
    | with_reducible intro _
    | split
    | with_reducible exact id
    | with_reducible exact Or.inl ⟨rfl, rfl⟩
    | with_reducible exact Or.inl ⟨rfl, rfl, rfl⟩
    | with_reducible exact Or.inl ⟨rfl, rfl, rfl, rfl⟩
    | with_reducible exact Or.inl ⟨rfl, rfl, rfl, rfl, rfl⟩
    | decide
    | with_reducible apply ite_le
    | exact Nat.le_of_ble_eq_true rfl
    | dsimp only
    | with_reducible refine Moves.chg rfl ?_ ?_ ?_ ?_ ?_ ?_ ?_ ?_ ?_ ?_ ?_ ?_ ?_ ?_ ?_ ?_ ?_ ?_ ?_ ?_ ?_ ?_ ?_ ?_ ?_ ?_ ?_ ?_ ?_ ?_ ?_ ?_ ?_ ?_
    | with_reducible refine Or.inr (And.intro ?_ ?_)
    | with_reducible refine And.intro ?_ ?_)

theorem execHostArpRequest_moves (w : When) (port : Fin 2) (target : Nat) (s : State) :
    Leads [.time, .sent] s (execHostArpRequest w port target s) := by
  have h := Moves.refl [.time, .sent] s
  have hP := @Covers.rfl [.time, .sent]
  unfold execHostArpRequest
  repeat' (first
    | with_reducible assumption
    | with_reducible exact Or.inl rfl
    | with_reducible exact hP.trans (by decide)
    | exact Or.inr (hP.mem (by decide))
    | exact hP.mem (by decide)
    | with_reducible refine of_pair ‹_ = (_, _)› ?_
    | with_reducible apply next_leads
    | with_reducible apply emit_moves
    | with_reducible apply at_moves
    | with_reducible apply ite_moves
    | with_reducible apply ite_moves_snd
    | with_reducible apply ite_leads
    | with_reducible intro _
    | split
    | with_reducible exact id
    | with_reducible exact Or.inl ⟨rfl, rfl⟩
    | with_reducible exact Or.inl ⟨rfl, rfl, rfl⟩
    | with_reducible exact Or.inl ⟨rfl, rfl, rfl, rfl⟩
    | with_reducible exact Or.inl ⟨rfl, rfl, rfl, rfl, rfl⟩
    | decide
    | with_reducible apply ite_le
    | exact Nat.le_of_ble_eq_true rfl
    | dsimp only
    | with_reducible refine Moves.chg rfl ?_ ?_ ?_ ?_ ?_ ?_ ?_ ?_ ?_ ?_ ?_ ?_ ?_ ?_ ?_ ?_ ?_ ?_ ?_ ?_ ?_ ?_ ?_ ?_ ?_ ?_ ?_ ?_ ?_ ?_ ?_ ?_ ?_ ?_
    | with_reducible refine Or.inr (And.intro ?_ ?_)
    | with_reducible refine And.intro ?_ ?_)

theorem execHostNeighbourSolicitation_moves (w : When) (port : Fin 2) (target : Nat) (s : State) :
    Leads [.time, .sent] s (execHostNeighbourSolicitation w port target s) := by
  have h := Moves.refl [.time, .sent] s
  have hP := @Covers.rfl [.time, .sent]
  unfold execHostNeighbourSolicitation
  repeat' (first
    | with_reducible assumption
    | with_reducible exact Or.inl rfl
    | with_reducible exact hP.trans (by decide)
    | exact Or.inr (hP.mem (by decide))
    | exact hP.mem (by decide)
    | with_reducible refine of_pair ‹_ = (_, _)› ?_
    | with_reducible apply next_leads
    | with_reducible apply emit_moves
    | with_reducible apply at_moves
    | with_reducible apply ite_moves
    | with_reducible apply ite_moves_snd
    | with_reducible apply ite_leads
    | with_reducible intro _
    | split
    | with_reducible exact id
    | with_reducible exact Or.inl ⟨rfl, rfl⟩
    | with_reducible exact Or.inl ⟨rfl, rfl, rfl⟩
    | with_reducible exact Or.inl ⟨rfl, rfl, rfl, rfl⟩
    | with_reducible exact Or.inl ⟨rfl, rfl, rfl, rfl, rfl⟩
    | decide
    | with_reducible apply ite_le
    | exact Nat.le_of_ble_eq_true rfl
    | dsimp only
    | with_reducible refine Moves.chg rfl ?_ ?_ ?_ ?_ ?_ ?_ ?_ ?_ ?_ ?_ ?_ ?_ ?_ ?_ ?_ ?_ ?_ ?_ ?_ ?_ ?_ ?_ ?_ ?_ ?_ ?_ ?_ ?_ ?_ ?_ ?_ ?_ ?_ ?_
    | with_reducible refine Or.inr (And.intro ?_ ?_)
    | with_reducible refine And.intro ?_ ?_)

theorem execHostEchoRequest_moves (w : When) (port : Fin 2) (v6 : Bool) (target : Nat) (s : State) :
    Leads [.time, .sent] s (execHostEchoRequest w port v6 target s) := by
  have h := Moves.refl [.time, .sent] s
  have hP := @Covers.rfl [.time, .sent]
  unfold execHostEchoRequest
  repeat' (first
    | with_reducible assumption
    | with_reducible exact Or.inl rfl
    | with_reducible exact hP.trans (by decide)
    | exact Or.inr (hP.mem (by decide))
    | exact hP.mem (by decide)
    | with_reducible refine of_pair ‹_ = (_, _)› ?_
    | with_reducible apply next_leads
    | with_reducible apply emit_moves
    | with_reducible apply at_moves
    | with_reducible apply ite_moves
    | with_reducible apply ite_moves_snd
    | with_reducible apply ite_leads
    | with_reducible intro _
    | split
    | with_reducible exact id
    | with_reducible exact Or.inl ⟨rfl, rfl⟩
    | with_reducible exact Or.inl ⟨rfl, rfl, rfl⟩
    | with_reducible exact Or.inl ⟨rfl, rfl, rfl, rfl⟩
    | with_reducible exact Or.inl ⟨rfl, rfl, rfl, rfl, rfl⟩
    | decide
    | with_reducible apply ite_le
    | exact Nat.le_of_ble_eq_true rfl
    | dsimp only
    | with_reducible refine Moves.chg rfl ?_ ?_ ?_ ?_ ?_ ?_ ?_ ?_ ?_ ?_ ?_ ?_ ?_ ?_ ?_ ?_ ?_ ?_ ?_ ?_ ?_ ?_ ?_ ?_ ?_ ?_ ?_ ?_ ?_ ?_ ?_ ?_ ?_ ?_
    | with_reducible refine Or.inr (And.intro ?_ ?_)
    | with_reducible refine And.intro ?_ ?_)

theorem execHostFrameDiscard_moves (w : When) (port : Fin 2) (s : State) :
    Leads [.time, .host] s (execHostFrameDiscard w port s) := by
  have h := Moves.refl [.time, .host] s
  have hP := @Covers.rfl [.time, .host]
  unfold execHostFrameDiscard
  repeat' (first
    | with_reducible assumption
    | with_reducible exact Or.inl rfl
    | with_reducible exact hP.trans (by decide)
    | exact Or.inr (hP.mem (by decide))
    | exact hP.mem (by decide)
    | with_reducible refine of_pair ‹_ = (_, _)› ?_
    | with_reducible apply next_leads
    | with_reducible apply at_moves
    | with_reducible intro _
    | split
    | with_reducible exact id
    | with_reducible exact Or.inl ⟨rfl, rfl⟩
    | with_reducible exact Or.inl ⟨rfl, rfl, rfl⟩
    | with_reducible exact Or.inl ⟨rfl, rfl, rfl, rfl⟩
    | with_reducible exact Or.inl ⟨rfl, rfl, rfl, rfl, rfl⟩
    | decide
    | with_reducible apply ite_le
    | exact Nat.le_of_ble_eq_true rfl
    | dsimp only
    | with_reducible refine Moves.chg rfl ?_ ?_ ?_ ?_ ?_ ?_ ?_ ?_ ?_ ?_ ?_ ?_ ?_ ?_ ?_ ?_ ?_ ?_ ?_ ?_ ?_ ?_ ?_ ?_ ?_ ?_ ?_ ?_ ?_ ?_ ?_ ?_ ?_ ?_
    | with_reducible refine Or.inr (And.intro ?_ ?_)
    | with_reducible refine And.intro ?_ ?_)

theorem execHostLinkChange_moves (w : When) (port : Fin 2) (up : Bool) (s : State) :
    Leads [.time, .events, .sessions, .host] s (execHostLinkChange w port up s) := by
  have h := Moves.refl [.time, .events, .sessions, .host] s
  have hP := @Covers.rfl [.time, .events, .sessions, .host]
  unfold execHostLinkChange
  repeat' (first
    | with_reducible assumption
    | with_reducible exact Or.inl rfl
    | with_reducible exact hP.trans (by decide)
    | exact Or.inr (hP.mem (by decide))
    | exact hP.mem (by decide)
    | with_reducible refine of_pair ‹_ = (_, _)› ?_
    | with_reducible apply next_leads
    | with_reducible apply raise_moves
    | with_reducible apply at_moves
    | with_reducible apply ite_moves
    | with_reducible apply ite_moves_snd
    | with_reducible apply ite_leads
    | with_reducible intro _
    | split
    | with_reducible exact id
    | with_reducible exact Or.inl ⟨rfl, rfl⟩
    | with_reducible exact Or.inl ⟨rfl, rfl, rfl⟩
    | with_reducible exact Or.inl ⟨rfl, rfl, rfl, rfl⟩
    | with_reducible exact Or.inl ⟨rfl, rfl, rfl, rfl, rfl⟩
    | decide
    | with_reducible apply ite_le
    | exact Nat.le_of_ble_eq_true rfl
    | dsimp only
    | with_reducible refine Moves.chg rfl ?_ ?_ ?_ ?_ ?_ ?_ ?_ ?_ ?_ ?_ ?_ ?_ ?_ ?_ ?_ ?_ ?_ ?_ ?_ ?_ ?_ ?_ ?_ ?_ ?_ ?_ ?_ ?_ ?_ ?_ ?_ ?_ ?_ ?_
    | with_reducible refine Or.inr (And.intro ?_ ?_)
    | with_reducible refine And.intro ?_ ?_)

end Sys2Proof.Machine
end

