-- ==== Sys2Proof/Laws/MovesWvl.lean ====
section
/-! SUPPORT. What each operation of Machine/Wvl.lean can do: the parts of the state it may change (`Moves`). -/

set_option Elab.async false
set_option linter.all false

namespace Sys2Proof.Machine

open Sys2Proof

theorem wvlAliveAct_moves {P : List Part} {s0 : State} (who : Agent) {s : State} (hP : Covers P [.pair])
    (hM : Moves P s0 s) : Moves P s0 (wvlAliveAct who s) := by
  unfold wvlAliveAct
  repeat' (first
    | with_reducible assumption
    | with_reducible exact Or.inl rfl
    | with_reducible exact hP.trans (by decide)
    | exact Or.inr (hP.mem (by decide))
    | exact hP.mem (by decide)
    | with_reducible refine of_pair ‹_ = (_, _)› ?_
    | with_reducible apply modWvl_moves
    | with_reducible apply ite_moves
    | with_reducible apply ite_moves_snd
    | with_reducible intro _
    | split
    | with_reducible exact id
    | with_reducible exact Or.inl ⟨rfl, rfl⟩
    | with_reducible exact Or.inl ⟨rfl, rfl, rfl⟩
    | with_reducible exact Or.inl ⟨rfl, rfl, rfl, rfl⟩
    | with_reducible exact Or.inl ⟨rfl, rfl, rfl, rfl, rfl⟩
    | decide
    | with_reducible apply ite_le
    | exact Nat.le_of_ble_eq_true rfl
    | with_reducible refine Moves.chg rfl ?_ ?_ ?_ ?_ ?_ ?_ ?_ ?_ ?_ ?_ ?_ ?_ ?_ ?_ ?_ ?_ ?_ ?_ ?_ ?_ ?_ ?_ ?_ ?_ ?_ ?_ ?_ ?_ ?_ ?_ ?_ ?_ ?_ ?_
    | with_reducible refine Or.inr (And.intro ?_ ?_)
    | with_reducible refine And.intro ?_ ?_)

theorem partnerSeen_moves {P : List Part} {s0 : State} (h : Heartbeat) {s : State} (hP : Covers P [.events, .pair, .faults, .ledger, .keeper, .sessions, .host])
    (hM : Moves P s0 s) : Moves P s0 (partnerSeen h s) := by
  unfold partnerSeen
  repeat' (first
    | with_reducible assumption
    | with_reducible exact Or.inl rfl
    | with_reducible exact hP.trans (by decide)
    | exact Or.inr (hP.mem (by decide))
    | exact hP.mem (by decide)
    | with_reducible refine of_pair ‹_ = (_, _)› ?_
    | with_reducible apply modWvl_moves
    | with_reducible apply ledger_moves
    | with_reducible apply report_moves
    | with_reducible apply raise_moves
    | with_reducible apply when_moves
    | with_reducible intro _
    | split
    | with_reducible exact id
    | with_reducible exact Or.inl ⟨rfl, rfl⟩
    | with_reducible exact Or.inl ⟨rfl, rfl, rfl⟩
    | with_reducible exact Or.inl ⟨rfl, rfl, rfl, rfl⟩
    | with_reducible exact Or.inl ⟨rfl, rfl, rfl, rfl, rfl⟩
    | decide
    | with_reducible apply ite_le
    | exact Nat.le_of_ble_eq_true rfl
    | with_reducible refine Moves.chg rfl ?_ ?_ ?_ ?_ ?_ ?_ ?_ ?_ ?_ ?_ ?_ ?_ ?_ ?_ ?_ ?_ ?_ ?_ ?_ ?_ ?_ ?_ ?_ ?_ ?_ ?_ ?_ ?_ ?_ ?_ ?_ ?_ ?_ ?_
    | with_reducible refine Or.inr (And.intro ?_ ?_)
    | with_reducible refine And.intro ?_ ?_)

theorem primaryHeartbeat_moves {P : List Part} {s0 : State} (h : Heartbeat) (before : Nat) {s : State} (hP : Covers P [.draws, .events, .tasks, .forces, .pair, .memctl, .faults, .sessions, .host])
    (hM : Moves P s0 s) : Moves P s0 (primaryHeartbeat h before s) := by
  unfold primaryHeartbeat
  repeat' (first
    | with_reducible assumption
    | with_reducible exact Or.inl rfl
    | with_reducible exact hP.trans (by decide)
    | exact Or.inr (hP.mem (by decide))
    | exact hP.mem (by decide)
    | with_reducible refine of_pair ‹_ = (_, _)› ?_
    | with_reducible apply judgeAck_moves
    | with_reducible apply startReseed_moves
    | with_reducible apply foldl_moves
    | with_reducible apply foldl_moves_snd
    | with_reducible apply ite_moves
    | with_reducible apply ite_moves_snd
    | with_reducible intro _
    | split
    | with_reducible exact id
    | with_reducible exact Or.inl ⟨rfl, rfl⟩
    | with_reducible exact Or.inl ⟨rfl, rfl, rfl⟩
    | with_reducible exact Or.inl ⟨rfl, rfl, rfl, rfl⟩
    | with_reducible exact Or.inl ⟨rfl, rfl, rfl, rfl, rfl⟩
    | decide
    | with_reducible apply ite_le
    | exact Nat.le_of_ble_eq_true rfl
    | with_reducible refine Moves.chg rfl ?_ ?_ ?_ ?_ ?_ ?_ ?_ ?_ ?_ ?_ ?_ ?_ ?_ ?_ ?_ ?_ ?_ ?_ ?_ ?_ ?_ ?_ ?_ ?_ ?_ ?_ ?_ ?_ ?_ ?_ ?_ ?_ ?_ ?_
    | with_reducible refine Or.inr (And.intro ?_ ?_)
    | with_reducible refine And.intro ?_ ?_)

theorem heartbeatByRole_moves {P : List Part} {s0 : State} (h : Heartbeat) (before : Nat) {s : State} (hP : Covers P [.draws, .start, .events, .ports, .stations, .tasks, .forces, .sequencer, .triad, .debug, .pair, .memory, .memctl, .wards, .faults, .ledger, .keeper, .loops, .field, .sessions, .host, .sent])
    (hM : Moves P s0 s) : Moves P s0 (heartbeatByRole h before s) := by
  unfold heartbeatByRole
  repeat' (first
    | with_reducible assumption
    | with_reducible exact Or.inl rfl
    | with_reducible exact hP.trans (by decide)
    | exact Or.inr (hP.mem (by decide))
    | exact hP.mem (by decide)
    | with_reducible refine of_pair ‹_ = (_, _)› ?_
    | with_reducible apply primaryHeartbeat_moves
    | with_reducible apply join_moves
    | with_reducible apply primaryFromP6_moves
    | with_reducible apply raiseReserve_moves
    | with_reducible apply ite_moves
    | with_reducible apply ite_moves_snd
    | with_reducible intro _
    | split
    | with_reducible exact id
    | with_reducible exact Or.inl ⟨rfl, rfl⟩
    | with_reducible exact Or.inl ⟨rfl, rfl, rfl⟩
    | with_reducible exact Or.inl ⟨rfl, rfl, rfl, rfl⟩
    | with_reducible exact Or.inl ⟨rfl, rfl, rfl, rfl, rfl⟩
    | decide
    | with_reducible apply ite_le
    | exact Nat.le_of_ble_eq_true rfl
    | with_reducible refine Moves.chg rfl ?_ ?_ ?_ ?_ ?_ ?_ ?_ ?_ ?_ ?_ ?_ ?_ ?_ ?_ ?_ ?_ ?_ ?_ ?_ ?_ ?_ ?_ ?_ ?_ ?_ ?_ ?_ ?_ ?_ ?_ ?_ ?_ ?_ ?_
    | with_reducible refine Or.inr (And.intro ?_ ?_)
    | with_reducible refine And.intro ?_ ?_)

theorem execHeartbeatReceived_moves (w : When) (h : Heartbeat) (s : State) :
    Leads [.time, .draws, .start, .events, .ports, .stations, .tasks, .forces, .sequencer, .triad, .debug, .pair, .memory, .memctl, .wards, .faults, .ledger, .keeper, .outputs, .loops, .field, .sessions, .host, .sent] s (execHeartbeatReceived w h s) := by
  have h := Moves.refl [.time, .draws, .start, .events, .ports, .stations, .tasks, .forces, .sequencer, .triad, .debug, .pair, .memory, .memctl, .wards, .faults, .ledger, .keeper, .outputs, .loops, .field, .sessions, .host, .sent] s
  have hP := @Covers.rfl [.time, .draws, .start, .events, .ports, .stations, .tasks, .forces, .sequencer, .triad, .debug, .pair, .memory, .memctl, .wards, .faults, .ledger, .keeper, .outputs, .loops, .field, .sessions, .host, .sent]
  unfold execHeartbeatReceived
  repeat' (first
    | with_reducible assumption
    | with_reducible exact Or.inl rfl
    | with_reducible exact hP.trans (by decide)
    | exact Or.inr (hP.mem (by decide))
    | exact hP.mem (by decide)
    | with_reducible refine of_pair ‹_ = (_, _)› ?_
    | with_reducible apply next_leads
    | with_reducible apply heartbeatByRole_moves
    | with_reducible apply partnerSeen_moves
    | with_reducible apply unblock_moves
    | with_reducible apply linkIn_moves
    | with_reducible apply at_moves
    | with_reducible apply ite_moves
    | with_reducible apply ite_moves_snd
    | with_reducible apply ite_leads
    | with_reducible intro _
    | split
    | with_reducible exact id
    | with_reducible exact Or.inl ⟨rfl, rfl⟩
    | with_reducible exact Or.inl ⟨rfl, rfl, rfl⟩
    | with_reducible exact Or.inl ⟨rfl, rfl, rfl, rfl⟩
    | with_reducible exact Or.inl ⟨rfl, rfl, rfl, rfl, rfl⟩
    | decide
    | with_reducible apply ite_le
    | exact Nat.le_of_ble_eq_true rfl
    | dsimp only
    | with_reducible refine Moves.chg rfl ?_ ?_ ?_ ?_ ?_ ?_ ?_ ?_ ?_ ?_ ?_ ?_ ?_ ?_ ?_ ?_ ?_ ?_ ?_ ?_ ?_ ?_ ?_ ?_ ?_ ?_ ?_ ?_ ?_ ?_ ?_ ?_ ?_ ?_
    | with_reducible refine Or.inr (And.intro ?_ ?_)
    | with_reducible refine And.intro ?_ ?_)

theorem execLinkFrameDiscard_moves (w : When) (lane : Fin 4) (e : LinkErr) (s : State) :
    Leads [.time, .start, .events, .pair, .ledger, .keeper, .sessions, .host] s (execLinkFrameDiscard w lane e s) := by
  have h := Moves.refl [.time, .start, .events, .pair, .ledger, .keeper, .sessions, .host] s
  have hP := @Covers.rfl [.time, .start, .events, .pair, .ledger, .keeper, .sessions, .host]
  unfold execLinkFrameDiscard
  repeat' (first
    | with_reducible assumption
    | with_reducible exact Or.inl rfl
    | with_reducible exact hP.trans (by decide)
    | exact Or.inr (hP.mem (by decide))
    | exact hP.mem (by decide)
    | with_reducible refine of_pair ‹_ = (_, _)› ?_
    | with_reducible apply next_leads
    | with_reducible apply ownSideFrame_moves
    | with_reducible apply modWvl_moves
    | with_reducible apply at_moves
    | with_reducible apply ite_moves
    | with_reducible apply ite_moves_snd
    | with_reducible apply ite_leads
    | with_reducible intro _
    | split
    | with_reducible exact id
    | with_reducible exact Or.inl ⟨rfl, rfl⟩
    | with_reducible exact Or.inl ⟨rfl, rfl, rfl⟩
    | with_reducible exact Or.inl ⟨rfl, rfl, rfl, rfl⟩
    | with_reducible exact Or.inl ⟨rfl, rfl, rfl, rfl, rfl⟩
    | decide
    | with_reducible apply ite_le
    | exact Nat.le_of_ble_eq_true rfl
    | dsimp only
    | with_reducible refine Moves.chg rfl ?_ ?_ ?_ ?_ ?_ ?_ ?_ ?_ ?_ ?_ ?_ ?_ ?_ ?_ ?_ ?_ ?_ ?_ ?_ ?_ ?_ ?_ ?_ ?_ ?_ ?_ ?_ ?_ ?_ ?_ ?_ ?_ ?_ ?_
    | with_reducible refine Or.inr (And.intro ?_ ?_)
    | with_reducible refine And.intro ?_ ?_)

theorem execLaneDown_moves (w : When) (lane : Fin 4) (s : State) :
    Leads [.time, .events, .pair, .faults, .ledger, .keeper, .sessions, .host] s (execLaneDown w lane s) := by
  have h := Moves.refl [.time, .events, .pair, .faults, .ledger, .keeper, .sessions, .host] s
  have hP := @Covers.rfl [.time, .events, .pair, .faults, .ledger, .keeper, .sessions, .host]
  unfold execLaneDown
  repeat' (first
    | with_reducible assumption
    | with_reducible exact Or.inl rfl
    | with_reducible exact hP.trans (by decide)
    | exact Or.inr (hP.mem (by decide))
    | exact hP.mem (by decide)
    | with_reducible refine of_pair ‹_ = (_, _)› ?_
    | with_reducible apply next_leads
    | with_reducible apply laneChange_moves
    | with_reducible apply at_moves
    | with_reducible apply ite_moves
    | with_reducible apply ite_moves_snd
    | with_reducible apply ite_leads
    | with_reducible intro _
    | split
    | with_reducible exact id
    | with_reducible exact Or.inl ⟨rfl, rfl⟩
    | with_reducible exact Or.inl ⟨rfl, rfl, rfl⟩
    | with_reducible exact Or.inl ⟨rfl, rfl, rfl, rfl⟩
    | with_reducible exact Or.inl ⟨rfl, rfl, rfl, rfl, rfl⟩
    | decide
    | with_reducible apply ite_le
    | exact Nat.le_of_ble_eq_true rfl
    | dsimp only
    | with_reducible refine Moves.chg rfl ?_ ?_ ?_ ?_ ?_ ?_ ?_ ?_ ?_ ?_ ?_ ?_ ?_ ?_ ?_ ?_ ?_ ?_ ?_ ?_ ?_ ?_ ?_ ?_ ?_ ?_ ?_ ?_ ?_ ?_ ?_ ?_ ?_ ?_
    | with_reducible refine Or.inr (And.intro ?_ ?_)
    | with_reducible refine And.intro ?_ ?_)

theorem partnerLost_moves {P : List Part} {s0 : State}  {s : State} (hP : Covers P [.start, .events, .forces, .pair, .faults, .ledger, .keeper, .sessions, .host])
    (hM : Moves P s0 s) : Moves P s0 (partnerLost s) := by
  unfold partnerLost
  repeat' (first
    | with_reducible assumption
    | with_reducible exact Or.inl rfl
    | with_reducible exact hP.trans (by decide)
    | exact Or.inr (hP.mem (by decide))
    | exact hP.mem (by decide)
    | with_reducible refine of_pair ‹_ = (_, _)› ?_
    | with_reducible apply copiesLost_moves
    | with_reducible apply loadEpoch_moves
    | with_reducible apply setRole_moves
    | with_reducible apply modWvl_moves
    | with_reducible apply ledger_moves
    | with_reducible apply report_moves
    | with_reducible apply raise_moves
    | with_reducible intro _
    | split
    | with_reducible exact id
    | with_reducible exact Or.inl ⟨rfl, rfl⟩
    | with_reducible exact Or.inl ⟨rfl, rfl, rfl⟩
    | with_reducible exact Or.inl ⟨rfl, rfl, rfl, rfl⟩
    | with_reducible exact Or.inl ⟨rfl, rfl, rfl, rfl, rfl⟩
    | decide
    | with_reducible apply ite_le
    | exact Nat.le_of_ble_eq_true rfl
    | with_reducible refine Moves.chg rfl ?_ ?_ ?_ ?_ ?_ ?_ ?_ ?_ ?_ ?_ ?_ ?_ ?_ ?_ ?_ ?_ ?_ ?_ ?_ ?_ ?_ ?_ ?_ ?_ ?_ ?_ ?_ ?_ ?_ ?_ ?_ ?_ ?_ ?_
    | with_reducible refine Or.inr (And.intro ?_ ?_)
    | with_reducible refine And.intro ?_ ?_)

theorem execHeartbeatMiss_moves (w : When) (s : State) :
    Leads [.time, .start, .events, .forces, .pair, .faults, .ledger, .keeper, .sessions, .host] s (execHeartbeatMiss w s) := by
  have h := Moves.refl [.time, .start, .events, .forces, .pair, .faults, .ledger, .keeper, .sessions, .host] s
  have hP := @Covers.rfl [.time, .start, .events, .forces, .pair, .faults, .ledger, .keeper, .sessions, .host]
  unfold execHeartbeatMiss
  repeat' (first
    | with_reducible assumption
    | with_reducible exact Or.inl rfl
    | with_reducible exact hP.trans (by decide)
    | exact Or.inr (hP.mem (by decide))
    | exact hP.mem (by decide)
    | with_reducible refine of_pair ‹_ = (_, _)› ?_
    | with_reducible apply next_leads
    | with_reducible apply partnerLost_moves
    | with_reducible apply modWvl_moves
    | with_reducible apply at_moves
    | with_reducible apply ite_moves
    | with_reducible apply ite_moves_snd
    | with_reducible apply ite_leads
    | with_reducible intro _
    | split
    | with_reducible exact id
    | with_reducible exact Or.inl ⟨rfl, rfl⟩
    | with_reducible exact Or.inl ⟨rfl, rfl, rfl⟩
    | with_reducible exact Or.inl ⟨rfl, rfl, rfl, rfl⟩
    | with_reducible exact Or.inl ⟨rfl, rfl, rfl, rfl, rfl⟩
    | decide
    | with_reducible apply ite_le
    | exact Nat.le_of_ble_eq_true rfl
    | dsimp only
    | with_reducible refine Moves.chg rfl ?_ ?_ ?_ ?_ ?_ ?_ ?_ ?_ ?_ ?_ ?_ ?_ ?_ ?_ ?_ ?_ ?_ ?_ ?_ ?_ ?_ ?_ ?_ ?_ ?_ ?_ ?_ ?_ ?_ ?_ ?_ ?_ ?_ ?_
    | with_reducible refine Or.inr (And.intro ?_ ?_)
    | with_reducible refine And.intro ?_ ?_)

theorem execCopyReceived_moves (w : When) (h : LinkHdr) (c : CopyMsg) (s : State) :
    Leads [.time, .draws, .start, .events, .tasks, .forces, .pair, .memory, .memctl, .wards, .faults, .ledger, .keeper, .outputs, .loops, .field, .sessions, .host, .sent] s (execCopyReceived w h c s) := by
  have h := Moves.refl [.time, .draws, .start, .events, .tasks, .forces, .pair, .memory, .memctl, .wards, .faults, .ledger, .keeper, .outputs, .loops, .field, .sessions, .host, .sent] s
  have hP := @Covers.rfl [.time, .draws, .start, .events, .tasks, .forces, .pair, .memory, .memctl, .wards, .faults, .ledger, .keeper, .outputs, .loops, .field, .sessions, .host, .sent]
  unfold execCopyReceived
  repeat' (first
    | with_reducible assumption
    | with_reducible exact Or.inl rfl
    | with_reducible exact hP.trans (by decide)
    | exact Or.inr (hP.mem (by decide))
    | exact hP.mem (by decide)
    | with_reducible refine of_pair ‹_ = (_, _)› ?_
    | with_reducible apply next_leads
    | with_reducible apply linkIn_moves
    | with_reducible apply copyTaken_moves
    | with_reducible apply at_moves
    | with_reducible intro _
    | split
    | with_reducible exact id
    | with_reducible exact Or.inl ⟨rfl, rfl⟩
    | with_reducible exact Or.inl ⟨rfl, rfl, rfl⟩
    | with_reducible exact Or.inl ⟨rfl, rfl, rfl, rfl⟩
    | with_reducible exact Or.inl ⟨rfl, rfl, rfl, rfl, rfl⟩
    | decide
    | with_reducible apply ite_le
    | exact Nat.le_of_ble_eq_true rfl
    | dsimp only
    | with_reducible refine Moves.chg rfl ?_ ?_ ?_ ?_ ?_ ?_ ?_ ?_ ?_ ?_ ?_ ?_ ?_ ?_ ?_ ?_ ?_ ?_ ?_ ?_ ?_ ?_ ?_ ?_ ?_ ?_ ?_ ?_ ?_ ?_ ?_ ?_ ?_ ?_
    | with_reducible refine Or.inr (And.intro ?_ ?_)
    | with_reducible refine And.intro ?_ ?_)

theorem execReseedSend_moves (w : When) (task : Fin 16) (lines : Nat) (s : State) :
    Leads [.time, .events, .budgets, .pair, .memctl, .wards, .faults, .ledger, .keeper, .sessions, .host, .sent] s (execReseedSend w task lines s) := by
  have h := Moves.refl [.time, .events, .budgets, .pair, .memctl, .wards, .faults, .ledger, .keeper, .sessions, .host, .sent] s
  have hP := @Covers.rfl [.time, .events, .budgets, .pair, .memctl, .wards, .faults, .ledger, .keeper, .sessions, .host, .sent]
  unfold execReseedSend
  repeat' (first
    | with_reducible assumption
    | with_reducible exact Or.inl rfl
    | with_reducible exact hP.trans (by decide)
    | exact Or.inr (hP.mem (by decide))
    | exact hP.mem (by decide)
    | with_reducible refine of_pair ‹_ = (_, _)› ?_
    | with_reducible apply next_leads
    | with_reducible apply reseedStep_moves
    | with_reducible apply at_moves
    | with_reducible intro _
    | split
    | with_reducible exact id
    | with_reducible exact Or.inl ⟨rfl, rfl⟩
    | with_reducible exact Or.inl ⟨rfl, rfl, rfl⟩
    | with_reducible exact Or.inl ⟨rfl, rfl, rfl, rfl⟩
    | with_reducible exact Or.inl ⟨rfl, rfl, rfl, rfl, rfl⟩
    | decide
    | with_reducible apply ite_le
    | exact Nat.le_of_ble_eq_true rfl
    | dsimp only
    | with_reducible refine Moves.chg rfl ?_ ?_ ?_ ?_ ?_ ?_ ?_ ?_ ?_ ?_ ?_ ?_ ?_ ?_ ?_ ?_ ?_ ?_ ?_ ?_ ?_ ?_ ?_ ?_ ?_ ?_ ?_ ?_ ?_ ?_ ?_ ?_ ?_ ?_
    | with_reducible refine Or.inr (And.intro ?_ ?_)
    | with_reducible refine And.intro ?_ ?_)

theorem execReseedReceived_moves (w : When) (h : LinkHdr) (m : ReseedMsg) (s : State) :
    Leads [.time, .draws, .start, .events, .tasks, .forces, .pair, .memory, .memctl, .wards, .faults, .ledger, .keeper, .outputs, .loops, .field, .sessions, .host, .sent] s (execReseedReceived w h m s) := by
  have h := Moves.refl [.time, .draws, .start, .events, .tasks, .forces, .pair, .memory, .memctl, .wards, .faults, .ledger, .keeper, .outputs, .loops, .field, .sessions, .host, .sent] s
  have hP := @Covers.rfl [.time, .draws, .start, .events, .tasks, .forces, .pair, .memory, .memctl, .wards, .faults, .ledger, .keeper, .outputs, .loops, .field, .sessions, .host, .sent]
  unfold execReseedReceived
  repeat' (first
    | with_reducible assumption
    | with_reducible exact Or.inl rfl
    | with_reducible exact hP.trans (by decide)
    | exact Or.inr (hP.mem (by decide))
    | exact hP.mem (by decide)
    | with_reducible refine of_pair ‹_ = (_, _)› ?_
    | with_reducible apply next_leads
    | with_reducible apply linkIn_moves
    | with_reducible apply reseedTaken_moves
    | with_reducible apply at_moves
    | with_reducible intro _
    | split
    | with_reducible exact id
    | with_reducible exact Or.inl ⟨rfl, rfl⟩
    | with_reducible exact Or.inl ⟨rfl, rfl, rfl⟩
    | with_reducible exact Or.inl ⟨rfl, rfl, rfl, rfl⟩
    | with_reducible exact Or.inl ⟨rfl, rfl, rfl, rfl, rfl⟩
    | decide
    | with_reducible apply ite_le
    | exact Nat.le_of_ble_eq_true rfl
    | dsimp only
    | with_reducible refine Moves.chg rfl ?_ ?_ ?_ ?_ ?_ ?_ ?_ ?_ ?_ ?_ ?_ ?_ ?_ ?_ ?_ ?_ ?_ ?_ ?_ ?_ ?_ ?_ ?_ ?_ ?_ ?_ ?_ ?_ ?_ ?_ ?_ ?_ ?_ ?_
    | with_reducible refine Or.inr (And.intro ?_ ?_)
    | with_reducible refine And.intro ?_ ?_)

theorem prepareTake_moves {P : List Part} {s0 : State} (count cause : Nat) {s : State} (hP : Covers P [.pair])
    (hM : Moves P s0 s) : Moves P s0 (prepareTake count cause s) := by
  unfold prepareTake
  repeat' (first
    | with_reducible assumption
    | with_reducible exact Or.inl rfl
    | with_reducible exact hP.trans (by decide)
    | exact Or.inr (hP.mem (by decide))
    | exact hP.mem (by decide)
    | with_reducible refine of_pair ‹_ = (_, _)› ?_
    | with_reducible apply modWvl_moves
    | with_reducible apply ite_moves
    | with_reducible apply ite_moves_snd
    | with_reducible intro _
    | split
    | with_reducible exact id
    | with_reducible exact Or.inl ⟨rfl, rfl⟩
    | with_reducible exact Or.inl ⟨rfl, rfl, rfl⟩
    | with_reducible exact Or.inl ⟨rfl, rfl, rfl, rfl⟩
    | with_reducible exact Or.inl ⟨rfl, rfl, rfl, rfl, rfl⟩
    | decide
    | with_reducible apply ite_le
    | exact Nat.le_of_ble_eq_true rfl
    | with_reducible refine Moves.chg rfl ?_ ?_ ?_ ?_ ?_ ?_ ?_ ?_ ?_ ?_ ?_ ?_ ?_ ?_ ?_ ?_ ?_ ?_ ?_ ?_ ?_ ?_ ?_ ?_ ?_ ?_ ?_ ?_ ?_ ?_ ?_ ?_ ?_ ?_
    | with_reducible refine Or.inr (And.intro ?_ ?_)
    | with_reducible refine And.intro ?_ ?_)

theorem execRelinquishReceived_moves (w : When) (h : LinkHdr) (hstrobe : Nat) (s : State) :
    Leads [.time, .start, .events, .pair, .faults, .ledger, .keeper, .outputs, .loops, .field, .sessions, .host, .sent] s (execRelinquishReceived w h hstrobe s) := by
  have h := Moves.refl [.time, .start, .events, .pair, .faults, .ledger, .keeper, .outputs, .loops, .field, .sessions, .host, .sent] s
  have hP := @Covers.rfl [.time, .start, .events, .pair, .faults, .ledger, .keeper, .outputs, .loops, .field, .sessions, .host, .sent]
  unfold execRelinquishReceived
  repeat' (first
    | with_reducible assumption
    | with_reducible exact Or.inl rfl
    | with_reducible exact hP.trans (by decide)
    | exact Or.inr (hP.mem (by decide))
    | exact hP.mem (by decide)
    | with_reducible refine of_pair ‹_ = (_, _)› ?_
    | with_reducible apply next_leads
    | with_reducible apply prepareTake_moves
    | with_reducible apply linkIn_moves
    | with_reducible apply at_moves
    | with_reducible intro _
    | split
    | with_reducible exact id
    | with_reducible exact Or.inl ⟨rfl, rfl⟩
    | with_reducible exact Or.inl ⟨rfl, rfl, rfl⟩
    | with_reducible exact Or.inl ⟨rfl, rfl, rfl, rfl⟩
    | with_reducible exact Or.inl ⟨rfl, rfl, rfl, rfl, rfl⟩
    | decide
    | with_reducible apply ite_le
    | exact Nat.le_of_ble_eq_true rfl
    | dsimp only
    | with_reducible refine Moves.chg rfl ?_ ?_ ?_ ?_ ?_ ?_ ?_ ?_ ?_ ?_ ?_ ?_ ?_ ?_ ?_ ?_ ?_ ?_ ?_ ?_ ?_ ?_ ?_ ?_ ?_ ?_ ?_ ?_ ?_ ?_ ?_ ?_ ?_ ?_
    | with_reducible refine Or.inr (And.intro ?_ ?_)
    | with_reducible refine And.intro ?_ ?_)

theorem execHandoverReceived_moves (w : When) (h : LinkHdr) (m : HandoverMsg) (s : State) :
    Leads [.time, .start, .events, .pair, .faults, .ledger, .keeper, .outputs, .loops, .field, .sessions, .host, .sent] s (execHandoverReceived w h m s) := by
  have h := Moves.refl [.time, .start, .events, .pair, .faults, .ledger, .keeper, .outputs, .loops, .field, .sessions, .host, .sent] s
  have hP := @Covers.rfl [.time, .start, .events, .pair, .faults, .ledger, .keeper, .outputs, .loops, .field, .sessions, .host, .sent]
  unfold execHandoverReceived
  repeat' (first
    | with_reducible assumption
    | with_reducible exact Or.inl rfl
    | with_reducible exact hP.trans (by decide)
    | exact Or.inr (hP.mem (by decide))
    | exact hP.mem (by decide)
    | with_reducible refine of_pair ‹_ = (_, _)› ?_
    | with_reducible apply next_leads
    | with_reducible apply prepareTake_moves
    | with_reducible apply linkIn_moves
    | with_reducible apply linkSend_moves
    | with_reducible apply at_moves
    | with_reducible apply ite_moves
    | with_reducible apply ite_moves_snd
    | with_reducible apply ite_leads
    | with_reducible intro _
    | split
    | with_reducible exact id
    | with_reducible exact Or.inl ⟨rfl, rfl⟩
    | with_reducible exact Or.inl ⟨rfl, rfl, rfl⟩
    | with_reducible exact Or.inl ⟨rfl, rfl, rfl, rfl⟩
    | with_reducible exact Or.inl ⟨rfl, rfl, rfl, rfl, rfl⟩
    | decide
    | with_reducible apply ite_le
    | exact Nat.le_of_ble_eq_true rfl
    | dsimp only
    | with_reducible refine Moves.chg rfl ?_ ?_ ?_ ?_ ?_ ?_ ?_ ?_ ?_ ?_ ?_ ?_ ?_ ?_ ?_ ?_ ?_ ?_ ?_ ?_ ?_ ?_ ?_ ?_ ?_ ?_ ?_ ?_ ?_ ?_ ?_ ?_ ?_ ?_
    | with_reducible refine Or.inr (And.intro ?_ ?_)
    | with_reducible refine And.intro ?_ ?_)

theorem execHandoverAnnounce_moves (w : When) (s : State) :
    Leads [.time, .pair, .sessions, .host, .sent] s (execHandoverAnnounce w s) := by
  have h := Moves.refl [.time, .pair, .sessions, .host, .sent] s
  have hP := @Covers.rfl [.time, .pair, .sessions, .host, .sent]
  unfold execHandoverAnnounce
  repeat' (first
    | with_reducible assumption
    | with_reducible exact Or.inl rfl
    | with_reducible exact hP.trans (by decide)
    | exact Or.inr (hP.mem (by decide))
    | exact hP.mem (by decide)
    | with_reducible refine of_pair ‹_ = (_, _)› ?_
    | with_reducible apply next_leads
    | with_reducible apply modWvl_moves
    | with_reducible apply linkSend_moves
    | with_reducible apply reply_moves
    | with_reducible apply answerTo_moves
    | with_reducible apply at_moves
    | with_reducible apply ite_moves
    | with_reducible apply ite_moves_snd
    | with_reducible apply ite_leads
    | with_reducible intro _
    | split
    | with_reducible exact id
    | with_reducible exact Or.inl ⟨rfl, rfl⟩
    | with_reducible exact Or.inl ⟨rfl, rfl, rfl⟩
    | with_reducible exact Or.inl ⟨rfl, rfl, rfl, rfl⟩
    | with_reducible exact Or.inl ⟨rfl, rfl, rfl, rfl, rfl⟩
    | decide
    | with_reducible apply ite_le
    | exact Nat.le_of_ble_eq_true rfl
    | dsimp only
    | with_reducible refine Moves.chg rfl ?_ ?_ ?_ ?_ ?_ ?_ ?_ ?_ ?_ ?_ ?_ ?_ ?_ ?_ ?_ ?_ ?_ ?_ ?_ ?_ ?_ ?_ ?_ ?_ ?_ ?_ ?_ ?_ ?_ ?_ ?_ ?_ ?_ ?_
    | with_reducible refine Or.inr (And.intro ?_ ?_)
    | with_reducible refine And.intro ?_ ?_)

theorem execHandoverAckReceived_moves (w : When) (h : LinkHdr) (hstrobe : Nat) (s : State) :
    Leads [.time, .start, .events, .pair, .faults, .ledger, .keeper, .outputs, .loops, .field, .sessions, .host, .sent] s (execHandoverAckReceived w h hstrobe s) := by
  have h := Moves.refl [.time, .start, .events, .pair, .faults, .ledger, .keeper, .outputs, .loops, .field, .sessions, .host, .sent] s
  have hP := @Covers.rfl [.time, .start, .events, .pair, .faults, .ledger, .keeper, .outputs, .loops, .field, .sessions, .host, .sent]
  unfold execHandoverAckReceived
  repeat' (first
    | with_reducible assumption
    | with_reducible exact Or.inl rfl
    | with_reducible exact hP.trans (by decide)
    | exact Or.inr (hP.mem (by decide))
    | exact hP.mem (by decide)
    | with_reducible refine of_pair ‹_ = (_, _)› ?_
    | with_reducible apply next_leads
    | with_reducible apply linkIn_moves
    | with_reducible apply modWvl_moves
    | with_reducible apply at_moves
    | with_reducible apply ite_moves
    | with_reducible apply ite_moves_snd
    | with_reducible apply ite_leads
    | with_reducible intro _
    | split
    | with_reducible exact id
    | with_reducible exact Or.inl ⟨rfl, rfl⟩
    | with_reducible exact Or.inl ⟨rfl, rfl, rfl⟩
    | with_reducible exact Or.inl ⟨rfl, rfl, rfl, rfl⟩
    | with_reducible exact Or.inl ⟨rfl, rfl, rfl, rfl, rfl⟩
    | decide
    | with_reducible apply ite_le
    | exact Nat.le_of_ble_eq_true rfl
    | dsimp only
    | with_reducible refine Moves.chg rfl ?_ ?_ ?_ ?_ ?_ ?_ ?_ ?_ ?_ ?_ ?_ ?_ ?_ ?_ ?_ ?_ ?_ ?_ ?_ ?_ ?_ ?_ ?_ ?_ ?_ ?_ ?_ ?_ ?_ ?_ ?_ ?_ ?_ ?_
    | with_reducible refine Or.inr (And.intro ?_ ?_)
    | with_reducible refine And.intro ?_ ?_)

theorem restartAtH_moves {P : List Part} {s0 : State} (now : Bool) {s : State} (hP : Covers P [.start])
    (hM : Moves P s0 s) : Moves P s0 (restartAtH now s) := by
  unfold restartAtH
  repeat' (first
    | with_reducible assumption
    | with_reducible exact Or.inl rfl
    | with_reducible exact hP.trans (by decide)
    | exact Or.inr (hP.mem (by decide))
    | exact hP.mem (by decide)
    | with_reducible refine of_pair ‹_ = (_, _)› ?_
    | with_reducible apply ite_moves
    | with_reducible apply ite_moves_snd
    | with_reducible intro _
    | split
    | with_reducible exact id
    | with_reducible exact Or.inl ⟨rfl, rfl⟩
    | with_reducible exact Or.inl ⟨rfl, rfl, rfl⟩
    | with_reducible exact Or.inl ⟨rfl, rfl, rfl, rfl⟩
    | with_reducible exact Or.inl ⟨rfl, rfl, rfl, rfl, rfl⟩
    | decide
    | with_reducible apply ite_le
    | exact Nat.le_of_ble_eq_true rfl
    | with_reducible refine Moves.chg rfl ?_ ?_ ?_ ?_ ?_ ?_ ?_ ?_ ?_ ?_ ?_ ?_ ?_ ?_ ?_ ?_ ?_ ?_ ?_ ?_ ?_ ?_ ?_ ?_ ?_ ?_ ?_ ?_ ?_ ?_ ?_ ?_ ?_ ?_
    | with_reducible refine Or.inr (And.intro ?_ ?_)
    | with_reducible refine And.intro ?_ ?_)

theorem swapAtChange_moves {P : List Part} {s0 : State}  {s : State} (hP : Covers P [.draws, .events, .ports, .stations, .tasks, .forces, .sequencer, .memory, .memctl, .wards, .faults, .ledger, .keeper, .loader, .sessions, .host, .config, .sent])
    (hM : Moves P s0 s) : Moves P s0 (swapAtChange s) := by
  unfold swapAtChange
  repeat' (first
    | with_reducible assumption
    | with_reducible exact Or.inl rfl
    | with_reducible exact hP.trans (by decide)
    | exact Or.inr (hP.mem (by decide))
    | exact hP.mem (by decide)
    | with_reducible refine of_pair ‹_ = (_, _)› ?_
    | with_reducible apply startTask_moves
    | with_reducible apply finishSwaps_moves
    | with_reducible apply foldl_moves
    | with_reducible apply foldl_moves_snd
    | with_reducible intro _
    | split
    | with_reducible exact id
    | with_reducible exact Or.inl ⟨rfl, rfl⟩
    | with_reducible exact Or.inl ⟨rfl, rfl, rfl⟩
    | with_reducible exact Or.inl ⟨rfl, rfl, rfl, rfl⟩
    | with_reducible exact Or.inl ⟨rfl, rfl, rfl, rfl, rfl⟩
    | decide
    | with_reducible apply ite_le
    | exact Nat.le_of_ble_eq_true rfl
    | with_reducible refine Moves.chg rfl ?_ ?_ ?_ ?_ ?_ ?_ ?_ ?_ ?_ ?_ ?_ ?_ ?_ ?_ ?_ ?_ ?_ ?_ ?_ ?_ ?_ ?_ ?_ ?_ ?_ ?_ ?_ ?_ ?_ ?_ ?_ ?_ ?_ ?_
    | with_reducible refine Or.inr (And.intro ?_ ?_)
    | with_reducible refine And.intro ?_ ?_)

theorem execHandoverStrobe_moves (w : When) (s : State) :
    Leads [.time, .draws, .start, .events, .pulses, .ports, .stations, .tasks, .forces, .sequencer, .pair, .memory, .memctl, .wards, .faults, .ledger, .keeper, .loader, .outputs, .loops, .field, .sessions, .host, .config, .sent] s (execHandoverStrobe w s) := by
  have h := Moves.refl [.time, .draws, .start, .events, .pulses, .ports, .stations, .tasks, .forces, .sequencer, .pair, .memory, .memctl, .wards, .faults, .ledger, .keeper, .loader, .outputs, .loops, .field, .sessions, .host, .config, .sent] s
  have hP := @Covers.rfl [.time, .draws, .start, .events, .pulses, .ports, .stations, .tasks, .forces, .sequencer, .pair, .memory, .memctl, .wards, .faults, .ledger, .keeper, .loader, .outputs, .loops, .field, .sessions, .host, .config, .sent]
  unfold execHandoverStrobe
  repeat' (first
    | with_reducible assumption
    | with_reducible exact Or.inl rfl
    | with_reducible exact hP.trans (by decide)
    | exact Or.inr (hP.mem (by decide))
    | exact hP.mem (by decide)
    | with_reducible refine of_pair ‹_ = (_, _)› ?_
    | with_reducible apply next_leads
    | with_reducible apply swapAtChange_moves
    | with_reducible apply restartAtH_moves
    | with_reducible apply leavePrimary_moves
    | with_reducible apply modWvl_moves
    | with_reducible apply ledger_moves
    | with_reducible apply raise_moves
    | with_reducible apply at_moves
    | with_reducible apply when_moves
    | with_reducible apply ite_moves
    | with_reducible apply ite_moves_snd
    | with_reducible apply ite_leads
    | with_reducible intro _
    | split
    | with_reducible exact id
    | with_reducible exact Or.inl ⟨rfl, rfl⟩
    | with_reducible exact Or.inl ⟨rfl, rfl, rfl⟩
    | with_reducible exact Or.inl ⟨rfl, rfl, rfl, rfl⟩
    | with_reducible exact Or.inl ⟨rfl, rfl, rfl, rfl, rfl⟩
    | decide
    | with_reducible apply ite_le
    | exact Nat.le_of_ble_eq_true rfl
    | dsimp only
    | with_reducible refine Moves.chg rfl ?_ ?_ ?_ ?_ ?_ ?_ ?_ ?_ ?_ ?_ ?_ ?_ ?_ ?_ ?_ ?_ ?_ ?_ ?_ ?_ ?_ ?_ ?_ ?_ ?_ ?_ ?_ ?_ ?_ ?_ ?_ ?_ ?_ ?_
    | with_reducible refine Or.inr (And.intro ?_ ?_)
    | with_reducible refine And.intro ?_ ?_)

theorem execYieldToPartner_moves (w : When) (s : State) :
    Leads [.time, .draws, .start, .events, .pulses, .ports, .stations, .tasks, .forces, .sequencer, .pair, .memory, .memctl, .wards, .faults, .ledger, .keeper, .loader, .outputs, .loops, .field, .sessions, .host, .config, .sent] s (execYieldToPartner w s) := by
  have h := Moves.refl [.time, .draws, .start, .events, .pulses, .ports, .stations, .tasks, .forces, .sequencer, .pair, .memory, .memctl, .wards, .faults, .ledger, .keeper, .loader, .outputs, .loops, .field, .sessions, .host, .config, .sent] s
  have hP := @Covers.rfl [.time, .draws, .start, .events, .pulses, .ports, .stations, .tasks, .forces, .sequencer, .pair, .memory, .memctl, .wards, .faults, .ledger, .keeper, .loader, .outputs, .loops, .field, .sessions, .host, .config, .sent]
  unfold execYieldToPartner
  repeat' (first
    | with_reducible assumption
    | with_reducible exact Or.inl rfl
    | with_reducible exact hP.trans (by decide)
    | exact Or.inr (hP.mem (by decide))
    | exact hP.mem (by decide)
    | with_reducible refine of_pair ‹_ = (_, _)› ?_
    | with_reducible apply next_leads
    | with_reducible apply swapAtChange_moves
    | with_reducible apply restartAtH_moves
    | with_reducible apply leavePrimary_moves
    | with_reducible apply at_moves
    | with_reducible apply ite_moves
    | with_reducible apply ite_moves_snd
    | with_reducible apply ite_leads
    | with_reducible intro _
    | split
    | with_reducible exact id
    | with_reducible exact Or.inl ⟨rfl, rfl⟩
    | with_reducible exact Or.inl ⟨rfl, rfl, rfl⟩
    | with_reducible exact Or.inl ⟨rfl, rfl, rfl, rfl⟩
    | with_reducible exact Or.inl ⟨rfl, rfl, rfl, rfl, rfl⟩
    | decide
    | with_reducible apply ite_le
    | exact Nat.le_of_ble_eq_true rfl
    | dsimp only
    | with_reducible refine Moves.chg rfl ?_ ?_ ?_ ?_ ?_ ?_ ?_ ?_ ?_ ?_ ?_ ?_ ?_ ?_ ?_ ?_ ?_ ?_ ?_ ?_ ?_ ?_ ?_ ?_ ?_ ?_ ?_ ?_ ?_ ?_ ?_ ?_ ?_ ?_
    | with_reducible refine Or.inr (And.intro ?_ ?_)
    | with_reducible refine And.intro ?_ ?_)

theorem execTakeover_moves (w : When) (s : State) :
    Leads [.time, .draws, .start, .events, .delays, .ports, .stations, .tasks, .forces, .sequencer, .triad, .debug, .pair, .memory, .memctl, .wards, .faults, .ledger, .keeper, .loader, .outputs, .loops, .field, .sessions, .host, .config, .sent] s (execTakeover w s) := by
  have h := Moves.refl [.time, .draws, .start, .events, .delays, .ports, .stations, .tasks, .forces, .sequencer, .triad, .debug, .pair, .memory, .memctl, .wards, .faults, .ledger, .keeper, .loader, .outputs, .loops, .field, .sessions, .host, .config, .sent] s
  have hP := @Covers.rfl [.time, .draws, .start, .events, .delays, .ports, .stations, .tasks, .forces, .sequencer, .triad, .debug, .pair, .memory, .memctl, .wards, .faults, .ledger, .keeper, .loader, .outputs, .loops, .field, .sessions, .host, .config, .sent]
  unfold execTakeover
  repeat' (first
    | with_reducible assumption
    | with_reducible exact Or.inl rfl
    | with_reducible exact hP.trans (by decide)
    | exact Or.inr (hP.mem (by decide))
    | exact hP.mem (by decide)
    | with_reducible refine of_pair ‹_ = (_, _)› ?_
    | with_reducible apply next_leads
    | with_reducible apply takeOver_moves
    | with_reducible apply at_moves
    | with_reducible apply ite_moves
    | with_reducible apply ite_moves_snd
    | with_reducible apply ite_leads
    | with_reducible intro _
    | split
    | with_reducible exact id
    | with_reducible exact Or.inl ⟨rfl, rfl⟩
    | with_reducible exact Or.inl ⟨rfl, rfl, rfl⟩
    | with_reducible exact Or.inl ⟨rfl, rfl, rfl, rfl⟩
    | with_reducible exact Or.inl ⟨rfl, rfl, rfl, rfl, rfl⟩
    | decide
    | with_reducible apply ite_le
    | exact Nat.le_of_ble_eq_true rfl
    | dsimp only
    | with_reducible refine Moves.chg rfl ?_ ?_ ?_ ?_ ?_ ?_ ?_ ?_ ?_ ?_ ?_ ?_ ?_ ?_ ?_ ?_ ?_ ?_ ?_ ?_ ?_ ?_ ?_ ?_ ?_ ?_ ?_ ?_ ?_ ?_ ?_ ?_ ?_ ?_
    | with_reducible refine Or.inr (And.intro ?_ ?_)
    | with_reducible refine And.intro ?_ ?_)

theorem wvlHandoverAct_moves {P : List Part} {s0 : State} (who : Agent) {s : State} (hP : Covers P [.events, .pair, .sessions, .host, .sent])
    (hM : Moves P s0 s) : Moves P s0 (wvlHandoverAct who s) := by
  unfold wvlHandoverAct
  repeat' (first
    | with_reducible assumption
    | with_reducible exact Or.inl rfl
    | with_reducible exact hP.trans (by decide)
    | exact Or.inr (hP.mem (by decide))
    | exact hP.mem (by decide)
    | with_reducible refine of_pair ‹_ = (_, _)› ?_
    | with_reducible apply requestHandover_moves
    | with_reducible apply ite_moves
    | with_reducible apply ite_moves_snd
    | with_reducible intro _
    | split
    | with_reducible exact id
    | with_reducible exact Or.inl ⟨rfl, rfl⟩
    | with_reducible exact Or.inl ⟨rfl, rfl, rfl⟩
    | with_reducible exact Or.inl ⟨rfl, rfl, rfl, rfl⟩
    | with_reducible exact Or.inl ⟨rfl, rfl, rfl, rfl, rfl⟩
    | decide
    | with_reducible apply ite_le
    | exact Nat.le_of_ble_eq_true rfl
    | with_reducible refine Moves.chg rfl ?_ ?_ ?_ ?_ ?_ ?_ ?_ ?_ ?_ ?_ ?_ ?_ ?_ ?_ ?_ ?_ ?_ ?_ ?_ ?_ ?_ ?_ ?_ ?_ ?_ ?_ ?_ ?_ ?_ ?_ ?_ ?_ ?_ ?_
    | with_reducible refine Or.inr (And.intro ?_ ?_)
    | with_reducible refine And.intro ?_ ?_)

theorem pairRefuse_moves {P : List Part} {s0 : State} (ses : Fin 8) (code : Nat) {s : State} (hP : Covers P [.sessions, .host, .sent])
    (hM : Moves P s0 s) : Moves P s0 (pairRefuse ses code s) := by
  unfold pairRefuse
  repeat' (first
    | with_reducible assumption
    | with_reducible exact Or.inl rfl
    | with_reducible exact hP.trans (by decide)
    | exact Or.inr (hP.mem (by decide))
    | exact hP.mem (by decide)
    | with_reducible refine of_pair ‹_ = (_, _)› ?_
    | with_reducible apply reply_moves
    | with_reducible intro _
    | split
    | with_reducible exact id
    | with_reducible exact Or.inl ⟨rfl, rfl⟩
    | with_reducible exact Or.inl ⟨rfl, rfl, rfl⟩
    | with_reducible exact Or.inl ⟨rfl, rfl, rfl, rfl⟩
    | with_reducible exact Or.inl ⟨rfl, rfl, rfl, rfl, rfl⟩
    | decide
    | with_reducible apply ite_le
    | exact Nat.le_of_ble_eq_true rfl
    | with_reducible refine Moves.chg rfl ?_ ?_ ?_ ?_ ?_ ?_ ?_ ?_ ?_ ?_ ?_ ?_ ?_ ?_ ?_ ?_ ?_ ?_ ?_ ?_ ?_ ?_ ?_ ?_ ?_ ?_ ?_ ?_ ?_ ?_ ?_ ?_ ?_ ?_
    | with_reducible refine Or.inr (And.intro ?_ ?_)
    | with_reducible refine And.intro ?_ ?_)

theorem pairAccept_moves {P : List Part} {s0 : State} (action : Nat) {s : State} (hP : Covers P [.events, .ledger, .keeper, .sessions, .host])
    (hM : Moves P s0 s) : Moves P s0 (pairAccept action s) := by
  unfold pairAccept
  repeat' (first
    | with_reducible assumption
    | with_reducible exact Or.inl rfl
    | with_reducible exact hP.trans (by decide)
    | exact Or.inr (hP.mem (by decide))
    | exact hP.mem (by decide)
    | with_reducible refine of_pair ‹_ = (_, _)› ?_
    | with_reducible apply ledger_moves
    | with_reducible intro _
    | split
    | with_reducible exact id
    | with_reducible exact Or.inl ⟨rfl, rfl⟩
    | with_reducible exact Or.inl ⟨rfl, rfl, rfl⟩
    | with_reducible exact Or.inl ⟨rfl, rfl, rfl, rfl⟩
    | with_reducible exact Or.inl ⟨rfl, rfl, rfl, rfl, rfl⟩
    | decide
    | with_reducible apply ite_le
    | exact Nat.le_of_ble_eq_true rfl
    | with_reducible refine Moves.chg rfl ?_ ?_ ?_ ?_ ?_ ?_ ?_ ?_ ?_ ?_ ?_ ?_ ?_ ?_ ?_ ?_ ?_ ?_ ?_ ?_ ?_ ?_ ?_ ?_ ?_ ?_ ?_ ?_ ?_ ?_ ?_ ?_ ?_ ?_
    | with_reducible refine Or.inr (And.intro ?_ ?_)
    | with_reducible refine And.intro ?_ ?_)

theorem execPairHandover_moves (w : When) (ses : Fin 8) (s : State) :
    Leads [.time, .events, .pair, .ledger, .keeper, .loader, .firmware, .sessions, .access, .host, .sent] s (execPairHandover w ses s) := by
  have h := Moves.refl [.time, .events, .pair, .ledger, .keeper, .loader, .firmware, .sessions, .access, .host, .sent] s
  have hP := @Covers.rfl [.time, .events, .pair, .ledger, .keeper, .loader, .firmware, .sessions, .access, .host, .sent]
  unfold execPairHandover
  repeat' (first
    | with_reducible assumption
    | with_reducible exact Or.inl rfl
    | with_reducible exact hP.trans (by decide)
    | exact Or.inr (hP.mem (by decide))
    | exact hP.mem (by decide)
    | with_reducible refine of_pair ‹_ = (_, _)› ?_
    | with_reducible apply next_leads
    | with_reducible apply pairAccept_moves
    | with_reducible apply pairRefuse_moves
    | with_reducible apply requestHandover_moves
    | with_reducible apply withSession_moves
    | with_reducible apply defer_moves
    | with_reducible apply at_moves
    | with_reducible apply ite_moves
    | with_reducible apply ite_moves_snd
    | with_reducible apply ite_leads
    | with_reducible intro _
    | split
    | with_reducible exact id
    | with_reducible exact Or.inl ⟨rfl, rfl⟩
    | with_reducible exact Or.inl ⟨rfl, rfl, rfl⟩
    | with_reducible exact Or.inl ⟨rfl, rfl, rfl, rfl⟩
    | with_reducible exact Or.inl ⟨rfl, rfl, rfl, rfl, rfl⟩
    | decide
    | with_reducible apply ite_le
    | exact Nat.le_of_ble_eq_true rfl
    | dsimp only
    | with_reducible refine Moves.chg rfl ?_ ?_ ?_ ?_ ?_ ?_ ?_ ?_ ?_ ?_ ?_ ?_ ?_ ?_ ?_ ?_ ?_ ?_ ?_ ?_ ?_ ?_ ?_ ?_ ?_ ?_ ?_ ?_ ?_ ?_ ?_ ?_ ?_ ?_
    | with_reducible refine Or.inr (And.intro ?_ ?_)
    | with_reducible refine And.intro ?_ ?_)

theorem execPairTakeover_moves (w : When) (ses : Fin 8) (s : State) :
    Leads [.time, .events, .pair, .ledger, .keeper, .loader, .firmware, .sessions, .access, .host, .sent] s (execPairTakeover w ses s) := by
  have h := Moves.refl [.time, .events, .pair, .ledger, .keeper, .loader, .firmware, .sessions, .access, .host, .sent] s
  have hP := @Covers.rfl [.time, .events, .pair, .ledger, .keeper, .loader, .firmware, .sessions, .access, .host, .sent]
  unfold execPairTakeover
  repeat' (first
    | with_reducible assumption
    | with_reducible exact Or.inl rfl
    | with_reducible exact hP.trans (by decide)
    | exact Or.inr (hP.mem (by decide))
    | exact hP.mem (by decide)
    | with_reducible refine of_pair ‹_ = (_, _)› ?_
    | with_reducible apply next_leads
    | with_reducible apply pairAccept_moves
    | with_reducible apply pairRefuse_moves
    | with_reducible apply prepareTake_moves
    | with_reducible apply withSession_moves
    | with_reducible apply reply_moves
    | with_reducible apply at_moves
    | with_reducible apply ite_moves
    | with_reducible apply ite_moves_snd
    | with_reducible apply ite_leads
    | with_reducible intro _
    | split
    | with_reducible exact id
    | with_reducible exact Or.inl ⟨rfl, rfl⟩
    | with_reducible exact Or.inl ⟨rfl, rfl, rfl⟩
    | with_reducible exact Or.inl ⟨rfl, rfl, rfl, rfl⟩
    | with_reducible exact Or.inl ⟨rfl, rfl, rfl, rfl, rfl⟩
    | decide
    | with_reducible apply ite_le
    | exact Nat.le_of_ble_eq_true rfl
    | dsimp only
    | with_reducible refine Moves.chg rfl ?_ ?_ ?_ ?_ ?_ ?_ ?_ ?_ ?_ ?_ ?_ ?_ ?_ ?_ ?_ ?_ ?_ ?_ ?_ ?_ ?_ ?_ ?_ ?_ ?_ ?_ ?_ ?_ ?_ ?_ ?_ ?_ ?_ ?_
    | with_reducible refine Or.inr (And.intro ?_ ?_)
    | with_reducible refine And.intro ?_ ?_)

theorem execPairResync_moves (w : When) (ses : Fin 8) (s : State) :
    Leads [.time, .draws, .start, .events, .tasks, .pair, .memory, .memctl, .wards, .faults, .ledger, .keeper, .loader, .firmware, .sessions, .access, .host, .sent] s (execPairResync w ses s) := by
  have h := Moves.refl [.time, .draws, .start, .events, .tasks, .pair, .memory, .memctl, .wards, .faults, .ledger, .keeper, .loader, .firmware, .sessions, .access, .host, .sent] s
  have hP := @Covers.rfl [.time, .draws, .start, .events, .tasks, .pair, .memory, .memctl, .wards, .faults, .ledger, .keeper, .loader, .firmware, .sessions, .access, .host, .sent]
  unfold execPairResync
  repeat' (first
    | with_reducible assumption
    | with_reducible exact Or.inl rfl
    | with_reducible exact hP.trans (by decide)
    | exact Or.inr (hP.mem (by decide))
    | exact hP.mem (by decide)
    | with_reducible refine of_pair ‹_ = (_, _)› ?_
    | with_reducible apply next_leads
    | with_reducible apply pairAccept_moves
    | with_reducible apply pairRefuse_moves
    | with_reducible apply enterSync_moves
    | with_reducible apply setRole_moves
    | with_reducible apply withSession_moves
    | with_reducible apply reply_moves
    | with_reducible apply at_moves
    | with_reducible apply ite_moves
    | with_reducible apply ite_moves_snd
    | with_reducible apply ite_leads
    | with_reducible intro _
    | split
    | with_reducible exact id
    | with_reducible exact Or.inl ⟨rfl, rfl⟩
    | with_reducible exact Or.inl ⟨rfl, rfl, rfl⟩
    | with_reducible exact Or.inl ⟨rfl, rfl, rfl, rfl⟩
    | with_reducible exact Or.inl ⟨rfl, rfl, rfl, rfl, rfl⟩
    | decide
    | with_reducible apply ite_le
    | exact Nat.le_of_ble_eq_true rfl
    | dsimp only
    | with_reducible refine Moves.chg rfl ?_ ?_ ?_ ?_ ?_ ?_ ?_ ?_ ?_ ?_ ?_ ?_ ?_ ?_ ?_ ?_ ?_ ?_ ?_ ?_ ?_ ?_ ?_ ?_ ?_ ?_ ?_ ?_ ?_ ?_ ?_ ?_ ?_ ?_
    | with_reducible refine Or.inr (And.intro ?_ ?_)
    | with_reducible refine And.intro ?_ ?_)

theorem execPairEpochAdvance_moves (w : When) (ses : Fin 8) (amount : Nat) (s : State) :
    Leads [.time, .events, .pair, .ledger, .keeper, .loader, .firmware, .sessions, .access, .host, .sent] s (execPairEpochAdvance w ses amount s) := by
  have h := Moves.refl [.time, .events, .pair, .ledger, .keeper, .loader, .firmware, .sessions, .access, .host, .sent] s
  have hP := @Covers.rfl [.time, .events, .pair, .ledger, .keeper, .loader, .firmware, .sessions, .access, .host, .sent]
  unfold execPairEpochAdvance
  repeat' (first
    | with_reducible assumption
    | with_reducible exact Or.inl rfl
    | with_reducible exact hP.trans (by decide)
    | exact Or.inr (hP.mem (by decide))
    | exact hP.mem (by decide)
    | with_reducible refine of_pair ‹_ = (_, _)› ?_
    | with_reducible apply next_leads
    | with_reducible apply pairAccept_moves
    | with_reducible apply pairRefuse_moves
    | with_reducible apply modWvl_moves
    | with_reducible apply withSession_moves
    | with_reducible apply reply_moves
    | with_reducible apply queueJob_moves
    | with_reducible apply at_moves
    | with_reducible apply ite_moves
    | with_reducible apply ite_moves_snd
    | with_reducible apply ite_leads
    | with_reducible intro _
    | split
    | with_reducible exact id
    | with_reducible exact Or.inl ⟨rfl, rfl⟩
    | with_reducible exact Or.inl ⟨rfl, rfl, rfl⟩
    | with_reducible exact Or.inl ⟨rfl, rfl, rfl, rfl⟩
    | with_reducible exact Or.inl ⟨rfl, rfl, rfl, rfl, rfl⟩
    | decide
    | with_reducible apply ite_le
    | exact Nat.le_of_ble_eq_true rfl
    | dsimp only
    | with_reducible refine Moves.chg rfl ?_ ?_ ?_ ?_ ?_ ?_ ?_ ?_ ?_ ?_ ?_ ?_ ?_ ?_ ?_ ?_ ?_ ?_ ?_ ?_ ?_ ?_ ?_ ?_ ?_ ?_ ?_ ?_ ?_ ?_ ?_ ?_ ?_ ?_
    | with_reducible refine Or.inr (And.intro ?_ ?_)
    | with_reducible refine And.intro ?_ ?_)

theorem execPairForcePrimary_moves (w : When) (ses : Fin 8) (s : State) :
    Leads [.time, .draws, .start, .events, .ports, .stations, .tasks, .forces, .sequencer, .triad, .debug, .pair, .memory, .memctl, .wards, .faults, .ledger, .keeper, .loader, .firmware, .loops, .field, .sessions, .access, .host, .sent] s (execPairForcePrimary w ses s) := by
  have h := Moves.refl [.time, .draws, .start, .events, .ports, .stations, .tasks, .forces, .sequencer, .triad, .debug, .pair, .memory, .memctl, .wards, .faults, .ledger, .keeper, .loader, .firmware, .loops, .field, .sessions, .access, .host, .sent] s
  have hP := @Covers.rfl [.time, .draws, .start, .events, .ports, .stations, .tasks, .forces, .sequencer, .triad, .debug, .pair, .memory, .memctl, .wards, .faults, .ledger, .keeper, .loader, .firmware, .loops, .field, .sessions, .access, .host, .sent]
  unfold execPairForcePrimary
  repeat' (first
    | with_reducible assumption
    | with_reducible exact Or.inl rfl
    | with_reducible exact hP.trans (by decide)
    | exact Or.inr (hP.mem (by decide))
    | exact hP.mem (by decide)
    | with_reducible refine of_pair ‹_ = (_, _)› ?_
    | with_reducible apply next_leads
    | with_reducible apply pairAccept_moves
    | with_reducible apply pairRefuse_moves
    | with_reducible apply primaryCommon_moves
    | with_reducible apply startEpoch_moves
    | with_reducible apply setRole_moves
    | with_reducible apply modWvl_moves
    | with_reducible apply restartCold_moves
    | with_reducible apply withSession_moves
    | with_reducible apply reply_moves
    | with_reducible apply at_moves
    | with_reducible apply ite_moves
    | with_reducible apply ite_moves_snd
    | with_reducible apply ite_leads
    | with_reducible intro _
    | split
    | with_reducible exact id
    | with_reducible exact Or.inl ⟨rfl, rfl⟩
    | with_reducible exact Or.inl ⟨rfl, rfl, rfl⟩
    | with_reducible exact Or.inl ⟨rfl, rfl, rfl, rfl⟩
    | with_reducible exact Or.inl ⟨rfl, rfl, rfl, rfl, rfl⟩
    | decide
    | with_reducible apply ite_le
    | exact Nat.le_of_ble_eq_true rfl
    | dsimp only
    | with_reducible refine Moves.chg rfl ?_ ?_ ?_ ?_ ?_ ?_ ?_ ?_ ?_ ?_ ?_ ?_ ?_ ?_ ?_ ?_ ?_ ?_ ?_ ?_ ?_ ?_ ?_ ?_ ?_ ?_ ?_ ?_ ?_ ?_ ?_ ?_ ?_ ?_
    | with_reducible refine Or.inr (And.intro ?_ ?_)
    | with_reducible refine And.intro ?_ ?_)

theorem execPairNegotiation_moves (w : When) (s : State) :
    Leads [.time, .draws, .start, .events, .ports, .stations, .tasks, .forces, .sequencer, .triad, .debug, .pair, .memory, .memctl, .wards, .faults, .ledger, .keeper, .loops, .field, .sessions, .host, .sent] s (execPairNegotiation w s) := by
  have h := Moves.refl [.time, .draws, .start, .events, .ports, .stations, .tasks, .forces, .sequencer, .triad, .debug, .pair, .memory, .memctl, .wards, .faults, .ledger, .keeper, .loops, .field, .sessions, .host, .sent] s
  have hP := @Covers.rfl [.time, .draws, .start, .events, .ports, .stations, .tasks, .forces, .sequencer, .triad, .debug, .pair, .memory, .memctl, .wards, .faults, .ledger, .keeper, .loops, .field, .sessions, .host, .sent]
  unfold execPairNegotiation
  repeat' (first
    | with_reducible assumption
    | with_reducible exact Or.inl rfl
    | with_reducible exact hP.trans (by decide)
    | exact Or.inr (hP.mem (by decide))
    | exact hP.mem (by decide)
    | with_reducible refine of_pair ‹_ = (_, _)› ?_
    | with_reducible apply next_leads
    | with_reducible apply mismatch_moves
    | with_reducible apply primaryFromP6_moves
    | with_reducible apply at_moves
    | with_reducible apply ite_moves
    | with_reducible apply ite_moves_snd
    | with_reducible apply ite_leads
    | with_reducible intro _
    | split
    | with_reducible exact id
    | with_reducible exact Or.inl ⟨rfl, rfl⟩
    | with_reducible exact Or.inl ⟨rfl, rfl, rfl⟩
    | with_reducible exact Or.inl ⟨rfl, rfl, rfl, rfl⟩
    | with_reducible exact Or.inl ⟨rfl, rfl, rfl, rfl, rfl⟩
    | decide
    | with_reducible apply ite_le
    | exact Nat.le_of_ble_eq_true rfl
    | dsimp only
    | with_reducible refine Moves.chg rfl ?_ ?_ ?_ ?_ ?_ ?_ ?_ ?_ ?_ ?_ ?_ ?_ ?_ ?_ ?_ ?_ ?_ ?_ ?_ ?_ ?_ ?_ ?_ ?_ ?_ ?_ ?_ ?_ ?_ ?_ ?_ ?_ ?_ ?_
    | with_reducible refine Or.inr (And.intro ?_ ?_)
    | with_reducible refine And.intro ?_ ?_)

theorem execNegotiateTimeout_moves (w : When) (s : State) :
    Leads [.time, .draws, .start, .events, .ports, .stations, .tasks, .forces, .sequencer, .triad, .debug, .pair, .memory, .memctl, .wards, .faults, .ledger, .keeper, .loops, .field, .sessions, .host, .sent] s (execNegotiateTimeout w s) := by
  have h := Moves.refl [.time, .draws, .start, .events, .ports, .stations, .tasks, .forces, .sequencer, .triad, .debug, .pair, .memory, .memctl, .wards, .faults, .ledger, .keeper, .loops, .field, .sessions, .host, .sent] s
  have hP := @Covers.rfl [.time, .draws, .start, .events, .ports, .stations, .tasks, .forces, .sequencer, .triad, .debug, .pair, .memory, .memctl, .wards, .faults, .ledger, .keeper, .loops, .field, .sessions, .host, .sent]
  unfold execNegotiateTimeout
  repeat' (first
    | with_reducible assumption
    | with_reducible exact Or.inl rfl
    | with_reducible exact hP.trans (by decide)
    | exact Or.inr (hP.mem (by decide))
    | exact hP.mem (by decide)
    | with_reducible refine of_pair ‹_ = (_, _)› ?_
    | with_reducible apply next_leads
    | with_reducible apply primaryFromP6_moves
    | with_reducible apply at_moves
    | with_reducible apply ite_moves
    | with_reducible apply ite_moves_snd
    | with_reducible apply ite_leads
    | with_reducible intro _
    | split
    | with_reducible exact id
    | with_reducible exact Or.inl ⟨rfl, rfl⟩
    | with_reducible exact Or.inl ⟨rfl, rfl, rfl⟩
    | with_reducible exact Or.inl ⟨rfl, rfl, rfl, rfl⟩
    | with_reducible exact Or.inl ⟨rfl, rfl, rfl, rfl, rfl⟩
    | decide
    | with_reducible apply ite_le
    | exact Nat.le_of_ble_eq_true rfl
    | dsimp only
    | with_reducible refine Moves.chg rfl ?_ ?_ ?_ ?_ ?_ ?_ ?_ ?_ ?_ ?_ ?_ ?_ ?_ ?_ ?_ ?_ ?_ ?_ ?_ ?_ ?_ ?_ ?_ ?_ ?_ ?_ ?_ ?_ ?_ ?_ ?_ ?_ ?_ ?_
    | with_reducible refine Or.inr (And.intro ?_ ?_)
    | with_reducible refine And.intro ?_ ?_)

end Sys2Proof.Machine
end

