-- ==== Sys2Proof/Laws/MovesRegisters.lean ====
section
/-! SUPPORT. What each operation of Machine/Registers.lean can do: the parts of the state it may change (`Moves`). -/

set_option Elab.async false
set_option linter.all false

namespace Sys2Proof.Machine

open Sys2Proof

theorem tryWrite_moves {P : List Part} {s0 : State} (who : Agent) (d : Digests) (a : Nat) (v : Word) {s : State} (hP : Covers P [.start, .events, .timebase, .pulses, .snaps, .delays, .ports, .intake, .archive, .phasors, .streams, .mailbox, .surges, .tasks, .forces, .sequencer, .triad, .debug, .budgets, .pair, .memory, .memctl, .wards, .faults, .ledger, .cartridge, .keeper, .loader, .firmware, .inputs, .outputs, .loops, .field, .sessions, .access, .host, .config, .sent])
    (hM : Moves P s0 s) : Moves P s0 (tryWrite who d a v s).2 := by
  unfold tryWrite
  repeat' (first
    | with_reducible assumption
    | with_reducible exact Or.inl rfl
    | with_reducible exact hP.trans (by decide)
    | exact Or.inr (hP.mem (by decide))
    | exact hP.mem (by decide)
    | with_reducible refine of_pair ‹_ = (_, _)› ?_
    | with_reducible apply writeReg_moves
    | with_reducible apply checkAccess_moves
    | with_reducible intro _
    | split
    | with_reducible exact id
    | with_reducible exact Or.inl ⟨rfl, rfl⟩
    | with_reducible exact Or.inl ⟨rfl, rfl, rfl⟩
    | with_reducible exact Or.inl ⟨rfl, rfl, rfl, rfl⟩
    | with_reducible exact Or.inl ⟨rfl, rfl, rfl, rfl, rfl⟩
    | decide
    | with_reducible apply ite_le
    | exact Nat.le_of_ble_eq_true rfl
    | with_reducible refine Moves.chg rfl ?_ ?_ ?_ ?_ ?_ ?_ ?_ ?_ ?_ ?_ ?_ ?_ ?_ ?_ ?_ ?_ ?_ ?_ ?_ ?_ ?_ ?_ ?_ ?_ ?_ ?_ ?_ ?_ ?_ ?_ ?_ ?_ ?_ ?_
    | with_reducible refine Or.inr (And.intro ?_ ?_)
    | with_reducible refine And.intro ?_ ?_)

theorem tryRead_moves {P : List Part} {s0 : State} (a : Nat) {s : State} (hP : Covers P [.events, .debug, .wards, .faults, .ledger, .keeper, .sessions, .host, .latches])
    (hM : Moves P s0 s) : Moves P s0 (tryRead a s).2 := by
  unfold tryRead
  repeat' (first
    | with_reducible assumption
    | with_reducible exact Or.inl rfl
    | with_reducible exact hP.trans (by decide)
    | exact Or.inr (hP.mem (by decide))
    | exact hP.mem (by decide)
    | with_reducible refine of_pair ‹_ = (_, _)› ?_
    | with_reducible apply checkAccess_moves
    | with_reducible apply readReg_moves
    | with_reducible intro _
    | split
    | with_reducible exact id
    | with_reducible exact Or.inl ⟨rfl, rfl⟩
    | with_reducible exact Or.inl ⟨rfl, rfl, rfl⟩
    | with_reducible exact Or.inl ⟨rfl, rfl, rfl, rfl⟩
    | with_reducible exact Or.inl ⟨rfl, rfl, rfl, rfl, rfl⟩
    | decide
    | with_reducible apply ite_le
    | exact Nat.le_of_ble_eq_true rfl
    | with_reducible refine Moves.chg rfl ?_ ?_ ?_ ?_ ?_ ?_ ?_ ?_ ?_ ?_ ?_ ?_ ?_ ?_ ?_ ?_ ?_ ?_ ?_ ?_ ?_ ?_ ?_ ?_ ?_ ?_ ?_ ?_ ?_ ?_ ?_ ?_ ?_ ?_
    | with_reducible refine Or.inr (And.intro ?_ ?_)
    | with_reducible refine And.intro ?_ ?_)

theorem execRegisterWrite_moves (w : When) (who : Agent) (addr : Nat) (v : Word) (d : Digests) (s : State) :
    Leads [.time, .start, .events, .timebase, .pulses, .snaps, .delays, .ports, .intake, .archive, .phasors, .streams, .mailbox, .surges, .tasks, .forces, .sequencer, .triad, .debug, .budgets, .pair, .memory, .memctl, .wards, .faults, .ledger, .cartridge, .keeper, .loader, .firmware, .inputs, .outputs, .loops, .field, .sessions, .access, .host, .config, .sent] s (execRegisterWrite w who addr v d s) := by
  have h := Moves.refl [.time, .start, .events, .timebase, .pulses, .snaps, .delays, .ports, .intake, .archive, .phasors, .streams, .mailbox, .surges, .tasks, .forces, .sequencer, .triad, .debug, .budgets, .pair, .memory, .memctl, .wards, .faults, .ledger, .cartridge, .keeper, .loader, .firmware, .inputs, .outputs, .loops, .field, .sessions, .access, .host, .config, .sent] s
  have hP := @Covers.rfl [.time, .start, .events, .timebase, .pulses, .snaps, .delays, .ports, .intake, .archive, .phasors, .streams, .mailbox, .surges, .tasks, .forces, .sequencer, .triad, .debug, .budgets, .pair, .memory, .memctl, .wards, .faults, .ledger, .cartridge, .keeper, .loader, .firmware, .inputs, .outputs, .loops, .field, .sessions, .access, .host, .config, .sent]
  unfold execRegisterWrite
  repeat' (first
    | with_reducible assumption
    | with_reducible exact Or.inl rfl
    | with_reducible exact hP.trans (by decide)
    | exact Or.inr (hP.mem (by decide))
    | exact hP.mem (by decide)
    | with_reducible refine of_pair ‹_ = (_, _)› ?_
    | with_reducible apply next_leads
    | with_reducible apply tryWrite_moves
    | with_reducible apply answerWrite_moves
    | with_reducible apply emit_moves
    | with_reducible apply at_moves
    | with_reducible apply ite_moves
    | with_reducible apply ite_moves_snd
    | with_reducible apply ite_leads
    | with_reducible intro _
    | split
    | with_reducible exact id
    | with_reducible exact Or.inl ⟨rfl, rfl⟩
    | with_reducible exact Or.inl ⟨rfl, rfl, rfl⟩
    | with_reducible exact Or.inl ⟨rfl, rfl, rfl, rfl⟩
    | with_reducible exact Or.inl ⟨rfl, rfl, rfl, rfl, rfl⟩
    | decide
    | with_reducible apply ite_le
    | exact Nat.le_of_ble_eq_true rfl
    | dsimp only
    | with_reducible refine Moves.chg rfl ?_ ?_ ?_ ?_ ?_ ?_ ?_ ?_ ?_ ?_ ?_ ?_ ?_ ?_ ?_ ?_ ?_ ?_ ?_ ?_ ?_ ?_ ?_ ?_ ?_ ?_ ?_ ?_ ?_ ?_ ?_ ?_ ?_ ?_
    | with_reducible refine Or.inr (And.intro ?_ ?_)
    | with_reducible refine And.intro ?_ ?_)

theorem readEntries_moves {P : List Part} {s0 : State} (l : List Nat) {s : State} (hP : Covers P [.events, .debug, .wards, .faults, .ledger, .keeper, .sessions, .host, .latches]) (h : Moves P s0 s) :
    Moves P s0 (readEntries l s).2 := by
  induction l generalizing s with
  | nil => exact h
  | cons a t ih => exact ih (tryRead_moves a (hP.trans (by decide)) h)

theorem execRead_moves (w : When) (ses : Fin 8) (addrs : List Nat) (s : State) :
    Leads [.time, .events, .debug, .wards, .faults, .ledger, .keeper, .loader, .firmware, .sessions, .access, .host, .latches, .sent] s (execRead w ses addrs s) := by
  have h := Moves.refl [.time, .events, .debug, .wards, .faults, .ledger, .keeper, .loader, .firmware, .sessions, .access, .host, .latches, .sent] s
  have hP := @Covers.rfl [.time, .events, .debug, .wards, .faults, .ledger, .keeper, .loader, .firmware, .sessions, .access, .host, .latches, .sent]
  unfold execRead
  repeat' (first
    | with_reducible assumption
    | with_reducible exact Or.inl rfl
    | with_reducible exact hP.trans (by decide)
    | exact Or.inr (hP.mem (by decide))
    | exact hP.mem (by decide)
    | with_reducible refine of_pair ‹_ = (_, _)› ?_
    | with_reducible apply next_leads
    | with_reducible apply readEntries_moves
    | with_reducible apply withSession_moves
    | with_reducible apply reply_moves
    | with_reducible apply at_moves
    | with_reducible apply ite_moves
    | with_reducible apply ite_moves_snd
    | with_reducible apply ite_leads
    | with_reducible intro _
    | split
    | with_reducible exact id
    | with_reducible exact Or.inl ⟨rfl, rfl⟩
    | with_reducible exact Or.inl ⟨rfl, rfl, rfl⟩
    | with_reducible exact Or.inl ⟨rfl, rfl, rfl, rfl⟩
    | with_reducible exact Or.inl ⟨rfl, rfl, rfl, rfl, rfl⟩
    | decide
    | with_reducible apply ite_le
    | exact Nat.le_of_ble_eq_true rfl
    | dsimp only
    | with_reducible refine Moves.chg rfl ?_ ?_ ?_ ?_ ?_ ?_ ?_ ?_ ?_ ?_ ?_ ?_ ?_ ?_ ?_ ?_ ?_ ?_ ?_ ?_ ?_ ?_ ?_ ?_ ?_ ?_ ?_ ?_ ?_ ?_ ?_ ?_ ?_ ?_
    | with_reducible refine Or.inr (And.intro ?_ ?_)
    | with_reducible refine And.intro ?_ ?_)

theorem writeEntries_moves {P : List Part} {s0 : State} (ses : Fin 8) (d : Digests) (l : List (Nat × Word)) {s : State}
    (hP : Covers P [.start, .events, .timebase, .pulses, .snaps, .delays, .ports, .intake, .archive, .phasors, .streams, .mailbox, .surges, .tasks, .forces, .sequencer, .triad, .debug, .budgets, .pair, .memory, .memctl, .wards, .faults, .ledger, .cartridge, .keeper, .loader, .firmware, .inputs, .outputs, .loops, .field, .sessions, .access, .host, .config, .sent]) (h : Moves P s0 s) : Moves P s0 (writeEntries ses d l s).2 := by
  induction l generalizing s with
  | nil => exact h
  | cons x t ih =>
    unfold writeEntries
    dsimp only
    have hp : ∀ p : WriteAnswer × State, Moves P s0 p.2 →
        Moves P s0 (if p.1.1 = 0 then ((p.1 :: (writeEntries ses d t (countRole p.1.1 p.2)).1, (writeEntries ses d t (countRole p.1.1 p.2)).2) : List WriteAnswer × State)
          else (p.1 :: t.map fun _ => (12, 0), countRole p.1.1 p.2)).2 := by
      intro p hp
      split
      · exact ih (countRole_moves _ (hP.trans (by decide)) hp)
      · exact countRole_moves _ (hP.trans (by decide)) hp
    refine hp _ ?_
    split
    · exact h
    · exact tryWrite_moves _ _ _ _ (hP.trans (by decide)) h

theorem execWrite_moves (w : When) (ses : Fin 8) (entries : List (Nat × Word)) (s : State) :
    Leads [.time, .start, .events, .timebase, .pulses, .snaps, .delays, .ports, .intake, .archive, .phasors, .streams, .mailbox, .surges, .tasks, .forces, .sequencer, .triad, .debug, .budgets, .pair, .memory, .memctl, .wards, .faults, .ledger, .cartridge, .keeper, .loader, .firmware, .inputs, .outputs, .loops, .field, .sessions, .access, .host, .config, .sent] s (execWrite w ses entries s) := by
  have h := Moves.refl [.time, .start, .events, .timebase, .pulses, .snaps, .delays, .ports, .intake, .archive, .phasors, .streams, .mailbox, .surges, .tasks, .forces, .sequencer, .triad, .debug, .budgets, .pair, .memory, .memctl, .wards, .faults, .ledger, .cartridge, .keeper, .loader, .firmware, .inputs, .outputs, .loops, .field, .sessions, .access, .host, .config, .sent] s
  have hP := @Covers.rfl [.time, .start, .events, .timebase, .pulses, .snaps, .delays, .ports, .intake, .archive, .phasors, .streams, .mailbox, .surges, .tasks, .forces, .sequencer, .triad, .debug, .budgets, .pair, .memory, .memctl, .wards, .faults, .ledger, .cartridge, .keeper, .loader, .firmware, .inputs, .outputs, .loops, .field, .sessions, .access, .host, .config, .sent]
  unfold execWrite
  repeat' (first
    | with_reducible assumption
    | with_reducible exact Or.inl rfl
    | with_reducible exact hP.trans (by decide)
    | exact Or.inr (hP.mem (by decide))
    | exact hP.mem (by decide)
    | with_reducible refine of_pair ‹_ = (_, _)› ?_
    | with_reducible apply next_leads
    | with_reducible apply writeEntries_moves
    | with_reducible apply withSession_moves
    | with_reducible apply reply_moves
    | with_reducible apply answer_moves
    | with_reducible apply at_moves
    | with_reducible apply ite_moves
    | with_reducible apply ite_moves_snd
    | with_reducible apply ite_leads
    | with_reducible intro _
    | split
    | with_reducible exact id
    | with_reducible exact Or.inl ⟨rfl, rfl⟩
    | with_reducible exact Or.inl ⟨rfl, rfl, rfl⟩
    | with_reducible exact Or.inl ⟨rfl, rfl, rfl, rfl⟩
    | with_reducible exact Or.inl ⟨rfl, rfl, rfl, rfl, rfl⟩
    | decide
    | with_reducible apply ite_le
    | exact Nat.le_of_ble_eq_true rfl
    | dsimp only
    | with_reducible refine Moves.chg rfl ?_ ?_ ?_ ?_ ?_ ?_ ?_ ?_ ?_ ?_ ?_ ?_ ?_ ?_ ?_ ?_ ?_ ?_ ?_ ?_ ?_ ?_ ?_ ?_ ?_ ?_ ?_ ?_ ?_ ?_ ?_ ?_ ?_ ?_
    | with_reducible refine Or.inr (And.intro ?_ ?_)
    | with_reducible refine And.intro ?_ ?_)

theorem respond_moves {P : List Part} {s0 : State} (ident : Nat) (ok : Bool) (data : List Byte) {s : State} (hP : Covers P [.sent])
    (hM : Moves P s0 s) : Moves P s0 (respond ident ok data s) := by
  unfold respond
  repeat' (first
    | with_reducible assumption
    | with_reducible exact Or.inl rfl
    | with_reducible exact hP.trans (by decide)
    | exact Or.inr (hP.mem (by decide))
    | exact hP.mem (by decide)
    | with_reducible refine of_pair ‹_ = (_, _)› ?_
    | with_reducible apply emit_moves
    | with_reducible intro _
    | split
    | with_reducible exact id
    | with_reducible exact Or.inl ⟨rfl, rfl⟩
    | with_reducible exact Or.inl ⟨rfl, rfl, rfl⟩
    | with_reducible exact Or.inl ⟨rfl, rfl, rfl, rfl⟩
    | with_reducible exact Or.inl ⟨rfl, rfl, rfl, rfl, rfl⟩
    | decide
    | with_reducible apply ite_le
    | exact Nat.le_of_ble_eq_true rfl
    | with_reducible refine Moves.chg rfl ?_ ?_ ?_ ?_ ?_ ?_ ?_ ?_ ?_ ?_ ?_ ?_ ?_ ?_ ?_ ?_ ?_ ?_ ?_ ?_ ?_ ?_ ?_ ?_ ?_ ?_ ?_ ?_ ?_ ?_ ?_ ?_ ?_ ?_
    | with_reducible refine Or.inr (And.intro ?_ ?_)
    | with_reducible refine And.intro ?_ ?_)

theorem memReadTx_moves {P : List Part} {s0 : State} (tx : Tx) {s : State} (hP : Covers P [.events, .memctl, .faults, .sent])
    (hM : Moves P s0 s) : Moves P s0 (memReadTx tx s) := by
  unfold memReadTx
  repeat' (first
    | with_reducible assumption
    | with_reducible exact Or.inl rfl
    | with_reducible exact hP.trans (by decide)
    | exact Or.inr (hP.mem (by decide))
    | exact hP.mem (by decide)
    | with_reducible refine of_pair ‹_ = (_, _)› ?_
    | with_reducible apply respond_moves
    | with_reducible apply demandRead_moves
    | with_reducible intro _
    | split
    | with_reducible exact id
    | with_reducible exact Or.inl ⟨rfl, rfl⟩
    | with_reducible exact Or.inl ⟨rfl, rfl, rfl⟩
    | with_reducible exact Or.inl ⟨rfl, rfl, rfl, rfl⟩
    | with_reducible exact Or.inl ⟨rfl, rfl, rfl, rfl, rfl⟩
    | decide
    | with_reducible apply ite_le
    | exact Nat.le_of_ble_eq_true rfl
    | with_reducible refine Moves.chg rfl ?_ ?_ ?_ ?_ ?_ ?_ ?_ ?_ ?_ ?_ ?_ ?_ ?_ ?_ ?_ ?_ ?_ ?_ ?_ ?_ ?_ ?_ ?_ ?_ ?_ ?_ ?_ ?_ ?_ ?_ ?_ ?_ ?_ ?_
    | with_reducible refine Or.inr (And.intro ?_ ?_)
    | with_reducible refine And.intro ?_ ?_)

theorem memWriteTx_moves {P : List Part} {s0 : State} (tx : Tx) {s : State} (hP : Covers P [.draws, .events, .tasks, .memory, .memctl, .faults, .sent])
    (hM : Moves P s0 s) : Moves P s0 (memWriteTx tx s) := by
  unfold memWriteTx
  repeat' (first
    | with_reducible assumption
    | with_reducible exact Or.inl rfl
    | with_reducible exact hP.trans (by decide)
    | exact Or.inr (hP.mem (by decide))
    | exact hP.mem (by decide)
    | with_reducible refine of_pair ‹_ = (_, _)› ?_
    | with_reducible exact write_wf ‹_› ‹_›
    | with_reducible apply respond_moves
    | with_reducible apply markDirty_moves
    | with_reducible apply storeMem_moves
    | with_reducible apply mergeRead_moves
    | with_reducible apply uncorrectable_moves
    | with_reducible apply when_moves
    | with_reducible intro _
    | split
    | with_reducible exact id
    | with_reducible exact Or.inl ⟨rfl, rfl⟩
    | with_reducible exact Or.inl ⟨rfl, rfl, rfl⟩
    | with_reducible exact Or.inl ⟨rfl, rfl, rfl, rfl⟩
    | with_reducible exact Or.inl ⟨rfl, rfl, rfl, rfl, rfl⟩
    | decide
    | with_reducible apply ite_le
    | exact Nat.le_of_ble_eq_true rfl
    | with_reducible refine Moves.chg rfl ?_ ?_ ?_ ?_ ?_ ?_ ?_ ?_ ?_ ?_ ?_ ?_ ?_ ?_ ?_ ?_ ?_ ?_ ?_ ?_ ?_ ?_ ?_ ?_ ?_ ?_ ?_ ?_ ?_ ?_ ?_ ?_ ?_ ?_
    | with_reducible refine Or.inr (And.intro ?_ ?_)
    | with_reducible refine And.intro ?_ ?_)

theorem regTx_moves {P : List Part} {s0 : State} (tx : Tx) {s : State} (hP : Covers P [.start, .events, .timebase, .pulses, .snaps, .delays, .ports, .intake, .archive, .phasors, .streams, .mailbox, .surges, .tasks, .forces, .sequencer, .triad, .debug, .budgets, .pair, .memory, .memctl, .wards, .faults, .ledger, .cartridge, .keeper, .loader, .firmware, .inputs, .outputs, .loops, .field, .sessions, .access, .host, .config, .latches, .sent])
    (hM : Moves P s0 s) : Moves P s0 (regTx tx s) := by
  unfold regTx
  repeat' (first
    | with_reducible assumption
    | with_reducible exact Or.inl rfl
    | with_reducible exact hP.trans (by decide)
    | exact Or.inr (hP.mem (by decide))
    | exact hP.mem (by decide)
    | with_reducible refine of_pair ‹_ = (_, _)› ?_
    | with_reducible apply respond_moves
    | with_reducible apply writeReg_moves
    | with_reducible apply answerWrite_moves
    | with_reducible apply readReg_moves
    | with_reducible apply ite_moves
    | with_reducible apply ite_moves_snd
    | with_reducible intro _
    | split
    | with_reducible exact id
    | with_reducible exact Or.inl ⟨rfl, rfl⟩
    | with_reducible exact Or.inl ⟨rfl, rfl, rfl⟩
    | with_reducible exact Or.inl ⟨rfl, rfl, rfl, rfl⟩
    | with_reducible exact Or.inl ⟨rfl, rfl, rfl, rfl, rfl⟩
    | decide
    | with_reducible apply ite_le
    | exact Nat.le_of_ble_eq_true rfl
    | with_reducible refine Moves.chg rfl ?_ ?_ ?_ ?_ ?_ ?_ ?_ ?_ ?_ ?_ ?_ ?_ ?_ ?_ ?_ ?_ ?_ ?_ ?_ ?_ ?_ ?_ ?_ ?_ ?_ ?_ ?_ ?_ ?_ ?_ ?_ ?_ ?_ ?_
    | with_reducible refine Or.inr (And.intro ?_ ?_)
    | with_reducible refine And.intro ?_ ?_)

theorem execMasterTransaction_moves (w : When) (tx : Tx) (s : State) :
    Leads [.time, .draws, .start, .events, .timebase, .pulses, .snaps, .delays, .ports, .intake, .archive, .phasors, .streams, .mailbox, .surges, .tasks, .forces, .sequencer, .triad, .debug, .budgets, .pair, .memory, .memctl, .wards, .faults, .ledger, .cartridge, .keeper, .loader, .firmware, .inputs, .outputs, .loops, .field, .sessions, .access, .host, .config, .latches, .sent] s (execMasterTransaction w tx s) := by
  have h := Moves.refl [.time, .draws, .start, .events, .timebase, .pulses, .snaps, .delays, .ports, .intake, .archive, .phasors, .streams, .mailbox, .surges, .tasks, .forces, .sequencer, .triad, .debug, .budgets, .pair, .memory, .memctl, .wards, .faults, .ledger, .cartridge, .keeper, .loader, .firmware, .inputs, .outputs, .loops, .field, .sessions, .access, .host, .config, .latches, .sent] s
  have hP := @Covers.rfl [.time, .draws, .start, .events, .timebase, .pulses, .snaps, .delays, .ports, .intake, .archive, .phasors, .streams, .mailbox, .surges, .tasks, .forces, .sequencer, .triad, .debug, .budgets, .pair, .memory, .memctl, .wards, .faults, .ledger, .cartridge, .keeper, .loader, .firmware, .inputs, .outputs, .loops, .field, .sessions, .access, .host, .config, .latches, .sent]
  unfold execMasterTransaction
  repeat' (first
    | with_reducible assumption
    | with_reducible exact Or.inl rfl
    | with_reducible exact hP.trans (by decide)
    | exact Or.inr (hP.mem (by decide))
    | exact hP.mem (by decide)
    | with_reducible refine of_pair ‹_ = (_, _)› ?_
    | with_reducible apply next_leads
    | with_reducible apply regTx_moves
    | with_reducible apply memWriteTx_moves
    | with_reducible apply memReadTx_moves
    | with_reducible apply respond_moves
    | with_reducible apply checkAccess_moves
    | with_reducible apply at_moves
    | with_reducible apply ite_moves
    | with_reducible apply ite_moves_snd
    | with_reducible apply ite_leads
    | with_reducible intro _
    | split
    | with_reducible exact id
    | with_reducible exact Or.inl ⟨rfl, rfl⟩
    | with_reducible exact Or.inl ⟨rfl, rfl, rfl⟩
    | with_reducible exact Or.inl ⟨rfl, rfl, rfl, rfl⟩
    | with_reducible exact Or.inl ⟨rfl, rfl, rfl, rfl, rfl⟩
    | decide
    | with_reducible apply ite_le
    | exact Nat.le_of_ble_eq_true rfl
    | dsimp only
    | with_reducible refine Moves.chg rfl ?_ ?_ ?_ ?_ ?_ ?_ ?_ ?_ ?_ ?_ ?_ ?_ ?_ ?_ ?_ ?_ ?_ ?_ ?_ ?_ ?_ ?_ ?_ ?_ ?_ ?_ ?_ ?_ ?_ ?_ ?_ ?_ ?_ ?_
    | with_reducible refine Or.inr (And.intro ?_ ?_)
    | with_reducible refine And.intro ?_ ?_)

end Sys2Proof.Machine
end

