-- ==== Sys2Proof/Laws/MovesStartup.lean ====
section
/-! SUPPORT. What each operation of Machine/Startup.lean can do: the parts of the state it may change (`Moves`). -/

set_option Elab.async false
set_option linter.all false

namespace Sys2Proof.Machine

open Sys2Proof

theorem survives_moves {P : List Part} {s0 : State} {s : State} (hP : Covers P [.time, .count, .draws, .start, .events, .timebase, .pulses, .snaps, .delays, .ports, .stations, .intake, .archive, .phasors, .streams, .mailbox, .surges, .tasks, .forces, .sequencer, .triad, .debug, .budgets, .power, .pair, .memory, .memctl, .wards, .faults, .ledger, .cartridge, .keeper, .loader, .firmware, .inputs, .outputs, .loops, .field, .sessions, .access, .host, .config, .latches, .sent]) (hM : Moves P s0 s) : Moves P s0 (survives s) :=
  ⟨(pinsRest_moves (hP.trans (by decide)) hM).queue, fun _ => ⟨List.Pairwise.nil, fun _ hc => nomatch hc⟩, fun _ => Nat.le_of_ble_eq_true rfl, fun _ => Nat.le_of_ble_eq_true rfl,
    fun _ => Nat.le_of_ble_eq_true rfl, fun _ => Nat.le_of_ble_eq_true rfl, fun _ => Nat.le_of_ble_eq_true rfl,
    fun p hq => absurd (hP.mem (by cases p <;> rfl)) hq⟩

theorem dropUnstaged_moves {P : List Part} {s0 : State}  {s : State} (hP : Covers P [.firmware])
    (hM : Moves P s0 s) : Moves P s0 (dropUnstaged s) := by
  unfold dropUnstaged
  repeat' (first
    | with_reducible assumption
    | with_reducible exact Or.inl rfl
    | with_reducible exact hP.trans (by decide)
    | exact Or.inr (hP.mem (by decide))
    | exact hP.mem (by decide)
    | with_reducible refine of_pair ‹_ = (_, _)› ?_
    | with_reducible apply ite_moves
    | with_reducible apply ite_moves_snd
    | with_reducible intro _
    | split
    | with_reducible exact id
    | with_reducible exact Or.inl ⟨rfl, rfl⟩
    | with_reducible exact Or.inl ⟨rfl, rfl, rfl⟩
    | with_reducible exact Or.inl ⟨rfl, rfl, rfl, rfl⟩
    | with_reducible exact Or.inl ⟨rfl, rfl, rfl, rfl, rfl⟩
    | decide
    | with_reducible apply ite_le
    | exact Nat.le_of_ble_eq_true rfl
    | with_reducible refine Moves.chg rfl ?_ ?_ ?_ ?_ ?_ ?_ ?_ ?_ ?_ ?_ ?_ ?_ ?_ ?_ ?_ ?_ ?_ ?_ ?_ ?_ ?_ ?_ ?_ ?_ ?_ ?_ ?_ ?_ ?_ ?_ ?_ ?_ ?_ ?_
    | with_reducible refine Or.inr (And.intro ?_ ?_)
    | with_reducible refine And.intro ?_ ?_)

theorem readCoding_moves {P : List Part} {s0 : State} (coding : Nat) {s : State} (hP : Covers P [.pair])
    (hM : Moves P s0 s) : Moves P s0 (readCoding coding s) := by
  unfold readCoding
  repeat' (first
    | with_reducible assumption
    | with_reducible exact Or.inl rfl
    | with_reducible exact hP.trans (by decide)
    | exact Or.inr (hP.mem (by decide))
    | exact hP.mem (by decide)
    | with_reducible refine of_pair ‹_ = (_, _)› ?_
    | with_reducible apply modWvl_moves
    | with_reducible apply ite_moves
    | with_reducible apply ite_moves_snd
    | with_reducible intro _
    | split
    | with_reducible exact id
    | with_reducible exact Or.inl ⟨rfl, rfl⟩
    | with_reducible exact Or.inl ⟨rfl, rfl, rfl⟩
    | with_reducible exact Or.inl ⟨rfl, rfl, rfl, rfl⟩
    | with_reducible exact Or.inl ⟨rfl, rfl, rfl, rfl, rfl⟩
    | decide
    | with_reducible apply ite_le
    | exact Nat.le_of_ble_eq_true rfl
    | with_reducible refine Moves.chg rfl ?_ ?_ ?_ ?_ ?_ ?_ ?_ ?_ ?_ ?_ ?_ ?_ ?_ ?_ ?_ ?_ ?_ ?_ ?_ ?_ ?_ ?_ ?_ ?_ ?_ ?_ ?_ ?_ ?_ ?_ ?_ ?_ ?_ ?_
    | with_reducible refine Or.inr (And.intro ?_ ?_)
    | with_reducible refine And.intro ?_ ?_)

theorem execPowerApplied_moves (w : When) (feed1 feed2 : Nat) (coding : Fin 4) (latchOpen powerGood : Bool) (s : State) :
    Leads [.time, .count, .draws, .start, .events, .timebase, .pulses, .snaps, .delays, .ports, .stations, .intake, .archive, .phasors, .streams, .mailbox, .surges, .tasks, .forces, .sequencer, .triad, .debug, .budgets, .power, .pair, .memory, .memctl, .wards, .faults, .ledger, .cartridge, .keeper, .loader, .firmware, .inputs, .outputs, .loops, .field, .sessions, .access, .host, .config, .latches, .sent] s (execPowerApplied w feed1 feed2 coding latchOpen powerGood s) := by
  have h := Moves.refl [.time, .count, .draws, .start, .events, .timebase, .pulses, .snaps, .delays, .ports, .stations, .intake, .archive, .phasors, .streams, .mailbox, .surges, .tasks, .forces, .sequencer, .triad, .debug, .budgets, .power, .pair, .memory, .memctl, .wards, .faults, .ledger, .cartridge, .keeper, .loader, .firmware, .inputs, .outputs, .loops, .field, .sessions, .access, .host, .config, .latches, .sent] s
  have hP := @Covers.rfl [.time, .count, .draws, .start, .events, .timebase, .pulses, .snaps, .delays, .ports, .stations, .intake, .archive, .phasors, .streams, .mailbox, .surges, .tasks, .forces, .sequencer, .triad, .debug, .budgets, .power, .pair, .memory, .memctl, .wards, .faults, .ledger, .cartridge, .keeper, .loader, .firmware, .inputs, .outputs, .loops, .field, .sessions, .access, .host, .config, .latches, .sent]
  unfold execPowerApplied
  repeat' (first
    | with_reducible assumption
    | with_reducible exact Or.inl rfl
    | with_reducible exact hP.trans (by decide)
    | exact Or.inr (hP.mem (by decide))
    | exact hP.mem (by decide)
    | with_reducible refine of_pair ‹_ = (_, _)› ?_
    | with_reducible apply next_leads
    | with_reducible apply readCoding_moves
    | with_reducible apply dropUnstaged_moves
    | with_reducible apply survives_moves
    | with_reducible apply noteGood_moves
    | with_reducible apply at_moves
    | with_reducible apply ite_moves
    | with_reducible apply ite_moves_snd
    | with_reducible apply ite_leads
    | with_reducible intro _
    | split
    | with_reducible exact id
    | with_reducible exact Or.inl ⟨rfl, rfl⟩
    | with_reducible exact Or.inl ⟨rfl, rfl, rfl⟩
    | with_reducible exact Or.inl ⟨rfl, rfl, rfl, rfl⟩
    | with_reducible exact Or.inl ⟨rfl, rfl, rfl, rfl, rfl⟩
    | decide
    | with_reducible apply ite_le
    | exact Nat.le_of_ble_eq_true rfl
    | dsimp only
    | with_reducible refine Moves.chg rfl ?_ ?_ ?_ ?_ ?_ ?_ ?_ ?_ ?_ ?_ ?_ ?_ ?_ ?_ ?_ ?_ ?_ ?_ ?_ ?_ ?_ ?_ ?_ ?_ ?_ ?_ ?_ ?_ ?_ ?_ ?_ ?_ ?_ ?_
    | with_reducible refine Or.inr (And.intro ?_ ?_)
    | with_reducible refine And.intro ?_ ?_)

theorem startAnew_moves {P : List Part} {s0 : State} (w : When) (entry : Nat) (cold : Bool) {s : State} (hP : Covers P [.time, .count, .draws, .start, .events, .timebase, .pulses, .snaps, .delays, .ports, .stations, .intake, .archive, .phasors, .streams, .mailbox, .surges, .tasks, .forces, .sequencer, .triad, .debug, .budgets, .power, .pair, .memory, .memctl, .wards, .faults, .ledger, .cartridge, .keeper, .loader, .firmware, .inputs, .outputs, .loops, .field, .sessions, .access, .host, .config, .latches, .sent])
    (hM : Moves P s0 s) : Moves P s0 (startAnew w entry cold s) := by
  unfold startAnew
  repeat' (first
    | with_reducible assumption
    | with_reducible exact Or.inl rfl
    | with_reducible exact hP.trans (by decide)
    | exact Or.inr (hP.mem (by decide))
    | exact hP.mem (by decide)
    | with_reducible refine of_pair ‹_ = (_, _)› ?_
    | with_reducible apply dropUnstaged_moves
    | with_reducible apply survives_moves
    | with_reducible apply refillBucket_moves
    | with_reducible apply at_moves
    | with_reducible intro _
    | split
    | with_reducible exact id
    | with_reducible exact Or.inl ⟨rfl, rfl⟩
    | with_reducible exact Or.inl ⟨rfl, rfl, rfl⟩
    | with_reducible exact Or.inl ⟨rfl, rfl, rfl, rfl⟩
    | with_reducible exact Or.inl ⟨rfl, rfl, rfl, rfl, rfl⟩
    | decide
    | with_reducible apply ite_le
    | exact Nat.le_of_ble_eq_true rfl
    | with_reducible refine Moves.chg rfl ?_ ?_ ?_ ?_ ?_ ?_ ?_ ?_ ?_ ?_ ?_ ?_ ?_ ?_ ?_ ?_ ?_ ?_ ?_ ?_ ?_ ?_ ?_ ?_ ?_ ?_ ?_ ?_ ?_ ?_ ?_ ?_ ?_ ?_
    | with_reducible refine Or.inr (And.intro ?_ ?_)
    | with_reducible refine And.intro ?_ ?_)

theorem execOvertempRecover_moves (w : When) (s : State) :
    Leads [.time, .count, .draws, .start, .events, .timebase, .pulses, .snaps, .delays, .ports, .stations, .intake, .archive, .phasors, .streams, .mailbox, .surges, .tasks, .forces, .sequencer, .triad, .debug, .budgets, .power, .pair, .memory, .memctl, .wards, .faults, .ledger, .cartridge, .keeper, .loader, .firmware, .inputs, .outputs, .loops, .field, .sessions, .access, .host, .config, .latches, .sent] s (execOvertempRecover w s) := by
  have h := Moves.refl [.time, .count, .draws, .start, .events, .timebase, .pulses, .snaps, .delays, .ports, .stations, .intake, .archive, .phasors, .streams, .mailbox, .surges, .tasks, .forces, .sequencer, .triad, .debug, .budgets, .power, .pair, .memory, .memctl, .wards, .faults, .ledger, .cartridge, .keeper, .loader, .firmware, .inputs, .outputs, .loops, .field, .sessions, .access, .host, .config, .latches, .sent] s
  have hP := @Covers.rfl [.time, .count, .draws, .start, .events, .timebase, .pulses, .snaps, .delays, .ports, .stations, .intake, .archive, .phasors, .streams, .mailbox, .surges, .tasks, .forces, .sequencer, .triad, .debug, .budgets, .power, .pair, .memory, .memctl, .wards, .faults, .ledger, .cartridge, .keeper, .loader, .firmware, .inputs, .outputs, .loops, .field, .sessions, .access, .host, .config, .latches, .sent]
  unfold execOvertempRecover
  repeat' (first
    | with_reducible assumption
    | with_reducible exact Or.inl rfl
    | with_reducible exact hP.trans (by decide)
    | exact Or.inr (hP.mem (by decide))
    | exact hP.mem (by decide)
    | with_reducible refine of_pair ‹_ = (_, _)› ?_
    | with_reducible apply next_leads
    | with_reducible apply startAnew_moves
    | with_reducible apply at_moves
    | with_reducible apply ite_moves
    | with_reducible apply ite_moves_snd
    | with_reducible apply ite_leads
    | with_reducible intro _
    | split
    | with_reducible exact id
    | with_reducible exact Or.inl ⟨rfl, rfl⟩
    | with_reducible exact Or.inl ⟨rfl, rfl, rfl⟩
    | with_reducible exact Or.inl ⟨rfl, rfl, rfl, rfl⟩
    | with_reducible exact Or.inl ⟨rfl, rfl, rfl, rfl, rfl⟩
    | decide
    | with_reducible apply ite_le
    | exact Nat.le_of_ble_eq_true rfl
    | dsimp only
    | with_reducible refine Moves.chg rfl ?_ ?_ ?_ ?_ ?_ ?_ ?_ ?_ ?_ ?_ ?_ ?_ ?_ ?_ ?_ ?_ ?_ ?_ ?_ ?_ ?_ ?_ ?_ ?_ ?_ ?_ ?_ ?_ ?_ ?_ ?_ ?_ ?_ ?_
    | with_reducible refine Or.inr (And.intro ?_ ?_)
    | with_reducible refine And.intro ?_ ?_)

theorem execRestartExecute_moves (w : When) (stored : Nat) (s : State) :
    Leads [.time, .count, .draws, .start, .events, .timebase, .pulses, .snaps, .delays, .ports, .stations, .intake, .archive, .phasors, .streams, .mailbox, .surges, .tasks, .forces, .sequencer, .triad, .debug, .budgets, .power, .pair, .memory, .memctl, .wards, .faults, .ledger, .cartridge, .keeper, .loader, .firmware, .inputs, .outputs, .loops, .field, .sessions, .access, .host, .config, .latches, .sent] s (execRestartExecute w stored s) := by
  have h := Moves.refl [.time, .count, .draws, .start, .events, .timebase, .pulses, .snaps, .delays, .ports, .stations, .intake, .archive, .phasors, .streams, .mailbox, .surges, .tasks, .forces, .sequencer, .triad, .debug, .budgets, .power, .pair, .memory, .memctl, .wards, .faults, .ledger, .cartridge, .keeper, .loader, .firmware, .inputs, .outputs, .loops, .field, .sessions, .access, .host, .config, .latches, .sent] s
  have hP := @Covers.rfl [.time, .count, .draws, .start, .events, .timebase, .pulses, .snaps, .delays, .ports, .stations, .intake, .archive, .phasors, .streams, .mailbox, .surges, .tasks, .forces, .sequencer, .triad, .debug, .budgets, .power, .pair, .memory, .memctl, .wards, .faults, .ledger, .cartridge, .keeper, .loader, .firmware, .inputs, .outputs, .loops, .field, .sessions, .access, .host, .config, .latches, .sent]
  unfold execRestartExecute
  repeat' (first
    | with_reducible assumption
    | with_reducible exact Or.inl rfl
    | with_reducible exact hP.trans (by decide)
    | exact Or.inr (hP.mem (by decide))
    | exact hP.mem (by decide)
    | with_reducible refine of_pair ‹_ = (_, _)› ?_
    | with_reducible apply next_leads
    | with_reducible apply startAnew_moves
    | with_reducible apply flushKeeper_moves
    | with_reducible apply refillBucket_moves
    | with_reducible apply at_moves
    | with_reducible apply ite_moves
    | with_reducible apply ite_moves_snd
    | with_reducible apply ite_leads
    | with_reducible intro _
    | split
    | with_reducible exact id
    | with_reducible exact Or.inl ⟨rfl, rfl⟩
    | with_reducible exact Or.inl ⟨rfl, rfl, rfl⟩
    | with_reducible exact Or.inl ⟨rfl, rfl, rfl, rfl⟩
    | with_reducible exact Or.inl ⟨rfl, rfl, rfl, rfl, rfl⟩
    | decide
    | with_reducible apply ite_le
    | exact Nat.le_of_ble_eq_true rfl
    | dsimp only
    | with_reducible refine Moves.chg rfl ?_ ?_ ?_ ?_ ?_ ?_ ?_ ?_ ?_ ?_ ?_ ?_ ?_ ?_ ?_ ?_ ?_ ?_ ?_ ?_ ?_ ?_ ?_ ?_ ?_ ?_ ?_ ?_ ?_ ?_ ?_ ?_ ?_ ?_
    | with_reducible refine Or.inr (And.intro ?_ ?_)
    | with_reducible refine And.intro ?_ ?_)

theorem execKeeperCheck_moves (w : When) (s : State) :
    Leads [.time, .start, .events, .timebase, .faults, .ledger, .cartridge, .keeper, .loader, .firmware, .sessions, .access, .host, .sent] s (execKeeperCheck w s) := by
  have h := Moves.refl [.time, .start, .events, .timebase, .faults, .ledger, .cartridge, .keeper, .loader, .firmware, .sessions, .access, .host, .sent] s
  have hP := @Covers.rfl [.time, .start, .events, .timebase, .faults, .ledger, .cartridge, .keeper, .loader, .firmware, .sessions, .access, .host, .sent]
  unfold execKeeperCheck
  repeat' (first
    | with_reducible assumption
    | with_reducible exact Or.inl rfl
    | with_reducible exact hP.trans (by decide)
    | exact Or.inr (hP.mem (by decide))
    | exact hP.mem (by decide)
    | with_reducible refine of_pair ‹_ = (_, _)› ?_
    | with_reducible apply next_leads
    | with_reducible apply reachP3_moves
    | with_reducible apply checkKeeper_moves
    | with_reducible apply mountKeeper_moves
    | with_reducible apply at_moves
    | with_reducible apply when_moves
    | with_reducible apply ite_moves
    | with_reducible apply ite_moves_snd
    | with_reducible apply ite_leads
    | with_reducible intro _
    | split
    | with_reducible exact id
    | with_reducible exact Or.inl ⟨rfl, rfl⟩
    | with_reducible exact Or.inl ⟨rfl, rfl, rfl⟩
    | with_reducible exact Or.inl ⟨rfl, rfl, rfl, rfl⟩
    | with_reducible exact Or.inl ⟨rfl, rfl, rfl, rfl, rfl⟩
    | decide
    | with_reducible apply ite_le
    | exact Nat.le_of_ble_eq_true rfl
    | dsimp only
    | with_reducible refine Moves.chg rfl ?_ ?_ ?_ ?_ ?_ ?_ ?_ ?_ ?_ ?_ ?_ ?_ ?_ ?_ ?_ ?_ ?_ ?_ ?_ ?_ ?_ ?_ ?_ ?_ ?_ ?_ ?_ ?_ ?_ ?_ ?_ ?_ ?_ ?_
    | with_reducible refine Or.inr (And.intro ?_ ?_)
    | with_reducible refine And.intro ?_ ?_)

theorem execLatchOpen_moves (w : When) (s : State) :
    Leads [.time, .start, .events, .pair, .ledger, .keeper, .sessions, .host, .sent] s (execLatchOpen w s) := by
  have h := Moves.refl [.time, .start, .events, .pair, .ledger, .keeper, .sessions, .host, .sent] s
  have hP := @Covers.rfl [.time, .start, .events, .pair, .ledger, .keeper, .sessions, .host, .sent]
  unfold execLatchOpen
  repeat' (first
    | with_reducible assumption
    | with_reducible exact Or.inl rfl
    | with_reducible exact hP.trans (by decide)
    | exact Or.inr (hP.mem (by decide))
    | exact hP.mem (by decide)
    | with_reducible refine of_pair ‹_ = (_, _)› ?_
    | with_reducible apply next_leads
    | with_reducible apply requestHandover_moves
    | with_reducible apply ledger_moves
    | with_reducible apply at_moves
    | with_reducible apply ite_moves
    | with_reducible apply ite_moves_snd
    | with_reducible apply ite_leads
    | with_reducible intro _
    | split
    | with_reducible exact id
    | with_reducible exact Or.inl ⟨rfl, rfl⟩
    | with_reducible exact Or.inl ⟨rfl, rfl, rfl⟩
    | with_reducible exact Or.inl ⟨rfl, rfl, rfl, rfl⟩
    | with_reducible exact Or.inl ⟨rfl, rfl, rfl, rfl, rfl⟩
    | decide
    | with_reducible apply ite_le
    | exact Nat.le_of_ble_eq_true rfl
    | dsimp only
    | with_reducible refine Moves.chg rfl ?_ ?_ ?_ ?_ ?_ ?_ ?_ ?_ ?_ ?_ ?_ ?_ ?_ ?_ ?_ ?_ ?_ ?_ ?_ ?_ ?_ ?_ ?_ ?_ ?_ ?_ ?_ ?_ ?_ ?_ ?_ ?_ ?_ ?_
    | with_reducible refine Or.inr (And.intro ?_ ?_)
    | with_reducible refine And.intro ?_ ?_)

theorem execLatchClose_moves (w : When) (s : State) :
    Leads [.time, .start, .timebase, .pair] s (execLatchClose w s) := by
  have h := Moves.refl [.time, .start, .timebase, .pair] s
  have hP := @Covers.rfl [.time, .start, .timebase, .pair]
  unfold execLatchClose
  repeat' (first
    | with_reducible assumption
    | with_reducible exact Or.inl rfl
    | with_reducible exact hP.trans (by decide)
    | exact Or.inr (hP.mem (by decide))
    | exact hP.mem (by decide)
    | with_reducible refine of_pair ‹_ = (_, _)› ?_
    | with_reducible apply next_leads
    | with_reducible apply endP5_moves
    | with_reducible apply at_moves
    | with_reducible apply ite_moves
    | with_reducible apply ite_moves_snd
    | with_reducible apply ite_leads
    | with_reducible intro _
    | split
    | with_reducible exact id
    | with_reducible exact Or.inl ⟨rfl, rfl⟩
    | with_reducible exact Or.inl ⟨rfl, rfl, rfl⟩
    | with_reducible exact Or.inl ⟨rfl, rfl, rfl, rfl⟩
    | with_reducible exact Or.inl ⟨rfl, rfl, rfl, rfl, rfl⟩
    | decide
    | with_reducible apply ite_le
    | exact Nat.le_of_ble_eq_true rfl
    | dsimp only
    | with_reducible refine Moves.chg rfl ?_ ?_ ?_ ?_ ?_ ?_ ?_ ?_ ?_ ?_ ?_ ?_ ?_ ?_ ?_ ?_ ?_ ?_ ?_ ?_ ?_ ?_ ?_ ?_ ?_ ?_ ?_ ?_ ?_ ?_ ?_ ?_ ?_ ?_
    | with_reducible refine Or.inr (And.intro ?_ ?_)
    | with_reducible refine And.intro ?_ ?_)

theorem execStrobeLoss_moves (w : When) (island : Nat) (s : State) :
    Leads [.time, .count, .faults] s (execStrobeLoss w island s) := by
  have h := Moves.refl [.time, .count, .faults] s
  have hP := @Covers.rfl [.time, .count, .faults]
  unfold execStrobeLoss
  repeat' (first
    | with_reducible assumption
    | with_reducible exact Or.inl rfl
    | with_reducible exact hP.trans (by decide)
    | exact Or.inr (hP.mem (by decide))
    | exact hP.mem (by decide)
    | with_reducible refine of_pair ‹_ = (_, _)› ?_
    | with_reducible apply next_leads
    | with_reducible apply reportBy_moves
    | with_reducible apply at_moves
    | with_reducible apply ite_moves
    | with_reducible apply ite_moves_snd
    | with_reducible apply ite_leads
    | with_reducible intro _
    | split
    | with_reducible exact id
    | with_reducible exact Or.inl ⟨rfl, rfl⟩
    | with_reducible exact Or.inl ⟨rfl, rfl, rfl⟩
    | with_reducible exact Or.inl ⟨rfl, rfl, rfl, rfl⟩
    | with_reducible exact Or.inl ⟨rfl, rfl, rfl, rfl, rfl⟩
    | decide
    | with_reducible apply ite_le
    | exact Nat.le_of_ble_eq_true rfl
    | dsimp only
    | with_reducible refine Moves.chg rfl ?_ ?_ ?_ ?_ ?_ ?_ ?_ ?_ ?_ ?_ ?_ ?_ ?_ ?_ ?_ ?_ ?_ ?_ ?_ ?_ ?_ ?_ ?_ ?_ ?_ ?_ ?_ ?_ ?_ ?_ ?_ ?_ ?_ ?_
    | with_reducible refine Or.inr (And.intro ?_ ?_)
    | with_reducible refine And.intro ?_ ?_)

end Sys2Proof.Machine
end

