-- ==== Sys2Proof/Laws/PerInstr.lean ====
section
/-! SUPPORT. A fact about every command as syntax, one lemma for each constructor: its footprint names the time, which every
command moves, and names no part twice. -/

set_option Elab.async false
set_option linter.all false

namespace Sys2Proof.Laws.Footprint

open Sys2Proof Sys2Proof.Machine

/-- The footprint of a command holds the time, and no part twice. -/
def Statement (c : Instr) : Prop := (c.touches.contains .time && decide c.touches.Nodup) = true

theorem powerApplied (w : When) (feed1 feed2 : Nat) (coding : Fin 4) (latchOpen powerGood : Bool) : Statement (.powerApplied w feed1 feed2 coding latchOpen powerGood) := rfl
theorem bootRomSelect (w : When) : Statement (.bootRomSelect w) := rfl
theorem comparatorSelftest (w : When) (fail : Option SelfTestFail) : Statement (.comparatorSelftest w fail) := rfl
theorem memClear (w : When) (who : Agent) : Statement (.memClear w who) := rfl
theorem memClearDone (w : When) : Statement (.memClearDone w) := rfl
theorem keeperCheck (w : When) : Statement (.keeperCheck w) := rfl
theorem generationLoad (w : When) : Statement (.generationLoad w) := rfl
theorem pairNegotiation (w : When) : Statement (.pairNegotiation w) := rfl
theorem negotiateTimeout (w : When) : Statement (.negotiateTimeout w) := rfl
theorem periodStrobe (w : When) (m : Measured) : Statement (.periodStrobe w m) := rfl
theorem maskMiss (w : When) : Statement (.maskMiss w) := rfl
theorem strobeLoss (w : When) (island : Nat) : Statement (.strobeLoss w island) := rfl
theorem syncReceived (w : When) (f : SyncFrame) : Statement (.syncReceived w f) := rfl
theorem ptpAnnounceReceived (w : When) (port : Fin 66) (f : Announce) : Statement (.ptpAnnounceReceived w port f) := rfl
theorem ppsEdge (w : When) (stamp : Nat) (freqEst : Int) : Statement (.ppsEdge w stamp freqEst) := rfl
theorem irigbFrame (w : When) (f : IrigFrame) : Statement (.irigbFrame w f) := rfl
theorem sourceLoss (w : When) : Statement (.sourceLoss w) := rfl
theorem sourceQualified (w : When) (kind : Fin 4) (port : Fin 66) : Statement (.sourceQualified w kind port) := rfl
theorem acqTimeout (w : When) : Statement (.acqTimeout w) := rfl
theorem holdoverLimit (w : When) : Statement (.holdoverLimit w) := rfl
theorem leapApply (w : When) : Statement (.leapApply w) := rfl
theorem tmbSnap (w : When) (who : Agent) : Statement (.tmbSnap w who) := rfl
theorem stepAccept (w : When) (who : Agent) : Statement (.stepAccept w who) := rfl
theorem tmbFreqTrimWrite (w : When) (who : Agent) (v : Word) : Statement (.tmbFreqTrimWrite w who v) := rfl
theorem tmbPhaseStepWrite (w : When) (who : Agent) (v : Word) : Statement (.tmbPhaseStepWrite w who v) := rfl
theorem tmbSrcWrite (w : When) (who : Agent) (v : Word) : Statement (.tmbSrcWrite w who v) := rfl
theorem pulseArm (w : When) (who : Agent) (g : Fin 12) : Statement (.pulseArm w who g) := rfl
theorem pulseDisarm (w : When) (who : Agent) (g : Fin 12) : Statement (.pulseDisarm w who g) := rfl
theorem pulseEdge (w : When) (g : Fin 12) : Statement (.pulseEdge w g) := rfl
theorem syncTransmit (w : When) (port : Fin 64) (stampA stampB : Nat) : Statement (.syncTransmit w port stampA stampB) := rfl
theorem announceTransmit (w : When) (port : Fin 64) : Statement (.announceTransmit w port) := rfl
theorem pdelayReqTransmit (w : When) (port : Fin 66) (stamp : Nat) : Statement (.pdelayReqTransmit w port stamp) := rfl
theorem pdelayReqReceived (w : When) (port : Fin 66) (m : PdelayReq) (txStamp : Nat) : Statement (.pdelayReqReceived w port m txStamp) := rfl
theorem pdelayRespReceived (w : When) (f : PdelayResp) : Statement (.pdelayRespReceived w f) := rfl
theorem portLinkChange (w : When) (port : Fin 64) (up : Bool) : Statement (.portLinkChange w port up) := rfl
theorem laserOffWrite (w : When) (who : Agent) (port : Fin 64) (off : Bool) : Statement (.laserOffWrite w who port off) := rfl
theorem replyReceived (w : When) (port : Fin 64) (f : ReplyFrame) : Statement (.replyReceived w port f) := rfl
theorem helloReceived (w : When) (port : Fin 64) (f : HelloFrame) : Statement (.helloReceived w port f) := rfl
theorem resyncSend (w : When) (station : Fin 2048) (task : Fin 16) : Statement (.resyncSend w station task) := rfl
theorem surgeFragmentReceived (w : When) (port : Fin 64) (f : SurgeFrag) : Statement (.surgeFragmentReceived w port f) := rfl
theorem surgeWindowTimeout (w : When) (port : Fin 64) (station windowId : Nat) : Statement (.surgeWindowTimeout w port station windowId) := rfl
theorem unknownFrame (w : When) (port : Fin 64) (kind : DropKind) : Statement (.unknownFrame w port kind) := rfl
theorem prpSupervision (w : When) (port : Fin 32) : Statement (.prpSupervision w port) := rfl
theorem controlQueueError (w : When) (q : CtlQueue) : Statement (.controlQueueError w q) := rfl
theorem dataQueueError (w : When) (q : DataQueue) (corrected : Bool) : Statement (.dataQueueError w q corrected) := rfl
theorem opticalModuleChange (w : When) (cage : Fin 16) (fitted highPower signal txFault : Bool) : Statement (.opticalModuleChange w cage fitted highPower signal txFault) := rfl
theorem svFrameReceived (w : When) (port : Fin 64) (f : SvFrame) : Statement (.svFrameReceived w port f) := rfl
theorem subscriptionLost (w : When) (sub : Fin 512) : Statement (.subscriptionLost w sub) := rfl
theorem slotEmit (w : When) : Statement (.slotEmit w) := rfl
theorem sviFrzReq (w : When) (who : Agent) : Statement (.sviFrzReq w who) := rfl
theorem sviFrzRelease (w : When) (who : Agent) (win : Fin 4) : Statement (.sviFrzRelease w who win) := rfl
theorem archiveFreeze (w : When) (ses : Fin 8) (pre post tSec : Nat) (tNs : SubSec) : Statement (.archiveFreeze w ses pre post tSec tNs) := rfl
theorem archiveRelease (w : When) (ses : Fin 8) (win : Nat) : Statement (.archiveRelease w ses win) := rfl
theorem archiveReadRows (w : When) (ses : Fin 8) (r : RowsRead) : Statement (.archiveReadRows w ses r) := rfl
theorem archiveReadMemory (w : When) (ses : Fin 8) (addr len64 : Nat) (faults : List (Nat × MemFault)) : Statement (.archiveReadMemory w ses addr len64 faults) := rfl
theorem publicationFrameSend (w : When) (host : Fin 2) (readFault : MemFault) : Statement (.publicationFrameSend w host readFault) := rfl
theorem c37TcpConnect (w : When) (host : Fin 2) (stream : Fin 64) (conn : Nat) : Statement (.c37TcpConnect w host stream conn) := rfl
theorem c37TcpClose (w : When) (stream : Fin 64) (conn : Nat) : Statement (.c37TcpClose w stream conn) := rfl
theorem c37TxOff (w : When) (c : C37Cmd) : Statement (.c37TxOff w c) := rfl
theorem c37TxOn (w : When) (c : C37Cmd) : Statement (.c37TxOn w c) := rfl
theorem c37SendCfg2 (w : When) (c : C37Cmd) : Statement (.c37SendCfg2 w c) := rfl
theorem c37SendCfg3 (w : When) (c : C37Cmd) : Statement (.c37SendCfg3 w c) := rfl
theorem c37CommandIgnored (w : When) : Statement (.c37CommandIgnored w) := rfl
theorem wceWindowTake (w : When) : Statement (.wceWindowTake w) := rfl
theorem wceCollectExpiry (w : When) : Statement (.wceCollectExpiry w) := rfl
theorem wceResult (w : When) : Statement (.wceResult w) := rfl
theorem wceRecommit (w : When) : Statement (.wceRecommit w) := rfl
theorem taskFreeze (w : When) (f : Freeze) : Statement (.taskFreeze w f) := rfl
theorem taskStartSignal (w : When) (task : Fin 16) (d : Digests) : Statement (.taskStartSignal w task d) := rfl
theorem seqCommit (w : When) (who : Agent) (task : Fin 16) : Statement (.seqCommit w who task) := rfl
theorem commitComplete (w : When) (task : Fin 16) : Statement (.commitComplete w task) := rfl
theorem retNow (w : When) (who : Agent) : Statement (.retNow w who) := rfl
theorem forceSet (w : When) (ses : Fin 8) (tag : Nat) (value : Word) : Statement (.forceSet w ses tag value) := rfl
theorem forceClear (w : When) (ses : Fin 8) (tag : Nat) : Statement (.forceClear w ses tag) := rfl
theorem forceRead (w : When) (ses : Fin 8) (idx : Nat) : Statement (.forceRead w ses idx) := rfl
theorem triadTransaction (w : When) (cycle : Nat) (l0 l1 l2 : LaneTx) : Statement (.triadTransaction w cycle l0 l1 l2) := rfl
theorem rejoinStartTimeout (w : When) : Statement (.rejoinStartTimeout w) := rfl
theorem tcmCopyComplete (w : When) : Statement (.tcmCopyComplete w) := rfl
theorem rejoinFinalStep (w : When) (d : Digests) : Statement (.rejoinFinalStep w d) := rfl
theorem split (w : When) (who : Agent) : Statement (.split w who) := rfl
theorem splitEnd (w : When) (who : Agent) (d : Digests) : Statement (.splitEnd w who d) := rfl
theorem debugArm (w : When) (who : Agent) (lane : Fin 4) : Statement (.debugArm w who lane) := rfl
theorem debugDetach (w : When) (who : Agent) : Statement (.debugDetach w who) := rfl
theorem debugArmLapse (w : When) : Statement (.debugArmLapse w) := rfl
theorem probeAttach (w : When) (lane : Fin 4) (session : Nat) : Statement (.probeAttach w lane session) := rfl
theorem probeDetach (w : When) : Statement (.probeDetach w) := rfl
theorem masterTransaction (w : When) (tx : Tx) : Statement (.masterTransaction w tx) := rfl
theorem budgetExhausted (w : When) (stall : Stall) (charge : Nat) (d : Digests) : Statement (.budgetExhausted w stall charge d) := rfl
theorem sensorConversion (w : When) (sensor : Fin 12) (temp : Int) : Statement (.sensorConversion w sensor temp) := rfl
theorem thermalDegradedEntry (w : When) : Statement (.thermalDegradedEntry w) := rfl
theorem thermalHandoverRepeat (w : When) : Statement (.thermalHandoverRepeat w) := rfl
theorem thermalDegradedExit (w : When) : Statement (.thermalDegradedExit w) := rfl
theorem feedStateChange (w : When) (mv1 mv2 : Nat) (carry : Fin 3) : Statement (.feedStateChange w mv1 mv2 carry) := rfl
theorem powerFail (w : When) (rideLow : Bool) : Statement (.powerFail w rideLow) := rfl
theorem finalRoundComplete (w : When) (complete : Bool) (stored : Nat) : Statement (.finalRoundComplete w complete stored) := rfl
theorem bankTest (w : When) : Statement (.bankTest w) := rfl
theorem bankTestComplete (w : When) (ride hold : Nat) : Statement (.bankTestComplete w ride hold) := rfl
theorem overtempTrip (w : When) (sensor : Fin 12) : Statement (.overtempTrip w sensor) := rfl
theorem overtempRecover (w : When) : Statement (.overtempRecover w) := rfl
theorem wvlAlive (w : When) (who : Agent) : Statement (.wvlAlive w who) := rfl
theorem heartbeatReceived (w : When) (h : Heartbeat) : Statement (.heartbeatReceived w h) := rfl
theorem linkFrameDiscard (w : When) (lane : Fin 4) (e : LinkErr) : Statement (.linkFrameDiscard w lane e) := rfl
theorem laneDown (w : When) (lane : Fin 4) : Statement (.laneDown w lane) := rfl
theorem heartbeatMiss (w : When) : Statement (.heartbeatMiss w) := rfl
theorem takeover (w : When) : Statement (.takeover w) := rfl
theorem copyReceived (w : When) (h : LinkHdr) (c : CopyMsg) : Statement (.copyReceived w h c) := rfl
theorem reseedSend (w : When) (task : Fin 16) (lines : Nat) : Statement (.reseedSend w task lines) := rfl
theorem reseedReceived (w : When) (h : LinkHdr) (m : ReseedMsg) : Statement (.reseedReceived w h m) := rfl
theorem relinquishReceived (w : When) (h : LinkHdr) (hstrobe : Nat) : Statement (.relinquishReceived w h hstrobe) := rfl
theorem handoverAnnounce (w : When) : Statement (.handoverAnnounce w) := rfl
theorem handoverReceived (w : When) (h : LinkHdr) (m : HandoverMsg) : Statement (.handoverReceived w h m) := rfl
theorem handoverAckReceived (w : When) (h : LinkHdr) (hstrobe : Nat) : Statement (.handoverAckReceived w h hstrobe) := rfl
theorem handoverStrobe (w : When) : Statement (.handoverStrobe w) := rfl
theorem yieldToPartner (w : When) : Statement (.yieldToPartner w) := rfl
theorem wvlHandover (w : When) (who : Agent) : Statement (.wvlHandover w who) := rfl
theorem pairHandover (w : When) (ses : Fin 8) : Statement (.pairHandover w ses) := rfl
theorem pairTakeover (w : When) (ses : Fin 8) : Statement (.pairTakeover w ses) := rfl
theorem pairResync (w : When) (ses : Fin 8) : Statement (.pairResync w ses) := rfl
theorem pairEpochAdvance (w : When) (ses : Fin 8) (amount : Nat) : Statement (.pairEpochAdvance w ses amount) := rfl
theorem pairForcePrimary (w : When) (ses : Fin 8) : Statement (.pairForcePrimary w ses) := rfl
theorem scrubFloor (w : When) (fault : MemFault) : Statement (.scrubFloor w fault) := rfl
theorem scrubLine (w : When) (who : Agent) (fault : MemFault) : Statement (.scrubLine w who fault) := rfl
theorem retire (w : When) (who : Agent) : Statement (.retire w who) := rfl
theorem retireCopyComplete (w : When) (faults : List (Nat × MemFault)) : Statement (.retireCopyComplete w faults) := rfl
theorem purgeForeign (w : When) (who : Agent) : Statement (.purgeForeign w who) := rfl
theorem ceLogAck (w : When) (who : Agent) (idx : Fin 32) : Statement (.ceLogAck w who idx) := rfl
theorem crtRtInstall (w : When) (who : Agent) : Statement (.crtRtInstall w who) := rfl
theorem crtRtEmpty (w : When) (who : Agent) : Statement (.crtRtEmpty w who) := rfl
theorem crtRtInvalidAction (w : When) (who : Agent) : Statement (.crtRtInvalidAction w who) := rfl
theorem crtDrainComplete (w : When) : Statement (.crtDrainComplete w) := rfl
theorem wardDrainComplete (w : When) (ward : Fin 9) : Statement (.wardDrainComplete w ward) := rfl
theorem keeperInsert (w : When) (c : Cartridge) : Statement (.keeperInsert w c) := rfl
theorem boltClose (w : When) : Statement (.boltClose w) := rfl
theorem boltOpen (w : When) : Statement (.boltOpen w) := rfl
theorem keeperSafe (w : When) : Statement (.keeperSafe w) := rfl
theorem keeperRemove (w : When) : Statement (.keeperRemove w) := rfl
theorem commission (w : When) (who : Agent) : Statement (.commission w who) := rfl
theorem recommission (w : When) (who : Agent) : Statement (.recommission w who) := rfl
theorem keeperPageAdmit (w : When) : Statement (.keeperPageAdmit w) := rfl
theorem bitstreamStoreComplete (w : When) (ok : Bool) : Statement (.bitstreamStoreComplete w ok) := rfl
theorem partnerStoreComplete (w : When) (ok : Bool) : Statement (.partnerStoreComplete w ok) := rfl
theorem keeperStale (w : When) : Statement (.keeperStale w) := rfl
theorem ledgerPageTimeout (w : When) : Statement (.ledgerPageTimeout w) := rfl
theorem suppressionSummary (w : When) : Statement (.suppressionSummary w) := rfl
theorem lgrReq (w : When) (who : Agent) : Statement (.lgrReq w who) := rfl
theorem lgrRead (w : When) (who : Agent) : Statement (.lgrRead w who) := rfl
theorem lgrSnap (w : When) (who : Agent) : Statement (.lgrSnap w who) := rfl
theorem ledgerSnap (w : When) (ses : Fin 8) : Statement (.ledgerSnap w ses) := rfl
theorem ledgerRead (w : When) (ses : Fin 8) (first count : Nat) : Statement (.ledgerRead w ses first count) := rfl
theorem sourceSevere (w : When) (source : Fin 48) (d : Digests) (e : UnitErrors) : Statement (.sourceSevere w source d e) := rfl
theorem fcrAck (w : When) (who : Agent) (source : Fin 64) : Statement (.fcrAck w who source) := rfl
theorem fcrCfgWrite (w : When) (who : Agent) (v : Word) : Statement (.fcrCfgWrite w who v) := rfl
theorem shpConnect (w : When) (port : Fin 2) (linkLocal : Bool) : Statement (.shpConnect w port linkLocal) := rfl
theorem tlsHandshake (w : When) (ses : Fin 8) (h : Handshake) : Statement (.tlsHandshake w ses h) := rfl
theorem handshakeTimeout (w : When) (ses : Fin 8) : Statement (.handshakeTimeout w ses) := rfl
theorem sessionIdleTimeout (w : When) (ses : Fin 8) : Statement (.sessionIdleTimeout w ses) := rfl
theorem sessionClose (w : When) (ses : Fin 8) (framing : Bool) : Statement (.sessionClose w ses framing) := rfl
theorem hello (w : When) (ses : Fin 8) (version : Nat) : Statement (.hello w ses version) := rfl
theorem read (w : When) (ses : Fin 8) (addrs : List Nat) : Statement (.read w ses addrs) := rfl
theorem write (w : When) (ses : Fin 8) (entries : List (Nat × Word)) : Statement (.write w ses entries) := rfl
theorem shpReservedType (w : When) (ses : Fin 8) (ty : Nat) : Statement (.shpReservedType w ses ty) := rfl
theorem bitstreamLoadBlock (w : When) (ses : Fin 8) (offset : Nat) (data : List Byte) : Statement (.bitstreamLoadBlock w ses offset data) := rfl
theorem firmwareLoadBlock (w : When) (ses : Fin 8) (offset : Nat) (data : FlashBlock) : Statement (.firmwareLoadBlock w ses offset data) := rfl
theorem accessSetLoadBlock (w : When) (ses : Fin 8) (offset : Nat) (data : List Byte) : Statement (.accessSetLoadBlock w ses offset data) := rfl
theorem bitstreamCommit (w : When) (ses : Fin 8) : Statement (.bitstreamCommit w ses) := rfl
theorem bitstreamRevert (w : When) (ses : Fin 8) : Statement (.bitstreamRevert w ses) := rfl
theorem bitstreamAbort (w : When) (ses : Fin 8) : Statement (.bitstreamAbort w ses) := rfl
theorem bslAbort (w : When) (who : Agent) : Statement (.bslAbort w who) := rfl
theorem bitstreamLoadTimeout (w : When) : Statement (.bitstreamLoadTimeout w) := rfl
theorem firmwareCommit (w : When) (ses : Fin 8) : Statement (.firmwareCommit w ses) := rfl
theorem firmwareReadbackComplete (w : When) (flashOk : Bool) : Statement (.firmwareReadbackComplete w flashOk) := rfl
theorem firmwareRevert (w : When) (ses : Fin 8) : Statement (.firmwareRevert w ses) := rfl
theorem firmwareAbort (w : When) (ses : Fin 8) : Statement (.firmwareAbort w ses) := rfl
theorem updAbort (w : When) (who : Agent) : Statement (.updAbort w who) := rfl
theorem firmwareLoadTimeout (w : When) : Statement (.firmwareLoadTimeout w) := rfl
theorem accessSetCommit (w : When) (ses : Fin 8) (act : AccessAct) (chainOk : Bool) : Statement (.accessSetCommit w ses act chainOk) := rfl
theorem accessSetStored (w : When) : Statement (.accessSetStored w) := rfl
theorem notifySubscribe (w : When) (ses : Fin 8) (kinds : Fin 4) (sources : BitVec 160) : Statement (.notifySubscribe w ses kinds sources) := rfl
theorem notifyLostReport (w : When) (ses : Fin 8) : Statement (.notifyLostReport w ses) := rfl
theorem bulkReadWithheld (w : When) (ses : Fin 8) : Statement (.bulkReadWithheld w ses) := rfl
theorem trimZero (w : When) (ses : Fin 8) (channel : Nat) (v : Int) : Statement (.trimZero w ses channel v) := rfl
theorem trimSpan (w : When) (ses : Fin 8) (channel : Nat) (v : Int) : Statement (.trimSpan w ses channel v) := rfl
theorem hostArpRequest (w : When) (port : Fin 2) (target : Nat) : Statement (.hostArpRequest w port target) := rfl
theorem hostNeighbourSolicitation (w : When) (port : Fin 2) (target : Nat) : Statement (.hostNeighbourSolicitation w port target) := rfl
theorem hostEchoRequest (w : When) (port : Fin 2) (v6 : Bool) (target : Nat) : Statement (.hostEchoRequest w port v6 target) := rfl
theorem hostFrameDiscard (w : When) (port : Fin 2) : Statement (.hostFrameDiscard w port) := rfl
theorem hostLinkChange (w : When) (port : Fin 2) (up : Bool) : Statement (.hostLinkChange w port up) := rfl
theorem diChangeAccept (w : When) (ch : Fin 16) (level : Bool) (stamp : Nat) : Statement (.diChangeAccept w ch level stamp) := rfl
theorem diWireBreak (w : When) (ch : Fin 16) : Statement (.diWireBreak w ch) := rfl
theorem diWireBreakClear (w : When) (ch : Fin 16) : Statement (.diWireBreakClear w ch) := rfl
theorem outputApply (w : When) (task : Fin 16) : Statement (.outputApply w task) := rfl
theorem doToggleWaitEnd (w : When) (ch : Fin 8) : Statement (.doToggleWaitEnd w ch) := rfl
theorem doShutdown (w : When) (ch : Fin 8) : Statement (.doShutdown w ch) := rfl
theorem doRetry (w : When) (ch : Fin 8) (holds : Bool) : Statement (.doRetry w ch holds) := rfl
theorem doMismatch (w : When) (ch : Fin 8) (present : Bool) : Statement (.doMismatch w ch present) := rfl
theorem aoTerminalFault (w : When) (ch : Fin 4) : Statement (.aoTerminalFault w ch) := rfl
theorem aoTerminalTest (w : When) (ch : Fin 4) (inRange : Bool) : Statement (.aoTerminalTest w ch inRange) := rfl
theorem aoCommission (w : When) (who : Agent) (ch : Fin 4) : Statement (.aoCommission w who ch) := rfl
theorem aoCommissionEnd (w : When) (who : Agent) : Statement (.aoCommissionEnd w who) := rfl
theorem zeroButton (w : When) : Statement (.zeroButton w) := rfl
theorem spanButton (w : When) : Statement (.spanButton w) := rfl
theorem commissionTimeout (w : When) : Statement (.commissionTimeout w) := rfl
theorem fieldSupplyChange (w : When) (mv : Nat) : Statement (.fieldSupplyChange w mv) := rfl
theorem terminalBlockUnplug (w : When) : Statement (.terminalBlockUnplug w) := rfl
theorem restartWarm (w : When) (who : Agent) : Statement (.restartWarm w who) := rfl
theorem restartCold (w : When) (who : Agent) : Statement (.restartCold w who) := rfl
theorem restartExecute (w : When) (stored : Nat) : Statement (.restartExecute w stored) := rfl
theorem latchOpen (w : When) : Statement (.latchOpen w) := rfl
theorem latchClose (w : When) : Statement (.latchClose w) := rfl
theorem registerWrite (w : When) (who : Agent) (addr : Nat) (v : Word) (d : Digests) : Statement (.registerWrite w who addr v d) := rfl
theorem followUpReceived (w : When) (f : SyncFrame) (isPdelay : Bool) : Statement (.followUpReceived w f isPdelay) := rfl
theorem ptpFrameDiscard (w : When) (port : Fin 66) : Statement (.ptpFrameDiscard w port) := rfl
theorem frameCheckError (w : When) (port : Fin 66) : Statement (.frameCheckError w port) := rfl
theorem partnerCommitReceived (w : When) (h : LinkHdr) (gen digest : Nat) : Statement (.partnerCommitReceived w h gen digest) := rfl
theorem activationPeriodReceived (w : When) (h : LinkHdr) (a : Nat) : Statement (.activationPeriodReceived w h a) := rfl
theorem keeperWriteComplete (w : When) (ok : Bool) : Statement (.keeperWriteComplete w ok) := rfl
theorem scrubAboveFloor (w : When) (fault : MemFault) : Statement (.scrubAboveFloor w fault) := rfl

end Sys2Proof.Laws.Footprint
end

