-- ==== Sys2Proof/Laws/State.lean ====
section
/-! SUPPORT. Which fields of the state the shared operations leave as they were: one lemma per field per operation. -/

namespace Sys2Proof.Machine

open Sys2Proof

theorem when_true (f : State → State) (s : State) : when true f s = f s := rfl

theorem when_false (f : State → State) (s : State) : when false f s = s := rfl

@[simp] theorem at_pending (s : State) (w : When) : (State.at s w).pending = s.pending := rfl
@[simp] theorem at_pcount (s : State) (w : When) : (State.at s w).pcount = s.pcount := rfl
@[simp] theorem at_followers (s : State) (w : When) : (State.at s w).followers = s.followers := rfl
@[simp] theorem at_discont (s : State) (w : When) : (State.at s w).discont = s.discont := rfl
@[simp] theorem at_fresh (s : State) (w : When) : (State.at s w).fresh = s.fresh := rfl
@[simp] theorem at_gen (s : State) (w : When) : (State.at s w).gen = s.gen := rfl
@[simp] theorem at_evt (s : State) (w : When) : (State.at s w).evt = s.evt := rfl
@[simp] theorem at_tmb (s : State) (w : When) : (State.at s w).tmb = s.tmb := rfl
@[simp] theorem at_prt (s : State) (w : When) : (State.at s w).prt = s.prt := rfl
@[simp] theorem at_svi (s : State) (w : When) : (State.at s w).svi = s.svi := rfl
@[simp] theorem at_phe (s : State) (w : When) : (State.at s w).phe = s.phe := rfl
@[simp] theorem at_wce (s : State) (w : When) : (State.at s w).wce = s.wce := rfl
@[simp] theorem at_seq (s : State) (w : When) : (State.at s w).seq = s.seq := rfl
@[simp] theorem at_trd (s : State) (w : When) : (State.at s w).trd = s.trd := rfl
@[simp] theorem at_bgt (s : State) (w : When) : (State.at s w).bgt = s.bgt := rfl
@[simp] theorem at_ptm (s : State) (w : When) : (State.at s w).ptm = s.ptm := rfl
@[simp] theorem at_wvl (s : State) (w : When) : (State.at s w).wvl = s.wvl := rfl
@[simp] theorem at_mem (s : State) (w : When) : (State.at s w).mem = s.mem := rfl
@[simp] theorem at_wrd (s : State) (w : When) : (State.at s w).wrd = s.wrd := rfl
@[simp] theorem at_fcr (s : State) (w : When) : (State.at s w).fcr = s.fcr := rfl
@[simp] theorem at_lgr (s : State) (w : When) : (State.at s w).lgr = s.lgr := rfl
@[simp] theorem at_kpr (s : State) (w : When) : (State.at s w).kpr = s.kpr := rfl
@[simp] theorem at_bsl (s : State) (w : When) : (State.at s w).bsl = s.bsl := rfl
@[simp] theorem at_upd (s : State) (w : When) : (State.at s w).upd = s.upd := rfl
@[simp] theorem at_fio (s : State) (w : When) : (State.at s w).fio = s.fio := rfl
@[simp] theorem at_hif (s : State) (w : When) : (State.at s w).hif = s.hif := rfl
@[simp] theorem at_cfg (s : State) (w : When) : (State.at s w).cfg = s.cfg := rfl
@[simp] theorem at_latchFw (s : State) (w : When) : (State.at s w).latchFw = s.latchFw := rfl
@[simp] theorem at_latchHost (s : State) (w : When) : (State.at s w).latchHost = s.latchHost := rfl
@[simp] theorem at_out (s : State) (w : When) : (State.at s w).out = s.out := rfl

@[simp] theorem emit_pending (o : Out) (s : State) : (emit o s).pending = s.pending := rfl
@[simp] theorem emit_now (o : Out) (s : State) : (emit o s).now = s.now := rfl
@[simp] theorem emit_aon (o : Out) (s : State) : (emit o s).aon = s.aon := rfl
@[simp] theorem emit_pcount (o : Out) (s : State) : (emit o s).pcount = s.pcount := rfl
@[simp] theorem emit_followers (o : Out) (s : State) : (emit o s).followers = s.followers := rfl
@[simp] theorem emit_discont (o : Out) (s : State) : (emit o s).discont = s.discont := rfl
@[simp] theorem emit_fresh (o : Out) (s : State) : (emit o s).fresh = s.fresh := rfl
@[simp] theorem emit_msgTag (o : Out) (s : State) : (emit o s).msgTag = s.msgTag := rfl
@[simp] theorem emit_gen (o : Out) (s : State) : (emit o s).gen = s.gen := rfl
@[simp] theorem emit_evt (o : Out) (s : State) : (emit o s).evt = s.evt := rfl
@[simp] theorem emit_tmb (o : Out) (s : State) : (emit o s).tmb = s.tmb := rfl
@[simp] theorem emit_prt (o : Out) (s : State) : (emit o s).prt = s.prt := rfl
@[simp] theorem emit_svi (o : Out) (s : State) : (emit o s).svi = s.svi := rfl
@[simp] theorem emit_phe (o : Out) (s : State) : (emit o s).phe = s.phe := rfl
@[simp] theorem emit_wce (o : Out) (s : State) : (emit o s).wce = s.wce := rfl
@[simp] theorem emit_seq (o : Out) (s : State) : (emit o s).seq = s.seq := rfl
@[simp] theorem emit_trd (o : Out) (s : State) : (emit o s).trd = s.trd := rfl
@[simp] theorem emit_bgt (o : Out) (s : State) : (emit o s).bgt = s.bgt := rfl
@[simp] theorem emit_ptm (o : Out) (s : State) : (emit o s).ptm = s.ptm := rfl
@[simp] theorem emit_wvl (o : Out) (s : State) : (emit o s).wvl = s.wvl := rfl
@[simp] theorem emit_mem (o : Out) (s : State) : (emit o s).mem = s.mem := rfl
@[simp] theorem emit_wrd (o : Out) (s : State) : (emit o s).wrd = s.wrd := rfl
@[simp] theorem emit_fcr (o : Out) (s : State) : (emit o s).fcr = s.fcr := rfl
@[simp] theorem emit_lgr (o : Out) (s : State) : (emit o s).lgr = s.lgr := rfl
@[simp] theorem emit_kpr (o : Out) (s : State) : (emit o s).kpr = s.kpr := rfl
@[simp] theorem emit_bsl (o : Out) (s : State) : (emit o s).bsl = s.bsl := rfl
@[simp] theorem emit_upd (o : Out) (s : State) : (emit o s).upd = s.upd := rfl
@[simp] theorem emit_fio (o : Out) (s : State) : (emit o s).fio = s.fio := rfl
@[simp] theorem emit_hif (o : Out) (s : State) : (emit o s).hif = s.hif := rfl
@[simp] theorem emit_cfg (o : Out) (s : State) : (emit o s).cfg = s.cfg := rfl
@[simp] theorem emit_latchFw (o : Out) (s : State) : (emit o s).latchFw = s.latchFw := rfl
@[simp] theorem emit_latchHost (o : Out) (s : State) : (emit o s).latchHost = s.latchHost := rfl

@[simp] theorem draw_pending (s : State) : (draw s).2.pending = s.pending := rfl
@[simp] theorem draw_now (s : State) : (draw s).2.now = s.now := rfl
@[simp] theorem draw_aon (s : State) : (draw s).2.aon = s.aon := rfl
@[simp] theorem draw_pcount (s : State) : (draw s).2.pcount = s.pcount := rfl
@[simp] theorem draw_followers (s : State) : (draw s).2.followers = s.followers := rfl
@[simp] theorem draw_discont (s : State) : (draw s).2.discont = s.discont := rfl
@[simp] theorem draw_msgTag (s : State) : (draw s).2.msgTag = s.msgTag := rfl
@[simp] theorem draw_gen (s : State) : (draw s).2.gen = s.gen := rfl
@[simp] theorem draw_evt (s : State) : (draw s).2.evt = s.evt := rfl
@[simp] theorem draw_tmb (s : State) : (draw s).2.tmb = s.tmb := rfl
@[simp] theorem draw_prt (s : State) : (draw s).2.prt = s.prt := rfl
@[simp] theorem draw_svi (s : State) : (draw s).2.svi = s.svi := rfl
@[simp] theorem draw_phe (s : State) : (draw s).2.phe = s.phe := rfl
@[simp] theorem draw_wce (s : State) : (draw s).2.wce = s.wce := rfl
@[simp] theorem draw_seq (s : State) : (draw s).2.seq = s.seq := rfl
@[simp] theorem draw_trd (s : State) : (draw s).2.trd = s.trd := rfl
@[simp] theorem draw_bgt (s : State) : (draw s).2.bgt = s.bgt := rfl
@[simp] theorem draw_ptm (s : State) : (draw s).2.ptm = s.ptm := rfl
@[simp] theorem draw_wvl (s : State) : (draw s).2.wvl = s.wvl := rfl
@[simp] theorem draw_mem (s : State) : (draw s).2.mem = s.mem := rfl
@[simp] theorem draw_wrd (s : State) : (draw s).2.wrd = s.wrd := rfl
@[simp] theorem draw_fcr (s : State) : (draw s).2.fcr = s.fcr := rfl
@[simp] theorem draw_lgr (s : State) : (draw s).2.lgr = s.lgr := rfl
@[simp] theorem draw_kpr (s : State) : (draw s).2.kpr = s.kpr := rfl
@[simp] theorem draw_bsl (s : State) : (draw s).2.bsl = s.bsl := rfl
@[simp] theorem draw_upd (s : State) : (draw s).2.upd = s.upd := rfl
@[simp] theorem draw_fio (s : State) : (draw s).2.fio = s.fio := rfl
@[simp] theorem draw_hif (s : State) : (draw s).2.hif = s.hif := rfl
@[simp] theorem draw_cfg (s : State) : (draw s).2.cfg = s.cfg := rfl
@[simp] theorem draw_latchFw (s : State) : (draw s).2.latchFw = s.latchFw := rfl
@[simp] theorem draw_latchHost (s : State) : (draw s).2.latchHost = s.latchHost := rfl
@[simp] theorem draw_out (s : State) : (draw s).2.out = s.out := rfl

@[simp] theorem setMem_pending (s : State) (m : Memory) : (State.setMem s m).pending = s.pending := rfl
@[simp] theorem setMem_now (s : State) (m : Memory) : (State.setMem s m).now = s.now := rfl
@[simp] theorem setMem_aon (s : State) (m : Memory) : (State.setMem s m).aon = s.aon := rfl
@[simp] theorem setMem_pcount (s : State) (m : Memory) : (State.setMem s m).pcount = s.pcount := rfl
@[simp] theorem setMem_followers (s : State) (m : Memory) : (State.setMem s m).followers = s.followers := rfl
@[simp] theorem setMem_discont (s : State) (m : Memory) : (State.setMem s m).discont = s.discont := rfl
@[simp] theorem setMem_fresh (s : State) (m : Memory) : (State.setMem s m).fresh = s.fresh := rfl
@[simp] theorem setMem_msgTag (s : State) (m : Memory) : (State.setMem s m).msgTag = s.msgTag := rfl
@[simp] theorem setMem_gen (s : State) (m : Memory) : (State.setMem s m).gen = s.gen := rfl
@[simp] theorem setMem_evt (s : State) (m : Memory) : (State.setMem s m).evt = s.evt := rfl
@[simp] theorem setMem_tmb (s : State) (m : Memory) : (State.setMem s m).tmb = s.tmb := rfl
@[simp] theorem setMem_prt (s : State) (m : Memory) : (State.setMem s m).prt = s.prt := rfl
@[simp] theorem setMem_svi (s : State) (m : Memory) : (State.setMem s m).svi = s.svi := rfl
@[simp] theorem setMem_phe (s : State) (m : Memory) : (State.setMem s m).phe = s.phe := rfl
@[simp] theorem setMem_wce (s : State) (m : Memory) : (State.setMem s m).wce = s.wce := rfl
@[simp] theorem setMem_seq (s : State) (m : Memory) : (State.setMem s m).seq = s.seq := rfl
@[simp] theorem setMem_trd (s : State) (m : Memory) : (State.setMem s m).trd = s.trd := rfl
@[simp] theorem setMem_bgt (s : State) (m : Memory) : (State.setMem s m).bgt = s.bgt := rfl
@[simp] theorem setMem_ptm (s : State) (m : Memory) : (State.setMem s m).ptm = s.ptm := rfl
@[simp] theorem setMem_wvl (s : State) (m : Memory) : (State.setMem s m).wvl = s.wvl := rfl
@[simp] theorem setMem_wrd (s : State) (m : Memory) : (State.setMem s m).wrd = s.wrd := rfl
@[simp] theorem setMem_fcr (s : State) (m : Memory) : (State.setMem s m).fcr = s.fcr := rfl
@[simp] theorem setMem_lgr (s : State) (m : Memory) : (State.setMem s m).lgr = s.lgr := rfl
@[simp] theorem setMem_kpr (s : State) (m : Memory) : (State.setMem s m).kpr = s.kpr := rfl
@[simp] theorem setMem_bsl (s : State) (m : Memory) : (State.setMem s m).bsl = s.bsl := rfl
@[simp] theorem setMem_upd (s : State) (m : Memory) : (State.setMem s m).upd = s.upd := rfl
@[simp] theorem setMem_fio (s : State) (m : Memory) : (State.setMem s m).fio = s.fio := rfl
@[simp] theorem setMem_hif (s : State) (m : Memory) : (State.setMem s m).hif = s.hif := rfl
@[simp] theorem setMem_cfg (s : State) (m : Memory) : (State.setMem s m).cfg = s.cfg := rfl
@[simp] theorem setMem_latchFw (s : State) (m : Memory) : (State.setMem s m).latchFw = s.latchFw := rfl
@[simp] theorem setMem_latchHost (s : State) (m : Memory) : (State.setMem s m).latchHost = s.latchHost := rfl
@[simp] theorem setMem_out (s : State) (m : Memory) : (State.setMem s m).out = s.out := rfl

@[simp] theorem modSes_pending (i : Fin 8) (f : Session → Session) (s : State) : (modSes i f s).pending = s.pending := rfl
@[simp] theorem modSes_now (i : Fin 8) (f : Session → Session) (s : State) : (modSes i f s).now = s.now := rfl
@[simp] theorem modSes_aon (i : Fin 8) (f : Session → Session) (s : State) : (modSes i f s).aon = s.aon := rfl
@[simp] theorem modSes_pcount (i : Fin 8) (f : Session → Session) (s : State) : (modSes i f s).pcount = s.pcount := rfl
@[simp] theorem modSes_followers (i : Fin 8) (f : Session → Session) (s : State) : (modSes i f s).followers = s.followers := rfl
@[simp] theorem modSes_discont (i : Fin 8) (f : Session → Session) (s : State) : (modSes i f s).discont = s.discont := rfl
@[simp] theorem modSes_fresh (i : Fin 8) (f : Session → Session) (s : State) : (modSes i f s).fresh = s.fresh := rfl
@[simp] theorem modSes_msgTag (i : Fin 8) (f : Session → Session) (s : State) : (modSes i f s).msgTag = s.msgTag := rfl
@[simp] theorem modSes_gen (i : Fin 8) (f : Session → Session) (s : State) : (modSes i f s).gen = s.gen := rfl
@[simp] theorem modSes_evt (i : Fin 8) (f : Session → Session) (s : State) : (modSes i f s).evt = s.evt := rfl
@[simp] theorem modSes_tmb (i : Fin 8) (f : Session → Session) (s : State) : (modSes i f s).tmb = s.tmb := rfl
@[simp] theorem modSes_prt (i : Fin 8) (f : Session → Session) (s : State) : (modSes i f s).prt = s.prt := rfl
@[simp] theorem modSes_svi (i : Fin 8) (f : Session → Session) (s : State) : (modSes i f s).svi = s.svi := rfl
@[simp] theorem modSes_phe (i : Fin 8) (f : Session → Session) (s : State) : (modSes i f s).phe = s.phe := rfl
@[simp] theorem modSes_wce (i : Fin 8) (f : Session → Session) (s : State) : (modSes i f s).wce = s.wce := rfl
@[simp] theorem modSes_seq (i : Fin 8) (f : Session → Session) (s : State) : (modSes i f s).seq = s.seq := rfl
@[simp] theorem modSes_trd (i : Fin 8) (f : Session → Session) (s : State) : (modSes i f s).trd = s.trd := rfl
@[simp] theorem modSes_bgt (i : Fin 8) (f : Session → Session) (s : State) : (modSes i f s).bgt = s.bgt := rfl
@[simp] theorem modSes_ptm (i : Fin 8) (f : Session → Session) (s : State) : (modSes i f s).ptm = s.ptm := rfl
@[simp] theorem modSes_wvl (i : Fin 8) (f : Session → Session) (s : State) : (modSes i f s).wvl = s.wvl := rfl
@[simp] theorem modSes_mem (i : Fin 8) (f : Session → Session) (s : State) : (modSes i f s).mem = s.mem := rfl
@[simp] theorem modSes_wrd (i : Fin 8) (f : Session → Session) (s : State) : (modSes i f s).wrd = s.wrd := rfl
@[simp] theorem modSes_fcr (i : Fin 8) (f : Session → Session) (s : State) : (modSes i f s).fcr = s.fcr := rfl
@[simp] theorem modSes_lgr (i : Fin 8) (f : Session → Session) (s : State) : (modSes i f s).lgr = s.lgr := rfl
@[simp] theorem modSes_kpr (i : Fin 8) (f : Session → Session) (s : State) : (modSes i f s).kpr = s.kpr := rfl
@[simp] theorem modSes_bsl (i : Fin 8) (f : Session → Session) (s : State) : (modSes i f s).bsl = s.bsl := rfl
@[simp] theorem modSes_upd (i : Fin 8) (f : Session → Session) (s : State) : (modSes i f s).upd = s.upd := rfl
@[simp] theorem modSes_fio (i : Fin 8) (f : Session → Session) (s : State) : (modSes i f s).fio = s.fio := rfl
@[simp] theorem modSes_cfg (i : Fin 8) (f : Session → Session) (s : State) : (modSes i f s).cfg = s.cfg := rfl
@[simp] theorem modSes_latchFw (i : Fin 8) (f : Session → Session) (s : State) : (modSes i f s).latchFw = s.latchFw := rfl
@[simp] theorem modSes_latchHost (i : Fin 8) (f : Session → Session) (s : State) : (modSes i f s).latchHost = s.latchHost := rfl
@[simp] theorem modSes_out (i : Fin 8) (f : Session → Session) (s : State) : (modSes i f s).out = s.out := rfl

@[simp] theorem modPort_pending (n : Nat) (f : PortState → PortState) (s : State) : (modPort n f s).pending = s.pending := rfl
@[simp] theorem modPort_now (n : Nat) (f : PortState → PortState) (s : State) : (modPort n f s).now = s.now := rfl
@[simp] theorem modPort_aon (n : Nat) (f : PortState → PortState) (s : State) : (modPort n f s).aon = s.aon := rfl
@[simp] theorem modPort_pcount (n : Nat) (f : PortState → PortState) (s : State) : (modPort n f s).pcount = s.pcount := rfl
@[simp] theorem modPort_followers (n : Nat) (f : PortState → PortState) (s : State) : (modPort n f s).followers = s.followers := rfl
@[simp] theorem modPort_discont (n : Nat) (f : PortState → PortState) (s : State) : (modPort n f s).discont = s.discont := rfl
@[simp] theorem modPort_fresh (n : Nat) (f : PortState → PortState) (s : State) : (modPort n f s).fresh = s.fresh := rfl
@[simp] theorem modPort_msgTag (n : Nat) (f : PortState → PortState) (s : State) : (modPort n f s).msgTag = s.msgTag := rfl
@[simp] theorem modPort_gen (n : Nat) (f : PortState → PortState) (s : State) : (modPort n f s).gen = s.gen := rfl
@[simp] theorem modPort_evt (n : Nat) (f : PortState → PortState) (s : State) : (modPort n f s).evt = s.evt := rfl
@[simp] theorem modPort_tmb (n : Nat) (f : PortState → PortState) (s : State) : (modPort n f s).tmb = s.tmb := rfl
@[simp] theorem modPort_svi (n : Nat) (f : PortState → PortState) (s : State) : (modPort n f s).svi = s.svi := rfl
@[simp] theorem modPort_phe (n : Nat) (f : PortState → PortState) (s : State) : (modPort n f s).phe = s.phe := rfl
@[simp] theorem modPort_wce (n : Nat) (f : PortState → PortState) (s : State) : (modPort n f s).wce = s.wce := rfl
@[simp] theorem modPort_seq (n : Nat) (f : PortState → PortState) (s : State) : (modPort n f s).seq = s.seq := rfl
@[simp] theorem modPort_trd (n : Nat) (f : PortState → PortState) (s : State) : (modPort n f s).trd = s.trd := rfl
@[simp] theorem modPort_bgt (n : Nat) (f : PortState → PortState) (s : State) : (modPort n f s).bgt = s.bgt := rfl
@[simp] theorem modPort_ptm (n : Nat) (f : PortState → PortState) (s : State) : (modPort n f s).ptm = s.ptm := rfl
@[simp] theorem modPort_wvl (n : Nat) (f : PortState → PortState) (s : State) : (modPort n f s).wvl = s.wvl := rfl
@[simp] theorem modPort_mem (n : Nat) (f : PortState → PortState) (s : State) : (modPort n f s).mem = s.mem := rfl
@[simp] theorem modPort_wrd (n : Nat) (f : PortState → PortState) (s : State) : (modPort n f s).wrd = s.wrd := rfl
@[simp] theorem modPort_fcr (n : Nat) (f : PortState → PortState) (s : State) : (modPort n f s).fcr = s.fcr := rfl
@[simp] theorem modPort_lgr (n : Nat) (f : PortState → PortState) (s : State) : (modPort n f s).lgr = s.lgr := rfl
@[simp] theorem modPort_kpr (n : Nat) (f : PortState → PortState) (s : State) : (modPort n f s).kpr = s.kpr := rfl
@[simp] theorem modPort_bsl (n : Nat) (f : PortState → PortState) (s : State) : (modPort n f s).bsl = s.bsl := rfl
@[simp] theorem modPort_upd (n : Nat) (f : PortState → PortState) (s : State) : (modPort n f s).upd = s.upd := rfl
@[simp] theorem modPort_fio (n : Nat) (f : PortState → PortState) (s : State) : (modPort n f s).fio = s.fio := rfl
@[simp] theorem modPort_hif (n : Nat) (f : PortState → PortState) (s : State) : (modPort n f s).hif = s.hif := rfl
@[simp] theorem modPort_cfg (n : Nat) (f : PortState → PortState) (s : State) : (modPort n f s).cfg = s.cfg := rfl
@[simp] theorem modPort_latchFw (n : Nat) (f : PortState → PortState) (s : State) : (modPort n f s).latchFw = s.latchFw := rfl
@[simp] theorem modPort_latchHost (n : Nat) (f : PortState → PortState) (s : State) : (modPort n f s).latchHost = s.latchHost := rfl
@[simp] theorem modPort_out (n : Nat) (f : PortState → PortState) (s : State) : (modPort n f s).out = s.out := rfl

@[simp] theorem modTask_pending (t : Nat) (f : TaskState → TaskState) (s : State) : (modTask t f s).pending = s.pending := rfl
@[simp] theorem modTask_now (t : Nat) (f : TaskState → TaskState) (s : State) : (modTask t f s).now = s.now := rfl
@[simp] theorem modTask_aon (t : Nat) (f : TaskState → TaskState) (s : State) : (modTask t f s).aon = s.aon := rfl
@[simp] theorem modTask_pcount (t : Nat) (f : TaskState → TaskState) (s : State) : (modTask t f s).pcount = s.pcount := rfl
@[simp] theorem modTask_followers (t : Nat) (f : TaskState → TaskState) (s : State) : (modTask t f s).followers = s.followers := rfl
@[simp] theorem modTask_discont (t : Nat) (f : TaskState → TaskState) (s : State) : (modTask t f s).discont = s.discont := rfl
@[simp] theorem modTask_fresh (t : Nat) (f : TaskState → TaskState) (s : State) : (modTask t f s).fresh = s.fresh := rfl
@[simp] theorem modTask_msgTag (t : Nat) (f : TaskState → TaskState) (s : State) : (modTask t f s).msgTag = s.msgTag := rfl
@[simp] theorem modTask_gen (t : Nat) (f : TaskState → TaskState) (s : State) : (modTask t f s).gen = s.gen := rfl
@[simp] theorem modTask_evt (t : Nat) (f : TaskState → TaskState) (s : State) : (modTask t f s).evt = s.evt := rfl
@[simp] theorem modTask_tmb (t : Nat) (f : TaskState → TaskState) (s : State) : (modTask t f s).tmb = s.tmb := rfl
@[simp] theorem modTask_prt (t : Nat) (f : TaskState → TaskState) (s : State) : (modTask t f s).prt = s.prt := rfl
@[simp] theorem modTask_svi (t : Nat) (f : TaskState → TaskState) (s : State) : (modTask t f s).svi = s.svi := rfl
@[simp] theorem modTask_phe (t : Nat) (f : TaskState → TaskState) (s : State) : (modTask t f s).phe = s.phe := rfl
@[simp] theorem modTask_wce (t : Nat) (f : TaskState → TaskState) (s : State) : (modTask t f s).wce = s.wce := rfl
@[simp] theorem modTask_trd (t : Nat) (f : TaskState → TaskState) (s : State) : (modTask t f s).trd = s.trd := rfl
@[simp] theorem modTask_bgt (t : Nat) (f : TaskState → TaskState) (s : State) : (modTask t f s).bgt = s.bgt := rfl
@[simp] theorem modTask_ptm (t : Nat) (f : TaskState → TaskState) (s : State) : (modTask t f s).ptm = s.ptm := rfl
@[simp] theorem modTask_wvl (t : Nat) (f : TaskState → TaskState) (s : State) : (modTask t f s).wvl = s.wvl := rfl
@[simp] theorem modTask_mem (t : Nat) (f : TaskState → TaskState) (s : State) : (modTask t f s).mem = s.mem := rfl
@[simp] theorem modTask_wrd (t : Nat) (f : TaskState → TaskState) (s : State) : (modTask t f s).wrd = s.wrd := rfl
@[simp] theorem modTask_fcr (t : Nat) (f : TaskState → TaskState) (s : State) : (modTask t f s).fcr = s.fcr := rfl
@[simp] theorem modTask_lgr (t : Nat) (f : TaskState → TaskState) (s : State) : (modTask t f s).lgr = s.lgr := rfl
@[simp] theorem modTask_kpr (t : Nat) (f : TaskState → TaskState) (s : State) : (modTask t f s).kpr = s.kpr := rfl
@[simp] theorem modTask_bsl (t : Nat) (f : TaskState → TaskState) (s : State) : (modTask t f s).bsl = s.bsl := rfl
@[simp] theorem modTask_upd (t : Nat) (f : TaskState → TaskState) (s : State) : (modTask t f s).upd = s.upd := rfl
@[simp] theorem modTask_fio (t : Nat) (f : TaskState → TaskState) (s : State) : (modTask t f s).fio = s.fio := rfl
@[simp] theorem modTask_hif (t : Nat) (f : TaskState → TaskState) (s : State) : (modTask t f s).hif = s.hif := rfl
@[simp] theorem modTask_cfg (t : Nat) (f : TaskState → TaskState) (s : State) : (modTask t f s).cfg = s.cfg := rfl
@[simp] theorem modTask_latchFw (t : Nat) (f : TaskState → TaskState) (s : State) : (modTask t f s).latchFw = s.latchFw := rfl
@[simp] theorem modTask_latchHost (t : Nat) (f : TaskState → TaskState) (s : State) : (modTask t f s).latchHost = s.latchHost := rfl
@[simp] theorem modTask_out (t : Nat) (f : TaskState → TaskState) (s : State) : (modTask t f s).out = s.out := rfl

@[simp] theorem chargeSlot_pending (i n : Nat) (s : State) : (chargeSlot i n s).pending = s.pending := rfl
@[simp] theorem chargeSlot_now (i n : Nat) (s : State) : (chargeSlot i n s).now = s.now := rfl
@[simp] theorem chargeSlot_aon (i n : Nat) (s : State) : (chargeSlot i n s).aon = s.aon := rfl
@[simp] theorem chargeSlot_pcount (i n : Nat) (s : State) : (chargeSlot i n s).pcount = s.pcount := rfl
@[simp] theorem chargeSlot_followers (i n : Nat) (s : State) : (chargeSlot i n s).followers = s.followers := rfl
@[simp] theorem chargeSlot_discont (i n : Nat) (s : State) : (chargeSlot i n s).discont = s.discont := rfl
@[simp] theorem chargeSlot_fresh (i n : Nat) (s : State) : (chargeSlot i n s).fresh = s.fresh := rfl
@[simp] theorem chargeSlot_msgTag (i n : Nat) (s : State) : (chargeSlot i n s).msgTag = s.msgTag := rfl
@[simp] theorem chargeSlot_gen (i n : Nat) (s : State) : (chargeSlot i n s).gen = s.gen := rfl
@[simp] theorem chargeSlot_evt (i n : Nat) (s : State) : (chargeSlot i n s).evt = s.evt := rfl
@[simp] theorem chargeSlot_tmb (i n : Nat) (s : State) : (chargeSlot i n s).tmb = s.tmb := rfl
@[simp] theorem chargeSlot_prt (i n : Nat) (s : State) : (chargeSlot i n s).prt = s.prt := rfl
@[simp] theorem chargeSlot_svi (i n : Nat) (s : State) : (chargeSlot i n s).svi = s.svi := rfl
@[simp] theorem chargeSlot_phe (i n : Nat) (s : State) : (chargeSlot i n s).phe = s.phe := rfl
@[simp] theorem chargeSlot_wce (i n : Nat) (s : State) : (chargeSlot i n s).wce = s.wce := rfl
@[simp] theorem chargeSlot_seq (i n : Nat) (s : State) : (chargeSlot i n s).seq = s.seq := rfl
@[simp] theorem chargeSlot_trd (i n : Nat) (s : State) : (chargeSlot i n s).trd = s.trd := rfl
@[simp] theorem chargeSlot_ptm (i n : Nat) (s : State) : (chargeSlot i n s).ptm = s.ptm := rfl
@[simp] theorem chargeSlot_wvl (i n : Nat) (s : State) : (chargeSlot i n s).wvl = s.wvl := rfl
@[simp] theorem chargeSlot_mem (i n : Nat) (s : State) : (chargeSlot i n s).mem = s.mem := rfl
@[simp] theorem chargeSlot_wrd (i n : Nat) (s : State) : (chargeSlot i n s).wrd = s.wrd := rfl
@[simp] theorem chargeSlot_fcr (i n : Nat) (s : State) : (chargeSlot i n s).fcr = s.fcr := rfl
@[simp] theorem chargeSlot_lgr (i n : Nat) (s : State) : (chargeSlot i n s).lgr = s.lgr := rfl
@[simp] theorem chargeSlot_kpr (i n : Nat) (s : State) : (chargeSlot i n s).kpr = s.kpr := rfl
@[simp] theorem chargeSlot_bsl (i n : Nat) (s : State) : (chargeSlot i n s).bsl = s.bsl := rfl
@[simp] theorem chargeSlot_upd (i n : Nat) (s : State) : (chargeSlot i n s).upd = s.upd := rfl
@[simp] theorem chargeSlot_fio (i n : Nat) (s : State) : (chargeSlot i n s).fio = s.fio := rfl
@[simp] theorem chargeSlot_hif (i n : Nat) (s : State) : (chargeSlot i n s).hif = s.hif := rfl
@[simp] theorem chargeSlot_cfg (i n : Nat) (s : State) : (chargeSlot i n s).cfg = s.cfg := rfl
@[simp] theorem chargeSlot_latchFw (i n : Nat) (s : State) : (chargeSlot i n s).latchFw = s.latchFw := rfl
@[simp] theorem chargeSlot_latchHost (i n : Nat) (s : State) : (chargeSlot i n s).latchHost = s.latchHost := rfl
@[simp] theorem chargeSlot_out (i n : Nat) (s : State) : (chargeSlot i n s).out = s.out := rfl

@[simp] theorem chargePort_pending (n bytes : Nat) (s : State) : (chargePort n bytes s).pending = s.pending := rfl
@[simp] theorem chargePort_now (n bytes : Nat) (s : State) : (chargePort n bytes s).now = s.now := rfl
@[simp] theorem chargePort_aon (n bytes : Nat) (s : State) : (chargePort n bytes s).aon = s.aon := rfl
@[simp] theorem chargePort_pcount (n bytes : Nat) (s : State) : (chargePort n bytes s).pcount = s.pcount := rfl
@[simp] theorem chargePort_followers (n bytes : Nat) (s : State) : (chargePort n bytes s).followers = s.followers := rfl
@[simp] theorem chargePort_discont (n bytes : Nat) (s : State) : (chargePort n bytes s).discont = s.discont := rfl
@[simp] theorem chargePort_fresh (n bytes : Nat) (s : State) : (chargePort n bytes s).fresh = s.fresh := rfl
@[simp] theorem chargePort_msgTag (n bytes : Nat) (s : State) : (chargePort n bytes s).msgTag = s.msgTag := rfl
@[simp] theorem chargePort_gen (n bytes : Nat) (s : State) : (chargePort n bytes s).gen = s.gen := rfl
@[simp] theorem chargePort_evt (n bytes : Nat) (s : State) : (chargePort n bytes s).evt = s.evt := rfl
@[simp] theorem chargePort_tmb (n bytes : Nat) (s : State) : (chargePort n bytes s).tmb = s.tmb := rfl
@[simp] theorem chargePort_svi (n bytes : Nat) (s : State) : (chargePort n bytes s).svi = s.svi := rfl
@[simp] theorem chargePort_phe (n bytes : Nat) (s : State) : (chargePort n bytes s).phe = s.phe := rfl
@[simp] theorem chargePort_wce (n bytes : Nat) (s : State) : (chargePort n bytes s).wce = s.wce := rfl
@[simp] theorem chargePort_seq (n bytes : Nat) (s : State) : (chargePort n bytes s).seq = s.seq := rfl
@[simp] theorem chargePort_trd (n bytes : Nat) (s : State) : (chargePort n bytes s).trd = s.trd := rfl
@[simp] theorem chargePort_bgt (n bytes : Nat) (s : State) : (chargePort n bytes s).bgt = s.bgt := rfl
@[simp] theorem chargePort_ptm (n bytes : Nat) (s : State) : (chargePort n bytes s).ptm = s.ptm := rfl
@[simp] theorem chargePort_wvl (n bytes : Nat) (s : State) : (chargePort n bytes s).wvl = s.wvl := rfl
@[simp] theorem chargePort_mem (n bytes : Nat) (s : State) : (chargePort n bytes s).mem = s.mem := rfl
@[simp] theorem chargePort_wrd (n bytes : Nat) (s : State) : (chargePort n bytes s).wrd = s.wrd := rfl
@[simp] theorem chargePort_fcr (n bytes : Nat) (s : State) : (chargePort n bytes s).fcr = s.fcr := rfl
@[simp] theorem chargePort_lgr (n bytes : Nat) (s : State) : (chargePort n bytes s).lgr = s.lgr := rfl
@[simp] theorem chargePort_kpr (n bytes : Nat) (s : State) : (chargePort n bytes s).kpr = s.kpr := rfl
@[simp] theorem chargePort_bsl (n bytes : Nat) (s : State) : (chargePort n bytes s).bsl = s.bsl := rfl
@[simp] theorem chargePort_upd (n bytes : Nat) (s : State) : (chargePort n bytes s).upd = s.upd := rfl
@[simp] theorem chargePort_fio (n bytes : Nat) (s : State) : (chargePort n bytes s).fio = s.fio := rfl
@[simp] theorem chargePort_hif (n bytes : Nat) (s : State) : (chargePort n bytes s).hif = s.hif := rfl
@[simp] theorem chargePort_cfg (n bytes : Nat) (s : State) : (chargePort n bytes s).cfg = s.cfg := rfl
@[simp] theorem chargePort_latchFw (n bytes : Nat) (s : State) : (chargePort n bytes s).latchFw = s.latchFw := rfl
@[simp] theorem chargePort_latchHost (n bytes : Nat) (s : State) : (chargePort n bytes s).latchHost = s.latchHost := rfl
@[simp] theorem chargePort_out (n bytes : Nat) (s : State) : (chargePort n bytes s).out = s.out := rfl

@[simp] theorem modTrd_pending (f : TrdState → TrdState) (s : State) : (modTrd f s).pending = s.pending := rfl
@[simp] theorem modTrd_now (f : TrdState → TrdState) (s : State) : (modTrd f s).now = s.now := rfl
@[simp] theorem modTrd_aon (f : TrdState → TrdState) (s : State) : (modTrd f s).aon = s.aon := rfl
@[simp] theorem modTrd_pcount (f : TrdState → TrdState) (s : State) : (modTrd f s).pcount = s.pcount := rfl
@[simp] theorem modTrd_followers (f : TrdState → TrdState) (s : State) : (modTrd f s).followers = s.followers := rfl
@[simp] theorem modTrd_discont (f : TrdState → TrdState) (s : State) : (modTrd f s).discont = s.discont := rfl
@[simp] theorem modTrd_fresh (f : TrdState → TrdState) (s : State) : (modTrd f s).fresh = s.fresh := rfl
@[simp] theorem modTrd_msgTag (f : TrdState → TrdState) (s : State) : (modTrd f s).msgTag = s.msgTag := rfl
@[simp] theorem modTrd_gen (f : TrdState → TrdState) (s : State) : (modTrd f s).gen = s.gen := rfl
@[simp] theorem modTrd_evt (f : TrdState → TrdState) (s : State) : (modTrd f s).evt = s.evt := rfl
@[simp] theorem modTrd_tmb (f : TrdState → TrdState) (s : State) : (modTrd f s).tmb = s.tmb := rfl
@[simp] theorem modTrd_prt (f : TrdState → TrdState) (s : State) : (modTrd f s).prt = s.prt := rfl
@[simp] theorem modTrd_svi (f : TrdState → TrdState) (s : State) : (modTrd f s).svi = s.svi := rfl
@[simp] theorem modTrd_phe (f : TrdState → TrdState) (s : State) : (modTrd f s).phe = s.phe := rfl
@[simp] theorem modTrd_wce (f : TrdState → TrdState) (s : State) : (modTrd f s).wce = s.wce := rfl
@[simp] theorem modTrd_seq (f : TrdState → TrdState) (s : State) : (modTrd f s).seq = s.seq := rfl
@[simp] theorem modTrd_bgt (f : TrdState → TrdState) (s : State) : (modTrd f s).bgt = s.bgt := rfl
@[simp] theorem modTrd_ptm (f : TrdState → TrdState) (s : State) : (modTrd f s).ptm = s.ptm := rfl
@[simp] theorem modTrd_wvl (f : TrdState → TrdState) (s : State) : (modTrd f s).wvl = s.wvl := rfl
@[simp] theorem modTrd_mem (f : TrdState → TrdState) (s : State) : (modTrd f s).mem = s.mem := rfl
@[simp] theorem modTrd_wrd (f : TrdState → TrdState) (s : State) : (modTrd f s).wrd = s.wrd := rfl
@[simp] theorem modTrd_fcr (f : TrdState → TrdState) (s : State) : (modTrd f s).fcr = s.fcr := rfl
@[simp] theorem modTrd_lgr (f : TrdState → TrdState) (s : State) : (modTrd f s).lgr = s.lgr := rfl
@[simp] theorem modTrd_kpr (f : TrdState → TrdState) (s : State) : (modTrd f s).kpr = s.kpr := rfl
@[simp] theorem modTrd_bsl (f : TrdState → TrdState) (s : State) : (modTrd f s).bsl = s.bsl := rfl
@[simp] theorem modTrd_upd (f : TrdState → TrdState) (s : State) : (modTrd f s).upd = s.upd := rfl
@[simp] theorem modTrd_fio (f : TrdState → TrdState) (s : State) : (modTrd f s).fio = s.fio := rfl
@[simp] theorem modTrd_hif (f : TrdState → TrdState) (s : State) : (modTrd f s).hif = s.hif := rfl
@[simp] theorem modTrd_cfg (f : TrdState → TrdState) (s : State) : (modTrd f s).cfg = s.cfg := rfl
@[simp] theorem modTrd_latchFw (f : TrdState → TrdState) (s : State) : (modTrd f s).latchFw = s.latchFw := rfl
@[simp] theorem modTrd_latchHost (f : TrdState → TrdState) (s : State) : (modTrd f s).latchHost = s.latchHost := rfl
@[simp] theorem modTrd_out (f : TrdState → TrdState) (s : State) : (modTrd f s).out = s.out := rfl

@[simp] theorem modWvl_pending (f : WvlState → WvlState) (s : State) : (modWvl f s).pending = s.pending := rfl
@[simp] theorem modWvl_now (f : WvlState → WvlState) (s : State) : (modWvl f s).now = s.now := rfl
@[simp] theorem modWvl_aon (f : WvlState → WvlState) (s : State) : (modWvl f s).aon = s.aon := rfl
@[simp] theorem modWvl_pcount (f : WvlState → WvlState) (s : State) : (modWvl f s).pcount = s.pcount := rfl
@[simp] theorem modWvl_followers (f : WvlState → WvlState) (s : State) : (modWvl f s).followers = s.followers := rfl
@[simp] theorem modWvl_discont (f : WvlState → WvlState) (s : State) : (modWvl f s).discont = s.discont := rfl
@[simp] theorem modWvl_fresh (f : WvlState → WvlState) (s : State) : (modWvl f s).fresh = s.fresh := rfl
@[simp] theorem modWvl_msgTag (f : WvlState → WvlState) (s : State) : (modWvl f s).msgTag = s.msgTag := rfl
@[simp] theorem modWvl_gen (f : WvlState → WvlState) (s : State) : (modWvl f s).gen = s.gen := rfl
@[simp] theorem modWvl_evt (f : WvlState → WvlState) (s : State) : (modWvl f s).evt = s.evt := rfl
@[simp] theorem modWvl_tmb (f : WvlState → WvlState) (s : State) : (modWvl f s).tmb = s.tmb := rfl
@[simp] theorem modWvl_prt (f : WvlState → WvlState) (s : State) : (modWvl f s).prt = s.prt := rfl
@[simp] theorem modWvl_svi (f : WvlState → WvlState) (s : State) : (modWvl f s).svi = s.svi := rfl
@[simp] theorem modWvl_phe (f : WvlState → WvlState) (s : State) : (modWvl f s).phe = s.phe := rfl
@[simp] theorem modWvl_wce (f : WvlState → WvlState) (s : State) : (modWvl f s).wce = s.wce := rfl
@[simp] theorem modWvl_seq (f : WvlState → WvlState) (s : State) : (modWvl f s).seq = s.seq := rfl
@[simp] theorem modWvl_trd (f : WvlState → WvlState) (s : State) : (modWvl f s).trd = s.trd := rfl
@[simp] theorem modWvl_bgt (f : WvlState → WvlState) (s : State) : (modWvl f s).bgt = s.bgt := rfl
@[simp] theorem modWvl_ptm (f : WvlState → WvlState) (s : State) : (modWvl f s).ptm = s.ptm := rfl
@[simp] theorem modWvl_mem (f : WvlState → WvlState) (s : State) : (modWvl f s).mem = s.mem := rfl
@[simp] theorem modWvl_wrd (f : WvlState → WvlState) (s : State) : (modWvl f s).wrd = s.wrd := rfl
@[simp] theorem modWvl_fcr (f : WvlState → WvlState) (s : State) : (modWvl f s).fcr = s.fcr := rfl
@[simp] theorem modWvl_lgr (f : WvlState → WvlState) (s : State) : (modWvl f s).lgr = s.lgr := rfl
@[simp] theorem modWvl_kpr (f : WvlState → WvlState) (s : State) : (modWvl f s).kpr = s.kpr := rfl
@[simp] theorem modWvl_bsl (f : WvlState → WvlState) (s : State) : (modWvl f s).bsl = s.bsl := rfl
@[simp] theorem modWvl_upd (f : WvlState → WvlState) (s : State) : (modWvl f s).upd = s.upd := rfl
@[simp] theorem modWvl_fio (f : WvlState → WvlState) (s : State) : (modWvl f s).fio = s.fio := rfl
@[simp] theorem modWvl_hif (f : WvlState → WvlState) (s : State) : (modWvl f s).hif = s.hif := rfl
@[simp] theorem modWvl_cfg (f : WvlState → WvlState) (s : State) : (modWvl f s).cfg = s.cfg := rfl
@[simp] theorem modWvl_latchFw (f : WvlState → WvlState) (s : State) : (modWvl f s).latchFw = s.latchFw := rfl
@[simp] theorem modWvl_latchHost (f : WvlState → WvlState) (s : State) : (modWvl f s).latchHost = s.latchHost := rfl
@[simp] theorem modWvl_out (f : WvlState → WvlState) (s : State) : (modWvl f s).out = s.out := rfl

@[simp] theorem modMem_pending (f : MemState → MemState) (s : State) : (modMem f s).pending = s.pending := rfl
@[simp] theorem modMem_now (f : MemState → MemState) (s : State) : (modMem f s).now = s.now := rfl
@[simp] theorem modMem_aon (f : MemState → MemState) (s : State) : (modMem f s).aon = s.aon := rfl
@[simp] theorem modMem_pcount (f : MemState → MemState) (s : State) : (modMem f s).pcount = s.pcount := rfl
@[simp] theorem modMem_followers (f : MemState → MemState) (s : State) : (modMem f s).followers = s.followers := rfl
@[simp] theorem modMem_discont (f : MemState → MemState) (s : State) : (modMem f s).discont = s.discont := rfl
@[simp] theorem modMem_fresh (f : MemState → MemState) (s : State) : (modMem f s).fresh = s.fresh := rfl
@[simp] theorem modMem_msgTag (f : MemState → MemState) (s : State) : (modMem f s).msgTag = s.msgTag := rfl
@[simp] theorem modMem_gen (f : MemState → MemState) (s : State) : (modMem f s).gen = s.gen := rfl
@[simp] theorem modMem_evt (f : MemState → MemState) (s : State) : (modMem f s).evt = s.evt := rfl
@[simp] theorem modMem_tmb (f : MemState → MemState) (s : State) : (modMem f s).tmb = s.tmb := rfl
@[simp] theorem modMem_prt (f : MemState → MemState) (s : State) : (modMem f s).prt = s.prt := rfl
@[simp] theorem modMem_svi (f : MemState → MemState) (s : State) : (modMem f s).svi = s.svi := rfl
@[simp] theorem modMem_phe (f : MemState → MemState) (s : State) : (modMem f s).phe = s.phe := rfl
@[simp] theorem modMem_wce (f : MemState → MemState) (s : State) : (modMem f s).wce = s.wce := rfl
@[simp] theorem modMem_seq (f : MemState → MemState) (s : State) : (modMem f s).seq = s.seq := rfl
@[simp] theorem modMem_trd (f : MemState → MemState) (s : State) : (modMem f s).trd = s.trd := rfl
@[simp] theorem modMem_bgt (f : MemState → MemState) (s : State) : (modMem f s).bgt = s.bgt := rfl
@[simp] theorem modMem_ptm (f : MemState → MemState) (s : State) : (modMem f s).ptm = s.ptm := rfl
@[simp] theorem modMem_wvl (f : MemState → MemState) (s : State) : (modMem f s).wvl = s.wvl := rfl
@[simp] theorem modMem_wrd (f : MemState → MemState) (s : State) : (modMem f s).wrd = s.wrd := rfl
@[simp] theorem modMem_fcr (f : MemState → MemState) (s : State) : (modMem f s).fcr = s.fcr := rfl
@[simp] theorem modMem_lgr (f : MemState → MemState) (s : State) : (modMem f s).lgr = s.lgr := rfl
@[simp] theorem modMem_kpr (f : MemState → MemState) (s : State) : (modMem f s).kpr = s.kpr := rfl
@[simp] theorem modMem_bsl (f : MemState → MemState) (s : State) : (modMem f s).bsl = s.bsl := rfl
@[simp] theorem modMem_upd (f : MemState → MemState) (s : State) : (modMem f s).upd = s.upd := rfl
@[simp] theorem modMem_fio (f : MemState → MemState) (s : State) : (modMem f s).fio = s.fio := rfl
@[simp] theorem modMem_hif (f : MemState → MemState) (s : State) : (modMem f s).hif = s.hif := rfl
@[simp] theorem modMem_cfg (f : MemState → MemState) (s : State) : (modMem f s).cfg = s.cfg := rfl
@[simp] theorem modMem_latchFw (f : MemState → MemState) (s : State) : (modMem f s).latchFw = s.latchFw := rfl
@[simp] theorem modMem_latchHost (f : MemState → MemState) (s : State) : (modMem f s).latchHost = s.latchHost := rfl
@[simp] theorem modMem_out (f : MemState → MemState) (s : State) : (modMem f s).out = s.out := rfl

@[simp] theorem modSvi_pending (f : SviState → SviState) (s : State) : (modSvi f s).pending = s.pending := rfl
@[simp] theorem modSvi_now (f : SviState → SviState) (s : State) : (modSvi f s).now = s.now := rfl
@[simp] theorem modSvi_aon (f : SviState → SviState) (s : State) : (modSvi f s).aon = s.aon := rfl
@[simp] theorem modSvi_pcount (f : SviState → SviState) (s : State) : (modSvi f s).pcount = s.pcount := rfl
@[simp] theorem modSvi_followers (f : SviState → SviState) (s : State) : (modSvi f s).followers = s.followers := rfl
@[simp] theorem modSvi_discont (f : SviState → SviState) (s : State) : (modSvi f s).discont = s.discont := rfl
@[simp] theorem modSvi_fresh (f : SviState → SviState) (s : State) : (modSvi f s).fresh = s.fresh := rfl
@[simp] theorem modSvi_msgTag (f : SviState → SviState) (s : State) : (modSvi f s).msgTag = s.msgTag := rfl
@[simp] theorem modSvi_gen (f : SviState → SviState) (s : State) : (modSvi f s).gen = s.gen := rfl
@[simp] theorem modSvi_evt (f : SviState → SviState) (s : State) : (modSvi f s).evt = s.evt := rfl
@[simp] theorem modSvi_tmb (f : SviState → SviState) (s : State) : (modSvi f s).tmb = s.tmb := rfl
@[simp] theorem modSvi_prt (f : SviState → SviState) (s : State) : (modSvi f s).prt = s.prt := rfl
@[simp] theorem modSvi_phe (f : SviState → SviState) (s : State) : (modSvi f s).phe = s.phe := rfl
@[simp] theorem modSvi_wce (f : SviState → SviState) (s : State) : (modSvi f s).wce = s.wce := rfl
@[simp] theorem modSvi_seq (f : SviState → SviState) (s : State) : (modSvi f s).seq = s.seq := rfl
@[simp] theorem modSvi_trd (f : SviState → SviState) (s : State) : (modSvi f s).trd = s.trd := rfl
@[simp] theorem modSvi_bgt (f : SviState → SviState) (s : State) : (modSvi f s).bgt = s.bgt := rfl
@[simp] theorem modSvi_ptm (f : SviState → SviState) (s : State) : (modSvi f s).ptm = s.ptm := rfl
@[simp] theorem modSvi_wvl (f : SviState → SviState) (s : State) : (modSvi f s).wvl = s.wvl := rfl
@[simp] theorem modSvi_mem (f : SviState → SviState) (s : State) : (modSvi f s).mem = s.mem := rfl
@[simp] theorem modSvi_wrd (f : SviState → SviState) (s : State) : (modSvi f s).wrd = s.wrd := rfl
@[simp] theorem modSvi_fcr (f : SviState → SviState) (s : State) : (modSvi f s).fcr = s.fcr := rfl
@[simp] theorem modSvi_lgr (f : SviState → SviState) (s : State) : (modSvi f s).lgr = s.lgr := rfl
@[simp] theorem modSvi_kpr (f : SviState → SviState) (s : State) : (modSvi f s).kpr = s.kpr := rfl
@[simp] theorem modSvi_bsl (f : SviState → SviState) (s : State) : (modSvi f s).bsl = s.bsl := rfl
@[simp] theorem modSvi_upd (f : SviState → SviState) (s : State) : (modSvi f s).upd = s.upd := rfl
@[simp] theorem modSvi_fio (f : SviState → SviState) (s : State) : (modSvi f s).fio = s.fio := rfl
@[simp] theorem modSvi_hif (f : SviState → SviState) (s : State) : (modSvi f s).hif = s.hif := rfl
@[simp] theorem modSvi_cfg (f : SviState → SviState) (s : State) : (modSvi f s).cfg = s.cfg := rfl
@[simp] theorem modSvi_latchFw (f : SviState → SviState) (s : State) : (modSvi f s).latchFw = s.latchFw := rfl
@[simp] theorem modSvi_latchHost (f : SviState → SviState) (s : State) : (modSvi f s).latchHost = s.latchHost := rfl
@[simp] theorem modSvi_out (f : SviState → SviState) (s : State) : (modSvi f s).out = s.out := rfl

@[simp] theorem modPhe_pending (f : PheState → PheState) (s : State) : (modPhe f s).pending = s.pending := rfl
@[simp] theorem modPhe_now (f : PheState → PheState) (s : State) : (modPhe f s).now = s.now := rfl
@[simp] theorem modPhe_aon (f : PheState → PheState) (s : State) : (modPhe f s).aon = s.aon := rfl
@[simp] theorem modPhe_pcount (f : PheState → PheState) (s : State) : (modPhe f s).pcount = s.pcount := rfl
@[simp] theorem modPhe_followers (f : PheState → PheState) (s : State) : (modPhe f s).followers = s.followers := rfl
@[simp] theorem modPhe_discont (f : PheState → PheState) (s : State) : (modPhe f s).discont = s.discont := rfl
@[simp] theorem modPhe_fresh (f : PheState → PheState) (s : State) : (modPhe f s).fresh = s.fresh := rfl
@[simp] theorem modPhe_msgTag (f : PheState → PheState) (s : State) : (modPhe f s).msgTag = s.msgTag := rfl
@[simp] theorem modPhe_gen (f : PheState → PheState) (s : State) : (modPhe f s).gen = s.gen := rfl
@[simp] theorem modPhe_evt (f : PheState → PheState) (s : State) : (modPhe f s).evt = s.evt := rfl
@[simp] theorem modPhe_tmb (f : PheState → PheState) (s : State) : (modPhe f s).tmb = s.tmb := rfl
@[simp] theorem modPhe_prt (f : PheState → PheState) (s : State) : (modPhe f s).prt = s.prt := rfl
@[simp] theorem modPhe_svi (f : PheState → PheState) (s : State) : (modPhe f s).svi = s.svi := rfl
@[simp] theorem modPhe_wce (f : PheState → PheState) (s : State) : (modPhe f s).wce = s.wce := rfl
@[simp] theorem modPhe_seq (f : PheState → PheState) (s : State) : (modPhe f s).seq = s.seq := rfl
@[simp] theorem modPhe_trd (f : PheState → PheState) (s : State) : (modPhe f s).trd = s.trd := rfl
@[simp] theorem modPhe_bgt (f : PheState → PheState) (s : State) : (modPhe f s).bgt = s.bgt := rfl
@[simp] theorem modPhe_ptm (f : PheState → PheState) (s : State) : (modPhe f s).ptm = s.ptm := rfl
@[simp] theorem modPhe_wvl (f : PheState → PheState) (s : State) : (modPhe f s).wvl = s.wvl := rfl
@[simp] theorem modPhe_mem (f : PheState → PheState) (s : State) : (modPhe f s).mem = s.mem := rfl
@[simp] theorem modPhe_wrd (f : PheState → PheState) (s : State) : (modPhe f s).wrd = s.wrd := rfl
@[simp] theorem modPhe_fcr (f : PheState → PheState) (s : State) : (modPhe f s).fcr = s.fcr := rfl
@[simp] theorem modPhe_lgr (f : PheState → PheState) (s : State) : (modPhe f s).lgr = s.lgr := rfl
@[simp] theorem modPhe_kpr (f : PheState → PheState) (s : State) : (modPhe f s).kpr = s.kpr := rfl
@[simp] theorem modPhe_bsl (f : PheState → PheState) (s : State) : (modPhe f s).bsl = s.bsl := rfl
@[simp] theorem modPhe_upd (f : PheState → PheState) (s : State) : (modPhe f s).upd = s.upd := rfl
@[simp] theorem modPhe_fio (f : PheState → PheState) (s : State) : (modPhe f s).fio = s.fio := rfl
@[simp] theorem modPhe_hif (f : PheState → PheState) (s : State) : (modPhe f s).hif = s.hif := rfl
@[simp] theorem modPhe_cfg (f : PheState → PheState) (s : State) : (modPhe f s).cfg = s.cfg := rfl
@[simp] theorem modPhe_latchFw (f : PheState → PheState) (s : State) : (modPhe f s).latchFw = s.latchFw := rfl
@[simp] theorem modPhe_latchHost (f : PheState → PheState) (s : State) : (modPhe f s).latchHost = s.latchHost := rfl
@[simp] theorem modPhe_out (f : PheState → PheState) (s : State) : (modPhe f s).out = s.out := rfl

@[simp] theorem modWce_pending (f : WceState → WceState) (s : State) : (modWce f s).pending = s.pending := rfl
@[simp] theorem modWce_now (f : WceState → WceState) (s : State) : (modWce f s).now = s.now := rfl
@[simp] theorem modWce_aon (f : WceState → WceState) (s : State) : (modWce f s).aon = s.aon := rfl
@[simp] theorem modWce_pcount (f : WceState → WceState) (s : State) : (modWce f s).pcount = s.pcount := rfl
@[simp] theorem modWce_followers (f : WceState → WceState) (s : State) : (modWce f s).followers = s.followers := rfl
@[simp] theorem modWce_discont (f : WceState → WceState) (s : State) : (modWce f s).discont = s.discont := rfl
@[simp] theorem modWce_fresh (f : WceState → WceState) (s : State) : (modWce f s).fresh = s.fresh := rfl
@[simp] theorem modWce_msgTag (f : WceState → WceState) (s : State) : (modWce f s).msgTag = s.msgTag := rfl
@[simp] theorem modWce_gen (f : WceState → WceState) (s : State) : (modWce f s).gen = s.gen := rfl
@[simp] theorem modWce_evt (f : WceState → WceState) (s : State) : (modWce f s).evt = s.evt := rfl
@[simp] theorem modWce_tmb (f : WceState → WceState) (s : State) : (modWce f s).tmb = s.tmb := rfl
@[simp] theorem modWce_prt (f : WceState → WceState) (s : State) : (modWce f s).prt = s.prt := rfl
@[simp] theorem modWce_svi (f : WceState → WceState) (s : State) : (modWce f s).svi = s.svi := rfl
@[simp] theorem modWce_phe (f : WceState → WceState) (s : State) : (modWce f s).phe = s.phe := rfl
@[simp] theorem modWce_seq (f : WceState → WceState) (s : State) : (modWce f s).seq = s.seq := rfl
@[simp] theorem modWce_trd (f : WceState → WceState) (s : State) : (modWce f s).trd = s.trd := rfl
@[simp] theorem modWce_bgt (f : WceState → WceState) (s : State) : (modWce f s).bgt = s.bgt := rfl
@[simp] theorem modWce_ptm (f : WceState → WceState) (s : State) : (modWce f s).ptm = s.ptm := rfl
@[simp] theorem modWce_wvl (f : WceState → WceState) (s : State) : (modWce f s).wvl = s.wvl := rfl
@[simp] theorem modWce_mem (f : WceState → WceState) (s : State) : (modWce f s).mem = s.mem := rfl
@[simp] theorem modWce_wrd (f : WceState → WceState) (s : State) : (modWce f s).wrd = s.wrd := rfl
@[simp] theorem modWce_fcr (f : WceState → WceState) (s : State) : (modWce f s).fcr = s.fcr := rfl
@[simp] theorem modWce_lgr (f : WceState → WceState) (s : State) : (modWce f s).lgr = s.lgr := rfl
@[simp] theorem modWce_kpr (f : WceState → WceState) (s : State) : (modWce f s).kpr = s.kpr := rfl
@[simp] theorem modWce_bsl (f : WceState → WceState) (s : State) : (modWce f s).bsl = s.bsl := rfl
@[simp] theorem modWce_upd (f : WceState → WceState) (s : State) : (modWce f s).upd = s.upd := rfl
@[simp] theorem modWce_fio (f : WceState → WceState) (s : State) : (modWce f s).fio = s.fio := rfl
@[simp] theorem modWce_hif (f : WceState → WceState) (s : State) : (modWce f s).hif = s.hif := rfl
@[simp] theorem modWce_cfg (f : WceState → WceState) (s : State) : (modWce f s).cfg = s.cfg := rfl
@[simp] theorem modWce_latchFw (f : WceState → WceState) (s : State) : (modWce f s).latchFw = s.latchFw := rfl
@[simp] theorem modWce_latchHost (f : WceState → WceState) (s : State) : (modWce f s).latchHost = s.latchHost := rfl
@[simp] theorem modWce_out (f : WceState → WceState) (s : State) : (modWce f s).out = s.out := rfl

@[simp] theorem modBgt_pending (f : BgtState → BgtState) (s : State) : (modBgt f s).pending = s.pending := rfl
@[simp] theorem modBgt_now (f : BgtState → BgtState) (s : State) : (modBgt f s).now = s.now := rfl
@[simp] theorem modBgt_aon (f : BgtState → BgtState) (s : State) : (modBgt f s).aon = s.aon := rfl
@[simp] theorem modBgt_pcount (f : BgtState → BgtState) (s : State) : (modBgt f s).pcount = s.pcount := rfl
@[simp] theorem modBgt_followers (f : BgtState → BgtState) (s : State) : (modBgt f s).followers = s.followers := rfl
@[simp] theorem modBgt_discont (f : BgtState → BgtState) (s : State) : (modBgt f s).discont = s.discont := rfl
@[simp] theorem modBgt_fresh (f : BgtState → BgtState) (s : State) : (modBgt f s).fresh = s.fresh := rfl
@[simp] theorem modBgt_msgTag (f : BgtState → BgtState) (s : State) : (modBgt f s).msgTag = s.msgTag := rfl
@[simp] theorem modBgt_gen (f : BgtState → BgtState) (s : State) : (modBgt f s).gen = s.gen := rfl
@[simp] theorem modBgt_evt (f : BgtState → BgtState) (s : State) : (modBgt f s).evt = s.evt := rfl
@[simp] theorem modBgt_tmb (f : BgtState → BgtState) (s : State) : (modBgt f s).tmb = s.tmb := rfl
@[simp] theorem modBgt_prt (f : BgtState → BgtState) (s : State) : (modBgt f s).prt = s.prt := rfl
@[simp] theorem modBgt_svi (f : BgtState → BgtState) (s : State) : (modBgt f s).svi = s.svi := rfl
@[simp] theorem modBgt_phe (f : BgtState → BgtState) (s : State) : (modBgt f s).phe = s.phe := rfl
@[simp] theorem modBgt_wce (f : BgtState → BgtState) (s : State) : (modBgt f s).wce = s.wce := rfl
@[simp] theorem modBgt_seq (f : BgtState → BgtState) (s : State) : (modBgt f s).seq = s.seq := rfl
@[simp] theorem modBgt_trd (f : BgtState → BgtState) (s : State) : (modBgt f s).trd = s.trd := rfl
@[simp] theorem modBgt_ptm (f : BgtState → BgtState) (s : State) : (modBgt f s).ptm = s.ptm := rfl
@[simp] theorem modBgt_wvl (f : BgtState → BgtState) (s : State) : (modBgt f s).wvl = s.wvl := rfl
@[simp] theorem modBgt_mem (f : BgtState → BgtState) (s : State) : (modBgt f s).mem = s.mem := rfl
@[simp] theorem modBgt_wrd (f : BgtState → BgtState) (s : State) : (modBgt f s).wrd = s.wrd := rfl
@[simp] theorem modBgt_fcr (f : BgtState → BgtState) (s : State) : (modBgt f s).fcr = s.fcr := rfl
@[simp] theorem modBgt_lgr (f : BgtState → BgtState) (s : State) : (modBgt f s).lgr = s.lgr := rfl
@[simp] theorem modBgt_kpr (f : BgtState → BgtState) (s : State) : (modBgt f s).kpr = s.kpr := rfl
@[simp] theorem modBgt_bsl (f : BgtState → BgtState) (s : State) : (modBgt f s).bsl = s.bsl := rfl
@[simp] theorem modBgt_upd (f : BgtState → BgtState) (s : State) : (modBgt f s).upd = s.upd := rfl
@[simp] theorem modBgt_fio (f : BgtState → BgtState) (s : State) : (modBgt f s).fio = s.fio := rfl
@[simp] theorem modBgt_hif (f : BgtState → BgtState) (s : State) : (modBgt f s).hif = s.hif := rfl
@[simp] theorem modBgt_cfg (f : BgtState → BgtState) (s : State) : (modBgt f s).cfg = s.cfg := rfl
@[simp] theorem modBgt_latchFw (f : BgtState → BgtState) (s : State) : (modBgt f s).latchFw = s.latchFw := rfl
@[simp] theorem modBgt_latchHost (f : BgtState → BgtState) (s : State) : (modBgt f s).latchHost = s.latchHost := rfl
@[simp] theorem modBgt_out (f : BgtState → BgtState) (s : State) : (modBgt f s).out = s.out := rfl

@[simp] theorem modPtm_pending (f : PtmState → PtmState) (s : State) : (modPtm f s).pending = s.pending := rfl
@[simp] theorem modPtm_now (f : PtmState → PtmState) (s : State) : (modPtm f s).now = s.now := rfl
@[simp] theorem modPtm_aon (f : PtmState → PtmState) (s : State) : (modPtm f s).aon = s.aon := rfl
@[simp] theorem modPtm_pcount (f : PtmState → PtmState) (s : State) : (modPtm f s).pcount = s.pcount := rfl
@[simp] theorem modPtm_followers (f : PtmState → PtmState) (s : State) : (modPtm f s).followers = s.followers := rfl
@[simp] theorem modPtm_discont (f : PtmState → PtmState) (s : State) : (modPtm f s).discont = s.discont := rfl
@[simp] theorem modPtm_fresh (f : PtmState → PtmState) (s : State) : (modPtm f s).fresh = s.fresh := rfl
@[simp] theorem modPtm_msgTag (f : PtmState → PtmState) (s : State) : (modPtm f s).msgTag = s.msgTag := rfl
@[simp] theorem modPtm_gen (f : PtmState → PtmState) (s : State) : (modPtm f s).gen = s.gen := rfl
@[simp] theorem modPtm_evt (f : PtmState → PtmState) (s : State) : (modPtm f s).evt = s.evt := rfl
@[simp] theorem modPtm_tmb (f : PtmState → PtmState) (s : State) : (modPtm f s).tmb = s.tmb := rfl
@[simp] theorem modPtm_prt (f : PtmState → PtmState) (s : State) : (modPtm f s).prt = s.prt := rfl
@[simp] theorem modPtm_svi (f : PtmState → PtmState) (s : State) : (modPtm f s).svi = s.svi := rfl
@[simp] theorem modPtm_phe (f : PtmState → PtmState) (s : State) : (modPtm f s).phe = s.phe := rfl
@[simp] theorem modPtm_wce (f : PtmState → PtmState) (s : State) : (modPtm f s).wce = s.wce := rfl
@[simp] theorem modPtm_seq (f : PtmState → PtmState) (s : State) : (modPtm f s).seq = s.seq := rfl
@[simp] theorem modPtm_trd (f : PtmState → PtmState) (s : State) : (modPtm f s).trd = s.trd := rfl
@[simp] theorem modPtm_bgt (f : PtmState → PtmState) (s : State) : (modPtm f s).bgt = s.bgt := rfl
@[simp] theorem modPtm_wvl (f : PtmState → PtmState) (s : State) : (modPtm f s).wvl = s.wvl := rfl
@[simp] theorem modPtm_mem (f : PtmState → PtmState) (s : State) : (modPtm f s).mem = s.mem := rfl
@[simp] theorem modPtm_wrd (f : PtmState → PtmState) (s : State) : (modPtm f s).wrd = s.wrd := rfl
@[simp] theorem modPtm_fcr (f : PtmState → PtmState) (s : State) : (modPtm f s).fcr = s.fcr := rfl
@[simp] theorem modPtm_lgr (f : PtmState → PtmState) (s : State) : (modPtm f s).lgr = s.lgr := rfl
@[simp] theorem modPtm_kpr (f : PtmState → PtmState) (s : State) : (modPtm f s).kpr = s.kpr := rfl
@[simp] theorem modPtm_bsl (f : PtmState → PtmState) (s : State) : (modPtm f s).bsl = s.bsl := rfl
@[simp] theorem modPtm_upd (f : PtmState → PtmState) (s : State) : (modPtm f s).upd = s.upd := rfl
@[simp] theorem modPtm_fio (f : PtmState → PtmState) (s : State) : (modPtm f s).fio = s.fio := rfl
@[simp] theorem modPtm_hif (f : PtmState → PtmState) (s : State) : (modPtm f s).hif = s.hif := rfl
@[simp] theorem modPtm_cfg (f : PtmState → PtmState) (s : State) : (modPtm f s).cfg = s.cfg := rfl
@[simp] theorem modPtm_latchFw (f : PtmState → PtmState) (s : State) : (modPtm f s).latchFw = s.latchFw := rfl
@[simp] theorem modPtm_latchHost (f : PtmState → PtmState) (s : State) : (modPtm f s).latchHost = s.latchHost := rfl
@[simp] theorem modPtm_out (f : PtmState → PtmState) (s : State) : (modPtm f s).out = s.out := rfl

@[simp] theorem modWrd_pending (f : WrdState → WrdState) (s : State) : (modWrd f s).pending = s.pending := rfl
@[simp] theorem modWrd_now (f : WrdState → WrdState) (s : State) : (modWrd f s).now = s.now := rfl
@[simp] theorem modWrd_aon (f : WrdState → WrdState) (s : State) : (modWrd f s).aon = s.aon := rfl
@[simp] theorem modWrd_pcount (f : WrdState → WrdState) (s : State) : (modWrd f s).pcount = s.pcount := rfl
@[simp] theorem modWrd_followers (f : WrdState → WrdState) (s : State) : (modWrd f s).followers = s.followers := rfl
@[simp] theorem modWrd_discont (f : WrdState → WrdState) (s : State) : (modWrd f s).discont = s.discont := rfl
@[simp] theorem modWrd_fresh (f : WrdState → WrdState) (s : State) : (modWrd f s).fresh = s.fresh := rfl
@[simp] theorem modWrd_msgTag (f : WrdState → WrdState) (s : State) : (modWrd f s).msgTag = s.msgTag := rfl
@[simp] theorem modWrd_gen (f : WrdState → WrdState) (s : State) : (modWrd f s).gen = s.gen := rfl
@[simp] theorem modWrd_evt (f : WrdState → WrdState) (s : State) : (modWrd f s).evt = s.evt := rfl
@[simp] theorem modWrd_tmb (f : WrdState → WrdState) (s : State) : (modWrd f s).tmb = s.tmb := rfl
@[simp] theorem modWrd_prt (f : WrdState → WrdState) (s : State) : (modWrd f s).prt = s.prt := rfl
@[simp] theorem modWrd_svi (f : WrdState → WrdState) (s : State) : (modWrd f s).svi = s.svi := rfl
@[simp] theorem modWrd_phe (f : WrdState → WrdState) (s : State) : (modWrd f s).phe = s.phe := rfl
@[simp] theorem modWrd_wce (f : WrdState → WrdState) (s : State) : (modWrd f s).wce = s.wce := rfl
@[simp] theorem modWrd_seq (f : WrdState → WrdState) (s : State) : (modWrd f s).seq = s.seq := rfl
@[simp] theorem modWrd_trd (f : WrdState → WrdState) (s : State) : (modWrd f s).trd = s.trd := rfl
@[simp] theorem modWrd_bgt (f : WrdState → WrdState) (s : State) : (modWrd f s).bgt = s.bgt := rfl
@[simp] theorem modWrd_ptm (f : WrdState → WrdState) (s : State) : (modWrd f s).ptm = s.ptm := rfl
@[simp] theorem modWrd_wvl (f : WrdState → WrdState) (s : State) : (modWrd f s).wvl = s.wvl := rfl
@[simp] theorem modWrd_mem (f : WrdState → WrdState) (s : State) : (modWrd f s).mem = s.mem := rfl
@[simp] theorem modWrd_fcr (f : WrdState → WrdState) (s : State) : (modWrd f s).fcr = s.fcr := rfl
@[simp] theorem modWrd_lgr (f : WrdState → WrdState) (s : State) : (modWrd f s).lgr = s.lgr := rfl
@[simp] theorem modWrd_kpr (f : WrdState → WrdState) (s : State) : (modWrd f s).kpr = s.kpr := rfl
@[simp] theorem modWrd_bsl (f : WrdState → WrdState) (s : State) : (modWrd f s).bsl = s.bsl := rfl
@[simp] theorem modWrd_upd (f : WrdState → WrdState) (s : State) : (modWrd f s).upd = s.upd := rfl
@[simp] theorem modWrd_fio (f : WrdState → WrdState) (s : State) : (modWrd f s).fio = s.fio := rfl
@[simp] theorem modWrd_hif (f : WrdState → WrdState) (s : State) : (modWrd f s).hif = s.hif := rfl
@[simp] theorem modWrd_cfg (f : WrdState → WrdState) (s : State) : (modWrd f s).cfg = s.cfg := rfl
@[simp] theorem modWrd_latchFw (f : WrdState → WrdState) (s : State) : (modWrd f s).latchFw = s.latchFw := rfl
@[simp] theorem modWrd_latchHost (f : WrdState → WrdState) (s : State) : (modWrd f s).latchHost = s.latchHost := rfl
@[simp] theorem modWrd_out (f : WrdState → WrdState) (s : State) : (modWrd f s).out = s.out := rfl

@[simp] theorem modStn_pending (st : Nat) (f : StnState → StnState) (s : State) : (modStn st f s).pending = s.pending := rfl
@[simp] theorem modStn_now (st : Nat) (f : StnState → StnState) (s : State) : (modStn st f s).now = s.now := rfl
@[simp] theorem modStn_aon (st : Nat) (f : StnState → StnState) (s : State) : (modStn st f s).aon = s.aon := rfl
@[simp] theorem modStn_pcount (st : Nat) (f : StnState → StnState) (s : State) : (modStn st f s).pcount = s.pcount := rfl
@[simp] theorem modStn_followers (st : Nat) (f : StnState → StnState) (s : State) : (modStn st f s).followers = s.followers := rfl
@[simp] theorem modStn_discont (st : Nat) (f : StnState → StnState) (s : State) : (modStn st f s).discont = s.discont := rfl
@[simp] theorem modStn_fresh (st : Nat) (f : StnState → StnState) (s : State) : (modStn st f s).fresh = s.fresh := rfl
@[simp] theorem modStn_msgTag (st : Nat) (f : StnState → StnState) (s : State) : (modStn st f s).msgTag = s.msgTag := rfl
@[simp] theorem modStn_gen (st : Nat) (f : StnState → StnState) (s : State) : (modStn st f s).gen = s.gen := rfl
@[simp] theorem modStn_evt (st : Nat) (f : StnState → StnState) (s : State) : (modStn st f s).evt = s.evt := rfl
@[simp] theorem modStn_tmb (st : Nat) (f : StnState → StnState) (s : State) : (modStn st f s).tmb = s.tmb := rfl
@[simp] theorem modStn_svi (st : Nat) (f : StnState → StnState) (s : State) : (modStn st f s).svi = s.svi := rfl
@[simp] theorem modStn_phe (st : Nat) (f : StnState → StnState) (s : State) : (modStn st f s).phe = s.phe := rfl
@[simp] theorem modStn_wce (st : Nat) (f : StnState → StnState) (s : State) : (modStn st f s).wce = s.wce := rfl
@[simp] theorem modStn_seq (st : Nat) (f : StnState → StnState) (s : State) : (modStn st f s).seq = s.seq := rfl
@[simp] theorem modStn_trd (st : Nat) (f : StnState → StnState) (s : State) : (modStn st f s).trd = s.trd := rfl
@[simp] theorem modStn_bgt (st : Nat) (f : StnState → StnState) (s : State) : (modStn st f s).bgt = s.bgt := rfl
@[simp] theorem modStn_ptm (st : Nat) (f : StnState → StnState) (s : State) : (modStn st f s).ptm = s.ptm := rfl
@[simp] theorem modStn_wvl (st : Nat) (f : StnState → StnState) (s : State) : (modStn st f s).wvl = s.wvl := rfl
@[simp] theorem modStn_mem (st : Nat) (f : StnState → StnState) (s : State) : (modStn st f s).mem = s.mem := rfl
@[simp] theorem modStn_wrd (st : Nat) (f : StnState → StnState) (s : State) : (modStn st f s).wrd = s.wrd := rfl
@[simp] theorem modStn_fcr (st : Nat) (f : StnState → StnState) (s : State) : (modStn st f s).fcr = s.fcr := rfl
@[simp] theorem modStn_lgr (st : Nat) (f : StnState → StnState) (s : State) : (modStn st f s).lgr = s.lgr := rfl
@[simp] theorem modStn_kpr (st : Nat) (f : StnState → StnState) (s : State) : (modStn st f s).kpr = s.kpr := rfl
@[simp] theorem modStn_bsl (st : Nat) (f : StnState → StnState) (s : State) : (modStn st f s).bsl = s.bsl := rfl
@[simp] theorem modStn_upd (st : Nat) (f : StnState → StnState) (s : State) : (modStn st f s).upd = s.upd := rfl
@[simp] theorem modStn_fio (st : Nat) (f : StnState → StnState) (s : State) : (modStn st f s).fio = s.fio := rfl
@[simp] theorem modStn_hif (st : Nat) (f : StnState → StnState) (s : State) : (modStn st f s).hif = s.hif := rfl
@[simp] theorem modStn_cfg (st : Nat) (f : StnState → StnState) (s : State) : (modStn st f s).cfg = s.cfg := rfl
@[simp] theorem modStn_latchFw (st : Nat) (f : StnState → StnState) (s : State) : (modStn st f s).latchFw = s.latchFw := rfl
@[simp] theorem modStn_latchHost (st : Nat) (f : StnState → StnState) (s : State) : (modStn st f s).latchHost = s.latchHost := rfl
@[simp] theorem modStn_out (st : Nat) (f : StnState → StnState) (s : State) : (modStn st f s).out = s.out := rfl

@[simp] theorem modStream_pending (st t : Nat) (f : StreamState → StreamState) (s : State) : (modStream st t f s).pending = s.pending := rfl
@[simp] theorem modStream_now (st t : Nat) (f : StreamState → StreamState) (s : State) : (modStream st t f s).now = s.now := rfl
@[simp] theorem modStream_aon (st t : Nat) (f : StreamState → StreamState) (s : State) : (modStream st t f s).aon = s.aon := rfl
@[simp] theorem modStream_pcount (st t : Nat) (f : StreamState → StreamState) (s : State) : (modStream st t f s).pcount = s.pcount := rfl
@[simp] theorem modStream_followers (st t : Nat) (f : StreamState → StreamState) (s : State) : (modStream st t f s).followers = s.followers := rfl
@[simp] theorem modStream_discont (st t : Nat) (f : StreamState → StreamState) (s : State) : (modStream st t f s).discont = s.discont := rfl
@[simp] theorem modStream_fresh (st t : Nat) (f : StreamState → StreamState) (s : State) : (modStream st t f s).fresh = s.fresh := rfl
@[simp] theorem modStream_msgTag (st t : Nat) (f : StreamState → StreamState) (s : State) : (modStream st t f s).msgTag = s.msgTag := rfl
@[simp] theorem modStream_gen (st t : Nat) (f : StreamState → StreamState) (s : State) : (modStream st t f s).gen = s.gen := rfl
@[simp] theorem modStream_evt (st t : Nat) (f : StreamState → StreamState) (s : State) : (modStream st t f s).evt = s.evt := rfl
@[simp] theorem modStream_tmb (st t : Nat) (f : StreamState → StreamState) (s : State) : (modStream st t f s).tmb = s.tmb := rfl
@[simp] theorem modStream_svi (st t : Nat) (f : StreamState → StreamState) (s : State) : (modStream st t f s).svi = s.svi := rfl
@[simp] theorem modStream_phe (st t : Nat) (f : StreamState → StreamState) (s : State) : (modStream st t f s).phe = s.phe := rfl
@[simp] theorem modStream_wce (st t : Nat) (f : StreamState → StreamState) (s : State) : (modStream st t f s).wce = s.wce := rfl
@[simp] theorem modStream_seq (st t : Nat) (f : StreamState → StreamState) (s : State) : (modStream st t f s).seq = s.seq := rfl
@[simp] theorem modStream_trd (st t : Nat) (f : StreamState → StreamState) (s : State) : (modStream st t f s).trd = s.trd := rfl
@[simp] theorem modStream_bgt (st t : Nat) (f : StreamState → StreamState) (s : State) : (modStream st t f s).bgt = s.bgt := rfl
@[simp] theorem modStream_ptm (st t : Nat) (f : StreamState → StreamState) (s : State) : (modStream st t f s).ptm = s.ptm := rfl
@[simp] theorem modStream_wvl (st t : Nat) (f : StreamState → StreamState) (s : State) : (modStream st t f s).wvl = s.wvl := rfl
@[simp] theorem modStream_mem (st t : Nat) (f : StreamState → StreamState) (s : State) : (modStream st t f s).mem = s.mem := rfl
@[simp] theorem modStream_wrd (st t : Nat) (f : StreamState → StreamState) (s : State) : (modStream st t f s).wrd = s.wrd := rfl
@[simp] theorem modStream_fcr (st t : Nat) (f : StreamState → StreamState) (s : State) : (modStream st t f s).fcr = s.fcr := rfl
@[simp] theorem modStream_lgr (st t : Nat) (f : StreamState → StreamState) (s : State) : (modStream st t f s).lgr = s.lgr := rfl
@[simp] theorem modStream_kpr (st t : Nat) (f : StreamState → StreamState) (s : State) : (modStream st t f s).kpr = s.kpr := rfl
@[simp] theorem modStream_bsl (st t : Nat) (f : StreamState → StreamState) (s : State) : (modStream st t f s).bsl = s.bsl := rfl
@[simp] theorem modStream_upd (st t : Nat) (f : StreamState → StreamState) (s : State) : (modStream st t f s).upd = s.upd := rfl
@[simp] theorem modStream_fio (st t : Nat) (f : StreamState → StreamState) (s : State) : (modStream st t f s).fio = s.fio := rfl
@[simp] theorem modStream_hif (st t : Nat) (f : StreamState → StreamState) (s : State) : (modStream st t f s).hif = s.hif := rfl
@[simp] theorem modStream_cfg (st t : Nat) (f : StreamState → StreamState) (s : State) : (modStream st t f s).cfg = s.cfg := rfl
@[simp] theorem modStream_latchFw (st t : Nat) (f : StreamState → StreamState) (s : State) : (modStream st t f s).latchFw = s.latchFw := rfl
@[simp] theorem modStream_latchHost (st t : Nat) (f : StreamState → StreamState) (s : State) : (modStream st t f s).latchHost = s.latchHost := rfl
@[simp] theorem modStream_out (st t : Nat) (f : StreamState → StreamState) (s : State) : (modStream st t f s).out = s.out := rfl

@[simp] theorem modDi_pending (i : Nat) (f : DiState → DiState) (s : State) : (modDi i f s).pending = s.pending := rfl
@[simp] theorem modDi_now (i : Nat) (f : DiState → DiState) (s : State) : (modDi i f s).now = s.now := rfl
@[simp] theorem modDi_aon (i : Nat) (f : DiState → DiState) (s : State) : (modDi i f s).aon = s.aon := rfl
@[simp] theorem modDi_pcount (i : Nat) (f : DiState → DiState) (s : State) : (modDi i f s).pcount = s.pcount := rfl
@[simp] theorem modDi_followers (i : Nat) (f : DiState → DiState) (s : State) : (modDi i f s).followers = s.followers := rfl
@[simp] theorem modDi_discont (i : Nat) (f : DiState → DiState) (s : State) : (modDi i f s).discont = s.discont := rfl
@[simp] theorem modDi_fresh (i : Nat) (f : DiState → DiState) (s : State) : (modDi i f s).fresh = s.fresh := rfl
@[simp] theorem modDi_msgTag (i : Nat) (f : DiState → DiState) (s : State) : (modDi i f s).msgTag = s.msgTag := rfl
@[simp] theorem modDi_gen (i : Nat) (f : DiState → DiState) (s : State) : (modDi i f s).gen = s.gen := rfl
@[simp] theorem modDi_evt (i : Nat) (f : DiState → DiState) (s : State) : (modDi i f s).evt = s.evt := rfl
@[simp] theorem modDi_tmb (i : Nat) (f : DiState → DiState) (s : State) : (modDi i f s).tmb = s.tmb := rfl
@[simp] theorem modDi_prt (i : Nat) (f : DiState → DiState) (s : State) : (modDi i f s).prt = s.prt := rfl
@[simp] theorem modDi_svi (i : Nat) (f : DiState → DiState) (s : State) : (modDi i f s).svi = s.svi := rfl
@[simp] theorem modDi_phe (i : Nat) (f : DiState → DiState) (s : State) : (modDi i f s).phe = s.phe := rfl
@[simp] theorem modDi_wce (i : Nat) (f : DiState → DiState) (s : State) : (modDi i f s).wce = s.wce := rfl
@[simp] theorem modDi_seq (i : Nat) (f : DiState → DiState) (s : State) : (modDi i f s).seq = s.seq := rfl
@[simp] theorem modDi_trd (i : Nat) (f : DiState → DiState) (s : State) : (modDi i f s).trd = s.trd := rfl
@[simp] theorem modDi_bgt (i : Nat) (f : DiState → DiState) (s : State) : (modDi i f s).bgt = s.bgt := rfl
@[simp] theorem modDi_ptm (i : Nat) (f : DiState → DiState) (s : State) : (modDi i f s).ptm = s.ptm := rfl
@[simp] theorem modDi_wvl (i : Nat) (f : DiState → DiState) (s : State) : (modDi i f s).wvl = s.wvl := rfl
@[simp] theorem modDi_mem (i : Nat) (f : DiState → DiState) (s : State) : (modDi i f s).mem = s.mem := rfl
@[simp] theorem modDi_wrd (i : Nat) (f : DiState → DiState) (s : State) : (modDi i f s).wrd = s.wrd := rfl
@[simp] theorem modDi_fcr (i : Nat) (f : DiState → DiState) (s : State) : (modDi i f s).fcr = s.fcr := rfl
@[simp] theorem modDi_lgr (i : Nat) (f : DiState → DiState) (s : State) : (modDi i f s).lgr = s.lgr := rfl
@[simp] theorem modDi_kpr (i : Nat) (f : DiState → DiState) (s : State) : (modDi i f s).kpr = s.kpr := rfl
@[simp] theorem modDi_bsl (i : Nat) (f : DiState → DiState) (s : State) : (modDi i f s).bsl = s.bsl := rfl
@[simp] theorem modDi_upd (i : Nat) (f : DiState → DiState) (s : State) : (modDi i f s).upd = s.upd := rfl
@[simp] theorem modDi_hif (i : Nat) (f : DiState → DiState) (s : State) : (modDi i f s).hif = s.hif := rfl
@[simp] theorem modDi_cfg (i : Nat) (f : DiState → DiState) (s : State) : (modDi i f s).cfg = s.cfg := rfl
@[simp] theorem modDi_latchFw (i : Nat) (f : DiState → DiState) (s : State) : (modDi i f s).latchFw = s.latchFw := rfl
@[simp] theorem modDi_latchHost (i : Nat) (f : DiState → DiState) (s : State) : (modDi i f s).latchHost = s.latchHost := rfl
@[simp] theorem modDi_out (i : Nat) (f : DiState → DiState) (s : State) : (modDi i f s).out = s.out := rfl

@[simp] theorem modDo_pending (j : Nat) (f : DoState → DoState) (s : State) : (modDo j f s).pending = s.pending := rfl
@[simp] theorem modDo_now (j : Nat) (f : DoState → DoState) (s : State) : (modDo j f s).now = s.now := rfl
@[simp] theorem modDo_aon (j : Nat) (f : DoState → DoState) (s : State) : (modDo j f s).aon = s.aon := rfl
@[simp] theorem modDo_pcount (j : Nat) (f : DoState → DoState) (s : State) : (modDo j f s).pcount = s.pcount := rfl
@[simp] theorem modDo_followers (j : Nat) (f : DoState → DoState) (s : State) : (modDo j f s).followers = s.followers := rfl
@[simp] theorem modDo_discont (j : Nat) (f : DoState → DoState) (s : State) : (modDo j f s).discont = s.discont := rfl
@[simp] theorem modDo_fresh (j : Nat) (f : DoState → DoState) (s : State) : (modDo j f s).fresh = s.fresh := rfl
@[simp] theorem modDo_msgTag (j : Nat) (f : DoState → DoState) (s : State) : (modDo j f s).msgTag = s.msgTag := rfl
@[simp] theorem modDo_gen (j : Nat) (f : DoState → DoState) (s : State) : (modDo j f s).gen = s.gen := rfl
@[simp] theorem modDo_evt (j : Nat) (f : DoState → DoState) (s : State) : (modDo j f s).evt = s.evt := rfl
@[simp] theorem modDo_tmb (j : Nat) (f : DoState → DoState) (s : State) : (modDo j f s).tmb = s.tmb := rfl
@[simp] theorem modDo_prt (j : Nat) (f : DoState → DoState) (s : State) : (modDo j f s).prt = s.prt := rfl
@[simp] theorem modDo_svi (j : Nat) (f : DoState → DoState) (s : State) : (modDo j f s).svi = s.svi := rfl
@[simp] theorem modDo_phe (j : Nat) (f : DoState → DoState) (s : State) : (modDo j f s).phe = s.phe := rfl
@[simp] theorem modDo_wce (j : Nat) (f : DoState → DoState) (s : State) : (modDo j f s).wce = s.wce := rfl
@[simp] theorem modDo_seq (j : Nat) (f : DoState → DoState) (s : State) : (modDo j f s).seq = s.seq := rfl
@[simp] theorem modDo_trd (j : Nat) (f : DoState → DoState) (s : State) : (modDo j f s).trd = s.trd := rfl
@[simp] theorem modDo_bgt (j : Nat) (f : DoState → DoState) (s : State) : (modDo j f s).bgt = s.bgt := rfl
@[simp] theorem modDo_ptm (j : Nat) (f : DoState → DoState) (s : State) : (modDo j f s).ptm = s.ptm := rfl
@[simp] theorem modDo_wvl (j : Nat) (f : DoState → DoState) (s : State) : (modDo j f s).wvl = s.wvl := rfl
@[simp] theorem modDo_mem (j : Nat) (f : DoState → DoState) (s : State) : (modDo j f s).mem = s.mem := rfl
@[simp] theorem modDo_wrd (j : Nat) (f : DoState → DoState) (s : State) : (modDo j f s).wrd = s.wrd := rfl
@[simp] theorem modDo_fcr (j : Nat) (f : DoState → DoState) (s : State) : (modDo j f s).fcr = s.fcr := rfl
@[simp] theorem modDo_lgr (j : Nat) (f : DoState → DoState) (s : State) : (modDo j f s).lgr = s.lgr := rfl
@[simp] theorem modDo_kpr (j : Nat) (f : DoState → DoState) (s : State) : (modDo j f s).kpr = s.kpr := rfl
@[simp] theorem modDo_bsl (j : Nat) (f : DoState → DoState) (s : State) : (modDo j f s).bsl = s.bsl := rfl
@[simp] theorem modDo_upd (j : Nat) (f : DoState → DoState) (s : State) : (modDo j f s).upd = s.upd := rfl
@[simp] theorem modDo_hif (j : Nat) (f : DoState → DoState) (s : State) : (modDo j f s).hif = s.hif := rfl
@[simp] theorem modDo_cfg (j : Nat) (f : DoState → DoState) (s : State) : (modDo j f s).cfg = s.cfg := rfl
@[simp] theorem modDo_latchFw (j : Nat) (f : DoState → DoState) (s : State) : (modDo j f s).latchFw = s.latchFw := rfl
@[simp] theorem modDo_latchHost (j : Nat) (f : DoState → DoState) (s : State) : (modDo j f s).latchHost = s.latchHost := rfl
@[simp] theorem modDo_out (j : Nat) (f : DoState → DoState) (s : State) : (modDo j f s).out = s.out := rfl

@[simp] theorem modAo_pending (c : Nat) (f : AoState → AoState) (s : State) : (modAo c f s).pending = s.pending := rfl
@[simp] theorem modAo_now (c : Nat) (f : AoState → AoState) (s : State) : (modAo c f s).now = s.now := rfl
@[simp] theorem modAo_aon (c : Nat) (f : AoState → AoState) (s : State) : (modAo c f s).aon = s.aon := rfl
@[simp] theorem modAo_pcount (c : Nat) (f : AoState → AoState) (s : State) : (modAo c f s).pcount = s.pcount := rfl
@[simp] theorem modAo_followers (c : Nat) (f : AoState → AoState) (s : State) : (modAo c f s).followers = s.followers := rfl
@[simp] theorem modAo_discont (c : Nat) (f : AoState → AoState) (s : State) : (modAo c f s).discont = s.discont := rfl
@[simp] theorem modAo_fresh (c : Nat) (f : AoState → AoState) (s : State) : (modAo c f s).fresh = s.fresh := rfl
@[simp] theorem modAo_msgTag (c : Nat) (f : AoState → AoState) (s : State) : (modAo c f s).msgTag = s.msgTag := rfl
@[simp] theorem modAo_gen (c : Nat) (f : AoState → AoState) (s : State) : (modAo c f s).gen = s.gen := rfl
@[simp] theorem modAo_evt (c : Nat) (f : AoState → AoState) (s : State) : (modAo c f s).evt = s.evt := rfl
@[simp] theorem modAo_tmb (c : Nat) (f : AoState → AoState) (s : State) : (modAo c f s).tmb = s.tmb := rfl
@[simp] theorem modAo_prt (c : Nat) (f : AoState → AoState) (s : State) : (modAo c f s).prt = s.prt := rfl
@[simp] theorem modAo_svi (c : Nat) (f : AoState → AoState) (s : State) : (modAo c f s).svi = s.svi := rfl
@[simp] theorem modAo_phe (c : Nat) (f : AoState → AoState) (s : State) : (modAo c f s).phe = s.phe := rfl
@[simp] theorem modAo_wce (c : Nat) (f : AoState → AoState) (s : State) : (modAo c f s).wce = s.wce := rfl
@[simp] theorem modAo_seq (c : Nat) (f : AoState → AoState) (s : State) : (modAo c f s).seq = s.seq := rfl
@[simp] theorem modAo_trd (c : Nat) (f : AoState → AoState) (s : State) : (modAo c f s).trd = s.trd := rfl
@[simp] theorem modAo_bgt (c : Nat) (f : AoState → AoState) (s : State) : (modAo c f s).bgt = s.bgt := rfl
@[simp] theorem modAo_ptm (c : Nat) (f : AoState → AoState) (s : State) : (modAo c f s).ptm = s.ptm := rfl
@[simp] theorem modAo_wvl (c : Nat) (f : AoState → AoState) (s : State) : (modAo c f s).wvl = s.wvl := rfl
@[simp] theorem modAo_mem (c : Nat) (f : AoState → AoState) (s : State) : (modAo c f s).mem = s.mem := rfl
@[simp] theorem modAo_wrd (c : Nat) (f : AoState → AoState) (s : State) : (modAo c f s).wrd = s.wrd := rfl
@[simp] theorem modAo_fcr (c : Nat) (f : AoState → AoState) (s : State) : (modAo c f s).fcr = s.fcr := rfl
@[simp] theorem modAo_lgr (c : Nat) (f : AoState → AoState) (s : State) : (modAo c f s).lgr = s.lgr := rfl
@[simp] theorem modAo_kpr (c : Nat) (f : AoState → AoState) (s : State) : (modAo c f s).kpr = s.kpr := rfl
@[simp] theorem modAo_bsl (c : Nat) (f : AoState → AoState) (s : State) : (modAo c f s).bsl = s.bsl := rfl
@[simp] theorem modAo_upd (c : Nat) (f : AoState → AoState) (s : State) : (modAo c f s).upd = s.upd := rfl
@[simp] theorem modAo_hif (c : Nat) (f : AoState → AoState) (s : State) : (modAo c f s).hif = s.hif := rfl
@[simp] theorem modAo_cfg (c : Nat) (f : AoState → AoState) (s : State) : (modAo c f s).cfg = s.cfg := rfl
@[simp] theorem modAo_latchFw (c : Nat) (f : AoState → AoState) (s : State) : (modAo c f s).latchFw = s.latchFw := rfl
@[simp] theorem modAo_latchHost (c : Nat) (f : AoState → AoState) (s : State) : (modAo c f s).latchHost = s.latchHost := rfl
@[simp] theorem modAo_out (c : Nat) (f : AoState → AoState) (s : State) : (modAo c f s).out = s.out := rfl

@[simp] theorem modPg_pending (g : Nat) (f : PulseGen → PulseGen) (s : State) : (modPg g f s).pending = s.pending := rfl
@[simp] theorem modPg_now (g : Nat) (f : PulseGen → PulseGen) (s : State) : (modPg g f s).now = s.now := rfl
@[simp] theorem modPg_aon (g : Nat) (f : PulseGen → PulseGen) (s : State) : (modPg g f s).aon = s.aon := rfl
@[simp] theorem modPg_pcount (g : Nat) (f : PulseGen → PulseGen) (s : State) : (modPg g f s).pcount = s.pcount := rfl
@[simp] theorem modPg_followers (g : Nat) (f : PulseGen → PulseGen) (s : State) : (modPg g f s).followers = s.followers := rfl
@[simp] theorem modPg_discont (g : Nat) (f : PulseGen → PulseGen) (s : State) : (modPg g f s).discont = s.discont := rfl
@[simp] theorem modPg_fresh (g : Nat) (f : PulseGen → PulseGen) (s : State) : (modPg g f s).fresh = s.fresh := rfl
@[simp] theorem modPg_msgTag (g : Nat) (f : PulseGen → PulseGen) (s : State) : (modPg g f s).msgTag = s.msgTag := rfl
@[simp] theorem modPg_gen (g : Nat) (f : PulseGen → PulseGen) (s : State) : (modPg g f s).gen = s.gen := rfl
@[simp] theorem modPg_evt (g : Nat) (f : PulseGen → PulseGen) (s : State) : (modPg g f s).evt = s.evt := rfl
@[simp] theorem modPg_prt (g : Nat) (f : PulseGen → PulseGen) (s : State) : (modPg g f s).prt = s.prt := rfl
@[simp] theorem modPg_svi (g : Nat) (f : PulseGen → PulseGen) (s : State) : (modPg g f s).svi = s.svi := rfl
@[simp] theorem modPg_phe (g : Nat) (f : PulseGen → PulseGen) (s : State) : (modPg g f s).phe = s.phe := rfl
@[simp] theorem modPg_wce (g : Nat) (f : PulseGen → PulseGen) (s : State) : (modPg g f s).wce = s.wce := rfl
@[simp] theorem modPg_seq (g : Nat) (f : PulseGen → PulseGen) (s : State) : (modPg g f s).seq = s.seq := rfl
@[simp] theorem modPg_trd (g : Nat) (f : PulseGen → PulseGen) (s : State) : (modPg g f s).trd = s.trd := rfl
@[simp] theorem modPg_bgt (g : Nat) (f : PulseGen → PulseGen) (s : State) : (modPg g f s).bgt = s.bgt := rfl
@[simp] theorem modPg_ptm (g : Nat) (f : PulseGen → PulseGen) (s : State) : (modPg g f s).ptm = s.ptm := rfl
@[simp] theorem modPg_wvl (g : Nat) (f : PulseGen → PulseGen) (s : State) : (modPg g f s).wvl = s.wvl := rfl
@[simp] theorem modPg_mem (g : Nat) (f : PulseGen → PulseGen) (s : State) : (modPg g f s).mem = s.mem := rfl
@[simp] theorem modPg_wrd (g : Nat) (f : PulseGen → PulseGen) (s : State) : (modPg g f s).wrd = s.wrd := rfl
@[simp] theorem modPg_fcr (g : Nat) (f : PulseGen → PulseGen) (s : State) : (modPg g f s).fcr = s.fcr := rfl
@[simp] theorem modPg_lgr (g : Nat) (f : PulseGen → PulseGen) (s : State) : (modPg g f s).lgr = s.lgr := rfl
@[simp] theorem modPg_kpr (g : Nat) (f : PulseGen → PulseGen) (s : State) : (modPg g f s).kpr = s.kpr := rfl
@[simp] theorem modPg_bsl (g : Nat) (f : PulseGen → PulseGen) (s : State) : (modPg g f s).bsl = s.bsl := rfl
@[simp] theorem modPg_upd (g : Nat) (f : PulseGen → PulseGen) (s : State) : (modPg g f s).upd = s.upd := rfl
@[simp] theorem modPg_fio (g : Nat) (f : PulseGen → PulseGen) (s : State) : (modPg g f s).fio = s.fio := rfl
@[simp] theorem modPg_hif (g : Nat) (f : PulseGen → PulseGen) (s : State) : (modPg g f s).hif = s.hif := rfl
@[simp] theorem modPg_cfg (g : Nat) (f : PulseGen → PulseGen) (s : State) : (modPg g f s).cfg = s.cfg := rfl
@[simp] theorem modPg_latchFw (g : Nat) (f : PulseGen → PulseGen) (s : State) : (modPg g f s).latchFw = s.latchFw := rfl
@[simp] theorem modPg_latchHost (g : Nat) (f : PulseGen → PulseGen) (s : State) : (modPg g f s).latchHost = s.latchHost := rfl
@[simp] theorem modPg_out (g : Nat) (f : PulseGen → PulseGen) (s : State) : (modPg g f s).out = s.out := rfl

@[simp] theorem modSrc_pending (i : Nat) (f : FcrSource → FcrSource) (s : State) : (modSrc i f s).pending = s.pending := rfl
@[simp] theorem modSrc_now (i : Nat) (f : FcrSource → FcrSource) (s : State) : (modSrc i f s).now = s.now := rfl
@[simp] theorem modSrc_aon (i : Nat) (f : FcrSource → FcrSource) (s : State) : (modSrc i f s).aon = s.aon := rfl
@[simp] theorem modSrc_pcount (i : Nat) (f : FcrSource → FcrSource) (s : State) : (modSrc i f s).pcount = s.pcount := rfl
@[simp] theorem modSrc_followers (i : Nat) (f : FcrSource → FcrSource) (s : State) : (modSrc i f s).followers = s.followers := rfl
@[simp] theorem modSrc_discont (i : Nat) (f : FcrSource → FcrSource) (s : State) : (modSrc i f s).discont = s.discont := rfl
@[simp] theorem modSrc_fresh (i : Nat) (f : FcrSource → FcrSource) (s : State) : (modSrc i f s).fresh = s.fresh := rfl
@[simp] theorem modSrc_msgTag (i : Nat) (f : FcrSource → FcrSource) (s : State) : (modSrc i f s).msgTag = s.msgTag := rfl
@[simp] theorem modSrc_gen (i : Nat) (f : FcrSource → FcrSource) (s : State) : (modSrc i f s).gen = s.gen := rfl
@[simp] theorem modSrc_evt (i : Nat) (f : FcrSource → FcrSource) (s : State) : (modSrc i f s).evt = s.evt := rfl
@[simp] theorem modSrc_tmb (i : Nat) (f : FcrSource → FcrSource) (s : State) : (modSrc i f s).tmb = s.tmb := rfl
@[simp] theorem modSrc_prt (i : Nat) (f : FcrSource → FcrSource) (s : State) : (modSrc i f s).prt = s.prt := rfl
@[simp] theorem modSrc_svi (i : Nat) (f : FcrSource → FcrSource) (s : State) : (modSrc i f s).svi = s.svi := rfl
@[simp] theorem modSrc_phe (i : Nat) (f : FcrSource → FcrSource) (s : State) : (modSrc i f s).phe = s.phe := rfl
@[simp] theorem modSrc_wce (i : Nat) (f : FcrSource → FcrSource) (s : State) : (modSrc i f s).wce = s.wce := rfl
@[simp] theorem modSrc_seq (i : Nat) (f : FcrSource → FcrSource) (s : State) : (modSrc i f s).seq = s.seq := rfl
@[simp] theorem modSrc_trd (i : Nat) (f : FcrSource → FcrSource) (s : State) : (modSrc i f s).trd = s.trd := rfl
@[simp] theorem modSrc_bgt (i : Nat) (f : FcrSource → FcrSource) (s : State) : (modSrc i f s).bgt = s.bgt := rfl
@[simp] theorem modSrc_ptm (i : Nat) (f : FcrSource → FcrSource) (s : State) : (modSrc i f s).ptm = s.ptm := rfl
@[simp] theorem modSrc_wvl (i : Nat) (f : FcrSource → FcrSource) (s : State) : (modSrc i f s).wvl = s.wvl := rfl
@[simp] theorem modSrc_mem (i : Nat) (f : FcrSource → FcrSource) (s : State) : (modSrc i f s).mem = s.mem := rfl
@[simp] theorem modSrc_wrd (i : Nat) (f : FcrSource → FcrSource) (s : State) : (modSrc i f s).wrd = s.wrd := rfl
@[simp] theorem modSrc_lgr (i : Nat) (f : FcrSource → FcrSource) (s : State) : (modSrc i f s).lgr = s.lgr := rfl
@[simp] theorem modSrc_kpr (i : Nat) (f : FcrSource → FcrSource) (s : State) : (modSrc i f s).kpr = s.kpr := rfl
@[simp] theorem modSrc_bsl (i : Nat) (f : FcrSource → FcrSource) (s : State) : (modSrc i f s).bsl = s.bsl := rfl
@[simp] theorem modSrc_upd (i : Nat) (f : FcrSource → FcrSource) (s : State) : (modSrc i f s).upd = s.upd := rfl
@[simp] theorem modSrc_fio (i : Nat) (f : FcrSource → FcrSource) (s : State) : (modSrc i f s).fio = s.fio := rfl
@[simp] theorem modSrc_hif (i : Nat) (f : FcrSource → FcrSource) (s : State) : (modSrc i f s).hif = s.hif := rfl
@[simp] theorem modSrc_cfg (i : Nat) (f : FcrSource → FcrSource) (s : State) : (modSrc i f s).cfg = s.cfg := rfl
@[simp] theorem modSrc_latchFw (i : Nat) (f : FcrSource → FcrSource) (s : State) : (modSrc i f s).latchFw = s.latchFw := rfl
@[simp] theorem modSrc_latchHost (i : Nat) (f : FcrSource → FcrSource) (s : State) : (modSrc i f s).latchHost = s.latchHost := rfl
@[simp] theorem modSrc_out (i : Nat) (f : FcrSource → FcrSource) (s : State) : (modSrc i f s).out = s.out := rfl

@[simp] theorem notifyAll_pending (sub : Session → Bool) (n : Notif) (s : State) : (notifyAll sub n s).pending = s.pending := rfl
@[simp] theorem notifyAll_now (sub : Session → Bool) (n : Notif) (s : State) : (notifyAll sub n s).now = s.now := rfl
@[simp] theorem notifyAll_aon (sub : Session → Bool) (n : Notif) (s : State) : (notifyAll sub n s).aon = s.aon := rfl
@[simp] theorem notifyAll_pcount (sub : Session → Bool) (n : Notif) (s : State) : (notifyAll sub n s).pcount = s.pcount := rfl
@[simp] theorem notifyAll_followers (sub : Session → Bool) (n : Notif) (s : State) : (notifyAll sub n s).followers = s.followers := rfl
@[simp] theorem notifyAll_discont (sub : Session → Bool) (n : Notif) (s : State) : (notifyAll sub n s).discont = s.discont := rfl
@[simp] theorem notifyAll_fresh (sub : Session → Bool) (n : Notif) (s : State) : (notifyAll sub n s).fresh = s.fresh := rfl
@[simp] theorem notifyAll_msgTag (sub : Session → Bool) (n : Notif) (s : State) : (notifyAll sub n s).msgTag = s.msgTag := rfl
@[simp] theorem notifyAll_gen (sub : Session → Bool) (n : Notif) (s : State) : (notifyAll sub n s).gen = s.gen := rfl
@[simp] theorem notifyAll_evt (sub : Session → Bool) (n : Notif) (s : State) : (notifyAll sub n s).evt = s.evt := rfl
@[simp] theorem notifyAll_tmb (sub : Session → Bool) (n : Notif) (s : State) : (notifyAll sub n s).tmb = s.tmb := rfl
@[simp] theorem notifyAll_prt (sub : Session → Bool) (n : Notif) (s : State) : (notifyAll sub n s).prt = s.prt := rfl
@[simp] theorem notifyAll_svi (sub : Session → Bool) (n : Notif) (s : State) : (notifyAll sub n s).svi = s.svi := rfl
@[simp] theorem notifyAll_phe (sub : Session → Bool) (n : Notif) (s : State) : (notifyAll sub n s).phe = s.phe := rfl
@[simp] theorem notifyAll_wce (sub : Session → Bool) (n : Notif) (s : State) : (notifyAll sub n s).wce = s.wce := rfl
@[simp] theorem notifyAll_seq (sub : Session → Bool) (n : Notif) (s : State) : (notifyAll sub n s).seq = s.seq := rfl
@[simp] theorem notifyAll_trd (sub : Session → Bool) (n : Notif) (s : State) : (notifyAll sub n s).trd = s.trd := rfl
@[simp] theorem notifyAll_bgt (sub : Session → Bool) (n : Notif) (s : State) : (notifyAll sub n s).bgt = s.bgt := rfl
@[simp] theorem notifyAll_ptm (sub : Session → Bool) (n : Notif) (s : State) : (notifyAll sub n s).ptm = s.ptm := rfl
@[simp] theorem notifyAll_wvl (sub : Session → Bool) (n : Notif) (s : State) : (notifyAll sub n s).wvl = s.wvl := rfl
@[simp] theorem notifyAll_mem (sub : Session → Bool) (n : Notif) (s : State) : (notifyAll sub n s).mem = s.mem := rfl
@[simp] theorem notifyAll_wrd (sub : Session → Bool) (n : Notif) (s : State) : (notifyAll sub n s).wrd = s.wrd := rfl
@[simp] theorem notifyAll_fcr (sub : Session → Bool) (n : Notif) (s : State) : (notifyAll sub n s).fcr = s.fcr := rfl
@[simp] theorem notifyAll_lgr (sub : Session → Bool) (n : Notif) (s : State) : (notifyAll sub n s).lgr = s.lgr := rfl
@[simp] theorem notifyAll_kpr (sub : Session → Bool) (n : Notif) (s : State) : (notifyAll sub n s).kpr = s.kpr := rfl
@[simp] theorem notifyAll_bsl (sub : Session → Bool) (n : Notif) (s : State) : (notifyAll sub n s).bsl = s.bsl := rfl
@[simp] theorem notifyAll_upd (sub : Session → Bool) (n : Notif) (s : State) : (notifyAll sub n s).upd = s.upd := rfl
@[simp] theorem notifyAll_fio (sub : Session → Bool) (n : Notif) (s : State) : (notifyAll sub n s).fio = s.fio := rfl
@[simp] theorem notifyAll_cfg (sub : Session → Bool) (n : Notif) (s : State) : (notifyAll sub n s).cfg = s.cfg := rfl
@[simp] theorem notifyAll_latchFw (sub : Session → Bool) (n : Notif) (s : State) : (notifyAll sub n s).latchFw = s.latchFw := rfl
@[simp] theorem notifyAll_latchHost (sub : Session → Bool) (n : Notif) (s : State) : (notifyAll sub n s).latchHost = s.latchHost := rfl
@[simp] theorem notifyAll_out (sub : Session → Bool) (n : Notif) (s : State) : (notifyAll sub n s).out = s.out := rfl

@[simp] theorem modCart_pending (f : Cartridge → Cartridge) (s : State) : (modCart f s).pending = s.pending := by
  unfold modCart
  repeat' (first | rfl | split | simp only [when] | simp)
@[simp] theorem modCart_now (f : Cartridge → Cartridge) (s : State) : (modCart f s).now = s.now := by
  unfold modCart
  repeat' (first | rfl | split | simp only [when] | simp)
@[simp] theorem modCart_aon (f : Cartridge → Cartridge) (s : State) : (modCart f s).aon = s.aon := by
  unfold modCart
  repeat' (first | rfl | split | simp only [when] | simp)
@[simp] theorem modCart_pcount (f : Cartridge → Cartridge) (s : State) : (modCart f s).pcount = s.pcount := by
  unfold modCart
  repeat' (first | rfl | split | simp only [when] | simp)
@[simp] theorem modCart_followers (f : Cartridge → Cartridge) (s : State) : (modCart f s).followers = s.followers := by
  unfold modCart
  repeat' (first | rfl | split | simp only [when] | simp)
@[simp] theorem modCart_discont (f : Cartridge → Cartridge) (s : State) : (modCart f s).discont = s.discont := by
  unfold modCart
  repeat' (first | rfl | split | simp only [when] | simp)
@[simp] theorem modCart_fresh (f : Cartridge → Cartridge) (s : State) : (modCart f s).fresh = s.fresh := by
  unfold modCart
  repeat' (first | rfl | split | simp only [when] | simp)
@[simp] theorem modCart_msgTag (f : Cartridge → Cartridge) (s : State) : (modCart f s).msgTag = s.msgTag := by
  unfold modCart
  repeat' (first | rfl | split | simp only [when] | simp)
@[simp] theorem modCart_gen (f : Cartridge → Cartridge) (s : State) : (modCart f s).gen = s.gen := by
  unfold modCart
  repeat' (first | rfl | split | simp only [when] | simp)
@[simp] theorem modCart_evt (f : Cartridge → Cartridge) (s : State) : (modCart f s).evt = s.evt := by
  unfold modCart
  repeat' (first | rfl | split | simp only [when] | simp)
@[simp] theorem modCart_tmb (f : Cartridge → Cartridge) (s : State) : (modCart f s).tmb = s.tmb := by
  unfold modCart
  repeat' (first | rfl | split | simp only [when] | simp)
@[simp] theorem modCart_prt (f : Cartridge → Cartridge) (s : State) : (modCart f s).prt = s.prt := by
  unfold modCart
  repeat' (first | rfl | split | simp only [when] | simp)
@[simp] theorem modCart_svi (f : Cartridge → Cartridge) (s : State) : (modCart f s).svi = s.svi := by
  unfold modCart
  repeat' (first | rfl | split | simp only [when] | simp)
@[simp] theorem modCart_phe (f : Cartridge → Cartridge) (s : State) : (modCart f s).phe = s.phe := by
  unfold modCart
  repeat' (first | rfl | split | simp only [when] | simp)
@[simp] theorem modCart_wce (f : Cartridge → Cartridge) (s : State) : (modCart f s).wce = s.wce := by
  unfold modCart
  repeat' (first | rfl | split | simp only [when] | simp)
@[simp] theorem modCart_seq (f : Cartridge → Cartridge) (s : State) : (modCart f s).seq = s.seq := by
  unfold modCart
  repeat' (first | rfl | split | simp only [when] | simp)
@[simp] theorem modCart_trd (f : Cartridge → Cartridge) (s : State) : (modCart f s).trd = s.trd := by
  unfold modCart
  repeat' (first | rfl | split | simp only [when] | simp)
@[simp] theorem modCart_bgt (f : Cartridge → Cartridge) (s : State) : (modCart f s).bgt = s.bgt := by
  unfold modCart
  repeat' (first | rfl | split | simp only [when] | simp)
@[simp] theorem modCart_ptm (f : Cartridge → Cartridge) (s : State) : (modCart f s).ptm = s.ptm := by
  unfold modCart
  repeat' (first | rfl | split | simp only [when] | simp)
@[simp] theorem modCart_wvl (f : Cartridge → Cartridge) (s : State) : (modCart f s).wvl = s.wvl := by
  unfold modCart
  repeat' (first | rfl | split | simp only [when] | simp)
@[simp] theorem modCart_mem (f : Cartridge → Cartridge) (s : State) : (modCart f s).mem = s.mem := by
  unfold modCart
  repeat' (first | rfl | split | simp only [when] | simp)
@[simp] theorem modCart_wrd (f : Cartridge → Cartridge) (s : State) : (modCart f s).wrd = s.wrd := by
  unfold modCart
  repeat' (first | rfl | split | simp only [when] | simp)
@[simp] theorem modCart_fcr (f : Cartridge → Cartridge) (s : State) : (modCart f s).fcr = s.fcr := by
  unfold modCart
  repeat' (first | rfl | split | simp only [when] | simp)
@[simp] theorem modCart_lgr (f : Cartridge → Cartridge) (s : State) : (modCart f s).lgr = s.lgr := by
  unfold modCart
  repeat' (first | rfl | split | simp only [when] | simp)
@[simp] theorem modCart_bsl (f : Cartridge → Cartridge) (s : State) : (modCart f s).bsl = s.bsl := by
  unfold modCart
  repeat' (first | rfl | split | simp only [when] | simp)
@[simp] theorem modCart_upd (f : Cartridge → Cartridge) (s : State) : (modCart f s).upd = s.upd := by
  unfold modCart
  repeat' (first | rfl | split | simp only [when] | simp)
@[simp] theorem modCart_fio (f : Cartridge → Cartridge) (s : State) : (modCart f s).fio = s.fio := by
  unfold modCart
  repeat' (first | rfl | split | simp only [when] | simp)
@[simp] theorem modCart_hif (f : Cartridge → Cartridge) (s : State) : (modCart f s).hif = s.hif := by
  unfold modCart
  repeat' (first | rfl | split | simp only [when] | simp)
@[simp] theorem modCart_cfg (f : Cartridge → Cartridge) (s : State) : (modCart f s).cfg = s.cfg := by
  unfold modCart
  repeat' (first | rfl | split | simp only [when] | simp)
@[simp] theorem modCart_latchFw (f : Cartridge → Cartridge) (s : State) : (modCart f s).latchFw = s.latchFw := by
  unfold modCart
  repeat' (first | rfl | split | simp only [when] | simp)
@[simp] theorem modCart_latchHost (f : Cartridge → Cartridge) (s : State) : (modCart f s).latchHost = s.latchHost := by
  unfold modCart
  repeat' (first | rfl | split | simp only [when] | simp)
@[simp] theorem modCart_out (f : Cartridge → Cartridge) (s : State) : (modCart f s).out = s.out := by
  unfold modCart
  repeat' (first | rfl | split | simp only [when] | simp)

@[simp] theorem hwSet_pending (addr bit : Nat) (reader : Option Bool) (s : State) : (hwSet addr bit reader s).pending = s.pending := by
  unfold hwSet
  repeat' (first | rfl | split | simp only [when] | simp)
@[simp] theorem hwSet_now (addr bit : Nat) (reader : Option Bool) (s : State) : (hwSet addr bit reader s).now = s.now := by
  unfold hwSet
  repeat' (first | rfl | split | simp only [when] | simp)
@[simp] theorem hwSet_aon (addr bit : Nat) (reader : Option Bool) (s : State) : (hwSet addr bit reader s).aon = s.aon := by
  unfold hwSet
  repeat' (first | rfl | split | simp only [when] | simp)
@[simp] theorem hwSet_pcount (addr bit : Nat) (reader : Option Bool) (s : State) : (hwSet addr bit reader s).pcount = s.pcount := by
  unfold hwSet
  repeat' (first | rfl | split | simp only [when] | simp)
@[simp] theorem hwSet_followers (addr bit : Nat) (reader : Option Bool) (s : State) : (hwSet addr bit reader s).followers = s.followers := by
  unfold hwSet
  repeat' (first | rfl | split | simp only [when] | simp)
@[simp] theorem hwSet_discont (addr bit : Nat) (reader : Option Bool) (s : State) : (hwSet addr bit reader s).discont = s.discont := by
  unfold hwSet
  repeat' (first | rfl | split | simp only [when] | simp)
@[simp] theorem hwSet_fresh (addr bit : Nat) (reader : Option Bool) (s : State) : (hwSet addr bit reader s).fresh = s.fresh := by
  unfold hwSet
  repeat' (first | rfl | split | simp only [when] | simp)
@[simp] theorem hwSet_msgTag (addr bit : Nat) (reader : Option Bool) (s : State) : (hwSet addr bit reader s).msgTag = s.msgTag := by
  unfold hwSet
  repeat' (first | rfl | split | simp only [when] | simp)
@[simp] theorem hwSet_gen (addr bit : Nat) (reader : Option Bool) (s : State) : (hwSet addr bit reader s).gen = s.gen := by
  unfold hwSet
  repeat' (first | rfl | split | simp only [when] | simp)
@[simp] theorem hwSet_tmb (addr bit : Nat) (reader : Option Bool) (s : State) : (hwSet addr bit reader s).tmb = s.tmb := by
  unfold hwSet
  repeat' (first | rfl | split | simp only [when] | simp)
@[simp] theorem hwSet_prt (addr bit : Nat) (reader : Option Bool) (s : State) : (hwSet addr bit reader s).prt = s.prt := by
  unfold hwSet
  repeat' (first | rfl | split | simp only [when] | simp)
@[simp] theorem hwSet_svi (addr bit : Nat) (reader : Option Bool) (s : State) : (hwSet addr bit reader s).svi = s.svi := by
  unfold hwSet
  repeat' (first | rfl | split | simp only [when] | simp)
@[simp] theorem hwSet_phe (addr bit : Nat) (reader : Option Bool) (s : State) : (hwSet addr bit reader s).phe = s.phe := by
  unfold hwSet
  repeat' (first | rfl | split | simp only [when] | simp)
@[simp] theorem hwSet_wce (addr bit : Nat) (reader : Option Bool) (s : State) : (hwSet addr bit reader s).wce = s.wce := by
  unfold hwSet
  repeat' (first | rfl | split | simp only [when] | simp)
@[simp] theorem hwSet_seq (addr bit : Nat) (reader : Option Bool) (s : State) : (hwSet addr bit reader s).seq = s.seq := by
  unfold hwSet
  repeat' (first | rfl | split | simp only [when] | simp)
@[simp] theorem hwSet_trd (addr bit : Nat) (reader : Option Bool) (s : State) : (hwSet addr bit reader s).trd = s.trd := by
  unfold hwSet
  repeat' (first | rfl | split | simp only [when] | simp)
@[simp] theorem hwSet_bgt (addr bit : Nat) (reader : Option Bool) (s : State) : (hwSet addr bit reader s).bgt = s.bgt := by
  unfold hwSet
  repeat' (first | rfl | split | simp only [when] | simp)
@[simp] theorem hwSet_ptm (addr bit : Nat) (reader : Option Bool) (s : State) : (hwSet addr bit reader s).ptm = s.ptm := by
  unfold hwSet
  repeat' (first | rfl | split | simp only [when] | simp)
@[simp] theorem hwSet_wvl (addr bit : Nat) (reader : Option Bool) (s : State) : (hwSet addr bit reader s).wvl = s.wvl := by
  unfold hwSet
  repeat' (first | rfl | split | simp only [when] | simp)
@[simp] theorem hwSet_mem (addr bit : Nat) (reader : Option Bool) (s : State) : (hwSet addr bit reader s).mem = s.mem := by
  unfold hwSet
  repeat' (first | rfl | split | simp only [when] | simp)
@[simp] theorem hwSet_wrd (addr bit : Nat) (reader : Option Bool) (s : State) : (hwSet addr bit reader s).wrd = s.wrd := by
  unfold hwSet
  repeat' (first | rfl | split | simp only [when] | simp)
@[simp] theorem hwSet_fcr (addr bit : Nat) (reader : Option Bool) (s : State) : (hwSet addr bit reader s).fcr = s.fcr := by
  unfold hwSet
  repeat' (first | rfl | split | simp only [when] | simp)
@[simp] theorem hwSet_lgr (addr bit : Nat) (reader : Option Bool) (s : State) : (hwSet addr bit reader s).lgr = s.lgr := by
  unfold hwSet
  repeat' (first | rfl | split | simp only [when] | simp)
@[simp] theorem hwSet_kpr (addr bit : Nat) (reader : Option Bool) (s : State) : (hwSet addr bit reader s).kpr = s.kpr := by
  unfold hwSet
  repeat' (first | rfl | split | simp only [when] | simp)
@[simp] theorem hwSet_bsl (addr bit : Nat) (reader : Option Bool) (s : State) : (hwSet addr bit reader s).bsl = s.bsl := by
  unfold hwSet
  repeat' (first | rfl | split | simp only [when] | simp)
@[simp] theorem hwSet_upd (addr bit : Nat) (reader : Option Bool) (s : State) : (hwSet addr bit reader s).upd = s.upd := by
  unfold hwSet
  repeat' (first | rfl | split | simp only [when] | simp)
@[simp] theorem hwSet_fio (addr bit : Nat) (reader : Option Bool) (s : State) : (hwSet addr bit reader s).fio = s.fio := by
  unfold hwSet
  repeat' (first | rfl | split | simp only [when] | simp)
@[simp] theorem hwSet_hif (addr bit : Nat) (reader : Option Bool) (s : State) : (hwSet addr bit reader s).hif = s.hif := by
  unfold hwSet
  repeat' (first | rfl | split | simp only [when] | simp)
@[simp] theorem hwSet_cfg (addr bit : Nat) (reader : Option Bool) (s : State) : (hwSet addr bit reader s).cfg = s.cfg := by
  unfold hwSet
  repeat' (first | rfl | split | simp only [when] | simp)
@[simp] theorem hwSet_latchFw (addr bit : Nat) (reader : Option Bool) (s : State) : (hwSet addr bit reader s).latchFw = s.latchFw := by
  unfold hwSet
  repeat' (first | rfl | split | simp only [when] | simp)
@[simp] theorem hwSet_latchHost (addr bit : Nat) (reader : Option Bool) (s : State) : (hwSet addr bit reader s).latchHost = s.latchHost := by
  unfold hwSet
  repeat' (first | rfl | split | simp only [when] | simp)
@[simp] theorem hwSet_out (addr bit : Nat) (reader : Option Bool) (s : State) : (hwSet addr bit reader s).out = s.out := by
  unfold hwSet
  repeat' (first | rfl | split | simp only [when] | simp)

@[simp] theorem reportBy_pending (unit src inst : Nat) (s : State) : (reportBy unit src inst s).pending = s.pending := by
  unfold reportBy
  repeat' (first | rfl | split | simp only [when] | simp)
@[simp] theorem reportBy_now (unit src inst : Nat) (s : State) : (reportBy unit src inst s).now = s.now := by
  unfold reportBy
  repeat' (first | rfl | split | simp only [when] | simp)
@[simp] theorem reportBy_aon (unit src inst : Nat) (s : State) : (reportBy unit src inst s).aon = s.aon := by
  unfold reportBy
  repeat' (first | rfl | split | simp only [when] | simp)
@[simp] theorem reportBy_pcount (unit src inst : Nat) (s : State) : (reportBy unit src inst s).pcount = s.pcount := by
  unfold reportBy
  repeat' (first | rfl | split | simp only [when] | simp)
@[simp] theorem reportBy_followers (unit src inst : Nat) (s : State) : (reportBy unit src inst s).followers = s.followers := by
  unfold reportBy
  repeat' (first | rfl | split | simp only [when] | simp)
@[simp] theorem reportBy_discont (unit src inst : Nat) (s : State) : (reportBy unit src inst s).discont = s.discont := by
  unfold reportBy
  repeat' (first | rfl | split | simp only [when] | simp)
@[simp] theorem reportBy_fresh (unit src inst : Nat) (s : State) : (reportBy unit src inst s).fresh = s.fresh := by
  unfold reportBy
  repeat' (first | rfl | split | simp only [when] | simp)
@[simp] theorem reportBy_msgTag (unit src inst : Nat) (s : State) : (reportBy unit src inst s).msgTag = s.msgTag := by
  unfold reportBy
  repeat' (first | rfl | split | simp only [when] | simp)
@[simp] theorem reportBy_gen (unit src inst : Nat) (s : State) : (reportBy unit src inst s).gen = s.gen := by
  unfold reportBy
  repeat' (first | rfl | split | simp only [when] | simp)
@[simp] theorem reportBy_evt (unit src inst : Nat) (s : State) : (reportBy unit src inst s).evt = s.evt := by
  unfold reportBy
  repeat' (first | rfl | split | simp only [when] | simp)
@[simp] theorem reportBy_tmb (unit src inst : Nat) (s : State) : (reportBy unit src inst s).tmb = s.tmb := by
  unfold reportBy
  repeat' (first | rfl | split | simp only [when] | simp)
@[simp] theorem reportBy_prt (unit src inst : Nat) (s : State) : (reportBy unit src inst s).prt = s.prt := by
  unfold reportBy
  repeat' (first | rfl | split | simp only [when] | simp)
@[simp] theorem reportBy_svi (unit src inst : Nat) (s : State) : (reportBy unit src inst s).svi = s.svi := by
  unfold reportBy
  repeat' (first | rfl | split | simp only [when] | simp)
@[simp] theorem reportBy_phe (unit src inst : Nat) (s : State) : (reportBy unit src inst s).phe = s.phe := by
  unfold reportBy
  repeat' (first | rfl | split | simp only [when] | simp)
@[simp] theorem reportBy_wce (unit src inst : Nat) (s : State) : (reportBy unit src inst s).wce = s.wce := by
  unfold reportBy
  repeat' (first | rfl | split | simp only [when] | simp)
@[simp] theorem reportBy_seq (unit src inst : Nat) (s : State) : (reportBy unit src inst s).seq = s.seq := by
  unfold reportBy
  repeat' (first | rfl | split | simp only [when] | simp)
@[simp] theorem reportBy_trd (unit src inst : Nat) (s : State) : (reportBy unit src inst s).trd = s.trd := by
  unfold reportBy
  repeat' (first | rfl | split | simp only [when] | simp)
@[simp] theorem reportBy_bgt (unit src inst : Nat) (s : State) : (reportBy unit src inst s).bgt = s.bgt := by
  unfold reportBy
  repeat' (first | rfl | split | simp only [when] | simp)
@[simp] theorem reportBy_ptm (unit src inst : Nat) (s : State) : (reportBy unit src inst s).ptm = s.ptm := by
  unfold reportBy
  repeat' (first | rfl | split | simp only [when] | simp)
@[simp] theorem reportBy_wvl (unit src inst : Nat) (s : State) : (reportBy unit src inst s).wvl = s.wvl := by
  unfold reportBy
  repeat' (first | rfl | split | simp only [when] | simp)
@[simp] theorem reportBy_mem (unit src inst : Nat) (s : State) : (reportBy unit src inst s).mem = s.mem := by
  unfold reportBy
  repeat' (first | rfl | split | simp only [when] | simp)
@[simp] theorem reportBy_wrd (unit src inst : Nat) (s : State) : (reportBy unit src inst s).wrd = s.wrd := by
  unfold reportBy
  repeat' (first | rfl | split | simp only [when] | simp)
@[simp] theorem reportBy_lgr (unit src inst : Nat) (s : State) : (reportBy unit src inst s).lgr = s.lgr := by
  unfold reportBy
  repeat' (first | rfl | split | simp only [when] | simp)
@[simp] theorem reportBy_kpr (unit src inst : Nat) (s : State) : (reportBy unit src inst s).kpr = s.kpr := by
  unfold reportBy
  repeat' (first | rfl | split | simp only [when] | simp)
@[simp] theorem reportBy_bsl (unit src inst : Nat) (s : State) : (reportBy unit src inst s).bsl = s.bsl := by
  unfold reportBy
  repeat' (first | rfl | split | simp only [when] | simp)
@[simp] theorem reportBy_upd (unit src inst : Nat) (s : State) : (reportBy unit src inst s).upd = s.upd := by
  unfold reportBy
  repeat' (first | rfl | split | simp only [when] | simp)
@[simp] theorem reportBy_fio (unit src inst : Nat) (s : State) : (reportBy unit src inst s).fio = s.fio := by
  unfold reportBy
  repeat' (first | rfl | split | simp only [when] | simp)
@[simp] theorem reportBy_hif (unit src inst : Nat) (s : State) : (reportBy unit src inst s).hif = s.hif := by
  unfold reportBy
  repeat' (first | rfl | split | simp only [when] | simp)
@[simp] theorem reportBy_cfg (unit src inst : Nat) (s : State) : (reportBy unit src inst s).cfg = s.cfg := by
  unfold reportBy
  repeat' (first | rfl | split | simp only [when] | simp)
@[simp] theorem reportBy_latchFw (unit src inst : Nat) (s : State) : (reportBy unit src inst s).latchFw = s.latchFw := by
  unfold reportBy
  repeat' (first | rfl | split | simp only [when] | simp)
@[simp] theorem reportBy_latchHost (unit src inst : Nat) (s : State) : (reportBy unit src inst s).latchHost = s.latchHost := by
  unfold reportBy
  repeat' (first | rfl | split | simp only [when] | simp)
@[simp] theorem reportBy_out (unit src inst : Nat) (s : State) : (reportBy unit src inst s).out = s.out := by
  unfold reportBy
  repeat' (first | rfl | split | simp only [when] | simp)

@[simp] theorem report_pending (src inst : Nat) (s : State) : (report src inst s).pending = s.pending := by
  unfold report
  repeat' (first | rfl | split | simp only [when] | simp)
@[simp] theorem report_now (src inst : Nat) (s : State) : (report src inst s).now = s.now := by
  unfold report
  repeat' (first | rfl | split | simp only [when] | simp)
@[simp] theorem report_aon (src inst : Nat) (s : State) : (report src inst s).aon = s.aon := by
  unfold report
  repeat' (first | rfl | split | simp only [when] | simp)
@[simp] theorem report_pcount (src inst : Nat) (s : State) : (report src inst s).pcount = s.pcount := by
  unfold report
  repeat' (first | rfl | split | simp only [when] | simp)
@[simp] theorem report_followers (src inst : Nat) (s : State) : (report src inst s).followers = s.followers := by
  unfold report
  repeat' (first | rfl | split | simp only [when] | simp)
@[simp] theorem report_discont (src inst : Nat) (s : State) : (report src inst s).discont = s.discont := by
  unfold report
  repeat' (first | rfl | split | simp only [when] | simp)
@[simp] theorem report_fresh (src inst : Nat) (s : State) : (report src inst s).fresh = s.fresh := by
  unfold report
  repeat' (first | rfl | split | simp only [when] | simp)
@[simp] theorem report_msgTag (src inst : Nat) (s : State) : (report src inst s).msgTag = s.msgTag := by
  unfold report
  repeat' (first | rfl | split | simp only [when] | simp)
@[simp] theorem report_gen (src inst : Nat) (s : State) : (report src inst s).gen = s.gen := by
  unfold report
  repeat' (first | rfl | split | simp only [when] | simp)
@[simp] theorem report_evt (src inst : Nat) (s : State) : (report src inst s).evt = s.evt := by
  unfold report
  repeat' (first | rfl | split | simp only [when] | simp)
@[simp] theorem report_tmb (src inst : Nat) (s : State) : (report src inst s).tmb = s.tmb := by
  unfold report
  repeat' (first | rfl | split | simp only [when] | simp)
@[simp] theorem report_prt (src inst : Nat) (s : State) : (report src inst s).prt = s.prt := by
  unfold report
  repeat' (first | rfl | split | simp only [when] | simp)
@[simp] theorem report_svi (src inst : Nat) (s : State) : (report src inst s).svi = s.svi := by
  unfold report
  repeat' (first | rfl | split | simp only [when] | simp)
@[simp] theorem report_phe (src inst : Nat) (s : State) : (report src inst s).phe = s.phe := by
  unfold report
  repeat' (first | rfl | split | simp only [when] | simp)
@[simp] theorem report_wce (src inst : Nat) (s : State) : (report src inst s).wce = s.wce := by
  unfold report
  repeat' (first | rfl | split | simp only [when] | simp)
@[simp] theorem report_seq (src inst : Nat) (s : State) : (report src inst s).seq = s.seq := by
  unfold report
  repeat' (first | rfl | split | simp only [when] | simp)
@[simp] theorem report_trd (src inst : Nat) (s : State) : (report src inst s).trd = s.trd := by
  unfold report
  repeat' (first | rfl | split | simp only [when] | simp)
@[simp] theorem report_bgt (src inst : Nat) (s : State) : (report src inst s).bgt = s.bgt := by
  unfold report
  repeat' (first | rfl | split | simp only [when] | simp)
@[simp] theorem report_ptm (src inst : Nat) (s : State) : (report src inst s).ptm = s.ptm := by
  unfold report
  repeat' (first | rfl | split | simp only [when] | simp)
@[simp] theorem report_wvl (src inst : Nat) (s : State) : (report src inst s).wvl = s.wvl := by
  unfold report
  repeat' (first | rfl | split | simp only [when] | simp)
@[simp] theorem report_mem (src inst : Nat) (s : State) : (report src inst s).mem = s.mem := by
  unfold report
  repeat' (first | rfl | split | simp only [when] | simp)
@[simp] theorem report_wrd (src inst : Nat) (s : State) : (report src inst s).wrd = s.wrd := by
  unfold report
  repeat' (first | rfl | split | simp only [when] | simp)
@[simp] theorem report_lgr (src inst : Nat) (s : State) : (report src inst s).lgr = s.lgr := by
  unfold report
  repeat' (first | rfl | split | simp only [when] | simp)
@[simp] theorem report_kpr (src inst : Nat) (s : State) : (report src inst s).kpr = s.kpr := by
  unfold report
  repeat' (first | rfl | split | simp only [when] | simp)
@[simp] theorem report_bsl (src inst : Nat) (s : State) : (report src inst s).bsl = s.bsl := by
  unfold report
  repeat' (first | rfl | split | simp only [when] | simp)
@[simp] theorem report_upd (src inst : Nat) (s : State) : (report src inst s).upd = s.upd := by
  unfold report
  repeat' (first | rfl | split | simp only [when] | simp)
@[simp] theorem report_fio (src inst : Nat) (s : State) : (report src inst s).fio = s.fio := by
  unfold report
  repeat' (first | rfl | split | simp only [when] | simp)
@[simp] theorem report_hif (src inst : Nat) (s : State) : (report src inst s).hif = s.hif := by
  unfold report
  repeat' (first | rfl | split | simp only [when] | simp)
@[simp] theorem report_cfg (src inst : Nat) (s : State) : (report src inst s).cfg = s.cfg := by
  unfold report
  repeat' (first | rfl | split | simp only [when] | simp)
@[simp] theorem report_latchFw (src inst : Nat) (s : State) : (report src inst s).latchFw = s.latchFw := by
  unfold report
  repeat' (first | rfl | split | simp only [when] | simp)
@[simp] theorem report_latchHost (src inst : Nat) (s : State) : (report src inst s).latchHost = s.latchHost := by
  unfold report
  repeat' (first | rfl | split | simp only [when] | simp)
@[simp] theorem report_out (src inst : Nat) (s : State) : (report src inst s).out = s.out := by
  unfold report
  repeat' (first | rfl | split | simp only [when] | simp)

@[simp] theorem assertSource_pending (n : Nat) (s : State) : (assertSource n s).pending = s.pending := by
  unfold assertSource
  repeat' (first | rfl | split | simp only [when] | simp)
@[simp] theorem assertSource_now (n : Nat) (s : State) : (assertSource n s).now = s.now := by
  unfold assertSource
  repeat' (first | rfl | split | simp only [when] | simp)
@[simp] theorem assertSource_aon (n : Nat) (s : State) : (assertSource n s).aon = s.aon := by
  unfold assertSource
  repeat' (first | rfl | split | simp only [when] | simp)
@[simp] theorem assertSource_pcount (n : Nat) (s : State) : (assertSource n s).pcount = s.pcount := by
  unfold assertSource
  repeat' (first | rfl | split | simp only [when] | simp)
@[simp] theorem assertSource_followers (n : Nat) (s : State) : (assertSource n s).followers = s.followers := by
  unfold assertSource
  repeat' (first | rfl | split | simp only [when] | simp)
@[simp] theorem assertSource_discont (n : Nat) (s : State) : (assertSource n s).discont = s.discont := by
  unfold assertSource
  repeat' (first | rfl | split | simp only [when] | simp)
@[simp] theorem assertSource_fresh (n : Nat) (s : State) : (assertSource n s).fresh = s.fresh := by
  unfold assertSource
  repeat' (first | rfl | split | simp only [when] | simp)
@[simp] theorem assertSource_msgTag (n : Nat) (s : State) : (assertSource n s).msgTag = s.msgTag := by
  unfold assertSource
  repeat' (first | rfl | split | simp only [when] | simp)
@[simp] theorem assertSource_gen (n : Nat) (s : State) : (assertSource n s).gen = s.gen := by
  unfold assertSource
  repeat' (first | rfl | split | simp only [when] | simp)
@[simp] theorem assertSource_tmb (n : Nat) (s : State) : (assertSource n s).tmb = s.tmb := by
  unfold assertSource
  repeat' (first | rfl | split | simp only [when] | simp)
@[simp] theorem assertSource_prt (n : Nat) (s : State) : (assertSource n s).prt = s.prt := by
  unfold assertSource
  repeat' (first | rfl | split | simp only [when] | simp)
@[simp] theorem assertSource_svi (n : Nat) (s : State) : (assertSource n s).svi = s.svi := by
  unfold assertSource
  repeat' (first | rfl | split | simp only [when] | simp)
@[simp] theorem assertSource_phe (n : Nat) (s : State) : (assertSource n s).phe = s.phe := by
  unfold assertSource
  repeat' (first | rfl | split | simp only [when] | simp)
@[simp] theorem assertSource_wce (n : Nat) (s : State) : (assertSource n s).wce = s.wce := by
  unfold assertSource
  repeat' (first | rfl | split | simp only [when] | simp)
@[simp] theorem assertSource_seq (n : Nat) (s : State) : (assertSource n s).seq = s.seq := by
  unfold assertSource
  repeat' (first | rfl | split | simp only [when] | simp)
@[simp] theorem assertSource_trd (n : Nat) (s : State) : (assertSource n s).trd = s.trd := by
  unfold assertSource
  repeat' (first | rfl | split | simp only [when] | simp)
@[simp] theorem assertSource_bgt (n : Nat) (s : State) : (assertSource n s).bgt = s.bgt := by
  unfold assertSource
  repeat' (first | rfl | split | simp only [when] | simp)
@[simp] theorem assertSource_ptm (n : Nat) (s : State) : (assertSource n s).ptm = s.ptm := by
  unfold assertSource
  repeat' (first | rfl | split | simp only [when] | simp)
@[simp] theorem assertSource_wvl (n : Nat) (s : State) : (assertSource n s).wvl = s.wvl := by
  unfold assertSource
  repeat' (first | rfl | split | simp only [when] | simp)
@[simp] theorem assertSource_mem (n : Nat) (s : State) : (assertSource n s).mem = s.mem := by
  unfold assertSource
  repeat' (first | rfl | split | simp only [when] | simp)
@[simp] theorem assertSource_wrd (n : Nat) (s : State) : (assertSource n s).wrd = s.wrd := by
  unfold assertSource
  repeat' (first | rfl | split | simp only [when] | simp)
@[simp] theorem assertSource_fcr (n : Nat) (s : State) : (assertSource n s).fcr = s.fcr := by
  unfold assertSource
  repeat' (first | rfl | split | simp only [when] | simp)
@[simp] theorem assertSource_lgr (n : Nat) (s : State) : (assertSource n s).lgr = s.lgr := by
  unfold assertSource
  repeat' (first | rfl | split | simp only [when] | simp)
@[simp] theorem assertSource_kpr (n : Nat) (s : State) : (assertSource n s).kpr = s.kpr := by
  unfold assertSource
  repeat' (first | rfl | split | simp only [when] | simp)
@[simp] theorem assertSource_bsl (n : Nat) (s : State) : (assertSource n s).bsl = s.bsl := by
  unfold assertSource
  repeat' (first | rfl | split | simp only [when] | simp)
@[simp] theorem assertSource_upd (n : Nat) (s : State) : (assertSource n s).upd = s.upd := by
  unfold assertSource
  repeat' (first | rfl | split | simp only [when] | simp)
@[simp] theorem assertSource_fio (n : Nat) (s : State) : (assertSource n s).fio = s.fio := by
  unfold assertSource
  repeat' (first | rfl | split | simp only [when] | simp)
@[simp] theorem assertSource_cfg (n : Nat) (s : State) : (assertSource n s).cfg = s.cfg := by
  unfold assertSource
  repeat' (first | rfl | split | simp only [when] | simp)
@[simp] theorem assertSource_latchFw (n : Nat) (s : State) : (assertSource n s).latchFw = s.latchFw := by
  unfold assertSource
  repeat' (first | rfl | split | simp only [when] | simp)
@[simp] theorem assertSource_latchHost (n : Nat) (s : State) : (assertSource n s).latchHost = s.latchHost := by
  unfold assertSource
  repeat' (first | rfl | split | simp only [when] | simp)
@[simp] theorem assertSource_out (n : Nat) (s : State) : (assertSource n s).out = s.out := by
  unfold assertSource
  repeat' (first | rfl | split | simp only [when] | simp)

@[simp] theorem raise_pending (r : EvtReg) (bit : Nat) (s : State) : (raise r bit s).pending = s.pending := by
  unfold raise
  repeat' (first | rfl | split | simp only [when] | simp)
@[simp] theorem raise_now (r : EvtReg) (bit : Nat) (s : State) : (raise r bit s).now = s.now := by
  unfold raise
  repeat' (first | rfl | split | simp only [when] | simp)
@[simp] theorem raise_aon (r : EvtReg) (bit : Nat) (s : State) : (raise r bit s).aon = s.aon := by
  unfold raise
  repeat' (first | rfl | split | simp only [when] | simp)
@[simp] theorem raise_pcount (r : EvtReg) (bit : Nat) (s : State) : (raise r bit s).pcount = s.pcount := by
  unfold raise
  repeat' (first | rfl | split | simp only [when] | simp)
@[simp] theorem raise_followers (r : EvtReg) (bit : Nat) (s : State) : (raise r bit s).followers = s.followers := by
  unfold raise
  repeat' (first | rfl | split | simp only [when] | simp)
@[simp] theorem raise_discont (r : EvtReg) (bit : Nat) (s : State) : (raise r bit s).discont = s.discont := by
  unfold raise
  repeat' (first | rfl | split | simp only [when] | simp)
@[simp] theorem raise_fresh (r : EvtReg) (bit : Nat) (s : State) : (raise r bit s).fresh = s.fresh := by
  unfold raise
  repeat' (first | rfl | split | simp only [when] | simp)
@[simp] theorem raise_msgTag (r : EvtReg) (bit : Nat) (s : State) : (raise r bit s).msgTag = s.msgTag := by
  unfold raise
  repeat' (first | rfl | split | simp only [when] | simp)
@[simp] theorem raise_gen (r : EvtReg) (bit : Nat) (s : State) : (raise r bit s).gen = s.gen := by
  unfold raise
  repeat' (first | rfl | split | simp only [when] | simp)
@[simp] theorem raise_tmb (r : EvtReg) (bit : Nat) (s : State) : (raise r bit s).tmb = s.tmb := by
  unfold raise
  repeat' (first | rfl | split | simp only [when] | simp)
@[simp] theorem raise_prt (r : EvtReg) (bit : Nat) (s : State) : (raise r bit s).prt = s.prt := by
  unfold raise
  repeat' (first | rfl | split | simp only [when] | simp)
@[simp] theorem raise_svi (r : EvtReg) (bit : Nat) (s : State) : (raise r bit s).svi = s.svi := by
  unfold raise
  repeat' (first | rfl | split | simp only [when] | simp)
@[simp] theorem raise_phe (r : EvtReg) (bit : Nat) (s : State) : (raise r bit s).phe = s.phe := by
  unfold raise
  repeat' (first | rfl | split | simp only [when] | simp)
@[simp] theorem raise_wce (r : EvtReg) (bit : Nat) (s : State) : (raise r bit s).wce = s.wce := by
  unfold raise
  repeat' (first | rfl | split | simp only [when] | simp)
@[simp] theorem raise_seq (r : EvtReg) (bit : Nat) (s : State) : (raise r bit s).seq = s.seq := by
  unfold raise
  repeat' (first | rfl | split | simp only [when] | simp)
@[simp] theorem raise_trd (r : EvtReg) (bit : Nat) (s : State) : (raise r bit s).trd = s.trd := by
  unfold raise
  repeat' (first | rfl | split | simp only [when] | simp)
@[simp] theorem raise_bgt (r : EvtReg) (bit : Nat) (s : State) : (raise r bit s).bgt = s.bgt := by
  unfold raise
  repeat' (first | rfl | split | simp only [when] | simp)
@[simp] theorem raise_ptm (r : EvtReg) (bit : Nat) (s : State) : (raise r bit s).ptm = s.ptm := by
  unfold raise
  repeat' (first | rfl | split | simp only [when] | simp)
@[simp] theorem raise_wvl (r : EvtReg) (bit : Nat) (s : State) : (raise r bit s).wvl = s.wvl := by
  unfold raise
  repeat' (first | rfl | split | simp only [when] | simp)
@[simp] theorem raise_mem (r : EvtReg) (bit : Nat) (s : State) : (raise r bit s).mem = s.mem := by
  unfold raise
  repeat' (first | rfl | split | simp only [when] | simp)
@[simp] theorem raise_wrd (r : EvtReg) (bit : Nat) (s : State) : (raise r bit s).wrd = s.wrd := by
  unfold raise
  repeat' (first | rfl | split | simp only [when] | simp)
@[simp] theorem raise_fcr (r : EvtReg) (bit : Nat) (s : State) : (raise r bit s).fcr = s.fcr := by
  unfold raise
  repeat' (first | rfl | split | simp only [when] | simp)
@[simp] theorem raise_lgr (r : EvtReg) (bit : Nat) (s : State) : (raise r bit s).lgr = s.lgr := by
  unfold raise
  repeat' (first | rfl | split | simp only [when] | simp)
@[simp] theorem raise_kpr (r : EvtReg) (bit : Nat) (s : State) : (raise r bit s).kpr = s.kpr := by
  unfold raise
  repeat' (first | rfl | split | simp only [when] | simp)
@[simp] theorem raise_bsl (r : EvtReg) (bit : Nat) (s : State) : (raise r bit s).bsl = s.bsl := by
  unfold raise
  repeat' (first | rfl | split | simp only [when] | simp)
@[simp] theorem raise_upd (r : EvtReg) (bit : Nat) (s : State) : (raise r bit s).upd = s.upd := by
  unfold raise
  repeat' (first | rfl | split | simp only [when] | simp)
@[simp] theorem raise_fio (r : EvtReg) (bit : Nat) (s : State) : (raise r bit s).fio = s.fio := by
  unfold raise
  repeat' (first | rfl | split | simp only [when] | simp)
@[simp] theorem raise_cfg (r : EvtReg) (bit : Nat) (s : State) : (raise r bit s).cfg = s.cfg := by
  unfold raise
  repeat' (first | rfl | split | simp only [when] | simp)
@[simp] theorem raise_latchFw (r : EvtReg) (bit : Nat) (s : State) : (raise r bit s).latchFw = s.latchFw := by
  unfold raise
  repeat' (first | rfl | split | simp only [when] | simp)
@[simp] theorem raise_latchHost (r : EvtReg) (bit : Nat) (s : State) : (raise r bit s).latchHost = s.latchHost := by
  unfold raise
  repeat' (first | rfl | split | simp only [when] | simp)
@[simp] theorem raise_out (r : EvtReg) (bit : Nat) (s : State) : (raise r bit s).out = s.out := by
  unfold raise
  repeat' (first | rfl | split | simp only [when] | simp)

@[simp] theorem queueJob_pending (j : KprJob) (s : State) : (queueJob j s).pending = s.pending := by
  unfold queueJob
  repeat' (first | rfl | split | simp only [when] | simp)
@[simp] theorem queueJob_now (j : KprJob) (s : State) : (queueJob j s).now = s.now := by
  unfold queueJob
  repeat' (first | rfl | split | simp only [when] | simp)
@[simp] theorem queueJob_aon (j : KprJob) (s : State) : (queueJob j s).aon = s.aon := by
  unfold queueJob
  repeat' (first | rfl | split | simp only [when] | simp)
@[simp] theorem queueJob_pcount (j : KprJob) (s : State) : (queueJob j s).pcount = s.pcount := by
  unfold queueJob
  repeat' (first | rfl | split | simp only [when] | simp)
@[simp] theorem queueJob_followers (j : KprJob) (s : State) : (queueJob j s).followers = s.followers := by
  unfold queueJob
  repeat' (first | rfl | split | simp only [when] | simp)
@[simp] theorem queueJob_discont (j : KprJob) (s : State) : (queueJob j s).discont = s.discont := by
  unfold queueJob
  repeat' (first | rfl | split | simp only [when] | simp)
@[simp] theorem queueJob_fresh (j : KprJob) (s : State) : (queueJob j s).fresh = s.fresh := by
  unfold queueJob
  repeat' (first | rfl | split | simp only [when] | simp)
@[simp] theorem queueJob_msgTag (j : KprJob) (s : State) : (queueJob j s).msgTag = s.msgTag := by
  unfold queueJob
  repeat' (first | rfl | split | simp only [when] | simp)
@[simp] theorem queueJob_gen (j : KprJob) (s : State) : (queueJob j s).gen = s.gen := by
  unfold queueJob
  repeat' (first | rfl | split | simp only [when] | simp)
@[simp] theorem queueJob_tmb (j : KprJob) (s : State) : (queueJob j s).tmb = s.tmb := by
  unfold queueJob
  repeat' (first | rfl | split | simp only [when] | simp)
@[simp] theorem queueJob_prt (j : KprJob) (s : State) : (queueJob j s).prt = s.prt := by
  unfold queueJob
  repeat' (first | rfl | split | simp only [when] | simp)
@[simp] theorem queueJob_svi (j : KprJob) (s : State) : (queueJob j s).svi = s.svi := by
  unfold queueJob
  repeat' (first | rfl | split | simp only [when] | simp)
@[simp] theorem queueJob_phe (j : KprJob) (s : State) : (queueJob j s).phe = s.phe := by
  unfold queueJob
  repeat' (first | rfl | split | simp only [when] | simp)
@[simp] theorem queueJob_wce (j : KprJob) (s : State) : (queueJob j s).wce = s.wce := by
  unfold queueJob
  repeat' (first | rfl | split | simp only [when] | simp)
@[simp] theorem queueJob_seq (j : KprJob) (s : State) : (queueJob j s).seq = s.seq := by
  unfold queueJob
  repeat' (first | rfl | split | simp only [when] | simp)
@[simp] theorem queueJob_trd (j : KprJob) (s : State) : (queueJob j s).trd = s.trd := by
  unfold queueJob
  repeat' (first | rfl | split | simp only [when] | simp)
@[simp] theorem queueJob_bgt (j : KprJob) (s : State) : (queueJob j s).bgt = s.bgt := by
  unfold queueJob
  repeat' (first | rfl | split | simp only [when] | simp)
@[simp] theorem queueJob_ptm (j : KprJob) (s : State) : (queueJob j s).ptm = s.ptm := by
  unfold queueJob
  repeat' (first | rfl | split | simp only [when] | simp)
@[simp] theorem queueJob_wvl (j : KprJob) (s : State) : (queueJob j s).wvl = s.wvl := by
  unfold queueJob
  repeat' (first | rfl | split | simp only [when] | simp)
@[simp] theorem queueJob_mem (j : KprJob) (s : State) : (queueJob j s).mem = s.mem := by
  unfold queueJob
  repeat' (first | rfl | split | simp only [when] | simp)
@[simp] theorem queueJob_wrd (j : KprJob) (s : State) : (queueJob j s).wrd = s.wrd := by
  unfold queueJob
  repeat' (first | rfl | split | simp only [when] | simp)
@[simp] theorem queueJob_fcr (j : KprJob) (s : State) : (queueJob j s).fcr = s.fcr := by
  unfold queueJob
  repeat' (first | rfl | split | simp only [when] | simp)
@[simp] theorem queueJob_lgr (j : KprJob) (s : State) : (queueJob j s).lgr = s.lgr := by
  unfold queueJob
  repeat' (first | rfl | split | simp only [when] | simp)
@[simp] theorem queueJob_bsl (j : KprJob) (s : State) : (queueJob j s).bsl = s.bsl := by
  unfold queueJob
  repeat' (first | rfl | split | simp only [when] | simp)
@[simp] theorem queueJob_upd (j : KprJob) (s : State) : (queueJob j s).upd = s.upd := by
  unfold queueJob
  repeat' (first | rfl | split | simp only [when] | simp)
@[simp] theorem queueJob_fio (j : KprJob) (s : State) : (queueJob j s).fio = s.fio := by
  unfold queueJob
  repeat' (first | rfl | split | simp only [when] | simp)
@[simp] theorem queueJob_cfg (j : KprJob) (s : State) : (queueJob j s).cfg = s.cfg := by
  unfold queueJob
  repeat' (first | rfl | split | simp only [when] | simp)
@[simp] theorem queueJob_latchFw (j : KprJob) (s : State) : (queueJob j s).latchFw = s.latchFw := by
  unfold queueJob
  repeat' (first | rfl | split | simp only [when] | simp)
@[simp] theorem queueJob_latchHost (j : KprJob) (s : State) : (queueJob j s).latchHost = s.latchHost := by
  unfold queueJob
  repeat' (first | rfl | split | simp only [when] | simp)
@[simp] theorem queueJob_out (j : KprJob) (s : State) : (queueJob j s).out = s.out := by
  unfold queueJob
  repeat' (first | rfl | split | simp only [when] | simp)

@[simp] theorem queueLedger_pending (force : Bool) (s : State) : (queueLedger force s).pending = s.pending := by
  unfold queueLedger
  repeat' (first | rfl | split | simp only [when] | simp)
@[simp] theorem queueLedger_now (force : Bool) (s : State) : (queueLedger force s).now = s.now := by
  unfold queueLedger
  repeat' (first | rfl | split | simp only [when] | simp)
@[simp] theorem queueLedger_aon (force : Bool) (s : State) : (queueLedger force s).aon = s.aon := by
  unfold queueLedger
  repeat' (first | rfl | split | simp only [when] | simp)
@[simp] theorem queueLedger_pcount (force : Bool) (s : State) : (queueLedger force s).pcount = s.pcount := by
  unfold queueLedger
  repeat' (first | rfl | split | simp only [when] | simp)
@[simp] theorem queueLedger_followers (force : Bool) (s : State) : (queueLedger force s).followers = s.followers := by
  unfold queueLedger
  repeat' (first | rfl | split | simp only [when] | simp)
@[simp] theorem queueLedger_discont (force : Bool) (s : State) : (queueLedger force s).discont = s.discont := by
  unfold queueLedger
  repeat' (first | rfl | split | simp only [when] | simp)
@[simp] theorem queueLedger_fresh (force : Bool) (s : State) : (queueLedger force s).fresh = s.fresh := by
  unfold queueLedger
  repeat' (first | rfl | split | simp only [when] | simp)
@[simp] theorem queueLedger_msgTag (force : Bool) (s : State) : (queueLedger force s).msgTag = s.msgTag := by
  unfold queueLedger
  repeat' (first | rfl | split | simp only [when] | simp)
@[simp] theorem queueLedger_gen (force : Bool) (s : State) : (queueLedger force s).gen = s.gen := by
  unfold queueLedger
  repeat' (first | rfl | split | simp only [when] | simp)
@[simp] theorem queueLedger_tmb (force : Bool) (s : State) : (queueLedger force s).tmb = s.tmb := by
  unfold queueLedger
  repeat' (first | rfl | split | simp only [when] | simp)
@[simp] theorem queueLedger_prt (force : Bool) (s : State) : (queueLedger force s).prt = s.prt := by
  unfold queueLedger
  repeat' (first | rfl | split | simp only [when] | simp)
@[simp] theorem queueLedger_svi (force : Bool) (s : State) : (queueLedger force s).svi = s.svi := by
  unfold queueLedger
  repeat' (first | rfl | split | simp only [when] | simp)
@[simp] theorem queueLedger_phe (force : Bool) (s : State) : (queueLedger force s).phe = s.phe := by
  unfold queueLedger
  repeat' (first | rfl | split | simp only [when] | simp)
@[simp] theorem queueLedger_wce (force : Bool) (s : State) : (queueLedger force s).wce = s.wce := by
  unfold queueLedger
  repeat' (first | rfl | split | simp only [when] | simp)
@[simp] theorem queueLedger_seq (force : Bool) (s : State) : (queueLedger force s).seq = s.seq := by
  unfold queueLedger
  repeat' (first | rfl | split | simp only [when] | simp)
@[simp] theorem queueLedger_trd (force : Bool) (s : State) : (queueLedger force s).trd = s.trd := by
  unfold queueLedger
  repeat' (first | rfl | split | simp only [when] | simp)
@[simp] theorem queueLedger_bgt (force : Bool) (s : State) : (queueLedger force s).bgt = s.bgt := by
  unfold queueLedger
  repeat' (first | rfl | split | simp only [when] | simp)
@[simp] theorem queueLedger_ptm (force : Bool) (s : State) : (queueLedger force s).ptm = s.ptm := by
  unfold queueLedger
  repeat' (first | rfl | split | simp only [when] | simp)
@[simp] theorem queueLedger_wvl (force : Bool) (s : State) : (queueLedger force s).wvl = s.wvl := by
  unfold queueLedger
  repeat' (first | rfl | split | simp only [when] | simp)
@[simp] theorem queueLedger_mem (force : Bool) (s : State) : (queueLedger force s).mem = s.mem := by
  unfold queueLedger
  repeat' (first | rfl | split | simp only [when] | simp)
@[simp] theorem queueLedger_wrd (force : Bool) (s : State) : (queueLedger force s).wrd = s.wrd := by
  unfold queueLedger
  repeat' (first | rfl | split | simp only [when] | simp)
@[simp] theorem queueLedger_fcr (force : Bool) (s : State) : (queueLedger force s).fcr = s.fcr := by
  unfold queueLedger
  repeat' (first | rfl | split | simp only [when] | simp)
@[simp] theorem queueLedger_lgr (force : Bool) (s : State) : (queueLedger force s).lgr = s.lgr := by
  unfold queueLedger
  repeat' (first | rfl | split | simp only [when] | simp)
@[simp] theorem queueLedger_bsl (force : Bool) (s : State) : (queueLedger force s).bsl = s.bsl := by
  unfold queueLedger
  repeat' (first | rfl | split | simp only [when] | simp)
@[simp] theorem queueLedger_upd (force : Bool) (s : State) : (queueLedger force s).upd = s.upd := by
  unfold queueLedger
  repeat' (first | rfl | split | simp only [when] | simp)
@[simp] theorem queueLedger_fio (force : Bool) (s : State) : (queueLedger force s).fio = s.fio := by
  unfold queueLedger
  repeat' (first | rfl | split | simp only [when] | simp)
@[simp] theorem queueLedger_cfg (force : Bool) (s : State) : (queueLedger force s).cfg = s.cfg := by
  unfold queueLedger
  repeat' (first | rfl | split | simp only [when] | simp)
@[simp] theorem queueLedger_latchFw (force : Bool) (s : State) : (queueLedger force s).latchFw = s.latchFw := by
  unfold queueLedger
  repeat' (first | rfl | split | simp only [when] | simp)
@[simp] theorem queueLedger_latchHost (force : Bool) (s : State) : (queueLedger force s).latchHost = s.latchHost := by
  unfold queueLedger
  repeat' (first | rfl | split | simp only [when] | simp)
@[simp] theorem queueLedger_out (force : Bool) (s : State) : (queueLedger force s).out = s.out := by
  unfold queueLedger
  repeat' (first | rfl | split | simp only [when] | simp)

@[simp] theorem noteHold_pending (was : Nat) (s : State) : (noteHold was s).pending = s.pending := by
  unfold noteHold
  repeat' (first | rfl | split | simp only [when] | simp)
@[simp] theorem noteHold_now (was : Nat) (s : State) : (noteHold was s).now = s.now := by
  unfold noteHold
  repeat' (first | rfl | split | simp only [when] | simp)
@[simp] theorem noteHold_aon (was : Nat) (s : State) : (noteHold was s).aon = s.aon := by
  unfold noteHold
  repeat' (first | rfl | split | simp only [when] | simp)
@[simp] theorem noteHold_pcount (was : Nat) (s : State) : (noteHold was s).pcount = s.pcount := by
  unfold noteHold
  repeat' (first | rfl | split | simp only [when] | simp)
@[simp] theorem noteHold_followers (was : Nat) (s : State) : (noteHold was s).followers = s.followers := by
  unfold noteHold
  repeat' (first | rfl | split | simp only [when] | simp)
@[simp] theorem noteHold_discont (was : Nat) (s : State) : (noteHold was s).discont = s.discont := by
  unfold noteHold
  repeat' (first | rfl | split | simp only [when] | simp)
@[simp] theorem noteHold_fresh (was : Nat) (s : State) : (noteHold was s).fresh = s.fresh := by
  unfold noteHold
  repeat' (first | rfl | split | simp only [when] | simp)
@[simp] theorem noteHold_msgTag (was : Nat) (s : State) : (noteHold was s).msgTag = s.msgTag := by
  unfold noteHold
  repeat' (first | rfl | split | simp only [when] | simp)
@[simp] theorem noteHold_gen (was : Nat) (s : State) : (noteHold was s).gen = s.gen := by
  unfold noteHold
  repeat' (first | rfl | split | simp only [when] | simp)
@[simp] theorem noteHold_tmb (was : Nat) (s : State) : (noteHold was s).tmb = s.tmb := by
  unfold noteHold
  repeat' (first | rfl | split | simp only [when] | simp)
@[simp] theorem noteHold_prt (was : Nat) (s : State) : (noteHold was s).prt = s.prt := by
  unfold noteHold
  repeat' (first | rfl | split | simp only [when] | simp)
@[simp] theorem noteHold_svi (was : Nat) (s : State) : (noteHold was s).svi = s.svi := by
  unfold noteHold
  repeat' (first | rfl | split | simp only [when] | simp)
@[simp] theorem noteHold_phe (was : Nat) (s : State) : (noteHold was s).phe = s.phe := by
  unfold noteHold
  repeat' (first | rfl | split | simp only [when] | simp)
@[simp] theorem noteHold_wce (was : Nat) (s : State) : (noteHold was s).wce = s.wce := by
  unfold noteHold
  repeat' (first | rfl | split | simp only [when] | simp)
@[simp] theorem noteHold_seq (was : Nat) (s : State) : (noteHold was s).seq = s.seq := by
  unfold noteHold
  repeat' (first | rfl | split | simp only [when] | simp)
@[simp] theorem noteHold_trd (was : Nat) (s : State) : (noteHold was s).trd = s.trd := by
  unfold noteHold
  repeat' (first | rfl | split | simp only [when] | simp)
@[simp] theorem noteHold_bgt (was : Nat) (s : State) : (noteHold was s).bgt = s.bgt := by
  unfold noteHold
  repeat' (first | rfl | split | simp only [when] | simp)
@[simp] theorem noteHold_ptm (was : Nat) (s : State) : (noteHold was s).ptm = s.ptm := by
  unfold noteHold
  repeat' (first | rfl | split | simp only [when] | simp)
@[simp] theorem noteHold_wvl (was : Nat) (s : State) : (noteHold was s).wvl = s.wvl := by
  unfold noteHold
  repeat' (first | rfl | split | simp only [when] | simp)
@[simp] theorem noteHold_mem (was : Nat) (s : State) : (noteHold was s).mem = s.mem := by
  unfold noteHold
  repeat' (first | rfl | split | simp only [when] | simp)
@[simp] theorem noteHold_wrd (was : Nat) (s : State) : (noteHold was s).wrd = s.wrd := by
  unfold noteHold
  repeat' (first | rfl | split | simp only [when] | simp)
@[simp] theorem noteHold_fcr (was : Nat) (s : State) : (noteHold was s).fcr = s.fcr := by
  unfold noteHold
  repeat' (first | rfl | split | simp only [when] | simp)
@[simp] theorem noteHold_lgr (was : Nat) (s : State) : (noteHold was s).lgr = s.lgr := by
  unfold noteHold
  repeat' (first | rfl | split | simp only [when] | simp)
@[simp] theorem noteHold_kpr (was : Nat) (s : State) : (noteHold was s).kpr = s.kpr := by
  unfold noteHold
  repeat' (first | rfl | split | simp only [when] | simp)
@[simp] theorem noteHold_bsl (was : Nat) (s : State) : (noteHold was s).bsl = s.bsl := by
  unfold noteHold
  repeat' (first | rfl | split | simp only [when] | simp)
@[simp] theorem noteHold_upd (was : Nat) (s : State) : (noteHold was s).upd = s.upd := by
  unfold noteHold
  repeat' (first | rfl | split | simp only [when] | simp)
@[simp] theorem noteHold_fio (was : Nat) (s : State) : (noteHold was s).fio = s.fio := by
  unfold noteHold
  repeat' (first | rfl | split | simp only [when] | simp)
@[simp] theorem noteHold_cfg (was : Nat) (s : State) : (noteHold was s).cfg = s.cfg := by
  unfold noteHold
  repeat' (first | rfl | split | simp only [when] | simp)
@[simp] theorem noteHold_latchFw (was : Nat) (s : State) : (noteHold was s).latchFw = s.latchFw := by
  unfold noteHold
  repeat' (first | rfl | split | simp only [when] | simp)
@[simp] theorem noteHold_latchHost (was : Nat) (s : State) : (noteHold was s).latchHost = s.latchHost := by
  unfold noteHold
  repeat' (first | rfl | split | simp only [when] | simp)
@[simp] theorem noteHold_out (was : Nat) (s : State) : (noteHold was s).out = s.out := by
  unfold noteHold
  repeat' (first | rfl | split | simp only [when] | simp)

@[simp] theorem holdRecord_pending (r : LedgerRecord) (s : State) : (holdRecord r s).pending = s.pending := by
  unfold holdRecord
  repeat' (first | rfl | split | simp only [when] | simp)
@[simp] theorem holdRecord_now (r : LedgerRecord) (s : State) : (holdRecord r s).now = s.now := by
  unfold holdRecord
  repeat' (first | rfl | split | simp only [when] | simp)
@[simp] theorem holdRecord_aon (r : LedgerRecord) (s : State) : (holdRecord r s).aon = s.aon := by
  unfold holdRecord
  repeat' (first | rfl | split | simp only [when] | simp)
@[simp] theorem holdRecord_pcount (r : LedgerRecord) (s : State) : (holdRecord r s).pcount = s.pcount := by
  unfold holdRecord
  repeat' (first | rfl | split | simp only [when] | simp)
@[simp] theorem holdRecord_followers (r : LedgerRecord) (s : State) : (holdRecord r s).followers = s.followers := by
  unfold holdRecord
  repeat' (first | rfl | split | simp only [when] | simp)
@[simp] theorem holdRecord_discont (r : LedgerRecord) (s : State) : (holdRecord r s).discont = s.discont := by
  unfold holdRecord
  repeat' (first | rfl | split | simp only [when] | simp)
@[simp] theorem holdRecord_fresh (r : LedgerRecord) (s : State) : (holdRecord r s).fresh = s.fresh := by
  unfold holdRecord
  repeat' (first | rfl | split | simp only [when] | simp)
@[simp] theorem holdRecord_msgTag (r : LedgerRecord) (s : State) : (holdRecord r s).msgTag = s.msgTag := by
  unfold holdRecord
  repeat' (first | rfl | split | simp only [when] | simp)
@[simp] theorem holdRecord_gen (r : LedgerRecord) (s : State) : (holdRecord r s).gen = s.gen := by
  unfold holdRecord
  repeat' (first | rfl | split | simp only [when] | simp)
@[simp] theorem holdRecord_tmb (r : LedgerRecord) (s : State) : (holdRecord r s).tmb = s.tmb := by
  unfold holdRecord
  repeat' (first | rfl | split | simp only [when] | simp)
@[simp] theorem holdRecord_prt (r : LedgerRecord) (s : State) : (holdRecord r s).prt = s.prt := by
  unfold holdRecord
  repeat' (first | rfl | split | simp only [when] | simp)
@[simp] theorem holdRecord_svi (r : LedgerRecord) (s : State) : (holdRecord r s).svi = s.svi := by
  unfold holdRecord
  repeat' (first | rfl | split | simp only [when] | simp)
@[simp] theorem holdRecord_phe (r : LedgerRecord) (s : State) : (holdRecord r s).phe = s.phe := by
  unfold holdRecord
  repeat' (first | rfl | split | simp only [when] | simp)
@[simp] theorem holdRecord_wce (r : LedgerRecord) (s : State) : (holdRecord r s).wce = s.wce := by
  unfold holdRecord
  repeat' (first | rfl | split | simp only [when] | simp)
@[simp] theorem holdRecord_seq (r : LedgerRecord) (s : State) : (holdRecord r s).seq = s.seq := by
  unfold holdRecord
  repeat' (first | rfl | split | simp only [when] | simp)
@[simp] theorem holdRecord_trd (r : LedgerRecord) (s : State) : (holdRecord r s).trd = s.trd := by
  unfold holdRecord
  repeat' (first | rfl | split | simp only [when] | simp)
@[simp] theorem holdRecord_bgt (r : LedgerRecord) (s : State) : (holdRecord r s).bgt = s.bgt := by
  unfold holdRecord
  repeat' (first | rfl | split | simp only [when] | simp)
@[simp] theorem holdRecord_ptm (r : LedgerRecord) (s : State) : (holdRecord r s).ptm = s.ptm := by
  unfold holdRecord
  repeat' (first | rfl | split | simp only [when] | simp)
@[simp] theorem holdRecord_wvl (r : LedgerRecord) (s : State) : (holdRecord r s).wvl = s.wvl := by
  unfold holdRecord
  repeat' (first | rfl | split | simp only [when] | simp)
@[simp] theorem holdRecord_mem (r : LedgerRecord) (s : State) : (holdRecord r s).mem = s.mem := by
  unfold holdRecord
  repeat' (first | rfl | split | simp only [when] | simp)
@[simp] theorem holdRecord_wrd (r : LedgerRecord) (s : State) : (holdRecord r s).wrd = s.wrd := by
  unfold holdRecord
  repeat' (first | rfl | split | simp only [when] | simp)
@[simp] theorem holdRecord_fcr (r : LedgerRecord) (s : State) : (holdRecord r s).fcr = s.fcr := by
  unfold holdRecord
  repeat' (first | rfl | split | simp only [when] | simp)
@[simp] theorem holdRecord_bsl (r : LedgerRecord) (s : State) : (holdRecord r s).bsl = s.bsl := by
  unfold holdRecord
  repeat' (first | rfl | split | simp only [when] | simp)
@[simp] theorem holdRecord_upd (r : LedgerRecord) (s : State) : (holdRecord r s).upd = s.upd := by
  unfold holdRecord
  repeat' (first | rfl | split | simp only [when] | simp)
@[simp] theorem holdRecord_fio (r : LedgerRecord) (s : State) : (holdRecord r s).fio = s.fio := by
  unfold holdRecord
  repeat' (first | rfl | split | simp only [when] | simp)
@[simp] theorem holdRecord_cfg (r : LedgerRecord) (s : State) : (holdRecord r s).cfg = s.cfg := by
  unfold holdRecord
  repeat' (first | rfl | split | simp only [when] | simp)
@[simp] theorem holdRecord_latchFw (r : LedgerRecord) (s : State) : (holdRecord r s).latchFw = s.latchFw := by
  unfold holdRecord
  repeat' (first | rfl | split | simp only [when] | simp)
@[simp] theorem holdRecord_latchHost (r : LedgerRecord) (s : State) : (holdRecord r s).latchHost = s.latchHost := by
  unfold holdRecord
  repeat' (first | rfl | split | simp only [when] | simp)
@[simp] theorem holdRecord_out (r : LedgerRecord) (s : State) : (holdRecord r s).out = s.out := by
  unfold holdRecord
  repeat' (first | rfl | split | simp only [when] | simp)

@[simp] theorem takeRecord_pending (r : LedgerRecord) (s : State) : (takeRecord r s).2.pending = s.pending := by
  unfold takeRecord
  repeat' (first | rfl | split | simp only [when] | simp)
@[simp] theorem takeRecord_now (r : LedgerRecord) (s : State) : (takeRecord r s).2.now = s.now := by
  unfold takeRecord
  repeat' (first | rfl | split | simp only [when] | simp)
@[simp] theorem takeRecord_aon (r : LedgerRecord) (s : State) : (takeRecord r s).2.aon = s.aon := by
  unfold takeRecord
  repeat' (first | rfl | split | simp only [when] | simp)
@[simp] theorem takeRecord_pcount (r : LedgerRecord) (s : State) : (takeRecord r s).2.pcount = s.pcount := by
  unfold takeRecord
  repeat' (first | rfl | split | simp only [when] | simp)
@[simp] theorem takeRecord_followers (r : LedgerRecord) (s : State) : (takeRecord r s).2.followers = s.followers := by
  unfold takeRecord
  repeat' (first | rfl | split | simp only [when] | simp)
@[simp] theorem takeRecord_discont (r : LedgerRecord) (s : State) : (takeRecord r s).2.discont = s.discont := by
  unfold takeRecord
  repeat' (first | rfl | split | simp only [when] | simp)
@[simp] theorem takeRecord_fresh (r : LedgerRecord) (s : State) : (takeRecord r s).2.fresh = s.fresh := by
  unfold takeRecord
  repeat' (first | rfl | split | simp only [when] | simp)
@[simp] theorem takeRecord_msgTag (r : LedgerRecord) (s : State) : (takeRecord r s).2.msgTag = s.msgTag := by
  unfold takeRecord
  repeat' (first | rfl | split | simp only [when] | simp)
@[simp] theorem takeRecord_gen (r : LedgerRecord) (s : State) : (takeRecord r s).2.gen = s.gen := by
  unfold takeRecord
  repeat' (first | rfl | split | simp only [when] | simp)
@[simp] theorem takeRecord_tmb (r : LedgerRecord) (s : State) : (takeRecord r s).2.tmb = s.tmb := by
  unfold takeRecord
  repeat' (first | rfl | split | simp only [when] | simp)
@[simp] theorem takeRecord_prt (r : LedgerRecord) (s : State) : (takeRecord r s).2.prt = s.prt := by
  unfold takeRecord
  repeat' (first | rfl | split | simp only [when] | simp)
@[simp] theorem takeRecord_svi (r : LedgerRecord) (s : State) : (takeRecord r s).2.svi = s.svi := by
  unfold takeRecord
  repeat' (first | rfl | split | simp only [when] | simp)
@[simp] theorem takeRecord_phe (r : LedgerRecord) (s : State) : (takeRecord r s).2.phe = s.phe := by
  unfold takeRecord
  repeat' (first | rfl | split | simp only [when] | simp)
@[simp] theorem takeRecord_wce (r : LedgerRecord) (s : State) : (takeRecord r s).2.wce = s.wce := by
  unfold takeRecord
  repeat' (first | rfl | split | simp only [when] | simp)
@[simp] theorem takeRecord_seq (r : LedgerRecord) (s : State) : (takeRecord r s).2.seq = s.seq := by
  unfold takeRecord
  repeat' (first | rfl | split | simp only [when] | simp)
@[simp] theorem takeRecord_trd (r : LedgerRecord) (s : State) : (takeRecord r s).2.trd = s.trd := by
  unfold takeRecord
  repeat' (first | rfl | split | simp only [when] | simp)
@[simp] theorem takeRecord_bgt (r : LedgerRecord) (s : State) : (takeRecord r s).2.bgt = s.bgt := by
  unfold takeRecord
  repeat' (first | rfl | split | simp only [when] | simp)
@[simp] theorem takeRecord_ptm (r : LedgerRecord) (s : State) : (takeRecord r s).2.ptm = s.ptm := by
  unfold takeRecord
  repeat' (first | rfl | split | simp only [when] | simp)
@[simp] theorem takeRecord_wvl (r : LedgerRecord) (s : State) : (takeRecord r s).2.wvl = s.wvl := by
  unfold takeRecord
  repeat' (first | rfl | split | simp only [when] | simp)
@[simp] theorem takeRecord_mem (r : LedgerRecord) (s : State) : (takeRecord r s).2.mem = s.mem := by
  unfold takeRecord
  repeat' (first | rfl | split | simp only [when] | simp)
@[simp] theorem takeRecord_wrd (r : LedgerRecord) (s : State) : (takeRecord r s).2.wrd = s.wrd := by
  unfold takeRecord
  repeat' (first | rfl | split | simp only [when] | simp)
@[simp] theorem takeRecord_fcr (r : LedgerRecord) (s : State) : (takeRecord r s).2.fcr = s.fcr := by
  unfold takeRecord
  repeat' (first | rfl | split | simp only [when] | simp)
@[simp] theorem takeRecord_bsl (r : LedgerRecord) (s : State) : (takeRecord r s).2.bsl = s.bsl := by
  unfold takeRecord
  repeat' (first | rfl | split | simp only [when] | simp)
@[simp] theorem takeRecord_upd (r : LedgerRecord) (s : State) : (takeRecord r s).2.upd = s.upd := by
  unfold takeRecord
  repeat' (first | rfl | split | simp only [when] | simp)
@[simp] theorem takeRecord_fio (r : LedgerRecord) (s : State) : (takeRecord r s).2.fio = s.fio := by
  unfold takeRecord
  repeat' (first | rfl | split | simp only [when] | simp)
@[simp] theorem takeRecord_cfg (r : LedgerRecord) (s : State) : (takeRecord r s).2.cfg = s.cfg := by
  unfold takeRecord
  repeat' (first | rfl | split | simp only [when] | simp)
@[simp] theorem takeRecord_latchFw (r : LedgerRecord) (s : State) : (takeRecord r s).2.latchFw = s.latchFw := by
  unfold takeRecord
  repeat' (first | rfl | split | simp only [when] | simp)
@[simp] theorem takeRecord_latchHost (r : LedgerRecord) (s : State) : (takeRecord r s).2.latchHost = s.latchHost := by
  unfold takeRecord
  repeat' (first | rfl | split | simp only [when] | simp)
@[simp] theorem takeRecord_out (r : LedgerRecord) (s : State) : (takeRecord r s).2.out = s.out := by
  unfold takeRecord
  repeat' (first | rfl | split | simp only [when] | simp)

@[simp] theorem suppressRecord_pending (code time : Nat) (s : State) : (suppressRecord code time s).pending = s.pending := by
  unfold suppressRecord
  repeat' (first | rfl | split | simp only [when] | simp)
@[simp] theorem suppressRecord_now (code time : Nat) (s : State) : (suppressRecord code time s).now = s.now := by
  unfold suppressRecord
  repeat' (first | rfl | split | simp only [when] | simp)
@[simp] theorem suppressRecord_aon (code time : Nat) (s : State) : (suppressRecord code time s).aon = s.aon := by
  unfold suppressRecord
  repeat' (first | rfl | split | simp only [when] | simp)
@[simp] theorem suppressRecord_pcount (code time : Nat) (s : State) : (suppressRecord code time s).pcount = s.pcount := by
  unfold suppressRecord
  repeat' (first | rfl | split | simp only [when] | simp)
@[simp] theorem suppressRecord_followers (code time : Nat) (s : State) : (suppressRecord code time s).followers = s.followers := by
  unfold suppressRecord
  repeat' (first | rfl | split | simp only [when] | simp)
@[simp] theorem suppressRecord_discont (code time : Nat) (s : State) : (suppressRecord code time s).discont = s.discont := by
  unfold suppressRecord
  repeat' (first | rfl | split | simp only [when] | simp)
@[simp] theorem suppressRecord_fresh (code time : Nat) (s : State) : (suppressRecord code time s).fresh = s.fresh := by
  unfold suppressRecord
  repeat' (first | rfl | split | simp only [when] | simp)
@[simp] theorem suppressRecord_msgTag (code time : Nat) (s : State) : (suppressRecord code time s).msgTag = s.msgTag := by
  unfold suppressRecord
  repeat' (first | rfl | split | simp only [when] | simp)
@[simp] theorem suppressRecord_gen (code time : Nat) (s : State) : (suppressRecord code time s).gen = s.gen := by
  unfold suppressRecord
  repeat' (first | rfl | split | simp only [when] | simp)
@[simp] theorem suppressRecord_tmb (code time : Nat) (s : State) : (suppressRecord code time s).tmb = s.tmb := by
  unfold suppressRecord
  repeat' (first | rfl | split | simp only [when] | simp)
@[simp] theorem suppressRecord_prt (code time : Nat) (s : State) : (suppressRecord code time s).prt = s.prt := by
  unfold suppressRecord
  repeat' (first | rfl | split | simp only [when] | simp)
@[simp] theorem suppressRecord_svi (code time : Nat) (s : State) : (suppressRecord code time s).svi = s.svi := by
  unfold suppressRecord
  repeat' (first | rfl | split | simp only [when] | simp)
@[simp] theorem suppressRecord_phe (code time : Nat) (s : State) : (suppressRecord code time s).phe = s.phe := by
  unfold suppressRecord
  repeat' (first | rfl | split | simp only [when] | simp)
@[simp] theorem suppressRecord_wce (code time : Nat) (s : State) : (suppressRecord code time s).wce = s.wce := by
  unfold suppressRecord
  repeat' (first | rfl | split | simp only [when] | simp)
@[simp] theorem suppressRecord_seq (code time : Nat) (s : State) : (suppressRecord code time s).seq = s.seq := by
  unfold suppressRecord
  repeat' (first | rfl | split | simp only [when] | simp)
@[simp] theorem suppressRecord_trd (code time : Nat) (s : State) : (suppressRecord code time s).trd = s.trd := by
  unfold suppressRecord
  repeat' (first | rfl | split | simp only [when] | simp)
@[simp] theorem suppressRecord_bgt (code time : Nat) (s : State) : (suppressRecord code time s).bgt = s.bgt := by
  unfold suppressRecord
  repeat' (first | rfl | split | simp only [when] | simp)
@[simp] theorem suppressRecord_ptm (code time : Nat) (s : State) : (suppressRecord code time s).ptm = s.ptm := by
  unfold suppressRecord
  repeat' (first | rfl | split | simp only [when] | simp)
@[simp] theorem suppressRecord_wvl (code time : Nat) (s : State) : (suppressRecord code time s).wvl = s.wvl := by
  unfold suppressRecord
  repeat' (first | rfl | split | simp only [when] | simp)
@[simp] theorem suppressRecord_mem (code time : Nat) (s : State) : (suppressRecord code time s).mem = s.mem := by
  unfold suppressRecord
  repeat' (first | rfl | split | simp only [when] | simp)
@[simp] theorem suppressRecord_wrd (code time : Nat) (s : State) : (suppressRecord code time s).wrd = s.wrd := by
  unfold suppressRecord
  repeat' (first | rfl | split | simp only [when] | simp)
@[simp] theorem suppressRecord_fcr (code time : Nat) (s : State) : (suppressRecord code time s).fcr = s.fcr := by
  unfold suppressRecord
  repeat' (first | rfl | split | simp only [when] | simp)
@[simp] theorem suppressRecord_kpr (code time : Nat) (s : State) : (suppressRecord code time s).kpr = s.kpr := by
  unfold suppressRecord
  repeat' (first | rfl | split | simp only [when] | simp)
@[simp] theorem suppressRecord_bsl (code time : Nat) (s : State) : (suppressRecord code time s).bsl = s.bsl := by
  unfold suppressRecord
  repeat' (first | rfl | split | simp only [when] | simp)
@[simp] theorem suppressRecord_upd (code time : Nat) (s : State) : (suppressRecord code time s).upd = s.upd := by
  unfold suppressRecord
  repeat' (first | rfl | split | simp only [when] | simp)
@[simp] theorem suppressRecord_fio (code time : Nat) (s : State) : (suppressRecord code time s).fio = s.fio := by
  unfold suppressRecord
  repeat' (first | rfl | split | simp only [when] | simp)
@[simp] theorem suppressRecord_cfg (code time : Nat) (s : State) : (suppressRecord code time s).cfg = s.cfg := by
  unfold suppressRecord
  repeat' (first | rfl | split | simp only [when] | simp)
@[simp] theorem suppressRecord_latchFw (code time : Nat) (s : State) : (suppressRecord code time s).latchFw = s.latchFw := by
  unfold suppressRecord
  repeat' (first | rfl | split | simp only [when] | simp)
@[simp] theorem suppressRecord_latchHost (code time : Nat) (s : State) : (suppressRecord code time s).latchHost = s.latchHost := by
  unfold suppressRecord
  repeat' (first | rfl | split | simp only [when] | simp)
@[simp] theorem suppressRecord_out (code time : Nat) (s : State) : (suppressRecord code time s).out = s.out := by
  unfold suppressRecord
  repeat' (first | rfl | split | simp only [when] | simp)

@[simp] theorem putBucket_pending (i : Nat) (b : Bucket) (s : State) : (putBucket i b s).pending = s.pending := by
  unfold putBucket
  repeat' (first | rfl | split | simp only [when] | simp)
@[simp] theorem putBucket_now (i : Nat) (b : Bucket) (s : State) : (putBucket i b s).now = s.now := by
  unfold putBucket
  repeat' (first | rfl | split | simp only [when] | simp)
@[simp] theorem putBucket_aon (i : Nat) (b : Bucket) (s : State) : (putBucket i b s).aon = s.aon := by
  unfold putBucket
  repeat' (first | rfl | split | simp only [when] | simp)
@[simp] theorem putBucket_pcount (i : Nat) (b : Bucket) (s : State) : (putBucket i b s).pcount = s.pcount := by
  unfold putBucket
  repeat' (first | rfl | split | simp only [when] | simp)
@[simp] theorem putBucket_followers (i : Nat) (b : Bucket) (s : State) : (putBucket i b s).followers = s.followers := by
  unfold putBucket
  repeat' (first | rfl | split | simp only [when] | simp)
@[simp] theorem putBucket_discont (i : Nat) (b : Bucket) (s : State) : (putBucket i b s).discont = s.discont := by
  unfold putBucket
  repeat' (first | rfl | split | simp only [when] | simp)
@[simp] theorem putBucket_fresh (i : Nat) (b : Bucket) (s : State) : (putBucket i b s).fresh = s.fresh := by
  unfold putBucket
  repeat' (first | rfl | split | simp only [when] | simp)
@[simp] theorem putBucket_msgTag (i : Nat) (b : Bucket) (s : State) : (putBucket i b s).msgTag = s.msgTag := by
  unfold putBucket
  repeat' (first | rfl | split | simp only [when] | simp)
@[simp] theorem putBucket_gen (i : Nat) (b : Bucket) (s : State) : (putBucket i b s).gen = s.gen := by
  unfold putBucket
  repeat' (first | rfl | split | simp only [when] | simp)
@[simp] theorem putBucket_evt (i : Nat) (b : Bucket) (s : State) : (putBucket i b s).evt = s.evt := by
  unfold putBucket
  repeat' (first | rfl | split | simp only [when] | simp)
@[simp] theorem putBucket_tmb (i : Nat) (b : Bucket) (s : State) : (putBucket i b s).tmb = s.tmb := by
  unfold putBucket
  repeat' (first | rfl | split | simp only [when] | simp)
@[simp] theorem putBucket_prt (i : Nat) (b : Bucket) (s : State) : (putBucket i b s).prt = s.prt := by
  unfold putBucket
  repeat' (first | rfl | split | simp only [when] | simp)
@[simp] theorem putBucket_svi (i : Nat) (b : Bucket) (s : State) : (putBucket i b s).svi = s.svi := by
  unfold putBucket
  repeat' (first | rfl | split | simp only [when] | simp)
@[simp] theorem putBucket_phe (i : Nat) (b : Bucket) (s : State) : (putBucket i b s).phe = s.phe := by
  unfold putBucket
  repeat' (first | rfl | split | simp only [when] | simp)
@[simp] theorem putBucket_wce (i : Nat) (b : Bucket) (s : State) : (putBucket i b s).wce = s.wce := by
  unfold putBucket
  repeat' (first | rfl | split | simp only [when] | simp)
@[simp] theorem putBucket_seq (i : Nat) (b : Bucket) (s : State) : (putBucket i b s).seq = s.seq := by
  unfold putBucket
  repeat' (first | rfl | split | simp only [when] | simp)
@[simp] theorem putBucket_trd (i : Nat) (b : Bucket) (s : State) : (putBucket i b s).trd = s.trd := by
  unfold putBucket
  repeat' (first | rfl | split | simp only [when] | simp)
@[simp] theorem putBucket_bgt (i : Nat) (b : Bucket) (s : State) : (putBucket i b s).bgt = s.bgt := by
  unfold putBucket
  repeat' (first | rfl | split | simp only [when] | simp)
@[simp] theorem putBucket_ptm (i : Nat) (b : Bucket) (s : State) : (putBucket i b s).ptm = s.ptm := by
  unfold putBucket
  repeat' (first | rfl | split | simp only [when] | simp)
@[simp] theorem putBucket_wvl (i : Nat) (b : Bucket) (s : State) : (putBucket i b s).wvl = s.wvl := by
  unfold putBucket
  repeat' (first | rfl | split | simp only [when] | simp)
@[simp] theorem putBucket_mem (i : Nat) (b : Bucket) (s : State) : (putBucket i b s).mem = s.mem := by
  unfold putBucket
  repeat' (first | rfl | split | simp only [when] | simp)
@[simp] theorem putBucket_wrd (i : Nat) (b : Bucket) (s : State) : (putBucket i b s).wrd = s.wrd := by
  unfold putBucket
  repeat' (first | rfl | split | simp only [when] | simp)
@[simp] theorem putBucket_fcr (i : Nat) (b : Bucket) (s : State) : (putBucket i b s).fcr = s.fcr := by
  unfold putBucket
  repeat' (first | rfl | split | simp only [when] | simp)
@[simp] theorem putBucket_kpr (i : Nat) (b : Bucket) (s : State) : (putBucket i b s).kpr = s.kpr := by
  unfold putBucket
  repeat' (first | rfl | split | simp only [when] | simp)
@[simp] theorem putBucket_bsl (i : Nat) (b : Bucket) (s : State) : (putBucket i b s).bsl = s.bsl := by
  unfold putBucket
  repeat' (first | rfl | split | simp only [when] | simp)
@[simp] theorem putBucket_upd (i : Nat) (b : Bucket) (s : State) : (putBucket i b s).upd = s.upd := by
  unfold putBucket
  repeat' (first | rfl | split | simp only [when] | simp)
@[simp] theorem putBucket_fio (i : Nat) (b : Bucket) (s : State) : (putBucket i b s).fio = s.fio := by
  unfold putBucket
  repeat' (first | rfl | split | simp only [when] | simp)
@[simp] theorem putBucket_hif (i : Nat) (b : Bucket) (s : State) : (putBucket i b s).hif = s.hif := by
  unfold putBucket
  repeat' (first | rfl | split | simp only [when] | simp)
@[simp] theorem putBucket_cfg (i : Nat) (b : Bucket) (s : State) : (putBucket i b s).cfg = s.cfg := by
  unfold putBucket
  repeat' (first | rfl | split | simp only [when] | simp)
@[simp] theorem putBucket_latchFw (i : Nat) (b : Bucket) (s : State) : (putBucket i b s).latchFw = s.latchFw := by
  unfold putBucket
  repeat' (first | rfl | split | simp only [when] | simp)
@[simp] theorem putBucket_latchHost (i : Nat) (b : Bucket) (s : State) : (putBucket i b s).latchHost = s.latchHost := by
  unfold putBucket
  repeat' (first | rfl | split | simp only [when] | simp)
@[simp] theorem putBucket_out (i : Nat) (b : Bucket) (s : State) : (putBucket i b s).out = s.out := by
  unfold putBucket
  repeat' (first | rfl | split | simp only [when] | simp)

@[simp] theorem admitRecord_pending (r : LedgerRecord) (s : State) : (admitRecord r s).2.pending = s.pending := by
  unfold admitRecord
  repeat' (first | rfl | split | simp only [when] | simp)
@[simp] theorem admitRecord_now (r : LedgerRecord) (s : State) : (admitRecord r s).2.now = s.now := by
  unfold admitRecord
  repeat' (first | rfl | split | simp only [when] | simp)
@[simp] theorem admitRecord_aon (r : LedgerRecord) (s : State) : (admitRecord r s).2.aon = s.aon := by
  unfold admitRecord
  repeat' (first | rfl | split | simp only [when] | simp)
@[simp] theorem admitRecord_pcount (r : LedgerRecord) (s : State) : (admitRecord r s).2.pcount = s.pcount := by
  unfold admitRecord
  repeat' (first | rfl | split | simp only [when] | simp)
@[simp] theorem admitRecord_followers (r : LedgerRecord) (s : State) : (admitRecord r s).2.followers = s.followers := by
  unfold admitRecord
  repeat' (first | rfl | split | simp only [when] | simp)
@[simp] theorem admitRecord_discont (r : LedgerRecord) (s : State) : (admitRecord r s).2.discont = s.discont := by
  unfold admitRecord
  repeat' (first | rfl | split | simp only [when] | simp)
@[simp] theorem admitRecord_fresh (r : LedgerRecord) (s : State) : (admitRecord r s).2.fresh = s.fresh := by
  unfold admitRecord
  repeat' (first | rfl | split | simp only [when] | simp)
@[simp] theorem admitRecord_msgTag (r : LedgerRecord) (s : State) : (admitRecord r s).2.msgTag = s.msgTag := by
  unfold admitRecord
  repeat' (first | rfl | split | simp only [when] | simp)
@[simp] theorem admitRecord_gen (r : LedgerRecord) (s : State) : (admitRecord r s).2.gen = s.gen := by
  unfold admitRecord
  repeat' (first | rfl | split | simp only [when] | simp)
@[simp] theorem admitRecord_tmb (r : LedgerRecord) (s : State) : (admitRecord r s).2.tmb = s.tmb := by
  unfold admitRecord
  repeat' (first | rfl | split | simp only [when] | simp)
@[simp] theorem admitRecord_prt (r : LedgerRecord) (s : State) : (admitRecord r s).2.prt = s.prt := by
  unfold admitRecord
  repeat' (first | rfl | split | simp only [when] | simp)
@[simp] theorem admitRecord_svi (r : LedgerRecord) (s : State) : (admitRecord r s).2.svi = s.svi := by
  unfold admitRecord
  repeat' (first | rfl | split | simp only [when] | simp)
@[simp] theorem admitRecord_phe (r : LedgerRecord) (s : State) : (admitRecord r s).2.phe = s.phe := by
  unfold admitRecord
  repeat' (first | rfl | split | simp only [when] | simp)
@[simp] theorem admitRecord_wce (r : LedgerRecord) (s : State) : (admitRecord r s).2.wce = s.wce := by
  unfold admitRecord
  repeat' (first | rfl | split | simp only [when] | simp)
@[simp] theorem admitRecord_seq (r : LedgerRecord) (s : State) : (admitRecord r s).2.seq = s.seq := by
  unfold admitRecord
  repeat' (first | rfl | split | simp only [when] | simp)
@[simp] theorem admitRecord_trd (r : LedgerRecord) (s : State) : (admitRecord r s).2.trd = s.trd := by
  unfold admitRecord
  repeat' (first | rfl | split | simp only [when] | simp)
@[simp] theorem admitRecord_bgt (r : LedgerRecord) (s : State) : (admitRecord r s).2.bgt = s.bgt := by
  unfold admitRecord
  repeat' (first | rfl | split | simp only [when] | simp)
@[simp] theorem admitRecord_ptm (r : LedgerRecord) (s : State) : (admitRecord r s).2.ptm = s.ptm := by
  unfold admitRecord
  repeat' (first | rfl | split | simp only [when] | simp)
@[simp] theorem admitRecord_wvl (r : LedgerRecord) (s : State) : (admitRecord r s).2.wvl = s.wvl := by
  unfold admitRecord
  repeat' (first | rfl | split | simp only [when] | simp)
@[simp] theorem admitRecord_mem (r : LedgerRecord) (s : State) : (admitRecord r s).2.mem = s.mem := by
  unfold admitRecord
  repeat' (first | rfl | split | simp only [when] | simp)
@[simp] theorem admitRecord_wrd (r : LedgerRecord) (s : State) : (admitRecord r s).2.wrd = s.wrd := by
  unfold admitRecord
  repeat' (first | rfl | split | simp only [when] | simp)
@[simp] theorem admitRecord_fcr (r : LedgerRecord) (s : State) : (admitRecord r s).2.fcr = s.fcr := by
  unfold admitRecord
  repeat' (first | rfl | split | simp only [when] | simp)
@[simp] theorem admitRecord_bsl (r : LedgerRecord) (s : State) : (admitRecord r s).2.bsl = s.bsl := by
  unfold admitRecord
  repeat' (first | rfl | split | simp only [when] | simp)
@[simp] theorem admitRecord_upd (r : LedgerRecord) (s : State) : (admitRecord r s).2.upd = s.upd := by
  unfold admitRecord
  repeat' (first | rfl | split | simp only [when] | simp)
@[simp] theorem admitRecord_fio (r : LedgerRecord) (s : State) : (admitRecord r s).2.fio = s.fio := by
  unfold admitRecord
  repeat' (first | rfl | split | simp only [when] | simp)
@[simp] theorem admitRecord_cfg (r : LedgerRecord) (s : State) : (admitRecord r s).2.cfg = s.cfg := by
  unfold admitRecord
  repeat' (first | rfl | split | simp only [when] | simp)
@[simp] theorem admitRecord_latchFw (r : LedgerRecord) (s : State) : (admitRecord r s).2.latchFw = s.latchFw := by
  unfold admitRecord
  repeat' (first | rfl | split | simp only [when] | simp)
@[simp] theorem admitRecord_latchHost (r : LedgerRecord) (s : State) : (admitRecord r s).2.latchHost = s.latchHost := by
  unfold admitRecord
  repeat' (first | rfl | split | simp only [when] | simp)
@[simp] theorem admitRecord_out (r : LedgerRecord) (s : State) : (admitRecord r s).2.out = s.out := by
  unfold admitRecord
  repeat' (first | rfl | split | simp only [when] | simp)

@[simp] theorem ledger_pending (code source : Nat) (data : List Nat) (s : State) : (ledger code source data s).pending = s.pending := by
  unfold ledger
  repeat' (first | rfl | split | simp only [when] | simp)
@[simp] theorem ledger_now (code source : Nat) (data : List Nat) (s : State) : (ledger code source data s).now = s.now := by
  unfold ledger
  repeat' (first | rfl | split | simp only [when] | simp)
@[simp] theorem ledger_aon (code source : Nat) (data : List Nat) (s : State) : (ledger code source data s).aon = s.aon := by
  unfold ledger
  repeat' (first | rfl | split | simp only [when] | simp)
@[simp] theorem ledger_pcount (code source : Nat) (data : List Nat) (s : State) : (ledger code source data s).pcount = s.pcount := by
  unfold ledger
  repeat' (first | rfl | split | simp only [when] | simp)
@[simp] theorem ledger_followers (code source : Nat) (data : List Nat) (s : State) : (ledger code source data s).followers = s.followers := by
  unfold ledger
  repeat' (first | rfl | split | simp only [when] | simp)
@[simp] theorem ledger_discont (code source : Nat) (data : List Nat) (s : State) : (ledger code source data s).discont = s.discont := by
  unfold ledger
  repeat' (first | rfl | split | simp only [when] | simp)
@[simp] theorem ledger_fresh (code source : Nat) (data : List Nat) (s : State) : (ledger code source data s).fresh = s.fresh := by
  unfold ledger
  repeat' (first | rfl | split | simp only [when] | simp)
@[simp] theorem ledger_msgTag (code source : Nat) (data : List Nat) (s : State) : (ledger code source data s).msgTag = s.msgTag := by
  unfold ledger
  repeat' (first | rfl | split | simp only [when] | simp)
@[simp] theorem ledger_gen (code source : Nat) (data : List Nat) (s : State) : (ledger code source data s).gen = s.gen := by
  unfold ledger
  repeat' (first | rfl | split | simp only [when] | simp)
@[simp] theorem ledger_tmb (code source : Nat) (data : List Nat) (s : State) : (ledger code source data s).tmb = s.tmb := by
  unfold ledger
  repeat' (first | rfl | split | simp only [when] | simp)
@[simp] theorem ledger_prt (code source : Nat) (data : List Nat) (s : State) : (ledger code source data s).prt = s.prt := by
  unfold ledger
  repeat' (first | rfl | split | simp only [when] | simp)
@[simp] theorem ledger_svi (code source : Nat) (data : List Nat) (s : State) : (ledger code source data s).svi = s.svi := by
  unfold ledger
  repeat' (first | rfl | split | simp only [when] | simp)
@[simp] theorem ledger_phe (code source : Nat) (data : List Nat) (s : State) : (ledger code source data s).phe = s.phe := by
  unfold ledger
  repeat' (first | rfl | split | simp only [when] | simp)
@[simp] theorem ledger_wce (code source : Nat) (data : List Nat) (s : State) : (ledger code source data s).wce = s.wce := by
  unfold ledger
  repeat' (first | rfl | split | simp only [when] | simp)
@[simp] theorem ledger_seq (code source : Nat) (data : List Nat) (s : State) : (ledger code source data s).seq = s.seq := by
  unfold ledger
  repeat' (first | rfl | split | simp only [when] | simp)
@[simp] theorem ledger_trd (code source : Nat) (data : List Nat) (s : State) : (ledger code source data s).trd = s.trd := by
  unfold ledger
  repeat' (first | rfl | split | simp only [when] | simp)
@[simp] theorem ledger_bgt (code source : Nat) (data : List Nat) (s : State) : (ledger code source data s).bgt = s.bgt := by
  unfold ledger
  repeat' (first | rfl | split | simp only [when] | simp)
@[simp] theorem ledger_ptm (code source : Nat) (data : List Nat) (s : State) : (ledger code source data s).ptm = s.ptm := by
  unfold ledger
  repeat' (first | rfl | split | simp only [when] | simp)
@[simp] theorem ledger_wvl (code source : Nat) (data : List Nat) (s : State) : (ledger code source data s).wvl = s.wvl := by
  unfold ledger
  repeat' (first | rfl | split | simp only [when] | simp)
@[simp] theorem ledger_mem (code source : Nat) (data : List Nat) (s : State) : (ledger code source data s).mem = s.mem := by
  unfold ledger
  repeat' (first | rfl | split | simp only [when] | simp)
@[simp] theorem ledger_wrd (code source : Nat) (data : List Nat) (s : State) : (ledger code source data s).wrd = s.wrd := by
  unfold ledger
  repeat' (first | rfl | split | simp only [when] | simp)
@[simp] theorem ledger_fcr (code source : Nat) (data : List Nat) (s : State) : (ledger code source data s).fcr = s.fcr := by
  unfold ledger
  repeat' (first | rfl | split | simp only [when] | simp)
@[simp] theorem ledger_bsl (code source : Nat) (data : List Nat) (s : State) : (ledger code source data s).bsl = s.bsl := by
  unfold ledger
  repeat' (first | rfl | split | simp only [when] | simp)
@[simp] theorem ledger_upd (code source : Nat) (data : List Nat) (s : State) : (ledger code source data s).upd = s.upd := by
  unfold ledger
  repeat' (first | rfl | split | simp only [when] | simp)
@[simp] theorem ledger_fio (code source : Nat) (data : List Nat) (s : State) : (ledger code source data s).fio = s.fio := by
  unfold ledger
  repeat' (first | rfl | split | simp only [when] | simp)
@[simp] theorem ledger_cfg (code source : Nat) (data : List Nat) (s : State) : (ledger code source data s).cfg = s.cfg := by
  unfold ledger
  repeat' (first | rfl | split | simp only [when] | simp)
@[simp] theorem ledger_latchFw (code source : Nat) (data : List Nat) (s : State) : (ledger code source data s).latchFw = s.latchFw := by
  unfold ledger
  repeat' (first | rfl | split | simp only [when] | simp)
@[simp] theorem ledger_latchHost (code source : Nat) (data : List Nat) (s : State) : (ledger code source data s).latchHost = s.latchHost := by
  unfold ledger
  repeat' (first | rfl | split | simp only [when] | simp)
@[simp] theorem ledger_out (code source : Nat) (data : List Nat) (s : State) : (ledger code source data s).out = s.out := by
  unfold ledger
  repeat' (first | rfl | split | simp only [when] | simp)

@[simp] theorem flushReplies_pending (i : Fin 8) (s : State) : (flushReplies i s).pending = s.pending := by
  unfold flushReplies
  repeat' (first | rfl | split | simp only [when] | simp)
@[simp] theorem flushReplies_now (i : Fin 8) (s : State) : (flushReplies i s).now = s.now := by
  unfold flushReplies
  repeat' (first | rfl | split | simp only [when] | simp)
@[simp] theorem flushReplies_aon (i : Fin 8) (s : State) : (flushReplies i s).aon = s.aon := by
  unfold flushReplies
  repeat' (first | rfl | split | simp only [when] | simp)
@[simp] theorem flushReplies_pcount (i : Fin 8) (s : State) : (flushReplies i s).pcount = s.pcount := by
  unfold flushReplies
  repeat' (first | rfl | split | simp only [when] | simp)
@[simp] theorem flushReplies_followers (i : Fin 8) (s : State) : (flushReplies i s).followers = s.followers := by
  unfold flushReplies
  repeat' (first | rfl | split | simp only [when] | simp)
@[simp] theorem flushReplies_discont (i : Fin 8) (s : State) : (flushReplies i s).discont = s.discont := by
  unfold flushReplies
  repeat' (first | rfl | split | simp only [when] | simp)
@[simp] theorem flushReplies_fresh (i : Fin 8) (s : State) : (flushReplies i s).fresh = s.fresh := by
  unfold flushReplies
  repeat' (first | rfl | split | simp only [when] | simp)
@[simp] theorem flushReplies_msgTag (i : Fin 8) (s : State) : (flushReplies i s).msgTag = s.msgTag := by
  unfold flushReplies
  repeat' (first | rfl | split | simp only [when] | simp)
@[simp] theorem flushReplies_gen (i : Fin 8) (s : State) : (flushReplies i s).gen = s.gen := by
  unfold flushReplies
  repeat' (first | rfl | split | simp only [when] | simp)
@[simp] theorem flushReplies_evt (i : Fin 8) (s : State) : (flushReplies i s).evt = s.evt := by
  unfold flushReplies
  repeat' (first | rfl | split | simp only [when] | simp)
@[simp] theorem flushReplies_tmb (i : Fin 8) (s : State) : (flushReplies i s).tmb = s.tmb := by
  unfold flushReplies
  repeat' (first | rfl | split | simp only [when] | simp)
@[simp] theorem flushReplies_prt (i : Fin 8) (s : State) : (flushReplies i s).prt = s.prt := by
  unfold flushReplies
  repeat' (first | rfl | split | simp only [when] | simp)
@[simp] theorem flushReplies_svi (i : Fin 8) (s : State) : (flushReplies i s).svi = s.svi := by
  unfold flushReplies
  repeat' (first | rfl | split | simp only [when] | simp)
@[simp] theorem flushReplies_phe (i : Fin 8) (s : State) : (flushReplies i s).phe = s.phe := by
  unfold flushReplies
  repeat' (first | rfl | split | simp only [when] | simp)
@[simp] theorem flushReplies_wce (i : Fin 8) (s : State) : (flushReplies i s).wce = s.wce := by
  unfold flushReplies
  repeat' (first | rfl | split | simp only [when] | simp)
@[simp] theorem flushReplies_seq (i : Fin 8) (s : State) : (flushReplies i s).seq = s.seq := by
  unfold flushReplies
  repeat' (first | rfl | split | simp only [when] | simp)
@[simp] theorem flushReplies_trd (i : Fin 8) (s : State) : (flushReplies i s).trd = s.trd := by
  unfold flushReplies
  repeat' (first | rfl | split | simp only [when] | simp)
@[simp] theorem flushReplies_bgt (i : Fin 8) (s : State) : (flushReplies i s).bgt = s.bgt := by
  unfold flushReplies
  repeat' (first | rfl | split | simp only [when] | simp)
@[simp] theorem flushReplies_ptm (i : Fin 8) (s : State) : (flushReplies i s).ptm = s.ptm := by
  unfold flushReplies
  repeat' (first | rfl | split | simp only [when] | simp)
@[simp] theorem flushReplies_wvl (i : Fin 8) (s : State) : (flushReplies i s).wvl = s.wvl := by
  unfold flushReplies
  repeat' (first | rfl | split | simp only [when] | simp)
@[simp] theorem flushReplies_mem (i : Fin 8) (s : State) : (flushReplies i s).mem = s.mem := by
  unfold flushReplies
  repeat' (first | rfl | split | simp only [when] | simp)
@[simp] theorem flushReplies_wrd (i : Fin 8) (s : State) : (flushReplies i s).wrd = s.wrd := by
  unfold flushReplies
  repeat' (first | rfl | split | simp only [when] | simp)
@[simp] theorem flushReplies_fcr (i : Fin 8) (s : State) : (flushReplies i s).fcr = s.fcr := by
  unfold flushReplies
  repeat' (first | rfl | split | simp only [when] | simp)
@[simp] theorem flushReplies_lgr (i : Fin 8) (s : State) : (flushReplies i s).lgr = s.lgr := by
  unfold flushReplies
  repeat' (first | rfl | split | simp only [when] | simp)
@[simp] theorem flushReplies_kpr (i : Fin 8) (s : State) : (flushReplies i s).kpr = s.kpr := by
  unfold flushReplies
  repeat' (first | rfl | split | simp only [when] | simp)
@[simp] theorem flushReplies_bsl (i : Fin 8) (s : State) : (flushReplies i s).bsl = s.bsl := by
  unfold flushReplies
  repeat' (first | rfl | split | simp only [when] | simp)
@[simp] theorem flushReplies_upd (i : Fin 8) (s : State) : (flushReplies i s).upd = s.upd := by
  unfold flushReplies
  repeat' (first | rfl | split | simp only [when] | simp)
@[simp] theorem flushReplies_fio (i : Fin 8) (s : State) : (flushReplies i s).fio = s.fio := by
  unfold flushReplies
  repeat' (first | rfl | split | simp only [when] | simp)
@[simp] theorem flushReplies_cfg (i : Fin 8) (s : State) : (flushReplies i s).cfg = s.cfg := by
  unfold flushReplies
  repeat' (first | rfl | split | simp only [when] | simp)
@[simp] theorem flushReplies_latchFw (i : Fin 8) (s : State) : (flushReplies i s).latchFw = s.latchFw := by
  unfold flushReplies
  repeat' (first | rfl | split | simp only [when] | simp)
@[simp] theorem flushReplies_latchHost (i : Fin 8) (s : State) : (flushReplies i s).latchHost = s.latchHost := by
  unfold flushReplies
  repeat' (first | rfl | split | simp only [when] | simp)

@[simp] theorem sendReplies_pending (i : Fin 8) (s : State) : (sendReplies i s).pending = s.pending := by
  unfold sendReplies
  repeat' (first | rfl | split | simp only [when] | simp)
@[simp] theorem sendReplies_now (i : Fin 8) (s : State) : (sendReplies i s).now = s.now := by
  unfold sendReplies
  repeat' (first | rfl | split | simp only [when] | simp)
@[simp] theorem sendReplies_aon (i : Fin 8) (s : State) : (sendReplies i s).aon = s.aon := by
  unfold sendReplies
  repeat' (first | rfl | split | simp only [when] | simp)
@[simp] theorem sendReplies_pcount (i : Fin 8) (s : State) : (sendReplies i s).pcount = s.pcount := by
  unfold sendReplies
  repeat' (first | rfl | split | simp only [when] | simp)
@[simp] theorem sendReplies_followers (i : Fin 8) (s : State) : (sendReplies i s).followers = s.followers := by
  unfold sendReplies
  repeat' (first | rfl | split | simp only [when] | simp)
@[simp] theorem sendReplies_discont (i : Fin 8) (s : State) : (sendReplies i s).discont = s.discont := by
  unfold sendReplies
  repeat' (first | rfl | split | simp only [when] | simp)
@[simp] theorem sendReplies_fresh (i : Fin 8) (s : State) : (sendReplies i s).fresh = s.fresh := by
  unfold sendReplies
  repeat' (first | rfl | split | simp only [when] | simp)
@[simp] theorem sendReplies_msgTag (i : Fin 8) (s : State) : (sendReplies i s).msgTag = s.msgTag := by
  unfold sendReplies
  repeat' (first | rfl | split | simp only [when] | simp)
@[simp] theorem sendReplies_gen (i : Fin 8) (s : State) : (sendReplies i s).gen = s.gen := by
  unfold sendReplies
  repeat' (first | rfl | split | simp only [when] | simp)
@[simp] theorem sendReplies_evt (i : Fin 8) (s : State) : (sendReplies i s).evt = s.evt := by
  unfold sendReplies
  repeat' (first | rfl | split | simp only [when] | simp)
@[simp] theorem sendReplies_tmb (i : Fin 8) (s : State) : (sendReplies i s).tmb = s.tmb := by
  unfold sendReplies
  repeat' (first | rfl | split | simp only [when] | simp)
@[simp] theorem sendReplies_prt (i : Fin 8) (s : State) : (sendReplies i s).prt = s.prt := by
  unfold sendReplies
  repeat' (first | rfl | split | simp only [when] | simp)
@[simp] theorem sendReplies_svi (i : Fin 8) (s : State) : (sendReplies i s).svi = s.svi := by
  unfold sendReplies
  repeat' (first | rfl | split | simp only [when] | simp)
@[simp] theorem sendReplies_phe (i : Fin 8) (s : State) : (sendReplies i s).phe = s.phe := by
  unfold sendReplies
  repeat' (first | rfl | split | simp only [when] | simp)
@[simp] theorem sendReplies_wce (i : Fin 8) (s : State) : (sendReplies i s).wce = s.wce := by
  unfold sendReplies
  repeat' (first | rfl | split | simp only [when] | simp)
@[simp] theorem sendReplies_seq (i : Fin 8) (s : State) : (sendReplies i s).seq = s.seq := by
  unfold sendReplies
  repeat' (first | rfl | split | simp only [when] | simp)
@[simp] theorem sendReplies_trd (i : Fin 8) (s : State) : (sendReplies i s).trd = s.trd := by
  unfold sendReplies
  repeat' (first | rfl | split | simp only [when] | simp)
@[simp] theorem sendReplies_bgt (i : Fin 8) (s : State) : (sendReplies i s).bgt = s.bgt := by
  unfold sendReplies
  repeat' (first | rfl | split | simp only [when] | simp)
@[simp] theorem sendReplies_ptm (i : Fin 8) (s : State) : (sendReplies i s).ptm = s.ptm := by
  unfold sendReplies
  repeat' (first | rfl | split | simp only [when] | simp)
@[simp] theorem sendReplies_wvl (i : Fin 8) (s : State) : (sendReplies i s).wvl = s.wvl := by
  unfold sendReplies
  repeat' (first | rfl | split | simp only [when] | simp)
@[simp] theorem sendReplies_mem (i : Fin 8) (s : State) : (sendReplies i s).mem = s.mem := by
  unfold sendReplies
  repeat' (first | rfl | split | simp only [when] | simp)
@[simp] theorem sendReplies_wrd (i : Fin 8) (s : State) : (sendReplies i s).wrd = s.wrd := by
  unfold sendReplies
  repeat' (first | rfl | split | simp only [when] | simp)
@[simp] theorem sendReplies_fcr (i : Fin 8) (s : State) : (sendReplies i s).fcr = s.fcr := by
  unfold sendReplies
  repeat' (first | rfl | split | simp only [when] | simp)
@[simp] theorem sendReplies_lgr (i : Fin 8) (s : State) : (sendReplies i s).lgr = s.lgr := by
  unfold sendReplies
  repeat' (first | rfl | split | simp only [when] | simp)
@[simp] theorem sendReplies_kpr (i : Fin 8) (s : State) : (sendReplies i s).kpr = s.kpr := by
  unfold sendReplies
  repeat' (first | rfl | split | simp only [when] | simp)
@[simp] theorem sendReplies_bsl (i : Fin 8) (s : State) : (sendReplies i s).bsl = s.bsl := by
  unfold sendReplies
  repeat' (first | rfl | split | simp only [when] | simp)
@[simp] theorem sendReplies_upd (i : Fin 8) (s : State) : (sendReplies i s).upd = s.upd := by
  unfold sendReplies
  repeat' (first | rfl | split | simp only [when] | simp)
@[simp] theorem sendReplies_fio (i : Fin 8) (s : State) : (sendReplies i s).fio = s.fio := by
  unfold sendReplies
  repeat' (first | rfl | split | simp only [when] | simp)
@[simp] theorem sendReplies_cfg (i : Fin 8) (s : State) : (sendReplies i s).cfg = s.cfg := by
  unfold sendReplies
  repeat' (first | rfl | split | simp only [when] | simp)
@[simp] theorem sendReplies_latchFw (i : Fin 8) (s : State) : (sendReplies i s).latchFw = s.latchFw := by
  unfold sendReplies
  repeat' (first | rfl | split | simp only [when] | simp)
@[simp] theorem sendReplies_latchHost (i : Fin 8) (s : State) : (sendReplies i s).latchHost = s.latchHost := by
  unfold sendReplies
  repeat' (first | rfl | split | simp only [when] | simp)

@[simp] theorem answer_pending (i : Fin 8) (status detail : Nat) (payload : List Nat) (s : State) : (answer i status detail payload s).pending = s.pending := by
  unfold answer
  repeat' (first | rfl | split | simp only [when] | simp)
@[simp] theorem answer_now (i : Fin 8) (status detail : Nat) (payload : List Nat) (s : State) : (answer i status detail payload s).now = s.now := by
  unfold answer
  repeat' (first | rfl | split | simp only [when] | simp)
@[simp] theorem answer_aon (i : Fin 8) (status detail : Nat) (payload : List Nat) (s : State) : (answer i status detail payload s).aon = s.aon := by
  unfold answer
  repeat' (first | rfl | split | simp only [when] | simp)
@[simp] theorem answer_pcount (i : Fin 8) (status detail : Nat) (payload : List Nat) (s : State) : (answer i status detail payload s).pcount = s.pcount := by
  unfold answer
  repeat' (first | rfl | split | simp only [when] | simp)
@[simp] theorem answer_followers (i : Fin 8) (status detail : Nat) (payload : List Nat) (s : State) : (answer i status detail payload s).followers = s.followers := by
  unfold answer
  repeat' (first | rfl | split | simp only [when] | simp)
@[simp] theorem answer_discont (i : Fin 8) (status detail : Nat) (payload : List Nat) (s : State) : (answer i status detail payload s).discont = s.discont := by
  unfold answer
  repeat' (first | rfl | split | simp only [when] | simp)
@[simp] theorem answer_fresh (i : Fin 8) (status detail : Nat) (payload : List Nat) (s : State) : (answer i status detail payload s).fresh = s.fresh := by
  unfold answer
  repeat' (first | rfl | split | simp only [when] | simp)
@[simp] theorem answer_msgTag (i : Fin 8) (status detail : Nat) (payload : List Nat) (s : State) : (answer i status detail payload s).msgTag = s.msgTag := by
  unfold answer
  repeat' (first | rfl | split | simp only [when] | simp)
@[simp] theorem answer_gen (i : Fin 8) (status detail : Nat) (payload : List Nat) (s : State) : (answer i status detail payload s).gen = s.gen := by
  unfold answer
  repeat' (first | rfl | split | simp only [when] | simp)
@[simp] theorem answer_evt (i : Fin 8) (status detail : Nat) (payload : List Nat) (s : State) : (answer i status detail payload s).evt = s.evt := by
  unfold answer
  repeat' (first | rfl | split | simp only [when] | simp)
@[simp] theorem answer_tmb (i : Fin 8) (status detail : Nat) (payload : List Nat) (s : State) : (answer i status detail payload s).tmb = s.tmb := by
  unfold answer
  repeat' (first | rfl | split | simp only [when] | simp)
@[simp] theorem answer_prt (i : Fin 8) (status detail : Nat) (payload : List Nat) (s : State) : (answer i status detail payload s).prt = s.prt := by
  unfold answer
  repeat' (first | rfl | split | simp only [when] | simp)
@[simp] theorem answer_svi (i : Fin 8) (status detail : Nat) (payload : List Nat) (s : State) : (answer i status detail payload s).svi = s.svi := by
  unfold answer
  repeat' (first | rfl | split | simp only [when] | simp)
@[simp] theorem answer_phe (i : Fin 8) (status detail : Nat) (payload : List Nat) (s : State) : (answer i status detail payload s).phe = s.phe := by
  unfold answer
  repeat' (first | rfl | split | simp only [when] | simp)
@[simp] theorem answer_wce (i : Fin 8) (status detail : Nat) (payload : List Nat) (s : State) : (answer i status detail payload s).wce = s.wce := by
  unfold answer
  repeat' (first | rfl | split | simp only [when] | simp)
@[simp] theorem answer_seq (i : Fin 8) (status detail : Nat) (payload : List Nat) (s : State) : (answer i status detail payload s).seq = s.seq := by
  unfold answer
  repeat' (first | rfl | split | simp only [when] | simp)
@[simp] theorem answer_trd (i : Fin 8) (status detail : Nat) (payload : List Nat) (s : State) : (answer i status detail payload s).trd = s.trd := by
  unfold answer
  repeat' (first | rfl | split | simp only [when] | simp)
@[simp] theorem answer_bgt (i : Fin 8) (status detail : Nat) (payload : List Nat) (s : State) : (answer i status detail payload s).bgt = s.bgt := by
  unfold answer
  repeat' (first | rfl | split | simp only [when] | simp)
@[simp] theorem answer_ptm (i : Fin 8) (status detail : Nat) (payload : List Nat) (s : State) : (answer i status detail payload s).ptm = s.ptm := by
  unfold answer
  repeat' (first | rfl | split | simp only [when] | simp)
@[simp] theorem answer_wvl (i : Fin 8) (status detail : Nat) (payload : List Nat) (s : State) : (answer i status detail payload s).wvl = s.wvl := by
  unfold answer
  repeat' (first | rfl | split | simp only [when] | simp)
@[simp] theorem answer_mem (i : Fin 8) (status detail : Nat) (payload : List Nat) (s : State) : (answer i status detail payload s).mem = s.mem := by
  unfold answer
  repeat' (first | rfl | split | simp only [when] | simp)
@[simp] theorem answer_wrd (i : Fin 8) (status detail : Nat) (payload : List Nat) (s : State) : (answer i status detail payload s).wrd = s.wrd := by
  unfold answer
  repeat' (first | rfl | split | simp only [when] | simp)
@[simp] theorem answer_fcr (i : Fin 8) (status detail : Nat) (payload : List Nat) (s : State) : (answer i status detail payload s).fcr = s.fcr := by
  unfold answer
  repeat' (first | rfl | split | simp only [when] | simp)
@[simp] theorem answer_lgr (i : Fin 8) (status detail : Nat) (payload : List Nat) (s : State) : (answer i status detail payload s).lgr = s.lgr := by
  unfold answer
  repeat' (first | rfl | split | simp only [when] | simp)
@[simp] theorem answer_kpr (i : Fin 8) (status detail : Nat) (payload : List Nat) (s : State) : (answer i status detail payload s).kpr = s.kpr := by
  unfold answer
  repeat' (first | rfl | split | simp only [when] | simp)
@[simp] theorem answer_bsl (i : Fin 8) (status detail : Nat) (payload : List Nat) (s : State) : (answer i status detail payload s).bsl = s.bsl := by
  unfold answer
  repeat' (first | rfl | split | simp only [when] | simp)
@[simp] theorem answer_upd (i : Fin 8) (status detail : Nat) (payload : List Nat) (s : State) : (answer i status detail payload s).upd = s.upd := by
  unfold answer
  repeat' (first | rfl | split | simp only [when] | simp)
@[simp] theorem answer_fio (i : Fin 8) (status detail : Nat) (payload : List Nat) (s : State) : (answer i status detail payload s).fio = s.fio := by
  unfold answer
  repeat' (first | rfl | split | simp only [when] | simp)
@[simp] theorem answer_cfg (i : Fin 8) (status detail : Nat) (payload : List Nat) (s : State) : (answer i status detail payload s).cfg = s.cfg := by
  unfold answer
  repeat' (first | rfl | split | simp only [when] | simp)
@[simp] theorem answer_latchFw (i : Fin 8) (status detail : Nat) (payload : List Nat) (s : State) : (answer i status detail payload s).latchFw = s.latchFw := by
  unfold answer
  repeat' (first | rfl | split | simp only [when] | simp)
@[simp] theorem answer_latchHost (i : Fin 8) (status detail : Nat) (payload : List Nat) (s : State) : (answer i status detail payload s).latchHost = s.latchHost := by
  unfold answer
  repeat' (first | rfl | split | simp only [when] | simp)

@[simp] theorem countRole_pending (status : Nat) (s : State) : (countRole status s).pending = s.pending := by
  unfold countRole
  repeat' (first | rfl | split | simp only [when] | simp)
@[simp] theorem countRole_now (status : Nat) (s : State) : (countRole status s).now = s.now := by
  unfold countRole
  repeat' (first | rfl | split | simp only [when] | simp)
@[simp] theorem countRole_aon (status : Nat) (s : State) : (countRole status s).aon = s.aon := by
  unfold countRole
  repeat' (first | rfl | split | simp only [when] | simp)
@[simp] theorem countRole_pcount (status : Nat) (s : State) : (countRole status s).pcount = s.pcount := by
  unfold countRole
  repeat' (first | rfl | split | simp only [when] | simp)
@[simp] theorem countRole_followers (status : Nat) (s : State) : (countRole status s).followers = s.followers := by
  unfold countRole
  repeat' (first | rfl | split | simp only [when] | simp)
@[simp] theorem countRole_discont (status : Nat) (s : State) : (countRole status s).discont = s.discont := by
  unfold countRole
  repeat' (first | rfl | split | simp only [when] | simp)
@[simp] theorem countRole_fresh (status : Nat) (s : State) : (countRole status s).fresh = s.fresh := by
  unfold countRole
  repeat' (first | rfl | split | simp only [when] | simp)
@[simp] theorem countRole_msgTag (status : Nat) (s : State) : (countRole status s).msgTag = s.msgTag := by
  unfold countRole
  repeat' (first | rfl | split | simp only [when] | simp)
@[simp] theorem countRole_gen (status : Nat) (s : State) : (countRole status s).gen = s.gen := by
  unfold countRole
  repeat' (first | rfl | split | simp only [when] | simp)
@[simp] theorem countRole_evt (status : Nat) (s : State) : (countRole status s).evt = s.evt := by
  unfold countRole
  repeat' (first | rfl | split | simp only [when] | simp)
@[simp] theorem countRole_tmb (status : Nat) (s : State) : (countRole status s).tmb = s.tmb := by
  unfold countRole
  repeat' (first | rfl | split | simp only [when] | simp)
@[simp] theorem countRole_prt (status : Nat) (s : State) : (countRole status s).prt = s.prt := by
  unfold countRole
  repeat' (first | rfl | split | simp only [when] | simp)
@[simp] theorem countRole_svi (status : Nat) (s : State) : (countRole status s).svi = s.svi := by
  unfold countRole
  repeat' (first | rfl | split | simp only [when] | simp)
@[simp] theorem countRole_phe (status : Nat) (s : State) : (countRole status s).phe = s.phe := by
  unfold countRole
  repeat' (first | rfl | split | simp only [when] | simp)
@[simp] theorem countRole_wce (status : Nat) (s : State) : (countRole status s).wce = s.wce := by
  unfold countRole
  repeat' (first | rfl | split | simp only [when] | simp)
@[simp] theorem countRole_seq (status : Nat) (s : State) : (countRole status s).seq = s.seq := by
  unfold countRole
  repeat' (first | rfl | split | simp only [when] | simp)
@[simp] theorem countRole_trd (status : Nat) (s : State) : (countRole status s).trd = s.trd := by
  unfold countRole
  repeat' (first | rfl | split | simp only [when] | simp)
@[simp] theorem countRole_bgt (status : Nat) (s : State) : (countRole status s).bgt = s.bgt := by
  unfold countRole
  repeat' (first | rfl | split | simp only [when] | simp)
@[simp] theorem countRole_ptm (status : Nat) (s : State) : (countRole status s).ptm = s.ptm := by
  unfold countRole
  repeat' (first | rfl | split | simp only [when] | simp)
@[simp] theorem countRole_wvl (status : Nat) (s : State) : (countRole status s).wvl = s.wvl := by
  unfold countRole
  repeat' (first | rfl | split | simp only [when] | simp)
@[simp] theorem countRole_mem (status : Nat) (s : State) : (countRole status s).mem = s.mem := by
  unfold countRole
  repeat' (first | rfl | split | simp only [when] | simp)
@[simp] theorem countRole_wrd (status : Nat) (s : State) : (countRole status s).wrd = s.wrd := by
  unfold countRole
  repeat' (first | rfl | split | simp only [when] | simp)
@[simp] theorem countRole_fcr (status : Nat) (s : State) : (countRole status s).fcr = s.fcr := by
  unfold countRole
  repeat' (first | rfl | split | simp only [when] | simp)
@[simp] theorem countRole_lgr (status : Nat) (s : State) : (countRole status s).lgr = s.lgr := by
  unfold countRole
  repeat' (first | rfl | split | simp only [when] | simp)
@[simp] theorem countRole_kpr (status : Nat) (s : State) : (countRole status s).kpr = s.kpr := by
  unfold countRole
  repeat' (first | rfl | split | simp only [when] | simp)
@[simp] theorem countRole_bsl (status : Nat) (s : State) : (countRole status s).bsl = s.bsl := by
  unfold countRole
  repeat' (first | rfl | split | simp only [when] | simp)
@[simp] theorem countRole_upd (status : Nat) (s : State) : (countRole status s).upd = s.upd := by
  unfold countRole
  repeat' (first | rfl | split | simp only [when] | simp)
@[simp] theorem countRole_fio (status : Nat) (s : State) : (countRole status s).fio = s.fio := by
  unfold countRole
  repeat' (first | rfl | split | simp only [when] | simp)
@[simp] theorem countRole_cfg (status : Nat) (s : State) : (countRole status s).cfg = s.cfg := by
  unfold countRole
  repeat' (first | rfl | split | simp only [when] | simp)
@[simp] theorem countRole_latchFw (status : Nat) (s : State) : (countRole status s).latchFw = s.latchFw := by
  unfold countRole
  repeat' (first | rfl | split | simp only [when] | simp)
@[simp] theorem countRole_latchHost (status : Nat) (s : State) : (countRole status s).latchHost = s.latchHost := by
  unfold countRole
  repeat' (first | rfl | split | simp only [when] | simp)
@[simp] theorem countRole_out (status : Nat) (s : State) : (countRole status s).out = s.out := by
  unfold countRole
  repeat' (first | rfl | split | simp only [when] | simp)

@[simp] theorem reply_pending (i : Fin 8) (status detail : Nat) (payload : List Nat) (s : State) : (reply i status detail payload s).pending = s.pending := by
  unfold reply
  repeat' (first | rfl | split | simp only [when] | simp)
@[simp] theorem reply_now (i : Fin 8) (status detail : Nat) (payload : List Nat) (s : State) : (reply i status detail payload s).now = s.now := by
  unfold reply
  repeat' (first | rfl | split | simp only [when] | simp)
@[simp] theorem reply_aon (i : Fin 8) (status detail : Nat) (payload : List Nat) (s : State) : (reply i status detail payload s).aon = s.aon := by
  unfold reply
  repeat' (first | rfl | split | simp only [when] | simp)
@[simp] theorem reply_pcount (i : Fin 8) (status detail : Nat) (payload : List Nat) (s : State) : (reply i status detail payload s).pcount = s.pcount := by
  unfold reply
  repeat' (first | rfl | split | simp only [when] | simp)
@[simp] theorem reply_followers (i : Fin 8) (status detail : Nat) (payload : List Nat) (s : State) : (reply i status detail payload s).followers = s.followers := by
  unfold reply
  repeat' (first | rfl | split | simp only [when] | simp)
@[simp] theorem reply_discont (i : Fin 8) (status detail : Nat) (payload : List Nat) (s : State) : (reply i status detail payload s).discont = s.discont := by
  unfold reply
  repeat' (first | rfl | split | simp only [when] | simp)
@[simp] theorem reply_fresh (i : Fin 8) (status detail : Nat) (payload : List Nat) (s : State) : (reply i status detail payload s).fresh = s.fresh := by
  unfold reply
  repeat' (first | rfl | split | simp only [when] | simp)
@[simp] theorem reply_msgTag (i : Fin 8) (status detail : Nat) (payload : List Nat) (s : State) : (reply i status detail payload s).msgTag = s.msgTag := by
  unfold reply
  repeat' (first | rfl | split | simp only [when] | simp)
@[simp] theorem reply_gen (i : Fin 8) (status detail : Nat) (payload : List Nat) (s : State) : (reply i status detail payload s).gen = s.gen := by
  unfold reply
  repeat' (first | rfl | split | simp only [when] | simp)
@[simp] theorem reply_evt (i : Fin 8) (status detail : Nat) (payload : List Nat) (s : State) : (reply i status detail payload s).evt = s.evt := by
  unfold reply
  repeat' (first | rfl | split | simp only [when] | simp)
@[simp] theorem reply_tmb (i : Fin 8) (status detail : Nat) (payload : List Nat) (s : State) : (reply i status detail payload s).tmb = s.tmb := by
  unfold reply
  repeat' (first | rfl | split | simp only [when] | simp)
@[simp] theorem reply_prt (i : Fin 8) (status detail : Nat) (payload : List Nat) (s : State) : (reply i status detail payload s).prt = s.prt := by
  unfold reply
  repeat' (first | rfl | split | simp only [when] | simp)
@[simp] theorem reply_svi (i : Fin 8) (status detail : Nat) (payload : List Nat) (s : State) : (reply i status detail payload s).svi = s.svi := by
  unfold reply
  repeat' (first | rfl | split | simp only [when] | simp)
@[simp] theorem reply_phe (i : Fin 8) (status detail : Nat) (payload : List Nat) (s : State) : (reply i status detail payload s).phe = s.phe := by
  unfold reply
  repeat' (first | rfl | split | simp only [when] | simp)
@[simp] theorem reply_wce (i : Fin 8) (status detail : Nat) (payload : List Nat) (s : State) : (reply i status detail payload s).wce = s.wce := by
  unfold reply
  repeat' (first | rfl | split | simp only [when] | simp)
@[simp] theorem reply_seq (i : Fin 8) (status detail : Nat) (payload : List Nat) (s : State) : (reply i status detail payload s).seq = s.seq := by
  unfold reply
  repeat' (first | rfl | split | simp only [when] | simp)
@[simp] theorem reply_trd (i : Fin 8) (status detail : Nat) (payload : List Nat) (s : State) : (reply i status detail payload s).trd = s.trd := by
  unfold reply
  repeat' (first | rfl | split | simp only [when] | simp)
@[simp] theorem reply_bgt (i : Fin 8) (status detail : Nat) (payload : List Nat) (s : State) : (reply i status detail payload s).bgt = s.bgt := by
  unfold reply
  repeat' (first | rfl | split | simp only [when] | simp)
@[simp] theorem reply_ptm (i : Fin 8) (status detail : Nat) (payload : List Nat) (s : State) : (reply i status detail payload s).ptm = s.ptm := by
  unfold reply
  repeat' (first | rfl | split | simp only [when] | simp)
@[simp] theorem reply_wvl (i : Fin 8) (status detail : Nat) (payload : List Nat) (s : State) : (reply i status detail payload s).wvl = s.wvl := by
  unfold reply
  repeat' (first | rfl | split | simp only [when] | simp)
@[simp] theorem reply_mem (i : Fin 8) (status detail : Nat) (payload : List Nat) (s : State) : (reply i status detail payload s).mem = s.mem := by
  unfold reply
  repeat' (first | rfl | split | simp only [when] | simp)
@[simp] theorem reply_wrd (i : Fin 8) (status detail : Nat) (payload : List Nat) (s : State) : (reply i status detail payload s).wrd = s.wrd := by
  unfold reply
  repeat' (first | rfl | split | simp only [when] | simp)
@[simp] theorem reply_fcr (i : Fin 8) (status detail : Nat) (payload : List Nat) (s : State) : (reply i status detail payload s).fcr = s.fcr := by
  unfold reply
  repeat' (first | rfl | split | simp only [when] | simp)
@[simp] theorem reply_lgr (i : Fin 8) (status detail : Nat) (payload : List Nat) (s : State) : (reply i status detail payload s).lgr = s.lgr := by
  unfold reply
  repeat' (first | rfl | split | simp only [when] | simp)
@[simp] theorem reply_kpr (i : Fin 8) (status detail : Nat) (payload : List Nat) (s : State) : (reply i status detail payload s).kpr = s.kpr := by
  unfold reply
  repeat' (first | rfl | split | simp only [when] | simp)
@[simp] theorem reply_bsl (i : Fin 8) (status detail : Nat) (payload : List Nat) (s : State) : (reply i status detail payload s).bsl = s.bsl := by
  unfold reply
  repeat' (first | rfl | split | simp only [when] | simp)
@[simp] theorem reply_upd (i : Fin 8) (status detail : Nat) (payload : List Nat) (s : State) : (reply i status detail payload s).upd = s.upd := by
  unfold reply
  repeat' (first | rfl | split | simp only [when] | simp)
@[simp] theorem reply_fio (i : Fin 8) (status detail : Nat) (payload : List Nat) (s : State) : (reply i status detail payload s).fio = s.fio := by
  unfold reply
  repeat' (first | rfl | split | simp only [when] | simp)
@[simp] theorem reply_cfg (i : Fin 8) (status detail : Nat) (payload : List Nat) (s : State) : (reply i status detail payload s).cfg = s.cfg := by
  unfold reply
  repeat' (first | rfl | split | simp only [when] | simp)
@[simp] theorem reply_latchFw (i : Fin 8) (status detail : Nat) (payload : List Nat) (s : State) : (reply i status detail payload s).latchFw = s.latchFw := by
  unfold reply
  repeat' (first | rfl | split | simp only [when] | simp)
@[simp] theorem reply_latchHost (i : Fin 8) (status detail : Nat) (payload : List Nat) (s : State) : (reply i status detail payload s).latchHost = s.latchHost := by
  unfold reply
  repeat' (first | rfl | split | simp only [when] | simp)

@[simp] theorem tmbEvent_pending (n : Nat) (s : State) : (tmbEvent n s).pending = s.pending := by
  unfold tmbEvent
  repeat' (first | rfl | split | simp only [when] | simp)
@[simp] theorem tmbEvent_now (n : Nat) (s : State) : (tmbEvent n s).now = s.now := by
  unfold tmbEvent
  repeat' (first | rfl | split | simp only [when] | simp)
@[simp] theorem tmbEvent_aon (n : Nat) (s : State) : (tmbEvent n s).aon = s.aon := by
  unfold tmbEvent
  repeat' (first | rfl | split | simp only [when] | simp)
@[simp] theorem tmbEvent_pcount (n : Nat) (s : State) : (tmbEvent n s).pcount = s.pcount := by
  unfold tmbEvent
  repeat' (first | rfl | split | simp only [when] | simp)
@[simp] theorem tmbEvent_followers (n : Nat) (s : State) : (tmbEvent n s).followers = s.followers := by
  unfold tmbEvent
  repeat' (first | rfl | split | simp only [when] | simp)
@[simp] theorem tmbEvent_discont (n : Nat) (s : State) : (tmbEvent n s).discont = s.discont := by
  unfold tmbEvent
  repeat' (first | rfl | split | simp only [when] | simp)
@[simp] theorem tmbEvent_fresh (n : Nat) (s : State) : (tmbEvent n s).fresh = s.fresh := by
  unfold tmbEvent
  repeat' (first | rfl | split | simp only [when] | simp)
@[simp] theorem tmbEvent_msgTag (n : Nat) (s : State) : (tmbEvent n s).msgTag = s.msgTag := by
  unfold tmbEvent
  repeat' (first | rfl | split | simp only [when] | simp)
@[simp] theorem tmbEvent_gen (n : Nat) (s : State) : (tmbEvent n s).gen = s.gen := by
  unfold tmbEvent
  repeat' (first | rfl | split | simp only [when] | simp)
@[simp] theorem tmbEvent_tmb (n : Nat) (s : State) : (tmbEvent n s).tmb = s.tmb := by
  unfold tmbEvent
  repeat' (first | rfl | split | simp only [when] | simp)
@[simp] theorem tmbEvent_prt (n : Nat) (s : State) : (tmbEvent n s).prt = s.prt := by
  unfold tmbEvent
  repeat' (first | rfl | split | simp only [when] | simp)
@[simp] theorem tmbEvent_svi (n : Nat) (s : State) : (tmbEvent n s).svi = s.svi := by
  unfold tmbEvent
  repeat' (first | rfl | split | simp only [when] | simp)
@[simp] theorem tmbEvent_phe (n : Nat) (s : State) : (tmbEvent n s).phe = s.phe := by
  unfold tmbEvent
  repeat' (first | rfl | split | simp only [when] | simp)
@[simp] theorem tmbEvent_wce (n : Nat) (s : State) : (tmbEvent n s).wce = s.wce := by
  unfold tmbEvent
  repeat' (first | rfl | split | simp only [when] | simp)
@[simp] theorem tmbEvent_seq (n : Nat) (s : State) : (tmbEvent n s).seq = s.seq := by
  unfold tmbEvent
  repeat' (first | rfl | split | simp only [when] | simp)
@[simp] theorem tmbEvent_trd (n : Nat) (s : State) : (tmbEvent n s).trd = s.trd := by
  unfold tmbEvent
  repeat' (first | rfl | split | simp only [when] | simp)
@[simp] theorem tmbEvent_bgt (n : Nat) (s : State) : (tmbEvent n s).bgt = s.bgt := by
  unfold tmbEvent
  repeat' (first | rfl | split | simp only [when] | simp)
@[simp] theorem tmbEvent_ptm (n : Nat) (s : State) : (tmbEvent n s).ptm = s.ptm := by
  unfold tmbEvent
  repeat' (first | rfl | split | simp only [when] | simp)
@[simp] theorem tmbEvent_wvl (n : Nat) (s : State) : (tmbEvent n s).wvl = s.wvl := by
  unfold tmbEvent
  repeat' (first | rfl | split | simp only [when] | simp)
@[simp] theorem tmbEvent_mem (n : Nat) (s : State) : (tmbEvent n s).mem = s.mem := by
  unfold tmbEvent
  repeat' (first | rfl | split | simp only [when] | simp)
@[simp] theorem tmbEvent_wrd (n : Nat) (s : State) : (tmbEvent n s).wrd = s.wrd := by
  unfold tmbEvent
  repeat' (first | rfl | split | simp only [when] | simp)
@[simp] theorem tmbEvent_fcr (n : Nat) (s : State) : (tmbEvent n s).fcr = s.fcr := by
  unfold tmbEvent
  repeat' (first | rfl | split | simp only [when] | simp)
@[simp] theorem tmbEvent_lgr (n : Nat) (s : State) : (tmbEvent n s).lgr = s.lgr := by
  unfold tmbEvent
  repeat' (first | rfl | split | simp only [when] | simp)
@[simp] theorem tmbEvent_kpr (n : Nat) (s : State) : (tmbEvent n s).kpr = s.kpr := by
  unfold tmbEvent
  repeat' (first | rfl | split | simp only [when] | simp)
@[simp] theorem tmbEvent_bsl (n : Nat) (s : State) : (tmbEvent n s).bsl = s.bsl := by
  unfold tmbEvent
  repeat' (first | rfl | split | simp only [when] | simp)
@[simp] theorem tmbEvent_upd (n : Nat) (s : State) : (tmbEvent n s).upd = s.upd := by
  unfold tmbEvent
  repeat' (first | rfl | split | simp only [when] | simp)
@[simp] theorem tmbEvent_fio (n : Nat) (s : State) : (tmbEvent n s).fio = s.fio := by
  unfold tmbEvent
  repeat' (first | rfl | split | simp only [when] | simp)
@[simp] theorem tmbEvent_cfg (n : Nat) (s : State) : (tmbEvent n s).cfg = s.cfg := by
  unfold tmbEvent
  repeat' (first | rfl | split | simp only [when] | simp)
@[simp] theorem tmbEvent_latchFw (n : Nat) (s : State) : (tmbEvent n s).latchFw = s.latchFw := by
  unfold tmbEvent
  repeat' (first | rfl | split | simp only [when] | simp)
@[simp] theorem tmbEvent_latchHost (n : Nat) (s : State) : (tmbEvent n s).latchHost = s.latchHost := by
  unfold tmbEvent
  repeat' (first | rfl | split | simp only [when] | simp)
@[simp] theorem tmbEvent_out (n : Nat) (s : State) : (tmbEvent n s).out = s.out := by
  unfold tmbEvent
  repeat' (first | rfl | split | simp only [when] | simp)

end Sys2Proof.Machine
end

