-- ==== Sys2Proof/Tests/Slice0.lean ====
section
/-! SUPPORT. Tests: ill-formed commands that the checks refuse, one-step tests whose expected values are the spec's, and for
every statement with hypotheses a state and operands that meet them. -/

namespace Sys2Proof.Tests

open Sys2Proof Sys2Proof.Machine

/-- The state after a command. -/
def after (c : Instr) (s : State) : State := match exec c s with
  | .next t => t
  | .fault _ => s
  | .refused _ => s

/-- A state with an engineer in session 0. -/
def engineer : State := { hif := { sessions := (List.replicate 8 none).set 0 (some { role := 3, helloDone := true }) } }

/-- A module whose pair mode is PAIR, on side A, in a role. -/
def paired (role : Nat) : State := { wvl := { side := 0, role := role }, cfg := { cur := { pair := { mode := 1 } } } }

/-! ### Well-formed commands -/

theorem test_wellformed : (Instr.periodStrobe {} {}).wf = true ∧ (Instr.read {} 0 [0xF0028]).wf = true
    ∧ (Instr.replyReceived {} 0 { inCount := 1, inputs := [{}] }).wf = true := by decide

theorem test_illformed_time : (Instr.memClearDone { t := 2 ^ 48 * 1000000000 * 65536 }).wf = false := by decide
theorem test_illformed_sync : (Instr.syncReceived {} { port := 0, seqId := 65536 }).wf = false := by decide
theorem test_illformed_announce : (Instr.ptpAnnounceReceived {} 0 { clockClass := 256 }).wf = false := by decide
theorem test_illformed_irig : (Instr.irigbFrame {} { day := 0 }).wf = false := by decide
theorem test_illformed_pdelay : (Instr.pdelayRespReceived {} { port := 0, corr := 2 ^ 63 }).wf = false := by decide
theorem test_illformed_reply : (Instr.replyReceived {} 0 { inCount := 1 }).wf = false := by decide
theorem test_illformed_reply_input : (Instr.replyReceived {} 0 { inCount := 1, inputs := [{ value := 2 ^ 32 }] }).wf = false := by decide
theorem test_illformed_hello_frame : (Instr.helloReceived {} 0 { reason := 65536 }).wf = false := by decide
theorem test_illformed_surge : (Instr.surgeFragmentReceived {} 0 { samples := [32768] }).wf = false := by decide
theorem test_illformed_sv : (Instr.svFrameReceived {} 0 { smpSynch := 256 }).wf = false := by decide
theorem test_illformed_asdu : (Instr.svFrameReceived {} 0 { asdus := [{ values := [(2147483648, 0)] }] }).wf = false := by decide
theorem test_illformed_c37 : (Instr.c37TxOff {} { idcode := 65536 }).wf = false := by decide
theorem test_illformed_lane : (Instr.triadTransaction {} 0 {} {} {}).wf = false := by decide
theorem test_illformed_transaction : (Instr.masterTransaction {} { size := 0 }).wf = false := by decide
theorem test_illformed_link : (Instr.activationPeriodReceived {} { side := 256 } 0).wf = false := by decide
theorem test_illformed_heartbeat : (Instr.heartbeatReceived {} {}).wf = false := by decide
theorem test_illformed_copy : (Instr.copyReceived {} {} { lines := [(0, [])] }).wf = false := by decide
theorem test_illformed_reseed : (Instr.reseedReceived {} {} (.done 0 [2 ^ 32] 0 0 [])).wf = false := by decide
theorem test_illformed_handshake : (Instr.tlsHandshake {} 0 { certs := [[0]] }).wf = false := by decide
theorem test_illformed_rows : (Instr.archiveReadRows {} 0 { req := { segment := 256 } }).wf = false := by decide
theorem test_illformed_block : (Instr.bitstreamLoadBlock {} 0 (2 ^ 32) []).wf = false := by decide
theorem test_illformed_read : (Instr.read {} 0 [2 ^ 32]).wf = false := by decide
theorem test_illformed_write : (Instr.write {} 0 [(2 ^ 32, 0)]).wf = false := by decide
theorem test_illformed_cartridge : (Instr.keeperInsert {} { ident := 2 ^ 128 }).wf = false := by decide
theorem test_illformed_measured : (Instr.periodStrobe {} { spent := [(64, 0)] }).wf = false := by decide
theorem test_illformed_feed : (Instr.powerApplied {} (2 ^ 32) 0 0 false true).wf = false := by decide
theorem test_illformed_freeze : (Instr.archiveFreeze {} 0 65536 0 0 {}).wf = false := by decide
theorem test_illformed_stamp : (Instr.ppsEdge {} (2 ^ 48 * 1000000000 * 65536) 0).wf = false := by decide
theorem test_illformed_fraction : (Instr.ppsEdge {} 1 0).wf = false := by decide
theorem test_illformed_request : (Instr.hello { tag := 2 ^ 32 } 0 1).wf = false := by decide
theorem test_illformed_tag : (Instr.forceSet {} 0 (2 ^ 32) 0).wf = false := by decide
theorem test_illformed_trim : (Instr.trimZero {} 0 0 (2 ^ 31)).wf = false := by decide
theorem test_illformed_bank : (Instr.bankTestComplete {} 65536 800).wf = false := by decide
theorem test_illformed_copy_line : (Instr.retireCopyComplete {} [(1024, .none)]).wf = false := by decide
theorem test_illformed_island : (Instr.strobeLoss {} 256).wf = false := by decide

/-! ### The queue -/

/-- The front command runs, the rest waits; an empty queue idles. -/
theorem test_step_takes_front : (match step { pending := [.wardDrainComplete {} 0, .memClearDone {}] } with
    | .next t => t.pending
    | _ => []) = [.memClearDone {}] := by decide

/-! ### One step of each family -/

/-- R66: the period count is TAI seconds × 8,000 + the period index, of 125 µs each. -/
theorem test_period_of_a_second : firstPeriodAt (1000000000 * 65536) = 8000 ∧ firstPeriodAt (1000125000 * 65536) = 8001 := by decide

/-- R70: the holdover limit leads to EXPIRED (4). -/
theorem test_holdover_expires :
    (after (.holdoverLimit { a := 3600000000000 }) { tmb := { state := 3, holdSince := some 0, holdLimit := 3600 } }).tmb.state = 4 := by decide

/-- R391: with the latch open the end of P5 leads nowhere. -/
theorem test_latch_holds_p5 :
    (after (.acqTimeout { a := 30000000000 }) { gen := { phase := 5, latchOpen := true } }).gen.phase = 5 := by decide

/-- R251: a bank at 79.9 % of its rated capacitance is at fault. -/
theorem test_bank_at_limit : (after (.bankTestComplete {} 799 800) { ptm := { bankTesting := true } }).ptm.bankFault = true := by decide

/-- R289: the scrubber walks past `SPARE_UNIT`. -/
theorem test_scrub_passes_spare :
    (after (.scrubFloor {} .none) { mem := { mapApplied := true, scrubPos := 1048575 }, cfg := { cur := { memmap := { spareUnit := 1 } } } }).mem.scrubPos
      = 2097152 := by decide

/-- R294: before the map is applied a retirement is refused with NO_MAP (4). -/
theorem test_retire_no_map : (after (.retire {} .firmware) {}).mem.resultFw = 4 := by decide

/-- R306: a drain acknowledges the epoch. -/
theorem test_ward_drain :
    ((after (.wardDrainComplete {} 8) { wrd := { wards := List.replicate 9 { epoch := 7, ack := 6 } } }).wrd.wards.getD 8 {}).ack = 7 := by decide

/-- R299: until P4 ends a ward refuses every identity but 0 and 16; the master gets an error response. -/
theorem test_boot_ward_refuses :
    (after (.masterTransaction {} { ident := 2, addr := 64 }) { trd := { mode := 3 } }).out.head? = some (.resp 2 false []) := by decide

/-- R312: a removed keeper before P4 has ended returns the start to P3 with cause ABSENT (1). -/
theorem test_keeper_removed_in_p4 :
    let t := after (.keeperRemove {}) { gen := { phase := 4 }, kpr := { boltOpen := true, cartridge := some {} } }
    t.gen.phase = 3 ∧ t.kpr.refuse = 1 := by decide

/-- R332: a requested code below 0x8000 is refused with 3. -/
theorem test_record_code_refused : (after (.lgrReq {} .firmware) { lgr := { reqCode := 0x7FFF } }).lgr.reqResult = 3 := by decide

/-- R336: a threshold of 0 is out of range. -/
theorem test_fcr_cfg_zero_ignored :
    ((after (.fcrCfgWrite {} .firmware 0x000003E8) { fcr := { selFw := 8, sources := List.replicate 48 { n := 3, wms := 7 } } }).source 8).n = 3 := by decide

/-- R259: the second missed heartbeat in a row loses the partner. -/
theorem test_two_misses_lose_partner :
    (after (.heartbeatMiss {}) { paired 3 with wvl := { role := 3, hbPrev := false, missRun := 1, partner := { everSeen := true, present := true } } }).wvl.partner.present
      = false := by decide

/-- R354: HELLO of another version is answered FORMAT (1) and closes the session. -/
theorem test_hello_version :
    let t := after (.hello {} 0 2) engineer
    t.out = [.shpClosed 0, shpOut {} 1 0 1 0 []] ∧ t.hif.sessions.getD 0 none = none := by decide

/-- R354: a reserved type is answered TYPE (2). -/
theorem test_reserved_type : (after (.shpReservedType {} 0 14) engineer).out = [shpOut {} 14 0 2 0 []] := by decide

/-- R49: a commit without a load is INCOMPLETE (0x1A). -/
theorem test_commit_without_load : (after (.bitstreamCommit {} 0) engineer).bsl.refuse = 0x1A := by decide

/-- R364: a firmware revert is RANGE (9). -/
theorem test_firmware_revert : (after (.firmwareRevert {} 0) engineer).out = [shpOut {} 5 0 9 0 [0, 0, 0]] := by decide

/-- R371: a stamp is truncated to whole microseconds. -/
theorem test_di_stamp :
    ((after (.diChangeAccept { t := 6 * 65536000 } 15 true (5 * 65536000 + 65535999)) { cfg := { cur := { fieldIo := { di := List.replicate 16 (1, 0, 0) } } } }).fio.di.getD 15 {}).stamp
      = 5 * 65536000 := by decide

/-- R380: a trim beyond 2,000 units is RANGE (9). -/
theorem test_trim_bound : (after (.trimZero {} 0 0 2001) { engineer with gen := { unitPresent := 7 } }).out = [shpOut {} 13 0 9 0 []] := by decide

/-- R9: without the AOB a trim is ABSENT (5). -/
theorem test_trim_absent : (after (.trimZero {} 0 0 0) { engineer with gen := { unitPresent := 0 } }).out = [shpOut {} 13 0 5 0 []] := by decide

/-! ### The hypotheses of the statements are met -/

/-- StepTakesTheFrontCommand: a state with an empty queue. -/
theorem witness_empty_queue : State.reset.pending = [] := by decide

/-- EveryStepKeepsTheStateLegal: a legal state, and a step of it that answers a next state. -/
theorem witness_EveryStepKeepsTheStateLegal : ∃ s t : State, s.Legal ∧ step s = .next t :=
  ⟨{}, _, ⟨⟨List.Pairwise.nil, fun c hc => nomatch hc⟩, by decide, by decide, by decide, by decide, by decide⟩, rfl⟩

/-- NoCommandTouchesTheQueue, CommandsTouchOnlyTheirParts: a command that answers, and a step of a queue. -/
theorem witness_NoCommandTouchesTheQueue :
    (∃ (c : Instr) (s t : State), exec c s = .next t) ∧
    (∃ (c : Instr) (rest : List Instr) (s t : State), s.pending = c :: rest ∧ step s = .next t) :=
  ⟨⟨.memClearDone {}, {}, _, rfl⟩, ⟨.memClearDone {}, [], { pending := [.memClearDone {}] }, _, rfl, rfl⟩⟩

/-- CommandsTouchOnlyTheirParts: a command whose footprint leaves main memory out. -/
theorem witness_CommandsTouchOnlyTheirParts : ∃ (c : Instr) (s t : State), exec c s = .next t ∧ Part.memory ∉ c.touches :=
  ⟨.wardDrainComplete {} 8, {}, _, rfl, by decide⟩

/-- MemoryReadsWhatWasWritten: a canonical memory, two addresses, and a write that succeeds. -/
theorem witness_MemoryReadsWhatWasWritten :
    (∃ (m : Memory) (a : Nat), m.wf ∧ m.poisoned.contains (a / 64) = false) ∧ (∃ a b : Nat, b ≠ a) ∧
    (∃ (m m' : Memory) (a : Nat) (bs : List Byte), m.wf ∧ m.write a bs = .ok m') ∧
    (∃ (m m' : Memory) (a b : Nat) (bs : List Byte), m.write a bs = .ok m' ∧ (b < a / 64 * 64 ∨ (a + bs.length + 63) / 64 * 64 ≤ b)) :=
  ⟨⟨({} : Memory).clear, 17179869183, clear_wf {}, by decide⟩, ⟨0, 1, by decide⟩,
    ⟨({} : Memory).clear, _, 17179869183, [5], clear_wf {}, rfl⟩, ⟨({} : Memory).clear, _, 64, 63, [5], rfl, by decide⟩⟩

/-- The hypotheses of PowerAndRestartBeginAtP0 are met. -/
theorem witness_PowerAndRestartBeginAtP0 :
    (∃ (s : State), s.ptm.tripped = []) ∧
    (∃ (s : State), s.gen.powerGood = false ∧ s.ptm.tripped ≠ []) ∧
    (∃ (w : When) (r : RestartReq) (s : State), s.gen.restart = some r ∧ s.gen.powerGood = true ∧ r.atH = false ∧
      s.ptm.powerFail = false ∧ r.due ≤ max s.aon w.a ∧ (refillBucket (s.at w)).flushed r.due = true) ∧
    (∃ (w : When) (r : RestartReq) (s : State), s.gen.restart = some r ∧ s.gen.powerGood = true ∧ (r.atH = true ∨ max s.aon w.a
      < r.due)) :=
  ⟨⟨{ wvl := { role := 2 }, gen := { phase := 7 } }, by decide⟩,
    ⟨{ gen := { powerGood := false }, ptm := { tripped := [0] } }, by decide⟩,
    ⟨{ a := 5 }, { due := 5 }, { gen := { restart := some { due := 5 }, powerGood := true } }, by decide⟩,
    ⟨{}, { due := 5, atH := true }, { gen := { restart := some { due := 5, atH := true }, powerGood := true } }, by decide⟩⟩

/-- The hypotheses of RestartsAreRequested are met. -/
theorem witness_RestartsAreRequested :
    (∃ (w : When) (s : State), (s.primary && s.partnerStandby && decide (s.pair.mode ≠ 0)) = false ∧ (s.at w).grants .firmware
      0x1C = true) ∧
    (∃ (w : When) (s : State), (s.primary && s.partnerStandby && decide (s.pair.mode ≠ 0)) = false ∧ (s.at w).grants .firmware
      0x1C = true) ∧
    (∃ (w : When) (s : State), (s.primary && s.partnerStandby && decide (s.pair.mode ≠ 0)) = true ∧ s.wvl.handover = none ∧
      (s.at w).grants .firmware 0x1C = true) ∧
    (∃ (w : When) (who : Agent) (s : State), fwOrEngineer who s = true ∧ (s.primary && s.partnerStandby && decide (s.pair.mode
      ≠ 0)) = false ∧ (s.at w).grants who 0x1C = true) ∧
    (∃ (w : When) (who : Agent) (s : State), fwOrEngineer who s = true ∧ (s.primary && s.partnerStandby && decide (s.pair.mode
      ≠ 0)) = false ∧ (s.at w).grants who 0x1C = true) ∧
    (∃ (w : When) (who : Agent) (s : State), fwOrEngineer who s = true ∧ (s.primary && s.partnerStandby && decide (s.pair.mode
      ≠ 0)) = true ∧ (s.at w).grants who 0x1C = true) :=
  ⟨⟨{}, {}, by decide⟩,
    ⟨{}, {}, by decide⟩,
    ⟨{}, { wvl := { role := 1, partner := { present := true, role := 3 } }, cfg := { cur := { pair := { mode := 1 } } } }, by decide⟩,
    ⟨{}, .host 7, { wrd := { loaded := false }, hif := { sessions := List.replicate 8 (some { role := 3 }) } }, by decide⟩,
    ⟨{}, .host 7, { wrd := { loaded := false }, hif := { sessions := List.replicate 8 (some { role := 3 }) } }, by decide⟩,
    ⟨{}, .host 7, { wrd := { loaded := false }, hif := { sessions := List.replicate 8 (some { role := 3 }) }, wvl := { role := 1, partner := { present := true, role := 3 } }, cfg := { cur := { pair := { mode := 1 } } } }, by decide⟩⟩

/-- The hypotheses of P1AndP2 are met. -/
theorem witness_P1AndP2 :
    (∃ (n : Nat) (s : State), s.gen.phase = 1 ∧ s.upd.trial = false ∧ slotIn 2 s = none ∧ slotIn 3 s = some n ∧ slotVerifies n
      s = true) ∧
    (∃ (s : State), s.gen.phase = 2 ∧ s.trd.mode = 5 ∧ s.trd.selfDone = false) ∧
    (∃ (s : State), s.gen.phase = 2 ∧ s.trd.mode = 5 ∧ s.trd.selfDone = false) ∧
    (∃ (w : When) (s : State), s.gen.phase = 2 ∧ (s.at w).grants .firmware 0xB0004 = true) ∧
    (∃ (w : When) (s : State), s.gen.phase ≠ 2 ∧ (s.at w).grants .firmware 0xB0004 = true) ∧
    (∃ (s : State), s.gen.phase = 2 ∧ s.mem.clearBusy = true ∧ s.trd.selfPass = true) :=
  ⟨⟨0, { gen := { phase := 1 }, upd := { trial := false, slots := [{ state := 3, factory := true }, {}] } }, by decide⟩,
    ⟨{ gen := { phase := 2 }, trd := { mode := 5, selfDone := false } }, by decide⟩,
    ⟨{ gen := { phase := 2 }, trd := { mode := 5, selfDone := false } }, by decide⟩,
    ⟨{}, { gen := { phase := 2 } }, by decide⟩,
    ⟨{}, { gen := { phase := 3 } }, by decide⟩,
    ⟨{ gen := { phase := 2 }, mem := { clearBusy := true }, trd := { selfPass := true } }, by decide⟩⟩

/-- The hypotheses of P3ToP7 are met. -/
theorem witness_P3ToP7 :
    (∃ (s : State), s.gen.phase = 3 ∧ s.upd.trial = false ∧ s.upd.fellBack = none ∧ s.kpr.state ≠ 0 ∧ p3Cause s = 0) ∧
    (∃ (s : State), s.gen.phase = 3 ∧ s.upd.trial = false ∧ s.upd.fellBack = none ∧ s.kpr.state = 0 ∧ s.kpr.cartridge = none) ∧
    (∃ (k : Nat) (x : GenSlot) (s : State), s.gen.phase = 4 ∧ s.gen.held = false ∧ s.cfg.loaded = false ∧ s.cart.staged = none
      ∧ s.cart.current = some k ∧ s.cart.slots.getD k none = some x) ∧
    (∃ (s : State), s.gen.phase = 4 ∧ s.gen.held = false ∧ s.cfg.loaded = false ∧ s.cart.staged = none ∧ s.cart.current = none) ∧
    (∃ (s : State), s.gen.phase = 6 ∧ s.wvl.role = 0 ∧ (s.wvl.coding = 0 ∨ s.wvl.coding = 3)) ∧
    (∃ (s : State), s.gen.phase = 6 ∧ s.wvl.role = 0 ∧ s.wvl.coding ≠ 0 ∧ s.wvl.coding ≠ 3 ∧ s.pair.mode = 0) ∧
    (∃ (w : When) (s : State), s.gen.phase = 6 ∧ s.wvl.role = 0 ∧ s.wvl.coding ≠ 0 ∧ s.wvl.coding ≠ 3 ∧ s.pair.mode ≠ 0 ∧
      s.wvl.p6Start + aonSec s.pair.negotiateS ≤ max s.aon w.a) :=
  ⟨⟨{ gen := { phase := 3, blvlMin := 0, blvlMax := 9 }, upd := { trial := false, fellBack := none }, wvl := { side := 0 }, kpr := { state := 2, cartridge := some {} } }, by decide⟩,
    ⟨{ gen := { phase := 3 }, upd := { trial := false, fellBack := none }, kpr := { state := 0, cartridge := none } }, by decide⟩,
    ⟨1, {}, { gen := { phase := 4 }, kpr := { state := 2, cartridge := some { current := some 1, slots := [none, some {}] } } }, by decide⟩,
    ⟨{ gen := { phase := 4, held := false }, cfg := { loaded := false }, kpr := { cartridge := none } }, by decide⟩,
    ⟨{ gen := { phase := 6 }, wvl := { coding := 3, role := 0 } }, by decide⟩,
    ⟨{ gen := { phase := 6 }, wvl := { coding := 1, role := 0 }, cfg := { next := none, cur := { pair := { mode := 0 } } } }, by decide⟩,
    ⟨{ a := 30000000000 }, { gen := { phase := 6 }, wvl := { coding := 1, role := 0, p6Start := 0 }, cfg := { next := none, cur := { pair := { mode := 1, negotiateS := 30 } } } }, by decide⟩⟩

/-- The hypotheses of AnOffsetSampleInLocked are met. -/
theorem witness_AnOffsetSampleInLocked :
    (∃ (f : SyncFrame) (s : State), s.slaveCapable f.port.val = true ∧ s.ptpHears f.port.val = true ∧ f.domain = s.ptp.domain ∧
      s.selectedPort f.port.val = true ∧ f.twoStep = false ∧ s.tmb.state = 2 ∧ (syncOffset s f.port.val f.t1 (s.syncArrival
      f.port.val f.t2) f.corr).natAbs ≤ usTicks 1) ∧
    (∃ (f : SyncFrame) (s : State), s.slaveCapable f.port.val = true ∧ s.ptpHears f.port.val = true ∧ f.domain = s.ptp.domain ∧
      s.selectedPort f.port.val = true ∧ f.twoStep = false ∧ s.tmb.state = 2 ∧ usTicks 1 < (syncOffset s f.port.val f.t1
      (s.syncArrival f.port.val f.t2) f.corr).natAbs ∧ s.tmb.outlierRun < 3) ∧
    (∃ (f : SyncFrame) (s : State), s.slaveCapable f.port.val = true ∧ s.ptpHears f.port.val = true ∧ f.domain = s.ptp.domain ∧
      s.selectedPort f.port.val = true ∧ f.twoStep = false ∧ s.tmb.state = 2 ∧ usTicks 1 < (syncOffset s f.port.val f.t1
      (s.syncArrival f.port.val f.t2) f.corr).natAbs ∧ 3 ≤ s.tmb.outlierRun) ∧
    (∃ (f : SyncFrame) (s : State), s.slaveCapable f.port.val = true ∧ s.ptpHears f.port.val = true ∧ f.domain = s.ptp.domain ∧
      s.selectedPort f.port.val = true ∧ f.twoStep = true) ∧
    (∃ (f : SyncFrame) (s : State), (s.slaveCapable f.port.val = false ∨ f.domain ≠ s.ptp.domain) ∧ s.ptpHears f.port.val =
      true ∧ f.port.val < 64) ∧
    (∃ (f : SyncFrame) (s : State), (s.slaveCapable f.port.val = false ∨ f.domain ≠ s.ptp.domain) ∧ s.ptpHears f.port.val =
      true ∧ 64 ≤ f.port.val) ∧
    (∃ (f : SyncFrame) (s : State), s.ptpHears f.port.val = false) :=
  ⟨⟨{ port := 3, t1 := 0, t2 := 65536000, corr := 0 }, { tmb := { state := 2, usedKind := 1, usedPort := 3, meanDelay := List.replicate 66 0 }, cfg := { next := none, cur := { ptp := { slaveA := 3 }, asym := [] } } }, by decide⟩,
    ⟨{ port := 3, t1 := 0, t2 := 65536001, corr := 0 }, { tmb := { state := 2, usedKind := 1, usedPort := 3, outlierRun := 2, meanDelay := List.replicate 66 0 }, cfg := { next := none, cur := { ptp := { slaveA := 3 }, asym := [] } } }, by decide⟩,
    ⟨{ port := 3, t1 := 0, t2 := 65536001, corr := 0 }, { tmb := { state := 2, usedKind := 1, usedPort := 3, outlierRun := 3, meanDelay := List.replicate 66 0 }, cfg := { next := none, cur := { ptp := { slaveA := 3 }, asym := [] } } }, by decide⟩,
    ⟨{ port := 3, twoStep := true }, { tmb := { usedKind := 1, usedPort := 3 }, cfg := { cur := { ptp := { slaveA := 3 } } } }, by decide⟩,
    ⟨{ port := 63 }, {}, by decide⟩,
    ⟨{ port := 64 }, { cfg := { cur := { ptp := { hostSlave := 0 } } } }, by decide⟩,
    ⟨{ port := 0 }, { prt := { ports := [{ fenced := true }] } }, by decide⟩⟩

/-- The hypotheses of TheFirstSampleSetsTime are met. -/
theorem witness_TheFirstSampleSetsTime :
    (∃ (f : SyncFrame) (s : State), s.slaveCapable f.port.val = true ∧ s.ptpHears f.port.val = true ∧ f.domain = s.ptp.domain ∧
      s.selectedPort f.port.val = true ∧ f.twoStep = false ∧ s.tmb.state = 0 ∧ s.tmb.implausible = false ∧ s.gen.phase = 5) ∧
    (∃ (f : SyncFrame) (s : State), s.slaveCapable f.port.val = true ∧ s.ptpHears f.port.val = true ∧ f.domain = s.ptp.domain ∧
      s.selectedPort f.port.val = true ∧ f.twoStep = false ∧ s.tmb.state = 0 ∧ s.tmb.implausible = false ∧ s.gen.phase ≠ 5 ∧
      (syncOffset s f.port.val f.t1 (s.syncArrival f.port.val f.t2) f.corr).natAbs ≤ msTicks 1) ∧
    (∃ (f : SyncFrame) (s : State), s.slaveCapable f.port.val = true ∧ s.ptpHears f.port.val = true ∧ f.domain = s.ptp.domain ∧
      s.selectedPort f.port.val = true ∧ f.twoStep = false ∧ s.tmb.state = 0 ∧ s.tmb.implausible = false ∧ s.gen.phase ≠ 5 ∧
      msTicks 1 < (syncOffset s f.port.val f.t1 (s.syncArrival f.port.val f.t2) f.corr).natAbs) ∧
    (∃ (w : When) (who : Agent) (s : State), fwOrEngineer who s = true ∧ s.tmb.implausible = true ∧ (s.at w).grants who 0x10000
      = true) ∧
    (∃ (w : When) (who : Agent) (s : State), (fwOrEngineer who s = false ∨ s.tmb.implausible = false) ∧ (s.at w).grants who
      0x10000 = true) :=
  ⟨⟨{ port := 3 }, { gen := { phase := 5 }, tmb := { state := 0, implausible := false, usedKind := 1, usedPort := 3 }, cfg := { cur := { ptp := { slaveA := 3 } } } }, by decide⟩,
    ⟨{ port := 3, t1 := 0, t2 := 65536000000 }, { gen := { phase := 7 }, tmb := { state := 0, implausible := false, usedKind := 1, usedPort := 3, meanDelay := List.replicate 66 0 }, cfg := { next := none, cur := { ptp := { slaveA := 3 }, asym := [] } } }, by decide⟩,
    ⟨{ port := 3, t1 := 0, t2 := 65536000001 }, { gen := { phase := 7 }, tmb := { state := 0, implausible := false, usedKind := 1, usedPort := 3, meanDelay := List.replicate 66 0 }, cfg := { next := none, cur := { ptp := { slaveA := 3 }, asym := [] } } }, by decide⟩,
    ⟨{}, .firmware, { tmb := { implausible := true, badOffset := 70 } }, by decide⟩,
    ⟨{}, .firmware, {}, by decide⟩⟩

/-- The hypotheses of FollowUpsAndPathDelays are met. -/
theorem witness_FollowUpsAndPathDelays :
    (∃ (f : SyncFrame) (y : SyncFrame) (s : State), s.slaveCapable f.port.val = true ∧ s.ptpHears f.port.val = true ∧ f.domain
      = s.ptp.domain ∧ s.tmb.twoStep = some y ∧ y.port = f.port ∧ y.seqId = f.seqId ∧ s.selectedPort f.port.val = true ∧
      s.tmb.state = 2 ∧ (syncOffset s f.port.val f.t1 s.tmb.twoStepRx (y.corr + f.corr)).natAbs ≤ usTicks 1) ∧
    (∃ (f : SyncFrame) (s : State), s.slaveCapable f.port.val = true ∧ s.ptpHears f.port.val = true ∧ f.domain = s.ptp.domain ∧
      s.tmb.twoStep = none) ∧
    (∃ (f : SyncFrame) (r : PdelayResp) (t1 : Nat) (s : State), s.slaveCapable f.port.val = true ∧ s.ptpHears f.port.val = true
      ∧ f.domain = s.ptp.domain ∧ s.tmb.pdelayResp.getD f.port.val none = some r ∧ s.tmb.pdelayT1.getD f.port.val none = some
      t1) ∧
    (∃ (f : PdelayResp) (t1 : Nat) (s : State), s.ptpRole f.port.val = true ∧ s.ptpHears f.port.val = true ∧ f.domain =
      s.ptp.domain ∧ s.tmb.pdelayT1.getD f.port.val none = some t1 ∧ f.twoStep = false) ∧
    (∃ (f : PdelayResp) (t1 : Nat) (s : State), s.slaveCapable f.port.val = true ∧ s.ptpHears f.port.val = true ∧ f.domain =
      s.ptp.domain ∧ s.tmb.pdelayT1.getD f.port.val none = some t1 ∧ f.twoStep = true) ∧
    (∃ (f : PdelayResp) (s : State), s.ptpRole f.port.val = true ∧ s.ptpHears f.port.val = true ∧ f.domain = s.ptp.domain ∧
      s.tmb.pdelayT1.getD f.port.val none = none) ∧
    (∃ (port : Fin 66) (d : Nat) (rx : Nat) (tx : Nat) (s : State), s.ptpRole port.val = true ∧ s.ptpHears port.val = true ∧ d
      = s.ptp.domain ∧ s.ptpSends port.val = true ∧ port.val < 64 ∧ s.respDue port.val = false ∧ s.straddles rx tx = false ∧
      s.portRoom port.val (ptpWire s port.val 54) = true ∧ (s.port port.val).before true = false) ∧
    (∃ (port : Fin 66) (d : Nat) (s : State), s.ptpRole port.val = true ∧ s.ptpHears port.val = true ∧ d = s.ptp.domain ∧
      s.ptpSends port.val = true ∧ port.val < 64 ∧ port.val < s.prt.ports.length ∧ s.respDue port.val = false ∧ (s.portRoom
      port.val (ptpWire s port.val 54) = false ∨ (s.port port.val).before true = true)) ∧
    (∃ (port : Fin 66) (d : Nat) (s : State), s.ptpRole port.val = true ∧ s.ptpHears port.val = true ∧ d = s.ptp.domain ∧
      s.ptpSends port.val = true ∧ port.val < 64 ∧ s.respDue port.val = true) ∧
    (∃ (port : Fin 66) (d : Nat) (rx : Nat) (tx : Nat) (s : State), s.ptpRole port.val = true ∧ d = s.ptp.domain ∧ s.ptpSends
      port.val = true ∧ 64 ≤ port.val ∧ s.straddles rx tx = false) ∧
    (∃ (port : Fin 66) (d : Nat) (rx : Nat) (tx : Nat) (s : State), s.ptpRole port.val = true ∧ s.ptpHears port.val = true ∧ d
      = s.ptp.domain ∧ 64 ≤ port.val ∧ s.straddles rx tx = true) ∧
    (∃ (port : Fin 66) (s : State), s.ptpRole port.val = true ∧ s.ptpSends port.val = true ∧ port.val < 64 ∧ (s.port
      port.val).reqSent = false ∧ s.portRoom port.val (ptpWire s port.val 54) = true ∧ (s.port port.val).before true = false) ∧
    (∃ (port : Fin 66) (s : State), s.ptpRole port.val = true ∧ s.ptpSends port.val = true ∧ port.val < 64 ∧ port.val <
      s.prt.ports.length ∧ (s.port port.val).reqSent = false ∧ (s.portRoom port.val (ptpWire s port.val 54) = false ∨ (s.port
      port.val).before true = true)) ∧
    (∃ (port : Fin 66) (s : State), s.ptpRole port.val = true ∧ s.ptpSends port.val = true ∧ 64 ≤ port.val) ∧
    (∃ (port : Fin 66) (s : State), (s.ptpRole port.val = false ∨ s.ptpSends port.val = false ∨ (port.val < 64 ∧ (s.port
      port.val).reqSent = true))) ∧
    (∃ (port : Fin 66) (s : State), port.val < 64 ∧ s.ptpHears port.val = true) ∧
    (∃ (port : Fin 66), 64 ≤ port.val) :=
  ⟨⟨{ port := 3, seqId := 9, corr := -6 }, { port := 3, seqId := 9, corr := 5 }, { tmb := { state := 2, usedKind := 1, usedPort := 3, meanDelay := List.replicate 66 0, twoStep := some { port := 3, seqId := 9, corr := 5 } }, cfg := { next := none, cur := { ptp := { slaveA := 3 }, asym := [] } } }, by decide⟩,
    ⟨{ port := 3 }, { tmb := { twoStep := none }, cfg := { cur := { ptp := { slaveA := 3 } } } }, by decide⟩,
    ⟨{ port := 0 }, { port := 0, t4 := 100 }, 20, { tmb := { pdelayResp := [some { port := 0, t4 := 100 }], pdelayT1 := [some 20] }, cfg := { cur := { ptp := { slaveA := 0 } } } }, by decide⟩,
    ⟨{ port := 0, t4 := 100 }, 20, { tmb := { pdelayT1 := [some 20] }, cfg := { cur := { ptp := { slaveA := 0 } } } }, by decide⟩,
    ⟨{ port := 0, t4 := 100, twoStep := true }, 20, { tmb := { pdelayT1 := [some 20] }, cfg := { cur := { ptp := { slaveA := 0 } } } }, by decide⟩,
    ⟨{ port := 0 }, { tmb := { pdelayT1 := [none] }, cfg := { cur := { ptp := { slaveA := 0 } } } }, by decide⟩,
    ⟨0, 0, 0, 0, { bgt := { booting := false }, wvl := { role := 1 }, prt := { ports := [{ link := true, laserOff := false, fenced := false, highPower := false, respSent := false, exhausted := false }] }, cfg := { cur := { ptp := { slaveA := 0 }, ports := { ports := [{ mode := 1 }] }, budgets := { ports := [2000] } } } }, by decide⟩,
    ⟨0, 0, { bgt := { booting := false }, wvl := { role := 1 }, prt := { ports := [{ link := true, laserOff := false, fenced := false, highPower := false, respSent := false, exhausted := true }] }, cfg := { cur := { ptp := { slaveA := 0 }, ports := { ports := [{ mode := 1 }] }, budgets := { ports := [2000] } } } }, by decide⟩,
    ⟨0, 0, { wvl := { role := 1 }, prt := { ports := [{ link := true, laserOff := false, fenced := false, highPower := false, respSent := true }] }, cfg := { cur := { ptp := { slaveA := 0 }, ports := { ports := [{ mode := 1 }] } } } }, by decide⟩,
    ⟨64, 0, 0, 0, { gen := { phase := 3 }, hif := { links := [true] }, cfg := { cur := { ptp := { hostSlave := 1 } } } }, by decide⟩,
    ⟨64, 0, 4, 5, { gen := { phase := 3 }, hif := { links := [true] }, tmb := { asymAt := some 5 }, cfg := { cur := { ptp := { hostSlave := 1 } } } }, by decide⟩,
    ⟨0, { bgt := { booting := false }, wvl := { role := 1 }, prt := { ports := [{ link := true, laserOff := false, fenced := false, highPower := false, reqSent := false, exhausted := false }] }, cfg := { cur := { ptp := { slaveA := 0 }, ports := { ports := [{ mode := 1 }] }, budgets := { ports := [2000] } } } }, by decide⟩,
    ⟨0, { bgt := { booting := false }, wvl := { role := 1 }, prt := { ports := [{ link := true, laserOff := false, fenced := false, highPower := false, reqSent := false, exhausted := true }] }, cfg := { cur := { ptp := { slaveA := 0 }, ports := { ports := [{ mode := 1 }] }, budgets := { ports := [2000] } } } }, by decide⟩,
    ⟨64, { gen := { phase := 3 }, hif := { links := [true] }, cfg := { cur := { ptp := { hostSlave := 1 } } } }, by decide⟩,
    ⟨65, {}, by decide⟩,
    ⟨63, {}, by decide⟩,
    ⟨64, by decide⟩⟩

/-- The hypotheses of PinSourcesAndAnnounces are met. -/
theorem witness_PinSourcesAndAnnounces :
    (∃ (w : When) (stamp : Nat) (a : Nat) (p : Nat) (s : State), s.tmb.lastPps = some p ∧ s.tmb.ppsSeen = some a ∧ max s.aon
      w.a < a + aonSec 3 ∧ usTicks 10 < ((stamp : Int) - p - ticksPerSec).natAbs) ∧
    (∃ (w : When) (stamp : Nat) (a : Nat) (p : Nat) (s : State), s.tmb.lastPps = some p ∧ s.tmb.ppsSeen = some a ∧ ((stamp :
      Int) - p - ticksPerSec).natAbs ≤ usTicks 10 ∧ (s.at w).label = none) ∧
    (∃ (w : When) (stamp : Nat) (a : Nat) (p : Nat) (onTime : Nat) (label : Nat) (s : State), s.tmb.lastPps = some p ∧
      s.tmb.ppsSeen = some a ∧ ((stamp : Int) - p - ticksPerSec).natAbs ≤ usTicks 10 ∧ (s.at w).label = some (onTime, label) ∧
      (ppsLabel stamp onTime label).1.natAbs ≤ usTicks 1 ∧ s.tmb.usedKind = 3 ∧ s.tmb.state = 2 ∧ ((stamp : Int) - (ppsLabel
      stamp onTime label).2 * ticksPerSec).natAbs ≤ usTicks 1) ∧
    (∃ (f : IrigFrame), 3 < f.quality) ∧
    (∃ (f : IrigFrame) (s : State), f.quality ≤ 3 ∧ s.tmb.usedKind ≠ 2 ∧ s.tmb.usedKind ≠ 3) ∧
    (∃ (w : When) (f : IrigFrame) (s : State), f.quality ≤ 3 ∧ s.tmb.usedKind = 2 ∧ s.tmb.state = 2 ∧ ((f.onTime : Int) -
      irigLabelAt f s.irigOffset (s.at w).yearRef * ticksPerSec).natAbs ≤ usTicks 1) ∧
    (∃ (w : When) (port : Fin 66) (f : Announce) (x : SourceSeen) (s : State), s.slaveCapable port.val = true ∧ s.ptpHears
      port.val = true ∧ f.domain = s.ptp.domain ∧ s.tmb.usedKind ≠ 1 ∧ s.seen 1 port.val = some x ∧ 0 < x.lastAnnounce ∧ max
      s.aon w.a < x.lastAnnounce + aonSec 3 ∧ x.announce.sender = f.sender ∧ f.stepsRemoved < 255 ∧ x.qualifiedSince = none) ∧
    (∃ (w : When) (port : Fin 66) (f : Announce) (x : SourceSeen) (s : State), s.slaveCapable port.val = true ∧ s.ptpHears
      port.val = true ∧ f.domain = s.ptp.domain ∧ s.tmb.usedKind = 1 ∧ s.tmb.usedPort = port.val ∧ s.tmb.sources = [x] ∧ x.kind
      = 1 ∧ x.port = port.val ∧ 0 < x.lastAnnounce ∧ max s.aon w.a < x.lastAnnounce + aonSec 3 ∧ x.announce.sender = f.sender ∧
      f.stepsRemoved < 255) ∧
    (∃ (port : Fin 66) (f : Announce) (s : State), port.val < 64 ∧ (s.slaveCapable port.val = false ∨ f.domain ≠ s.ptp.domain)
      ∧ s.ptpHears port.val = true) ∧
    (∃ (w : When) (s : State), s.tmb.leapAdd = true ∧ s.tmb.leapAt ≤ max s.now w.t) ∧
    (∃ (w : When) (s : State), s.tmb.leapAdd = false ∧ s.tmb.leapDel = true ∧ s.tmb.leapAt ≤ max s.now w.t) ∧
    (∃ (port : Fin 66) (f : Announce) (s : State), s.slaveCapable port.val = true ∧ s.ptpHears port.val = true ∧ f.domain =
      s.ptp.domain ∧ 255 ≤ f.stepsRemoved) :=
  ⟨⟨{}, 65536655360001, 5, 0, { aon := 5, tmb := { lastPps := some 0, ppsSeen := some 5 } }, by decide⟩,
    ⟨{}, 65536655360000, 5, 0, { tmb := { lastPps := some 0, ppsSeen := some 5, irigLabel := none } }, by decide⟩,
    ⟨{}, 65536000000000, 5, 0, 65536000000000, 1, { tmb := { state := 2, usedKind := 3, lastPps := some 0, ppsSeen := some 5, irigSeen := some 5, irigLabel := some (65536000000000, 1) } }, by decide⟩,
    ⟨{ quality := 4 }, by decide⟩,
    ⟨{ quality := 3 }, { tmb := { usedKind := 1 } }, by decide⟩,
    ⟨{}, { onTime := 65536000000000 * (irigLabelAt {} 0 (65536000000000 * 1000000000)).toNat, quality := 3 }, { now := 65536000000000 * 1000000000, tmb := { usedKind := 2, state := 2 } }, by decide⟩,
    ⟨{}, 0, {}, { kind := 1, port := 0, lastAnnounce := 1 }, { aon := 2, tmb := { usedKind := 0, sources := [{ kind := 1, port := 0, lastAnnounce := 1 }] }, cfg := { cur := { ptp := { slaveA := 0 } } } }, by decide⟩,
    ⟨{}, 0, { utcOffset := 37 }, { kind := 1, port := 0, lastAnnounce := 1 }, { aon := 2, tmb := { usedKind := 1, usedPort := 0, sources := [{ kind := 1, port := 0, lastAnnounce := 1 }] }, cfg := { cur := { ptp := { slaveA := 0 } } } }, by decide⟩,
    ⟨63, {}, {}, by decide⟩,
    ⟨{}, { now := 7, tmb := { leapAdd := true, leapAt := 7 } }, by decide⟩,
    ⟨{}, { now := 7, tmb := { leapAdd := false, leapDel := true, leapAt := 7 } }, by decide⟩,
    ⟨0, { stepsRemoved := 255 }, { cfg := { cur := { ptp := { slaveA := 0 } } } }, by decide⟩⟩

/-- The hypotheses of SourcesTimeOutAndReturn are met. -/
theorem witness_SourcesTimeOutAndReturn :
    (∃ (w : When) (x : SourceSeen) (s : State), s.tmb.sources = [x] ∧ x.kind = s.tmb.usedKind ∧ x.port = s.tmb.usedPort ∧
      (s.tmb.usedKind = 1 ∨ s.tmb.usedKind = 2) ∧ x.lastSync + aonSec 3 ≤ max s.aon w.a ∧ x.lastAnnounce + aonSec 3 ≤ max s.aon
      w.a ∧ s.tmb.state = 2) ∧
    (∃ (s : State), s.tmb.usedKind = 0 ∧ (s.tmb.state ≠ 2 ∨ s.tmb.lostAt = none)) ∧
    (∃ (w : When) (q : Nat) (s : State), s.tmb.usedKind = 0 ∧ s.tmb.state = 2 ∧ s.tmb.lostAt = some q ∧ q + aonSec 3 ≤ max
      s.aon w.a) ∧
    (∃ (w : When) (kind : Fin 4) (port : Fin 66) (x : SourceSeen) (r : Nat) (q : Nat) (s : State), s.seen kind.val (if kind.val
      = 1 then port.val else 0x7F) = some x ∧ s.sourceRank kind.val = some r ∧ x.qualifiedSince = some q ∧ x.alive (max s.aon
      w.a) = true ∧ kind.val ≠ 0 ∧ s.tmb.usedKind = 0) ∧
    (∃ (w : When) (s : State), s.gen.phase = 5 ∧ s.gen.latchOpen = false ∧ s.tmb.acqChecked = false ∧ s.tmb.state ≠ 2 ∧
      s.tmb.p5Start + aonSec 30 ≤ max s.aon w.a) ∧
    (∃ (w : When) (h : Nat) (s : State), s.tmb.state = 3 ∧ s.tmb.holdSince = some h ∧ h + aonSec s.tmb.holdLimit ≤ max s.aon
      w.a) :=
  ⟨⟨{ a := 3000000000 }, { kind := 1, port := 5 }, { aon := 3000000000, tmb := { state := 2, usedKind := 1, usedPort := 5, sources := [{ kind := 1, port := 5 }] } }, by decide⟩,
    ⟨{ tmb := { usedKind := 0 } }, by decide⟩,
    ⟨{ a := 3000000000 }, 0, { tmb := { state := 2, usedKind := 0, lostAt := some 0 } }, by decide⟩,
    ⟨{}, 1, 5, { kind := 1, port := 5, lastAnnounce := 4, lastSync := 4, qualifiedSince := some 4 }, 1, 4, { aon := 5, tmb := { usedKind := 0, sources := [{ kind := 1, port := 5, lastAnnounce := 4, lastSync := 4, qualifiedSince := some 4 }] }, cfg := { cur := { ptp := { sources := [2, 1] } } } }, by decide⟩,
    ⟨{ a := 30000000000 }, { gen := { phase := 5, latchOpen := false }, tmb := { state := 0, acqChecked := false, p5Start := 0 } }, by decide⟩,
    ⟨{ a := 3600000000000 }, 0, { tmb := { state := 3, holdSince := some 0, holdLimit := 3600 } }, by decide⟩⟩

/-- The hypotheses of TimeBaseRegisters are met. -/
theorem witness_TimeBaseRegisters :
    (∃ (w : When) (s : State), (s.at w).grants .firmware 0x10000 = true) ∧
    (∃ (w : When) (i : Fin 8) (s : State), 2 ≤ s.sesRole i ∧ (s.at w).grants (.host i) 0x10000 = true) ∧
    (∃ (w : When) (v : Word) (s : State), -25600000 ≤ v.toInt ∧ v.toInt ≤ 25600000 ∧ (s.at w).grants .firmware 0x10030 = true) ∧
    (∃ (w : When) (v : Word) (s : State), 25600000 < v.toInt ∧ (s.at w).grants .firmware 0x10030 = true) ∧
    (∃ (w : When) (v : Word) (s : State), s.tmb.state ≠ 2 ∧ v.toInt.natAbs ≤ 655360000 ∧ (s.at w).grants .firmware 0x10034 =
      true) ∧
    (∃ (w : When) (v : Word) (s : State), (s.tmb.state = 2 ∨ 655360000 < v.toInt.natAbs) ∧ (s.at w).grants .firmware 0x10034 =
      true) ∧
    (∃ (w : When) (v : Word) (kind : Nat) (port : Nat) (s : State), kind = bitsOf v.toNat 3 0 ∧ port = bitsOf v.toNat 22 16 ∧
      port ≤ 65 ∧ (kind = 1 ∨ kind = 2 ∨ kind = 3) ∧ s.slaveCapable port = true ∧ (s.sourceRank kind).isSome = true ∧
      s.tmb.usedKind ≠ kind ∧ (s.at w).grants .firmware 0x10008 = true) ∧
    (∃ (w : When) (v : Word) (s : State), bitsOf v.toNat 22 16 ≤ 65 ∧ bitsOf v.toNat 3 0 ≤ 3 ∧ s.slaveCapable (bitsOf v.toNat
      22 16) = false ∧ (s.at w).grants .firmware 0x10008 = true) ∧
    (∃ (w : When) (who : Agent) (s : State), isFw who = false ∧ (s.at w).grants who 0x10008 = true) :=
  ⟨⟨{}, {}, by decide⟩,
    ⟨{}, 0, { hif := { sessions := [some { role := 2 }] } }, by decide⟩,
    ⟨{}, 25600000#32, {}, by decide⟩,
    ⟨{}, 25600001#32, {}, by decide⟩,
    ⟨{}, 655360000#32, { tmb := { state := 1 } }, by decide⟩,
    ⟨{}, 655360001#32, { tmb := { state := 1 } }, by decide⟩,
    ⟨{}, 0x50001#32, 1, 5, { tmb := { usedKind := 0 }, cfg := { cur := { ptp := { slaveA := 5, sources := [1] } } } }, by decide⟩,
    ⟨{}, 0x410003#32, {}, by decide⟩,
    ⟨{}, .host 0, { hif := { sessions := [some { role := 2 }] } }, by decide⟩⟩

/-- The hypotheses of PulseGenerators are met. -/
theorem witness_PulseGenerators :
    (∃ (w : When) (g : Fin 12) (s : State), g.val < s.tmb.gens.length ∧ (s.pg g.val).armed = false ∧ max s.now w.t + usTicks 2
      ≤ (s.pg g.val).start ∧ pgConflict g.val (s.pg g.val) s = false ∧ (s.at w).grants .firmware (0x10100 + 0x20 * g.val) =
      true) ∧
    (∃ (w : When) (g : Fin 12) (s : State), g.val < s.tmb.gens.length ∧ (s.pg g.val).armed = false ∧ (s.pg g.val).start < max
      s.now w.t + usTicks 2 ∧ (s.at w).grants .firmware (0x10100 + 0x20 * g.val) = true) ∧
    (∃ (w : When) (g : Fin 12) (who : Agent) (s : State), isFw who = false ∧ (s.at w).grants who (0x10100 + 0x20 * g.val) =
      true) ∧
    (∃ (w : When) (g : Fin 12) (s : State), g.val < s.tmb.gens.length ∧ (s.pg g.val).armed = true ∧ (s.pg g.val).running =
      false ∧ (s.at w).grants .firmware (0x10100 + 0x20 * g.val) = true) ∧
    (∃ (w : When) (g : Fin 12) (s : State), g.val < s.tmb.gens.length ∧ (s.pg g.val).armed = true ∧ (s.pg g.val).running = true
      ∧ (s.at w).grants .firmware (0x10100 + 0x20 * g.val) = true) ∧
    (∃ (w : When) (g : Fin 12) (s : State), g.val < 4 ∧ g.val < s.tmb.tpo.length ∧ g.val < s.tmb.gens.length ∧ s.stopped =
      false ∧ (s.pg g.val).armed = true ∧ (s.pg g.val).running = false ∧ (s.pg g.val).nextEdge ≤ max s.now w.t) ∧
    (∃ (w : When) (g : Fin 12) (s : State), g.val < 4 ∧ g.val < s.tmb.tpo.length ∧ g.val < s.tmb.gens.length ∧ s.stopped =
      false ∧ (s.pg g.val).armed = true ∧ (s.pg g.val).running = true ∧ (s.pg g.val).nextEdge ≤ max s.now w.t ∧ (s.pg
      g.val).disarming = false ∧ ((s.pg g.val).count = 0 ∨ 2 ≤ (s.pg g.val).remaining)) ∧
    (∃ (w : When) (g : Fin 12) (s : State), g.val < 4 ∧ g.val < s.tmb.tpo.length ∧ g.val < s.tmb.gens.length ∧ s.stopped =
      false ∧ (s.pg g.val).armed = true ∧ (s.pg g.val).running = true ∧ (s.pg g.val).nextEdge ≤ max s.now w.t ∧ (s.pg
      g.val).disarming = false ∧ (s.pg g.val).count ≠ 0 ∧ (s.pg g.val).remaining ≤ 1) ∧
    (∃ (w : When) (g : Fin 12) (s : State), g.val < 4 ∧ g.val < s.tmb.tpo.length ∧ g.val < s.tmb.gens.length ∧ s.stopped =
      false ∧ (s.pg g.val).armed = true ∧ (s.pg g.val).running = true ∧ (s.pg g.val).nextEdge ≤ max s.now w.t ∧ (s.pg
      g.val).disarming = true) ∧
    (∃ (w : When) (g : Fin 12) (s : State), 4 ≤ g.val ∧ g.val < s.tmb.gens.length ∧ s.stopped = false ∧ (s.pg g.val).armed =
      true ∧ (s.pg g.val).running = false ∧ (s.pg g.val).nextEdge ≤ max s.now w.t) ∧
    (∃ (w : When) (g : Fin 12) (s : State), 4 ≤ g.val ∧ g.val < s.tmb.gens.length ∧ s.stopped = false ∧ (s.pg g.val).armed =
      true ∧ (s.pg g.val).running = true ∧ (s.pg g.val).nextEdge ≤ max s.now w.t ∧ (s.pg g.val).disarming = false ∧ ((s.pg
      g.val).count = 0 ∨ 2 ≤ (s.pg g.val).remaining)) ∧
    (∃ (w : When) (g : Fin 12) (s : State), 4 ≤ g.val ∧ g.val < s.tmb.gens.length ∧ s.stopped = false ∧ (s.pg g.val).armed =
      true ∧ (s.pg g.val).running = true ∧ (s.pg g.val).nextEdge ≤ max s.now w.t ∧ (s.pg g.val).disarming = false ∧ (s.pg
      g.val).count ≠ 0 ∧ (s.pg g.val).remaining ≤ 1) ∧
    (∃ (w : When) (g : Fin 12) (s : State), 4 ≤ g.val ∧ g.val < s.tmb.gens.length ∧ s.stopped = false ∧ (s.pg g.val).armed =
      true ∧ (s.pg g.val).running = true ∧ (s.pg g.val).nextEdge ≤ max s.now w.t ∧ (s.pg g.val).disarming = true) ∧
    (∃ (w : When) (g : Fin 12) (s : State), ((s.pg g.val).armed = false ∨ s.stopped = true ∨ max s.now w.t < (s.pg
      g.val).nextEdge)) ∧
    (∃ (w : When) (g : Fin 12) (s : State), g.val < s.tmb.gens.length ∧ (s.pg g.val).armed = false ∧ max s.now w.t + usTicks 2
      ≤ (s.pg g.val).start ∧ pgConflict g.val (s.pg g.val) s = true ∧ (s.at w).grants .firmware (0x10100 + 0x20 * g.val) =
      true) ∧
    (∃ (w : When) (g : Fin 12) (s : State), (s.pg g.val).armed = true ∧ (s.at w).grants .firmware (0x10100 + 0x20 * g.val) =
      true) ∧
    (∃ (w : When) (g : Fin 12) (s : State), (s.pg g.val).armed = false ∧ (s.at w).grants .firmware (0x10100 + 0x20 * g.val) =
      true) :=
  ⟨⟨{}, 0, { now := 0, tmb := { gens := [{ startLo := 1, startHi := 0, startNs := 0, width := 2, period := 4, armed := false }] } }, by decide⟩,
    ⟨{}, 0, { now := 0, tmb := { gens := [{ startNs := 1999, startLo := 0, startHi := 0, armed := false }] } }, by decide⟩,
    ⟨{}, 0, .host 0, { hif := { sessions := [some { role := 2 }] } }, by decide⟩,
    ⟨{}, 0, { tmb := { gens := [{ armed := true, running := false }] } }, by decide⟩,
    ⟨{}, 0, { tmb := { gens := [{ armed := true, running := true }] } }, by decide⟩,
    ⟨{}, 0, { now := 65536000000000, gen := { powerGood := true }, tmb := { tpo := [false, false, false, false], gens := [{ startLo := 0, startHi := 0, startNs := 0, k := 0, armed := true, running := false }] }, fio := { standby := false, dout := [{}] } }, by decide⟩,
    ⟨{}, 0, { now := 65536000000000, gen := { powerGood := true }, tmb := { tpo := [false, false, false, false], gens := [{ startLo := 0, startHi := 0, startNs := 0, k := 0, armed := true, width := 0, running := true, disarming := false, count := 2, remaining := 2 }] }, fio := { standby := false, dout := [{}] } }, by decide⟩,
    ⟨{}, 0, { now := 65536000000000, gen := { powerGood := true }, tmb := { tpo := [false, false, false, false], gens := [{ startLo := 0, startHi := 0, startNs := 0, k := 0, armed := true, width := 0, running := true, disarming := false, count := 2, remaining := 1 }] }, fio := { standby := false, dout := [{}] } }, by decide⟩,
    ⟨{}, 0, { now := 65536000000000, gen := { powerGood := true }, tmb := { tpo := [false, false, false, false], gens := [{ startLo := 0, startHi := 0, startNs := 0, k := 0, armed := true, width := 0, running := true, disarming := true, count := 0, remaining := 7 }] }, fio := { standby := false, dout := [{}] } }, by decide⟩,
    ⟨{}, 4, { now := 65536000000000, gen := { powerGood := true }, tmb := { tpo := [false, false, false, false], gens := List.replicate 4 {} ++ [{ startLo := 0, startHi := 0, startNs := 0, k := 0, armed := true, running := false }] }, fio := { standby := false, dout := [{}] } }, by decide⟩,
    ⟨{}, 4, { now := 65536000000000, gen := { powerGood := true }, tmb := { tpo := [false, false, false, false], gens := List.replicate 4 {} ++ [{ startLo := 0, startHi := 0, startNs := 0, k := 0, armed := true, width := 0, running := true, disarming := false, count := 0, remaining := 0 }] }, fio := { standby := false, dout := [{}] } }, by decide⟩,
    ⟨{}, 4, { now := 65536000000000, gen := { powerGood := true }, tmb := { tpo := [false, false, false, false], gens := List.replicate 4 {} ++ [{ startLo := 0, startHi := 0, startNs := 0, k := 0, armed := true, width := 0, running := true, disarming := false, count := 2, remaining := 1 }] }, fio := { standby := false, dout := [{}] } }, by decide⟩,
    ⟨{}, 4, { now := 65536000000000, gen := { powerGood := true }, tmb := { tpo := [false, false, false, false], gens := List.replicate 4 {} ++ [{ startLo := 0, startHi := 0, startNs := 0, k := 0, armed := true, width := 0, running := true, disarming := true, count := 0, remaining := 0 }] }, fio := { standby := false, dout := [{}] } }, by decide⟩,
    ⟨{}, 11, {}, by decide⟩,
    ⟨{}, 0, { now := 0, wvl := { role := 1 }, tmb := { gens := [{ startLo := 1, startHi := 0, startNs := 0, width := 4, period := 4, armed := false }] } }, by decide⟩,
    ⟨{}, 0, { tmb := { gens := [{ armed := true }] } }, by decide⟩,
    ⟨{}, 0, { tmb := { gens := [{ armed := false }] } }, by decide⟩⟩

/-- The hypotheses of MasterPorts are met. -/
theorem witness_MasterPorts :
    (∃ (port : Fin 64) (s : State), s.masterPort port.val = true ∧ s.tmb.state ≠ 0 ∧ (s.port port.val).syncSent = false ∧
      s.portSends port.val = true ∧ s.prpLow port.val = false ∧ s.portRoom port.val (ptpWire s port.val 44) = true ∧ (s.port
      port.val).before true = false) ∧
    (∃ (port : Fin 64) (s : State), s.masterPort port.val = true ∧ s.portSends port.val = true ∧ s.prpLow port.val = false ∧
      s.portRoom port.val (ptpWire s port.val 64) = true ∧ (s.port port.val).before false = false) ∧
    (∃ (port : Fin 64) (s : State), s.masterPort port.val = true ∧ s.tmb.state ≠ 0 ∧ s.prpLow port.val = true ∧ (s.port
      port.val).syncSent = false ∧ (s.port (port.val + 32)).syncSent = false ∧ s.portSends port.val = true ∧ s.portSends
      (port.val + 32) = true ∧ s.portRoom port.val (ptpWire s port.val 44) = true ∧ s.portRoom (port.val + 32) (ptpWire s
      (port.val + 32) 44) = true ∧ (s.port port.val).before true = false ∧ (s.port (port.val + 32)).before true = false) ∧
    (∃ (port : Fin 64) (s : State), s.masterPort port.val = true ∧ s.prpLow port.val = true ∧ s.portSends port.val = true ∧
      s.portSends (port.val + 32) = true ∧ s.portRoom port.val (ptpWire s port.val 64) = true ∧ s.portRoom (port.val + 32)
      (ptpWire s (port.val + 32) 64) = true ∧ (s.port port.val).before false = false ∧ (s.port (port.val + 32)).before false =
      false) ∧
    (∃ (s : State), s.tmb.state = 0) ∧
    (∃ (port : Fin 64) (s : State), s.masterPort port.val = true ∧ s.tmb.state ≠ 0 ∧ s.portSends port.val = false ∧ s.prpLow
      port.val = false) ∧
    (∃ (port : Fin 64) (s : State), s.masterPort port.val = false) ∧
    (∃ (port : Fin 64) (s : State), s.masterPort port.val = false) ∧
    (∃ (port : Fin 64) (s : State), s.masterPort port.val = true ∧ s.portSends port.val = false ∧ s.prpLow port.val = false) ∧
    (∃ (port : Fin 64) (s : State), s.masterPort port.val = true ∧ s.tmb.state ≠ 0 ∧ s.prpLow port.val = true ∧ s.portSends
      port.val = false ∧ (s.port (port.val + 32)).syncSent = false ∧ s.portSends (port.val + 32) = true ∧ s.portRoom (port.val
      + 32) (ptpWire s (port.val + 32) 44) = true ∧ (s.port (port.val + 32)).before true = false) ∧
    (∃ (port : Fin 64) (s : State), s.masterPort port.val = true ∧ s.tmb.state ≠ 0 ∧ s.prpLow port.val = true ∧ (s.port
      port.val).syncSent = false ∧ s.portSends port.val = true ∧ s.portSends (port.val + 32) = false ∧ s.portRoom port.val
      (ptpWire s port.val 44) = true ∧ (s.port port.val).before true = false) ∧
    (∃ (port : Fin 64) (s : State), s.masterPort port.val = true ∧ s.prpLow port.val = true ∧ s.portSends port.val = false ∧
      s.portSends (port.val + 32) = true ∧ s.portRoom (port.val + 32) (ptpWire s (port.val + 32) 64) = true ∧ (s.port (port.val
      + 32)).before false = false) ∧
    (∃ (port : Fin 64) (s : State), s.masterPort port.val = true ∧ s.prpLow port.val = true ∧ s.portSends port.val = true ∧
      s.portSends (port.val + 32) = false ∧ s.portRoom port.val (ptpWire s port.val 64) = true ∧ (s.port port.val).before false
      = false) ∧
    (∃ (port : Fin 64) (s : State), s.masterPort port.val = true ∧ s.tmb.state ≠ 0 ∧ (s.port port.val).syncSent = true ∧
      s.prpLow port.val = false) ∧
    (∃ (port : Fin 64) (s : State), port.val < s.prt.ports.length ∧ s.masterPort port.val = true ∧ s.tmb.state ≠ 0 ∧ (s.port
      port.val).syncSent = false ∧ s.portSends port.val = true ∧ s.prpLow port.val = false ∧ (s.portRoom port.val (ptpWire s
      port.val 44) = false ∨ (s.port port.val).before true = true)) ∧
    (∃ (port : Fin 64) (s : State), port.val < s.prt.ports.length ∧ s.masterPort port.val = true ∧ s.portSends port.val = true
      ∧ s.prpLow port.val = false ∧ (s.portRoom port.val (ptpWire s port.val 64) = false ∨ (s.port port.val).before false =
      true)) :=
  ⟨⟨0, { bgt := { booting := false }, wvl := { role := 1 }, tmb := { state := 2 }, prt := { ports := [{ link := true, laserOff := false, fenced := false, highPower := false, syncSent := false, exhausted := false }] }, cfg := { cur := { ptp := { masterMask := 1 }, ports := { ports := [{ mode := 1, prp := false }] }, budgets := { ports := [2000] } } } }, by decide⟩,
    ⟨0, { bgt := { booting := false }, wvl := { role := 1 }, prt := { ports := [{ link := true, laserOff := false, fenced := false, highPower := false, exhausted := false }] }, cfg := { cur := { ptp := { masterMask := 1 }, ports := { ports := [{ mode := 1, prp := false }] }, budgets := { ports := [2000] } } } }, by decide⟩,
    ⟨0, { bgt := { booting := false }, wvl := { role := 1 }, tmb := { state := 2 }, prt := { ports := List.replicate 40 { link := true, laserOff := false, fenced := false, highPower := false, syncSent := false, exhausted := false } }, cfg := { cur := { ptp := { masterMask := 1 }, ports := { ports := [{ mode := 1, prp := true }] ++ List.replicate 40 { mode := 1 } }, budgets := { ports := List.replicate 40 2000 } } } }, by decide⟩,
    ⟨0, { bgt := { booting := false }, wvl := { role := 1 }, tmb := { state := 2 }, prt := { ports := List.replicate 40 { link := true, laserOff := false, fenced := false, highPower := false, syncSent := false, exhausted := false } }, cfg := { cur := { ptp := { masterMask := 1 }, ports := { ports := [{ mode := 1, prp := true }] ++ List.replicate 40 { mode := 1 } }, budgets := { ports := List.replicate 40 2000 } } } }, by decide⟩,
    ⟨{}, by decide⟩,
    ⟨0, { tmb := { state := 2 }, cfg := { cur := { ptp := { masterMask := 1 } } } }, by decide⟩,
    ⟨63, {}, by decide⟩,
    ⟨63, {}, by decide⟩,
    ⟨0, { cfg := { cur := { ptp := { masterMask := 1 } } } }, by decide⟩,
    ⟨0, { bgt := { booting := false }, wvl := { role := 1 }, tmb := { state := 2 }, prt := { ports := List.replicate 32 { link := false } ++ List.replicate 8 { link := true, laserOff := false, fenced := false, highPower := false, syncSent := false, exhausted := false } }, cfg := { cur := { ptp := { masterMask := 1 }, ports := { ports := [{ mode := 1, prp := true }] ++ List.replicate 40 { mode := 1 } }, budgets := { ports := List.replicate 40 2000 } } } }, by decide⟩,
    ⟨0, { bgt := { booting := false }, wvl := { role := 1 }, tmb := { state := 2 }, prt := { ports := List.replicate 32 { link := true, laserOff := false, fenced := false, highPower := false, syncSent := false, exhausted := false } ++ List.replicate 8 { link := false } }, cfg := { cur := { ptp := { masterMask := 1 }, ports := { ports := [{ mode := 1, prp := true }] ++ List.replicate 40 { mode := 1 } }, budgets := { ports := List.replicate 40 2000 } } } }, by decide⟩,
    ⟨0, { bgt := { booting := false }, wvl := { role := 1 }, prt := { ports := List.replicate 32 { link := false } ++ List.replicate 8 { link := true, laserOff := false, fenced := false, highPower := false, exhausted := false } }, cfg := { cur := { ptp := { masterMask := 1 }, ports := { ports := [{ mode := 1, prp := true }] ++ List.replicate 40 { mode := 1 } }, budgets := { ports := List.replicate 40 2000 } } } }, by decide⟩,
    ⟨0, { bgt := { booting := false }, wvl := { role := 1 }, prt := { ports := List.replicate 32 { link := true, laserOff := false, fenced := false, highPower := false, exhausted := false } ++ List.replicate 8 { link := false } }, cfg := { cur := { ptp := { masterMask := 1 }, ports := { ports := [{ mode := 1, prp := true }] ++ List.replicate 40 { mode := 1 } }, budgets := { ports := List.replicate 40 2000 } } } }, by decide⟩,
    ⟨0, { tmb := { state := 2 }, prt := { ports := [{ syncSent := true }] }, cfg := { cur := { ptp := { masterMask := 1 } } } }, by decide⟩,
    ⟨0, { wvl := { role := 1 }, tmb := { state := 2 }, prt := { ports := [{ link := true, laserOff := false, fenced := false, highPower := false, syncSent := false, exhausted := true }] }, cfg := { cur := { ptp := { masterMask := 1 }, ports := { ports := [{ mode := 1, prp := false }] } } } }, by decide⟩,
    ⟨0, { wvl := { role := 1 }, tmb := { state := 2 }, prt := { ports := [{ link := true, laserOff := false, fenced := false, highPower := false, exhausted := true }] }, cfg := { cur := { ptp := { masterMask := 1 }, ports := { ports := [{ mode := 1, prp := false }] } } } }, by decide⟩⟩

/-- The hypotheses of LinksAndLasers are met. -/
theorem witness_LinksAndLasers :
    (∃ (port : Fin 64) (up : Bool) (s : State), (s.port port.val).link ≠ up ∧ port.val < s.prt.ports.length ∧ port.val <
      s.evt.prt.length) ∧
    (∃ (port : Fin 64) (up : Bool) (s : State), (s.port port.val).link ≠ up ∧ port.val < s.prt.ports.length ∧ s.isPrp port.val
      = true ∧ port.val < s.evt.prt.length ∧ s.logical port.val < s.evt.prt.length) ∧
    (∃ (port : Fin 64) (up : Bool) (s : State), (s.port port.val).link = up) ∧
    (∃ (w : When) (who : Agent) (port : Fin 64) (s : State), fwOrEngineer who s = true ∧ port.val < s.prt.ports.length ∧ (s.at
      w).grants who (0x20000 + 0x400 * port.val) = true) ∧
    (∃ (w : When) (who : Agent) (port : Fin 64) (off : Bool) (s : State), fwOrEngineer who s = true ∧ (s.port
      port.val).laserOff = off ∧ (s.at w).grants who (0x20000 + 0x400 * port.val) = true) ∧
    (∃ (w : When) (who : Agent) (port : Fin 64) (s : State), fwOrEngineer who s = false ∧ (s.at w).grants who (0x20000 + 0x400
      * port.val) = true) ∧
    (∃ (s : State), 64 ≤ s.prt.ports.length) ∧
    (∃ (port : Fin 64) (kind : DropKind) (s : State), s.portTakes port.val = true ∧ kind ≠ .svNoCredit ∧ kind ≠ .surgeNoCredit) ∧
    (∃ (port : Fin 64) (s : State), s.portTakes port.val = true) ∧
    (∃ (port : Fin 64) (s : State), s.portTakes port.val = true) ∧
    (∃ (port : Fin 64) (s : State), s.portTakes port.val = false) ∧
    (∃ (port : Fin 66) (s : State), port.val < 64 ∧ s.portTakes port.val = false) ∧
    (∃ (port : Fin 66) (s : State), port.val < 64 ∧ s.portTakes port.val = true) ∧
    (∃ (port : Fin 66), 64 ≤ port.val) ∧
    (∃ (port : Fin 32) (s : State), s.isPrp port.val = true ∧ s.portSends port.val = true ∧ s.portSends (port.val + 32) = true
      ∧ s.portRoom port.val supervisionWire = true ∧ s.portRoom (port.val + 32) supervisionWire = true ∧ (s.port
      port.val).before false = false ∧ (s.port (port.val + 32)).before false = false) ∧
    (∃ (port : Fin 32) (s : State), s.isPrp port.val = true ∧ s.portSends port.val = true ∧ s.portSends (port.val + 32) = false
      ∧ s.portRoom port.val supervisionWire = true ∧ (s.port port.val).before false = false) ∧
    (∃ (port : Fin 32) (s : State), s.isPrp port.val = true ∧ s.portSends port.val = false ∧ s.portSends (port.val + 32) = true
      ∧ s.portRoom (port.val + 32) supervisionWire = true ∧ (s.port (port.val + 32)).before false = false) ∧
    (∃ (port : Fin 32) (s : State), s.isPrp port.val = true ∧ s.portSends port.val = false ∧ s.portSends (port.val + 32) =
      false) ∧
    (∃ (port : Fin 32) (s : State), s.isPrp port.val = false) :=
  ⟨⟨63, false, { prt := { ports := List.replicate 64 { link := true } } }, by decide⟩,
    ⟨32, false, { prt := { ports := List.replicate 64 { link := true } }, cfg := { cur := { ports := { ports := [{ mode := 1, prp := true }] } } } }, by decide⟩,
    ⟨0, false, {}, by decide⟩,
    ⟨{}, .firmware, 63, {}, by decide⟩,
    ⟨{}, .firmware, 63, true, { prt := { ports := List.replicate 64 { laserOff := true } } }, by decide⟩,
    ⟨{}, .host 0, 0, { hif := { sessions := [some { role := 2 }] } }, by decide⟩,
    ⟨{}, by decide⟩,
    ⟨0, .hsr, { prt := { ports := List.replicate 64 { fenced := false, highPower := false } }, cfg := { cur := { ports := { ports := [{ mode := 1 }] } } } }, by decide⟩,
    ⟨0, { prt := { ports := List.replicate 64 { fenced := false, highPower := false } }, cfg := { cur := { ports := { ports := [{ mode := 1 }] } } } }, by decide⟩,
    ⟨0, { prt := { ports := List.replicate 64 { fenced := false, highPower := false } }, cfg := { cur := { ports := { ports := [{ mode := 1 }] } } } }, by decide⟩,
    ⟨63, {}, by decide⟩,
    ⟨63, {}, by decide⟩,
    ⟨63, { prt := { ports := List.replicate 64 { fenced := false, highPower := false } }, cfg := { cur := { ports := { ports := List.replicate 64 { mode := 1 } } } } }, by decide⟩,
    ⟨64, by decide⟩,
    ⟨0, { bgt := { booting := false }, wvl := { role := 1 }, prt := { ports := List.replicate 64 { link := true, laserOff := false, fenced := false, highPower := false, exhausted := false } }, cfg := { cur := { ports := { ports := List.replicate 64 { mode := 1, prp := true } }, budgets := { ports := List.replicate 64 2000 } } } }, by decide⟩,
    ⟨0, { bgt := { booting := false }, wvl := { role := 1 }, prt := { ports := List.replicate 32 { link := true, laserOff := false, fenced := false, highPower := false, exhausted := false } ++ List.replicate 32 { link := false } }, cfg := { cur := { ports := { ports := List.replicate 64 { mode := 1, prp := true } }, budgets := { ports := List.replicate 64 2000 } } } }, by decide⟩,
    ⟨0, { bgt := { booting := false }, wvl := { role := 1 }, prt := { ports := List.replicate 32 { link := false } ++ List.replicate 32 { link := true, laserOff := false, fenced := false, highPower := false, exhausted := false } }, cfg := { cur := { ports := { ports := List.replicate 64 { mode := 1, prp := true } }, budgets := { ports := List.replicate 64 2000 } } } }, by decide⟩,
    ⟨0, { bgt := { booting := false }, wvl := { role := 1 }, prt := { ports := List.replicate 32 { link := false } ++ List.replicate 32 { link := false } }, cfg := { cur := { ports := { ports := List.replicate 64 { mode := 1, prp := true } }, budgets := { ports := List.replicate 64 2000 } } } }, by decide⟩,
    ⟨31, {}, by decide⟩⟩

/-- The hypotheses of QueueErrors are met. -/
theorem witness_QueueErrors :
    (∃ (n : Fin 64) (s : State), n.val < s.prt.ports.length) ∧
    (∃ (n : Fin 64) (s : State), n.val < s.prt.ports.length) ∧
    (∃ (p : Fin 2) (pos : Nat) (x : PubFrame) (s : State), (s.phe.queue.filter (·.host == p.val))[pos]? = some x) :=
  ⟨⟨63, {}, by decide⟩,
    ⟨63, {}, by decide⟩,
    ⟨1, 0, { host := 1, stream := 2 }, { phe := { queue := [{ host := 0, stream := 1 }, { host := 1, stream := 2 }] } }, by decide⟩⟩

/-- The hypotheses of RepliesAreJudged are met. -/
theorem witness_RepliesAreJudged :
    (∃ (port : Fin 64) (f : ReplyFrame) (s : State), s.portTakes port.val = true ∧ f.fcsOk = false) ∧
    (∃ (port : Fin 64) (f : ReplyFrame) (s : State), s.portTakes port.val = true ∧ f.fcsOk = true ∧ s.mapped f.station
      (s.logical port.val) = none ∧ (s.port port.val).ctlCredit ≠ 0) ∧
    (∃ (port : Fin 64) (f : ReplyFrame) (c : StationCfg) (s : State), s.portTakes port.val = true ∧ f.fcsOk = true ∧ s.mapped
      f.station (s.logical port.val) = some c ∧ f.srcMac = c.mac ∧ (s.taskGen f.task.val).maps f.task.val f.station = true ∧
      ((s.stream f.station f.task.val).sent = false ∨ f.epoch ≠ s.wvl.epoch ∨ f.side ≠ s.wvl.side ∨ f.ackSeq ≠ (s.stream
      f.station f.task.val).seq) ∧ (s.port port.val).ctlCredit ≠ 0) ∧
    (∃ (port : Fin 64) (f : ReplyFrame) (c : StationCfg) (s : State), s.portTakes port.val = true ∧ f.fcsOk = true ∧ s.mapped
      f.station (s.logical port.val) = some c ∧ f.srcMac = c.mac ∧ (s.taskGen f.task.val).maps f.task.val f.station = true ∧
      (s.stream f.station f.task.val).sent = true ∧ f.epoch = s.wvl.epoch ∧ f.side = s.wvl.side ∧ f.ackSeq = (s.stream
      f.station f.task.val).seq ∧ (s.stream f.station f.task.val).answered = true ∧ (s.isPrp port.val = false ∨ (s.stream
      f.station f.task.val).copies.contains port.val = true) ∧ (s.port port.val).ctlCredit ≠ 0) ∧
    (∃ (port : Fin 64) (f : ReplyFrame) (s : State), s.portTakes port.val = true ∧ f.fcsOk = true ∧ s.mapped f.station
      (s.logical port.val) = none ∧ (s.port port.val).ctlCredit = 0) ∧
    (∃ (port : Fin 64) (f : ReplyFrame) (c : StationCfg) (k : TaskCfg) (s : State), s.portTakes port.val = true ∧ f.fcsOk =
      true ∧ s.mapped f.station (s.logical port.val) = some c ∧ f.srcMac = c.mac ∧ (s.taskGen f.task.val).maps f.task.val
      f.station = true ∧ (s.stream f.station f.task.val).sent = true ∧ f.epoch = s.wvl.epoch ∧ f.side = s.wvl.side ∧ f.ackSeq =
      (s.stream f.station f.task.val).seq ∧ (s.stream f.station f.task.val).answered = false ∧ f.lengthOk = true ∧ f.inCount =
      s.replyInputs f.station f.task.val ∧ f.inputs.length = f.inCount ∧ (s.stream f.station f.task.val).seq = (s.stream
      f.station f.task.val).cycleSeq ∧ (s.stream f.station f.task.val).skipped = false ∧ (s.task f.task.val).frozen = false ∧
      (s.task f.task.val).state ≠ 1 ∧ s.taskCfg f.task.val = some k ∧ s.rxTime port.val f.stamp ≤ (s.stream f.station
      f.task.val).apply - k.period * ticksPerPeriod + nsTicks k.deadline) ∧
    (∃ (port : Fin 64) (f : ReplyFrame) (c : StationCfg) (k : TaskCfg) (s : State), s.portTakes port.val = true ∧ f.fcsOk =
      true ∧ s.mapped f.station (s.logical port.val) = some c ∧ f.srcMac = c.mac ∧ (s.taskGen f.task.val).maps f.task.val
      f.station = true ∧ (s.stream f.station f.task.val).sent = true ∧ f.epoch = s.wvl.epoch ∧ f.side = s.wvl.side ∧ f.ackSeq =
      (s.stream f.station f.task.val).seq ∧ (s.stream f.station f.task.val).answered = false ∧ f.lengthOk = true ∧ f.inCount =
      s.replyInputs f.station f.task.val ∧ f.inputs.length = f.inCount ∧ (s.stream f.station f.task.val).seq = (s.stream
      f.station f.task.val).cycleSeq ∧ s.isPrp port.val = false ∧ s.taskCfg f.task.val = some k ∧ (s.stream f.station
      f.task.val).apply - k.period * ticksPerPeriod + nsTicks k.deadline < s.rxTime port.val f.stamp ∧ (s.port
      port.val).ctlCredit ≠ 0) ∧
    (∃ (port : Fin 64) (f : ReplyFrame) (c : StationCfg) (s : State), s.portTakes port.val = true ∧ f.fcsOk = true ∧ s.mapped
      f.station (s.logical port.val) = some c ∧ f.srcMac ≠ c.mac ∧ (s.port port.val).ctlCredit ≠ 0) ∧
    (∃ (port : Fin 64) (f : ReplyFrame) (c : StationCfg) (s : State), s.portTakes port.val = true ∧ f.fcsOk = true ∧ s.mapped
      f.station (s.logical port.val) = some c ∧ (s.taskGen f.task.val).maps f.task.val f.station = false ∧ (s.port
      port.val).ctlCredit ≠ 0) ∧
    (∃ (port : Fin 64) (f : ReplyFrame) (c : StationCfg) (s : State), s.portTakes port.val = true ∧ f.fcsOk = true ∧ s.mapped
      f.station (s.logical port.val) = some c ∧ f.srcMac = c.mac ∧ (s.taskGen f.task.val).maps f.task.val f.station = true ∧
      (s.stream f.station f.task.val).sent = true ∧ f.epoch = s.wvl.epoch ∧ f.side = s.wvl.side ∧ f.ackSeq = (s.stream
      f.station f.task.val).seq ∧ (s.stream f.station f.task.val).answered = false ∧ (f.lengthOk = false ∨ f.inCount ≠
      s.replyInputs f.station f.task.val ∨ f.inputs.length ≠ f.inCount)) ∧
    (∃ (port : Fin 64) (f : ReplyFrame) (c : StationCfg) (s : State), s.portTakes port.val = true ∧ f.fcsOk = true ∧ s.mapped
      f.station (s.logical port.val) = some c ∧ f.srcMac = c.mac ∧ (s.taskGen f.task.val).maps f.task.val f.station = true ∧
      (s.stream f.station f.task.val).sent = true ∧ f.epoch = s.wvl.epoch ∧ f.side = s.wvl.side ∧ f.ackSeq = (s.stream
      f.station f.task.val).seq ∧ (s.stream f.station f.task.val).answered = false ∧ f.lengthOk = true ∧ f.inCount =
      s.replyInputs f.station f.task.val ∧ f.inputs.length = f.inCount ∧ (s.stream f.station f.task.val).seq = (s.stream
      f.station f.task.val).cycleSeq ∧ s.replyOnTime port.val f.station f.task.val f = false ∧ (s.port port.val).ctlCredit = 0) :=
  ⟨⟨0, { fcsOk := false }, { prt := { ports := List.replicate 64 { fenced := false, highPower := false } }, cfg := { cur := { ports := { ports := [{ mode := 1 }] } } } }, by decide⟩,
    ⟨0, { fcsOk := true }, { prt := { ports := List.replicate 64 { fenced := false, highPower := false, ctlCredit := 16 } }, cfg := { next := none, cur := { stations := [], ports := { ports := [{ mode := 1 }] } } } }, by decide⟩,
    ⟨0, { station := 5, srcMac := 9, epoch := 1, fcsOk := true }, { number := 5, port := 0, mac := 9 }, { prt := { ports := List.replicate 64 { fenced := false, highPower := false, ctlCredit := 16 } }, wvl := { epoch := 2 }, cfg := { next := none, cur := { stations := [{ number := 5, port := 0, mac := 9 }], points := [{ kind := 1, source := 5 }], images := { descs := [{ outList := [0] }] }, ports := { ports := [{ mode := 1 }] } } } }, by decide⟩,
    ⟨0, { station := 5, srcMac := 9, epoch := 2, side := 0, ackSeq := 3, fcsOk := true }, { number := 5, port := 0, mac := 9 }, { wvl := { epoch := 2, side := 0 }, prt := { ports := List.replicate 64 { fenced := false, highPower := false, ctlCredit := 16 }, stations := [], streams := [{ station := 5, task := 0, sent := true, seq := 3, answered := true }] }, cfg := { next := none, cur := { stations := [{ number := 5, port := 0, mac := 9 }], points := [{ kind := 1, source := 5 }], images := { descs := [{ outList := [0] }] }, ports := { ports := [{ mode := 1 }] } } } }, by decide⟩,
    ⟨0, { fcsOk := true }, { prt := { ports := List.replicate 64 { fenced := false, highPower := false, ctlCredit := 0 } }, cfg := { next := none, cur := { stations := [], ports := { ports := [{ mode := 1 }] } } } }, by decide⟩,
    ⟨0, { station := 5, srcMac := 9, epoch := 2, side := 0, ackSeq := 3, stamp := 0, fcsOk := true, lengthOk := true }, { number := 5, port := 0, mac := 9 }, { task := 0, period := 2, deadline := 100 }, { wvl := { epoch := 2, side := 0 }, seq := { tasks := [] }, prt := { ports := List.replicate 64 { fenced := false, highPower := false }, stations := [], streams := [{ station := 5, task := 0, sent := true, seq := 3, cycleSeq := 3, apply := 1000000000, skipped := false, answered := false }] }, cfg := { next := none, cur := { stations := [{ number := 5, port := 0, mac := 9 }], tasks := [{ task := 0, period := 2, deadline := 100 }], asym := [], points := [{ kind := 1, source := 5 }], images := { descs := [{ outList := [0] }] }, ports := { ports := [{ mode := 1 }] } } } }, by decide⟩,
    ⟨0, { station := 5, srcMac := 9, epoch := 2, side := 0, ackSeq := 3, stamp := 1, fcsOk := true, lengthOk := true }, { number := 5, port := 0, mac := 9 }, { task := 0, period := 2, deadline := 0 }, { wvl := { epoch := 2, side := 0 }, prt := { ports := List.replicate 64 { fenced := false, highPower := false, ctlCredit := 16 }, stations := [], streams := [{ station := 5, task := 0, sent := true, seq := 3, cycleSeq := 3, apply := 16384000000, answered := false }] }, cfg := { next := none, cur := { stations := [{ number := 5, port := 0, mac := 9 }], tasks := [{ task := 0, period := 2, deadline := 0 }], asym := [], points := [{ kind := 1, source := 5 }], images := { descs := [{ outList := [0] }] }, ports := { ports := [{ mode := 1 }] } } } }, by decide⟩,
    ⟨0, { station := 5, srcMac := 8, fcsOk := true }, { number := 5, port := 0, mac := 9 }, { wvl := { epoch := 2, side := 0 }, seq := { tasks := [] }, prt := { ports := List.replicate 64 { fenced := false, highPower := false, ctlCredit := 16 }, stations := [], streams := [{ station := 5, task := 0, sent := true, seq := 3, cycleSeq := 3, apply := 16384000000, skipped := false, answered := false }] }, cfg := { next := none, cur := { stations := [{ number := 5, port := 0, mac := 9 }], tasks := [{ task := 0, period := 2, deadline := 0 }], asym := [], points := [{ kind := 1, source := 5 }], images := { descs := [{ outList := [0] }] }, ports := { ports := [{ mode := 1 }] } } } }, by decide⟩,
    ⟨0, { station := 5, task := 15, srcMac := 9, fcsOk := true }, { number := 5, port := 0, mac := 9 }, { wvl := { epoch := 2, side := 0 }, seq := { tasks := [] }, prt := { ports := List.replicate 64 { fenced := false, highPower := false, ctlCredit := 16 }, stations := [], streams := [{ station := 5, task := 0, sent := true, seq := 3, cycleSeq := 3, apply := 16384000000, skipped := false, answered := false }] }, cfg := { next := none, cur := { stations := [{ number := 5, port := 0, mac := 9 }], tasks := [{ task := 0, period := 2, deadline := 0 }], asym := [], points := [{ kind := 1, source := 5 }], images := { descs := [{ outList := [0] }] }, ports := { ports := [{ mode := 1 }] } } } }, by decide⟩,
    ⟨0, { station := 5, srcMac := 9, epoch := 2, side := 0, ackSeq := 3, fcsOk := true, lengthOk := true, inCount := 1 }, { number := 5, port := 0, mac := 9 }, { wvl := { epoch := 2, side := 0 }, seq := { tasks := [] }, prt := { ports := List.replicate 64 { fenced := false, highPower := false, ctlCredit := 16 }, stations := [], streams := [{ station := 5, task := 0, sent := true, seq := 3, cycleSeq := 3, apply := 16384000000, skipped := false, answered := false }] }, cfg := { next := none, cur := { stations := [{ number := 5, port := 0, mac := 9 }], tasks := [{ task := 0, period := 2, deadline := 0 }], asym := [], points := [{ kind := 1, source := 5 }], images := { descs := [{ outList := [0] }] }, ports := { ports := [{ mode := 1 }] } } } }, by decide⟩,
    ⟨0, { station := 5, srcMac := 9, epoch := 2, side := 0, ackSeq := 3, stamp := 1, fcsOk := true, lengthOk := true }, { number := 5, port := 0, mac := 9 }, { wvl := { epoch := 2, side := 0 }, seq := { tasks := [] }, prt := { ports := List.replicate 64 { fenced := false, highPower := false, ctlCredit := 0 }, stations := [], streams := [{ station := 5, task := 0, sent := true, seq := 3, cycleSeq := 3, apply := 16384000000, skipped := false, answered := false }] }, cfg := { next := none, cur := { stations := [{ number := 5, port := 0, mac := 9 }], tasks := [{ task := 0, period := 2, deadline := 0 }], asym := [], points := [{ kind := 1, source := 5 }], images := { descs := [{ outList := [0] }] }, ports := { ports := [{ mode := 1 }] } } } }, by decide⟩⟩

/-- The hypotheses of HelloAndResync are met. -/
theorem witness_HelloAndResync :
    (∃ (w : When) (port : Fin 64) (f : HelloFrame) (c : StationCfg) (task : Fin 16) (s : State), s.portTakes port.val = true ∧
      s.primary = true ∧ s.mapped f.station (s.logical port.val) = some c ∧ s.stationTasks f.station = [task.val] ∧ (duplicate
      port.val f.rct (s.at w)).1 = false ∧ (s.port port.val).ctlCredit ≠ 0) ∧
    (∃ (s : State), s.primary = false) ∧
    (∃ (w : When) (port : Fin 64) (f : HelloFrame) (s : State), s.portTakes port.val = true ∧ (duplicate port.val f.rct (s.at
      w)).1 = true) ∧
    (∃ (w : When) (station : Fin 2048) (task : Fin 16) (by' : Nat) (c : StationCfg) (s : State), (s.stream station.val
      task.val).resyncBy = some by' ∧ s.stationCfg station.val = some c ∧ s.primary = true ∧ (s.stream station.val
      task.val).sent = true ∧ (s.at w).islandTime marketIsland ≤ by' ∧ (s.at w).islandTime marketIsland + usTicks 250 ≤
      (s.stream station.val task.val).apply) ∧
    (∃ (w : When) (station : Fin 2048) (task : Fin 16) (by' : Nat) (c : StationCfg) (s : State), (s.stream station.val
      task.val).resyncBy = some by' ∧ s.stationCfg station.val = some c ∧ (s.primary = false ∨ (s.stream station.val
      task.val).apply < (s.at w).islandTime marketIsland + usTicks 250)) ∧
    (∃ (w : When) (port : Fin 64) (f : HelloFrame) (c : StationCfg) (task : Fin 16) (s : State), s.portTakes port.val = true ∧
      s.primary = true ∧ s.mapped f.station (s.logical port.val) = some c ∧ (s.stationTasks f.station).contains task.val = true
      ∧ (duplicate port.val f.rct (s.at w)).1 = false ∧ (s.port port.val).ctlCredit ≠ 0) :=
  ⟨⟨{}, 0, { station := 5 }, { number := 5, port := 0 }, 3, { wvl := { role := 1 }, prt := { ports := List.replicate 64 { fenced := false, highPower := false, ctlCredit := 16 }, streams := [{ station := 5, task := 3 }] }, cfg := { next := none, cur := { stations := [{ number := 5, port := 0 }], points := [{ kind := 1, source := 5 }], images := { descs := [{}, {}, {}, { outList := [0] }] }, ports := { ports := [{ mode := 1 }] } } } }, by decide⟩,
    ⟨{ wvl := { role := 3 } }, by decide⟩,
    ⟨{}, 0, { station := 5, rct := some { src := 1, seq := 2 } }, { prt := { ports := List.replicate 64 { fenced := false, highPower := false, rctSeen := [{ rct := { src := 1, seq := 2 }, lane := 32, at_ := 0 }] } }, cfg := { cur := { ports := { ports := [{ mode := 1, prp := true }] } } } }, by decide⟩,
    ⟨{}, 5, 3, 10, { number := 5, port := 0 }, { now := 0, wvl := { role := 1 }, prt := { streams := [{ station := 5, task := 3, sent := true, resyncBy := some 10, apply := 16384000000 }] }, cfg := { next := none, cur := { stations := [{ number := 5, port := 0 }], points := [{ kind := 1, source := 5 }], images := { descs := [{}, {}, {}, { outList := [0] }] } } } }, by decide⟩,
    ⟨{}, 5, 3, 10, { number := 5, port := 0 }, { now := 0, wvl := { role := 1 }, prt := { streams := [{ station := 5, task := 3, sent := true, resyncBy := some 10, apply := 16383999999 }] }, cfg := { next := none, cur := { stations := [{ number := 5, port := 0 }], points := [{ kind := 1, source := 5 }], images := { descs := [{}, {}, {}, { outList := [0] }] } } } }, by decide⟩,
    ⟨{}, 0, { station := 5 }, { number := 5, port := 0 }, 3, { wvl := { role := 1 }, prt := { ports := List.replicate 64 { fenced := false, highPower := false, ctlCredit := 16 }, streams := [{ station := 5, task := 3 }] }, cfg := { next := none, cur := { stations := [{ number := 5, port := 0 }], points := [{ kind := 1, source := 5 }], images := { descs := [{ outList := [0] }, {}, {}, { outList := [0] }] }, ports := { ports := [{ mode := 1 }] } } } }, by decide⟩⟩

/-- The hypotheses of SurgeWindows are met. -/
theorem witness_SurgeWindows :
    (∃ (w : When) (port : Fin 64) (f : SurgeFrag) (s : State), s.portTakes port.val = true ∧ (s.port (s.logical
      port.val)).partial? f.station f.windowId = none ∧ s.logical port.val < s.prt.ports.length ∧ fragOk f = true ∧ 2 ≤
      f.fragCount ∧ (duplicate port.val f.rct (s.at w)).1 = false) ∧
    (∃ (w : When) (port : Fin 64) (f : SurgeFrag) (s : State), s.portTakes port.val = true ∧ (s.port (s.logical
      port.val)).partial? f.station f.windowId = none ∧ s.logical port.val < s.prt.ports.length ∧ fragOk f = false ∧ (duplicate
      port.val f.rct (s.at w)).1 = false) ∧
    (∃ (w : When) (port : Fin 64) (f : SurgeFrag) (y : PartialWin) (s : State), s.portTakes port.val = true ∧ (s.port
      (s.logical port.val)).partial? f.station f.windowId = some y ∧ (duplicate port.val f.rct (s.at w)).1 = false ∧ y.closed =
      true ∧ (s.at w).islandTime (portIsland (s.logical port.val)) < y.first + msTicks 1) ∧
    (∃ (w : When) (port : Fin 64) (f : SurgeFrag) (y : PartialWin) (x : SurgeWindow) (s : State), s.portTakes port.val = true ∧
      (duplicate port.val f.rct (s.at w)).1 = false ∧ (s.port (s.logical port.val)).partial? f.station f.windowId = some y ∧
      s.logical port.val < s.prt.ports.length ∧ (s.at w).islandTime (portIsland (s.logical port.val)) < y.first + msTicks 1 ∧
      y.closed = false ∧ fragOk f = true ∧ y.frags.any (fragsConflict f) = false ∧ y.frags.any (fun g => g.frag == f.frag) =
      false ∧ assembleWindow (s.logical port.val) (y.frags ++ [f]) (s.rxTime port.val f.stamp) = some x ∧ s.inUse 1 = true ∧
      (s.stationCfg f.station).isSome = true ∧ s.wce.queue.length < 512) ∧
    (∃ (w : When) (port : Fin 64) (station : Nat) (windowId : Nat) (y : PartialWin) (s : State), (s.port (s.logical
      port.val)).partial? station windowId = some y ∧ s.logical port.val < s.prt.ports.length ∧ y.first + msTicks 1 ≤ (s.at
      w).islandTime (portIsland (s.logical port.val)) ∧ y.closed = false) ∧
    (∃ (w : When) (port : Fin 64) (station : Nat) (windowId : Nat) (y : PartialWin) (s : State), (s.port (s.logical
      port.val)).partial? station windowId = some y ∧ (s.at w).islandTime (portIsland (s.logical port.val)) < y.first + msTicks
      1) ∧
    (∃ (w : When) (port : Fin 64) (f : SurgeFrag) (y : PartialWin) (s : State), s.portTakes port.val = true ∧ (duplicate
      port.val f.rct (s.at w)).1 = false ∧ (s.port (s.logical port.val)).partial? f.station f.windowId = some y ∧ (s.at
      w).islandTime (portIsland (s.logical port.val)) < y.first + msTicks 1 ∧ y.closed = false ∧ fragOk f = true ∧ y.frags.any
      (fragsConflict f) = false ∧ y.frags.any (fun g => g.frag == f.frag) = true) ∧
    (∃ (w : When) (port : Fin 64) (f : SurgeFrag) (y : PartialWin) (s : State), s.portTakes port.val = true ∧ (duplicate
      port.val f.rct (s.at w)).1 = false ∧ (s.port (s.logical port.val)).partial? f.station f.windowId = some y ∧ (s.at
      w).islandTime (portIsland (s.logical port.val)) < y.first + msTicks 1 ∧ y.closed = false ∧ s.logical port.val <
      s.prt.ports.length ∧ fragOk f = true ∧ y.frags.any (fragsConflict f) = true) ∧
    (∃ (w : When) (port : Fin 64) (f : SurgeFrag) (y : PartialWin) (s : State), s.portTakes port.val = true ∧ (duplicate
      port.val f.rct (s.at w)).1 = false ∧ (s.port (s.logical port.val)).partial? f.station f.windowId = some y ∧ (s.at
      w).islandTime (portIsland (s.logical port.val)) < y.first + msTicks 1 ∧ y.closed = false ∧ s.logical port.val <
      s.prt.ports.length ∧ fragOk f = true ∧ y.frags.any (fragsConflict f) = false ∧ y.frags.any (fun g => g.frag == f.frag) =
      false ∧ assembleWindow (s.logical port.val) (y.frags ++ [f]) (s.rxTime port.val f.stamp) = none) ∧
    (∃ (w : When) (port : Fin 64) (f : SurgeFrag) (s : State), s.portTakes port.val = true ∧ (duplicate port.val f.rct (s.at
      w)).1 = true) :=
  ⟨⟨{}, 0, { fragCount := 6, frag := 5, count := 1024, first := 1023, phase := 2, samples := [1] }, { prt := { ports := List.replicate 64 { fenced := false, highPower := false, partials := [] } }, cfg := { cur := { ports := { ports := [{ mode := 1 }] } } } }, by decide⟩,
    ⟨{}, 0, { fragCount := 6, frag := 6, count := 1024, first := 1023, phase := 2, samples := [1] }, { prt := { ports := List.replicate 64 { fenced := false, highPower := false, partials := [] } }, cfg := { cur := { ports := { ports := [{ mode := 1 }] } } } }, by decide⟩,
    ⟨{}, 0, { station := 1, windowId := 2 }, { station := 1, windowId := 2, closed := true }, { prt := { ports := List.replicate 64 { fenced := false, highPower := false, partials := [{ station := 1, windowId := 2, closed := true }] } }, cfg := { cur := { ports := { ports := [{ mode := 1 }] } } } }, by decide⟩,
    ⟨{}, 0, { station := 5, windowId := 2, fragCount := 3, frag := 2, count := 1, first := 0, phase := 2, samples := [1] }, { station := 5, windowId := 2, frags := [{ station := 5, windowId := 2, fragCount := 3, frag := 0, count := 1, first := 0, phase := 0, samples := [1] }, { station := 5, windowId := 2, fragCount := 3, frag := 1, count := 1, first := 0, phase := 1, samples := [1] }] }, { port := 0, station := 5, windowId := 2, t0 := ({} : SurgeFrag).t0, interval := ({} : SurgeFrag).interval, count := 1, scale := ({} : SurgeFrag).scale, quality := ({} : SurgeFrag).quality, phases := [[1], [1], [1]], stamp := 0 }, { gen := { unitPresent := 7 }, prt := { ports := [{ fenced := false, highPower := false, partials := [{ station := 5, windowId := 2, frags := [{ station := 5, windowId := 2, fragCount := 3, frag := 0, count := 1, first := 0, phase := 0, samples := [1] }, { station := 5, windowId := 2, fragCount := 3, frag := 1, count := 1, first := 0, phase := 1, samples := [1] }] }] }] }, cfg := { next := none, cur := { unitUse := 7, stations := [{ number := 5, port := 0 }], ports := { ports := [{ mode := 1 }] } } } }, by decide⟩,
    ⟨{}, 0, 1, 2, { station := 1, windowId := 2, first := 0, closed := false }, { now := 65536000000, prt := { ports := List.replicate 64 { partials := [{ station := 1, windowId := 2, first := 0, closed := false }] } }, cfg := { cur := { ports := { ports := [] } } } }, by decide⟩,
    ⟨{}, 0, 1, 2, { station := 1, windowId := 2, first := 0 }, { now := 65535999999, prt := { ports := List.replicate 64 { partials := [{ station := 1, windowId := 2, first := 0 }] } }, cfg := { cur := { ports := { ports := [] } } } }, by decide⟩,
    ⟨{}, 0, { station := 1, windowId := 2, fragCount := 3, frag := 0, count := 1, first := 0, phase := 0, samples := [1] }, { station := 1, windowId := 2, frags := [{ station := 1, windowId := 2, fragCount := 3, frag := 0, count := 1, first := 0, phase := 0, samples := [1] }] }, { prt := { ports := List.replicate 64 { fenced := false, highPower := false, partials := [{ station := 1, windowId := 2, frags := [{ station := 1, windowId := 2, fragCount := 3, frag := 0, count := 1, first := 0, phase := 0, samples := [1] }] }] } }, cfg := { next := none, cur := { ports := { ports := [{ mode := 1 }] } } } }, by decide⟩,
    ⟨{}, 0, { station := 1, windowId := 2, fragCount := 3, frag := 0, count := 1, first := 0, phase := 0, samples := [2] }, { station := 1, windowId := 2, frags := [{ station := 1, windowId := 2, fragCount := 3, frag := 0, count := 1, first := 0, phase := 0, samples := [1] }] }, { prt := { ports := List.replicate 64 { fenced := false, highPower := false, partials := [{ station := 1, windowId := 2, frags := [{ station := 1, windowId := 2, fragCount := 3, frag := 0, count := 1, first := 0, phase := 0, samples := [1] }] }] } }, cfg := { next := none, cur := { ports := { ports := [{ mode := 1 }] } } } }, by decide⟩,
    ⟨{}, 0, { station := 1, windowId := 2, fragCount := 3, frag := 1, count := 1, first := 0, phase := 1, samples := [1] }, { station := 1, windowId := 2, frags := [{ station := 1, windowId := 2, fragCount := 3, frag := 0, count := 1, first := 0, phase := 0, samples := [1] }] }, { prt := { ports := List.replicate 64 { fenced := false, highPower := false, partials := [{ station := 1, windowId := 2, frags := [{ station := 1, windowId := 2, fragCount := 3, frag := 0, count := 1, first := 0, phase := 0, samples := [1] }] }] } }, cfg := { next := none, cur := { ports := { ports := [{ mode := 1 }] } } } }, by decide⟩,
    ⟨{}, 0, { rct := some { src := 1, seq := 2 } }, { prt := { ports := List.replicate 64 { fenced := false, highPower := false, rctSeen := [{ rct := { src := 1, seq := 2 }, lane := 32, at_ := 0 }] } }, cfg := { cur := { ports := { ports := [{ mode := 1, prp := true }] } } } }, by decide⟩⟩

/-- The hypotheses of SampledValuesAreTakenAndEmitted are met. -/
theorem witness_SampledValuesAreTakenAndEmitted :
    (∃ (w : When) (port : Fin 64) (f : SvFrame) (s : State), s.portTakes port.val = true ∧ s.cfg.loaded = true ∧ s.svi.oldSubs
      = none ∧ (duplicate port.val f.rct (s.at w)).1 = false ∧ s.svSec.subs.findIdx? (·.matches (s.logical port.val) f) = none) ∧
    (∃ (w : When) (port : Fin 64) (f : SvFrame) (i : Nat) (s : State), s.portTakes port.val = true ∧ s.cfg.loaded = true ∧
      s.svi.oldSubs = none ∧ (duplicate port.val f.rct (s.at w)).1 = false ∧ f.simulated = false ∧ s.svSec.subs.findIdx?
      (·.matches (s.logical port.val) f) = some i ∧ i < s.svi.subs.length) ∧
    (∃ (w : When) (port : Fin 64) (f : SvFrame) (s : State), s.portTakes port.val = true ∧ (duplicate port.val f.rct (s.at
      w)).1 = true) ∧
    (∃ (w : When) (sub : Fin 512) (s : State), sub.val < s.svi.subs.length ∧ (s.svi.subs.getD sub.val {}).state = 1 ∧
      (s.svi.subs.getD sub.val {}).lastAccept + msTicks 4 ≤ (s.at w).islandTime phasorIsland) ∧
    (∃ (w : When) (sub : Fin 512) (s : State), (s.at w).islandTime phasorIsland < (s.svi.subs.getD sub.val {}).lastAccept +
      msTicks 4) ∧
    (∃ (w : When) (s : State), s.cfg.loaded = true ∧ s.cfg.next = none ∧ s.svi.fenced = false ∧ slotTime (s.at w).nextSlot +
      nsTicks (s.latencyOf (s.at w).nextSlot) ≤ (s.at w).islandTime phasorIsland) ∧
    (∃ (w : When) (s : State), (s.at w).islandTime phasorIsland < slotTime (s.at w).nextSlot + nsTicks (s.latencyOf (s.at
      w).nextSlot)) ∧
    (∃ (w : When) (s : State), s.cfg.loaded = true ∧ s.svi.fenced = false ∧ slotTime (s.at w).nextSlot + nsTicks (s.latencyOf
      (s.at w).nextSlot) ≤ (s.at w).islandTime phasorIsland) ∧
    (∃ (w : When) (port : Fin 64) (f : SvFrame) (i : Nat) (s : State), s.portTakes port.val = true ∧ s.cfg.loaded = true ∧
      f.simulated = false ∧ (duplicate port.val f.rct (s.at w)).1 = false ∧ s.svSec.subs.findIdx? (·.matches (s.logical
      port.val) f) = some i ∧ i < s.svi.subs.length) ∧
    (∃ (w : When) (port : Fin 64) (f : SvFrame) (i : Nat) (c : SubCfg) (x : SubState) (s : State), s.portTakes port.val = true
      ∧ s.cfg.loaded = true ∧ s.svi.oldSubs = none ∧ (duplicate port.val f.rct (s.at w)).1 = false ∧ s.svSec.subs.findIdx?
      (·.matches (s.logical port.val) f) = some i ∧ c = s.svSec.subs.getD i {} ∧ i < s.svi.subs.length ∧ x = s.svi.subs.getD i
      {} ∧ (f.simulated = false ∨ c.testAccept = true) ∧ c.agrees f = false) ∧
    (∃ (w : When) (port : Fin 64) (f : SvFrame) (i : Nat) (c : SubCfg) (x : SubState) (a : Asdu) (s : State), s.portTakes
      port.val = true ∧ s.cfg.loaded = true ∧ s.svi.oldSubs = none ∧ (duplicate port.val f.rct (s.at w)).1 = false ∧
      s.svSec.subs.findIdx? (·.matches (s.logical port.val) f) = some i ∧ c = s.svSec.subs.getD i {} ∧ i < s.svi.subs.length ∧
      x = s.svi.subs.getD i {} ∧ (f.simulated = false ∨ c.testAccept = true) ∧ c.agrees f = true ∧ f.asdus = [a] ∧ x.fits c
      (s.rxStamp port.val f.stamp) s.svi.lastSlot a = true) ∧
    (∃ (w : When) (port : Fin 64) (f : SvFrame) (i : Nat) (c : SubCfg) (x : SubState) (a : Asdu) (s : State), s.portTakes
      port.val = true ∧ s.cfg.loaded = true ∧ s.svi.oldSubs = none ∧ (duplicate port.val f.rct (s.at w)).1 = false ∧
      s.svSec.subs.findIdx? (·.matches (s.logical port.val) f) = some i ∧ c = s.svSec.subs.getD i {} ∧ i < s.svi.subs.length ∧
      x = s.svi.subs.getD i {} ∧ (f.simulated = false ∨ c.testAccept = true) ∧ c.agrees f = true ∧ f.asdus = [a] ∧ x.fits c
      (s.rxStamp port.val f.stamp) s.svi.lastSlot a = false) ∧
    (∃ (w : When) (port : Fin 64) (f : SvFrame) (i : Nat) (s : State), s.portTakes port.val = true ∧ s.cfg.loaded = true ∧
      s.svi.oldSubs = none ∧ (duplicate port.val f.rct (s.at w)).1 = false ∧ s.svSec.subs.findIdx? (·.matches (s.logical
      port.val) f) = some i ∧ f.simulated = true ∧ (s.svSec.subs.getD i {}).testAccept = false) :=
  ⟨⟨{}, 0, {}, { svi := { oldSubs := none }, prt := { ports := List.replicate 64 { fenced := false, highPower := false } }, cfg := { loaded := true, next := none, cur := { sv := { subs := [] }, ports := { ports := [{ mode := 1 }] } } } }, by decide⟩,
    ⟨{}, 0, { appid := 0x4000, svId := [1] }, 0, { svi := { oldSubs := none, subs := [{}] }, prt := { ports := List.replicate 64 { fenced := false, highPower := false } }, cfg := { loaded := true, next := none, cur := { sv := { subs := [{ port := 0, appid := 0x4000, svId := [1], noAsdu := 1, chCount := 1 }] }, ports := { ports := [{ mode := 1 }] } } } }, by decide⟩,
    ⟨{}, 0, { rct := some { src := 1, seq := 2 } }, { prt := { ports := List.replicate 64 { fenced := false, highPower := false, rctSeen := [{ rct := { src := 1, seq := 2 }, lane := 32, at_ := 0 }] } }, cfg := { cur := { ports := { ports := [{ mode := 1, prp := true }] } } } }, by decide⟩,
    ⟨{}, 0, { now := 262144000000, svi := { subs := [{ state := 1, lastAccept := 0 }] } }, by decide⟩,
    ⟨{}, 0, { now := 262143999999, svi := { subs := [{ state := 1, lastAccept := 0 }] } }, by decide⟩,
    ⟨{}, { now := 65536000000000, svi := { oldSubs := none, fenced := false, lastSlot := some 8, subs := [] }, cfg := { loaded := true, next := none, cur := { sv := { alignLatency := 0, archSegments := 0, channels := 0, subs := [] } } } }, by decide⟩,
    ⟨{}, { now := 0, svi := { lastSlot := some 0 }, cfg := { loaded := true, next := none, cur := { sv := { alignLatency := 50000 } } } }, by decide⟩,
    ⟨{}, { now := 65536000000000, svi := { oldSubs := none, fenced := false, lastSlot := some 8, subs := [] }, cfg := { loaded := true, next := some {}, cur := { sv := { alignLatency := 0, archSegments := 0, channels := 0, subs := [] } } } }, by decide⟩,
    ⟨{}, 0, { appid := 0x4000, svId := [1] }, 0, { svi := { oldSubs := some [{}], subs := [{}] }, prt := { ports := List.replicate 64 { fenced := false, highPower := false } }, cfg := { loaded := true, next := none, cur := { sv := { subs := [{ port := 0, appid := 0x4000, svId := [1], noAsdu := 1, chCount := 1 }] }, ports := { ports := [{ mode := 1 }] } } } }, by decide⟩,
    ⟨{}, 0, { appid := 0x4000, svId := [1], confRev := 1 }, 0, { port := 0, appid := 0x4000, svId := [1], noAsdu := 1, chCount := 1, maxDelay := 1000, confRev := 0 }, {}, { now := 9, svi := { oldSubs := none, lastSlot := none, subs := [{}] }, prt := { ports := List.replicate 64 { fenced := false, highPower := false } }, cfg := { loaded := true, next := none, cur := { asym := [], sv := { subs := [{ port := 0, appid := 0x4000, svId := [1], noAsdu := 1, chCount := 1, maxDelay := 1000, confRev := 0 }] }, ports := { ports := [{ mode := 1 }] } } } }, by decide⟩,
    ⟨{}, 0, { appid := 0x4000, svId := [1], smpSynch := 2, asdus := [{ smpCnt := 0, values := [(5, 0)] }] }, 0, { port := 0, appid := 0x4000, svId := [1], noAsdu := 1, chCount := 1, maxDelay := 1000, confRev := 0 }, {}, { smpCnt := 0, values := [(5, 0)] }, { now := 9, svi := { oldSubs := none, lastSlot := none, subs := [{}] }, prt := { ports := List.replicate 64 { fenced := false, highPower := false } }, cfg := { loaded := true, next := none, cur := { asym := [], sv := { subs := [{ port := 0, appid := 0x4000, svId := [1], noAsdu := 1, chCount := 1, maxDelay := 1000, confRev := 0 }] }, ports := { ports := [{ mode := 1 }] } } } }, by decide⟩,
    ⟨{}, 0, { appid := 0x4000, svId := [1], smpSynch := 2, asdus := [{ smpCnt := 4000, values := [(5, 0)] }] }, 0, { port := 0, appid := 0x4000, svId := [1], noAsdu := 1, chCount := 1, maxDelay := 1000, confRev := 0 }, {}, { smpCnt := 4000, values := [(5, 0)] }, { now := 9, svi := { oldSubs := none, lastSlot := none, subs := [{}] }, prt := { ports := List.replicate 64 { fenced := false, highPower := false } }, cfg := { loaded := true, next := none, cur := { asym := [], sv := { subs := [{ port := 0, appid := 0x4000, svId := [1], noAsdu := 1, chCount := 1, maxDelay := 1000, confRev := 0 }] }, ports := { ports := [{ mode := 1 }] } } } }, by decide⟩,
    ⟨{}, 0, { appid := 0x4000, svId := [1], simulated := true }, 0, { svi := { oldSubs := none, subs := [{}] }, prt := { ports := List.replicate 64 { fenced := false, highPower := false } }, cfg := { loaded := true, next := none, cur := { sv := { subs := [{ port := 0, appid := 0x4000, svId := [1], noAsdu := 1, chCount := 1, maxDelay := 1000, confRev := 0 }] }, ports := { ports := [{ mode := 1 }] } } } }, by decide⟩⟩

/-- The hypotheses of ArchiveWindows are met. -/
theorem witness_ArchiveWindows :
    (∃ (w : When) (tt : Nat) (first : Nat) (last : Nat) (i : Nat) (s : State), s.svi.tNs < 1000000000 ∧ s.svi.pre ≤ 60000 ∧
      s.svi.post ≤ 60000 ∧ s.svSec.archSegments ≠ 0 ∧ s.svSec.channels ≠ 0 ∧ tt = (s.at w).freezeTime (s.svi.tLo + s.svi.tHi *
      2 ^ 32) s.svi.tNs 0 ∧ first = (freezeSlots tt s.svi.pre s.svi.post).1 ∧ last = (freezeSlots tt s.svi.pre s.svi.post).2 ∧
      tt ≤ (s.at w).islandTime phasorIsland + 60 * ticksPerSec ∧ (s.at w).oldestRow ≤ last ∧ s.svi.wins.findIdx? (·.state == 0)
      = some i ∧ 2 * s.frozenWith (max first (s.at w).oldestRow) last ≤ s.svSec.archSegments ∧ (s.at w).grants .firmware
      0x30040 = true) ∧
    (∃ (w : When) (tt : Nat) (first : Nat) (last : Nat) (s : State), s.svi.tNs < 1000000000 ∧ s.svi.pre ≤ 60000 ∧ s.svi.post ≤
      60000 ∧ s.svSec.archSegments ≠ 0 ∧ s.svSec.channels ≠ 0 ∧ tt = (s.at w).freezeTime (s.svi.tLo + s.svi.tHi * 2 ^ 32)
      s.svi.tNs 0 ∧ first = (freezeSlots tt s.svi.pre s.svi.post).1 ∧ last = (freezeSlots tt s.svi.pre s.svi.post).2 ∧ (s.at
      w).islandTime phasorIsland + 60 * ticksPerSec < tt ∧ (s.at w).grants .firmware 0x30040 = true) ∧
    (∃ (w : When) (tt : Nat) (first : Nat) (last : Nat) (s : State), s.svi.tNs < 1000000000 ∧ s.svi.pre ≤ 60000 ∧ s.svi.post ≤
      60000 ∧ s.svSec.archSegments ≠ 0 ∧ s.svSec.channels ≠ 0 ∧ tt = (s.at w).freezeTime (s.svi.tLo + s.svi.tHi * 2 ^ 32)
      s.svi.tNs 0 ∧ first = (freezeSlots tt s.svi.pre s.svi.post).1 ∧ last = (freezeSlots tt s.svi.pre s.svi.post).2 ∧ tt ≤
      (s.at w).islandTime phasorIsland + 60 * ticksPerSec ∧ last < (s.at w).oldestRow ∧ (s.at w).grants .firmware 0x30040 =
      true) ∧
    (∃ (w : When) (tt : Nat) (first : Nat) (last : Nat) (s : State), s.svi.tNs < 1000000000 ∧ s.svi.pre ≤ 60000 ∧ s.svi.post ≤
      60000 ∧ s.svSec.archSegments ≠ 0 ∧ s.svSec.channels ≠ 0 ∧ tt = (s.at w).freezeTime (s.svi.tLo + s.svi.tHi * 2 ^ 32)
      s.svi.tNs 0 ∧ first = (freezeSlots tt s.svi.pre s.svi.post).1 ∧ last = (freezeSlots tt s.svi.pre s.svi.post).2 ∧ tt ≤
      (s.at w).islandTime phasorIsland + 60 * ticksPerSec ∧ (s.at w).oldestRow ≤ last ∧ s.svi.wins.findIdx? (·.state == 0) =
      none ∧ (s.at w).grants .firmware 0x30040 = true) ∧
    (∃ (w : When) (tt : Nat) (first : Nat) (last : Nat) (i : Nat) (s : State), s.svi.tNs < 1000000000 ∧ s.svi.pre ≤ 60000 ∧
      s.svi.post ≤ 60000 ∧ s.svSec.archSegments ≠ 0 ∧ s.svSec.channels ≠ 0 ∧ tt = (s.at w).freezeTime (s.svi.tLo + s.svi.tHi *
      2 ^ 32) s.svi.tNs 0 ∧ first = (freezeSlots tt s.svi.pre s.svi.post).1 ∧ last = (freezeSlots tt s.svi.pre s.svi.post).2 ∧
      tt ≤ (s.at w).islandTime phasorIsland + 60 * ticksPerSec ∧ (s.at w).oldestRow ≤ last ∧ s.svi.wins.findIdx? (·.state == 0)
      = some i ∧ s.svSec.archSegments < 2 * s.frozenWith (max first (s.at w).oldestRow) last ∧ (s.at w).grants .firmware
      0x30040 = true) ∧
    (∃ (w : When) (s : State), (1000000000 ≤ s.svi.tNs ∨ 60000 < s.svi.pre ∨ 60000 < s.svi.post ∨ s.svSec.archSegments = 0 ∨
      s.svSec.channels = 0) ∧ (s.at w).grants .firmware 0x30040 = true) ∧
    (∃ (w : When) (who : Agent) (s : State), isFw who = false ∧ (s.at w).grants who 0x30040 = true) ∧
    (∃ (w : When) (s : State), (s.at w).grants .firmware 0x30040 = true) ∧
    (∃ (ses : Fin 8) (win : Nat) (s : State), s.serves ses 2 = true ∧ win < 4) ∧
    (∃ (w : When) (ses : Fin 8) (pre : Nat) (post : Nat) (tSec : Nat) (tt : Nat) (first : Nat) (last : Nat) (i : Nat) (f :
      SubSec) (s : State), s.serves ses 2 = true ∧ f.ns < 1000000000 ∧ pre ≤ 60000 ∧ post ≤ 60000 ∧ s.svSec.archSegments ≠ 0 ∧
      s.svSec.channels ≠ 0 ∧ tt = (s.at w).freezeTime tSec f.ns f.frac ∧ first = (freezeSlots tt pre post).1 ∧ last =
      (freezeSlots tt pre post).2 ∧ tt ≤ (s.at w).islandTime phasorIsland + 60 * ticksPerSec ∧ (s.at w).oldestRow ≤ last ∧
      s.svi.wins.findIdx? (·.state == 0) = some i ∧ 2 * s.frozenWith (max first (s.at w).oldestRow) last ≤
      s.svSec.archSegments) ∧
    (∃ (w : When) (ses : Fin 8) (pre : Nat) (post : Nat) (tSec : Nat) (tt : Nat) (first : Nat) (last : Nat) (i : Nat) (f :
      SubSec) (s : State), s.serves ses 2 = true ∧ f.ns < 1000000000 ∧ pre ≤ 60000 ∧ post ≤ 60000 ∧ s.svSec.archSegments ≠ 0 ∧
      s.svSec.channels ≠ 0 ∧ tt = (s.at w).freezeTime tSec f.ns f.frac ∧ first = (freezeSlots tt pre post).1 ∧ last =
      (freezeSlots tt pre post).2 ∧ tt ≤ (s.at w).islandTime phasorIsland + 60 * ticksPerSec ∧ (s.at w).oldestRow ≤ last ∧
      s.svi.wins.findIdx? (·.state == 0) = some i ∧ s.svSec.archSegments < 2 * s.frozenWith (max first (s.at w).oldestRow)
      last) ∧
    (∃ (ses : Fin 8) (pre : Nat) (post : Nat) (f : SubSec) (s : State), s.serves ses 2 = true ∧ (1000000000 ≤ f.ns ∨ 60000 <
      pre ∨ 60000 < post ∨ s.svSec.archSegments = 0 ∨ s.svSec.channels = 0)) ∧
    (∃ (ses : Fin 8) (x : Session) (s : State), s.hif.sessions.getD ses.val none = some x ∧ x.role = 1 ∧ x.helloDone = true) :=
  ⟨⟨{}, 65536000000000, 14400, 878400, 0, { now := 65536000000000, svi := { tLo := 1, tHi := 0, tNs := 0, pre := 0, post := 60000, lastSlot := some 5, segs := [] }, cfg := { next := none, cur := { sv := { channels := 1, archSegments := 192 } } } }, by decide⟩,
    ⟨{}, 4063232000000000, 892800, 1756800, { now := 65536000000000, svi := { tLo := 62, tHi := 0, tNs := 0, pre := 0, post := 60000, lastSlot := some 5, segs := [] }, cfg := { next := none, cur := { sv := { channels := 1, archSegments := 192 } } } }, by decide⟩,
    ⟨{}, 65536000000000, 14400, 14400, { now := 65536000000000, svi := { tLo := 1, tHi := 0, tNs := 0, pre := 0, post := 0, lastSlot := some 20000, writing := none, segs := [{ state := 2, firstSlot := 14401, rows := 1, channels := 1 }] }, cfg := { next := none, cur := { sv := { channels := 1, archSegments := 192 } } } }, by decide⟩,
    ⟨{}, 65536000000000, 14400, 878400, { now := 65536000000000, svi := { tLo := 1, tHi := 0, tNs := 0, pre := 0, post := 60000, lastSlot := some 5, segs := [], wins := List.replicate 4 { state := 2 } }, cfg := { next := none, cur := { sv := { channels := 1, archSegments := 192 } } } }, by decide⟩,
    ⟨{}, 65536000000000, 14400, 878400, 0, { now := 65536000000000, svi := { tLo := 1, tHi := 0, tNs := 0, pre := 0, post := 60000, lastSlot := some 5, segs := [] }, cfg := { next := none, cur := { sv := { channels := 1, archSegments := 1 } } } }, by decide⟩,
    ⟨{}, { svi := { pre := 60001 } }, by decide⟩,
    ⟨{}, .host 0, { hif := { sessions := [some { role := 2 }] } }, by decide⟩,
    ⟨{}, {}, by decide⟩,
    ⟨0, 3, { hif := { sessions := [some { role := 2, helloDone := true, bootstrap := false }] } }, by decide⟩,
    ⟨{}, 0, 0, 60000, 1, 65536000000001, 14401, 878400, 0, { frac := 1 }, { now := 65536000000000, hif := { sessions := [some { role := 2, helloDone := true, bootstrap := false }] }, svi := { lastSlot := some 5, segs := [] }, cfg := { next := none, cur := { sv := { channels := 1, archSegments := 192 } } } }, by decide⟩,
    ⟨{}, 0, 0, 60000, 1, 65536000000001, 14401, 878400, 0, { frac := 1 }, { now := 65536000000000, hif := { sessions := [some { role := 2, helloDone := true, bootstrap := false }] }, svi := { lastSlot := some 5, segs := [] }, cfg := { next := none, cur := { sv := { channels := 1, archSegments := 1 } } } }, by decide⟩,
    ⟨0, 60001, 0, {}, { hif := { sessions := [some { role := 2, helloDone := true, bootstrap := false }] } }, by decide⟩,
    ⟨0, { role := 1, helloDone := true }, { hif := { sessions := [some { role := 1, helloDone := true }] } }, by decide⟩⟩

/-- The hypotheses of BulkReads are met. -/
theorem witness_BulkReads :
    (∃ (ses : Fin 8) (r : RowsReq) (s : State), s.serves ses 1 = true ∧ (65528 < 4 * r.rows * r.chCount ∨ 192 ≤ r.segment)) ∧
    (∃ (ses : Fin 8) (r : RowsReq) (s : State), s.serves ses 1 = true ∧ 4 * r.rows * r.chCount ≤ 65528 ∧ r.segment < 192 ∧
      ((s.seg r.segment).state ≠ 3 ∨ (s.seg r.segment).rows < r.rowFirst + r.rows)) ∧
    (∃ (ses : Fin 8) (r : RowsReq) (s : State), s.serves ses 1 = true ∧ 4 * r.rows * r.chCount ≤ 65528 ∧ r.segment < 192 ∧
      (s.seg r.segment).state = 3 ∧ r.rowFirst + r.rows ≤ (s.seg r.segment).rows ∧ r.chFirst + r.chCount ≤ (s.seg
      r.segment).channels) ∧
    (∃ (w : When) (ses : Fin 8) (r : RowsReq) (faults : List (Nat × MemFault)) (s : State), s.serves ses 1 = true ∧ 0 < r.rows
      ∧ 0 < r.chCount ∧ 4 * r.rows * r.chCount ≤ 65528 ∧ r.segment < 192 ∧ (s.seg r.segment).state = 3 ∧ r.rowFirst + r.rows ≤
      (s.seg r.segment).rows ∧ r.chFirst + r.chCount ≤ (s.seg r.segment).channels ∧ faults = [] ∧ (s.at w).bulkGranted
      (rowReads (s.rowAddr r) (4 * (s.seg r.segment).channels) r.chCount r.rows) = true ∧ s.mem.mem.errs = [] ∧ (rowReads
      (s.rowAddr r) (4 * (s.seg r.segment).channels) r.chCount r.rows).all (fun p => (s.mem.mem.readBytes p.1 p.2).isSome) =
      true ∧ s.bulks ses = [] ∧ s.slotOpen 25 = true ∧ 4 * r.chCount * r.rows ≤ (s.bgt.slots.getD 25 {}).budget -
      (s.bgt.slots.getD 25 {}).spent) ∧
    (∃ (ses : Fin 8) (len64 : Nat) (s : State), s.serves ses 1 = true ∧ (len64 < 1 ∨ 1023 < len64)) ∧
    (∃ (w : When) (ses : Fin 8) (addr : Nat) (len64 : Nat) (s : State), s.serves ses 1 = true ∧ 1 ≤ len64 ∧ len64 ≤ 1023 ∧
      (s.at w).bulkGranted (linePieces addr (64 * len64)) = true ∧ s.mem.mem.errs = [] ∧ (linePieces addr (64 * len64)).all
      (fun p => (s.mem.mem.readBytes p.1 p.2).isSome) = true ∧ s.bulks ses = [] ∧ s.slotOpen 25 = true ∧ 64 * len64 ≤
      (s.bgt.slots.getD 25 {}).budget - (s.bgt.slots.getD 25 {}).spent) ∧
    (∃ (ses : Fin 8) (s : State), s.serves ses 1 = true ∧ s.keeperReadable = false) ∧
    (∃ (ses : Fin 8) (first : Nat) (count : Nat) (x : Session) (s : State), s.hif.sessions.getD ses.val none = some x ∧
      s.serves ses 1 = true ∧ s.keeperReadable = true ∧ 1 ≤ count ∧ count ≤ 1000 ∧ x.hasSnap = true ∧ first ≤ x.snapHigh ∧
      s.slotOpen 25 = false) ∧
    (∃ (w : When) (ses : Fin 8) (b : Bulk) (rest : List Bulk) (r : HeldReply) (shut : Nat) (s : State), s.bulks ses = b :: rest
      ∧ r.waits = some 0 ∧ (s.hif.sessions.getD ses.val none).map (·.replies) = some [r] ∧ s.bgt.bulkShut = some shut ∧ max
      shut b.since + aonSec 1 ≤ max s.aon w.a ∧ (s.hif.sessions.getD ses.val none).map (fun x => s.pubFirst x.port) = some
      false) ∧
    (∃ (w : When) (ses : Fin 8) (b : Bulk) (rest : List Bulk) (s : State), s.bulks ses = b :: rest ∧ (s.bgt.bulkShut = none ∨
      max s.aon w.a < b.since + aonSec 1)) ∧
    (∃ (ses : Fin 8) (first : Nat) (count : Nat) (x : Session) (s : State), s.hif.sessions.getD ses.val none = some x ∧
      s.serves ses 1 = true ∧ s.keeperReadable = true ∧ 1 ≤ count ∧ count ≤ 1000 ∧ x.hasSnap = true ∧ first ≤ x.snapHigh ∧
      x.bulks = [] ∧ s.slotOpen 25 = true ∧ 64 * min count (x.snapHigh + 1 - first) ≤ (s.bgt.slots.getD 25 {}).budget -
      (s.bgt.slots.getD 25 {}).spent) ∧
    (∃ (w : When) (ses : Fin 8) (addr : Nat) (st : Nat) (s : State), s.serves ses 1 = true ∧ addr % 64 = 0 ∧ (checkAccess 9 0
      addr 64 false (s.at w)).1 = some st ∧ s.bulks ses = [] ∧ s.slotOpen 25 = true ∧ 64 ≤ (s.bgt.slots.getD 25 {}).budget -
      (s.bgt.slots.getD 25 {}).spent) :=
  ⟨⟨0, { segment := 192 }, { hif := { sessions := [some { role := 1, helloDone := true, bootstrap := false }] } }, by decide⟩,
    ⟨0, { segment := 191 }, { svi := { segs := [] }, hif := { sessions := [some { role := 1, helloDone := true, bootstrap := false }] } }, by decide⟩,
    ⟨0, { segment := 0, rows := 2, chCount := 1, chFirst := 0, rowFirst := 0 }, { svi := { segs := [{ state := 3, rows := 2, channels := 1 }] }, hif := { sessions := [some { role := 1, helloDone := true, bootstrap := false }] } }, by decide +kernel⟩,
    ⟨{}, 0, { segment := 0, rows := 2, chCount := 1, chFirst := 0, rowFirst := 0 }, {}, { svi := { segs := [{ state := 3, rows := 2, channels := 1 }] }, hif := { sessions := [some { role := 1, helloDone := true, bootstrap := false, bulks := [] }] }, mem := { mapApplied := false, mem := { cleared := true, light := [], poisoned := [] } }, wrd := { loaded := true, fixed := [{ base := 0, len64 := 1, space := 0, read := 512 }], runtime := [] }, cfg := { next := none, cur := { sv := { archFirst := 0 } } }, bgt := { mask := 0x2000000, slots := List.replicate 64 { budget := 4096, spent := 4088, exhausted := false } } }, by decide +kernel⟩,
    ⟨0, 1024, { hif := { sessions := [some { role := 1, helloDone := true, bootstrap := false }] } }, by decide⟩,
    ⟨{}, 0, 0, 1, { hif := { sessions := [some { role := 1, helloDone := true, bootstrap := false, bulks := [] }] }, mem := { mapApplied := false, mem := { cleared := true, light := [], poisoned := [] } }, wrd := { loaded := true, fixed := [{ base := 0, len64 := 1, space := 0, read := 512 }], runtime := [] }, bgt := { mask := 0x2000000, slots := List.replicate 64 { budget := 4096, spent := 4032, exhausted := false } } }, by decide +kernel⟩,
    ⟨0, { kpr := { state := 0 }, hif := { sessions := [some { role := 1, helloDone := true, bootstrap := false }] } }, by decide⟩,
    ⟨0, 5, 1, { role := 1, helloDone := true, bootstrap := false, hasSnap := true, snapHigh := 5 }, { kpr := { state := 2, cartridge := some {} }, bgt := { mask := 0 }, hif := { sessions := [some { role := 1, helloDone := true, bootstrap := false, hasSnap := true, snapHigh := 5 }] } }, by decide⟩,
    ⟨{ a := 1000000003 }, 0, { since := 0 }, [], { waits := some 0, ty := 9, tag := 77 }, 3, { bgt := { bulkShut := some 3 }, hif := { sessions := [some { bulks := [{ since := 0 }], replies := [{ waits := some 0, ty := 9, tag := 77 }] }] } }, by decide⟩,
    ⟨{}, 0, { since := 0 }, [], { aon := 999999999, hif := { sessions := [some { bulks := [{ since := 0 }] }] } }, by decide⟩,
    ⟨0, 5, 1, { role := 1, helloDone := true, bootstrap := false, hasSnap := true, snapHigh := 5 }, { kpr := { state := 2, cartridge := some {} }, bgt := { mask := 0x2000000, slots := List.replicate 40 { budget := 100 } }, hif := { sessions := [some { role := 1, helloDone := true, bootstrap := false, hasSnap := true, snapHigh := 5 }] } }, by decide⟩,
    ⟨{}, 0, 0, 4, { hif := { sessions := [some { role := 1, helloDone := true, bootstrap := false, bulks := [] }] }, wrd := { loaded := true, fixed := [] }, bgt := { mask := 0x2000000, slots := List.replicate 64 { budget := 4096, spent := 4032, exhausted := false } } }, by decide +kernel⟩⟩

/-- The hypotheses of PublicationAndConnections are met. -/
theorem witness_PublicationAndConnections :
    (∃ (host : Fin 2) (x : PubFrame) (peer : PubTo) (s : State), s.phe.queue.find? (·.host == host.val) = some x ∧ s.phe.fenced
      = false ∧ s.slotOpen (17 + host.val) = true ∧ s.hif.links.getD host.val false = true ∧ s.publishes (s.pheSec.streams.getD
      x.stream {}) = true ∧ s.pubTo host.val (s.pheSec.streams.getD x.stream {}) x.dest = some peer ∧ s.hif.egress = []) ∧
    (∃ (host : Fin 2) (x : PubFrame) (s : State), s.phe.queue.find? (·.host == host.val) = some x ∧ s.phe.fenced = false ∧
      s.slotOpen (17 + host.val) = true ∧ s.hif.links.getD host.val false = true ∧ s.publishes (s.pheSec.streams.getD x.stream
      {}) = false ∧ s.hif.egress = []) ∧
    (∃ (host : Fin 2) (x : PubFrame) (s : State), s.phe.queue.find? (·.host == host.val) = some x ∧ s.phe.fenced = false ∧
      s.slotOpen (17 + host.val) = true ∧ s.hif.links.getD host.val false = true) ∧
    (∃ (host : Fin 2) (s : State), s.phe.queue.find? (·.host == host.val) = none) ∧
    (∃ (host : Fin 2) (stream : Fin 64) (conn : Nat) (x : StreamCfg) (s : State), s.pheSec.streams[stream.val]? = some x ∧
      s.inUse 0 = true ∧ x.host.testBit host.val = true ∧ x.mode ≠ 1 ∧ stream.val < s.phe.streams.length ∧ (s.phe.streams.getD
      stream.val {}).conns.length < 2 ∧ (s.phe.streams.getD stream.val {}).conns.any (·.conn == conn) = false) ∧
    (∃ (stream : Fin 64) (s : State), 2 ≤ (s.phe.streams.getD stream.val {}).conns.length) ∧
    (∃ (stream : Fin 64) (conn : Nat) (s : State), stream.val < s.phe.streams.length ∧ (s.phe.streams.getD stream.val
      {}).conns.any (·.conn == conn) = true) ∧
    (∃ (host : Fin 2) (x : PubFrame) (peer : PubTo) (s : State), s.phe.queue.find? (·.host == host.val) = some x ∧ s.phe.fenced
      = false ∧ s.slotOpen (17 + host.val) = true ∧ s.hif.links.getD host.val false = true ∧ s.publishes (s.pheSec.streams.getD
      x.stream {}) = true ∧ s.pubTo host.val (s.pheSec.streams.getD x.stream {}) x.dest = some peer ∧ s.hif.egress = []) ∧
    (∃ (host : Fin 2) (x : PubFrame) (s : State), s.phe.queue.find? (·.host == host.val) = some x ∧ s.phe.fenced = false ∧
      s.slotOpen (17 + host.val) = true ∧ s.hif.links.getD host.val false = true ∧ s.publishes (s.pheSec.streams.getD x.stream
      {}) = true ∧ s.pubTo host.val (s.pheSec.streams.getD x.stream {}) x.dest = none ∧ s.hif.egress = []) :=
  ⟨⟨1, { host := 1, stream := 2, dest := some 4, bytes := [5] }, { conn := some 4, port := ({} : StreamCfg).tcpPort }, { gen := { phase := 7 }, wvl := { role := 1 }, phe := { fenced := false, queue := [{ host := 1, stream := 2, dest := some 4, bytes := [5] }] }, hif := { links := [true, true] }, bgt := { mask := 0x40000, slots := List.replicate 64 { budget := 9, spent := 8, exhausted := false } } }, by decide⟩,
    ⟨1, { host := 1, stream := 2, dest := some 4, bytes := [5] }, { phe := { fenced := false, queue := [{ host := 1, stream := 2, dest := some 4, bytes := [5] }] }, hif := { links := [true, true] }, bgt := { mask := 0x40000, slots := List.replicate 64 { budget := 9, spent := 8, exhausted := false } } }, by decide⟩,
    ⟨1, { host := 1, stream := 2, dest := some 4, bytes := [5] }, { phe := { fenced := false, queue := [{ host := 1, stream := 2, dest := some 4, bytes := [5] }] }, hif := { links := [true, true] }, bgt := { mask := 0x40000, slots := List.replicate 64 { budget := 9, spent := 8, exhausted := false } } }, by decide⟩,
    ⟨1, { phe := { queue := [{ host := 0 }] } }, by decide⟩,
    ⟨1, 0, 4, { host := 2, mode := 0 }, { gen := { unitPresent := 7 }, phe := { streams := [{ conns := [{ conn := 3 }] }] }, cfg := { next := none, cur := { unitUse := 1, phe := { streams := [{ host := 2, mode := 0 }] } } } }, by decide⟩,
    ⟨0, { phe := { streams := [{ conns := [{ conn := 3 }, { conn := 4 }] }] } }, by decide⟩,
    ⟨0, 3, { phe := { streams := [{ conns := [{ conn := 3 }] }] } }, by decide⟩,
    ⟨1, { host := 1, stream := 2, dest := some 4, bytes := [5] }, { conn := some 4, port := ({} : StreamCfg).tcpPort }, { gen := { phase := 7 }, wvl := { role := 1 }, phe := { fenced := false, queue := [{ host := 1, stream := 2, dest := some 4, bytes := [5] }] }, hif := { links := [true, true] }, bgt := { mask := 0x40000, slots := List.replicate 64 { budget := 9, spent := 8, exhausted := false } } }, by decide⟩,
    ⟨1, { host := 1, stream := 2, dest := none, bytes := [5] }, { gen := { phase := 7 }, wvl := { role := 1 }, phe := { fenced := false, queue := [{ host := 1, stream := 2, dest := none, bytes := [5] }] }, hif := { links := [true, true], access := none }, bgt := { mask := 0x40000, slots := List.replicate 64 { budget := 9, spent := 8, exhausted := false } } }, by decide⟩⟩

/-- The hypotheses of SynchrophasorCommands are met. -/
theorem witness_SynchrophasorCommands :
    (∃ (c : C37Cmd) (n : Nat) (s : State), s.inUse 0 = true ∧ cmdAccepted c s = true ∧ c.path = .tcp n ∧ (s.pheSec.streams.getD
      c.stream.val {}).mode ≠ 2) ∧
    (∃ (c : C37Cmd) (n : Nat) (s : State), s.inUse 0 = true ∧ cmdAccepted c s = true ∧ c.path = .tcp n ∧ (s.pheSec.streams.getD
      c.stream.val {}).mode ≠ 2) ∧
    (∃ (c : C37Cmd) (src : List Byte) (s : State), s.inUse 0 = true ∧ cmdAccepted c s = true ∧ c.path = .udp src) ∧
    (∃ (c : C37Cmd) (n : Nat) (s : State), s.inUse 0 = true ∧ cmdAccepted c s = true ∧ c.path = .tcp n ∧ (s.pheSec.streams.getD
      c.stream.val {}).mode = 2) ∧
    (∃ (c : C37Cmd) (src : List Byte) (s : State), s.inUse 0 = true ∧ cmdAccepted c s = true ∧ c.path = .udp src) ∧
    (∃ (c : C37Cmd) (peer : PubTo) (s : State), s.inUse 0 = true ∧ cmdAccepted c s = true ∧ s.pubTo (s.cmdFrom c).1
      (s.pheSec.streams.getD c.stream.val {}) (s.cmdFrom c).2 = some peer) ∧
    (∃ (c : C37Cmd) (peer : PubTo) (s : State), s.inUse 0 = true ∧ cmdAccepted c s = true ∧ s.pubTo (s.cmdFrom c).1
      (s.pheSec.streams.getD c.stream.val {}) (s.cmdFrom c).2 = some peer) ∧
    (∃ (c : C37Cmd) (s : State), s.inUse 0 = true ∧ cmdAccepted c s = false) ∧
    (∃ (s : State), s.inUse 0 = true) ∧
    (∃ (s : State), s.inUse 0 = false) ∧
    (∃ (c : C37Cmd) (s : State), s.inUse 0 = true ∧ cmdAccepted c s = true ∧ s.pubTo (s.cmdFrom c).1 (s.pheSec.streams.getD
      c.stream.val {}) (s.cmdFrom c).2 = none) ∧
    (∃ (c : C37Cmd) (s : State), s.inUse 0 = true ∧ cmdAccepted c s = true ∧ s.pubTo (s.cmdFrom c).1 (s.pheSec.streams.getD
      c.stream.val {}) (s.cmdFrom c).2 = none) :=
  ⟨⟨{ stream := 0, path := .tcp 3, idcode := 7, chkOk := true }, 3, { gen := { unitPresent := 7 }, phe := { streams := [{ conns := [{ conn := 3 }] }] }, cfg := { next := none, cur := { unitUse := 1, phe := { streams := [{ idcode := 7, mode := 0 }] } } } }, by decide⟩,
    ⟨{ stream := 0, path := .tcp 3, idcode := 7, chkOk := true }, 3, { gen := { unitPresent := 7 }, phe := { streams := [{ conns := [{ conn := 3, on := true }] }] }, cfg := { next := none, cur := { unitUse := 1, phe := { streams := [{ idcode := 7, mode := 0 }] } } } }, by decide⟩,
    ⟨{ stream := 0, path := .udp [9], idcode := 7, chkOk := true }, [9], { gen := { unitPresent := 7 }, phe := { streams := [{}] }, cfg := { next := none, cur := { unitUse := 1, phe := { streams := [{ idcode := 7, mode := 1, udpDest := [9] }] } } } }, by decide⟩,
    ⟨{ stream := 0, path := .tcp 3, idcode := 7, chkOk := true }, 3, { gen := { unitPresent := 7 }, phe := { streams := [{ conns := [{ conn := 3 }] }] }, cfg := { next := none, cur := { unitUse := 1, phe := { streams := [{ idcode := 7, mode := 2 }] } } } }, by decide⟩,
    ⟨{ stream := 0, path := .udp [9], idcode := 7, chkOk := true }, [9], { gen := { unitPresent := 7 }, phe := { streams := [{}] }, cfg := { next := none, cur := { unitUse := 1, phe := { streams := [{ idcode := 7, mode := 1, udpDest := [9] }] } } } }, by decide⟩,
    ⟨{ stream := 0, path := .tcp 3, idcode := 7, chkOk := true }, { conn := some 3, port := ({} : StreamCfg).tcpPort }, { gen := { unitPresent := 7 }, phe := { streams := [{ conns := [{ conn := 3 }] }] }, cfg := { next := none, cur := { unitUse := 1, phe := { streams := [{ idcode := 7, mode := 0 }] } } } }, by decide⟩,
    ⟨{ stream := 0, path := .tcp 3, idcode := 7, chkOk := true }, { conn := some 3, port := ({} : StreamCfg).tcpPort }, { gen := { unitPresent := 7 }, phe := { streams := [{ conns := [{ conn := 3 }] }] }, cfg := { next := none, cur := { unitUse := 1, phe := { streams := [{ idcode := 7, mode := 0 }] } } } }, by decide⟩,
    ⟨{ stream := 0, path := .tcp 3, idcode := 7, chkOk := false }, { gen := { unitPresent := 7 }, phe := { streams := [{ conns := [{ conn := 3 }] }] }, cfg := { next := none, cur := { unitUse := 1, phe := { streams := [{ idcode := 7, mode := 0 }] } } } }, by decide⟩,
    ⟨{ gen := { unitPresent := 7 }, cfg := { next := none, cur := { unitUse := 1 } } }, by decide⟩,
    ⟨{ gen := { unitPresent := 7 }, cfg := { next := none, cur := { unitUse := 6 } } }, by decide⟩,
    ⟨{ stream := 0, path := .udp [9], idcode := 7, chkOk := true }, { gen := { unitPresent := 7 }, hif := { access := none }, phe := { streams := [{}] }, cfg := { next := none, cur := { unitUse := 1, phe := { streams := [{ idcode := 7, mode := 1, udpDest := [9] }] } } } }, by decide⟩,
    ⟨{ stream := 0, path := .udp [9], idcode := 7, chkOk := true }, { gen := { unitPresent := 7 }, hif := { access := none }, phe := { streams := [{}] }, cfg := { next := none, cur := { unitUse := 1, phe := { streams := [{ idcode := 7, mode := 1, udpDest := [9] }] } } } }, by decide⟩⟩

/-- The hypotheses of WavefrontEngine are met. -/
theorem witness_WavefrontEngine :
    (∃ (w : When) (x : SurgeWindow) (rest : List SurgeWindow) (s : State), s.wce.queue = x :: rest ∧ s.wceOpen = true ∧
      (s.wce.openEvents.all fun y => decide ((s.at w).islandTime waveIsland < y.opened + usTicks y.topo.collect)) = true ∧
      s.topo.terms.findIdx? (·.station == x.station) = none) ∧
    (∃ (w : When) (x : SurgeWindow) (rest : List SurgeWindow) (i : Nat) (s : State), s.wce.queue = x :: rest ∧ s.wceOpen = true
      ∧ (s.wce.openEvents.all fun y => decide ((s.at w).islandTime waveIsland < y.opened + usTicks y.topo.collect)) = true ∧
      s.topo.terms.findIdx? (·.station == x.station) = some i ∧ i < s.wce.terms.length ∧ (x.quality.testBit 0 = true ∨
      x.quality.testBit 2 = true ∨ x.count < 4 * filterK x.interval + 2)) ∧
    (∃ (w : When) (x : SurgeWindow) (rest : List SurgeWindow) (i : Nat) (s : State), s.wce.queue = x :: rest ∧ s.wceOpen = true
      ∧ (s.wce.openEvents.all fun y => decide ((s.at w).islandTime waveIsland < y.opened + usTicks y.topo.collect)) = true ∧
      s.topo.terms.findIdx? (·.station == x.station) = some i ∧ x.quality.testBit 0 = false ∧ x.quality.testBit 2 = false ∧ 4 *
      filterK x.interval + 2 ≤ x.count ∧ x.t0 + x.count * x.interval ≤ x.stamp + usTicks 1 ∧ x.stamp ≤ x.t0 + ticksPerSec) ∧
    (∃ (s : State), s.wce.fenced = false) ∧
    (∃ (e : WceEvent) (rest : List WceEvent) (s : State), s.wce.closed = e :: rest ∧ s.wceOpen = true) ∧
    (∃ (by' : Nat) (s : State), s.wce.recommitBy = some by' ∧ s.wce.fenced = false ∧ s.slotOpen 20 = true) ∧
    (∃ (s : State), (s.wce.recommitBy = none ∨ s.wce.fenced = true ∨ s.slotOpen 20 = false)) :=
  ⟨⟨{}, {}, [], { wce := { queue := [{}], running := true, fenced := false }, cfg := { next := none, cur := { topo := { terms := [] } } }, bgt := { mask := 0x100000, slots := List.replicate 64 { budget := 9, spent := 8, exhausted := false } } }, by decide⟩,
    ⟨{}, { station := 4, quality := 4 }, [], 0, { wce := { queue := [{ station := 4, quality := 4 }], running := true, fenced := false }, cfg := { next := none, cur := { topo := { terms := [{ station := 4 }] } } }, bgt := { mask := 0x100000, slots := List.replicate 64 { budget := 9, spent := 8, exhausted := false } } }, by decide⟩,
    ⟨{}, { station := 4, quality := 0, interval := 16384000, count := 34, phases := [], t0 := 0, stamp := 557056000 }, [], 0, { wce := { queue := [{ station := 4, quality := 0, interval := 16384000, count := 34, phases := [], t0 := 0, stamp := 557056000 }], running := true, fenced := false }, cfg := { next := none, cur := { asym := [], topo := { terms := [{ station := 4 }] } } }, bgt := { mask := 0x100000, slots := List.replicate 64 { budget := 9, spent := 8, exhausted := false } } }, by decide⟩,
    ⟨{ wce := { fenced := false } }, by decide⟩,
    ⟨{}, [], { wce := { closed := [{}], running := true, fenced := false }, bgt := { mask := 0x100000, slots := List.replicate 64 { budget := 9, spent := 8, exhausted := false } } }, by decide⟩,
    ⟨5, { wce := { recommitBy := some 5, fenced := false }, bgt := { mask := 0x100000, slots := List.replicate 64 { budget := 9, spent := 8, exhausted := false } } }, by decide⟩,
    ⟨{ wce := { recommitBy := none } }, by decide⟩⟩

/-- The hypotheses of TaskCycle are met. -/
theorem witness_TaskCycle :
    (∃ (w : When) (task : Fin 16) (c : TaskCfg) (s : State), s.taskCfg task.val = some c ∧ s.primary = true ∧ task.val <
      s.seq.tasks.length ∧ (s.task task.val).skipAt = none ∧ (s.task task.val).state = 1 ∧ (s.task task.val).frozen = false ∧
      (s.task task.val).t0 + (nsTicks c.deadline + usTicks 2) ≤ (s.at w).islandTime marketIsland) ∧
    (∃ (s : State), s.primary = false) ∧
    (∃ (task : Fin 16) (s : State), task.val < s.seq.tasks.length ∧ (s.task task.val).state = 1 ∧ (s.task task.val).frozen =
      true ∧ s.primary = true ∧ (s.copyState task.val).pending = none ∧ s.trd.mode ≠ 3) ∧
    (∃ (w : When) (task : Fin 16) (s : State), task.val < s.seq.tasks.length ∧ (s.task task.val).state = 2 ∧ s.trd.mode ≠ 1 ∧
      s.trd.mode ≠ 4 ∧ s.ptm.powerFail = false ∧ (s.at w).grants .firmware 0x60008 = true) ∧
    (∃ (w : When) (task : Fin 16) (s : State), (s.task task.val).state ≠ 2 ∧ s.trd.mode ≠ 4 ∧ s.ptm.powerFail = false ∧ (s.at
      w).grants .firmware 0x60008 = true) ∧
    (∃ (w : When) (who : Agent) (s : State), (s.trd.mode = 4 ∨ s.ptm.powerFail = true) ∧ (s.at w).grants who 0x60008 = true) ∧
    (∃ (w : When) (who : Agent) (s : State), isFw who = false ∧ (s.at w).grants who 0x60008 = true) ∧
    (∃ (task : Fin 16) (s : State), task.val < s.seq.tasks.length ∧ (s.task task.val).state = 3 ∧ s.trd.mode ≠ 4 ∧
      s.ptm.powerFail = false ∧ s.partnerInService = false) ∧
    (∃ (w : When) (s : State), (s.at w).grants .firmware 0x60004 = true) ∧
    (∃ (task : Fin 16) (s : State), task.val < s.seq.tasks.length ∧ (s.task task.val).state = 3 ∧ s.trd.mode ≠ 4 ∧
      s.ptm.powerFail = false) ∧
    (∃ (task : Fin 16) (s : State), task.val < s.seq.tasks.length ∧ (s.task task.val).state = 1 ∧ (s.task task.val).frozen =
      true ∧ s.primary = true) ∧
    (∃ (w : When) (who : Agent) (s : State), (isFw who = true ∨ hostAtLeast 2 who s = true) ∧ (s.at w).grants who 0x60004 =
      true) ∧
    (∃ (w : When) (task : Fin 16) (c : TaskCfg) (n : Nat) (s : State), s.taskCfg task.val = some c ∧ s.primary = true ∧
      task.val < s.seq.tasks.length ∧ (s.task task.val).skipAt = some n ∧ n + (nsTicks c.deadline + usTicks 2) ≤ (s.at
      w).islandTime marketIsland) :=
  ⟨⟨{}, 0, { task := 0, deadline := 1000 }, { now := 196608000, wvl := { role := 1 }, seq := { tasks := [{ state := 1, frozen := false, t0 := 0, skipAt := none }] }, cfg := { next := none, cur := { tasks := [{ task := 0, deadline := 1000 }], points := [] } } }, by decide⟩,
    ⟨{ wvl := { role := 3 } }, by decide⟩,
    ⟨0, { wvl := { role := 1, copies := [{ pending := none }] }, trd := { mode := 0 }, seq := { tasks := [{ state := 1, frozen := true }] } }, by decide⟩,
    ⟨{}, 0, { trd := { mode := 0 }, seq := { tasks := [{ state := 2 }] } }, by decide⟩,
    ⟨{}, 0, { seq := { tasks := [{ state := 1 }] } }, by decide⟩,
    ⟨{}, .firmware, { ptm := { powerFail := true }, seq := { tasks := [{ state := 2 }] } }, by decide⟩,
    ⟨{}, .host 0, { hif := { sessions := [some { role := 2 }] } }, by decide⟩,
    ⟨0, { trd := { mode := 0 }, wvl := { partner := { present := false } }, seq := { tasks := [{ state := 3 }] } }, by decide⟩,
    ⟨{}, {}, by decide⟩,
    ⟨0, { trd := { mode := 0 }, wvl := { role := 1, partner := { present := true, role := 3 }, copies := [{}] }, seq := { tasks := [{ state := 3 }] }, cfg := { cur := { pair := { mode := 1 } } } }, by decide⟩,
    ⟨0, { wvl := { role := 1, copies := [{ pending := some {} }] }, seq := { tasks := [{ state := 1, frozen := true }] } }, by decide⟩,
    ⟨{}, .host 7, { wrd := { loaded := false }, hif := { sessions := List.replicate 8 (some { role := 2 }) } }, by decide⟩,
    ⟨{}, 0, { task := 0, deadline := 0 }, 0, { now := 262144000, wvl := { role := 1 }, seq := { tasks := [{ skipAt := some 0 }] }, cfg := { next := none, cur := { tasks := [{ task := 0, deadline := 0 }] } } }, by decide⟩⟩

/-- The hypotheses of ForcesOfAnEngineer are met. -/
theorem witness_ForcesOfAnEngineer :
    (∃ (ses : Fin 8) (tag : Nat) (p : PointCfg) (i : Nat) (s : State), s.serves ses 3 = true ∧ s.primary = true ∧ s.pointOf tag
      = some p ∧ s.forceable p = true ∧ s.seq.forces.any (·.tag == tag) = false ∧ s.freeForce = some i) ∧
    (∃ (ses : Fin 8) (tag : Nat) (p : PointCfg) (s : State), s.serves ses 3 = true ∧ s.primary = true ∧ s.pointOf tag = some p
      ∧ s.forceable p = true ∧ s.seq.forces.any (·.tag == tag) = true) ∧
    (∃ (ses : Fin 8) (s : State), s.serves ses 3 = true ∧ s.primary = false) ∧
    (∃ (ses : Fin 8) (tag : Nat) (p : PointCfg) (f : Force) (s : State), s.serves ses 3 = true ∧ s.primary = true ∧ s.pointOf
      tag = some p ∧ s.seq.forces.find? (·.tag == tag) = some f) ∧
    (∃ (ses : Fin 8) (idx : Nat) (f : Force) (s : State), s.serves ses 3 = true ∧ idx ≤ 4095 ∧ s.seq.forces.find? (·.idx ==
      idx) = some f) ∧
    (∃ (ses : Fin 8) (idx : Nat) (s : State), s.serves ses 3 = true ∧ 4095 < idx) :=
  ⟨⟨0, 5, { tag := 5, task := 0, forceable := true }, 0, { wvl := { role := 1 }, hif := { sessions := [some { role := 3, helloDone := true, bootstrap := false }] }, seq := { tasks := [], forces := [{ idx := 1, tag := 9 }] }, cfg := { next := none, cur := { points := [{ tag := 5, task := 0, forceable := true }], images := { policy := 1 } } } }, by decide +kernel⟩,
    ⟨0, 5, { tag := 5, task := 0, forceable := true }, { wvl := { role := 1 }, hif := { sessions := [some { role := 3, helloDone := true, bootstrap := false }] }, seq := { tasks := [], forces := [{ idx := 1, tag := 5 }] }, cfg := { next := none, cur := { points := [{ tag := 5, task := 0, forceable := true }], images := { policy := 2 } } } }, by decide⟩,
    ⟨0, { wvl := { role := 3 }, hif := { sessions := [some { role := 3, helloDone := true, bootstrap := false }] } }, by decide⟩,
    ⟨0, 5, { tag := 5, task := 0 }, { idx := 1, tag := 5, value := 7 }, { wvl := { role := 1 }, hif := { sessions := [some { role := 3, helloDone := true, bootstrap := false }] }, seq := { tasks := [], forces := [{ idx := 1, tag := 5, value := 7 }] }, cfg := { next := none, cur := { points := [{ tag := 5, task := 0 }] } } }, by decide⟩,
    ⟨0, 4095, { idx := 4095, tag := 5, value := 6 }, { hif := { sessions := [some { role := 3, helloDone := true, bootstrap := false }] }, seq := { forces := [{ idx := 4095, tag := 5, value := 6 }] } }, by decide⟩,
    ⟨0, 4096, { hif := { sessions := [some { role := 3, helloDone := true, bootstrap := false }] } }, by decide⟩⟩

/-- The hypotheses of TriadVotes are met. -/
theorem witness_TriadVotes :
    (∃ (s : State), s.trd.mode = 0) ∧
    (∃ (g : Nat) (a : LaneTx) (b : LaneTx) (s : State), s.trd.mode = 0 ∧ diffGroup a b = some g) ∧
    (∃ (g : Nat) (h : Nat) (k : Nat) (a : LaneTx) (b : LaneTx) (c : LaneTx) (s : State), s.trd.mode = 0 ∧ diffGroup a b = some
      g ∧ diffGroup b c = some h ∧ diffGroup a c = some k) ∧
    (∃ (s : State), (s.trd.mode = 3 ∨ s.trd.mode = 4 ∨ s.trd.mode = 5)) ∧
    (∃ (k : Nat) (a : LaneTx) (b : LaneTx) (s : State), (s.trd.mode = 1 ∨ s.trd.mode = 2) ∧ s.silentLane = 2 ∧ diffGroup a b =
      some k) ∧
    (∃ (a : LaneTx) (b : LaneTx) (s : State), (s.trd.mode = 1 ∨ s.trd.mode = 2) ∧ s.silentLane = 2 ∧ diffGroup a b = none) ∧
    (∃ (w : When) (s : State), (s.primary = false ∨ s.seq.running = false) ∧ s.trd.fencedAt + usTicks 125 ≤ max s.now w.t ∧
      s.trd.mode = 1 ∧ s.trd.fencedLane < 3 ∧ s.trd.retired = false ∧ s.trd.debugLive = false) ∧
    (∃ (s : State), s.trd.mode = 2) ∧
    (∃ (s : State), s.trd.mode = 2 ∧ s.trd.copyDone = true ∧ s.taskReady = false) ∧
    (∃ (s : State), s.trd.mode = 2 ∧ (s.trd.copyDone = false ∨ s.taskReady = true)) :=
  ⟨⟨{ trd := { mode := 0 } }, by decide⟩,
    ⟨0, { groups := [1] }, { groups := [2] }, { trd := { mode := 0 } }, by decide⟩,
    ⟨0, 0, 0, { groups := [1] }, { groups := [2] }, { groups := [3] }, { trd := { mode := 0 } }, by decide⟩,
    ⟨{ trd := { mode := 4 } }, by decide⟩,
    ⟨0, { groups := [1] }, { groups := [2] }, { trd := { mode := 1, fencedLane := 2 } }, by decide⟩,
    ⟨{}, {}, { trd := { mode := 1, fencedLane := 2 } }, by decide⟩,
    ⟨{}, { now := 8192000000, wvl := { role := 0 }, trd := { mode := 1, fencedLane := 2, fencedAt := 0, retired := false, debugLive := false } }, by decide⟩,
    ⟨{ trd := { mode := 2 } }, by decide⟩,
    ⟨{ trd := { mode := 2, copyDone := true }, seq := { tasks := [] } }, by decide⟩,
    ⟨{ trd := { mode := 2, copyDone := false } }, by decide⟩⟩

/-- The hypotheses of SplitAndDebug are met. -/
theorem witness_SplitAndDebug :
    (∃ (w : When) (s : State), splitRefusal (s.at w) = 0 ∧ (s.at w).grants .firmware 0x70004 = true) ∧
    (∃ (w : When) (s : State), splitRefusal (s.at w) ≠ 0 ∧ (s.at w).grants .firmware 0x70004 = true) ∧
    (∃ (w : When) (k : Fin 3) (s : State), s.trd.mode = 3 ∧ (putAt s.trd.splitDone k.val true).all (· == true) = true ∧ (s.at
      w).grants (.lane k) splitEndAddr = true) ∧
    (∃ (w : When) (k : Fin 3) (s : State), s.trd.mode = 3 ∧ (putAt s.trd.splitDone k.val true).all (· == true) = false ∧ (s.at
      w).grants (.lane k) splitEndAddr = true) ∧
    (∃ (w : When) (who : Agent) (lane : Fin 4) (s : State), hostAtLeast 3 who s = true ∧ lane.val < 3 ∧ (s.at w).grants who
      0x70028 = true) ∧
    (∃ (w : When) (lane : Fin 4) (s : State), attachRefusal lane.val (s.at w) = 0) ∧
    (∃ (w : When) (lane : Fin 4) (s : State), attachRefusal lane.val (s.at w) ≠ 0) ∧
    (∃ (s : State), s.trd.debugLive = true) ∧
    (∃ (w : When) (who : Agent) (s : State), hostAtLeast 2 who s = true ∧ s.trd.debugLive = true ∧ (s.at w).grants who 0x70028
      = true) ∧
    (∃ (w : When) (n : Nat) (s : State), s.trd.armLane = some n ∧ s.trd.armUntil ≤ max s.aon w.a) :=
  ⟨⟨{}, { trd := { mode := 0, armLane := none, splitInPeriod := false, splitEntry := [1, 1, 1] }, seq := { tasks := [] }, fcr := { sources := [] }, bgt := { mask := 0x800000, slots := List.replicate 64 { budget := 10000, spent := 0, exhausted := false } } }, by decide⟩,
    ⟨{}, { trd := { mode := 1 } }, by decide⟩,
    ⟨{}, 2, { wrd := { loaded := true, wards := List.replicate 8 {} ++ [{ regions := [{ base64 := 0, len64 := 0x5400, read := 14, write := 14 }] }] }, trd := { mode := 3, splitDone := [true, true, false] } }, by decide⟩,
    ⟨{}, 2, { wrd := { loaded := true, wards := List.replicate 8 {} ++ [{ regions := [{ base64 := 0, len64 := 0x5400, read := 14, write := 14 }] }] }, trd := { mode := 3, splitDone := [false, true, false] } }, by decide⟩,
    ⟨{}, .host 0, 2, { hif := { sessions := [some { role := 3 }] } }, by decide⟩,
    ⟨{}, 1, { aon := 5, wvl := { role := 3 }, trd := { mode := 0, armLane := some 1, armUntil := 9, retired := false } }, by decide⟩,
    ⟨{}, 1, { wvl := { role := 1 } }, by decide⟩,
    ⟨{ trd := { debugLive := true } }, by decide⟩,
    ⟨{}, .host 0, { trd := { debugLive := true }, hif := { sessions := [some { role := 3 }] } }, by decide⟩,
    ⟨{ a := 600000000000 }, 1, { trd := { armLane := some 1, armUntil := 600000000000 } }, by decide⟩⟩

/-- The hypotheses of StrobeOpensAPeriod are met. -/
theorem witness_StrobeOpensAPeriod :
    (∃ (s : State), (s.ptm.powerFail = false ∨ s.gen.powerGood = true) ∧ (s.tmb.retainedLoad = none ∨ s.tmb.state ≠ 0) ∧
      s.discont = false) ∧
    (∃ (s : State), (s.ptm.powerFail = false ∨ s.gen.powerGood = true) ∧ (s.tmb.retainedLoad = none ∨ s.tmb.state ≠ 0) ∧
      s.discont = true) ∧
    (∃ (s : State), s.ptm.powerFail = true ∧ s.gen.powerGood = false) :=
  ⟨⟨{ gen := { powerGood := true }, tmb := { retainedLoad := none }, discont := false }, by decide⟩,
    ⟨{ gen := { powerGood := true }, tmb := { retainedLoad := none }, discont := true }, by decide⟩,
    ⟨{ ptm := { powerFail := true }, gen := { powerGood := false } }, by decide⟩⟩

/-- The hypotheses of BudgetsAndMasks are met. -/
theorem witness_BudgetsAndMasks :
    (∃ (i : Fin 64) (n : Nat) (s : State), (s.bgt.slots.getD i.val {}).spent + n < (s.bgt.slots.getD i.val {}).budget) ∧
    (∃ (i : Fin 64) (n : Nat) (s : State), i.val < s.bgt.slots.length ∧ (i.val ≠ 23 ∨ s.trd.mode ≠ 3) ∧ (s.bgt.slots.getD i.val
      {}).budget ≤ (s.bgt.slots.getD i.val {}).spent + n ∧ (s.bgt.slots.getD i.val {}).exhausted = false) ∧
    (∃ (i : Fin 64) (n : Nat) (s : State), i.val = 23 ∧ s.trd.mode = 3 ∧ i.val < s.bgt.slots.length ∧ (s.bgt.slots.getD 23
      {}).budget ≤ (s.bgt.slots.getD 23 {}).spent + n ∧ (s.bgt.slots.getD 23 {}).exhausted = false) ∧
    (∃ (n : Fin 64) (k : Nat) (s : State), n.val < s.prt.ports.length ∧ s.portBudget n.val ≤ (s.port n.val).spent + k) ∧
    (∃ (b : Nat) (s : State), s.bgt.booting = false ∧ s.bgt.next = some b) ∧
    (∃ (s : State), s.bgt.booting = true) :=
  ⟨⟨63, 8, { bgt := { slots := List.replicate 64 { budget := 9, spent := 0 } } }, by decide⟩,
    ⟨63, 8, { bgt := { slots := List.replicate 64 { budget := 9, spent := 1, exhausted := false } } }, by decide⟩,
    ⟨23, 8, { trd := { mode := 3 }, bgt := { slots := List.replicate 64 { budget := 9, spent := 1, exhausted := false } } }, by decide⟩,
    ⟨63, 0, { prt := { ports := List.replicate 64 { spent := 0 } }, cfg := { next := none, cur := { budgets := { ports := [] } } } }, by decide⟩,
    ⟨5, { bgt := { booting := false, next := some 5 } }, by decide⟩,
    ⟨{ bgt := { booting := true } }, by decide⟩⟩

/-- The hypotheses of HeatAndHandOver are met. -/
theorem witness_HeatAndHandOver :
    (∃ (sensor : Fin 12) (s : State), s.sensors.contains sensor.val = true ∧ (sensor.val ≠ 7 ∨ s.tmb.holdSince = none) ∧
      sensor.val < s.ptm.temps.length) ∧
    (∃ (s : State), s.ptm.degraded = false ∧ s.bgt.booting = false ∧ s.thermalCause ≠ 0 ∧ s.primary = false) ∧
    (∃ (w : When) (s : State), s.ptm.degraded = true ∧ s.ptm.lastReq + aonSec 1 ≤ max s.aon w.a ∧ s.canHandOver = true) ∧
    (∃ (s : State), s.ptm.degraded = false) ∧
    (∃ (w : When) (c : Nat) (s : State), s.ptm.degraded = true ∧ s.ptm.coolSince = some c ∧ c + aonSec 60 ≤ max s.aon w.a) ∧
    (∃ (sensor : Fin 12) (s : State), s.sensors.contains sensor.val = false ∧ sensor.val < s.ptm.temps.length) ∧
    (∃ (temp : Int) (s : State), s.sensors.contains 7 = true ∧ 7 < s.ptm.temps.length ∧ s.tmb.holdSince.isSome = true ∧
      s.tmb.holdLimit = 28800 ∧ 16 < (signedOf 16 (unsignedOf 16 temp) - s.tmb.ocxoAtEntry).natAbs) ∧
    (∃ (s : State), s.ptm.degraded = false ∧ s.bgt.booting = false ∧ s.thermalCause ≠ 0) :=
  ⟨⟨11, {}, by decide⟩,
    ⟨{ wvl := { role := 3 }, bgt := { booting := false }, ptm := { degraded := false, hotRun := [8000] } }, by decide⟩,
    ⟨{}, { aon := 1000000000, ptm := { degraded := true, lastReq := 0 }, wvl := { role := 1, handover := none, partner := { present := true, role := 3 } }, cfg := { next := none, cur := { pair := { mode := 1 } } } }, by decide⟩,
    ⟨{ ptm := { degraded := false } }, by decide⟩,
    ⟨{ a := 60000000000 }, 0, { ptm := { degraded := true, coolSince := some 0 } }, by decide⟩,
    ⟨4, { gen := { unitPresent := 0 }, ptm := { temps := List.replicate 12 9 } }, by decide⟩,
    ⟨17, { tmb := { state := 3, holdSince := some 0, holdLimit := 28800, ocxoAtEntry := 0 }, ptm := { temps := List.replicate 12 9 } }, by decide⟩,
    ⟨{ bgt := { booting := false }, wvl := { role := 1, partner := { present := true, role := 3 } }, ptm := { degraded := false, hotRun := List.replicate 12 8000 }, cfg := { cur := { pair := { mode := 1 } } } }, by decide⟩⟩

/-- The hypotheses of PowerAndBanks are met. -/
theorem witness_PowerAndBanks :
    (∃ (s : State), s.gen.phase ≠ 0 ∧ s.ptm.mv.length = 2 ∧ s.ptm.feed.length = 2) ∧
    (∃ (mv1 : Nat) (mv2 : Nat) (s : State), s.gen.phase ≠ 0 ∧ (s.ptm.feed = [1, 0] ∨ s.ptm.feed = [0, 1] ∨ s.ptm.feed = [1, 1])
      ∧ mv1 < 32000 ∧ mv2 < 32000 ∧ s.ptm.ride = false ∧ s.ptm.powerFail = false) ∧
    (∃ (w : When) (low : Bool) (s : State), s.ptm.ride = true ∧ (low = true ∨ s.ptm.rideSince + aonMs 10 ≤ max s.aon w.a)) ∧
    (∃ (w : When) (s : State), s.ptm.ride = true ∧ max s.aon w.a < s.ptm.rideSince + aonMs 10) ∧
    (∃ (s : State), s.ptm.powerFail = true ∧ s.keeperWritable = false) ∧
    (∃ (w : When) (c : Cartridge) (s : State), s.ptm.powerFail = true ∧ s.keeperWritable = true ∧ s.kpr.cartridge = some c ∧ 0
      < (refillBucket (s.at w)).roundAllowance) ∧
    (∃ (w : When) (g : Nat) (s : State), s.gen.phase = 0 ∧ s.ptm.bankTested = false ∧ s.ptm.ride = false ∧ s.ptm.bankTesting =
      false ∧ s.feedGood = true ∧ s.ptm.goodSince = some g ∧ g + aonMs 400 ≤ max s.aon w.a) ∧
    (∃ (s : State), s.ptm.bankTested = false ∧ (s.feedGood = false ∨ s.ptm.goodSince = none)) ∧
    (∃ (ride : Nat) (hold : Nat) (s : State), s.ptm.bankTesting = true ∧ s.gen.phase = 0 ∧ s.gen.powerGood = true ∧ s.feedGood
      = true ∧ 800 ≤ ride ∧ ride < 65536 ∧ 800 ≤ hold ∧ hold < 65536) ∧
    (∃ (ride : Nat) (hold : Nat) (s : State), s.ptm.bankTesting = true ∧ ride < 800 ∧ hold < 65536) ∧
    (∃ (sensor : Fin 12), (sensor.val = 0 ∨ sensor.val = 2 ∨ sensor.val = 3 ∨ sensor.val = 4 ∨ sensor.val = 5 ∨ sensor.val =
      10)) ∧
    (∃ (sensor : Fin 12), (sensor.val = 1 ∨ 6 ≤ sensor.val ∧ sensor.val ≠ 10)) ∧
    (∃ (s : State), s.ptm.powerFail = true) ∧
    (∃ (w : When) (s : State), s.ptm.bankTested = true ∧ s.ptm.lastBankTest + aonSec 86400 ≤ max s.aon w.a ∧ s.ptm.ride = false
      ∧ s.ptm.bankTesting = false) :=
  ⟨⟨{ gen := { phase := 7 }, ptm := { mv := [0, 0], feed := [1, 0] } }, by decide⟩,
    ⟨31999, 0, { gen := { phase := 7 }, ptm := { mv := [48000, 0], feed := [1, 0], ride := false, powerFail := false } }, by decide⟩,
    ⟨{ a := 10000000 }, false, { ptm := { ride := true, rideSince := 0 } }, by decide⟩,
    ⟨{}, { aon := 9999999, ptm := { ride := true, rideSince := 0 } }, by decide⟩,
    ⟨{ ptm := { powerFail := true }, kpr := { state := 0 }, fio := { dout := List.replicate 8 { driven := true }, ao := List.replicate 4 { driving := true } } }, by decide⟩,
    ⟨{}, {}, { ptm := { powerFail := true }, kpr := { state := 2, boltOpen := false, cartridge := some {} } }, by decide⟩,
    ⟨{}, 0, { aon := 400000000, gen := { phase := 0 }, ptm := { bankTested := false, ride := false, bankTesting := false, feed := [1, 0], goodSince := some 0 } }, by decide⟩,
    ⟨{ gen := { phase := 0 }, ptm := { bankTested := false, feed := [0, 0] } }, by decide⟩,
    ⟨800, 65535, { gen := { phase := 0, powerGood := true }, ptm := { bankTesting := true, feed := [1, 0] } }, by decide⟩,
    ⟨799, 800, { ptm := { bankTesting := true } }, by decide⟩,
    ⟨5, by decide⟩,
    ⟨6, by decide⟩,
    ⟨{ ptm := { powerFail := true }, kpr := { state := 2, boltOpen := false, cartridge := some {} } }, by decide⟩,
    ⟨{}, { aon := 86400000000000, ptm := { bankTested := true, lastBankTest := 0 } }, by decide⟩⟩

/-- The hypotheses of HeartbeatsAndLanes are met. -/
theorem witness_HeartbeatsAndLanes :
    (∃ (h : Heartbeat) (s : State), s.pair.mode ≠ 0 ∧ h.hdr.side ≠ s.wvl.side) ∧
    (∃ (s : State), s.pair.mode = 0) ∧
    (∃ (s : State), s.pair.mode ≠ 0 ∧ s.wvl.hbPrev = false ∧ s.wvl.missRun = 0) ∧
    (∃ (s : State), s.pair.mode ≠ 0 ∧ s.wvl.partner.present = true ∧ s.wvl.hbPrev = false ∧ 1 ≤ s.wvl.missRun) ∧
    (∃ (s : State), s.wvl.hbPrev = true) ∧
    (∃ (w : When) (lane : Fin 4) (s : State), s.wvl.lanesUp.testBit lane.val = true ∧ s.wvl.laneSeen.getD lane.val 0 + aonMs 1
      ≤ max s.aon w.a) ∧
    (∃ (w : When) (lane : Fin 4) (s : State), max s.aon w.a < s.wvl.laneSeen.getD lane.val 0 + aonMs 1) ∧
    (∃ (s : State), s.pair.mode ≠ 0) ∧
    (∃ (w : When) (s : State), (s.at w).grants .firmware 0xA0008 = true) ∧
    (∃ (w : When) (who : Agent) (s : State), isFw who = false ∧ (s.at w).grants who 0xA0008 = true) ∧
    (∃ (s : State), s.pair.mode ≠ 0) ∧
    (∃ (s : State), s.pair.mode ≠ 0) :=
  ⟨⟨{ hdr := { side := 1, role := 3 } }, { wvl := { side := 0 }, cfg := { cur := { pair := { mode := 1 } } } }, by decide⟩,
    ⟨{ cfg := { cur := { pair := { mode := 0 } } } }, by decide⟩,
    ⟨{ wvl := { hbPrev := false, missRun := 0, partner := { everSeen := false } }, cfg := { cur := { pair := { mode := 1 } } } }, by decide⟩,
    ⟨{ wvl := { hbPrev := false, missRun := 1, partner := { everSeen := true, present := true } }, cfg := { cur := { pair := { mode := 1 } } } }, by decide⟩,
    ⟨{ wvl := { hbPrev := true } }, by decide⟩,
    ⟨{ a := 1000000 }, 3, { wvl := { lanesUp := 8, laneSeen := [0, 0, 0, 0] } }, by decide⟩,
    ⟨{}, 3, { aon := 999999, wvl := { lanesUp := 8, laneSeen := [0, 0, 0, 0] } }, by decide⟩,
    ⟨{ cfg := { cur := { pair := { mode := 1 } } } }, by decide⟩,
    ⟨{}, {}, by decide⟩,
    ⟨{}, .host 0, { hif := { sessions := [some { role := 2 }] } }, by decide⟩,
    ⟨{ cfg := { cur := { pair := { mode := 1 } } } }, by decide⟩,
    ⟨{ cfg := { cur := { pair := { mode := 1 } } } }, by decide⟩⟩

/-- The hypotheses of CopiesAndReseeds are met. -/
theorem witness_CopiesAndReseeds :
    (∃ (h : LinkHdr) (c : CopyMsg) (s : State), s.pair.mode ≠ 0 ∧ h.side ≠ s.wvl.side ∧ (s.wvl.role = 2 ∨ s.wvl.role = 3) ∧
      c.task.val < s.wvl.copies.length ∧ c.lost = true) ∧
    (∃ (h : LinkHdr) (c : CopyMsg) (s : State), s.pair.mode ≠ 0 ∧ h.side ≠ s.wvl.side ∧ s.wvl.role = 3 ∧ c.lost = false ∧
      c.task.val < s.seq.tasks.length ∧ c.tgen = (s.task c.task.val).gen ∧ s.wvl.reseed.testBit c.task.val = false ∧ c.base =
      (s.copyState c.task.val).applied) ∧
    (∃ (s : State), s.pair.mode = 0) ∧
    (∃ (h : LinkHdr) (task : Fin 16) (s : State), s.pair.mode ≠ 0 ∧ h.side ≠ s.wvl.side ∧ s.wvl.role = 3 ∧ task.val <
      s.seq.tasks.length) ∧
    (∃ (task : Fin 16) (lines : Nat) (s : State), s.primary = true ∧ s.partnerInService = true ∧ s.wvl.reseed.testBit task.val
      = true ∧ task.val < s.wvl.copies.length ∧ (s.copyState task.val).ended = false ∧ s.firstPending = none ∧ 0 < lines ∧ 264
      ≤ s.copyRoom ∧ (s.copyState task.val).reseedPos + lines < (s.reseedLines task.val).length) ∧
    (∃ (s : State), s.primary = false) ∧
    (∃ (h : LinkHdr) (task : Fin 16) (s : State), s.pair.mode ≠ 0 ∧ h.side ≠ s.wvl.side ∧ s.wvl.role = 3 ∧ s.wvl.reseed.testBit
      task.val = true ∧ task.val < s.wvl.copies.length ∧ task.val < s.seq.tasks.length) ∧
    (∃ (task : Fin 16) (s : State), s.primary = true ∧ s.partnerInService = true ∧ s.wvl.reseed.testBit task.val = true ∧
      task.val < s.wvl.copies.length ∧ (s.copyState task.val).ended = false ∧ s.firstPending = none ∧ (s.reseedLines
      task.val).length = (s.copyState task.val).reseedPos ∧ s.copyRoom ≠ 0 ∧ 16 + 4 * (s.copyOuts task.val).length + 8 *
      s.forceWords.length ≤ s.copyRoom) :=
  ⟨⟨{ side := 1 }, { lost := true, task := 15 }, { wvl := { role := 3, side := 0 }, cfg := { cur := { pair := { mode := 1 } } } }, by decide⟩,
    ⟨{ side := 1 }, { tgen := 4, task := 0, base := 0, cycle := 1 }, { wvl := { role := 3, side := 0, reseed := 0 }, seq := { tasks := [{ gen := 4 }] }, cfg := { cur := { pair := { mode := 1 } } } }, by decide⟩,
    ⟨{ cfg := { cur := { pair := { mode := 0 } } } }, by decide⟩,
    ⟨{ side := 1 }, 0, { wvl := { role := 3, side := 0, reseed := 0 }, seq := { tasks := [{}] }, cfg := { cur := { pair := { mode := 1 } } } }, by decide⟩,
    ⟨0, 1, { wvl := { role := 1, lanesUp := 1, reseed := 1, copies := [{ pending := none, ended := false, reseedPos := 0 }], partner := { present := true, role := 2 } }, seq := { tasks := [{}] }, bgt := { mask := 0x80000, slots := List.replicate 64 { budget := 264, spent := 0, exhausted := false } }, cfg := { next := none, cur := { insts := { baseUnit := 0, insts := [{ task := 0, addr := 0, size := 512 }] } } } }, by decide +kernel⟩,
    ⟨{ wvl := { role := 2 } }, by decide⟩,
    ⟨{ side := 1 }, 0, { wvl := { role := 3, side := 0, reseed := 1, copies := [{}] }, seq := { tasks := [{}] }, cfg := { cur := { pair := { mode := 1 } } } }, by decide⟩,
    ⟨0, { wvl := { role := 1, lanesUp := 1, reseed := 1, copies := [{ pending := none, ended := false, reseedPos := 0 }], partner := { present := true, role := 2 } }, seq := { tasks := [{}] }, bgt := { mask := 0x80000, slots := List.replicate 64 { budget := 264, spent := 0, exhausted := false } }, cfg := { next := none, cur := { insts := { baseUnit := 0, insts := [] } } } }, by decide +kernel⟩⟩

/-- The hypotheses of HandOverAndTakeOver are met. -/
theorem witness_HandOverAndTakeOver :
    (∃ (x : Handover) (s : State), s.wvl.handover = some x ∧ s.primary = true ∧ s.handoverTest x = true ∧ x.reply = none) ∧
    (∃ (s : State), s.wvl.handover = none) ∧
    (∃ (h : LinkHdr) (hs : Nat) (x : Handover) (s : State), s.pair.mode ≠ 0 ∧ h.side ≠ s.wvl.side ∧ s.wvl.handover = some x ∧
      x.h = some hs ∧ s.pcount + 1 < hs) ∧
    (∃ (x : Handover) (hs : Nat) (s : State), s.wvl.handover = some x ∧ s.primary = true ∧ x.h = some hs ∧ hs ≤ s.pcount ∧
      x.acked = true) ∧
    (∃ (x : Handover) (hs : Nat) (s : State), s.wvl.handover = some x ∧ s.primary = true ∧ x.h = some hs ∧ hs ≤ s.pcount ∧
      x.acked = false) ∧
    (∃ (h : LinkHdr) (s : State), s.pair.mode ≠ 0 ∧ h.side ≠ s.wvl.side ∧ s.wvl.role = 3 ∧ s.wvl.takeAt = none) ∧
    (∃ (h : LinkHdr) (s : State), s.pair.mode ≠ 0 ∧ h.side ≠ s.wvl.side ∧ s.wvl.role = 3 ∧ s.wvl.lanesUp ≠ 0) ∧
    (∃ (k : Takeover) (s : State), s.wvl.takeAt = some k ∧ s.wvl.role = 3 ∧ k.count ≤ s.pcount) ∧
    (∃ (k : Takeover) (s : State), s.wvl.takeAt = some k ∧ s.pcount < k.count) ∧
    (∃ (s : State), s.primary = true ∧ s.wvl.yielding = true ∧ s.wvl.yieldAt ≤ s.pcount) ∧
    (∃ (s : State), (s.wvl.yielding = false ∨ s.pcount < s.wvl.yieldAt)) ∧
    (∃ (w : When) (s : State), s.canHandOver = true ∧ (s.at w).grants .firmware 0xA0004 = true) ∧
    (∃ (w : When) (s : State), s.canHandOver = false ∧ (s.at w).grants .firmware 0xA0004 = true) :=
  ⟨⟨{ asked := 0 }, { pcount := 40, wvl := { role := 1, handover := some { asked := 0 } } }, by decide⟩,
    ⟨{ wvl := { handover := none } }, by decide⟩,
    ⟨{ side := 1 }, 5, { h := some 5 }, { pcount := 3, wvl := { side := 0, handover := some { h := some 5 } }, cfg := { cur := { pair := { mode := 1 } } } }, by decide⟩,
    ⟨{ h := some 5, acked := true, cause := 3 }, 5, { pcount := 5, wvl := { role := 1, handover := some { h := some 5, acked := true, cause := 3 } } }, by decide⟩,
    ⟨{ h := some 5, acked := false, cause := 3 }, 5, { pcount := 5, wvl := { role := 1, handover := some { h := some 5, acked := false, cause := 3 } } }, by decide⟩,
    ⟨{ side := 1 }, { wvl := { role := 3, side := 0, takeAt := none }, cfg := { cur := { pair := { mode := 1 } } } }, by decide⟩,
    ⟨{ side := 1 }, { wvl := { role := 3, side := 0, lanesUp := 8, takeAt := none }, cfg := { cur := { pair := { mode := 1 } } } }, by decide⟩,
    ⟨{ count := 5 }, { pcount := 5, wvl := { role := 3, takeAt := some { count := 5 } } }, by decide⟩,
    ⟨{ count := 5 }, { pcount := 4, wvl := { role := 3, takeAt := some { count := 5 } } }, by decide⟩,
    ⟨{ wvl := { role := 1, yielding := true } }, by decide⟩,
    ⟨{ pcount := 4, wvl := { role := 1, yielding := true, yieldAt := 5 } }, by decide⟩,
    ⟨{}, { wvl := { role := 1, handover := none, partner := { present := true, role := 3 } }, cfg := { cur := { pair := { mode := 1 } } } }, by decide⟩,
    ⟨{}, { wvl := { role := 3 } }, by decide⟩⟩

/-- The hypotheses of PairCommands are met. -/
theorem witness_PairCommands :
    (∃ (w : When) (ses : Fin 8) (s : State), s.serves ses 2 = true ∧ s.pair.mode ≠ 0 ∧ s.primary = true ∧ s.partnerStandby =
      true ∧ (s.at w).pairBusy = false) ∧
    (∃ (ses : Fin 8) (s : State), s.serves ses 2 = true ∧ (s.pair.mode = 0 ∨ s.primary = false)) ∧
    (∃ (w : When) (ses : Fin 8) (s : State), s.serves ses 2 = true ∧ s.pair.mode ≠ 0 ∧ s.wvl.role = 3 ∧ (s.at w).pairBusy =
      false) ∧
    (∃ (w : When) (ses : Fin 8) (s : State), s.serves ses 3 = true ∧ s.pair.mode ≠ 0 ∧ s.wvl.role = 3 ∧ (s.at w).pairBusy =
      false) ∧
    (∃ (ses : Fin 8) (n : Nat) (s : State), s.serves ses 3 = true ∧ s.pair.mode ≠ 0 ∧ s.primary = true ∧ 1 ≤ n ∧ n ≤ 2 ^ 30 ∧
      s.keeperWritable = true) ∧
    (∃ (ses : Fin 8) (s : State), s.serves ses 3 = true ∧ s.pair.mode ≠ 0 ∧ (s.wvl.role = 4 ∨ s.wvl.role = 5)) :=
  ⟨⟨{}, 0, { wvl := { role := 1, handover := none, takeAt := none, partner := { present := true, role := 3 } }, hif := { sessions := [some { role := 2, helloDone := true, bootstrap := false }] }, cfg := { cur := { pair := { mode := 1 } } } }, by decide⟩,
    ⟨0, { wvl := { role := 3 }, hif := { sessions := [some { role := 2, helloDone := true, bootstrap := false }] } }, by decide⟩,
    ⟨{}, 0, { wvl := { role := 3, handover := none, takeAt := none }, hif := { sessions := [some { role := 2, helloDone := true, bootstrap := false }] }, cfg := { cur := { pair := { mode := 1 } } } }, by decide⟩,
    ⟨{}, 0, { wvl := { role := 3, handover := none, takeAt := none }, hif := { sessions := [some { role := 3, helloDone := true, bootstrap := false }] }, cfg := { cur := { pair := { mode := 1 } } } }, by decide⟩,
    ⟨0, 1073741824, { wvl := { role := 1 }, kpr := { state := 2, boltOpen := false, cartridge := some {} }, hif := { sessions := [some { role := 3, helloDone := true, bootstrap := false }] }, cfg := { cur := { pair := { mode := 1 } } } }, by decide⟩,
    ⟨0, { wvl := { role := 4 }, hif := { sessions := [some { role := 3, helloDone := true, bootstrap := false }] }, cfg := { cur := { pair := { mode := 1 } } } }, by decide⟩⟩

/-- The hypotheses of MemoryCare are met. -/
theorem witness_MemoryCare :
    (∃ (s : State), s.mem.mapApplied = true) ∧
    (∃ (s : State), s.mem.mapApplied = false) ∧
    (∃ (s : State), s.mem.mapApplied = true ∧ s.slotOpen 24 = true ∧ s.scrubSkips (s.scrubFrom s.mem.scrubPos) = false) ∧
    (∃ (s : State), s.slotOpen 24 = false) ∧
    (∃ (w : When) (s : State), (unitMay 15 (64 * s.mem.scrubLineFw) 64 false (s.at w)).1 = true ∧ s.lineLight s.mem.scrubLineFw
      = false ∧ (s.mem.mem.readBytes (64 * s.mem.scrubLineFw) 64).isSome = true ∧ (s.at w).grants .firmware 0xB0004 = true) ∧
    (∃ (w : When) (i : Fin 8) (s : State), s.sesRole i < 3 ∧ (s.at w).grants (.host i) 0xB0004 = true) ∧
    (∃ (w : When) (i : Nat) (s : State), s.mem.mapApplied = true ∧ s.mem.retiring = none ∧ s.mem.retirePageFw ≤ 262143 ∧
      s.mem.retirePageFw / 1024 ≠ s.spareUnit ∧ s.freeSpare = some i ∧ (s.at w).grants .firmware 0xB0004 = true) ∧
    (∃ (w : When) (s : State), s.mem.mapApplied = true ∧ s.mem.retiring = none ∧ s.mem.retirePageFw ≤ 262143 ∧
      s.mem.retirePageFw / 1024 ≠ s.spareUnit ∧ s.freeSpare = none ∧ (s.at w).grants .firmware 0xB0004 = true) ∧
    (∃ (w : When) (s : State), s.mem.mapApplied = true ∧ s.mem.retiring = none ∧ (262143 < s.mem.retirePageFw ∨
      s.mem.retirePageFw / 1024 = s.spareUnit) ∧ (s.at w).grants .firmware 0xB0004 = true) ∧
    (∃ (w : When) (s : State), s.mem.mapApplied = true ∧ s.mem.retiring.isSome = true ∧ (s.at w).grants .firmware 0xB0004 =
      true) ∧
    (∃ (w : When) (s : State), s.mem.mapApplied = false ∧ (s.at w).grants .firmware 0xB0004 = true) ∧
    (∃ (w : When) (i : Fin 8) (s : State), s.sesRole i < 3 ∧ (s.at w).grants (.host i) 0xB0004 = true) ∧
    (∃ (page : Nat) (i : Nat) (s : State), s.mem.retiring = some (page, i, false)) ∧
    (∃ (s : State), s.mem.retiring = none) ∧
    (∃ (w : When) (s : State), s.keeperWritable = true ∧ (s.at w).grants .firmware 0xB0004 = true) ∧
    (∃ (c : Cartridge) (e : Nat) (s : State), s.kpr.inFlight = some { kind := .purge e, pages := 0 } ∧ s.kpr.cartridge = some
      c) ∧
    (∃ (w : When) (who : Agent) (s : State), (s.keeperWritable = false ∨ fwOrEngineer who s = false) ∧ (s.at w).grants who
      0xB0004 = true) ∧
    (∃ (w : When) (s : State), (s.at w).grants .firmware 0xB0014 = true) ∧
    (∃ (w : When) (who : Agent) (s : State), fwOrEngineer who s = false ∧ (s.at w).grants who 0xB0014 = true) ∧
    (∃ (w : When) (who : Agent) (s : State), fwOrEngineer who s = true ∧ (s.at w).grants who 0xB0004 = true) ∧
    (∃ (w : When) (who : Agent) (page : Nat) (i : Nat) (s : State), fwOrEngineer who s = true ∧ page = (if isHost who then
      s.mem.retirePageHost else s.mem.retirePageFw) ∧ s.mem.mapApplied = true ∧ s.mem.retiring = none ∧ page ≤ 262143 ∧ page /
      1024 ≠ s.spareUnit ∧ s.freeSpare = some i ∧ (s.at w).grants who 0xB0004 = true) ∧
    (∃ (page : Nat) (i : Nat) (host : Bool) (s : State), s.mem.retiring = some (page, i, host)) ∧
    (∃ (w : When) (who : Agent) (s : State), fwOrEngineer who s = true ∧ s.keeperWritable = true ∧ (s.at w).grants who 0xB0004
      = true) ∧
    (∃ (w : When) (who : Agent) (s : State), fwOrEngineer who s = true ∧ (s.at w).grants who 0xB0014 = true) :=
  ⟨⟨{ mem := { mapApplied := true, scrubPos := 268435455 } }, by decide⟩,
    ⟨{}, by decide⟩,
    ⟨{ mem := { mapApplied := true, scrubPos := 4 }, bgt := { slots := List.replicate 40 { budget := 100 } } }, by decide⟩,
    ⟨{ bgt := { mask := 4294967295, slots := List.replicate 40 { budget := 0, spent := 5, exhausted := true } } }, by decide⟩,
    ⟨{}, { wrd := { loaded := true, wards := List.replicate 8 { regions := [{ base64 := 0, len64 := 16777216, read := 32768 }] } ++ [{ regions := [{ base64 := 0, len64 := 0x5400, read := 1, write := 1 }] }] }, mem := { scrubLineFw := 3, mem := ({} : Memory).clear } }, by decide⟩,
    ⟨{}, 7, { hif := { sessions := List.replicate 8 (some { role := 2 }) } }, by decide⟩,
    ⟨{}, 1, { mem := { mapApplied := true, retirePageFw := 262143, retired := [(7, 0)] } }, by decide +kernel⟩,
    ⟨{}, { mem := { mapApplied := true, retirePageFw := 262143, retired := (List.range 512).map fun i => (i, i) } }, by decide +kernel⟩,
    ⟨{}, { mem := { mapApplied := true, retirePageFw := 262144 } }, by decide⟩,
    ⟨{}, { mem := { mapApplied := true, retiring := some (1, 2, true) } }, by decide⟩,
    ⟨{}, {}, by decide⟩,
    ⟨{}, 7, { hif := { sessions := List.replicate 8 (some { role := 2 }) } }, by decide⟩,
    ⟨4, 511, { mem := { retiring := some (4, 511, false) } }, by decide⟩,
    ⟨{}, by decide⟩,
    ⟨{}, { kpr := { state := 2, boltOpen := false, cartridge := some { ident := 5 } } }, by decide⟩,
    ⟨{ ident := 5 }, 0, { kpr := { inFlight := some { kind := .purge 0, pages := 0 }, cartridge := some { ident := 5 } } }, by decide⟩,
    ⟨{}, .host 7, { hif := { sessions := List.replicate 8 (some { role := 2 }) } }, by decide⟩,
    ⟨{}, {}, by decide⟩,
    ⟨{}, .host 7, { hif := { sessions := List.replicate 8 (some { role := 2 }) } }, by decide⟩,
    ⟨{}, .host 7, { wrd := { loaded := false }, hif := { sessions := List.replicate 8 (some { role := 3 }) } }, by decide⟩,
    ⟨{}, .host 7, 2048, 0, { wrd := { loaded := false }, mem := { mapApplied := true, retirePageHost := 2048 }, cfg := { cur := { memmap := { spareUnit := 255 } } }, hif := { sessions := List.replicate 8 (some { role := 3 }) } }, by decide +kernel⟩,
    ⟨3, 1, true, { mem := { retiring := some (3, 1, true) } }, by decide⟩,
    ⟨{}, .host 7, { wrd := { loaded := false }, hif := { sessions := List.replicate 8 (some { role := 3 }) }, kpr := { state := 2, boltOpen := false, cartridge := some {} } }, by decide⟩,
    ⟨{}, .host 7, { wrd := { loaded := false }, hif := { sessions := List.replicate 8 (some { role := 3 }) } }, by decide⟩⟩

/-- The hypotheses of CentralRulesAtRunTime are met. -/
theorem witness_CentralRulesAtRunTime :
    (∃ (w : When) (s : State), s.wrd.installCode = 0 ∧ (s.at w).grants .firmware 0xC8038 = true) ∧
    (∃ (w : When) (s : State), s.wrd.installCode ≠ 0 ∧ (s.at w).grants .firmware 0xC8038 = true) ∧
    (∃ (w : When) (s : State), s.wrd.loaded = false ∧ (s.at w).grants .firmware 0xC8038 = true) ∧
    (∃ (w : When) (r : Rule) (s : State), s.wrd.loaded = true ∧ r ∈ s.wrd.fixed ∧ s.wrd.fixed.length ≤ s.wrd.rtSlot ∧
      s.wrd.rtLength ≠ 0 ∧ s.wrd.rtRule.base % 64 = 0 ∧ s.wrd.rtSpace = 0 ∧ s.wrd.rtRule.base + 64 * s.wrd.rtLength ≤ memSize ∧
      wrongMask s.wrd.rtRead = false ∧ wrongMask s.wrd.rtWrite = false ∧ r.overlaps s.wrd.rtRule = true ∧ (s.at w).grants
      .firmware 0xC8038 = true) ∧
    (∃ (who : Agent), isFw who = false) ∧
    (∃ (w : When) (s : State), s.wrd.loaded = true ∧ s.wrd.fixed.length ≤ s.wrd.rtSlot ∧ (s.at w).grants .firmware 0xC8038 =
      true) ∧
    (∃ (w : When) (s : State), s.wrd.loaded = true ∧ s.wrd.rtSlot < s.wrd.fixed.length ∧ (s.at w).grants .firmware 0xC8038 =
      true) ∧
    (∃ (who : Agent), isFw who = false) ∧
    (∃ (w : When) (s : State), (s.at w).grants .firmware 0xC8038 = true) ∧
    (∃ (s : State), s.wrd.draining = true) ∧
    (∃ (s : State), s.wrd.draining = false) :=
  ⟨⟨{}, { wrd := { wards := List.replicate 8 {} ++ [{ regions := [{ base64 := 0, len64 := 0x5400, read := 1, write := 1 }] }], loaded := true, rtSlot := 255, rtLength := 1, rtBaseLo := 64, rtRead := 512 } }, by decide⟩,
    ⟨{}, { wrd := { loaded := false } }, by decide⟩,
    ⟨{}, { wrd := { loaded := false } }, by decide⟩,
    ⟨{}, { base := 0, len64 := 2, space := 0, read := 512 }, { wrd := { wards := List.replicate 8 {} ++ [{ regions := [{ base64 := 0, len64 := 0x5400, read := 1, write := 1 }] }], loaded := true, fixed := [{ base := 0, len64 := 2, space := 0, read := 512 }], rtSlot := 1, rtLength := 1, rtBaseLo := 64, rtSpace := 0, rtWrite := 512 } }, by decide⟩,
    ⟨.lane 2, by decide⟩,
    ⟨{}, { wrd := { wards := List.replicate 8 {} ++ [{ regions := [{ base64 := 0, len64 := 0x5400, read := 1, write := 1 }] }], loaded := true, fixed := [{}], rtSlot := 1 } }, by decide⟩,
    ⟨{}, { wrd := { wards := List.replicate 8 {} ++ [{ regions := [{ base64 := 0, len64 := 0x5400, read := 1, write := 1 }] }], loaded := true, fixed := [{}], rtSlot := 0 } }, by decide⟩,
    ⟨.debug, by decide⟩,
    ⟨{}, {}, by decide⟩,
    ⟨{ wrd := { draining := true, epoch := 1 } }, by decide⟩,
    ⟨{ wrd := { draining := false } }, by decide⟩⟩

/-- The hypotheses of KeeperInTheSlot are met. -/
theorem witness_KeeperInTheSlot :
    (∃ (s : State), s.kpr.boltOpen = true ∧ s.kpr.cartridge = none) ∧
    (∃ (s : State), (s.kpr.boltOpen = false ∨ s.kpr.cartridge.isSome = true)) ∧
    (∃ (w : When) (c : Cartridge) (s : State), s.kpr.boltOpen = true ∧ 3 ≤ s.gen.phase ∧ s.kpr.cartridge = some c ∧ mountState
      c (s.at w) ≠ 2) ∧
    (∃ (s : State), s.kpr.boltOpen = true ∧ s.kpr.cartridge = none) ∧
    (∃ (s : State), s.kpr.boltOpen = false) ∧
    (∃ (s : State), s.kpr.boltOpen = false) ∧
    (∃ (s : State), s.kpr.boltOpen = true) ∧
    (∃ (s : State), s.kpr.boltOpen = true ∧ s.kpr.safe = false ∧ s.kpr.cartridge.isSome = true) ∧
    (∃ (s : State), s.kpr.boltOpen = false) ∧
    (∃ (s : State), s.kpr.boltOpen = true ∧ s.kpr.cartridge.isSome = true ∧ s.inService = false ∧ 3 ≤ s.gen.phase) ∧
    (∃ (s : State), s.kpr.boltOpen = true ∧ s.kpr.cartridge.isSome = true ∧ s.inService = true) ∧
    (∃ (s : State), s.kpr.boltOpen = false) ∧
    (∃ (s : State), s.kpr.boltOpen = true ∧ 3 ≤ s.gen.phase ∧ s.kpr.cartridge.isSome = true) :=
  ⟨⟨{ kpr := { boltOpen := true, cartridge := none } }, by decide⟩,
    ⟨{ kpr := { boltOpen := false } }, by decide⟩,
    ⟨{}, { ident := 5 }, { gen := { phase := 7 }, cfg := { loaded := true }, kpr := { boltOpen := true, startIdent := some 1, cartridge := some { ident := 5 } } }, by decide⟩,
    ⟨{ kpr := { boltOpen := true, cartridge := none } }, by decide⟩,
    ⟨{ kpr := { boltOpen := false } }, by decide⟩,
    ⟨{ kpr := { boltOpen := false, state := 2 } }, by decide⟩,
    ⟨{ kpr := { boltOpen := true } }, by decide⟩,
    ⟨{ kpr := { boltOpen := true, safe := false, cartridge := some {} } }, by decide⟩,
    ⟨{ kpr := { boltOpen := false } }, by decide⟩,
    ⟨{ gen := { phase := 4 }, kpr := { boltOpen := true, cartridge := some {} } }, by decide⟩,
    ⟨{ cfg := { loaded := true }, kpr := { boltOpen := true, cartridge := some {} } }, by decide⟩,
    ⟨{ kpr := { boltOpen := false } }, by decide⟩,
    ⟨{ gen := { phase := 7 }, kpr := { boltOpen := true, cartridge := some {} } }, by decide⟩⟩

/-- The hypotheses of CommissioningAndTheGovernor are met. -/
theorem witness_CommissioningAndTheGovernor :
    (∃ (w : When) (i : Fin 8) (c : Cartridge) (s : State), 3 ≤ s.sesRole i ∧ s.gen.phase = 3 ∧ s.kpr.refuse = 2 ∧ s.kpr.state =
      1 ∧ s.kpr.cartridge = some c ∧ (s.at w).grants (.host i) 0xF0008 = true) ∧
    (∃ (w : When) (who : Agent) (s : State), (hostAtLeast 3 who s = false ∨ s.gen.phase ≠ 3 ∨ s.kpr.refuse ≠ 2 ∨ s.kpr.state ≠
      1) ∧ (s.at w).grants who 0xF0008 = true) ∧
    (∃ (w : When) (i : Fin 8) (c : Cartridge) (s : State), 3 ≤ s.sesRole i ∧ (s.gen.phase = 3 ∨ s.gen.phase = 4 ∨ s.wvl.role =
      4 ∨ s.wvl.role = 5) ∧ s.keeperWritable = true ∧ s.kpr.cartridge = some c ∧ s.kpr.confirm = some (c.ident % 2 ^ 32) ∧
      (s.at w).grants (.host i) 0xF0008 = true) ∧
    (∃ (w : When) (i : Fin 8) (c : Cartridge) (s : State), 3 ≤ s.sesRole i ∧ (s.gen.phase = 3 ∨ s.gen.phase = 4 ∨ s.wvl.role =
      4 ∨ s.wvl.role = 5) ∧ s.keeperWritable = true ∧ s.kpr.cartridge = some c ∧ s.kpr.confirm ≠ some (c.ident % 2 ^ 32) ∧
      (s.at w).grants (.host i) 0xF0008 = true) ∧
    (∃ (w : When) (who : Agent) (s : State), s.gen.phase ≠ 3 ∧ s.gen.phase ≠ 4 ∧ s.wvl.role ≠ 4 ∧ s.wvl.role ≠ 5 ∧ (s.at
      w).grants who 0xF0008 = true) ∧
    (∃ (w : When) (j : KprJob) (rest : List KprJob) (s : State), s.kpr.jobs = j :: rest ∧ s.stalled j = false ∧
      s.keeperWritable = true ∧ s.kpr.inFlight = none ∧ (s.kpr.lastPage.all fun a => decide (a + 1000000 ≤ max s.aon w.a)) =
      true ∧ needUnits j.cls ≤ s.kpr.bucket) ∧
    (∃ (w : When) (a : Nat) (s : State), s.kpr.lastPage = some a ∧ max s.aon w.a < a + 1000000 ∧ s.kpr.state ≠ 3) ∧
    (∃ (v : Nat) (s : State), s.kpr.inFlight = some { kind := .reserve v, pages := 0 } ∧ s.kpr.cartridge.isSome = true ∧
      epochAhead v s.cart.epochReserve = true) ∧
    (∃ (v : Nat) (s : State), s.kpr.inFlight = some { kind := .reserve v, pages := 0 }) ∧
    (∃ (s : State), s.kpr.inFlight = none) ∧
    (∃ (w : When) (n : Nat) (s : State), s.kpr.notOkSince = some n ∧ s.kpr.staleReported = false ∧ n + aonSec 60 ≤ max s.aon
      w.a ∧ 60 < (s.at w).retAge) ∧
    (∃ (s : State), s.kpr.staleReported = true) ∧
    (∃ (j : KprJob) (s : State), s.kpr.inFlight = some j ∧ j.pages ≠ 0) ∧
    (∃ (e : RetireEntry) (s : State), s.kpr.inFlight = some { kind := .retire e, pages := 0 }) ∧
    (∃ (img : RetImage) (c : Cartridge) (s : State), s.kpr.inFlight = some { kind := .retained img, pages := 0, cls := 1 } ∧
      s.kpr.cartridge = some c) ∧
    (∃ (n : Nat) (s : State), s.kpr.inFlight = some { kind := .ledger n, pages := 0, cls := 2 } ∧ n ≤ s.lgr.held.length) ∧
    (∃ (a : AccessSet) (c : Cartridge) (s : State), s.kpr.inFlight = some { kind := .access a, pages := 0, cls := 3 } ∧
      s.kpr.cartridge = some c) :=
  ⟨⟨{}, 7, {}, { gen := { phase := 3 }, kpr := { refuse := 2, state := 1, cartridge := some {} }, hif := { sessions := List.replicate 8 (some { role := 3 }) } }, by decide⟩,
    ⟨{}, .firmware, {}, by decide⟩,
    ⟨{}, 7, { ident := 5 }, { gen := { phase := 4 }, kpr := { state := 2, boltOpen := false, confirm := some 5, cartridge := some { ident := 5 } }, hif := { sessions := List.replicate 8 (some { role := 3 }) } }, by decide⟩,
    ⟨{}, 7, { ident := 5 }, { wvl := { role := 5 }, kpr := { state := 2, boltOpen := false, confirm := none, cartridge := some { ident := 5 } }, hif := { sessions := List.replicate 8 (some { role := 3 }) } }, by decide⟩,
    ⟨{}, .firmware, { gen := { phase := 7 }, wvl := { role := 1 } }, by decide⟩,
    ⟨{}, {}, [], { kpr := { jobs := [{}], state := 2, boltOpen := false, cartridge := some {}, bucket := 353894400000000000 } }, by decide⟩,
    ⟨{}, 7, { kpr := { lastPage := some 7, state := 2 } }, by decide⟩,
    ⟨1, { kpr := { inFlight := some { kind := .reserve 1, pages := 0 }, cartridge := some {} } }, by decide⟩,
    ⟨1, { kpr := { inFlight := some { kind := .reserve 1, pages := 0 }, cartridge := some {} } }, by decide⟩,
    ⟨{}, by decide⟩,
    ⟨{}, 0, { aon := 60000000000, kpr := { notOkSince := some 0 } }, by decide⟩,
    ⟨{ kpr := { staleReported := true } }, by decide⟩,
    ⟨{ pages := 3, cls := 3 }, { kpr := { inFlight := some { pages := 3, cls := 3 }, jobs := [{ pages := 3, cls := 3 }] } }, by decide⟩,
    ⟨{ page := 3 }, { mem := { unsaved := [{ page := 3 }] }, kpr := { inFlight := some { kind := .retire { page := 3 }, pages := 0 } } }, by decide⟩,
    ⟨{}, {}, { seq := { retWriting := true }, kpr := { cartridge := some {}, inFlight := some { kind := .retained {}, pages := 0, cls := 1 } } }, by decide⟩,
    ⟨1, { lgr := { held := [{}, {}] }, kpr := { cartridge := some {}, inFlight := some { kind := .ledger 1, pages := 0, cls := 2 } } }, by decide⟩,
    ⟨{}, {}, { kpr := { cartridge := some {}, inFlight := some { kind := .access {}, pages := 0, cls := 3 } } }, by decide⟩⟩

/-- The hypotheses of LedgerRecordsAndReads are met. -/
theorem witness_LedgerRecordsAndReads :
    (∃ (w : When) (s : State), (s.lgr.reqCode % 65536 < 0x8000 ∨ s.lgr.reqCode % 65536 = 0xFFFF) ∧ (s.at w).grants .firmware
      0xE0008 = true) ∧
    (∃ (w : When) (k : Nat) (s : State), 0x8000 ≤ s.lgr.reqCode % 65536 ∧ s.lgr.reqCode % 65536 ≤ 0xFFFE ∧ ((s.at w).bucket
      (s.lgr.reqCode % 65536)).hasToken = true ∧ s.hold < 49152 ∧ s.recordOwner = some k ∧ (s.at w).grants .firmware 0xE0008 =
      true) ∧
    (∃ (w : When) (who : Agent) (s : State), isFw who = false ∧ (s.at w).grants who 0xE0008 = true) ∧
    (∃ (w : When) (s : State), s.keeperReadable = true ∧ (s.at w).grants .firmware 0xE0008 = true) ∧
    (∃ (w : When) (who : Agent) (s : State), (isFw who = false ∨ s.keeperReadable = false) ∧ (s.at w).grants who 0xE0008 =
      true) ∧
    (∃ (w : When) (s : State), s.keeperReadable = false ∧ (s.at w).grants .firmware 0xE0008 = true) ∧
    (∃ (w : When) (s : State), s.keeperReadable = true ∧ s.lgr.snapHigh < s.lgr.rdLo + s.lgr.rdHi * 2 ^ 32 ∧ (s.at w).grants
      .firmware 0xE0008 = true) ∧
    (∃ (w : When) (n : Nat) (s : State), s.keeperReadable = true ∧ n = s.lgr.rdLo + s.lgr.rdHi * 2 ^ 32 ∧ n ≤ s.lgr.snapHigh ∧
      findRecord s.cart n = none ∧ (s.at w).grants .firmware 0xE0008 = true) ∧
    (∃ (w : When) (n : Nat) (r : LedgerRecord) (s : State), s.keeperReadable = true ∧ n = s.lgr.rdLo + s.lgr.rdHi * 2 ^ 32 ∧ n
      ≤ s.lgr.snapHigh ∧ findRecord s.cart n = some r ∧ (s.at w).grants .firmware 0xE0008 = true) ∧
    (∃ (w : When) (who : Agent) (s : State), isFw who = false ∧ (s.at w).grants who 0xE0008 = true) ∧
    (∃ (w : When) (s : State), (s.lgr.held = [] ∨ max s.aon w.a < s.lgr.oldest + aonSec 1)) ∧
    (∃ (w : When) (s : State), s.lgr.held ≠ [] ∧ s.lgr.oldest + aonSec 1 ≤ max s.aon w.a ∧ s.keeperWritable = true ∧ s.kpr.jobs
      = [] ∧ s.kpr.inFlight = none ∧ s.slotOpen 22 = true) ∧
    (∃ (s : State), s.lgr.pending = []) ∧
    (∃ (w : When) (x : Suppressed) (k : Nat) (s : State), s.lgr.pending = [x] ∧ tokenUnit ≤ (((s.lgr.buckets.getD (bucketFor
      s.lgr.buckets x.code) {}).fill (max s.aon w.a)).level) ∧ bucketFor s.lgr.buckets x.code < s.lgr.buckets.length ∧ s.hold <
      49152 ∧ s.recordOwner = some k ∧ s.lgr.owner = some k) ∧
    (∃ (i : Fin 8) (x : Session) (s : State), s.hif.sessions.getD i.val none = some x ∧ s.serves i 1 = true ∧ s.keeperReadable
      = true) ∧
    (∃ (w : When) (x : Suppressed) (i : Nat) (s : State), s.lgr.pending.contains x = true ∧ bucketFor s.lgr.buckets x.code = i
      ∧ tokenUnit ≤ (((s.lgr.buckets.getD i {}).fill (max s.aon w.a)).level)) ∧
    (∃ (w : When) (s : State), s.lgr.held ≠ [] ∧ s.lgr.oldest + aonSec 1 ≤ max s.aon w.a ∧ s.keeperWritable = true ∧
      s.kpr.jobs.any (·.cls == 2) = false ∧ s.kpr.inFlight.any (·.cls == 2) = false ∧ s.slotOpen 22 = true) :=
  ⟨⟨{}, { lgr := { reqCode := 65535 } }, by decide⟩,
    ⟨{}, 7, { lgr := { owner := some 7, nextSeq := 4, reqCode := 32768, buckets := [{ burst := 8, level := 9000000000000 }] }, kpr := { state := 2, boltOpen := false, cartridge := some { ident := 7 } } }, by decide⟩,
    ⟨{}, .host 7, { hif := { sessions := List.replicate 8 (some { role := 2 }) } }, by decide⟩,
    ⟨{}, { kpr := { state := 3, boltOpen := false, cartridge := some {} } }, by decide⟩,
    ⟨{}, .host 7, { hif := { sessions := List.replicate 8 (some { role := 2 }) } }, by decide⟩,
    ⟨{}, {}, by decide⟩,
    ⟨{}, { kpr := { state := 2, boltOpen := false, cartridge := some {} }, lgr := { snapHigh := 4, rdLo := 5 } }, by decide⟩,
    ⟨{}, 4, { kpr := { state := 2, boltOpen := false, cartridge := some {} }, lgr := { snapHigh := 4, rdLo := 4 } }, by decide⟩,
    ⟨{}, 4, { seq := 4 }, { kpr := { state := 2, boltOpen := false, cartridge := some { founding := [{ seq := 4 }] } }, lgr := { snapHigh := 4, rdLo := 4 } }, by decide⟩,
    ⟨{}, .host 7, { hif := { sessions := List.replicate 8 (some { role := 2 }) } }, by decide⟩,
    ⟨{}, { lgr := { held := [] } }, by decide⟩,
    ⟨{}, { aon := 1000000000, lgr := { held := [{}] }, kpr := { state := 2, boltOpen := false, cartridge := some {} }, bgt := { slots := List.replicate 40 { budget := 100 } } }, by decide⟩,
    ⟨{}, by decide⟩,
    ⟨{}, { code := 9 }, 7, { lgr := { owner := some 7, pending := [{ code := 9 }], buckets := [{ code := some 9, burst := 8, level := 9000000000000 }] }, kpr := { state := 2, boltOpen := false, cartridge := some { ident := 7 } } }, by decide⟩,
    ⟨7, { role := 3, helloDone := true }, { kpr := { state := 2, boltOpen := false, cartridge := some {} }, hif := { sessions := List.replicate 8 (some { role := 3, helloDone := true }) } }, by decide⟩,
    ⟨{}, { code := 0x0201 }, 1, { aon := 100000000000000, lgr := { pending := [{ code := 0x0202 }, { code := 0x0201 }], buckets := [{ code := some 0x0202 }, { code := some 0x0201 }] } }, by decide⟩,
    ⟨{}, { aon := 1000000000, lgr := { held := [{}] }, kpr := { state := 2, boltOpen := false, cartridge := some {}, jobs := [{ cls := 3 }], inFlight := some { cls := 0 } }, bgt := { slots := List.replicate 40 { budget := 100 } } }, by decide⟩⟩

/-- The hypotheses of FaultSources are met. -/
theorem witness_FaultSources :
    (∃ (s : State), (s.source 8).due = true ∧ (s.source 8).severe = false ∧ 8 < s.fcr.sources.length) ∧
    (∃ (source : Fin 48) (s : State), ((s.source source.val).due = false ∨ (s.source source.val).severe = true)) ∧
    (∃ (s : State), (s.source 32).due = true ∧ (s.source 32).severe = false ∧ s.fcr.alone 32 = true ∧ 32 <
      s.fcr.sources.length) ∧
    (∃ (s : State), (s.source 20).due = true ∧ (s.source 20).severe = false ∧ 20 < s.fcr.sources.length ∧ s.primary = true ∧
      s.partnerStandby = false) ∧
    (∃ (s : State), (s.source 22).due = true ∧ (s.source 22).severe = false ∧ s.fcr.alone 22 = true ∧ 22 < s.fcr.sources.length
      ∧ s.primary = true ∧ s.partnerStandby = true ∧ s.wvl.partner.flags.testBit 0 = false) ∧
    (∃ (h : Heartbeat) (s : State), s.pair.mode ≠ 0 ∧ h.hdr.side ≠ s.wvl.side ∧ h.hdr.role = 3 ∧ h.flags.testBit 0 = false ∧
      s.primary = true ∧ s.fcr.blocked = [22]) ∧
    (∃ (h : Heartbeat) (s : State), s.pair.mode ≠ 0 ∧ h.hdr.side ≠ s.wvl.side ∧ h.hdr.role = 3 ∧ h.flags.testBit 0 = true ∧
      s.primary = true ∧ s.severe 22 = true ∧ s.fcr.blocked = [22]) ∧
    (∃ (w : When) (s : State), (s.source 8).severe = true ∧ 8 < s.fcr.sources.length ∧ (s.at w).grants .firmware 0xD0018 =
      true) ∧
    (∃ (w : When) (s : State), (s.source 32).severe = true ∧ (s.source 32).fenced = true ∧ 32 < s.fcr.sources.length ∧ (s.at
      w).grants .firmware 0xD0018 = true) ∧
    (∃ (w : When) (source : Fin 64) (who : Agent) (s : State), (s.source source.val).severe = false ∧ (s.at w).grants who
      0xD0018 = true) ∧
    (∃ (i : Fin 8) (s : State), s.sesRole i < 2) ∧
    (∃ (w : When) (v : Word) (s : State), s.fcr.selFw = 8 ∧ 8 < s.fcr.sources.length ∧ 1 ≤ v.toNat / 2 ^ 24 ∧ 1 ≤ v.toNat %
      65536 ∧ v.toNat % 65536 ≤ 60000 ∧ (s.at w).grants .firmware 0xD0028 = true) ∧
    (∃ (w : When) (v : Word) (s : State), (60000 < v.toNat % 65536 ∨ v.toNat % 65536 = 0 ∨ v.toNat / 2 ^ 24 = 0) ∧ (s.at
      w).grants .firmware 0xD0028 = true) ∧
    (∃ (w : When) (s : State), (forcing.contains s.fcr.selFw ∨ 38 ≤ s.fcr.selFw) ∧ (s.at w).grants .firmware 0xD0028 = true) ∧
    (∃ (source : Fin 48) (s : State), (s.source source.val).due = true ∧ (s.source source.val).severe = false ∧ source.val <
      s.fcr.sources.length) ∧
    (∃ (i : Fin 48) (j : Fin 48) (s : State), (s.source i.val).due = true ∧ (s.source i.val).severe = false ∧ (s.source
      j.val).due = true ∧ (s.source j.val).severe = false ∧ (s.source j.val).dueAt = (s.source i.val).dueAt ∧ j.val <
      s.fcr.sources.length) ∧
    (∃ (w : When) (who : Agent) (source : Fin 64) (s : State), (isFw who = true ∨ hostAtLeast 2 who s = true) ∧ (s.source
      source.val).severe = true ∧ source.val < s.fcr.sources.length ∧ (s.at w).grants who 0xD0018 = true) ∧
    (∃ (w : When) (who : Agent) (v : Word) (i : Nat) (s : State), fwOrEngineer who s = true ∧ i = (if isHost who then
      s.fcr.selHost else s.fcr.selFw) ∧ i < 38 ∧ i < s.fcr.sources.length ∧ i ∉ forcing ∧ 1 ≤ v.toNat / 2 ^ 24 ∧ 1 ≤ v.toNat %
      65536 ∧ v.toNat % 65536 ≤ 60000 ∧ (s.at w).grants who 0xD0028 = true) :=
  ⟨⟨{ fcr := { sources := List.replicate 48 { due := true } } }, by decide⟩,
    ⟨47, {}, by decide⟩,
    ⟨{ fcr := { sources := List.replicate 31 { due := true, dueAt := 5 } ++ [{ due := true, severe := true, dueAt := 5 }, { due := true }] } }, by decide⟩,
    ⟨{ fcr := { sources := List.replicate 48 { due := true } }, wvl := { role := 1, partner := { present := false } } }, by decide⟩,
    ⟨{ fcr := { sources := List.replicate 22 {} ++ [{ due := true }] }, wvl := { role := 1, partner := { present := true, role := 3 } } }, by decide⟩,
    ⟨{ hdr := { side := 1, role := 3 } }, { fcr := { blocked := [22] }, wvl := { side := 0, role := 1 }, cfg := { cur := { pair := { mode := 1 } } } }, by decide⟩,
    ⟨{ hdr := { side := 1, role := 3 }, flags := 1 }, { fcr := { blocked := [22], sources := List.replicate 48 { severe := true } }, wvl := { side := 0, role := 1 }, cfg := { cur := { pair := { mode := 1 } } } }, by decide⟩,
    ⟨{}, { fcr := { sources := List.replicate 48 { severe := true } } }, by decide⟩,
    ⟨{}, { fcr := { sources := List.replicate 48 { severe := true, fenced := true } } }, by decide⟩,
    ⟨{}, 63, .firmware, {}, by decide⟩,
    ⟨0, {}, by decide⟩,
    ⟨{}, 0xFF00EA60, { fcr := { selFw := 8, sources := List.replicate 48 {} } }, by decide⟩,
    ⟨{}, 0xFF00EA61, {}, by decide⟩,
    ⟨{}, { fcr := { selFw := 38 } }, by decide⟩,
    ⟨9, { fcr := { sources := List.replicate 48 { due := true } } }, by decide⟩,
    ⟨9, 4, { fcr := { sources := List.replicate 48 { due := true } } }, by decide⟩,
    ⟨{}, .host 7, 9, { wrd := { loaded := false }, hif := { sessions := List.replicate 8 (some { role := 2 }) }, fcr := { sources := List.replicate 48 { severe := true, fenced := true } } }, by decide⟩,
    ⟨{}, .host 7, 0x05000010, 9, { wrd := { loaded := false }, hif := { sessions := List.replicate 8 (some { role := 3 }) }, fcr := { selHost := 9, sources := List.replicate 48 {} } }, by decide⟩⟩

/-- The hypotheses of TransactionsOfMasters are met. -/
theorem witness_TransactionsOfMasters :
    (∃ (w : When) (tx : Tx) (m : Memory) (s : State), s.issues tx.ident.val = true ∧ tx.space = 0 ∧ tx.isWrite = true ∧
      tx.memFaults = [] ∧ (checkAccess tx.ident.val 0 tx.addr tx.data.length true (s.at w)).1 = none ∧ s.mem.mem.write tx.addr
      tx.data = .ok m) ∧
    (∃ (w : When) (tx : Tx) (bs : List Byte) (s : State), s.issues tx.ident.val = true ∧ tx.space = 0 ∧ tx.isWrite = false ∧
      tx.memFaults = [] ∧ (checkAccess tx.ident.val 0 tx.addr tx.size false (s.at w)).1 = none ∧ s.mem.mem.readBytes tx.addr
      tx.size = some bs) ∧
    (∃ (w : When) (tx : Tx) (s : State), s.issues tx.ident.val = true ∧ tx.space = 0 ∧ tx.isWrite = false ∧ (checkAccess
      tx.ident.val 0 tx.addr tx.size false (s.at w)).1 = none ∧ ((tx.memFaults = [(0, .uncorrectable)] ∧ 0 < tx.size) ∨
      s.mem.mem.readBytes tx.addr tx.size = none)) ∧
    (∃ (w : When) (tx : Tx) (st : Nat) (s : State), s.issues tx.ident.val = true ∧ (checkAccess tx.ident.val tx.space.val
      tx.addr (if tx.isWrite then tx.data.length else tx.size) tx.isWrite (s.at w)).1 = some st) ∧
    (∃ (tx : Tx) (s : State), tx.ident = 0 ∧ s.trd.mode = 4) ∧
    (∃ (tx : Tx) (i : Nat) (s : State), tx.ident.val = i ∧ 9 ≤ i ∧ i ≤ 13 ∧ i ≠ 11 ∧ tx.space = 0 ∧ tx.isWrite = false ∧
      tx.addr + max 1 tx.size ≤ memSize ∧ (centralVerdict s.wrd.rules 0 i tx.addr (max 1 tx.size) false).isSome = true) ∧
    (∃ (who : Agent) (s : State), s.issues (identOf who) = false) ∧
    (∃ (who : Agent) (s : State), s.issues (identOf who) = false) ∧
    (∃ (who : Agent) (s : State), s.issues (identOf who) = false) ∧
    (∃ (w : When) (who : Agent) (s : State), s.issues (identOf who) = true ∧ s.mayWrite who = true ∧ (checkAccess (identOf who)
      1 0x60008 4 true (s.at w)).1.isSome = true) ∧
    (∃ (w : When) (who : Agent) (g : Fin 12) (s : State), s.issues (identOf who) = true ∧ s.mayWrite who = true ∧ (checkAccess
      (identOf who) 1 (0x10100 + 0x20 * g.val) 4 true (s.at w)).1.isSome = true) :=
  ⟨⟨{}, { space := 0, isWrite := true, addr := 64, data := 255 :: List.replicate 63 0 }, { ({} : Memory).clear with cells := [(64, 255)] }, { wrd := { loaded := false }, mem := { mem := ({} : Memory).clear } }, by exact ⟨by decide, by decide, by decide, by decide, by decide +kernel, by rfl⟩⟩,
    ⟨{}, { space := 0, addr := 64, size := 4 }, [0, 0, 0, 0], { wrd := { loaded := false }, mem := { mem := ({} : Memory).clear } }, by decide⟩,
    ⟨{}, { space := 0, addr := 64, size := 4, memFaults := [(0, .uncorrectable)] }, { wrd := { loaded := false } }, by decide⟩,
    ⟨{}, { ident := 16, space := 1, addr := 0, size := 8 }, 6, { wrd := { loaded := false } }, by decide⟩,
    ⟨{}, { trd := { mode := 4 } }, by decide⟩,
    ⟨{ ident := 9, space := 0, addr := 0 }, 9, { wrd := { loaded := false } }, by decide⟩,
    ⟨.firmware, { trd := { mode := 4 } }, by decide⟩,
    ⟨.firmware, { trd := { mode := 4 } }, by decide⟩,
    ⟨.firmware, { trd := { mode := 4 } }, by decide⟩,
    ⟨{}, .lane 1, { trd := { mode := 3 }, wrd := { loaded := false } }, by decide⟩,
    ⟨{}, .lane 1, 3, { trd := { mode := 3 }, wrd := { loaded := false } }, by decide⟩⟩

/-- The hypotheses of RegisterAccesses are met. -/
theorem witness_RegisterAccesses :
    (∃ (s : State), s.wrd.loaded = false ∧ s.trd.mode ≠ 4) ∧
    (∃ (s : State), s.wrd.loaded = false ∧ s.trd.mode ≠ 4) ∧
    (∃ (addr : Nat) (s : State), 0x14FFFD ≤ addr ∧ s.trd.mode ≠ 4) ∧
    (∃ (i : Fin 8) (s : State), s.sesRole i < 2) ∧
    (∃ (i : Fin 8) (x : Session) (s : State), s.hif.sessions.getD i.val none = some x ∧ s.serves i 1 = true ∧ s.wrd.loaded =
      false) ∧
    (∃ (i : Fin 8) (x : Session) (addrs : List Nat) (s : State), s.hif.sessions.getD i.val none = some x ∧ s.serves i 1 = true
      ∧ (addrs = [] ∨ 64 < addrs.length)) ∧
    (∃ (i : Fin 8) (x : Session) (s : State), s.hif.sessions.getD i.val none = some x ∧ s.serves i 3 = true ∧ s.wrd.loaded =
      false) ∧
    (∃ (i : Fin 8) (x : Session) (s : State), s.hif.sessions.getD i.val none = some x ∧ s.serves i 2 = true ∧ x.role = 2 ∧
      s.wrd.loaded = false) ∧
    (∃ (i : Fin 8) (x : Session) (s : State), s.hif.sessions.getD i.val none = some x ∧ s.serves i 2 = true) ∧
    (∃ (tx : Tx) (n : Nat) (s : State), tx.ident = 0 ∧ tx.space = 1 ∧ s.trd.mode ≠ 4 ∧ n = max 1 (if tx.isWrite then
      tx.data.length else tx.size) ∧ tx.addr + n ≤ regSize ∧ s.absentAt tx.addr = true ∧ gateVerdict 0 1 tx.addr n tx.isWrite s
      = none) ∧
    (∃ (i : Fin 8) (x : Session) (a : Nat) (s : State), s.hif.sessions.getD i.val none = some x ∧ s.serves i 2 = true ∧ a + 4 ≤
      regSize ∧ s.absentAt a = true ∧ centralVerdict s.wrd.rules 1 9 a 4 true = none) ∧
    (∃ (i : Fin 8) (x : Session) (a : Nat) (s : State), s.hif.sessions.getD i.val none = some x ∧ s.serves i 1 = true ∧ a + 4 ≤
      regSize ∧ s.absentAt a = true ∧ centralVerdict s.wrd.rules 1 9 a 4 false = none) ∧
    (∃ (i : Fin 8) (addrs : List Nat) (s : State), s.serves i 1 = true ∧ 1 ≤ addrs.length ∧ addrs.length ≤ 64) ∧
    (∃ (i : Fin 8) (es : List (Nat × Word)) (s : State), s.serves i 2 = true ∧ 1 ≤ es.length ∧ es.length ≤ 64) ∧
    (∃ (w : When) (who : Agent) (addr : Nat) (v : Word) (d : Digests) (s : State), s.issues (identOf who) = true ∧ s.mayWrite
      who = true ∧ (tryWrite who d addr v (s.at w)).2.wrd.draining = false) ∧
    (∃ (w : When) (tx : Tx) (s : State), tx.space = 1 ∧ tx.isWrite = false ∧ s.issues tx.ident.val = true ∧ (checkAccess
      tx.ident.val 1 tx.addr tx.size false (s.at w)).1 = none) ∧
    (∃ (w : When) (tx : Tx) (s : State), tx.space = 1 ∧ tx.isWrite = true ∧ s.issues tx.ident.val = true ∧ (checkAccess
      tx.ident.val 1 tx.addr tx.data.length true (s.at w)).1 = none ∧ (writeReg (agentOf tx.ident.val tx.ses) tx.d tx.addr
      (BitVec.ofNat 32 (leNat tx.data)) (s.at w)).2.wrd.draining = false) :=
  ⟨⟨{ trd := { mode := 0 } }, by decide⟩,
    ⟨{ trd := { mode := 0 } }, by decide⟩,
    ⟨0x14FFFD, { trd := { mode := 0 } }, by decide⟩,
    ⟨7, {}, by decide⟩,
    ⟨7, { role := 1, helloDone := true }, { hif := { sessions := List.replicate 8 (some { role := 1, helloDone := true }) } }, by decide⟩,
    ⟨7, { role := 1, helloDone := true }, List.replicate 65 0, { hif := { sessions := List.replicate 8 (some { role := 1, helloDone := true }) } }, by decide⟩,
    ⟨7, { role := 3, helloDone := true }, { hif := { sessions := List.replicate 8 (some { role := 3, helloDone := true }) } }, by decide⟩,
    ⟨7, { role := 2, helloDone := true }, { hif := { sessions := List.replicate 8 (some { role := 2, helloDone := true }) } }, by decide⟩,
    ⟨7, { role := 2, helloDone := true }, { hif := { sessions := List.replicate 8 (some { role := 2, helloDone := true }) } }, by decide⟩,
    ⟨{ ident := 0, space := 1, addr := 0x50000 }, 4, { gen := { unitPresent := 0 }, trd := { mode := 0 } }, by decide⟩,
    ⟨7, { role := 2, helloDone := true }, 0x50000, { gen := { unitPresent := 0 }, hif := { sessions := List.replicate 8 (some { role := 2, helloDone := true }) } }, by decide⟩,
    ⟨7, { role := 2, helloDone := true }, 0x12011C, { gen := { unitPresent := 0 }, hif := { sessions := List.replicate 8 (some { role := 2, helloDone := true }) } }, by decide⟩,
    ⟨7, [0x18, 0x0], { hif := { sessions := List.replicate 8 (some { role := 1, helloDone := true }) } }, by decide⟩,
    ⟨7, [(0x18, 1), (0x1C, 0)], { hif := { sessions := List.replicate 8 (some { role := 2, helloDone := true }) } }, by decide⟩,
    ⟨{}, .firmware, 0x20000, 0, {}, { trd := { mode := 0 } }, by decide +kernel⟩,
    ⟨{}, { space := 1, addr := 0x18, size := 4 }, { trd := { mode := 0 }, wrd := { loaded := false } }, by decide⟩,
    ⟨{}, { space := 1, isWrite := true, addr := 0x18, size := 4, data := [0, 0, 0, 0] }, { trd := { mode := 0 }, wrd := { loaded := false } }, by decide +kernel⟩⟩

/-- The hypotheses of SessionsOfTheHost are met. -/
theorem witness_SessionsOfTheHost :
    (∃ (port : Fin 2) (s : State), 3 ≤ s.gen.phase ∧ s.hostMode port.val ≠ 0 ∧ s.sessionsOpen < 8 ∧ s.hif.access.isSome = true) ∧
    (∃ (port : Fin 2) (s : State), (s.gen.phase < 3 ∨ s.hostMode port.val = 0 ∨ 8 ≤ s.sessionsOpen)) ∧
    (∃ (ses : Fin 8) (h : Handshake) (x : Session) (s : State), s.hif.sessions.getD ses.val none = some x ∧ x.role = 0 ∧
      x.bootstrap = true ∧ allowedHandshake h = true ∧ h.proven = true) ∧
    (∃ (ses : Fin 8) (h : Handshake) (x : Session) (s : State), s.hif.sessions.getD ses.val none = some x ∧ x.role = 0 ∧
      (h.proven = false ∨ allowedHandshake h = false)) ∧
    (∃ (w : When) (ses : Fin 8) (x : Session) (s : State), s.hif.sessions.getD ses.val none = some x ∧ x.role = 0 ∧ x.opened +
      aonSec 10 ≤ max s.aon w.a) ∧
    (∃ (w : When) (ses : Fin 8) (x : Session) (s : State), s.hif.sessions.getD ses.val none = some x ∧ (x.role ≠ 0 ∨ max s.aon
      w.a < x.opened + aonSec 10)) ∧
    (∃ (w : When) (ses : Fin 8) (x : Session) (s : State), s.hif.sessions.getD ses.val none = some x ∧ x.role ≠ 0 ∧
      x.outstanding = 0 ∧ x.lastMsg + aonSec 30 ≤ max s.aon w.a) ∧
    (∃ (ses : Fin 8) (x : Session) (s : State), s.hif.sessions.getD ses.val none = some x) ∧
    (∃ (ses : Fin 8) (x : Session) (s : State), s.hif.sessions.getD ses.val none = some x ∧ x.replies = [] ∧ s.pubFirst x.port
      = true) ∧
    (∃ (ses : Fin 8) (s : State), s.hif.sessions.getD ses.val none = none) ∧
    (∃ (ses : Fin 8) (x : Session) (s : State), s.hif.sessions.getD ses.val none = some x ∧ x.role ≠ 0 ∧ x.outstanding < 16 ∧
      x.replies = [] ∧ s.pubFirst x.port = false) ∧
    (∃ (ses : Fin 8) (version : Nat) (x : Session) (s : State), s.hif.sessions.getD ses.val none = some x ∧ x.role ≠ 0 ∧
      version ≠ 1 ∧ x.outstanding < 16 ∧ x.replies = [] ∧ s.pubFirst x.port = false) ∧
    (∃ (ses : Fin 8) (x : Session) (kind : Nat) (s : State), s.hif.sessions.getD ses.val none = some x ∧ x.role ≠ 0 ∧
      x.outstanding < 16 ∧ x.replies = [{ waits := some kind }]) ∧
    (∃ (ses : Fin 8) (x : Session) (s : State), s.hif.sessions.getD ses.val none = some x ∧ 16 ≤ x.outstanding) ∧
    (∃ (ses : Fin 8) (x : Session) (s : State), s.hif.sessions.getD ses.val none = some x ∧ 16 ≤ x.outstanding) ∧
    (∃ (ses : Fin 8) (ty : Nat) (s : State), s.serves ses 1 = true ∧ (ty = 0 ∨ 13 < ty)) ∧
    (∃ (ses : Fin 8) (ty : Nat) (s : State), s.serves ses 1 = true ∧ 1 ≤ ty ∧ ty ≤ 13) ∧
    (∃ (ses : Fin 8) (x : Session) (s : State), s.hif.sessions.getD ses.val none = some x ∧ s.serves ses 1 = true) ∧
    (∃ (ses : Fin 8) (x : Session) (s : State), s.hif.sessions.getD ses.val none = some x ∧ 0 < x.lost ∧ x.queue.length < 256) ∧
    (∃ (ses : Fin 8) (x : Session) (s : State), s.hif.sessions.getD ses.val none = some x ∧ (x.lost = 0 ∨ 256 ≤
      x.queue.length)) ∧
    (∃ (port : Fin 2) (target : Nat) (s : State), s.ownsAddr port.val false target = true) ∧
    (∃ (port : Fin 2) (target : Nat) (s : State), s.ownsAddr port.val false target = false) ∧
    (∃ (port : Fin 2) (s : State), 3 ≤ s.gen.phase ∧ s.hostMode port.val ≠ 0) ∧
    (∃ (port : Fin 2) (s : State), s.hostMode port.val = 0) ∧
    (∃ (port : Fin 2) (v6 : Bool) (target : Nat) (s : State), s.ownsAddr port.val v6 target = true) ∧
    (∃ (port : Fin 2) (v6 : Bool) (target : Nat) (s : State), s.ownsAddr port.val v6 target = false) ∧
    (∃ (port : Fin 2) (up : Bool) (s : State), s.hif.links.getD port.val false ≠ up) ∧
    (∃ (w : When) (ses : Fin 8) (h : Handshake) (x : Session) (r : Nat) (s : State), s.hif.sessions.getD ses.val none = some x
      ∧ x.role = 0 ∧ x.bootstrap = false ∧ allowedHandshake h = true ∧ h.proven = true ∧ h.chainOk = true ∧ validNow h (s.at w)
      = true ∧ r = (matchedRules (s.hif.access.getD {}) h.certs).foldl (fun m q => max m q.1) 0 ∧ r ≠ 0) ∧
    (∃ (port : Fin 2) (target : Nat) (s : State), s.ownsAddr port.val true target = true) :=
  ⟨⟨1, { gen := { phase := 3 }, hif := { access := some { ports := [{ port := 1, mode := 2 }] } } }, by decide⟩,
    ⟨1, { gen := { phase := 2 } }, by decide⟩,
    ⟨7, { certs := [[1]] }, { bootstrap := true }, { hif := { sessions := List.replicate 8 (some { bootstrap := true }) } }, by decide⟩,
    ⟨7, { proven := false }, {}, { hif := { sessions := List.replicate 8 (some {}) } }, by decide⟩,
    ⟨{}, 7, {}, { aon := 10000000000, hif := { sessions := List.replicate 8 (some {}) } }, by decide⟩,
    ⟨{}, 7, { role := 1 }, { hif := { sessions := List.replicate 8 (some { role := 1 }) } }, by decide⟩,
    ⟨{}, 7, { role := 1 }, { aon := 30000000000, hif := { sessions := List.replicate 8 (some { role := 1 }) } }, by decide⟩,
    ⟨7, {}, { hif := { sessions := List.replicate 8 (some {}) } }, by decide⟩,
    ⟨7, { port := 1 }, { phe := { queue := [{ host := 1 }] }, bgt := { mask := 0xFFFFFFFF, slots := List.replicate 64 { budget := 264, spent := 0, exhausted := false } }, hif := { links := [true, true], egress := [(1, .shpClosed 3)], sessions := List.replicate 8 (some { port := 1 }) } }, by decide⟩,
    ⟨7, {}, by decide⟩,
    ⟨7, { role := 1 }, { hif := { sessions := List.replicate 8 (some { role := 1 }) } }, by decide⟩,
    ⟨7, 2, { role := 1 }, { hif := { sessions := List.replicate 8 (some { role := 1 }) } }, by decide⟩,
    ⟨7, { role := 1, replies := [{ waits := some 3 }] }, 3, { hif := { sessions := List.replicate 8 (some { role := 1, replies := [{ waits := some 3 }] }) } }, by decide⟩,
    ⟨7, { role := 1, outstanding := 16 }, { hif := { sessions := List.replicate 8 (some { role := 1, outstanding := 16 }) } }, by decide⟩,
    ⟨7, { role := 1, outstanding := 16 }, { hif := { sessions := List.replicate 8 (some { role := 1, outstanding := 16 }) } }, by decide⟩,
    ⟨7, 14, { hif := { sessions := List.replicate 8 (some { role := 1, helloDone := true }) } }, by decide⟩,
    ⟨7, 13, { hif := { sessions := List.replicate 8 (some { role := 1, helloDone := true }) } }, by decide⟩,
    ⟨7, { role := 1, helloDone := true }, { hif := { sessions := List.replicate 8 (some { role := 1, helloDone := true }) } }, by decide⟩,
    ⟨7, { lost := 1 }, { hif := { sessions := List.replicate 8 (some { lost := 1 }) } }, by decide⟩,
    ⟨7, {}, { hif := { sessions := List.replicate 8 (some {}) } }, by decide⟩,
    ⟨1, 5, { gen := { phase := 3 }, hif := { access := some { ports := [{ port := 1, mode := 2, ipv4 := 5 }] } } }, by decide⟩,
    ⟨1, 0, {}, by decide⟩,
    ⟨0, { gen := { phase := 7 } }, by decide⟩,
    ⟨1, {}, by decide⟩,
    ⟨1, false, 5, { gen := { phase := 3 }, hif := { access := some { ports := [{ port := 1, mode := 2, ipv4 := 5 }] } } }, by decide⟩,
    ⟨1, false, 0, {}, by decide⟩,
    ⟨1, true, {}, by decide⟩,
    ⟨{}, 7, { certs := [[1]] }, {}, 2, { hif := { access := some { rules := [(2, [1])] }, sessions := List.replicate 8 (some {}) } }, by decide⟩,
    ⟨0, ({ gen := { phase := 7 } } : State).linkLocal, { gen := { phase := 7 } }, by decide⟩⟩

/-- The hypotheses of BitstreamLoadsOfTheHost are met. -/
theorem witness_BitstreamLoadsOfTheHost :
    (∃ (i : Fin 8) (s : State), s.serves i 3 = true) ∧
    (∃ (i : Fin 8) (offset : Nat) (data : List Byte) (s : State), s.serves i 3 = true ∧ s.bsl.load = none ∧ 1 ≤ data.length ∧
      data.length ≤ 4096 ∧ (offset ≠ 0 ∨ data.length ≠ 4096)) ∧
    (∃ (i : Fin 8) (data : List Byte) (s : State), s.serves i 3 = true ∧ s.bsl.load = none ∧ data.length = 4096) ∧
    (∃ (i : Fin 8) (j : Fin 8) (l : BslLoad) (data : List Byte) (s : State), s.serves i 3 = true ∧ s.bsl.load = some l ∧
      l.owner = some j.val ∧ i ≠ j ∧ 1 ≤ data.length ∧ data.length ≤ 4096) ∧
    (∃ (i : Fin 8) (l : BslLoad) (offset : Nat) (data : List Byte) (s : State), s.serves i 3 = true ∧ s.bsl.load = some l ∧
      l.owner = some i.val ∧ 1 ≤ data.length ∧ data.length ≤ 4096 ∧ offset % 4096 = 0 ∧ offset < l.total ∧ data.length =
      blockSize l.total offset ∧ l.blocks.find? (fun b => b.1 == offset) = some (offset, data)) ∧
    (∃ (i : Fin 8) (l : BslLoad) (offset : Nat) (a : Nat) (data : List Byte) (bl : List (Nat × List Byte)) (s : State),
      s.serves i 3 = true ∧ s.bsl.load = some l ∧ l.owner = some i.val ∧ 1 ≤ data.length ∧ data.length ≤ 4096 ∧ offset % 4096 =
      0 ∧ offset < l.total ∧ data.length = blockSize l.total offset ∧ l.blocks.find? (fun b => b.1 == offset) = none ∧ bl =
      l.blocks ++ [(offset, data)] ∧ ({ l with blocks := bl } : BslLoad).due = [] ∧ a = s.cfg.cur.memmap.stageFirst * 0x4000000
      + offset ∧ a + data.length ≤ memSize ∧ (∀ p ∈ linePieces a data.length, centralVerdict s.wrd.rules 0 13 p.1 p.2 true =
      none) ∧ s.inSpare a data.length = false ∧ s.mem.mem.partialBad a data.length = none) ∧
    (∃ (i : Fin 8) (s : State), s.serves i 3 = true ∧ s.bsl.load = none) ∧
    (∃ (i : Fin 8) (l : BslLoad) (s : State), s.serves i 3 = true ∧ s.bsl.load = some l ∧ l.owner = some i.val ∧ allBlocks
      l.blocks l.total = false) ∧
    (∃ (i : Fin 8) (l : BslLoad) (s : State), s.serves i 3 = true ∧ s.bsl.load = some l ∧ l.owner = some i.val ∧ allBlocks
      l.blocks l.total = true ∧ u16 l.header 6 = 1 ∧ s.commitBusy false = false ∧ s.keeperWritable = true) ∧
    (∃ (i : Fin 8) (c : Cartridge) (x : GenSlot) (s : State), s.serves i 3 = true ∧ s.bsl.load = none ∧ s.bsl.swapPending =
      false ∧ s.bsl.storing = false ∧ s.keeperWritable = true ∧ s.kpr.cartridge = some c ∧ c.slots.getD c.prevSlot none = some
      x) ∧
    (∃ (i : Fin 8) (l : BslLoad) (s : State), s.serves i 3 = true ∧ s.bsl.load = some l ∧ (l.owner = some i.val ∨ l.owner =
      none)) ∧
    (∃ (w : When) (s : State), (s.at w).grants .firmware 0x100000 = true) ∧
    (∃ (w : When) (who : Agent) (s : State), fwOrEngineer who s = false ∧ (s.at w).grants who 0x100000 = true) ∧
    (∃ (w : When) (l : BslLoad) (s : State), s.bsl.load = some l ∧ l.since + aonSec 60 ≤ max s.aon w.a) ∧
    (∃ (w : When) (l : BslLoad) (s : State), s.bsl.load = some l ∧ max s.aon w.a < l.since + aonSec 60) ∧
    (∃ (w : When) (who : Agent) (s : State), fwOrEngineer who s = true ∧ (s.at w).grants who 0x100000 = true) ∧
    (∃ (i : Fin 8) (l : BslLoad) (s : State), s.serves i 3 = true ∧ s.bsl.load = some l ∧ l.owner = some i.val ∧ allBlocks
      l.blocks l.total = true ∧ u16 l.header 6 = 2 ∧ s.pair.mode = 0 ∧ s.commitBusy true = false ∧ s.keeperWritable = true) :=
  ⟨⟨7, { hif := { sessions := List.replicate 8 (some { role := 3, helloDone := true }) } }, by decide⟩,
    ⟨7, 1, [1], { hif := { sessions := List.replicate 8 (some { role := 3, helloDone := true }) } }, by decide⟩,
    ⟨7, List.replicate 4096 0, { hif := { sessions := List.replicate 8 (some { role := 3, helloDone := true }) } }, by decide +kernel⟩,
    ⟨7, 0, { owner := some 0 }, [1], { bsl := { load := some { owner := some 0 } }, hif := { sessions := List.replicate 8 (some { role := 3, helloDone := true }) } }, by decide⟩,
    ⟨7, { owner := some 7, total := 4097, blocks := [(4096, [9])] }, 4096, [9], { bsl := { load := some { owner := some 7, total := 4097, blocks := [(4096, [9])] } }, hif := { sessions := List.replicate 8 (some { role := 3, helloDone := true }) } }, by decide⟩,
    ⟨7, { owner := some 7, total := 4097, blocks := [] }, 4096, 0x3C0001000, [9], [(4096, [9])], { wrd := { loaded := false }, mem := { mem := ({} : Memory).clear }, bsl := { load := some { owner := some 7, total := 4097, blocks := [] } }, hif := { sessions := List.replicate 8 (some { role := 3, helloDone := true }) } }, by decide +kernel⟩,
    ⟨7, { hif := { sessions := List.replicate 8 (some { role := 3, helloDone := true }) } }, by decide⟩,
    ⟨7, { owner := some 7, total := 8192 }, { bsl := { load := some { owner := some 7, total := 8192 } }, hif := { sessions := List.replicate 8 (some { role := 3, helloDone := true }) } }, by decide⟩,
    ⟨7, { owner := some 7, header := [0, 0, 0, 0, 0, 0, 1, 0], total := 0 }, { bsl := { load := some { owner := some 7, header := [0, 0, 0, 0, 0, 0, 1, 0], total := 0 } }, kpr := { state := 2, boltOpen := false, cartridge := some {} }, hif := { sessions := List.replicate 8 (some { role := 3, helloDone := true }) } }, by decide⟩,
    ⟨7, { slots := [some {}, none] }, {}, { kpr := { state := 2, boltOpen := false, cartridge := some { slots := [some {}, none] } }, hif := { sessions := List.replicate 8 (some { role := 3, helloDone := true }) } }, by decide⟩,
    ⟨7, { owner := some 7 }, { bsl := { load := some { owner := some 7 } }, hif := { sessions := List.replicate 8 (some { role := 3, helloDone := true }) } }, by decide⟩,
    ⟨{}, {}, by decide⟩,
    ⟨{}, .host 6, { hif := { sessions := List.replicate 8 (some { role := 2 }) }, wrd := { loaded := false } }, by decide⟩,
    ⟨{}, {}, { aon := 60000000000, bsl := { load := some {} } }, by decide⟩,
    ⟨{}, {}, { aon := 59999999999, bsl := { load := some {} } }, by decide⟩,
    ⟨{}, .host 7, { wrd := { loaded := false }, hif := { sessions := List.replicate 8 (some { role := 3 }) } }, by decide⟩,
    ⟨7, { owner := some 7, header := [0, 0, 0, 0, 0, 0, 2, 0], total := 0 }, { bsl := { load := some { owner := some 7, header := [0, 0, 0, 0, 0, 0, 2, 0], total := 0 } }, kpr := { state := 2, boltOpen := false, cartridge := some {} }, hif := { sessions := List.replicate 8 (some { role := 3, helloDone := true }) }, wvl := { role := 1 }, cfg := { next := none, cur := { pair := { mode := 0 } } } }, by decide⟩⟩

/-- The hypotheses of StoresOfAPair are met. -/
theorem witness_StoresOfAPair :
    (∃ (c : Cartridge) (s : State), s.bsl.storing = true ∧ s.bsl.storeDelta = false ∧ s.bsl.ownDone = none ∧ s.streamWaits =
      false ∧ s.keeperWritable = true ∧ s.kpr.cartridge = some c) ∧
    (∃ (s : State), s.bsl.storing = true ∧ s.bsl.storeDelta = false ∧ s.bsl.ownDone = none ∧ s.streamWaits = false) ∧
    (∃ (s : State), (s.bsl.storing = false ∨ s.bsl.ownDone.isSome = true ∨ s.streamWaits = true)) ∧
    (∃ (s : State), s.primary = true ∧ s.bsl.storing = true ∧ s.bsl.storeDelta = true ∧ s.bsl.ownDone = some true) ∧
    (∃ (s : State), s.bsl.storing = true ∧ s.bsl.storeDelta = true) ∧
    (∃ (s : State), (s.bsl.storing = false ∨ s.bsl.storeDelta = false)) ∧
    (∃ (h : LinkHdr) (s : State), s.pair.mode ≠ 0 ∧ h.side ≠ s.wvl.side ∧ s.wvl.role = 3 ∧ s.bsl.load = none ∧ s.wvl.lanesUp ≠
      0) ∧
    (∃ (h : LinkHdr) (l : BslLoad) (s : State), s.pair.mode ≠ 0 ∧ h.side ≠ s.wvl.side ∧ s.wvl.role = 3 ∧ s.bsl.load = some l ∧
      u16 l.header 6 = 2 ∧ allBlocks l.blocks l.total = true ∧ s.bsl.storing = false ∧ s.bsl.swapPending = false ∧
      s.keeperWritable = true) ∧
    (∃ (s : State), s.pair.mode = 0) ∧
    (∃ (h : LinkHdr) (s : State), s.pair.mode ≠ 0 ∧ h.side ≠ s.wvl.side ∧ s.wvl.role = 3 ∧ s.bsl.storing = true ∧
      s.bsl.storeDelta = true) ∧
    (∃ (h : LinkHdr) (s : State), s.pair.mode ≠ 0 ∧ h.side ≠ s.wvl.side ∧ s.bsl.storing = false) :=
  ⟨⟨{}, { bsl := { storing := true }, kpr := { state := 2, boltOpen := false, cartridge := some {} } }, by decide⟩,
    ⟨{ bsl := { storing := true } }, by decide⟩,
    ⟨{ bsl := { storing := false } }, by decide⟩,
    ⟨{ wvl := { role := 1 }, bsl := { storing := true, storeDelta := true, ownDone := some true, partnerDone := some false } }, by decide⟩,
    ⟨{ wvl := { role := 1 }, bsl := { storing := true, storeDelta := true, ownDone := some true, partnerDone := some false } }, by decide⟩,
    ⟨{}, by decide⟩,
    ⟨{ side := 1 }, { wvl := { role := 3, side := 0, lanesUp := 8 }, cfg := { cur := { pair := { mode := 1 } } } }, by decide⟩,
    ⟨{ side := 1 }, { header := [0, 0, 0, 0, 0, 0, 2, 0], total := 0 }, { bsl := { load := some { header := [0, 0, 0, 0, 0, 0, 2, 0], total := 0 } }, kpr := { state := 2, boltOpen := false, cartridge := some {} }, wvl := { role := 3, side := 0, lanesUp := 8 }, cfg := { cur := { pair := { mode := 1 } } } }, by decide⟩,
    ⟨{ cfg := { cur := { pair := { mode := 0 } } } }, by decide⟩,
    ⟨{ side := 1 }, { bsl := { storing := true, storeDelta := true }, wvl := { role := 3, side := 0 }, cfg := { cur := { pair := { mode := 1 } } } }, by decide⟩,
    ⟨{ side := 1 }, { wvl := { side := 0 }, cfg := { cur := { pair := { mode := 1 } } } }, by decide⟩⟩

/-- The hypotheses of FirmwareAndAccessSets are met. -/
theorem witness_FirmwareAndAccessSets :
    (∃ (i : Fin 8) (offset : Nat) (b : FlashBlock) (s : State), s.serves i 3 = true ∧ s.upd.load = none ∧ s.upd.storing = false
      ∧ 1 ≤ b.bytes.length ∧ b.bytes.length ≤ 4096 ∧ (offset ≠ 0 ∨ b.bytes.length ≠ 4096)) ∧
    (∃ (i : Fin 8) (l : UpdLoad) (offset : Nat) (data : List Byte) (s : State), s.serves i 3 = true ∧ s.upd.load = some l ∧
      (l.owner = some i.val ∨ (l.owner = none ∧ offset ≠ 0)) ∧ 1 ≤ data.length ∧ data.length ≤ 4096 ∧ offset % 4096 = 0 ∧
      offset < l.total ∧ data.length = blockSize l.total offset ∧ l.blocks.find? (fun b => b.1 == offset) = none) ∧
    (∃ (i : Fin 8) (l : UpdLoad) (offset : Nat) (data : List Byte) (s : State), s.serves i 3 = true ∧ s.upd.load = some l ∧
      (l.owner = some i.val ∨ (l.owner = none ∧ offset ≠ 0)) ∧ 1 ≤ data.length ∧ data.length ≤ 4096 ∧ offset % 4096 = 0 ∧
      offset < l.total ∧ data.length = blockSize l.total offset ∧ l.blocks.find? (fun b => b.1 == offset) = none) ∧
    (∃ (i : Fin 8) (data : List Byte) (s : State), s.serves i 3 = true ∧ s.upd.load = none ∧ s.upd.storing = false ∧
      data.length = 4096) ∧
    (∃ (i : Fin 8) (s : State), s.serves i 3 = true ∧ s.upd.load = none) ∧
    (∃ (i : Fin 8) (l : UpdLoad) (s : State), s.serves i 3 = true ∧ s.upd.load = some l ∧ (l.owner = some i.val ∨ l.owner =
      none) ∧ allBlocks l.blocks l.total = true) ∧
    (∃ (i : Fin 8) (l : UpdLoad) (s : State), s.serves i 3 = true ∧ s.upd.load = some l ∧ (l.owner = some i.val ∨ l.owner =
      none) ∧ allBlocks l.blocks l.total = false) ∧
    (∃ (s : State), s.upd.storing = true) ∧
    (∃ (s : State), s.upd.storing = true) ∧
    (∃ (s : State), s.upd.storing = false) ∧
    (∃ (i : Fin 8) (s : State), s.serves i 3 = true ∧ s.upd.load = none) ∧
    (∃ (i : Fin 8) (l : UpdLoad) (s : State), s.serves i 3 = true ∧ s.upd.load = some l ∧ (l.owner = some i.val ∨ l.owner =
      none)) ∧
    (∃ (i : Fin 8) (l : UpdLoad) (s : State), s.serves i 3 = true ∧ s.upd.load = some l ∧ (l.owner = some i.val ∨ l.owner =
      none)) ∧
    (∃ (w : When) (s : State), s.upd.load.isSome = true ∧ (s.at w).grants .firmware 0x110000 = true) ∧
    (∃ (w : When) (who : Agent) (s : State), (s.upd.load = none ∨ fwOrEngineer who s = false) ∧ (s.at w).grants who 0x110000 =
      true) ∧
    (∃ (w : When) (l : UpdLoad) (s : State), s.upd.load = some l ∧ l.since + aonSec 60 ≤ max s.aon w.a) ∧
    (∃ (s : State), s.upd.load = none) ∧
    (∃ (i : Fin 8) (x : Session) (offset : Nat) (data : List Byte) (s : State), s.hif.sessions.getD i.val none = some x ∧
      s.serves i 3 = true ∧ 1 ≤ data.length ∧ data.length ≤ 4096 ∧ offset + data.length ≤ 65536) ∧
    (∃ (i : Fin 8) (x : Session) (offset : Nat) (data : List Byte) (s : State), s.hif.sessions.getD i.val none = some x ∧
      s.serves i 3 = true ∧ 1 ≤ data.length ∧ data.length ≤ 4096 ∧ 65536 < offset + data.length) ∧
    (∃ (i : Fin 8) (s : State), s.serves i 3 = true ∧ s.keeperWritable = true) ∧
    (∃ (i : Fin 8) (keyOk : Bool) (chainOk : Bool) (e : Nat) (s : State), s.serves i 3 = true ∧ accessCheck (s.accessBytes i)
      keyOk chainOk s = .error e) ∧
    (∃ (i : Fin 8) (s : State), s.serves i 3 = true) ∧
    (∃ (i : Fin 8) (x : Session) (s : State), s.hif.sessions.getD i.val none = some x ∧ s.serves i 3 = true) ∧
    (∃ (a : AccessSet) (rest : List AccessSet) (s : State), s.hif.accessReady = a :: rest ∧ s.hif.sessions.length = 8) ∧
    (∃ (s : State), s.hif.accessReady = []) ∧
    (∃ (w : When) (who : Agent) (s : State), s.upd.load.isSome = true ∧ fwOrEngineer who s = true ∧ (s.at w).grants who
      0x110000 = true) :=
  ⟨⟨7, 4096, { bytes := [1] }, { hif := { sessions := List.replicate 8 (some { role := 3, helloDone := true }) } }, by decide⟩,
    ⟨7, { owner := some 7, total := 4097, blocks := [] }, 4096, [9], { upd := { load := some { owner := some 7, total := 4097, blocks := [] } }, hif := { sessions := List.replicate 8 (some { role := 3, helloDone := true }) } }, by decide⟩,
    ⟨7, { owner := none, total := 4097, blocks := [] }, 4096, [9], { upd := { load := some { owner := none, total := 4097, blocks := [] } }, hif := { sessions := List.replicate 8 (some { role := 3, helloDone := true }) } }, by decide⟩,
    ⟨7, List.replicate 4096 0, { hif := { sessions := List.replicate 8 (some { role := 3, helloDone := true }) } }, by decide +kernel⟩,
    ⟨7, { upd := { storing := true }, hif := { sessions := List.replicate 8 (some { role := 3, helloDone := true }) } }, by decide⟩,
    ⟨7, { owner := some 7, total := 1, blocks := [(0, [9])] }, { upd := { load := some { owner := some 7, total := 1, blocks := [(0, [9])] } }, hif := { sessions := List.replicate 8 (some { role := 3, helloDone := true }) } }, by decide⟩,
    ⟨7, { owner := some 7, total := 1 }, { upd := { load := some { owner := some 7, total := 1 } }, hif := { sessions := List.replicate 8 (some { role := 3, helloDone := true }) } }, by decide⟩,
    ⟨{ upd := { storing := true } }, by decide⟩,
    ⟨{ upd := { storing := true } }, by decide⟩,
    ⟨{ upd := { storing := false } }, by decide⟩,
    ⟨7, { hif := { sessions := List.replicate 8 (some { role := 3, helloDone := true }) } }, by decide⟩,
    ⟨7, { owner := none }, { upd := { load := some { owner := none } }, hif := { sessions := List.replicate 8 (some { role := 3, helloDone := true }) } }, by decide⟩,
    ⟨7, { owner := none }, { upd := { load := some { owner := none } }, hif := { sessions := List.replicate 8 (some { role := 3, helloDone := true }) } }, by decide⟩,
    ⟨{}, { upd := { load := some {} } }, by decide⟩,
    ⟨{}, .host 6, { hif := { sessions := List.replicate 8 (some { role := 2 }) }, wrd := { loaded := false } }, by decide⟩,
    ⟨{}, {}, { aon := 60000000000, upd := { load := some {} } }, by decide⟩,
    ⟨{}, by decide⟩,
    ⟨7, { role := 3, helloDone := true }, 61440, [9], { hif := { sessions := List.replicate 8 (some { role := 3, helloDone := true }) } }, by decide⟩,
    ⟨7, { role := 3, helloDone := true }, 65536, [9], { hif := { sessions := List.replicate 8 (some { role := 3, helloDone := true }) } }, by decide⟩,
    ⟨7, { kpr := { state := 2, boltOpen := false, cartridge := some {} }, hif := { sessions := List.replicate 8 (some { role := 3, helloDone := true }) } }, by decide⟩,
    ⟨7, false, false, 1, { hif := { sessions := List.replicate 8 (some { role := 3, helloDone := true }) } }, by exact ⟨by decide, by rfl⟩⟩,
    ⟨7, { hif := { sessions := List.replicate 8 (some { role := 3, helloDone := true, accessBlocks := [(0, [1])] }) } }, by decide⟩,
    ⟨7, { role := 3, helloDone := true }, { hif := { sessions := List.replicate 8 (some { role := 3, helloDone := true }) } }, by decide⟩,
    ⟨{}, [], { hif := { accessReady := [{}], accessStoring := [some 7], sessions := List.replicate 8 (some { role := 3, helloDone := true }) } }, by decide⟩,
    ⟨{}, by decide⟩,
    ⟨{}, .host 7, { wrd := { loaded := false }, hif := { sessions := List.replicate 8 (some { role := 3 }) }, upd := { load := some {} } }, by decide⟩⟩

/-- The hypotheses of FieldInputs are met. -/
theorem witness_FieldInputs :
    (∃ (w : When) (ch : Fin 16) (level : Bool) (stamp : Nat) (s : State), (s.diCfg ch.val).1 ≠ 0 ∧ (s.fio.di.getD ch.val
      {}).broken = false ∧ (s.fio.di.getD ch.val {}).level ≠ level ∧ stamp + usTicks (100 * (s.diCfg ch.val).2.1) ≤ max s.now
      w.t ∧ ch.val < s.fio.di.length) ∧
    (∃ (w : When) (ch : Fin 16) (level : Bool) (stamp : Nat) (s : State), ((s.diCfg ch.val).1 = 0 ∨ (s.fio.di.getD ch.val
      {}).broken = true ∨ (s.fio.di.getD ch.val {}).level = level ∨ max s.now w.t < stamp + usTicks (100 * (s.diCfg
      ch.val).2.1))) ∧
    (∃ (ch : Fin 16) (s : State), (s.diCfg ch.val).1 ≠ 0 ∧ (s.diCfg ch.val).2.2 = 1 ∧ ch.val < s.fio.di.length) ∧
    (∃ (ch : Fin 16) (s : State), (s.diCfg ch.val).2.2 ≠ 1) ∧
    (∃ (ch : Fin 16) (s : State), ch.val < s.fio.di.length) ∧
    (∃ (mv : Nat) (s : State), (s.fio.unplugged = false ∨ mv = 0)) ∧
    (∃ (mv : Nat) (s : State), s.fio.unplugged = true ∧ mv ≠ 0) ∧
    (∃ (s : State), s.fio.di.length = 16) :=
  ⟨⟨{}, 15, true, 0, { cfg := { cur := { fieldIo := { di := List.replicate 16 (1, 0, 0) } } }, fio := { di := List.replicate 16 {} } }, by decide⟩,
    ⟨{}, 15, true, 0, {}, by decide⟩,
    ⟨15, { cfg := { cur := { fieldIo := { di := List.replicate 16 (1, 0, 1) } } }, fio := { di := List.replicate 16 {} } }, by decide⟩,
    ⟨15, {}, by decide⟩,
    ⟨15, { fio := { di := List.replicate 16 {} } }, by decide⟩,
    ⟨0, { fio := { unplugged := true } }, by decide⟩,
    ⟨24000, { fio := { unplugged := true, dout := List.replicate 8 { driven := true } } }, by decide⟩,
    ⟨{ fio := { di := List.replicate 16 {} } }, by decide⟩⟩

/-- The hypotheses of FieldOutputs are met. -/
theorem witness_FieldOutputs :
    (∃ (task : Fin 16) (s : State), task.val < s.seq.tasks.length) ∧
    (∃ (w : When) (task : Fin 16) (s : State), (s.task task.val).localSets.all (fun p => decide (max s.now w.t < p.1)) = true) ∧
    (∃ (task : Fin 16) (s : State), s.stopped = false ∧ task.val < s.seq.tasks.length) ∧
    (∃ (s : State), s.stopped = true) ∧
    (∃ (w : When) (task : Fin 16) (ch : Fin 8) (v : Nat) (a : Nat) (s : State), s.stopped = false ∧ (s.task task.val).localSets
      = [(a, [(64 + ch.val, v)])] ∧ a ≤ max s.now w.t ∧ s.fio.standby = false ∧ s.doOwned (s.doLeader ch.val) = false ∧
      ((s.dout (s.doLeader ch.val)).lastChange.all fun n => decide (n + toggleTicks ≤ max s.now w.t)) = true ∧ v.testBit 0 ≠
      (s.dout (s.doLeader ch.val)).driven ∧ (s.dout (s.doLeader ch.val)).mismatch = false ∧ s.doLeader ch.val <
      s.fio.dout.length) ∧
    (∃ (w : When) (task : Fin 16) (ch : Fin 8) (v : Nat) (a : Nat) (n : Nat) (s : State), s.stopped = false ∧ (s.task
      task.val).localSets = [(a, [(64 + ch.val, v)])] ∧ a ≤ max s.now w.t ∧ s.fio.standby = false ∧ s.doOwned (s.doLeader
      ch.val) = false ∧ (s.dout (s.doLeader ch.val)).lastChange = some n ∧ max s.now w.t < n + toggleTicks ∧ (s.dout
      (s.doLeader ch.val)).waiting = false ∧ v.testBit 0 ≠ (s.dout (s.doLeader ch.val)).driven ∧ s.doLeader ch.val <
      s.fio.dout.length) ∧
    (∃ (w : When) (task : Fin 16) (ch : Fin 4) (v : Nat) (a : Nat) (s : State), s.stopped = false ∧ (s.task task.val).localSets
      = [(a, [(80 + ch.val, v)])] ∧ a ≤ max s.now w.t ∧ s.fio.standby = false ∧ s.aoMode ch.val ≠ 0 ∧ ch.val < s.fio.ao.length) ∧
    (∃ (w : When) (ch : Fin 8) (s : State), s.doOwned (s.doLeader ch.val) = false ∧ (s.dout (s.doLeader ch.val)).waiting = true
      ∧ ((s.dout (s.doLeader ch.val)).lastChange.all fun n => decide (n + toggleTicks ≤ max s.now w.t)) = true ∧ (s.dout
      (s.doLeader ch.val)).want ≠ (s.dout (s.doLeader ch.val)).driven) ∧
    (∃ (w : When) (ch : Fin 8) (s : State), s.doOwned (s.doLeader ch.val) = false ∧ (s.dout (s.doLeader ch.val)).waiting = true
      ∧ ((s.dout (s.doLeader ch.val)).lastChange.all fun n => decide (n + toggleTicks ≤ max s.now w.t)) = true ∧ (s.dout
      (s.doLeader ch.val)).want = (s.dout (s.doLeader ch.val)).driven) ∧
    (∃ (ch : Fin 8) (s : State), s.doOwned (s.doLeader ch.val) = true ∧ s.doLeader ch.val < s.fio.dout.length) ∧
    (∃ (w : When) (ch : Fin 8) (n : Nat) (s : State), ((s.dout (s.doLeader ch.val)).waiting = false ∨ s.doOwned (s.doLeader
      ch.val) = false) ∧ ((s.dout (s.doLeader ch.val)).waiting = false ∨ (s.dout (s.doLeader ch.val)).lastChange = some n) ∧
      ((s.dout (s.doLeader ch.val)).waiting = false ∨ max s.now w.t < n + toggleTicks)) ∧
    (∃ (ch : Fin 8) (s : State), (s.dout (s.doLeader ch.val)).driven = true) ∧
    (∃ (ch : Fin 8) (s : State), (s.dout (s.doLeader ch.val)).driven = false) ∧
    (∃ (ch : Fin 8) (s : State), (s.dout (s.doLeader ch.val)).driven = true ∧ (s.dout (s.doLeader ch.val)).shutdown = true ∧
      (s.dout (s.doLeader ch.val)).failed = false) ∧
    (∃ (w : When) (ch : Fin 8) (s : State), (s.at w).doOff20 (s.doLeader ch.val) = true ∧ s.doShared (s.doLeader ch.val) =
      false ∧ s.doLeader ch.val < s.fio.dout.length) ∧
    (∃ (w : When) (ch : Fin 8) (s : State), ((s.at w).doOff20 (s.doLeader ch.val) = false ∨ s.doShared (s.doLeader ch.val) =
      true)) ∧
    (∃ (ch : Fin 8) (s : State), s.doLeader ch.val < s.fio.dout.length) :=
  ⟨⟨15, { seq := { tasks := List.replicate 16 {} } }, by decide⟩,
    ⟨{}, 15, {}, by decide⟩,
    ⟨15, { seq := { tasks := List.replicate 16 { localSets := [(0, [(64, 1), (80, 4000)])] } } }, by decide⟩,
    ⟨{ ptm := { powerFail := true }, gen := { powerGood := false } }, by decide⟩,
    ⟨{}, 15, 7, 1, 0, { now := 655360000000, seq := { tasks := List.replicate 16 { localSets := [(0, [(71, 1)])] } }, fio := { standby := false, dout := List.replicate 8 { lastChange := some 0 } } }, by decide⟩,
    ⟨{}, 15, 7, 1, 0, 0, { seq := { tasks := List.replicate 16 { localSets := [(0, [(71, 1)])] } }, fio := { standby := false, dout := List.replicate 8 { lastChange := some 0 } } }, by decide⟩,
    ⟨{}, 15, 3, 4000, 0, { gen := { unitPresent := 7 }, cfg := { cur := { fieldIo := { ao := List.replicate 4 1 } } }, seq := { tasks := List.replicate 16 { localSets := [(0, [(83, 4000)])] } }, fio := { standby := false, ao := List.replicate 4 {} } }, by decide⟩,
    ⟨{}, 7, { now := 655360000000, fio := { dout := List.replicate 8 { waiting := true, want := true, lastChange := some 0 } } }, by decide⟩,
    ⟨{}, 7, { fio := { dout := List.replicate 8 { waiting := true, want := false } } }, by decide⟩,
    ⟨7, { fio := { dout := List.replicate 8 { waiting := true, want := true, lastChange := some 0 } }, tmb := { gens := List.replicate 12 { armed := true } } }, by decide⟩,
    ⟨{}, 7, 0, { fio := { dout := List.replicate 8 { waiting := true, want := true, lastChange := some 0 } } }, by decide⟩,
    ⟨7, { fio := { dout := List.replicate 8 { driven := true } } }, by decide⟩,
    ⟨7, {}, by decide⟩,
    ⟨7, { fio := { dout := List.replicate 8 { driven := true, shutdown := true } } }, by decide⟩,
    ⟨{}, 7, { fio := { dout := List.replicate 8 {} } }, by decide⟩,
    ⟨{}, 7, { fio := { dout := List.replicate 8 { driven := true } } }, by decide⟩,
    ⟨7, { fio := { dout := List.replicate 8 { mismatch := true } } }, by decide⟩⟩

/-- The hypotheses of LoopOutputs are met. -/
theorem witness_LoopOutputs :
    (∃ (ch : Fin 4) (s : State), s.aoMode ch.val ≠ 0 ∧ ch.val < s.fio.ao.length) ∧
    (∃ (ch : Fin 4) (s : State), s.aoMode ch.val = 0) ∧
    (∃ (ch : Fin 4) (s : State), (s.ao ch.val).fault = true) ∧
    (∃ (i : Fin 8) (ch : Fin 4) (v : Int) (s : State), s.serves i 3 = true ∧ s.present 2 = true ∧ -2000 ≤ v ∧ v ≤ 2000 ∧ ch.val
      < s.fio.ao.length) ∧
    (∃ (i : Fin 8) (channel : Nat) (v : Int) (s : State), s.serves i 3 = true ∧ s.present 2 = true ∧ (3 < channel ∨ v < -2000 ∨
      2000 < v)) ∧
    (∃ (i : Fin 8) (s : State), s.serves i 3 = true ∧ s.present 2 = false) ∧
    (∃ (i : Fin 8) (ch : Fin 4) (v : Int) (s : State), s.serves i 3 = true ∧ s.present 2 = true ∧ -20000 ≤ v ∧ v ≤ 20000 ∧
      ch.val < s.fio.ao.length) ∧
    (∃ (i : Fin 8) (channel : Nat) (v : Int) (s : State), s.serves i 3 = true ∧ s.present 2 = true ∧ (3 < channel ∨ v < -20000
      ∨ 20000 < v)) ∧
    (∃ (w : When) (i : Fin 8) (ch : Fin 4) (s : State), 3 ≤ s.sesRole i ∧ s.primary = false ∧ s.aoMode ch.val ≠ 0 ∧ (s.ao
      ch.val).held = false ∧ s.fio.comm = none ∧ (s.at w).grants (.host i) 0x120100 = true) ∧
    (∃ (w : When) (who : Agent) (ch : Fin 4) (s : State), (hostAtLeast 3 who s = false ∨ s.primary = true ∨ s.aoMode ch.val = 0
      ∨ (s.ao ch.val).held = true) ∧ (s.at w).grants who 0x120100 = true) ∧
    (∃ (w : When) (i : Fin 8) (c : Commissioning) (s : State), 3 ≤ s.sesRole i ∧ s.fio.comm = some c ∧ (s.at w).grants (.host
      i) 0x120100 = true) ∧
    (∃ (w : When) (who : Agent) (s : State), (s.fio.comm = none ∨ hostAtLeast 3 who s = false) ∧ (s.at w).grants who 0x120100 =
      true) ∧
    (∃ (c : Commissioning) (s : State), s.fio.comm = some c ∧ c.level ≠ 1 ∧ c.ch < s.fio.ao.length) ∧
    (∃ (c : Commissioning) (s : State), s.fio.comm = some c ∧ c.level = 1) ∧
    (∃ (c : Commissioning) (s : State), s.fio.comm = some c ∧ c.level ≠ 2 ∧ c.ch < s.fio.ao.length) ∧
    (∃ (s : State), s.fio.comm = none) ∧
    (∃ (w : When) (c : Commissioning) (s : State), s.fio.comm = some c ∧ c.lastPress + aonSec 600 ≤ max s.aon w.a) ∧
    (∃ (w : When) (c : Commissioning) (s : State), s.fio.comm = some c ∧ max s.aon w.a < c.lastPress + aonSec 600) ∧
    (∃ (ch : Fin 4) (s : State), ch.val < s.fio.ao.length) ∧
    (∃ (w : When) (s : State), (s.source 35).due = false ∧ (s.source 35).severe = false ∧ 1 < (s.source 35).n ∧ inWindow (max
      s.aon w.a) (s.source 35).wms (s.source 35).recent = [] ∧ 35 < s.fcr.sources.length) :=
  ⟨⟨3, { gen := { unitPresent := 7 }, cfg := { cur := { fieldIo := { ao := List.replicate 4 1 } } }, fio := { ao := List.replicate 4 {} } }, by decide⟩,
    ⟨3, { gen := { unitPresent := 0 } }, by decide⟩,
    ⟨3, { fio := { ao := List.replicate 4 { fault := true } } }, by decide⟩,
    ⟨7, 3, -2000, { gen := { unitPresent := 7 }, fio := { ao := List.replicate 4 {} }, hif := { sessions := List.replicate 8 (some { role := 3, helloDone := true }) } }, by decide⟩,
    ⟨7, 3, 2001, { gen := { unitPresent := 7 }, hif := { sessions := List.replicate 8 (some { role := 3, helloDone := true }) } }, by decide⟩,
    ⟨7, { gen := { unitPresent := 0 }, hif := { sessions := List.replicate 8 (some { role := 3, helloDone := true }) } }, by decide⟩,
    ⟨7, 3, 20000, { gen := { unitPresent := 7 }, fio := { ao := List.replicate 4 {} }, hif := { sessions := List.replicate 8 (some { role := 3, helloDone := true }) } }, by decide⟩,
    ⟨7, 3, 20001, { gen := { unitPresent := 7 }, hif := { sessions := List.replicate 8 (some { role := 3, helloDone := true }) } }, by decide⟩,
    ⟨{}, 7, 3, { gen := { unitPresent := 7 }, cfg := { cur := { fieldIo := { ao := List.replicate 4 1 } } }, hif := { sessions := List.replicate 8 (some { role := 3, helloDone := true }) } }, by decide⟩,
    ⟨{}, .firmware, 3, { wvl := { role := 1 } }, by decide⟩,
    ⟨{}, 7, {}, { fio := { comm := some {} }, hif := { sessions := List.replicate 8 (some { role := 3, helloDone := true }) } }, by decide⟩,
    ⟨{}, .firmware, {}, by decide⟩,
    ⟨{}, { fio := { comm := some {} } }, by decide⟩,
    ⟨{ level := 1 }, { fio := { comm := some { level := 1 } } }, by decide⟩,
    ⟨{ level := 1 }, { fio := { comm := some { level := 1 } } }, by decide⟩,
    ⟨{}, by decide⟩,
    ⟨{}, {}, { aon := 600000000000, fio := { comm := some {} } }, by decide⟩,
    ⟨{}, {}, { aon := 599999999999, fio := { comm := some {} } }, by decide⟩,
    ⟨3, {}, by decide⟩,
    ⟨{}, { fcr := { sources := List.replicate 48 { n := 4 } } }, by decide⟩⟩

/-- The hypotheses of TheServiceLatch are met. -/
theorem witness_TheServiceLatch :
    (∃ (s : State), s.gen.latchOpen = false ∧ s.canHandOver = true ∧ s.primary = true) ∧
    (∃ (s : State), s.gen.latchOpen = false ∧ s.primary = false) ∧
    (∃ (s : State), s.gen.latchOpen = true) ∧
    (∃ (s : State), s.tmb.acqJudged = false) ∧
    (∃ (w : When) (s : State), s.gen.phase = 5 ∧ s.gen.latchOpen = true ∧ s.tmb.acqChecked = false ∧ s.tmb.acqTimeout = true ∧
      s.tmb.state ≠ 2 ∧ s.tmb.p5Start + aonSec 30 ≤ max s.aon w.a) ∧
    (∃ (s : State), s.gen.phase = 5 ∧ s.tmb.acqJudged = true) ∧
    (∃ (c : Instr) (s : State) (t : State), s.gen.phase = 5 ∧ s.gen.latchOpen = true ∧ exec c s = .next t) ∧
    (∃ (s : State), s.gen.latchOpen = false) :=
  ⟨⟨{ gen := { latchOpen := false }, wvl := { role := 1, handover := none, partner := { present := true, role := 3 } }, cfg := { cur := { pair := { mode := 1 } } } }, by decide⟩,
    ⟨{ gen := { latchOpen := false } }, by decide⟩,
    ⟨{ gen := { latchOpen := true } }, by decide⟩,
    ⟨{ gen := { latchOpen := true } }, by decide⟩,
    ⟨{ a := 30000000000 }, { gen := { phase := 5, latchOpen := true }, tmb := { state := 0, acqChecked := false, acqTimeout := true, p5Start := 0 } }, by decide⟩,
    ⟨{ gen := { phase := 5, latchOpen := true }, tmb := { acqJudged := true } }, by decide⟩,
    ⟨.latchOpen {}, { gen := { phase := 5, latchOpen := true } }, { gen := { phase := 5, latchOpen := true } }, by exact ⟨rfl, rfl, rfl⟩⟩,
    ⟨{ gen := { latchOpen := false }, wvl := { role := 1 } }, by decide⟩⟩

/-- The hypotheses of AcquisitionTimesOut are met. -/
theorem witness_AcquisitionTimesOut :
    (∃ (w : When) (s : State), 5 ≤ s.gen.phase ∧ s.tmb.acqChecked = false ∧ s.tmb.acqTimeout = false ∧ s.tmb.state ≠ 2 ∧
      (s.evt.get .tmb).testBit 14 = false ∧ s.tmb.p5Start + aonSec 30 ≤ max s.aon w.a) ∧
    (∃ (s : State), 5 ≤ s.gen.phase ∧ s.tmb.state = 2) ∧
    (∃ (w : When) (s : State), (s.gen.phase < 5 ∨ s.tmb.acqChecked = true ∨ max s.aon w.a < s.tmb.p5Start + aonSec 30)) :=
  ⟨⟨{ a := 30000000000 }, { gen := { phase := 5, latchOpen := true }, tmb := { state := 1, acqJudged := false, acqChecked := false, p5Start := 0 } }, by decide⟩,
    ⟨{ gen := { phase := 6 }, tmb := { state := 2, acqChecked := false, p5Start := 0 } }, by decide⟩,
    ⟨{}, { gen := { phase := 4 } }, by decide⟩⟩

/-- The hypotheses of SealedRegionsStaySealed are met. -/
theorem witness_SealedRegionsStaySealed :
    (∃ (tx : Tx) (s : State), tx.ident = 11 ∧ tx.space = 1 ∧ s.trd.debugLive = true ∧ isSealed tx.addr (max 1 (if tx.isWrite
      then tx.data.length else tx.size)) = true ∧ tx.addr + max 1 (if tx.isWrite then tx.data.length else tx.size) ≤ regSize) ∧
    (∃ (a : Nat) (s : State), s.trd.debugLive = true ∧ isSealed a 4 = true ∧ a + 4 ≤ regSize) ∧
    (∃ (tx : Tx) (s : State), tx.ident = 11 ∧ s.trd.debugLive = false) :=
  ⟨⟨{ ident := 11, space := 1, addr := 0xF8000 }, { trd := { debugLive := true } }, by decide⟩,
    ⟨0x10030, { trd := { debugLive := true } }, by decide⟩,
    ⟨{ ident := 11 }, { trd := { debugLive := false } }, by decide⟩⟩

end Sys2Proof.Tests
end

/-! The answer of ACQ_TIMEOUT, case by case (R74): `acqDue` is when the judgement of the 30 s falls. -/

namespace Sys2Proof.Machine

open Sys2Proof

/-- The frame of a command that only takes up its instant. -/
theorem at_only {P : List Part} (w : When) (s : State) (hP : Covers P [.time]) : Only P s (s.at w) :=
  (at_moves w hP (Moves.refl _ s)).only

/-! ### Events of the time base -/

/-- A source that may assert is pending once it asserts (R359). -/
theorem assertSource_pend_self {n : Nat} {s : State} (hn : n < 160) (hs : sourceMay n s = true) :
    (assertSource n s).evt.pend.getLsbD n = true := by
  have hbit : (s.evt.pend ||| 1#160 <<< n).getLsbD n = true := by simp [hn]
  unfold assertSource
  rw [if_pos hs]
  dsimp only
  split
  · rw [notifyAll_evt]; exact hbit
  · exact hbit

/-- A source below those of the optional units may always assert (R6). -/
theorem sourceMay_of_lt {n : Nat} (hn : n < 148) (s : State) : sourceMay n s = true := by
  unfold sourceMay
  rw [if_neg (by omega), if_neg (by omega)]

/-- Every event of the time base, sources 80 to 95, leaves its source pending: it has no event register that holds it back. -/
theorem tmbEvent_pend {n : Nat} (hn : n < 16) (s : State) : (tmbEvent n s).evt.pend.getLsbD (80 + n) = true := by
  have hreg : ∀ e : EvtState, (e.get .tmb).testBit n = false := fun _ => Nat.zero_testBit n
  unfold tmbEvent raise
  simp only [hreg, Bool.false_eq_true, if_false]
  exact assertSource_pend_self (n := 80 + n) (by omega) (sourceMay_of_lt (by omega) _)

/-! ### The end of P5 (R389, R391) -/

@[simp] theorem endP5_evt (s : State) : (endP5 s).evt = s.evt := by
  unfold endP5
  split
  · dsimp only; split <;> rfl
  · rfl

/-- Of the time base, the end of P5 notes that it was judged, and nothing else. -/
theorem endP5_tmb (s : State) :
    (endP5 s).tmb = { s.tmb with acqJudged := decide (s.gen.phase = 5) || s.tmb.acqJudged } := by
  unfold endP5
  split
  next h => dsimp only; split <;> simp [h]
  next h => simp [h]

/-- Only a module in P5 whose hinge latch is closed goes on to P6. -/
theorem endP5_phase (s : State) :
    (endP5 s).gen.phase = if s.gen.phase = 5 ∧ s.gen.latchOpen = false then 6 else s.gen.phase := by
  unfold endP5
  by_cases h : s.gen.phase = 5
  · cases hl : s.gen.latchOpen <;> simp [h, hl]
  · simp [h]

/-! ### ACQ_TIMEOUT -/

/-- The acquisition is judged at the instant of the command: P5 has begun, 30 s of it are over, and it was not judged yet. -/
def State.acqDue (s : State) (w : When) : Prop :=
  5 ≤ s.gen.phase ∧ s.tmb.acqChecked = false ∧ s.tmb.p5Start + aonSec 30 ≤ max s.aon w.a

/-- The state in which the judgement was made, and nothing followed from it. -/
def State.acqCheck (s : State) (w : When) : State := { s.at w with tmb := { s.tmb with acqChecked := true } }

/-- What follows where the time base is not LOCKED: the flag, and its event where the flag was not set before (R74). -/
def State.acqFlag (s : State) (w : When) : State :=
  let t := s.acqCheck w
  when (!s.tmb.acqTimeout) (tmbEvent 14) (hwSet 0x10004 6 none { t with tmb := { t.tmb with acqTimeout := true } })

/-- `acqDue` is the guard of ACQ_TIMEOUT, read at the instant of the command. -/
theorem acqDue_iff {w : When} {s : State} : s.acqDue w ↔
    5 ≤ (s.at w).gen.phase ∧ (!(s.at w).tmb.acqChecked) = true ∧ (s.at w).tmb.p5Start + aonSec 30 ≤ (s.at w).aon := by
  simp [State.acqDue, State.at]

theorem exec_acqTimeout_of_not_due {w : When} {s : State} (h : ¬ s.acqDue w) : exec (.acqTimeout w) s = .next (s.at w) :=
  congrArg Host.Outcome.next (if_neg (fun hc => h (acqDue_iff.mpr hc)))

theorem exec_acqTimeout_of_due {w : When} {s : State} (h : s.acqDue w) :
    exec (.acqTimeout w) s = .next (if s.tmb.state = 2 then s.acqCheck w else endP5 (s.acqFlag w)) :=
  congrArg Host.Outcome.next (if_pos (acqDue_iff.mp h))

theorem acqCheck_only (w : When) (s : State) : Only [.time, .timebase] s (s.acqCheck w) := by
  refine ⟨rfl, fun p hp => ?_⟩
  cases p with
  | time => simp at hp
  | timebase => simp at hp
  | _ => simp [Part.Same, State.acqCheck]

@[simp] theorem acqFlag_gen (w : When) (s : State) : (s.acqFlag w).gen = s.gen := by
  unfold State.acqFlag when
  split <;> simp [State.acqCheck]

@[simp] theorem acqFlag_tmb (w : When) (s : State) :
    (s.acqFlag w).tmb = { s.tmb with acqChecked := true, acqTimeout := true } := by
  unfold State.acqFlag when
  split <;> simp [State.acqCheck]

/-- Where the flag was clear, event source 94 asserts with it. -/
theorem acqFlag_pend {w : When} {s : State} (h : s.tmb.acqTimeout = false) : (s.acqFlag w).evt.pend.getLsbD 94 = true := by
  unfold State.acqFlag
  rw [h]
  exact tmbEvent_pend (n := 14) (by decide) _

/-- Settles O59, by the three answers of ACQ_TIMEOUT: not due, due in LOCKED, due outside LOCKED. -/
theorem acquisitionTimesOut : Obligations.AcquisitionTimesOut := by
  unfold Obligations.AcquisitionTimesOut
  refine ⟨?notLocked, ?locked, ?notDue⟩
  case notLocked =>
    intro w s hphase hchecked hflag hstate _ hlate
    have hexec : exec (.acqTimeout w) s = .next (endP5 (s.acqFlag w)) := by
      rw [exec_acqTimeout_of_due ⟨hphase, hchecked, hlate⟩, if_neg hstate]
    refine ⟨_, hexec, (execAcqTimeout_moves w s _ hexec).only, ?_⟩
    simp [endP5_tmb, endP5_phase, acqFlag_pend hflag]
  case locked =>
    intro w s _ hstate
    by_cases hdue : s.acqDue w
    · exact ⟨_, by rw [exec_acqTimeout_of_due hdue, if_pos hstate], acqCheck_only w s, rfl, hstate, rfl, rfl, rfl⟩
    · exact ⟨_, exec_acqTimeout_of_not_due hdue, at_only w s (Covers.rfl.trans (by decide)), rfl, hstate, rfl, rfl, rfl⟩
  case notDue =>
    intro w s hnot
    have hdue : ¬ s.acqDue w := by
      rintro ⟨hphase, hchecked, hlate⟩
      rcases hnot with hbefore | hdone | hearly
      · omega
      · simp [hdone] at hchecked
      · omega
    exact ⟨_, exec_acqTimeout_of_not_due hdue, at_only w s Covers.rfl⟩

end Sys2Proof.Machine

/-! Identity 11 at a sealed region (R237, R304): the access is refused before any rule is read. -/

namespace Sys2Proof.Machine

open Sys2Proof

/-! ### A record request does not depend on the triad -/

/-- What the hold buffer takes does not depend on the triad. -/
@[simp] theorem holdRecord_modTrd_lgr (r : LedgerRecord) (f : TrdState → TrdState) (s : State) :
    (holdRecord r (modTrd f s)).lgr = (holdRecord r s).lgr := by
  unfold holdRecord
  by_cases hfull : 65536 ≤ s.hold
  · rw [if_pos hfull, if_pos (show 65536 ≤ (modTrd f s).hold from hfull), raise_lgr, raise_lgr]
    rfl
  · rw [if_neg hfull, if_neg (show ¬ 65536 ≤ (modTrd f s).hold from hfull)]
    simp only [queueLedger_lgr, noteHold_lgr, show (modTrd f s).recordOwner = s.recordOwner from rfl]
    cases s.recordOwner <;> rfl

/-- Of the ledger, suppression changes the counts of the suppressed alone (R334). -/
theorem suppressRecord_lgr (code time : Nat) (s : State) :
    (suppressRecord code time s).lgr =
      { s.lgr with pending := suppress s.lgr.pending code time, suppressedCount := tallyInc s.lgr.suppressedCount } := by
  unfold suppressRecord when
  dsimp only
  split
  · rw [raise_lgr]
  · rfl

/-- The front end decides on a record, and keeps it, by nothing of the triad. -/
@[simp] theorem admitRecord_modTrd_lgr (r : LedgerRecord) (f : TrdState → TrdState) (s : State) :
    (admitRecord r (modTrd f s)).2.lgr = (admitRecord r s).2.lgr := by
  have hput (i : Nat) (b : Bucket) : putBucket i b (modTrd f s) = modTrd f (putBucket i b s) := rfl
  have hbucket : (modTrd f s).bucket r.code = s.bucket r.code := rfl
  simp only [admitRecord, hput, hbucket, modTrd_lgr]
  split
  · exact holdRecord_modTrd_lgr r f s
  · split
    · exact holdRecord_modTrd_lgr r f _
    · rw [suppressRecord_lgr, suppressRecord_lgr, modTrd_lgr]

/-- A unit's record request leaves the same ledger whatever the triad holds. -/
@[simp] theorem ledger_modTrd_lgr (code source : Nat) (data : List Nat) (f : TrdState → TrdState) (s : State) :
    (ledger code source data (modTrd f s)).lgr = (ledger code source data s).lgr :=
  admitRecord_modTrd_lgr (mkRecord code source data s) f s

/-! ### The refusal at a sealed region -/

/-- What an attempt of identity 11 at a sealed region leaves: one count in `TRD_DBG_REFUSED` and the record of the address
(R237). -/
def sealedRefusal (a : Nat) (s : State) : State :=
  ledger 0x0706 0xFFFF [a] (modTrd (fun t => { t with dbgRefused := tallyInc t.dbgRefused }) s)

/-- The sealed regions are judged before every rule: whatever is loaded, the checks end with the refusal. -/
theorem checkAccess_sealed {a n : Nat} {write : Bool} {s : State} (h : isSealed a (max 1 n) = true) :
    checkAccess 11 1 a n write s = (some 4, sealedRefusal a s) := by
  unfold checkAccess
  exact if_pos ⟨rfl, rfl, h⟩

theorem sealedRefusal_moves {P : List Part} {s0 s : State} (a : Nat)
    (hP : Covers P [.debug, .events, .ledger, .keeper, .sessions, .host]) (h : Moves P s0 s) : Moves P s0 (sealedRefusal a s) := by
  refine ledger_moves _ _ _ (hP.trans (by decide)) ?_
  refine ⟨h.queue, h.mem, h.phase, h.role, h.mode, h.servo, h.keeper, fun p hp => ?_⟩
  have hsame := h.same p hp
  cases p with
  | debug => exact absurd (hP.mem (by decide)) hp
  | _ => exact hsame

@[simp] theorem sealedRefusal_out (a : Nat) (s : State) : (sealedRefusal a s).out = s.out := ledger_out _ _ _ _

@[simp] theorem sealedRefusal_mem (a : Nat) (s : State) : (sealedRefusal a s).mem = s.mem := ledger_mem _ _ _ _

@[simp] theorem sealedRefusal_wrd (a : Nat) (s : State) : (sealedRefusal a s).wrd = s.wrd := ledger_wrd _ _ _ _

@[simp] theorem sealedRefusal_trd (a : Nat) (s : State) :
    (sealedRefusal a s).trd = { s.trd with dbgRefused := tallyInc s.trd.dbgRefused } :=
  ledger_trd _ _ _ _

@[simp] theorem sealedRefusal_lgr (a : Nat) (s : State) : (sealedRefusal a s).lgr = (ledger 0x0706 0xFFFF [a] s).lgr :=
  ledger_modTrd_lgr _ _ _ _ s

/-- The state in which the debug identity's attempt at `a` has been refused and answered with an error response. -/
def State.sealedAnswer (s : State) (w : When) (a : Nat) : State := emit (.resp 11 false []) (sealedRefusal a (s.at w))

theorem sealedAnswer_only (w : When) (a : Nat) (s : State) :
    Only [.time, .debug, .events, .ledger, .keeper, .sessions, .host, .sent] s (s.sealedAnswer w a) :=
  (emit_moves _ (Covers.rfl.trans (by decide)) (sealedRefusal_moves a (Covers.rfl.trans (by decide))
    (at_moves w (Covers.rfl.trans (by decide)) (Moves.refl _ s)))).only

@[simp] theorem sealedAnswer_out (w : When) (a : Nat) (s : State) : (s.sealedAnswer w a).out = .resp 11 false [] :: s.out :=
  congrArg (List.cons _) (sealedRefusal_out a (s.at w))

@[simp] theorem sealedAnswer_dbgRefused (w : When) (a : Nat) (s : State) :
    (s.sealedAnswer w a).trd.dbgRefused = tallyInc s.trd.dbgRefused := by
  rw [State.sealedAnswer, emit_trd, sealedRefusal_trd, at_trd]

@[simp] theorem sealedAnswer_lgr (w : When) (a : Nat) (s : State) :
    (s.sealedAnswer w a).lgr = (ledger 0x0706 0xFFFF [a] (s.at w)).lgr := by
  rw [State.sealedAnswer, emit_lgr, sealedRefusal_lgr]

@[simp] theorem sealedAnswer_mem (w : When) (a : Nat) (s : State) : (s.sealedAnswer w a).mem = s.mem := by
  rw [State.sealedAnswer, emit_mem, sealedRefusal_mem, at_mem]

@[simp] theorem sealedAnswer_wrd (w : When) (a : Nat) (s : State) : (s.sealedAnswer w a).wrd = s.wrd := by
  rw [State.sealedAnswer, emit_wrd, sealedRefusal_wrd, at_wrd]

@[simp] theorem sealedAnswer_cartridge (w : When) (a : Nat) (s : State) : (s.sealedAnswer w a).kpr.cartridge = s.kpr.cartridge :=
  (sealedAnswer_only w a s).2 .cartridge (by decide)

/-! ### The accesses of identity 11 -/

/-- A register write that left the rule table at its epoch is answered at once (R306). -/
theorem answerWrite_of_epoch_eq {ident was : Nat} {ok : Bool} {s : State} (h : s.wrd.epoch = was) :
    answerWrite ident ok was s = emit (.resp ident ok []) s := by
  unfold answerWrite
  rw [h, bne_self_eq_false, Bool.and_false, if_neg Bool.false_ne_true]

theorem exec_masterTransaction_sealed {w : When} {tx : Tx} {s : State} (hident : tx.ident = 11) (hspace : tx.space = 1)
    (hlive : s.trd.debugLive = true)
    (hsealed : isSealed tx.addr (max 1 (if tx.isWrite then tx.data.length else tx.size)) = true) :
    exec (.masterTransaction w tx) s = .next (s.sealedAnswer w tx.addr) := by
  have hid : tx.ident.val = 11 := congrArg Fin.val hident
  have hreg : tx.space.val = 1 := congrArg Fin.val hspace
  have hissues : (!(s.at w).issues 11) = false := congrArg not hlive
  change execMasterTransaction w tx s = _
  unfold execMasterTransaction
  dsimp only
  rw [hid, hreg, hissues, checkAccess_sealed hsealed, if_neg Bool.false_ne_true]
  rfl

theorem exec_masterTransaction_debug_silent {w : When} {tx : Tx} {s : State} (hident : tx.ident = 11)
    (hlive : s.trd.debugLive = false) : exec (.masterTransaction w tx) s = .next (s.at w) := by
  have hid : tx.ident.val = 11 := congrArg Fin.val hident
  have hissues : (!(s.at w).issues tx.ident.val) = true := by rw [hid]; exact congrArg not hlive
  exact if_pos hissues

theorem exec_registerWrite_debug_sealed {w : When} {a : Nat} {v : Word} {d : Digests} {s : State}
    (hlive : s.trd.debugLive = true) (hsealed : isSealed a 4 = true) :
    exec (.registerWrite w .debug a v d) s = .next (s.sealedAnswer w a) := by
  have hissues : (!(s.at w).issues (identOf .debug)) = false := congrArg not hlive
  have hmay : (!(s.at w).mayWrite .debug) = false := rfl
  have hrefused : tryWrite .debug d a v (s.at w) = ((4, 0), sealedRefusal a (s.at w)) := by
    unfold tryWrite
    rw [show identOf .debug = 11 from rfl, checkAccess_sealed (n := 4) hsealed]
  change execRegisterWrite w .debug a v d s = _
  unfold execRegisterWrite
  dsimp only
  rw [hissues, hmay, hrefused, if_neg Bool.false_ne_true, if_neg Bool.false_ne_true]
  exact congrArg Host.Outcome.next (answerWrite_of_epoch_eq (congrArg WrdState.epoch (sealedRefusal_wrd a (s.at w))))

/-- Settles O60: a transaction and a register write of identity 11 at a sealed region both end in `State.sealedAnswer`, and
without a probe the identity issues nothing. -/
theorem sealedRegionsStaySealed : Obligations.SealedRegionsStaySealed := by
  unfold Obligations.SealedRegionsStaySealed
  refine ⟨?transaction, ?registerWrite, ?silent⟩
  case transaction =>
    intro w tx s hident hspace hlive hsealed _
    exact ⟨_, exec_masterTransaction_sealed hident hspace hlive hsealed, sealedAnswer_only w _ s, sealedAnswer_out w _ s,
      sealedAnswer_dbgRefused w _ s, sealedAnswer_lgr w _ s, sealedAnswer_mem w _ s, sealedAnswer_wrd w _ s⟩
  case registerWrite =>
    intro w a v d s hlive hsealed _
    exact ⟨_, exec_registerWrite_debug_sealed hlive hsealed, sealedAnswer_only w _ s, sealedAnswer_out w _ s,
      sealedAnswer_dbgRefused w _ s, sealedAnswer_lgr w _ s, sealedAnswer_cartridge w _ s⟩
  case silent =>
    intro w tx s hident hlive
    exact ⟨_, exec_masterTransaction_debug_silent hident hlive, at_only w s Covers.rfl⟩

end Sys2Proof.Machine

/-! The fault collector (chapter 15): what a report, a severity, an acknowledgement and a heartbeat leave of its sources and of
its blocked hand-overs. -/

namespace Sys2Proof.Machine

open Sys2Proof

/-! ### Operations that only report events (R22, R335) -/

/-- A source that took events, and nothing else: its severity and its fence stand, and one that is severe or due keeps the
instant at which it became due. -/
structure FcrSource.Kept (x y : FcrSource) : Prop where
  severe : y.severe = x.severe
  fenced : y.fenced = x.fenced
  due : x.severe = true ∨ x.due = true → y.due = x.due ∧ y.dueAt = x.dueAt

theorem FcrSource.Kept.refl (x : FcrSource) : x.Kept x := ⟨rfl, rfl, fun _ => ⟨rfl, rfl⟩⟩

theorem FcrSource.Kept.of_eq {x y : FcrSource} (h : y = x) : x.Kept y := h ▸ FcrSource.Kept.refl x

theorem FcrSource.Kept.trans {x y z : FcrSource} (hxy : x.Kept y) (hyz : y.Kept z) : x.Kept z := by
  refine ⟨hyz.severe.trans hxy.severe, hyz.fenced.trans hxy.fenced, fun h => ?_⟩
  obtain ⟨hdue, hat⟩ := hxy.due h
  obtain ⟨hdue', hat'⟩ := hyz.due (by rwa [hxy.severe, hdue])
  exact ⟨hdue'.trans hdue, hat'.trans hat⟩

theorem FcrSource.event_kept (x : FcrSource) (aon inst : Nat) : x.Kept (x.event aon inst) := by
  unfold FcrSource.event
  dsimp only
  split
  next => exact ⟨rfl, rfl, fun _ => ⟨rfl, rfl⟩⟩
  next hnot => exact ⟨rfl, rfl, fun h => absurd (by simpa using h) hnot⟩

theorem FcrSource.eventsN_kept (aon inst n : Nat) (x : FcrSource) : x.Kept (x.eventsN aon inst n) := by
  induction n generalizing x with
  | zero => exact .refl x
  | succ n ih => exact (x.event_kept aon inst).trans (ih _)

theorem FcrSource.putTally_kept (x : FcrSource) (y : Tally) : x.Kept (x.putTally y) := ⟨rfl, rfl, fun _ => ⟨rfl, rfl⟩⟩

theorem FcrSource.sample_kept (x : FcrSource) (unit aon inst : Nat) : x.Kept (x.sample unit aon inst) :=
  (x.eventsN_kept aon inst _).trans (putTally_kept _ _)

/-- Of the fault collector, `t` differs from `s` by reported events alone. -/
structure Reported (s t : State) : Prop where
  blocked : t.fcr.blocked = s.fcr.blocked
  length : t.fcr.sources.length = s.fcr.sources.length
  source : ∀ j, (s.source j).Kept (t.source j)

theorem Reported.of_fcr_eq {s t : State} (h : t.fcr = s.fcr) : Reported s t :=
  ⟨congrArg _ h, congrArg (·.sources.length) h, fun j => .of_eq (congrArg (·.sources.getD j {}) h)⟩

theorem Reported.refl (s : State) : Reported s s := .of_fcr_eq rfl

theorem Reported.trans {s t u : State} (hst : Reported s t) (htu : Reported t u) : Reported s u :=
  ⟨htu.blocked.trans hst.blocked, htu.length.trans hst.length, fun j => (hst.source j).trans (htu.source j)⟩

theorem Reported.foldl {α : Type} {f : State → α → State} (hf : ∀ t a, Reported t (f t a)) (l : List α) (s : State) :
    Reported s (l.foldl f s) :=
  List.foldlRecOn (motive := Reported s) l f (.refl s) fun t ht a _ => ht.trans (hf t a)

/-- A change of one source that keeps it as events do keeps the others as they are. -/
theorem modSrc_reported (i : Nat) {f : FcrSource → FcrSource} (hf : ∀ x : FcrSource, x.Kept (f x)) (s : State) :
    Reported s (modSrc i f s) := by
  refine ⟨rfl, updAt_length _ _ _, fun j => ?_⟩
  by_cases hij : i = j
  · subst hij
    by_cases hlen : i < s.fcr.sources.length
    · have hself : (modSrc i f s).source i = f (s.source i) := getD_updAt_self hlen f {}
      rw [hself]
      exact hf _
    · have hsame : updAt s.fcr.sources i f = s.fcr.sources := List.modify_eq_self (Nat.not_lt.mp hlen)
      exact .of_eq (congrArg (·.getD i {}) hsame)
  · exact .of_eq (getD_updAt_other hij f {})

theorem reportBy_reported (unit src inst : Nat) (s : State) : Reported s (reportBy unit src inst s) := by
  unfold reportBy
  split
  · exact modSrc_reported src (fun x => (x.putTally_kept _).trans (FcrSource.sample_kept _ unit s.aon inst)) s
  · exact .refl s

theorem report_reported (src inst : Nat) (s : State) : Reported s (report src inst s) := reportBy_reported _ src inst s

/-! ### The triad's fences and a split interval that ends (R227, R231, R232) -/

@[simp] theorem trdEvent_fcr (b : Nat) (s : State) : (trdEvent b s).fcr = s.fcr :=
  (trdEvent_moves (P := [.events, .triad]) b .rfl (.refl _ s)).same .faults (by decide)

theorem triadStop_reported (s : State) : Reported s (triadStop s) := by
  unfold triadStop
  split
  · exact .refl s
  · exact (Reported.of_fcr_eq (modTrd_fcr _ s)).trans (report_reported _ _ _)

theorem fenceLane_reported (lane group : Nat) (s : State) : Reported s (fenceLane lane group s) := by
  have hreport : Reported s (ledger 0x0701 lane [lane, group] (report 16 lane (trdEvent 0 (laneOut lane (modTrd (fun t => { t with
      mode := 1, fencedLane := lane, fencedAt := s.now, rejoinAt := none, copyDone := false
      fences := tallyInc t.fences, laneFences := updAt t.laneFences lane (· + 1) }) s))))) :=
    ((Reported.of_fcr_eq (by rw [trdEvent_fcr]; rfl)).trans (report_reported 16 lane _)).trans (.of_fcr_eq (ledger_fcr _ _ _ _))
  unfold fenceLane
  dsimp only
  split
  · exact hreport.trans (.of_fcr_eq (by rw [ledger_fcr, trdEvent_fcr, modTrd_fcr]))
  · exact hreport

theorem splitRejoin_reported (cause : Nat) (d : Digests) (s : State) : Reported s (splitRejoin cause d s) := by
  unfold splitRejoin
  dsimp only
  split
  next => exact .of_fcr_eq rfl
  next =>
    split
    next =>
      refine Reported.trans (.of_fcr_eq ?_) (triadStop_reported _)
      rw [chargeSlot_fcr, modTrd_fcr]
    next =>
      refine Reported.trans (.of_fcr_eq ?_) ((fenceLane_reported _ _ _).trans
        ((Reported.of_fcr_eq (trdEvent_fcr 3 _)).trans (report_reported 18 (oddLane d) _)))
      rw [chargeSlot_fcr, modTrd_fcr]

theorem splitInterrupted_reported (cause : Nat) (d : Digests) (s : State) : Reported s (splitInterrupted cause d s) := by
  unfold splitInterrupted
  split
  · exact splitRejoin_reported cause d s
  · exact .refl s

/-! ### Reads of main memory (R287, R288, R269) -/

@[simp] theorem logCorrection_fcr (line : Nat) (light : Bool) (dev bits finder : Nat) (s : State) :
    (logCorrection line light dev bits finder s).fcr = s.fcr :=
  (logCorrection_moves (P := [.memctl]) line light dev bits finder .rfl (.refl _ s)).same .faults (by decide)

theorem correctable_reported (line : Nat) (dev : Fin 10) (bits finder : Nat) (s : State) :
    Reported s (correctable line dev bits finder s) :=
  ((Reported.of_fcr_eq (modMem_fcr _ s)).trans (report_reported 19 0xFF _)).trans (.of_fcr_eq (logCorrection_fcr _ _ _ _ _ _))

theorem uncorrectable_reported (line : Nat) (s : State) : Reported s (uncorrectable line s) := by
  unfold uncorrectable
  split
  · exact (Reported.of_fcr_eq (modMem_fcr _ s)).trans (report_reported 21 0xFF _)
  · exact (Reported.of_fcr_eq (by rw [hwSet_fcr, modMem_fcr])).trans (report_reported 20 0xFF _)

theorem readLine_reported (a n : Nat) (f : MemFault) (finder : Nat) (s : State) : Reported s (readLine a n f finder s).2 := by
  have hfixes := Reported.foldl (fun t (c : Fin 10 × Nat) => correctable_reported (a / 64) c.1 c.2 finder t) (s.mem.mem.fixes f a n) s
  unfold readLine
  dsimp only
  split
  · exact hfixes.trans (uncorrectable_reported _ _)
  · exact hfixes

theorem readCrc_reported (a : Nat) (s : State) : Reported s (readCrc a s).2 := by
  unfold readCrc
  split
  · exact .refl s
  · exact List.foldlRecOn (motive := fun acc : Bool × State => Reported s acc.2) _ _ (.refl s)
      fun acc hacc p _ => hacc.trans (readLine_reported p.1 p.2 _ 0 acc.2)

theorem readDigest_reported (l : List Nat) (s : State) : Reported s (readDigest l s).2 := by
  induction l generalizing s with
  | nil => exact .refl s
  | cons a t ih => exact (readCrc_reported a s).trans (ih _)

theorem countDigest_reported (t : Nat) (s : State) : Reported s (countDigest t s) :=
  (readDigest_reported _ s).trans
    (.of_fcr_eq ((newDigest_moves (P := [.draws, .tasks]) t _ .rfl (.refl _ _)).same .faults (by decide)))

/-! ### Operations of the pair link that leave role and hand-over (R264 to R269) -/

/-- `t` differs from `s` by reported events in the fault collector, and has the role and the hand-over of `s`. -/
structure Quiet (s t : State) : Prop where
  reported : Reported s t
  role : t.wvl.role = s.wvl.role
  handover : t.wvl.handover = s.wvl.handover

theorem Quiet.refl (s : State) : Quiet s s := ⟨.refl s, rfl, rfl⟩

theorem Quiet.trans {s t u : State} (hst : Quiet s t) (htu : Quiet t u) : Quiet s u :=
  ⟨hst.reported.trans htu.reported, htu.role.trans hst.role, htu.handover.trans hst.handover⟩

theorem Quiet.of_wvl_eq {s t : State} (hr : Reported s t) (hw : t.wvl = s.wvl) : Quiet s t :=
  ⟨hr, congrArg (·.role) hw, congrArg (·.handover) hw⟩

theorem Quiet.foldl {α : Type} {f : State → α → State} (hf : ∀ t a, Quiet t (f t a)) (l : List α) (s : State) :
    Quiet s (l.foldl f s) :=
  List.foldlRecOn (motive := Quiet s) l f (.refl s) fun t ht a _ => ht.trans (hf t a)

/-- A change of the pair link that keeps role and hand-over. -/
theorem modWvl_quiet {f : WvlState → WvlState} (s : State) (hr : (f s.wvl).role = s.wvl.role := by rfl)
    (hh : (f s.wvl).handover = s.wvl.handover := by rfl) : Quiet s (modWvl f s) :=
  ⟨.of_fcr_eq rfl, hr, hh⟩

theorem raise_quiet (r : EvtReg) (bit : Nat) (s : State) : Quiet s (raise r bit s) :=
  .of_wvl_eq (.of_fcr_eq (raise_fcr r bit s)) (raise_wvl r bit s)

theorem ledger_quiet (code source : Nat) (data : List Nat) (s : State) : Quiet s (ledger code source data s) :=
  .of_wvl_eq (.of_fcr_eq (ledger_fcr code source data s)) (ledger_wvl code source data s)

theorem report_quiet (src inst : Nat) (s : State) : Quiet s (report src inst s) :=
  .of_wvl_eq (report_reported src inst s) (report_wvl src inst s)

theorem modCopy_quiet (t : Nat) (f : CopyState → CopyState) (s : State) : Quiet s (modCopy t f s) := modWvl_quiet s

theorem modTask_quiet (t : Nat) (f : TaskState → TaskState) (s : State) : Quiet s (modTask t f s) :=
  .of_wvl_eq (.of_fcr_eq (modTask_fcr t f s)) (modTask_wvl t f s)

theorem countDigest_quiet (t : Nat) (s : State) : Quiet s (countDigest t s) :=
  .of_wvl_eq (countDigest_reported t s)
    ((countDigest_moves (P := [.draws, .events, .tasks, .memctl, .faults]) t .rfl (.refl _ s)).same .pair (by decide))

theorem notCurrent_quiet (t : Nat) (s : State) : Quiet s (notCurrent t s) := (modWvl_quiet s).trans (raise_quiet _ _ _)

theorem current_quiet (t : Nat) (s : State) : Quiet s (current t s) := by
  unfold current when
  dsimp only
  split
  · exact (modWvl_quiet s).trans (raise_quiet _ _ _)
  · exact modWvl_quiet s

theorem copyDrop_quiet (t : Nat) (s : State) : Quiet s (copyDrop t s) := (modWvl_quiet s).trans (notCurrent_quiet t _)

theorem startReseed_quiet (t : Nat) (s : State) : Quiet s (startReseed t s) :=
  (((modWvl_quiet s).trans (notCurrent_quiet t _)).trans (countDigest_quiet t _)).trans
    ((modCopy_quiet t _ _).trans (modTask_quiet t _ _))

theorem reseedIfDue_quiet (t : Nat) (s : State) : Quiet s (reseedIfDue t s) := by
  unfold reseedIfDue
  split
  · exact startReseed_quiet t s
  · exact .refl s

theorem judgeFailed_quiet (t pcount : Nat) (s : State) : Quiet s (judgeFailed t pcount s) := by
  unfold judgeFailed
  dsimp only
  split
  · exact .refl s
  · refine Quiet.trans ?_ (reseedIfDue_quiet t _)
    refine Quiet.trans ?_ (Quiet.foldl (fun u _ => copyDrop_quiet t u) _ _)
    exact (modCopy_quiet t _ s).trans (.of_wvl_eq (.of_fcr_eq rfl) rfl)

theorem judgeAck_quiet (t ack pcount : Nat) (s : State) : Quiet s (judgeAck t ack pcount s) := by
  unfold judgeAck
  dsimp only
  refine Quiet.trans ?_ (judgeFailed_quiet t pcount _)
  split
  · split
    · exact (modCopy_quiet t _ s).trans (current_quiet t _)
    · exact modCopy_quiet t _ s
  · exact .refl s

theorem primaryHeartbeat_quiet (h : Heartbeat) (before : Nat) (s : State) : Quiet s (primaryHeartbeat h before s) := by
  unfold primaryHeartbeat
  split
  · refine Quiet.trans ?_ (Quiet.foldl (fun u t => judgeAck_quiet t _ _ u) _ _)
    split
    · exact Quiet.foldl (fun u t => startReseed_quiet t u) _ s
    · refine Quiet.foldl (fun u t => ?_) _ s
      split
      · exact .refl u
      · exact startReseed_quiet t u
  · exact .refl s

theorem laneChange_quiet (lane : Nat) (up : Bool) (s : State) : Quiet s (laneChange lane up s) :=
  (modWvl_quiet s).trans
    ((ledger_quiet _ _ _ _).trans ((report_quiet 28 0xFF _).trans (raise_quiet _ _ _)))

theorem fioStandby_quiet (s : State) : Quiet s (fioStandby s) := by
  have hmoves := fioStandby_moves (P := [.events, .ledger, .keeper, .outputs, .loops, .field, .sessions, .host, .sent]) .rfl (.refl _ s)
  exact .of_wvl_eq (.of_fcr_eq (hmoves.same .faults (by decide))) (hmoves.same .pair (by decide))

theorem when_quiet {f : State → State} (hf : ∀ t, Quiet t (f t)) (c : Bool) (s : State) : Quiet s (when c f s) := by
  cases c
  · exact .refl s
  · exact hf s

theorem frameSeen_quiet (h : LinkHdr) (s : State) : Quiet s (frameSeen h s) := by
  unfold frameSeen
  dsimp only
  refine Quiet.trans ?_ (when_quiet fioStandby_quiet _ _)
  refine Quiet.trans ?_ (when_quiet (fun t => modWvl_quiet t) _ _)
  split
  · exact modWvl_quiet s
  · exact (modWvl_quiet s).trans (laneChange_quiet _ _ _)

theorem partnerSeen_quiet (h : Heartbeat) (s : State) : Quiet s (partnerSeen h s) := by
  unfold partnerSeen
  refine Quiet.trans ?_ (when_quiet (fun t => ?_) _ _)
  · exact modWvl_quiet s
  · exact (ledger_quiet _ _ _ t).trans ((report_quiet _ _ _).trans (raise_quiet _ _ _))

/-- The partner as a heartbeat describes it. -/
def heartbeatPartner (h : Heartbeat) : PartnerState :=
  { present := true, everSeen := true, side := h.hdr.side, role := h.hdr.role, flags := h.flags, gen := h.gen
    digest16 := h.digest16, blvl := h.blvl, epoch := h.hdr.epoch, reserve := h.reserve, ack := h.ack
    heldGen := h.heldGen, heldDigest := h.heldDigest }

@[simp] theorem partnerSeen_partner (h : Heartbeat) (s : State) : (partnerSeen h s).wvl.partner = heartbeatPartner h := by
  unfold partnerSeen when
  dsimp only
  split
  · simp [modWvl, heartbeatPartner]
  · rfl

/-! ### Records of the fault collector (R342) -/

@[simp] theorem history_sources (src kind byWhom : Nat) (s : State) :
    (history src kind byWhom s).fcr.sources = s.fcr.sources := by
  unfold history when
  dsimp only
  split <;> simp

@[simp] theorem history_blocked (src kind byWhom : Nat) (s : State) :
    (history src kind byWhom s).fcr.blocked = s.fcr.blocked := by
  unfold history when
  dsimp only
  split <;> simp

/-- A history record leaves everything but the ring, and the event of an unread record that it overwrites. -/
theorem history_same (src kind byWhom : Nat) (s : State) {p : Part} (hp : p ∉ [Part.events, .faults, .sessions, .host]) :
    p.Same s (history src kind byWhom s) :=
  (history_moves (P := [.events, .faults, .sessions, .host]) src kind byWhom .rfl (.refl _ s)).same p hp

@[simp] theorem history_wvl (src kind byWhom : Nat) (s : State) : (history src kind byWhom s).wvl = s.wvl :=
  history_same src kind byWhom s (p := .pair) (by decide)

@[simp] theorem history_phe (src kind byWhom : Nat) (s : State) : (history src kind byWhom s).phe = s.phe := by
  unfold history when
  dsimp only
  split <;> simp

/-! ### Hand-over for a forcing source (R338, R339) -/

/-- A blocked hand-over of source `i`, its record and event 111 (R338, R344). -/
def blockHandover (i : Nat) (s : State) : State :=
  let s := { s with fcr := { s.fcr with blocked := if s.fcr.blocked.contains i then s.fcr.blocked else s.fcr.blocked ++ [i] } }
  raise .fcr 15 (ledger 0x0D04 (s.srcInst i) [i] (history i 4 0 s))

theorem forceSource_of_not_ready {i : Nat} {s : State} (h : s.forceReady i = false) :
    forceSource i s =
      if i = 17 then requestRestart false 2 (blockHandover i s).aon false (blockHandover i s) else blockHandover i s := by
  unfold forceSource
  rw [h, if_neg Bool.false_ne_true]
  rfl

theorem forceSource_of_ready {i : Nat} {s : State} (h : s.forceReady i = true) : forceSource i s = relinquish i s := if_pos h

@[simp] theorem blockHandover_sources (i : Nat) (s : State) : (blockHandover i s).fcr.sources = s.fcr.sources := by
  simp [blockHandover]

@[simp] theorem blockHandover_wvl (i : Nat) (s : State) : (blockHandover i s).wvl = s.wvl := by simp [blockHandover]

theorem blockHandover_blocked (i : Nat) (s : State) :
    (blockHandover i s).fcr.blocked = if s.fcr.blocked.contains i then s.fcr.blocked else s.fcr.blocked ++ [i] := by
  simp [blockHandover]

theorem mem_blockHandover {i k : Nat} {s : State} : k ∈ (blockHandover i s).fcr.blocked ↔ k ∈ s.fcr.blocked ∨ k = i := by
  rw [blockHandover_blocked]
  by_cases h : i ∈ s.fcr.blocked
  · rw [if_pos (by simpa using h)]
    exact ⟨Or.inl, fun hk => hk.elim id fun e => e ▸ h⟩
  · rw [if_neg (by simpa using h)]
    simp

theorem blockHandover_moves {P : List Part} {s0 s : State} (i : Nat)
    (hP : Covers P [.events, .faults, .ledger, .keeper, .sessions, .host]) (h : Moves P s0 s) : Moves P s0 (blockHandover i s) := by
  refine raise_moves _ _ (hP.trans (by decide)) (ledger_moves _ _ _ (hP.trans (by decide)) (history_moves _ _ _ (hP.trans (by decide)) ?_))
  refine ⟨h.queue, h.mem, h.phase, h.role, h.mode, h.servo, h.keeper, fun p hp => ?_⟩
  have hsame := h.same p hp
  cases p with
  | faults => exact absurd (hP.mem (by decide)) hp
  | _ => exact hsame

@[simp] theorem linkSendAll_fcr (msg : Nat) (data : List Nat) (s : State) : (linkSendAll msg data s).fcr = s.fcr :=
  (linkSendAll_moves (P := [.pair, .sent]) msg data .rfl (.refl _ s)).same .faults (by decide)

theorem linkSendAll_quiet (msg : Nat) (data : List Nat) (s : State) : Quiet s (linkSendAll msg data s) := by
  refine ⟨.of_fcr_eq (linkSendAll_fcr msg data s), ?_, ?_⟩ <;>
    (unfold linkSendAll; split <;> rfl)

theorem answerTo_quiet (kind : Nat) (i : Option Nat) (status detail : Nat) (payload : List Nat) (s : State) :
    Quiet s (answerTo kind i status detail payload s) := by
  have hmoves := answerTo_moves (P := [.sessions, .sent]) kind i status detail payload .rfl (.refl _ s)
  exact .of_wvl_eq (.of_fcr_eq (hmoves.same .faults (by decide))) (hmoves.same .pair (by decide))

/-- What a RELINQUISH for a forcing source makes the hand-over (R272). -/
def State.forcedHandover (s : State) : Handover :=
  { asked := s.islandTime linkIsland, cause := 2, h := some (s.forcedH.getD (s.pcount + 2)), acked := true, forced := true }

/-- The RELINQUISH on the link, with the hand-over that it begins. -/
def relinquishSent (s : State) : State :=
  linkSendAll 4 (two (s.forcedH.getD (s.pcount + 2))) (modWvl (fun w => { w with handover := some s.forcedHandover }) s)

/-- The fault collector's note of the RELINQUISH: the source has forced it and its hand-over is no longer blocked. -/
def noteRelinquish (src : Nat) (s : State) : State :=
  modSrc src (fun x => { x with forced := true })
    { s with fcr := { s.fcr with handoverSent := true, blocked := s.fcr.blocked.filter (· != src) } }

theorem relinquish_eq (src : Nat) (s : State) : ∃ who, relinquish src s =
    answerTo 4 who 0 0 (two (s.forcedH.getD (s.pcount + 2)))
      (raise .fcr 15 (ledger 0x0D03 ((noteRelinquish src (relinquishSent s)).srcInst src)
        (src :: two (s.forcedH.getD (s.pcount + 2))) (history src 3 0 (noteRelinquish src (relinquishSent s))))) :=
  ⟨_, rfl⟩

@[simp] theorem relinquishSent_fcr (s : State) : (relinquishSent s).fcr = s.fcr := linkSendAll_fcr _ _ _

@[simp] theorem relinquishSent_handover (s : State) : (relinquishSent s).wvl.handover = some s.forcedHandover :=
  (linkSendAll_quiet _ _ _).handover

@[simp] theorem relinquishSent_role (s : State) : (relinquishSent s).wvl.role = s.wvl.role := (linkSendAll_quiet _ _ _).role

@[simp] theorem noteRelinquish_wvl (src : Nat) (s : State) : (noteRelinquish src s).wvl = s.wvl := rfl

theorem noteRelinquish_source (src j : Nat) (s : State) : (s.source j).Kept ((noteRelinquish src s).source j) :=
  (modSrc_reported src (f := fun x => { x with forced := true }) (fun _ => ⟨rfl, rfl, fun _ => ⟨rfl, rfl⟩⟩) _).source j

@[simp] theorem relinquish_handover (src : Nat) (s : State) : (relinquish src s).wvl.handover = some s.forcedHandover := by
  obtain ⟨who, heq⟩ := relinquish_eq src s
  rw [heq, (answerTo_quiet _ _ _ _ _ _).handover]
  simp

@[simp] theorem relinquish_role (src : Nat) (s : State) : (relinquish src s).wvl.role = s.wvl.role := by
  obtain ⟨who, heq⟩ := relinquish_eq src s
  rw [heq, (answerTo_quiet _ _ _ _ _ _).role]
  simp

@[simp] theorem relinquish_blocked (src : Nat) (s : State) :
    (relinquish src s).fcr.blocked = s.fcr.blocked.filter (· != src) := by
  obtain ⟨who, heq⟩ := relinquish_eq src s
  rw [heq, (answerTo_quiet _ _ _ _ _ _).reported.blocked]
  simp [noteRelinquish, modSrc]

theorem relinquish_length (src : Nat) (s : State) : (relinquish src s).fcr.sources.length = s.fcr.sources.length := by
  obtain ⟨who, heq⟩ := relinquish_eq src s
  rw [heq, (answerTo_quiet _ _ _ _ _ _).reported.length]
  simp [noteRelinquish, modSrc]

/-- A RELINQUISH changes no source's severity, fence or dueness. -/
theorem relinquish_source (src j : Nat) (s : State) : (s.source j).Kept ((relinquish src s).source j) := by
  obtain ⟨who, heq⟩ := relinquish_eq src s
  rw [heq]
  refine FcrSource.Kept.trans ?_ ((answerTo_quiet _ _ _ _ _ _).reported.source j)
  have hsent : (relinquishSent s).source j = s.source j := by simp [State.source]
  have hnote := noteRelinquish_source src j (relinquishSent s)
  rw [hsent] at hnote
  exact hnote.trans (.of_eq (by simp [State.source]))

/-! ### HEARTBEAT_RECEIVED (R258, R338, R339) -/

/-- The state at which a heartbeat of the partner finds the blocked hand-overs. -/
def State.heartbeatSeen (s : State) (w : When) (h : Heartbeat) : State := partnerSeen h (frameSeen h.hdr (s.at w))

theorem heartbeatSeen_quiet (s : State) (w : When) (h : Heartbeat) : Quiet s (s.heartbeatSeen w h) :=
  (Quiet.of_wvl_eq (s := s) (t := s.at w) (.of_fcr_eq rfl) rfl).trans ((frameSeen_quiet _ _).trans (partnerSeen_quiet _ _))

theorem heartbeatSeen_same (s : State) (w : When) (h : Heartbeat) {p : Part}
    (hp : p ∉ [Part.events, .pair, .faults, .ledger, .keeper, .outputs, .loops, .field, .sessions, .host, .sent]) :
    p.Same (s.at w) (s.heartbeatSeen w h) :=
  (partnerSeen_moves (P := [.events, .pair, .faults, .ledger, .keeper, .outputs, .loops, .field, .sessions, .host, .sent]) h
    (Covers.rfl.trans (by decide)) (frameSeen_moves h.hdr .rfl (.refl _ _))).same p hp

/-- A frame of the partner that the link takes reaches what handles it. -/
theorem linkIn_of_partner {h : LinkHdr} {f : State → State} {s : State} (hmode : s.pair.mode ≠ 0) (hside : h.side ≠ s.wvl.side) :
    linkIn h f s = f (frameSeen h s) := by
  unfold linkIn
  rw [if_neg hmode, if_neg hside]

theorem heartbeatByRole_of_primary {h : Heartbeat} {before : Nat} {s : State} (hrole : s.wvl.role = 1) :
    heartbeatByRole h before s = primaryHeartbeat h before s := by
  unfold heartbeatByRole
  simp only [hrole]

/-- A heartbeat at a primary that takes it: the blocked hand-overs first, then the copies. -/
theorem exec_heartbeatReceived_primary {w : When} {h : Heartbeat} {s : State} (hmode : s.pair.mode ≠ 0)
    (hside : h.hdr.side ≠ s.wvl.side) (hrole : (unblock (s.heartbeatSeen w h)).wvl.role = 1) :
    ∃ before, exec (.heartbeatReceived w h) s = .next (primaryHeartbeat h before (unblock (s.heartbeatSeen w h))) := by
  refine ⟨if (frameSeen h.hdr (s.at w)).wvl.partner.present then (frameSeen h.hdr (s.at w)).wvl.partner.role else 7, ?_⟩
  change execHeartbeatReceived w h s = _
  unfold execHeartbeatReceived
  dsimp only
  rw [linkIn_of_partner (s := s.at w) hmode hside]
  exact congrArg Host.Outcome.next (heartbeatByRole_of_primary hrole)

/-- Source 22 as the one blocked: it goes ahead or stays, as the partner of the moment lets it. -/
theorem unblock_of_single {i : Nat} {s : State} (h : s.fcr.blocked = [i]) :
    unblock s = if s.primary && s.severe i && s.forceReady i then relinquish i s else s := by
  unfold unblock
  rw [h]
  rfl

/-! ### A source becomes severe (R335, R337, R338, R340) -/

/-- The source marked severe, with its history record, its ledger record and its event. -/
def recordSevere (i : Nat) (s : State) : State :=
  let s := modSrc i (fun x => { x with severe := true, due := false }) s
  raise .fcr (fcrClass i) (ledger 0x0D01 (s.srcInst i) [i, s.inWin i, (s.source i).wms] (history i 1 0 s))

/-- What a forcing source sets off (R338, R340); any other source sets off nothing more. -/
def reactForcing (i : Nat) (s : State) : State :=
  if forcing.contains i then (if s.primary then forceSource i s else offPrimary i s) else s

theorem becomeSevere_eq (i : Nat) (d : Digests) (s : State) :
    becomeSevere i d s = reactForcing i (fenceSource i d (recordSevere i s)) := rfl

@[simp] theorem recordSevere_sources (i : Nat) (s : State) :
    (recordSevere i s).fcr.sources = updAt s.fcr.sources i (fun x => { x with severe := true, due := false }) := by
  simp [recordSevere, modSrc]

@[simp] theorem recordSevere_blocked (i : Nat) (s : State) : (recordSevere i s).fcr.blocked = s.fcr.blocked := by
  simp [recordSevere, modSrc]

@[simp] theorem recordSevere_wvl (i : Nat) (s : State) : (recordSevere i s).wvl = s.wvl := by simp [recordSevere]

@[simp] theorem recordSevere_phe (i : Nat) (s : State) : (recordSevere i s).phe = s.phe := by simp [recordSevere]

theorem recordSevere_source_self {i : Nat} {s : State} (h : i < s.fcr.sources.length) :
    (recordSevere i s).source i = { s.source i with severe := true, due := false } := by
  unfold State.source
  rw [recordSevere_sources, getD_updAt_self h]

theorem recordSevere_source_other {i j : Nat} (h : i ≠ j) (s : State) : (recordSevere i s).source j = s.source j := by
  unfold State.source
  rw [recordSevere_sources, getD_updAt_other h]

theorem recordSevere_moves {P : List Part} {s0 s : State} (i : Nat)
    (hP : Covers P [.events, .faults, .ledger, .keeper, .sessions, .host]) (h : Moves P s0 s) : Moves P s0 (recordSevere i s) :=
  raise_moves _ _ (hP.trans (by decide)) (ledger_moves _ _ _ (hP.trans (by decide)) (history_moves _ _ _ (hP.trans (by decide))
    (modSrc_moves _ _ (hP.trans (by decide)) h)))

/-- The source's fence noted as in force. -/
def markFenced (i : Nat) (s : State) : State := modSrc i (fun x => { x with fenced := true }) s

/-- The fence of a source changes, of the fault collector, its mark; the end of a split interval reports events besides. -/
theorem fenceSource_reported (i : Nat) (d : Digests) (s : State) :
    Reported s (fenceSource i d s) ∨ Reported (markFenced i s) (fenceSource i d s) := by
  unfold fenceSource
  dsimp only
  split
  · exact .inr (splitInterrupted_reported 5 d _)
  split
  · exact .inr (.of_fcr_eq rfl)
  split
  · exact .inr (.of_fcr_eq rfl)
  split
  · exact .inr (.of_fcr_eq rfl)
  split
  · exact .inr (Reported.foldl (fun t p => .of_fcr_eq (modPort_fcr p _ t)) _ _)
  · exact .inl (.refl s)

theorem fenceSource_of_no_fence {i : Nat} (h : i ∉ [18, 32, 33, 34, 35]) (d : Digests) (s : State) : fenceSource i d s = s := by
  simp only [List.mem_cons, List.not_mem_nil, or_false, not_or] at h
  obtain ⟨h18, h32, h33, h34, h35⟩ := h
  simp [fenceSource, h18, h32, h33, h34, h35]

@[simp] theorem fenceSource_wvl (i : Nat) (d : Digests) (s : State) : (fenceSource i d s).wvl = s.wvl :=
  (fenceSource_moves (P := [.events, .ports, .intake, .phasors, .surges, .triad, .budgets, .faults, .ledger, .keeper, .sessions, .host])
    i d .rfl (.refl _ s)).same .pair (by decide)

@[simp] theorem fenceSource_blocked (i : Nat) (d : Digests) (s : State) : (fenceSource i d s).fcr.blocked = s.fcr.blocked := by
  rcases fenceSource_reported i d s with h | h
  · exact h.blocked
  · exact h.blocked

theorem fenceSource_length (i : Nat) (d : Digests) (s : State) :
    (fenceSource i d s).fcr.sources.length = s.fcr.sources.length := by
  rcases fenceSource_reported i d s with h | h
  · exact h.length
  · exact h.length.trans (updAt_length _ _ _)

theorem fenceSource_source_other {i j : Nat} (hij : i ≠ j) (d : Digests) (s : State) :
    (s.source j).Kept ((fenceSource i d s).source j) := by
  rcases fenceSource_reported i d s with h | h
  · exact h.source j
  · have hmark : (markFenced i s).source j = s.source j := getD_updAt_other hij _ _
    exact hmark ▸ h.source j

/-- A severe source stays severe, and not due, when its fence comes into force. -/
theorem fenceSource_source_self {i : Nat} {d : Digests} {s : State} (hlen : i < s.fcr.sources.length)
    (hsevere : (s.source i).severe = true) (hdue : (s.source i).due = false) :
    ((fenceSource i d s).source i).severe = true ∧ ((fenceSource i d s).source i).due = false := by
  rcases fenceSource_reported i d s with h | h
  · exact ⟨(h.source i).severe.trans hsevere, ((h.source i).due (.inl hsevere)).1.trans hdue⟩
  · have hmark : (markFenced i s).source i = { s.source i with fenced := true } := getD_updAt_self hlen _ _
    have hkept := h.source i
    rw [hmark] at hkept
    exact ⟨hkept.severe.trans hsevere, (hkept.due (.inl hsevere)).1.trans hdue⟩

@[simp] theorem offPrimary_sources (i : Nat) (s : State) : (offPrimary i s).fcr.sources = s.fcr.sources := by
  unfold offPrimary
  split
  · simp [requestRestart]
  · rfl

@[simp] theorem offPrimary_blocked (i : Nat) (s : State) : (offPrimary i s).fcr.blocked = s.fcr.blocked := by
  unfold offPrimary
  split
  · simp [requestRestart]
  · rfl

@[simp] theorem offPrimary_wvl (i : Nat) (s : State) : (offPrimary i s).wvl = s.wvl := by
  unfold offPrimary
  split
  · simp [requestRestart]
  · rfl

/-- The two ends of a forcing source at a primary: RELINQUISH, or a hand-over that stays blocked. -/
theorem forceSource_cases (i : Nat) (s : State) :
    (s.forceReady i = true ∧ forceSource i s = relinquish i s) ∨
    (s.forceReady i = false ∧ (forceSource i s).fcr = (blockHandover i s).fcr ∧ (forceSource i s).wvl = s.wvl) := by
  cases h : s.forceReady i with
  | true => exact .inl ⟨rfl, forceSource_of_ready h⟩
  | false =>
    refine .inr ⟨rfl, ?_⟩
    rw [forceSource_of_not_ready h]
    split
    · exact ⟨rfl, blockHandover_wvl i s⟩
    · exact ⟨rfl, blockHandover_wvl i s⟩

theorem reactForcing_source (i j : Nat) (s : State) : (s.source j).Kept ((reactForcing i s).source j) := by
  unfold reactForcing
  split
  · split
    · rcases forceSource_cases i s with ⟨_, heq⟩ | ⟨_, heq, _⟩
      · exact heq ▸ relinquish_source i j s
      · exact .of_eq (by simp [State.source, heq])
    · exact .of_eq (by simp [State.source])
  · exact .refl _

theorem reactForcing_length (i : Nat) (s : State) : (reactForcing i s).fcr.sources.length = s.fcr.sources.length := by
  unfold reactForcing
  split
  · split
    · rcases forceSource_cases i s with ⟨_, heq⟩ | ⟨_, heq, _⟩
      · exact heq ▸ relinquish_length i s
      · rw [heq, blockHandover_sources]
    · rw [offPrimary_sources]
  · rfl

theorem reactForcing_role (i : Nat) (s : State) : (reactForcing i s).wvl.role = s.wvl.role := by
  unfold reactForcing
  split
  · split
    · rcases forceSource_cases i s with ⟨_, heq⟩ | ⟨_, _, heq⟩
      · exact heq ▸ relinquish_role i s
      · rw [heq]
    · rw [offPrimary_wvl]
  · rfl

theorem forceReady_of_not_standby {s : State} (h : s.partnerStandby = false) (i : Nat) : s.forceReady i = false := by
  unfold State.forceReady
  rw [h, Bool.false_and]

/-- Without a STANDBY partner nothing of the pair link changes. -/
theorem reactForcing_wvl {s : State} (h : s.partnerStandby = false) (i : Nat) : (reactForcing i s).wvl = s.wvl := by
  unfold reactForcing
  split
  · split
    · rcases forceSource_cases i s with ⟨hready, _⟩ | ⟨_, _, heq⟩
      · exact absurd hready (by rw [forceReady_of_not_standby h]; decide)
      · exact heq
    · exact offPrimary_wvl i s
  · rfl

/-- Without a STANDBY partner a blocked hand-over stays blocked. -/
theorem mem_reactForcing_blocked {s : State} (h : s.partnerStandby = false) (i : Nat) {k : Nat} (hk : k ∈ s.fcr.blocked) :
    k ∈ (reactForcing i s).fcr.blocked := by
  unfold reactForcing
  split
  · split
    · rcases forceSource_cases i s with ⟨hready, _⟩ | ⟨_, heq, _⟩
      · exact absurd hready (by rw [forceReady_of_not_standby h]; decide)
      · rw [heq]; exact mem_blockHandover.mpr (.inl hk)
    · rwa [offPrimary_blocked]
  · exact hk

theorem reactForcing_of_not_forcing {i : Nat} (h : i ∉ forcing) (s : State) : reactForcing i s = s :=
  if_neg (by rwa [List.contains_iff_mem])

theorem reactForcing_of_primary {i : Nat} {s : State} (hi : i ∈ forcing) (hprimary : s.primary = true) :
    reactForcing i s = forceSource i s := by
  unfold reactForcing
  rw [if_pos (List.contains_iff_mem.mpr hi), if_pos hprimary]

/-- A forcing source at a primary that may not hand over yet: the hand-over is blocked (R338, R339). -/
theorem reactForcing_of_not_ready {i : Nat} {s : State} (hi : i ∈ forcing) (hprimary : s.primary = true)
    (hready : s.forceReady i = false) : (reactForcing i s).fcr = (blockHandover i s).fcr := by
  rw [reactForcing_of_primary hi hprimary]
  rcases forceSource_cases i s with ⟨hr, _⟩ | ⟨_, heq, _⟩
  · exact absurd hr (by rw [hready]; decide)
  · exact heq

theorem becomeSevere_source_other {i j : Nat} (hij : i ≠ j) (d : Digests) (s : State) :
    (s.source j).Kept ((becomeSevere i d s).source j) := by
  have hfence := fenceSource_source_other hij d (recordSevere i s)
  rw [recordSevere_source_other hij] at hfence
  exact hfence.trans (reactForcing_source i j _)

theorem becomeSevere_source_self {i : Nat} {s : State} (hlen : i < s.fcr.sources.length) (d : Digests) :
    ((becomeSevere i d s).source i).severe = true ∧ ((becomeSevere i d s).source i).due = false := by
  have hself := recordSevere_source_self hlen
  obtain ⟨hsevere, hdue⟩ := fenceSource_source_self (i := i) (d := d) (s := recordSevere i s)
    (by rw [recordSevere_sources, updAt_length]; exact hlen) (by rw [hself]) (by rw [hself])
  have hreact := reactForcing_source i i (fenceSource i d (recordSevere i s))
  exact ⟨hreact.severe.trans hsevere, (hreact.due (.inl hsevere)).1.trans hdue⟩

theorem becomeSevere_length (i : Nat) (d : Digests) (s : State) :
    (becomeSevere i d s).fcr.sources.length = s.fcr.sources.length := by
  rw [becomeSevere_eq, reactForcing_length, fenceSource_length, recordSevere_sources, updAt_length]

theorem becomeSevere_role (i : Nat) (d : Digests) (s : State) : (becomeSevere i d s).wvl.role = s.wvl.role := by
  rw [becomeSevere_eq, reactForcing_role, fenceSource_wvl, recordSevere_wvl]

theorem fencedRecord_wvl (i : Nat) (d : Digests) (s : State) : (fenceSource i d (recordSevere i s)).wvl = s.wvl := by
  rw [fenceSource_wvl, recordSevere_wvl]

theorem partnerStandby_congr {s t : State} (h : t.wvl = s.wvl) : t.partnerStandby = s.partnerStandby := by
  unfold State.partnerStandby
  rw [h]

theorem primary_iff {s : State} : s.primary = true ↔ s.wvl.role = 1 := beq_iff_eq

theorem severe_eq (s : State) (i : Nat) : s.severe i = (s.source i).severe := rfl

theorem primary_congr {s t : State} (h : t.wvl = s.wvl) : t.primary = s.primary := by
  unfold State.primary
  rw [h]

theorem becomeSevere_wvl {s : State} (h : s.partnerStandby = false) (i : Nat) (d : Digests) : (becomeSevere i d s).wvl = s.wvl := by
  rw [becomeSevere_eq, reactForcing_wvl ((partnerStandby_congr (fencedRecord_wvl i d s)).trans h), fencedRecord_wvl]

theorem mem_becomeSevere_blocked {s : State} (h : s.partnerStandby = false) (i : Nat) (d : Digests) {k : Nat}
    (hk : k ∈ s.fcr.blocked) : k ∈ (becomeSevere i d s).fcr.blocked :=
  mem_reactForcing_blocked ((partnerStandby_congr (fencedRecord_wvl i d s)).trans h) i
    (by rwa [fenceSource_blocked, recordSevere_blocked])

/-- A forcing source that becomes severe at a primary without a STANDBY partner blocks its hand-over (R338). -/
theorem becomeSevere_blocks {i : Nat} {s : State} (hi : i ∈ forcing) (hprimary : s.primary = true)
    (h : s.partnerStandby = false) (d : Digests) : i ∈ (becomeSevere i d s).fcr.blocked := by
  have hw := fencedRecord_wvl i d s
  rw [becomeSevere_eq, reactForcing_of_not_ready hi ((primary_congr hw).trans hprimary)
    (forceReady_of_not_standby ((partnerStandby_congr hw).trans h) i)]
  exact mem_blockHandover.mpr (.inr rfl)

/-- A source whose reaction is neither a fence nor a hand-over is marked and recorded, and that is all. -/
theorem becomeSevere_of_plain {i : Nat} (hi : i ∉ forcing) (hfence : i ∉ [18, 32, 33, 34, 35]) (d : Digests) (s : State) :
    becomeSevere i d s = recordSevere i s := by
  rw [becomeSevere_eq, fenceSource_of_no_fence hfence, reactForcing_of_not_forcing hi]

/-! ### The sources of one always-on cycle (R335) -/

/-- Source `j` in its turn: it acts if it became due at the instant `dueAt`. -/
def dueStep (dueAt : Nat) (d : Digests) (t : State) (j : Nat) : State :=
  if (t.source j).due && !(t.source j).severe && (t.source j).dueAt == dueAt then becomeSevere j d t else t

theorem severeWith_eq (i : Nat) (d : Digests) (s : State) :
    severeWith i d s = (List.range 48).foldl (dueStep (s.source i).dueAt d) s := rfl

theorem dueStep_of_due {dueAt : Nat} {d : Digests} {t : State} {j : Nat} (hdue : (t.source j).due = true)
    (hsevere : (t.source j).severe = false) (hat : (t.source j).dueAt = dueAt) : dueStep dueAt d t j = becomeSevere j d t :=
  if_pos (by rw [hdue, hsevere, hat, beq_self_eq_true]; rfl)

/-- What every source's action keeps, its turn keeps. -/
theorem dueStep_keeps {dueAt : Nat} {d : Digests} {t : State} {j : Nat} {P : State → Prop} (h : P t) (hact : P (becomeSevere j d t)) :
    P (dueStep dueAt d t j) := by
  unfold dueStep
  split
  · exact hact
  · exact h

/-- The turns in order, seen from source `k`: what holds before its turn and is kept by the others' turns, what its action
makes of that, and what the others' turns keep from then on. -/
theorem severeWith_turn {i k : Nat} {d : Digests} {s : State} (hk : k < 48) {Before After : State → Prop} (h0 : Before s)
    (hbefore : ∀ t j, j < 48 → j ≠ k → Before t → Before (dueStep (s.source i).dueAt d t j))
    (hdue : ∀ t, Before t → (t.source k).due = true ∧ (t.source k).severe = false ∧ (t.source k).dueAt = (s.source i).dueAt)
    (hturn : ∀ t, Before t → After (becomeSevere k d t))
    (hafter : ∀ t j, j < 48 → j ≠ k → After t → After (dueStep (s.source i).dueAt d t j)) : After (severeWith i d s) := by
  have hsplit : List.range 48 = List.range k ++ k :: List.range' (k + 1) (48 - (k + 1)) := by
    rw [List.range_eq_range', List.range_eq_range', ← List.range'_succ, show 48 - (k + 1) + 1 = 48 - k by omega]
    simpa [show k + (48 - k) = 48 by omega] using (List.range'_append_1 (s := 0) (m := k) (n := 48 - k)).symm
  rw [severeWith_eq, hsplit, List.foldl_append, List.foldl_cons]
  refine List.foldlRecOn (motive := After) _ _ ?_ fun t ht j hj => ?_
  · have hb : Before ((List.range k).foldl (dueStep (s.source i).dueAt d) s) :=
      List.foldlRecOn (motive := Before) _ _ h0 fun t ht j hj => by
        have hlt := List.mem_range.mp hj
        exact hbefore t j (by omega) (by omega) ht
    obtain ⟨h1, h2, h3⟩ := hdue _ hb
    rw [dueStep_of_due h1 h2 h3]
    exact hturn _ hb
  · have hmem := List.mem_range'_1.mp hj
    exact hafter t j (by omega) (by omega) ht

/-- What every source's action keeps, all of them keep. -/
theorem severeWith_keeps {P : State → Prop} (i : Nat) (d : Digests) {s : State} (h0 : P s)
    (hstep : ∀ t j, P t → P (becomeSevere j d t)) : P (severeWith i d s) := by
  rw [severeWith_eq]
  exact List.foldlRecOn (motive := P) _ _ h0 fun t ht j _ => dueStep_keeps ht (hstep t j ht)

theorem severeWith_role (i : Nat) (d : Digests) (s : State) : (severeWith i d s).wvl.role = s.wvl.role :=
  severeWith_keeps (P := fun t => t.wvl.role = s.wvl.role) i d rfl fun t j h => (becomeSevere_role j d t).trans h

/-- Source `k` is due in the always-on cycle in which source `i` became due, and is not severe. -/
structure State.DueWith (s : State) (i k : Nat) : Prop where
  due : (s.source k).due = true
  severe : (s.source k).severe = false
  dueAt : (s.source k).dueAt = (s.source i).dueAt
  listed : k < s.fcr.sources.length

/-- Each source due in the cycle acts once, from a state that has kept it, and is kept from then on. -/
theorem severeWith_source {i k : Nat} {s : State} (hk : k < 48) (h : s.DueWith i k) (d : Digests) :
    ∃ u, (s.source k).Kept (u.source k) ∧ k < u.fcr.sources.length ∧
      ((becomeSevere k d u).source k).Kept ((severeWith i d s).source k) := by
  refine severeWith_turn (i := i) (k := k) (d := d) (s := s) hk
    (Before := fun t => (s.source k).Kept (t.source k) ∧ k < t.fcr.sources.length)
    (After := fun t => ∃ u, (s.source k).Kept (u.source k) ∧ k < u.fcr.sources.length ∧
      ((becomeSevere k d u).source k).Kept (t.source k))
    ⟨.refl _, h.listed⟩ ?before ?due (fun t ht => ⟨t, ht.1, ht.2, .refl _⟩) ?after
  case before =>
    intro t j _ hj ht
    exact dueStep_keeps (P := fun t => (s.source k).Kept (t.source k) ∧ k < t.fcr.sources.length) ht
      ⟨ht.1.trans (becomeSevere_source_other hj d t), by rw [becomeSevere_length]; exact ht.2⟩
  case due =>
    intro t ⟨hkept, _⟩
    obtain ⟨hdue, hat⟩ := hkept.due (.inr h.due)
    exact ⟨hdue.trans h.due, hkept.severe.trans h.severe, hat.trans h.dueAt⟩
  case after =>
    rintro t j _ hj ⟨u, hkept, hlen, hafter⟩
    exact dueStep_keeps (P := fun t => ∃ u, (s.source k).Kept (u.source k) ∧ k < u.fcr.sources.length ∧
      ((becomeSevere k d u).source k).Kept (t.source k)) ⟨u, hkept, hlen, hafter⟩
      ⟨u, hkept, hlen, hafter.trans (becomeSevere_source_other hj d t)⟩

/-- Every source due in the cycle becomes severe, and is no longer due. -/
theorem severeWith_severe {i k : Nat} {s : State} (hk : k < 48) (h : s.DueWith i k) (d : Digests) :
    ((severeWith i d s).source k).severe = true ∧ ((severeWith i d s).source k).due = false := by
  obtain ⟨u, _, hlen, hafter⟩ := severeWith_source hk h d
  obtain ⟨hsevere, hdue⟩ := becomeSevere_source_self hlen d
  exact ⟨hafter.severe.trans hsevere, (hafter.due (.inl hsevere)).1.trans hdue⟩

/-- A source without a fence and without a forced hand-over becomes severe with its fence as it was. -/
theorem severeWith_fenced_of_plain {i k : Nat} {s : State} (hk : k < 48) (h : s.DueWith i k) (hi : k ∉ forcing)
    (hfence : k ∉ [18, 32, 33, 34, 35]) (d : Digests) :
    ((severeWith i d s).source k).fenced = (s.source k).fenced := by
  obtain ⟨u, hkept, hlen, hafter⟩ := severeWith_source hk h d
  rw [becomeSevere_of_plain hi hfence, recordSevere_source_self hlen] at hafter
  exact hafter.fenced.trans hkept.fenced

/-- At a primary without a STANDBY partner, every forcing source due in the cycle blocks its hand-over (R338). -/
theorem severeWith_blocks {i k : Nat} {s : State} (hk : k < 48) (h : s.DueWith i k) (hforcing : k ∈ forcing)
    (hprimary : s.primary = true) (hstandby : s.partnerStandby = false) (d : Digests) :
    k ∈ (severeWith i d s).fcr.blocked := by
  have hwvl {t : State} (ht : t.wvl = s.wvl) (j : Nat) : (becomeSevere j d t).wvl = s.wvl :=
    (becomeSevere_wvl ((partnerStandby_congr ht).trans hstandby) j d).trans ht
  suffices hboth : k ∈ (severeWith i d s).fcr.blocked ∧ (severeWith i d s).wvl = s.wvl from hboth.1
  refine severeWith_turn (i := i) (k := k) (d := d) (s := s) hk
    (Before := fun t => (s.source k).Kept (t.source k) ∧ t.wvl = s.wvl)
    (After := fun t => k ∈ t.fcr.blocked ∧ t.wvl = s.wvl)
    ⟨.refl _, rfl⟩ ?before ?due ?turn ?after
  case before =>
    intro t j _ hj ht
    exact dueStep_keeps (P := fun t => (s.source k).Kept (t.source k) ∧ t.wvl = s.wvl) ht
      ⟨ht.1.trans (becomeSevere_source_other hj d t), hwvl ht.2 j⟩
  case due =>
    intro t ⟨hkept, _⟩
    obtain ⟨hdue, hat⟩ := hkept.due (.inr h.due)
    exact ⟨hdue.trans h.due, hkept.severe.trans h.severe, hat.trans h.dueAt⟩
  case turn =>
    intro t ⟨_, ht⟩
    exact ⟨becomeSevere_blocks hforcing ((primary_congr ht).trans hprimary) ((partnerStandby_congr ht).trans hstandby) d, hwvl ht k⟩
  case after =>
    intro t j _ _ ht
    exact dueStep_keeps (P := fun t => k ∈ t.fcr.blocked ∧ t.wvl = s.wvl) ht
      ⟨mem_becomeSevere_blocked ((partnerStandby_congr ht.2).trans hstandby) j d ht.1, hwvl ht.2 j⟩

/-- `FcrState.alone`, read for one other source. -/
theorem not_due_of_alone {f : FcrState} {i j : Nat} (h : f.alone i = true) (hj : j < 48) (hij : j ≠ i) :
    ¬ ((f.sources.getD j {}).due = true ∧ (f.sources.getD j {}).dueAt = (f.sources.getD i {}).dueAt) := by
  have hone := List.all_eq_true.mp h j (List.mem_range.mpr hj)
  rintro ⟨hdue, hat⟩
  rw [hdue, hat, beq_false_of_ne hij, bne_self_eq_false] at hone
  exact absurd hone (by decide)

/-- A source that became due alone, and whose action leaves the other sources, acts alone. -/
theorem severeWith_of_alone {i : Nat} {s : State} (hi : i < 48) (h : s.DueWith i i) (halone : s.fcr.alone i = true) (d : Digests)
    (hother : ∀ j, j ≠ i → (becomeSevere i d s).source j = s.source j) : severeWith i d s = becomeSevere i d s := by
  have hrest {t : State} {j : Nat} (hj : j < 48) (hij : j ≠ i) (ht : t.source j = s.source j) :
      dueStep (s.source i).dueAt d t j = t := by
    refine if_neg fun hact => not_due_of_alone halone hj hij ?_
    simp only [ht, Bool.and_eq_true, beq_iff_eq] at hact
    exact ⟨hact.1.1, hact.2⟩
  refine severeWith_turn (i := i) (k := i) (d := d) (s := s) hi (Before := (· = s)) (After := (· = becomeSevere i d s)) rfl
    ?before ?due ?turn ?after
  case before => rintro t j hj hij rfl; exact hrest hj hij rfl
  case due => rintro t rfl; exact ⟨h.due, h.severe, rfl⟩
  case turn => rintro t rfl; rfl
  case after => rintro t j hj hij rfl; exact hrest hj hij (hother j hij)

/-! ### SOURCE_SEVERE (R335 to R339) -/

/-- Without errors of the hardware, the command makes the due sources severe, or only takes up its instant. -/
theorem exec_sourceSevere_no_errors (w : When) (source : Fin 48) (d : Digests) (s : State) :
    exec (.sourceSevere w source d {}) s =
      .next (if (s.source source.val).due && !(s.source source.val).severe then severeWith source.val d (s.at w) else s.at w) := by
  have herrors : unitErrors source.val {} (s.at w) = s.at w := by simp [unitErrors]
  change execSourceSevere w source d {} s = _
  unfold execSourceSevere
  dsimp only
  rw [herrors]
  rfl

theorem exec_sourceSevere_of_due {w : When} {source : Fin 48} {i : Nat} {d : Digests} {s : State} (hi : source.val = i)
    (hdue : (s.source i).due = true) (hsevere : (s.source i).severe = false) :
    exec (.sourceSevere w source d {}) s = .next (severeWith i d (s.at w)) := by
  subst hi
  rw [exec_sourceSevere_no_errors, hdue, hsevere, if_pos (by decide)]

theorem exec_sourceSevere_of_not {w : When} {source : Fin 48} {d : Digests} {s : State}
    (h : (s.source source.val).due = false ∨ (s.source source.val).severe = true) :
    exec (.sourceSevere w source d {}) s = .next (s.at w) := by
  rw [exec_sourceSevere_no_errors, if_neg]
  rcases h with h | h
  · rw [h, Bool.false_and]
    decide
  · rw [h, Bool.not_true, Bool.and_false]
    decide

/-- The parts that the severity of a source can change. -/
abbrev severeParts : List Part :=
  [.time, .start, .events, .ports, .intake, .phasors, .surges, .triad, .budgets, .pair, .faults, .ledger, .keeper, .sessions, .host, .sent]

theorem severeWith_at_only (w : When) (i : Nat) (d : Digests) (s : State) : Only severeParts s (severeWith i d (s.at w)) :=
  (severeWith_moves i d (Covers.rfl.trans (by decide)) (at_moves w (Covers.rfl.trans (by decide)) (.refl severeParts s))).only

/-- The time base is its four parts. -/
theorem tmb_eq_of_same {s t : State} (h : ∀ p ∈ [Part.timebase, .pulses, .snaps, .delays], p.Same s t) : t.tmb = s.tmb := by
  have hrest : t.tmb.rest = s.tmb.rest := h .timebase (by decide)
  obtain ⟨hgens, htpo⟩ := h .pulses (by decide)
  obtain ⟨hfw, hhost⟩ := h .snaps (by decide)
  obtain ⟨hdelay, ht1, hresp, htwo⟩ := h .delays (by decide)
  calc t.tmb = { t.tmb.rest with gens := t.tmb.gens, tpo := t.tmb.tpo, snapFw := t.tmb.snapFw, snapHost := t.tmb.snapHost
                                 meanDelay := t.tmb.meanDelay, pdelayT1 := t.tmb.pdelayT1, pdelayResp := t.tmb.pdelayResp
                                 twoStep := t.tmb.twoStep } := rfl
    _ = s.tmb := by rw [hrest, hgens, htpo, hfw, hhost, hdelay, ht1, hresp, htwo]

/-- The intake fenced (R337). -/
def fenceIntake (s : State) : State := { s with svi := { s.svi with fenced := true } }

/-- The reaction to source 32 is the fence of the intake. -/
theorem becomeSevere_svi (d : Digests) (s : State) :
    becomeSevere 32 d s = markFenced 32 (fenceIntake (recordSevere 32 s)) := by
  have hfence : fenceSource 32 d (recordSevere 32 s) = markFenced 32 (fenceIntake (recordSevere 32 s)) := by
    unfold fenceSource
    dsimp only
    rw [if_neg (by decide), if_pos rfl]
    rfl
  rw [becomeSevere_eq, hfence, reactForcing_of_not_forcing (by decide)]

theorem markFenced_source_self {i : Nat} {s : State} (h : i < s.fcr.sources.length) :
    (markFenced i s).source i = { s.source i with fenced := true } := getD_updAt_self h _ _

theorem markFenced_source_other {i j : Nat} (h : i ≠ j) (s : State) : (markFenced i s).source j = s.source j :=
  getD_updAt_other h _ _

@[simp] theorem markFenced_svi (i : Nat) (s : State) : (markFenced i s).svi = s.svi := rfl

@[simp] theorem markFenced_phe (i : Nat) (s : State) : (markFenced i s).phe = s.phe := rfl

@[simp] theorem fenceIntake_fcr (s : State) : (fenceIntake s).fcr = s.fcr := rfl

@[simp] theorem fenceIntake_phe (s : State) : (fenceIntake s).phe = s.phe := rfl

theorem fenceIntake_source (j : Nat) (s : State) : (fenceIntake s).source j = s.source j := rfl

theorem fenceIntake_fenced (s : State) : (fenceIntake s).svi.fenced = true := rfl

theorem becomeSevere_svi_source_other {j : Nat} (hj : j ≠ 32) (d : Digests) (s : State) :
    (becomeSevere 32 d s).source j = s.source j := by
  rw [becomeSevere_svi, markFenced_source_other hj.symm, fenceIntake_source, recordSevere_source_other hj.symm]

theorem becomeSevere_svi_source_self {s : State} (h : 32 < s.fcr.sources.length) (d : Digests) :
    (becomeSevere 32 d s).source 32 = { s.source 32 with severe := true, due := false, fenced := true } := by
  have hlen : 32 < (fenceIntake (recordSevere 32 s)).fcr.sources.length := by
    rw [fenceIntake_fcr, recordSevere_sources, updAt_length]
    exact h
  rw [becomeSevere_svi, markFenced_source_self hlen, fenceIntake_source, recordSevere_source_self h]

/-- Source 22, with a primary whose STANDBY partner is not traceable: the hand-over is blocked, and that is all (R339). -/
theorem becomeSevere_timeExpired {s : State} (hprimary : s.primary = true) (htraceable : s.wvl.partner.flags.testBit 0 = false)
    (d : Digests) : becomeSevere 22 d s = blockHandover 22 (recordSevere 22 s) := by
  have hw : (recordSevere 22 s).wvl = s.wvl := recordSevere_wvl 22 s
  have hready : (recordSevere 22 s).forceReady 22 = false := by
    unfold State.forceReady
    rw [hw, htraceable]
    exact Bool.and_false _
  rw [becomeSevere_eq, fenceSource_of_no_fence (by decide), reactForcing_of_primary (by decide) ((primary_congr hw).trans hprimary),
    forceSource_of_not_ready hready, if_neg (by decide)]

theorem blockedRecord_source_other {j : Nat} (hj : j ≠ 22) (s : State) :
    (blockHandover 22 (recordSevere 22 s)).source j = s.source j := by
  unfold State.source
  rw [blockHandover_sources]
  exact recordSevere_source_other hj.symm s

theorem blockedRecord_source_self {s : State} (h : 22 < s.fcr.sources.length) :
    (blockHandover 22 (recordSevere 22 s)).source 22 = { s.source 22 with severe := true, due := false } := by
  unfold State.source
  rw [blockHandover_sources]
  exact recordSevere_source_self h

/-! ### FCR_ACK (R341) -/

/-- The release of a fence changes, of the fault collector, the source's mark alone. -/
theorem releaseFence_of_fenced_fcr {i : Nat} {s : State} (h : (s.source i).fenced = true) :
    (releaseFence i s).fcr = (modSrc i (fun x => { x with fenced := false }) s).fcr := by
  unfold releaseFence
  rw [h, if_neg (by decide)]
  dsimp only
  repeat' split
  all_goals rfl

theorem releaseFence_of_not_fenced {i : Nat} {s : State} (h : (s.source i).fenced = false) : releaseFence i s = s := by
  unfold releaseFence
  rw [h]
  rfl

theorem releaseFence_blocked (i : Nat) (s : State) : (releaseFence i s).fcr.blocked = s.fcr.blocked := by
  cases h : (s.source i).fenced with
  | false => rw [releaseFence_of_not_fenced h]
  | true => rw [releaseFence_of_fenced_fcr h]; rfl

theorem releaseFence_length (i : Nat) (s : State) : (releaseFence i s).fcr.sources.length = s.fcr.sources.length := by
  cases h : (s.source i).fenced with
  | false => rw [releaseFence_of_not_fenced h]
  | true => rw [releaseFence_of_fenced_fcr h]; exact updAt_length _ _ _

theorem releaseFence_fenced {i : Nat} {s : State} (hlen : i < s.fcr.sources.length) :
    ((releaseFence i s).source i).fenced = false := by
  cases h : (s.source i).fenced with
  | false => rw [releaseFence_of_not_fenced h, h]
  | true =>
    unfold State.source
    rw [releaseFence_of_fenced_fcr h]
    exact congrArg (·.fenced) (getD_updAt_self hlen _ _)

/-- The intake runs again once the fence of source 32 is released. -/
theorem releaseFence_svi {s : State} (h : (s.source 32).fenced = true) : (releaseFence 32 s).svi.fenced = false := by
  unfold releaseFence
  rw [h]
  rfl

/-- The records of an acknowledgement. -/
def recordAck (who : Agent) (i : Nat) (s : State) : State :=
  let byWhom := if isFw who then 1 else 2
  ledger 0x0D02 (s.srcInst i) [i, byWhom] (history i 2 byWhom s)

/-- The source as an acknowledgement leaves it, its blocked hand-over cancelled. -/
def clearSource (i : Nat) (s : State) : State :=
  let s := modSrc i (fun x => { x with severe := false, due := false, recent := [], forced := false }) s
  { s with fcr := { s.fcr with blocked := s.fcr.blocked.filter (· != i) } }

theorem clearSource_source_self {i : Nat} {s : State} (h : i < s.fcr.sources.length) :
    (clearSource i s).source i = { s.source i with severe := false, due := false, recent := [], forced := false } :=
  getD_updAt_self h _ _

theorem clearSource_blocked (i : Nat) (s : State) : (clearSource i s).fcr.blocked = s.fcr.blocked.filter (· != i) := rfl

@[simp] theorem clearSource_svi (i : Nat) (s : State) : (clearSource i s).svi = s.svi := rfl

theorem fcrAckAct_of_severe {who : Agent} {i : Nat} {s : State} (hwho : isFw who = true ∨ hostAtLeast 2 who s = true)
    (h : (s.source i).severe = true) : fcrAckAct who i s = clearSource i (releaseFence i (recordAck who i s)) := by
  unfold fcrAckAct clearSource recordAck
  dsimp only
  rw [if_pos (by rw [h, Bool.and_true, Bool.or_eq_true]; exact hwho)]

theorem fcrAckAct_of_not_severe {who : Agent} {i : Nat} {s : State} (h : (s.source i).severe = false) : fcrAckAct who i s = s :=
  if_neg (by rw [h, Bool.and_false]; decide)

@[simp] theorem recordAck_sources (who : Agent) (i : Nat) (s : State) : (recordAck who i s).fcr.sources = s.fcr.sources := by
  simp [recordAck]

@[simp] theorem recordAck_blocked (who : Agent) (i : Nat) (s : State) : (recordAck who i s).fcr.blocked = s.fcr.blocked := by
  simp [recordAck]

theorem recordAck_source (who : Agent) (i j : Nat) (s : State) : (recordAck who i s).source j = s.source j := by
  unfold State.source
  rw [recordAck_sources]

/-- The source after an acknowledgement of its severity. -/
theorem ackState_source {who : Agent} {i : Nat} {s : State} (hlen : i < s.fcr.sources.length) :
    (clearSource i (releaseFence i (recordAck who i s))).source i =
      { (releaseFence i (recordAck who i s)).source i with severe := false, due := false, recent := [], forced := false } :=
  clearSource_source_self (by rw [releaseFence_length, recordAck_sources]; exact hlen)

theorem ackState_fenced {who : Agent} {i : Nat} {s : State} (hlen : i < s.fcr.sources.length) :
    ((clearSource i (releaseFence i (recordAck who i s))).source i).fenced = false := by
  rw [ackState_source hlen, releaseFence_fenced (by rw [recordAck_sources]; exact hlen)]

theorem ackState_blocked (who : Agent) (i : Nat) (s : State) :
    (clearSource i (releaseFence i (recordAck who i s))).fcr.blocked = s.fcr.blocked.filter (· != i) := by
  rw [clearSource_blocked, releaseFence_blocked, recordAck_blocked]

theorem exec_fcrAck_granted {w : When} {who : Agent} {source : Fin 64} {s : State} (h : (s.at w).grants who 0xD0018 = true) :
    exec (.fcrAck w who source) s = .next (fcrAckAct who source.val (s.at w)) :=
  congrArg Host.Outcome.next (Laws.asWrite_grants h)

/-- An acknowledgement changes neither the queue nor the pair link: it restores no role. -/
theorem fcrAckAct_only (w : When) (who : Agent) (i : Nat) (s : State) :
    Only [.time, .events, .ports, .intake, .phasors, .streams, .surges, .faults, .ledger, .keeper, .sessions, .host] s
      (fcrAckAct who i (s.at w)) :=
  (fcrAckAct_moves who i (Covers.rfl.trans (by decide)) (at_moves w (Covers.rfl.trans (by decide)) (.refl _ s))).only

/-- An acknowledgement of a severe source, by one who may acknowledge. -/
theorem exec_fcrAck_of_severe {w : When} {who : Agent} {source : Fin 64} {i : Nat} {s : State} (hi : source.val = i)
    (hwho : isFw who = true ∨ hostAtLeast 2 who s = true) (hsevere : (s.source i).severe = true)
    (h : (s.at w).grants who 0xD0018 = true) :
    exec (.fcrAck w who source) s = .next (clearSource i (releaseFence i (recordAck who i (s.at w)))) := by
  subst hi
  have hwho' : isFw who = true ∨ hostAtLeast 2 who (s.at w) = true := hwho
  rw [exec_fcrAck_granted h, fcrAckAct_of_severe hwho' hsevere]

theorem ackState_only {w : When} {who : Agent} {i : Nat} {s : State} (hwho : isFw who = true ∨ hostAtLeast 2 who s = true)
    (hsevere : (s.source i).severe = true) :
    Only [.time, .events, .ports, .intake, .phasors, .streams, .surges, .faults, .ledger, .keeper, .sessions, .host] s
      (clearSource i (releaseFence i (recordAck who i (s.at w)))) := by
  have hwho' : isFw who = true ∨ hostAtLeast 2 who (s.at w) = true := hwho
  have honly := fcrAckAct_only w who i s
  rwa [fcrAckAct_of_severe hwho' hsevere] at honly

/-- A host session below OPERATOR writes no register (R354). -/
theorem mayWrite_of_sesRole_lt {i : Fin 8} {s : State} (h : s.sesRole i < 2) : s.mayWrite (.host i) = false := by
  simp only [State.mayWrite, isHost, hostAtLeast, Bool.not_true, Bool.false_or, decide_eq_false_iff_not]
  omega

/-- Its write is answered with an error response. -/
theorem asWrite_of_sesRole_lt {i : Fin 8} {s : State} (h : s.sesRole i < 2) (addr : Nat) (act : State → State) :
    asWrite (.host i) addr act s = emit (.resp (identOf (.host i)) false []) s := by
  unfold asWrite
  rw [mayWrite_of_sesRole_lt h]
  rfl

/-! ### FCR_CFG (R336) -/

/-- The source with new settings, its window history cleared. -/
def setCfg (i : Nat) (v : Word) (s : State) : State :=
  modSrc i (fun x => { x with n := v.toNat / 2 ^ 24, wms := v.toNat % 65536, recent := [] }) s

theorem fcrCfgAct_of_taken {who : Agent} {v : Word} {s : State} (hwho : fwOrEngineer who s = true) (h : s.fcrCfgTaken who v = true) :
    fcrCfgAct who v s = ledger 0x0D05 0xFFFF [s.fcrSel who, (s.source (s.fcrSel who)).cfg,
      ((setCfg (s.fcrSel who) v s).source (s.fcrSel who)).cfg] (setCfg (s.fcrSel who) v s) :=
  if_pos (by rw [hwho, h]; rfl)

theorem fcrCfgAct_of_not_taken {who : Agent} {v : Word} {s : State} (h : s.fcrCfgTaken who v = false) : fcrCfgAct who v s = s :=
  if_neg (by rw [h, Bool.and_false]; decide)

theorem fcrCfgTaken_iff {who : Agent} {v : Word} {s : State} : s.fcrCfgTaken who v = true ↔
    s.fcrSel who < 38 ∧ s.fcrSel who ∉ forcing ∧ 1 ≤ v.toNat / 2 ^ 24 ∧ 1 ≤ v.toNat % 65536 ∧ v.toNat % 65536 ≤ 60000 := by
  simp [State.fcrCfgTaken, and_assoc]

/-- The selected source after a write that it takes. -/
theorem fcrCfgAct_source_self {who : Agent} {v : Word} {s : State} (hwho : fwOrEngineer who s = true)
    (h : s.fcrCfgTaken who v = true) (hlen : s.fcrSel who < s.fcr.sources.length) :
    (fcrCfgAct who v s).source (s.fcrSel who) =
      { s.source (s.fcrSel who) with n := v.toNat / 2 ^ 24, wms := v.toNat % 65536, recent := [] } := by
  unfold State.source
  rw [fcrCfgAct_of_taken hwho h, ledger_fcr]
  exact getD_updAt_self hlen _ _

theorem fcrCfgAct_source_other {who : Agent} {v : Word} {s : State} {j : Nat} (h : s.fcrSel who ≠ j) :
    (fcrCfgAct who v s).source j = s.source j := by
  unfold fcrCfgAct
  split
  · unfold State.source
    rw [ledger_fcr]
    exact getD_updAt_other h _ _
  · rfl

theorem exec_fcrCfgWrite_granted {w : When} {who : Agent} {v : Word} {s : State} (h : (s.at w).grants who 0xD0028 = true) :
    exec (.fcrCfgWrite w who v) s = .next (fcrCfgAct who v (s.at w)) :=
  congrArg Host.Outcome.next (Laws.asWrite_grants h)

/-- A write that the selected source does not take only takes up its instant. -/
theorem exec_fcrCfgWrite_ignored {w : When} {who : Agent} {v : Word} {s : State} (h : (s.at w).grants who 0xD0028 = true)
    (hnot : ¬ (s.at w).fcrCfgTaken who v = true) : exec (.fcrCfgWrite w who v) s = .next (s.at w) := by
  rw [exec_fcrCfgWrite_granted h, fcrCfgAct_of_not_taken (Bool.not_eq_true _ ▸ hnot)]

theorem fcrCfgAct_only (w : When) (who : Agent) (v : Word) (s : State) :
    Only [.time, .events, .faults, .ledger, .keeper, .sessions, .host] s (fcrCfgAct who v (s.at w)) :=
  (fcrCfgAct_moves who v (Covers.rfl.trans (by decide)) (at_moves w (Covers.rfl.trans (by decide)) (.refl _ s))).only

/-! ### The statement on fault sources -/

theorem State.DueWith.at {s : State} {i k : Nat} (h : s.DueWith i k) (w : When) : (s.at w).DueWith i k :=
  ⟨h.due, h.severe, h.dueAt, h.listed⟩

/-- SOURCE_SEVERE of source `i` makes each source severe that became due with it. -/
theorem exec_sourceSevere_severe {i k : Fin 48} {s : State} (hi : s.DueWith i i) (h : s.DueWith i k) (w : When) (d : Digests) :
    ∃ t, exec (.sourceSevere w i d {}) s = .next t ∧ t.pending = s.pending ∧ (t.source k.val).severe = true
      ∧ (t.source k.val).due = false ∧ t.tmb = s.tmb ∧ t.bsl = s.bsl := by
  obtain ⟨hqueue, hsame⟩ := severeWith_at_only w i d s
  obtain ⟨hsevere, hdue⟩ := severeWith_severe k.isLt (h.at w) d
  refine ⟨_, exec_sourceSevere_of_due rfl hi.due hi.severe, hqueue, hsevere, hdue, tmb_eq_of_same fun p hp => hsame p ?_,
    hsame .loader (by decide)⟩
  simp only [List.mem_cons, List.not_mem_nil, or_false] at hp
  rcases hp with rfl | rfl | rfl | rfl <;> decide

/-- Source 8, a task's: severity alone (R337). -/
theorem exec_sourceSevere_task {s : State} (h : s.DueWith 8 8) (w : When) (d : Digests) :
    ∃ t, exec (.sourceSevere w 8 d {}) s = .next t ∧ t.pending = s.pending ∧ (t.source 8).severe = true
      ∧ (t.source 8).due = false ∧ (t.source 8).fenced = (s.source 8).fenced ∧ t.wvl.role = s.wvl.role := by
  obtain ⟨hsevere, hdue⟩ := severeWith_severe (by decide) (h.at w) d
  exact ⟨_, exec_sourceSevere_of_due (i := 8) rfl h.due h.severe, (severeWith_at_only w 8 d s).1, hsevere, hdue,
    severeWith_fenced_of_plain (by decide) (h.at w) (by decide) (by decide) d, severeWith_role _ _ _⟩

/-- Source 32: the intake is fenced, and of the other units' fences none changes (R337). -/
theorem exec_sourceSevere_svi {s : State} (h : s.DueWith 32 32) (halone : s.fcr.alone 32 = true) (w : When) (d : Digests) :
    ∃ t, exec (.sourceSevere w 32 d {}) s = .next t ∧ t.pending = s.pending ∧ (t.source 32).severe = true
      ∧ (t.source 32).fenced = true ∧ t.svi.fenced = true ∧ t.phe.fenced = s.phe.fenced ∧ t.wvl.role = s.wvl.role := by
  have hone : severeWith 32 d (s.at w) = becomeSevere 32 d (s.at w) :=
    severeWith_of_alone (by decide) (h.at w) halone d fun j hj => becomeSevere_svi_source_other hj d _
  have hself := becomeSevere_svi_source_self (s := s.at w) h.listed d
  have hqueue := (severeWith_at_only w 32 d s).1
  rw [hone] at hqueue
  refine ⟨_, (exec_sourceSevere_of_due (i := 32) rfl h.due h.severe).trans (congrArg _ hone), hqueue, by rw [hself], by rw [hself],
    ?svi, ?phe, becomeSevere_role 32 d (s.at w)⟩
  case svi => rw [becomeSevere_svi, markFenced_svi, fenceIntake_fenced]
  case phe => rw [becomeSevere_svi, markFenced_phe, fenceIntake_phe, recordSevere_phe, at_phe]

/-- Source 20 at a primary without a STANDBY partner: the hand-over is blocked and the role kept (R338). -/
theorem exec_sourceSevere_memStrong {s : State} (h : s.DueWith 20 20) (hprimary : s.primary = true)
    (hstandby : s.partnerStandby = false) (w : When) (d : Digests) :
    ∃ t, exec (.sourceSevere w 20 d {}) s = .next t ∧ t.pending = s.pending ∧ (t.source 20).severe = true
      ∧ 20 ∈ t.fcr.blocked ∧ t.wvl.role = 1 := by
  obtain ⟨hsevere, _⟩ := severeWith_severe (i := 20) (k := 20) (by decide) (h.at w) d
  have hblocked := severeWith_blocks (i := 20) (k := 20) (s := s.at w) (by decide) (h.at w) (by decide) hprimary hstandby d
  have hrole : (severeWith 20 d (s.at w)).wvl.role = s.wvl.role := severeWith_role 20 d (s.at w)
  exact ⟨_, exec_sourceSevere_of_due (i := 20) rfl h.due h.severe, (severeWith_at_only w 20 d s).1, hsevere, hblocked,
    hrole.trans (primary_iff.mp hprimary)⟩

/-- Source 22 at a primary whose partner is not traceable: the hand-over is blocked and nothing is sent (R339). -/
theorem exec_sourceSevere_timeExpired {s : State} (h : s.DueWith 22 22) (halone : s.fcr.alone 22 = true)
    (hprimary : s.primary = true) (htraceable : s.wvl.partner.flags.testBit 0 = false) (w : When) (d : Digests) :
    ∃ t, exec (.sourceSevere w 22 d {}) s = .next t
      ∧ Only [.time, .start, .events, .faults, .ledger, .keeper, .sessions, .host] s t ∧ (t.source 22).severe = true
      ∧ 22 ∈ t.fcr.blocked ∧ t.wvl = s.wvl ∧ t.out = s.out := by
  have hact : becomeSevere 22 d (s.at w) = blockHandover 22 (recordSevere 22 (s.at w)) :=
    becomeSevere_timeExpired (s := s.at w) hprimary htraceable d
  have hone : severeWith 22 d (s.at w) = blockHandover 22 (recordSevere 22 (s.at w)) :=
    (severeWith_of_alone (by decide) (h.at w) halone d fun j hj => by rw [hact]; exact blockedRecord_source_other hj _).trans hact
  have honly : Only [.time, .start, .events, .faults, .ledger, .keeper, .sessions, .host] s
      (blockHandover 22 (recordSevere 22 (s.at w))) :=
    (blockHandover_moves 22 (Covers.rfl.trans (by decide)) (recordSevere_moves 22 (Covers.rfl.trans (by decide))
      (at_moves w (Covers.rfl.trans (by decide)) (.refl _ s)))).only
  refine ⟨_, (exec_sourceSevere_of_due (i := 22) rfl h.due h.severe).trans (congrArg _ hone), honly, ?_, mem_blockHandover.mpr (.inr rfl),
    honly.2 .pair (by decide), honly.2 .sent (by decide)⟩
  rw [blockedRecord_source_self (s := s.at w) h.listed]

/-- A primary that a blocked hand-over of source 22 concerns, as it takes a heartbeat: what lets source 22 go ahead. -/
theorem heartbeatSeen_forceReady {s : State} {w : When} {h : Heartbeat} (hrole : h.hdr.role = 3) :
    (s.heartbeatSeen w h).forceReady 22 = h.flags.testBit 0 := by
  have hpartner : (s.heartbeatSeen w h).wvl.partner = heartbeatPartner h := partnerSeen_partner h _
  simp [State.forceReady, State.partnerStandby, hpartner, heartbeatPartner, hrole]

theorem forcedHandover_congr {s t : State} (htime : t.islandTime linkIsland = s.islandTime linkIsland)
    (hhandover : t.wvl.handover = s.wvl.handover) (hcount : t.pcount = s.pcount) : t.forcedHandover = s.forcedHandover := by
  unfold State.forcedHandover State.forcedH
  rw [htime, hhandover, hcount]

theorem islandTime_congr {s t : State} (hnow : t.now = s.now) (haon : t.aon = s.aon) (hfollowers : t.followers = s.followers)
    (i : Nat) : t.islandTime i = s.islandTime i := by
  unfold State.islandTime
  rw [hnow, haon, hfollowers]

theorem heartbeatSeen_forcedHandover (s : State) (w : When) (h : Heartbeat) :
    (s.heartbeatSeen w h).forcedHandover = (s.at w).forcedHandover := by
  obtain ⟨hnow, haon, _⟩ := heartbeatSeen_same s w h (p := .time) (by decide)
  obtain ⟨hcount, hfollowers, _⟩ := heartbeatSeen_same s w h (p := .count) (by decide)
  exact forcedHandover_congr (islandTime_congr hnow haon hfollowers _) (heartbeatSeen_quiet s w h).handover hcount

/-- A STANDBY partner that is not traceable leaves the hand-over of source 22 blocked (R339). -/
theorem exec_heartbeatReceived_stays_blocked {w : When} {h : Heartbeat} {s : State} (hmode : s.pair.mode ≠ 0)
    (hside : h.hdr.side ≠ s.wvl.side) (hrole : h.hdr.role = 3) (htraceable : h.flags.testBit 0 = false)
    (hprimary : s.primary = true) (hblocked : s.fcr.blocked = [22]) :
    ∃ t, exec (.heartbeatReceived w h) s = .next t ∧ t.fcr.blocked = [22] ∧ t.wvl.handover = s.wvl.handover ∧ t.wvl.role = 1 := by
  have hseen := heartbeatSeen_quiet s w h
  have hrole1 : (s.heartbeatSeen w h).wvl.role = 1 := hseen.role.trans (primary_iff.mp hprimary)
  have hun : unblock (s.heartbeatSeen w h) = s.heartbeatSeen w h := by
    rw [unblock_of_single (hseen.reported.blocked.trans hblocked), heartbeatSeen_forceReady hrole, htraceable, Bool.and_false,
      if_neg Bool.false_ne_true]
  obtain ⟨before, hexec⟩ := exec_heartbeatReceived_primary (w := w) hmode hside (hun.symm ▸ hrole1)
  rw [hun] at hexec
  have hquiet := hseen.trans (primaryHeartbeat_quiet h before (s.heartbeatSeen w h))
  exact ⟨_, hexec, hquiet.reported.blocked.trans hblocked, hquiet.handover, hquiet.role.trans (primary_iff.mp hprimary)⟩

/-- The first heartbeat of a traceable STANDBY partner lets it go ahead (R338, R339). -/
theorem exec_heartbeatReceived_goes_ahead {w : When} {h : Heartbeat} {s : State} (hmode : s.pair.mode ≠ 0)
    (hside : h.hdr.side ≠ s.wvl.side) (hrole : h.hdr.role = 3) (htraceable : h.flags.testBit 0 = true)
    (hprimary : s.primary = true) (hsevere : s.severe 22 = true) (hblocked : s.fcr.blocked = [22]) :
    ∃ t, exec (.heartbeatReceived w h) s = .next t ∧ t.fcr.blocked = []
      ∧ t.wvl.handover = some { asked := (s.at w).islandTime linkIsland, cause := 2, h := some (s.forcedH.getD (s.pcount + 2))
                                acked := true, forced := true } := by
  have hseen := heartbeatSeen_quiet s w h
  have hrole1 : (s.heartbeatSeen w h).wvl.role = 1 := hseen.role.trans (primary_iff.mp hprimary)
  have hblocked' : (s.heartbeatSeen w h).fcr.blocked = [22] := hseen.reported.blocked.trans hblocked
  have hsevere' : (s.heartbeatSeen w h).severe 22 = true := by
    rw [severe_eq, (hseen.reported.source 22).severe, ← severe_eq, hsevere]
  have hun : unblock (s.heartbeatSeen w h) = relinquish 22 (s.heartbeatSeen w h) := by
    rw [unblock_of_single hblocked', heartbeatSeen_forceReady hrole, htraceable, hsevere',
      show (s.heartbeatSeen w h).primary = true from primary_iff.mpr hrole1, Bool.and_self, Bool.and_self, if_pos rfl]
  obtain ⟨before, hexec⟩ := exec_heartbeatReceived_primary (w := w) hmode hside
    (by rw [hun, relinquish_role]; exact hrole1)
  rw [hun] at hexec
  have hquiet := primaryHeartbeat_quiet h before (relinquish 22 (s.heartbeatSeen w h))
  refine ⟨_, hexec, ?blocked, ?handover⟩
  case blocked =>
    rw [hquiet.reported.blocked, relinquish_blocked, hblocked']
    decide
  case handover =>
    rw [hquiet.handover, relinquish_handover, heartbeatSeen_forcedHandover]
    rfl

/-- The acknowledgement of a severe source, by the firmware or a host session that may acknowledge (R341). -/
theorem exec_fcrAck_clears {w : When} {who : Agent} {source : Fin 64} {i : Nat} {s : State} (hi : source.val = i)
    (hwho : isFw who = true ∨ hostAtLeast 2 who s = true) (hsevere : (s.source i).severe = true)
    (hlen : i < s.fcr.sources.length) (hgrant : (s.at w).grants who 0xD0018 = true) :
    ∃ t, exec (.fcrAck w who source) s = .next t ∧ t.pending = s.pending ∧ (t.source i).severe = false
      ∧ (t.source i).recent = [] ∧ (t.source i).fenced = false ∧ t.wvl.role = s.wvl.role
      ∧ t.fcr.blocked = s.fcr.blocked.filter (· != i) := by
  obtain ⟨hqueue, hsame⟩ := ackState_only (w := w) hwho hsevere
  have hwvl := hsame .pair (by decide)
  have hself := ackState_source (who := who) (s := s.at w) hlen
  exact ⟨_, exec_fcrAck_of_severe hi hwho hsevere hgrant, hqueue, by rw [hself], by rw [hself], ackState_fenced (s := s.at w) hlen,
    congrArg (·.role) hwvl, ackState_blocked who i (s.at w)⟩

theorem exec_fcrAck_svi {w : When} {s : State} (hsevere : (s.source 32).severe = true) (hfenced : (s.source 32).fenced = true)
    (hlen : 32 < s.fcr.sources.length) (hgrant : (s.at w).grants .firmware 0xD0018 = true) :
    ∃ t, exec (.fcrAck w .firmware 32) s = .next t ∧ t.pending = s.pending ∧ (t.source 32).severe = false
      ∧ (t.source 32).fenced = false ∧ t.svi.fenced = false ∧ t.wvl.role = s.wvl.role := by
  obtain ⟨t, hexec, hqueue, hclear, _, hunfenced, hrole, _⟩ :=
    exec_fcrAck_clears (source := 32) rfl (Or.inl rfl) hsevere hlen hgrant
  have ht := Host.Outcome.next.inj ((exec_fcrAck_of_severe (source := 32) rfl (Or.inl rfl) hsevere hgrant).symm.trans hexec)
  refine ⟨t, hexec, hqueue, hclear, hunfenced, ?svi, hrole⟩
  case svi =>
    rw [← ht, clearSource_svi]
    exact releaseFence_svi (by rw [recordAck_source]; exact hfenced)

/-- A write of `FCR_CFG` that the selected source takes (R336). -/
theorem exec_fcrCfgWrite_taken {w : When} {who : Agent} {v : Word} {s : State} (hwho : fwOrEngineer who s = true)
    (hlen : s.fcrSel who < s.fcr.sources.length) (htaken : s.fcrCfgTaken who v = true)
    (hgrant : (s.at w).grants who 0xD0028 = true) :
    ∃ t, exec (.fcrCfgWrite w who v) s = .next t ∧ Only [.time, .events, .faults, .ledger, .keeper, .sessions, .host] s t
      ∧ t.source (s.fcrSel who) =
          { s.source (s.fcrSel who) with n := v.toNat / 2 ^ 24, wms := v.toNat % 65536, recent := [] }
      ∧ ∀ j, s.fcrSel who ≠ j → t.source j = s.source j :=
  ⟨_, exec_fcrCfgWrite_granted hgrant, fcrCfgAct_only w who v s, fcrCfgAct_source_self (s := s.at w) hwho htaken hlen,
    fun _ hj => fcrCfgAct_source_other (s := s.at w) hj⟩

/-- Settles O48: the severity of the sources due in one cycle by following each source through the turns of the others, the
blocked hand-over by what a heartbeat shows before the copies are judged, the two register writes by the source they leave. -/
theorem faultSources : Obligations.FaultSources := by
  unfold Obligations.FaultSources
  refine ⟨?plainSevere, ?notDue, ?sviSevere, ?blocked, ?timeExpired, ?staysBlocked, ?goesAhead, ?ackPlain, ?ackSvi, ?ackNotSevere,
    ?ackRefused, ?cfgEight, ?cfgRange, ?cfgForcing, ?severe, ?together, ?ack, ?cfg⟩
  case plainSevere => exact fun w d s hdue hsevere hlen => exec_sourceSevere_task ⟨hdue, hsevere, rfl, hlen⟩ w d
  case notDue => exact fun w source d s h => ⟨_, exec_sourceSevere_of_not h, at_only w s Covers.rfl⟩
  case sviSevere =>
    exact fun w d s hdue hsevere halone hlen => exec_sourceSevere_svi ⟨hdue, hsevere, rfl, hlen⟩ halone w d
  case blocked =>
    exact fun w d s hdue hsevere hlen hprimary hstandby =>
      exec_sourceSevere_memStrong ⟨hdue, hsevere, rfl, hlen⟩ hprimary hstandby w d
  case timeExpired =>
    exact fun w d s hdue hsevere halone hlen hprimary _ htraceable =>
      exec_sourceSevere_timeExpired ⟨hdue, hsevere, rfl, hlen⟩ halone hprimary htraceable w d
  case staysBlocked => exact fun _ _ _ => exec_heartbeatReceived_stays_blocked
  case goesAhead => exact fun _ _ _ => exec_heartbeatReceived_goes_ahead
  case ackPlain => exact fun w s hsevere hlen hgrant => exec_fcrAck_clears rfl (Or.inl rfl) hsevere hlen hgrant
  case ackSvi => exact fun w s => exec_fcrAck_svi
  case ackNotSevere =>
    intro w source who s hsevere hgrant
    exact ⟨_, (exec_fcrAck_granted hgrant).trans (congrArg _ (fcrAckAct_of_not_severe (s := s.at w) hsevere)), at_only w s Covers.rfl⟩
  case ackRefused =>
    intro w i source s hrole
    exact ⟨_, congrArg Host.Outcome.next (asWrite_of_sesRole_lt (s := s.at w) hrole _ _),
      (emit_moves _ (Covers.rfl.trans (by decide)) (at_moves w (Covers.rfl.trans (by decide)) (.refl _ s))).only, rfl⟩
  case cfgEight =>
    intro w v s hsel hlen hn hw1 hw2 hgrant
    have hsel' : s.fcrSel .firmware = 8 := hsel
    obtain ⟨t, hexec, honly, hself, hother⟩ := exec_fcrCfgWrite_taken (w := w) (who := .firmware) (v := v) rfl
      (by rw [hsel']; exact hlen) (fcrCfgTaken_iff.mpr ⟨by rw [hsel']; decide, by rw [hsel']; decide, hn, hw1, hw2⟩) hgrant
    rw [hsel'] at hself hother
    exact ⟨t, hexec, honly, by rw [hself], by rw [hself], by rw [hself], by rw [hself], hother 9 (by decide)⟩
  case cfgRange =>
    intro w v s hrange hgrant
    refine ⟨_, exec_fcrCfgWrite_ignored hgrant fun htaken => ?_, at_only w s Covers.rfl⟩
    obtain ⟨_, _, hn, hw1, hw2⟩ := fcrCfgTaken_iff.mp htaken
    omega
  case cfgForcing =>
    intro w v s hsel hgrant
    refine ⟨_, exec_fcrCfgWrite_ignored hgrant fun htaken => ?_, at_only w s Covers.rfl⟩
    obtain ⟨hlt, hforcing, _⟩ := fcrCfgTaken_iff.mp htaken
    rcases hsel with hsel | hsel
    · exact hforcing (List.contains_iff_mem.mp hsel)
    · exact absurd hlt (Nat.not_lt.mpr hsel)
  case severe =>
    exact fun w source d s hdue hsevere hlen =>
      exec_sourceSevere_severe ⟨hdue, hsevere, rfl, hlen⟩ ⟨hdue, hsevere, rfl, hlen⟩ w d
  case together =>
    intro w i j d s hdue hsevere hdue' hsevere' hat hlen
    obtain ⟨hqueue, _⟩ := severeWith_at_only w i d s
    obtain ⟨hj, hjdue⟩ := severeWith_severe (i := i) (k := j) (s := s.at w) j.isLt ⟨hdue', hsevere', hat, hlen⟩ d
    exact ⟨_, exec_sourceSevere_of_due rfl hdue hsevere, hqueue, hj, hjdue⟩
  case ack => exact fun w who source s => exec_fcrAck_clears rfl
  case cfg =>
    intro w who v i s hwho hsel ⟨hi, hlen⟩ hforcing hn hw1 hw2 hgrant
    have hsel' : s.fcrSel who = i := hsel.symm
    obtain ⟨t, hexec, honly, hself, _⟩ := exec_fcrCfgWrite_taken (w := w) (who := who) (v := v) hwho
      (by rw [hsel']; exact hlen) (fcrCfgTaken_iff.mpr ⟨by rwa [hsel'], by rwa [hsel'], hn, hw1, hw2⟩) hgrant
    rw [hsel'] at hself
    exact ⟨t, hexec, honly, by rw [hself], by rw [hself], by rw [hself], by rw [hself]⟩

end Sys2Proof.Machine

/-! The keeper in its slot (R309, R311): the state of a keeper that BOLT_CLOSE mounts is that of the identity block the mount reads. -/

namespace Sys2Proof.Machine

open Sys2Proof

/-- A cartridge both copies of whose identity block are valid; the one with the higher write count says that it is commissioned.
The content that an earlier mount found is still that of a cartridge never commissioned. -/
def commissionedSinceMount : Cartridge :=
  { ident := 5, idCopies := [{ count := 2, block := { commissioned := true } }, { count := 1 }] }

/-- That cartridge in the slot of a module in P3, with the bolt open. -/
def boltOpenOnCommissioned : State :=
  { gen := { phase := 3, held := true }, kpr := { boltOpen := true, cartridge := some commissionedSinceMount } }

/-- By the content of the earlier mount the cartridge is BLANK. -/
theorem mountState_commissionedSinceMount : mountState commissionedSinceMount (boltOpenOnCommissioned.at {}) = 1 := by decide

/-- The mount reads the newer copy of the identity block, and the keeper is OK. -/
theorem boltClose_mounts_commissioned {t : State} (h : exec (.boltClose {}) boltOpenOnCommissioned = .next t) : t.kpr.state = 2 := by
  obtain rfl := Host.Outcome.next.inj h
  decide

/-- Refutes O45: closing the bolt mounts a keeper in the state that its identity block gives, read then (R309, R311), and not in
the state that the cartridge's content before the mount gives; the two differ for a keeper that was commissioned since. -/
theorem not_keeperInTheSlot : ¬ Obligations.KeeperInTheSlot := by
  unfold Obligations.KeeperInTheSlot
  rintro ⟨-, -, hclose, -⟩
  have hblank := mountState_commissionedSinceMount
  obtain ⟨t, hexec, -, -, hstate, -⟩ :=
    hclose {} commissionedSinceMount boltOpenOnCommissioned rfl (Nat.le_refl 3) rfl (by rw [hblank]; decide)
  rw [boltClose_mounts_commissioned hexec, hblank] at hstate
  exact absurd hstate (by decide)

end Sys2Proof.Machine

/-! The hinge latch and P6 (R391): the start of a module, the GEN block's part of the state, is touched by few operations, and
only the end of P5 begins P6. The operations that leave it as it is come first, then those that keep it out of P6 with the latch
open, unit by unit, and last the commands. -/

namespace Sys2Proof.Machine

open Sys2Proof

/-! ### Operations that leave the start as it is -/

/-- An operation whose frame does not list the start leaves it. -/
theorem Moves.gen_eq {P : List Part} {s t : State} (h : Moves P s t) (hP : P.contains .start = false) : t.gen = s.gen :=
  h.same .start fun hin => by simp [hin] at hP

/-! Operations of the keeper and the loaders. -/

@[simp] theorem mountKeeper_gen (s : State) : (mountKeeper s).gen = s.gen :=
  (mountKeeper_moves Covers.rfl (.refl _ s)).gen_eq rfl

@[simp] theorem cutShort_gen (s : State) : (cutShort s).gen = s.gen :=
  (cutShort_moves Covers.rfl (.refl _ s)).gen_eq rfl

@[simp] theorem reachP3_gen (s : State) : (reachP3 s).gen = s.gen :=
  (reachP3_moves Covers.rfl (.refl _ s)).gen_eq rfl

@[simp] theorem adoptKeeper_gen (ident : Nat) (first : List LedgerRecord) (s : State) :
    (adoptKeeper ident first s).gen = s.gen :=
  (adoptKeeper_moves _ _ Covers.rfl (.refl _ s)).gen_eq rfl

@[simp] theorem copyRoles_gen (s : State) : (copyRoles s).gen = s.gen :=
  (copyRoles_moves Covers.rfl (.refl _ s)).gen_eq rfl

@[simp] theorem writeIdentity_gen (s : State) : (writeIdentity s).gen = s.gen :=
  (writeIdentity_moves Covers.rfl (.refl _ s)).gen_eq rfl

@[simp] theorem dropRefills_gen (s : State) : (dropRefills s).gen = s.gen :=
  (dropRefills_moves Covers.rfl (.refl _ s)).gen_eq rfl

@[simp] theorem endStore_gen (s : State) : (endStore s).gen = s.gen :=
  (endStore_moves Covers.rfl (.refl _ s)).gen_eq rfl

@[simp] theorem maybeFixA_gen (s : State) : (maybeFixA s).gen = s.gen :=
  (maybeFixA_moves Covers.rfl (.refl _ s)).gen_eq rfl

@[simp] theorem partnerCommit_gen (gen digest : Nat) (s : State) : (partnerCommit gen digest s).gen = s.gen :=
  (partnerCommit_moves _ _ Covers.rfl (.refl _ s)).gen_eq rfl

@[simp] theorem failSlot_gen (n cause : Nat) (s : State) : (failSlot n cause s).gen = s.gen :=
  (failSlot_moves _ _ Covers.rfl (.refl _ s)).gen_eq rfl

@[simp] theorem dropUnstaged_gen (s : State) : (dropUnstaged s).gen = s.gen :=
  (dropUnstaged_moves Covers.rfl (.refl _ s)).gen_eq rfl

/-! Operations of fault reports. -/

@[simp] theorem history_gen (src kind byWhom : Nat) (s : State) : (history src kind byWhom s).gen = s.gen :=
  (history_moves _ _ _ Covers.rfl (.refl _ s)).gen_eq rfl

@[simp] theorem fenceSource_gen (i : Nat) (d : Digests) (s : State) : (fenceSource i d s).gen = s.gen :=
  (fenceSource_moves _ _ Covers.rfl (.refl _ s)).gen_eq rfl

@[simp] theorem unitErrors_gen (i : Nat) (e : UnitErrors) (s : State) : (unitErrors i e s).gen = s.gen :=
  (unitErrors_moves _ _ Covers.rfl (.refl _ s)).gen_eq rfl

@[simp] theorem unblock_gen (s : State) : (unblock s).gen = s.gen :=
  (unblock_moves Covers.rfl (.refl _ s)).gen_eq rfl

@[simp] theorem relinquish_gen (src : Nat) (s : State) : (relinquish src s).gen = s.gen :=
  (relinquish_moves _ Covers.rfl (.refl _ s)).gen_eq rfl

/-! Operations of the time base. -/

@[simp] theorem putServo_gen (new : Nat) (s : State) : (putServo new s).gen = s.gen := rfl

@[simp] theorem startHoldover_gen (locked : Nat) (s : State) : (startHoldover locked s).gen = s.gen :=
  (startHoldover_moves _ Covers.rfl (.refl _ s)).gen_eq rfl

@[simp] theorem endHoldover_gen (s : State) : (endHoldover s).gen = s.gen :=
  (endHoldover_moves Covers.rfl (.refl _ s)).gen_eq rfl

@[simp] theorem servoEvents_gen (new : Nat) (s : State) : (servoEvents new s).gen = s.gen :=
  (servoEvents_moves _ Covers.rfl (.refl _ s)).gen_eq rfl

@[simp] theorem freqHold_gen (s : State) : (freqHold s).gen = s.gen :=
  (freqHold_moves Covers.rfl (.refl _ s)).gen_eq rfl

@[simp] theorem steer_gen (s : State) : (steer s).gen = s.gen :=
  (steer_moves Covers.rfl (.refl _ s)).gen_eq rfl

@[simp] theorem coarseSet_gen (offset : Int) (s : State) : (coarseSet offset s).gen = s.gen :=
  (coarseSet_moves _ Covers.rfl (.refl _ s)).gen_eq rfl

@[simp] theorem sourceChanged_gen (s : State) : (sourceChanged s).gen = s.gen :=
  (sourceChanged_moves Covers.rfl (.refl _ s)).gen_eq rfl

@[simp] theorem putTaiUtc_gen (at_ : Nat) (v : Int) (s : State) : (putTaiUtc at_ v s).gen = s.gen :=
  (putTaiUtc_moves _ _ Covers.rfl (.refl _ s)).gen_eq rfl

@[simp] theorem modSource_gen (kind port : Nat) (f : SourceSeen → SourceSeen) (s : State) :
    (modSource kind port f s).gen = s.gen :=
  (modSource_moves _ _ _ Covers.rfl (.refl _ s)).gen_eq rfl

@[simp] theorem edgeSeen_gen (kind : Nat) (s : State) : (edgeSeen kind s).gen = s.gen :=
  (edgeSeen_moves _ Covers.rfl (.refl _ s)).gen_eq rfl

@[simp] theorem setLeap_gen (utc label offset : Int) (add del : Bool) (s : State) :
    (setLeap utc label offset add del s).gen = s.gen :=
  (setLeap_moves _ _ _ _ _ Covers.rfl (.refl _ s)).gen_eq rfl

@[simp] theorem redateLeap_gen (t : Nat) (s : State) : (redateLeap t s).gen = s.gen :=
  (redateLeap_moves _ Covers.rfl (.refl _ s)).gen_eq rfl

@[simp] theorem trimRefuse_gen (addr value : Nat) (s : State) : (trimRefuse addr value s).gen = s.gen :=
  (trimRefuse_moves _ _ Covers.rfl (.refl _ s)).gen_eq rfl

@[simp] theorem endExchange_gen (p t1 t4 : Nat) (turn : Int) (s : State) : (endExchange p t1 t4 turn s).gen = s.gen :=
  (endExchange_moves _ _ _ _ Covers.rfl (.refl _ s)).gen_eq rfl

@[simp] theorem ptpDrop_gen (p : Nat) (s : State) : (ptpDrop p s).gen = s.gen :=
  (ptpDrop_moves _ Covers.rfl (.refl _ s)).gen_eq rfl

@[simp] theorem tmbSnapAct_gen (who : Agent) (s : State) : (tmbSnapAct who s).gen = s.gen :=
  (tmbSnapAct_moves _ Covers.rfl (.refl _ s)).gen_eq rfl

@[simp] theorem freqTrimAct_gen (who : Agent) (v : Word) (s : State) : (freqTrimAct who v s).gen = s.gen :=
  (freqTrimAct_moves _ _ Covers.rfl (.refl _ s)).gen_eq rfl

@[simp] theorem phaseStepAct_gen (who : Agent) (v : Word) (s : State) : (phaseStepAct who v s).gen = s.gen :=
  (phaseStepAct_moves _ _ Covers.rfl (.refl _ s)).gen_eq rfl

@[simp] theorem phaseStepApply_gen (s : State) : (phaseStepApply s).gen = s.gen :=
  (phaseStepApply_moves Covers.rfl (.refl _ s)).gen_eq rfl

/-! Operations of memory and the tasks. -/

@[simp] theorem unitsTake_gen (g : Generation) (s : State) : (unitsTake g s).gen = s.gen :=
  (unitsTake_moves _ Covers.rfl (.refl _ s)).gen_eq rfl

@[simp] theorem applyMemmap_gen (s : State) : (applyMemmap s).gen = s.gen :=
  (applyMemmap_moves Covers.rfl (.refl _ s)).gen_eq rfl

@[simp] theorem unitWrite_gen (ident a : Nat) (bs : List Byte) (s : State) : (unitWrite ident a bs s).gen = s.gen :=
  (unitWrite_moves _ _ _ Covers.rfl (.refl _ s)).gen_eq rfl

@[simp] theorem restartTask_gen (g : Generation) (t : Nat) (bank : Option TaskBank) (s : State) :
    (restartTask g t bank s).gen = s.gen :=
  (restartTask_moves _ _ _ Covers.rfl (.refl _ s)).gen_eq rfl

@[simp] theorem initImages_gen (g : Generation) (t : Nat) (out : PointCfg → Nat) (s : State) :
    (initImages g t out s).gen = s.gen :=
  (initImages_moves _ _ _ Covers.rfl (.refl _ s)).gen_eq rfl

@[simp] theorem takeTask_gen (t : Nat) (s : State) : (takeTask t s).gen = s.gen :=
  (takeTask_moves _ Covers.rfl (.refl _ s)).gen_eq rfl

@[simp] theorem startTask_gen (t tp count : Nat) (s : State) : (startTask t tp count s).gen = s.gen :=
  (startTask_moves _ _ _ Covers.rfl (.refl _ s)).gen_eq rfl

@[simp] theorem startRound_gen (s : State) : (startRound s).gen = s.gen :=
  (startRound_moves Covers.rfl (.refl _ s)).gen_eq rfl

/-! Operations of field I/O, feeds and sampled values. -/

@[simp] theorem fioStandby_gen (s : State) : (fioStandby s).gen = s.gen :=
  (fioStandby_moves Covers.rfl (.refl _ s)).gen_eq rfl

@[simp] theorem fioRefresh_gen (s : State) : (fioRefresh s).gen = s.gen :=
  (fioRefresh_moves Covers.rfl (.refl _ s)).gen_eq rfl

@[simp] theorem disarmDo_gen (s : State) : (disarmDo s).gen = s.gen :=
  (disarmDo_moves Covers.rfl (.refl _ s)).gen_eq rfl

@[simp] theorem pinsRest_gen (s : State) : (pinsRest s).gen = s.gen :=
  (pinsRest_moves Covers.rfl (.refl _ s)).gen_eq rfl

@[simp] theorem applyLocal_gen (p : Nat × Nat) (s : State) : (applyLocal p s).gen = s.gen :=
  (applyLocal_moves _ Covers.rfl (.refl _ s)).gen_eq rfl

@[simp] theorem noteGood_gen (s : State) : (noteGood s).gen = s.gen :=
  (noteGood_moves Covers.rfl (.refl _ s)).gen_eq rfl

@[simp] theorem setFeed_gen (i mv : Nat) (s : State) : (setFeed i mv s).gen = s.gen :=
  (setFeed_moves _ _ Covers.rfl (.refl _ s)).gen_eq rfl

@[simp] theorem followRide_gen (was : Bool) (s : State) : (followRide was s).gen = s.gen :=
  (followRide_moves _ Covers.rfl (.refl _ s)).gen_eq rfl

@[simp] theorem finalRound_gen (complete : Bool) (stored : Nat) (s : State) : (finalRound complete stored s).gen = s.gen :=
  (finalRound_moves _ _ Covers.rfl (.refl _ s)).gen_eq rfl

@[simp] theorem bankFault_gen (bank permille : Nat) (s : State) : (bankFault bank permille s).gen = s.gen :=
  (bankFault_moves _ _ Covers.rfl (.refl _ s)).gen_eq rfl

@[simp] theorem endOldSubs_gen (g : Nat) (s : State) : (endOldSubs g s).gen = s.gen :=
  (endOldSubs_moves _ Covers.rfl (.refl _ s)).gen_eq rfl

@[simp] theorem swapAtSlot_gen (g : Nat) (s : State) : (swapAtSlot g s).gen = s.gen :=
  (swapAtSlot_moves _ Covers.rfl (.refl _ s)).gen_eq rfl

@[simp] theorem archiveRow_gen (gen channels : Nat) (vals : List (Int × Nat)) (slot : Nat) (s : State) :
    (archiveRow gen channels vals slot s).gen = s.gen :=
  (archiveRow_moves _ _ _ _ Covers.rfl (.refl _ s)).gen_eq rfl

@[simp] theorem pheSlot_gen (vals : List (Int × Nat)) (g : Nat) (s : State) : (pheSlot vals g s).gen = s.gen :=
  (pheSlot_moves _ _ Covers.rfl (.refl _ s)).gen_eq rfl

/-! Operations of the pair. -/

@[simp] theorem modCopy_gen (t : Nat) (f : CopyState → CopyState) (s : State) : (modCopy t f s).gen = s.gen :=
  (modCopy_moves _ _ Covers.rfl (.refl _ s)).gen_eq rfl

@[simp] theorem underReseed_gen (t : Nat) (s : State) : (underReseed t s).gen = s.gen :=
  (underReseed_moves _ Covers.rfl (.refl _ s)).gen_eq rfl

@[simp] theorem current_gen (t : Nat) (s : State) : (current t s).gen = s.gen :=
  (current_moves _ Covers.rfl (.refl _ s)).gen_eq rfl

@[simp] theorem copyDrop_gen (t : Nat) (s : State) : (copyDrop t s).gen = s.gen :=
  (copyDrop_moves _ Covers.rfl (.refl _ s)).gen_eq rfl

@[simp] theorem latent_gen (t : Nat) (s : State) : (latent t s).gen = s.gen :=
  (latent_moves _ Covers.rfl (.refl _ s)).gen_eq rfl

@[simp] theorem applyLines_gen (t : Nat) (ls : List (Nat × List Byte)) (s : State) : (applyLines t ls s).gen = s.gen :=
  (applyLines_moves _ _ Covers.rfl (.refl _ s)).gen_eq rfl

@[simp] theorem applyCycle_gen (t : Nat) (outs : List Nat) (cycle skips : Nat) (forces : Option (List (Nat × Nat))) (s : State) :
    (applyCycle t outs cycle skips forces s).gen = s.gen :=
  (applyCycle_moves _ _ _ _ _ Covers.rfl (.refl _ s)).gen_eq rfl

@[simp] theorem standbyCommit_gen (t : Nat) (lines : List Nat) (vals : List (Nat × Nat)) (cycle : Nat) (s : State) :
    (standbyCommit t lines vals cycle s).gen = s.gen :=
  (standbyCommit_moves _ _ _ _ Covers.rfl (.refl _ s)).gen_eq rfl

@[simp] theorem reseedTaken_gen (m : ReseedMsg) (s : State) : (reseedTaken m s).gen = s.gen :=
  (reseedTaken_moves _ Covers.rfl (.refl _ s)).gen_eq rfl

@[simp] theorem startEpoch_gen (s : State) : (startEpoch s).gen = s.gen :=
  (startEpoch_moves Covers.rfl (.refl _ s)).gen_eq rfl

@[simp] theorem loadEpoch_gen (s : State) : (loadEpoch s).gen = s.gen :=
  (loadEpoch_moves Covers.rfl (.refl _ s)).gen_eq rfl

@[simp] theorem primaryCommon_gen (s : State) : (primaryCommon s).gen = s.gen :=
  (primaryCommon_moves Covers.rfl (.refl _ s)).gen_eq rfl

@[simp] theorem drainPorts_gen (s : State) : (drainPorts s).gen = s.gen :=
  (drainPorts_moves Covers.rfl (.refl _ s)).gen_eq rfl

@[simp] theorem dropHandover_gen (s : State) : (dropHandover s).gen = s.gen :=
  (dropHandover_moves Covers.rfl (.refl _ s)).gen_eq rfl

@[simp] theorem resetStations_gen (s : State) : (resetStations s).gen = s.gen :=
  (resetStations_moves Covers.rfl (.refl _ s)).gen_eq rfl

@[simp] theorem frameSeen_gen (h : LinkHdr) (s : State) : (frameSeen h s).gen = s.gen :=
  (frameSeen_moves _ Covers.rfl (.refl _ s)).gen_eq rfl

@[simp] theorem partnerSeen_gen (h : Heartbeat) (s : State) : (partnerSeen h s).gen = s.gen :=
  (partnerSeen_moves _ Covers.rfl (.refl _ s)).gen_eq rfl

@[simp] theorem primaryHeartbeat_gen (h : Heartbeat) (before : Nat) (s : State) : (primaryHeartbeat h before s).gen = s.gen :=
  (primaryHeartbeat_moves _ _ Covers.rfl (.refl _ s)).gen_eq rfl

@[simp] theorem raiseReserve_gen (v : Nat) (s : State) : (raiseReserve v s).gen = s.gen :=
  (raiseReserve_moves _ Covers.rfl (.refl _ s)).gen_eq rfl

@[simp] theorem copiesLost_gen (s : State) : (copiesLost s).gen = s.gen :=
  (copiesLost_moves Covers.rfl (.refl _ s)).gen_eq rfl

@[simp] theorem prepareTake_gen (count cause : Nat) (s : State) : (prepareTake count cause s).gen = s.gen :=
  (prepareTake_moves _ _ Covers.rfl (.refl _ s)).gen_eq rfl

@[simp] theorem linkSend_gen (msg : Nat) (data : List Nat) (s : State) : (linkSend msg data s).gen = s.gen :=
  (linkSend_moves _ _ Covers.rfl (.refl _ s)).gen_eq rfl

@[simp] theorem swapAtChange_gen (s : State) : (swapAtChange s).gen = s.gen :=
  (swapAtChange_moves Covers.rfl (.refl _ s)).gen_eq rfl

@[simp] theorem requestHandover_gen (cause : Nat) (who : Option Nat) (s : State) : (requestHandover cause who s).gen = s.gen :=
  (requestHandover_moves _ _ Covers.rfl (.refl _ s)).gen_eq rfl

@[simp] theorem pairAccept_gen (action : Nat) (s : State) : (pairAccept action s).gen = s.gen :=
  (pairAccept_moves _ Covers.rfl (.refl _ s)).gen_eq rfl

@[simp] theorem pairRefuse_gen (ses : Fin 8) (code : Nat) (s : State) : (pairRefuse ses code s).gen = s.gen :=
  (pairRefuse_moves _ _ Covers.rfl (.refl _ s)).gen_eq rfl

@[simp] theorem readCoding_gen (coding : Nat) (s : State) : (readCoding coding s).gen = s.gen :=
  (readCoding_moves _ Covers.rfl (.refl _ s)).gen_eq rfl

@[simp] theorem closeSession_gen (i : Nat) (cause : Nat) (s : State) : (closeSession i cause s).gen = s.gen :=
  (closeSession_moves _ _ Covers.rfl (.refl _ s)).gen_eq rfl

/-! Operations of the strobe. -/

@[simp] theorem strobeTime_gen (w : When) (s : State) : (strobeTime w s).gen = s.gen :=
  (strobeTime_moves _ Covers.rfl (.refl _ s)).gen_eq rfl

@[simp] theorem correctFollowers_gen (unseen : Nat) (was s : State) : (correctFollowers unseen was s).gen = s.gen :=
  (correctFollowers_moves _ Covers.rfl (.refl _ s)).gen_eq rfl

@[simp] theorem takeErrors_gen (l : List (Nat × MemFault)) (s : State) : (takeErrors l s).gen = s.gen :=
  (takeErrors_moves _ Covers.rfl (.refl _ s)).gen_eq rfl

@[simp] theorem strobeBudgets_gen (m : Measured) (s : State) : (strobeBudgets m s).gen = s.gen :=
  (strobeBudgets_moves _ Covers.rfl (.refl _ s)).gen_eq rfl

@[simp] theorem archiveStop_gen (s : State) : (archiveStop s).gen = s.gen :=
  (archiveStop_moves Covers.rfl (.refl _ s)).gen_eq rfl

@[simp] theorem resumePorts_gen (s : State) : (resumePorts s).gen = s.gen :=
  (resumePorts_moves Covers.rfl (.refl _ s)).gen_eq rfl

@[simp] theorem dropUnsent_gen (tp : Nat) (s : State) : (dropUnsent tp s).gen = s.gen :=
  (dropUnsent_moves _ Covers.rfl (.refl _ s)).gen_eq rfl

@[simp] theorem pheHeld_gen (s : State) : (pheHeld s).gen = s.gen :=
  (pheHeld_moves Covers.rfl (.refl _ s)).gen_eq rfl

@[simp] theorem swapUnslotted_gen (s : State) : (swapUnslotted s).gen = s.gen :=
  (swapUnslotted_moves Covers.rfl (.refl _ s)).gen_eq rfl

@[simp] theorem strobePair_gen (s : State) : (strobePair s).gen = s.gen :=
  (strobePair_moves Covers.rfl (.refl _ s)).gen_eq rfl

@[simp] theorem strobeTriad_gen (d : Digests) (s : State) : (strobeTriad d s).gen = s.gen :=
  (strobeTriad_moves _ Covers.rfl (.refl _ s)).gen_eq rfl

@[simp] theorem grantPorts_gen (s : State) : (grantPorts s).gen = s.gen :=
  (grantPorts_moves Covers.rfl (.refl _ s)).gen_eq rfl

@[simp] theorem strobeTasks_gen (s : State) : (strobeTasks s).gen = s.gen :=
  (strobeTasks_moves Covers.rfl (.refl _ s)).gen_eq rfl

@[simp] theorem reschedule_gen (s : State) : (reschedule s).gen = s.gen :=
  (reschedule_moves Covers.rfl (.refl _ s)).gen_eq rfl

@[simp] theorem strobePorts_gen (s : State) : (strobePorts s).gen = s.gen :=
  (strobePorts_moves Covers.rfl (.refl _ s)).gen_eq rfl

@[simp] theorem finishSwaps_gen (s : State) : (finishSwaps s).gen = s.gen :=
  (finishSwaps_moves Covers.rfl (.refl _ s)).gen_eq rfl

@[simp] theorem pruneStations_gen (s : State) : (pruneStations s).gen = s.gen :=
  (pruneStations_moves Covers.rfl (.refl _ s)).gen_eq rfl

@[simp] theorem strobeRound_gen (s : State) : (strobeRound s).gen = s.gen :=
  (strobeRound_moves Covers.rfl (.refl _ s)).gen_eq rfl

@[simp] theorem drainShp_gen (s : State) : (drainShp s).gen = s.gen :=
  (drainShp_moves Covers.rfl (.refl _ s)).gen_eq rfl

@[simp] theorem drainBulk_gen (s : State) : (drainBulk s).gen = s.gen :=
  (drainBulk_moves Covers.rfl (.refl _ s)).gen_eq rfl

@[simp] theorem pumpCopies_gen (s : State) : (pumpCopies s).gen = s.gen :=
  (pumpCopies_moves Covers.rfl (.refl _ s)).gen_eq rfl

/-! Operations of accesses and sessions. -/

@[simp] theorem checkAccess_gen (ident space a n : Nat) (write : Bool) (s : State) :
    (checkAccess ident space a n write s).2.gen = s.gen :=
  (checkAccess_moves _ _ _ _ _ Covers.rfl (.refl _ s)).gen_eq rfl

@[simp] theorem answerWrite_gen (ident : Nat) (ok : Bool) (was : Nat) (s : State) : (answerWrite ident ok was s).gen = s.gen :=
  (answerWrite_moves _ _ _ Covers.rfl (.refl _ s)).gen_eq rfl

@[simp] theorem readReg_gen (host latching : Bool) (a : Nat) (s : State) : (readReg host latching a s).2.gen = s.gen :=
  (readReg_moves _ _ _ Covers.rfl (.refl _ s)).gen_eq rfl

@[simp] theorem respond_gen (ident : Nat) (ok : Bool) (data : List Byte) (s : State) : (respond ident ok data s).gen = s.gen :=
  (respond_moves _ _ _ Covers.rfl (.refl _ s)).gen_eq rfl

@[simp] theorem memReadTx_gen (tx : Tx) (s : State) : (memReadTx tx s).gen = s.gen :=
  (memReadTx_moves _ Covers.rfl (.refl _ s)).gen_eq rfl

@[simp] theorem memWriteTx_gen (tx : Tx) (s : State) : (memWriteTx tx s).gen = s.gen :=
  (memWriteTx_moves _ Covers.rfl (.refl _ s)).gen_eq rfl

theorem when_gen {f : State → State} (hf : ∀ s, (f s).gen = s.gen) (c : Bool) (s : State) : (when c f s).gen = s.gen := by
  cases c
  · rfl
  · exact hf s

theorem ite_gen {c : Prop} [Decidable c] {a b : State} {g : GenState} (ha : a.gen = g) (hb : b.gen = g) :
    (if c then a else b).gen = g := by
  split
  · exact ha
  · exact hb

theorem foldl_gen {α : Type} {f : State → α → State} (hf : ∀ s a, (f s a).gen = s.gen) (l : List α) (s : State) :
    (l.foldl f s).gen = s.gen := by
  induction l generalizing s with
  | nil => rfl
  | cons a l ih => exact (ih (f s a)).trans (hf s a)

/-! ### The latch is obeyed (R391) -/

/-- With the hinge latch open the start is not in P6 (R391). -/
def GenState.LatchObeyed (g : GenState) : Prop := g.latchOpen = true → g.phase ≠ 6

/-- An operation obeys the latch: it begins P6 in no state with the latch open. -/
def ObeysLatch (f : State → State) : Prop := ∀ s, s.gen.LatchObeyed → (f s).gen.LatchObeyed

/-- A start in another phase than P6 obeys the latch. -/
theorem latchObeyed_of_phase {g : GenState} (h : g.phase ≠ 6) : g.LatchObeyed := fun _ => h

theorem GenState.LatchObeyed.of_eq {g g' : GenState} (h : g.LatchObeyed) (he : g' = g) : g'.LatchObeyed := he ▸ h

/-- Only the phase and the latch matter. -/
theorem GenState.LatchObeyed.congr {g g' : GenState} (h : g.LatchObeyed) (hl : g'.latchOpen = g.latchOpen) (hp : g'.phase = g.phase) :
    g'.LatchObeyed := by
  unfold GenState.LatchObeyed
  rw [hl, hp]
  exact h

theorem obeysLatch_when {f : State → State} (hf : ObeysLatch f) (c : Bool) : ObeysLatch (when c f) := by
  intro s h
  cases c
  · exact h
  · exact hf s h

theorem obeysLatch_foldl {α : Type} {f : State → α → State} (hf : ∀ a, ObeysLatch (f · a)) (l : List α) :
    ObeysLatch (l.foldl f ·) := by
  induction l with
  | nil => exact fun _ h => h
  | cons a l ih => exact fun s h => ih (f s a) (hf a s h)

/-- Every next state of an answer obeys the latch. -/
def AnswersObeyed (r : Result) : Prop := ∀ t, r = .next t → t.gen.LatchObeyed

theorem answers_obeyed {t : State} (h : t.gen.LatchObeyed) : AnswersObeyed (.next t) :=
  fun _ e => Host.Outcome.next.inj e ▸ h

theorem ite_obeyed {c : Prop} [Decidable c] {a b : State} (ha : a.gen.LatchObeyed) (hb : b.gen.LatchObeyed) :
    (if c then a else b).gen.LatchObeyed := by
  split
  · exact ha
  · exact hb

theorem ite_answers {c : Prop} [Decidable c] {a b : Result} (ha : AnswersObeyed a) (hb : AnswersObeyed b) :
    AnswersObeyed (if c then a else b) := by
  split
  · exact ha
  · exact hb

/-! ### The time base (R70 to R74, R88, R389) -/

/-- Only the end of P5 begins P6, and not with the latch open. -/
theorem endP5_obeys : ObeysLatch endP5 := by
  intro s h
  unfold endP5
  split
  · dsimp only
    split
    next => exact h
    next hclosed => exact fun hopen => absurd hopen hclosed
  · exact h

theorem setServo_obeys (new : Nat) : ObeysLatch (setServo new) := fun s h =>
  ite_obeyed h (ite_obeyed (endP5_obeys _ (h.of_eq (by simp [apply_ite State.gen]))) (h.of_eq (by simp [apply_ite State.gen])))

theorem checkHoldover_obeys : ObeysLatch checkHoldover := by
  intro s h
  unfold checkHoldover
  split
  · exact ite_obeyed (setServo_obeys 4 s h) h
  · exact h

theorem holdoverRevise_obeys (temp : Int) : ObeysLatch (holdoverRevise temp) := fun _ h =>
  ite_obeyed (checkHoldover_obeys _ h) h

theorem acquireSample_obeys (offset est : Int) : ObeysLatch (acquireSample offset est) := fun _ h =>
  ite_obeyed (setServo_obeys 2 _ (h.of_eq (steer_gen _))) (h.of_eq (steer_gen _))

/-- A sample changes the state of the servo in three ways: out of LOCKED, into ACQUIRING, or by acquiring to LOCKED. -/
theorem servoSample_obeys (offset est : Int) : ObeysLatch (servoSample offset est) := by
  intro s h
  have hlocked : ∀ t : State, t.gen = s.gen → (setServo 3 t).gen.LatchObeyed := fun t ht => setServo_obeys 3 t (h.of_eq ht)
  have hacquire : ∀ (t : State) (o : Int), t.gen = s.gen → (acquireSample o est (setServo 1 t)).gen.LatchObeyed := fun t o ht =>
    acquireSample_obeys o est _ (setServo_obeys 1 t (h.of_eq ht))
  refine ite_obeyed (ite_obeyed (ite_obeyed (hlocked _ rfl) h) (h.of_eq (steer_gen _))) (ite_obeyed h ?_)
  refine ite_obeyed (acquireSample_obeys _ _ _ h) (ite_obeyed (hacquire _ _ (coarseSet_gen _ _)) ?_)
  exact ite_obeyed (hacquire _ _ rfl) (h.of_eq (tmbEvent_gen _ _))

theorem sourceGone_obeys : ObeysLatch sourceGone := fun _ h => ite_obeyed h (ite_obeyed (setServo_obeys _ _ h) h)

theorem graceEnd_obeys : ObeysLatch graceEnd := by
  intro s h
  unfold graceEnd
  split
  · exact ite_obeyed (setServo_obeys 3 s h) h
  · exact h

theorem selectSource_obeys (kind port : Nat) : ObeysLatch (selectSource kind port) := fun _ h =>
  ite_obeyed h (ite_obeyed (sourceGone_obeys _ (h.of_eq (by simp [apply_ite State.gen]))) (h.of_eq (by simp [apply_ite State.gen])))

theorem electMaster_obeys : ObeysLatch electMaster := by
  intro s h
  unfold electMaster
  refine ite_obeyed h ?_
  split
  · exact selectSource_obeys 1 _ s h
  · exact h

theorem stepAcceptAct_obeys (who : Agent) : ObeysLatch (stepAcceptAct who) := fun _ h =>
  ite_obeyed (setServo_obeys 1 _ (h.of_eq (by simp))) h

theorem tmbSrcAct_obeys (who : Agent) (v : Word) : ObeysLatch (tmbSrcAct who v) := fun s h =>
  ite_obeyed (ite_obeyed h (ite_obeyed (h.of_eq (trimRefuse_gen _ _ _)) (selectSource_obeys _ _ s h))) h

/-- A PTP frame that is taken in obeys the latch where its meaning does. -/
theorem takePtp_obeys (p domain : Nat) (ok : Bool) {f : State → State} (hf : ObeysLatch f) : ObeysLatch (takePtp p domain ok f) :=
  fun s h => ite_obeyed h (ite_obeyed (h.of_eq (ptpDrop_gen _ _)) (hf s h))

theorem execSyncReceived_obeys (w : When) (f : SyncFrame) {s : State} (h : s.gen.LatchObeyed) :
    AnswersObeyed (execSyncReceived w f s) := by
  refine answers_obeyed (takePtp_obeys _ _ _ (fun t ht => ?_) _ h)
  refine ite_obeyed ?_ (ite_obeyed ?_ (servoSample_obeys _ _ _ ?_)) <;> exact ht

theorem execFollowUpReceived_obeys (w : When) (f : SyncFrame) (isPdelay : Bool) {s : State} (h : s.gen.LatchObeyed) :
    AnswersObeyed (execFollowUpReceived w f isPdelay s) := by
  refine answers_obeyed (takePtp_obeys _ _ _ (fun t ht => ite_obeyed ?_ ?_) _ h)
  · split
    · exact ht.of_eq (endExchange_gen _ _ _ _ _)
    · exact ht
  · split
    · exact ite_obeyed (servoSample_obeys _ _ _ ht) ht
    · exact ht

theorem execPtpAnnounceReceived_obeys (w : When) (port : Fin 66) (f : Announce) {s : State} (h : s.gen.LatchObeyed) :
    AnswersObeyed (execPtpAnnounceReceived w port f s) := by
  refine answers_obeyed (takePtp_obeys _ _ _ (fun t ht => ite_obeyed ht ?_) _ h)
  refine ite_obeyed (GenState.LatchObeyed.of_eq (electMaster_obeys _ ?_) (setLeap_gen _ _ _ _ _ _)) (electMaster_obeys _ ?_) <;>
  exact ht.of_eq (by simp [apply_ite State.gen])

theorem execPpsEdge_obeys (w : When) (stamp : Nat) (freqEst : Int) {s : State} (h : s.gen.LatchObeyed) :
    AnswersObeyed (execPpsEdge w stamp freqEst s) := by
  refine ite_answers (answers_obeyed h) ?_
  split
  · refine ite_answers (answers_obeyed (servoSample_obeys _ _ _ ?_)) (answers_obeyed ?_) <;> exact h.of_eq (edgeSeen_gen _ _)
  · exact answers_obeyed h

theorem execIrigbFrame_obeys (w : When) (f : IrigFrame) {s : State} (h : s.gen.LatchObeyed) : AnswersObeyed (execIrigbFrame w f s) := by
  refine ite_answers (answers_obeyed (h.of_eq (tmbEvent_gen _ _))) ?_
  refine ite_answers (answers_obeyed (servoSample_obeys _ _ _ ?_)) (answers_obeyed ?_) <;>
  exact h.of_eq (ite_gen ((setLeap_gen _ _ _ _ _ _).trans (edgeSeen_gen _ _)) (edgeSeen_gen _ _))

theorem execSourceLoss_obeys (w : When) {s : State} (h : s.gen.LatchObeyed) : AnswersObeyed (execSourceLoss w s) := by
  refine ite_answers (answers_obeyed (graceEnd_obeys _ h)) (ite_answers (answers_obeyed h) (answers_obeyed ?_))
  split <;> exact selectSource_obeys _ _ _ (h.of_eq (by simp [when_gen]))

theorem execSourceQualified_obeys (w : When) (kind : Fin 4) (port : Fin 66) {s : State} (h : s.gen.LatchObeyed) :
    AnswersObeyed (execSourceQualified w kind port s) := by
  have hselect : ∀ k p, (selectSource k p (s.at w)).gen.LatchObeyed := fun k p => selectSource_obeys k p _ h
  refine answers_obeyed ?_
  split
  · split
    · refine ite_obeyed h (ite_obeyed (hselect _ _) ?_)
      split <;> exact ite_obeyed (hselect _ _) h
    · exact h
  · exact h

theorem execAcqTimeout_obeys (w : When) {s : State} (h : s.gen.LatchObeyed) : AnswersObeyed (execAcqTimeout w s) :=
  answers_obeyed (ite_obeyed (ite_obeyed h (endP5_obeys _ (h.of_eq (by simp [when_gen])))) h)

theorem execHoldoverLimit_obeys (w : When) {s : State} (h : s.gen.LatchObeyed) : AnswersObeyed (execHoldoverLimit w s) :=
  answers_obeyed (checkHoldover_obeys _ h)

/-! ### Fault sources (R337 to R340) -/

/-- A restart is asked for; the phase stays. -/
theorem requestRestart_obeys (cold : Bool) (entry due : Nat) (atH : Bool) : ObeysLatch (requestRestart cold entry due atH) :=
  fun _ h => h

theorem offPrimary_obeys (i : Nat) : ObeysLatch (offPrimary i) := fun s h =>
  ite_obeyed ((requestRestart_obeys false 3 s.aon false s h).of_eq (by simp)) h

theorem leftPrimary_obeys : ObeysLatch leftPrimary :=
  obeysLatch_foldl (fun i s h => ite_obeyed (offPrimary_obeys i s h) h) forcing

theorem forceSource_obeys (i : Nat) : ObeysLatch (forceSource i) := fun _ h =>
  ite_obeyed (h.of_eq (relinquish_gen _ _)) (ite_obeyed (requestRestart_obeys _ _ _ _ _ (h.of_eq (by simp))) (h.of_eq (by simp)))

theorem becomeSevere_obeys (i : Nat) (d : Digests) : ObeysLatch (becomeSevere i d) := fun _ h =>
  ite_obeyed (ite_obeyed (forceSource_obeys i _ (h.of_eq (by simp))) (offPrimary_obeys i _ (h.of_eq (by simp)))) (h.of_eq (by simp))

theorem severeWith_obeys (i : Nat) (d : Digests) : ObeysLatch (severeWith i d) := fun _ h =>
  severeWith_keeps (P := fun t => t.gen.LatchObeyed) i d h fun t j ht => becomeSevere_obeys j d t ht

theorem execSourceSevere_obeys (w : When) (source : Fin 48) (d : Digests) (e : UnitErrors) {s : State} (h : s.gen.LatchObeyed) :
    AnswersObeyed (execSourceSevere w source d e s) := by
  refine answers_obeyed (ite_obeyed (severeWith_obeys _ d _ ?_) ?_) <;> exact h.of_eq (unitErrors_gen _ _ _)

/-! ### Restarts of the tasks (R219, R394) -/

theorem restartCold_obeys (reason : Nat) : ObeysLatch (restartCold reason) := fun _ h =>
  h.congr (by simp [restartCold, foldl_gen]) (by simp [restartCold, foldl_gen])

theorem restartWarm_obeys (img : RetImage) : ObeysLatch (restartWarm img) := fun _ h =>
  h.congr (by simp [restartWarm, foldl_gen]) (by simp [restartWarm, foldl_gen])

theorem restartFromKeeper_obeys : ObeysLatch restartFromKeeper := by
  intro s h
  unfold restartFromKeeper
  dsimp only
  split
  · exact restartWarm_obeys _ s h
  · exact restartCold_obeys _ s h

/-! ### Roles (R263, R268, R271 to R275) -/

/-- A role begins P7; a module left without one stays where it is. -/
theorem setRole_obeys (new cause : Nat) : ObeysLatch (setRole new cause) := by
  intro s h
  refine ite_obeyed h ?_
  simp only [when_gen (raise_gen _ _), raise_gen, ledger_gen]
  exact ite_obeyed (latchObeyed_of_phase (show 7 ≠ 6 by decide)) (ite_obeyed (h.congr rfl rfl) h)

theorem enterSync_obeys : ObeysLatch enterSync := fun _ h =>
  ite_obeyed (h.congr (by simp [foldl_gen]) (by simp [foldl_gen])) (h.of_eq (by simp [foldl_gen]))

theorem syncDone_obeys : ObeysLatch syncDone := fun s h => ite_obeyed (setRole_obeys 3 10 s h) h

theorem copyTaken_obeys (m : CopyMsg) : ObeysLatch (copyTaken m) := by
  intro s h
  refine ite_obeyed h (ite_obeyed (h.of_eq (copyDrop_gen _ _)) ?_)
  refine ite_obeyed (ite_obeyed (syncDone_obeys _ ?_) ?_) (ite_obeyed (syncDone_obeys _ ?_) ?_) <;>
  exact h.of_eq (by simp)

theorem primaryFromP6_obeys : ObeysLatch primaryFromP6 := fun s h =>
  ite_obeyed (restartFromKeeper_obeys _ ((setRole_obeys 1 9 _ (h.of_eq (startEpoch_gen s))).of_eq (primaryCommon_gen _))) h

theorem takeOver_obeys (k : Takeover) : ObeysLatch (takeOver k) := by
  intro s h
  unfold takeOver
  simp only [drainPorts_gen, maybeFixA_gen, startRound_gen, primaryCommon_gen, modWvl_gen, startTask_gen, applyLocal_gen,
    foldl_gen, implies_true]
  refine setRole_obeys 1 k.cause _ ?_
  refine h.of_eq ((foldl_gen (fun _ _ => modTask_gen _ _ _) _ _).trans ((foldl_gen (fun t a => takeTask_gen a t) _ _).trans ?_))
  exact ite_gen rfl (loadEpoch_gen s)

theorem leavePrimary_obeys (cause : Nat) : ObeysLatch (leavePrimary cause) := by
  intro s h
  have hrole := setRole_obeys 2 cause _ (h.of_eq (dropHandover_gen s))
  unfold leavePrimary
  refine leftPrimary_obeys _ (enterSync_obeys _ ?_)
  refine hrole.of_eq ?_
  simp [apply_ite State.gen]

theorem mismatch_obeys (cause : Nat) : ObeysLatch (mismatch cause) := fun _ h =>
  setRole_obeys 5 _ _ (h.of_eq (ite_gen rfl (ledger_gen _ _ _ _)))

theorem join_obeys : ObeysLatch join := fun s h =>
  ite_obeyed (mismatch_obeys _ s h) (syncDone_obeys _ (enterSync_obeys _ (setRole_obeys 2 _ _ h)))

theorem ownSideFrame_obeys : ObeysLatch ownSideFrame := fun _ h =>
  ite_obeyed (ite_obeyed (mismatch_obeys 2 _ h) h) (ite_obeyed h (h.of_eq (ledger_gen _ _ _ _)))

/-- A frame of the link obeys the latch where its meaning does. -/
theorem linkIn_obeys (hdr : LinkHdr) {f : State → State} (hf : ObeysLatch f) : ObeysLatch (linkIn hdr f) := fun s h =>
  ite_obeyed h (ite_obeyed (ownSideFrame_obeys s h) (hf _ (h.of_eq (frameSeen_gen hdr s))))

theorem heartbeatByRole_obeys (hb : Heartbeat) (before : Nat) : ObeysLatch (heartbeatByRole hb before) := by
  intro s h
  have hjoin := join_obeys s h
  unfold heartbeatByRole
  split
  · exact ite_obeyed h (ite_obeyed hjoin (ite_obeyed (ite_obeyed (primaryFromP6_obeys s h) hjoin) h))
  · exact h.of_eq (primaryHeartbeat_gen hb before s)
  · exact ite_obeyed (h.of_eq (raiseReserve_gen _ s)) h
  · exact ite_obeyed hjoin h
  · exact ite_obeyed hjoin h
  · exact h

theorem partnerLost_obeys : ObeysLatch partnerLost := by
  intro s h
  have hnoted := h
  unfold partnerLost
  dsimp only
  split
  · exact h.of_eq (by simp)
  · exact setRole_obeys 4 12 _ (h.of_eq (by simp))
  · exact h.of_eq (by simp)
  · exact h.of_eq (by simp)

theorem restartAtH_obeys (now : Bool) : ObeysLatch (restartAtH now) := fun _ h => h

/-! ### The commands of the pair link -/

theorem execHeartbeatReceived_obeys (w : When) (hb : Heartbeat) {s : State} (h : s.gen.LatchObeyed) :
    AnswersObeyed (execHeartbeatReceived w hb s) :=
  answers_obeyed (linkIn_obeys hb.hdr (fun t ht => heartbeatByRole_obeys hb _ _ (ht.of_eq (by simp))) _ h)

theorem execLinkFrameDiscard_obeys (w : When) (lane : Fin 4) (e : LinkErr) {s : State} (h : s.gen.LatchObeyed) :
    AnswersObeyed (execLinkFrameDiscard w lane e s) := by
  refine answers_obeyed (ite_obeyed h ?_)
  split
  · exact ownSideFrame_obeys _ h
  · exact h
  · exact h

theorem execHeartbeatMiss_obeys (w : When) {s : State} (h : s.gen.LatchObeyed) : AnswersObeyed (execHeartbeatMiss w s) :=
  answers_obeyed (ite_obeyed (ite_obeyed (partnerLost_obeys _ h) h) h)

theorem execCopyReceived_obeys (w : When) (hdr : LinkHdr) (c : CopyMsg) {s : State} (h : s.gen.LatchObeyed) :
    AnswersObeyed (execCopyReceived w hdr c s) :=
  answers_obeyed (linkIn_obeys hdr (copyTaken_obeys c) _ h)

theorem execReseedReceived_obeys (w : When) (hdr : LinkHdr) (m : ReseedMsg) {s : State} (h : s.gen.LatchObeyed) :
    AnswersObeyed (execReseedReceived w hdr m s) :=
  answers_obeyed (linkIn_obeys hdr (fun t ht => ht.of_eq (reseedTaken_gen m t)) _ h)

theorem execRelinquishReceived_obeys (w : When) (hdr : LinkHdr) (hstrobe : Nat) {s : State} (h : s.gen.LatchObeyed) :
    AnswersObeyed (execRelinquishReceived w hdr hstrobe s) :=
  answers_obeyed (linkIn_obeys hdr (fun t ht => ht.of_eq (prepareTake_gen _ _ t)) _ h)

theorem execHandoverReceived_obeys (w : When) (hdr : LinkHdr) (m : HandoverMsg) {s : State} (h : s.gen.LatchObeyed) :
    AnswersObeyed (execHandoverReceived w hdr m s) :=
  answers_obeyed (linkIn_obeys hdr (fun _ ht => ite_obeyed (ht.of_eq (by simp)) ht) _ h)

theorem execHandoverAckReceived_obeys (w : When) (hdr : LinkHdr) (hstrobe : Nat) {s : State} (h : s.gen.LatchObeyed) :
    AnswersObeyed (execHandoverAckReceived w hdr hstrobe s) := by
  refine answers_obeyed (linkIn_obeys hdr (fun t ht => ?_) _ h)
  split
  · exact ite_obeyed ht ht
  · exact ht

theorem execHandoverStrobe_obeys (w : When) {s : State} (h : s.gen.LatchObeyed) : AnswersObeyed (execHandoverStrobe w s) := by
  unfold execHandoverStrobe
  dsimp only
  split
  · refine ite_answers (ite_answers (answers_obeyed ?_) (answers_obeyed (restartAtH_obeys false _ ?_))) (answers_obeyed h)
    · refine restartAtH_obeys true _ (GenState.LatchObeyed.of_eq (leavePrimary_obeys _ _ ?_) (swapAtChange_gen _))
      exact h.of_eq (by simp [when_gen])
    · exact h.of_eq (by simp)
  · exact answers_obeyed h

theorem execYieldToPartner_obeys (w : When) {s : State} (h : s.gen.LatchObeyed) : AnswersObeyed (execYieldToPartner w s) :=
  have hleft := (leavePrimary_obeys 8 (s.at w) h).of_eq (swapAtChange_gen _)
  answers_obeyed (ite_obeyed (restartAtH_obeys true _ hleft) h)

theorem execTakeover_obeys (w : When) {s : State} (h : s.gen.LatchObeyed) : AnswersObeyed (execTakeover w s) := by
  unfold execTakeover
  dsimp only
  split
  · exact answers_obeyed (ite_obeyed (takeOver_obeys _ _ h) h)
  · exact answers_obeyed h

/-- A message of a session obeys the latch where its meaning does. -/
theorem withSession_obeys (i : Fin 8) (ty r : Nat) (boot : Bool) {f : State → State} (hf : ObeysLatch f) :
    ObeysLatch (withSession i ty r boot f) := by
  intro s h
  unfold withSession
  split
  · exact h
  · refine ite_obeyed h (ite_obeyed ?_ (ite_obeyed ?_ (ite_obeyed ?_ (hf _ ?_)))) <;> exact h.of_eq (by simp)

theorem execPairResync_obeys (w : When) (ses : Fin 8) {s : State} (h : s.gen.LatchObeyed) : AnswersObeyed (execPairResync w ses s) := by
  refine answers_obeyed (withSession_obeys _ _ _ _ (fun t ht => ?_) _ h)
  have hrefuse := fun code => ht.of_eq (pairRefuse_gen ses code t)
  refine ite_obeyed (hrefuse 1) (ite_obeyed (hrefuse 2) (ite_obeyed (hrefuse 3) ?_))
  exact GenState.LatchObeyed.of_eq (enterSync_obeys _ (setRole_obeys 2 11 _ (ht.of_eq (pairAccept_gen 3 t)))) (reply_gen _ _ _ _ _)

theorem execPairForcePrimary_obeys (w : When) (ses : Fin 8) {s : State} (h : s.gen.LatchObeyed) :
    AnswersObeyed (execPairForcePrimary w ses s) := by
  refine answers_obeyed (withSession_obeys _ _ _ _ (fun t ht => ite_obeyed (ht.of_eq (pairRefuse_gen _ _ _)) ?_) _ h)
  refine GenState.LatchObeyed.of_eq (restartCold_obeys 6 _ ?_) (reply_gen _ _ _ _ _)
  have hrole := setRole_obeys 1 7 (startEpoch (pairAccept 5 t)) (ht.of_eq (by simp))
  exact hrole.of_eq ((primaryCommon_gen _).trans (modWvl_gen _ _))

theorem execPairNegotiation_obeys (w : When) {s : State} (h : s.gen.LatchObeyed) : AnswersObeyed (execPairNegotiation w s) :=
  answers_obeyed (ite_obeyed (ite_obeyed (mismatch_obeys 1 _ h) (ite_obeyed (primaryFromP6_obeys _ h) h)) h)

theorem execNegotiateTimeout_obeys (w : When) {s : State} (h : s.gen.LatchObeyed) : AnswersObeyed (execNegotiateTimeout w s) :=
  answers_obeyed (ite_obeyed (primaryFromP6_obeys _ h) h)

theorem execPartnerCommitReceived_obeys (w : When) (hdr : LinkHdr) (gen digest : Nat) {s : State} (h : s.gen.LatchObeyed) :
    AnswersObeyed (execPartnerCommitReceived w hdr gen digest s) :=
  answers_obeyed (linkIn_obeys hdr (fun _ ht => ite_obeyed (ht.of_eq (partnerCommit_gen _ _ _)) ht) _ h)

theorem execActivationPeriodReceived_obeys (w : When) (hdr : LinkHdr) (a : Nat) {s : State} (h : s.gen.LatchObeyed) :
    AnswersObeyed (execActivationPeriodReceived w hdr a s) := by
  refine answers_obeyed (linkIn_obeys hdr (fun t ht => ite_obeyed ht ?_) _ h)
  refine ite_obeyed (GenState.LatchObeyed.of_eq ?_ (endStore_gen _)) ht
  exact ht

/-! ### The keeper (R311 to R315, R393) -/

/-- The check of P3 begins P4, or holds the module where it is. -/
theorem checkKeeper_obeys : ObeysLatch checkKeeper := by
  intro s h
  refine ite_obeyed (latchObeyed_of_phase (show 4 ≠ 6 by decide)) ?_
  exact h.congr (by simp [when_gen]) (by simp [when_gen])

theorem commissionAct_obeys (who : Agent) : ObeysLatch (commissionAct who) := fun _ h =>
  ite_obeyed (checkKeeper_obeys _ (h.of_eq (by simp [when_gen]))) h

/-- Recommissioning asks for a restart; the phase stays. -/
theorem recommissionAct_obeys (who : Agent) : ObeysLatch (recommissionAct who) := fun _ h =>
  ite_obeyed (ite_obeyed (h.of_eq (by simp)) (ite_obeyed (h.congr (by simp) (by simp)) h)) h

theorem execBoltClose_obeys (w : When) {s : State} (h : s.gen.LatchObeyed) : AnswersObeyed (execBoltClose w s) := by
  refine ite_answers (answers_obeyed h) (answers_obeyed ?_)
  have hreturns : ∀ t : State, t.gen.LatchObeyed → (when (decide (t.gen.phase = 4) && !t.inService)
      (fun t => { t with gen := { t.gen with phase := 3, held := true } }) t).gen.LatchObeyed := fun t ht =>
    obeysLatch_when (fun _ _ => latchObeyed_of_phase (show 3 ≠ 6 by decide)) _ t ht
  refine ite_obeyed ?_ ?_ <;>
  exact hreturns _ (h.of_eq (by simp [when_gen]))

theorem execKeeperRemove_obeys (w : When) {s : State} (h : s.gen.LatchObeyed) : AnswersObeyed (execKeeperRemove w s) := by
  refine ite_answers (answers_obeyed (ite_obeyed ?_ ?_)) (answers_obeyed h)
  · exact latchObeyed_of_phase (by simp)
  · exact h.of_eq (by simp)

theorem execKeeperCheck_obeys (w : When) {s : State} (h : s.gen.LatchObeyed) : AnswersObeyed (execKeeperCheck w s) :=
  ite_answers (answers_obeyed h) (answers_obeyed (checkKeeper_obeys _ (h.of_eq (by simp [when_gen]))))

/-! ### Power, boot and self-test (R233, R249, R367, R389) -/

theorem endP0_obeys : ObeysLatch endP0 := fun _ h => ite_obeyed (latchObeyed_of_phase (show 1 ≠ 6 by decide)) h

theorem startSlot_obeyed (n : Nat) (trial : Bool) (s : State) : (startSlot n trial s).gen.LatchObeyed :=
  latchObeyed_of_phase (show 2 ≠ 6 by decide)

theorem execSensorConversion_obeys (w : When) (sensor : Fin 12) (temp : Int) {s : State} (h : s.gen.LatchObeyed) :
    AnswersObeyed (execSensorConversion w sensor temp s) := by
  have hrevised : ∀ c t f, (when c (holdoverRevise t) (modPtm f (s.at w))).gen.LatchObeyed := fun c t f =>
    obeysLatch_when (holdoverRevise_obeys t) c _ h
  refine answers_obeyed (ite_obeyed ?_ (GenState.LatchObeyed.of_eq ?_ (modPtm_gen _ _))) <;>
  exact ite_obeyed (hrevised _ _ _) (hrevised _ _ _)

theorem execFeedStateChange_obeys (w : When) (mv1 mv2 : Nat) (carry : Fin 3) {s : State} (h : s.gen.LatchObeyed) :
    AnswersObeyed (execFeedStateChange w mv1 mv2 carry s) :=
  answers_obeyed (endP0_obeys _ (h.of_eq (by simp)))

theorem execFinalRoundComplete_obeys (w : When) (complete : Bool) (stored : Nat) {s : State} (h : s.gen.LatchObeyed) :
    AnswersObeyed (execFinalRoundComplete w complete stored s) :=
  answers_obeyed (ite_obeyed (h.congr (by simp [powerGone]) (by simp [powerGone])) h)

theorem execBankTestComplete_obeys (w : When) (ride hold : Nat) {s : State} (h : s.gen.LatchObeyed) :
    AnswersObeyed (execBankTestComplete w ride hold s) :=
  ite_answers (answers_obeyed h) (answers_obeyed (endP0_obeys _ (h.of_eq (by simp))))

/-- A slot of P1 is started, in P2, or the module is held. -/
theorem execBootRomSelect_obeys (w : When) {s : State} (h : s.gen.LatchObeyed) : AnswersObeyed (execBootRomSelect w s) := by
  have htrial : ∀ (c : Bool) (n cause : Nat) (t : State), t.gen.LatchObeyed → (if c then failSlot n cause t else t).gen.LatchObeyed :=
    fun _ n cause t ht => ite_obeyed (ht.of_eq (failSlot_gen n cause t)) ht
  refine ite_answers (answers_obeyed h) (ite_answers (answers_obeyed (startSlot_obeyed _ _ _)) ?_)
  refine ite_answers (answers_obeyed (startSlot_obeyed _ _ _)) (answers_obeyed ?_)
  exact (htrial _ _ 1 _ (htrial s.upd.trial s.upd.active 0 (s.at w) h)).congr rfl rfl

theorem execComparatorSelftest_obeys (w : When) (fail : Option SelfTestFail) {s : State} (h : s.gen.LatchObeyed) :
    AnswersObeyed (execComparatorSelftest w fail s) := by
  refine ite_answers ?_ (answers_obeyed h)
  split
  · exact answers_obeyed h
  · exact answers_obeyed (h.congr (by simp) (by simp))

theorem execMemClearDone_obeys (w : When) {s : State} (h : s.gen.LatchObeyed) : AnswersObeyed (execMemClearDone w s) :=
  answers_obeyed (ite_obeyed (ite_obeyed (latchObeyed_of_phase (show 3 ≠ 6 by decide)) h) h)

/-! ### A generation is taken (R390) -/

theorem takeGeneration_obeys (g : Generation) (b : List Byte) : ObeysLatch (takeGeneration g b) := by
  intro s h
  have hp5 : (takeGeneration g b s).gen.LatchObeyed := ite_obeyed (endP5_obeys _ ?_) ?_
  · exact hp5
  all_goals exact latchObeyed_of_phase (by simp)

theorem slotsChosen_obeys (k lvl : Nat) : ObeysLatch (slotsChosen k lvl) := fun _ h =>
  h.congr (by simp [slotsChosen, apply_ite State.gen]) (by simp [slotsChosen, apply_ite State.gen])

theorem heldInP4_obeys : ObeysLatch heldInP4 := fun _ h =>
  h.congr (by simp [heldInP4, apply_ite State.gen, when_gen]) (by simp [heldInP4, apply_ite State.gen, when_gen])

theorem tryStored_obeys (l : List Nat) : ObeysLatch (tryStored l) := by
  induction l with
  | nil => exact heldInP4_obeys
  | cons k l ih =>
    intro s h
    unfold tryStored
    split
    · exact ih s h
    · split
      · exact takeGeneration_obeys _ _ _ (slotsChosen_obeys _ _ s h)
      · exact ih _ (h.of_eq (ledger_gen _ _ _ _))

theorem execGenerationLoad_obeys (w : When) {s : State} (h : s.gen.LatchObeyed) : AnswersObeyed (execGenerationLoad w s) :=
  answers_obeyed (ite_obeyed h (tryStored_obeys _ _ h))

/-! ### Field I/O, sampled values and the strobe -/

theorem execDoMismatch_obeys (w : When) (ch : Fin 8) (present : Bool) {s : State} (h : s.gen.LatchObeyed) :
    AnswersObeyed (execDoMismatch w ch present s) :=
  answers_obeyed (ite_obeyed h (h.of_eq (by simp)))

theorem execSlotEmit_obeys (w : When) {s : State} (h : s.gen.LatchObeyed) : AnswersObeyed (execSlotEmit w s) :=
  ite_answers (answers_obeyed h) (answers_obeyed (h.of_eq (by simp)))

/-- Of what a strobe does, only the end of the grace period of a lost source can touch the start. -/
theorem execPeriodStrobe_obeys (w : When) (m : Measured) {s : State} (h : s.gen.LatchObeyed) :
    AnswersObeyed (execPeriodStrobe w m s) := by
  refine ite_answers (answers_obeyed h) (answers_obeyed ?_)
  simp only [pumpCopies_gen, drainBulk_gen, drainShp_gen, strobeRound_gen, pruneStations_gen, finishSwaps_gen, strobePorts_gen,
    reschedule_gen, strobeTasks_gen, grantPorts_gen, strobeTriad_gen, strobePair_gen, swapUnslotted_gen, pheHeld_gen,
    dropUnsent_gen, resumePorts_gen]
  refine graceEnd_obeys _ (h.of_eq ?_)
  simp

/-! ### A start (R388, R412) -/

theorem survives_phase (s : State) : (survives s).gen.phase = 0 := rfl

theorem execPowerApplied_obeys (w : When) (feed1 feed2 : Nat) (coding : Fin 4) (latch powerGood : Bool) {s : State}
    (h : s.gen.LatchObeyed) :
    AnswersObeyed (execPowerApplied w feed1 feed2 coding latch powerGood s) :=
  ite_answers (answers_obeyed (latchObeyed_of_phase (by simp [survives_phase]))) (answers_obeyed h)

/-- A start begins P0. -/
theorem startAnew_phase (w : When) (entry : Nat) (cold : Bool) (s : State) : (startAnew w entry cold s).gen.phase = 0 := rfl

theorem startAnew_obeyed (w : When) (entry : Nat) (cold : Bool) (s : State) : (startAnew w entry cold s).gen.LatchObeyed :=
  latchObeyed_of_phase (by rw [startAnew_phase]; decide)

theorem execOvertempRecover_obeys (w : When) {s : State} (h : s.gen.LatchObeyed) : AnswersObeyed (execOvertempRecover w s) :=
  ite_answers (answers_obeyed (startAnew_obeyed w 0 false s)) (answers_obeyed h)

theorem execRestartExecute_obeys (w : When) (stored : Nat) {s : State} (h : s.gen.LatchObeyed) :
    AnswersObeyed (execRestartExecute w stored s) := by
  unfold execRestartExecute
  split
  · exact ite_answers (answers_obeyed (startAnew_obeyed _ _ _ _)) (answers_obeyed h)
  · exact answers_obeyed h

theorem execLatchClose_obeys (w : When) (s : State) : AnswersObeyed (execLatchClose w s) := by
  have hclosed : ({ s.gen with latchOpen := false } : GenState).LatchObeyed := by simp [GenState.LatchObeyed]
  exact answers_obeyed (ite_obeyed (endP5_obeys _ hclosed) hclosed)

/-! ### Writes of registers (R295, R296, R396) -/

theorem restartAct_obeys (who : Agent) (cold : Bool) : ObeysLatch (restartAct who cold) := fun _ h =>
  ite_obeyed h (ite_obeyed (h.congr (by simp [when_gen, requestRestart]) (by simp [when_gen, requestRestart])) h)

theorem checkAccess_obeyed {ident space a n : Nat} {write : Bool} {r : Option Nat} {s t : State}
    (hc : checkAccess ident space a n write s = (r, t)) (h : s.gen.LatchObeyed) : t.gen.LatchObeyed := by
  have hgen := checkAccess_gen ident space a n write s
  rw [hc] at hgen
  exact h.of_eq hgen

/-- A command that is a register write obeys the latch where the register's rule does. -/
theorem asWrite_obeys (who : Agent) (addr : Nat) {f : State → State} (hf : ObeysLatch f) : ObeysLatch (asWrite who addr f) := by
  intro s h
  refine ite_obeyed h (ite_obeyed h ?_)
  split
  next hc => exact hf _ (checkAccess_obeyed hc h)
  next hc => exact (checkAccess_obeyed hc h).of_eq (emit_gen _ _)

theorem execStepAccept_obeys (w : When) (who : Agent) {s : State} (h : s.gen.LatchObeyed) : AnswersObeyed (execStepAccept w who s) :=
  answers_obeyed (asWrite_obeys who _ (stepAcceptAct_obeys who) _ h)

theorem execTmbSrcWrite_obeys (w : When) (who : Agent) (v : Word) {s : State} (h : s.gen.LatchObeyed) :
    AnswersObeyed (execTmbSrcWrite w who v s) :=
  answers_obeyed (asWrite_obeys who _ (tmbSrcAct_obeys who v) _ h)

theorem execCommission_obeys (w : When) (who : Agent) {s : State} (h : s.gen.LatchObeyed) : AnswersObeyed (execCommission w who s) :=
  answers_obeyed (asWrite_obeys who _ (commissionAct_obeys who) _ h)

theorem execRecommission_obeys (w : When) (who : Agent) {s : State} (h : s.gen.LatchObeyed) :
    AnswersObeyed (execRecommission w who s) :=
  answers_obeyed (asWrite_obeys who _ (recommissionAct_obeys who) _ h)

theorem execRestartWarm_obeys (w : When) (who : Agent) {s : State} (h : s.gen.LatchObeyed) : AnswersObeyed (execRestartWarm w who s) :=
  answers_obeyed (asWrite_obeys who _ (restartAct_obeys who false) _ h)

theorem execRestartCold_obeys (w : When) (who : Agent) {s : State} (h : s.gen.LatchObeyed) : AnswersObeyed (execRestartCold w who s) :=
  answers_obeyed (asWrite_obeys who _ (restartAct_obeys who true) _ h)

/-! What a register write does keeps the start out of P6 where the register's rule does. -/

theorem fwWrite_obeyed (who : Agent) {t s : State} (ht : t.gen.LatchObeyed) (h : s.gen.LatchObeyed) :
    (fwWrite who t s).2.gen.LatchObeyed := by
  unfold fwWrite
  split
  · exact ht
  · exact h

theorem fwOrHost_obeyed (r : Nat) (who : Agent) {t s : State} (ht : t.gen.LatchObeyed) (h : s.gen.LatchObeyed) :
    (fwOrHost r who t s).2.gen.LatchObeyed := by
  unfold fwOrHost
  split
  · exact ht
  · split <;> exact h

theorem engineerWrite_obeyed (who : Agent) {t s : State} (ht : t.gen.LatchObeyed) (h : s.gen.LatchObeyed) :
    (engineerWrite who t s).2.gen.LatchObeyed := by
  unfold engineerWrite
  split
  · exact ht
  · split <;> exact h

theorem genRestartWrite_obeyed (who : Agent) (v : Nat) {s : State} (h : s.gen.LatchObeyed) :
    (genRestartWrite who v s).2.gen.LatchObeyed := by
  unfold genRestartWrite
  dsimp only
  split
  · exact fwOrHost_obeyed 3 who (restartAct_obeys who _ s h) h
  · exact h

theorem tmbWrite_obeyed (who : Agent) (off : Nat) (v : Word) {s : State} (h : s.gen.LatchObeyed) :
    (tmbWrite who off v s).2.gen.LatchObeyed := by
  unfold tmbWrite
  dsimp only
  split
  · exact obeysLatch_when (stepAcceptAct_obeys who) _ _ (h.of_eq (when_gen (tmbSnapAct_gen who) _ s))
  · exact h
  · exact fwWrite_obeyed who (tmbSrcAct_obeys who v s h) h
  · exact fwWrite_obeyed who (h.of_eq (freqTrimAct_gen who v s)) h
  · exact fwWrite_obeyed who (h.of_eq (phaseStepAct_gen who v s)) h
  · exact h

theorem kprCtrlAct_obeys (who : Agent) (v : Nat) : ObeysLatch (kprCtrlAct who v) := fun s h =>
  obeysLatch_when (recommissionAct_obeys who) _ _ (obeysLatch_when (commissionAct_obeys who) _ s h)

theorem kprWrite_obeyed (who : Agent) (off v : Nat) {s : State} (h : s.gen.LatchObeyed) : (kprWrite who off v s).2.gen.LatchObeyed := by
  have hctrl := kprCtrlAct_obeys who v s h
  unfold kprWrite
  dsimp only
  split
  · exact h
  · exact h
  · split
    · exact hctrl
    · exact engineerWrite_obeyed who hctrl h
  · exact engineerWrite_obeyed who h h
  · exact engineerWrite_obeyed who h h
  · split
    · exact engineerWrite_obeyed who h h
    · exact h

/-- Of the registers, those of three blocks reach the start: the restart, the time base and the keeper. -/
theorem writeReg_obeyed (who : Agent) (d : Digests) (a : Nat) (v : Word) {s : State} (h : s.gen.LatchObeyed) :
    (writeReg who d a v s).2.gen.LatchObeyed := by
  unfold writeReg
  dsimp only
  split
  · split
    · exact genRestartWrite_obeyed who _ h
    · exact h
  · split
    · exact h.of_eq ((pgWrite_moves _ _ _ _ Covers.rfl (.refl _ s)).gen_eq rfl)
    · exact tmbWrite_obeyed who _ _ h
  · exact h.of_eq ((prtWrite_moves _ _ _ _ Covers.rfl (.refl _ s)).gen_eq rfl)
  · exact h.of_eq ((sviWrite_moves _ _ _ Covers.rfl (.refl _ s)).gen_eq rfl)
  · exact h.of_eq ((pheWrite_moves _ _ _ Covers.rfl (.refl _ s)).gen_eq rfl)
  · exact h.of_eq ((wceWrite_moves _ _ _ Covers.rfl (.refl _ s)).gen_eq rfl)
  · exact h.of_eq ((seqWrite_moves _ _ _ Covers.rfl (.refl _ s)).gen_eq rfl)
  · exact h.of_eq ((trdWrite_moves _ _ _ _ Covers.rfl (.refl _ s)).gen_eq rfl)
  · exact h.of_eq ((bgtWrite_moves _ _ _ Covers.rfl (.refl _ s)).gen_eq rfl)
  · exact h.of_eq ((ptmWrite_moves _ _ Covers.rfl (.refl _ s)).gen_eq rfl)
  · exact h.of_eq ((wvlWrite_moves _ _ _ Covers.rfl (.refl _ s)).gen_eq rfl)
  · exact h.of_eq ((memWrite_moves _ _ _ Covers.rfl (.refl _ s)).gen_eq rfl)
  · exact h.of_eq ((wrdWrite_moves _ _ _ Covers.rfl (.refl _ s)).gen_eq rfl)
  · exact h.of_eq ((fcrWrite_moves _ _ _ Covers.rfl (.refl _ s)).gen_eq rfl)
  · exact h.of_eq ((lgrWrite_moves _ _ _ Covers.rfl (.refl _ s)).gen_eq rfl)
  · exact kprWrite_obeyed who _ _ h
  · exact h.of_eq ((bslWrite_moves _ _ _ Covers.rfl (.refl _ s)).gen_eq rfl)
  · exact h.of_eq ((updWrite_moves _ _ _ Covers.rfl (.refl _ s)).gen_eq rfl)
  · exact h.of_eq ((fioWrite_moves _ _ _ Covers.rfl (.refl _ s)).gen_eq rfl)
  · exact h.of_eq ((hifWrite_moves _ _ _ Covers.rfl (.refl _ s)).gen_eq rfl)
  · exact h.of_eq ((evtWrite_moves _ _ _ Covers.rfl (.refl _ s)).gen_eq rfl)
  · exact h

theorem tryWrite_obeyed (who : Agent) (d : Digests) (a : Nat) (v : Word) {s : State} (h : s.gen.LatchObeyed) :
    (tryWrite who d a v s).2.gen.LatchObeyed := by
  unfold tryWrite
  split
  next hc => exact checkAccess_obeyed hc h
  next hc => exact writeReg_obeyed who d a v (checkAccess_obeyed hc h)

theorem writeEntries_obeyed (ses : Fin 8) (d : Digests) (l : List (Nat × Word)) {s : State} (h : s.gen.LatchObeyed) :
    (writeEntries ses d l s).2.gen.LatchObeyed := by
  induction l generalizing s with
  | nil => exact h
  | cons e l ih =>
    obtain ⟨a, v⟩ := e
    have hfirst : (if s.sesBoot ses && !kprAddr a then (wRole, s) else tryWrite (.host ses) d a v s).2.gen.LatchObeyed := by
      split
      · exact h
      · exact tryWrite_obeyed _ d a v h
    unfold writeEntries
    generalize (if s.sesBoot ses && !kprAddr a then (wRole, s) else tryWrite (.host ses) d a v s) = p at hfirst ⊢
    have hcounted := hfirst.of_eq (countRole_gen p.1.1 p.2)
    dsimp only
    split
    · exact ih hcounted
    · exact hcounted

theorem execRegisterWrite_obeys (w : When) (who : Agent) (addr : Nat) (v : Word) (d : Digests) {s : State} (h : s.gen.LatchObeyed) :
    AnswersObeyed (execRegisterWrite w who addr v d s) :=
  ite_answers (answers_obeyed h) (ite_answers (answers_obeyed h) (answers_obeyed
    (GenState.LatchObeyed.of_eq (tryWrite_obeyed who d addr v (s := s.at w) h) (answerWrite_gen _ _ _ _))))

theorem execWrite_obeys (w : When) (ses : Fin 8) (entries : List (Nat × Word)) {s : State} (h : s.gen.LatchObeyed) :
    AnswersObeyed (execWrite w ses entries s) := by
  refine answers_obeyed (withSession_obeys _ _ _ _ (fun t ht => ite_obeyed (ht.of_eq (reply_gen _ _ _ _ _)) ?_) _ h)
  exact (writeEntries_obeyed ses {} entries ht).of_eq (answer_gen _ _ _ _ _)

theorem regTx_obeys (tx : Tx) : ObeysLatch (regTx tx) := fun _ h =>
  ite_obeyed (GenState.LatchObeyed.of_eq (writeReg_obeyed _ _ _ _ h) (answerWrite_gen _ _ _ _)) (h.of_eq (by simp))

theorem execMasterTransaction_obeys (w : When) (tx : Tx) {s : State} (h : s.gen.LatchObeyed) :
    AnswersObeyed (execMasterTransaction w tx s) := by
  refine ite_answers (answers_obeyed h) ?_
  split
  next hc => exact answers_obeyed ((checkAccess_obeyed hc h).of_eq (respond_gen _ _ _ _))
  next hc =>
    have ht := checkAccess_obeyed hc h
    exact answers_obeyed (ite_obeyed (regTx_obeys tx _ ht) (ite_obeyed (ht.of_eq (memWriteTx_gen _ _)) (ht.of_eq (memReadTx_gen _ _))))

/-! ### The latch (R391, R398) -/

/-- The state with the hinge latch in the given position, at the instant of the command. -/
def State.latchSet (s : State) (w : When) (isOpen : Bool) : State := { s.at w with gen := { s.gen with latchOpen := isOpen } }

theorem latchSet_moves {P : List Part} (w : When) (isOpen : Bool) (s : State) (hP : Covers P [.time, .start]) :
    Moves P s (s.latchSet w isOpen) := by
  have hM := at_moves w (hP.trans rfl) (Moves.refl P s)
  refine ⟨hM.queue, hM.mem, hM.phase, hM.role, hM.mode, hM.servo, hM.keeper, fun p hp => ?_⟩
  have hsame := hM.same p hp
  cases p
  case start => exact absurd (hP.mem rfl) hp
  all_goals exact hsame

/-- The latch opened once more: nothing. -/
theorem exec_latchOpen_of_open (w : When) {s : State} (h : s.gen.latchOpen = true) : exec (.latchOpen w) s = .next (s.at w) :=
  if_pos h

/-- What opening the latch asks for (R398): a hand-over, or the record of a refused one. -/
theorem exec_latchOpen_of_closed (w : When) {s : State} (h : s.gen.latchOpen = false) : exec (.latchOpen w) s = .next
    (if !s.primary then s.latchSet w true
      else if s.canHandOver then requestHandover 5 none (s.latchSet w true)
      else if s.partnerStandby then s.latchSet w true
      else ledger 0x0A09 5 [] (s.latchSet w true)) :=
  if_neg (by simp [h])

theorem exec_latchClose (w : When) (s : State) : exec (.latchClose w) s =
    .next (if s.tmb.acqJudged then endP5 (s.latchSet w false) else s.latchSet w false) := rfl

theorem requestHandover_moves_unsent {P : List Part} {s0 s : State} (cause : Nat) (who : Option Nat)
    (hP : Covers P [.events, .pair, .sessions, .host]) (h : Moves P s0 s) : Moves P s0 (requestHandover cause who s) :=
  raise_moves _ _ (hP.trans rfl) (modWvl_moves (hP.mem rfl) (fun _ hrole => hrole) h)

@[simp] theorem requestHandover_wvl (cause : Nat) (who : Option Nat) (s : State) : (requestHandover cause who s).wvl =
    { s.wvl with handover := some { asked := s.islandTime linkIsland, cause := cause, reply := who } } :=
  raise_wvl _ _ _

/-- In P5 with the latch open the end of P5 is noted, and nothing else. -/
theorem endP5_of_open {s : State} (hphase : s.gen.phase = 5) (hopen : s.gen.latchOpen = true) :
    endP5 s = { s with tmb := { s.tmb with acqJudged := true } } := by
  unfold endP5
  rw [if_pos hphase]
  exact if_pos hopen

/-- In P5 with the latch closed the start goes on to P6, at this instant. -/
theorem endP5_of_closed {s : State} (hphase : s.gen.phase = 5) (hclosed : s.gen.latchOpen = false) :
    endP5 s = { s with
      tmb := { s.tmb with acqJudged := true }, gen := { s.gen with phase := 6 }, wvl := { s.wvl with p6Start := s.aon } } := by
  unfold endP5
  rw [if_pos hphase]
  exact if_neg (by simp [hclosed])

/-- Where ACQ_TIMEOUT is set already, it is set once more, and its event does not assert again. -/
theorem acqFlag_of_flagged {w : When} {s : State} (h : s.tmb.acqTimeout = true) : s.acqFlag w =
    hwSet 0x10004 6 none { s.acqCheck w with tmb := { s.tmb with acqChecked := true, acqTimeout := true } } := by
  unfold State.acqFlag
  rw [h]
  rfl

/-- P5 judged with the latch open: the time base notes it. -/
theorem judgedOpen_only {w : When} {s : State} (h : s.tmb.acqTimeout = true) :
    Only [.time, .events, .timebase] s { s.acqFlag w with tmb := { (s.acqFlag w).tmb with acqJudged := true } } := by
  rw [acqFlag_of_flagged h]
  refine ⟨rfl, fun p hp => ?_⟩
  cases p with
  | time => simp at hp
  | events => simp at hp
  | timebase => simp at hp
  | _ => simp [Part.Same, State.acqCheck]

/-! ### Every command -/

/-- What a command can do: what its footprint lists, and nothing else. -/
theorem exec_moves : ∀ (c : Instr) (s : State), Leads c.touches s (exec c s)
  | .powerApplied .., s => execPowerApplied_moves _ _ _ _ _ _ s
  | .bootRomSelect .., s => execBootRomSelect_moves _ s
  | .comparatorSelftest .., s => execComparatorSelftest_moves _ _ s
  | .memClear .., s => execMemClear_moves _ _ s
  | .memClearDone .., s => execMemClearDone_moves _ s
  | .keeperCheck .., s => execKeeperCheck_moves _ s
  | .generationLoad .., s => execGenerationLoad_moves _ s
  | .pairNegotiation .., s => execPairNegotiation_moves _ s
  | .negotiateTimeout .., s => execNegotiateTimeout_moves _ s
  | .periodStrobe .., s => execPeriodStrobe_moves _ _ s
  | .maskMiss .., s => execMaskMiss_moves _ s
  | .strobeLoss .., s => execStrobeLoss_moves _ _ s
  | .syncReceived .., s => execSyncReceived_moves _ _ s
  | .ptpAnnounceReceived .., s => execPtpAnnounceReceived_moves _ _ _ s
  | .ppsEdge .., s => execPpsEdge_moves _ _ _ s
  | .irigbFrame .., s => execIrigbFrame_moves _ _ s
  | .sourceLoss .., s => execSourceLoss_moves _ s
  | .sourceQualified .., s => execSourceQualified_moves _ _ _ s
  | .acqTimeout .., s => execAcqTimeout_moves _ s
  | .holdoverLimit .., s => execHoldoverLimit_moves _ s
  | .leapApply .., s => execLeapApply_moves _ s
  | .tmbSnap .., s => execTmbSnap_moves _ _ s
  | .stepAccept .., s => execStepAccept_moves _ _ s
  | .tmbFreqTrimWrite .., s => execTmbFreqTrimWrite_moves _ _ _ s
  | .tmbPhaseStepWrite .., s => execTmbPhaseStepWrite_moves _ _ _ s
  | .tmbSrcWrite .., s => execTmbSrcWrite_moves _ _ _ s
  | .pulseArm .., s => execPulseArm_moves _ _ _ s
  | .pulseDisarm .., s => execPulseDisarm_moves _ _ _ s
  | .pulseEdge .., s => execPulseEdge_moves _ _ s
  | .syncTransmit .., s => execSyncTransmit_moves _ _ _ _ s
  | .announceTransmit .., s => execAnnounceTransmit_moves _ _ s
  | .pdelayReqTransmit .., s => execPdelayReqTransmit_moves _ _ _ s
  | .pdelayReqReceived .., s => execPdelayReqReceived_moves _ _ _ _ s
  | .pdelayRespReceived .., s => execPdelayRespReceived_moves _ _ s
  | .portLinkChange .., s => execPortLinkChange_moves _ _ _ s
  | .laserOffWrite .., s => execLaserOffWrite_moves _ _ _ _ s
  | .replyReceived .., s => execReplyReceived_moves _ _ _ s
  | .helloReceived .., s => execHelloReceived_moves _ _ _ s
  | .resyncSend .., s => execResyncSend_moves _ _ _ s
  | .surgeFragmentReceived .., s => execSurgeFragmentReceived_moves _ _ _ s
  | .surgeWindowTimeout .., s => execSurgeWindowTimeout_moves _ _ _ _ s
  | .unknownFrame .., s => execUnknownFrame_moves _ _ _ s
  | .prpSupervision .., s => execPrpSupervision_moves _ _ s
  | .controlQueueError .., s => execControlQueueError_moves _ _ s
  | .dataQueueError .., s => execDataQueueError_moves _ _ _ s
  | .opticalModuleChange .., s => execOpticalModuleChange_moves _ _ _ _ _ _ s
  | .svFrameReceived .., s => execSvFrameReceived_moves _ _ _ s
  | .subscriptionLost .., s => execSubscriptionLost_moves _ _ s
  | .slotEmit .., s => execSlotEmit_moves _ s
  | .sviFrzReq .., s => execSviFrzReq_moves _ _ s
  | .sviFrzRelease .., s => execSviFrzRelease_moves _ _ _ s
  | .archiveFreeze .., s => execArchiveFreeze_moves _ _ _ _ _ _ s
  | .archiveRelease .., s => execArchiveRelease_moves _ _ _ s
  | .archiveReadRows .., s => execArchiveReadRows_moves _ _ _ s
  | .archiveReadMemory .., s => execArchiveReadMemory_moves _ _ _ _ _ s
  | .publicationFrameSend .., s => execPublicationFrameSend_moves _ _ _ s
  | .c37TcpConnect .., s => execC37TcpConnect_moves _ _ _ _ s
  | .c37TcpClose .., s => execC37TcpClose_moves _ _ _ s
  | .c37TxOff .., s => execC37TxOff_moves _ _ s
  | .c37TxOn .., s => execC37TxOn_moves _ _ s
  | .c37SendCfg2 .., s => execC37SendCfg2_moves _ _ s
  | .c37SendCfg3 .., s => execC37SendCfg3_moves _ _ s
  | .c37CommandIgnored .., s => execC37CommandIgnored_moves _ s
  | .wceWindowTake .., s => execWceWindowTake_moves _ s
  | .wceCollectExpiry .., s => execWceCollectExpiry_moves _ s
  | .wceResult .., s => execWceResult_moves _ s
  | .wceRecommit .., s => execWceRecommit_moves _ s
  | .taskFreeze .., s => execTaskFreeze_moves _ _ s
  | .taskStartSignal .., s => execTaskStartSignal_moves _ _ _ s
  | .seqCommit .., s => execSeqCommit_moves _ _ _ s
  | .commitComplete .., s => execCommitComplete_moves _ _ s
  | .retNow .., s => execRetNow_moves _ _ s
  | .forceSet .., s => execForceSet_moves _ _ _ _ s
  | .forceClear .., s => execForceClear_moves _ _ _ s
  | .forceRead .., s => execForceRead_moves _ _ _ s
  | .triadTransaction .., s => execTriadTransaction_moves _ _ _ _ _ s
  | .rejoinStartTimeout .., s => execRejoinStartTimeout_moves _ s
  | .tcmCopyComplete .., s => execTcmCopyComplete_moves _ s
  | .rejoinFinalStep .., s => execRejoinFinalStep_moves _ _ s
  | .split .., s => execSplit_moves _ _ s
  | .splitEnd .., s => execSplitEnd_moves _ _ _ s
  | .debugArm .., s => execDebugArm_moves _ _ _ s
  | .debugDetach .., s => execDebugDetach_moves _ _ s
  | .debugArmLapse .., s => execDebugArmLapse_moves _ s
  | .probeAttach .., s => execProbeAttach_moves _ _ _ s
  | .probeDetach .., s => execProbeDetach_moves _ s
  | .masterTransaction .., s => execMasterTransaction_moves _ _ s
  | .budgetExhausted .., s => execBudgetExhausted_moves _ _ _ _ s
  | .sensorConversion .., s => execSensorConversion_moves _ _ _ s
  | .thermalDegradedEntry .., s => execThermalDegradedEntry_moves _ s
  | .thermalHandoverRepeat .., s => execThermalHandoverRepeat_moves _ s
  | .thermalDegradedExit .., s => execThermalDegradedExit_moves _ s
  | .feedStateChange .., s => execFeedStateChange_moves _ _ _ _ s
  | .powerFail .., s => execPowerFail_moves _ _ s
  | .finalRoundComplete .., s => execFinalRoundComplete_moves _ _ _ s
  | .bankTest .., s => execBankTest_moves _ s
  | .bankTestComplete .., s => execBankTestComplete_moves _ _ _ s
  | .overtempTrip .., s => execOvertempTrip_moves _ _ s
  | .overtempRecover .., s => execOvertempRecover_moves _ s
  | .wvlAlive .., s => execWvlAlive_moves _ _ s
  | .heartbeatReceived .., s => execHeartbeatReceived_moves _ _ s
  | .linkFrameDiscard .., s => execLinkFrameDiscard_moves _ _ _ s
  | .laneDown .., s => execLaneDown_moves _ _ s
  | .heartbeatMiss .., s => execHeartbeatMiss_moves _ s
  | .takeover .., s => execTakeover_moves _ s
  | .copyReceived .., s => execCopyReceived_moves _ _ _ s
  | .reseedSend .., s => execReseedSend_moves _ _ _ s
  | .reseedReceived .., s => execReseedReceived_moves _ _ _ s
  | .relinquishReceived .., s => execRelinquishReceived_moves _ _ _ s
  | .handoverAnnounce .., s => execHandoverAnnounce_moves _ s
  | .handoverReceived .., s => execHandoverReceived_moves _ _ _ s
  | .handoverAckReceived .., s => execHandoverAckReceived_moves _ _ _ s
  | .handoverStrobe .., s => execHandoverStrobe_moves _ s
  | .yieldToPartner .., s => execYieldToPartner_moves _ s
  | .wvlHandover .., s => execWvlHandover_moves _ _ s
  | .pairHandover .., s => execPairHandover_moves _ _ s
  | .pairTakeover .., s => execPairTakeover_moves _ _ s
  | .pairResync .., s => execPairResync_moves _ _ s
  | .pairEpochAdvance .., s => execPairEpochAdvance_moves _ _ _ s
  | .pairForcePrimary .., s => execPairForcePrimary_moves _ _ s
  | .scrubFloor .., s => execScrubFloor_moves _ _ s
  | .scrubLine .., s => execScrubLine_moves _ _ _ s
  | .retire .., s => execRetire_moves _ _ s
  | .retireCopyComplete .., s => execRetireCopyComplete_moves _ _ s
  | .purgeForeign .., s => execPurgeForeign_moves _ _ s
  | .ceLogAck .., s => execCeLogAck_moves _ _ _ s
  | .crtRtInstall .., s => execCrtRtInstall_moves _ _ s
  | .crtRtEmpty .., s => execCrtRtEmpty_moves _ _ s
  | .crtRtInvalidAction .., s => execCrtRtInvalidAction_moves _ _ s
  | .crtDrainComplete .., s => execCrtDrainComplete_moves _ s
  | .wardDrainComplete .., s => execWardDrainComplete_moves _ _ s
  | .keeperInsert .., s => execKeeperInsert_moves _ _ s
  | .boltClose .., s => execBoltClose_moves _ s
  | .boltOpen .., s => execBoltOpen_moves _ s
  | .keeperSafe .., s => execKeeperSafe_moves _ s
  | .keeperRemove .., s => execKeeperRemove_moves _ s
  | .commission .., s => execCommission_moves _ _ s
  | .recommission .., s => execRecommission_moves _ _ s
  | .keeperPageAdmit .., s => execKeeperPageAdmit_moves _ s
  | .bitstreamStoreComplete .., s => execBitstreamStoreComplete_moves _ _ s
  | .partnerStoreComplete .., s => execPartnerStoreComplete_moves _ _ s
  | .keeperStale .., s => execKeeperStale_moves _ s
  | .ledgerPageTimeout .., s => execLedgerPageTimeout_moves _ s
  | .suppressionSummary .., s => execSuppressionSummary_moves _ s
  | .lgrReq .., s => execLgrReq_moves _ _ s
  | .lgrRead .., s => execLgrRead_moves _ _ s
  | .lgrSnap .., s => execLgrSnap_moves _ _ s
  | .ledgerSnap .., s => execLedgerSnap_moves _ _ s
  | .ledgerRead .., s => execLedgerRead_moves _ _ _ _ s
  | .sourceSevere .., s => execSourceSevere_moves _ _ _ _ s
  | .fcrAck .., s => execFcrAck_moves _ _ _ s
  | .fcrCfgWrite .., s => execFcrCfgWrite_moves _ _ _ s
  | .shpConnect .., s => execShpConnect_moves _ _ _ s
  | .tlsHandshake .., s => execTlsHandshake_moves _ _ _ s
  | .handshakeTimeout .., s => execHandshakeTimeout_moves _ _ s
  | .sessionIdleTimeout .., s => execSessionIdleTimeout_moves _ _ s
  | .sessionClose .., s => execSessionClose_moves _ _ _ s
  | .hello .., s => execHello_moves _ _ _ s
  | .read .., s => execRead_moves _ _ _ s
  | .write .., s => execWrite_moves _ _ _ s
  | .shpReservedType .., s => execShpReservedType_moves _ _ _ s
  | .bitstreamLoadBlock .., s => execBitstreamLoadBlock_moves _ _ _ _ s
  | .firmwareLoadBlock .., s => execFirmwareLoadBlock_moves _ _ _ _ s
  | .accessSetLoadBlock .., s => execAccessSetLoadBlock_moves _ _ _ _ s
  | .bitstreamCommit .., s => execBitstreamCommit_moves _ _ s
  | .bitstreamRevert .., s => execBitstreamRevert_moves _ _ s
  | .bitstreamAbort .., s => execBitstreamAbort_moves _ _ s
  | .bslAbort .., s => execBslAbort_moves _ _ s
  | .bitstreamLoadTimeout .., s => execBitstreamLoadTimeout_moves _ s
  | .firmwareCommit .., s => execFirmwareCommit_moves _ _ s
  | .firmwareReadbackComplete .., s => execFirmwareReadbackComplete_moves _ _ s
  | .firmwareRevert .., s => execFirmwareRevert_moves _ _ s
  | .firmwareAbort .., s => execFirmwareAbort_moves _ _ s
  | .updAbort .., s => execUpdAbort_moves _ _ s
  | .firmwareLoadTimeout .., s => execFirmwareLoadTimeout_moves _ s
  | .accessSetCommit .., s => execAccessSetCommit_moves _ _ _ _ s
  | .accessSetStored .., s => execAccessSetStored_moves _ s
  | .notifySubscribe .., s => execNotifySubscribe_moves _ _ _ _ s
  | .notifyLostReport .., s => execNotifyLostReport_moves _ _ s
  | .bulkReadWithheld .., s => execBulkReadWithheld_moves _ _ s
  | .trimZero .., s => execTrimZero_moves _ _ _ _ s
  | .trimSpan .., s => execTrimSpan_moves _ _ _ _ s
  | .hostArpRequest .., s => execHostArpRequest_moves _ _ _ s
  | .hostNeighbourSolicitation .., s => execHostNeighbourSolicitation_moves _ _ _ s
  | .hostEchoRequest .., s => execHostEchoRequest_moves _ _ _ _ s
  | .hostFrameDiscard .., s => execHostFrameDiscard_moves _ _ s
  | .hostLinkChange .., s => execHostLinkChange_moves _ _ _ s
  | .diChangeAccept .., s => execDiChangeAccept_moves _ _ _ _ s
  | .diWireBreak .., s => execDiWireBreak_moves _ _ s
  | .diWireBreakClear .., s => execDiWireBreakClear_moves _ _ s
  | .outputApply .., s => execOutputApply_moves _ _ s
  | .doToggleWaitEnd .., s => execDoToggleWaitEnd_moves _ _ s
  | .doShutdown .., s => execDoShutdown_moves _ _ s
  | .doRetry .., s => execDoRetry_moves _ _ _ s
  | .doMismatch .., s => execDoMismatch_moves _ _ _ s
  | .aoTerminalFault .., s => execAoTerminalFault_moves _ _ s
  | .aoTerminalTest .., s => execAoTerminalTest_moves _ _ _ s
  | .aoCommission .., s => execAoCommission_moves _ _ _ s
  | .aoCommissionEnd .., s => execAoCommissionEnd_moves _ _ s
  | .zeroButton .., s => execZeroButton_moves _ s
  | .spanButton .., s => execSpanButton_moves _ s
  | .commissionTimeout .., s => execCommissionTimeout_moves _ s
  | .fieldSupplyChange .., s => execFieldSupplyChange_moves _ _ s
  | .terminalBlockUnplug .., s => execTerminalBlockUnplug_moves _ s
  | .restartWarm .., s => execRestartWarm_moves _ _ s
  | .restartCold .., s => execRestartCold_moves _ _ s
  | .restartExecute .., s => execRestartExecute_moves _ _ s
  | .latchOpen .., s => execLatchOpen_moves _ s
  | .latchClose .., s => execLatchClose_moves _ s
  | .registerWrite .., s => execRegisterWrite_moves _ _ _ _ _ s
  | .followUpReceived .., s => execFollowUpReceived_moves _ _ _ s
  | .ptpFrameDiscard .., s => execPtpFrameDiscard_moves _ _ s
  | .frameCheckError .., s => execFrameCheckError_moves _ _ s
  | .partnerCommitReceived .., s => execPartnerCommitReceived_moves _ _ _ _ s
  | .activationPeriodReceived .., s => execActivationPeriodReceived_moves _ _ _ s
  | .keeperWriteComplete .., s => execKeeperWriteComplete_moves _ _ s
  | .scrubAboveFloor .., s => execScrubAboveFloor_moves _ _ s

/-- With the hinge latch open no command begins P6: the commands that do not touch the start by their footprint, the others each
by its own rule. -/
theorem exec_obeys (c : Instr) {s : State} (hopen : s.gen.latchOpen = true) (h : s.gen.LatchObeyed) : AnswersObeyed (exec c s) := by
  have hframe : c.touches.contains .start = false → AnswersObeyed (exec c s) := fun hquiet t ht =>
    h.of_eq ((exec_moves c s t ht).gen_eq hquiet)
  cases c
  case powerApplied => exact execPowerApplied_obeys _ _ _ _ _ _ h
  case bootRomSelect => exact execBootRomSelect_obeys _ h
  case comparatorSelftest => exact execComparatorSelftest_obeys _ _ h
  case memClearDone => exact execMemClearDone_obeys _ h
  case keeperCheck => exact execKeeperCheck_obeys _ h
  case generationLoad => exact execGenerationLoad_obeys _ h
  case pairNegotiation => exact execPairNegotiation_obeys _ h
  case negotiateTimeout => exact execNegotiateTimeout_obeys _ h
  case periodStrobe => exact execPeriodStrobe_obeys _ _ h
  case syncReceived => exact execSyncReceived_obeys _ _ h
  case ptpAnnounceReceived => exact execPtpAnnounceReceived_obeys _ _ _ h
  case ppsEdge => exact execPpsEdge_obeys _ _ _ h
  case irigbFrame => exact execIrigbFrame_obeys _ _ h
  case sourceLoss => exact execSourceLoss_obeys _ h
  case sourceQualified => exact execSourceQualified_obeys _ _ _ h
  case acqTimeout => exact execAcqTimeout_obeys _ h
  case holdoverLimit => exact execHoldoverLimit_obeys _ h
  case stepAccept => exact execStepAccept_obeys _ _ h
  case tmbSrcWrite => exact execTmbSrcWrite_obeys _ _ _ h
  case slotEmit => exact execSlotEmit_obeys _ h
  case masterTransaction => exact execMasterTransaction_obeys _ _ h
  case sensorConversion => exact execSensorConversion_obeys _ _ _ h
  case feedStateChange => exact execFeedStateChange_obeys _ _ _ _ h
  case finalRoundComplete => exact execFinalRoundComplete_obeys _ _ _ h
  case bankTestComplete => exact execBankTestComplete_obeys _ _ _ h
  case overtempRecover => exact execOvertempRecover_obeys _ h
  case heartbeatReceived => exact execHeartbeatReceived_obeys _ _ h
  case linkFrameDiscard => exact execLinkFrameDiscard_obeys _ _ _ h
  case heartbeatMiss => exact execHeartbeatMiss_obeys _ h
  case takeover => exact execTakeover_obeys _ h
  case copyReceived => exact execCopyReceived_obeys _ _ _ h
  case reseedReceived => exact execReseedReceived_obeys _ _ _ h
  case relinquishReceived => exact execRelinquishReceived_obeys _ _ _ h
  case handoverReceived => exact execHandoverReceived_obeys _ _ _ h
  case handoverAckReceived => exact execHandoverAckReceived_obeys _ _ _ h
  case handoverStrobe => exact execHandoverStrobe_obeys _ h
  case yieldToPartner => exact execYieldToPartner_obeys _ h
  case pairResync => exact execPairResync_obeys _ _ h
  case pairForcePrimary => exact execPairForcePrimary_obeys _ _ h
  case boltClose => exact execBoltClose_obeys _ h
  case keeperRemove => exact execKeeperRemove_obeys _ h
  case commission => exact execCommission_obeys _ _ h
  case recommission => exact execRecommission_obeys _ _ h
  case sourceSevere => exact execSourceSevere_obeys _ _ _ _ h
  case write => exact execWrite_obeys _ _ _ h
  case doMismatch => exact execDoMismatch_obeys _ _ _ h
  case restartWarm => exact execRestartWarm_obeys _ _ h
  case restartCold => exact execRestartCold_obeys _ _ h
  case restartExecute => exact execRestartExecute_obeys _ _ h
  case latchOpen => exact exec_latchOpen_of_open _ hopen ▸ answers_obeyed h
  case latchClose => exact execLatchClose_obeys _ s
  case registerWrite => exact execRegisterWrite_obeys _ _ _ _ _ h
  case followUpReceived => exact execFollowUpReceived_obeys _ _ _ h
  case partnerCommitReceived => exact execPartnerCommitReceived_obeys _ _ _ _ h
  case activationPeriodReceived => exact execActivationPeriodReceived_obeys _ _ _ h
  all_goals exact hframe rfl

/-! ### The statement on the service latch -/

/-- Opening the latch of a module leaves its phase and its role, and asks for no more than a record or a hand-over. -/
theorem exec_latchOpen_frame (w : When) {s : State} (h : s.gen.latchOpen = false) : ∃ t, exec (.latchOpen w) s = .next t ∧
    Only [.time, .start, .events, .pair, .ledger, .keeper, .sessions, .host] s t ∧ t.gen.latchOpen = true ∧
    t.gen.phase = s.gen.phase ∧ t.wvl.role = s.wvl.role := by
  have hset := latchSet_moves (P := [.time, .start, .events, .pair, .ledger, .keeper, .sessions, .host]) w true s (Covers.rfl.trans rfl)
  have hgen : (s.latchSet w true).gen = { s.gen with latchOpen := true } := rfl
  have hwvl : (s.latchSet w true).wvl = s.wvl := rfl
  refine ⟨_, exec_latchOpen_of_closed w h, ?_⟩
  split
  · exact ⟨hset.only, rfl, rfl, rfl⟩
  · split
    · exact ⟨(requestHandover_moves_unsent 5 none (Covers.rfl.trans rfl) hset).only, by simp [hgen], by simp [hgen], by simp [hwvl]⟩
    · split
      · exact ⟨hset.only, rfl, rfl, rfl⟩
      · exact ⟨(ledger_moves _ _ _ (Covers.rfl.trans rfl) hset).only, by simp [hgen], by simp [hgen], by simp [hwvl]⟩

/-- Settles O58: opening and closing the latch case by case, the end of P5 with the latch open and with it closed, and for every
command that it keeps out of P6 while the latch is open. -/
theorem theServiceLatch : Obligations.TheServiceLatch := by
  unfold Obligations.TheServiceLatch
  refine ⟨?handsOver, ?notPrimary, ?again, ?closes, ?judgedOpen, ?goesOn, ?everyCommand, ?opens⟩
  case handsOver =>
    intro w s hclosed hcan hprimary
    have hset := latchSet_moves (P := [.time, .start, .events, .pair, .sessions, .host]) w true s (Covers.rfl.trans rfl)
    have hexec : exec (.latchOpen w) s = .next (requestHandover 5 none (s.latchSet w true)) := by
      rw [exec_latchOpen_of_closed w hclosed, if_neg (by simp [hprimary]), if_pos hcan]
    refine ⟨_, hexec, (requestHandover_moves_unsent 5 none (Covers.rfl.trans rfl) hset).only, by simp [State.latchSet], ?_, ?_⟩
    · rw [requestHandover_wvl]; rfl
    · rw [requestHandover_wvl]; exact primary_iff.mp hprimary
  case notPrimary =>
    intro w s hclosed hprimary
    have hexec : exec (.latchOpen w) s = .next (s.latchSet w true) := by
      rw [exec_latchOpen_of_closed w hclosed, if_pos (by simp [hprimary])]
    exact ⟨_, hexec, (latchSet_moves w true s Covers.rfl).only, rfl, rfl⟩
  case again => exact fun w s hopen => ⟨_, exec_latchOpen_of_open w hopen, at_only w s Covers.rfl⟩
  case closes =>
    intro w s hjudged
    have hexec : exec (.latchClose w) s = .next (s.latchSet w false) := by rw [exec_latchClose, if_neg (by simp [hjudged])]
    exact ⟨_, hexec, (latchSet_moves w false s Covers.rfl).only, rfl, rfl⟩
  case judgedOpen =>
    intro w s hphase hopen hchecked hflag hstate hlate
    have hexec : exec (.acqTimeout w) s = .next { s.acqFlag w with tmb := { (s.acqFlag w).tmb with acqJudged := true } } := by
      rw [exec_acqTimeout_of_due ⟨Nat.le_of_eq hphase.symm, hchecked, hlate⟩, if_neg hstate, endP5_of_open (by simp [hphase]) (by simp [hopen])]
    exact ⟨_, hexec, judgedOpen_only hflag, by simp [hphase], by simp [hopen], rfl⟩
  case goesOn =>
    intro w s hphase hjudged
    have hexec : exec (.latchClose w) s = .next (endP5 (s.latchSet w false)) := by rw [exec_latchClose, if_pos hjudged]
    have hset := latchSet_moves (P := [.time, .start, .timebase, .pair]) w false s (Covers.rfl.trans rfl)
    refine ⟨_, hexec, (endP5_moves (Covers.rfl.trans rfl) hset).only, ?_⟩
    rw [endP5_of_closed (s := s.latchSet w false) hphase rfl]
    exact ⟨rfl, rfl, rfl, rfl⟩
  case everyCommand =>
    intro c s t hphase hopen hexec
    have hbefore : s.gen.LatchObeyed := latchObeyed_of_phase (by omega)
    have hafter := exec_obeys c hopen hbefore t hexec
    by_cases hstill : t.gen.latchOpen = true
    · exact Or.inl (hafter hstill)
    · exact Or.inr (by simpa using hstill)
  case opens => exact fun w s hclosed => exec_latchOpen_frame w hclosed

end Sys2Proof.Machine

/-! What every command keeps (R1, R283, R389): its queue, its footprint, the legal codes; and main memory read after a write. -/

namespace Sys2Proof.Machine

set_option Elab.async false

open Sys2Proof

/-- Settles O1: both clauses are the definition of a step. -/
theorem stepTakesTheFrontCommand : Obligations.StepTakesTheFrontCommand := by
  unfold Obligations.StepTakesTheFrontCommand
  refine ⟨fun c rest s => rfl, fun s hs => ?_⟩
  unfold step
  rw [hs]

/-- Settles O2: the reset state holds every register at its reset value, and its memory lists nothing. -/
theorem resetStateIsLegal : Obligations.ResetStateIsLegal := by
  unfold Obligations.ResetStateIsLegal
  have hmem : State.reset.mem.mem.wf := ⟨List.Pairwise.nil, fun c hc => nomatch hc⟩
  exact ⟨⟨hmem, by decide, by decide, by decide, by decide, by decide⟩, rfl, rfl, rfl, rfl, rfl, rfl, rfl⟩

/-- What a step does: nothing on an empty queue, and the front command on the rest of any other. -/
theorem step_cases {s t : State} (h : step s = .next t) :
    (s.pending = [] ∧ t = s) ∨ ∃ c rest, s.pending = c :: rest ∧ exec c { s with pending := rest } = .next t := by
  unfold step at h
  split at h
  case h_1 hempty => exact .inl ⟨hempty, (Host.Outcome.next.inj h).symm⟩
  case h_2 c rest hfront => exact .inr ⟨c, rest, hfront, h⟩

/-- Settles O3: every command moves a legal state to a legal one (`exec_moves`), and the queue is no part of the codes. -/
theorem everyStepKeepsTheStateLegal : Obligations.EveryStepKeepsTheStateLegal := by
  unfold Obligations.EveryStepKeepsTheStateLegal
  intro s t hs hstep
  rcases step_cases hstep with ⟨_, rfl⟩ | ⟨c, rest, _, hexec⟩
  · exact hs
  · have hrest : State.Legal { s with pending := rest } := ⟨hs.mem, hs.phase, hs.role, hs.mode, hs.servo, hs.keeper⟩
    exact (exec_moves c _ t hexec).legal hrest

/-- Settles O6: the frame is that of `exec_moves`, and a main memory that is the same reads the same. -/
theorem commandsTouchOnlyTheirParts : Obligations.CommandsTouchOnlyTheirParts := by
  unfold Obligations.CommandsTouchOnlyTheirParts
  intro c s t hexec
  have hmoves := exec_moves c s t hexec
  refine ⟨hmoves.only, fun hmem a => ?_⟩
  have hsame : t.mem.mem = s.mem.mem := hmoves.same .memory hmem
  rw [hsame]

/-- Settles O4: no command moves the queue, and a step gives its command the queue's rest. -/
theorem noCommandTouchesTheQueue : Obligations.NoCommandTouchesTheQueue := by
  unfold Obligations.NoCommandTouchesTheQueue
  refine ⟨fun c s t hexec => (exec_moves c s t hexec).queue, fun c rest s t hfront hstep => ?_⟩
  unfold step at hstep
  rw [hfront] at hstep
  exact (exec_moves c _ t hstep).queue

/-- Every command answers a next state: most meanings are one next state; the others branch, and each branch ends in one. -/
theorem exec_answers (c : Instr) (s : State) : ∃ t, exec c s = .next t := by
  cases c
  all_goals unfold exec; dsimp only
  any_goals exact ⟨_, rfl⟩
  all_goals
    delta
      execPowerApplied execBootRomSelect execComparatorSelftest execKeeperCheck execPeriodStrobe execMaskMiss
      execPpsEdge execIrigbFrame execSourceLoss execPulseEdge execSyncTransmit execAnnounceTransmit
      execPdelayReqTransmit execPortLinkChange execReplyReceived execHelloReceived execResyncSend
      execSurgeFragmentReceived execUnknownFrame execPrpSupervision execControlQueueError execDataQueueError
      execSvFrameReceived execSlotEmit execPublicationFrameSend execC37TcpConnect execWceWindowTake execWceResult
      execWceRecommit execTaskFreeze execTaskStartSignal execCommitComplete execTriadTransaction execRejoinFinalStep
      execProbeAttach execMasterTransaction execBudgetExhausted execThermalDegradedEntry execBankTestComplete
      execOvertempRecover execTakeover execHandoverAnnounce execHandoverStrobe execRetireCopyComplete execBoltClose
      execBoltOpen execKeeperRemove execShpConnect execTlsHandshake execHandshakeTimeout execSessionIdleTimeout
      execHello execFirmwareReadbackComplete execAccessSetStored execNotifyLostReport execHostLinkChange
      execRestartExecute execLatchOpen execRegisterWrite execFrameCheckError
  all_goals dsimp only
  all_goals repeat' split
  all_goals exact ⟨_, rfl⟩
/-- Settles O5: it is `exec_answers`. -/
theorem everyCommandIsAnswered : Obligations.EveryCommandIsAnswered := exec_answers

/-- A write stores its bytes into the memory with the marks of the lines that it covers taken away, and these have no part in
a byte outside those lines. -/
theorem readByte_write_other {m m' : Memory} {a b : Nat} {bs : List Byte} (h : m.write a bs = .ok m')
    (hb : b < a / 64 * 64 ∨ (a + bs.length + 63) / 64 * 64 ≤ b) : m'.readByte b = m.readByte b := by
  unfold Memory.write at h
  split at h
  · cases h
  · cases h
    rw [readByte_putBytes_other _ _ _ (by omega)]
    have hmark : (m.poisoned.filter fun l => !(decide (a ≤ 64 * l + 63 ∧ 64 * l < a + bs.length))).contains (b / 64)
        = m.poisoned.contains (b / 64) := by
      rw [Bool.eq_iff_iff]
      simp only [List.contains_iff_mem, List.mem_filter, Bool.not_eq_true', decide_eq_false_iff_not, and_iff_left_iff_imp]
      omega
    unfold Memory.readByte
    simp only [hmark]
    rfl

/-- Settles O7, by the laws of the memory's list (`readByte_putByte_self`, `readByte_putByte_other`, `write_wf`). -/
theorem memoryReadsWhatWasWritten : Obligations.MemoryReadsWhatWasWritten := by
  unfold Obligations.MemoryReadsWhatWasWritten
  refine ⟨fun m a v hm hp => readByte_putByte_self hm hp v, fun m a b v hne => readByte_putByte_other m hne v,
    fun m m' a bs hm hw => write_wf hm hw, fun m m' a b bs hw hb => readByte_write_other hw hb, fun m a => rfl⟩

end Sys2Proof.Machine

/-! A start of the module (R388, R389, R395, R396, R412): what POWER_APPLIED, OVERTEMP_RECOVER and RESTART_EXECUTE leave, and when a
restart is due. -/

namespace Sys2Proof.Machine

set_option Elab.async false

open Sys2Proof

/-! ### Units that an operation leaves as they are -/

/-- A part that the frame does not list is the same. -/
theorem Moves.keeps {P : List Part} {s t : State} (h : Moves P s t) (p : Part) (hp : P.contains p = false) : p.Same s t :=
  h.same p fun hin => by simp [hin] at hp

/-- An operation whose frame lists neither the keeper interface nor the cartridge leaves both. -/
theorem Moves.kpr_eq {P : List Part} {s t : State} (h : Moves P s t) (hk : P.contains .keeper = false)
    (hc : P.contains .cartridge = false) : t.kpr = s.kpr := by
  have hrest : t.kpr.rest = s.kpr.rest := h.keeps .keeper hk
  have hcart : t.kpr.cartridge = s.kpr.cartridge := h.keeps .cartridge hc
  calc t.kpr = { t.kpr.rest with cartridge := t.kpr.cartridge } := rfl
    _ = { s.kpr.rest with cartridge := s.kpr.cartridge } := by rw [hrest, hcart]

/-! ### What survives a start -/

@[simp] theorem pinsRest_kpr (s : State) : (pinsRest s).kpr = s.kpr :=
  (pinsRest_moves Covers.rfl (.refl _ s)).kpr_eq rfl rfl

@[simp] theorem pinsRest_pending (s : State) : (pinsRest s).pending = s.pending :=
  (pinsRest_moves Covers.rfl (.refl [.pulses, .outputs, .loops, .sent] s)).queue

/-- Cutting a page short depends on the keeper alone. -/
theorem cutShort_kpr_congr {s t : State} (h : t.kpr = s.kpr) : (cutShort t).kpr = (cutShort s).kpr := by
  unfold cutShort modCart
  rw [h]
  cases s.kpr.inFlight with
  | none => exact h
  | some j => dsimp only

theorem survives_cartridge (s : State) : (survives s).kpr.cartridge = (cutShort s).kpr.cartridge := by
  rw [← cutShort_kpr_congr (pinsRest_kpr s)]
  simp only [survives]

@[simp] theorem survives_pending (s : State) : (survives s).pending = s.pending := by
  simp only [survives, pinsRest_pending]

/-- A start anew leads to P0 with every unit at reset; the cartridge stays where it was. -/
theorem startAnew_atP0 (w : When) (entry : Nat) (cold : Bool) (s : State) :
    let t := startAnew w entry cold s
    t.pending = s.pending ∧ t.gen.phase = 0 ∧ t.gen.entry = entry ∧ t.gen.commandedCold = cold ∧ t.gen.powerGood = true
      ∧ t.wvl.role = 0 ∧ t.trd.mode = 5 ∧ t.fio.standby = true ∧ t.mem.mem = {} ∧ t.cfg = {}
      ∧ t.hif.sessions = List.replicate 8 none ∧ t.kpr.cartridge = (cutShort s).kpr.cartridge := by
  refine ⟨?_, rfl, rfl, rfl, rfl, rfl, rfl, rfl, rfl, rfl, rfl, ?_⟩
  · simp only [startAnew, dropUnstaged, at_pending, survives_pending]
  · simp only [startAnew, dropUnstaged, at_kpr, survives_cartridge]

@[simp] theorem flushKeeper_pending (start n : Nat) (s : State) : (flushKeeper start n s).pending = s.pending :=
  (flushKeeper_moves start n Covers.rfl (.refl [.events, .sequencer, .budgets, .pair, .memctl, .faults, .ledger, .cartridge,
    .keeper, .loader, .sessions, .access, .host, .config, .sent] s)).queue

/-! ### When a start takes place -/

/-- The state that POWER_APPLIED builds from what survives, before the feeds are judged. -/
def State.powered (s : State) (w : When) (f1 f2 : Nat) (c : Fin 4) (latch good : Bool) : State :=
  let t := (readCoding c.val (dropUnstaged (survives s))).at w
  { t with
    now := 0
    gen := { t.gen with entry := 0, latchOpen := latch, powerGood := good }
    ptm := { t.ptm with mv := [f1, f2], feed := [feedState 0 f1, feedState 0 f2] } }

theorem exec_powerApplied {w : When} {f1 f2 : Nat} {c : Fin 4} {latch good : Bool} {s : State} (h : s.ptm.tripped = []) :
    exec (.powerApplied w f1 f2 c latch good) s = .next (noteGood (s.powered w f1 f2 c latch good)) := by
  show execPowerApplied w f1 f2 c latch good s = _
  rw [execPowerApplied, if_pos (by rw [h]; rfl), State.powered]

/-- Power leads to P0 with every unit at reset, the coding and the feeds as measured; the cartridge stays where it was. -/
theorem powered_atP0 (w : When) (f1 f2 : Nat) (c : Fin 4) (latch good : Bool) (s : State) :
    let t := noteGood (s.powered w f1 f2 c latch good)
    t.pending = s.pending ∧ t.gen.phase = 0 ∧ t.gen.entry = 0 ∧ t.gen.latchOpen = latch ∧ t.ptm.mv = [f1, f2]
      ∧ t.wvl.role = 0 ∧ t.wvl.coding = c.val ∧ t.wvl.side = (if c.val = 2 then 1 else 0) ∧ t.trd.mode = 5
      ∧ t.fio.standby = true ∧ t.mem.mem = {} ∧ t.hif.sessions = List.replicate 8 none ∧ t.cfg = {}
      ∧ t.kpr.cartridge = (cutShort s).kpr.cartridge := by
  refine ⟨?_, rfl, rfl, rfl, rfl, rfl, rfl, rfl, rfl, rfl, rfl, rfl, rfl, ?_⟩
  · simp only [noteGood, modPtm_pending, State.powered, at_pending, readCoding, modWvl_pending, dropUnstaged, survives_pending]
  · simp only [noteGood, modPtm_kpr, State.powered, at_kpr, readCoding, modWvl_kpr, dropUnstaged, survives_cartridge]

theorem exec_overtempRecover {w : When} {s : State} (hgood : s.gen.powerGood = false) (htrip : s.ptm.tripped ≠ []) :
    exec (.overtempRecover w) s = .next { startAnew w 0 false s with
      lgr := { (startAnew w 0 false s).lgr with lostKept := 0, lostOwner := 0 } } := by
  show execOvertempRecover w s = _
  rw [execOvertempRecover, if_pos (by simp [hgood, htrip])]

/-- A restart that is due, does not wait for H and finds the keeper written starts the module anew. -/
theorem exec_restartExecute_due {w : When} {stored : Nat} {r : RestartReq} {s : State} (hreq : s.gen.restart = some r)
    (hgood : s.gen.powerGood = true) (hH : r.atH = false) (hfail : s.ptm.powerFail = false) (hdue : r.due ≤ max s.aon w.a)
    (hflush : (refillBucket (s.at w)).flushed r.due = true) : exec (.restartExecute w stored) s =
      .next (startAnew w r.entry r.cold (flushKeeper r.due stored (refillBucket (s.at w)))) := by
  have hguard : ((refillBucket (s.at w)).gen.powerGood && !(refillBucket (s.at w)).ptm.powerFail && !r.atH
      && decide (r.due ≤ (refillBucket (s.at w)).aon) && (refillBucket (s.at w)).flushed r.due) = true := by
    simpa [refillBucket, State.at, hgood, hH, hfail, hdue] using hflush
  show execRestartExecute w stored s = _
  unfold execRestartExecute
  rw [hreq]
  exact if_pos hguard

/-- A restart that is not due yet, or waits for H, only takes up the instant. -/
theorem exec_restartExecute_waits {w : When} {stored : Nat} {r : RestartReq} {s : State} (hreq : s.gen.restart = some r)
    (hwait : r.atH = true ∨ max s.aon w.a < r.due) : exec (.restartExecute w stored) s = .next (s.at w) := by
  have hguard : ¬ ((refillBucket (s.at w)).gen.powerGood && !(refillBucket (s.at w)).ptm.powerFail && !r.atH
      && decide (r.due ≤ (refillBucket (s.at w)).aon) && (refillBucket (s.at w)).flushed r.due) = true := by
    rcases hwait with hH | hearly
    · simp [hH]
    · have haon : (refillBucket (s.at w)).aon = max s.aon w.a := rfl
      rw [haon, decide_eq_false (Nat.not_le.mpr hearly), Bool.and_false, Bool.false_and]
      exact Bool.false_ne_true
  show execRestartExecute w stored s = _
  unfold execRestartExecute
  rw [hreq]
  exact if_neg hguard

/-- Settles O8: each of the three starts is the equation of its command, read off the state that survives. -/
theorem powerAndRestartBeginAtP0 : Obligations.PowerAndRestartBeginAtP0 := by
  unfold Obligations.PowerAndRestartBeginAtP0
  refine ⟨?power, ?recover, ?restart, ?waits⟩
  case power =>
    intro w f1 f2 c latch good s htrip
    exact ⟨_, exec_powerApplied htrip, powered_atP0 w f1 f2 c latch good s⟩
  case recover =>
    intro w s hgood htrip
    obtain ⟨hq, hphase, hentry, _, hpower, hrole, hmode, hfio, hmem, hcfg, _, hcart⟩ := startAnew_atP0 w 0 false s
    exact ⟨_, exec_overtempRecover hgood htrip, hq, hphase, hentry, hpower, hrole, hmode, hfio, hmem, hcfg, hcart⟩
  case restart =>
    intro w stored r s hreq hgood hH hfail hdue hflush
    obtain ⟨hq, hphase, hentry, hcold, _, hrole, hmode, hfio, hmem, hcfg, hses, hcart⟩ :=
      startAnew_atP0 w r.entry r.cold (flushKeeper r.due stored (refillBucket (s.at w)))
    exact ⟨_, exec_restartExecute_due hreq hgood hH hfail hdue hflush, hq.trans (flushKeeper_pending _ _ _), hphase, hentry,
      hcold, hrole, hmode, hfio, hmem, hcfg, hses, hcart⟩
  case waits =>
    intro w stored r s hreq _ hwait
    exact ⟨_, exec_restartExecute_waits hreq hwait, at_only w s Covers.rfl, hreq, rfl⟩

/-! ### A restart is requested (R396, R397, R273) -/

/-- The module is PRIMARY with a STANDBY partner in a pair: a restart waits for the hand-over. -/
def State.restartWaits (s : State) : Bool := s.primary && s.partnerStandby && decide (s.pair.mode ≠ 0)

theorem restartAct_at_once {who : Agent} {cold : Bool} {s : State} (hwho : fwOrEngineer who s = true)
    (hwait : s.restartWaits = false) : restartAct who cold s = requestRestart cold 1 s.aon false s := by
  unfold State.restartWaits at hwait
  simp only [restartAct, hwho, hwait]
  rfl

theorem restartAct_at_handOver {who : Agent} {cold : Bool} {s : State} (hwho : fwOrEngineer who s = true)
    (hwait : s.restartWaits = true) : restartAct who cold s =
      when s.wvl.handover.isNone (requestHandover 3 none) (requestRestart cold 1 (s.aon + aonMs 5) true s) := by
  unfold State.restartWaits at hwait
  simp only [restartAct, hwho, hwait]
  rfl

/-- A granted restart request of a module that need not hand over: only the request is noted. -/
theorem restart_at_once {c : Instr} {w : When} {who : Agent} {cold : Bool} {s : State}
    (hc : exec c s = .next (asWrite who 0x1C (restartAct who cold) (s.at w))) (hwho : fwOrEngineer who s = true)
    (hwait : s.restartWaits = false) (hgrant : (s.at w).grants who 0x1C = true) :
    ∃ t, exec c s = .next t ∧ Only [.time, .start] s t
      ∧ t.gen.restart = some { cold := cold, entry := 1, due := max s.aon w.a, atH := false } ∧ t.gen.phase = s.gen.phase := by
  rw [Laws.asWrite_grants hgrant, restartAct_at_once (s := s.at w) hwho hwait] at hc
  exact ⟨_, hc, (requestRestart_moves _ _ _ _ (Covers.rfl.trans rfl) (at_moves w (Covers.rfl.trans rfl) (.refl _ s))).only, rfl, rfl⟩

/-- A granted restart request of a PRIMARY with a STANDBY partner: it waits for H, and a hand-over with cause 3 is requested
unless one is under way. -/
theorem restart_at_handOver {c : Instr} {w : When} {who : Agent} {cold : Bool} {s : State}
    (hc : exec c s = .next (asWrite who 0x1C (restartAct who cold) (s.at w))) (hwho : fwOrEngineer who s = true)
    (hwait : s.restartWaits = true) (hgrant : (s.at w).grants who 0x1C = true) :
    ∃ t, exec c s = .next t ∧ Only [.time, .start, .events, .pair, .sessions, .host] s t
      ∧ t.gen.restart = some { cold := cold, entry := 1, due := max s.aon w.a + aonMs 5, atH := true }
      ∧ t.wvl.handover = (if s.wvl.handover = none then some { asked := (s.at w).islandTime linkIsland, cause := 3 } else
        s.wvl.handover) ∧ t.wvl.role = s.wvl.role := by
  rw [Laws.asWrite_grants hgrant, restartAct_at_handOver (s := s.at w) hwho hwait] at hc
  have hnoted : Moves [.time, .start, .events, .pair, .sessions, .host] s
      (requestRestart cold 1 ((s.at w).aon + aonMs 5) true (s.at w)) :=
    requestRestart_moves _ _ _ _ (Covers.rfl.trans rfl) (at_moves w (Covers.rfl.trans rfl) (.refl _ s))
  cases hh : s.wvl.handover with
  | none =>
    rw [show (s.at w).wvl.handover = none from hh] at hc
    refine ⟨_, hc, (requestHandover_moves_unsent 3 none (Covers.rfl.trans rfl) hnoted).only, ?_⟩
    simp [when_true, requestHandover, modWvl, requestRestart, State.islandTime]
    rfl
  | some h =>
    rw [show (s.at w).wvl.handover = some h from hh] at hc
    exact ⟨_, hc, hnoted.only, rfl, hh, rfl⟩

/-- Settles O9: a request is noted at once (`restart_at_once`) or waits for the hand-over (`restart_at_handOver`), for either kind. -/
theorem restartsAreRequested : Obligations.RestartsAreRequested := by
  unfold Obligations.RestartsAreRequested
  refine ⟨?_, ?_, ?_, ?_, ?_, ?_⟩
  · exact fun w s hwait hgrant => restart_at_once (w := w) (cold := false) rfl rfl hwait hgrant
  · exact fun w s hwait hgrant => restart_at_once (w := w) (cold := true) rfl rfl hwait hgrant
  · intro w s hwait hnone hgrant
    obtain ⟨t, hexec, honly, hreq, hhand, hrole⟩ := restart_at_handOver (c := .restartCold w .firmware) (cold := true) rfl rfl hwait hgrant
    exact ⟨t, hexec, honly, hreq, hhand.trans (if_pos hnone), hrole⟩
  · exact fun w who s hwho hwait hgrant => restart_at_once (w := w) (cold := false) rfl hwho hwait hgrant
  · exact fun w who s hwho hwait hgrant => restart_at_once (w := w) (cold := true) rfl hwho hwait hgrant
  · exact fun w who s hwho hwait hgrant => restart_at_handOver (w := w) (cold := false) rfl hwho hwait hgrant

end Sys2Proof.Machine

/-! The boot ROM, the comparator's self-test and the memory clear (R233, R285, R367, R389). -/

namespace Sys2Proof.Machine

set_option Elab.async false

open Sys2Proof

/-! ### Frames one after the other -/

theorem Only.refl (P : List Part) (s : State) : Only P s s := (Moves.refl P s).only

theorem Only.mono {P Q : List Part} {s t : State} (h : Only Q s t) (hQ : Q.all P.contains = true := by rfl) :
    Only P s t :=
  ⟨h.1, fun p hp => h.2 p fun hq => hp (List.contains_iff_mem.mp (List.all_eq_true.mp hQ p hq))⟩

theorem Part.Same.trans {s t u : State} {p : Part} (hst : p.Same s t) (htu : p.Same t u) : p.Same s u := by
  cases p <;> simp_all [Part.Same]

/-- The frame of two operations in a row lists what either lists. -/
theorem Only.step {P Q : List Part} {s t u : State} (h : Only P s t) (hnext : Only Q t u)
    (hQ : Q.all P.contains = true := by rfl) : Only P s u :=
  ⟨hnext.1.trans h.1, fun p hp => (h.2 p hp).trans ((hnext.mono hQ).2 p hp)⟩

/-- The same rule, the later operation first: its state is the one at hand. -/
theorem Only.after {P Q : List Part} {s t u : State} (hnext : Only Q t u) (h : Only P s t)
    (hQ : Q.all P.contains = true := by rfl) : Only P s u := h.step hnext hQ

/-- The start replaced: the other parts are as they were. -/
theorem setGen_only (g : GenState) (s : State) : Only [.start] s { s with gen := g } := by
  refine ⟨rfl, fun p hp => ?_⟩
  cases p
  case start => exact absurd List.mem_cons_self hp
  all_goals simp [Part.Same]

/-- A change of the triad that leaves its debug lane. -/
theorem modTrd_only {f : TrdState → TrdState} {s : State} (hf : (f s.trd).dbg = s.trd.dbg) : Only [.triad] s (modTrd f s) := by
  refine ⟨rfl, fun p hp => ?_⟩
  cases p
  case triad => exact absurd List.mem_cons_self hp
  case debug => exact hf
  all_goals simp [Part.Same]

/-- A change of the memory controller's registers. -/
theorem modMem_only {f : MemState → MemState} {s : State} (hf : (f s.mem).mem = s.mem.mem) : Only [.memctl] s (modMem f s) := by
  refine ⟨rfl, fun p hp => ?_⟩
  cases p
  case memctl => exact absurd List.mem_cons_self hp
  case memory => exact hf
  all_goals simp [Part.Same]

/-! ### P1 (R367) -/

theorem exec_bootRomSelect_active {w : When} {n : Nat} {s : State} (hphase : s.gen.phase = 1) (htrial : s.upd.trial = false)
    (hstaged : slotIn 2 s = none) (hactive : slotIn 3 s = some n) (hok : slotVerifies n s = true) :
    exec (.bootRomSelect w) s = .next (startSlot n false (s.at w)) := by
  have hstaged' : slotIn 2 (s.at w) = none := hstaged
  have hactive' : slotIn 3 (s.at w) = some n := hactive
  have hok' : slotVerifies n (s.at w) = true := hok
  show execBootRomSelect w s = _
  simp [execBootRomSelect, hphase, htrial, hstaged', hactive', hok']

/-! ### The self-test in P2 (R233) -/

/-- The self-test is due: P2, the triad under self-test, and not judged yet. -/
def State.selfTestDue (s : State) : Prop := s.gen.phase = 2 ∧ s.trd.mode = 5 ∧ s.trd.selfDone = false

theorem exec_comparatorSelftest_pass {w : When} {s : State} (h : s.selfTestDue) : exec (.comparatorSelftest w none) s =
    .next (modTrd (fun t => { t with selfDone := true, selfPass := true, mode := 0 }) (s.at w)) := by
  obtain ⟨hphase, hmode, hdone⟩ := h
  exact if_pos ⟨hphase, hmode, by rw [at_trd, hdone]; rfl⟩

/-- A failed injection is noted with its lane, group and bit, and holds the module. -/
theorem exec_comparatorSelftest_fail {w : When} {f : SelfTestFail} {s : State} (h : s.selfTestDue) :
    ∃ source, exec (.comparatorSelftest w (some f)) s = .next (ledger 0x0703 source [f.lane.val, f.group.val, f.bit.val]
      { modTrd (fun t => { t with selfDone := true, selfLane := f.lane.val, selfGroup := f.group.val, selfBit := f.bit.val }) (s.at w) with
        gen := { s.gen with held := true } }) := by
  obtain ⟨hphase, hmode, hdone⟩ := h
  exact ⟨_, if_pos ⟨hphase, hmode, by rw [at_trd, hdone]; rfl⟩⟩

/-! ### The memory clear (R285) -/

theorem exec_memClear_granted {w : When} {s : State} (hgrant : (s.at w).grants .firmware 0xB0004 = true) :
    exec (.memClear w .firmware) s = .next (memClearAct .firmware (s.at w)) :=
  congrArg Host.Outcome.next (Laws.asWrite_grants hgrant)

theorem memClearAct_inP2 {s : State} (h : s.gen.phase = 2) :
    memClearAct .firmware s = modMem (fun m => { m with clearBusy := true, clearDone := false }) s := if_pos h

theorem memClearAct_elsewhere {s : State} (h : s.gen.phase ≠ 2) :
    memClearAct .firmware s = hwSet 0xB0000 7 none (modMem (fun m => { m with clearRefused := true }) s) := if_neg h

/-- The end of the clear after a passed self-test: memory reads as zero, and P3 begins. -/
theorem exec_memClearDone_passed {w : When} {s : State} (hphase : s.gen.phase = 2) (hbusy : s.mem.clearBusy = true)
    (hpass : s.trd.selfPass = true) : exec (.memClearDone w) s =
      .next { modMem (fun m => { m with mem := m.mem.clear, clearBusy := false, clearDone := true }) (s.at w) with
        gen := { s.gen with phase := 3 } } :=
  congrArg Host.Outcome.next ((if_pos hbusy).trans (if_pos ⟨hphase, hpass⟩))

/-- Settles O10, clause by clause, by the equation of the command that each is about. -/
theorem p1AndP2 : Obligations.P1AndP2 := by
  unfold Obligations.P1AndP2
  refine ⟨?boot, ?pass, ?fail, ?clear, ?refused, ?cleared⟩
  case boot =>
    intro w n s hphase htrial hstaged hactive hok
    have hexec := exec_bootRomSelect_active (w := w) hphase htrial hstaged hactive hok
    exact ⟨_, hexec, (exec_moves _ s _ hexec).only, rfl, rfl, rfl, rfl, rfl, rfl⟩
  case pass =>
    intro w s hphase hmode hdone
    exact ⟨_, exec_comparatorSelftest_pass ⟨hphase, hmode, hdone⟩, (at_only w s (Covers.rfl.trans rfl)).step (modTrd_only rfl),
      rfl, rfl, rfl⟩
  case fail =>
    intro w f s hphase hmode hdone
    obtain ⟨source, hexec⟩ := exec_comparatorSelftest_fail (w := w) (f := f) ⟨hphase, hmode, hdone⟩
    refine ⟨_, hexec, ?_⟩
    simp [modTrd, hphase, hmode]
  case clear =>
    intro w s hphase hgrant
    exact ⟨_, (exec_memClear_granted hgrant).trans (congrArg _ (memClearAct_inP2 hphase)),
      (at_only w s (Covers.rfl.trans rfl)).step (modMem_only rfl), rfl, rfl⟩
  case refused =>
    intro w s hphase hgrant
    refine ⟨_, (exec_memClear_granted hgrant).trans (congrArg _ (memClearAct_elsewhere hphase)), ?_, by simp [modMem], by simp [modMem]⟩
    exact ((at_only w s (Covers.rfl.trans rfl)).step (modMem_only rfl)).step (hwSet_moves 0xB0000 7 none Covers.rfl (.refl _ _)).only
  case cleared =>
    intro w s hphase hbusy hpass
    have hexec := exec_memClearDone_passed (w := w) hphase hbusy hpass
    exact ⟨_, hexec, (exec_moves _ s _ hexec).only, rfl, rfl, rfl, fun a => rfl⟩

end Sys2Proof.Machine

/-! Events that stay: the operations that raise events or store records keep every bit of `EVT_PEND` and of the event registers
that is set (R358, R359). -/

namespace Sys2Proof.Machine

set_option Elab.async false

open Sys2Proof

/-- Every bit of `EVT_PEND` and of the event registers that is set stays set. -/
structure EventsKept (s t : State) : Prop where
  pend : ∀ n, s.evt.pend.getLsbD n = true → t.evt.pend.getLsbD n = true
  regs : ∀ r b, (s.evt.get r).testBit b = true → (t.evt.get r).testBit b = true

theorem EventsKept.of_evt_eq {s t : State} (h : t.evt = s.evt) : EventsKept s t :=
  ⟨fun _ hn => h ▸ hn, fun _ _ hb => h ▸ hb⟩

theorem EventsKept.refl (s : State) : EventsKept s s := .of_evt_eq rfl

theorem EventsKept.trans {s t u : State} (hst : EventsKept s t) (htu : EventsKept t u) : EventsKept s u :=
  ⟨fun n hn => htu.pend n (hst.pend n hn), fun r b hb => htu.regs r b (hst.regs r b hb)⟩

theorem EventsKept.ite {c : Prop} [Decidable c] {s a b : State} (ha : EventsKept s a) (hb : EventsKept s b) :
    EventsKept s (if c then a else b) := by
  split
  · exact ha
  · exact hb

theorem hwSet_eventsKept (addr bit : Nat) (reader : Option Bool) (s : State) : EventsKept s (hwSet addr bit reader s) :=
  ⟨fun _ hn => hn, fun r b hb => by cases r <;> exact hb⟩

/-- The pending bits after a source asserts: those of before, and its own where it may assert. -/
theorem assertSource_pend (n : Nat) (s : State) :
    (assertSource n s).evt.pend = if sourceMay n s then s.evt.pend ||| (1#160 <<< n) else s.evt.pend := by
  unfold assertSource
  split
  · dsimp only
    split
    · rw [notifyAll_evt]; rfl
    · rfl
  · rfl

theorem assertSource_get (n : Nat) (s : State) (r : EvtReg) : (assertSource n s).evt.get r = s.evt.get r := by
  unfold assertSource
  split
  · dsimp only
    split
    · rw [notifyAll_evt]; cases r <;> rfl
    · cases r <;> rfl
  · rfl

theorem assertSource_eventsKept (n : Nat) (s : State) : EventsKept s (assertSource n s) := by
  refine ⟨fun k hk => ?_, fun r b hb => by rw [assertSource_get]; exact hb⟩
  rw [assertSource_pend]
  split
  · simp [hk]
  · exact hk

/-- A clear bit that is added is set, and no other bit changes. -/
theorem testBit_add_two_pow_of_clear {x b : Nat} (h : x.testBit b = false) (k : Nat) :
    (x + 2 ^ b).testBit k = (x.testBit k || decide (b = k)) := by
  have hlow : x % 2 ^ b < 2 ^ b := Nat.mod_lt _ (Nat.two_pow_pos b)
  have heven : x / 2 ^ b % 2 = 0 := by simpa [Nat.testBit_eq_decide_div_mod_eq] using h
  have hx : x + 2 ^ b = 2 ^ b * (x / 2 ^ b + 1) + x % 2 ^ b := by
    have := Nat.div_add_mod x (2 ^ b); rw [Nat.mul_add]; omega
  conv => rhs; rw [← Nat.div_add_mod x (2 ^ b)]
  rw [hx, Nat.testBit_two_pow_mul_add _ hlow, Nat.testBit_two_pow_mul_add _ hlow]
  split
  · next hk => simp [show ¬ b = k by omega]
  · next hk =>
    obtain ⟨j, rfl⟩ : ∃ j, k = b + j := ⟨k - b, by omega⟩
    rw [Nat.add_sub_cancel_left]
    cases j with
    | zero => simp [Nat.testBit_zero]; omega
    | succ j => simp only [Nat.testBit_succ]; rw [show (x / 2 ^ b + 1) / 2 = x / 2 ^ b / 2 by omega]; simp

/-- A register written leaves the others as they were. -/
theorem EvtState.get_put_other (e : EvtState) (v : Nat) {r q : EvtReg} (h : q ≠ r) : (e.put v r).get q = e.get q := by
  cases r
  case prt n =>
    cases q
    case prt m => exact getD_putAt_other (fun hnm => h (congrArg _ hnm.symm)) v 0
    all_goals rfl
  case tevt n =>
    cases q
    case tevt m => exact getD_putAt_other (fun hnm => h (congrArg _ hnm.symm)) v 0
    all_goals rfl
  all_goals
    cases q
    all_goals first | rfl | exact absurd rfl h
/-- A place of a list written reads as written, or the list is too short and stays as it was. -/
theorem getD_putAt_self_or {α : Type} (l : List α) (i : Nat) (a d : α) :
    (putAt l i a).getD i d = a ∨ (putAt l i a).getD i d = l.getD i d := by
  by_cases h : i < l.length
  · exact .inl (getD_putAt_self h a d)
  · exact .inr (congrArg (List.getD · i d) (List.set_eq_of_length_le (Nat.le_of_not_lt h)))

theorem EvtState.get_put_self_or (e : EvtState) (v : Nat) (r : EvtReg) : (e.put v r).get r = v ∨ (e.put v r).get r = e.get r := by
  cases r
  case prt n => exact getD_putAt_self_or _ _ _ _
  case tevt n => exact getD_putAt_self_or _ _ _ _
  case tmb => exact .inr rfl
  case bsl => exact .inr rfl
  all_goals exact .inl rfl

@[simp] theorem hwSet_get (addr bit : Nat) (reader : Option Bool) (s : State) (r : EvtReg) :
    (hwSet addr bit reader s).evt.get r = s.evt.get r := by cases r <;> rfl

/-- An event added to a register where its bit was clear: no bit of any register is lost. -/
theorem EvtState.put_keeps_bits {e : EvtState} {r : EvtReg} {bit : Nat} (hclear : (e.get r).testBit bit = false) {q : EvtReg} {b : Nat}
    (hb : (e.get q).testBit b = true) : ((e.put (e.get r + 2 ^ bit) r).get q).testBit b = true := by
  by_cases hq : q = r
  · subst hq
    rcases e.get_put_self_or (e.get q + 2 ^ bit) q with hv | hv
    · rw [hv, testBit_add_two_pow_of_clear hclear, hb]; rfl
    · rw [hv]; exact hb
  · rw [e.get_put_other _ hq]; exact hb

theorem raise_eventsKept (r : EvtReg) (bit : Nat) (s : State) : EventsKept s (raise r bit s) := by
  unfold raise
  dsimp only
  split
  · exact hwSet_eventsKept _ _ _ s
  · next hclear =>
    refine .trans ⟨fun n hn => ?_, fun q b hb => ?_⟩ (assertSource_eventsKept _ _)
    · cases r <;> exact hn
    · exact EvtState.put_keeps_bits (Bool.eq_false_iff.mpr hclear) (by rw [hwSet_get]; exact hb)

theorem EventsKept.raise {s t : State} {r : EvtReg} {bit : Nat} (h : EventsKept s t) : EventsKept s (raise r bit t) :=
  h.trans (raise_eventsKept r bit t)

theorem tmbEvent_eventsKept (n : Nat) (s : State) : EventsKept s (tmbEvent n s) := raise_eventsKept .tmb n s

/-- An event whose register bit was clear leaves its source pending, where the source may assert. -/
theorem raise_pend_self {r : EvtReg} {bit : Nat} {s : State} (hclear : (s.evt.get r).testBit bit = false) (hn : r.source bit < 148) :
    (raise r bit s).evt.pend.getLsbD (r.source bit) = true := by
  unfold raise
  dsimp only
  rw [if_neg (by rw [hwSet_get, hclear]; exact Bool.false_ne_true)]
  exact assertSource_pend_self (by omega) (sourceMay_of_lt hn _)

theorem EventsKept.when {c : Bool} {f : State → State} {s t : State} (hf : ∀ u, EventsKept u (f u)) (h : EventsKept s t) :
    EventsKept s (when c f t) := by
  cases c with
  | true => exact h.trans (hf t)
  | false => exact h

/-! ### Records (R322, R330) -/

theorem queueJob_eventsKept (j : KprJob) (s : State) : EventsKept s (queueJob j s) := by
  unfold queueJob
  dsimp only
  exact .ite (.of_evt_eq rfl) (.raise (.of_evt_eq rfl))

theorem queueLedger_eventsKept (force : Bool) (s : State) : EventsKept s (queueLedger force s) :=
  .ite (queueJob_eventsKept _ s) (.refl s)

theorem noteHold_eventsKept (was : Nat) (s : State) : EventsKept s (noteHold was s) :=
  .when (raise_eventsKept .lgr 2) (.refl s)

theorem EventsKept.holdRecord {s t : State} {r : LedgerRecord} (h : EventsKept s t) : EventsKept s (holdRecord r t) := by
  unfold Machine.holdRecord
  dsimp only
  refine .ite (.raise (h.trans (.of_evt_eq rfl))) ?_
  refine .trans (h.trans ?_) ((noteHold_eventsKept _ _).trans (queueLedger_eventsKept _ _))
  cases t.recordOwner <;> exact .of_evt_eq rfl

theorem EventsKept.suppressRecord {s t : State} {code time : Nat} (h : EventsKept s t) :
    EventsKept s (suppressRecord code time t) :=
  .when (raise_eventsKept .lgr 1) (h.trans (.of_evt_eq rfl))

theorem ledger_eventsKept (code source : Nat) (data : List Nat) (s : State) : EventsKept s (ledger code source data s) := by
  unfold ledger admitRecord
  split
  · exact .holdRecord (.refl s)
  · split
    · exact .holdRecord (.of_evt_eq rfl)
    · exact .suppressRecord (.of_evt_eq rfl)

end Sys2Proof.Machine

/-! Offset samples (R67, R68, R70, R71, R77): what a Sync of the selected port does to the servo. -/

namespace Sys2Proof.Machine

set_option Elab.async false

open Sys2Proof

/-- A change of the time base that leaves the parts that stand alone. -/
theorem setTmb_only {x : TmbState} {s : State} (hpulses : x.gens = s.tmb.gens ∧ x.tpo = s.tmb.tpo)
    (hsnaps : x.snapFw = s.tmb.snapFw ∧ x.snapHost = s.tmb.snapHost)
    (hdelays : x.meanDelay = s.tmb.meanDelay ∧ x.pdelayT1 = s.tmb.pdelayT1 ∧ x.pdelayResp = s.tmb.pdelayResp ∧ x.twoStep = s.tmb.twoStep) :
    Only [.timebase] s { s with tmb := x } := by
  refine ⟨rfl, fun p hp => ?_⟩
  cases p
  case timebase => exact absurd List.mem_cons_self hp
  case pulses => exact hpulses
  case snaps => exact hsnaps
  case delays => exact hdelays
  all_goals simp [Part.Same]

/-! ### The servo changes its state (R69 to R72) -/

theorem setServo_acquiring {s : State} (h : s.tmb.state ≠ 1) : setServo 1 s =
    ledger 0x0103 0xFFFF [s.tmb.state, 1] (tmbEvent 0 (endHoldover (putServo 1 (freqHold s)))) := by
  simp [setServo, h, servoEvents]

theorem setServo_holdover {s : State} (h : s.tmb.state ≠ 3) : setServo 3 s =
    ledger 0x0103 0xFFFF [s.tmb.state, 3] (tmbEvent 2 (tmbEvent 0 (startHoldover s.lockedFor (putServo 3 (freqHold s))))) := by
  simp [setServo, h, servoEvents]

theorem setServo_acquiring_only {s : State} (h : s.tmb.state ≠ 1) :
    Only [.events, .timebase, .ledger, .keeper, .sessions, .host] s (setServo 1 s) := by
  rw [setServo_acquiring h]
  exact (ledger_moves _ _ _ (Covers.rfl.trans rfl) (tmbEvent_moves 0 (Covers.rfl.trans rfl) (endHoldover_moves (Covers.rfl.trans rfl)
    (putServo_moves (Covers.rfl.trans rfl) (by decide) (freqHold_moves (Covers.rfl.trans rfl) (.refl _ s)))))).only

theorem setServo_holdover_only {s : State} (h : s.tmb.state ≠ 3) :
    Only [.events, .timebase, .ledger, .keeper, .sessions, .host] s (setServo 3 s) := by
  rw [setServo_holdover h]
  exact (ledger_moves _ _ _ (Covers.rfl.trans rfl) (tmbEvent_moves 2 (Covers.rfl.trans rfl) (tmbEvent_moves 0 (Covers.rfl.trans rfl)
    (startHoldover_moves _ (Covers.rfl.trans rfl) (putServo_moves (Covers.rfl.trans rfl) (by decide)
      (freqHold_moves (Covers.rfl.trans rfl) (.refl _ s))))))).only

theorem setServo_acquiring_tmb {s : State} (h : s.tmb.state ≠ 1) :
    (setServo 1 s).tmb = (endHoldover (putServo 1 (freqHold s))).tmb := by
  rw [setServo_acquiring h, ledger_tmb, tmbEvent_tmb]

theorem setServo_holdover_tmb {s : State} (h : s.tmb.state ≠ 3) :
    (setServo 3 s).tmb = (startHoldover s.lockedFor (putServo 3 (freqHold s))).tmb := by
  rw [setServo_holdover h, ledger_tmb, tmbEvent_tmb, tmbEvent_tmb]

/-- Entry into HOLDOVER notes its instant and raises the events of a state change and of the holdover. -/
theorem setServo_holdover_shows {s : State} (h : s.tmb.state ≠ 3) :
    (setServo 3 s).tmb.state = 3 ∧ (setServo 3 s).tmb.holdSince = some s.aon
      ∧ (setServo 3 s).evt.pend.getLsbD 80 = true ∧ (setServo 3 s).evt.pend.getLsbD 82 = true := by
  rw [setServo_holdover_tmb h, setServo_holdover h]
  exact ⟨rfl, rfl, (ledger_eventsKept _ _ _ _).pend 80 ((tmbEvent_eventsKept 2 _).pend 80 (tmbEvent_pend (n := 0) (by decide) _)),
    (ledger_eventsKept _ _ _ _).pend 82 (tmbEvent_pend (n := 2) (by decide) _)⟩

/-! ### A sample by the servo's state (R68, R70) -/

section Sample

variable {offset est : Int} {s : State}

theorem servoSample_inBound (hst : s.tmb.state = 2) (hoff : offset.natAbs ≤ usTicks 1) : servoSample offset est s =
    steer { s with tmb := { s.tmb with offset := satOffset offset, lastSampleAt := s.aon, outlierRun := 0, lastEst := some est } } := by
  simp [servoSample, hst, Nat.not_lt.mpr hoff]

theorem servoSample_outlier (hst : s.tmb.state = 2) (hoff : usTicks 1 < offset.natAbs) (hrun : s.tmb.outlierRun < 3) :
    servoSample offset est s = { s with tmb := { s.tmb with
      offset := satOffset offset, lastSampleAt := s.aon, outliers := tallyInc s.tmb.outliers, outlierRun := s.tmb.outlierRun + 1 } } := by
  simp [servoSample, hst, hoff, show ¬ 3 ≤ s.tmb.outlierRun by omega]

theorem servoSample_fourthOutlier (hst : s.tmb.state = 2) (hoff : usTicks 1 < offset.natAbs) (hrun : 3 ≤ s.tmb.outlierRun) :
    servoSample offset est s = setServo 3 { s with tmb := { s.tmb with
      offset := satOffset offset, lastSampleAt := s.aon, outliers := tallyInc s.tmb.outliers, outlierRun := s.tmb.outlierRun + 1 } } := by
  simp [servoSample, hst, hoff, hrun]

theorem servoSample_inP5 (hst : s.tmb.state = 0) (himp : s.tmb.implausible = false) (hphase : s.gen.phase = 5) :
    servoSample offset est s = acquireSample 0 est (setServo 1 (coarseSet offset
      { s with tmb := { s.tmb with offset := satOffset offset, lastSampleAt := s.aon } })) := by
  simp [servoSample, hst, himp, hphase]

theorem servoSample_near (hst : s.tmb.state = 0) (himp : s.tmb.implausible = false) (hphase : s.gen.phase ≠ 5)
    (hoff : offset.natAbs ≤ msTicks 1) : servoSample offset est s = acquireSample offset est (setServo 1
      { s with tmb := { s.tmb with offset := satOffset offset, lastSampleAt := s.aon, timeSet := true } }) := by
  simp [servoSample, hst, himp, hphase, hoff]

theorem servoSample_implausible (hst : s.tmb.state = 0) (himp : s.tmb.implausible = false) (hphase : s.gen.phase ≠ 5)
    (hoff : msTicks 1 < offset.natAbs) : servoSample offset est s = tmbEvent 5
      { s with tmb := { s.tmb with offset := satOffset offset, lastSampleAt := s.aon, implausible := true, badOffset := offset } } := by
  simp [servoSample, hst, himp, hphase, Nat.not_le.mpr hoff]

/-- The first sample of a run in ACQUIRING does not lock the servo. -/
theorem acquireSample_first (hrun : s.tmb.goodRun = 0) : ∃ run, acquireSample offset est s = steer { s with tmb := { s.tmb with
    stepLeft := if usTicks 1 < offset.natAbs then -offset else s.tmb.stepLeft, goodRun := run, lastEst := some est } } := by
  refine ⟨_, if_neg ?_⟩
  simp only [hrun]
  split
  all_goals
    split
    · decide
    · split <;> decide

/-- The sample of a coarse set, at offset 0, asks for no phase step. -/
theorem acquireSample_first_exact (hrun : s.tmb.goodRun = 0) : ∃ run, acquireSample 0 est s = steer { s with tmb := { s.tmb with
    goodRun := run, lastEst := some est } } := by
  simpa [usTicks] using acquireSample_first (offset := 0) (est := est) hrun

end Sample

/-! ### SYNC_RECEIVED -/

/-- The state in which a Sync of the port was noted at its instant. -/
def State.syncSeen (s : State) (w : When) (p : Nat) : State :=
  modSource 1 p (fun x => { x with lastSync := max s.aon w.a }) (s.at w)

theorem syncSeen_only (s : State) (w : When) (p : Nat) : Only [.time, .timebase] s (s.syncSeen w p) :=
  (modSource_moves 1 p _ (Covers.rfl.trans rfl) (at_moves w (Covers.rfl.trans rfl) (.refl _ s))).only

/-- A Sync that its port hears is noted and then judged, and one that the port does not let in is dropped. -/
theorem exec_syncReceived {w : When} {f : SyncFrame} {s : State} : exec (.syncReceived w f) s = .next (
    if !s.ptpHears f.port.val then s.at w
    else if !s.slaveCapable f.port.val || f.domain != s.ptp.domain then ptpDrop f.port.val (s.at w)
    else if !s.selectedPort f.port.val then s.syncSeen w f.port.val
    else if f.twoStep then
      { s.syncSeen w f.port.val with
        tmb := { (s.syncSeen w f.port.val).tmb with twoStep := some f, twoStepRx := s.syncArrival f.port.val f.t2 } }
    else servoSample (syncOffset s f.port.val f.t1 (s.syncArrival f.port.val f.t2) f.corr) f.freqEst (s.syncSeen w f.port.val)) := rfl

/-- A Sync that the servo may use: its port may be slave and hears it, of the profile's domain, on the port in use. -/
structure State.ServoTakes (s : State) (f : SyncFrame) : Prop where
  slave : s.slaveCapable f.port.val = true
  hears : s.ptpHears f.port.val = true
  domain : f.domain = s.ptp.domain
  selected : s.selectedPort f.port.val = true

theorem exec_syncReceived_oneStep {w : When} {f : SyncFrame} {s : State} (h : s.ServoTakes f) (hone : f.twoStep = false) :
    exec (.syncReceived w f) s = .next
      (servoSample (syncOffset s f.port.val f.t1 (s.syncArrival f.port.val f.t2) f.corr) f.freqEst (s.syncSeen w f.port.val)) := by
  rw [exec_syncReceived]
  simp [h.hears, h.slave, h.domain, h.selected, hone]

theorem exec_syncReceived_twoStep {w : When} {f : SyncFrame} {s : State} (h : s.ServoTakes f) (htwo : f.twoStep = true) :
    exec (.syncReceived w f) s = .next { s.syncSeen w f.port.val with
      tmb := { (s.syncSeen w f.port.val).tmb with twoStep := some f, twoStepRx := s.syncArrival f.port.val f.t2 } } := by
  rw [exec_syncReceived]
  simp [h.hears, h.slave, h.domain, h.selected, htwo]

theorem exec_syncReceived_dropped {w : When} {f : SyncFrame} {s : State} (hhears : s.ptpHears f.port.val = true)
    (hnot : s.slaveCapable f.port.val = false ∨ f.domain ≠ s.ptp.domain) :
    exec (.syncReceived w f) s = .next (ptpDrop f.port.val (s.at w)) := by
  rw [exec_syncReceived, if_neg (by simp [hhears]), if_pos (by simpa using hnot)]

theorem ptpDrop_station {p : Nat} {s : State} (hp : p < 64) :
    ptpDrop p s = modPort p (fun x => { x with ptpDiscard := tallyInc x.ptpDiscard }) s := if_pos hp

theorem ptpDrop_host {p : Nat} {s : State} (hp : 64 ≤ p) :
    ptpDrop p s = { s with hif := { s.hif with discard := updAt s.hif.discard (p - 64) tallyInc } } := if_neg (Nat.not_lt.mpr hp)

/-- A change of the host interface's own registers. -/
theorem setHif_only {x : HifState} {s : State} (hses : x.sessions = s.hif.sessions ∧ x.egress = s.hif.egress)
    (hacc : x.access = s.hif.access ∧ x.accessStoring = s.hif.accessStoring ∧ x.accessReady = s.hif.accessReady) :
    Only [.host] s { s with hif := x } := by
  refine ⟨rfl, fun p hp => ?_⟩
  cases p
  case host => exact absurd List.mem_cons_self hp
  case sessions => exact hses
  case access => exact hacc
  all_goals simp [Part.Same]

/-- A change of the waiting Sync, with its arrival. -/
theorem setTwoStep_only {y : Option SyncFrame} {rx : Int} (s : State) :
    Only [.timebase, .delays] s { s with tmb := { s.tmb with twoStep := y, twoStepRx := rx } } := by
  refine ⟨rfl, fun p hp => ?_⟩
  cases p
  case timebase => exact absurd List.mem_cons_self hp
  case delays => exact absurd (by decide) hp
  all_goals simp [Part.Same]

/-- Settles O12: each clause is one branch of `exec_syncReceived` and, in LOCKED, one of the sample's. -/
theorem anOffsetSampleInLocked : Obligations.AnOffsetSampleInLocked := by
  unfold Obligations.AnOffsetSampleInLocked
  refine ⟨?within, ?outlier, ?fourth, ?twoStep, ?dropStation, ?dropHost, ?fenced⟩
  case within =>
    intro w f s hslave hhears hdom hsel hone hst hoff
    refine ⟨_, (exec_syncReceived_oneStep ⟨hslave, hhears, hdom, hsel⟩ hone).trans
      (congrArg _ (servoSample_inBound (s := s.syncSeen w f.port.val) hst hoff)), ?_, hst, rfl, rfl, rfl, rfl⟩
    exact .after (steer_moves Covers.rfl (.refl _ _)).only
      (.after (setTmb_only ⟨rfl, rfl⟩ ⟨rfl, rfl⟩ ⟨rfl, rfl, rfl, rfl⟩) (syncSeen_only s w _).mono)
  case outlier =>
    intro w f s hslave hhears hdom hsel hone hst hoff hrun
    exact ⟨_, (exec_syncReceived_oneStep ⟨hslave, hhears, hdom, hsel⟩ hone).trans
      (congrArg _ (servoSample_outlier (s := s.syncSeen w f.port.val) hst hoff hrun)),
      .after (setTmb_only ⟨rfl, rfl⟩ ⟨rfl, rfl⟩ ⟨rfl, rfl, rfl, rfl⟩) (syncSeen_only s w _), hst, rfl, rfl, rfl⟩
  case fourth =>
    intro w f s hslave hhears hdom hsel hone hst hoff hrun
    have hne : s.tmb.state ≠ 3 := by omega
    refine ⟨_, (exec_syncReceived_oneStep ⟨hslave, hhears, hdom, hsel⟩ hone).trans
      (congrArg _ (servoSample_fourthOutlier (s := s.syncSeen w f.port.val) hst hoff hrun)), ?_, setServo_holdover_shows hne⟩
    exact .after (setServo_holdover_only hne)
      (.after (setTmb_only ⟨rfl, rfl⟩ ⟨rfl, rfl⟩ ⟨rfl, rfl, rfl, rfl⟩) (syncSeen_only s w _).mono)
  case twoStep =>
    intro w f s hslave hhears hdom hsel htwo
    exact ⟨_, exec_syncReceived_twoStep ⟨hslave, hhears, hdom, hsel⟩ htwo,
      .after (setTwoStep_only _) (syncSeen_only s w _).mono, rfl, rfl, rfl, rfl⟩
  case dropStation =>
    intro w f s hnot hhears hp
    refine ⟨_, (exec_syncReceived_dropped hhears hnot).trans (congrArg _ (ptpDrop_station hp)), ?_, rfl⟩
    exact (modPort_moves _ _ (Covers.rfl.trans rfl) (at_moves w (Covers.rfl.trans rfl) (.refl _ s))).only
  case dropHost =>
    intro w f s hnot hhears hp
    exact ⟨_, (exec_syncReceived_dropped hhears hnot).trans (congrArg _ (ptpDrop_host hp)),
      (at_only w s (Covers.rfl.trans rfl)).step (setHif_only ⟨rfl, rfl⟩ ⟨rfl, rfl, rfl⟩), rfl⟩
  case fenced =>
    intro w f s hhears
    refine ⟨s.at w, ?_, at_only w s Covers.rfl⟩
    rw [exec_syncReceived, if_pos (by simp [hhears])]

/-! ### The first sample (R67, R70, R71) -/

@[simp] theorem redateLeap_pending (t : Nat) (s : State) : (redateLeap t s).pending = s.pending :=
  (redateLeap_moves t Covers.rfl (.refl [.timebase] s)).queue

/-- Dating the leap anew changes its date only. -/
theorem redateLeap_eq (t : Nat) (s : State) : ∃ leap, redateLeap t s = { s with tmb := { s.tmb with leapAt := leap } } := by
  unfold redateLeap
  split
  · exact ⟨_, rfl⟩
  · exact ⟨s.tmb.leapAt, rfl⟩

/-- What a coarse set leaves (R67). -/
theorem coarseSet_keeps (offset : Int) (s : State) :
    (coarseSet offset s).now = ((s.now : Int) - offset).toNat ∧ (coarseSet offset s).discont = true
      ∧ (coarseSet offset s).tmb.stepLeft = 0 ∧ (coarseSet offset s).tmb.timeSet = true
      ∧ (coarseSet offset s).tmb.state = s.tmb.state ∧ (coarseSet offset s).prt = s.prt ∧ (coarseSet offset s).seq = s.seq
      ∧ (coarseSet offset s).gen = s.gen ∧ (coarseSet offset s).pending = s.pending := by
  unfold coarseSet
  dsimp only
  generalize hbase : redateLeap _ _ = t
  obtain ⟨leap, heq⟩ := redateLeap_eq _ _
  subst hbase
  rw [heq]
  exact ⟨rfl, rfl, rfl, rfl, rfl, rfl, rfl, rfl, rfl⟩

/-- A servo that goes into ACQUIRING, or is in it, keeps its phase step, module time and every unit beside the time base's. -/
theorem setServo_acquiring_keeps (s : State) : (setServo 1 s).tmb.state = 1 ∧ (setServo 1 s).tmb.stepLeft = s.tmb.stepLeft
    ∧ (setServo 1 s).tmb.timeSet = s.tmb.timeSet ∧ (setServo 1 s).tmb.implausible = s.tmb.implausible ∧ (setServo 1 s).now = s.now
    ∧ (setServo 1 s).discont = s.discont ∧ (setServo 1 s).prt = s.prt ∧ (setServo 1 s).seq = s.seq ∧ (setServo 1 s).gen = s.gen
    ∧ (setServo 1 s).pending = s.pending := by
  by_cases h : s.tmb.state = 1
  · rw [show setServo 1 s = s from if_pos h]
    exact ⟨h, rfl, rfl, rfl, rfl, rfl, rfl, rfl, rfl, rfl⟩
  · rw [setServo_acquiring h]
    simp [endHoldover, putServo, freqHold]

/-- The run of good samples starts anew with the entry into ACQUIRING. -/
theorem setServo_acquiring_goodRun {s : State} (h : s.tmb.state ≠ 1) : (setServo 1 s).tmb.goodRun = 0 := by
  rw [setServo_acquiring h]
  simp [endHoldover, putServo, freqHold]

theorem exec_stepAccept_granted {w : When} {who : Agent} {s : State} (hgrant : (s.at w).grants who 0x10000 = true) :
    exec (.stepAccept w who) s = .next (stepAcceptAct who (s.at w)) :=
  congrArg Host.Outcome.next (Laws.asWrite_grants hgrant)

/-- An accepted step: the refused offset is to be slewed away, and the servo goes into ACQUIRING (R71). -/
theorem stepAcceptAct_accepted {who : Agent} {s : State} (hwho : fwOrEngineer who s = true) (himp : s.tmb.implausible = true) :
    ∃ leap, stepAcceptAct who s = setServo 1 { ledger 0x0101 0xFFFF (two (unsignedOf 64 s.tmb.badOffset)) s with
      tmb := { s.tmb with implausible := false, timeSet := true, stepLeft := -s.tmb.badOffset, leapAt := leap } } := by
  simp only [stepAcceptAct, hwho, himp, Bool.and_self, if_true, ledger_tmb]
  obtain ⟨leap, hleap⟩ := redateLeap_eq (((ledger 0x0101 0xFFFF (two (unsignedOf 64 s.tmb.badOffset)) s).now : Int) - s.tmb.badOffset).toNat
    { ledger 0x0101 0xFFFF (two (unsignedOf 64 s.tmb.badOffset)) s with
      tmb := { s.tmb with implausible := false, timeSet := true, stepLeft := -s.tmb.badOffset } }
  exact ⟨leap, congrArg (setServo 1) hleap⟩

theorem stepAcceptAct_ignored {who : Agent} {s : State} (h : fwOrEngineer who s = false ∨ s.tmb.implausible = false) :
    stepAcceptAct who s = s := if_neg (by rcases h with h | h <;> simp [h])

/-- The first sample in P5: a coarse set, and ACQUIRING (R67, R70). -/
theorem servoSample_inP5_sets {offset est : Int} {s : State} (hst : s.tmb.state = 0) (himp : s.tmb.implausible = false)
    (hphase : s.gen.phase = 5) : (servoSample offset est s).pending = s.pending ∧ (servoSample offset est s).tmb.state = 1
      ∧ (servoSample offset est s).tmb.timeSet = true ∧ (servoSample offset est s).discont = true
      ∧ (servoSample offset est s).tmb.stepLeft = 0 ∧ (servoSample offset est s).now = ((s.now : Int) - offset).toNat
      ∧ (servoSample offset est s).prt = s.prt ∧ (servoSample offset est s).seq = s.seq ∧ (servoSample offset est s).gen = s.gen := by
  rw [servoSample_inP5 hst himp hphase]
  generalize hbase : State.mk .. = base
  obtain ⟨cnow, cdis, cstep, cset, cst, cprt, cseq, cgen, cpend⟩ := coarseSet_keeps offset base
  have hne : (coarseSet offset base).tmb.state ≠ 1 := by
    rw [cst, ← hbase]; exact fun h => absurd (hst.symm.trans h) (by decide)
  obtain ⟨run, hacq⟩ := acquireSample_first_exact (est := est) (setServo_acquiring_goodRun hne)
  generalize coarseSet offset base = c at *
  obtain ⟨vst, vstep, vset, _, vnow, vdis, vprt, vseq, vgen, vpend⟩ := setServo_acquiring_keeps c
  generalize setServo 1 c = v at *
  rw [hacq]
  subst hbase
  exact ⟨vpend.trans cpend, vst, vset.trans cset, vdis.trans cdis, vstep.trans cstep, vnow.trans cnow, vprt.trans cprt,
    vseq.trans cseq, vgen.trans cgen⟩

/-- The first sample outside P5, within 1 ms: ACQUIRING without a coarse set (R70, R71). -/
theorem servoSample_near_starts {offset est : Int} {s : State} (hst : s.tmb.state = 0) (himp : s.tmb.implausible = false)
    (hphase : s.gen.phase ≠ 5) (hoff : offset.natAbs ≤ msTicks 1) :
    Only [.draws, .events, .timebase, .ledger, .keeper, .sessions, .host] s (servoSample offset est s)
      ∧ (servoSample offset est s).tmb.state = 1 ∧ (servoSample offset est s).tmb.timeSet = true
      ∧ (servoSample offset est s).now = s.now := by
  rw [servoSample_near hst himp hphase hoff]
  generalize hbase : State.mk .. = base
  have hne : base.tmb.state ≠ 1 := by rw [← hbase]; exact fun h => absurd (hst.symm.trans h) (by decide)
  have honly : Only [.timebase] s base := by
    rw [← hbase]; exact setTmb_only ⟨rfl, rfl⟩ ⟨rfl, rfl⟩ ⟨rfl, rfl, rfl, rfl⟩
  have hset : base.tmb.timeSet = true := hbase ▸ rfl
  have hnow : base.now = s.now := hbase ▸ rfl
  obtain ⟨vst, _, vset, _, vnow, _⟩ := setServo_acquiring_keeps base
  obtain ⟨run, hacq⟩ := acquireSample_first (offset := offset) (est := est) (setServo_acquiring_goodRun hne)
  have vonly := setServo_acquiring_only hne
  generalize setServo 1 base = v at *
  rw [hacq]
  exact ⟨.after (steer_moves Covers.rfl (.refl _ _)).only (.after (setTmb_only ⟨rfl, rfl⟩ ⟨rfl, rfl⟩ ⟨rfl, rfl, rfl, rfl⟩)
    (.after vonly honly.mono)), vst, vset.trans hset, vnow.trans hnow⟩

/-- The first sample outside P5, beyond 1 ms: the offset is noted as implausible (R71). -/
theorem servoSample_implausible_shows {offset est : Int} {s : State} (hst : s.tmb.state = 0) (himp : s.tmb.implausible = false)
    (hphase : s.gen.phase ≠ 5) (hoff : msTicks 1 < offset.natAbs) :
    Only [.events, .timebase, .sessions, .host] s (servoSample offset est s) ∧ (servoSample offset est s).tmb.state = 0
      ∧ (servoSample offset est s).tmb.implausible = true ∧ (servoSample offset est s).tmb.badOffset = offset
      ∧ (servoSample offset est s).evt.pend.getLsbD 85 = true ∧ (servoSample offset est s).tmb.timeSet = s.tmb.timeSet := by
  rw [servoSample_implausible hst himp hphase hoff, tmbEvent_tmb]
  exact ⟨.after (tmbEvent_moves 5 Covers.rfl (.refl _ _)).only (.mono (setTmb_only ⟨rfl, rfl⟩ ⟨rfl, rfl⟩ ⟨rfl, rfl, rfl, rfl⟩)),
    hst, rfl, rfl, tmbEvent_pend (n := 5) (by decide) _, rfl⟩

/-- An accepted step starts ACQUIRING; module time and the start are as they were. -/
theorem stepAcceptAct_starts {who : Agent} {s : State} (hwho : fwOrEngineer who s = true) (himp : s.tmb.implausible = true) :
    (stepAcceptAct who s).pending = s.pending ∧ (stepAcceptAct who s).tmb.state = 1
      ∧ (stepAcceptAct who s).tmb.implausible = false ∧ (stepAcceptAct who s).tmb.timeSet = true
      ∧ (stepAcceptAct who s).tmb.stepLeft = -s.tmb.badOffset ∧ (stepAcceptAct who s).now = s.now
      ∧ (stepAcceptAct who s).gen = s.gen ∧ (stepAcceptAct who s).discont = s.discont := by
  obtain ⟨leap, hact⟩ := stepAcceptAct_accepted hwho himp
  rw [hact]
  generalize hbase : State.mk .. = base
  obtain ⟨vst, vstep, vset, vimp, vnow, vdis, _, _, vgen, vpend⟩ := setServo_acquiring_keeps base
  subst hbase
  exact ⟨vpend.trans (ledger_pending _ _ _ _), vst, vimp, vset, vstep, vnow.trans (ledger_now _ _ _ _),
    vgen.trans (ledger_gen _ _ _ _), vdis.trans (ledger_discont _ _ _ _)⟩

/-- Settles O13, by the branches of the sample in FREE and of STEP_ACCEPT. -/
theorem theFirstSampleSetsTime : Obligations.TheFirstSampleSetsTime := by
  unfold Obligations.TheFirstSampleSetsTime
  refine ⟨?inP5, ?near, ?implausible, ?accepted, ?ignored⟩
  case inP5 =>
    intro w f s hslave hhears hdom hsel hone hst himp hphase
    obtain ⟨hpend, hstate, hset, hdis, hstep, hnow, hunits⟩ := servoSample_inP5_sets
      (offset := syncOffset s f.port.val f.t1 (s.syncArrival f.port.val f.t2) f.corr) (est := f.freqEst)
      (s := s.syncSeen w f.port.val) hst himp hphase
    refine ⟨_, exec_syncReceived_oneStep ⟨hslave, hhears, hdom, hsel⟩ hone, hpend, hstate, hset, hdis, hstep, ?_, hunits⟩
    have hmax : ((max s.now w.t : Nat) : Int) = max (s.now : Int) (w.t : Int) := by omega
    rw [hnow, ← hmax]
    rfl
  case near =>
    intro w f s hslave hhears hdom hsel hone hst himp hphase hoff
    obtain ⟨honly, hstate, hset, hnow⟩ := servoSample_near_starts (est := f.freqEst) (s := s.syncSeen w f.port.val) hst himp hphase hoff
    exact ⟨_, exec_syncReceived_oneStep ⟨hslave, hhears, hdom, hsel⟩ hone, .after honly (syncSeen_only s w _).mono, hstate, hset, hnow⟩
  case implausible =>
    intro w f s hslave hhears hdom hsel hone hst himp hphase hoff
    obtain ⟨honly, hshown⟩ := servoSample_implausible_shows (est := f.freqEst) (s := s.syncSeen w f.port.val) hst himp hphase hoff
    exact ⟨_, exec_syncReceived_oneStep ⟨hslave, hhears, hdom, hsel⟩ hone, .after honly (syncSeen_only s w _).mono, hshown⟩
  case accepted =>
    exact fun w who s hwho himp hgrant =>
      ⟨_, exec_stepAccept_granted hgrant, stepAcceptAct_starts (s := s.at w) hwho himp⟩
  case ignored =>
    intro w who s hnot hgrant
    exact ⟨_, (exec_stepAccept_granted hgrant).trans (congrArg _ (stepAcceptAct_ignored (s := s.at w) hnot)), at_only w s Covers.rfl⟩

end Sys2Proof.Machine

/-! The path delay (R78, R82): the stamp of a Pdelay_Req is kept raw, and the constants of its instant enter with the exchange. -/

namespace Sys2Proof.Machine

set_option Elab.async false

open Sys2Proof

/-- A module whose port 0 has an egress constant of ten ticks. -/
def egressTen : State := { cfg := { cur := { asym := [{ egr := 10 }] } } }

/-- The exchange of raw stamps 0 and 0 at that port: its request left ten ticks after its raw stamp, so the difference is -10,
whichever way an odd one is halved. -/
theorem peerDelay_egressTen : peerDelay egressTen 0 0 0 0 = -5 := by
  have hrx : egressTen.rxStamp 0 0 = 0 := by decide
  have htx : egressTen.txStamp 0 0 = 10 := by decide
  unfold peerDelay
  rw [hrx, htx]
  split <;> decide

/-- Refutes O14: its fourth clause takes the round trip from the request's raw stamp. The egress constant of the port belongs to it
(R78, R81), so a port with an egress constant of ten ticks is ten ticks off, not one. -/
theorem not_followUpsAndPathDelays : ¬ Obligations.FollowUpsAndPathDelays := by
  unfold Obligations.FollowUpsAndPathDelays
  rintro ⟨_, _, _, _, hround, _⟩
  have hbound := hround egressTen 0 0 0 0
  rw [peerDelay_egressTen, show egressTen.rxStamp 0 0 = 0 by decide] at hbound
  exact absurd hbound (by decide)

end Sys2Proof.Machine

/-! The sources of the time base (R70, R72, R85, R87, R88) and its registers (R73, R353). -/

namespace Sys2Proof.Machine

set_option Elab.async false

open Sys2Proof

/-! ### The label of an inserted second (R85, R93) -/

/-- A servo that follows no pin source, just after a leap second was inserted at instant 0. -/
def afterInsertedLeap : State := { tmb := { state := 1, lastLeap := some (0, true) } }

/-- The frame of the inserted second itself: second 86,400 of its day. -/
def insertedSecond : IrigFrame := { secOfDay := 86400, day := 366 }

/-- Refutes O15: its fifth clause dates every frame's label with the offset in force. The frame of an inserted second, which comes
within two seconds of the leap, is dated with the offset before it (`State.labelOffset`, R93): one second earlier. -/
theorem not_pinSourcesAndAnnounces : ¬ Obligations.PinSourcesAndAnnounces := by
  unfold Obligations.PinSourcesAndAnnounces
  rintro ⟨_, _, _, _, hlabel, _⟩
  obtain ⟨t, hexec, _, _, hshown, _⟩ := hlabel {} insertedSecond afterInsertedLeap (by decide) (by decide) (by decide)
  have hearlier : (exec (.irigbFrame {} insertedSecond) afterInsertedLeap) = .next t → t.tmb.irigLabel = some (0, 978307199) := by
    intro h
    cases h
    decide
  have hclaimed : (insertedSecond.onTime, (irigLabelAt insertedSecond afterInsertedLeap.irigOffset (afterInsertedLeap.at {}).yearRef).toNat)
      = (0, 978307200) := by decide
  rw [hearlier hexec, hclaimed] at hshown
  exact absurd hshown (by decide)

/-! ### A source is taken or given up (R87, R88) -/

/-- A new offset to UTC changes the offset and its log only. -/
theorem putTaiUtc_eq (instant : Nat) (v : Int) (s : State) :
    ∃ off log, putTaiUtc instant v s = { s with tmb := { s.tmb with taiUtc := off, utcLog := log } } := by
  unfold putTaiUtc
  split
  · exact ⟨s.tmb.taiUtc, s.tmb.utcLog, rfl⟩
  · exact ⟨_, _, rfl⟩

theorem putTaiUtc_evt (instant : Nat) (v : Int) (s : State) : (putTaiUtc instant v s).evt = s.evt := by
  obtain ⟨_, _, h⟩ := putTaiUtc_eq instant v s
  rw [h]

/-- The state in which another source, or none, is named as the one in use. -/
def State.renamed (s : State) (kind port : Nat) : State :=
  { s with tmb := { s.tmb with
      srcKind := kind, srcPort := port, usedKind := kind, usedPort := port
      utcKnown := s.tmb.utcKnown || decide (kind = 2 ∨ kind = 3), lostAt := if kind = 0 then s.tmb.lostAt else none } }

theorem renamed_only (kind port : Nat) (s : State) : Only [.timebase] s (s.renamed kind port) :=
  setTmb_only ⟨rfl, rfl⟩ ⟨rfl, rfl⟩ ⟨rfl, rfl, rfl, rfl⟩

theorem sourceChanged_tmb (s : State) :
    (sourceChanged s).tmb = { s.tmb with implausible := false, twoStep := none, lastSampleAt := s.aon } := tmbEvent_tmb _ _

theorem sourceChanged_aon (s : State) : (sourceChanged s).aon = s.aon := by simp [sourceChanged]

theorem sourceChanged_pend (s : State) : (sourceChanged s).evt.pend.getLsbD 84 = true := tmbEvent_pend (n := 4) (by decide) _

/-- Another kind of source is taken: the state named, the event of the change, and UTC from the label for a pin source. -/
theorem selectSource_other {kind port : Nat} {s : State} (h : s.tmb.usedKind ≠ kind) (hkind : kind ≠ 0) :
    selectSource kind port s = (let t := sourceChanged (s.renamed kind port)
      if kind = 2 ∨ kind = 3 then putTaiUtc t.now t.irigOffset t else t) := by
  simp [selectSource, State.renamed, h, hkind]

theorem selectSource_none {s : State} (h : s.tmb.usedKind ≠ 0) :
    selectSource 0 0x7F s = sourceGone (sourceChanged (s.renamed 0 0x7F)) := by
  simp [selectSource, State.renamed, h]

/-- What the taking of another source leaves: its name, the event, the servo in its state. -/
theorem selectSource_takes {kind port : Nat} {s : State} (h : s.tmb.usedKind ≠ kind) (hkind : kind ≠ 0) :
    Only [.events, .timebase, .delays, .sessions, .host] s (selectSource kind port s)
      ∧ (selectSource kind port s).tmb.usedKind = kind ∧ (selectSource kind port s).tmb.usedPort = port
      ∧ (selectSource kind port s).tmb.srcKind = kind ∧ (selectSource kind port s).tmb.srcPort = port
      ∧ (selectSource kind port s).evt.pend.getLsbD 84 = true ∧ (selectSource kind port s).tmb.state = s.tmb.state
      ∧ (selectSource kind port s).tmb.twoStep = none ∧ (selectSource kind port s).tmb.refusals = s.tmb.refusals := by
  have honly : Only [.events, .timebase, .delays, .sessions, .host] s (sourceChanged (s.renamed kind port)) :=
    .after (sourceChanged_moves Covers.rfl (.refl _ _)).only (.mono (renamed_only kind port s))
  have hpend := sourceChanged_pend (s.renamed kind port)
  have htmb := sourceChanged_tmb (s.renamed kind port)
  rw [selectSource_other h hkind]
  generalize sourceChanged (s.renamed kind port) = t at *
  dsimp only
  split
  · obtain ⟨off, log, hput⟩ := putTaiUtc_eq t.now t.irigOffset t
    rw [hput]
    refine ⟨.after (setTmb_only ⟨rfl, rfl⟩ ⟨rfl, rfl⟩ ⟨rfl, rfl, rfl, rfl⟩) honly, ?_⟩
    simp [htmb, hpend, State.renamed]
  · refine ⟨honly, ?_⟩
    simp [htmb, hpend, State.renamed]

/-- What the loss of the last source leaves in LOCKED: no source in use, and the instant of the loss. -/
theorem selectSource_lost {s : State} (h : s.tmb.usedKind ≠ 0) (hst : s.tmb.state = 2) :
    Only [.events, .timebase, .delays, .sessions, .host] s (selectSource 0 0x7F s)
      ∧ (selectSource 0 0x7F s).tmb.state = 2 ∧ (selectSource 0 0x7F s).tmb.usedKind = 0
      ∧ (selectSource 0 0x7F s).tmb.lostAt = some s.aon ∧ (selectSource 0 0x7F s).evt.pend.getLsbD 84 = true := by
  have honly : Only [.events, .timebase, .delays, .sessions, .host] s (sourceChanged (s.renamed 0 0x7F)) :=
    .after (sourceChanged_moves Covers.rfl (.refl _ _)).only (.mono (renamed_only 0 0x7F s))
  have hpend := sourceChanged_pend (s.renamed 0 0x7F)
  have htmb := sourceChanged_tmb (s.renamed 0 0x7F)
  have haon := sourceChanged_aon (s.renamed 0 0x7F)
  rw [selectSource_none h]
  generalize sourceChanged (s.renamed 0 0x7F) = t at *
  have hlocked : t.tmb.state = 2 := by rw [htmb]; exact hst
  have hgone : sourceGone t = { t with tmb := { t.tmb with stepLeft := 0, lostAt := some t.aon } } := if_pos hlocked
  rw [hgone]
  refine ⟨.after (setTmb_only ⟨rfl, rfl⟩ ⟨rfl, rfl⟩ ⟨rfl, rfl, rfl, rfl⟩) honly, hlocked, ?_, ?_, hpend⟩
  · simp [htmb, State.renamed]
  · simp [haon, State.renamed]

/-! ### SOURCE_LOSS and SOURCE_QUALIFIED -/

theorem graceEnd_early {s : State} (h : s.tmb.state ≠ 2 ∨ s.tmb.lostAt = none) : graceEnd s = s := by
  unfold graceEnd
  split
  · next q hq => exact if_neg fun hc => by simp_all
  · rfl

theorem graceEnd_over {q : Nat} {s : State} (hst : s.tmb.state = 2) (hkind : s.tmb.usedKind = 0) (hlost : s.tmb.lostAt = some q)
    (hover : q + aonSec 3 ≤ s.aon) : graceEnd s = setServo 3 s := by
  unfold graceEnd
  rw [hlost]
  exact if_pos ⟨hst, hkind, hover⟩

theorem exec_sourceLoss_none {w : When} {s : State} (h : s.tmb.usedKind = 0) : exec (.sourceLoss w) s = .next (graceEnd (s.at w)) :=
  if_pos h

/-- A source of a port or of IRIG-B that has been silent for 3 s, the only one known, leaves none to choose. -/
theorem exec_sourceLoss_only {w : When} {x : SourceSeen} {s : State} (hsources : s.tmb.sources = [x]) (hkind : x.kind = s.tmb.usedKind)
    (hport : x.port = s.tmb.usedPort) (hused : s.tmb.usedKind = 1 ∨ s.tmb.usedKind = 2)
    (hsync : x.lastSync + aonSec 3 ≤ max s.aon w.a) (hann : x.lastAnnounce + aonSec 3 ≤ max s.aon w.a) :
    exec (.sourceLoss w) s = .next (selectSource 0 0x7F
      { s.at w with tmb := { s.tmb with sources := [{ x with qualifiedSince := none }] } }) := by
  have hseen : (s.at w).seen s.tmb.usedKind s.tmb.usedPort = some x := by
    simp [State.seen, hsources, hkind, hport]
  have hdead : x.alive (max s.aon w.a) = false := by
    unfold SourceSeen.alive
    split <;> exact decide_eq_false (by omega)
  have hne : s.tmb.usedKind ≠ 0 := by omega
  have hne3 : s.tmb.usedKind ≠ 3 := by omega
  have hmod : modSource s.tmb.usedKind s.tmb.usedPort (fun y => { y with qualifiedSince := none }) (s.at w)
      = { s.at w with tmb := { s.tmb with sources := [{ x with qualifiedSince := none }] } } := by
    unfold modSource
    rw [hseen]
    simp [hsources, hkind, hport]
  show execSourceLoss w s = _
  unfold execSourceLoss
  simp only [at_tmb, hseen, hne, if_false, hne3]
  rw [hmod]
  simp [State.at, hdead, when, State.bestSource, State.bestOf]

theorem exec_sourceQualified_taken {w : When} {kind : Fin 4} {port : Fin 66} {x : SourceSeen} {r q : Nat} {s : State}
    (hseen : s.seen kind.val (if kind.val = 1 then port.val else 0x7F) = some x) (hrank : s.sourceRank kind.val = some r)
    (hqual : x.qualifiedSince = some q) (halive : x.alive (max s.aon w.a) = true) (hused : s.tmb.usedKind = 0) :
    exec (.sourceQualified w kind port) s =
      .next (selectSource kind.val (if kind.val = 1 then port.val else 0x7F) (s.at w)) := by
  have hseen' : (s.at w).seen kind.val (if kind.val = 1 then port.val else 0x7F) = some x := hseen
  have hrank' : (s.at w).sourceRank kind.val = some r := hrank
  show execSourceQualified w kind port s = _
  unfold execSourceQualified
  simp only [hseen', hrank', hqual]
  simp [State.at, halive, hused]

/-! ### The holdover limit (R72) -/

theorem setServo_expired {s : State} (h : s.tmb.state ≠ 4) : setServo 4 s =
    ledger 0x0103 0xFFFF [s.tmb.state, 4] (report 22 0xFF (tmbEvent 3 (tmbEvent 0 (putServo 4 (freqHold s))))) := by
  simp [setServo, h, servoEvents]

/-- The end of the holdover: EXPIRED, with its event. -/
theorem setServo_expired_shows {s : State} (h : s.tmb.state ≠ 4) :
    Only [.events, .timebase, .faults, .ledger, .keeper, .sessions, .host] s (setServo 4 s) ∧ (setServo 4 s).tmb.state = 4
      ∧ (setServo 4 s).evt.pend.getLsbD 83 = true := by
  rw [setServo_expired h, ledger_tmb, report_tmb, tmbEvent_tmb, tmbEvent_tmb]
  refine ⟨?_, rfl, (ledger_eventsKept _ _ _ _).pend 83 ?_⟩
  · exact (ledger_moves _ _ _ (Covers.rfl.trans rfl) (report_moves 22 _ (Covers.rfl.trans rfl) (tmbEvent_moves 3 (Covers.rfl.trans rfl)
      (tmbEvent_moves 0 (Covers.rfl.trans rfl) (putServo_moves (Covers.rfl.trans rfl) (by decide)
        (freqHold_moves (Covers.rfl.trans rfl) (.refl _ s))))))).only
  · rw [report_evt]; exact tmbEvent_pend (n := 3) (by decide) _

theorem checkHoldover_over {h : Nat} {s : State} (hst : s.tmb.state = 3) (hsince : s.tmb.holdSince = some h)
    (hover : h + aonSec s.tmb.holdLimit ≤ s.aon) : checkHoldover s = setServo 4 s := by
  unfold checkHoldover
  rw [hsince]
  exact if_pos ⟨hst, hover⟩

theorem acqFlag_aon (w : When) (s : State) : (s.acqFlag w).aon = max s.aon w.a := by
  unfold State.acqFlag when
  split <;> simp only [tmbEvent_aon, hwSet_aon] <;> rfl

/-- Settles O16, clause by clause; ACQ_TIMEOUT is `exec_acqTimeout_of_due`. -/
theorem sourcesTimeOutAndReturn : Obligations.SourcesTimeOutAndReturn := by
  unfold Obligations.SourcesTimeOutAndReturn
  refine ⟨?lost, ?early, ?grace, ?taken, ?acq, ?expired⟩
  case lost =>
    intro w x s hsources hkind hport hused hsync hann hst
    obtain ⟨honly, hshown⟩ := selectSource_lost
      (s := { s.at w with tmb := { s.tmb with sources := [{ x with qualifiedSince := none }] } }) (show s.tmb.usedKind ≠ 0 by omega) hst
    refine ⟨_, exec_sourceLoss_only hsources hkind hport hused hsync hann, .after honly ?_, hshown⟩
    exact .after (setTmb_only ⟨rfl, rfl⟩ ⟨rfl, rfl⟩ ⟨rfl, rfl, rfl, rfl⟩) (at_only w s (Covers.rfl.trans rfl))
  case early =>
    intro w s hused hnot
    exact ⟨_, (exec_sourceLoss_none hused).trans (congrArg _ (graceEnd_early (s := s.at w) hnot)), at_only w s Covers.rfl⟩
  case grace =>
    intro w q s hused hst hlost hover
    have hne : (s.at w).tmb.state ≠ 3 := by rw [at_tmb]; omega
    obtain ⟨hstate, hsince, _, hpend⟩ := setServo_holdover_shows hne
    exact ⟨_, (exec_sourceLoss_none hused).trans (congrArg _ (graceEnd_over (s := s.at w) hst hused hlost hover)),
      .after (setServo_holdover_only hne) (at_only w s (Covers.rfl.trans rfl)), hstate, hsince, hpend⟩
  case taken =>
    intro w kind port x r q s hseen hrank hqual halive hkind hused
    obtain ⟨honly, hk, hp, _, _, hpend, hstate, htwo, _⟩ := selectSource_takes
      (kind := kind.val) (port := if kind.val = 1 then port.val else 0x7F) (s := s.at w) (by rw [at_tmb, hused]; exact Ne.symm hkind) hkind
    exact ⟨_, exec_sourceQualified_taken hseen hrank hqual halive hused, .after honly (at_only w s (Covers.rfl.trans rfl)),
      hk, hp, hpend, hstate, htwo⟩
  case acq =>
    intro w s hphase hlatch hchecked hst hlate
    have hexec : exec (.acqTimeout w) s = .next (endP5 (s.acqFlag w)) := by
      rw [exec_acqTimeout_of_due ⟨by omega, hchecked, hlate⟩, if_neg hst]
    have hP5 : (s.acqFlag w).gen.phase = 5 := by rw [acqFlag_gen]; exact hphase
    refine ⟨_, hexec, (exec_moves _ s _ hexec).only, ?_⟩
    rw [endP5_of_closed hP5 (by rw [acqFlag_gen]; exact hlatch)]
    simp [acqFlag_aon]
  case expired =>
    intro w h s hst hsince hover
    have hne : (s.at w).tmb.state ≠ 4 := by rw [at_tmb]; omega
    obtain ⟨honly, hstate, hpend⟩ := setServo_expired_shows hne
    exact ⟨_, congrArg Host.Outcome.next (checkHoldover_over (s := s.at w) hst hsince hover),
      .after honly (at_only w s (Covers.rfl.trans rfl)), hstate, hpend⟩

/-! ### Registers of the time base (R73, R87, R353) -/

/-- A change of the two copies of `TMB_SNAP_`. -/
theorem setSnaps_only {a b : TmbSnap} (s : State) : Only [.snaps] s { s with tmb := { s.tmb with snapFw := a, snapHost := b } } := by
  refine ⟨rfl, fun p hp => ?_⟩
  cases p
  case snaps => exact absurd List.mem_cons_self hp
  all_goals simp [Part.Same]

theorem tmbSnapAct_firmware (s : State) : tmbSnapAct .firmware s =
    { s with tmb := { s.tmb with snapFw := { time := s.islandTime triadIsland, pcount := s.pcount } } } := rfl

theorem tmbSnapAct_operator {i : Fin 8} {s : State} (h : 2 ≤ s.sesRole i) : tmbSnapAct (.host i) s =
    { s with tmb := { s.tmb with snapHost := { time := s.islandTime hostIsland, pcount := s.pcount } } } := by
  simp [tmbSnapAct, isFw, hostAtLeast, h]

theorem freqTrimAct_within {v : Word} {s : State} (hlow : -25600000 ≤ v.toInt) (hhigh : v.toInt ≤ 25600000) :
    freqTrimAct .firmware v s = { freqHold s with tmb := { (freqHold s).tmb with freqTrim := v.toInt } } := by
  have hin : ¬ (v.toInt < -freqMax ∨ freqMax < v.toInt) := by unfold freqMax; omega
  simp [freqTrimAct, isFw, when, hin]

theorem freqTrimAct_beyond {v : Word} {s : State} (h : 25600000 < v.toInt) :
    freqTrimAct .firmware v s = setTrimRefused { freqHold s with tmb := { (freqHold s).tmb with freqTrim := v.toInt } } := by
  have hout : v.toInt < -freqMax ∨ freqMax < v.toInt := .inr h
  simp [freqTrimAct, isFw, when, hout]

@[simp] theorem setTrimRefused_tmb (s : State) : (setTrimRefused s).tmb = { s.tmb with trimRefused := true } := by
  unfold setTrimRefused when
  split <;> simp

theorem phaseStepAct_queued {v : Word} {s : State} (hst : s.tmb.state ≠ 2) (hv : v.toInt.natAbs ≤ 655360000) :
    phaseStepAct .firmware v s = { s with tmb := { s.tmb with stepLeft := s.tmb.stepLeft + v.toInt } } := by
  simp [phaseStepAct, isFw, hst, Nat.not_lt.mpr hv]

theorem phaseStepAct_refused {v : Word} {s : State} (h : s.tmb.state = 2 ∨ 655360000 < v.toInt.natAbs) :
    phaseStepAct .firmware v s = trimRefuse 0x00010034 v.toNat s := by
  simp [phaseStepAct, isFw, h]

/-- A refusal counts and sets its flag; it changes no figure and no source. -/
theorem trimRefuse_tmb (addr value : Nat) (s : State) :
    (trimRefuse addr value s).tmb = { s.tmb with trimRefused := true, refusals := tallyInc s.tmb.refusals } := by
  simp [trimRefuse]

theorem tmbSrcAct_selects {v : Word} {s : State} (hport : bitsOf v.toNat 22 16 ≤ 65) (hkind : bitsOf v.toNat 3 0 ≤ 3)
    (hslave : s.slaveCapable (bitsOf v.toNat 22 16) = true) (hrank : (s.sourceRank (bitsOf v.toNat 3 0)).isSome = true) :
    tmbSrcAct .firmware v s = selectSource (bitsOf v.toNat 3 0) (bitsOf v.toNat 22 16) s := by
  have hlisted : (s.sourceRank (bitsOf v.toNat 3 0)).isNone = false := by simpa using hrank
  simp [tmbSrcAct, isFw, Nat.not_lt.mpr hport, Nat.not_lt.mpr hkind, hslave, hlisted]

theorem tmbSrcAct_undesignated {v : Word} {s : State} (hport : bitsOf v.toNat 22 16 ≤ 65) (hkind : bitsOf v.toNat 3 0 ≤ 3)
    (hslave : s.slaveCapable (bitsOf v.toNat 22 16) = false) : tmbSrcAct .firmware v s = trimRefuse 0x00010008 v.toNat s := by
  have hnamed : bitsOf v.toNat 22 16 ≠ 0x7F := by omega
  simp [tmbSrcAct, isFw, Nat.not_lt.mpr hport, Nat.not_lt.mpr hkind, hslave, hnamed]

theorem tmbSrcAct_ignored {who : Agent} {v : Word} {s : State} (h : isFw who = false) : tmbSrcAct who v s = s := by
  simp [tmbSrcAct, h]

/-- A granted register command answers what its rule makes of the instant's state. -/
theorem answers_granted {c : Instr} {w : When} {who : Agent} {addr : Nat} {act : State → State} {s t : State}
    (hc : exec c s = .next (asWrite who addr act (s.at w))) (hgrant : (s.at w).grants who addr = true) (hact : act (s.at w) = t) :
    exec c s = .next t := by
  rw [hc, Laws.asWrite_grants hgrant, hact]

/-- Settles O17: each register's rule, by the branch that the hypotheses select. -/
theorem timeBaseRegisters : Obligations.TimeBaseRegisters := by
  unfold Obligations.TimeBaseRegisters
  refine ⟨?snapFw, ?snapHost, ?trim, ?trimBeyond, ?step, ?stepRefused, ?source, ?undesignated, ?ignored⟩
  case snapFw =>
    exact fun w s hgrant => ⟨_, answers_granted (w := w) rfl hgrant (tmbSnapAct_firmware _),
      .after (setSnaps_only _) (at_only w s (Covers.rfl.trans rfl)), rfl, rfl⟩
  case snapHost =>
    exact fun w i s hrole hgrant => ⟨_, answers_granted (w := w) rfl hgrant (tmbSnapAct_operator (s := s.at w) hrole),
      .after (setSnaps_only _) (at_only w s (Covers.rfl.trans rfl)), rfl, rfl⟩
  case trim =>
    exact fun w v s hlow hhigh hgrant => ⟨_, answers_granted (w := w) rfl hgrant (freqTrimAct_within hlow hhigh),
      .after (setTmb_only ⟨rfl, rfl⟩ ⟨rfl, rfl⟩ ⟨rfl, rfl, rfl, rfl⟩) (.after (freqHold_moves Covers.rfl (.refl _ _)).only
        (at_only w s (Covers.rfl.trans rfl))), rfl, rfl, rfl⟩
  case trimBeyond =>
    intro w v s hv hgrant
    refine ⟨_, answers_granted (w := w) rfl hgrant (freqTrimAct_beyond hv), ?_, by simp, by simp⟩
    exact .after (setTrimRefused_moves Covers.rfl (.refl _ _)).only (.after (setTmb_only ⟨rfl, rfl⟩ ⟨rfl, rfl⟩ ⟨rfl, rfl, rfl, rfl⟩)
      (.after (freqHold_moves Covers.rfl (.refl _ _)).only (at_only w s (Covers.rfl.trans rfl))))
  case step =>
    exact fun w v s hst hv hgrant => ⟨_, answers_granted (w := w) rfl hgrant (phaseStepAct_queued (s := s.at w) hst hv),
      .after (setTmb_only ⟨rfl, rfl⟩ ⟨rfl, rfl⟩ ⟨rfl, rfl, rfl, rfl⟩) (at_only w s (Covers.rfl.trans rfl)), rfl, rfl⟩
  case stepRefused =>
    intro w v s hnot hgrant
    refine ⟨_, answers_granted (w := w) rfl hgrant (phaseStepAct_refused (s := s.at w) hnot),
      .after (trimRefuse_moves _ _ Covers.rfl (.refl _ _)).only (at_only w s (Covers.rfl.trans rfl)), ?_⟩
    simp [trimRefuse_tmb]
  case source =>
    rintro w v _ _ s rfl rfl hport hkind hslave hrank hused hgrant
    obtain ⟨honly, hk, hp, hsk, hsp, _, _, _, hrefusals⟩ := selectSource_takes (port := bitsOf v.toNat 22 16) (s := s.at w) hused (by omega)
    exact ⟨_, answers_granted (w := w) rfl hgrant (tmbSrcAct_selects hport (by omega) hslave hrank),
      .after honly (at_only w s (Covers.rfl.trans rfl)), hsk, hsp, hk, hp, hrefusals⟩
  case undesignated =>
    intro w v s hport hkind hslave hgrant
    refine ⟨_, answers_granted (w := w) rfl hgrant (tmbSrcAct_undesignated (s := s.at w) hport hkind hslave),
      .after (trimRefuse_moves _ _ Covers.rfl (.refl _ _)).only (at_only w s (Covers.rfl.trans rfl)), ?_⟩
    simp [trimRefuse_tmb]
  case ignored =>
    exact fun w who v s hwho hgrant => ⟨_, answers_granted (w := w) rfl hgrant (tmbSrcAct_ignored hwho), at_only w s Covers.rfl⟩

end Sys2Proof.Machine

/-! The pulse generators (R89 to R91): the state a channel that is not held takes at an edge. -/

namespace Sys2Proof.Machine

set_option Elab.async false

open Sys2Proof

/-- A module that holds no digital output, out of standby, whose generators are armed. -/
def armedWithoutOutputs : State :=
  { tmb := { gens := List.replicate 12 { armed := true } }, fio := { dout := [], standby := false } }

/-- A generator's edge drives nothing on at a channel that is not held. -/
theorem exec_pulseEdge_armedWithoutOutputs :
    ∃ t, exec (.pulseEdge { t := 0 } 4) armedWithoutOutputs = .next t ∧ t.out = [.dout 0 false] := ⟨_, rfl, rfl⟩

/-- Refutes O18: its tenth clause gives the pins of the channel the level of the pulse whether or not the channel is held. With
no digital output held, the pins show off. -/
theorem not_pulseGenerators : ¬ Obligations.PulseGenerators := by
  unfold Obligations.PulseGenerators
  rintro ⟨_, _, _, _, _, _, _, _, _, hleading, _⟩
  obtain ⟨t, ht, -, -, -, -, -, hpins⟩ :=
    hleading { t := 0 } 4 armedWithoutOutputs (by decide) (by decide) rfl rfl rfl (by decide)
  obtain ⟨t', ht', hout⟩ := exec_pulseEdge_armedWithoutOutputs
  obtain rfl : t = t' := by rw [ht] at ht'; injection ht'
  rw [hpins rfl] at hout
  exact absurd hout (by decide)

end Sys2Proof.Machine

/-! The messages of a master port (R79, R80, R83, R110): what a lane's send needs, and what the other lane's send leaves to it. -/

namespace Sys2Proof.Machine

set_option Elab.async false

open Sys2Proof

theorem port_modPort_self {n : Nat} {s : State} (h : n < s.prt.ports.length) (f : PortState → PortState) :
    (modPort n f s).port n = f (s.port n) :=
  getD_updAt_self h f {}

theorem port_modPort_other {n q : Nat} (h : n ≠ q) (f : PortState → PortState) (s : State) : (modPort n f s).port q = s.port q :=
  getD_updAt_other h f {}

theorem port_chargePort_other {n q : Nat} (h : n ≠ q) (bytes : Nat) (s : State) : (chargePort n bytes s).port q = s.port q :=
  port_modPort_other h (fun x => { x with spent := x.spent + bytes }) s

theorem getD_of_le {α : Type} {l : List α} {n : Nat} (h : l.length ≤ n) (d : α) : l.getD n d = d := by
  rw [List.getD_eq_getElem?_getD, List.getElem?_eq_none h, Option.getD_none]

/-- A port whose link is up is one of those held. -/
theorem lt_length_of_portSends {p : Nat} {s : State} (h : s.portSends p = true) : p < s.prt.ports.length := by
  refine Decidable.byContradiction fun hge => ?_
  have hport : s.port p = {} := getD_of_le (by omega) _
  simp [State.portSends, hport] at h

/-- What a lane's sending depends on is as it was: its port, and the parts that no message changes. -/
structure LaneKept (q : Nat) (s t : State) : Prop where
  port : t.port q = s.port q
  gen : t.gen = s.gen
  tmb : t.tmb = s.tmb
  wvl : t.wvl = s.wvl
  bgt : t.bgt = s.bgt
  cfg : t.cfg = s.cfg

namespace LaneKept

variable {q : Nat} {s t u : State}

theorem refl (q : Nat) (s : State) : LaneKept q s s := ⟨rfl, rfl, rfl, rfl, rfl, rfl⟩

theorem trans (hst : LaneKept q s t) (htu : LaneKept q t u) : LaneKept q s u :=
  ⟨htu.port.trans hst.port, htu.gen.trans hst.gen, htu.tmb.trans hst.tmb, htu.wvl.trans hst.wvl, htu.bgt.trans hst.bgt,
    htu.cfg.trans hst.cfg⟩

theorem modPort_other {n : Nat} (h : n ≠ q) (f : PortState → PortState) (hst : LaneKept q s t) : LaneKept q s (modPort n f t) :=
  hst.trans ⟨port_modPort_other h f t, rfl, rfl, rfl, rfl, rfl⟩

theorem chargePort_other {n : Nat} (h : n ≠ q) (bytes : Nat) (hst : LaneKept q s t) : LaneKept q s (chargePort n bytes t) :=
  hst.trans ⟨port_chargePort_other h bytes t, rfl, rfl, rfl, rfl, rfl⟩

theorem emit (o : Out) (hst : LaneKept q s t) : LaneKept q s (emit o t) :=
  hst.trans ⟨rfl, rfl, rfl, rfl, rfl, rfl⟩

theorem sends (h : LaneKept q s t) : t.portSends q = s.portSends q := by
  simp only [State.portSends, State.primary, h.port, h.wvl, h.cfg]

theorem room (h : LaneKept q s t) (bytes : Nat) : t.portRoom q bytes = s.portRoom q bytes := by
  unfold State.portRoom State.portBudget State.sect
  rw [h.port, h.bgt, h.cfg]

theorem wire (h : LaneKept q s t) (payload : Nat) : ptpWire t q payload = ptpWire s q payload := by
  unfold ptpWire State.isPrp State.ptp State.logical
  rw [h.cfg]

theorem hdr (h : LaneKept q s t) (peer : Bool) (rct : Option Nat) : t.ptpHdr q peer rct = s.ptpHdr q peer rct := by
  unfold State.ptpHdr State.ptp State.logical
  rw [h.cfg, h.gen]

theorem asym (h : LaneKept q s t) (stamp : Nat) : t.asymWhen q stamp = s.asymWhen q stamp := by
  simp only [State.asymWhen, State.asymOf, State.sect, h.tmb, h.cfg]

theorem txStamp (h : LaneKept q s t) (stamp : Nat) : t.txStamp q stamp = s.txStamp q stamp := by
  simp only [State.txStamp, h.asym]

theorem announced (h : LaneKept q s t) : t.announced = s.announced := by
  unfold State.announced State.ptp State.clockId State.seen
  rw [h.tmb, h.cfg, h.gen]

end LaneKept

/-- The Sync that a lane sends. -/
def syncMessage (p stamp : Nat) (rct : Option Nat) (s : State) : Out :=
  .ptp p 0 ((s.txStamp p stamp).toNat / ticksPerNs * ticksPerNs) ((timeFrac (s.txStamp p stamp).toNat : Int) + (s.asymWhen p stamp).asym)
    { domain := s.ptp.domain } (s.ptpHdr p false rct)

/-- The Announce that a lane sends. -/
def announceMessage (p : Nat) (rct : Option Nat) (s : State) : Out := .ptp p 0xB s.now 0 s.announced (s.ptpHdr p false rct)

theorem LaneKept.syncMessage {q : Nat} {s t : State} (h : LaneKept q s t) (stamp : Nat) (rct : Option Nat) :
    syncMessage q stamp rct t = syncMessage q stamp rct s := by
  simp only [Machine.syncMessage, h.txStamp, h.asym, h.hdr, State.ptp, h.cfg]

theorem LaneKept.announceMessage {q : Nat} {s t : State} (h : LaneKept q s t) (hnow : t.now = s.now) (rct : Option Nat) :
    announceMessage q rct t = announceMessage q rct s := by
  simp only [Machine.announceMessage, h.announced, h.hdr, hnow]

theorem sendSync_out (p stamp : Nat) (rct : Option Nat) (s : State) :
    (sendSync p stamp rct s).out = syncMessage p stamp rct s :: s.out := rfl

theorem sendAnnounce_out (p : Nat) (rct : Option Nat) (s : State) : (sendAnnounce p rct s).out = announceMessage p rct s :: s.out := rfl

theorem sendSync_laneKept {p q : Nat} (h : p ≠ q) (stamp : Nat) (rct : Option Nat) (s : State) : LaneKept q s (sendSync p stamp rct s) :=
  .chargePort_other h _ (.emit _ (.modPort_other h _ (.refl q s)))

theorem sendAnnounce_laneKept {p q : Nat} (h : p ≠ q) (rct : Option Nat) (s : State) : LaneKept q s (sendAnnounce p rct s) :=
  .chargePort_other h _ (.emit _ (.refl q s))

/-- A message leaves where the stall has room and none stands before it. -/
theorem sendMsg_sends {p bytes : Nat} {m : WaitMsg} {s : State} (hroom : s.portRoom p bytes = true)
    (hbefore : (s.port p).before m.kind.event = false) (send : State → State) : sendMsg p bytes m send s = send s := by
  simp [sendMsg, hroom, hbefore]

/-- Else it waits. -/
theorem sendMsg_waits {p bytes : Nat} {m : WaitMsg} {s : State}
    (h : s.portRoom p bytes = false ∨ (s.port p).before m.kind.event = true) (send : State → State) :
    sendMsg p bytes m send s = waitMsg p m s := by
  rcases h with h | h <;> simp [sendMsg, h]

theorem syncLane_sends {p : Nat} {s : State} (hsends : s.portSends p = true) (hnew : (s.port p).syncSent = false)
    (hroom : s.portRoom p (ptpWire s p 44) = true) (hbefore : (s.port p).before true = false) (stamp : Nat) (rct : Option Nat) :
    syncLane p stamp rct s = sendSync p stamp rct s := by
  simp only [syncLane, hsends, hnew, Bool.not_false, Bool.and_self, if_true]
  exact sendMsg_sends (m := { kind := .sync, rct := rct }) hroom hbefore _

theorem syncLane_silent {p : Nat} {s : State} (h : s.portSends p = false ∨ (s.port p).syncSent = true) (stamp : Nat) (rct : Option Nat) :
    syncLane p stamp rct s = s := by
  rcases h with h | h <;> simp [syncLane, h]

theorem announceLane_sends {p : Nat} {s : State} (hsends : s.portSends p = true)
    (hroom : s.portRoom p (ptpWire s p 64) = true) (hbefore : (s.port p).before false = false) (rct : Option Nat) :
    announceLane p rct s = sendAnnounce p rct s := by
  simp only [announceLane, hsends, if_true]
  exact sendMsg_sends (m := { kind := .announce, rct := rct }) hroom hbefore _

theorem announceLane_silent {p : Nat} {s : State} (h : s.portSends p = false) (rct : Option Nat) : announceLane p rct s = s := by
  simp [announceLane, h]

/-- A waiting message is the last of its port's queue, and is counted unless it was already. -/
theorem waitMsg_port {p : Nat} {s : State} (h : p < s.prt.ports.length) (m : WaitMsg) (hm : m.deferred = false) :
    ((waitMsg p m s).port p).waitq.getLast? = some { m with deferred := true }
    ∧ ((waitMsg p m s).port p).txDefer = tallyInc (s.port p).txDefer ∧ ((waitMsg p m s).port p).syncSent = (s.port p).syncSent := by
  unfold waitMsg
  rw [port_modPort_self h]
  simp [hm]

theorem exec_syncTransmit_no_sync {w : When} {port : Fin 64} {s : State} (a b : Nat)
    (h : s.masterPort port.val = false ∨ s.tmb.state = 0) : exec (.syncTransmit w port a b) s = .next (s.at w) := by
  have hskip : (!(s.at w).masterPort port.val || (s.at w).tmb.state == 0) = true := by
    rcases h with h | h
    · simp [show (s.at w).masterPort port.val = false from h]
    · simp [h]
  show execSyncTransmit w port a b s = _
  unfold execSyncTransmit
  rw [if_pos hskip]

/-- A master port outside a PRP pair. -/
theorem exec_syncTransmit_single {w : When} {port : Fin 64} {s : State} (a b : Nat) (hmaster : s.masterPort port.val = true)
    (hstate : s.tmb.state ≠ 0) (hprp : s.prpLow port.val = false) :
    exec (.syncTransmit w port a b) s = .next (syncLane port.val a none (s.at w)) := by
  have hgo : (!(s.at w).masterPort port.val || (s.at w).tmb.state == 0) = false := by
    simp [show (s.at w).masterPort port.val = true from hmaster, hstate]
  show execSyncTransmit w port a b s = _
  unfold execSyncTransmit
  simp only [hgo, show (s.at w).prpLow port.val = false from hprp, takeRct, if_false, Bool.false_eq_true]

/-- Both lanes of a PRP pair carry one redundancy sequence number. -/
theorem exec_syncTransmit_pair {w : When} {port : Fin 64} {s : State} (a b : Nat) (hmaster : s.masterPort port.val = true)
    (hstate : s.tmb.state ≠ 0) (hprp : s.prpLow port.val = true) :
    exec (.syncTransmit w port a b) s = .next (syncLane (port.val + 32) b (some (s.port port.val).rctNext)
      (syncLane port.val a (some (s.port port.val).rctNext) (takeRct port.val true (s.at w)).2)) := by
  have hgo : (!(s.at w).masterPort port.val || (s.at w).tmb.state == 0) = false := by
    simp [show (s.at w).masterPort port.val = true from hmaster, hstate]
  show execSyncTransmit w port a b s = _
  unfold execSyncTransmit
  simp only [hgo, show (s.at w).prpLow port.val = true from hprp, if_true, if_false, Bool.false_eq_true]
  rfl

theorem exec_announceTransmit_no_master {w : When} {port : Fin 64} {s : State} (h : s.masterPort port.val = false) :
    exec (.announceTransmit w port) s = .next (s.at w) := by
  show execAnnounceTransmit w port s = _
  unfold execAnnounceTransmit
  simp [show (s.at w).masterPort port.val = false from h]

theorem exec_announceTransmit_single {w : When} {port : Fin 64} {s : State} (hmaster : s.masterPort port.val = true)
    (hprp : s.prpLow port.val = false) :
    exec (.announceTransmit w port) s = .next (announceLane port.val none (s.at w)) := by
  show execAnnounceTransmit w port s = _
  unfold execAnnounceTransmit
  simp only [show (s.at w).masterPort port.val = true from hmaster, show (s.at w).prpLow port.val = false from hprp, takeRct,
    Bool.not_true, if_false, Bool.false_eq_true]

theorem exec_announceTransmit_pair {w : When} {port : Fin 64} {s : State} (hmaster : s.masterPort port.val = true)
    (hprp : s.prpLow port.val = true) :
    exec (.announceTransmit w port) s = .next (announceLane (port.val + 32) (some (s.port port.val).rctNext)
      (announceLane port.val (some (s.port port.val).rctNext) (takeRct port.val true (s.at w)).2)) := by
  show execAnnounceTransmit w port s = _
  unfold execAnnounceTransmit
  simp only [show (s.at w).masterPort port.val = true from hmaster, show (s.at w).prpLow port.val = true from hprp,
    Bool.not_true, if_true, if_false, Bool.false_eq_true]
  rfl

/-- The clock changes nothing that a lane's sending depends on. -/
theorem at_laneKept (q : Nat) (w : When) (s : State) : LaneKept q s (s.at w) := ⟨rfl, rfl, rfl, rfl, rfl, rfl⟩

/-- Taking the sequence number changes no other port. -/
theorem takeRct_laneKept {p q : Nat} (h : p ≠ q) (s : State) : LaneKept q s (takeRct p true s).2 :=
  .modPort_other h _ (.refl q s)

/-- A message that waits is only noted at its port. -/
theorem waitMsg_only (p : Nat) (m : WaitMsg) (w : When) (s : State) : Only [.time, .ports] s (waitMsg p m (s.at w)) :=
  .after (waitMsg_moves p m Covers.rfl (.refl _ _)).only (at_only w s (Covers.rfl.trans rfl))

/-- Of a pair's Sync only what its lanes send is in the frame, whatever they do. -/
theorem exec_syncTransmit_only {w : When} {port : Fin 64} {a b : Nat} {s t : State} (h : exec (.syncTransmit w port a b) s = .next t) :
    Only [.time, .ports, .sent] s t := (exec_moves _ s _ h).only

theorem exec_announceTransmit_only {w : When} {port : Fin 64} {s t : State} (h : exec (.announceTransmit w port) s = .next t) :
    Only [.time, .ports, .sent] s t := (exec_moves _ s _ h).only

/-- The pair's upper lane is another port. -/
theorem lane_ne (p : Nat) : p ≠ p + 32 := by omega

/-- Taking the pair's sequence number leaves the rest of the lane's port. -/
theorem takeRct_port {p : Nat} {s : State} (h : p < s.prt.ports.length) :
    (takeRct p true s).2.port p = { s.port p with rctNext := ((s.port p).rctNext + 1) % 65536 } := port_modPort_self h _

/-- Where both the port and the redundancy number's taking allow it, the lower lane's Sync leaves as from the state before. -/
theorem syncLane_low {p : Nat} {s : State} (hsends : s.portSends p = true) (hnew : (s.port p).syncSent = false)
    (hroom : s.portRoom p (ptpWire s p 44) = true) (hbefore : (s.port p).before true = false) (w : When) (stamp : Nat) (rct : Option Nat) :
    syncLane p stamp rct (takeRct p true (s.at w)).2 = sendSync p stamp rct (takeRct p true (s.at w)).2 := by
  have hport := takeRct_port (s := s.at w) (lt_length_of_portSends hsends)
  refine syncLane_sends ?_ (by rw [hport]; exact hnew) ?_ (by rw [hport]; exact hbefore) stamp rct
  · unfold State.portSends at hsends ⊢
    rw [hport]
    exact hsends
  · unfold State.portRoom at hroom ⊢
    rw [hport]
    exact hroom

theorem announceLane_low {p : Nat} {s : State} (hsends : s.portSends p = true)
    (hroom : s.portRoom p (ptpWire s p 64) = true) (hbefore : (s.port p).before false = false) (w : When) (rct : Option Nat) :
    announceLane p rct (takeRct p true (s.at w)).2 = sendAnnounce p rct (takeRct p true (s.at w)).2 := by
  have hport := takeRct_port (s := s.at w) (lt_length_of_portSends hsends)
  refine announceLane_sends ?_ ?_ (by rw [hport]; exact hbefore) rct
  · unfold State.portSends at hsends ⊢
    rw [hport]
    exact hsends
  · unfold State.portRoom at hroom ⊢
    rw [hport]
    exact hroom

/-- A lower lane that cannot send is silent whether or not its port is held. -/
theorem portSends_takeRct {p : Nat} {s : State} (h : s.portSends p = false) (w : When) :
    (takeRct p true (s.at w)).2.portSends p = false := by
  by_cases hp : p < s.prt.ports.length
  · unfold State.portSends at h ⊢
    rw [takeRct_port (s := s.at w) hp]
    exact h
  · refine Decidable.byContradiction fun hsends => ?_
    have := lt_length_of_portSends (eq_true_of_ne_false hsends)
    simp only [takeRct, if_true, modPort, updAt, List.length_modify] at this
    exact hp this

/-- The upper lane's Sync leaves, whatever the lower lane did. -/
theorem syncLane_high {q : Nat} {s t : State} (hkept : LaneKept q s t) (hsends : s.portSends q = true)
    (hnew : (s.port q).syncSent = false) (hroom : s.portRoom q (ptpWire s q 44) = true) (hbefore : (s.port q).before true = false)
    (stamp : Nat) (rct : Option Nat) : (syncLane q stamp rct t).out = syncMessage q stamp rct s :: t.out := by
  rw [syncLane_sends (hkept.sends.trans hsends) (by rw [hkept.port]; exact hnew) (by rw [hkept.room, hkept.wire]; exact hroom)
    (by rw [hkept.port]; exact hbefore), sendSync_out, hkept.syncMessage]

theorem announceLane_high {q : Nat} {s t : State} (hkept : LaneKept q s t) (hnow : t.now = s.now) (hsends : s.portSends q = true)
    (hroom : s.portRoom q (ptpWire s q 64) = true) (hbefore : (s.port q).before false = false)
    (rct : Option Nat) : (announceLane q rct t).out = announceMessage q rct s :: t.out := by
  rw [announceLane_sends (hkept.sends.trans hsends) (by rw [hkept.room, hkept.wire]; exact hroom)
    (by rw [hkept.port]; exact hbefore), sendAnnounce_out, hkept.announceMessage hnow]

/-- Settles O19, by what each lane does: it sends, waits or is silent, and the lower lane leaves the upper one as it was. -/
theorem masterPorts : Obligations.MasterPorts := by
  unfold Obligations.MasterPorts
  refine ⟨?_, ?_, ?_, ?_, ?_, ?_, ?_, ?_, ?_, ?_, ?_, ?_, ?_, ?_, ?_, ?_⟩
  · intro w port a b s hmaster hstate hnew hsends hprp hroom hbefore
    have hexec := exec_syncTransmit_single (w := w) a b hmaster hstate hprp
    rw [syncLane_sends (s := s.at w) hsends hnew hroom hbefore] at hexec
    exact ⟨_, hexec, exec_syncTransmit_only hexec, rfl⟩
  · intro w port s hmaster hsends hprp hroom hbefore
    have hexec := exec_announceTransmit_single (w := w) hmaster hprp
    rw [announceLane_sends (s := s.at w) hsends hroom hbefore] at hexec
    exact ⟨_, hexec, exec_announceTransmit_only hexec, rfl⟩
  · intro w port a b s hmaster hstate hprp hnew hnew' hsends hsends' hroom hroom' hbefore hbefore'
    have hexec := exec_syncTransmit_pair (w := w) a b hmaster hstate hprp
    rw [syncLane_low hsends hnew hroom hbefore] at hexec
    refine ⟨_, hexec, exec_syncTransmit_only hexec, ?_⟩
    rw [syncLane_high (s := s) (((at_laneKept _ w s).trans (takeRct_laneKept (lane_ne _) _)).trans (sendSync_laneKept (lane_ne _) _ _ _))
      hsends' hnew' hroom' hbefore', sendSync_out]
    rfl
  · intro w port s hmaster hprp hsends hsends' hroom hroom' hbefore hbefore'
    have hexec := exec_announceTransmit_pair (w := w) hmaster hprp
    rw [announceLane_low hsends hroom hbefore] at hexec
    refine ⟨_, hexec, exec_announceTransmit_only hexec, ?_⟩
    rw [announceLane_high (s := s.at w) ((takeRct_laneKept (lane_ne _) _).trans (sendAnnounce_laneKept (lane_ne _) _ _)) rfl
      hsends' hroom' hbefore', sendAnnounce_out]
    rfl
  · exact fun w port a b s hstate => ⟨_, exec_syncTransmit_no_sync a b (.inr hstate), at_only w s Covers.rfl⟩
  · intro w port a b s hmaster hstate hsilent hprp
    have hexec := exec_syncTransmit_single (w := w) a b hmaster hstate hprp
    rw [syncLane_silent (s := s.at w) (.inl hsilent)] at hexec
    exact ⟨_, hexec, at_only w s Covers.rfl⟩
  · exact fun w port a b s hmaster => ⟨_, exec_syncTransmit_no_sync a b (.inl hmaster), at_only w s Covers.rfl⟩
  · exact fun w port s hmaster => ⟨_, exec_announceTransmit_no_master hmaster, at_only w s Covers.rfl⟩
  · intro w port s hmaster hsilent hprp
    have hexec := exec_announceTransmit_single (w := w) hmaster hprp
    rw [announceLane_silent (s := s.at w) hsilent] at hexec
    exact ⟨_, hexec, at_only w s Covers.rfl⟩
  · intro w port a b s hmaster hstate hprp hsilent hnew' hsends' hroom' hbefore'
    have hexec := exec_syncTransmit_pair (w := w) a b hmaster hstate hprp
    rw [syncLane_silent (.inl (portSends_takeRct hsilent w))] at hexec
    refine ⟨_, hexec, exec_syncTransmit_only hexec, ?_⟩
    rw [syncLane_high (s := s) ((at_laneKept _ w s).trans (takeRct_laneKept (lane_ne _) _)) hsends' hnew' hroom' hbefore']
    rfl
  · intro w port a b s hmaster hstate hprp hnew hsends hsilent' hroom hbefore
    have hexec := exec_syncTransmit_pair (w := w) a b hmaster hstate hprp
    have hkept : LaneKept (port.val + 32) s (sendSync port.val a (some (s.port port.val).rctNext) (takeRct port.val true (s.at w)).2) :=
      ((at_laneKept _ w s).trans (takeRct_laneKept (lane_ne _) _)).trans (sendSync_laneKept (lane_ne _) _ _ _)
    rw [syncLane_low hsends hnew hroom hbefore, syncLane_silent (.inl (hkept.sends.trans hsilent'))] at hexec
    exact ⟨_, hexec, exec_syncTransmit_only hexec, rfl⟩
  · intro w port s hmaster hprp hsilent hsends' hroom' hbefore'
    have hexec := exec_announceTransmit_pair (w := w) hmaster hprp
    rw [announceLane_silent (portSends_takeRct hsilent w)] at hexec
    refine ⟨_, hexec, exec_announceTransmit_only hexec, ?_⟩
    rw [announceLane_high (s := s.at w) (takeRct_laneKept (lane_ne _) _) rfl hsends' hroom' hbefore']
    rfl
  · intro w port s hmaster hprp hsends hsilent' hroom hbefore
    have hexec := exec_announceTransmit_pair (w := w) hmaster hprp
    have hkept : LaneKept (port.val + 32) s (sendAnnounce port.val (some (s.port port.val).rctNext) (takeRct port.val true (s.at w)).2) :=
      ((at_laneKept _ w s).trans (takeRct_laneKept (lane_ne _) _)).trans (sendAnnounce_laneKept (lane_ne _) _ _)
    rw [announceLane_low hsends hroom hbefore, announceLane_silent (hkept.sends.trans hsilent')] at hexec
    exact ⟨_, hexec, exec_announceTransmit_only hexec, rfl⟩
  · intro w port a b s hmaster hstate hsent hprp
    have hexec := exec_syncTransmit_single (w := w) a b hmaster hstate hprp
    rw [syncLane_silent (s := s.at w) (.inr hsent)] at hexec
    exact ⟨_, hexec, at_only w s Covers.rfl⟩
  · intro w port a b s hlen hmaster hstate hnew hsends hprp hwaits
    have hexec := exec_syncTransmit_single (w := w) a b hmaster hstate hprp
    have hwait : syncLane port.val a none (s.at w) = waitMsg port.val { kind := .sync, rct := none } (s.at w) := by
      have hgo : ((s.at w).portSends port.val && !((s.at w).port port.val).syncSent) = true := by
        simp [show (s.at w).portSends port.val = true from hsends, show ((s.at w).port port.val).syncSent = false from hnew]
      unfold syncLane
      rw [if_pos hgo]
      exact sendMsg_waits hwaits _
    rw [hwait] at hexec
    obtain ⟨hlast, hdefer, hsync⟩ := waitMsg_port (s := s.at w) hlen { kind := .sync, rct := none } rfl
    exact ⟨_, hexec, waitMsg_only _ _ w s, hlast, hdefer, hsync.trans hnew⟩
  · intro w port s hlen hmaster hsends hprp hwaits
    have hexec := exec_announceTransmit_single (w := w) hmaster hprp
    have hwait : announceLane port.val none (s.at w) = waitMsg port.val { kind := .announce, rct := none } (s.at w) := by
      unfold announceLane
      rw [if_pos (show (s.at w).portSends port.val = true from hsends)]
      exact sendMsg_waits hwaits _
    rw [hwait] at hexec
    obtain ⟨hlast, hdefer, -⟩ := waitMsg_port (s := s.at w) hlen { kind := .announce, rct := none } rfl
    exact ⟨_, hexec, waitMsg_only _ _ w s, hlast, hdefer⟩

end Sys2Proof.Machine

/-! Links, lasers, cages, dropped frames and supervision (R27, R95, R96, R107, R114, R413). -/

namespace Sys2Proof.Machine

set_option Elab.async false

open Sys2Proof

/-- A change of a port is a change of the ports alone. -/
theorem modPort_at_only (n : Nat) (f : PortState → PortState) (w : When) (s : State) : Only [.time, .ports] s (modPort n f (s.at w)) :=
  .after (modPort_moves n f Covers.rfl (.refl _ _)).only (at_only w s (Covers.rfl.trans rfl))

/-! ### Links (R95) -/

theorem assertSource_prtEvents (n : Nat) (s : State) : (assertSource n s).evt.prt = s.evt.prt := by
  unfold assertSource
  split
  · dsimp only
    split
    · rw [notifyAll_evt]; rfl
    · rfl
  · rfl

/-- A raised event stands in its port's register. -/
theorem raise_prt_bit {n : Nat} {s : State} (h : n < s.evt.prt.length) (b : Nat) :
    ((raise (.prt n) b s).evt.prt.getD n 0).testBit b = true := by
  unfold raise
  dsimp only
  split
  · next hset => exact hset
  · next hclear =>
    rw [assertSource_prtEvents]
    show ((putAt s.evt.prt n (s.evt.prt.getD n 0 + 2 ^ b)).getD n 0).testBit b = true
    have hclear' : (s.evt.prt.getD n 0).testBit b = false := eq_false_of_ne_true hclear
    rw [getD_putAt_self h, testBit_add_two_pow_of_clear hclear']
    simp

theorem raise_prtEvents_length (r : EvtReg) (b : Nat) (s : State) : (raise r b s).evt.prt.length = s.evt.prt.length := by
  unfold raise
  dsimp only
  split
  · rfl
  · rw [assertSource_prtEvents]
    cases r <;> simp [EvtState.put, putAt, hwSet]

/-- The event of a lane's logical port, which only a PRP pair has, keeps what its link left. -/
theorem exec_portLinkChange {w : When} {port : Fin 64} {up : Bool} {s : State} (h : (s.port port.val).link ≠ up) :
    exec (.portLinkChange w port up) s = .next (when (s.isPrp port.val) (raise (.prt (s.logical port.val)) 4)
      (raise (.prt port.val) 0 (modPort port.val (fun x => { x with link := up }) (s.at w)))) := by
  have hprp : (raise (.prt port.val) 0 (modPort port.val (fun x => { x with link := up }) (s.at w))).isPrp port.val = s.isPrp port.val := by
    unfold State.isPrp State.logical
    rw [raise_cfg]
    rfl
  have hlogical : (raise (.prt port.val) 0 (modPort port.val (fun x => { x with link := up }) (s.at w))).logical port.val
      = s.logical port.val := by
    unfold State.logical
    rw [raise_cfg]
    rfl
  show execPortLinkChange w port up s = _
  unfold execPortLinkChange
  dsimp only
  rw [if_neg (show ¬ ((s.at w).port port.val).link = up from h), hprp, hlogical]

theorem exec_portLinkChange_only {w : When} {port : Fin 64} {up : Bool} {s t : State} (h : exec (.portLinkChange w port up) s = .next t) :
    Only [.time, .events, .ports, .sessions, .host] s t := (exec_moves _ s _ h).only

/-- The ports after a link change: events touch none of them. -/
theorem linkChange_port {p : Nat} {s : State} (hlen : p < s.prt.ports.length) (c up : Bool) (lp : Nat) (w : When) :
    (when c (raise (.prt lp) 4) (raise (.prt p) 0 (modPort p (fun x => { x with link := up }) (s.at w)))).port p
      = { s.port p with link := up } := by
  have hport : ∀ u v : State, u.prt = v.prt → u.port p = v.port p := fun u v huv => by unfold State.port; rw [huv]
  rw [hport _ (modPort p (fun x => { x with link := up }) (s.at w)) (by cases c <;> simp [when])]
  exact port_modPort_self (s := s.at w) hlen _

/-- The event of the lane's pair keeps that of the lane's link. -/
theorem linkChange_eventsKept (c : Bool) (lp p : Nat) (u : State) :
    EventsKept (raise (.prt p) 0 u) (when c (raise (.prt lp) 4) (raise (.prt p) 0 u)) := .when (raise_eventsKept _ _) (.refl _)

theorem linkChange_bit {p : Nat} {u : State} (h : p < u.evt.prt.length) (c : Bool) (lp : Nat) :
    ((when c (raise (.prt lp) 4) (raise (.prt p) 0 u)).evt.prt.getD p 0).testBit 0 = true :=
  (linkChange_eventsKept c lp p u).regs (.prt p) 0 (raise_prt_bit h 0)

theorem linkChange_pend {p : Nat} {u : State} (h : (u.evt.prt.getD p 0).testBit 0 = false) (hp : p < 64) (c : Bool) (lp : Nat) :
    (when c (raise (.prt lp) 4) (raise (.prt p) 0 u)).evt.pend.getLsbD p = true :=
  (linkChange_eventsKept c lp p u).pend p (raise_pend_self (r := .prt p) h (by simp only [EvtReg.source]; omega))

/-! ### Lasers (chapter 4) -/

theorem laserOffAct_changes {who : Agent} {p : Nat} {off : Bool} {s : State} (hwho : fwOrEngineer who s = true)
    (h : (s.port p).laserOff ≠ off) :
    laserOffAct who p off s = ledger 0x0203 p [bit1 off] (modPort p (fun x => { x with laserOff := off }) s) := by
  simp [laserOffAct, hwho, h]

theorem laserOffAct_same {who : Agent} {p : Nat} {off : Bool} {s : State} (h : (s.port p).laserOff = off) :
    laserOffAct who p off s = s := by
  simp [laserOffAct, h]

theorem laserOffAct_ignored {who : Agent} {p : Nat} {off : Bool} {s : State} (hwho : fwOrEngineer who s = false) :
    laserOffAct who p off s = s := by
  simp [laserOffAct, hwho]

theorem laserOffAct_port {who : Agent} {p : Nat} {off : Bool} {s : State} (hwho : fwOrEngineer who s = true)
    (hlen : p < s.prt.ports.length) : (laserOffAct who p off s).port p = { s.port p with laserOff := off } := by
  by_cases h : (s.port p).laserOff = off
  · rw [laserOffAct_same h, ← h]
  · rw [laserOffAct_changes hwho h]
    unfold State.port
    rw [ledger_prt]
    exact port_modPort_self hlen _

theorem laserOffAct_at_only (who : Agent) (p : Nat) (off : Bool) (w : When) (s : State) :
    Only [.time, .events, .ports, .ledger, .keeper, .sessions, .host] s (laserOffAct who p off (s.at w)) := by
  unfold laserOffAct
  split
  · exact .after (ledger_moves _ _ _ Covers.rfl (.refl _ _)).only (.mono (modPort_at_only _ _ w s))
  · exact at_only w s (Covers.rfl.trans rfl)

/-! ### Cages (R413) -/

/-- What a cage's ports take from its module. -/
def opticalPort (fitted high signal fault : Bool) (x : PortState) : PortState :=
  { x with fitted := fitted, highPower := fitted && high, signal := fitted && signal && !high, txFault := fitted && fault }

theorem port_modPort {n q : Nat} {s : State} (hlen : n < s.prt.ports.length) (f : PortState → PortState) :
    (modPort n f s).port q = if n = q then f (s.port q) else s.port q := by
  split
  · next h => subst h; exact port_modPort_self hlen f
  · next h => exact port_modPort_other h f s

/-- The cage's four ports take it, and no other port. -/
theorem exec_opticalModuleChange {w : When} {cage : Fin 16} {s : State} (hlen : 64 ≤ s.prt.ports.length) (fitted high signal fault : Bool) :
    ∃ t, exec (.opticalModuleChange w cage fitted high signal fault) s = .next t
      ∧ ∀ n, t.port n = if n / 4 = cage.val then opticalPort fitted high signal fault (s.port n) else s.port n := by
  refine ⟨_, rfl, fun n => ?_⟩
  have hcage := cage.isLt
  have hlen' : ∀ u : State, u.prt.ports.length = s.prt.ports.length → ∀ k, k < 4 → 4 * cage.val + k < u.prt.ports.length := by
    intro u hu k hk; omega
  have hmod : ∀ (k : Nat) (u : State), (modPort k (opticalPort fitted high signal fault) u).prt.ports.length = u.prt.ports.length :=
    fun k u => List.length_modify _ _ _
  change (modPort (4 * cage.val + 3) (opticalPort fitted high signal fault) (modPort (4 * cage.val + 2) (opticalPort fitted high signal fault)
    (modPort (4 * cage.val + 1) (opticalPort fitted high signal fault) (modPort (4 * cage.val + 0) (opticalPort fitted high signal fault)
      (s.at w))))).port n = _
  rw [port_modPort (hlen' _ (by simp only [hmod]; rfl) 3 (by decide)), port_modPort (hlen' _ (by simp only [hmod]; rfl) 2 (by decide)),
    port_modPort (hlen' _ (by simp only [hmod]; rfl) 1 (by decide)), port_modPort (hlen' (s.at w) rfl 0 (by decide))]
  show _ = if n / 4 = cage.val then opticalPort fitted high signal fault ((s.at w).port n) else (s.at w).port n
  by_cases hn : n / 4 = cage.val
  · have : n = 4 * cage.val + 0 ∨ n = 4 * cage.val + 1 ∨ n = 4 * cage.val + 2 ∨ n = 4 * cage.val + 3 := by omega
    rcases this with rfl | rfl | rfl | rfl <;> simp [hn]
  · simp only [if_neg hn]
    rw [if_neg (by omega), if_neg (by omega), if_neg (by omega), if_neg (by omega)]

/-! ### Dropped frames (R27, R107, R114) -/

theorem exec_unknownFrame_not_taken {w : When} {port : Fin 64} {kind : DropKind} {s : State} (h : s.portTakes port.val = false) :
    exec (.unknownFrame w port kind) s = .next (s.at w) := by
  show execUnknownFrame w port kind s = _
  simp [execUnknownFrame, show (s.at w).portTakes port.val = false from h]

/-- The tally that a dropped frame counts in. -/
def dropTally : DropKind → PortState → PortState
  | .svNoCredit => fun x => { x with dataDrop := tallyInc x.dataDrop }
  | .surgeNoCredit => fun x => { x with surgeDiscard := tallyInc x.surgeDiscard }
  | _ => fun x => { x with discard := tallyInc x.discard }

theorem exec_unknownFrame {w : When} {port : Fin 64} {kind : DropKind} {s : State} (h : s.portTakes port.val = true) :
    exec (.unknownFrame w port kind) s = .next (modPort port.val (dropTally kind) (s.at w)) := by
  show execUnknownFrame w port kind s = _
  unfold execUnknownFrame
  simp only [show (s.at w).portTakes port.val = true from h, Bool.not_true, Bool.false_eq_true, if_false]
  cases kind <;> rfl

theorem exec_frameCheckError_station {w : When} {port : Fin 66} {s : State} (h : port.val < 64) :
    exec (.frameCheckError w port) s
      = .next (when (s.portTakes port.val) (modPort port.val (fun x => { x with fcsErr := tallyInc x.fcsErr })) (s.at w)) := by
  show execFrameCheckError w port s = _
  unfold execFrameCheckError
  dsimp only
  rw [if_pos h]
  rfl

theorem exec_frameCheckError_host {w : When} {port : Fin 66} {s : State} (h : 64 ≤ port.val) :
    exec (.frameCheckError w port) s = .next { s.at w with hif := { s.hif with fcsErr := updAt s.hif.fcsErr (port.val - 64) tallyInc } } := by
  show execFrameCheckError w port s = _
  unfold execFrameCheckError
  dsimp only
  rw [if_neg (by omega)]
  rfl

/-! ### Supervision (R96) -/

/-- A lane's supervision frame: it leaves, waits or is not sent. -/
def supervisionLane (rct : Option Nat) (p : Nat) (s : State) : State :=
  if s.portSends p then sendMsg p supervisionWire { kind := .supervision, rct := rct } (sendSupervision p rct) s else s

/-- The supervision frame of a lane. -/
def supervisionMessage (p : Nat) (rct : Option Nat) (s : State) : Out :=
  .supervision p { dst := 0x01154E000100, src := s.gen.eui, etherType := 0x88FB, rct := rct.map fun q => (q, if p < 32 then 0xA else 0xB) }

theorem supervisionLane_sends {p : Nat} {s : State} (hsends : s.portSends p = true) (hroom : s.portRoom p supervisionWire = true)
    (hbefore : (s.port p).before false = false) (rct : Option Nat) : supervisionLane rct p s = sendSupervision p rct s := by
  simp only [supervisionLane, hsends, if_true]
  exact sendMsg_sends (m := { kind := .supervision, rct := rct }) hroom hbefore _

theorem supervisionLane_silent {p : Nat} {s : State} (h : s.portSends p = false) (rct : Option Nat) : supervisionLane rct p s = s := by
  simp [supervisionLane, h]

theorem sendSupervision_out (p : Nat) (rct : Option Nat) (s : State) :
    (sendSupervision p rct s).out = supervisionMessage p rct s :: s.out := rfl

theorem sendSupervision_laneKept {p q : Nat} (h : p ≠ q) (rct : Option Nat) (s : State) : LaneKept q s (sendSupervision p rct s) :=
  .emit _ (.chargePort_other h _ (.refl q s))

theorem supervisionLane_low {p : Nat} {s : State} (hsends : s.portSends p = true) (hroom : s.portRoom p supervisionWire = true)
    (hbefore : (s.port p).before false = false) (w : When) (rct : Option Nat) :
    supervisionLane rct p (takeRct p true (s.at w)).2 = sendSupervision p rct (takeRct p true (s.at w)).2 := by
  have hport := takeRct_port (s := s.at w) (lt_length_of_portSends hsends)
  refine supervisionLane_sends ?_ ?_ (by rw [hport]; exact hbefore) rct
  · unfold State.portSends at hsends ⊢
    rw [hport]
    exact hsends
  · unfold State.portRoom at hroom ⊢
    rw [hport]
    exact hroom

theorem supervisionLane_high {q : Nat} {s t : State} (hkept : LaneKept q s t) (hsends : s.portSends q = true)
    (hroom : s.portRoom q supervisionWire = true) (hbefore : (s.port q).before false = false) (rct : Option Nat) :
    (supervisionLane rct q t).out = supervisionMessage q rct s :: t.out := by
  rw [supervisionLane_sends (hkept.sends.trans hsends) (by rw [hkept.room]; exact hroom) (by rw [hkept.port]; exact hbefore),
    sendSupervision_out]
  simp only [supervisionMessage, hkept.gen]

theorem exec_prpSupervision_single {w : When} {port : Fin 32} {s : State} (h : s.isPrp port.val = false) :
    exec (.prpSupervision w port) s = .next (s.at w) := by
  show execPrpSupervision w port s = _
  simp [execPrpSupervision, show (s.at w).isPrp port.val = false from h]

theorem exec_prpSupervision_pair {w : When} {port : Fin 32} {s : State} (h : s.isPrp port.val = true) :
    exec (.prpSupervision w port) s = .next (supervisionLane (some (s.port port.val).rctNext) (port.val + 32)
      (supervisionLane (some (s.port port.val).rctNext) port.val (takeRct port.val true (s.at w)).2)) := by
  show execPrpSupervision w port s = _
  unfold execPrpSupervision
  simp only [show (s.at w).isPrp port.val = true from h, Bool.not_true, if_false, Bool.false_eq_true]
  rfl

theorem exec_prpSupervision_only {w : When} {port : Fin 32} {s t : State} (h : exec (.prpSupervision w port) s = .next t) :
    Only [.time, .ports, .sent] s t := (exec_moves _ s _ h).only

theorem supervisionMessage_low {p : Nat} (h : p < 32) (q : Nat) (s : State) : supervisionMessage p (some q) s
    = .supervision p { dst := 0x01154E000100, src := s.gen.eui, etherType := 0x88FB, rct := some (q, 0xA) } := by
  simp [supervisionMessage, h]

theorem supervisionMessage_high (p q : Nat) (s : State) : supervisionMessage (p + 32) (some q) s
    = .supervision (p + 32) { dst := 0x01154E000100, src := s.gen.eui, etherType := 0x88FB, rct := some (q, 0xB) } := by
  simp [supervisionMessage]

/-- Settles O20: each command by the branch that its hypotheses select. -/
theorem linksAndLasers : Obligations.LinksAndLasers := by
  unfold Obligations.LinksAndLasers
  refine ⟨?linkChange, ?laneChange, ?linkSame, ?laser, ?laserSame, ?laserIgnored, ?cage, ?discard, ?dataDrop, ?surgeDrop, ?notTaken,
    ?fcsNotTaken, ?fcs, ?fcsHost, ?bothLanes, ?laneA, ?laneB, ?noLane, ?noPair⟩
  case linkChange =>
    intro w port up s hlink hlen hevt
    have hexec := exec_portLinkChange (w := w) hlink
    refine ⟨_, hexec, exec_portLinkChange_only hexec, by rw [linkChange_port hlen], by rw [linkChange_port hlen], ?_, ?_⟩
    · exact linkChange_bit (u := modPort port.val (fun x => { x with link := up }) (s.at w)) hevt _ _
    · exact fun hclear => linkChange_pend (u := modPort port.val (fun x => { x with link := up }) (s.at w)) hclear port.isLt _ _
  case laneChange =>
    intro w port up s hlink hlen hprp hevt hlogical
    have hexec := exec_portLinkChange (w := w) hlink
    refine ⟨_, hexec, exec_portLinkChange_only hexec, by rw [linkChange_port hlen], ?_, ?_⟩
    · exact linkChange_bit (u := modPort port.val (fun x => { x with link := up }) (s.at w)) hevt _ _
    · rw [hprp]
      exact raise_prt_bit (by rw [raise_prtEvents_length]; exact hlogical) 4
  case linkSame =>
    intro w port up s hlink
    refine ⟨_, ?_, at_only w s Covers.rfl⟩
    show execPortLinkChange w port up s = _
    simp [execPortLinkChange, show ((s.at w).port port.val).link = up from hlink]
  case laser =>
    intro w who port off s hwho hlen hgrant
    refine ⟨_, answers_granted (w := w) rfl hgrant rfl, laserOffAct_at_only who _ off w s, ?_, ?_⟩ <;>
      rw [laserOffAct_port (s := s.at w) hwho hlen]
    rfl
  case laserSame =>
    exact fun w who port off s _ hoff hgrant =>
      ⟨_, answers_granted (w := w) rfl hgrant (laserOffAct_same (s := s.at w) hoff), at_only w s Covers.rfl⟩
  case laserIgnored =>
    exact fun w who port off s hwho hgrant =>
      ⟨_, answers_granted (w := w) rfl hgrant (laserOffAct_ignored (s := s.at w) hwho), at_only w s Covers.rfl⟩
  case cage =>
    intro w cage k fitted high signal fault s hlen
    obtain ⟨t, hexec, hport⟩ := exec_opticalModuleChange (w := w) (cage := cage) hlen fitted high signal fault
    have hk : (4 * cage.val + k.val) / 4 = cage.val := by have := k.isLt; omega
    refine ⟨t, hexec, (exec_moves _ s _ hexec).only, ?_, ?_, ?_, ?_, ?_, fun n hn => by rw [hport, if_neg hn]⟩ <;>
      rw [hport, if_pos hk] <;> rfl
  case discard =>
    intro w port kind s htakes hsv hsurge
    refine ⟨_, exec_unknownFrame htakes, modPort_at_only _ _ w s, ?_⟩
    cases kind <;> first | exact absurd rfl hsv | exact absurd rfl hsurge | rfl
  case dataDrop => exact fun w port s htakes => ⟨_, exec_unknownFrame htakes, modPort_at_only _ _ w s, rfl⟩
  case surgeDrop => exact fun w port s htakes => ⟨_, exec_unknownFrame htakes, modPort_at_only _ _ w s, rfl⟩
  case notTaken => exact fun w port kind s htakes => ⟨_, exec_unknownFrame_not_taken htakes, at_only w s Covers.rfl⟩
  case fcsNotTaken =>
    intro w port s hport htakes
    have hexec := exec_frameCheckError_station (w := w) (s := s) hport
    rw [htakes] at hexec
    exact ⟨_, hexec, at_only w s Covers.rfl⟩
  case fcs =>
    intro w port s hport htakes
    have hexec := exec_frameCheckError_station (w := w) (s := s) hport
    rw [htakes] at hexec
    exact ⟨_, hexec, modPort_at_only _ _ w s, rfl⟩
  case fcsHost =>
    intro w port s hport
    exact ⟨_, exec_frameCheckError_host hport, .after (setHif_only (s := s.at w) ⟨rfl, rfl⟩ ⟨rfl, rfl, rfl⟩) (at_only w s (Covers.rfl.trans rfl)), rfl⟩
  case bothLanes =>
    intro w port s hprp hsends hsends' hroom hroom' hbefore hbefore'
    have hexec := exec_prpSupervision_pair (w := w) hprp
    rw [supervisionLane_low hsends hroom hbefore] at hexec
    refine ⟨_, hexec, exec_prpSupervision_only hexec, ?_⟩
    rw [supervisionLane_high (s := s) (((at_laneKept _ w s).trans (takeRct_laneKept (lane_ne _) _)).trans
      (sendSupervision_laneKept (lane_ne _) _ _)) hsends' hroom' hbefore', sendSupervision_out, supervisionMessage_low port.isLt,
      supervisionMessage_high]
    rfl
  case laneA =>
    intro w port s hprp hsends hsilent' hroom hbefore
    have hexec := exec_prpSupervision_pair (w := w) hprp
    have hkept : LaneKept (port.val + 32) s (sendSupervision port.val (some (s.port port.val).rctNext) (takeRct port.val true (s.at w)).2) :=
      ((at_laneKept _ w s).trans (takeRct_laneKept (lane_ne _) _)).trans (sendSupervision_laneKept (lane_ne _) _ _)
    rw [supervisionLane_low hsends hroom hbefore, supervisionLane_silent (hkept.sends.trans hsilent')] at hexec
    refine ⟨_, hexec, exec_prpSupervision_only hexec, ?_⟩
    rw [sendSupervision_out, supervisionMessage_low port.isLt]
    rfl
  case laneB =>
    intro w port s hprp hsilent hsends' hroom' hbefore'
    have hexec := exec_prpSupervision_pair (w := w) hprp
    rw [supervisionLane_silent (portSends_takeRct hsilent w)] at hexec
    refine ⟨_, hexec, exec_prpSupervision_only hexec, ?_⟩
    rw [supervisionLane_high (s := s) ((at_laneKept _ w s).trans (takeRct_laneKept (lane_ne _) _)) hsends' hroom' hbefore',
      supervisionMessage_high]
    rfl
  case noLane =>
    intro w port s hprp hsilent hsilent'
    have hexec := exec_prpSupervision_pair (w := w) hprp
    have hkept : LaneKept (port.val + 32) s (takeRct port.val true (s.at w)).2 :=
      (at_laneKept _ w s).trans (takeRct_laneKept (lane_ne _) _)
    rw [supervisionLane_silent (portSends_takeRct hsilent w), supervisionLane_silent (hkept.sends.trans hsilent')] at hexec
    exact ⟨_, hexec, modPort_at_only _ _ w s⟩
  case noPair => exact fun w port s hprp => ⟨_, exec_prpSupervision_single hprp, at_only w s Covers.rfl⟩

end Sys2Proof.Machine

/-! Errors met in queue memory (R115, R160, R194, R205, R288). -/

namespace Sys2Proof.Machine

set_option Elab.async false

open Sys2Proof

/-- What a report leaves of the collector depends on the collector and the always-on clock. -/
theorem reportBy_fcr_congr {s t : State} (hfcr : t.fcr = s.fcr) (haon : t.aon = s.aon) (unit src inst : Nat) :
    (reportBy unit src inst t).fcr = (reportBy unit src inst s).fcr := by
  unfold reportBy
  split
  · simp only [hfcr, haon]
  · exact hfcr

theorem reportBy_only (unit src inst : Nat) (s : State) : Only [.faults] s (reportBy unit src inst s) :=
  (reportBy_moves unit src inst Covers.rfl (.refl _ _)).only

theorem raise_only (r : EvtReg) (bit : Nat) (s : State) : Only [.events, .sessions, .host] s (raise r bit s) :=
  (raise_moves r bit Covers.rfl (.refl _ _)).only

theorem logCorrection_ceLight (line : Nat) (light : Bool) (dev bits finder : Nat) (s : State) :
    (logCorrection line light dev bits finder s).mem.ceLight = s.mem.ceLight := by
  unfold logCorrection
  dsimp only
  split
  · rfl
  · split <;> rfl

/-- A corrected error counts for LIGHT and is logged. -/
theorem readerError_corrected_ceLight (a : Fin 10) (b : Nat) (s : State) : (readerError (.corrected a b) s).mem.ceLight = tallyInc s.mem.ceLight := by
  simp only [readerError, logCorrection_ceLight, report, reportBy_mem]
  rfl

theorem logCorrection_only (line : Nat) (light : Bool) (dev bits finder : Nat) (s : State) :
    Only [.memctl] s (logCorrection line light dev bits finder s) := (logCorrection_moves line light dev bits finder Covers.rfl (.refl _ _)).only

theorem draw_only (s : State) : Only [.draws] s (draw s).2 := (draw_moves Covers.rfl (.refl _ _)).only

theorem readerError_corrected_only (a : Fin 10) (b : Nat) (s : State) : Only [.draws, .memctl, .faults] s (readerError (.corrected a b) s) := by
  simp only [readerError, report]
  exact .after (logCorrection_only _ _ _ _ _ _) (.after (reportBy_only _ _ _ _) (.after (modMem_only rfl) (.mono (draw_only s))))

/-- An uncorrectable one counts for LIGHT, with source 21. -/
theorem readerError_uncorrectable_only (s : State) : Only [.memctl, .faults] s (readerError .uncorrectable s) := by
  simp only [readerError, report]
  exact .after (reportBy_only _ _ _ _) (.mono (modMem_only rfl))

theorem readerError_uncorrectable_ueLight (s : State) : (readerError .uncorrectable s).mem.ueLight = tallyInc s.mem.ueLight := by
  simp only [readerError, report, reportBy_mem]
  rfl

theorem Only.same {P : List Part} {s t : State} (h : Only P s t) (p : Part) (hp : P.contains p = false) : p.Same s t :=
  h.2 p fun hmem => by rw [List.contains_iff_mem.mpr hmem] at hp; exact Bool.noConfusion hp

theorem readerError_prt (f : MemFault) (s : State) : (readerError f s).prt.ports = s.prt.ports :=
  (readerError_moves f Covers.rfl (.refl _ s)).keeps .ports rfl

theorem readerError_wce (f : MemFault) (s : State) : (readerError f s).wce = s.wce :=
  (readerError_moves f Covers.rfl (.refl _ s)).keeps .surges rfl

theorem readerError_queue (f : MemFault) (s : State) : (readerError f s).phe.queue = s.phe.queue :=
  ((readerError_moves f Covers.rfl (.refl _ s)).keeps .streams rfl).2

theorem dropFrame_queue (x : PubFrame) (s : State) : (dropFrame x s).phe.queue = s.phe.queue := by
  unfold dropFrame
  rw [raise_phe]
  rfl

/-- The wavefront engine replaced: the other parts are as they were. -/
theorem setWce_only (x : WceState) (s : State) : Only [.surges] s { s with wce := x } := by
  refine ⟨rfl, fun p hp => ?_⟩
  cases p
  case surges => exact absurd List.mem_cons_self hp
  all_goals simp [Part.Same]

/-- The phasor engine's streams, or its counters, changed: the other parts are as they were. -/
theorem setPhe_only {P : List Part} {x : PheState} {s : State} (hrest : x.rest = s.phe.rest ∨ P.contains .phasors = true)
    (hstr : (x.streams = s.phe.streams ∧ x.queue = s.phe.queue) ∨ P.contains .streams = true)
    (hmb : x.banks = s.phe.banks ∧ x.newest = s.phe.newest ∧ x.pendMb = s.phe.pendMb ∧ x.locked = s.phe.locked ∧ x.before = s.phe.before) :
    Only P s { s with phe := x } := by
  refine ⟨rfl, fun p hp => ?_⟩
  cases p
  case phasors => exact hrest.resolve_right fun h => hp (List.contains_iff_mem.mp h)
  case streams => exact hstr.resolve_right fun h => hp (List.contains_iff_mem.mp h)
  case mailbox => exact hmb
  all_goals simp [Part.Same]

/-- The clock and an error of the backing store, before what the queue does. -/
theorem readerError_uncorrectable_at_only (w : When) (s : State) : Only [.time, .memctl, .faults] s (readerError .uncorrectable (s.at w)) :=
  .after (readerError_uncorrectable_only _) (at_only w s (Covers.rfl.trans rfl))

theorem readerError_corrected_at_only (w : When) (s : State) :
    Only [.time, .draws, .memctl, .faults] s (readerError (.corrected 0 1) (s.at w)) :=
  .after (readerError_corrected_only _ _ _) (at_only w s (Covers.rfl.trans rfl))

theorem dropFrame_only (x : PubFrame) (s : State) : Only [.events, .streams, .sessions, .host] s (dropFrame x s) :=
  (dropFrame_moves x Covers.rfl (.refl _ _)).only

/-- Settles O21, error by error. -/
theorem queueErrors : Obligations.QueueErrors := by
  unfold Obligations.QueueErrors
  refine ⟨?port, ?forces, ?mailbox, ?svCorrected, ?sv, ?surge, ?surgeCorrected, ?publicationCorrected, ?publication⟩
  case port =>
    intro w n s hlen
    have hport := port_modPort_self (s := s.at w) hlen (fun x => { x with outq := x.outq.filter (!·.enq), waitq := [], qreset := tallyInc x.qreset })
    have hkept : ∀ u : State, (reportBy n.val 30 0xFF (raise (.prt n.val) 3 u)).port n.val = u.port n.val := fun u => by
      unfold State.port
      rw [reportBy_prt, raise_prt]
    refine ⟨_, rfl, .after (reportBy_only _ _ _ _) (.after (raise_only _ _ _) (.mono (modPort_at_only _ _ w s))), ?_, ?_, ?_,
      reportBy_fcr_congr (by simp) (by simp) _ _ _⟩
    · rw [hkept, hport]; rfl
    · rw [hkept, hport]
    · rw [hkept, hport]; rfl
  case forces =>
    exact fun w s => ⟨_, rfl, .after (reportBy_only _ _ _ _) (at_only w s (Covers.rfl.trans rfl)), rfl⟩
  case mailbox =>
    intro w s
    have hreset : Only [.mailbox, .surges] (s.at w) (mailboxReset (s.at w)) := (mailboxReset_moves Covers.rfl (.refl _ _)).only
    refine ⟨_, rfl, .after (reportBy_only _ _ _ _) (.after hreset (at_only w s (Covers.rfl.trans rfl))), ?_, ?_, ?_, ?_,
      reportBy_fcr_congr rfl rfl _ _ _⟩
    · rw [reportBy_wce]; rfl
    all_goals rw [reportBy_phe]; rfl
  case svCorrected =>
    intro w n s
    refine ⟨_, rfl, .after (modPort_moves _ _ Covers.rfl (.refl _ _)).only (.mono (readerError_corrected_at_only w s)), ?_, ?_⟩
    · exact readerError_corrected_ceLight 0 1 (s.at w)
    · exact congrArg (updAt · n.val _) (readerError_prt _ (s.at w))
  case sv =>
    intro w n s hlen
    have hlen' : n.val < (readerError .uncorrectable (s.at w)).prt.ports.length := by rw [readerError_prt]; exact hlen
    have hat : (readerError .uncorrectable (s.at w)).port n.val = s.port n.val := by unfold State.port; rw [readerError_prt]; rfl
    have hport := port_modPort_self hlen' (fun x => { x with dataDrop := tallyInc x.dataDrop, svq := x.svq - 1 })
    have hkept : ∀ u : State, (reportBy n.val 31 0xFF (raise (.prt n.val) 5 u)).port n.val = u.port n.val := fun u => by
      unfold State.port
      rw [reportBy_prt, raise_prt]
    have hexec : exec (.dataQueueError w (.sv n) false) s = .next (reportBy n.val 31 0xFF (raise (.prt n.val) 5
        (modPort n.val (fun x => { x with dataDrop := tallyInc x.dataDrop, svq := x.svq - 1 }) (readerError .uncorrectable (s.at w))))) := rfl
    refine ⟨_, hexec, .after (reportBy_only _ _ _ _) (.after (raise_only _ _ _) (.after (modPort_moves _ _ Covers.rfl (.refl _ _)).only
      (.mono (readerError_uncorrectable_at_only w s)))), ?_, ?_, ?_, reportBy_fcr_congr (by simp) (by simp) _ _ _⟩
    · rw [reportBy_mem, raise_mem]
      exact readerError_uncorrectable_ueLight (s.at w)
    · rw [hkept, hport, hat]
    · rw [hkept, hport, hat]
  case surge =>
    intro w pos s
    refine ⟨_, rfl, .after (reportBy_only _ _ _ _) (.after (raise_only _ _ _) (.after (setWce_only _ _)
      (.mono (readerError_uncorrectable_at_only w s)))), ?_, ?_, ?_, reportBy_fcr_congr (by simp) (by simp) _ _ _⟩
    · rw [reportBy_wce, raise_wce]
      exact congrArg (fun x : WceState => x.queue.eraseIdx pos) (readerError_wce _ (s.at w))
    · rw [reportBy_wce, raise_wce]
      exact congrArg (fun x : WceState => tallyInc x.drop) (readerError_wce _ (s.at w))
    · rw [reportBy_mem, raise_mem]
      exact readerError_uncorrectable_ueLight (s.at w)
  case surgeCorrected =>
    intro w pos s
    have hexec : exec (.dataQueueError w (.surge pos) true) s = .next { readerError (.corrected 0 1) (s.at w) with
        wce := { (readerError (.corrected 0 1) (s.at w)).wce with
          eccCorr := tallyInc (readerError (.corrected 0 1) (s.at w)).wce.eccCorr } } := rfl
    refine ⟨_, hexec, .after (setWce_only _ _) (.mono (readerError_corrected_at_only w s)), ?_, ?_⟩
    · exact congrArg (fun x : WceState => tallyInc x.eccCorr) (readerError_wce (.corrected 0 1) (s.at w))
    · show (readerError (.corrected 0 1) (s.at w)).wce.queue = _
      rw [readerError_wce]
      rfl
  case publicationCorrected =>
    intro w p pos s
    have hphe : (readerError (.corrected 0 1) (s.at w)).phe.rest = s.phe.rest :=
      (readerError_corrected_only 0 1 (s.at w)).same .phasors rfl
    have hexec : exec (.dataQueueError w (.publication p pos) true) s = .next { readerError (.corrected 0 1) (s.at w) with
        phe := { (readerError (.corrected 0 1) (s.at w)).phe with
          eccCorr := tallyInc (readerError (.corrected 0 1) (s.at w)).phe.eccCorr } } := rfl
    refine ⟨_, hexec, .after (setPhe_only (P := [.phasors]) (.inr rfl) (.inl ⟨rfl, rfl⟩) ⟨rfl, rfl, rfl, rfl, rfl⟩)
      (.mono (readerError_corrected_at_only w s)), ?_⟩
    have hecc : (readerError (.corrected 0 1) (s.at w)).phe.rest.eccCorr = s.phe.rest.eccCorr := congrArg PheState.eccCorr hphe
    exact congrArg tallyInc hecc
  case publication =>
    intro w p pos x s hx
    have hqueue : (readerError .uncorrectable (s.at w)).phe.queue = s.phe.queue := readerError_queue _ (s.at w)
    have hexec : exec (.dataQueueError w (.publication p pos) false) s = .next (reportBy 65 31 0xFF (dropFrame x
        { readerError .uncorrectable (s.at w) with phe := { (readerError .uncorrectable (s.at w)).phe with
          queue := (readerError .uncorrectable (s.at w)).phe.queue.erase x } })) := by
      show execDataQueueError w (.publication p pos) false s = _
      simp only [execDataQueueError, Bool.false_eq_true, if_false, hqueue, hx]
    refine ⟨_, hexec, .after (reportBy_only _ _ _ _) (.after (dropFrame_only _ _) (.after (setPhe_only (P := [.phasors, .streams]) (.inl rfl) (.inr rfl)
      ⟨rfl, rfl, rfl, rfl, rfl⟩) (.mono (readerError_uncorrectable_at_only w s)))), ?_⟩
    rw [reportBy_phe, dropFrame_queue, hqueue]

end Sys2Proof.Machine

/-! HELLO and resync frames (R112, R113). -/

namespace Sys2Proof.Machine

set_option Elab.async false

open Sys2Proof

/-! ### Streams and stations held -/

/-- A stream is held under its station and task. -/
theorem stream_keys (s : State) (st t : Nat) : (s.stream st t).station = st ∧ (s.stream st t).task = t := by
  unfold State.stream
  cases hfind : s.prt.streams.find? (fun x => x.station == st && x.task == t) with
  | none => exact ⟨rfl, rfl⟩
  | some x => simpa using List.find?_some hfind

theorem stream_modStream_self {st t : Nat} {f : StreamState → StreamState} {s : State}
    (hf : (f (s.stream st t)).station = (s.stream st t).station ∧ (f (s.stream st t)).task = (s.stream st t).task) :
    (modStream st t f s).stream st t = f (s.stream st t) := by
  obtain ⟨hst, ht⟩ := stream_keys s st t
  have hkey : ((f (s.stream st t)).station == st && (f (s.stream st t)).task == t) = true := by simp [hf.1, hf.2, hst, ht]
  have hnone : (s.prt.streams.filter fun y => !(y.station == st && y.task == t)).find? (fun x => x.station == st && x.task == t) = none := by
    simp only [List.find?_eq_none, List.mem_filter, Bool.not_eq_true']
    exact fun x hx => by simp [hx.2]
  show ((_ ++ [f (s.stream st t)]).find? _).getD _ = _
  rw [List.find?_append, hnone, Option.none_or]
  simp only [List.find?_cons, hkey, Option.getD_some]

theorem stream_modStream_other {st t st' t' : Nat} {f : StreamState → StreamState} {s : State} (h : st' ≠ st ∨ t' ≠ t)
    (hf : (f (s.stream st t)).station = (s.stream st t).station ∧ (f (s.stream st t)).task = (s.stream st t).task) :
    (modStream st t f s).stream st' t' = s.stream st' t' := by
  obtain ⟨hst, ht⟩ := stream_keys s st t
  have hkey : ¬ ((f (s.stream st t)).station == st' && (f (s.stream st t)).task == t') = true := by
    simp only [hf.1, hf.2, hst, ht, Bool.and_eq_true, beq_iff_eq]
    omega
  have hother : (fun x : StreamState => decide ((!(x.station == st && x.task == t)) = true ∧ (x.station == st' && x.task == t') = true))
      = fun x => x.station == st' && x.task == t' := by
    funext x
    by_cases hx : (x.station == st' && x.task == t') = true
    · obtain ⟨hx1, hx2⟩ : x.station = st' ∧ x.task = t' := by simpa using hx
      have hne : (x.station == st && x.task == t) = false := by
        simp only [Bool.and_eq_false_iff, beq_eq_false_iff_ne]
        omega
      simp [hx, hne]
    · simp [hx]
  unfold State.stream
  show ((_ ++ [f (s.stream st t)]).find? _).getD _ = _
  rw [List.find?_append, List.find?_filter, hother, List.find?_cons_of_neg (p := fun x : StreamState => x.station == st' && x.task == t') hkey]
  simp

theorem stn_key (s : State) (st : Nat) : (s.stn st).number = st := by
  unfold State.stn
  cases hfind : s.prt.stations.find? (·.number == st) with
  | none => rfl
  | some x => simpa using List.find?_some hfind

theorem stn_modStn_self {st : Nat} {f : StnState → StnState} {s : State} (hf : (f (s.stn st)).number = (s.stn st).number) :
    (modStn st f s).stn st = f (s.stn st) := by
  have hkey : ((f (s.stn st)).number == st) = true := by simp [hf, stn_key]
  have hnone : (s.prt.stations.filter (·.number != st)).find? (·.number == st) = none := by simp [List.find?_eq_none]
  show ((_ ++ [f (s.stn st)]).find? _).getD _ = _
  rw [List.find?_append, hnone, Option.none_or]
  simp only [List.find?_cons, hkey, Option.getD_some]

/-- Streams are read from the list of streams. -/
theorem stream_congr {s t : State} (h : t.prt.streams = s.prt.streams) (st k : Nat) : t.stream st k = s.stream st k := by
  unfold State.stream
  rw [h]

/-! ### HELLO (R113) -/

/-- Setting a stream's debt. -/
def oweResync (st by' : Nat) (s : State) (t : Nat) : State := modStream st t (fun x => { x with resyncBy := some by' }) s

theorem stream_oweResync (st by' : Nat) (s : State) (t k : Nat) :
    (oweResync st by' s t).stream st k = if k = t then { s.stream st k with resyncBy := some by' } else s.stream st k := by
  split
  · next h => subst h; exact stream_modStream_self (f := fun x => { x with resyncBy := some by' }) ⟨rfl, rfl⟩
  · next h => exact stream_modStream_other (f := fun x => { x with resyncBy := some by' }) (.inr h) ⟨rfl, rfl⟩

/-- Every stream named owes its frame, and no other field of it changes. -/
theorem stream_foldl_oweResync (st by' k : Nat) (l : List Nat) (s : State) :
    (l.foldl (oweResync st by') s).stream st k = if k ∈ l then { s.stream st k with resyncBy := some by' } else s.stream st k := by
  induction l generalizing s with
  | nil => simp
  | cons t l ih =>
    rw [List.foldl_cons, ih, stream_oweResync]
    by_cases hk : k = t <;> by_cases hl : k ∈ l <;> simp [hk, hl]

theorem foldl_oweResync_only (st by' : Nat) (l : List Nat) (s : State) : Only [.stations] s (l.foldl (oweResync st by') s) := by
  induction l generalizing s with
  | nil => exact .refl _ _
  | cons t l ih => exact .after (ih _) (modStream_moves _ _ _ Covers.rfl (.refl _ _)).only

theorem duplicate_only (p : Nat) (rct : Option Rct) (s : State) : Only [.ports] s (duplicate p rct s).2 :=
  (duplicate_moves p rct Covers.rfl (.refl _ _)).only

/-- A frame that counts as control traffic takes a credit, where one is left. -/
theorem ctlFrame_credit {p : Nat} {s : State} (h : (s.port p).ctlCredit ≠ 0) (f : State → State) :
    ctlFrame p f s = f (modPort p (fun x => { x with ctlCredit := x.ctlCredit - 1 }) s) := by
  unfold ctlFrame
  rw [if_neg h]

theorem ctlFrame_spent {p : Nat} {s : State} (h : (s.port p).ctlCredit = 0) (f : State → State) :
    ctlFrame p f s = modPort p (fun x => { x with discard := tallyInc x.discard }) s := by
  unfold ctlFrame
  rw [if_pos h]

/-- A copy seen before leaves the module as it was. -/
theorem duplicate_second {p : Nat} {rct : Option Rct} {s : State} (h : (duplicate p rct s).1 = true) : (duplicate p rct s).2 = s := by
  unfold duplicate at h ⊢
  cases rct with
  | none => rfl
  | some r =>
    dsimp only at h ⊢
    split
    · rfl
    · next hprp =>
      rw [if_neg hprp] at h
      split
      · rfl
      · next hnew =>
        rw [if_neg hnew] at h
        exact Bool.noConfusion h

/-- A first copy is noted at its port, whose credit it leaves. -/
theorem duplicate_ctlCredit (p : Nat) (rct : Option Rct) (s : State) (q : Nat) :
    ((duplicate p rct s).2.port q).ctlCredit = (s.port q).ctlCredit := by
  unfold duplicate
  cases rct with
  | none => rfl
  | some r =>
    dsimp only
    split
    · rfl
    · split
      · rfl
      · by_cases hq : s.logical p = q
        · by_cases hlen : s.logical p < s.prt.ports.length
          · subst hq
            rw [port_modPort_self hlen]
          · unfold modPort State.port updAt
            rw [List.modify_eq_self (by omega)]
        · rw [port_modPort_other hq]

/-- Noting a first copy changes the ports alone. -/
theorem duplicate_eq (p : Nat) (rct : Option Rct) (s : State) :
    ∃ ports, (duplicate p rct s).2 = { s with prt := { s.prt with ports := ports } } := by
  unfold duplicate
  cases rct with
  | none => exact ⟨s.prt.ports, rfl⟩
  | some r =>
    dsimp only
    split
    · exact ⟨s.prt.ports, rfl⟩
    · split
      · exact ⟨s.prt.ports, rfl⟩
      · exact ⟨_, rfl⟩

theorem duplicate_streams (p : Nat) (rct : Option Rct) (s : State) : (duplicate p rct s).2.prt.streams = s.prt.streams :=
  ((duplicate_only p rct s).same .stations rfl).2

/-- What a HELLO does on a module that takes it: with a credit left, a mapped station's streams owe a resync frame. -/
theorem exec_helloReceived_owes {w : When} {port : Fin 64} {f : HelloFrame} {c : StationCfg} {s : State} (htakes : s.portTakes port.val = true)
    (hprimary : s.primary = true) (hmapped : s.mapped f.station (s.logical port.val) = some c)
    (hdup : (duplicate port.val f.rct (s.at w)).1 = false) (hcredit : (s.port port.val).ctlCredit ≠ 0) :
    exec (.helloReceived w port f) s = .next ((s.stationTasks f.station).foldl
      (oweResync f.station (s.rxTime port.val f.stamp + 2 * ticksPerPeriod))
      (modPort port.val (fun x => { x with ctlCredit := x.ctlCredit - 1 }) (duplicate port.val f.rct (s.at w)).2)) := by
  obtain ⟨ports, hports⟩ := duplicate_eq port.val f.rct (s.at w)
  have hleft : ((duplicate port.val f.rct (s.at w)).2.port port.val).ctlCredit ≠ 0 := by rw [duplicate_ctlCredit]; exact hcredit
  rw [hports] at hleft ⊢
  show execHelloReceived w port f s = _
  unfold execHelloReceived
  simp only [show (s.at w).portTakes port.val = true from htakes, Bool.not_true, Bool.false_eq_true, if_false,
    show duplicate port.val f.rct (s.at w) = (false, _) from Prod.ext hdup hports, ctlFrame_credit hleft]
  simp only [State.primary] at hprimary
  simp only [State.primary, modPort_wvl, State.at, hprimary, Bool.not_true, Bool.false_eq_true, if_false]
  split
  · next h => exact absurd (h.symm.trans hmapped) (by simp)
  · rfl

theorem helloReceived_only (w : When) (port : Fin 64) (st by' : Nat) (rct : Option Rct) (f : PortState → PortState) (l : List Nat) (s : State) :
    Only [.time, .ports, .stations] s (l.foldl (oweResync st by') (modPort port.val f (duplicate port.val rct (s.at w)).2)) :=
  .after (foldl_oweResync_only _ _ _ _) (.after (modPort_moves _ _ Covers.rfl (.refl _ _)).only
    (.after (duplicate_only _ _ _) (at_only w s (Covers.rfl.trans rfl))))

/-- Elsewhere than on a primary a HELLO only costs its credit. -/
theorem exec_helloReceived_ignored {w : When} {port : Fin 64} {f : HelloFrame} {s : State} (hprimary : s.primary = false) :
    ∃ t, exec (.helloReceived w port f) s = .next t ∧ Only [.time, .ports] s t := by
  obtain ⟨ports, hports⟩ := duplicate_eq port.val f.rct (s.at w)
  have hnoted : Only [.time, .ports] s { s.at w with prt := { s.prt with ports := ports } } := by
    have := (duplicate_only port.val f.rct (s.at w)).after (P := [.time, .ports]) (at_only w s (Covers.rfl.trans rfl))
    rwa [hports] at this
  show ∃ t, execHelloReceived w port f s = .next t ∧ _
  unfold execHelloReceived
  dsimp only
  split
  · exact ⟨_, rfl, at_only w s (Covers.rfl.trans rfl)⟩
  · rw [hports]
    split
    · exact ⟨_, rfl, hnoted⟩
    · refine ⟨_, rfl, ?_⟩
      unfold ctlFrame
      split
      · exact .after (modPort_moves _ _ Covers.rfl (.refl _ _)).only hnoted
      · simp only [State.primary] at hprimary
        simp only [State.primary, modPort_wvl, State.at, hprimary, Bool.not_false, if_true]
        exact .after (modPort_moves _ _ Covers.rfl (.refl _ _)).only hnoted

/-! ### Resync frames (R113) -/

theorem modPort_streams (n : Nat) (f : PortState → PortState) (s : State) : (modPort n f s).prt.streams = s.prt.streams := rfl

theorem sendFrame_streams (p : Nat) (x : OutFrame) (s : State) : (sendFrame p x s).prt.streams = s.prt.streams := by
  unfold sendFrame
  dsimp only
  split <;> split <;> rfl

theorem drainPortGo_streams (p : Nat) (l : List OutFrame) (s : State) : (drainPortGo p l s).prt.streams = s.prt.streams := by
  induction l generalizing s with
  | nil => rfl
  | cons x l ih =>
    unfold drainPortGo
    split
    · rw [ih, sendFrame_streams]
    · rfl

theorem drainPort_streams (p : Nat) (s : State) : (drainPort p s).prt.streams = s.prt.streams := by
  unfold drainPort
  dsimp only
  split
  · rfl
  · split
    · rfl
    · exact drainPortGo_streams _ _ _

theorem foldl_drainPort_streams (l : List Nat) (s : State) : (l.foldl (fun s q => drainPort q s) s).prt.streams = s.prt.streams := by
  induction l generalizing s with
  | nil => rfl
  | cons q l ih => rw [List.foldl_cons, ih, drainPort_streams]

theorem foldl_modPort_streams (l : List Nat) (f : State → Nat → PortState → PortState) (s : State) :
    (l.foldl (fun s q => modPort q (f s q) s) s).prt.streams = s.prt.streams := by
  induction l generalizing s with
  | nil => rfl
  | cons q l ih => rw [List.foldl_cons, ih]; rfl

theorem queueFrame_streams (p : Nat) (x : OutFrame) (s : State) : (queueFrame p x s).prt.streams = s.prt.streams := by
  unfold queueFrame
  dsimp only
  rw [foldl_modPort_streams _ (fun s l => _)]
  unfold takeRct
  split <;> rfl

/-- A stream's debt is gone. -/
def settleResync (st t : Nat) (s : State) : State := modStream st t (fun y => { y with resyncBy := none }) s

theorem stream_settleResync (st t : Nat) (s : State) : (settleResync st t s).stream st t = { s.stream st t with resyncBy := none } :=
  stream_modStream_self (f := fun y => { y with resyncBy := none }) ⟨rfl, rfl⟩

/-- The stream under its new sequence number. -/
def renumber (st t seq : Nat) (s : State) : State := modStream st t (fun y => { y with seq := seq, answered := false, copies := [] }) s

theorem stream_renumber (st t seq : Nat) (s : State) :
    (renumber st t seq s).stream st t = { s.stream st t with seq := seq, answered := false, copies := [] } :=
  stream_modStream_self (f := fun y => { y with seq := seq, answered := false, copies := [] }) ⟨rfl, rfl⟩

/-- A resync frame in time: queued and drained under the next number. -/
theorem exec_resyncSend_sends {w : When} {station : Fin 2048} {task : Fin 16} {by' : Nat} {c : StationCfg} {s : State}
    (howed : (s.stream station.val task.val).resyncBy = some by') (hcfg : s.stationCfg station.val = some c) (hprimary : s.primary = true)
    (hsent : (s.stream station.val task.val).sent = true) (hby : (s.at w).islandTime marketIsland ≤ by')
    (happly : (s.at w).islandTime marketIsland + usTicks 250 ≤ (s.stream station.val task.val).apply) :
    ∃ (x : OutFrame) (l : List Nat), exec (.resyncSend w station task) s = .next (l.foldl (fun s q => drainPort q s)
      (queueFrame c.port x (renumber station.val task.val (s.stream station.val task.val).nextSeq
        (settleResync station.val task.val (s.at w))))) := by
  show ∃ (x : OutFrame) (l : List Nat), execResyncSend w station task s = _
  unfold execResyncSend
  dsimp only
  split
  · next b c' hb hc =>
    obtain rfl : by' = b := Option.some.inj (howed.symm.trans hb)
    obtain rfl : c = c' := Option.some.inj (hcfg.symm.trans hc)
    have hgo : ((settleResync station.val task.val (s.at w)).primary && ((s.at w).stream station.val task.val).sent
        && decide ((settleResync station.val task.val (s.at w)).islandTime marketIsland ≤ by'
          ∧ (settleResync station.val task.val (s.at w)).islandTime marketIsland + usTicks 250
            ≤ ((s.at w).stream station.val task.val).apply)) = true := by
      rw [show (settleResync station.val task.val (s.at w)).primary = true from hprimary,
        show ((s.at w).stream station.val task.val).sent = true from hsent]
      exact decide_eq_true (And.intro hby happly)
    exact ⟨_, _, (if_pos hgo).trans rfl⟩
  · next hno => exact absurd hcfg (hno by' c howed)

/-- One for which it is too late, or that another module would send, only loses its debt. -/
theorem exec_resyncSend_dropped {w : When} {station : Fin 2048} {task : Fin 16} {by' : Nat} {c : StationCfg} {s : State}
    (howed : (s.stream station.val task.val).resyncBy = some by') (hcfg : s.stationCfg station.val = some c)
    (hlate : s.primary = false ∨ (s.stream station.val task.val).apply < (s.at w).islandTime marketIsland + usTicks 250) :
    exec (.resyncSend w station task) s = .next (settleResync station.val task.val (s.at w)) := by
  show execResyncSend w station task s = _
  unfold execResyncSend
  dsimp only
  split
  · next b c' hb hc =>
    have hstop : ((settleResync station.val task.val (s.at w)).primary && ((s.at w).stream station.val task.val).sent
        && decide ((settleResync station.val task.val (s.at w)).islandTime marketIsland ≤ b
          ∧ (settleResync station.val task.val (s.at w)).islandTime marketIsland + usTicks 250
            ≤ ((s.at w).stream station.val task.val).apply)) = false := by
      rcases hlate with h | h
      · rw [show (settleResync station.val task.val (s.at w)).primary = false from h]
        rfl
      · have : ¬ ((settleResync station.val task.val (s.at w)).islandTime marketIsland + usTicks 250
            ≤ ((s.at w).stream station.val task.val).apply) := Nat.not_le.mpr h
        simp [this]
    exact if_neg (by rw [Bool.not_eq_true]; exact hstop)
  · next hno => exact absurd hcfg (hno by' c howed)

/-- Settles O23: the debts by the streams' keys, and what leaves for them. -/
theorem helloAndResync : Obligations.HelloAndResync := by
  unfold Obligations.HelloAndResync
  have howes : ∀ (w : When) (port : Fin 64) (f : HelloFrame) (c : StationCfg) (task : Fin 16) (s : State), s.portTakes port.val = true →
      s.primary = true → s.mapped f.station (s.logical port.val) = some c → task.val ∈ s.stationTasks f.station →
      (duplicate port.val f.rct (s.at w)).1 = false → (s.port port.val).ctlCredit ≠ 0 →
      ∃ t, exec (.helloReceived w port f) s = .next t ∧ Only [.time, .ports, .stations] s t
      ∧ (t.stream f.station task.val).resyncBy = some (s.rxTime port.val f.stamp + 2 * ticksPerPeriod)
      ∧ (t.stream f.station task.val).seq = (s.stream f.station task.val).seq := by
    intro w port f c task s htakes hprimary hmapped htask hdup hcredit
    refine ⟨_, exec_helloReceived_owes htakes hprimary hmapped hdup hcredit, helloReceived_only _ _ _ _ _ _ _ _, ?_, ?_⟩
    · rw [stream_foldl_oweResync, if_pos htask]
    · rw [stream_foldl_oweResync, if_pos htask]
      show ((modPort _ _ _).stream f.station task.val).seq = _
      rw [stream_congr (modPort_streams _ _ _), stream_congr (duplicate_streams _ _ _)]
      rfl
  refine ⟨?one, ?ignored, ?second, ?sends, ?dropped, ?each⟩
  case one =>
    intro w port f c task s htakes hprimary hmapped htasks
    exact howes w port f c task s htakes hprimary hmapped (by simp [htasks])
  case ignored => exact fun w port f s hprimary => exec_helloReceived_ignored hprimary
  case second =>
    intro w port f s htakes hdup
    refine ⟨s.at w, ?_, at_only w s Covers.rfl⟩
    show execHelloReceived w port f s = _
    unfold execHelloReceived
    simp only [show (s.at w).portTakes port.val = true from htakes, Bool.not_true, Bool.false_eq_true, if_false, hdup, if_true,
      duplicate_second hdup]
  case sends =>
    intro w station task by' c s howed hcfg hprimary hsent hby happly
    obtain ⟨x, l, hexec⟩ := exec_resyncSend_sends howed hcfg hprimary hsent hby happly
    have hstream : (l.foldl (fun s q => drainPort q s) (queueFrame c.port x (renumber station.val task.val
        (s.stream station.val task.val).nextSeq (settleResync station.val task.val (s.at w))))).stream station.val task.val
        = { s.stream station.val task.val with resyncBy := none, seq := (s.stream station.val task.val).nextSeq, answered := false, copies := [] } := by
      rw [stream_congr ((foldl_drainPort_streams _ _).trans (queueFrame_streams _ _ _)), stream_renumber, stream_settleResync]
      rfl
    refine ⟨_, hexec, (exec_moves _ s _ hexec).only.mono, ?_, ?_, ?_, ?_⟩ <;> rw [hstream]
  case dropped =>
    intro w station task by' c s howed hcfg hlate
    refine ⟨_, exec_resyncSend_dropped howed hcfg hlate,
      .after (modStream_moves _ _ _ Covers.rfl (.refl _ _)).only (at_only w s (Covers.rfl.trans rfl)), ?_, ?_⟩ <;>
      rw [stream_settleResync]
    rfl
  case each =>
    intro w port f c task s htakes hprimary hmapped htask
    exact howes w port f c task s htakes hprimary hmapped (by simpa using htask)

end Sys2Proof.Machine

/-! The judging of replies (R97, R101, R107, R109, R111, R114). -/

namespace Sys2Proof.Machine

set_option Elab.async false

open Sys2Proof

section Conditions

variable {w : When} {port : Fin 64} {f : ReplyFrame} {c : StationCfg} {s : State}

theorem exec_reply_badCheck (htakes : (s.at w).portTakes port.val = true) (hfcs : f.fcsOk = false) :
    exec (.replyReceived w port f) s = .next (modPort port.val (fun x => { x with fcsErr := tallyInc x.fcsErr }) (s.at w)) := by
  show execReplyReceived w port f s = _
  simp [execReplyReceived, htakes, hfcs]

theorem exec_reply_unmapped (htakes : (s.at w).portTakes port.val = true) (hfcs : f.fcsOk = true)
    (hmap : (s.at w).mapped f.station ((s.at w).logical port.val) = none) :
    exec (.replyReceived w port f) s = .next (ctlFrame port.val (countUnknown port.val) (s.at w)) := by
  show execReplyReceived w port f s = _
  simp [execReplyReceived, htakes, hfcs, hmap]

theorem exec_reply_foreign (htakes : (s.at w).portTakes port.val = true) (hfcs : f.fcsOk = true)
    (hmap : (s.at w).mapped f.station ((s.at w).logical port.val) = some c)
    (hforeign : f.srcMac ≠ c.mac ∨ ((s.at w).taskGen f.task.val).maps f.task.val f.station = false) :
    exec (.replyReceived w port f) s = .next (ctlFrame port.val (countUnknown port.val) (s.at w)) := by
  show execReplyReceived w port f s = _
  have : f.srcMac ≠ c.mac ∨ (!((s.at w).taskGen f.task.val).maps f.task.val f.station) = true := by simpa using hforeign
  simp only [execReplyReceived, htakes, hfcs, hmap, this, Bool.not_true, Bool.false_eq_true, if_false, if_true]

variable (htakes : (s.at w).portTakes port.val = true) (hfcs : f.fcsOk = true)
  (hmap : (s.at w).mapped f.station ((s.at w).logical port.val) = some c) (hmac : f.srcMac = c.mac)
  (hmaps : ((s.at w).taskGen f.task.val).maps f.task.val f.station = true)
include htakes hfcs hmap hmac hmaps

theorem exec_reply_stale (hstale : ((s.at w).stream f.station f.task.val).sent = false ∨ f.epoch ≠ (s.at w).wvl.epoch ∨ f.side ≠ (s.at w).wvl.side
      ∨ f.ackSeq ≠ ((s.at w).stream f.station f.task.val).seq) :
    exec (.replyReceived w port f) s = .next (ctlFrame port.val (countStale port.val) (s.at w)) := by
  have hgo : (!((s.at w).stream f.station f.task.val).sent || decide (f.epoch ≠ (s.at w).wvl.epoch ∨ f.side ≠ (s.at w).wvl.side
      ∨ f.ackSeq ≠ ((s.at w).stream f.station f.task.val).seq)) = true := by
    rcases hstale with h | h
    · simp [h]
    · rw [decide_eq_true h, Bool.or_true]
  show execReplyReceived w port f s = _
  simp only [execReplyReceived, htakes, hfcs, hmap, hmac, hmaps, hgo, Bool.not_true, Bool.false_eq_true, if_false, if_true, ne_eq,
    not_true_eq_false, false_or]

variable (hsent : ((s.at w).stream f.station f.task.val).sent = true) (hepoch : f.epoch = (s.at w).wvl.epoch) (hside : f.side = (s.at w).wvl.side)
  (hack : f.ackSeq = ((s.at w).stream f.station f.task.val).seq)
include hsent hepoch hside hack

theorem exec_reply_again (hanswered : ((s.at w).stream f.station f.task.val).answered = true)
    (hlane : (s.at w).isPrp port.val = false ∨ ((s.at w).stream f.station f.task.val).copies.contains port.val = true) :
    exec (.replyReceived w port f) s = .next (ctlFrame port.val (countStale port.val) (s.at w)) := by
  have hcopy : (((s.at w).stream f.station f.task.val).answered && (!(s.at w).isPrp port.val
      || ((s.at w).stream f.station f.task.val).copies.contains port.val)) = true := by
    rcases hlane with h | h <;> simp only [hanswered, h] <;> simp
  show execReplyReceived w port f s = _
  simp only [execReplyReceived, htakes, hfcs, hmap, hmac, hmaps, hsent, hepoch, hside, hack, hcopy, Bool.not_true, Bool.false_eq_true,
    if_false, if_true, ne_eq, not_true_eq_false, or_self, decide_false, Bool.or_self]

variable (hfirst : ((s.at w).stream f.station f.task.val).answered = false)
include hfirst

theorem exec_reply_wrongLength (hlength : f.lengthOk = false ∨ f.inCount ≠ (s.at w).replyInputs f.station f.task.val
      ∨ f.inputs.length ≠ f.inCount) :
    exec (.replyReceived w port f) s = .next (modPort port.val (fun x => { x with discard := tallyInc x.discard }) (s.at w)) := by
  have hgo : (!f.lengthOk || decide (f.inCount ≠ (s.at w).replyInputs f.station f.task.val ∨ f.inputs.length ≠ f.inCount)) = true := by
    rcases hlength with h | h
    · simp [h]
    · rw [decide_eq_true h, Bool.or_true]
  show execReplyReceived w port f s = _
  simp only [execReplyReceived, htakes, hfcs, hmap, hmac, hmaps, hsent, hepoch, hside, hack, hfirst, hgo, Bool.not_true, Bool.false_eq_true,
    if_false, if_true, ne_eq, not_true_eq_false, or_self, decide_false, Bool.or_self, Bool.false_and]

theorem exec_reply_taken (hok : f.lengthOk = true) (hcount : f.inCount = (s.at w).replyInputs f.station f.task.val)
    (hinputs : f.inputs.length = f.inCount) :
    exec (.replyReceived w port f) s = .next (if ((s.at w).stream f.station f.task.val).seq = ((s.at w).stream f.station f.task.val).cycleSeq
      ∧ (!(s.at w).replyOnTime port.val f.station f.task.val f) = true
      then ctlFrame port.val (acceptReply port.val f.station f.task.val f) (s.at w) else acceptReply port.val f.station f.task.val f (s.at w)) := by
  have hgo : (!f.lengthOk || decide (f.inCount ≠ (s.at w).replyInputs f.station f.task.val ∨ f.inputs.length ≠ f.inCount)) = false := by
    simp [hok, ← hcount, hinputs]
  show execReplyReceived w port f s = _
  simp only [execReplyReceived, htakes, hfcs, hmap, hmac, hmaps, hsent, hepoch, hside, hack, hfirst, hgo, Bool.not_true, Bool.false_eq_true,
    if_false, ne_eq, not_true_eq_false, or_self, decide_false, Bool.or_self, Bool.false_and]

end Conditions

/-! ### The verdict (R107) -/

theorem replyOnTime_congr {s t : State} (hcfg : t.cfg = s.cfg) (hseq : t.seq = s.seq) (htmb : t.tmb = s.tmb) {p st k : Nat}
    (happly : (t.stream st k).apply = (s.stream st k).apply) (f : ReplyFrame) : t.replyOnTime p st k f = s.replyOnTime p st k f := by
  have hrx : t.rxTime p f.stamp = s.rxTime p f.stamp := by
    unfold State.rxTime State.rxStamp State.asymWhen State.asymOf State.sect
    rw [hcfg, htmb]
  have hcfg' : t.taskCfg k = s.taskCfg k := by
    unfold State.taskCfg State.taskGen State.task
    rw [hcfg, hseq]
  unfold State.replyOnTime
  rw [hrx, hcfg', happly]

/-- The station and the stream once a reply is taken. -/
def answerStream (p st t : Nat) (f : ReplyFrame) (s : State) : State :=
  modStream st t (fun y => { y with answered := true, copies := p :: y.copies }) (modStn st (fun x => { x with valid := true, status := f.status % 64 }) s)

theorem stream_answerStream (p st t : Nat) (f : ReplyFrame) (s : State) :
    (answerStream p st t f s).stream st t = { s.stream st t with answered := true, copies := p :: (s.stream st t).copies } :=
  stream_modStream_self (f := fun y => { y with answered := true, copies := p :: y.copies }) ⟨rfl, rfl⟩

theorem replyOnTime_answerStream (p st t : Nat) (f : ReplyFrame) (s : State) :
    (answerStream p st t f s).replyOnTime p st t f = s.replyOnTime p st t f := by
  have happly : ((answerStream p st t f s).stream st t).apply = (s.stream st t).apply := by rw [stream_answerStream]
  exact replyOnTime_congr (s := s) (t := answerStream p st t f s) rfl rfl rfl happly f

theorem stn_answerStream (p st t : Nat) (f : ReplyFrame) (s : State) :
    (answerStream p st t f s).stn st = { s.stn st with valid := true, status := f.status % 64 } :=
  stn_modStn_self (f := fun x => { x with valid := true, status := f.status % 64 }) rfl

theorem answerStream_only (p st t : Nat) (f : ReplyFrame) (s : State) : Only [.stations] s (answerStream p st t f s) :=
  (modStream_moves _ _ _ Covers.rfl (modStn_moves _ _ Covers.rfl (.refl _ _))).only

/-- The stream's verdict and reply. -/
def setAck (st t : Nat) (a : AckState) (s : State) : State := modStream st t (fun y => { y with ack := a }) s

theorem stream_setAck (st t : Nat) (a : AckState) (s : State) : (setAck st t a s).stream st t = { s.stream st t with ack := a } :=
  stream_modStream_self (f := fun y => { y with ack := a }) ⟨rfl, rfl⟩

theorem stn_modStream (st t st' : Nat) (g : StreamState → StreamState) (s : State) : (modStream st t g s).stn st' = s.stn st' := rfl

theorem acceptReply_onTime {p st t : Nat} {f : ReplyFrame} {s : State} (hcycle : (s.stream st t).seq = (s.stream st t).cycleSeq)
    (hontime : s.replyOnTime p st t f = true) (hskip : (s.stream st t).skipped = false) (hfrozen : (s.task t).frozen = false)
    (hstate : (s.task t).state ≠ 1) :
    acceptReply p st t f s = modStream st t (fun y => { y with reply := some f }) (setAck st t .onTime (answerStream p st t f s)) := by
  have hmiss : ¬ (s.stream st t).seq ≠ (s.stream st t).cycleSeq := not_not_intro hcycle
  have hontime' : (answerStream p st t f s).replyOnTime p st t f = true := by
    rw [replyOnTime_answerStream, hontime]
  have htake : takeInputs st t f (setAck st t .onTime (answerStream p st t f s))
      = modStream st t (fun y => { y with reply := some f }) (setAck st t .onTime (answerStream p st t f s)) := by
    unfold takeInputs
    dsimp only
    rw [show ((setAck st t .onTime (answerStream p st t f s)).task t).frozen = false from hfrozen]
    exact if_neg fun h => hstate h.1
  unfold acceptReply
  dsimp only
  rw [show (modStn st (fun x => { x with valid := true, status := f.status % 64 }) s).stream st t = s.stream st t from rfl, if_neg hmiss,
    show modStream st t (fun y => { y with answered := true, copies := p :: y.copies })
      (modStn st (fun x => { x with valid := true, status := f.status % 64 }) s) = answerStream p st t f s from rfl,
    if_pos hontime', if_neg (by rw [hskip]; exact Bool.false_ne_true)]
  exact htake

theorem acceptReply_late {p st t : Nat} {f : ReplyFrame} {s : State} (hcycle : (s.stream st t).seq = (s.stream st t).cycleSeq)
    (hlate : s.replyOnTime p st t f = false) (hprp : s.isPrp p = false) :
    acceptReply p st t f s = modPort p (fun y => { y with late := tallyInc y.late }) (setAck st t .late (answerStream p st t f s)) := by
  have hmiss : ¬ (s.stream st t).seq ≠ (s.stream st t).cycleSeq := not_not_intro hcycle
  have hlate' : (answerStream p st t f s).replyOnTime p st t f = false := by
    rw [replyOnTime_answerStream, hlate]
  unfold acceptReply
  dsimp only
  rw [show (modStn st (fun x => { x with valid := true, status := f.status % 64 }) s).stream st t = s.stream st t from rfl, if_neg hmiss,
    show modStream st t (fun y => { y with answered := true, copies := p :: y.copies })
      (modStn st (fun x => { x with valid := true, status := f.status % 64 }) s) = answerStream p st t f s from rfl,
    if_neg (by rw [hlate']; exact Bool.false_ne_true)]
  unfold countLate
  rw [show (modStream st t (fun y => { y with ack := .late }) (answerStream p st t f s)).isPrp p = false from hprp]
  rfl

/-- Two changes of one port, as one. -/
theorem modPort_modPort_ports (n : Nat) (f g : PortState → PortState) (s : State) :
    (modPort n g (modPort n f s)).prt.ports = updAt s.prt.ports n (g ∘ f) := by
  show ((s.prt.ports.modify n f).modify n g) = s.prt.ports.modify n (g ∘ f)
  exact List.modify_modify_eq f g n s.prt.ports

theorem ctl_at_only (n : Nat) (f g : PortState → PortState) (w : When) (s : State) :
    Only [.time, .ports] s (modPort n g (modPort n f (s.at w))) :=
  .after (modPort_moves _ _ Covers.rfl (.refl _ _)).only (modPort_at_only _ _ w s)

/-- Settles O22: the conditions in their order, then the verdict. -/
theorem repliesAreJudged : Obligations.RepliesAreJudged := by
  unfold Obligations.RepliesAreJudged
  have hcount : ∀ (w : When) (port : Fin 64) (f : ReplyFrame) (s : State) (g : PortState → PortState), (s.port port.val).ctlCredit ≠ 0 →
      exec (.replyReceived w port f) s = .next (ctlFrame port.val (modPort port.val g) (s.at w)) →
      ∃ t, exec (.replyReceived w port f) s = .next t ∧ Only [.time, .ports] s t
        ∧ t.prt.ports = updAt s.prt.ports port.val (g ∘ fun x => { x with ctlCredit := x.ctlCredit - 1 }) := by
    intro w port f s g hcredit hexec
    rw [ctlFrame_credit (s := s.at w) hcredit] at hexec
    exact ⟨_, hexec, ctl_at_only _ _ _ w s, modPort_modPort_ports _ _ _ _⟩
  refine ⟨?badCheck, ?unmapped, ?stale, ?again, ?unmappedSpent, ?onTime, ?late, ?address, ?task, ?wrongLength, ?lateSpent⟩
  case badCheck =>
    exact fun w port f s htakes hfcs => ⟨_, exec_reply_badCheck htakes hfcs, modPort_at_only _ _ w s, rfl⟩
  case unmapped =>
    exact fun w port f s htakes hfcs hmap hcredit => hcount w port f s _ hcredit (exec_reply_unmapped htakes hfcs hmap)
  case stale =>
    exact fun w port f c s htakes hfcs hmap hmac hmaps hstale hcredit =>
      hcount w port f s _ hcredit (exec_reply_stale htakes hfcs hmap hmac hmaps hstale)
  case again =>
    exact fun w port f c s htakes hfcs hmap hmac hmaps hsent hepoch hside hack hanswered hlane hcredit =>
      hcount w port f s _ hcredit (exec_reply_again htakes hfcs hmap hmac hmaps hsent hepoch hside hack hanswered hlane)
  case unmappedSpent =>
    intro w port f s htakes hfcs hmap hcredit
    have hexec := exec_reply_unmapped (w := w) htakes hfcs hmap
    rw [ctlFrame_spent (s := s.at w) hcredit] at hexec
    exact ⟨_, hexec, modPort_at_only _ _ w s, rfl⟩
  case onTime =>
    intro w port f c k s htakes hfcs hmap hmac hmaps hsent hepoch hside hack hfirst hok hincount hinputs hcycle hskip hfrozen hstate hcfg htime
    have hontime : s.replyOnTime port.val f.station f.task.val f = true := by
      simp only [State.replyOnTime, hcfg, Option.getD_some]
      exact decide_eq_true htime
    have hexec := exec_reply_taken (w := w) htakes hfcs hmap hmac hmaps hsent hepoch hside hack hfirst hok hincount hinputs
    rw [if_neg (by rw [show (s.at w).replyOnTime port.val f.station f.task.val f = true from hontime]; simp),
      acceptReply_onTime (s := s.at w) hcycle hontime hskip hfrozen hstate] at hexec
    have hstream : (modStream f.station f.task.val (fun y => { y with reply := some f })
        (setAck f.station f.task.val .onTime (answerStream port.val f.station f.task.val f (s.at w)))).stream f.station f.task.val
        = { s.stream f.station f.task.val with
            answered := true, copies := port.val :: (s.stream f.station f.task.val).copies, ack := .onTime, reply := some f } := by
      rw [stream_modStream_self (f := fun y => { y with reply := some f }) ⟨rfl, rfl⟩, stream_setAck, stream_answerStream]
      rfl
    refine ⟨_, hexec, .after (modStream_moves _ _ _ Covers.rfl (.refl _ _)).only (.after (modStream_moves _ _ _ Covers.rfl (.refl _ _)).only
      (.after (answerStream_only _ _ _ _ _) (at_only w s (Covers.rfl.trans rfl)))), ?_, ?_, ?_, ?_, ?_⟩
    · rw [hstream]
    · rw [hstream]
    · rw [hstream]
    · rw [stn_modStream, show ∀ u, (setAck f.station f.task.val .onTime u).stn f.station = u.stn f.station from fun _ => rfl, stn_answerStream]
    · rw [stn_modStream, show ∀ u, (setAck f.station f.task.val .onTime u).stn f.station = u.stn f.station from fun _ => rfl, stn_answerStream]
  case late =>
    intro w port f c k s htakes hfcs hmap hmac hmaps hsent hepoch hside hack hfirst hok hincount hinputs hcycle hprp hcfg htime hcredit
    have hlate : s.replyOnTime port.val f.station f.task.val f = false := by
      simp only [State.replyOnTime, hcfg, Option.getD_some]
      exact decide_eq_false (Nat.not_le.mpr htime)
    have hexec := exec_reply_taken (w := w) htakes hfcs hmap hmac hmaps hsent hepoch hside hack hfirst hok hincount hinputs
    rw [if_pos ⟨hcycle, by rw [show (s.at w).replyOnTime port.val f.station f.task.val f = false from hlate]; rfl⟩,
      ctlFrame_credit (s := s.at w) hcredit, acceptReply_late (s := modPort port.val _ (s.at w)) hcycle hlate hprp] at hexec
    refine ⟨_, hexec, .after (modPort_moves _ _ Covers.rfl (.refl _ _)).only (.after (modStream_moves _ _ _ Covers.rfl (.refl _ _)).only
      (.after (answerStream_only _ _ _ _ _) (.mono (modPort_at_only _ _ w s)))), ?_, ?_, ?_⟩
    · rw [stream_congr (modPort_streams _ _ _), stream_setAck]
    · rw [stream_congr (modPort_streams _ _ _), stream_setAck, stream_answerStream]
      rfl
    · exact modPort_modPort_ports port.val (fun x => { x with ctlCredit := x.ctlCredit - 1 }) (fun y => { y with late := tallyInc y.late }) (s.at w)
  case address =>
    exact fun w port f c s htakes hfcs hmap hmac hcredit => hcount w port f s _ hcredit (exec_reply_foreign htakes hfcs hmap (.inl hmac))
  case task =>
    exact fun w port f c s htakes hfcs hmap hmaps hcredit => hcount w port f s _ hcredit (exec_reply_foreign htakes hfcs hmap (.inr hmaps))
  case wrongLength =>
    exact fun w port f c s htakes hfcs hmap hmac hmaps hsent hepoch hside hack hfirst hlength =>
      ⟨_, exec_reply_wrongLength htakes hfcs hmap hmac hmaps hsent hepoch hside hack hfirst hlength, modPort_at_only _ _ w s, rfl⟩
  case lateSpent =>
    intro w port f c s htakes hfcs hmap hmac hmaps hsent hepoch hside hack hfirst hok hincount hinputs hcycle hlate hcredit
    have hexec := exec_reply_taken (w := w) htakes hfcs hmap hmac hmaps hsent hepoch hside hack hfirst hok hincount hinputs
    rw [if_pos ⟨hcycle, by rw [show (s.at w).replyOnTime port.val f.station f.task.val f = false from hlate]; rfl⟩,
      ctlFrame_spent (s := s.at w) hcredit] at hexec
    exact ⟨_, hexec, modPort_at_only _ _ w s, rfl⟩

end Sys2Proof.Machine

/-! Surge windows (R103): the station of a window is that of its first fragment. -/

namespace Sys2Proof.Machine

set_option Elab.async false

open Sys2Proof

/-- A fragment of one sample, of a window of three. -/
def surgeSample (station phase : Nat) : SurgeFrag := { station := station, frag := phase, fragCount := 3, phase := phase, samples := [0] }

/-- Two fragments held under station 0's window that name station 1. -/
def foreignWindow : PartialWin := { frags := [surgeSample 1 0, surgeSample 1 1] }

/-- A module with station 0 on port 0, an engine in use, and that window at the port. -/
def foreignWindowHeld : State :=
  { cfg := { cur := { unitUse := 2, stations := [{}], ports := { ports := [{ mode := 1 }] } } }
    prt := { ports := [{ partials := [foreignWindow] }] } }

/-- The window that station 0's third fragment completes is station 1's, which no map names: it is discarded. -/
theorem exec_surgeFragment_foreignWindowHeld :
    ∃ t, exec (.surgeFragmentReceived { t := 0 } 0 (surgeSample 0 2)) foreignWindowHeld = .next t ∧ t.wce.queue = [] := ⟨_, rfl, rfl⟩

/-- Refutes O24: its fourth clause queues the window where the fragment's station is in the map; the model asks for the station of
the window's first fragment. -/
theorem not_surgeWindows : ¬ Obligations.SurgeWindows := by
  unfold Obligations.SurgeWindows
  rintro ⟨_, _, _, hcomplete, _⟩
  obtain ⟨t, ht, -, hqueue, -⟩ := hcomplete { t := 0 } 0 (surgeSample 0 2) foreignWindow _ foreignWindowHeld
    (by decide) (by decide) rfl (by decide) (by decide) rfl (by decide) (by decide) (by decide) rfl (by decide) (by decide) (by decide)
  obtain ⟨t', ht', hempty⟩ := exec_surgeFragment_foreignWindowHeld
  obtain rfl : t = t' := by rw [ht] at ht'; injection ht'
  rw [hqueue] at hempty
  exact absurd hempty (by simp)

end Sys2Proof.Machine

/-! Slots (R124, R129, R269): a row of the archive that lies in the region of a task's instances. -/

namespace Sys2Proof.Machine

set_option Elab.async false

open Sys2Proof

/-- A module whose archive segment and the region of its first task's instances share the first unit, under LIGHT and without content;
the task's digest is one that no line can give. -/
def archiveOverInstances : State :=
  { now := 10 ^ 15
    cfg := { loaded := true, cur := { sv := { channels := 2, archSegments := 1 }, insts := { insts := [{}] } } }
    svi := { lastSlot := some 0 }
    seq := { tasks := [{ digest := 2 ^ 64 }] }
    bgt := { mask := 2 ^ 21, slots := List.replicate 22 { budget := 1 } }
    wrd := { loaded := true, wards := [{ regions := [{ len64 := 100, write := 64 }] }] }
    mem := { mem := { light := [0] } } }

/-- The row's write gives the task a digest of a line that cannot be read, a free value. -/
theorem exec_slotEmit_archiveOverInstances :
    ∃ t, exec (.slotEmit { t := 0 }) archiveOverInstances = .next t ∧ (t.seq.tasks.getD 0 {}).digest = (Config.openDigest 0).toNat := ⟨_, rfl, rfl⟩

/-- Refutes O25: its sixth clause leaves the tasks as they were. A row of the archive in the region of a task's instances changes that
task's digest (R269). -/
theorem not_sampledValuesAreTakenAndEmitted : ¬ Obligations.SampledValuesAreTakenAndEmitted := by
  unfold Obligations.SampledValuesAreTakenAndEmitted
  rintro ⟨_, _, _, _, _, hslot, _⟩
  obtain ⟨t, ht, -, -, -, htasks, -⟩ := hslot { t := 0 } archiveOverInstances rfl rfl rfl (by decide)
  obtain ⟨t', ht', hdigest⟩ := exec_slotEmit_archiveOverInstances
  obtain rfl : t = t' := by rw [ht] at ht'; injection ht'
  rw [htasks] at hdigest
  exact absurd (hdigest.symm ▸ (Config.openDigest 0).isLt) (by decide)

end Sys2Proof.Machine

/-! Bulk reads (R354, R356): a read that has nothing left to issue ends as soon as the session's queue moves. -/

namespace Sys2Proof.Machine

set_option Elab.async false

open Sys2Proof

/-- A session with a snapshot of one record, and with a bulk read at the front of its queue that has nothing left to read. -/
def sessionWithEndedBulk : Session := { role := 1, helloDone := true, hasSnap := true, bulks := [{}] }

/-- The module of that session, with a readable keeper and the stall of bulk reads closed. -/
def endedBulkQueued : State := { hif := { sessions := some sessionWithEndedBulk :: List.replicate 7 none }, kpr := { cartridge := some {}, state := 3 }, bgt := { mask := 0 } }

/-- The read that has ended leaves the queue as the new one joins it. -/
theorem exec_ledgerRead_endedBulkQueued :
    ∃ t, exec (.ledgerRead { t := 0 } 0 0 1) endedBulkQueued = .next t ∧ (t.bulks 0).length = 1 := ⟨_, rfl, rfl⟩

/-- Refutes O27: its eighth clause keeps every bulk read of the session's queue while the stall is closed. One that has ended
needs no stall, and leaves. -/
theorem not_bulkReads : ¬ Obligations.BulkReads := by
  unfold Obligations.BulkReads
  rintro ⟨_, _, _, _, _, _, _, hqueued, _⟩
  obtain ⟨t, ht, -, -, hlength⟩ := hqueued { t := 0 } 0 0 1 sessionWithEndedBulk endedBulkQueued rfl (by decide) (by decide) (by decide)
    (by decide) rfl (by decide) (by decide)
  obtain ⟨t', ht', hone⟩ := exec_ledgerRead_endedBulkQueued
  obtain rfl : t = t' := by rw [ht] at ht'; injection ht'
  rw [hone] at hlength
  exact absurd hlength (by decide)

end Sys2Proof.Machine

/-! Publication and the TCP connections of the synchrophasor streams (R9, R28, R159, R160, R164, R167). -/

namespace Sys2Proof.Machine

set_option Elab.async false

open Sys2Proof

/-! ### What waited behind publication -/

theorem sendReplies_out_suffix (i : Fin 8) (s : State) : s.out <:+ (sendReplies i s).out := by
  unfold sendReplies
  split
  · split
    · exact List.suffix_rfl
    · unfold flushReplies
      split
      · exact List.suffix_append _ _
      · exact List.suffix_rfl
  · exact List.suffix_rfl

theorem drainEgress_out_suffix (s : State) : s.out <:+ (drainEgress s).out := List.suffix_append _ _

/-- Notifications that leave stand in front of what left before. -/
theorem foldl_emit_out_suffix (l : List Notif) (i : Nat) (s : State) : s.out <:+ (l.foldl (fun s n => emit (n.out i) s) s).out := by
  induction l generalizing s with
  | nil => exact List.suffix_rfl
  | cons n l ih => exact (List.suffix_cons (n.out i) s.out).trans (ih (emit (n.out i) s))

/-- A property of what left holds of a run of steps where it holds of each. -/
theorem foldl_out_suffix {α : Type} (f : State → α → State) (hf : ∀ s x, s.out <:+ (f s x).out) (l : List α) (s : State) :
    s.out <:+ (l.foldl f s).out := by
  induction l generalizing s with
  | nil => exact List.suffix_rfl
  | cons x l ih => exact (hf s x).trans (ih _)

theorem drainNotifs_out_suffix (s : State) : s.out <:+ (drainNotifs s).out := by
  refine foldl_out_suffix _ (fun s i => ?_) _ s
  dsimp only
  split
  · split
    · exact List.suffix_rfl
    · exact foldl_emit_out_suffix _ i s
  · exact List.suffix_rfl

/-- What left before SHP traffic stays in the record. -/
theorem drainShp_out_suffix (s : State) : s.out <:+ (drainShp s).out :=
  ((drainEgress_out_suffix s).trans (foldl_out_suffix _ (fun s i => sendReplies_out_suffix i s) _ _)).trans (drainNotifs_out_suffix _)

theorem foldl_fixed {α β : Type} {f : β → α → β} {s : β} (l : List α) (hf : ∀ x ∈ l, f s x = s) : l.foldl f s = s := by
  induction l with
  | nil => rfl
  | cons x l ih => rw [List.foldl_cons, hf x List.mem_cons_self, ih fun y hy => hf y (List.mem_cons_of_mem _ hy)]

/-- No session is open. -/
def State.noSession (s : State) : Prop := s.hif.sessions.all (·.isNone) = true

theorem State.noSession.get {s : State} (h : s.noSession) (i : Nat) : s.hif.sessions.getD i none = none := by
  rw [List.getD_eq_getElem?_getD]
  cases hi : s.hif.sessions[i]? with
  | none => rfl
  | some x => simpa using List.all_eq_true.mp h x (List.mem_of_getElem? hi)

/-- Without a session and without what ended sessions left, no SHP traffic waits. -/
theorem drainShp_silent {s : State} (hnone : s.noSession) (hegress : s.hif.egress = []) : (drainShp s).out = s.out := by
  have hnone' : (drainEgress s).noSession := hnone
  have hreplies : (List.finRange 8).foldl (fun s i => sendReplies i s) (drainEgress s) = drainEgress s :=
    foldl_fixed _ fun i _ => by unfold sendReplies; rw [hnone'.get]
  have hnotifs : drainNotifs (drainEgress s) = drainEgress s := foldl_fixed _ fun i _ => by dsimp only; rw [hnone'.get]
  unfold drainShp
  rw [hreplies, hnotifs]
  simp [drainEgress, hegress]

theorem drainShp_only (s : State) : Only [.sessions, .sent] s (drainShp s) := (drainShp_moves Covers.rfl (.refl _ _)).only

theorem drainShp_queue (s : State) : (drainShp s).phe.queue = s.phe.queue := ((drainShp_only s).same .streams rfl).2

theorem drainShp_streams (s : State) : (drainShp s).phe.streams = s.phe.streams := ((drainShp_only s).same .streams rfl).1

theorem PheState.store_of_rest {x y : PheState} (h : x.rest = y.rest) : x.store = y.store := by
  have := congrArg PheState.store h
  exact this

theorem MemState.ueLight_of_rest {x y : MemState} (h : x.rest = y.rest) : x.ueLight = y.ueLight := by
  have := congrArg MemState.ueLight h
  exact this

theorem drainShp_store (s : State) : (drainShp s).phe.store = s.phe.store :=
  PheState.store_of_rest ((drainShp_only s).same .phasors rfl)

theorem drainShp_bgt (s : State) : (drainShp s).bgt = s.bgt := (drainShp_only s).same .budgets rfl

theorem drainShp_mem (s : State) : (drainShp s).mem.ueLight = s.mem.ueLight :=
  MemState.ueLight_of_rest ((drainShp_only s).same .memctl rfl)

/-! ### An event without a session -/

theorem notifyAll_silent {s : State} (h : s.noSession) (sub : Session → Bool) (n : Notif) :
    (notifyAll sub n s).hif.sessions = s.hif.sessions := by
  have hstep : ∀ (l : List (Option Session)) (acc : List (Option Session) × Nat), l.all (·.isNone) = true →
      (l.foldl (fun acc x => match x with
        | some y => if sub y then ((acc.1 ++ [some (y.push n).1] : List (Option Session)), if (y.push n).2 then acc.2 else acc.2 + 1) else (acc.1 ++ [x], acc.2)
        | none => (acc.1 ++ [x], acc.2)) acc).1 = acc.1 ++ l := by
    intro l
    induction l with
    | nil => simp
    | cons x l ih =>
      intro acc hall
      obtain ⟨hx, hl⟩ : x.isNone = true ∧ l.all (·.isNone) = true := by simpa using hall
      obtain rfl : x = none := by simpa using hx
      rw [List.foldl_cons, ih _ hl]
      simp
  exact (hstep s.hif.sessions ([], 0) h).trans (List.nil_append _)

theorem assertSource_silent {s : State} (h : s.noSession) (n : Nat) :
    (assertSource n s).hif.sessions = s.hif.sessions ∧ (assertSource n s).hif.egress = s.hif.egress := by
  unfold assertSource
  split
  · dsimp only
    split
    · exact ⟨notifyAll_silent (by exact h) _ _, rfl⟩
    · exact ⟨rfl, rfl⟩
  · exact ⟨rfl, rfl⟩

theorem raise_silent {s : State} (h : s.noSession) (r : EvtReg) (bit : Nat) :
    (raise r bit s).hif.sessions = s.hif.sessions ∧ (raise r bit s).hif.egress = s.hif.egress := by
  unfold raise
  dsimp only
  split
  · exact ⟨rfl, rfl⟩
  · exact assertSource_silent (by exact h) _

/-! ### Frames that leave (R28, R160, R164) -/

/-- The module with the port's first frame off its queue. -/
def framePopped (host : Nat) (f : MemFault) (s : State) : State :=
  modPhe (fun p => { p with queue := popFrame host p.queue }) (readerError f s)

theorem framePopped_queue (host : Nat) (f : MemFault) (s : State) : (framePopped host f s).phe.queue = popFrame host s.phe.queue :=
  congrArg (popFrame host) (readerError_queue f s)

theorem framePopped_streams (host : Nat) (f : MemFault) (s : State) : (framePopped host f s).phe.streams = s.phe.streams :=
  ((readerError_moves f Covers.rfl (.refl _ s)).keeps .streams rfl).1

theorem framePopped_only (host : Nat) (f : MemFault) (s : State) : Only [.draws, .events, .streams, .memctl, .faults] s (framePopped host f s) :=
  .after (setPhe_only (P := [.streams]) (.inl rfl) (.inr rfl) ⟨rfl, rfl, rfl, rfl, rfl⟩) (.mono (readerError_moves f Covers.rfl (.refl _ s)).only)

theorem framePopped_none_only (host : Nat) (s : State) : Only [.streams] s (framePopped host .none s) :=
  setPhe_only (P := [.streams]) (.inl rfl) (.inr rfl) ⟨rfl, rfl, rfl, rfl, rfl⟩

theorem framePopped_uncorrectable_only (host : Nat) (s : State) : Only [.streams, .memctl, .faults] s (framePopped host .uncorrectable s) :=
  .after (setPhe_only (P := [.streams]) (.inl rfl) (.inr rfl) ⟨rfl, rfl, rfl, rfl, rfl⟩) (.mono (readerError_uncorrectable_only s))

/-- The frame that leaves: charged, counted, out, and the SHP traffic behind it. -/
def frameSent (host : Nat) (x : PubFrame) (peer : PubTo) (s : State) : State :=
  drainShp (emit (.pub host x.stream peer x.bytes) (modStr x.stream (fun y => { y with frames := tallyInc y.frames })
    (chargeSlot (17 + host) x.bytes.length s)))

theorem frameSent_only (host : Nat) (x : PubFrame) (peer : PubTo) (s : State) :
    Only [.streams, .budgets, .sessions, .sent] s (frameSent host x peer s) :=
  .after (drainShp_only _) (.after (emit_moves _ Covers.rfl (.refl _ _)).only (.after (modStr_moves _ _ Covers.rfl (.refl _ _)).only
    (.mono (chargeSlot_moves _ _ Covers.rfl (.refl _ _)).only)))

theorem frameSent_queue (host : Nat) (x : PubFrame) (peer : PubTo) (s : State) : (frameSent host x peer s).phe.queue = s.phe.queue := by
  rw [frameSent, drainShp_queue]
  rfl

theorem frameSent_streams (host : Nat) (x : PubFrame) (peer : PubTo) (s : State) :
    (frameSent host x peer s).phe.streams = updAt s.phe.streams x.stream (fun y => { y with frames := tallyInc y.frames }) := by
  rw [frameSent, drainShp_streams]
  rfl

theorem frameSent_out (host : Nat) (x : PubFrame) (peer : PubTo) (s : State) : Out.pub host x.stream peer x.bytes ∈ (frameSent host x peer s).out := by
  unfold frameSent
  exact (drainShp_out_suffix _).subset List.mem_cons_self

/-- A frame that does not leave: counted, with its event, and the SHP traffic behind it. -/
def frameDropped (x : PubFrame) (s : State) : State := drainShp (dropFrame x s)

theorem frameDropped_only (x : PubFrame) (s : State) : Only [.events, .streams, .sessions, .host, .sent] s (frameDropped x s) :=
  .after (drainShp_only _) (.mono (dropFrame_only x s))

theorem frameDropped_queue (x : PubFrame) (s : State) : (frameDropped x s).phe.queue = s.phe.queue := by
  rw [frameDropped, drainShp_queue, dropFrame_queue]

theorem frameDropped_streams (x : PubFrame) (s : State) :
    (frameDropped x s).phe.streams = updAt s.phe.streams x.stream (fun y => { y with dropped := tallyInc y.dropped }) := by
  rw [frameDropped, drainShp_streams, dropFrame, raise_phe]
  rfl

theorem frameDropped_out {s : State} (hnone : s.noSession) (hegress : s.hif.egress = []) (x : PubFrame) :
    (frameDropped x s).out = s.out := by
  obtain ⟨hses, heg⟩ := raise_silent (s := modStr x.stream (fun y => { y with dropped := tallyInc y.dropped }) s) hnone .phe 3
  have hquiet : (dropFrame x s).noSession := by unfold State.noSession dropFrame; rw [hses]; exact hnone
  rw [frameDropped, drainShp_silent hquiet (heg.trans hegress), dropFrame, raise_out]
  rfl

theorem exec_publicationFrameSend_idle {w : When} {host : Fin 2} {f : MemFault} {s : State}
    (h : s.phe.queue.find? (·.host == host.val) = none) : exec (.publicationFrameSend w host f) s = .next (s.at w) := by
  show execPublicationFrameSend w host f s = _
  unfold execPublicationFrameSend
  simp only [show (s.at w).phe.queue.find? (·.host == host.val) = none from h]

section Frame

variable {w : When} {host : Fin 2} {x : PubFrame} {s : State} (hfirst : (s.at w).phe.queue.find? (·.host == host.val) = some x)
  (hfenced : (s.at w).phe.fenced = false) (hopen : (s.at w).slotOpen (17 + host.val) = true)
  (hlink : (s.at w).hif.links.getD host.val false = true)
include hfirst hfenced hopen hlink

theorem exec_publicationFrameSend_unreadable {f : MemFault} (hfails : readFails f = true) :
    exec (.publicationFrameSend w host f) s = .next (frameDropped x (framePopped host.val f (s.at w))) := by
  show execPublicationFrameSend w host f s = _
  unfold execPublicationFrameSend
  simp only [hfirst, hfenced, hopen, hlink, hfails, Bool.not_true, Bool.or_self, Bool.false_eq_true, if_false, if_true]
  rfl

theorem exec_publicationFrameSend_retired {f : MemFault} (hfails : readFails f = false)
    (hpub : (framePopped host.val f (s.at w)).publishes ((framePopped host.val f (s.at w)).pheSec.streams.getD x.stream {}) = false) :
    exec (.publicationFrameSend w host f) s = .next (drainShp (framePopped host.val f (s.at w))) := by
  unfold framePopped at hpub
  show execPublicationFrameSend w host f s = _
  unfold execPublicationFrameSend
  simp only [hfirst, hfenced, hopen, hlink, hfails, hpub, Bool.not_true, Bool.not_false, Bool.or_self, Bool.false_eq_true, if_false, if_true]
  rfl

variable {f : MemFault} (hfails : readFails f = false)
  (hpub : (framePopped host.val f (s.at w)).publishes ((framePopped host.val f (s.at w)).pheSec.streams.getD x.stream {}) = true)
include hfails hpub

theorem exec_publicationFrameSend_lost
    (hto : (framePopped host.val f (s.at w)).pubTo host.val ((framePopped host.val f (s.at w)).pheSec.streams.getD x.stream {}) x.dest = none) :
    exec (.publicationFrameSend w host f) s = .next (frameDropped x (framePopped host.val f (s.at w))) := by
  unfold framePopped at hpub hto
  show execPublicationFrameSend w host f s = _
  unfold execPublicationFrameSend
  simp only [hfirst, hfenced, hopen, hlink, hfails, hpub, hto, Bool.not_true, Bool.or_self, Bool.false_eq_true, if_false]
  rfl

theorem exec_publicationFrameSend_sent {peer : PubTo}
    (hto : (framePopped host.val f (s.at w)).pubTo host.val ((framePopped host.val f (s.at w)).pheSec.streams.getD x.stream {}) x.dest
      = some peer) :
    exec (.publicationFrameSend w host f) s = .next (frameSent host.val x peer (framePopped host.val f (s.at w))) := by
  unfold framePopped at hpub hto
  show execPublicationFrameSend w host f s = _
  unfold execPublicationFrameSend
  simp only [hfirst, hfenced, hopen, hlink, hfails, hpub, hto, Bool.not_true, Bool.or_self, Bool.false_eq_true, if_false]
  rfl

end Frame

theorem PheState.fenced_of_rest {x y : PheState} (h : x.rest = y.rest) : x.fenced = y.fenced := by
  have := congrArg PheState.fenced h
  exact this

theorem framePopped_publishes (host : Nat) (f : MemFault) (s : State) (c : StreamCfg) : (framePopped host f s).publishes c = s.publishes c := by
  have h := readerError_moves f Covers.rfl (.refl _ s)
  have hfenced : (framePopped host f s).phe.fenced = s.phe.fenced :=
    (rfl : _ = (readerError f s).phe.fenced).trans (PheState.fenced_of_rest (h.keeps .phasors rfl))
  have hwvl : (framePopped host f s).wvl = s.wvl := (h.keeps .pair rfl :)
  have hgen : (framePopped host f s).gen = s.gen := (h.keeps .start rfl :)
  unfold State.publishes State.primary
  rw [hfenced, hwvl, hgen]

theorem framePopped_pheSec (host : Nat) (f : MemFault) (s : State) : (framePopped host f s).pheSec = s.pheSec := by
  have hcfg : (framePopped host f s).cfg = s.cfg := ((readerError_moves f Covers.rfl (.refl _ s)).keeps .config rfl :)
  unfold State.pheSec State.sect
  rw [hcfg]

theorem framePopped_pubTo (host : Nat) (f : MemFault) (s : State) (h : Nat) (c : StreamCfg) (d : Option Nat) :
    (framePopped host f s).pubTo h c d = s.pubTo h c d := by
  have hacc : (framePopped host f s).hif.access = s.hif.access := ((readerError_moves f Covers.rfl (.refl _ s)).keeps .access rfl).1
  unfold State.pubTo State.linkDest
  rw [hacc]

theorem popped_at_only (host : Nat) (w : When) (s : State) : Only [.time, .streams] s (framePopped host .none (s.at w)) :=
  .after (framePopped_none_only host _) (at_only w s (Covers.rfl.trans rfl))

/-- A frame that is sent, whatever the read of its memory corrected. -/
theorem exec_publicationFrameSend_published {w : When} {host : Fin 2} {x : PubFrame} {peer : PubTo} {f : MemFault} {s : State}
    (hfirst : s.phe.queue.find? (·.host == host.val) = some x) (hfenced : s.phe.fenced = false) (hopen : s.slotOpen (17 + host.val) = true)
    (hlink : s.hif.links.getD host.val false = true) (hpub : s.publishes (s.pheSec.streams.getD x.stream {}) = true)
    (hto : s.pubTo host.val (s.pheSec.streams.getD x.stream {}) x.dest = some peer) (hfails : readFails f = false) :
    exec (.publicationFrameSend w host f) s = .next (frameSent host.val x peer (framePopped host.val f (s.at w))) :=
  exec_publicationFrameSend_sent (s := s) hfirst hfenced hopen hlink hfails
    (by rw [framePopped_publishes, framePopped_pheSec]; exact hpub)
    (by rw [framePopped_pubTo, framePopped_pheSec]; exact hto)

/-! ### Connections (R159) -/

theorem streams_modStr_self {i : Nat} {s : State} (h : i < s.phe.streams.length) (f : StrState → StrState) :
    (modStr i f s).phe.streams.getD i {} = f (s.phe.streams.getD i {}) := getD_updAt_self h f {}

theorem exec_c37TcpConnect_taken {w : When} {host : Fin 2} {stream : Fin 64} {conn : Nat} {x : StreamCfg} {s : State}
    (hcfg : s.pheSec.streams[stream.val]? = some x) (huse : s.inUse 0 = true) (hhost : x.host.testBit host.val = true) (hmode : x.mode ≠ 1)
    (hroom : (s.phe.streams.getD stream.val {}).conns.length < 2)
    (hnew : (s.phe.streams.getD stream.val {}).conns.any (·.conn == conn) = false) :
    exec (.c37TcpConnect w host stream conn) s = .next (raise .phe 1 (modStr stream.val
      (fun y => { y with conns := y.conns ++ [{ conn := conn, host := host.val }] }) (s.at w))) := by
  show execC37TcpConnect w host stream conn s = _
  unfold execC37TcpConnect
  simp only [show (s.at w).pheSec.streams[stream.val]? = some x from hcfg, show (s.at w).inUse 0 = true from huse, hhost,
    show ((s.at w).phe.streams.getD stream.val {}).conns.any (·.conn == conn) = false from hnew,
    show decide (((s.at w).phe.streams.getD stream.val {}).conns.length < 2) = true from decide_eq_true hroom,
    bne_iff_ne.mpr hmode, Bool.and_self, Bool.not_false, if_true]

theorem exec_c37TcpConnect_full {w : When} {host : Fin 2} {stream : Fin 64} {conn : Nat} {s : State}
    (h : 2 ≤ (s.phe.streams.getD stream.val {}).conns.length) :
    exec (.c37TcpConnect w host stream conn) s = .next (emit (.tcpReset host.val) (s.at w)) := by
  have hfull : decide (((s.at w).phe.streams.getD stream.val {}).conns.length < 2) = false := decide_eq_false (Nat.not_lt.mpr h)
  show execC37TcpConnect w host stream conn s = _
  unfold execC37TcpConnect
  dsimp only
  rw [hfull]
  cases (s.at w).pheSec.streams[stream.val]? <;> simp

theorem exec_c37TcpClose {w : When} {stream : Fin 64} {conn : Nat} {s : State}
    (h : (s.phe.streams.getD stream.val {}).conns.any (·.conn == conn) = true) :
    exec (.c37TcpClose w stream conn) s = .next (raise .phe 1 (dropFor stream.val (· == some conn)
      (modStr stream.val (fun y => { y with conns := y.conns.filter (·.conn != conn) }) (s.at w)))) := by
  show execC37TcpClose w stream conn s = _
  unfold execC37TcpClose
  dsimp only
  rw [if_pos (show ((s.at w).phe.streams.getD stream.val {}).conns.any (·.conn == conn) = true from h)]

theorem dropFor_streams (stream : Nat) (gone : Option Nat → Bool) (s : State) : (dropFor stream gone s).phe.streams = s.phe.streams := by
  unfold dropFor
  split <;> rfl

/-- Settles O28, frame by frame and connection by connection. -/
theorem publicationAndConnections : Obligations.PublicationAndConnections := by
  unfold Obligations.PublicationAndConnections
  refine ⟨?sent, ?retired, ?unreadable, ?idle, ?connect, ?full, ?close, ?corrected, ?lost, fun _ _ _ _ => rfl, fun _ _ _ => rfl⟩
  case sent =>
    intro w host x peer s hfirst hfenced hopen hlink hpub hto hegress
    refine ⟨_, exec_publicationFrameSend_published hfirst hfenced hopen hlink hpub hto rfl,
      .after (frameSent_only _ _ _ _) (.mono (popped_at_only host.val w s)), ?_, frameSent_out _ _ _ _, fun hnone => ?_, ?_, ?_, ?_⟩
    · rw [frameSent_queue, framePopped_queue]; rfl
    · unfold frameSent
      rw [drainShp_silent (by exact hnone) (by exact hegress)]
      rfl
    · rw [frameSent_streams, framePopped_streams]; rfl
    · unfold frameSent
      rw [drainShp_bgt]
      rfl
    · unfold frameSent
      rw [drainShp_store]
      rfl
  case retired =>
    intro w host x s hfirst hfenced hopen hlink hpub hegress
    refine ⟨_, exec_publicationFrameSend_retired (s := s) hfirst hfenced hopen hlink (f := .none) rfl
      (by rw [framePopped_publishes, framePopped_pheSec]; exact hpub),
      .after (drainShp_only _) (.mono (popped_at_only host.val w s)), ?_, fun hnone => ?_, ?_, ?_⟩
    · rw [drainShp_queue, framePopped_queue]; rfl
    · rw [drainShp_silent (by exact hnone) (by exact hegress)]
      rfl
    · rw [drainShp_streams, framePopped_streams]; rfl
    · rw [drainShp_store]; rfl
  case unreadable =>
    intro w host x s hfirst hfenced hopen hlink
    have honly : Only [.time, .events, .streams, .memctl, .faults, .sessions, .host, .sent] s
        (frameDropped x (framePopped host.val .uncorrectable (s.at w))) :=
      .after (frameDropped_only _ _) (.after (framePopped_uncorrectable_only _ _) (at_only w s (Covers.rfl.trans rfl)))
    refine ⟨_, exec_publicationFrameSend_unreadable (s := s) hfirst hfenced hopen hlink rfl, .mono honly, ?_, ?_, ?_, honly.same .memory rfl⟩
    · rw [frameDropped_queue, framePopped_queue]; rfl
    · rw [frameDropped_streams, framePopped_streams]; rfl
    · rw [frameDropped, drainShp_mem, dropFrame, raise_mem]
      exact readerError_uncorrectable_ueLight (s.at w)
  case idle => exact fun w host f s hnone => ⟨_, exec_publicationFrameSend_idle hnone, at_only w s Covers.rfl⟩
  case connect =>
    intro w host stream conn x s hcfg huse hhost hmode hlen hroom hnew
    have hconns := streams_modStr_self (s := s.at w) hlen (fun y => { y with conns := y.conns ++ [{ conn := conn, host := host.val }] })
    refine ⟨_, exec_c37TcpConnect_taken hcfg huse hhost hmode hroom hnew, .after (raise_only _ _ _)
      (.after (modStr_moves _ _ Covers.rfl (.refl _ _)).only (at_only w s (Covers.rfl.trans rfl))), ?_, ?_⟩ <;>
      rw [raise_phe, hconns] <;> rfl
  case full =>
    exact fun w host stream conn s hfull =>
      ⟨_, exec_c37TcpConnect_full hfull, .after (emit_moves _ Covers.rfl (.refl _ _)).only (at_only w s (Covers.rfl.trans rfl)), rfl⟩
  case close =>
    intro w stream conn s hlen hany
    have hconns := streams_modStr_self (s := s.at w) hlen (fun y => { y with conns := y.conns.filter (·.conn != conn) })
    refine ⟨_, exec_c37TcpClose hany, .after (raise_only _ _ _) (.after (dropFor_moves _ _ Covers.rfl (.refl _ _)).only
      (.after (modStr_moves _ _ Covers.rfl (.refl _ _)).only (at_only w s (Covers.rfl.trans rfl)))), ?_⟩
    rw [raise_phe, dropFor_streams, hconns]
    rfl
  case corrected =>
    intro w host x peer dev bits s hfirst hfenced hopen hlink hpub hto _
    have hexec := exec_publicationFrameSend_published (w := w) (f := .corrected dev bits) hfirst hfenced hopen hlink hpub hto rfl
    refine ⟨_, hexec, (exec_moves _ s _ hexec).queue, ?_, frameSent_out _ _ _ _, ?_⟩
    · rw [frameSent_queue, framePopped_queue]; rfl
    · rw [frameSent_streams, framePopped_streams]; rfl
  case lost =>
    intro w host x s hfirst hfenced hopen hlink hpub hto hegress
    refine ⟨_, exec_publicationFrameSend_lost (s := s) hfirst hfenced hopen hlink (f := .none) rfl
      (by rw [framePopped_publishes, framePopped_pheSec]; exact hpub) (by rw [framePopped_pubTo, framePopped_pheSec]; exact hto),
      .mono (Only.after (P := [.time, .events, .streams, .sessions, .host, .sent]) (frameDropped_only _ _) (.mono (popped_at_only host.val w s))),
      ?_, ?_, fun hnone => ?_⟩
    · rw [frameDropped_queue, framePopped_queue]; rfl
    · rw [frameDropped_streams, framePopped_streams]; rfl
    · rw [frameDropped_out (by exact hnone) (by exact hegress)]
      rfl

end Sys2Proof.Machine

/-! Commands of IEEE C37.118.2 (R9, R159, R160, R164). -/

namespace Sys2Proof.Machine

set_option Elab.async false

open Sys2Proof

theorem withCmd_accepted {c : C37Cmd} {s : State} (huse : s.inUse 0 = true) (hok : cmdAccepted c s = true) (f : State → State) :
    withCmd c f s = f s := by
  simp [withCmd, huse, hok]

theorem withCmd_ignored {c : C37Cmd} {s : State} (huse : s.inUse 0 = true) (hbad : cmdAccepted c s = false) (f : State → State) :
    withCmd c f s = ignoreCmd s := by
  simp [withCmd, huse, hbad]

/-- A command over TCP governs its own connection, and UDP as well in mode 2. -/
theorem cmdGoverns_tcp {c : C37Cmd} {n : Nat} (h : c.path = .tcp n) (mode : Nat) (k : Option Nat) :
    cmdGoverns c mode k = match k with
      | some m => m == n
      | none => mode == 2 := by
  cases k <;> simp [cmdGoverns, h]

/-- A command over UDP governs UDP alone. -/
theorem cmdGoverns_udp {c : C37Cmd} {src : List Byte} (h : c.path = .udp src) (mode : Nat) (k : Option Nat) :
    cmdGoverns c mode k = k.isNone := by
  cases k <;> simp [cmdGoverns, h]

/-- A stream whose connection `n` is turned on or off. -/
def StrState.setConn (n : Nat) (on : Bool) (now : Nat) (y : StrState) : StrState :=
  { y with conns := y.conns.map fun k => if k.conn = n then k.set on now else k }

/-- What transmission on or off makes of the sender's stream. -/
def setStream (c : C37Cmd) (mode : Nat) (on : Bool) (now : Nat) (y : StrState) : StrState :=
  let y := { y with conns := y.conns.map fun k => if cmdGoverns c mode (some k.conn) then k.set on now else k }
  if cmdGoverns c mode none then y.setUdp on now else y

theorem setTransmit_eq (c : C37Cmd) (on : Bool) (s : State) :
    setTransmit c on s = when (!on) (dropFor c.stream.val (cmdGoverns c (s.pheSec.streams.getD c.stream.val {}).mode))
      (modStr c.stream.val (setStream c (s.pheSec.streams.getD c.stream.val {}).mode on (s.islandTime hostIsland)) s) := rfl

theorem setStream_tcp {c : C37Cmd} {n mode : Nat} (h : c.path = .tcp n) (hmode : mode ≠ 2) (on : Bool) (now : Nat) :
    setStream c mode on now = StrState.setConn n on now := by
  funext y
  simp [setStream, cmdGoverns_tcp h, hmode, StrState.setConn]

theorem setStream_tcp_udp {c : C37Cmd} {n mode : Nat} (h : c.path = .tcp n) (hmode : mode = 2) (on : Bool) (now : Nat) :
    setStream c mode on now = fun y => (y.setConn n on now).setUdp on now := by
  funext y
  simp [setStream, cmdGoverns_tcp h, hmode, StrState.setConn]

theorem setStream_udp {c : C37Cmd} {src : List Byte} (h : c.path = .udp src) (mode : Nat) (on : Bool) (now : Nat) :
    setStream c mode on now = fun y => y.setUdp on now := by
  funext y
  simp [setStream, cmdGoverns_udp h]

theorem setTransmit_at_only (c : C37Cmd) (on : Bool) (w : When) (s : State) : Only [.time, .streams] s (setTransmit c on (s.at w)) := by
  have hset : Only [.time, .streams] s (modStr c.stream.val (setStream c ((s.at w).pheSec.streams.getD c.stream.val {}).mode on
      ((s.at w).islandTime hostIsland)) (s.at w)) :=
    .after (modStr_moves _ _ Covers.rfl (.refl _ _)).only (at_only w s (Covers.rfl.trans rfl))
  rw [setTransmit_eq]
  cases on with
  | true => exact hset
  | false => exact .after (dropFor_moves _ _ Covers.rfl (.refl _ _)).only hset

theorem setTransmit_streams (c : C37Cmd) (on : Bool) (s : State) : (setTransmit c on s).phe.streams
    = updAt s.phe.streams c.stream.val (setStream c (s.pheSec.streams.getD c.stream.val {}).mode on (s.islandTime hostIsland)) := by
  rw [setTransmit_eq]
  cases on with
  | true => rfl
  | false => exact dropFor_streams _ _ _

theorem setTransmit_off_queue (c : C37Cmd) (s : State) : (setTransmit c false s).phe.queue = if s.phe.fenced then s.phe.queue
    else s.phe.queue.filter fun x => !(x.stream == c.stream.val && cmdGoverns c (s.pheSec.streams.getD c.stream.val {}).mode x.dest) := by
  rw [setTransmit_eq]
  generalize setStream c (s.pheSec.streams.getD c.stream.val {}).mode false (s.islandTime hostIsland) = f
  show (dropFor c.stream.val (cmdGoverns c (s.pheSec.streams.getD c.stream.val {}).mode) (modStr c.stream.val f s)).phe.queue = _
  unfold dropFor
  rw [show (modStr c.stream.val f s).phe.fenced = s.phe.fenced from rfl]
  split <;> rfl

/-- The destinations that a command over TCP governs outside mode 2. -/
theorem cmdGoverns_tcp_dest {c : C37Cmd} {n mode : Nat} (h : c.path = .tcp n) (hmode : mode ≠ 2) (k : Option Nat) :
    cmdGoverns c mode k = (k == some n) := by
  cases k <;> simp [cmdGoverns_tcp h, hmode]

theorem cmdGoverns_udp_dest {c : C37Cmd} {src : List Byte} (h : c.path = .udp src) (mode : Nat) (k : Option Nat) :
    cmdGoverns c mode k = (k == none) := by
  cases k <;> simp [cmdGoverns_udp h]

theorem cfgFrame_sends {c : C37Cmd} {peer : PubTo} {s : State}
    (h : s.pubTo (s.cmdFrom c).1 (s.pheSec.streams.getD c.stream.val {}) (s.cmdFrom c).2 = some peer) (cfg3 : Bool) :
    cfgFrame c cfg3 s = emit (.cfgFrame (s.cmdFrom c).1 c.stream.val peer cfg3 (s.cfgBytes c.stream.val cfg3)) s := by
  unfold cfgFrame
  dsimp only
  rw [h]

theorem cfgFrame_lost {c : C37Cmd} {s : State}
    (h : s.pubTo (s.cmdFrom c).1 (s.pheSec.streams.getD c.stream.val {}) (s.cmdFrom c).2 = none) (cfg3 : Bool) :
    cfgFrame c cfg3 s = modStr c.stream.val (fun y => { y with dropped := tallyInc y.dropped }) s := by
  unfold cfgFrame
  dsimp only
  rw [h]

theorem emit_at_only (o : Out) (w : When) (s : State) : Only [.time, .sent] s (emit o (s.at w)) :=
  .after (emit_moves _ Covers.rfl (.refl _ _)).only (at_only w s (Covers.rfl.trans rfl))

theorem modStr_at_only (i : Nat) (f : StrState → StrState) (w : When) (s : State) : Only [.time, .streams] s (modStr i f (s.at w)) :=
  .after (modStr_moves _ _ Covers.rfl (.refl _ _)).only (at_only w s (Covers.rfl.trans rfl))

theorem ignoreCmd_at_only (w : When) (s : State) : Only [.time, .phasors] s (ignoreCmd (s.at w)) :=
  .after (setPhe_only (P := [.phasors]) (.inr rfl) (.inl ⟨rfl, rfl⟩) ⟨rfl, rfl, rfl, rfl, rfl⟩) (at_only w s (Covers.rfl.trans rfl))

/-- Settles O29: what a command governs decides what it does. -/
theorem synchrophasorCommands : Obligations.SynchrophasorCommands := by
  unfold Obligations.SynchrophasorCommands
  have haccept : ∀ (w : When) (c : C37Cmd) (f : State → State) (s : State), s.inUse 0 = true → cmdAccepted c s = true →
      withCmd c f (s.at w) = f (s.at w) := fun w c f s huse hok => withCmd_accepted (s := s.at w) huse hok f
  refine ⟨?on, ?off, ?onUdp, ?onBoth, ?offUdp, ?cfg2, ?cfg3, ?refused, ?ignored, ?absent, ?cfg2Lost, ?cfg3Lost⟩
  case on =>
    intro w c n s huse hok hpath hmode
    refine ⟨_, congrArg Host.Outcome.next (haccept w c _ s huse hok), setTransmit_at_only c true w s, ?_⟩
    rw [setTransmit_streams, setStream_tcp hpath (show ((s.at w).pheSec.streams.getD c.stream.val {}).mode ≠ 2 from hmode)]
    rfl
  case off =>
    intro w c n s huse hok hpath hmode
    refine ⟨_, congrArg Host.Outcome.next (haccept w c _ s huse hok), setTransmit_at_only c false w s, ?_, ?_⟩
    · rw [setTransmit_streams, setStream_tcp hpath (show ((s.at w).pheSec.streams.getD c.stream.val {}).mode ≠ 2 from hmode)]
      rfl
    · rw [setTransmit_off_queue]
      simp only [cmdGoverns_tcp_dest hpath (show ((s.at w).pheSec.streams.getD c.stream.val {}).mode ≠ 2 from hmode)]
      rfl
  case onUdp =>
    intro w c src s huse hok hpath
    refine ⟨_, congrArg Host.Outcome.next (haccept w c _ s huse hok), setTransmit_at_only c true w s, ?_⟩
    rw [setTransmit_streams, setStream_udp hpath]
    rfl
  case onBoth =>
    intro w c n s huse hok hpath hmode
    refine ⟨_, congrArg Host.Outcome.next (haccept w c _ s huse hok), setTransmit_at_only c true w s, ?_⟩
    rw [setTransmit_streams, setStream_tcp_udp hpath (show ((s.at w).pheSec.streams.getD c.stream.val {}).mode = 2 from hmode)]
    rfl
  case offUdp =>
    intro w c src s huse hok hpath
    refine ⟨_, congrArg Host.Outcome.next (haccept w c _ s huse hok), setTransmit_at_only c false w s, ?_, ?_⟩
    · rw [setTransmit_streams, setStream_udp hpath]
      rfl
    · rw [setTransmit_off_queue]
      simp only [cmdGoverns_udp_dest hpath]
      rfl
  case cfg2 =>
    intro w c peer s huse hok hto
    exact ⟨_, congrArg Host.Outcome.next ((haccept w c _ s huse hok).trans (cfgFrame_sends (s := s.at w) hto false)), emit_at_only _ w s, rfl⟩
  case cfg3 =>
    intro w c peer s huse hok hto
    exact ⟨_, congrArg Host.Outcome.next ((haccept w c _ s huse hok).trans (cfgFrame_sends (s := s.at w) hto true)), emit_at_only _ w s, rfl⟩
  case refused =>
    exact fun w c s huse hbad => ⟨_, congrArg Host.Outcome.next (withCmd_ignored (s := s.at w) huse hbad _), ignoreCmd_at_only w s, rfl⟩
  case ignored =>
    exact fun w s huse => ⟨_, congrArg Host.Outcome.next (if_pos (show (s.at w).inUse 0 = true from huse)), ignoreCmd_at_only w s, rfl, rfl⟩
  case absent =>
    intro w s huse
    have hnot : ¬ (s.at w).inUse 0 = true := by rw [show (s.at w).inUse 0 = false from huse]; exact Bool.false_ne_true
    exact ⟨_, congrArg Host.Outcome.next (if_neg hnot), at_only w s Covers.rfl⟩
  case cfg2Lost =>
    intro w c s huse hok hto
    exact ⟨_, congrArg Host.Outcome.next ((haccept w c _ s huse hok).trans (cfgFrame_lost (s := s.at w) hto false)), modStr_at_only _ _ w s, rfl⟩
  case cfg3Lost =>
    intro w c s huse hok hto
    exact ⟨_, congrArg Host.Outcome.next ((haccept w c _ s huse hok).trans (cfgFrame_lost (s := s.at w) hto true)), modStr_at_only _ _ w s, rfl⟩

end Sys2Proof.Machine

/-! The wavefront engine (R173): an arrival that opens a fifth event closes the first by force, with its event. -/

namespace Sys2Proof.Machine

set_option Elab.async false

open Sys2Proof

/-- A window whose first phase steps up after five samples, of an interval so long that the filter spans two. -/
def stepWindow : SurgeWindow :=
  { interval := 10 ^ 9, count := 10, scale := 0x3F800000, phases := [[0, 0, 0, 0, 0, 8, 8, 8, 8, 8], [], []], stamp := 10 ^ 10 }

/-- A module whose engine holds that window and four open events of a component that no arrival names. -/
def fourOpenEvents : State :=
  { cfg := { cur := { topo := { terms := [{}] } } }
    bgt := { slots := List.replicate 21 { budget := 1 } }
    wce := { queue := [stepWindow], running := true, openEvents := List.replicate 4 { comp := 99, opened := 10 ^ 12 } } }

/-- The hardware's writes of this instant, which the events part of the state records. -/
def hwWrites : Result → Nat
  | .next t => t.evt.hw.length
  | _ => 0

/-- The window's arrival joins no event, so the first is forced to close, which sets `WCE_EVT` (R194). -/
theorem hwWrites_wceWindowTake : hwWrites (exec (.wceWindowTake { t := 0 }) fourOpenEvents) = 1 := by
  decide +kernel

/-- Refutes O30: its third clause leaves the events as they were, but an arrival that opens a fifth event forces the first to
close. -/
theorem not_wavefrontEngine : ¬ Obligations.WavefrontEngine := by
  unfold Obligations.WavefrontEngine
  rintro ⟨_, _, htaken, _⟩
  obtain ⟨t, ht, honly, -⟩ := htaken { t := 0 } stepWindow [] 0 fourOpenEvents rfl (by decide) (by decide) (by decide) (by decide) (by decide)
    (by decide) (by decide) (by decide)
  have hevt : t.evt = fourOpenEvents.evt := honly.same .events rfl
  have hwrites := hwWrites_wceWindowTake
  rw [ht, hwWrites, hevt] at hwrites
  exact absurd hwrites (by decide)

end Sys2Proof.Machine

/-! The period strobe and the islands' followers (R19, R32, R33, R66, R67, R250). -/

namespace Sys2Proof.Machine

set_option Elab.async false

open Sys2Proof

/-! ### What left the block stays in the record -/

/-- An operation whose frame does not list what has left leaves the record. -/
theorem Moves.out_suffix {P : List Part} {s t : State} (h : Moves P s t) (hp : P.contains .sent = false) : s.out <:+ t.out := by
  have hout : t.out = s.out := h.keeps .sent hp
  exact hout ▸ List.suffix_refl s.out

theorem ite_out_suffix {s a b : State} {c : Prop} [Decidable c] (ha : s.out <:+ a.out) (hb : s.out <:+ b.out) :
    s.out <:+ (if c then a else b).out := by
  split <;> assumption

theorem linkFrames_out_suffix (msg n : Nat) (f : LinkTx → Out) (s : State) : s.out <:+ (linkFrames msg n f s).out :=
  List.suffix_cons _ _

theorem sendFrame_out_suffix (p : Nat) (x : OutFrame) (s : State) : s.out <:+ (sendFrame p x s).out := by
  unfold sendFrame
  dsimp only
  split <;> split <;> first | exact List.suffix_cons _ _ | exact List.suffix_rfl

theorem drainPortGo_out_suffix (p : Nat) (l : List OutFrame) (s : State) : s.out <:+ (drainPortGo p l s).out := by
  induction l generalizing s with
  | nil => exact List.suffix_rfl
  | cons x l ih => exact ite_out_suffix ((sendFrame_out_suffix p x s).trans (ih _)) List.suffix_rfl

theorem drainPort_out_suffix (p : Nat) (s : State) : s.out <:+ (drainPort p s).out :=
  ite_out_suffix List.suffix_rfl (ite_out_suffix List.suffix_rfl (drainPortGo_out_suffix p _ s))

theorem sendPdelayResp_out_suffix (p rx tx : Nat) (rct : Option Nat) (s : State) : s.out <:+ (sendPdelayResp p rx tx rct s).out :=
  ite_out_suffix List.suffix_rfl (ite_out_suffix (List.suffix_cons _ _) (List.suffix_cons _ _))

theorem sendPdelayReq_out_suffix (p stamp : Nat) (rct : Option Nat) (s : State) : s.out <:+ (sendPdelayReq p stamp rct s).out :=
  ite_out_suffix (List.suffix_cons _ _) (List.suffix_cons _ _)

theorem sendWaited_out_suffix (p : Nat) (m : WaitMsg) (s : State) : s.out <:+ (sendWaited p m s).out := by
  unfold sendWaited
  refine ite_out_suffix List.suffix_rfl ?_
  split
  · exact ite_out_suffix List.suffix_rfl (List.suffix_cons _ _)
  · exact sendPdelayReq_out_suffix ..
  · exact sendPdelayResp_out_suffix ..
  · exact List.suffix_cons _ _
  · exact List.suffix_cons _ _

theorem drainMsgs_out_suffix (p : Nat) (l : List WaitMsg) (s : State) : s.out <:+ (drainMsgs p l s).out := by
  induction l generalizing s with
  | nil => exact List.suffix_rfl
  | cons m l ih =>
    exact ite_out_suffix ((sendWaited_out_suffix p m s).trans (ih _))
      (foldl_out_suffix (fun s x => waitMsg p x s) (fun _ _ => List.suffix_rfl) (m :: l) s)

theorem drainWaiting_out_suffix (event : Bool) (p : Nat) (s : State) : s.out <:+ (drainWaiting event p s).out :=
  ite_out_suffix List.suffix_rfl (drainMsgs_out_suffix p _ (modPort p _ s))

theorem drainPorts_out_suffix (s : State) : s.out <:+ (drainPorts s).out :=
  foldl_out_suffix _ (fun s p => ite_out_suffix List.suffix_rfl
    (((drainWaiting_out_suffix true p s).trans (drainPort_out_suffix p _)).trans (drainWaiting_out_suffix false p _))) _ s

theorem takeLaneRct_out (p : Nat) (s : State) : (takeLaneRct p s).2.out = s.out :=
  (takeLaneRct_moves p Covers.rfl (.refl _ s)).keeps .sent rfl

theorem answerPdelay_out_suffix (p rx tx : Nat) (s : State) : s.out <:+ (answerPdelay p rx tx s).out := by
  unfold answerPdelay
  rw [← takeLaneRct_out p s]
  exact ite_out_suffix (ite_out_suffix (sendPdelayResp_out_suffix ..) List.suffix_rfl) (sendPdelayResp_out_suffix ..)

theorem answerHeld_out_suffix (s : State) : s.out <:+ (answerHeld s).out := by
  refine foldl_out_suffix _ (fun s p => ?_) _ s
  dsimp only
  split
  · exact ite_out_suffix List.suffix_rfl (ite_out_suffix (answerPdelay_out_suffix p _ _ (modPort p _ s)) List.suffix_rfl)
  · exact List.suffix_rfl

theorem strobePorts_out_suffix (s : State) : s.out <:+ (strobePorts s).out :=
  ite_out_suffix List.suffix_rfl ((answerHeld_out_suffix s).trans (drainPorts_out_suffix _))

theorem sendHeartbeat_out_suffix (s : State) : s.out <:+ (sendHeartbeat s).out :=
  ite_out_suffix List.suffix_rfl (List.suffix_cons _ _)

theorem strobePair_out_suffix (s : State) : s.out <:+ (strobePair s).out := by
  let s1 := modWvl (fun x => { x with hbPrev := x.hbSeen, hbSeen := false }) s
  have h1 : s.out <:+ (reservedEpoch s1).out :=
    (reservedEpoch_moves Covers.rfl (.refl _ s1)).out_suffix rfl
  exact h1.trans (sendHeartbeat_out_suffix _)

theorem pumpOne_out_suffix (s : State) : s.out <:+ (pumpOne s).out := by
  unfold pumpOne
  split
  · exact List.suffix_rfl
  · refine ite_out_suffix ?_ List.suffix_rfl
    split
    · exact List.suffix_cons _ _
    · exact List.suffix_rfl

theorem pumpCopies_out_suffix (s : State) : s.out <:+ (pumpCopies s).out :=
  foldl_out_suffix _ (fun s _ => ite_out_suffix List.suffix_rfl (pumpOne_out_suffix s)) _ s

theorem endBulk_out_suffix (i : Fin 8) (status : Nat) (b : Bulk) (s : State) : s.out <:+ (endBulk i status b s).out :=
  sendReplies_out_suffix i (modSes i _ (modSes i _ s))

theorem pumpBulk_out_suffix (i : Fin 8) (n : Nat) (s : State) : s.out <:+ (pumpBulk i n s).out := by
  induction n generalizing s with
  | zero => exact List.suffix_rfl
  | succ n ih =>
    rw [pumpBulk]
    split
    · exact List.suffix_rfl
    · next b _ _ =>
      refine ite_out_suffix ((endBulk_out_suffix i _ b s).trans (ih _)) (ite_out_suffix List.suffix_rfl ?_)
      have h : s.out <:+ (issueBulk b s).2.out := (issueBulk_moves b Covers.rfl (.refl _ s)).out_suffix rfl
      exact h.trans (ih (modSes i _ (issueBulk b s).2))

theorem drainBulk_out_suffix (s : State) : s.out <:+ (drainBulk s).out :=
  foldl_out_suffix _ (fun s i => ite_out_suffix List.suffix_rfl (pumpBulk_out_suffix i _ s)) _ (noteBulk s)

/-! ### The strobe -/

theorem queueFrame_out_suffix (p : Nat) (x : OutFrame) (s : State) : s.out <:+ (queueFrame p x s).out :=
  (queueFrame_moves p x Covers.rfl (.refl _ s)).out_suffix rfl

theorem queueExchange_out_suffix (t apply : Nat) (skipped : Bool) (st : StationCfg) (outs : List Nat) (s : State) :
    s.out <:+ (queueExchange t apply skipped st outs s).out := by
  have h : s.out <:+ (settleLate st.number t s).out := (settleLate_moves st.number t Covers.rfl (.refl _ s)).out_suffix rfl
  exact h.trans (queueFrame_out_suffix st.port _ (modStream st.number t _ _))

theorem dispatch_out_suffix (t apply : Nat) (skipped : Bool) (s : State) : s.out <:+ (dispatch t apply skipped s).out :=
  ite_out_suffix (foldl_out_suffix _ (fun s st => queueExchange_out_suffix t apply skipped st _ s) _ s)
    (foldl_out_suffix _ (fun s st => queueExchange_out_suffix t apply skipped st _ s) _ s)

theorem swapTask_out_suffix (t : Nat) (s : State) : s.out <:+ (swapTask t s).out :=
  (swapTask_moves t Covers.rfl (.refl _ s)).out_suffix rfl

theorem taskEvent_out_suffix (t bit : Nat) (s : State) : s.out <:+ (taskEvent t bit s).out :=
  (taskEvent_moves t bit Covers.rfl (.refl _ s)).out_suffix rfl

theorem ledger_out_suffix (code source : Nat) (data : List Nat) (s : State) : s.out <:+ (ledger code source data s).out :=
  (ledger_moves code source data Covers.rfl (.refl _ s)).out_suffix rfl

theorem skipStart_out_suffix (t apply : Nat) (s : State) : s.out <:+ (skipStart t apply s).out := by
  let f (y : TaskState) : TaskState := { y with buf := (s.task t).prevBuf }
  let g (y : TaskState) : TaskState := { y with buf := (s.task t).buf }
  let a := if (s.task t).state = 0 then modTask t g (dispatch t apply true (modTask t f s)) else dispatch t apply true s
  have ha : s.out <:+ a.out := ite_out_suffix (dispatch_out_suffix t apply true (modTask t f s)) (dispatch_out_suffix t apply true s)
  let n := (s.task t).consec + 1
  let b := modTask t (fun y => { y with skips := tallyInc y.skips, consec := n, skipAt := some a.now }) a
  have hb : s.out <:+ (ledger 0x0601 t (two (s.task t).cycles) (taskEvent t 0 b)).out :=
    (ha.trans (taskEvent_out_suffix t 0 b)).trans (ledger_out_suffix ..)
  exact ite_out_suffix ((hb.trans ((report_moves t t Covers.rfl (.refl _ _)).out_suffix rfl)).trans (taskEvent_out_suffix t 1 _)) hb

theorem startTask_out_suffix (t tp count : Nat) (s : State) : s.out <:+ (startTask t tp count s).out := by
  unfold startTask
  split
  · exact List.suffix_rfl
  · exact ite_out_suffix List.suffix_rfl (ite_out_suffix (ite_out_suffix (swapTask_out_suffix t s) List.suffix_rfl)
      (ite_out_suffix (skipStart_out_suffix t _ s)
        ((ite_out_suffix (swapTask_out_suffix t s) List.suffix_rfl).trans (dispatch_out_suffix t _ false (modTask t _ _)))))

theorem strobeTasks_out_suffix (s : State) : s.out <:+ (strobeTasks s).out :=
  ite_out_suffix List.suffix_rfl (foldl_out_suffix _ (fun s t => startTask_out_suffix t _ _ s) _ s)

theorem strobeTriad_out_suffix (d : Digests) (s : State) : s.out <:+ (strobeTriad d s).out :=
  (strobeTriad_moves d Covers.rfl (.refl _ s)).out_suffix rfl

/-- What the units do at a strobe once module time and the count stand and the strobe is out: budgets and swaps, then the
time base and the engines. -/
def strobeEngines (m : Measured) (s : State) : State :=
  let s := archiveStop (strobeBudgets m s)
  swapUnslotted (pheHeld (dropUnsent s.tp (resumePorts (graceEnd (phaseStepApply s)))))

/-- The rest of the strobe: pair, triad, ports, tasks, round, and what waited for its stalls. -/
def strobeUnits (m : Measured) (s : State) : State :=
  let s := reschedule (strobeTasks (grantPorts (strobeTriad m.digests (strobePair s))))
  let s := pruneStations (finishSwaps (strobePorts s))
  pumpCopies (drainBulk (drainShp (strobeRound s)))

theorem strobeUnits_out_suffix (m : Measured) (s : State) : s.out <:+ (strobeUnits m s).out := by
  have h1 : s.out <:+ (strobeTriad m.digests (strobePair s)).out := (strobePair_out_suffix s).trans (strobeTriad_out_suffix _ _)
  have h2 := h1.trans ((grantPorts_moves Covers.rfl (.refl _ (strobeTriad m.digests (strobePair s)))).out_suffix rfl)
  have h3 := h2.trans (strobeTasks_out_suffix _)
  have h4 := h3.trans ((reschedule_moves Covers.rfl (.refl _ _)).out_suffix rfl)
  have h5 := h4.trans (strobePorts_out_suffix _)
  have h6 := h5.trans ((finishSwaps_moves Covers.rfl (.refl _ _)).out_suffix rfl)
  have h7 := h6.trans ((pruneStations_moves Covers.rfl (.refl _ _)).out_suffix rfl)
  have h8 := h7.trans ((strobeRound_moves Covers.rfl (.refl _ _)).out_suffix rfl)
  exact ((h8.trans (drainShp_out_suffix _)).trans (drainBulk_out_suffix _)).trans (pumpCopies_out_suffix _)

/-- What `strobeUnits` and `strobeEngines` never touch: start-up and the period count. -/
def strobeParts : List Part :=
  [.draws, .events, .timebase, .delays, .ports, .stations, .intake, .archive, .phasors, .streams, .mailbox, .surges, .tasks, .forces,
   .sequencer, .triad, .debug, .budgets, .power, .pair, .memory, .memctl, .wards, .faults, .ledger, .cartridge, .keeper, .loader,
   .sessions, .host, .config, .sent]

theorem strobeUnits_moves (m : Measured) {s0 s : State} (hM : Moves strobeParts s0 s) : Moves strobeParts s0 (strobeUnits m s) :=
  have c {A : List Part} (h : ∀ p ∈ A, p ∈ strobeParts) : Covers strobeParts A := h
  pumpCopies_moves (c (by decide)) <| drainBulk_moves (c (by decide)) <| drainShp_moves (c (by decide)) <|
    strobeRound_moves (c (by decide)) <| pruneStations_moves (c (by decide)) <| finishSwaps_moves (c (by decide)) <|
    strobePorts_moves (c (by decide)) <| reschedule_moves (c (by decide)) <| strobeTasks_moves (c (by decide)) <|
    grantPorts_moves (c (by decide)) <| strobeTriad_moves _ (c (by decide)) <| strobePair_moves (c (by decide)) hM

/-- The end of the grace after a lost source enters HOLDOVER at most, which start-up does not see. -/
theorem graceEnd_moves_same {P : List Part} {s0 s : State}
    (hP : Covers P [.events, .timebase, .pair, .faults, .ledger, .keeper, .sessions, .host]) (hM : Moves P s0 s) :
    Moves P s0 (graceEnd s) := by
  unfold graceEnd
  split
  · split
    · next hc =>
      rw [setServo_holdover (by omega)]
      exact ledger_moves _ _ _ (hP.trans rfl) <| tmbEvent_moves 2 (hP.trans rfl) <| tmbEvent_moves 0 (hP.trans rfl) <|
        startHoldover_moves _ (hP.trans rfl) <| putServo_moves (hP.trans rfl) (by decide) <| freqHold_moves (hP.trans rfl) hM
    · exact hM
  · exact hM

theorem strobeEngines_moves (m : Measured) (s : State) : Moves strobeParts s (strobeEngines m s) := by
  have c {A : List Part} (h : ∀ p ∈ A, p ∈ strobeParts) : Covers strobeParts A := h
  exact swapUnslotted_moves (c (by decide)) <| pheHeld_moves (c (by decide)) <| dropUnsent_moves _ (c (by decide)) <|
    resumePorts_moves (c (by decide)) <| graceEnd_moves_same (c (by decide)) <| phaseStepApply_moves (c (by decide)) <|
    archiveStop_moves (c (by decide)) <| strobeBudgets_moves _ (c (by decide)) <| .refl _ s

theorem strobeEngines_out (m : Measured) (s : State) : s.out <:+ (strobeEngines m s).out := by
  have c {A : List Part} (h : ∀ p ∈ A, p ∈ strobeParts.erase .sent) : Covers (strobeParts.erase .sent) A := h
  exact (swapUnslotted_moves (c (by decide)) <| pheHeld_moves (c (by decide)) <| dropUnsent_moves _ (c (by decide)) <|
    resumePorts_moves (c (by decide)) <| graceEnd_moves_same (c (by decide)) <| phaseStepApply_moves (c (by decide)) <|
    archiveStop_moves (c (by decide)) <| strobeBudgets_moves _ (c (by decide)) <| .refl _ s).out_suffix rfl

theorem exec_periodStrobe_stopped (w : When) (m : Measured) {s : State} (h : s.stopped = true) :
    exec (.periodStrobe w m) s = .next (s.at w) :=
  if_pos h

/-- The state in which the strobe of the next period leaves the block. -/
def strobeOut (w : When) (m : Measured) (s : State) : State :=
  let s := correctFollowers m.unseen (s.at w) (strobeTime w s)
  emit (.strobe s.pcount) (takeErrors m.dram s)

theorem exec_periodStrobe (w : When) (m : Measured) {s : State} (h : s.stopped = false) :
    exec (.periodStrobe w m) s = .next (strobeUnits m (strobeEngines m (strobeOut w m s))) :=
  (if_neg (by rw [h]; decide)).trans rfl

theorem strobeTime_pcount (w : When) {s : State} (h : s.tmb.retainedLoad = none ∨ s.tmb.state ≠ 0) :
    (strobeTime w s).pcount = nextCount s (max s.now w.t) ∧ (strobeTime w s).discont = false := by
  have hload : (if s.tmb.state = 0 then s.tmb.retainedLoad else none) = none := by
    split <;> simp_all
  unfold strobeTime
  rw [hload]
  exact ⟨rfl, rfl⟩

/-- A strobe sets the count, ends the discontinuity and goes out; the rest of what it does leaves these. -/
theorem periodStrobe_count (w : When) (m : Measured) {s : State} (hrun : s.stopped = false)
    (hload : s.tmb.retainedLoad = none ∨ s.tmb.state ≠ 0) :
    ∃ t, exec (.periodStrobe w m) s = .next t ∧ t.pcount = nextCount s (max s.now w.t) ∧ t.discont = false
      ∧ Out.strobe t.pcount ∈ t.out ∧ t.gen = s.gen := by
  obtain ⟨hcount, hdiscont⟩ := strobeTime_pcount w hload
  have hmoves : Moves strobeParts (strobeOut w m s) (strobeUnits m (strobeEngines m (strobeOut w m s))) := by
    exact strobeUnits_moves m (strobeEngines_moves m _)
  have hout := (strobeEngines_out m (strobeOut w m s)).trans (strobeUnits_out_suffix m _)
  obtain ⟨hpc, -, hdis⟩ := hmoves.keeps .count rfl
  have hpc' := hpc.trans (show (strobeOut w m s).pcount = _ from hcount)
  have hgen : (strobeOut w m s).gen = s.gen := (strobeTime_moves w Covers.rfl (.refl _ s)).keeps .start rfl
  refine ⟨_, exec_periodStrobe w m hrun, hpc', hdis.trans hdiscont, ?_, Eq.trans (hmoves.keeps .start rfl) hgen⟩
  rw [hpc]
  exact hout.subset List.mem_cons_self

theorem exec_strobeLoss (w : When) (island : Nat) (s : State) : ∃ s1, exec (.strobeLoss w island) s = .next (reportBy island 23 0xFF s1)
    ∧ s1.fcr = s.fcr ∧ s1.aon = max s.aon w.a ∧ s1.pcount = s.pcount ∧ (island ≠ timeIsland → s.followers.getD island none = none →
      s1.followers = putAt s.followers island (some ((s.at w).islandTime island, (s.at w).aon))) := by
  refine ⟨_, rfl, ?_⟩
  split
  · next h =>
    refine ⟨rfl, rfl, rfl, fun hne hnone => ?_⟩
    rw [show (s.at w).followers = s.followers from rfl, hnone] at h
    simp [hne] at h
  · exact ⟨rfl, rfl, rfl, fun _ _ => rfl⟩

/-- Settles O35: the count and the strobe stand before anything else is done at the strobe, and nothing of the rest touches the
count, start-up or takes what has left out of the record. -/
theorem strobeOpensAPeriod : Obligations.StrobeOpensAPeriod := by
  refine ⟨?_, ?_, ?_, ?_⟩
  · intro w m s hpower hload hdis
    have hrun : s.stopped = false := by rcases hpower with h | h <;> simp [State.stopped, h]
    obtain ⟨t, ht, hpc, hd, hout, hgen⟩ := periodStrobe_count w m hrun hload
    have hmoves := exec_moves _ s _ ht
    refine ⟨t, ht, hmoves.queue, ?_, hd, hout, hgen, hmoves.keeps .firmware rfl, hmoves.keeps .inputs rfl⟩
    simp [hpc, nextCount, hdis]
  · intro w m s hpower hload hdis
    have hrun : s.stopped = false := by rcases hpower with h | h <;> simp [State.stopped, h]
    obtain ⟨t, ht, hpc, hd, hout, -⟩ := periodStrobe_count w m hrun hload
    refine ⟨t, ht, ?_, hd, hout⟩
    simp [hpc, nextCount, hdis]
  · intro w m s hpower hgood
    exact ⟨_, exec_periodStrobe_stopped w m (by simp [State.stopped, hpower, hgood]), at_only w s Covers.rfl⟩
  · intro w island s
    obtain ⟨s1, ht, hfcr, haon, hpc, hfol⟩ := exec_strobeLoss w island s
    have hmoves := exec_moves _ s _ ht
    refine ⟨_, ht, hmoves.only, reportBy_fcr_congr (s := s.at w) hfcr haon _ _ _, (reportBy_pcount ..).trans hpc, fun hne hlen hnone => ?_⟩
    rw [reportBy_followers, hfol hne hnone, getD_putAt_self hlen]
    rfl

end Sys2Proof.Machine

/-! Charges on the stalls (R25, R129): the archive stall's exhaustion reaches beyond the budgets. -/

namespace Sys2Proof.Machine

set_option Elab.async false

open Sys2Proof

/-- A module that is writing a segment of the archive. -/
def writingSegment : State := { svi := { writing := some 0 } }

/-- The charge that reaches the archive stall's budget stops the archive. -/
theorem exec_budgetExhausted_writingSegment : ∃ t, exec (.budgetExhausted { t := 0 } (.slot 21) 0x100000000000000 { d0 := 0, d1 := 0, d2 := 0 })
    writingSegment = .next t ∧ t.svi.stopped = true := ⟨_, rfl, rfl⟩

/-- Refutes O36: its second clause holds every exhausted stall but the split stall to budgets, sequencer and host traffic. The
archive stall's closes the segment being written. -/
theorem not_budgetsAndMasks : ¬ Obligations.BudgetsAndMasks := by
  unfold Obligations.BudgetsAndMasks
  rintro ⟨_, hexhausts, _⟩
  obtain ⟨t, ht, honly, -⟩ := hexhausts { t := 0 } 21 0x100000000000000 { d0 := 0, d1 := 0, d2 := 0 } writingSegment (by decide)
    (.inl (by decide)) (by decide) rfl
  obtain ⟨t', ht', hstopped⟩ := exec_budgetExhausted_writingSegment
  obtain rfl : t = t' := by rw [ht] at ht'; injection ht'
  have harch : t.svi.arch = writingSegment.svi.arch := honly.same .archive rfl
  have hrun : t.svi.stopped = false := congrArg (·.stopped) harch
  rw [hrun] at hstopped
  exact absurd hstopped (by decide)

end Sys2Proof.Machine

/-! The triad's votes, its fences and the rejoin (R224, R225, R227, R228). -/

namespace Sys2Proof.Machine

set_option Elab.async false

open Sys2Proof

/-! ### The operations of the triad -/

/-- An event of the triad changes its event register alone. -/
theorem trdEvent_trd (b : Nat) (s : State) : ∃ e, (trdEvent b s).trd = { s.trd with evt := e } := by
  unfold trdEvent
  split
  · exact ⟨_, rfl⟩
  · exact ⟨_, rfl⟩

theorem trdEvent_out (b : Nat) (s : State) : (trdEvent b s).out = s.out :=
  (trdEvent_moves b Covers.rfl (.refl _ s)).keeps .sent rfl

/-- What a fence sets and leaves of the triad. -/
structure Fenced (lane : Nat) (s t : State) : Prop where
  mode : t.trd.mode = 1
  lane : t.trd.fencedLane = lane
  fences : t.trd.fences = tallyInc s.trd.fences
  group : t.trd.diffGroup = s.trd.diffGroup
  diff : t.trd.diffLane = s.trd.diffLane

theorem fenceLane_fenced (lane group : Nat) (s : State) : Fenced lane s (fenceLane lane group s) := by
  let a := laneOut lane (modTrd (fun t => { t with
    mode := 1, fencedLane := lane, fencedAt := s.now, rejoinAt := none, copyDone := false
    fences := tallyInc t.fences, laneFences := updAt t.laneFences lane (· + 1) }) s)
  let b := ledger 0x0701 lane [lane, group] (report 16 lane (trdEvent 0 a))
  have hb : Fenced lane s b := by
    obtain ⟨e, he⟩ := trdEvent_trd 0 a
    have htrd : b.trd = { a.trd with evt := e } := by rw [← he, ledger_trd, report_trd]
    constructor <;> rw [htrd] <;> rfl
  show Fenced lane s (if 4 ≤ b.trd.laneFences.getD lane 0 then
    ledger 0x0702 lane [lane] (trdEvent 2 (modTrd (fun t => { t with retired := true }) b)) else b)
  split
  · obtain ⟨e, he⟩ := trdEvent_trd 2 (modTrd (fun t => { t with retired := true }) b)
    obtain ⟨hmode, hlane, hfences, hgroup, hdiff⟩ := hb
    constructor <;> rw [ledger_trd, he] <;> assumption
  · exact hb

theorem fenceLane_out (lane group : Nat) (s : State) : (fenceLane lane group s).out = s.out :=
  (fenceLane_moves lane group Covers.rfl (.refl _ s)).keeps .sent rfl

theorem triadStop_of_running {s : State} (h : s.trd.mode ≠ 4) :
    triadStop s = report 17 0xFF (modTrd (fun t => { t with mode := 4, rejoinAt := none, copyDone := false }) s) :=
  if_neg h

theorem triadStop_trd {s : State} (h : s.trd.mode ≠ 4) :
    (triadStop s).trd = { s.trd with mode := 4, rejoinAt := none, copyDone := false } := by
  rw [triadStop_of_running h, report_trd]
  rfl

theorem triadStop_out (s : State) : (triadStop s).out = s.out :=
  (triadStop_moves Covers.rfl (.refl _ s)).keeps .sent rfl

/-! ### The vote -/

theorem diffGroup_self (a : LaneTx) : diffGroup a a = none := by
  simp [diffGroup]

theorem exec_triadTransaction_triplex (w : When) (cycle : Nat) (a b c : LaneTx) {s : State} (h : s.trd.mode = 0) :
    exec (.triadTransaction w cycle a b c) s = .next (voteTriplex cycle a b c (s.at w)) :=
  if_pos h

theorem exec_triadTransaction_duplex (w : When) (cycle : Nat) (a b c : LaneTx) {s : State} (h : s.trd.mode = 1 ∨ s.trd.mode = 2)
    (hl : s.silentLane = 2) : exec (.triadTransaction w cycle a b c) s = .next (voteDuplex cycle a b (s.at w)) := by
  have h0 : (s.at w).trd.mode ≠ 0 := by rcases h with h | h <;> simp [State.at, h]
  have h1 : (s.at w).trd.mode = 1 ∨ (s.at w).trd.mode = 2 := h
  have h2 : (s.at w).silentLane = 2 := hl
  show execTriadTransaction w cycle a b c s = _
  unfold execTriadTransaction
  simp only [h0, h1, h2, if_true, if_false]

theorem exec_triadTransaction_none (w : When) (cycle : Nat) (a b c : LaneTx) {s : State}
    (h : s.trd.mode = 3 ∨ s.trd.mode = 4 ∨ s.trd.mode = 5) : exec (.triadTransaction w cycle a b c) s = .next (s.at w) := by
  have h0 : (s.at w).trd.mode ≠ 0 := by show s.trd.mode ≠ 0; omega
  have h1 : ¬((s.at w).trd.mode = 1 ∨ (s.at w).trd.mode = 2) := by show ¬(s.trd.mode = 1 ∨ s.trd.mode = 2); omega
  show execTriadTransaction w cycle a b c s = _
  unfold execTriadTransaction
  simp only [h0, h1, if_false]

theorem voteTriplex_agree (cycle : Nat) (a : LaneTx) (s : State) : voteTriplex cycle a a a s = issueTx a s := by
  simp [voteTriplex, diffGroup_self]

theorem voteTriplex_lane2 (cycle : Nat) {a b : LaneTx} {g : Nat} (h : diffGroup a b = some g) (s : State) :
    voteTriplex cycle a a b s = voteMinority 2 g cycle a s := by
  simp [voteTriplex, diffGroup_self, h]

theorem voteTriplex_differ (cycle : Nat) {a b c : LaneTx} {g h k : Nat} (hab : diffGroup a b = some g) (hbc : diffGroup b c = some h)
    (hac : diffGroup a c = some k) (s : State) :
    voteTriplex cycle a b c s = triadStop (lastDiff 3 (min g (min h k)) cycle true s) := by
  simp [voteTriplex, hab, hbc, hac]

theorem issueTx_only (l : LaneTx) (w : When) (s : State) : Only [.time, .triad, .sent] s (issueTx l (s.at w)) :=
  .after (issueTx_moves l Covers.rfl (.refl _ _)).only (at_only w s (Covers.rfl.trans rfl))

/-- The stop of a triad whose lanes disagree. -/
theorem stopDiffering_shows (w : When) (lane group cycle : Nat) {s : State} (h : s.trd.mode ≠ 4) :
    let t := triadStop (lastDiff lane group cycle true (s.at w))
    Only [.time, .triad, .faults] s t ∧ t.trd.mode = 4 ∧ t.trd.diffNoMaj = true ∧ t.trd.diffLane = lane ∧ t.out = s.out := by
  have htrd := triadStop_trd (s := lastDiff lane group cycle true (s.at w)) h
  refine ⟨.after (triadStop_moves (P := [.triad, .faults]) (Covers.rfl.trans rfl) (lastDiff_moves _ _ _ _ (Covers.rfl.trans rfl) (.refl _ _))).only
    (at_only w s (Covers.rfl.trans rfl)), ?_, ?_, ?_, triadStop_out _⟩ <;> rw [htrd] <;> rfl

/-! ### The rejoin -/

theorem exec_rejoinStartTimeout_due (w : When) {s : State} (hidle : s.primary = false ∨ s.seq.running = false)
    (hdue : s.trd.fencedAt + usTicks 125 ≤ max s.now w.t) : exec (.rejoinStartTimeout w) s = .next (rejoinStart (s.at w)) := by
  have hi : (s.primary && s.seq.running) = false := by rcases hidle with h | h <;> simp [h]
  have hcond : (!((s.at w).primary && (s.at w).seq.running) && decide ((s.at w).trd.fencedAt + usTicks 125 ≤ (s.at w).now)) = true := by
    rw [show ((s.at w).primary && (s.at w).seq.running) = false from hi, Bool.not_false, Bool.true_and]
    exact decide_eq_true hdue
  exact congrArg Host.Outcome.next (if_pos hcond)

theorem rejoinStart_of_fenced {s : State} (hmode : s.trd.mode = 1) (hlane : s.trd.fencedLane < 3) (hret : s.trd.retired = false)
    (hlive : s.trd.debugLive = false) :
    rejoinStart s = modTrd (fun t => { t with mode := 2, rejoinAt := some s.now, copyDone := false }) s :=
  if_pos (by simp [hmode, hlane, hret, hlive])

theorem exec_tcmCopyComplete_rejoin (w : When) {s : State} (h : s.trd.mode = 2) :
    exec (.tcmCopyComplete w) s = .next (modLane s.trd.fencedLane (fun x => { x with tcmSame := true })
      (modTrd (fun t => { t with copyDone := true }) (s.at w))) :=
  congrArg Host.Outcome.next (if_pos h)

/-- The state of a rejoin whose lanes agree, before its event. -/
def rejoined (s : State) : State :=
  let s := modLane s.trd.fencedLane (fun x => { x with halted := false }) (lanesReload s)
  let us := s.rejoinUs
  modTrd (fun t => { t with
    mode := 0, fencedLane := 3, debugBroken := false, rejoinAt := none, copyDone := false, rejoinMax := max t.rejoinMax us }) s

theorem oddLane_agree (n : Nat) : oddLane { d0 := n, d1 := n, d2 := n } = 3 := if_pos ⟨rfl, rfl⟩

theorem exec_rejoinFinalStep_agree (w : When) (n : Nat) {s : State} (hmode : s.trd.mode = 2) (hcopy : s.trd.copyDone = true)
    (hready : s.taskReady = false) :
    exec (.rejoinFinalStep w { d0 := n, d1 := n, d2 := n }) s = .next (trdEvent 1 (rejoined (s.at w))) := by
  have hcond : (s.at w).trd.mode = 2 ∧ (s.at w).trd.copyDone = true ∧ (!(s.at w).taskReady) = true :=
    ⟨hmode, hcopy, by rw [show (s.at w).taskReady = false from hready]; rfl⟩
  refine (if_pos hcond).trans ?_
  simp only [oddLane_agree]
  rfl

theorem exec_rejoinFinalStep_early (w : When) (d : Digests) {s : State} (h : s.trd.copyDone = false ∨ s.taskReady = true) :
    exec (.rejoinFinalStep w d) s = .next (s.at w) := by
  refine if_neg ?_
  rintro ⟨-, hcopy, hready⟩
  rw [show (s.at w).taskReady = s.taskReady from rfl] at hready
  rcases h with h | h
  · rw [show (s.at w).trd.copyDone = false from h] at hcopy
    exact Bool.noConfusion hcopy
  · rw [h] at hready
    exact Bool.noConfusion hready

theorem rejoined_moves {P : List Part} {s0 s : State} (hP : Covers P [.triad, .debug]) (hM : Moves P s0 s) :
    Moves P s0 (rejoined s) :=
  modTrd_moves (f := fun t => { t with
      mode := 0, fencedLane := 3, debugBroken := false, rejoinAt := none, copyDone := false
      rejoinMax := max t.rejoinMax (modLane s.trd.fencedLane (fun x => { x with halted := false }) (lanesReload s)).rejoinUs }) (fun _ => .inr ⟨.inr (hP.mem rfl), .inr (hP.mem rfl)⟩) (fun _ _ => Nat.zero_le 5)
    (modLane_moves _ _ (hP.trans rfl) (lanesReload_moves (hP.trans rfl) hM))

/-- Settles O33: each vote is one operation on the triad, whose effect is stated above once. -/
theorem triadVotes : Obligations.TriadVotes := by
  refine ⟨?_, ?_, ?_, ?_, ?_, ?_, ?_, ?_, ?_, ?_⟩
  · intro w cycle a s h
    refine ⟨_, exec_triadTransaction_triplex w cycle a a a h, ?_⟩
    rw [voteTriplex_agree]
    exact ⟨issueTx_only a w s, h, rfl, rfl⟩
  · intro w cycle g a b s h hg
    refine ⟨_, exec_triadTransaction_triplex w cycle a a b h, ?_⟩
    have honly := (exec_moves _ s _ (exec_triadTransaction_triplex w cycle a a b h)).only
    rw [voteTriplex_lane2 cycle hg] at honly ⊢
    obtain ⟨hmode, hlane, hfences, hgroup, hdiff⟩ := fenceLane_fenced 2 g (lastDiff 2 g cycle false (issueTx a (s.at w)))
    refine ⟨honly, hmode, hlane, hgroup, hdiff, hfences, ?_⟩
    rw [voteMinority, fenceLane_out]
    rfl
  · intro w cycle g h k a b c s hmode hab hbc hac
    refine ⟨_, exec_triadTransaction_triplex w cycle a b c hmode, ?_⟩
    rw [voteTriplex_differ cycle hab hbc hac]
    obtain ⟨honly, hstop, hno, -, hout⟩ := stopDiffering_shows w 3 (min g (min h k)) cycle (s := s) (by omega)
    exact ⟨honly, hstop, hno, hout⟩
  · exact fun w cycle a b c s h => ⟨_, exec_triadTransaction_none w cycle a b c h, at_only w s Covers.rfl⟩
  · intro w cycle k a b c s hmode hlane hk
    refine ⟨_, exec_triadTransaction_duplex w cycle a b c hmode hlane, ?_⟩
    rw [voteDuplex, hk]
    exact stopDiffering_shows w 3 k cycle (by omega)
  · intro w cycle a b c s hmode hlane hnone
    refine ⟨_, exec_triadTransaction_duplex w cycle a b c hmode hlane, ?_⟩
    rw [voteDuplex, hnone]
    exact ⟨issueTx_only a w s, rfl, rfl⟩
  · intro w s hidle hdue hmode hlane hret hlive
    refine ⟨_, exec_rejoinStartTimeout_due w hidle hdue, ?_⟩
    refine ⟨.after (rejoinStart_moves Covers.rfl (.refl _ _)).only (at_only w s (Covers.rfl.trans rfl)), ?_⟩
    rw [rejoinStart_of_fenced (s := s.at w) hmode hlane hret hlive]
    exact ⟨rfl, rfl, rfl, rfl⟩
  · intro w s h
    exact ⟨_, exec_tcmCopyComplete_rejoin w h, (exec_moves _ s _ (exec_tcmCopyComplete_rejoin w h)).only, rfl, h⟩
  · intro w n s hmode hcopy hready
    obtain ⟨e, he⟩ := trdEvent_trd 1 (rejoined (s.at w))
    refine ⟨_, exec_rejoinFinalStep_agree w n hmode hcopy hready, .after (trdEvent_moves 1 (P := [.events, .triad, .debug]) (Covers.rfl.trans rfl)
      (rejoined_moves (Covers.rfl.trans rfl) (.refl _ _))).only (at_only w s (Covers.rfl.trans rfl)), ?_⟩
    rw [he]
    exact ⟨rfl, rfl, rfl, rfl, rfl⟩
  · exact fun w d s _ h => ⟨_, exec_rejoinFinalStep_early w d h, at_only w s Covers.rfl⟩

end Sys2Proof.Machine

/-! The split interval and the debug lane (R229 to R236). -/

namespace Sys2Proof.Machine

set_option Elab.async false

open Sys2Proof

/-- A change of the debug lane's figures alone. -/
theorem modTrd_debug_only {f : TrdState → TrdState} {s : State} (hf : (f s.trd).rest = s.trd.rest) : Only [.debug] s (modTrd f s) := by
  refine ⟨rfl, fun p hp => ?_⟩
  cases p
  case debug => exact absurd List.mem_cons_self hp
  case triad => exact hf
  all_goals simp [Part.Same]

/-! ### Split -/

theorem splitAct_accepted {s : State} (h : splitRefusal s = 0) : splitAct .firmware s = modTrd (fun t => { t with
      archSaved := true
      lanes := t.lanes.mapIdx fun k x => { x with entry := some (t.splitEntry.getD k 0, k), upperZero := false, archSame := false }
      mode := 3, splits := tallyInc t.splits, splitRefuse := 0, splitInPeriod := true, splitDone := [false, false, false] }) s :=
  if_pos h

theorem splitAct_refused {s : State} (h : splitRefusal s ≠ 0) : splitAct .firmware s =
    modTrd (fun t => { t with splitRefuse := splitRefusal s, splitRefused := tallyInc t.splitRefused }) s :=
  if_neg h

/-- A lane of the split interval has ended its job. -/
def laneEnded (k : Fin 3) (s : State) : State := modTrd (fun t => { t with splitDone := putAt t.splitDone k.val true }) s

theorem splitEndAct_last {k : Fin 3} (d : Digests) {s : State} (hmode : s.trd.mode = 3)
    (hall : (putAt s.trd.splitDone k.val true).all (· == true) = true) :
    splitEndAct (.lane k) d s = splitRejoin 1 d (laneEnded k s) :=
  (if_pos hmode).trans (if_pos hall)

theorem splitEndAct_before {k : Fin 3} (d : Digests) {s : State} (hmode : s.trd.mode = 3)
    (hall : (putAt s.trd.splitDone k.val true).all (· == true) = false) : splitEndAct (.lane k) d s = laneEnded k s :=
  (if_pos hmode).trans (if_neg fun hlast => Bool.noConfusion (hall.symm.trans hlast))

/-- Lanes that agree at the end of a split interval rejoin without more. -/
theorem splitRejoin_agree (cause n : Nat) (s : State) : splitRejoin cause { d0 := n, d1 := n, d2 := n } s =
    chargeSlot 23 (min 5000 (Config.splitStepNs s.trd.splits)) (modTrd (fun t => { t with
      lanes := t.lanes.map fun x => { x with upperZero := true, cached := false, archSame := true, entry := none }
      archSaved := false, splitEndCause := cause, mode := 0, splitDone := [false, false, false] }) s) :=
  if_pos (oddLane_agree n)

/-! ### Debug -/

theorem debugArmAct_engineer {who : Agent} {lane : Nat} {s : State} (h : hostAtLeast 3 who s = true) (hl : lane < 3) :
    debugArmAct who lane s = modTrd (fun t => { t with dbgLane := lane, armLane := some lane, armUntil := s.aon + aonSec 600 }) s := by
  simp only [debugArmAct, h, hl, if_true]

/-- The state of an attach before its record: the lane is broken out. -/
def brokenOut (lane : Nat) (s : State) : State :=
  modTrd (fun t => { t with mode := 1, debugBroken := true, debugLive := true, debugLane := lane }) (laneOut lane s)

theorem exec_probeAttach_accepted (w : When) (lane : Fin 4) (session : Nat) {s : State} (h : attachRefusal lane.val (s.at w) = 0) :
    exec (.probeAttach w lane session) s =
      .next (ledger 0x0704 lane.val [lane.val, session] (trdEvent 4 (brokenOut lane.val (s.at w)))) :=
  if_pos h

theorem exec_probeAttach_refused (w : When) (lane : Fin 4) (session : Nat) {s : State} (h : attachRefusal lane.val (s.at w) ≠ 0) :
    exec (.probeAttach w lane session) s = .next (modTrd (fun t => { t with
      dbgRefuse := attachRefusal lane.val (s.at w), dbgRefused := tallyInc t.dbgRefused }) (s.at w)) :=
  if_neg h

/-- The debug lane of a session that has ended, fenced. -/
def sessionEnded (s : State) : State :=
  modTrd (fun t => { t with debugLive := false, fencedLane := t.debugLane, fencedAt := s.now }) (laneOut s.trd.debugLane s)

theorem endDebug_live (cause : Nat) {s : State} (h : s.trd.debugLive = true) : endDebug cause s =
    ledger 0x0705 s.trd.debugLane [(Config.debugEndCause cause).toNat] (trdEvent 4 (sessionEnded s)) :=
  if_pos h

/-- The end of a live session leaves the debug lane fenced and the mode as it was. -/
theorem endDebug_shows (cause : Nat) {s : State} (h : s.trd.debugLive = true) :
    (endDebug cause s).trd.debugLive = false ∧ (endDebug cause s).trd.fencedLane = s.trd.debugLane
      ∧ (endDebug cause s).trd.mode = s.trd.mode := by
  obtain ⟨e, he⟩ := trdEvent_trd 4 (sessionEnded s)
  rw [endDebug_live cause h, ledger_trd, he]
  exact ⟨rfl, rfl, rfl⟩

theorem endDebug_at_only (cause : Nat) (w : When) (s : State) :
    Only [.time, .events, .triad, .debug, .ledger, .keeper, .sessions, .host] s (endDebug cause (s.at w)) :=
  .after (endDebug_moves cause Covers.rfl (.refl _ _)).only (at_only w s (Covers.rfl.trans rfl))

theorem debugDetachAct_operator {who : Agent} {s : State} (h : hostAtLeast 2 who s = true) : debugDetachAct who s = endDebug 1 s :=
  if_pos h

theorem exec_debugArmLapse_due (w : When) {n : Nat} {s : State} (harm : s.trd.armLane = some n) (hdue : s.trd.armUntil ≤ max s.aon w.a) :
    exec (.debugArmLapse w) s = .next (modTrd (fun t => { t with armLane := none }) (s.at w)) :=
  congrArg Host.Outcome.next (if_pos ⟨by rw [show (s.at w).trd.armLane = some n from harm]; rfl, hdue⟩)

/-- Settles O34: each register's rule, attach and detach by the branch that the hypotheses select. -/
theorem splitAndDebug : Obligations.SplitAndDebug := by
  refine ⟨?_, ?_, ?_, ?_, ?_, ?_, ?_, ?_, ?_, ?_⟩
  · exact fun w s h hgrant => ⟨_, answers_granted (w := w) rfl hgrant (splitAct_accepted h),
      .after (modTrd_only rfl) (at_only w s (Covers.rfl.trans rfl)), rfl, rfl, rfl, rfl, rfl⟩
  · exact fun w s h hgrant => ⟨_, answers_granted (w := w) rfl hgrant (splitAct_refused h),
      .after (modTrd_only rfl) (at_only w s (Covers.rfl.trans rfl)), rfl, rfl, rfl⟩
  · intro w k n s hmode hall hgrant
    refine ⟨_, answers_granted (w := w) rfl hgrant (splitEndAct_last _ (s := s.at w) hmode hall), ?_⟩
    rw [splitRejoin_agree]
    exact ⟨.after (chargeSlot_moves _ _ Covers.rfl (.refl _ _)).only (.after (modTrd_only rfl) (.after (modTrd_only rfl)
      (at_only w s (Covers.rfl.trans rfl)))), rfl, rfl, rfl⟩
  · exact fun w k d s hmode hall hgrant => ⟨_, answers_granted (w := w) rfl hgrant (splitEndAct_before d (s := s.at w) hmode hall),
      .after (modTrd_only rfl) (at_only w s (Covers.rfl.trans rfl)), hmode, rfl⟩
  · exact fun w who lane s hrole hlane hgrant => ⟨_, answers_granted (w := w) rfl hgrant (debugArmAct_engineer (s := s.at w) hrole hlane),
      .after (modTrd_debug_only rfl) (at_only w s (Covers.rfl.trans rfl)), rfl, rfl, rfl⟩
  · intro w lane session s h
    obtain ⟨e, he⟩ := trdEvent_trd 4 (brokenOut lane.val (s.at w))
    refine ⟨_, exec_probeAttach_accepted w lane session h, (exec_moves _ s _ (exec_probeAttach_accepted w lane session h)).only, ?_⟩
    rw [ledger_trd, he]
    exact ⟨rfl, rfl, rfl, rfl, rfl⟩
  · exact fun w lane session s h => ⟨_, exec_probeAttach_refused w lane session h,
      .after (modTrd_debug_only rfl) (at_only w s (Covers.rfl.trans rfl)), rfl, rfl, rfl⟩
  · intro w s h
    exact ⟨_, rfl, endDebug_at_only 0 w s, endDebug_shows 0 (s := s.at w) h⟩
  · intro w who s hrole h hgrant
    obtain ⟨hlive, hlane, -⟩ := endDebug_shows 1 (s := s.at w) h
    exact ⟨_, answers_granted (w := w) rfl hgrant (debugDetachAct_operator (s := s.at w) hrole), endDebug_at_only 1 w s, hlive, hlane⟩
  · exact fun w n s harm hdue => ⟨_, exec_debugArmLapse_due w harm hdue,
      .after (modTrd_debug_only rfl) (at_only w s (Covers.rfl.trans rfl)), rfl⟩

end Sys2Proof.Machine

/-! Feeds, power fail, the final round and the bank test (R218, R249 to R251, R389, R412). -/

namespace Sys2Proof.Machine

set_option Elab.async false

open Sys2Proof

/-! ### The feeds -/

/-- What a run of steps leaves that each of them leaves. -/
theorem foldl_same {α β γ : Type} (p : β → γ) {f : β → α → β} (hf : ∀ s x, p (f s x) = p s) (l : List α) (s : β) :
    p (l.foldl f s) = p s := by
  induction l generalizing s with
  | nil => rfl
  | cons x l ih => exact (ih _).trans (hf s x)

theorem setFeed_ptm (i mv : Nat) (s : State) : (setFeed i mv s).ptm =
    { s.ptm with mv := putAt s.ptm.mv i mv, feed := putAt s.ptm.feed i (feedState (s.ptm.feed.getD i 0) mv) } := by
  unfold setFeed
  dsimp only
  split
  · rfl
  · rw [ledger_ptm, raise_ptm]
    rfl

/-- Both feeds as measured, before `RIDE` and P0 follow. -/
def feedsMeasured (mv1 mv2 carry : Nat) (s : State) : State :=
  modPtm (fun m => { m with carry := carrying carry mv1 mv2 }) (noteGood (setFeed 1 mv2 (setFeed 0 mv1 s)))

theorem feedsMeasured_only (mv1 mv2 carry : Nat) (s : State) :
    Only [.events, .power, .ledger, .keeper, .sessions, .host] s (feedsMeasured mv1 mv2 carry s) :=
  (modPtm_moves (P := [.events, .power, .ledger, .keeper, .sessions, .host]) (by decide) (noteGood_moves (Covers.rfl.trans rfl)
    (setFeed_moves 1 mv2 Covers.rfl (setFeed_moves 0 mv1 Covers.rfl (.refl _ s))))).only

/-- What the measured feeds show where the module holds two. -/
structure FeedsShow (mv1 mv2 carry : Nat) (s t : State) : Prop where
  mv : t.ptm.mv = [mv1, mv2]
  feed : t.ptm.feed = [feedState (s.ptm.feed.getD 0 0) mv1, feedState (s.ptm.feed.getD 1 0) mv2]
  carry : t.ptm.carry = carrying carry mv1 mv2

theorem eq_pair_of_length {α : Type} {l : List α} (h : l.length = 2) : ∃ a b, l = [a, b] :=
  match l, h with
  | [a, b], _ => ⟨a, b, rfl⟩

theorem feedsMeasured_feed (mv1 mv2 carry : Nat) {s : State} (hfeed : s.ptm.feed.length = 2) :
    (feedsMeasured mv1 mv2 carry s).ptm.feed = [feedState (s.ptm.feed.getD 0 0) mv1, feedState (s.ptm.feed.getD 1 0) mv2] := by
  obtain ⟨c, d, hcd⟩ := eq_pair_of_length hfeed
  show (setFeed 1 mv2 (setFeed 0 mv1 s)).ptm.feed = _
  rw [setFeed_ptm, setFeed_ptm, hcd]
  rfl

theorem feedsMeasured_shows (mv1 mv2 carry : Nat) {s : State} (hmv : s.ptm.mv.length = 2) (hfeed : s.ptm.feed.length = 2) :
    FeedsShow mv1 mv2 carry s (feedsMeasured mv1 mv2 carry s) := by
  obtain ⟨a, b, hab⟩ := eq_pair_of_length hmv
  constructor
  · show (setFeed 1 mv2 (setFeed 0 mv1 s)).ptm.mv = _
    rw [setFeed_ptm, setFeed_ptm, hab]
    rfl
  · exact feedsMeasured_feed mv1 mv2 carry hfeed
  · rfl

theorem feedsMeasured_ride (mv1 mv2 carry : Nat) (s : State) :
    (feedsMeasured mv1 mv2 carry s).ptm.ride = s.ptm.ride ∧ (feedsMeasured mv1 mv2 carry s).ptm.powerFail = s.ptm.powerFail := by
  have h : (setFeed 1 mv2 (setFeed 0 mv1 s)).ptm.ride = s.ptm.ride ∧ (setFeed 1 mv2 (setFeed 0 mv1 s)).ptm.powerFail = s.ptm.powerFail := by
    rw [setFeed_ptm, setFeed_ptm]
    exact ⟨rfl, rfl⟩
  exact h

theorem exec_feedStateChange (w : When) (mv1 mv2 : Nat) (carry : Fin 3) (s : State) : exec (.feedStateChange w mv1 mv2 carry) s =
    .next (endP0 (followRide (s.at w).feedGood (feedsMeasured mv1 mv2 carry.val (s.at w)))) := rfl

theorem endP0_of_started {s : State} (h : s.gen.phase ≠ 0) : endP0 s = s := if_neg fun hc => h hc.1

theorem signalPowerFail_shows (s : State) : (signalPowerFail s).ptm = { s.ptm with powerFail := true }
    ∧ (s.ptm.powerFail = false → (signalPowerFail s).trd.mode = 4) := by
  unfold signalPowerFail
  split
  · next h => exact ⟨by rw [← h], fun hno => absurd (h.symm.trans hno) (by decide)⟩
  · exact ⟨raise_ptm .., fun _ => congrArg (·.mode) (raise_trd ..)⟩

/-- `RIDE` follows the feeds without a change of what was measured. -/
theorem followRide_shows {mv1 mv2 carry : Nat} (was : Bool) {s t : State} (h : FeedsShow mv1 mv2 carry s t) :
    FeedsShow mv1 mv2 carry s (followRide was t) := by
  obtain ⟨hmv, hfeed, hcarry⟩ := h
  unfold followRide
  dsimp only
  split
  · constructor <;> rw [raise_ptm] <;> assumption
  · split
    · split
      · exact ⟨hmv, hfeed, hcarry⟩
      · constructor <;> rw [(signalPowerFail_shows t).1] <;> assumption
    · exact ⟨hmv, hfeed, hcarry⟩

theorem followRide_only (was : Bool) (s : State) :
    Only [.events, .sequencer, .triad, .power, .sessions, .host] s (followRide was s) :=
  (followRide_moves was Covers.rfl (.refl _ s)).only

/-- The loss of the last good feed starts the ride-through. -/
theorem followRide_lost {s : State} (hgood : s.feedGood = false) (hride : s.ptm.ride = false) (hfail : s.ptm.powerFail = false) :
    followRide true s = raise .ptm 4 (modPtm (fun m => { m with ride := true, rideSince := s.aon }) s) :=
  if_pos (by rw [hgood, hride, hfail]; rfl)

theorem feedState_low (old : Nat) {mv : Nat} (h : mv < 32000) : feedState old mv = 0 := by
  simp only [feedState, if_neg (show ¬75000 < mv by omega), if_neg (show ¬34000 ≤ mv by omega), if_neg (show ¬32000 ≤ mv by omega)]

/-! ### The final round -/

theorem setTpo_fio (g : Nat) (level : Bool) (s : State) : (setTpo g level s).fio = s.fio ∧ (setTpo g level s).tmb.gens = s.tmb.gens := by
  unfold setTpo
  split
  · exact ⟨rfl, rfl⟩
  · exact ⟨rfl, rfl⟩

theorem pinsRest_fio (s : State) : (pinsRest s).fio = (outputsOpen (fun _ => false) s).fio ∧ (pinsRest s).tmb.gens = s.tmb.gens :=
  ⟨foldl_same (·.fio) (fun s g => (setTpo_fio g false s).1) _ _, foldl_same (·.tmb.gens) (fun s g => (setTpo_fio g false s).2) _ _⟩

/-- With the pins at rest no channel is driven. -/
theorem pinsRest_open (s : State) : ((pinsRest s).fio.dout.any (·.driven)) = false ∧ ((pinsRest s).fio.ao.any (·.driving)) = false := by
  rw [(pinsRest_fio s).1]
  constructor
  · rw [List.any_eq_false]
    intro x hx
    obtain ⟨i, hi, rfl⟩ := List.mem_mapIdx.mp hx
    exact Bool.false_ne_true
  · rw [List.any_eq_false]
    intro x hx
    obtain ⟨y, hy, rfl⟩ := List.mem_map.mp hx
    exact Bool.false_ne_true

theorem keeperWritable_of_bucket (n at' : Nat) (s : State) :
    ({ s with kpr := { s.kpr with bucket := n, bucketAt := at' } } : State).keeperWritable = s.keeperWritable := rfl

theorem refillBucket_keeperWritable (s : State) : (refillBucket s).keeperWritable = s.keeperWritable :=
  keeperWritable_of_bucket _ _ s

theorem finalRound_unwritable (complete : Bool) (stored : Nat) {s : State} (h : s.keeperWritable = false) :
    finalRound complete stored s = refillBucket s := by
  unfold finalRound
  simp only [refillBucket_keeperWritable, h, Bool.false_and, Bool.false_eq_true, if_false]

theorem finalRound_mark (stored : Nat) {s : State} (h : s.keeperWritable = true) (hroom : 0 < (refillBucket s).roundAllowance) :
    finalRound false stored s = keeperCharge 4096 (modCart (fun c => { c with mark := (refillBucket s).lgr.nextSeq - 1 }) (refillBucket s)) := by
  unfold finalRound
  simp only [refillBucket_keeperWritable, h, Bool.true_and, decide_eq_true hroom, if_true, Bool.false_eq_true,
    if_false]

theorem powerGone_only (s : State) : Only [.start] s (powerGone s) := (powerGone_moves Covers.rfl (.refl _ s)).only

/-! ### The banks -/

theorem exec_bankTest_starts (w : When) {s : State} (hdue : (s.gen.phase = 0 ∧ s.ptm.bankTested = false ∧ (s.at w).charged = true) ∨
    (s.ptm.bankTested = true ∧ s.ptm.lastBankTest + aonSec 86400 ≤ max s.aon w.a)) (hride : s.ptm.ride = false)
    (htest : s.ptm.bankTesting = false) :
    exec (.bankTest w) s = .next (modPtm (fun m => { m with bankTesting := true }) (s.at w)) := by
  show execBankTest w s = _
  unfold execBankTest
  have hr : (s.at w).ptm.ride = false := hride
  have ht : (s.at w).ptm.bankTesting = false := htest
  rcases hdue with ⟨hphase, htested, hcharged⟩ | ⟨htested, hlast⟩
  · have hp : (s.at w).gen.phase = 0 := hphase
    have hb : (s.at w).ptm.bankTested = false := htested
    simp only [hp, hb, hcharged, hr, ht, Bool.not_false, and_self, decide_true, Bool.true_or, Bool.and_self, if_true]
  · have hb : (s.at w).ptm.bankTested = true := htested
    have hl : (s.at w).ptm.lastBankTest + aonSec 86400 ≤ (s.at w).aon := hlast
    simp only [hb, hl, hr, ht, decide_true, Bool.and_self, Bool.or_true, Bool.not_false, if_true]

theorem charged_at (w : When) {g : Nat} {s : State} (hgood : s.feedGood = true) (hsince : s.ptm.goodSince = some g)
    (hlong : g + aonMs 400 ≤ max s.aon w.a) : (s.at w).charged = true := by
  unfold State.charged
  rw [show (s.at w).ptm.goodSince = some g from hsince, show (s.at w).feedGood = true from hgood]
  exact (Bool.true_and _).trans (decide_eq_true hlong)

theorem charged_at_none (w : When) {s : State} (h : s.feedGood = false ∨ s.ptm.goodSince = none) : (s.at w).charged = false := by
  unfold State.charged
  rcases h with h | h
  · rw [show (s.at w).feedGood = false from h]
    split <;> rfl
  · rw [show (s.at w).ptm.goodSince = none from h]

theorem exec_bankTest_notDue (w : When) {s : State} (htested : s.ptm.bankTested = false)
    (h : s.feedGood = false ∨ s.ptm.goodSince = none) : exec (.bankTest w) s = .next (s.at w) := by
  have hb : (s.at w).ptm.bankTested = false := htested
  show execBankTest w s = _
  unfold execBankTest
  simp only [hb, charged_at_none w h, Bool.and_false, Bool.false_and, Bool.or_self, Bool.false_eq_true, if_false]

theorem bankFault_ptm (bank permille : Nat) (s : State) : (bankFault bank permille s).ptm = s.ptm := by
  unfold bankFault
  split
  · rw [ledger_ptm, report_ptm, raise_ptm]
  · rfl

/-- The figures of a bank test that has ended. -/
def banksTested (ride hold : Nat) (s : State) : State :=
  modPtm (fun m => { m with
      bankTesting := false, bankTested := true, lastBankTest := s.aon, bankRide := ride, bankHold := hold
      bankFault := decide (ride < 800 ∨ hold < 800) }) s

theorem exec_bankTestComplete_testing (w : When) {ride hold : Nat} {s : State} (htest : s.ptm.bankTesting = true) (hride : ride < 65536)
    (hhold : hold < 65536) : exec (.bankTestComplete w ride hold) s =
      .next (endP0 (bankFault 1 hold (bankFault 0 ride (banksTested ride hold (s.at w))))) := by
  show execBankTestComplete w ride hold s = _
  unfold execBankTestComplete
  rw [Nat.mod_eq_of_lt hride, Nat.mod_eq_of_lt hhold]
  exact if_neg (by rw [show (s.at w).ptm.bankTesting = true from htest]; decide)

theorem bankFault_good (bank : Nat) {permille : Nat} (h : 800 ≤ permille) (s : State) : bankFault bank permille s = s :=
  if_neg (by omega)

theorem endP0_ptm (s : State) : (endP0 s).ptm = s.ptm := (endP0_moves Covers.rfl (.refl _ s)).keeps .power rfl

theorem endP0_ends {s : State} (hphase : s.gen.phase = 0) (htested : s.ptm.bankTested = true) (hgood : s.gen.powerGood = true)
    (hfeed : s.feedGood = true) : endP0 s = { s with gen := { s.gen with phase := 1 } } :=
  if_pos ⟨hphase, htested, hgood, hfeed⟩

/-! ### The comparators of the over-temperature trip -/

theorem exec_overtempTrip_point (w : When) {sensor : Fin 12} (h : (tripPoint sensor.val).isSome = true) (s : State) :
    ∃ l, sensor.val ∈ l ∧ exec (.overtempTrip w sensor) s = .next (signalPowerFail (modPtm (fun m => { m with tripped := l }) (s.at w))) := by
  refine ⟨if s.ptm.tripped.contains sensor.val then s.ptm.tripped else s.ptm.tripped ++ [sensor.val], ?_,
    congrArg Host.Outcome.next (if_pos h)⟩
  split
  · next hin => exact List.contains_iff_mem.mp hin
  · simp

theorem tripPoint_isSome {i : Nat} (h : i = 0 ∨ i = 2 ∨ i = 3 ∨ i = 4 ∨ i = 5 ∨ i = 10) : (tripPoint i).isSome = true := by
  rcases h with rfl | rfl | rfl | rfl | rfl | rfl <;> rfl

theorem tripPoint_none {i : Nat} (h : i = 1 ∨ 6 ≤ i ∧ i ≠ 10) : tripPoint i = none := by
  unfold tripPoint
  rw [if_neg (by omega), if_neg (by omega), if_neg (by omega)]

/-! ### The commands -/

/-- An operation whose frame lists neither the triad nor its debug lane leaves both. -/
theorem Moves.trd_eq {P : List Part} {s t : State} (h : Moves P s t) (ht : P.contains .triad = false)
    (hd : P.contains .debug = false) : t.trd = s.trd := by
  have hrest : t.trd.rest = s.trd.rest := h.keeps .triad ht
  have hdbg : t.trd.dbg = s.trd.dbg := h.keeps .debug hd
  obtain ⟨hb, hl, hlive, hlane, harm, huntil, hrefuse, hrefused⟩ :
    t.trd.debugBroken = s.trd.debugBroken ∧ t.trd.debugLane = s.trd.debugLane ∧ t.trd.debugLive = s.trd.debugLive
      ∧ t.trd.dbgLane = s.trd.dbgLane ∧ t.trd.armLane = s.trd.armLane ∧ t.trd.armUntil = s.trd.armUntil
      ∧ t.trd.dbgRefuse = s.trd.dbgRefuse ∧ t.trd.dbgRefused = s.trd.dbgRefused := by simpa using hdbg
  calc t.trd = { t.trd.rest with debugBroken := t.trd.debugBroken, debugLane := t.trd.debugLane, debugLive := t.trd.debugLive,
                                 dbgLane := t.trd.dbgLane, armLane := t.trd.armLane, armUntil := t.trd.armUntil,
                                 dbgRefuse := t.trd.dbgRefuse, dbgRefused := t.trd.dbgRefused } := rfl
    _ = s.trd := by rw [hrest, hb, hl, hlive, hlane, harm, huntil, hrefuse, hrefused]

theorem gen_feedsMeasured (mv1 mv2 carry : Nat) (s : State) : (feedsMeasured mv1 mv2 carry s).gen = s.gen :=
  (feedsMeasured_only mv1 mv2 carry s).same .start rfl

theorem exec_feedStateChange_started (w : When) (mv1 mv2 : Nat) (carry : Fin 3) {s : State} (h : s.gen.phase ≠ 0) :
    exec (.feedStateChange w mv1 mv2 carry) s =
      .next (followRide (s.at w).feedGood (feedsMeasured mv1 mv2 carry.val (s.at w))) := by
  have hgen : (followRide (s.at w).feedGood (feedsMeasured mv1 mv2 carry.val (s.at w))).gen = s.gen :=
    Eq.trans ((followRide_only _ _).same .start rfl) (gen_feedsMeasured ..)
  rw [exec_feedStateChange, endP0_of_started (by rw [hgen]; exact h)]

theorem feedStateChange_lost (w : When) (mv1 mv2 : Nat) (carry : Fin 3) {s : State} (hphase : s.gen.phase ≠ 0)
    (hfeed : s.ptm.feed = [1, 0] ∨ s.ptm.feed = [0, 1] ∨ s.ptm.feed = [1, 1]) (h1 : mv1 < 32000) (h2 : mv2 < 32000)
    (hride : s.ptm.ride = false) (hfail : s.ptm.powerFail = false) :
    exec (.feedStateChange w mv1 mv2 carry) s = .next (raise .ptm 4 (modPtm (fun m => { m with ride := true, rideSince := max s.aon w.a })
      (feedsMeasured mv1 mv2 carry.val (s.at w)))) := by
  let t := feedsMeasured mv1 mv2 carry.val (s.at w)
  have hwas : (s.at w).feedGood = true := by
    show s.ptm.feed.any (· == 1) = true
    rcases hfeed with h | h | h <;> rw [h] <;> rfl
  have hlength : (s.at w).ptm.feed.length = 2 := by
    show s.ptm.feed.length = 2
    rcases hfeed with h | h | h <;> rw [h] <;> rfl
  have hnow : t.feedGood = false := by
    show t.ptm.feed.any (· == 1) = false
    rw [feedsMeasured_feed mv1 mv2 carry.val hlength, feedState_low _ h1, feedState_low _ h2]
    rfl
  obtain ⟨hride', hfail'⟩ := feedsMeasured_ride mv1 mv2 carry.val (s.at w)
  have haon : t.aon = max s.aon w.a := ((feedsMeasured_only mv1 mv2 carry.val (s.at w)).same .time rfl).2.1
  rw [exec_feedStateChange_started w mv1 mv2 carry hphase, hwas, followRide_lost hnow (hride'.trans hride) (hfail'.trans hfail),
    show (feedsMeasured mv1 mv2 carry.val (s.at w)).aon = _ from haon]

theorem exec_powerFail_due (w : When) {low : Bool} {s : State} (hride : s.ptm.ride = true)
    (h : low = true ∨ s.ptm.rideSince + aonMs 10 ≤ max s.aon w.a) : exec (.powerFail w low) s = .next (signalPowerFail (s.at w)) := by
  refine congrArg Host.Outcome.next (if_pos ?_)
  rw [show (s.at w).ptm.ride = true from hride, Bool.true_and, Bool.or_eq_true]
  exact h.imp_right decide_eq_true

theorem exec_powerFail_early (w : When) {s : State} (h : max s.aon w.a < s.ptm.rideSince + aonMs 10) :
    exec (.powerFail w false) s = .next (s.at w) := by
  refine congrArg Host.Outcome.next (if_neg ?_)
  rw [Bool.false_or, show decide ((s.at w).ptm.rideSince + aonMs 10 ≤ (s.at w).aon) = false from decide_eq_false (Nat.not_le.mpr h),
    Bool.and_false]
  exact Bool.false_ne_true

theorem refillBucket_only (s : State) : Only [.keeper] s (refillBucket s) := (refillBucket_moves Covers.rfl (.refl _ s)).only

theorem powerGone_kpr (s : State) : (powerGone s).kpr = s.kpr := rfl

theorem powerGone_fio (s : State) : (powerGone s).fio = s.fio := rfl

theorem powerGone_gens (s : State) : (powerGone s).tmb.gens = s.tmb.gens := rfl

/-- The module without power: what the final round left, its outputs open. -/
def stopped (s : State) : State := powerGone (pinsRest s)

theorem stopped_only (s : State) : Only [.start, .pulses, .outputs, .loops, .sent] s (stopped s) :=
  .after (powerGone_only _) ((pinsRest_moves Covers.rfl (.refl _ s)).only.mono)

theorem stopped_gen (s : State) : (stopped s).gen = { s.gen with powerGood := false } := by
  rw [stopped, powerGone, pinsRest_gen]

theorem stopped_kpr (s : State) : (stopped s).kpr = s.kpr :=
  (powerGone_kpr (pinsRest s)).trans (pinsRest_kpr s)

theorem stopped_gens (s : State) : (stopped s).tmb.gens = s.tmb.gens :=
  (powerGone_gens (pinsRest s)).trans (pinsRest_fio s).2

/-- Without power no channel is driven. -/
theorem stopped_open (s : State) : ((stopped s).fio.dout.any (·.driven)) = false ∧ ((stopped s).fio.ao.any (·.driving)) = false := by
  rw [show (stopped s).fio = (pinsRest s).fio from powerGone_fio (pinsRest s)]
  exact pinsRest_open s

theorem exec_finalRoundComplete (w : When) (complete : Bool) (stored : Nat) {s : State} (h : s.ptm.powerFail = true) :
    exec (.finalRoundComplete w complete stored) s = .next (stopped (finalRound complete stored (s.at w))) :=
  congrArg Host.Outcome.next (if_pos h)

/-- The final round of an unwritable keeper opens every output and leaves the generators. -/
theorem finalRoundComplete_unwritable (w : When) (complete : Bool) (stored : Nat) {s : State} (hfail : s.ptm.powerFail = true)
    (hkeeper : s.keeperWritable = false) : ∃ t, exec (.finalRoundComplete w complete stored) s = .next t
      ∧ Only [.time, .start, .keeper, .pulses, .outputs, .loops, .sent] s t ∧ t.gen.powerGood = false ∧ t.gen.phase = s.gen.phase
      ∧ (t.fio.dout.any (·.driven)) = false ∧ (t.fio.ao.any (·.driving)) = false ∧ t.tmb.gens = s.tmb.gens := by
  refine ⟨_, exec_finalRoundComplete w complete stored hfail, ?_⟩
  rw [finalRound_unwritable (s := s.at w) complete stored hkeeper]
  have hround := refillBucket_only (s.at w)
  have hgen : (refillBucket (s.at w)).gen = s.gen := hround.same .start rfl
  have hgens : (refillBucket (s.at w)).tmb.gens = s.tmb.gens := (hround.same .pulses rfl).1
  obtain ⟨hdout, hao⟩ := stopped_open (refillBucket (s.at w))
  refine ⟨.after (stopped_only _) (.after hround (at_only w s (Covers.rfl.trans rfl))), ?_, ?_, hdout, hao,
    (stopped_gens _).trans hgens⟩ <;> rw [stopped_gen, hgen]

/-- The final round of a writable keeper that writes the assignment mark alone. -/
theorem finalRoundComplete_mark (w : When) (stored : Nat) {c : Cartridge} {s : State} (hfail : s.ptm.powerFail = true)
    (hkeeper : s.keeperWritable = true) (hcart : s.kpr.cartridge = some c) (hroom : 0 < (refillBucket (s.at w)).roundAllowance) :
    ∃ t, exec (.finalRoundComplete w false stored) s = .next t
      ∧ Only [.time, .start, .cartridge, .keeper, .pulses, .outputs, .loops, .sent] s t ∧ t.gen.powerGood = false
      ∧ t.kpr.cartridge = some { c with mark := s.lgr.nextSeq - 1, written := c.written + 4096 } := by
  have hround := refillBucket_only (s.at w)
  have hlgr : (refillBucket (s.at w)).lgr = s.lgr := hround.same .ledger rfl
  have hc : (refillBucket (s.at w)).kpr.cartridge = some c := (show _ = s.kpr.cartridge from hround.same .cartridge rfl).trans hcart
  have hgen : (finalRound false stored (s.at w)).gen = s.gen := (finalRound_moves false stored Covers.rfl (.refl _ (s.at w))).keeps .start rfl
  refine ⟨_, exec_finalRoundComplete w false stored hfail, ?_, by rw [stopped_gen], ?_⟩
  · rw [finalRound_mark (s := s.at w) stored hkeeper hroom]
    exact .after (stopped_only _) (.after (keeperCharge_moves (P := [.cartridge, .keeper]) _ (Covers.rfl.trans rfl)
      (modCart_moves _ (Covers.rfl.trans rfl) (.refl _ _))).only (.after hround (at_only w s (Covers.rfl.trans rfl))))
  · rw [stopped_kpr, finalRound_mark (s := s.at w) stored hkeeper hroom, hlgr]
    show (((refillBucket (s.at w)).kpr.cartridge.map _).map _) = _
    rw [hc]
    rfl

/-- A failed ride-through bank is a fault, and changes nothing of the pair or the triad. -/
theorem bankTestComplete_ptm (w : When) {ride hold : Nat} {s : State} (htest : s.ptm.bankTesting = true) (hr : ride < 65536)
    (hh : hold < 65536) : ∃ t, exec (.bankTestComplete w ride hold) s = .next t ∧ t.ptm = (banksTested ride hold (s.at w)).ptm :=
  ⟨_, exec_bankTestComplete_testing w htest hr hh, by rw [endP0_ptm, bankFault_ptm, bankFault_ptm]⟩

theorem bankTestComplete_good (w : When) {ride hold : Nat} {s : State} (htest : s.ptm.bankTesting = true) (hphase : s.gen.phase = 0)
    (hgood : s.gen.powerGood = true) (hfeed : s.feedGood = true) (hr : 800 ≤ ride) (hr' : ride < 65536) (hh : 800 ≤ hold)
    (hh' : hold < 65536) : exec (.bankTestComplete w ride hold) s =
      .next { banksTested ride hold (s.at w) with gen := { s.gen with phase := 1 } } := by
  rw [exec_bankTestComplete_testing w htest hr' hh', bankFault_good 0 hr, bankFault_good 1 hh,
    endP0_ends (s := banksTested ride hold (s.at w)) hphase rfl hgood hfeed]
  rfl

/-- Settles O38: what the feeds, the banks and the final round set, by the branch that the hypotheses select. -/
theorem powerAndBanks : Obligations.PowerAndBanks := by
  unfold Obligations.PowerAndBanks
  refine ⟨?feeds, ?lost, ?fails, ?early, ?unwritable, ?mark, ?test, ?notDue, ?banksGood, ?banksBad, ?trips, ?noTrip, ?complete, ?daily⟩
  case feeds =>
    intro w mv1 mv2 carry s hphase hmv hfeed
    obtain ⟨hmv', hfeed', hcarry⟩ := followRide_shows (s.at w).feedGood (feedsMeasured_shows mv1 mv2 carry.val (s := s.at w) hmv hfeed)
    exact ⟨_, exec_feedStateChange_started w mv1 mv2 carry hphase,
      .after (followRide_only _ _) (.after (feedsMeasured_only ..) (at_only w s (Covers.rfl.trans rfl))), hmv', hcarry, hfeed'⟩
  case lost =>
    intro w mv1 mv2 carry s hphase hfeed h1 h2 hride hfail
    refine ⟨_, feedStateChange_lost w mv1 mv2 carry hphase hfeed h1 h2 hride hfail, .after (raise_only ..)
      (.after (modPtm_moves (P := [.power]) (by decide) (.refl _ _)).only (.after (feedsMeasured_only ..)
        (at_only w s (Covers.rfl.trans rfl)))), ?_⟩
    rw [raise_ptm]
    exact ⟨rfl, rfl, (feedsMeasured_ride mv1 mv2 carry.val (s.at w)).2.trans hfail⟩
  case fails =>
    intro w low s hride hlow
    have hexec := exec_powerFail_due w hride hlow
    obtain ⟨hptm, hstop⟩ := signalPowerFail_shows (s.at w)
    exact ⟨_, hexec, (exec_moves _ s _ hexec).only, by rw [hptm], by rw [hptm]; exact hride, hstop⟩
  case early => exact fun w s _ hearly => ⟨_, exec_powerFail_early w hearly, at_only w s Covers.rfl⟩
  case unwritable =>
    intro w complete stored s hfail hkeeper
    exact finalRoundComplete_unwritable w complete stored hfail hkeeper
  case mark =>
    intro w stored c s hfail hkeeper hcart hroom
    obtain ⟨t, ht, honly, hgood, hc⟩ := finalRoundComplete_mark w stored hfail hkeeper hcart hroom
    exact ⟨t, ht, honly, hgood, by rw [hc]; rfl, by rw [hc]; rfl, by rw [hc]; rfl⟩
  case test =>
    intro w g s hphase htested hride htest hgood hsince hlong
    exact ⟨_, exec_bankTest_starts w (.inl ⟨hphase, htested, charged_at w hgood hsince hlong⟩) hride htest,
      .after (modPtm_moves (P := [.power]) (by decide) (.refl _ _)).only (at_only w s (Covers.rfl.trans rfl)), rfl, htested⟩
  case notDue => exact fun w s htested h => ⟨_, exec_bankTest_notDue w htested h, at_only w s Covers.rfl⟩
  case banksGood =>
    intro w ride hold s htest hphase hgood hfeed hr hr' hh hh'
    exact ⟨_, bankTestComplete_good w htest hphase hgood hfeed hr hr' hh hh', .after (setGen_only _ _)
      (.after (modPtm_moves (P := [.power]) (by decide) (.refl _ _)).only (at_only w s (Covers.rfl.trans rfl))),
      rfl, rfl, rfl, rfl, decide_eq_false (by omega), rfl⟩
  case banksBad =>
    intro w ride hold s htest hr hh
    obtain ⟨t, ht, hptm⟩ := bankTestComplete_ptm w htest (show ride < 65536 by omega) hh
    have hmoves := exec_moves _ s _ ht
    refine ⟨t, ht, ?_, ?_, ?_, hmoves.keeps .pair rfl, hmoves.trd_eq rfl rfl⟩
    all_goals rw [hptm]
    · rfl
    · exact decide_eq_true (.inl hr)
    · rfl
  case trips =>
    intro w sensor s h
    obtain ⟨l, hl, hexec⟩ := exec_overtempTrip_point w (tripPoint_isSome h) s
    refine ⟨_, hexec, (exec_moves _ s _ hexec).only, ?_⟩
    rw [(signalPowerFail_shows _).1]
    exact ⟨rfl, hl⟩
  case noTrip =>
    intro w sensor s h
    exact ⟨_, congrArg Host.Outcome.next (if_neg (by rw [tripPoint_none h]; decide)), at_only w s Covers.rfl⟩
  case complete =>
    intro w stored s hfail
    have hexec := exec_finalRoundComplete w true stored hfail
    have hmoves := exec_moves _ s _ hexec
    have hgen : (finalRound true stored (s.at w)).gen = s.gen := (finalRound_moves true stored Covers.rfl (.refl _ (s.at w))).keeps .start rfl
    refine ⟨_, hexec, hmoves.only.mono, ?_, ?_, hmoves.keeps .power rfl⟩ <;> rw [stopped_gen, hgen]
  case daily =>
    intro w s htested hlast hride htest
    exact ⟨_, exec_bankTest_starts w (.inr ⟨htested, hlast⟩) hride htest,
      .after (modPtm_moves (P := [.power]) (by decide) (.refl _ _)).only (at_only w s (Covers.rfl.trans rfl)), rfl, htested⟩

end Sys2Proof.Machine

/-! Heartbeats, lanes and the loss of the partner (R254, R256 to R259). -/

namespace Sys2Proof.Machine

set_option Elab.async false

open Sys2Proof

/-! ### What a module has heard of its partner -/

/-- The partner's figures and the tallies of the link, which only link frames and missed heartbeats change. -/
def WvlState.heard (x : WvlState) : PartnerState × Bool × Nat × Nat × Nat := (x.partner, x.hbSeen, x.missRun, x.hbMissed, x.linkErr)

theorem Moves.heard_eq {P : List Part} {s t : State} (h : Moves P s t) (hp : P.contains .pair = false) : t.wvl.heard = s.wvl.heard :=
  congrArg WvlState.heard (h.keeps .pair hp)

theorem ite_heard {a b : State} {p : PartnerState × Bool × Nat × Nat × Nat} {c : Prop} [Decidable c] (ha : a.wvl.heard = p)
    (hb : b.wvl.heard = p) : (if c then a else b).wvl.heard = p := by
  split <;> assumption

theorem raise_heard (r : EvtReg) (bit : Nat) (s : State) : (raise r bit s).wvl.heard = s.wvl.heard :=
  congrArg WvlState.heard (raise_wvl r bit s)

theorem ledger_heard (code source : Nat) (data : List Nat) (s : State) : (ledger code source data s).wvl.heard = s.wvl.heard :=
  congrArg WvlState.heard (ledger_wvl code source data s)

theorem report_heard (src inst : Nat) (s : State) : (report src inst s).wvl.heard = s.wvl.heard :=
  congrArg WvlState.heard (report_wvl src inst s)

theorem modTask_heard (t : Nat) (f : TaskState → TaskState) (s : State) : (modTask t f s).wvl.heard = s.wvl.heard := rfl

theorem modCopy_heard (t : Nat) (f : CopyState → CopyState) (s : State) : (modCopy t f s).wvl.heard = s.wvl.heard := rfl

theorem modWvl_heard {f : WvlState → WvlState} (hf : ∀ x, (f x).heard = x.heard) (s : State) : (modWvl f s).wvl.heard = s.wvl.heard :=
  hf s.wvl

/-- The role and what goes with it are not what was heard. -/
theorem setRole_heard (new cause : Nat) (s : State) : (setRole new cause s).wvl.heard = s.wvl.heard := by
  unfold setRole
  dsimp only
  refine ite_heard rfl (ite_heard ((raise_heard ..).trans ?_) ?_)
  all_goals
    refine (raise_heard ..).trans ((ledger_heard ..).trans ?_)
    split
    · rfl
    · exact ite_heard rfl rfl

/-! ### Copies -/

theorem notCurrent_heard (t : Nat) (s : State) : (notCurrent t s).wvl.heard = s.wvl.heard :=
  (raise_heard ..).trans (modWvl_heard (fun _ => rfl) s)

theorem underReseed_heard (t : Nat) (s : State) : (underReseed t s).wvl.heard = s.wvl.heard :=
  (notCurrent_heard t _).trans (modWvl_heard (fun _ => rfl) s)

theorem startReseed_heard (t : Nat) (s : State) : (startReseed t s).wvl.heard = s.wvl.heard :=
  (modTask_heard ..).trans <| (modCopy_heard ..).trans <|
    ((countDigest_moves t Covers.rfl (.refl _ (underReseed t s))).heard_eq rfl).trans (underReseed_heard t s)

theorem reseedIfDue_heard (t : Nat) (s : State) : (reseedIfDue t s).wvl.heard = s.wvl.heard :=
  ite_heard (startReseed_heard t s) rfl

theorem copyDrop_heard (t : Nat) (s : State) : (copyDrop t s).wvl.heard = s.wvl.heard :=
  (notCurrent_heard t _).trans (modWvl_heard (fun _ => rfl) s)

theorem foldl_heard {α : Type} {f : State → α → State} (hf : ∀ s x, (f s x).wvl.heard = s.wvl.heard) (l : List α) (s : State) :
    (l.foldl f s).wvl.heard = s.wvl.heard :=
  foldl_same (·.wvl.heard) hf l s

theorem judgeFailed_heard (t pcount : Nat) (s : State) : (judgeFailed t pcount s).wvl.heard = s.wvl.heard := by
  unfold judgeFailed
  refine ite_heard rfl ?_
  exact (reseedIfDue_heard t _).trans ((foldl_heard (fun s _ => copyDrop_heard t s) _ _).trans (modCopy_heard t _ s))

theorem current_heard (t : Nat) (s : State) : (current t s).wvl.heard = s.wvl.heard :=
  ite_heard ((raise_heard ..).trans (modWvl_heard (fun _ => rfl) s)) (modWvl_heard (fun _ => rfl) s)

theorem judgeAck_heard (t ack pcount : Nat) (s : State) : (judgeAck t ack pcount s).wvl.heard = s.wvl.heard := by
  unfold judgeAck
  refine (judgeFailed_heard t pcount _).trans ?_
  split
  · exact ite_heard ((current_heard t _).trans (modCopy_heard ..)) (modCopy_heard ..)
  · rfl

theorem primaryHeartbeat_heard (h : Heartbeat) (before : Nat) (s : State) : (primaryHeartbeat h before s).wvl.heard = s.wvl.heard :=
  ite_heard ((foldl_heard (fun s t => judgeAck_heard t _ _ s) _ _).trans
    (ite_heard (foldl_heard (fun s t => startReseed_heard t s) _ _)
      (foldl_heard (fun s t => ite_heard rfl (startReseed_heard t s)) _ _))) rfl

/-! ### Epochs and roles -/

theorem setEpoch_heard (e : Nat) (s : State) : (setEpoch e s).wvl.heard = s.wvl.heard :=
  ite_heard (modWvl_heard (fun _ => rfl) s) ((raise_heard ..).trans ((ledger_heard ..).trans (modWvl_heard (fun _ => rfl) s)))

theorem raiseReserve_heard (v : Nat) (s : State) : (raiseReserve v s).wvl.heard = s.wvl.heard :=
  (raiseReserve_moves v Covers.rfl (.refl _ s)).heard_eq rfl

theorem reserveFailed_heard (s : State) : (reserveFailed s).wvl.heard = s.wvl.heard :=
  (raise_heard ..).trans ((ledger_heard ..).trans (modWvl_heard (fun _ => rfl) s))

theorem secureEpoch_heard (v : Nat) (s : State) : (secureEpoch v s).wvl.heard = s.wvl.heard :=
  ite_heard ((setEpoch_heard ..).trans (reserveFailed_heard s))
    (ite_heard ((raiseReserve_heard ..).trans ((modWvl_heard (fun _ => rfl) _).trans (modWvl_heard (fun _ => rfl) s)))
      ((raiseReserve_heard ..).trans ((setEpoch_heard ..).trans (modWvl_heard (fun _ => rfl) s))))

theorem primaryCommon_heard (s : State) : (primaryCommon s).wvl.heard = s.wvl.heard := by
  let s1 := modWvl (fun w => { w with
    handover := none, takeAt := none, yielding := false, notCurrent := 0, reseed := 0, copies := List.replicate 16 {} }) s
  have h : (endDebug 2 (fioPrimary (resetStations s1))).wvl.heard = s1.wvl.heard :=
    ((endDebug_moves 2 Covers.rfl (.refl _ (fioPrimary (resetStations s1)))).heard_eq rfl).trans
      (((fioPrimary_moves Covers.rfl (.refl _ (resetStations s1))).heard_eq rfl).trans
        ((resetStations_moves Covers.rfl (.refl _ s1)).heard_eq rfl))
  exact h.trans (modWvl_heard (fun _ => rfl) s)

theorem primaryFromP6_heard (s : State) : (primaryFromP6 s).wvl.heard = s.wvl.heard :=
  ite_heard (((restartFromKeeper_moves Covers.rfl (.refl _ (primaryCommon (setRole 1 9 (startEpoch s))))).heard_eq rfl).trans
    ((primaryCommon_heard _).trans ((setRole_heard ..).trans (secureEpoch_heard _ s)))) rfl

theorem mismatch_heard (cause : Nat) (s : State) : (mismatch cause s).wvl.heard = s.wvl.heard :=
  (setRole_heard ..).trans ((modWvl_heard (fun _ => rfl) _).trans (ite_heard rfl (ledger_heard ..)))

theorem initImages_heard (g : Generation) (t : Nat) (out : PointCfg → Nat) (s : State) : (initImages g t out s).wvl.heard = s.wvl.heard :=
  (initImages_moves g t out Covers.rfl (.refl _ s)).heard_eq rfl

theorem enterSync_heard (s : State) : (enterSync s).wvl.heard = s.wvl.heard := by
  unfold enterSync
  have h := (foldl_heard (fun s t => (underReseed_heard t _).trans (modTask_heard t (fun x => { x with
    state := 0, frozen := false, localSets := [], gen := (s.taskGen t).gen }) s))
    (modWvl (fun w => { w with copies := List.replicate 16 {} }) s).myTasks
    (modWvl (fun w => { w with copies := List.replicate 16 {} }) s)).trans (modWvl_heard (fun _ => rfl) s)
  exact ite_heard ((foldl_heard (fun s t => initImages_heard _ t _ s) _ _).trans h) h

theorem syncDone_heard (s : State) : (syncDone s).wvl.heard = s.wvl.heard := ite_heard (setRole_heard ..) rfl

theorem join_heard (s : State) : (join s).wvl.heard = s.wvl.heard :=
  ite_heard (mismatch_heard ..) ((syncDone_heard _).trans ((enterSync_heard _).trans ((setRole_heard ..).trans (modWvl_heard (fun _ => rfl) s))))

theorem heartbeatByRole_heard (h : Heartbeat) (before : Nat) (s : State) : (heartbeatByRole h before s).wvl.heard = s.wvl.heard := by
  unfold heartbeatByRole
  split
  · exact ite_heard rfl (ite_heard (join_heard s) (ite_heard (ite_heard (primaryFromP6_heard s) (join_heard s)) rfl))
  · exact primaryHeartbeat_heard h before s
  · exact ite_heard (raiseReserve_heard ..) rfl
  · exact ite_heard (join_heard s) rfl
  · exact ite_heard (join_heard s) rfl
  · rfl

theorem linkSendAll_heard (msg : Nat) (data : List Nat) (s : State) : (linkSendAll msg data s).wvl.heard = s.wvl.heard :=
  ite_heard rfl rfl

theorem answerTo_heard (kind : Nat) (i : Option Nat) (status detail : Nat) (payload : List Nat) (s : State) :
    (answerTo kind i status detail payload s).wvl.heard = s.wvl.heard :=
  (answerTo_moves kind i status detail payload Covers.rfl (.refl _ s)).heard_eq rfl

theorem modSrc_heard (i : Nat) (f : FcrSource → FcrSource) (s : State) : (modSrc i f s).wvl.heard = s.wvl.heard := rfl

theorem history_heard (i action detail : Nat) (s : State) : (history i action detail s).wvl.heard = s.wvl.heard :=
  (history_moves i action detail Covers.rfl (.refl _ s)).heard_eq rfl

theorem relinquish_heard (src : Nat) (s : State) : (relinquish src s).wvl.heard = s.wvl.heard :=
  (answerTo_heard ..).trans <| (raise_heard ..).trans <| (ledger_heard ..).trans <| (history_heard ..).trans <|
    (modSrc_heard ..).trans <|
    (linkSendAll_heard ..).trans <| modWvl_heard (fun _ => rfl) s

theorem unblock_heard (s : State) : (unblock s).wvl.heard = s.wvl.heard :=
  foldl_heard (fun s i => ite_heard (relinquish_heard i s) rfl) _ s

/-! ### The commands -/

theorem exec_heartbeatReceived_off (w : When) (h : Heartbeat) {s : State} (hoff : s.pair.mode = 0) :
    exec (.heartbeatReceived w h) s = .next (s.at w) :=
  congrArg Host.Outcome.next (if_pos hoff)

theorem exec_heartbeatReceived (w : When) (h : Heartbeat) {s : State} (hon : s.pair.mode ≠ 0) (hside : h.hdr.side ≠ s.wvl.side) :
    ∃ before, exec (.heartbeatReceived w h) s =
      .next (heartbeatByRole h before (unblock (partnerSeen h (frameSeen h.hdr (s.at w))))) :=
  ⟨_, congrArg Host.Outcome.next ((if_neg hon).trans (if_neg hside))⟩

/-- A heartbeat is what is known of the partner. -/
theorem partnerSeen_heard (h : Heartbeat) (s : State) : (partnerSeen h s).wvl.heard = ({
      present := true, everSeen := true, side := h.hdr.side, role := h.hdr.role, flags := h.flags, gen := h.gen
      digest16 := h.digest16, blvl := h.blvl, epoch := h.hdr.epoch, reserve := h.reserve, ack := h.ack
      heldGen := h.heldGen, heldDigest := h.heldDigest }, true, 0, s.wvl.hbMissed, s.wvl.linkErr) :=
  ite_heard ((raise_heard ..).trans ((report_heard ..).trans ((ledger_heard ..).trans rfl))) rfl

/-- A period without a heartbeat, counted. -/
def missed (s : State) : State :=
  modWvl (fun x => { x with hbPrev := true, hbMissed := tallyInc x.hbMissed, missRun := x.missRun + 1 }) s

theorem exec_heartbeatMiss_seen (w : When) {s : State} (h : s.wvl.hbPrev = true) : exec (.heartbeatMiss w) s = .next (s.at w) := by
  refine congrArg Host.Outcome.next (if_neg ?_)
  rw [show (s.at w).wvl.hbPrev = true from h]
  simp

theorem exec_heartbeatMiss_missed (w : When) {s : State} (hon : s.pair.mode ≠ 0) (h : s.wvl.hbPrev = false) :
    exec (.heartbeatMiss w) s = .next (if 2 ≤ (missed (s.at w)).wvl.missRun && (missed (s.at w)).wvl.partner.present then
      partnerLost (missed (s.at w)) else missed (s.at w)) := by
  refine congrArg Host.Outcome.next (if_pos ?_)
  rw [show (s.at w).wvl.hbPrev = false from h]
  exact (Bool.and_eq_true _ _).mpr ⟨decide_eq_true hon, rfl⟩

theorem copiesLost_heard (s : State) : (copiesLost s).wvl.heard = s.wvl.heard := by
  unfold copiesLost
  exact (foldl_heard (fun s t => modCopy_heard t _ s) _ _).trans rfl

/-- The loss of the partner is all that is heard anew of it. -/
theorem partnerLost_heard (s : State) : (partnerLost s).wvl.heard =
    ({ s.wvl.partner with present := false }, s.wvl.hbSeen, s.wvl.missRun, s.wvl.hbMissed, s.wvl.linkErr) := by
  unfold partnerLost
  have h : (raise .wvl 1 (report 28 0xFF (ledger 0x0A05 0xFFFF [0]
      (modWvl (fun w => { w with partner := { w.partner with present := false } }) s)))).wvl.heard =
      ({ s.wvl.partner with present := false }, s.wvl.hbSeen, s.wvl.missRun, s.wvl.hbMissed, s.wvl.linkErr) :=
    (raise_heard ..).trans ((report_heard ..).trans (ledger_heard ..))
  dsimp only
  split
  · exact (copiesLost_heard _).trans h
  · exact (setRole_heard ..).trans h
  · exact (modWvl_heard (fun _ => rfl) _).trans ((secureEpoch_heard ..).trans h)
  · exact h

theorem exec_laneDown_silent (w : When) {lane : Fin 4} {s : State} (hup : s.wvl.lanesUp.testBit lane.val = true)
    (hlong : s.wvl.laneSeen.getD lane.val 0 + aonMs 1 ≤ max s.aon w.a) :
    exec (.laneDown w lane) s = .next (laneChange lane.val false (s.at w)) :=
  congrArg Host.Outcome.next (if_pos ((Bool.and_eq_true _ _).mpr ⟨hup, decide_eq_true hlong⟩))

theorem exec_laneDown_early (w : When) {lane : Fin 4} {s : State} (h : max s.aon w.a < s.wvl.laneSeen.getD lane.val 0 + aonMs 1) :
    exec (.laneDown w lane) s = .next (s.at w) :=
  congrArg Host.Outcome.next (if_neg fun hc =>
    Nat.not_le.mpr h (of_decide_eq_true ((Bool.and_eq_true _ _).mp hc).2))

theorem laneChange_wvl (lane : Nat) (up : Bool) (s : State) :
    (laneChange lane up s).wvl = { s.wvl with lanesUp := if up then setBit s.wvl.lanesUp lane else clrBit s.wvl.lanesUp lane } :=
  (raise_wvl ..).trans ((report_wvl ..).trans (ledger_wvl ..))

theorem exec_linkFrameDiscard (w : When) (lane : Fin 4) (e : LinkErr) {s : State} (hon : s.pair.mode ≠ 0) :
    exec (.linkFrameDiscard w lane e) s = .next (match e with
      | .ownSide => ownSideFrame (s.at w)
      | .reservedType => modWvl (fun x => { x with linkErr := tallyInc x.linkErr }) (s.at w)
      | .badCrc => modWvl (fun x => { x with linkErr := tallyInc x.linkErr }) (s.at w)) :=
  congrArg Host.Outcome.next (if_neg (not_or.mpr ⟨hon, by omega⟩))

theorem ite_role {a b : State} {n : Nat} {c : Prop} [Decidable c] (ha : a.wvl.role = n) (hb : b.wvl.role = n) :
    (if c then a else b).wvl.role = n := by
  split <;> assumption

theorem raise_role (r : EvtReg) (bit : Nat) (s : State) : (raise r bit s).wvl.role = s.wvl.role :=
  congrArg WvlState.role (raise_wvl r bit s)

theorem ledger_role (code source : Nat) (data : List Nat) (s : State) : (ledger code source data s).wvl.role = s.wvl.role :=
  congrArg WvlState.role (ledger_wvl code source data s)

/-- A role change leaves the new role, whatever it was. -/
theorem setRole_role (new cause : Nat) (s : State) : (setRole new cause s).wvl.role = new := by
  unfold setRole
  dsimp only
  split
  · next h => exact h.symm
  · refine ite_role ((raise_role ..).trans ?_) ?_
    all_goals
      refine (raise_role ..).trans ((ledger_role ..).trans ?_)
      split
      · rfl
      · exact ite_role rfl rfl

theorem mismatch_role (cause : Nat) (s : State) : (mismatch cause s).wvl.role = 5 := setRole_role ..

/-- A frame of the module's own side counts on the link. -/
theorem ownSideFrame_heard (s : State) :
    (ownSideFrame s).wvl.heard = (s.wvl.partner, s.wvl.hbSeen, s.wvl.missRun, s.wvl.hbMissed, tallyInc s.wvl.linkErr) :=
  ite_heard (ite_heard (mismatch_heard ..) rfl) (ite_heard rfl ((ledger_heard ..).trans rfl))

/-- A frame of the module's own side, counted on the link. -/
def ownSideCounted (s : State) : State := modWvl (fun w => { w with linkErr := tallyInc w.linkErr }) s

theorem ownSideFrame_of_role {s : State} (h : s.wvl.role ≠ 0) : ownSideFrame s =
    if (ownSideCounted s).wvl.ownSideNoted then ownSideCounted s
    else ledger 0x0A08 0xFFFF [2] (modWvl (fun w => { w with ownSideNoted := true }) (ownSideCounted s)) :=
  if_neg h

theorem ownSideFrame_of_negotiating {s : State} (h : s.wvl.role = 0) (hphase : s.gen.phase = 6) :
    ownSideFrame s = mismatch 2 (ownSideCounted s) :=
  (if_pos h).trans (if_pos hphase)

theorem ownSideFrame_role {s : State} (h : s.wvl.role ≠ 0) : (ownSideFrame s).wvl.role = s.wvl.role := by
  rw [ownSideFrame_of_role h]
  exact ite_role rfl (ledger_role ..)

theorem ownSideFrame_negotiating {s : State} (h : s.wvl.role = 0) (hphase : s.gen.phase = 6) : (ownSideFrame s).wvl.role = 5 := by
  rw [ownSideFrame_of_negotiating h hphase, mismatch_role]

/-- What was heard, taken apart. -/
theorem heard_parts {x : WvlState} {p : PartnerState} {b : Bool} {i j k : Nat} (h : x.heard = (p, b, i, j, k)) :
    x.partner = p ∧ x.hbSeen = b ∧ x.missRun = i ∧ x.hbMissed = j ∧ x.linkErr = k := by
  simpa [WvlState.heard] using h

/-- A change of the pair's state. -/
theorem modWvl_only (f : WvlState → WvlState) (s : State) : Only [.pair] s (modWvl f s) := by
  refine ⟨rfl, fun p hp => ?_⟩
  cases p
  case pair => exact absurd List.mem_cons_self hp
  all_goals simp [Part.Same]

/-- An operation whose frame lists no part of the time base leaves it. -/
theorem Moves.tmb_eq {P : List Part} {s t : State} (h : Moves P s t) (hr : P.contains .timebase = false)
    (hp : P.contains .pulses = false) (hs : P.contains .snaps = false) (hd : P.contains .delays = false) : t.tmb = s.tmb := by
  have hrest : t.tmb.rest = s.tmb.rest := h.keeps .timebase hr
  obtain ⟨hgens, htpo⟩ := h.keeps .pulses hp
  obtain ⟨hfw, hhost⟩ := h.keeps .snaps hs
  obtain ⟨hmean, ht1, hresp, htwo⟩ := h.keeps .delays hd
  calc t.tmb = { t.tmb.rest with gens := t.tmb.gens, tpo := t.tmb.tpo, snapFw := t.tmb.snapFw, snapHost := t.tmb.snapHost,
                                 meanDelay := t.tmb.meanDelay, pdelayT1 := t.tmb.pdelayT1, pdelayResp := t.tmb.pdelayResp,
                                 twoStep := t.tmb.twoStep } := rfl
    _ = s.tmb := by rw [hrest, hgens, htpo, hfw, hhost, hmean, ht1, hresp, htwo]

/-- An operation whose frame lists neither main memory nor its controller leaves both. -/
theorem Moves.mem_eq {P : List Part} {s t : State} (h : Moves P s t) (hm : P.contains .memory = false)
    (hc : P.contains .memctl = false) : t.mem = s.mem := by
  have hrest : t.mem.rest = s.mem.rest := h.keeps .memctl hc
  have hmem : t.mem.mem = s.mem.mem := h.keeps .memory hm
  calc t.mem = { t.mem.rest with mem := t.mem.mem } := rfl
    _ = s.mem := by rw [hrest, hmem]

theorem wvlAliveAct_firmware (s : State) : wvlAliveAct .firmware s = modWvl (fun w => { w with aliveAt := some s.pcount }) s := rfl

theorem wvlAliveAct_other {who : Agent} (h : isFw who = false) (s : State) : wvlAliveAct who s = s := if_neg (by rw [h]; decide)

/-- Settles O39: what a frame, a missed period or a silent lane sets, by the rules above. -/
theorem heartbeatsAndLanes : Obligations.HeartbeatsAndLanes := by
  unfold Obligations.HeartbeatsAndLanes
  refine ⟨?seen, ?off, ?first, ?lost, ?noted, ?down, ?early, ?crc, ?alive, ?notAlive, ?type, ?own⟩
  case seen =>
    intro w h s hon hside
    obtain ⟨before, hexec⟩ := exec_heartbeatReceived w h hon hside
    have hmoves := exec_moves _ s _ hexec
    obtain ⟨hpartner, hseen, hrun, -, -⟩ := heard_parts ((heartbeatByRole_heard h before _).trans ((unblock_heard _).trans
      (partnerSeen_heard h (frameSeen h.hdr (s.at w)))))
    refine ⟨_, hexec, hmoves.queue, ?_, ?_, ?_, ?_, ?_, ?_, hseen, hrun, hmoves.tmb_eq rfl rfl rfl rfl, hmoves.keeps .firmware rfl⟩
    all_goals rw [hpartner]
  case off => exact fun w h s hoff => ⟨_, exec_heartbeatReceived_off w h hoff, at_only w s Covers.rfl⟩
  case first =>
    intro w s hon hprev hrun
    have hone : (missed (s.at w)).wvl.missRun = 1 := congrArg (· + 1) hrun
    have hexec := exec_heartbeatMiss_missed w hon hprev
    rw [hone] at hexec
    exact ⟨_, hexec, .after (modWvl_only _ _) (at_only w s (Covers.rfl.trans rfl)), rfl, hone, rfl, rfl, rfl⟩
  case lost =>
    intro w s hon hpresent hprev hrun
    have hexec := exec_heartbeatMiss_missed w hon hprev
    have hmoves := exec_moves _ s _ hexec
    have hcond : (2 ≤ (missed (s.at w)).wvl.missRun && (missed (s.at w)).wvl.partner.present) = true :=
      (Bool.and_eq_true _ _).mpr ⟨decide_eq_true (Nat.succ_le_succ hrun), hpresent⟩
    rw [if_pos hcond] at hexec hmoves
    obtain ⟨hpartner, -, hcount, hmissed, -⟩ := heard_parts (partnerLost_heard (missed (s.at w)))
    exact ⟨_, hexec, hmoves.queue, hmissed, hcount, by rw [hpartner], hmoves.mem_eq rfl rfl⟩
  case noted => exact fun w s h => ⟨_, exec_heartbeatMiss_seen w h, at_only w s Covers.rfl⟩
  case down =>
    intro w lane s hup hlong
    have hexec := exec_laneDown_silent w hup hlong
    refine ⟨_, hexec, (exec_moves _ s _ hexec).only, ?_⟩
    rw [laneChange_wvl]
    exact ⟨rfl, rfl⟩
  case early => exact fun w lane s h => ⟨_, exec_laneDown_early w h, at_only w s Covers.rfl⟩
  case crc =>
    exact fun w lane s hon => ⟨_, exec_linkFrameDiscard w lane .badCrc hon, .after (modWvl_only _ _) (at_only w s (Covers.rfl.trans rfl)),
      rfl, rfl, rfl⟩
  case alive =>
    exact fun w s hgrant => ⟨_, answers_granted (w := w) rfl hgrant (wvlAliveAct_firmware _),
      .after (modWvl_only _ _) (at_only w s (Covers.rfl.trans rfl)), rfl, rfl⟩
  case notAlive =>
    exact fun w who s hwho hgrant => ⟨_, answers_granted (w := w) rfl hgrant (wvlAliveAct_other hwho _), at_only w s Covers.rfl⟩
  case type =>
    exact fun w lane s hon => ⟨_, exec_linkFrameDiscard w lane .reservedType hon, .after (modWvl_only _ _) (at_only w s (Covers.rfl.trans rfl)),
      rfl, rfl, rfl⟩
  case own =>
    intro w lane s hon
    have hexec := exec_linkFrameDiscard w lane .ownSide hon
    obtain ⟨-, -, -, -, herr⟩ := heard_parts (ownSideFrame_heard (s.at w))
    exact ⟨_, hexec, (exec_moves _ s _ hexec).queue, herr, fun h => ownSideFrame_role (s := s.at w) h,
      fun h hphase => .inr (ownSideFrame_negotiating (s := s.at w) h hphase)⟩

end Sys2Proof.Machine

/-! Hand-over, relinquishment and takeover (R270 to R275). -/

namespace Sys2Proof.Machine

set_option Elab.async false

open Sys2Proof

/-! ### The duty of a module -/

/-- What a module is and what it has ahead: role and side, the last change's cause, the hand-over, the takeover, the yielding. -/
structure Duty where
  role : Nat
  side : Nat
  lastCause : Nat
  handover : Option Handover
  takeAt : Option Takeover
  yielding : Bool
  takeovers : Nat

/-- The duty that the pair's registers hold. -/
def WvlState.duty (x : WvlState) : Duty :=
  { role := x.role, side := x.side, lastCause := x.lastCause, handover := x.handover, takeAt := x.takeAt, yielding := x.yielding,
    takeovers := x.takeovers }

theorem Moves.duty_eq {P : List Part} {s t : State} (h : Moves P s t) (hp : P.contains .pair = false) : t.wvl.duty = s.wvl.duty :=
  congrArg WvlState.duty (h.keeps .pair hp)

theorem ite_duty {a b : State} {d : Duty} {c : Prop} [Decidable c] (ha : a.wvl.duty = d) (hb : b.wvl.duty = d) :
    (if c then a else b).wvl.duty = d := by
  split <;> assumption

theorem raise_duty (r : EvtReg) (bit : Nat) (s : State) : (raise r bit s).wvl.duty = s.wvl.duty :=
  congrArg WvlState.duty (raise_wvl r bit s)

theorem ledger_duty (code source : Nat) (data : List Nat) (s : State) : (ledger code source data s).wvl.duty = s.wvl.duty :=
  congrArg WvlState.duty (ledger_wvl code source data s)

theorem modTask_duty (t : Nat) (f : TaskState → TaskState) (s : State) : (modTask t f s).wvl.duty = s.wvl.duty := rfl

theorem modWvl_duty {f : WvlState → WvlState} (hf : ∀ x, (f x).duty = x.duty) (s : State) : (modWvl f s).wvl.duty = s.wvl.duty :=
  hf s.wvl

theorem foldl_duty {α : Type} {f : State → α → State} (hf : ∀ s x, (f s x).wvl.duty = s.wvl.duty) (l : List α) (s : State) :
    (l.foldl f s).wvl.duty = s.wvl.duty :=
  foldl_same (·.wvl.duty) hf l s

theorem notCurrent_duty (t : Nat) (s : State) : (notCurrent t s).wvl.duty = s.wvl.duty :=
  (raise_duty ..).trans (modWvl_duty (fun _ => rfl) s)

theorem underReseed_duty (t : Nat) (s : State) : (underReseed t s).wvl.duty = s.wvl.duty :=
  (notCurrent_duty t _).trans (modWvl_duty (fun _ => rfl) s)

theorem initImages_duty (g : Generation) (t : Nat) (out : PointCfg → Nat) (s : State) : (initImages g t out s).wvl.duty = s.wvl.duty :=
  (initImages_moves g t out Covers.rfl (.refl _ s)).duty_eq rfl

/-- Entering SYNCING starts the copies anew and leaves the duty. -/
theorem enterSync_duty (s : State) : (enterSync s).wvl.duty = s.wvl.duty := by
  unfold enterSync
  have h := (foldl_duty (fun s t => (underReseed_duty t _).trans (modTask_duty t (fun x => { x with
    state := 0, frozen := false, localSets := [], gen := (s.taskGen t).gen }) s))
    (modWvl (fun w => { w with copies := List.replicate 16 {} }) s).myTasks
    (modWvl (fun w => { w with copies := List.replicate 16 {} }) s)).trans (modWvl_duty (fun _ => rfl) s)
  exact ite_duty ((foldl_duty (fun s t => initImages_duty _ t _ s) _ _).trans h) h

theorem setEpoch_duty (e : Nat) (s : State) : (setEpoch e s).wvl.duty = s.wvl.duty :=
  ite_duty (modWvl_duty (fun _ => rfl) s) ((raise_duty ..).trans ((ledger_duty ..).trans (modWvl_duty (fun _ => rfl) s)))

theorem raiseReserve_duty (v : Nat) (s : State) : (raiseReserve v s).wvl.duty = s.wvl.duty :=
  (raiseReserve_moves v Covers.rfl (.refl _ s)).duty_eq rfl

theorem reserveFailed_duty (s : State) : (reserveFailed s).wvl.duty = s.wvl.duty :=
  (raise_duty ..).trans ((ledger_duty ..).trans (modWvl_duty (fun _ => rfl) s))

theorem secureEpoch_duty (v : Nat) (s : State) : (secureEpoch v s).wvl.duty = s.wvl.duty :=
  ite_duty ((setEpoch_duty ..).trans (reserveFailed_duty s))
    (ite_duty ((raiseReserve_duty ..).trans ((modWvl_duty (fun _ => rfl) _).trans (modWvl_duty (fun _ => rfl) s)))
      ((raiseReserve_duty ..).trans ((setEpoch_duty ..).trans (modWvl_duty (fun _ => rfl) s))))

theorem laneChange_duty (lane : Nat) (up : Bool) (s : State) : (laneChange lane up s).wvl.duty = s.wvl.duty := by
  rw [laneChange_wvl]
  rfl

theorem linkSend_duty (msg : Nat) (data : List Nat) (s : State) : (linkSend msg data s).wvl.duty = s.wvl.duty := ite_duty rfl rfl

theorem linkSendAll_duty (msg : Nat) (data : List Nat) (s : State) : (linkSendAll msg data s).wvl.duty = s.wvl.duty := ite_duty rfl rfl

/-- A change from one role to another notes the role and its cause. -/
theorem setRole_duty {new cause : Nat} {s : State} (h : new ≠ s.wvl.role) :
    (setRole new cause s).wvl.duty = { s.wvl.duty with role := new, lastCause := cause } := by
  unfold setRole
  dsimp only
  rw [if_neg h]
  refine ite_duty ((raise_duty ..).trans ?_) ?_
  all_goals
    refine (raise_duty ..).trans ((ledger_duty ..).trans ?_)
    split
    · rfl
    · exact ite_duty rfl rfl

/-! ### A frame of the partner -/

/-- A frame's lane is up. -/
def laneHeard (h : LinkHdr) (s : State) : State :=
  let s := modWvl (fun w => { w with laneSeen := putAt w.laneSeen h.lane.val s.aon }) s
  if s.wvl.lanesUp.testBit h.lane.val then s else laneChange h.lane.val true s

/-- A primary that hears of a newer one yields. -/
def yieldHeard (newer : Bool) (h : LinkHdr) (s : State) : State :=
  when (newer && s.primary && decide (h.role = 1))
    (modWvl fun w => { w with yielding := true, yieldAt := if w.yielding then w.yieldAt else s.pcount + 1 }) s

theorem frameSeen_eq (h : LinkHdr) (s : State) : ∃ newer, frameSeen h s =
    when (newer && decide ((yieldHeard newer h (laneHeard h s)).trd.mode = 4)) fioStandby (yieldHeard newer h (laneHeard h s)) :=
  ⟨_, rfl⟩

theorem laneHeard_duty (h : LinkHdr) (s : State) : (laneHeard h s).wvl.duty = s.wvl.duty :=
  ite_duty (modWvl_duty (fun _ => rfl) s) ((laneChange_duty ..).trans (modWvl_duty (fun _ => rfl) s))

theorem yieldHeard_wvl (newer : Bool) (h : LinkHdr) (s : State) :
    ∃ y n, (yieldHeard newer h s).wvl = { s.wvl with yielding := y, yieldAt := n } := by
  unfold yieldHeard when
  split
  · exact ⟨_, _, rfl⟩
  · exact ⟨s.wvl.yielding, s.wvl.yieldAt, rfl⟩

theorem frameSeen_wvl (h : LinkHdr) (s : State) : ∃ y n, (frameSeen h s).wvl = { (laneHeard h s).wvl with yielding := y, yieldAt := n } := by
  obtain ⟨newer, heq⟩ := frameSeen_eq h s
  obtain ⟨y, n, hy⟩ := yieldHeard_wvl newer h (laneHeard h s)
  refine ⟨y, n, ?_⟩
  rw [heq, ← hy]
  unfold when
  split
  · exact (fioStandby_moves Covers.rfl (.refl _ (yieldHeard newer h (laneHeard h s)))).keeps .pair rfl
  · rfl

/-- A valid frame tells only of yielding. -/
theorem frameSeen_duty (h : LinkHdr) (s : State) : ∃ y, (frameSeen h s).wvl.duty = { s.wvl.duty with yielding := y } := by
  obtain ⟨y, n, hy⟩ := frameSeen_wvl h s
  refine ⟨y, ?_⟩
  rw [hy, ← laneHeard_duty h s]
  rfl

/-- A valid frame leaves time, the period count and the followers. -/
theorem frameSeen_clock (h : LinkHdr) (s : State) : Part.time.Same s (frameSeen h s) ∧ Part.count.Same s (frameSeen h s) :=
  have hm : Moves _ s (frameSeen h s) := frameSeen_moves h Covers.rfl (.refl _ s)
  ⟨hm.keeps .time rfl, hm.keeps .count rfl⟩

theorem setBit_ne_zero (m t : Nat) : setBit m t ≠ 0 := by
  unfold setBit
  split
  · next h => intro h0; rw [h0] at h; simp at h
  · have := Nat.two_pow_pos t; omega

theorem laneHeard_lanesUp (h : LinkHdr) (s : State) : (laneHeard h s).wvl.lanesUp ≠ 0 := by
  unfold laneHeard
  dsimp only
  split
  · next hup =>
    intro h0
    rw [h0, Nat.zero_testBit] at hup
    exact Bool.noConfusion hup
  · rw [laneChange_wvl]
    exact fun h0 => setBit_ne_zero _ _ h0

/-- The lane of a valid frame is up. -/
theorem frameSeen_lanesUp (h : LinkHdr) (s : State) : (frameSeen h s).wvl.lanesUp ≠ 0 := by
  obtain ⟨y, n, hy⟩ := frameSeen_wvl h s
  rw [hy]
  exact laneHeard_lanesUp h s

/-! ### A module leaves PRIMARY, and becomes it -/

/-- The outputs of a module that leaves PRIMARY, its role changed. -/
def steppedDown (cause : Nat) (s : State) : State :=
  let s := resetStations (setRole 2 cause (dropHandover s))
  disarmDo (if s.trd.mode = 4 then s else fioStandby s)

theorem steppedDown_duty (cause : Nat) {s : State} (h : s.wvl.role = 1) :
    (steppedDown cause s).wvl.duty = { s.wvl.duty with role := 2, lastCause := cause } := by
  have hdrop : (dropHandover s).wvl = s.wvl := (dropHandover_moves Covers.rfl (.refl _ s)).keeps .pair rfl
  have hrole : (setRole 2 cause (dropHandover s)).wvl.duty = { s.wvl.duty with role := 2, lastCause := cause } := by
    rw [setRole_duty (by rw [hdrop, h]; decide), hdrop]
  let a := resetStations (setRole 2 cause (dropHandover s))
  have ha : a.wvl.duty = { s.wvl.duty with role := 2, lastCause := cause } :=
    ((resetStations_moves Covers.rfl (.refl _ (setRole 2 cause (dropHandover s)))).duty_eq rfl).trans hrole
  have hstand : (if a.trd.mode = 4 then a else fioStandby a).wvl.duty = { s.wvl.duty with role := 2, lastCause := cause } :=
    ite_duty ha (((fioStandby_moves Covers.rfl (.refl _ a)).duty_eq rfl).trans ha)
  exact ((disarmDo_moves Covers.rfl (.refl _ _)).duty_eq rfl).trans hstand

theorem leavePrimary_eq (cause : Nat) (s : State) : leavePrimary cause s = leftPrimary (enterSync (modWvl (fun w => { w with
    handover := none, takeAt := none, yielding := false, epochNext := none, epochWait := false }) (steppedDown cause s))) := rfl

/-- A module that leaves PRIMARY is SYNCING by the cause, with nothing ahead. -/
theorem leavePrimary_duty (cause : Nat) {s : State} (h : s.wvl.role = 1) : (leavePrimary cause s).wvl.duty =
    { s.wvl.duty with role := 2, lastCause := cause, handover := none, takeAt := none, yielding := false } := by
  rw [leavePrimary_eq]
  refine ((leftPrimary_moves Covers.rfl (.refl _ (enterSync _))).duty_eq rfl).trans ((enterSync_duty _).trans ?_)
  have hd := steppedDown_duty cause h
  show ({ (steppedDown cause s).wvl.duty with handover := none, takeAt := none, yielding := false } : Duty) = _
  rw [hd]

theorem swapAtChange_duty (s : State) : (swapAtChange s).wvl.duty = s.wvl.duty := (swapAtChange_moves Covers.rfl (.refl _ s)).duty_eq rfl

theorem restartAtH_duty (now : Bool) (s : State) : (restartAtH now s).wvl.duty = s.wvl.duty := rfl

/-- Leaving PRIMARY at a strobe, with the swaps that fall on it and the restart that waited. -/
theorem leaveAtStrobe_duty (cause : Nat) {s : State} (h : s.wvl.role = 1) :
    (restartAtH true (swapAtChange (leavePrimary cause s))).wvl.duty =
      { s.wvl.duty with role := 2, lastCause := cause, handover := none, takeAt := none, yielding := false } :=
  (restartAtH_duty ..).trans ((swapAtChange_duty _).trans (leavePrimary_duty cause h))

theorem primaryCommon_duty (s : State) :
    (primaryCommon s).wvl.duty = { s.wvl.duty with handover := none, takeAt := none, yielding := false } := by
  let s1 := modWvl (fun w => { w with
    handover := none, takeAt := none, yielding := false, notCurrent := 0, reseed := 0, copies := List.replicate 16 {} }) s
  exact ((endDebug_moves 2 Covers.rfl (.refl _ (fioPrimary (resetStations s1)))).duty_eq rfl).trans
      (((fioPrimary_moves Covers.rfl (.refl _ (resetStations s1))).duty_eq rfl).trans
        ((resetStations_moves Covers.rfl (.refl _ s1)).duty_eq rfl))

theorem loadEpoch_duty (s : State) : (loadEpoch s).wvl.duty = s.wvl.duty := secureEpoch_duty _ s

theorem takeTask_duty (t : Nat) (s : State) : (takeTask t s).wvl.duty = s.wvl.duty := (takeTask_moves t Covers.rfl (.refl _ s)).duty_eq rfl

theorem applyLocal_duty (p : Nat × Nat) (s : State) : (applyLocal p s).wvl.duty = s.wvl.duty :=
  (applyLocal_moves p Covers.rfl (.refl _ s)).duty_eq rfl

theorem startTask_duty (t tp count : Nat) (s : State) : (startTask t tp count s).wvl.duty = s.wvl.duty :=
  (startTask_moves t tp count Covers.rfl (.refl _ s)).duty_eq rfl

theorem fixA_duty (s : State) : (fixA s).wvl.duty = s.wvl.duty :=
  ((endStore_moves Covers.rfl (.refl _ (linkSend 0x63 _ _))).duty_eq rfl).trans (linkSend_duty ..)

theorem maybeFixA_duty (s : State) : (maybeFixA s).wvl.duty = s.wvl.duty := ite_duty (fixA_duty s) rfl

/-- The tasks of a module that takes over, before the role is its own. -/
def takenTasks (k : Takeover) (s : State) : State :=
  let s := if k.loaded then s else loadEpoch s
  let tasks := s.myTasks
  let s := tasks.foldl (fun s t => takeTask t s) s
  tasks.foldl (fun s t => modTask t (fun x => { x with state := 0, frozen := false, localSets := [], skipAt := none, consec := 0 }) s) s

theorem takenTasks_duty (k : Takeover) (s : State) : (takenTasks k s).wvl.duty = s.wvl.duty :=
  (foldl_duty (fun s t => modTask_duty t _ s) _ _).trans
    ((foldl_duty (fun s t => takeTask_duty t s) _ _).trans (ite_duty rfl (loadEpoch_duty s)))

/-- The role taken, its gap noted. -/
def roleTaken (k : Takeover) (s : State) : State :=
  let s := setRole 1 k.cause s
  let gap := (s.pcount - s.wvl.lastHbStrobe) * 125
  modWvl (fun w => { w with takeovers := tallyInc w.takeovers, gapMax := if k.cause = 1 then max w.gapMax gap else w.gapMax }) s

theorem roleTaken_duty (k : Takeover) {s : State} (h : s.wvl.role ≠ 1) : (roleTaken k s).wvl.duty =
    { s.wvl.duty with role := 1, lastCause := k.cause, takeovers := tallyInc s.wvl.takeovers } := by
  have hd := setRole_duty (cause := k.cause) (s := s) (Ne.symm h)
  show ({ (setRole 1 k.cause s).wvl.duty with takeovers := tallyInc (setRole 1 k.cause s).wvl.duty.takeovers } : Duty) = _
  rw [hd]
  rfl

/-- The first outputs of a new primary, its retained round and its delta. -/
def firstOutputs (tasks : List Nat) (s : State) : State :=
  maybeFixA (startRound (tasks.foldl (fun s t => (s.localValues t).foldl (fun s p => applyLocal p s) s) s))

theorem firstOutputs_duty (tasks : List Nat) (s : State) : (firstOutputs tasks s).wvl.duty = s.wvl.duty :=
  (maybeFixA_duty _).trans (((startRound_moves Covers.rfl (.refl _ (tasks.foldl (fun s t =>
    (s.localValues t).foldl (fun s p => applyLocal p s) s) s))).duty_eq rfl).trans
      (foldl_duty (fun s _ => foldl_duty (fun s p => applyLocal_duty p s) _ s) tasks s))

/-- The cycles that start at the strobe of a takeover. -/
def firstCycles (s : State) : State :=
  drainPorts (s.taskOrder.foldl (fun s t => startTask t (s.pcount * ticksPerPeriod) s.pcount s) s)

theorem firstCycles_duty (s : State) : (firstCycles s).wvl.duty = s.wvl.duty :=
  ((drainPorts_moves Covers.rfl (.refl _ (s.taskOrder.foldl (fun s t => startTask t (s.pcount * ticksPerPeriod) s.pcount s) s))).duty_eq
    rfl).trans (foldl_duty (fun s t => startTask_duty t _ _ s) _ s)

theorem takeOver_eq (k : Takeover) (s : State) :
    ∃ tasks, takeOver k s = firstCycles (firstOutputs tasks (primaryCommon (roleTaken k (takenTasks k s)))) := ⟨_, rfl⟩

theorem takeOver_duty (k : Takeover) {s : State} (h : s.wvl.role ≠ 1) : (takeOver k s).wvl.duty =
    { s.wvl.duty with role := 1, lastCause := k.cause, takeovers := tallyInc s.wvl.takeovers, handover := none, takeAt := none, yielding := false } := by
  obtain ⟨tasks, heq⟩ := takeOver_eq k s
  have hd := takenTasks_duty k s
  have hrole : (takenTasks k s).wvl.role = s.wvl.role := by
    show (takenTasks k s).wvl.duty.role = s.wvl.duty.role
    rw [hd]
  have htake : (takenTasks k s).wvl.takeovers = s.wvl.takeovers := by
    show (takenTasks k s).wvl.duty.takeovers = s.wvl.duty.takeovers
    rw [hd]
  rw [heq, firstCycles_duty, firstOutputs_duty, primaryCommon_duty, roleTaken_duty k (by rw [hrole]; exact h), hd, htake]

theorem Moves.running_eq {P : List Part} {s t : State} (h : Moves P s t) (hp : P.contains .sequencer = false) :
    t.seq.running = s.seq.running := by
  have hrest : t.seq.rest = s.seq.rest := h.keeps .sequencer hp
  exact (show t.seq.rest.running = s.seq.rest.running by rw [hrest])

theorem ite_running {a b : State} {r : Bool} {c : Prop} [Decidable c] (ha : a.seq.running = r) (hb : b.seq.running = r) :
    (if c then a else b).seq.running = r := by
  split <;> assumption

/-- A retained round does not stop the sequencer. -/
theorem startRound_running (s : State) : (startRound s).seq.running = s.seq.running := by
  unfold startRound
  refine ite_running rfl (ite_running ((hwSet_moves _ _ _ Covers.rfl (.refl _ _)).running_eq rfl) ?_)
  have hr : (shadowMay s.cfg.cur.insts.shadowUnit false s).2.seq.running = s.seq.running :=
    (shadowMay_moves _ _ Covers.rfl (.refl _ s)).running_eq rfl
  have hw : (shadowMay s.cfg.cur.insts.shadowUnit true (shadowMay s.cfg.cur.insts.shadowUnit false s).2).2.seq.running = s.seq.running :=
    ((shadowMay_moves _ _ Covers.rfl (.refl _ _)).running_eq rfl).trans hr
  exact ite_running (((queueJob_moves _ Covers.rfl (.refl _ _)).running_eq rfl).trans hw) hw

theorem foldl_running {α : Type} {f : State → α → State} (hf : ∀ s x, (f s x).seq.running = s.seq.running) (l : List α) (s : State) :
    (l.foldl f s).seq.running = s.seq.running :=
  foldl_same (·.seq.running) hf l s

theorem firstOutputs_running (tasks : List Nat) (s : State) : (firstOutputs tasks s).seq.running = s.seq.running :=
  ((maybeFixA_moves Covers.rfl (.refl _ (startRound _))).running_eq rfl).trans ((startRound_running _).trans
    (foldl_running (fun s _ => foldl_running (fun s p => (applyLocal_moves p Covers.rfl (.refl _ s)).running_eq rfl) _ s) tasks s))

theorem startTask_running (t tp count : Nat) (s : State) : (startTask t tp count s).seq.running = s.seq.running :=
  (startTask_moves t tp count Covers.rfl (.refl _ s)).running_eq rfl

theorem firstCycles_running (s : State) : (firstCycles s).seq.running = s.seq.running := by
  have hstarts := foldl_running (fun s t => startTask_running t (s.pcount * ticksPerPeriod) s.pcount s) s.taskOrder s
  have hdrain : ∀ u : State, (drainPorts u).seq.running = u.seq.running := fun u =>
    (drainPorts_moves Covers.rfl (.refl _ u)).running_eq rfl
  rw [firstCycles, hdrain, hstarts]

/-- A module that has taken over runs its tasks. -/
theorem takeOver_running (k : Takeover) (s : State) : (takeOver k s).seq.running = true := by
  obtain ⟨tasks, heq⟩ := takeOver_eq k s
  rw [heq, firstCycles_running, firstOutputs_running]
  rfl

/-! ### The commands -/

/-- What a duty shows, taken apart. -/
theorem duty_parts {x : WvlState} {d : Duty} (h : x.duty = d) : x.role = d.role ∧ x.side = d.side ∧ x.lastCause = d.lastCause
    ∧ x.handover = d.handover ∧ x.takeAt = d.takeAt ∧ x.yielding = d.yielding ∧ x.takeovers = d.takeovers := by
  rw [← h]
  exact ⟨rfl, rfl, rfl, rfl, rfl, rfl, rfl⟩

theorem linkIn_frame (h : LinkHdr) (f : State → State) {s : State} (hon : s.pair.mode ≠ 0) (hside : h.side ≠ s.wvl.side) :
    linkIn h f s = f (frameSeen h s) :=
  (if_neg hon).trans (if_neg hside)

theorem exec_handoverAnnounce_due (w : When) {x : Handover} {s : State} (hx : s.wvl.handover = some x) (hprimary : s.primary = true)
    (htest : s.handoverTest x = true) (hreply : x.reply = none) : exec (.handoverAnnounce w) s =
      .next (linkSend 5 (two (s.pcount + 2) ++ [x.cause])
        (modWvl (fun y => { y with handover := some { x with h := some (s.pcount + 2) } }) (s.at w))) := by
  have hx' : (s.at w).wvl.handover = some x := hx
  have hcond : ((s.at w).primary && (s.at w).handoverTest x) = true := (Bool.and_eq_true _ _).mpr ⟨hprimary, htest⟩
  show execHandoverAnnounce w s = _
  unfold execHandoverAnnounce
  simp only [hx', hcond, if_true, hreply]
  rfl

theorem exec_handoverAnnounce_none (w : When) {s : State} (h : s.wvl.handover = none) :
    exec (.handoverAnnounce w) s = .next (s.at w) := by
  show execHandoverAnnounce w s = _
  unfold execHandoverAnnounce
  simp only [show (s.at w).wvl.handover = none from h]

theorem exec_handoverStrobe (w : When) {x : Handover} {hs : Nat} {s : State} (hx : s.wvl.handover = some x) (hprimary : s.primary = true)
    (hh : x.h = some hs) (hdue : hs ≤ s.pcount) : exec (.handoverStrobe w) s = .next (
      if x.acked then restartAtH true (swapAtChange (leavePrimary x.cause (when (!x.forced) (raise .wvl 6) (s.at w))))
      else restartAtH false (raise .wvl 6 (ledger 0x0A09 0xFFFF [] (modWvl (fun y => { y with handover := none }) (s.at w))))) := by
  have hx' : (s.at w).wvl.handover = some x := hx
  have hdue' : hs ≤ (s.at w).pcount := hdue
  have hp : (s.at w).primary = true := hprimary
  show execHandoverStrobe w s = _
  unfold execHandoverStrobe
  simp only [hx', hh, hp, hdue', decide_true, Bool.and_self, if_true]
  split <;> rfl

theorem exec_takeover (w : When) {k : Takeover} {s : State} (hk : s.wvl.takeAt = some k) :
    exec (.takeover w) s = .next (if s.wvl.role = 3 ∧ k.count ≤ s.pcount then takeOver k (s.at w) else s.at w) := by
  have hk' : (s.at w).wvl.takeAt = some k := hk
  show execTakeover w s = _
  unfold execTakeover
  simp only [hk']
  rfl

theorem exec_yieldToPartner_due (w : When) {s : State} (hprimary : s.primary = true) (hyield : s.wvl.yielding = true)
    (hdue : s.wvl.yieldAt ≤ s.pcount) :
    exec (.yieldToPartner w) s = .next (restartAtH true (swapAtChange (leavePrimary 8 (s.at w)))) :=
  congrArg Host.Outcome.next (if_pos ((Bool.and_eq_true _ _).mpr ⟨(Bool.and_eq_true _ _).mpr ⟨hprimary, hyield⟩, decide_eq_true hdue⟩))

theorem exec_yieldToPartner_early (w : When) {s : State} (h : s.wvl.yielding = false ∨ s.pcount < s.wvl.yieldAt) :
    exec (.yieldToPartner w) s = .next (s.at w) := by
  refine congrArg Host.Outcome.next (if_neg fun hc => ?_)
  obtain ⟨hpy, hdue⟩ := (Bool.and_eq_true _ _).mp hc
  obtain ⟨-, hyield⟩ := (Bool.and_eq_true _ _).mp hpy
  rcases h with h | h
  · exact absurd (h.symm.trans hyield) Bool.false_ne_true
  · exact Nat.not_le.mpr h (of_decide_eq_true hdue)

theorem wvlHandoverAct_request {s : State} (h : s.canHandOver = true) : wvlHandoverAct .firmware s = requestHandover 3 none s :=
  if_pos ((Bool.and_eq_true _ _).mpr ⟨rfl, h⟩)

theorem wvlHandoverAct_ignored {s : State} (h : s.canHandOver = false) : wvlHandoverAct .firmware s = s :=
  if_neg (by rw [h, Bool.and_false]; exact Bool.false_ne_true)

theorem soonStrobe_congr {s t : State} (h : t.islandTime linkIsland = s.islandTime linkIsland) : t.soonStrobe = s.soonStrobe := by
  unfold State.soonStrobe
  rw [h]

theorem frameSeen_soonStrobe (h : LinkHdr) (s : State) : (frameSeen h s).soonStrobe = s.soonStrobe := by
  obtain ⟨⟨hnow, haon, -⟩, -, hfollowers, -⟩ := frameSeen_clock h s
  exact soonStrobe_congr (islandTime_congr hnow haon hfollowers linkIsland)

theorem prepareTake_standby (count cause : Nat) {s : State} (h : s.wvl.role = 3) :
    prepareTake count cause s = modWvl (fun w => { w with takeAt := some { count := count, cause := cause } }) s :=
  if_pos h

theorem linkSend_up (msg : Nat) (data : List Nat) {s : State} (h : s.wvl.lanesUp ≠ 0) : linkSend msg data s =
    emit (.link (s.linkHdr msg (spreadLane s.wvl.lanesUp s.wvl.lseq) (4 * data.length)) data) (nextLseq (4 * data.length) s) :=
  if_neg h

/-- A hand-over that is abandoned at H, behind its record. -/
theorem abandoned_wvl (s : State) : (restartAtH false (raise .wvl 6 (ledger 0x0A09 0xFFFF [] s))).wvl = s.wvl :=
  (raise_wvl ..).trans (ledger_wvl ..)

theorem abandoned_keeps (s : State) : (restartAtH false (raise .wvl 6 (ledger 0x0A09 0xFFFF [] s))).prt = s.prt
    ∧ (restartAtH false (raise .wvl 6 (ledger 0x0A09 0xFFFF [] s))).fio = s.fio
    ∧ (restartAtH false (raise .wvl 6 (ledger 0x0A09 0xFFFF [] s))).seq = s.seq :=
  ⟨(raise_prt ..).trans (ledger_prt ..), (raise_fio ..).trans (ledger_fio ..), (raise_seq ..).trans (ledger_seq ..)⟩

/-- A takeover set ahead leaves the role. -/
theorem takeSet_role (k : Takeover) (s : State) : (modWvl (fun x => { x with takeAt := some k }) s).wvl.role = s.wvl.role := rfl

/-- A hand-over that is acknowledged leaves the role. -/
theorem handSet_role (x : Handover) (s : State) : (modWvl (fun y => { y with handover := some x }) s).wvl.role = s.wvl.role := rfl

/-- What an acknowledgement does to the hand-over under way. -/
def ackTaken (hs : Nat) (s : State) : State :=
  match s.wvl.handover with
  | some x => if x.h = some hs ∧ s.pcount + 1 < hs then modWvl (fun y => { y with handover := some { x with acked := true } }) s else s
  | none => s

theorem exec_handoverAckReceived (w : When) (h : LinkHdr) (hs : Nat) {s : State} (hon : s.pair.mode ≠ 0) (hside : h.side ≠ s.wvl.side) :
    exec (.handoverAckReceived w h hs) s = .next (ackTaken hs (frameSeen h (s.at w))) :=
  congrArg Host.Outcome.next (linkIn_frame h (ackTaken hs) (s := s.at w) hon hside)

theorem ackTaken_inTime {x : Handover} {hs : Nat} {s : State} (hx : s.wvl.handover = some x) (hh : x.h = some hs) (hearly : s.pcount + 1 < hs) :
    ackTaken hs s = modWvl (fun y => { y with handover := some { x with acked := true } }) s := by
  simp only [ackTaken, hx]
  exact if_pos ⟨hh, hearly⟩

theorem exec_relinquishReceived (w : When) (h : LinkHdr) (hs : Nat) {s : State} (hon : s.pair.mode ≠ 0) (hside : h.side ≠ s.wvl.side) :
    exec (.relinquishReceived w h hs) s = .next (prepareTake (max hs (frameSeen h (s.at w)).soonStrobe) 2 (frameSeen h (s.at w))) :=
  congrArg Host.Outcome.next (linkIn_frame h (fun s => prepareTake (max hs s.soonStrobe) 2 s) (s := s.at w) hon hside)

/-- A STANDBY module acknowledges a hand-over and prepares for it. -/
def handoverTaken (m : HandoverMsg) (s : State) : State :=
  if s.wvl.role = 3 then prepareTake m.h m.cause (linkSend 6 (two m.h) s) else s

theorem exec_handoverReceived (w : When) (h : LinkHdr) (m : HandoverMsg) {s : State} (hon : s.pair.mode ≠ 0) (hside : h.side ≠ s.wvl.side) :
    exec (.handoverReceived w h m) s = .next (handoverTaken m (frameSeen h (s.at w))) :=
  congrArg Host.Outcome.next (linkIn_frame h (handoverTaken m) (s := s.at w) hon hside)

theorem handoverTaken_standby (m : HandoverMsg) {s : State} (hrole : s.wvl.role = 3) (hup : s.wvl.lanesUp ≠ 0) :
    (handoverTaken m s).wvl.takeAt = some { count := m.h, cause := m.cause } ∧ (handoverTaken m s).wvl.role = 3
      ∧ (handoverTaken m s).out.head?.bind Out.linkFrame = some (6, s.wvl.side, 3, two m.h) := by
  obtain ⟨hkept, -⟩ := duty_parts (linkSend_duty 6 (two m.h) s)
  rw [handoverTaken, if_pos hrole, prepareTake_standby _ _ (Eq.trans hkept hrole)]
  refine ⟨rfl, Eq.trans hkept hrole, ?_⟩
  rw [linkSend_up 6 (two m.h) hup]
  exact congrArg (fun r => some (6, s.wvl.side, r, two m.h)) hrole

/-- Settles O41: each command's duty, by the rules above. -/
theorem handOverAndTakeOver : Obligations.HandOverAndTakeOver := by
  unfold Obligations.HandOverAndTakeOver
  refine ⟨?announce, ?nothing, ?ack, ?handedOver, ?abandoned, ?relinquish, ?handover, ?takes, ?notYet, ?yields, ?stays, ?asked, ?ignored⟩
  case announce =>
    intro w x s hx hprimary htest hreply
    refine ⟨_, exec_handoverAnnounce_due w hx hprimary htest hreply, .after (linkSend_moves _ _ Covers.rfl (.refl _ _)).only
      (.after (modWvl_only _ _) (at_only w s (Covers.rfl.trans rfl))), ?_⟩
    obtain ⟨hrole, -, -, hhand, -⟩ := duty_parts (linkSend_duty 5 (two (s.pcount + 2) ++ [x.cause])
      (modWvl (fun y => { y with handover := some { x with h := some (s.pcount + 2) } }) (s.at w)))
    exact ⟨hhand, hrole.trans (primary_iff.mp hprimary)⟩
  case nothing => exact fun w s h => ⟨_, exec_handoverAnnounce_none w h, at_only w s Covers.rfl⟩
  case ack =>
    intro w h hs x s hon hside hx hh hearly
    obtain ⟨y, hy⟩ := frameSeen_duty h (s.at w)
    obtain ⟨hrole, -, -, hhand, -⟩ := duty_parts hy
    obtain ⟨-, hpcount, -⟩ := frameSeen_clock h (s.at w)
    have hexec := exec_handoverAckReceived w h hs hon hside
    rw [ackTaken_inTime (Eq.trans hhand hx) hh (by rw [hpcount]; exact hearly)] at hexec
    exact ⟨_, hexec, (exec_moves _ s _ hexec).queue, rfl, (handSet_role ..).trans hrole⟩
  case handedOver =>
    intro w x hs s hx hprimary hh hdue hacked
    have hexec := exec_handoverStrobe w hx hprimary hh hdue
    rw [if_pos hacked] at hexec
    have hwas : (when (!x.forced) (raise .wvl 6) (s.at w)).wvl.duty = s.wvl.duty := ite_duty (raise_duty ..) rfl
    obtain ⟨hrole, -⟩ := duty_parts hwas
    obtain ⟨hnow, -, hcause, hhand, -⟩ := duty_parts (leaveAtStrobe_duty x.cause (hrole.trans (primary_iff.mp hprimary)))
    exact ⟨_, hexec, (exec_moves _ s _ hexec).queue, fun h => absurd (hnow.symm.trans h) (show ¬(2 : Nat) = 1 by decide), hhand, hcause⟩
  case abandoned =>
    intro w x hs s hx hprimary hh hdue hacked
    have hexec := exec_handoverStrobe w hx hprimary hh hdue
    rw [if_neg (by rw [hacked]; decide)] at hexec
    obtain ⟨hprt, hfio, hseq⟩ := abandoned_keeps (modWvl (fun y => { y with handover := none }) (s.at w))
    refine ⟨_, hexec, ?_, ?_, hprt, hfio, hseq⟩
    · exact (congrArg WvlState.role (abandoned_wvl _)).trans (primary_iff.mp hprimary)
    · exact congrArg WvlState.handover (abandoned_wvl _)
  case relinquish =>
    intro w h hs s hon hside hrole _
    obtain ⟨y, hy⟩ := frameSeen_duty h (s.at w)
    obtain ⟨hrole', -⟩ := duty_parts hy
    have hexec := exec_relinquishReceived w h hs hon hside
    rw [frameSeen_soonStrobe, prepareTake_standby _ _ (Eq.trans hrole' hrole)] at hexec
    exact ⟨_, hexec, (exec_moves _ s _ hexec).queue, rfl, rfl, (takeSet_role ..).trans (Eq.trans hrole' hrole)⟩
  case handover =>
    intro w h m s hon hside hrole _
    obtain ⟨y, hy⟩ := frameSeen_duty h (s.at w)
    obtain ⟨hrole', hside', -⟩ := duty_parts hy
    have hexec := exec_handoverReceived w h m hon hside
    obtain ⟨htake, hnow, hout⟩ := handoverTaken_standby m (Eq.trans hrole' hrole) (frameSeen_lanesUp h (s.at w))
    exact ⟨_, hexec, (exec_moves _ s _ hexec).queue, htake, hout.trans (by rw [hside']; rfl), hnow⟩
  case takes =>
    intro w k s hk hrole hdue
    have hexec := exec_takeover w hk
    rw [if_pos ⟨hrole, hdue⟩] at hexec
    obtain ⟨hnow, -, hcause, -, htake, -, hcount⟩ := duty_parts (takeOver_duty k (s := s.at w) (by show s.wvl.role ≠ 1; omega))
    exact ⟨_, hexec, (exec_moves _ s _ hexec).queue, hnow, hcause, htake, hcount, takeOver_running k _⟩
  case notYet =>
    intro w k s hk hearly
    refine ⟨_, exec_takeover w hk, ?_⟩
    rw [if_neg (by omega)]
    exact at_only w s Covers.rfl
  case yields =>
    intro w s hprimary hyield hdue
    have hexec := exec_yieldToPartner_due w hprimary hyield hdue
    obtain ⟨hnow, -, hcause, -, -, hdone, -⟩ := duty_parts (leaveAtStrobe_duty 8 (s := s.at w) (primary_iff.mp hprimary))
    exact ⟨_, hexec, (exec_moves _ s _ hexec).queue, fun h => absurd (hnow.symm.trans h) (show ¬(2 : Nat) = 1 by decide), hdone, hcause⟩
  case stays => exact fun w s h => ⟨_, exec_yieldToPartner_early w h, at_only w s Covers.rfl⟩
  case asked =>
    intro w s hcan hgrant
    refine ⟨_, answers_granted (w := w) rfl hgrant (wvlHandoverAct_request hcan), .after (raise_only ..)
      (.after (modWvl_only _ _) (at_only w s (Covers.rfl.trans rfl))), ?_⟩
    rw [requestHandover, raise_wvl]
    exact ⟨rfl, rfl⟩
  case ignored =>
    exact fun w s hcan hgrant => ⟨_, answers_granted (w := w) rfl hgrant (wvlHandoverAct_ignored hcan), at_only w s Covers.rfl⟩

end Sys2Proof.Machine

/-! The copy of a retirement (R293): what it reads it writes corrected, so errors that were in the page are gone. -/

namespace Sys2Proof.Machine

set_option Elab.async false

open Sys2Proof

theorem spoil_errs (m : Memory) (f : MemFault) (line : Nat) : (m.spoil f line).errs = m.errs := by
  unfold Memory.spoil
  split
  · split <;> rfl
  · split <;> rfl
  · rfl
  · rfl

/-- A line that the copy has moved lists no error, and the copy lists none anew. -/
theorem retireLine_errs (page : Nat) (faults : List (Nat × MemFault)) (s : State) (k : Nat) {e : Nat × MemFault}
    (h : e ∈ (retireLine page faults s k).mem.mem.errs) : e ∈ s.mem.mem.errs ∧ e.1 ≠ 1024 * page + k := by
  let f := s.mem.mem.finding (faultAt faults k) (1024 * page + k)
  let t := (readLine (64 * (1024 * page + k)) 64 f 2 s).2
  have hmem : t.mem.mem = s.mem.mem := (readLine_moves _ 64 f 2 Covers.rfl (.refl _ s)).keeps .memory rfl
  have hin : e ∈ (t.mem.mem.spoil f (1024 * page + k)).errs.filter (·.1 != 1024 * page + k) := h
  rw [spoil_errs, hmem, List.mem_filter] at hin
  exact ⟨hin.1, by simpa using hin.2⟩

theorem foldl_retireLine_errs (page : Nat) (faults : List (Nat × MemFault)) (l : List Nat) (s : State) {e : Nat × MemFault}
    (h : e ∈ (l.foldl (retireLine page faults) s).mem.mem.errs) : ∀ k ∈ l, e.1 ≠ 1024 * page + k := by
  have hkept : ∀ (l : List Nat) (s : State), e ∈ (l.foldl (retireLine page faults) s).mem.mem.errs → e ∈ s.mem.mem.errs := by
    intro l
    induction l with
    | nil => exact fun _ hin => hin
    | cons k l ih => exact fun s hin => (retireLine_errs page faults s k (ih _ hin)).1
  induction l generalizing s with
  | nil => exact fun k hk => nomatch hk
  | cons k l ih =>
    intro j hj
    rcases List.mem_cons.mp hj with rfl | hj
    · exact (retireLine_errs page faults s j (hkept l _ h)).2
    · exact ih _ h j hj

theorem setRetireResult_mem (host : Bool) (v : Nat) (s : State) : (setRetireResult host v s).mem.mem = s.mem.mem := by
  cases host <;> rfl

/-- The end of a copy: the page on its spare, its entry to be written, the result. -/
def copyEnded (page i : Nat) (host : Bool) (s : State) : State :=
  let e : RetireEntry := { eui := s.gen.eui, page := page, spare := i }
  let s := modMem (fun m => { m with
    retiring := none, retired := (m.retired.filter (·.1 != page)) ++ [(page, i)], unsaved := m.unsaved ++ [e] }) s
  let s := ledger 0x0B01 0xFFFF [page, i] (setRetireResult host (retireResult 0 i) s)
  if s.kpr.state = 2 then queueJob { cls := 0, kind := .retire e } s else s

theorem copyEnded_mem (page i : Nat) (host : Bool) (s : State) : (copyEnded page i host s).mem.mem = s.mem.mem := by
  have hledger : ∀ u : State, (ledger 0x0B01 0xFFFF [page, i] (setRetireResult host (retireResult 0 i) u)).mem.mem = u.mem.mem :=
    fun u => Eq.trans ((ledger_moves _ _ _ Covers.rfl (.refl _ _)).keeps .memory rfl) (setRetireResult_mem host (retireResult 0 i) u)
  unfold copyEnded
  dsimp only
  split
  · exact Eq.trans ((queueJob_moves _ Covers.rfl (.refl _ _)).keeps .memory rfl) (hledger _)
  · exact hledger _

/-- Behind the copy, main memory is as the copy left it. -/
theorem exec_retireCopyComplete_copied (w : When) (faults : List (Nat × MemFault)) {page i : Nat} {host : Bool} {s : State}
    (h : s.mem.retiring = some (page, i, host)) : ∃ t, exec (.retireCopyComplete w faults) s = .next t
      ∧ t.mem.mem = ((List.range 1024).foldl (retireLine page faults) (s.at w)).mem.mem := by
  have h' : (s.at w).mem.retiring = some (page, i, host) := h
  refine ⟨copyEnded page i host ((List.range 1024).foldl (retireLine page faults) (s.at w)), ?_, copyEnded_mem ..⟩
  show execRetireCopyComplete w faults s = _
  unfold execRetireCopyComplete
  simp only [h']
  rfl

/-- A module that retires the page of line 0, in which a correctable error has arisen. -/
def retiringWithError : State := { mem := { mem := { errs := [(0, .corrected 0 1)] }, retiring := some (0, 0, false) } }

/-- Refutes O43: its thirteenth clause leaves main memory as it was. An error that had arisen in the page is written corrected. -/
theorem not_memoryCare : ¬ Obligations.MemoryCare := by
  unfold Obligations.MemoryCare
  rintro ⟨_, _, _, _, _, _, _, _, _, _, _, _, hcopied, _⟩
  obtain ⟨t, ht, -, -, -, -, -, -, hmem⟩ := hcopied { t := 0 } 0 0 retiringWithError rfl
  obtain ⟨t', ht', hcopy⟩ := exec_retireCopyComplete_copied { t := 0 } [] (s := retiringWithError) rfl
  obtain rfl : t = t' := by rw [ht] at ht'; injection ht'
  have hin : ((0, .corrected 0 1) : Nat × MemFault) ∈ t.mem.mem.errs := by rw [hmem]; exact List.mem_cons_self
  rw [hcopy] at hin
  exact foldl_retireLine_errs 0 [] _ _ hin 0 (by simp) rfl

end Sys2Proof.Machine


/-! ### The rule table of the central checker at run time (O44)

A commit of the run-time registers either changes the table, and its write then waits for the drain, or is refused, and its
write is answered at once. -/

namespace Sys2Proof.Machine

set_option Elab.async false

open Sys2Proof

/-- What a refusal leaves of the central rule table. -/
def WrdState.table (w : WrdState) : List Rule × List (Nat × Rule) × Nat × Nat := (w.fixed, w.runtime, w.epoch, w.rtResult)

theorem gateCheck_table (ident space a n : Nat) (write : Bool) (s : State) :
    (gateCheck ident space a n write s).2.wrd.table = s.wrd.table := by
  have hcentral : ∀ c, (centralRefuse space c ident a write s).wrd.table = s.wrd.table := fun c => by simp [centralRefuse, modWrd, WrdState.table]
  have hward : ∀ i c, (wardRefuse i space c ident a write s).wrd.table = s.wrd.table := fun i c => by simp [wardRefuse, modWrd, WrdState.table]
  unfold gateCheck
  split
  · split
    · rfl
    · exact hcentral _
  · split
    · rfl
    · exact hward _ _

theorem regTarget_wrd (ident a size : Nat) (write : Bool) (s : State) : (regTarget ident a size write s).2.wrd = s.wrd := by
  unfold regTarget
  split
  · exact ledger_wrd ..
  split
  · rfl
  split
  · rfl
  split
  · exact ledger_wrd ..
  · rfl

theorem checkAccess_table (ident space a n : Nat) (write : Bool) (s : State) :
    (checkAccess ident space a n write s).2.wrd.table = s.wrd.table := by
  have hgate := gateCheck_table ident space a (max 1 n) write s
  unfold checkAccess
  dsimp only
  split
  · rw [ledger_wrd]
  split
  · rfl
  split
  next heq => rwa [heq] at hgate
  next heq =>
    rw [heq] at hgate
    split
    · exact hgate
    split
    · rw [regTarget_wrd]; exact hgate
    split
    · exact hgate
    · exact hgate

/-- A write of `CRT_RT_COMMIT` that passes its checks. -/
theorem asCommit_grants {who : Agent} {act : State → State} {s : State} (h : s.grants who 0xC8038 = true) :
    asCommit who act s = answerWrite (identOf who) true s.wrd.epoch (act s) := Laws.asWrite_grants h

theorem answerWrite_crtChanged (ident : Nat) (ok : Bool) (rt : List (Nat × Rule)) (s : State) :
    answerWrite ident ok s.wrd.epoch (crtChanged rt s) = modWrd (fun x => { x with waiting := x.waiting + 1 }) (crtChanged rt s) := by
  have hepoch : (s.wrd.epoch + 1) % 2 ^ 32 ≠ s.wrd.epoch := by omega
  unfold answerWrite
  rw [if_pos]
  simpa [crtChanged, modWrd] using hepoch

theorem crtRefused_epoch (code : Nat) (install : Bool) (s : State) : (crtRefused code install s).wrd.epoch = s.wrd.epoch := by
  unfold crtRefused
  dsimp only
  unfold when
  split
  · rw [ledger_wrd]; rfl
  · rfl

theorem answerWrite_crtRefused (ident code : Nat) (ok install : Bool) (s : State) :
    answerWrite ident ok s.wrd.epoch (crtRefused code install s) = emit (.resp ident ok []) (crtRefused code install s) :=
  answerWrite_of_epoch_eq (crtRefused_epoch ..)

theorem crtRefused_wrd (code : Nat) (install : Bool) (s : State) :
    (crtRefused code install s).wrd = { s.wrd with rtResult := code, rtRefused := tallyInc s.wrd.rtRefused } := by
  unfold crtRefused
  dsimp only
  unfold when
  split
  · rw [ledger_wrd]; rfl
  · rfl

theorem crtRefused_out (code : Nat) (install : Bool) (s : State) : (crtRefused code install s).out = s.out := by
  unfold crtRefused
  dsimp only
  unfold when
  split
  · rw [ledger_out]; rfl
  · rfl

/-- Outside an overlap and the rules of an install, a refusal is counted and no more. -/
theorem crtRefused_counts (code : Nat) (s : State) (hcode : code ≠ 2) : crtRefused code false s =
    modWrd (fun w => { w with rtResult := code, rtRefused := tallyInc w.rtRefused }) s := by
  unfold crtRefused
  simp [hcode, when]

theorem modWrd_only (f : WrdState → WrdState) (s : State) : Only [.wards] s (modWrd f s) :=
  (modWrd_moves (by decide) (.refl _ _)).only

/-- A commit from another writer than the firmware leaves the rule table and main memory. -/
theorem asCommit_foreign {who : Agent} {act : State → State} {s : State} (hact : ∀ t, act t = t) :
    (asCommit who act s).pending = s.pending ∧ (asCommit who act s).wrd.table = s.wrd.table
    ∧ (asCommit who act s).mem = s.mem := by
  have htable := checkAccess_table (identOf who) 1 0xC8038 4 true s
  have hmoves : Moves [.events, .debug, .wards, .faults, .ledger, .keeper, .sessions, .host] s
      (checkAccess (identOf who) 1 0xC8038 4 true s).2 := checkAccess_moves _ _ _ _ _ Covers.rfl (.refl _ _)
  have hpending := hmoves.only.1
  have hmem := hmoves.mem_eq rfl rfl
  unfold asCommit asWrite
  split
  · exact ⟨rfl, rfl, rfl⟩
  split
  · exact ⟨rfl, rfl, rfl⟩
  split
  next t heq =>
    rw [heq] at htable hpending hmem
    have hepoch : t.wrd.epoch = s.wrd.epoch := congrArg (·.2.2.1) htable
    dsimp only
    rw [hact, answerWrite_of_epoch_eq hepoch]
    exact ⟨hpending, htable, hmem⟩
  next t heq =>
    rw [heq] at htable hpending hmem
    exact ⟨hpending, htable, hmem⟩

theorem crtInstallAct_done {s : State} (h : s.wrd.installCode = 0) : crtInstallAct .firmware s =
    crtChanged ((s.wrd.runtime.filter (·.1 != s.wrd.rtSlot)) ++ [(s.wrd.rtSlot, s.wrd.rtRule)]) s := by
  simp [crtInstallAct, isFw, h]

theorem crtInstallAct_refused {s : State} (h : s.wrd.installCode ≠ 0) :
    crtInstallAct .firmware s = crtRefused s.wrd.installCode true s := by
  simp [crtInstallAct, isFw, h]

theorem crtEmptyAct_done {s : State} (h : s.wrd.emptyCode = 0) :
    crtEmptyAct .firmware s = crtChanged (s.wrd.runtime.filter (·.1 != s.wrd.rtSlot)) s := by
  simp [crtEmptyAct, isFw, h]

theorem crtEmptyAct_refused {s : State} (h : s.wrd.emptyCode ≠ 0) :
    crtEmptyAct .firmware s = crtRefused s.wrd.emptyCode false s := by
  simp [crtEmptyAct, isFw, h]

theorem crtInvalidAct_refused (s : State) : crtInvalidAct .firmware s = crtRefused 4 false s := by
  simp [crtInvalidAct, isFw]

theorem Rule.overlaps_comm {a b : Rule} : a.overlaps b = b.overlaps a := by
  unfold Rule.overlaps
  congr 1
  · congr 1
    · exact Bool.beq_comm
    · simp only [and_comm]
  · simp only [Bool.and_comm]

/-- The code of an install in a run-time slot whose rule is in range and overlaps a fixed one (R302). -/
theorem installCode_overlap {u : WrdState} {r : Rule} (hloaded : u.loaded = true) (hr : r ∈ u.fixed)
    (hslot : u.fixed.length ≤ u.rtSlot) (hlen : u.rtLength ≠ 0) (hbase : u.rtRule.base % 64 = 0) (hspace : u.rtSpace = 0)
    (hend : u.rtRule.base + 64 * u.rtLength ≤ memSize) (hread : wrongMask u.rtRead = false)
    (hwrite : wrongMask u.rtWrite = false) (hover : r.overlaps u.rtRule = true) : u.installCode = 2 := by
  have hany : (u.fixed ++ (u.runtime.filter (·.1 != u.rtSlot)).map (·.2)).any u.rtRule.overlaps = true :=
    List.any_eq_true.mpr ⟨r, List.mem_append_left _ hr, by rw [Rule.overlaps_comm]; exact hover⟩
  have hrange : ¬(u.rtRule.len64 = 0 ∨ u.rtRule.base % 64 ≠ 0 ∨ 1 < u.rtRule.space
      ∨ spaceSize u.rtRule.space < u.rtRule.base + 64 * u.rtRule.len64) := by
    rintro (h | h | h | h)
    · exact hlen h
    · exact h hbase
    · exact absurd (hspace ▸ h : 1 < 0) (by decide)
    · rw [show u.rtRule.space = 0 from hspace] at h
      exact absurd hend (Nat.not_le.mpr h)
  have hmask : (wrongMask u.rtRule.read || wrongMask u.rtRule.write) = false := by
    rw [show u.rtRule.read = u.rtRead from rfl, show u.rtRule.write = u.rtWrite from rfl, hread, hwrite, Bool.or_false]
  unfold WrdState.installCode
  dsimp only
  rw [hloaded, if_neg (by simp), if_neg hrange, if_neg (Nat.not_lt.mpr hslot), hmask, if_neg Bool.false_ne_true, if_pos hany]

section
variable {c : Instr} {w : When} {act : State → State} {s : State}
  (hc : exec c s = .next (asCommit .firmware act (s.at w))) (hgrant : (s.at w).grants .firmware 0xC8038 = true)
include hc hgrant

/-- The firmware's commit that changes the table: its write waits for the drain (R306). -/
theorem commit_changes {rt : List (Nat × Rule)} (hact : act (s.at w) = crtChanged rt (s.at w)) :
    exec c s = .next (modWrd (fun x => { x with waiting := x.waiting + 1 }) (crtChanged rt (s.at w))) := by
  rw [hc, asCommit_grants hgrant, hact, answerWrite_crtChanged]

/-- The firmware's commit that is refused: its write is answered at once. -/
theorem commit_refused {code : Nat} {install : Bool} (hact : act (s.at w) = crtRefused code install (s.at w)) :
    exec c s = .next (emit (.resp (identOf .firmware) true []) (crtRefused code install (s.at w))) := by
  rw [hc, asCommit_grants hgrant, hact, answerWrite_crtRefused]

end

theorem setOut_only (o : List Out) (s : State) : Only [.sent] s { s with out := o } := by
  refine ⟨rfl, fun p hp => ?_⟩
  cases p
  case sent => exact absurd (List.mem_singleton_self _) hp
  all_goals simp [Part.Same]

/-- What a refused commit shows: its code and its count; the table stands. -/
theorem refusedCommit_shows (o : Out) (code : Nat) (install : Bool) (s : State) :
    (emit o (crtRefused code install s)).wrd.waiting = s.wrd.waiting ∧ (emit o (crtRefused code install s)).wrd.runtime = s.wrd.runtime
    ∧ (emit o (crtRefused code install s)).wrd.fixed = s.wrd.fixed ∧ (emit o (crtRefused code install s)).wrd.epoch = s.wrd.epoch
    ∧ (emit o (crtRefused code install s)).wrd.rtResult = code
    ∧ (emit o (crtRefused code install s)).wrd.rtRefused = tallyInc s.wrd.rtRefused := by
  have h : (emit o (crtRefused code install s)).wrd = _ := crtRefused_wrd code install s
  rw [h]
  exact ⟨rfl, rfl, rfl, rfl, rfl, rfl⟩

theorem modWrd_at_only (f g : WrdState → WrdState) (w : When) (s : State) :
    Only [.time, .wards] s (modWrd f (modWrd g (s.at w))) :=
  .after (modWrd_only _ _) (.after (modWrd_only _ _) (at_only w s (Covers.rfl.trans rfl)))

/-- Settles O44: the four commits and the two drains, by their codes. -/
theorem centralRulesAtRunTime : Obligations.CentralRulesAtRunTime := by
  unfold Obligations.CentralRulesAtRunTime
  refine ⟨?installed, ?refused, ?noTable, ?overlap, ?foreign, ?emptied, ?fixed, ?foreignEmpty, ?invalid, ?drained, ?idle, ?ward⟩
  case installed =>
    exact fun w s hcode hgrant => ⟨_, commit_changes rfl hgrant (crtInstallAct_done (s := s.at w) hcode), modWrd_at_only _ _ w s, rfl, rfl, rfl, rfl, rfl, rfl, rfl, rfl⟩
  case refused =>
    intro w s hcode hgrant
    obtain ⟨hwaiting, hruntime, hfixed, hepoch, hresult, hrefused⟩ := refusedCommit_shows (.resp (identOf .firmware) true []) s.wrd.installCode true (s.at w)
    refine ⟨_, commit_refused rfl hgrant (crtInstallAct_refused (s := s.at w) hcode), ?_, ?_, ?_⟩
    · exact .after (emit_moves (P := [.sent]) _ Covers.rfl (.refl _ _)).only
        (.after (crtRefused_moves _ _ Covers.rfl (.refl _ _)).only (at_only w s (Covers.rfl.trans rfl)))
    · exact congrArg (List.cons _) (crtRefused_out ..)
    · exact ⟨hwaiting, hruntime, hfixed, hepoch, hresult, hrefused⟩
  case noTable =>
    intro w s hloaded hgrant
    have hcode : s.wrd.installCode = 5 := by simp [WrdState.installCode, hloaded]
    have hne : s.wrd.installCode ≠ 0 := by simp [hcode]
    obtain ⟨hwaiting, hruntime, hfixed, hepoch, hresult, hrefused⟩ := refusedCommit_shows (.resp (identOf .firmware) true []) s.wrd.installCode true (s.at w)
    exact ⟨_, commit_refused rfl hgrant (crtInstallAct_refused (s := s.at w) hne), hresult.trans hcode, hruntime, hepoch⟩
  case overlap =>
    intro w r s hloaded hr hslot hlen hbase hspace hend hread hwrite hover hgrant
    have hcode := installCode_overlap hloaded hr hslot hlen hbase hspace hend hread hwrite hover
    have hne : s.wrd.installCode ≠ 0 := by simp [hcode]
    obtain ⟨hwaiting, hruntime, hfixed, hepoch, hresult, hrefused⟩ := refusedCommit_shows (.resp (identOf .firmware) true []) s.wrd.installCode true (s.at w)
    exact ⟨_, commit_refused rfl hgrant (crtInstallAct_refused (s := s.at w) hne), hresult.trans hcode, hruntime, hepoch⟩
  case foreign =>
    intro w who s hwho
    obtain ⟨hpending, htable, hmem⟩ := asCommit_foreign (who := who) (act := crtInstallAct who) (s := s.at w) fun t => by simp [crtInstallAct, hwho]
    simp only [WrdState.table, Prod.mk.injEq] at htable
    obtain ⟨hfixed, hruntime, hepoch, hresult⟩ := htable
    exact ⟨_, rfl, hpending, hruntime, hfixed, hepoch, hresult, hmem⟩
  case emptied =>
    intro w s hloaded hslot hgrant
    have hcode : s.wrd.emptyCode = 0 := by simp [WrdState.emptyCode, hloaded, Nat.not_lt.mpr hslot]
    exact ⟨_, commit_changes rfl hgrant (crtEmptyAct_done (s := s.at w) hcode), modWrd_at_only _ _ w s, rfl, rfl, rfl, rfl, rfl, rfl⟩
  case fixed =>
    intro w s hloaded hslot hgrant
    have hcode : s.wrd.emptyCode = 1 := by simp [WrdState.emptyCode, hloaded, hslot]
    have hne : s.wrd.emptyCode ≠ 0 := by simp [hcode]
    obtain ⟨hwaiting, hruntime, hfixed, hepoch, hresult, hrefused⟩ := refusedCommit_shows (.resp (identOf .firmware) true []) s.wrd.emptyCode false (s.at w)
    refine ⟨_, commit_refused rfl hgrant (crtEmptyAct_refused (s := s.at w) hne), ?_, hfixed, hruntime, hresult.trans hcode, hepoch⟩
    exact (crtRefused_moves _ _ Covers.rfl (.refl _ (s.at w))).only.1
  case foreignEmpty =>
    intro w who s hwho
    obtain ⟨hpending, htable, hmem⟩ := asCommit_foreign (who := who) (act := crtEmptyAct who) (s := s.at w) fun t => by simp [crtEmptyAct, hwho]
    simp only [WrdState.table, Prod.mk.injEq] at htable
    obtain ⟨hfixed, hruntime, hepoch, hresult⟩ := htable
    exact ⟨_, rfl, hpending, hruntime, hfixed, hepoch, hresult, hmem⟩
  case invalid =>
    intro w s hgrant
    obtain ⟨hwaiting, hruntime, hfixed, hepoch, hresult, hrefused⟩ := refusedCommit_shows (.resp (identOf .firmware) true []) 4 false (s.at w)
    refine ⟨_, commit_refused rfl hgrant (crtInvalidAct_refused (s.at w)), ?_, congrArg (List.cons _) (crtRefused_out ..), hresult, hrefused,
      hruntime, hepoch⟩
    rw [crtRefused_counts _ _ (by decide)]
    exact .after (emit_moves (P := [.sent]) _ Covers.rfl (.refl _ _)).only
      (.after (modWrd_only _ _) (at_only w s (Covers.rfl.trans rfl)))
  case drained =>
    intro w s hdraining
    refine ⟨_, congrArg Host.Outcome.next (if_pos hdraining), ?_, rfl, rfl, rfl, rfl, rfl, rfl, rfl⟩
    exact .after (setOut_only _ _) (.after (modWrd_only _ _) (at_only w s (Covers.rfl.trans rfl)))
  case idle =>
    exact fun w s hdraining => ⟨_, congrArg Host.Outcome.next (if_neg (by simp [hdraining])), at_only w s Covers.rfl⟩
  case ward =>
    exact fun w ward s => ⟨_, rfl, .after (modWrd_only _ _) (at_only w s (Covers.rfl.trans rfl)), rfl, rfl, rfl⟩

end Sys2Proof.Machine


/-! ### The field inputs and the field supply (O55) -/

namespace Sys2Proof.Machine

set_option Elab.async false

open Sys2Proof

/-- The fault bits that a refresh of the field I/O takes up; nothing else of the field I/O changes. -/
theorem fioRefresh_fio (s : State) : (fioRefresh s).fio = { s.fio with
    faultFw := s.fioFault s.fio.maskFw, seenFw := s.fio.seenFw || s.fioFault s.fio.maskFw
    seenHost := s.fio.seenHost || s.fioFault s.fio.maskHost } := by
  unfold fioRefresh
  dsimp only
  unfold when
  split <;> split <;> split <;> simp only [ledger_fio, hwSet_fio]

@[simp] theorem fioRefresh_di (s : State) : (fioRefresh s).fio.di = s.fio.di := by rw [fioRefresh_fio]
@[simp] theorem fioRefresh_dout (s : State) : (fioRefresh s).fio.dout = s.fio.dout := by rw [fioRefresh_fio]
@[simp] theorem fioRefresh_ao (s : State) : (fioRefresh s).fio.ao = s.fio.ao := by rw [fioRefresh_fio]
@[simp] theorem fioRefresh_supplyMv (s : State) : (fioRefresh s).fio.supplyMv = s.fio.supplyMv := by rw [fioRefresh_fio]
@[simp] theorem fioRefresh_supplySeen (s : State) : (fioRefresh s).fio.supplySeen = s.fio.supplySeen := by rw [fioRefresh_fio]
@[simp] theorem fioRefresh_unplugged (s : State) : (fioRefresh s).fio.unplugged = s.fio.unplugged := by rw [fioRefresh_fio]
@[simp] theorem fioRefresh_standby (s : State) : (fioRefresh s).fio.standby = s.fio.standby := by rw [fioRefresh_fio]

@[simp] theorem fioRefresh_out (s : State) : (fioRefresh s).out = s.out := by
  unfold fioRefresh
  dsimp only
  unfold when
  split <;> split <;> split <;> simp only [ledger_out, hwSet_out]

theorem fioRefresh_only (s : State) : Only [.events, .ledger, .keeper, .field, .sessions, .host] s (fioRefresh s) :=
  (fioRefresh_moves Covers.rfl (.refl _ _)).only

theorem modDi_only (i : Nat) (f : DiState → DiState) (s : State) : Only [.inputs] s (modDi i f s) :=
  (modDi_moves i f Covers.rfl (.refl _ _)).only

/-! #### A change of an input -/

theorem acceptDi_takes {i : Nat} {level : Bool} {stamp : Nat} {s : State} (hused : (s.diCfg i).1 ≠ 0)
    (hwhole : (s.fio.di.getD i {}).broken = false) (hnew : (s.fio.di.getD i {}).level ≠ level) : acceptDi i level stamp s =
    modDi i (fun y => { y with level := level, changes := (y.changes + 1) % 65536, stamp := truncUs stamp }) s :=
  if_neg (by
    rintro (h | h | h)
    · exact hused h
    · exact Bool.false_ne_true (hwhole.symm.trans h)
    · exact hnew h)

theorem acceptDi_ignores {i : Nat} {level : Bool} {stamp : Nat} {s : State}
    (h : (s.diCfg i).1 = 0 ∨ (s.fio.di.getD i {}).broken = true ∨ (s.fio.di.getD i {}).level = level) :
    acceptDi i level stamp s = s := if_pos h

/-! #### The outputs shown again -/

/-- What one step of a run over states puts out stands in the end, where every step leaves the field I/O. -/
theorem mem_foldl_out {α : Type} {f : State → α → State} (hout : ∀ s x, s.out <:+ (f s x).out)
    (hfio : ∀ s x, (f s x).fio = s.fio) {o : Out} {x : α} {l : List α} (hx : x ∈ l) {s : State}
    (hput : ∀ t, t.fio = s.fio → o ∈ (f t x).out) : o ∈ (l.foldl f s).out := by
  induction l generalizing s with
  | nil => exact absurd hx List.not_mem_nil
  | cons y l ih =>
    rcases List.mem_cons.mp hx with rfl | hx
    · exact (foldl_out_suffix f hout l _).subset (hput s rfl)
    · exact ih hx fun t ht => hput t (ht.trans (hfio s y))

/-- A driven digital output is shown. -/
def showDriven (s : State) (j : Nat) : State := if (s.dout j).driven then showDo j s else s

/-- A driving loop output is shown. -/
def showDriving (s : State) (c : Nat) : State := if (s.ao c).driving then showAo c s else s

theorem showOutputs_eq (s : State) : showOutputs s = (List.range 4).foldl showDriving ((List.range 8).foldl showDriven s) := rfl

theorem showDriven_fio (s : State) (j : Nat) : (showDriven s j).fio = s.fio := by unfold showDriven; split <;> rfl
theorem showDriving_fio (s : State) (c : Nat) : (showDriving s c).fio = s.fio := by unfold showDriving; split <;> rfl

theorem showDriven_out_suffix (s : State) (j : Nat) : s.out <:+ (showDriven s j).out := by
  unfold showDriven
  split
  · exact List.suffix_cons _ _
  · exact List.suffix_rfl

theorem showDriving_out_suffix (s : State) (c : Nat) : s.out <:+ (showDriving s c).out := by
  unfold showDriving
  split
  · exact List.suffix_cons _ _
  · exact List.suffix_rfl

theorem showOutputs_fio (s : State) : (showOutputs s).fio = s.fio :=
  (foldl_same State.fio showDriving_fio _ _).trans (foldl_same State.fio showDriven_fio _ _)

/-- The state of a driven digital output's pins leaves the block. -/
theorem showOutputs_dout {s : State} {j : Nat} (hj : j < 8) (hdriven : (s.dout j).driven = true) :
    Out.dout j ((s.dout j).driven && !(s.dout j).shutdown && !(s.dout j).failed && !s.fio.unplugged) ∈ (showOutputs s).out := by
  refine (foldl_out_suffix _ showDriving_out_suffix _ _).subset
    (mem_foldl_out showDriven_out_suffix showDriven_fio (List.mem_range.mpr hj) fun t ht => ?_)
  have hsame : t.dout j = s.dout j := congrArg (fun x : FioState => x.dout.getD j {}) ht
  unfold showDriven
  rw [hsame, if_pos hdriven, ← hsame, ← ht]
  exact List.mem_cons_self

/-- A driving loop output of a module whose terminal block is out carries no current. -/
theorem showOutputs_ao_unplugged {s : State} {c : Nat} (hc : c < 4) (hdriving : (s.ao c).driving = true)
    (hout : s.fio.unplugged = true) : Out.ao c 0 ∈ (showOutputs s).out := by
  rw [showOutputs_eq]
  refine mem_foldl_out showDriving_out_suffix showDriving_fio (List.mem_range.mpr hc) fun t ht => ?_
  have hfio : t.fio = s.fio := ht.trans (foldl_same State.fio showDriven_fio _ _)
  have hsame : t.ao c = s.ao c := congrArg (fun x : FioState => x.ao.getD c {}) hfio
  have hopen : t.fio.unplugged = true := (congrArg FioState.unplugged hfio).trans hout
  unfold showDriving
  rw [hsame, if_pos hdriving]
  unfold showAo
  dsimp only
  rw [hopen, Bool.not_true, Bool.and_false, if_neg Bool.false_ne_true]
  exact List.mem_cons_self

/-! #### The terminal block -/

/-- An input without the terminal block: a monitored one goes to wire break, any other reads off (R416). -/
def unplugDi (s : State) (i : Nat) : State :=
  if (s.diCfg i).2.2 = 1 then modDi i (fun x => { x with broken := decide ((s.diCfg i).1 ≠ 0) }) s else acceptDi i false s.now s

theorem exec_terminalBlockUnplug (w : When) (s : State) : exec (.terminalBlockUnplug w) s =
    .next (fioRefresh (showOutputs (supplyOff ((List.range 16).foldl unplugDi (s.at w))))) := rfl

theorem unplugDi_only (s : State) (i : Nat) : Only [.inputs] s (unplugDi s i) := by
  unfold unplugDi
  split
  · exact modDi_only ..
  · exact (acceptDi_moves _ _ _ Covers.rfl (.refl _ _)).only

theorem foldl_unplugDi_only (l : List Nat) (s : State) : Only [.inputs] s (l.foldl unplugDi s) := by
  induction l generalizing s with
  | nil => exact .refl _ _
  | cons i l ih => exact .after (ih _) (unplugDi_only s i)

theorem unplugDi_cfg (s : State) (i : Nat) : (unplugDi s i).cfg = s.cfg := (unplugDi_only s i).2 .config (by decide)

/-- The input `i` may be read off: it is used, not monitored, and not in wire break. -/
def State.plainDi (s : State) (i : Nat) : Prop :=
  i < s.fio.di.length ∧ (s.diCfg i).2.2 ≠ 1 ∧ (s.diCfg i).1 ≠ 0 ∧ (s.fio.di.getD i {}).broken = false

theorem unplugDi_other {s : State} {i j : Nat} (h : i ≠ j) :
    (unplugDi s j).fio.di.getD i {} = s.fio.di.getD i {} := by
  unfold unplugDi
  split
  · exact getD_updAt_other (Ne.symm h) ..
  unfold acceptDi
  dsimp only
  split
  · rfl
  · exact getD_updAt_other (Ne.symm h) ..

theorem unplugDi_length (s : State) (j : Nat) : (unplugDi s j).fio.di.length = s.fio.di.length := by
  unfold unplugDi
  split
  · exact updAt_length ..
  unfold acceptDi
  dsimp only
  split
  · rfl
  · exact updAt_length ..

theorem unplugDi_self {s : State} {i : Nat} (h : s.plainDi i) : ((unplugDi s i).fio.di.getD i {}).level = false
    ∧ ((unplugDi s i).fio.di.getD i {}).broken = false := by
  obtain ⟨hlen, hplain, hused, hwhole⟩ := h
  unfold unplugDi
  rw [if_neg hplain]
  by_cases hlevel : (s.fio.di.getD i {}).level = false
  · rw [acceptDi_ignores (.inr (.inr hlevel))]
    exact ⟨hlevel, hwhole⟩
  · rw [acceptDi_takes hused hwhole hlevel]
    have hself := getD_updAt_self hlen (fun y : DiState =>
      { y with level := false, changes := (y.changes + 1) % 65536, stamp := truncUs s.now }) {}
    exact ⟨(congrArg DiState.level hself).trans rfl, (congrArg DiState.broken hself).trans hwhole⟩

theorem unplugDi_plain {s : State} {i j : Nat} (h : s.plainDi i) : (unplugDi s j).plainDi i := by
  have hcfg : (unplugDi s j).diCfg i = s.diCfg i := congrArg (fun x : CfgState => x.cur.fieldIo.di.getD i (0, 0, 0)) (unplugDi_cfg s j)
  refine ⟨(unplugDi_length s j).symm ▸ h.1, hcfg ▸ h.2.1, hcfg ▸ h.2.2.1, ?_⟩
  by_cases hij : i = j
  · exact hij ▸ (unplugDi_self h).2
  · rw [unplugDi_other hij]; exact h.2.2.2

/-- Once read off, an input that may be read off stays so. -/
theorem unplugDi_off {s : State} {i : Nat} (h : s.plainDi i) (hoff : (s.fio.di.getD i {}).level = false) (j : Nat) :
    ((unplugDi s j).fio.di.getD i {}).level = false := by
  by_cases hij : i = j
  · exact hij ▸ (unplugDi_self h).1
  · rw [unplugDi_other hij]; exact hoff

theorem foldl_unplugDi_off {l : List Nat} {s : State} {i : Nat} (h : s.plainDi i)
    (hi : i ∈ l ∨ (s.fio.di.getD i {}).level = false) : ((l.foldl unplugDi s).fio.di.getD i {}).level = false := by
  induction l generalizing s with
  | nil => exact hi.resolve_left List.not_mem_nil
  | cons j l ih =>
    refine ih (unplugDi_plain h) ?_
    by_cases hij : i = j
    · exact .inr (hij ▸ (unplugDi_self h).1)
    · rcases hi with hi | hoff
      · exact .inl ((List.mem_cons.mp hi).resolve_left hij)
      · exact .inr (unplugDi_off h hoff j)

/-! #### The field supply -/

/-- The field supply is `mv`; one that is not 0 brings the terminal block with it (R416). -/
def supplied (mv : Nat) (s : State) : State :=
  { s with fio := { s.fio with supplyMv := mv, supplySeen := true, unplugged := s.fio.unplugged && mv == 0 } }

theorem exec_fieldSupplyChange (w : When) (mv : Nat) (s : State) : exec (.fieldSupplyChange w mv) s =
    .next (fioRefresh (when (s.fio.unplugged && mv != 0) showOutputs (supplied mv (s.at w)))) := rfl

theorem supplied_only (mv : Nat) (s : State) : Only [.field] s (supplied mv s) := by
  refine ⟨rfl, fun p hp => ?_⟩
  cases p
  case field => exact absurd List.mem_cons_self hp
  all_goals simp [Part.Same, supplied]

theorem supplyOff_only (s : State) : Only [.field] s (supplyOff s) := (supplyOff_moves Covers.rfl (.refl _ _)).only

theorem showOutputs_only (s : State) : Only [.sent] s (showOutputs s) := (showOutputs_moves Covers.rfl (.refl _ _)).only

/-- Settles O55: an input by the branch that its hypotheses select; the outputs as they are shown. -/
theorem fieldInputs : Obligations.FieldInputs := by
  unfold Obligations.FieldInputs
  refine ⟨?accepts, ?ignores, ?breaks, ?unmonitored, ?clears, ?supply, ?replugged, ?unplugged⟩
  case accepts =>
    intro w ch level stamp s hused hwhole hnew hheld hlen
    have hself := getD_updAt_self hlen (fun y : DiState =>
      { y with level := level, changes := (y.changes + 1) % 65536, stamp := truncUs stamp }) {}
    refine ⟨_, congrArg Host.Outcome.next ((if_pos hheld).trans (acceptDi_takes (s := s.at w) hused hwhole hnew)),
      .after (modDi_only _ _ _) (at_only w s (Covers.rfl.trans rfl)), (congrArg DiState.level hself).trans rfl,
      (congrArg DiState.changes hself).trans rfl, (congrArg DiState.stamp hself).trans rfl,
      (congrArg DiState.broken hself).trans hwhole, fun j hj => getD_updAt_other (Ne.symm hj) ..⟩
  case ignores =>
    intro w ch level stamp s h
    refine ⟨s.at w, congrArg Host.Outcome.next ?_, at_only w s Covers.rfl⟩
    split
    next hheld =>
      refine acceptDi_ignores (s := s.at w) ?_
      rcases h with h | h | h | h
      · exact .inl h
      · exact .inr (.inl h)
      · exact .inr (.inr h)
      · exact absurd hheld (Nat.not_le.mpr h)
    next => rfl
  case breaks =>
    intro w ch s hused hmonitored hlen
    have hself := getD_updAt_self hlen (fun x : DiState => { x with broken := true }) {}
    have hdi := fioRefresh_di (modDi ch.val (fun x => { x with broken := true }) (s.at w))
    refine ⟨_, congrArg Host.Outcome.next (if_pos ⟨hused, hmonitored⟩), (fioRefresh_only _).1, ?_, ?_, fioRefresh_dout _⟩
    · rw [hdi]; exact congrArg DiState.broken hself
    · rw [hdi]; exact (congrArg DiState.level hself).trans rfl
  case unmonitored =>
    exact fun w ch s h => ⟨s.at w, congrArg Host.Outcome.next (if_neg fun hm => h hm.2), at_only w s Covers.rfl⟩
  case clears =>
    intro w ch s hlen
    have hself := getD_updAt_self hlen (fun x : DiState => { x with broken := false }) {}
    have hdi := fioRefresh_di (modDi ch.val (fun x => { x with broken := false }) (s.at w))
    refine ⟨_, rfl, (fioRefresh_only _).1, ?_, ?_, ?_⟩
    · rw [hdi]; exact congrArg DiState.broken hself
    · rw [hdi]; exact (congrArg DiState.level hself).trans rfl
    · rw [hdi]; exact (congrArg DiState.changes hself).trans rfl
  case supply =>
    intro w mv s h
    have hback : (s.fio.unplugged && mv != 0) = false := by rcases h with h | h <;> simp [h]
    have hexec := exec_fieldSupplyChange w mv s
    rw [hback, when_false] at hexec
    refine ⟨_, hexec, .after (fioRefresh_only _) (.after (supplied_only _ _) (at_only w s (Covers.rfl.trans rfl))),
      fioRefresh_supplyMv _, fioRefresh_supplySeen _, (fioRefresh_unplugged _).trans ?_⟩
    show (s.fio.unplugged && mv == 0) = s.fio.unplugged
    rcases h with h | h <;> simp [h]
  case replugged =>
    intro w mv s hout hmv
    have hback : (s.fio.unplugged && mv != 0) = true := by simp [hout, hmv]
    have hexec := exec_fieldSupplyChange w mv s
    rw [hback, when_true] at hexec
    have hfio := showOutputs_fio (supplied mv (s.at w))
    have hin : (supplied mv (s.at w)).fio.unplugged = false := show (s.fio.unplugged && mv == 0) = false by simp [hmv]
    refine ⟨_, hexec, .after (fioRefresh_only _) (.after (showOutputs_only _) (.after (supplied_only _ _) (at_only w s (Covers.rfl.trans rfl)))),
      (fioRefresh_supplyMv _).trans (congrArg FioState.supplyMv hfio), (fioRefresh_supplySeen _).trans (congrArg FioState.supplySeen hfio),
      (fioRefresh_unplugged _).trans ((congrArg FioState.unplugged hfio).trans hin), List.all_eq_true.mpr fun j hj => ?_⟩
    rw [fioRefresh_out]
    by_cases hdriven : (s.dout j).driven = true
    · have hshown := showOutputs_dout (s := supplied mv (s.at w)) (List.mem_range.mp hj) hdriven
      rw [hin] at hshown
      have hpins : ∀ x : DoState, x.driven = true → x.shutdown = false → x.failed = false →
          (x.driven && !x.shutdown && !x.failed && !false) = true := fun x h1 h2 h3 => by simp [h1, h2, h3]
      cases hshut : (s.dout j).shutdown
      · cases hfail : (s.dout j).failed
        · rw [show (supplied mv (s.at w)).dout j = s.dout j from rfl, hpins _ hdriven hshut hfail] at hshown
          simp [hshown]
        · simp
      · simp
    · simp [hdriven]
  case unplugged =>
    intro w s hlen
    have hexec := exec_terminalBlockUnplug w s
    have honly := foldl_unplugDi_only (List.range 16) (s.at w)
    have hoff := fun i => foldl_unplugDi_off (l := List.range 16) (s := s.at w) (i := i)
    generalize (List.range 16).foldl unplugDi (s.at w) = u at hexec honly hoff
    have hdout : u.fio.dout = s.fio.dout := honly.2 .outputs (by decide)
    have hao : u.fio.ao = s.fio.ao := (honly.2 .loops (by decide)).1
    have hfio := showOutputs_fio (supplyOff u)
    refine ⟨_, hexec, .after (fioRefresh_only _) (.after (showOutputs_only _) (.after (supplyOff_only _) (.after honly (at_only w s (Covers.rfl.trans rfl))))),
      (fioRefresh_unplugged _).trans (congrArg FioState.unplugged hfio), (fioRefresh_supplyMv _).trans (congrArg FioState.supplyMv hfio),
      List.all_eq_true.mpr fun j hj => ?_, List.all_eq_true.mpr fun c hc => ?_, fun i hi hplain hused hwhole => ?_⟩
    · by_cases hdriven : (s.dout j).driven = true
      · have hsame : (supplyOff u).dout j = s.dout j := congrArg (fun l : List DoState => l.getD j {}) hdout
        have hshown := showOutputs_dout (s := supplyOff u) (List.mem_range.mp hj) (hsame ▸ hdriven)
        rw [show (supplyOff u).fio.unplugged = true from rfl, Bool.not_true, Bool.and_false] at hshown
        rw [fioRefresh_out]
        simp [hshown]
      · simp [hdriven]
    · by_cases hdriving : (s.ao c).driving = true
      · have hsame : (supplyOff u).ao c = s.ao c := congrArg (fun l : List AoState => l.getD c {}) hao
        have hshown := showOutputs_ao_unplugged (s := supplyOff u) (List.mem_range.mp hc) (hsame ▸ hdriving) rfl
        rw [fioRefresh_out]
        simp [hshown]
      · simp [hdriving]
    · rw [fioRefresh_di, hfio]
      exact hoff i ⟨hlen ▸ hi, hplain, hused, hwhole⟩ (.inl (List.mem_range.mpr hi))

end Sys2Proof.Machine


/-! ### The field outputs (O56)

The pins of the field I/O are a function of a few parts of the state (`SamePins`), so a set reaches them alike whatever the
tasks hold. -/

namespace Sys2Proof.Machine

set_option Elab.async false

open Sys2Proof

@[simp] theorem fioRefresh_cfg (s : State) : (fioRefresh s).cfg = s.cfg := by
  unfold fioRefresh
  dsimp only
  unfold when
  split <;> split <;> split <;> simp only [ledger_cfg, hwSet_cfg]

@[simp] theorem fioRefresh_tmb (s : State) : (fioRefresh s).tmb = s.tmb := by
  unfold fioRefresh
  dsimp only
  unfold when
  split <;> split <;> split <;> simp only [ledger_tmb, hwSet_tmb]

@[simp] theorem fioRefresh_now (s : State) : (fioRefresh s).now = s.now := by
  unfold fioRefresh
  dsimp only
  unfold when
  split <;> split <;> split <;> simp only [ledger_now, hwSet_now]

/-- A digital output has changed within the last 10 ms (R375). -/
def State.doSoon (s : State) (j : Nat) : Bool := (s.dout j).lastChange.any fun n => decide (s.now < n + toggleTicks)

theorem State.doSoon_of (s : State) (j : Nat) : ((s.dout j).lastChange = none → s.doSoon j = false)
    ∧ ∀ n, (s.dout j).lastChange = some n → s.doSoon j = decide (s.now < n + toggleTicks) := by
  unfold State.doSoon
  exact ⟨fun h => by rw [h, Option.any_none], fun n h => by rw [h, Option.any_some]⟩

/-- A value at a digital output, its channel's group resolved (R375, R91, R384). -/
def applyLeader (j : Nat) (v : Bool) (s : State) : State :=
  if s.fio.standby || s.doOwned j then s
  else if s.doSoon j then
    if (s.dout j).waiting then modDo j (fun y => { y with want := v }) s
    else if v = (s.dout j).driven then modDo j (fun y => { y with want := v }) s
    else modDo j (fun y => { y with want := v, waiting := true }) { s with fio := { s.fio with doDefer := tallyInc s.fio.doDefer } }
  else if v = (s.dout j).driven then modDo j (fun y => { y with want := v, waiting := false }) s
  else driveDo j v s

theorem applyDo_eq (ch : Nat) (v : Bool) (s : State) : applyDo ch v s = applyLeader (s.doLeader ch) v s := by
  have hsoon := s.doSoon_of (s.doLeader ch)
  unfold applyDo applyLeader
  dsimp only
  cases hlast : (s.dout (s.doLeader ch)).lastChange with
  | none => rw [hsoon.1 hlast]
  | some n => rw [hsoon.2 n hlast]

/-! #### What the pins depend on -/

/-- Two states that agree on all that a value applied to an output reads. -/
structure SamePins (s t : State) : Prop where
  fio : s.fio = t.fio
  out : s.out = t.out
  cfg : s.cfg = t.cfg
  tmb : s.tmb = t.tmb
  now : s.now = t.now
  gen : s.gen = t.gen

namespace SamePins

variable {s t : State} (h : SamePins s t)
include h

theorem dout (j : Nat) : s.dout j = t.dout j := congrArg (fun x : FioState => x.dout.getD j {}) h.fio

theorem ao (c : Nat) : s.ao c = t.ao c := congrArg (fun x : FioState => x.ao.getD c {}) h.fio

theorem doLeader (j : Nat) : s.doLeader j = t.doLeader j :=
  congrArg (fun x : CfgState => j / max 1 (x.cur.fieldIo.dout.getD j (1, false)).1 * max 1 (x.cur.fieldIo.dout.getD j (1, false)).1) h.cfg

theorem doOwned (j : Nat) : s.doOwned j = t.doOwned j := congrArg (fun x : TmbState => (x.gens.getD (4 + j) {}).armed) h.tmb

theorem doSoon (j : Nat) : s.doSoon j = t.doSoon j := by unfold State.doSoon; rw [h.dout, h.now]

theorem aoMode (c : Nat) : s.aoMode c = t.aoMode c := by unfold State.aoMode State.present; rw [h.cfg, h.gen]

theorem fioFault (m : Nat) : s.fioFault m = t.fioFault m := by
  have haoMode : s.aoMode = t.aoMode := funext h.aoMode
  unfold State.fioFault State.fioConds State.supplyBad State.diCfg State.dout State.ao
  rw [h.fio, h.cfg, haoMode]

theorem emit (o : Out) : SamePins (emit o s) (emit o t) :=
  ⟨h.fio, congrArg (List.cons o) h.out, h.cfg, h.tmb, h.now, h.gen⟩

theorem modDo (j : Nat) (f : DoState → DoState) : SamePins (modDo j f s) (modDo j f t) :=
  ⟨congrArg (fun x : FioState => { x with dout := updAt x.dout j f }) h.fio, h.out, h.cfg, h.tmb, h.now, h.gen⟩

theorem modAo (c : Nat) (f : AoState → AoState) : SamePins (modAo c f s) (modAo c f t) :=
  ⟨congrArg (fun x : FioState => { x with ao := updAt x.ao c f }) h.fio, h.out, h.cfg, h.tmb, h.now, h.gen⟩

theorem deferred : SamePins { s with fio := { s.fio with doDefer := tallyInc s.fio.doDefer } }
    { t with fio := { t.fio with doDefer := tallyInc t.fio.doDefer } } :=
  ⟨congrArg (fun x : FioState => { x with doDefer := tallyInc x.doDefer }) h.fio, h.out, h.cfg, h.tmb, h.now, h.gen⟩

theorem showDo (j : Nat) : SamePins (showDo j s) (showDo j t) := by
  unfold Machine.showDo
  rw [h.dout, h.fio]
  exact h.emit _

theorem showAo (c : Nat) : SamePins (showAo c s) (showAo c t) := by
  unfold Machine.showAo
  rw [h.ao, h.fio]
  exact h.emit _

theorem fioRefresh : SamePins (fioRefresh s) (fioRefresh t) := by
  refine ⟨?_, ?_, by rw [fioRefresh_cfg, fioRefresh_cfg, h.cfg], by rw [fioRefresh_tmb, fioRefresh_tmb, h.tmb],
    by rw [fioRefresh_now, fioRefresh_now, h.now], by rw [fioRefresh_gen, fioRefresh_gen, h.gen]⟩
  · rw [fioRefresh_fio, fioRefresh_fio, h.fioFault, h.fioFault, h.fio]
  · rw [fioRefresh_out, fioRefresh_out, h.out]

theorem driveDo (j : Nat) (v : Bool) : SamePins (driveDo j v s) (driveDo j v t) := by
  have hshown := (h.modDo j fun x =>
    { x with driven := v, want := v, lastChange := some s.now, waiting := false, mismatch := x.mismatch && !v }).showDo j
  unfold Machine.driveDo
  dsimp only
  rw [← h.now, ← h.dout]
  cases (s.dout j).mismatch && v
  · exact hshown
  · exact hshown.fioRefresh

theorem applyDo (ch : Nat) (v : Bool) : SamePins (applyDo ch v s) (applyDo ch v t) := by
  rw [applyDo_eq, applyDo_eq, ← h.doLeader]
  unfold applyLeader
  rw [← h.doSoon, ← h.doOwned, ← h.dout, ← h.fio]
  split
  · exact h
  split
  · split
    · exact h.modDo ..
    split
    · exact h.modDo ..
    · have hdeferred := h.deferred
      rw [← h.fio] at hdeferred
      exact hdeferred.modDo ..
  · split
    · exact h.modDo ..
    · exact h.driveDo ..

theorem applyAo (c cmd : Nat) : SamePins (applyAo c cmd s) (applyAo c cmd t) := by
  unfold Machine.applyAo aoRedirect
  dsimp only
  rw [← h.ao, ← h.aoMode, ← h.fio, ← h.now]
  split
  · exact h
  split
  · exact (h.modAo ..).showAo c
  · exact (h.modAo ..).showAo c

theorem applyPoint (p : Nat × Nat) : SamePins (applyPoint p s) (applyPoint p t) := by
  unfold Machine.applyPoint
  split
  · exact h.applyDo ..
  split
  · exact h.applyAo ..
  · exact h

end SamePins

theorem SamePins.foldl_applyPoint {s t : State} (h : SamePins s t) (l : List (Nat × Nat)) :
    SamePins (l.foldl (fun u p => Machine.applyPoint p u) s) (l.foldl (fun u p => Machine.applyPoint p u) t) := by
  induction l generalizing s t with
  | nil => exact h
  | cons p l ih => exact ih (h.applyPoint p)

/-! #### The sets of a task -/

/-- The values of a task's sets whose apply time has come, oldest set first; none without power. -/
def State.dueValues (s : State) (t : Nat) : List (Nat × Nat) :=
  (if s.stopped then [] else (s.task t).localSets.filter fun p => decide (p.1 ≤ s.now)).flatMap (·.2)

/-- The task without the sets whose apply time has come. -/
def dropSets (t : Nat) (s : State) : State :=
  modTask t (fun x => { x with localSets := x.localSets.filter fun p => !(decide (p.1 ≤ s.now)) }) s

theorem exec_outputApply (w : When) (task : Fin 16) (s : State) : exec (.outputApply w task) s =
    .next (((s.at w).dueValues task.val).foldl (fun u p => applyPoint p u) (dropSets task.val (s.at w))) := by
  rw [State.dueValues, List.foldl_flatMap]
  rfl

theorem applyPoint_only (p : Nat × Nat) (s : State) :
    Only [.events, .ledger, .keeper, .outputs, .loops, .field, .sessions, .host, .sent] s (applyPoint p s) :=
  (applyPoint_moves p Covers.rfl (.refl _ _)).only

theorem foldl_applyPoint_only (l : List (Nat × Nat)) (s : State) :
    Only [.events, .ledger, .keeper, .outputs, .loops, .field, .sessions, .host, .sent] s (l.foldl (fun u p => applyPoint p u) s) := by
  induction l generalizing s with
  | nil => exact .refl _ _
  | cons p l ih => exact .after (ih _) (applyPoint_only p s)

theorem modTask_only (t : Nat) (f : TaskState → TaskState) (s : State) : Only [.tasks] s (modTask t f s) :=
  (modTask_moves t f Covers.rfl (.refl _ _)).only

theorem dropSets_at_only (t : Nat) (w : When) (s : State) : Only [.time, .tasks] s (dropSets t (s.at w)) :=
  .after (modTask_only _ _ _) (at_only w s (Covers.rfl.trans rfl))

theorem dropSets_pins (t : Nat) (s : State) : SamePins (dropSets t s) s := ⟨rfl, rfl, rfl, rfl, rfl, rfl⟩

theorem dropSets_task {t : Nat} {s : State} (h : t < s.seq.tasks.length) : (dropSets t s).task t =
    { s.task t with localSets := (s.task t).localSets.filter fun p => !(decide (p.1 ≤ s.now)) } :=
  getD_updAt_self h ..

theorem getD_of_lt {α : Type} {l : List α} {j : Nat} (hj : j < l.length) (d : α) : l.getD j d = l[j] := by
  rw [List.getD_eq_getElem?_getD, List.getElem?_eq_getElem hj, Option.getD_some]

theorem updAt_fixed {α : Type} {l : List α} {i : Nat} {f : α → α} (d : α) (h : f (l.getD i d) = l.getD i d) : updAt l i f = l := by
  refine List.ext_getElem (updAt_length ..) fun j hj hj' => ?_
  by_cases hij : i = j
  · subst hij
    have hself := getD_updAt_self hj' f d
    rw [h] at hself
    rwa [getD_of_lt hj, getD_of_lt hj'] at hself
  · have hother := getD_updAt_other hij f d (l := l)
    rwa [getD_of_lt hj, getD_of_lt hj'] at hother

/-- A task none of whose sets is due keeps them. -/
theorem dropSets_waits {t : Nat} {s : State} (h : (s.task t).localSets.all (fun p => decide (s.now < p.1)) = true) :
    dropSets t s = s := by
  have hkeep : (s.task t).localSets.filter (fun p => !(decide (p.1 ≤ s.now))) = (s.task t).localSets :=
    List.filter_eq_self.mpr fun p hp => by simpa using List.all_eq_true.mp h p hp
  have htasks := updAt_fixed (l := s.seq.tasks) (i := t) (f := fun x => { x with
    localSets := x.localSets.filter fun p => !(decide (p.1 ≤ s.now)) }) {} (congrArg (fun l => { s.task t with localSets := l }) hkeep)
  unfold dropSets modTask
  rw [htasks]

theorem dueValues_waits {t : Nat} {s : State} (h : (s.task t).localSets.all (fun p => decide (s.now < p.1)) = true) :
    s.dueValues t = [] := by
  have hnone : (s.task t).localSets.filter (fun p => decide (p.1 ≤ s.now)) = [] :=
    List.filter_eq_nil_iff.mpr fun p hp => by simpa using List.all_eq_true.mp h p hp
  unfold State.dueValues
  rw [hnone]
  split <;> rfl

theorem dueValues_stopped {t : Nat} {s : State} (h : s.stopped = true) : s.dueValues t = [] := by
  unfold State.dueValues
  rw [if_pos h]
  rfl

theorem dueValues_runs {t : Nat} {s : State} (h : s.stopped = false) :
    s.dueValues t = ((s.task t).localSets.filter fun p => decide (p.1 ≤ s.now)).flatMap (·.2) := by
  unfold State.dueValues
  rw [h, if_neg Bool.false_ne_true]

/-- One set of one value that is due reaches its channel. -/
theorem exec_outputApply_one {w : When} {task : Fin 16} {s : State} {a : Nat} {p : Nat × Nat} (hrun : s.stopped = false)
    (hsets : (s.task task.val).localSets = [(a, [p])]) (ha : a ≤ max s.now w.t) :
    exec (.outputApply w task) s = .next (applyPoint p (dropSets task.val (s.at w))) := by
  have hdue : (s.at w).dueValues task.val = [p] := by
    have hnow : (s.at w).now = max s.now w.t := rfl
    rw [dueValues_runs (s := s.at w) hrun, show (s.at w).task task.val = s.task task.val from rfl, hsets, hnow]
    generalize max s.now w.t = m at ha
    simp [ha]
  rw [exec_outputApply, hdue]
  rfl

theorem applyPoint_do (ch : Fin 8) (v : Nat) (s : State) :
    applyPoint (64 + ch.val, v) s = applyLeader (s.doLeader ch.val) (v.testBit 0) s := by
  have h4 : (64 + ch.val) / 16 = 4 := by omega
  have hmod : (64 + ch.val) % 16 = ch.val := by omega
  unfold applyPoint
  dsimp only
  rw [if_pos h4, hmod, applyDo_eq]

theorem applyPoint_ao (c : Fin 4) (v : Nat) (s : State) : applyPoint (80 + c.val, v) s = applyAo c.val v s := by
  have h5 : (80 + c.val) / 16 = 5 := by omega
  have hmod : (80 + c.val) % 16 = c.val := by omega
  unfold applyPoint
  dsimp only
  rw [if_neg (by omega), if_pos h5, hmod]

/-! #### A digital output takes a state -/

theorem modDo_only (j : Nat) (f : DoState → DoState) (s : State) : Only [.outputs] s (modDo j f s) :=
  (modDo_moves j f Covers.rfl (.refl _ _)).only

theorem dout_modDo_self {j : Nat} {s : State} (h : j < s.fio.dout.length) (f : DoState → DoState) :
    (modDo j f s).dout j = f (s.dout j) := getD_updAt_self h ..

theorem lt_of_dout {j : Nat} {s : State} (h : s.dout j ≠ {}) : j < s.fio.dout.length := by
  refine Decidable.byContradiction fun hlen => ?_
  exact h (getD_of_le (Nat.not_lt.mp hlen) _)

/-- What a channel holds that takes the state `v` at `now`. -/
def DoState.driving (x : DoState) (v : Bool) (now : Nat) : DoState :=
  { x with driven := v, want := v, lastChange := some now, waiting := false, mismatch := x.mismatch && !v }

theorem driveDo_eq (j : Nat) (v : Bool) (s : State) : driveDo j v s =
    when ((s.dout j).mismatch && v) fioRefresh (showDo j (modDo j (fun x => x.driving v s.now) s)) := rfl

/-- A channel that takes a state holds it, and its pins follow. -/
theorem driveDo_shows {j : Nat} {v : Bool} {s : State} (h : j < s.fio.dout.length) :
    (driveDo j v s).dout j = (s.dout j).driving v s.now
    ∧ (driveDo j v s).out = .dout j (v && !(s.dout j).shutdown && !(s.dout j).failed && !s.fio.unplugged) :: s.out := by
  have hself : (modDo j (fun x => x.driving v s.now) s).dout j = (s.dout j).driving v s.now := dout_modDo_self h _
  have hshown : (showDo j (modDo j (fun x => x.driving v s.now) s)).out =
      .dout j (v && !(s.dout j).shutdown && !(s.dout j).failed && !s.fio.unplugged) :: s.out := by
    unfold showDo
    rw [hself]
    rfl
  rw [driveDo_eq]
  unfold when
  split
  · exact ⟨(congrArg (fun l : List DoState => l.getD j {}) (fioRefresh_dout _)).trans hself, (fioRefresh_out _).trans hshown⟩
  · exact ⟨hself, hshown⟩

/-- Without a mismatch that it ends, a channel that takes a state changes nothing but its own state and pins. -/
theorem driveDo_only {j : Nat} {v : Bool} {s : State} (h : (s.dout j).mismatch = false) :
    Only [.outputs, .sent] s (driveDo j v s) := by
  rw [driveDo_eq, h, Bool.false_and, when_false]
  exact .after (showDo_moves (P := [.sent]) _ Covers.rfl (.refl _ _)).only (modDo_only _ _ _).mono

theorem doSoon_of_quiet {j : Nat} {s : State} (h : ((s.dout j).lastChange.all fun n => decide (n + toggleTicks ≤ s.now)) = true) :
    s.doSoon j = false := by
  obtain ⟨hnone, hsome⟩ := s.doSoon_of j
  cases hlast : (s.dout j).lastChange with
  | none => exact hnone hlast
  | some n =>
    rw [hlast, Option.all_some] at h
    rw [hsome n hlast]
    exact decide_eq_false (Nat.not_lt.mpr (of_decide_eq_true h))

section
variable {j : Nat} {v : Bool} {s : State} (hactive : s.fio.standby = false) (howned : s.doOwned j = false)
include hactive howned

theorem applyLeader_drives (hsoon : s.doSoon j = false) (hnew : v ≠ (s.dout j).driven) : applyLeader j v s = driveDo j v s := by
  unfold applyLeader
  rw [hactive, howned, hsoon, if_neg (by simp), if_neg Bool.false_ne_true, if_neg hnew]

theorem applyLeader_waits (hsoon : s.doSoon j = true) (hnot : (s.dout j).waiting = false) (hnew : v ≠ (s.dout j).driven) :
    applyLeader j v s = modDo j (fun y => { y with want := v, waiting := true })
      { s with fio := { s.fio with doDefer := tallyInc s.fio.doDefer } } := by
  unfold applyLeader
  rw [hactive, howned, hsoon, hnot, if_neg (by simp), if_pos rfl, if_neg Bool.false_ne_true, if_neg hnew]

end

theorem deferred_only (s : State) : Only [.field] s { s with fio := { s.fio with doDefer := tallyInc s.fio.doDefer } } := by
  refine ⟨rfl, fun p hp => ?_⟩
  cases p
  case field => exact absurd List.mem_cons_self hp
  all_goals simp [Part.Same]

/-! #### The end of a wait, and the commands of a digital output -/

/-- The wait of a channel for its toggle limit ends (R375, R91). -/
def endWait (j : Nat) (s : State) : State :=
  if (s.dout j).waiting && s.doOwned j then modDo j (fun y => { y with waiting := false }) s
  else if (s.dout j).waiting && !s.doSoon j then
    (if (s.dout j).want = (s.dout j).driven then modDo j (fun y => { y with waiting := false }) s else driveDo j (s.dout j).want s)
  else s

theorem State.not_doSoon_of {s : State} {j n : Nat} (h : (s.dout j).lastChange = some n) :
    (!s.doSoon j) = decide (n + toggleTicks ≤ s.now) := by
  rw [(s.doSoon_of j).2 n h, ← decide_not]
  simp only [Nat.not_lt]

theorem exec_doToggleWaitEnd (w : When) (ch : Fin 8) (s : State) :
    exec (.doToggleWaitEnd w ch) s = .next (endWait (s.doLeader ch.val) (s.at w)) := by
  have hnone := ((s.at w).doSoon_of ((s.at w).doLeader ch.val)).1
  refine congrArg Host.Outcome.next ?_
  show _ = endWait ((s.at w).doLeader ch.val) (s.at w)
  unfold endWait
  cases hlast : ((s.at w).dout ((s.at w).doLeader ch.val)).lastChange with
  | none => rw [hnone hlast, Bool.not_false]
  | some n => rw [State.not_doSoon_of hlast]

theorem endWait_owned {j : Nat} {s : State} (hwait : (s.dout j).waiting = true) (howned : s.doOwned j = true) :
    endWait j s = modDo j (fun y => { y with waiting := false }) s := by
  unfold endWait
  rw [hwait, howned, if_pos (by decide)]

theorem endWait_stays {j : Nat} {s : State} (howned : (s.dout j).waiting = false ∨ s.doOwned j = false)
    (hsoon : (s.dout j).waiting = false ∨ s.doSoon j = true) : endWait j s = s := by
  unfold endWait
  cases hwait : (s.dout j).waiting
  · simp
  · rw [howned.resolve_left (by simp [hwait]), hsoon.resolve_left (by simp [hwait])]
    simp

theorem endWait_quiet {j : Nat} {s : State} (hwait : (s.dout j).waiting = true) (howned : s.doOwned j = false)
    (hsoon : s.doSoon j = false) : endWait j s =
      if (s.dout j).want = (s.dout j).driven then modDo j (fun y => { y with waiting := false }) s else driveDo j (s.dout j).want s := by
  unfold endWait
  rw [hwait, howned, hsoon, if_neg (by decide), if_pos (by decide)]

theorem doOff20_iff (s : State) (j : Nat) : s.doOff20 j = true ↔ (s.dout j).driven = false ∧ ∀ n, (s.dout j).lastChange = some n →
    n + msTicks 20 ≤ s.now := by
  unfold State.doOff20
  cases hlast : (s.dout j).lastChange with
  | none => simp
  | some n => simp

theorem modAo_only (c : Nat) (f : AoState → AoState) (s : State) : Only [.loops] s (modAo c f s) :=
  (modAo_moves c f Covers.rfl (.refl _ _)).only

theorem ao_modAo_self {c : Nat} {s : State} (h : c < s.fio.ao.length) (f : AoState → AoState) :
    (modAo c f s).ao c = f (s.ao c) := getD_updAt_self h ..

/-- A commanded loop output drives its command; from high impedance it starts at the target (R377, R382). -/
theorem applyAo_shows {c v : Nat} {s : State} (hactive : s.fio.standby = false) (hmode : s.aoMode c ≠ 0) :
    ∃ g : AoState → AoState, applyAo c v s = showAo c (modAo c g s) ∧ (g (s.ao c)).cmd = v ∧ (g (s.ao c)).driving = true
    ∧ ((s.ao c).driving = false → (g (s.ao c)).from10 = aoTarget { s.ao c with cmd := v }) := by
  have hcond : ¬(s.fio.standby || s.aoMode c == 0) = true := by simp [hactive, hmode]
  unfold applyAo
  rw [if_neg hcond]
  dsimp only
  cases hdriving : (s.ao c).driving
  · exact ⟨_, rfl, rfl, rfl, fun _ => rfl⟩
  · exact ⟨_, rfl, rfl, hdriving, fun h => absurd h (by decide)⟩

theorem doSoon_of_last {j n : Nat} {s : State} (h : (s.dout j).lastChange = some n) (hn : s.now < n + toggleTicks) :
    s.doSoon j = true := by
  rw [(s.doSoon_of j).2 n h]
  exact decide_eq_true hn

theorem driveDo_at_only (j : Nat) (v : Bool) (w : When) (s : State) :
    Only [.time, .events, .ledger, .keeper, .outputs, .field, .sessions, .host, .sent] s (driveDo j v (s.at w)) :=
  .after (driveDo_moves (P := [.events, .ledger, .keeper, .outputs, .field, .sessions, .host, .sent]) j v Covers.rfl (.refl _ _)).only
    (at_only w s (Covers.rfl.trans rfl))

theorem modDo_at_only (j : Nat) (f : DoState → DoState) (w : When) (s : State) : Only [.time, .outputs] s (modDo j f (s.at w)) :=
  .after (modDo_only _ _ _) (at_only w s (Covers.rfl.trans rfl))

/-- The refreshed state after a change of a channel shows that channel as changed. -/
theorem dout_refreshed {j : Nat} {s : State} (h : j < s.fio.dout.length) (f : DoState → DoState) :
    (fioRefresh (modDo j f s)).dout j = f (s.dout j) :=
  (congrArg (fun l : List DoState => l.getD j {}) (fioRefresh_dout _)).trans (dout_modDo_self h f)

/-- Settles O56: sets by `exec_outputApply`, single values and commands by the branch that the hypotheses select. -/
theorem fieldOutputs : Obligations.FieldOutputs := by
  unfold Obligations.FieldOutputs
  refine ⟨?sets, ?waiting, ?applied, ?unpowered, ?drives, ?deferred, ?loop, ?released, ?sameValue, ?owned, ?stays, ?shutdown,
    ?shutdownOff, ?retry, ?retryFails, ?mismatch, ?noMismatch, ?mismatchEnds, doOff20_iff⟩
  case sets =>
    intro w task s hlen
    have honly := foldl_applyPoint_only ((s.at w).dueValues task.val) (dropSets task.val (s.at w))
    have htask : ((((s.at w).dueValues task.val).foldl (fun u p => applyPoint p u) (dropSets task.val (s.at w))).task task.val) = _ :=
      (congrArg (fun l : List TaskState => l.getD task.val {}) (honly.2 .tasks (by decide))).trans (dropSets_task (s := s.at w) hlen)
    exact ⟨_, exec_outputApply w task s, .after honly ((dropSets_at_only _ w s).mono), (congrArg TaskState.localSets htask).trans rfl,
      (congrArg TaskState.cycles htask).trans rfl⟩
  case waiting =>
    intro w task s h
    have hexec := exec_outputApply w task s
    rw [dueValues_waits (s := s.at w) h, dropSets_waits (s := s.at w) h] at hexec
    exact ⟨_, hexec, at_only w s Covers.rfl⟩
  case applied =>
    intro w task s hrun hlen
    have hpins := (dropSets_pins task.val (s.at w)).foldl_applyPoint ((s.at w).dueValues task.val)
    have hexec := exec_outputApply w task s
    have honly := foldl_applyPoint_only ((s.at w).dueValues task.val) (dropSets task.val (s.at w))
    rw [dueValues_runs (s := s.at w) hrun] at hpins hexec honly
    exact ⟨_, hexec, .after honly (dropSets_at_only _ w s).mono, hpins.fio, hpins.out⟩
  case unpowered =>
    intro w task s hstopped
    have hexec := exec_outputApply w task s
    rw [dueValues_stopped (s := s.at w) hstopped] at hexec
    exact ⟨_, hexec, dropSets_at_only _ w s, rfl⟩
  case drives =>
    intro w task ch v a s hrun hsets ha hactive howned hquiet hnew hmis hlen
    have hexec := exec_outputApply_one hrun hsets ha
    rw [applyPoint_do] at hexec
    have hdrives := applyLeader_drives (s := dropSets task.val (s.at w)) (v := v.testBit 0) hactive howned
      (doSoon_of_quiet (s := dropSets task.val (s.at w)) hquiet) hnew
    obtain ⟨hself, hout⟩ := driveDo_shows (s := dropSets task.val (s.at w)) (v := v.testBit 0) hlen
    exact ⟨_, hexec.trans (congrArg Host.Outcome.next hdrives), .after (driveDo_only hmis) (dropSets_at_only _ w s).mono,
      (congrArg DoState.driven hself).trans rfl, (congrArg DoState.lastChange hself).trans rfl, hout⟩
  case deferred =>
    intro w task ch v a n s hrun hsets ha hactive howned hlast hn hnot hnew hlen
    have hexec := exec_outputApply_one hrun hsets ha
    rw [applyPoint_do] at hexec
    have hwaits := applyLeader_waits (s := dropSets task.val (s.at w)) (v := v.testBit 0) hactive howned
      (doSoon_of_last (s := dropSets task.val (s.at w)) hlast hn) hnot hnew
    have hself := dout_modDo_self (s := { dropSets task.val (s.at w) with fio := { (dropSets task.val (s.at w)).fio with
      doDefer := tallyInc (dropSets task.val (s.at w)).fio.doDefer } }) hlen (fun y => { y with want := v.testBit 0, waiting := true })
    exact ⟨_, hexec.trans (congrArg Host.Outcome.next hwaits),
      .after (modDo_only _ _ _) (.after (deferred_only _) (dropSets_at_only _ w s).mono),
      (congrArg DoState.driven hself).trans rfl, (congrArg DoState.waiting hself).trans rfl, (congrArg DoState.want hself).trans rfl, rfl⟩
  case loop =>
    intro w task ch v a s hrun hsets ha hactive hmode hlen
    have hexec := exec_outputApply_one hrun hsets ha
    rw [applyPoint_ao] at hexec
    obtain ⟨g, heq, hcmd, hdriving, hfrom⟩ := applyAo_shows (s := dropSets task.val (s.at w)) (v := v) hactive hmode
    have hself := ao_modAo_self (s := dropSets task.val (s.at w)) hlen g
    rw [heq] at hexec
    exact ⟨_, hexec, .after (showAo_moves (P := [.sent]) _ Covers.rfl (.refl _ _)).only (.after (modAo_only _ _ _) (dropSets_at_only _ w s).mono),
      (congrArg AoState.cmd hself).trans hcmd, (congrArg AoState.driving hself).trans hdriving,
      fun h => (congrArg AoState.from10 hself).trans (hfrom h), rfl⟩
  case released =>
    intro w ch s howned hwait hquiet hnew
    have hlen : s.doLeader ch.val < s.fio.dout.length := lt_of_dout fun h => by simp [h] at hwait
    have hend := endWait_quiet (s := s.at w) hwait howned (doSoon_of_quiet (s := s.at w) hquiet)
    replace hend := hend.trans (if_neg hnew)
    obtain ⟨hself, hout⟩ := driveDo_shows (s := s.at w) (v := (s.dout (s.doLeader ch.val)).want) hlen
    exact ⟨_, (exec_doToggleWaitEnd w ch s).trans (congrArg Host.Outcome.next hend), driveDo_at_only _ _ w s,
      (congrArg DoState.driven hself).trans rfl, (congrArg DoState.waiting hself).trans rfl, (congrArg DoState.lastChange hself).trans rfl,
      (congrArg DoState.mismatch hself).trans rfl, hout⟩
  case sameValue =>
    intro w ch s howned hwait hquiet hsame
    have hlen : s.doLeader ch.val < s.fio.dout.length := lt_of_dout fun h => by simp [h] at hwait
    have hend := endWait_quiet (s := s.at w) hwait howned (doSoon_of_quiet (s := s.at w) hquiet)
    replace hend := hend.trans (if_pos hsame)
    have hself := dout_modDo_self (s := s.at w) hlen (fun y => { y with waiting := false })
    exact ⟨_, (exec_doToggleWaitEnd w ch s).trans (congrArg Host.Outcome.next hend), modDo_at_only _ _ w s,
      (congrArg DoState.driven hself).trans rfl, (congrArg DoState.waiting hself).trans rfl, (congrArg DoState.lastChange hself).trans rfl⟩
  case owned =>
    intro w ch s howned hlen
    have hself := dout_modDo_self (s := s.at w) hlen (fun y => { y with waiting := false })
    cases hwait : (s.dout (s.doLeader ch.val)).waiting
    · have hend := endWait_stays (s := s.at w) (.inl hwait) (.inl hwait)
      exact ⟨_, (exec_doToggleWaitEnd w ch s).trans (congrArg Host.Outcome.next hend), (at_only w s Covers.rfl).mono, hwait, rfl, rfl⟩
    · have hend := endWait_owned (s := s.at w) hwait howned
      exact ⟨_, (exec_doToggleWaitEnd w ch s).trans (congrArg Host.Outcome.next hend), modDo_at_only _ _ w s,
        (congrArg DoState.waiting hself).trans rfl, (congrArg DoState.driven hself).trans rfl, (congrArg DoState.want hself).trans rfl⟩
  case stays =>
    intro w ch n s howned hlast hn
    have hsoon : (s.dout (s.doLeader ch.val)).waiting = false ∨ (s.at w).doSoon (s.doLeader ch.val) = true := by
      rcases hlast with h | hlast
      · exact .inl h
      rcases hn with h | hn
      · exact .inl h
      · exact .inr (doSoon_of_last (s := s.at w) hlast hn)
    exact ⟨_, (exec_doToggleWaitEnd w ch s).trans (congrArg Host.Outcome.next (endWait_stays (s := s.at w) howned hsoon)), at_only w s Covers.rfl⟩
  case shutdown =>
    intro w ch s hdriven
    have hlen : s.doLeader ch.val < s.fio.dout.length := lt_of_dout fun h => by simp [h] at hdriven
    have hself := dout_modDo_self (s := s.at w) hlen (fun x => { x with shutdown := true })
    have hdout := congrArg (fun l : List DoState => l.getD (s.doLeader ch.val) {})
      (fioRefresh_dout (emit (.dout (s.doLeader ch.val) false) (modDo (s.doLeader ch.val) (fun x => { x with shutdown := true }) (s.at w))))
    exact ⟨_, congrArg Host.Outcome.next (if_pos hdriven), (fioRefresh_only _).1, congrArg DoState.shutdown (hdout.trans hself),
      (congrArg DoState.driven (hdout.trans hself)).trans hdriven, fioRefresh_out _, fioRefresh_di _⟩
  case shutdownOff =>
    exact fun w ch s h => ⟨_, congrArg Host.Outcome.next (if_neg (by exact fun hno => Bool.false_ne_true (h.symm.trans hno))), at_only w s Covers.rfl⟩
  case retry =>
    intro w ch s hdriven hshut hfail
    have hlen : s.doLeader ch.val < s.fio.dout.length := lt_of_dout fun h => by simp [h] at hdriven
    have hself := dout_modDo_self (s := s.at w) hlen (fun y => { y with shutdown := false })
    have hdout := congrArg (fun l : List DoState => l.getD (s.doLeader ch.val) {})
      (fioRefresh_dout (showDo (s.doLeader ch.val) (modDo (s.doLeader ch.val) (fun x => { x with shutdown := false }) (s.at w))))
    have hout : (showDo (s.doLeader ch.val) (modDo (s.doLeader ch.val) (fun x => { x with shutdown := false }) (s.at w))).out =
        .dout (s.doLeader ch.val) (!s.fio.unplugged) :: s.out := by
      unfold showDo
      rw [hself]
      show Out.dout _ (_ && !false && !_ && !s.fio.unplugged) :: s.out = _
      rw [show ((s.at w).dout (s.doLeader ch.val)).driven = true from hdriven,
        show ((s.at w).dout (s.doLeader ch.val)).failed = false from hfail]
      rfl
    refine ⟨_, congrArg Host.Outcome.next (if_pos ?_), (fioRefresh_only _).1, congrArg DoState.shutdown (hdout.trans hself),
      (congrArg DoState.driven (hdout.trans hself)).trans hdriven, (fioRefresh_out _).trans hout⟩
    show ((s.dout (s.doLeader ch.val)).shutdown && (s.dout (s.doLeader ch.val)).driven && true && !(s.dout (s.doLeader ch.val)).failed) = true
    rw [hshut, hdriven, hfail]
    rfl
  case retryFails =>
    exact fun w ch s => ⟨_, congrArg Host.Outcome.next (if_neg (by simp)), at_only w s Covers.rfl⟩
  case mismatch =>
    intro w ch s hoff hshared hlen
    have hself := dout_refreshed (s := s.at w) hlen (fun x => { x with mismatch := true })
    refine ⟨_, congrArg Host.Outcome.next (if_neg ?_), (fioRefresh_only _).1, (congrArg DoState.mismatch hself).trans rfl,
      (congrArg DoState.driven hself).trans ((doOff20_iff _ _).mp hoff).1, fioRefresh_di _⟩
    rw [show (s.at w).doOff20 ((s.at w).doLeader ch.val) = true from hoff, show (s.at w).doShared ((s.at w).doLeader ch.val) = false from hshared]
    decide
  case noMismatch =>
    intro w ch s h
    refine ⟨_, congrArg Host.Outcome.next (if_pos ?_), at_only w s Covers.rfl⟩
    show (true && (!(s.at w).doOff20 (s.doLeader ch.val) || s.doShared (s.doLeader ch.val))) = true
    rcases h with h | h
    · rw [h]; rfl
    · rw [h, Bool.or_true]; rfl
  case mismatchEnds =>
    intro w ch s hlen
    have hself := dout_refreshed (s := s.at w) hlen (fun x => { x with mismatch := false })
    exact ⟨_, congrArg Host.Outcome.next (if_neg (by simp)), (fioRefresh_only _).1, (congrArg DoState.mismatch hself).trans rfl,
      (congrArg DoState.driven hself).trans rfl, fioRefresh_di _⟩

end Sys2Proof.Machine


/-! ### A message of the host that is served

A session that serves a message has no reply waiting and stands before publication, so the reply leaves at once. -/

namespace Sys2Proof.Machine

set_option Elab.async false

open Sys2Proof

theorem modSes_only (i : Fin 8) (f : Session → Session) (s : State) : Only [.sessions] s (modSes i f s) :=
  (modSes_moves i f Covers.rfl (.refl _ _)).only

theorem session_modSes {i : Fin 8} {x : Session} {s : State} (h : s.hif.sessions.getD i.val none = some x) (f : Session → Session) :
    (modSes i f s).hif.sessions.getD i.val none = some (f x) := by
  have hlen : i.val < s.hif.sessions.length := by
    refine Decidable.byContradiction fun hlen => ?_
    rw [getD_of_le (Nat.not_lt.mp hlen) _] at h
    cases h
  refine (getD_updAt_self hlen ..).trans ?_
  rw [h]
  rfl

/-- A session's message is read: it is outstanding until its reply leaves. -/
def received (i : Fin 8) (ty : Nat) (s : State) : State :=
  modSes i (fun y => { y with outstanding := y.outstanding + 1, lastMsg := s.aon, reqTy := ty, reqTag := s.msgTag }) s

/-- The session `x` of index `i` has a request at hand, no reply before it, and no publication before that. -/
structure Asked (i : Fin 8) (x : Session) (s : State) : Prop where
  session : s.hif.sessions.getD i.val none = some x
  noReply : x.replies = []
  first : s.pubFirst x.port = false

/-- What a session holds whose message has been read. -/
def Session.received (x : Session) (ty tag now : Nat) : Session :=
  { x with outstanding := x.outstanding + 1, lastMsg := now, reqTy := ty, reqTag := tag }

theorem serves_session {s : State} {i : Fin 8} {r : Nat} (h : s.serves i r = true) : ∃ x, s.hif.sessions.getD i.val none = some x
    ∧ s.pubFirst x.port = false ∧ x.helloDone = true ∧ x.bootstrap = false ∧ x.replies = [] ∧ 0 < x.role ∧ r ≤ x.role
    ∧ x.outstanding < 16 := by
  unfold State.serves at h
  split at h
  next x heq =>
    simp only [Bool.and_eq_true, Bool.not_eq_true', List.isEmpty_iff, decide_eq_true_eq] at h
    obtain ⟨⟨⟨⟨hpub, hhello⟩, hboot⟩, hreplies⟩, hrole, hr, hout⟩ := h
    exact ⟨x, heq, hpub, hhello, hboot, hreplies, hrole, hr, hout⟩
  next => exact absurd h (by decide)

theorem withSession_serves {s : State} {i : Fin 8} {r : Nat} (h : s.serves i r = true) (ty : Nat) (boot : Bool) (f : State → State) :
    withSession i ty r boot f s = f (received i ty s) := by
  obtain ⟨x, hx, _, hhello, hboot, _, hrole, hr, hout⟩ := serves_session h
  unfold withSession
  rw [hx]
  dsimp only
  rw [if_neg (by omega), hhello, hboot, if_neg (by decide), if_neg (by cases boot <;> decide), if_neg (by omega)]
  rfl

theorem received_asked {s : State} {i : Fin 8} {r : Nat} (h : s.serves i r = true) (ty : Nat) :
    ∃ x, s.hif.sessions.getD i.val none = some x ∧ Asked i (x.received ty s.msgTag s.aon) (received i ty s) := by
  obtain ⟨x, hx, hpub, _, _, hreplies, _⟩ := serves_session h
  exact ⟨x, hx, session_modSes hx _, hreplies, hpub⟩

theorem received_only (i : Fin 8) (ty : Nat) (s : State) : Only [.sessions] s (received i ty s) := modSes_only ..

theorem received_at_only (i : Fin 8) (ty : Nat) (w : When) (s : State) : Only [.time, .sessions] s (received i ty (s.at w)) :=
  .after (received_only ..) (at_only w s (Covers.rfl.trans rfl))

/-- An answer of an asked session leaves at once, and the session's request is no longer outstanding. -/
theorem answer_asked {i : Fin 8} {x : Session} {s : State} (h : Asked i x s) (status detail : Nat) (payload : List Nat) :
    (answer i status detail payload s).hif.sessions.getD i.val none =
      some { x with lastMsg := s.aon, outstanding := x.outstanding - 1, replies := [] }
    ∧ (answer i status detail payload s).out =
      .shp i.val { length := 4 * payload.length, ty := x.reqTy, flags := 1, tag := x.reqTag } status detail payload :: s.out := by
  obtain ⟨hx, hreplies, hpub⟩ := h
  have hses := session_modSes hx fun x => { x with replies := x.replies ++
    [{ ty := x.reqTy, tag := x.reqTag, status := status, detail := detail, payload := payload }] }
  rw [hreplies, List.nil_append] at hses
  unfold answer
  generalize hu : modSes i (fun x => { x with replies := x.replies ++
    [{ ty := x.reqTy, tag := x.reqTag, status := status, detail := detail, payload := payload }] }) s = u at hses
  have haon : u.aon = s.aon := by rw [← hu]; rfl
  have hout : u.out = s.out := by rw [← hu]; rfl
  have hfirst : u.pubFirst x.port = false := by rw [← hu]; exact hpub
  unfold sendReplies
  rw [hses]
  dsimp only
  rw [hfirst, if_neg Bool.false_ne_true]
  unfold flushReplies
  rw [hses]
  refine ⟨(session_modSes hses _).trans ?_, ?_⟩
  · rw [haon]; rfl
  · rw [← hout]; rfl

theorem reply_eq_answer {status : Nat} (hst : status ≠ 3) (i : Fin 8) (detail : Nat) (payload : List Nat) (s : State) :
    reply i status detail payload s = answer i status detail payload s := by
  unfold reply countRole
  rw [decide_eq_false hst, when_false]

theorem answer_only (i : Fin 8) (status detail : Nat) (payload : List Nat) (s : State) :
    Only [.sessions, .sent] s (answer i status detail payload s) := (answer_moves i status detail payload Covers.rfl (.refl _ _)).only

theorem reply_only {status : Nat} (hst : status ≠ 3) (i : Fin 8) (detail : Nat) (payload : List Nat) (s : State) :
    Only [.sessions, .sent] s (reply i status detail payload s) := by
  rw [reply_eq_answer hst]
  exact answer_only ..

/-- A served message that is only replied to. -/
theorem reply_served {w : When} {i : Fin 8} {r ty status detail : Nat} {payload : List Nat} {s : State}
    (h : s.serves i r = true) (hst : status ≠ 3) :
    Only [.time, .sessions, .sent] s (reply i status detail payload (received i ty (s.at w)))
    ∧ (reply i status detail payload (received i ty (s.at w))).out = shpOut w ty i.val status detail payload :: s.out := by
  obtain ⟨x, _, hasked⟩ := received_asked (s := s.at w) h ty
  refine ⟨.after (reply_only hst ..) (received_at_only i ty w s).mono, ?_⟩
  rw [reply_eq_answer hst]
  exact (answer_asked hasked ..).2

end Sys2Proof.Machine


/-! ### The loop outputs, and the errors of a source (O57)

A report counts in the unit's own tally, and the collector takes the difference to the last sample: where the tally of a cage
stands ahead of its sample, one report brings several events (R22). -/

namespace Sys2Proof.Machine

set_option Elab.async false

open Sys2Proof

/-- Source 35 with a threshold of 100 and a tally of cage 0 that the collector has not sampled. -/
def unsampledSource : FcrSource := { n := 100, tallies := [{ unit := 0, count := 5 }] }

/-- The module of that source. -/
def unsampledTally : State := { fcr := { sources := List.replicate 48 unsampledSource } }

/-- One error of the cage brings the five reports not sampled before as well. -/
theorem exec_sourceSevere_unsampledTally :
    ∃ t, exec (.sourceSevere { t := 0 } 35 { d0 := 0, d1 := 0, d2 := 0 } { count := 1, inst := 0 }) unsampledTally = .next t
    ∧ (t.source 35).events = 6 := ⟨_, rfl, rfl⟩

/-- Refutes O57: its last clause counts one event for one error. The collector counts what the cage's tally has risen by since
it was sampled. -/
theorem not_loopOutputs : ¬ Obligations.LoopOutputs := by
  unfold Obligations.LoopOutputs
  rintro ⟨_, _, _, _, _, _, _, _, _, _, _, _, _, _, _, _, _, _, _, _, hcounts⟩
  obtain ⟨t, ht, -, hevents, -⟩ := hcounts { t := 0 } { d0 := 0, d1 := 0, d2 := 0 } 0 unsampledTally (by decide) (by decide) (by decide)
    (by decide) (by decide)
  obtain ⟨t', ht', hsix⟩ := exec_sourceSevere_unsampledTally
  obtain rfl : t = t' := by rw [ht] at ht'; injection ht'
  rw [hsix] at hevents
  exact absurd hevents (by decide)

end Sys2Proof.Machine


/-! ### Commissioning and the governor (O46): the page that wears out the keeper -/

namespace Sys2Proof.Machine

set_option Elab.async false

open Sys2Proof

/-- A module whose keeper has no life left and still is OK, with a page that waits while the store of a committed delta is under
way and the link to its partner is up. -/
def wornKeeper : State :=
  { kpr := { cartridge := some { replaceLeft := 0 }, state := 2, jobs := [{}] }
    bsl := { storing := true, storeDelta := true }
    wvl := { lanesUp := 1 } }

/-- The link sequence number that a result leaves. -/
def lseqAfter : Result → Nat
  | .next t => t.wvl.lseq
  | _ => 0

/-- The page makes the keeper READ_ONLY, the store fails with it (R52), and the partner is told so on the link (R60). -/
theorem lseqAfter_keeperPageAdmit : lseqAfter (exec (.keeperPageAdmit { t := 0 }) wornKeeper) = 1 := by
  decide +kernel

/-- Refutes O46: its sixth clause leaves the pair as it was, but the page that ends the keeper's life fails a store under way,
and the failure takes a link sequence number. -/
theorem not_commissioningAndTheGovernor : ¬ Obligations.CommissioningAndTheGovernor := by
  unfold Obligations.CommissioningAndTheGovernor
  rintro ⟨_, _, _, _, _, hadmits, _⟩
  obtain ⟨t, ht, -, -, -, hwvl⟩ := hadmits { t := 0 } {} [] wornKeeper rfl (by decide) (by decide) rfl rfl (by decide)
  have hlseq := lseqAfter_keeperPageAdmit
  rw [ht, lseqAfter, hwvl] at hlseq
  exact absurd hlseq (by decide)

end Sys2Proof.Machine


/-! ### The stores of a committed stream (O53) -/

namespace Sys2Proof.Machine

set_option Elab.async false

open Sys2Proof

/-! #### The keeper in its slot, which the ledger's pages leave -/

/-- The keeper in its slot: its state, the bolt, the cartridge. -/
def KprState.mounted (x : KprState) : Nat × Bool × Option Cartridge := (x.state, x.boltOpen, x.cartridge)

theorem keeperWritable_congr {s t : State} (h : t.kpr.mounted = s.kpr.mounted) : t.keeperWritable = s.keeperWritable := by
  simp only [KprState.mounted, Prod.mk.injEq] at h
  obtain ⟨hstate, hbolt, hcart⟩ := h
  unfold State.keeperWritable
  rw [hstate, hbolt, hcart]

theorem ite_mounted {a b : State} {d : Nat × Bool × Option Cartridge} {c : Prop} [Decidable c] (ha : a.kpr.mounted = d)
    (hb : b.kpr.mounted = d) : (if c then a else b).kpr.mounted = d := by
  split <;> assumption

theorem raise_mounted (r : EvtReg) (bit : Nat) (s : State) : (raise r bit s).kpr.mounted = s.kpr.mounted :=
  congrArg KprState.mounted (raise_kpr r bit s)

theorem queueJob_mounted (j : KprJob) (s : State) : (queueJob j s).kpr.mounted = s.kpr.mounted :=
  ite_mounted rfl ((raise_mounted ..).trans rfl)

theorem queueLedger_mounted (force : Bool) (s : State) : (queueLedger force s).kpr.mounted = s.kpr.mounted :=
  ite_mounted (queueJob_mounted ..) rfl

theorem noteHold_mounted (was : Nat) (s : State) : (noteHold was s).kpr.mounted = s.kpr.mounted := ite_mounted (raise_mounted ..) rfl

theorem holdRecord_mounted (r : LedgerRecord) (s : State) : (holdRecord r s).kpr.mounted = s.kpr.mounted := by
  refine ite_mounted ((raise_mounted ..).trans rfl) ((queueLedger_mounted ..).trans ((noteHold_mounted ..).trans ?_))
  cases s.recordOwner <;> rfl

theorem suppressRecord_mounted (code time : Nat) (s : State) : (suppressRecord code time s).kpr.mounted = s.kpr.mounted :=
  ite_mounted ((raise_mounted ..).trans rfl) rfl

theorem ledger_mounted (code source : Nat) (data : List Nat) (s : State) : (ledger code source data s).kpr.mounted = s.kpr.mounted := by
  unfold ledger admitRecord
  split
  · exact holdRecord_mounted ..
  split
  · exact (holdRecord_mounted ..).trans rfl
  · exact (suppressRecord_mounted ..).trans rfl

theorem fioRefresh_mounted (s : State) : (fioRefresh s).kpr.mounted = s.kpr.mounted := by
  unfold fioRefresh
  dsimp only
  unfold when
  split <;> split <;> split <;> simp only [ledger_mounted, hwSet_kpr]

theorem fioStandby_mounted (s : State) : (fioStandby s).kpr.mounted = s.kpr.mounted := (fioRefresh_mounted _).trans rfl

theorem laneChange_mounted (lane : Nat) (up : Bool) (s : State) : (laneChange lane up s).kpr.mounted = s.kpr.mounted :=
  (raise_mounted ..).trans ((congrArg KprState.mounted (report_kpr ..)).trans ((ledger_mounted ..).trans rfl))

theorem laneHeard_mounted (h : LinkHdr) (s : State) : (laneHeard h s).kpr.mounted = s.kpr.mounted :=
  ite_mounted rfl ((laneChange_mounted ..).trans rfl)

theorem yieldHeard_mounted (newer : Bool) (h : LinkHdr) (s : State) : (yieldHeard newer h s).kpr.mounted = s.kpr.mounted :=
  ite_mounted rfl rfl

theorem frameSeen_mounted (h : LinkHdr) (s : State) : (frameSeen h s).kpr.mounted = s.kpr.mounted := by
  obtain ⟨newer, heq⟩ := frameSeen_eq h s
  rw [heq]
  exact ite_mounted ((fioStandby_mounted _).trans ((yieldHeard_mounted ..).trans (laneHeard_mounted h s)))
    ((yieldHeard_mounted ..).trans (laneHeard_mounted h s))

/-- A valid frame leaves the loader and the configuration. -/
theorem frameSeen_loads (h : LinkHdr) (s : State) : (frameSeen h s).bsl = s.bsl ∧ (frameSeen h s).cfg = s.cfg :=
  have hm : Moves [.events, .pair, .faults, .ledger, .keeper, .outputs, .loops, .field, .sessions, .host, .sent] s (frameSeen h s) :=
    frameSeen_moves h Covers.rfl (.refl _ s)
  ⟨hm.keeps .loader rfl, hm.keeps .config rfl⟩

/-! #### A store that fails -/

theorem noteRefusal_eq (code sec detail off : Nat) (s : State) : noteRefusal code sec detail off s =
    ledger 0x1001 0xFFFF [code, sec, detail, off] (raise .bsl 0 (hwSet 0x100004 5 none
      { s with bsl := { s.bsl with refused := true, refuse := packRefuse code sec detail, refuseOffset := off } })) := rfl

theorem noteRefusal_bsl (code sec detail off : Nat) (s : State) : (noteRefusal code sec detail off s).bsl =
    { s.bsl with refused := true, refuse := packRefuse code sec detail, refuseOffset := off } := by
  rw [noteRefusal_eq, ledger_bsl, raise_bsl, hwSet_bsl]

/-- A complete store of a delta is taken back with its slot (R60). -/
def storeUndone (s : State) : State := if s.bsl.storeDelta && decide (s.bsl.ownDone = some true) then emptyPrev s else s

/-- The pages that wait are withdrawn, and the commit is refused where this module answers for it (R52, R60). -/
def storeRefused (known : Bool) (s : State) : State :=
  when (!s.bsl.storeDelta || s.primary || known) (noteRefusal 0x17 0 0 0) (dropStream s)

/-- The partner is told of a failure that it did not tell (R60). -/
def failureTold (told : Bool) (s : State) : State := when (s.bsl.storeDelta && !told) (linkSend 0x62 [0]) s

/-- What a store's failure brings before the store ends. -/
def failedStore (told : Bool) (s : State) : State := failureTold told (storeRefused s.bsl.committer.isSome (storeUndone s))

/-- No store is under way any more; a delta's swap is given up. -/
def storeGivenUp (s : State) : State :=
  { s with
    bsl := { s.bsl with storing := false, storeDelta := false, ownDone := none, partnerDone := none, committer := none, swapPending := false }
    cfg := if s.bsl.storeDelta then { s.cfg with next := none, carried := [], swapped := [], fixedA := false, merged := [] } else s.cfg }

theorem storeGivenUp_refuse (s : State) : (storeGivenUp s).bsl.refuse = s.bsl.refuse := rfl

theorem storeFailed_eq (told : Bool) {s : State} (h : s.bsl.storing = true) : storeFailed told s =
    answerLoad s.bsl.committer (when s.bsl.swapPending (raise .bsl 1) (storeGivenUp (failedStore told s))).bsl.storeGen 8 0x17
      (when s.bsl.swapPending (raise .bsl 1) (storeGivenUp (failedStore told s))) := by
  unfold storeFailed
  rw [h]
  cases s.bsl.swapPending
  · rfl
  · simp only [when_true, raise_bsl]
    rfl

/-- A store that fails over a state leaves what neither the answer nor source 158 changes. -/
theorem storeFailed_keeps (told : Bool) {s : State} (h : s.bsl.storing = true) :
    (storeFailed told s).bsl = (storeGivenUp (failedStore told s)).bsl
    ∧ (storeFailed told s).cfg = (storeGivenUp (failedStore told s)).cfg
    ∧ (storeFailed told s).kpr.cartridge = (failedStore told s).kpr.cartridge
    ∧ (storeFailed told s).pending = (failedStore told s).pending := by
  rw [storeFailed_eq told h]
  generalize hu : storeGivenUp (failedStore told s) = u
  have hcart : u.kpr.cartridge = (failedStore told s).kpr.cartridge := by rw [← hu]; rfl
  have hpend : u.pending = (failedStore told s).pending := by rw [← hu]; rfl
  have hraise : Moves [.events, .sessions, .host] u (when s.bsl.swapPending (raise .bsl 1) u) :=
    when_moves (fun _ ht => raise_moves _ _ (Covers.rfl.trans rfl) ht) (.refl _ _)
  generalize when s.bsl.swapPending (raise .bsl 1) u = v at hraise
  have hanswer : Moves [.sessions, .sent] v (answerLoad s.bsl.committer v.bsl.storeGen 8 0x17 v) := answerLoad_moves _ _ _ _ Covers.rfl (.refl _ _)
  exact ⟨Eq.trans (hanswer.keeps .loader rfl) (hraise.keeps .loader rfl), Eq.trans (hanswer.keeps .config rfl) (hraise.keeps .config rfl),
    Eq.trans (hanswer.keeps .cartridge rfl) (Eq.trans (hraise.keeps .cartridge rfl) hcart), hanswer.only.1.trans (hraise.only.1.trans hpend)⟩

theorem failedStore_moves (told : Bool) (s : State) :
    Moves [.events, .pair, .ledger, .cartridge, .keeper, .loader, .sessions, .host, .sent] s (failedStore told s) := by
  unfold failedStore failureTold storeRefused storeUndone
  refine when_moves (fun _ ht => linkSend_moves _ _ (Covers.rfl.trans rfl) ht)
    (when_moves (fun _ ht => noteRefusal_moves _ _ _ _ (Covers.rfl.trans rfl) ht) (dropStream_moves (Covers.rfl.trans rfl) ?_))
  split
  · exact emptyPrev_moves (Covers.rfl.trans rfl) (.refl _ _)
  · exact .refl _ _

/-- What the failure of a delta's store leaves of the loader for its end. -/
def BslState.swapKeys (x : BslState) : Bool × Nat := (x.storeDelta, x.swapA)

theorem ite_swapKeys {a b : State} {d : Bool × Nat} {c : Prop} [Decidable c] (ha : a.bsl.swapKeys = d) (hb : b.bsl.swapKeys = d) :
    (if c then a else b).bsl.swapKeys = d := by
  split <;> assumption

theorem writeIdentity_bsl (s : State) : (writeIdentity s).bsl = s.bsl := queueJob_bsl ..

theorem emptyPrev_swapKeys (s : State) : (emptyPrev s).bsl.swapKeys = s.bsl.swapKeys := by
  refine ite_swapKeys ?_ rfl
  have h := fun u : State => congrArg BslState.swapKeys (writeIdentity_bsl u)
  exact (h _).trans rfl

theorem noteRefusal_swapKeys (code sec detail off : Nat) (s : State) : (noteRefusal code sec detail off s).bsl.swapKeys = s.bsl.swapKeys := by
  rw [noteRefusal_bsl]
  rfl

theorem linkSend_swapKeys (msg : Nat) (data : List Nat) (s : State) : (linkSend msg data s).bsl.swapKeys = s.bsl.swapKeys := ite_swapKeys rfl rfl

theorem failedStore_swapKeys (told : Bool) (s : State) : (failedStore told s).bsl.swapKeys = s.bsl.swapKeys := by
  have htold : ∀ u, (failureTold told u).bsl.swapKeys = u.bsl.swapKeys := fun u => ite_swapKeys (linkSend_swapKeys ..) rfl
  have hrefused : ∀ known u, (storeRefused known u).bsl.swapKeys = u.bsl.swapKeys := fun known u =>
    ite_swapKeys ((noteRefusal_swapKeys ..).trans rfl) rfl
  exact (htold _).trans ((hrefused _ _).trans (ite_swapKeys (emptyPrev_swapKeys s) rfl))

/-- A full stream's failed store is refused, and the partner is told nothing. -/
theorem failedStore_full (told : Bool) {s : State} (h : s.bsl.storeDelta = false) :
    failedStore told s = noteRefusal 0x17 0 0 0 (dropStream s) := by
  have hundone : storeUndone s = s := if_neg (by simp [h])
  have hrefused : storeRefused s.bsl.committer.isSome s = noteRefusal 0x17 0 0 0 (dropStream s) := if_pos (by simp [h])
  have hbsl := noteRefusal_bsl 0x17 0 0 0 (dropStream s)
  unfold failedStore
  rw [hundone, hrefused]
  generalize noteRefusal 0x17 0 0 0 (dropStream s) = u at hbsl
  have hdelta : u.bsl.storeDelta = false := (congrArg BslState.storeDelta hbsl).trans h
  exact if_neg (by simp [hdelta])

/-- What a full stream's failed store shows. -/
theorem storeFailed_full (told : Bool) {s : State} (hst : s.bsl.storing = true) (hdelta : s.bsl.storeDelta = false) :
    (storeFailed told s).pending = s.pending ∧ (storeFailed told s).bsl.storing = false ∧ (storeFailed told s).bsl.swapPending = false
    ∧ (storeFailed told s).bsl.refuse = packRefuse 0x17 0 0 ∧ (storeFailed told s).kpr.cartridge = s.kpr.cartridge
    ∧ (storeFailed told s).cfg = s.cfg := by
  obtain ⟨hbsl, hcfg, hcart, hpend⟩ := storeFailed_keeps told hst
  have hm : Moves [.events, .ledger, .keeper, .loader, .sessions, .host] s (noteRefusal 0x17 0 0 0 (dropStream s)) :=
    noteRefusal_moves _ _ _ _ Covers.rfl (dropStream_moves (Covers.rfl.trans rfl) (.refl _ _))
  have hrefused := noteRefusal_bsl 0x17 0 0 0 (dropStream s)
  rw [failedStore_full told hdelta] at hbsl hcfg hcart hpend
  generalize noteRefusal 0x17 0 0 0 (dropStream s) = u at hbsl hcfg hcart hpend hm hrefused
  have hdeltaU : u.bsl.storeDelta = false := (congrArg BslState.storeDelta hrefused).trans hdelta
  have hcfgU : u.cfg = s.cfg := hm.keeps .config rfl
  refine ⟨hpend.trans hm.only.1, by rw [hbsl]; rfl, by rw [hbsl]; rfl, ?_, hcart.trans (hm.keeps .cartridge rfl), ?_⟩
  · rw [hbsl, storeGivenUp_refuse, hrefused]
  · exact hcfg.trans ((if_neg (by rw [hdeltaU]; decide)).trans hcfgU)

/-! #### A store that completes -/

/-- The cartridge of a full stream's store: the stream in the previous slot, staged, and the high-water mark raised. -/
theorem storeSlot_cartridge (s : State) : (storeSlot true s).kpr.cartridge = s.kpr.cartridge.map fun c =>
    { c with slots := putAt c.slots s.cart.prevSlot (some { bytes := s.bsl.storeBytes }), highWater := max c.highWater s.bsl.storeGen
             staged := some s.cart.prevSlot } := by
  have hcopy : ∀ u : State, (copyRoles (writeIdentity u)).kpr.cartridge = u.kpr.cartridge := fun u =>
    Eq.trans ((copyRoles_moves (P := [.loader]) Covers.rfl (.refl _ _)).keeps .cartridge rfl)
      ((writeIdentity_moves (P := [.events, .keeper, .sessions, .host]) Covers.rfl (.refl _ _)).keeps .cartridge rfl)
  refine (hcopy _).trans ?_
  rw [when_true]
  cases hc : s.kpr.cartridge with
  | none => simp [stageSlot, modCart, hc]
  | some c => simp [stageSlot, modCart, hc]

theorem storeDone_full {s : State} (h : s.bsl.storeDelta = false) : storeDone s = answerLoad s.bsl.committer
    (storeSlot true s).bsl.storeGen 0 0 { storeSlot true s with bsl := { (storeSlot true s).bsl with storing := false, committer := none } } := by
  unfold storeDone
  rw [h, if_neg Bool.false_ne_true]

theorem setBsl_only (b : BslState) (s : State) : Only [.loader] s { s with bsl := b } := by
  refine ⟨rfl, fun p hp => ?_⟩
  cases p
  case loader => exact absurd List.mem_cons_self hp
  all_goals simp [Part.Same]

theorem answerLoad_only (i : Option Nat) (gen status detail : Nat) (s : State) : Only [.sessions, .sent] s (answerLoad i gen status detail s) :=
  (answerLoad_moves i gen status detail Covers.rfl (.refl _ _)).only

/-! #### The activation period of a delta -/

theorem maybeFixA_fixes {s : State} (hprimary : s.primary = true) (hst : s.bsl.storing = true) (hdelta : s.bsl.storeDelta = true)
    (hown : s.bsl.ownDone = some true) (hpartner : s.bsl.partnerDone ≠ some false) : maybeFixA s = fixA s := by
  have hcond : (s.primary && s.bsl.storing && s.bsl.storeDelta && s.bsl.ownDone == some true && s.bsl.partnerDone != some false) = true := by
    simp [hprimary, hst, hdelta, hown, hpartner]
  unfold maybeFixA
  rw [hcond, if_pos rfl]

theorem endStore_bsl (s : State) : (endStore s).bsl =
    { s.bsl with storing := false, storeDelta := false, ownDone := none, partnerDone := none, committer := none } :=
  (answerLoad_only ..).2 .loader (by decide)

theorem endStore_cfg (s : State) : (endStore s).cfg = s.cfg := (answerLoad_only ..).2 .config (by decide)

theorem fixA_shows (s : State) : (fixA s).bsl.swapA = s.pcount + 800 ∧ (fixA s).bsl.storing = false ∧ (fixA s).cfg.fixedA = true
    ∧ (fixA s).kpr.cartridge = s.kpr.cartridge := by
  have hlink : ∀ (msg : Nat) (data : List Nat) (u : State), Moves [.pair, .sent] u (linkSend msg data u) := fun msg data u =>
    linkSend_moves msg data Covers.rfl (.refl _ u)
  unfold fixA
  generalize hu : ({ s with cfg := { s.cfg with fixedA := true }, bsl := { s.bsl with swapA := s.pcount + 800 } } : State) = u
  have hcart : u.kpr.cartridge = s.kpr.cartridge := by rw [← hu]
  have hswap : u.bsl.swapA = s.pcount + 800 := by rw [← hu]
  have hfixed : u.cfg.fixedA = true := by rw [← hu]
  have hm := hlink 0x63 (two (s.pcount + 800)) u
  dsimp only
  rw [hu]
  generalize linkSend 0x63 (two (s.pcount + 800)) u = v at hm
  have hbsl : v.bsl = u.bsl := hm.keeps .loader rfl
  have hcfg : v.cfg = u.cfg := hm.keeps .config rfl
  have hkeeps : v.kpr.cartridge = u.kpr.cartridge := hm.keeps .cartridge rfl
  rw [endStore_bsl, endStore_cfg, hbsl, hcfg]
  refine ⟨hswap, rfl, hfixed, ?_⟩
  exact Eq.trans ((endStore_moves (P := [.loader, .sessions, .sent]) Covers.rfl (.refl _ v)).keeps .cartridge rfl) (hkeeps.trans hcart)

/-! #### The partner's frames -/

theorem WvlState.duty_role (x : WvlState) : x.duty.role = x.role := rfl
theorem WvlState.duty_side (x : WvlState) : x.duty.side = x.side := rfl

theorem frameSeen_role (h : LinkHdr) (s : State) : (frameSeen h s).wvl.role = s.wvl.role := by
  obtain ⟨y, hduty⟩ := frameSeen_duty h s
  rw [← WvlState.duty_role, hduty]
  rfl

theorem frameSeen_side (h : LinkHdr) (s : State) : (frameSeen h s).wvl.side = s.wvl.side := by
  obtain ⟨y, hduty⟩ := frameSeen_duty h s
  rw [← WvlState.duty_side, hduty]
  rfl

theorem linkSend_frame (msg : Nat) (data : List Nat) {s : State} (h : s.wvl.lanesUp ≠ 0) :
    (linkSend msg data s).out.head?.bind Out.linkFrame = some (msg, s.wvl.side, s.wvl.role, data) := by
  rw [linkSend_up msg data h]
  rfl

theorem exec_partnerCommit {w : When} {h : LinkHdr} {gen digest : Nat} {s : State} (hon : s.pair.mode ≠ 0) (hside : h.side ≠ s.wvl.side)
    (hrole : s.wvl.role = 3) : exec (.partnerCommitReceived w h gen digest) s = .next (partnerCommit gen digest (frameSeen h (s.at w))) := by
  have hstandby : (frameSeen h (s.at w)).wvl.role = 3 := (frameSeen_role h (s.at w)).trans hrole
  exact congrArg Host.Outcome.next ((linkIn_frame h _ (s := s.at w) hon hside).trans (if_pos (.inr hstandby)))

theorem partnerCommit_noLoad {gen digest : Nat} {s : State} (h : s.bsl.load = none) : partnerCommit gen digest s = linkSend 0x62 [0] s := by
  unfold partnerCommit
  rw [h]

section
variable {l : BslLoad} {s : State} (hload : s.bsl.load = some l) (hdelta : u16 l.header 6 = 2) (hall : allBlocks l.blocks l.total = true)
  (hst : s.bsl.storing = false) (hswap : s.bsl.swapPending = false) (hkeeper : s.keeperWritable = true)
include hload hdelta hall hst hswap hkeeper

/-- A commit of the load at hand, complete and with nothing against it, that fails its preparation (R60). -/
theorem partnerCommit_unprepared {f : LoadFault} (hp : prepare (joinBlocks l.blocks l.total) s = .error f) :
    partnerCommit l.gen (digestNat l.header) s = linkSend 0x62 [0] (noteRefusal f.code f.sec f.detail f.off (bslDrop s)) := by
  unfold partnerCommit
  rw [hload]
  dsimp only
  rw [if_neg (by simp [hdelta, hall, hst, hswap, hkeeper]), hp]

/-- The same commit, prepared. -/
theorem partnerCommit_prepared {p : Prepared} (hp : prepare (joinBlocks l.blocks l.total) s = .ok p) :
    partnerCommit l.gen (digestNat l.header) s = acceptCommit none true true p s := by
  unfold partnerCommit
  rw [hload]
  dsimp only
  rw [if_neg (by simp [hdelta, hall, hst, hswap, hkeeper]), hp]

end

theorem acceptCommit_shows (who : Option Nat) (pair : Bool) (p : Prepared) (s : State) :
    (acceptCommit who true pair p s).bsl.storing = true ∧ (acceptCommit who true pair p s).bsl.storeDelta = true
    ∧ (acceptCommit who true pair p s).bsl.storeGen = p.g.gen ∧ (acceptCommit who true pair p s).bsl.swapPending = true
    ∧ (acceptCommit who true pair p s).cfg.next = some p.g ∧ (acceptCommit who true pair p s).cfg.cur = s.cfg.cur
    ∧ (acceptCommit who true pair p s).pending = s.pending := by
  unfold acceptCommit
  dsimp only
  rw [queueJob_bsl, queueJob_cfg, ledger_bsl, ledger_cfg, queueJob_pending, ledger_pending]
  exact ⟨rfl, rfl, rfl, Bool.or_true _, rfl, rfl, rfl⟩

theorem commitRefused_keeps (f : LoadFault) (s : State) :
    (linkSend 0x62 [0] (noteRefusal f.code f.sec f.detail f.off (bslDrop s))).pending = s.pending
    ∧ (linkSend 0x62 [0] (noteRefusal f.code f.sec f.detail f.off (bslDrop s))).cfg = s.cfg := by
  have hm : Moves [.events, .pair, .ledger, .keeper, .loader, .sessions, .host, .sent] s
      (linkSend 0x62 [0] (noteRefusal f.code f.sec f.detail f.off (bslDrop s))) :=
    linkSend_moves _ _ (Covers.rfl.trans rfl) (noteRefusal_moves _ _ _ _ (Covers.rfl.trans rfl) (bslDrop_moves (Covers.rfl.trans rfl) (.refl _ _)))
  exact ⟨hm.only.1, hm.keeps .config rfl⟩

/-- The partner's activation period, taken by a module that is not PRIMARY and stores a delta (R60). -/
def takeA (a : Nat) (s : State) : State :=
  if s.primary || !s.bsl.storing || !s.bsl.storeDelta then s
  else
    let s := { s with cfg := { s.cfg with fixedA := true }, bsl := { s.bsl with swapA := a } }
    if s.bsl.ownDone = some true then endStore s else s

theorem exec_activationPeriod {w : When} {h : LinkHdr} {a : Nat} {s : State} (hon : s.pair.mode ≠ 0) (hside : h.side ≠ s.wvl.side) :
    exec (.activationPeriodReceived w h a) s = .next (takeA a (frameSeen h (s.at w))) :=
  congrArg Host.Outcome.next (linkIn_frame h (takeA a) (s := s.at w) hon hside)

theorem frameSeen_at_pending (h : LinkHdr) (w : When) (s : State) : (frameSeen h (s.at w)).pending = s.pending :=
  (frameSeen_moves h Covers.rfl (.refl _ (s.at w))).only.1

theorem frameSeen_cartridge (h : LinkHdr) (s : State) : (frameSeen h s).kpr.cartridge = s.kpr.cartridge :=
  (frameSeen_moves h Covers.rfl (.refl _ s)).keeps .cartridge rfl

theorem takeA_shows {a : Nat} {s : State} (hprimary : s.primary = false) (hst : s.bsl.storing = true) (hdelta : s.bsl.storeDelta = true) :
    (takeA a s).pending = s.pending ∧ (takeA a s).bsl.swapA = a ∧ (takeA a s).cfg.fixedA = true
    ∧ (takeA a s).bsl.storing = decide (s.bsl.ownDone ≠ some true) ∧ (takeA a s).cfg.next = s.cfg.next
    ∧ (takeA a s).kpr.cartridge = s.kpr.cartridge := by
  unfold takeA
  rw [hprimary, hst, hdelta, if_neg (by decide)]
  dsimp only
  by_cases hown : s.bsl.ownDone = some true
  · rw [if_pos hown, endStore_bsl, endStore_cfg]
    have hm : Moves [.loader, .sessions, .sent] ({ s with cfg := { s.cfg with fixedA := true }, bsl := { s.bsl with swapA := a } } : State) _ :=
      endStore_moves Covers.rfl (.refl _ _)
    exact ⟨hm.only.1, rfl, rfl, by simp [hown], rfl, hm.keeps .cartridge rfl⟩
  · rw [if_neg hown]
    exact ⟨rfl, rfl, rfl, by simp [hown, hst], rfl, rfl⟩

theorem takeA_idle {a : Nat} {s : State} (h : s.bsl.storing = false) : takeA a s = s := if_pos (by simp [h])

/-- Settles O53: the own store, the partner's, and the frames of the partner. -/
theorem storesOfAPair : Obligations.StoresOfAPair := by
  unfold Obligations.StoresOfAPair
  refine ⟨?own, ?ownFails, ?ownIdle, ?partner, ?partnerFails, ?partnerIdle, ?noLoad, ?commit, ?pairOff, ?period, ?periodIdle⟩
  case own =>
    intro w c s hst hdelta hown hwaits hkeeper hcart
    have hexec : exec (.bitstreamStoreComplete w true) s = .next (storeDone (s.at w)) := by
      have hidle : (!(s.at w).bsl.storing || (s.at w).bsl.ownDone.isSome || (s.at w).streamWaits) = false := by
        rw [show (s.at w).bsl.storing = true from hst, show (s.at w).bsl.ownDone = none from hown,
          show (s.at w).streamWaits = false from hwaits]
        rfl
      refine congrArg Host.Outcome.next ((if_neg (by rw [hidle]; decide)).trans (if_pos ?_))
      exact (Bool.true_and _).trans hkeeper
    rw [storeDone_full (s := s.at w) hdelta] at hexec
    have hslot : (storeSlot true (s.at w)).kpr.cartridge = _ := storeSlot_cartridge (s.at w)
    have hcfg : Moves [.events, .cartridge, .keeper, .loader, .sessions, .host] (s.at w) (storeSlot true (s.at w)) :=
      storeSlot_moves true Covers.rfl (.refl _ _)
    have hprev : (s.at w).cart.prevSlot = c.prevSlot := congrArg (fun x : Option Cartridge => (x.getD {}).prevSlot) hcart
    rw [show (s.at w).kpr.cartridge = some c from hcart, hprev] at hslot
    refine ⟨_, hexec, ?_, ?_⟩
    · exact .after (answerLoad_only ..) (.after (setBsl_only _ _) (.after hcfg.only (at_only w s (Covers.rfl.trans rfl))))
    generalize storeSlot true (s.at w) = u at hslot hcfg
    generalize hv : ({ u with bsl := { u.bsl with storing := false, committer := none } } : State) = v
    have hans := answerLoad_only (s.at w).bsl.committer u.bsl.storeGen 0 0 v
    have hbsl : (answerLoad (s.at w).bsl.committer u.bsl.storeGen 0 0 v).bsl = v.bsl := hans.2 .loader (by decide)
    have hcartridge : (answerLoad (s.at w).bsl.committer u.bsl.storeGen 0 0 v).kpr.cartridge = v.kpr.cartridge := hans.2 .cartridge (by decide)
    have hconfig : (answerLoad (s.at w).bsl.committer u.bsl.storeGen 0 0 v).cfg = v.cfg := hans.2 .config (by decide)
    have hkept : u.cfg = s.cfg := hcfg.keeps .config rfl
    rw [hbsl, hcartridge, hconfig, ← hv]
    dsimp only
    rw [hslot]
    exact ⟨rfl, rfl, rfl, rfl, rfl, hkept⟩
  case ownFails =>
    intro w s hst hdelta hown hwaits
    have hexec : exec (.bitstreamStoreComplete w false) s = .next (storeFailed false (s.at w)) := by
      have hidle : (!(s.at w).bsl.storing || (s.at w).bsl.ownDone.isSome || (s.at w).streamWaits) = false := by
        rw [show (s.at w).bsl.storing = true from hst, show (s.at w).bsl.ownDone = none from hown,
          show (s.at w).streamWaits = false from hwaits]
        rfl
      exact congrArg Host.Outcome.next ((if_neg (by rw [hidle]; decide)).trans (if_neg Bool.false_ne_true))
    exact ⟨_, hexec, storeFailed_full false (s := s.at w) hst hdelta⟩
  case ownIdle =>
    intro w ok s h
    refine ⟨_, congrArg Host.Outcome.next (if_pos ?_), at_only w s Covers.rfl⟩
    show (!s.bsl.storing || s.bsl.ownDone.isSome || (s.at w).streamWaits) = true
    rcases h with h | h | h
    · rw [h]; rfl
    · rw [h, Bool.or_true]; rfl
    · rw [show (s.at w).streamWaits = true from h, Bool.or_true]
  case partner =>
    intro w s hprimary hst hdelta hown
    have hexec : exec (.partnerStoreComplete w true) s = .next (maybeFixA { s.at w with bsl := { (s.at w).bsl with partnerDone := some true } }) := by
      have hon : (!(s.at w).bsl.storing || !(s.at w).bsl.storeDelta) = false := by
        rw [show (s.at w).bsl.storing = true from hst, show (s.at w).bsl.storeDelta = true from hdelta]
        rfl
      exact congrArg Host.Outcome.next ((if_neg (by rw [hon]; decide)).trans (if_pos rfl))
    rw [maybeFixA_fixes (s := { s.at w with bsl := { (s.at w).bsl with partnerDone := some true } }) hprimary hst hdelta hown (by simp)] at hexec
    obtain ⟨hswap, hstoring, hfixed, hcart⟩ := fixA_shows { s.at w with bsl := { (s.at w).bsl with partnerDone := some true } }
    refine ⟨_, hexec, ?_, hswap, hfixed, hstoring, hcart⟩
    exact .after (fixA_moves (P := [.pair, .loader, .sessions, .config, .sent]) Covers.rfl (.refl _ _)).only
      (.after (setBsl_only _ _) (at_only w s (Covers.rfl.trans rfl)))
  case partnerFails =>
    intro w s hst hdelta
    have hexec : exec (.partnerStoreComplete w false) s = .next (storeFailed true (s.at w)) := by
      have hon : (!(s.at w).bsl.storing || !(s.at w).bsl.storeDelta) = false := by
        rw [show (s.at w).bsl.storing = true from hst, show (s.at w).bsl.storeDelta = true from hdelta]
        rfl
      exact congrArg Host.Outcome.next ((if_neg (by rw [hon]; decide)).trans (if_neg Bool.false_ne_true))
    obtain ⟨hbsl, hcfg, -, hpend⟩ := storeFailed_keeps true (s := s.at w) hst
    have hm := failedStore_moves true (s.at w)
    have hkeys := failedStore_swapKeys true (s.at w)
    generalize failedStore true (s.at w) = u at hbsl hcfg hpend hm hkeys
    have hdeltaU : u.bsl.storeDelta = true := (congrArg Prod.fst hkeys).trans hdelta
    have hcfgU : u.cfg = s.cfg := hm.keeps .config rfl
    replace hcfg := hcfg.trans (if_pos hdeltaU)
    exact ⟨_, hexec, hpend.trans hm.only.1, congrArg BslState.storing hbsl, congrArg BslState.swapPending hbsl,
      congrArg CfgState.next hcfg, (congrArg CfgState.cur hcfg).trans ((congrArg CfgState.cur hcfgU).trans rfl),
      (congrArg BslState.swapA hbsl).trans (congrArg Prod.snd hkeys)⟩
  case partnerIdle =>
    intro w ok s h
    refine ⟨_, congrArg Host.Outcome.next (if_pos ?_), at_only w s Covers.rfl⟩
    show (!s.bsl.storing || !s.bsl.storeDelta) = true
    rcases h with h | h
    · rw [h]; rfl
    · rw [h, Bool.not_false, Bool.or_true]
  case noLoad =>
    intro w h gen digest s hon hside hrole hload hlanes
    obtain ⟨hbsl, hcfg⟩ := frameSeen_loads h (s.at w)
    have hexec := exec_partnerCommit (gen := gen) (digest := digest) (w := w) hon hside hrole
    rw [partnerCommit_noLoad ((congrArg BslState.load hbsl).trans hload)] at hexec
    have hup := frameSeen_lanesUp h (s.at w)
    have hside' : (frameSeen h (s.at w)).wvl.side = s.wvl.side := frameSeen_side h (s.at w)
    have hrole' : (frameSeen h (s.at w)).wvl.role = 3 := (frameSeen_role h (s.at w)).trans hrole
    have hpend := frameSeen_at_pending h w s
    generalize frameSeen h (s.at w) = u at hexec hbsl hcfg hup hside' hrole' hpend
    have hm : Moves [.pair, .sent] u (linkSend 0x62 [0] u) := linkSend_moves _ _ Covers.rfl (.refl _ _)
    refine ⟨_, hexec, hm.only.1.trans hpend, Eq.trans (hm.keeps .loader rfl) hbsl, Eq.trans (hm.keeps .config rfl) hcfg, ?_⟩
    rw [linkSend_frame _ _ hup, hside', hrole']
  case commit =>
    intro w h l s hon hside hrole hload hdelta hall hst hswap hkeeper
    obtain ⟨hbsl, hcfg⟩ := frameSeen_loads h (s.at w)
    have hexec := exec_partnerCommit (gen := l.gen) (digest := digestNat l.header) (w := w) hon hside hrole
    have hwritable : (frameSeen h (s.at w)).keeperWritable = true := (keeperWritable_congr (frameSeen_mounted h (s.at w))).trans hkeeper
    have hpend := frameSeen_at_pending h w s
    generalize frameSeen h (s.at w) = u at hexec hbsl hcfg hwritable hpend
    have hload' : u.bsl.load = some l := (congrArg BslState.load hbsl).trans hload
    have hst' : u.bsl.storing = false := (congrArg BslState.storing hbsl).trans hst
    have hswap' : u.bsl.swapPending = false := (congrArg BslState.swapPending hbsl).trans hswap
    cases hp : prepare (joinBlocks l.blocks l.total) u with
    | error f =>
      rw [partnerCommit_unprepared hload' hdelta hall hst' hswap' hwritable hp] at hexec
      obtain ⟨hpending, hconfig⟩ := commitRefused_keeps f u
      exact ⟨_, hexec, hpending.trans hpend, congrArg CfgState.cur (hconfig.trans hcfg), fun p h => nomatch h⟩
    | ok p =>
      rw [partnerCommit_prepared hload' hdelta hall hst' hswap' hwritable hp] at hexec
      obtain ⟨h1, h2, h3, h4, h5, h6, h7⟩ := acceptCommit_shows none true p u
      refine ⟨_, hexec, h7.trans hpend, h6.trans (congrArg CfgState.cur hcfg), fun q h => ?_⟩
      cases h
      exact ⟨h1, h2, h3, h4, h5⟩
  case pairOff =>
    exact fun w h gen digest s hoff => ⟨_, congrArg Host.Outcome.next (if_pos hoff), at_only w s Covers.rfl⟩
  case period =>
    intro w h a s hon hside hrole hst hdelta
    obtain ⟨hbsl, hcfg⟩ := frameSeen_loads h (s.at w)
    have hrole' : (frameSeen h (s.at w)).wvl.role = 3 := (frameSeen_role h (s.at w)).trans hrole
    have hexec := exec_activationPeriod (a := a) (w := w) hon hside
    have hpend := frameSeen_at_pending h w s
    have hcart := frameSeen_cartridge h (s.at w)
    generalize frameSeen h (s.at w) = u at hexec hbsl hcfg hrole' hpend hcart
    have hprimary : u.primary = false := by unfold State.primary; rw [hrole']; rfl
    obtain ⟨h1, h2, h3, h4, h5, h6⟩ := takeA_shows (a := a) hprimary ((congrArg BslState.storing hbsl).trans hst)
      ((congrArg BslState.storeDelta hbsl).trans hdelta)
    refine ⟨_, hexec, h1.trans hpend, h2, h3, h4.trans ?_, h5.trans (congrArg CfgState.next hcfg), h6.trans hcart⟩
    rw [show u.bsl.ownDone = s.bsl.ownDone from congrArg BslState.ownDone hbsl]
  case periodIdle =>
    intro w h a s hon hside hst
    obtain ⟨hbsl, hcfg⟩ := frameSeen_loads h (s.at w)
    have hexec := exec_activationPeriod (a := a) (w := w) hon hside
    rw [takeA_idle ((congrArg BslState.storing hbsl).trans hst)] at hexec
    exact ⟨_, hexec, frameSeen_at_pending h w s, hbsl, congrArg CfgState.fixedA hcfg⟩

end Sys2Proof.Machine


/-! ### Transactions of masters (O49): a read of a line that holds a correctable error -/

namespace Sys2Proof.Machine

set_option Elab.async false

open Sys2Proof

/-- A cleared main memory whose first line holds an error that its code corrects. -/
def errorInFirstLine : State := { mem := { mem := { errs := [(0, .corrected 0 1)], cleared := true } } }

/-- A read of its first word, by the identity of a unit that the boot rule admits. -/
def readFirstWord : Tx := { ident := 16 }

/-- The correctable errors counted in a result. -/
def ceStrongAfter : Result → Nat
  | .next t => t.mem.ceStrong
  | _ => 0

/-- The read meets the error, corrects it and counts it (R287). -/
theorem ceStrongAfter_readFirstWord : ceStrongAfter (exec (.masterTransaction { t := 0 } readFirstWord) errorInFirstLine) = 1 := by
  decide +kernel

/-- Refutes O49: its second clause leaves the memory controller as it was by an admitted read, but one that meets a correctable
error counts it. -/
theorem not_transactionsOfMasters : ¬ Obligations.TransactionsOfMasters := by
  unfold Obligations.TransactionsOfMasters
  rintro ⟨_, hread, _⟩
  obtain ⟨t, ht, -, hmem, -⟩ := hread { t := 0 } readFirstWord (List.replicate 4 0) errorInFirstLine (by decide) rfl rfl rfl
    (by decide +kernel) (by decide +kernel)
  have hcount := ceStrongAfter_readFirstWord
  rw [ht, ceStrongAfter, hmem] at hcount
  exact absurd hcount (by decide)

end Sys2Proof.Machine


/-! ### The sessions of the host (O51)

Events notify sessions and change nothing else of the host interface (`HifState.unnotified`). -/

namespace Sys2Proof.Machine

set_option Elab.async false

open Sys2Proof

/-! #### What a notification leaves -/

/-- A session without its notifications. -/
def Session.unnotified (x : Session) : Session := { x with queue := [], lost := 0 }

/-- The host interface without its notifications. -/
def HifState.unnotified (h : HifState) : HifState := { h with sessions := h.sessions.map (·.map Session.unnotified), notifyLost := 0 }

/-- One session of a notification: it takes it, or counts it as lost, where `sub` selects it. -/
def notifyStep (sub : Session → Bool) (n : Notif) (acc : List (Option Session) × Nat) (x : Option Session) : List (Option Session) × Nat :=
  match x with
  | some y => if sub y then (acc.1 ++ [some (y.push n).1], if (y.push n).2 then acc.2 else acc.2 + 1) else (acc.1 ++ [x], acc.2)
  | none => (acc.1 ++ [x], acc.2)

theorem notifyAll_hif (sub : Session → Bool) (n : Notif) (s : State) : (notifyAll sub n s).hif =
    { s.hif with sessions := (s.hif.sessions.foldl (notifyStep sub n) ([], 0)).1
                 notifyLost := tallyAdd s.hif.notifyLost (s.hif.sessions.foldl (notifyStep sub n) ([], 0)).2 } := rfl

theorem push_unnotified (x : Session) (n : Notif) : (x.push n).1.unnotified = x.unnotified := by
  unfold Session.push
  split
  · rfl
  split <;> rfl

theorem notifyStep_sessions (sub : Session → Bool) (n : Notif) (acc : List (Option Session) × Nat) (x : Option Session) :
    (notifyStep sub n acc x).1.map (·.map Session.unnotified) = (acc.1 ++ [x]).map (·.map Session.unnotified) := by
  cases x with
  | none => rfl
  | some y =>
    unfold notifyStep
    dsimp only
    split
    · simp [push_unnotified]
    · rfl

theorem foldl_notifyStep_sessions (sub : Session → Bool) (n : Notif) (l : List (Option Session)) (acc : List (Option Session) × Nat) :
    (l.foldl (notifyStep sub n) acc).1.map (·.map Session.unnotified) = (acc.1 ++ l).map (·.map Session.unnotified) := by
  induction l generalizing acc with
  | nil => simp
  | cons x l ih =>
    rw [List.foldl_cons, ih, List.map_append, notifyStep_sessions, ← List.map_append]
    simp

theorem notifyAll_unnotified (sub : Session → Bool) (n : Notif) (s : State) : (notifyAll sub n s).hif.unnotified = s.hif.unnotified := by
  rw [notifyAll_hif]
  unfold HifState.unnotified
  dsimp only
  rw [foldl_notifyStep_sessions, List.nil_append]

theorem ite_unnotified {a b : State} {d : HifState} {c : Prop} [Decidable c] (ha : a.hif.unnotified = d) (hb : b.hif.unnotified = d) :
    (if c then a else b).hif.unnotified = d := by
  split <;> assumption

theorem assertSource_unnotified (n : Nat) (s : State) : (assertSource n s).hif.unnotified = s.hif.unnotified :=
  ite_unnotified (ite_unnotified ((notifyAll_unnotified ..).trans rfl) rfl) rfl

theorem raise_unnotified (r : EvtReg) (bit : Nat) (s : State) : (raise r bit s).hif.unnotified = s.hif.unnotified :=
  ite_unnotified rfl ((assertSource_unnotified ..).trans rfl)

theorem queueJob_unnotified (j : KprJob) (s : State) : (queueJob j s).hif.unnotified = s.hif.unnotified :=
  ite_unnotified rfl ((raise_unnotified ..).trans rfl)

theorem queueLedger_unnotified (force : Bool) (s : State) : (queueLedger force s).hif.unnotified = s.hif.unnotified :=
  ite_unnotified (queueJob_unnotified ..) rfl

theorem noteHold_unnotified (was : Nat) (s : State) : (noteHold was s).hif.unnotified = s.hif.unnotified :=
  ite_unnotified (raise_unnotified ..) rfl

theorem holdRecord_unnotified (r : LedgerRecord) (s : State) : (holdRecord r s).hif.unnotified = s.hif.unnotified := by
  refine ite_unnotified ((raise_unnotified ..).trans rfl) ((queueLedger_unnotified ..).trans ((noteHold_unnotified ..).trans ?_))
  cases s.recordOwner <;> rfl

theorem suppressRecord_unnotified (code time : Nat) (s : State) : (suppressRecord code time s).hif.unnotified = s.hif.unnotified :=
  ite_unnotified ((raise_unnotified ..).trans rfl) rfl

theorem ledger_unnotified (code source : Nat) (data : List Nat) (s : State) :
    (ledger code source data s).hif.unnotified = s.hif.unnotified := by
  unfold ledger admitRecord
  split
  · exact holdRecord_unnotified ..
  split
  · exact (holdRecord_unnotified ..).trans rfl
  · exact (suppressRecord_unnotified ..).trans rfl

section
variable {g h : HifState} (heq : g.unnotified = h.unnotified)
include heq

theorem links_of_unnotified : g.links = h.links :=
  show g.unnotified.links = h.unnotified.links from congrArg HifState.links heq
theorem egress_of_unnotified : g.egress = h.egress :=
  show g.unnotified.egress = h.unnotified.egress from congrArg HifState.egress heq
theorem tlsFail_of_unnotified : g.tlsFail = h.tlsFail :=
  show g.unnotified.tlsFail = h.unnotified.tlsFail from congrArg HifState.tlsFail heq

theorem session_of_unnotified (i : Nat) :
    (g.sessions.getD i none).map Session.unnotified = (h.sessions.getD i none).map Session.unnotified := by
  have hmap := congrArg (fun x : HifState => x.sessions.getD i none) heq
  have hget : ∀ l : List (Option Session), (l.map (·.map Session.unnotified)).getD i none = (l.getD i none).map Session.unnotified := by
    intro l
    rw [List.getD_eq_getElem?_getD, List.getD_eq_getElem?_getD, List.getElem?_map]
    cases l[i]? <;> rfl
  exact (hget _).symm.trans (hmap.trans (hget _))

theorem noSession_of_unnotified {i : Nat} (hnone : h.sessions.getD i none = none) : g.sessions.getD i none = none := by
  have hsame := session_of_unnotified heq i
  rw [hnone] at hsame
  exact Option.map_eq_none_iff.mp hsame

/-- What a function that reads no notification sees of a session. -/
theorem map_of_unnotified {α : Type} (f : Session → α) (hf : ∀ x : Session, f x.unnotified = f x) (i : Nat) :
    (g.sessions.getD i none).map f = (h.sessions.getD i none).map f := by
  have hview : ∀ o : Option Session, (o.map Session.unnotified).map f = o.map f := fun o => by cases o <;> simp [hf]
  rw [← hview, session_of_unnotified heq, hview]

end

/-! #### A session closes -/

theorem pubFirst_congr {s t : State} (hphe : t.phe = s.phe) (hbgt : t.bgt = s.bgt) (hlinks : t.hif.links = s.hif.links) (p : Nat) :
    t.pubFirst p = s.pubFirst p := by
  unfold State.pubFirst State.slotOpen
  rw [hphe, hbgt, hlinks]

/-- Things leave the port `p` alike of two states that agree on publication and on what has left. -/
theorem leaveHost_congr {s t : State} {p : Nat} (l : List Out) (hpub : t.pubFirst p = s.pubFirst p) (hout : t.out = s.out)
    (hegress : t.hif.egress = s.hif.egress) : (leaveHost p l t).out = (leaveHost p l s).out
    ∧ (leaveHost p l t).hif.egress = (leaveHost p l s).hif.egress := by
  unfold leaveHost
  rw [hpub]
  split
  · exact ⟨hout, congrArg (· ++ l.map fun o => (p, o)) hegress⟩
  · exact ⟨congrArg (l.reverse ++ ·) hout, hegress⟩

theorem leaveHost_keeps (p : Nat) (l : List Out) (s : State) : (leaveHost p l s).pending = s.pending
    ∧ (leaveHost p l s).bsl = s.bsl ∧ (leaveHost p l s).hif.sessions = s.hif.sessions := by
  unfold leaveHost
  split <;> exact ⟨rfl, rfl, rfl⟩

/-- The session's index is free, and what it owned has no owner. -/
def sessionFreed (i : Nat) (s : State) : State :=
  let free (o : Option Nat) : Option Nat := if o = some i then none else o
  { s with
    hif := { s.hif with sessions := putAt s.hif.sessions i none, accessStoring := s.hif.accessStoring.map free }
    bsl := { s.bsl with load := s.bsl.load.map fun l => { l with owner := free l.owner }, committer := free s.bsl.committer }
    upd := { s.upd with load := s.upd.load.map fun l => { l with owner := free l.owner }, committer := free s.upd.committer } }

/-- The closing of a session on port `port` is noted, with its cause (R350, R360). -/
def closingNoted (i cause port role : Nat) (s : State) : State :=
  raise .hif 1 (when (decide (0 < role)) (ledger 0x1302 port [port, cause]) (sessionFreed i s))

theorem closeSession_eq {i cause : Nat} {x : Session} {s : State} (h : s.hif.sessions.getD i none = some x) : closeSession i cause s =
    leaveHost x.port (x.ready.map (·.out i) ++ [.shpClosed i]) (closingNoted i cause x.port x.role s) := by
  unfold closeSession
  rw [h]
  rfl

theorem getD_putAt_none (l : List (Option Session)) (i : Nat) : (putAt l i none).getD i none = none := by
  unfold putAt
  rw [List.getD_eq_getElem?_getD, List.getElem?_set]
  split
  · split <;> rfl
  · next h => exact absurd rfl h

theorem closingNoted_keeps (i cause port role : Nat) (s : State) :
    (closingNoted i cause port role s).pending = s.pending ∧ (closingNoted i cause port role s).phe = s.phe
    ∧ (closingNoted i cause port role s).bgt = s.bgt ∧ (closingNoted i cause port role s).out = s.out
    ∧ (closingNoted i cause port role s).bsl = (sessionFreed i s).bsl := by
  unfold closingNoted
  cases decide (0 < role)
  · rw [when_false]
    exact ⟨raise_pending .., raise_phe .., raise_bgt .., raise_out .., raise_bsl ..⟩
  · rw [when_true]
    exact ⟨(raise_pending ..).trans (ledger_pending ..), (raise_phe ..).trans (ledger_phe ..), (raise_bgt ..).trans (ledger_bgt ..),
      (raise_out ..).trans (ledger_out ..), (raise_bsl ..).trans (ledger_bsl ..)⟩

theorem closingNoted_unnotified (i cause port role : Nat) (s : State) :
    (closingNoted i cause port role s).hif.unnotified = (sessionFreed i s).hif.unnotified :=
  (raise_unnotified ..).trans (ite_unnotified (ledger_unnotified ..) rfl)

/-- What the closing of a session shows. -/
theorem closeSession_shows {i cause : Nat} {x : Session} {s : State} (h : s.hif.sessions.getD i none = some x) :
    (closeSession i cause s).pending = s.pending ∧ (closeSession i cause s).hif.sessions.getD i none = none
    ∧ (closeSession i cause s).bsl.storing = s.bsl.storing
    ∧ (closeSession i cause s).out = (leaveHost x.port (x.ready.map (·.out i) ++ [.shpClosed i]) s).out
    ∧ (closeSession i cause s).hif.egress = (leaveHost x.port (x.ready.map (·.out i) ++ [.shpClosed i]) s).hif.egress := by
  obtain ⟨hpend, hphe, hbgt, hout, hbsl⟩ := closingNoted_keeps i cause x.port x.role s
  have hun := closingNoted_unnotified i cause x.port x.role s
  obtain ⟨hpending, hbsl', hsessions⟩ := leaveHost_keeps x.port (x.ready.map (·.out i) ++ [.shpClosed i]) (closingNoted i cause x.port x.role s)
  obtain ⟨hleft, hegress⟩ := leaveHost_congr (x.ready.map (·.out i) ++ [.shpClosed i])
    (pubFirst_congr hphe hbgt ((links_of_unnotified hun).trans rfl) x.port) hout ((egress_of_unnotified hun).trans rfl)
  rw [closeSession_eq h]
  refine ⟨hpending.trans hpend, ?_, ?_, hleft, hegress⟩
  · rw [hsessions]
    exact noSession_of_unnotified hun (getD_putAt_none ..)
  · rw [hbsl', hbsl]
    rfl

end Sys2Proof.Machine


/-! ### The sessions of the host, settled (O51) -/

namespace Sys2Proof.Machine

set_option Elab.async false

open Sys2Proof

/-- An operation within some parts and the record of what left, that lets nothing leave. -/
theorem Only.silent {P : List Part} {s t : State} (h : Only (.sent :: P) s t) (hout : t.out = s.out) : Only P s t := by
  refine ⟨h.1, fun p hp => ?_⟩
  by_cases hsent : p = .sent
  · subst hsent; exact hout
  · exact h.2 p fun hin => (List.mem_cons.mp hin).elim hsent hp

theorem setSessions_only (l : List (Option Session)) (s : State) : Only [.sessions] s { s with hif := { s.hif with sessions := l } } := by
  refine ⟨rfl, fun p hp => ?_⟩
  cases p
  case sessions => exact absurd List.mem_cons_self hp
  all_goals simp [Part.Same]

theorem emit_only (o : Out) (s : State) : Only [.sent] s (emit o s) := (emit_moves o Covers.rfl (.refl _ _)).only

/-! #### Connections and handshakes -/

/-- A connection as it is taken. -/
def connection (port : Nat) (ll boot : Bool) (now : Nat) : Session :=
  { port := port, linkLocal := ll, bootstrap := boot, opened := now, lastMsg := now }

/-- The lowest free index takes a session. -/
def seated (x : Session) (s : State) : State :=
  { s with hif := { s.hif with sessions := putAt s.hif.sessions ((s.hif.sessions.findIdx? (·.isNone)).getD 0) (some x) } }

theorem exec_shpConnect_takes {w : When} {port : Fin 2} {ll : Bool} {s : State} (hphase : 3 ≤ s.gen.phase) (hmode : s.hostMode port.val ≠ 0)
    (hfree : s.sessionsOpen < 8) (hset : s.hif.access.isSome = true) : exec (.shpConnect w port ll) s =
      .next (raise .hif 1 (seated (connection port.val ll s.bootstrap (max s.aon w.a)) (s.at w))) := by
  have hboot : s.bootstrap = false := by
    unfold State.bootstrap
    cases haccess : s.hif.access with
    | none => rw [haccess] at hset; cases hset
    | some a => rfl
  refine if_pos ?_
  show (decide (3 ≤ s.gen.phase ∧ s.hostMode port.val ≠ 0 ∧ s.sessionsOpen < 8)
    && (!s.bootstrap || (decide (port.val = 0 ∧ s.sessionsOpen = 0) && ll))) = true
  rw [hboot, decide_eq_true ⟨hphase, hmode, hfree⟩]
  rfl

theorem exec_shpConnect_resets {w : When} {port : Fin 2} {ll : Bool} {s : State}
    (h : s.gen.phase < 3 ∨ s.hostMode port.val = 0 ∨ 8 ≤ s.sessionsOpen) :
    exec (.shpConnect w port ll) s = .next (emit (.tcpReset port.val) (s.at w)) := by
  refine if_neg ?_
  show ¬(decide (3 ≤ s.gen.phase ∧ s.hostMode port.val ≠ 0 ∧ s.sessionsOpen < 8)
    && (!s.bootstrap || (decide (port.val = 0 ∧ s.sessionsOpen = 0) && ll))) = true
  rw [decide_eq_false (by omega), Bool.false_and]
  exact Bool.false_ne_true

/-- The index that a new connection takes holds its session. -/
theorem getD_putAt_free (l : List (Option Session)) (x : Session) :
    (putAt l ((l.findIdx? (·.isNone)).getD 0) (some x)).getD ((l.findIdx? (·.isNone)).getD 0) none =
      if l = [] then none else some x := by
  cases l with
  | nil => rfl
  | cons y l =>
    rw [if_neg (List.cons_ne_nil _ _)]
    refine getD_putAt_self ?_ ..
    cases hi : (y :: l).findIdx? (·.isNone) with
    | none => exact Nat.succ_pos _
    | some i => exact (List.findIdx?_eq_some_iff_getElem.mp hi).1

theorem emit_out (o : Out) (s : State) : (emit o s).out = o :: s.out := rfl

/-- The session of a failed handshake is gone, and counted (R349). -/
def handshakeCounted (i : Nat) (s : State) : State :=
  { s with hif := { s.hif with sessions := putAt s.hif.sessions i none, tlsFail := tallyInc s.hif.tlsFail } }

/-- The event and the record of a failed handshake. -/
def handshakeNoted (port : Nat) (leaf : List Byte) (s : State) : State :=
  ledger 0x1303 port (port :: fpWords leaf) (raise .hif 1 (raise .hif 2 s))

theorem handshakeFails_eq {i : Fin 8} {leaf : List Byte} {x : Session} {s : State} (h : s.hif.sessions.getD i.val none = some x) :
    handshakeFails i leaf s = emit (.alert i.val) (handshakeNoted x.port leaf (handshakeCounted i.val s)) := by
  unfold handshakeFails
  rw [h]
  rfl

theorem handshakeNoted_unnotified (port : Nat) (leaf : List Byte) (s : State) :
    (handshakeNoted port leaf s).hif.unnotified = s.hif.unnotified :=
  (ledger_unnotified ..).trans ((raise_unnotified ..).trans (raise_unnotified ..))

theorem handshakeNoted_silent (port : Nat) (leaf : List Byte) (s : State) :
    (handshakeNoted port leaf s).pending = s.pending ∧ (handshakeNoted port leaf s).out = s.out :=
  ⟨(ledger_pending ..).trans ((raise_pending ..).trans (raise_pending ..)), (ledger_out ..).trans ((raise_out ..).trans (raise_out ..))⟩

/-- What a failed handshake shows. -/
theorem handshakeFails_shows {i : Fin 8} {leaf : List Byte} {x : Session} {s : State} (h : s.hif.sessions.getD i.val none = some x) :
    (handshakeFails i leaf s).pending = s.pending ∧ (handshakeFails i leaf s).hif.sessions.getD i.val none = none
    ∧ (handshakeFails i leaf s).hif.tlsFail = tallyInc s.hif.tlsFail ∧ (handshakeFails i leaf s).out = .alert i.val :: s.out := by
  have hun := handshakeNoted_unnotified x.port leaf (handshakeCounted i.val s)
  obtain ⟨hpend, hout⟩ := handshakeNoted_silent x.port leaf (handshakeCounted i.val s)
  rw [handshakeFails_eq h, emit_pending, emit_hif, emit_out, hpend, hout]
  exact ⟨rfl, noSession_of_unnotified hun (getD_putAt_none ..), (tlsFail_of_unnotified hun).trans rfl, rfl⟩

theorem exec_tlsHandshake_fails {w : When} {ses : Fin 8} {h : Handshake} {x : Session} {s : State}
    (hx : s.hif.sessions.getD ses.val none = some x) (hrole : x.role = 0) (hbad : h.proven = false ∨ allowedHandshake h = false) :
    exec (.tlsHandshake w ses h) s =
      .next (handshakeFails ses (h.certs.headD []) (emit (.certificate ses.val s.presented) (s.at w))) := by
  have hx' : (s.at w).hif.sessions.getD ses.val none = some x := hx
  show execTlsHandshake w ses h s = _
  unfold execTlsHandshake
  dsimp only
  rw [hx']
  dsimp only
  rw [if_neg (not_not_intro hrole)]
  cases hallowed : allowedHandshake h
  · rfl
  · have hproven := hbad.resolve_right (by simp [hallowed])
    rw [hproven, if_neg (by decide)]
    split
    · exact if_neg Bool.false_ne_true
    · simp only [Bool.false_and, Bool.false_eq_true, if_false]
      rfl

/-- A session that a handshake gives its role. -/
def Session.admitted (x : Session) (role now : Nat) : Session := { x with role := role, lastMsg := now }

theorem exec_tlsHandshake_bootstrap {w : When} {ses : Fin 8} {h : Handshake} {x : Session} {s : State}
    (hx : s.hif.sessions.getD ses.val none = some x) (hrole : x.role = 0) (hboot : x.bootstrap = true)
    (hallowed : allowedHandshake h = true) (hproven : h.proven = true) : exec (.tlsHandshake w ses h) s =
      .next (ledger 0x1305 x.port (fpWords (h.certs.headD []))
        (modSes ses (·.admitted 3 (max s.aon w.a)) (emit (.certificate ses.val s.presented) (s.at w)))) := by
  have hx' : (s.at w).hif.sessions.getD ses.val none = some x := hx
  show execTlsHandshake w ses h s = _
  unfold execTlsHandshake
  dsimp only
  rw [hx']
  dsimp only
  rw [if_neg (not_not_intro hrole), hallowed, hboot, hproven]
  rfl

/-- The fingerprint of the rule that gives the role `r`. -/
def roleFinger (r : Nat) (h : Handshake) (s : State) : List Byte :=
  (((matchedRules (s.hif.access.getD {}) h.certs).find? (·.1 == r)).map (·.2)).getD []

theorem exec_tlsHandshake_role {w : When} {ses : Fin 8} {h : Handshake} {x : Session} {r : Nat} {s : State}
    (hx : s.hif.sessions.getD ses.val none = some x) (hrole : x.role = 0) (hboot : x.bootstrap = false)
    (hallowed : allowedHandshake h = true) (hproven : h.proven = true) (hchain : h.chainOk = true) (hvalid : validNow h (s.at w) = true)
    (hr : r = (matchedRules (s.hif.access.getD {}) h.certs).foldl (fun m q => max m q.1) 0) (hne : r ≠ 0) :
    exec (.tlsHandshake w ses h) s = .next (ledger 0x1301 x.port (x.port :: r :: fpWords (roleFinger r h s))
      (modSes ses (·.admitted r (max s.aon w.a)) (emit (.certificate ses.val s.presented) (s.at w)))) := by
  have hx' : (s.at w).hif.sessions.getD ses.val none = some x := hx
  have hcond : (h.proven && h.chainOk && validNow h (emit (.certificate ses.val s.presented) (s.at w)) && decide (r ≠ 0)) = true := by
    rw [hproven, hchain, show validNow h (emit (.certificate ses.val s.presented) (s.at w)) = true from hvalid, decide_eq_true hne]
    rfl
  show execTlsHandshake w ses h s = _
  unfold execTlsHandshake
  dsimp only
  rw [hx']
  dsimp only
  rw [if_neg (not_not_intro hrole), hallowed, hboot, if_neg (by decide), if_neg Bool.false_ne_true]
  subst hr
  exact if_pos hcond

/-- An admitted session after its record. -/
theorem ledger_admitted {ses : Fin 8} {x : Session} {role now code port : Nat} {data : List Nat} {α : Type} (f : Session → α)
    (hf : ∀ x : Session, f x.unnotified = f x) {s : State} (hx : s.hif.sessions.getD ses.val none = some x) :
    ((ledger code port data (modSes ses (·.admitted role now) s)).hif.sessions.getD ses.val none).map f = some (f (x.admitted role now)) := by
  rw [map_of_unnotified (ledger_unnotified code port data (modSes ses (·.admitted role now) s)) f hf, session_modSes hx]
  rfl

/-! #### Requests and replies -/

/-- A reply behind one that still waits stays with it (R352). -/
theorem answer_behind {i : Fin 8} {x : Session} {r : HeldReply} {s : State} (hx : s.hif.sessions.getD i.val none = some x)
    (hreplies : x.replies = [r]) (hwaits : r.waits.isNone = false) (status detail : Nat) (payload : List Nat) :
    (answer i status detail payload s).out = s.out ∧ ((answer i status detail payload s).hif.sessions.getD i.val none).map
      (fun y => (y.outstanding, y.replies)) = some (x.outstanding,
        [r, { ty := x.reqTy, tag := x.reqTag, status := status, detail := detail, payload := payload }]) := by
  have hses := session_modSes hx fun x => { x with replies := x.replies ++
    [{ ty := x.reqTy, tag := x.reqTag, status := status, detail := detail, payload := payload }] }
  rw [hreplies] at hses
  unfold answer
  generalize hu : modSes i (fun x => { x with replies := x.replies ++
    [{ ty := x.reqTy, tag := x.reqTag, status := status, detail := detail, payload := payload }] }) s = u at hses
  have hout : u.out = s.out := by rw [← hu]; rfl
  have hready : Session.ready { x with replies := [r] ++
      [{ ty := x.reqTy, tag := x.reqTag, status := status, detail := detail, payload := payload }] } = [] :=
    List.takeWhile_cons_of_neg (by rw [hwaits]; decide)
  unfold sendReplies
  rw [hses]
  dsimp only
  split
  · rw [hses]; exact ⟨hout, rfl⟩
  unfold flushReplies
  rw [hses]
  dsimp only
  refine ⟨?_, ?_⟩
  · rw [hready]; exact hout
  · rw [session_modSes hses, hready]
    rfl

/-- A first message of version 1, read. -/
def greeted (i : Fin 8) (s : State) : State := modSes i (fun y => { y with helloDone := true }) (received i 1 s)

theorem greeted_session {i : Fin 8} {x : Session} {s : State} (hx : s.hif.sessions.getD i.val none = some x) :
    (greeted i s).hif.sessions.getD i.val none = some { x.received 1 s.msgTag s.aon with helloDone := true } :=
  session_modSes (session_modSes hx _) _

theorem exec_hello_one {w : When} {i : Fin 8} {x : Session} {s : State} (hx : s.hif.sessions.getD i.val none = some x)
    (hrole : x.role ≠ 0) (hout : x.outstanding < 16) :
    exec (.hello w i 1) s = .next (answer i 0 0 (helloReply x.role s) (greeted i (s.at w))) := by
  have hx' : (s.at w).hif.sessions.getD i.val none = some x := hx
  show execHello w i 1 s = _
  unfold execHello
  dsimp only
  rw [hx']
  dsimp only
  rw [if_neg (by omega), if_neg (not_not_intro rfl), reply_eq_answer (by decide)]
  rfl

theorem exec_hello_other {w : When} {i : Fin 8} {version : Nat} {x : Session} {s : State} (hx : s.hif.sessions.getD i.val none = some x)
    (hrole : x.role ≠ 0) (hversion : version ≠ 1) (hout : x.outstanding < 16) :
    exec (.hello w i version) s = .next (closeSession i.val 3 (answer i 1 0 [] (received i 1 (s.at w)))) := by
  have hx' : (s.at w).hif.sessions.getD i.val none = some x := hx
  show execHello w i version s = _
  unfold execHello
  dsimp only
  rw [hx']
  dsimp only
  rw [if_neg (by omega), if_pos hversion, reply_eq_answer (by decide)]
  rfl

theorem exec_hello_full {w : When} {i : Fin 8} {version : Nat} {x : Session} {s : State} (hx : s.hif.sessions.getD i.val none = some x)
    (hout : 16 ≤ x.outstanding) : exec (.hello w i version) s = .next (s.at w) := by
  have hx' : (s.at w).hif.sessions.getD i.val none = some x := hx
  show execHello w i version s = _
  unfold execHello
  dsimp only
  rw [hx']
  exact if_pos (.inr hout)

theorem withSession_full {i : Fin 8} {x : Session} {s : State} (hx : s.hif.sessions.getD i.val none = some x)
    (hout : 16 ≤ x.outstanding) (ty r : Nat) (boot : Bool) (f : State → State) : withSession i ty r boot f s = s := by
  unfold withSession
  rw [hx]
  exact if_pos (.inr hout)

theorem withSession_serves_zero {s : State} {i : Fin 8} (h : s.serves i 1 = true) (ty : Nat) (boot : Bool) (f : State → State) :
    withSession i ty 0 boot f s = f (received i ty s) := by
  obtain ⟨x, hx, _, hhello, hboot, _, hrole, _, hout⟩ := serves_session h
  unfold withSession
  rw [hx]
  dsimp only
  rw [if_neg (by omega), hhello, hboot, if_neg (by decide), if_neg (by cases boot <;> decide), if_neg (by omega)]
  rfl

theorem links_of_rest {g h : HifState} (heq : g.rest = h.rest) : g.links = h.links :=
  show g.rest.links = h.rest.links from congrArg HifState.links heq

/-- The publication of a port stands as before once a session's reply has left. -/
theorem answer_pubFirst (i : Fin 8) (status detail : Nat) (payload : List Nat) (s : State) (p : Nat) :
    (answer i status detail payload s).pubFirst p = s.pubFirst p := by
  have hm : Moves [.sessions, .sent] s (answer i status detail payload s) := answer_moves i status detail payload Covers.rfl (.refl _ _)
  exact pubFirst_congr (answer_phe ..) (answer_bgt ..) (links_of_rest (hm.keeps .host rfl)) p

theorem exec_sessionIdleTimeout_closes {w : When} {i : Fin 8} {x : Session} {s : State} (hx : s.hif.sessions.getD i.val none = some x)
    (hrole : x.role ≠ 0) (hout : x.outstanding = 0) (hold : x.lastMsg + aonSec 30 ≤ max s.aon w.a) :
    exec (.sessionIdleTimeout w i) s = .next (closeSession i.val 1 (s.at w)) := by
  have hx' : (s.at w).hif.sessions.getD i.val none = some x := hx
  show execSessionIdleTimeout w i s = _
  unfold execSessionIdleTimeout
  dsimp only
  rw [hx']
  exact if_pos ⟨hrole, hout, hold⟩

theorem exec_handshakeTimeout_fails {w : When} {i : Fin 8} {x : Session} {s : State} (hx : s.hif.sessions.getD i.val none = some x)
    (hrole : x.role = 0) (hold : x.opened + aonSec 10 ≤ max s.aon w.a) :
    exec (.handshakeTimeout w i) s = .next (handshakeFails i [] (s.at w)) := by
  have hx' : (s.at w).hif.sessions.getD i.val none = some x := hx
  show execHandshakeTimeout w i s = _
  unfold execHandshakeTimeout
  dsimp only
  rw [hx']
  exact if_pos ⟨hrole, hold⟩

theorem exec_handshakeTimeout_waits {w : When} {i : Fin 8} {x : Session} {s : State} (hx : s.hif.sessions.getD i.val none = some x)
    (h : x.role ≠ 0 ∨ max s.aon w.a < x.opened + aonSec 10) : exec (.handshakeTimeout w i) s = .next (s.at w) := by
  have hx' : (s.at w).hif.sessions.getD i.val none = some x := hx
  show execHandshakeTimeout w i s = _
  unfold execHandshakeTimeout
  dsimp only
  rw [hx']
  exact if_neg fun hboth => h.elim (fun hr => hr hboth.1) fun hlt => Nat.not_le.mpr hlt hboth.2

theorem exec_notifyLostReport_tells {w : When} {i : Fin 8} {x : Session} {s : State} (hx : s.hif.sessions.getD i.val none = some x)
    (hlost : 0 < x.lost) (hroom : x.queue.length < 256) : exec (.notifyLostReport w i) s = .next (modSes i (fun y => { y with
      lost := 0, queue := y.queue ++ [{ kind := 3, count := x.lost, time := (s.at w).islandTime hostIsland }] }) (s.at w)) := by
  have hx' : (s.at w).hif.sessions.getD i.val none = some x := hx
  show execNotifyLostReport w i s = _
  unfold execNotifyLostReport
  dsimp only
  rw [hx']
  exact if_pos ⟨hlost, hroom⟩

theorem exec_notifyLostReport_waits {w : When} {i : Fin 8} {x : Session} {s : State} (hx : s.hif.sessions.getD i.val none = some x)
    (h : x.lost = 0 ∨ 256 ≤ x.queue.length) : exec (.notifyLostReport w i) s = .next (s.at w) := by
  have hx' : (s.at w).hif.sessions.getD i.val none = some x := hx
  show execNotifyLostReport w i s = _
  unfold execNotifyLostReport
  dsimp only
  rw [hx']
  exact if_neg (by omega)

theorem linkLocal_congr {s t : State} (h : t.gen = s.gen) : t.linkLocal = s.linkLocal := by
  unfold State.linkLocal
  rw [h]

theorem ownsAddr_linkLocal {p : Nat} {s : State} (hphase : 3 ≤ s.gen.phase) (hmode : s.hostMode p ≠ 0) :
    s.ownsAddr p true s.linkLocal = true := by
  unfold State.ownsAddr
  rw [decide_eq_true ⟨hphase, hmode⟩, if_pos rfl, decide_eq_true (Or.inl rfl), Bool.and_true]

/-- The link states of the host ports replaced. -/
def setLinks (l : List Bool) (s : State) : State := { s with hif := { s.hif with links := l } }

theorem setLinks_only (l : List Bool) (s : State) : Only [.host] s (setLinks l s) := by
  refine ⟨rfl, fun p hp => ?_⟩
  cases p
  case host => exact absurd List.mem_cons_self hp
  all_goals simp [Part.Same, setLinks]

theorem setDiscard_only (l : List Nat) (s : State) : Only [.host] s { s with hif := { s.hif with discard := l } } := by
  refine ⟨rfl, fun p hp => ?_⟩
  cases p
  case host => exact absurd List.mem_cons_self hp
  all_goals simp [Part.Same]

/-- Settles O51: connections, handshakes, messages and closings, by the branch that the hypotheses select. -/
theorem sessionsOfTheHost : Obligations.SessionsOfTheHost := by
  unfold Obligations.SessionsOfTheHost
  refine ⟨?connect, ?reset, ?bootstrap, ?fails, ?timeout, ?inTime, ?idle, ?close, ?closeBehind, ?noClose, ?hello, ?helloOther,
    ?helloBehind, ?fullSubscribe, ?fullHello, ?reserved, ?format, ?subscribe, ?lost, ?noLost, ?arp, ?noArp, ?linkLocal, ?noSolicit,
    ?echo, ?noEcho, ?discard, ?link, ?sameLink, ?role, ?solicit⟩
  case connect =>
    intro w port ll s hphase hmode hfree hset
    have hun := raise_unnotified .hif 1 (seated (connection port.val ll s.bootstrap (max s.aon w.a)) (s.at w))
    refine ⟨_, exec_shpConnect_takes hphase hmode hfree hset, ?_, ?_, raise_out ..⟩
    · exact .after (raise_only _ _ _) (.after (setSessions_only _ _) (at_only w s (Covers.rfl.trans rfl)))
    · rw [map_of_unnotified hun _ (fun _ => rfl)]
      refine (congrArg (Option.map _) (getD_putAt_free s.hif.sessions _)).trans ?_
      split <;> rfl
  case reset =>
    exact fun w port ll s h => ⟨_, exec_shpConnect_resets h, .after (emit_only _ _) (at_only w s (Covers.rfl.trans rfl)), rfl⟩
  case bootstrap =>
    intro w ses h x s hx hrole hboot hallowed hproven
    refine ⟨_, exec_tlsHandshake_bootstrap hx hrole hboot hallowed hproven, ledger_pending .., ?_, ledger_out .., ?_⟩
    · rw [ledger_admitted (fun y => (y.role, y.bootstrap, y.port)) (fun _ => rfl) (s := emit (.certificate ses.val s.presented) (s.at w)) hx]
      show some (3, x.bootstrap, x.port) = _
      rw [hboot]
    · exact (ledger_moves _ _ _ Covers.rfl (.refl _ _)).keeps .cartridge rfl
  case fails =>
    intro w ses h x s hx hrole hbad
    exact ⟨_, exec_tlsHandshake_fails hx hrole hbad, handshakeFails_shows (s := emit (.certificate ses.val s.presented) (s.at w)) hx⟩
  case timeout =>
    exact fun w ses x s hx hrole hold => ⟨_, exec_handshakeTimeout_fails hx hrole hold, handshakeFails_shows (s := s.at w) hx⟩
  case inTime =>
    exact fun w ses x s hx h => ⟨_, exec_handshakeTimeout_waits hx h, at_only w s Covers.rfl⟩
  case idle =>
    intro w ses x s hx hrole hout hold
    obtain ⟨hpend, hnone, -, hleft, hegress⟩ := closeSession_shows (cause := 1) (s := s.at w) hx
    obtain ⟨hleft', hegress'⟩ := leaveHost_congr (s := s) (t := s.at w) (x.ready.map (·.out ses.val) ++ [.shpClosed ses.val]) (p := x.port) rfl rfl rfl
    exact ⟨_, exec_sessionIdleTimeout_closes hx hrole hout hold, hpend, hnone, hleft.trans hleft', hegress.trans hegress'⟩
  case close =>
    intro w ses framing x s hx
    obtain ⟨hpend, hnone, hstoring, hleft, hegress⟩ := closeSession_shows (cause := if framing then 3 else 0) (s := s.at w) hx
    obtain ⟨hleft', hegress'⟩ := leaveHost_congr (s := s) (t := s.at w) (x.ready.map (·.out ses.val) ++ [.shpClosed ses.val]) (p := x.port) rfl rfl rfl
    exact ⟨_, rfl, hpend, hnone, hstoring, hleft.trans hleft', hegress.trans hegress'⟩
  case closeBehind =>
    intro w ses framing x s hx hreplies hpub
    obtain ⟨hpend, hnone, -, hleft, hegress⟩ := closeSession_shows (cause := if framing then 3 else 0) (s := s.at w) hx
    have hready : x.ready = [] := by unfold Session.ready; rw [hreplies]; rfl
    have hbehind : leaveHost x.port (x.ready.map (·.out ses.val) ++ [.shpClosed ses.val]) (s.at w) =
        { s.at w with hif := { s.hif with egress := s.hif.egress ++ [(x.port, .shpClosed ses.val)] } } := by
      rw [hready]
      exact if_pos hpub
    rw [hbehind] at hleft hegress
    exact ⟨_, rfl, hpend, hnone, hleft, hegress⟩
  case noClose =>
    intro w ses framing s hnone
    refine ⟨s.at w, congrArg Host.Outcome.next ?_, at_only w s Covers.rfl⟩
    unfold closeSession
    rw [show (s.at w).hif.sessions.getD ses.val none = none from hnone]
  case hello =>
    intro w ses x s hx hrole hout hreplies hpub
    obtain ⟨hses, hleft⟩ := answer_asked (s := greeted ses (s.at w)) ⟨greeted_session hx, hreplies, hpub⟩ 0 0 (helloReply x.role s)
    refine ⟨_, exec_hello_one hx hrole hout, ?_, ?_, hleft⟩
    · exact .after (answer_only ..) (.after (modSes_only _ _ _) (.after (received_only _ _ _) (at_only w s (Covers.rfl.trans rfl))))
    · rw [hses]
      rfl
  case helloOther =>
    intro w ses version x s hx hrole hversion hout hreplies hpub
    obtain ⟨hses, hleft⟩ := answer_asked (s := received ses 1 (s.at w)) (x := x.received 1 w.tag (max s.aon w.a))
      ⟨session_modSes (s := s.at w) hx _, hreplies, hpub⟩ 1 0 []
    obtain ⟨hpend, hnone, -, hclosed, -⟩ := closeSession_shows (cause := 3) hses
    refine ⟨_, exec_hello_other hx hrole hversion hout, hpend.trans (answer_pending ..), hnone, hclosed.trans ?_⟩
    refine (congrArg State.out (if_neg ?_)).trans (congrArg (List.cons _) hleft)
    rw [answer_pubFirst]
    exact fun h => Bool.noConfusion (h.symm.trans hpub)
  case helloBehind =>
    intro w ses x kind s hx hrole hout hreplies
    obtain ⟨hleft, hses⟩ := answer_behind (greeted_session (s := s.at w) hx) hreplies rfl 0 0 (helloReply x.role s)
    refine ⟨_, exec_hello_one hx hrole hout, ?_, hses, hleft⟩
    exact Only.silent (.after (P := [.sent, .time, .sessions]) (answer_only ..) (.after (modSes_only _ _ _) (.after (received_only _ _ _)
      (at_only w s (Covers.rfl.trans rfl))))) hleft
  case fullSubscribe =>
    exact fun w ses kinds sources x s hx hout => ⟨_, congrArg Host.Outcome.next (withSession_full (s := s.at w) hx hout ..), at_only w s Covers.rfl⟩
  case fullHello =>
    exact fun w ses version x s hx hout => ⟨_, exec_hello_full hx hout, at_only w s Covers.rfl⟩
  case reserved =>
    intro w ses ty s hserves hty
    have hexec : exec (.shpReservedType w ses ty) s = .next (reply ses 2 0 [] (received ses ty (s.at w))) :=
      congrArg Host.Outcome.next ((withSession_serves_zero (s := s.at w) hserves ..).trans (if_neg (by omega)))
    exact ⟨_, hexec, reply_served hserves (by decide)⟩
  case format =>
    intro w ses ty s hserves hty
    have hexec : exec (.shpReservedType w ses ty) s = .next (reply ses 1 0 [] (received ses ty (s.at w))) :=
      congrArg Host.Outcome.next ((withSession_serves_zero (s := s.at w) hserves ..).trans (if_pos hty))
    exact ⟨_, hexec, reply_served hserves (by decide)⟩
  case subscribe =>
    intro w ses kinds sources x s hx hserves
    obtain ⟨y, hy, hpub, -, -, hreplies, -⟩ := serves_session hserves
    obtain rfl : x = y := Option.some.inj (hx.symm.trans hy)
    have hmod := session_modSes (s := received ses 10 (s.at w)) (session_modSes (s := s.at w) hx _)
      (fun y : Session => { y with kinds := kinds.val, sources := sources })
    obtain ⟨hses, hleft⟩ := answer_asked ⟨hmod, hreplies, hpub⟩ 0 0 []
    have hexec : exec (.notifySubscribe w ses kinds sources) s = .next (reply ses 0 0 []
        (modSes ses (fun y => { y with kinds := kinds.val, sources := sources }) (received ses 10 (s.at w)))) :=
      congrArg Host.Outcome.next (withSession_serves (s := s.at w) hserves ..)
    rw [reply_eq_answer (by decide)] at hexec
    refine ⟨_, hexec, ?_, ?_, hleft⟩
    · exact .after (answer_only ..) (.after (modSes_only _ _ _) (.after (received_only _ _ _) (at_only w s (Covers.rfl.trans rfl))))
    · rw [hses]
      rfl
  case lost =>
    intro w ses x s hx hlost hroom
    refine ⟨_, exec_notifyLostReport_tells hx hlost hroom, .after (modSes_only _ _ _) (at_only w s (Covers.rfl.trans rfl)), ?_⟩
    rw [session_modSes (s := s.at w) hx]
    rfl
  case noLost =>
    exact fun w ses x s hx h => ⟨_, exec_notifyLostReport_waits hx h, at_only w s Covers.rfl⟩
  case arp =>
    exact fun w port target s h => ⟨_, congrArg Host.Outcome.next (if_pos h), .after (emit_only _ _) (at_only w s (Covers.rfl.trans rfl)), rfl⟩
  case noArp =>
    exact fun w port target s h => ⟨_, congrArg Host.Outcome.next (if_neg (by exact fun hno => Bool.false_ne_true (h.symm.trans hno))), at_only w s Covers.rfl⟩
  case linkLocal =>
    intro w port s hphase hmode
    have howns := ownsAddr_linkLocal (s := s.at w) hphase hmode
    rw [linkLocal_congr (s := s) (t := s.at w) rfl] at howns
    exact ⟨_, congrArg Host.Outcome.next (if_pos howns), .after (emit_only _ _) (at_only w s (Covers.rfl.trans rfl)), rfl⟩
  case noSolicit =>
    intro w port target s hmode
    have howns : (s.at w).ownsAddr port.val true target = false := by
      show (decide (3 ≤ s.gen.phase ∧ s.hostMode port.val ≠ 0) && _) = false
      rw [decide_eq_false fun h => h.2 hmode, Bool.false_and]
    exact ⟨_, congrArg Host.Outcome.next (if_neg (by rw [howns]; decide)), at_only w s Covers.rfl⟩
  case echo =>
    exact fun w port v6 target s h => ⟨_, congrArg Host.Outcome.next (if_pos h), .after (emit_only _ _) (at_only w s (Covers.rfl.trans rfl)), rfl⟩
  case noEcho =>
    exact fun w port v6 target s h => ⟨_, congrArg Host.Outcome.next (if_neg (by exact fun hno => Bool.false_ne_true (h.symm.trans hno))), at_only w s Covers.rfl⟩
  case discard =>
    exact fun w port s => ⟨_, rfl, .after (setDiscard_only _ _) (at_only w s (Covers.rfl.trans rfl)), rfl, rfl⟩
  case link =>
    intro w port up s hne
    have hun := raise_unnotified .hif 0 (setLinks (putAt s.hif.links port.val up) (s.at w))
    refine ⟨_, if_neg hne, ?_, links_of_unnotified hun⟩
    exact .after (raise_only _ _ _) (.after (setLinks_only _ _) (at_only w s (Covers.rfl.trans rfl)))
  case sameLink =>
    exact fun w port s => ⟨_, if_pos rfl, at_only w s Covers.rfl⟩
  case role =>
    intro w ses h x r s hx hrole hboot hallowed hproven hchain hvalid hr hne
    refine ⟨_, exec_tlsHandshake_role hx hrole hboot hallowed hproven hchain hvalid hr hne, ?_, ?_, ledger_out ..⟩
    · exact .after (ledger_moves _ _ _ Covers.rfl (.refl _ _)).only (.after (modSes_only _ _ _) (.after (emit_only _ _)
        (at_only w s (Covers.rfl.trans rfl))))
    · rw [ledger_admitted (fun y => (y.role, y.bootstrap, y.port, y.lastMsg)) (fun _ => rfl)
        (s := emit (.certificate ses.val s.presented) (s.at w)) hx]
      show some (r, x.bootstrap, x.port, max s.aon w.a) = _
      rw [hboot]
  case solicit =>
    exact fun w port target s h => ⟨_, congrArg Host.Outcome.next (if_pos h), .after (emit_only _ _) (at_only w s (Covers.rfl.trans rfl)), rfl⟩

end Sys2Proof.Machine


/-! ### The loads of firmware (O54) -/

namespace Sys2Proof.Machine

set_option Elab.async false

open Sys2Proof

/-! #### Refusals and abandoned loads -/

/-- The update unit after a refusal. -/
def UpdState.refusing (u : UpdState) (code offset : Nat) : UpdState := { u with refused := true, refuse := code, refuseOffset := offset }

/-- The update unit without its load, the slot that it filled EMPTY. -/
def UpdState.emptied (u : UpdState) : UpdState := { u with load := none, slots := updAt u.slots (1 - u.active) (fun _ => {}) }

theorem updRefuse_upd (code offset : Nat) (s : State) : (updRefuse code offset s).upd = s.upd.refusing code offset :=
  (ledger_upd ..).trans ((raise_upd ..).trans ((hwSet_upd ..).trans rfl))

theorem updRefuse_pending (code offset : Nat) (s : State) : (updRefuse code offset s).pending = s.pending :=
  (ledger_pending ..).trans ((raise_pending ..).trans ((hwSet_pending ..).trans rfl))

theorem updDrop_upd {s : State} (h : s.upd.load.isSome = true) : (updDrop s).upd = s.upd.emptied := by
  unfold updDrop
  rw [if_pos h]
  rfl

theorem updDrop_idle {s : State} (h : s.upd.load = none) : updDrop s = s := by
  unfold updDrop
  rw [h]
  rfl

theorem updDrop_pending (s : State) : (updDrop s).pending = s.pending := by
  unfold updDrop
  split <;> rfl

theorem replyUpd_upd (i : Fin 8) (status detail : Nat) (s : State) : (replyUpd i status detail s).upd = s.upd := reply_upd ..

theorem replyUpd_only {status : Nat} (hst : status ≠ 3) (i : Fin 8) (detail : Nat) (s : State) :
    Only [.sessions, .sent] s (replyUpd i status detail s) := reply_only hst ..

theorem refusedReply_upd (i : Fin 8) (code offset : Nat) (s : State) :
    (replyUpd i 8 code (updRefuse code offset s)).upd = s.upd.refusing code offset := (replyUpd_upd ..).trans (updRefuse_upd ..)

theorem updRefuseAll_upd {s : State} (h : s.upd.load.isSome = true) (i : Fin 8) (code offset : Nat) :
    (updRefuseAll i code offset s).upd = s.upd.emptied.refusing code offset := (refusedReply_upd ..).trans (by rw [updDrop_upd h])

theorem updRefuseAll_idle {s : State} (h : s.upd.load = none) (i : Fin 8) (code offset : Nat) :
    (updRefuseAll i code offset s).upd = s.upd.refusing code offset := (refusedReply_upd ..).trans (by rw [updDrop_idle h])

theorem updRefuseAll_pending (i : Fin 8) (code offset : Nat) (s : State) : (updRefuseAll i code offset s).pending = s.pending :=
  (reply_pending ..).trans ((updRefuse_pending ..).trans (updDrop_pending ..))

theorem updRefuseAll_only (i : Fin 8) (code offset : Nat) (s : State) :
    Only [.events, .firmware, .ledger, .keeper, .sessions, .host, .sent] s (updRefuseAll i code offset s) :=
  (updRefuseAll_moves i code offset (Covers.rfl.trans rfl) (.refl _ _)).only

theorem refusedReply_only (i : Fin 8) (code offset : Nat) (s : State) :
    Only [.events, .firmware, .ledger, .keeper, .sessions, .host, .sent] s (replyUpd i 8 code (updRefuse code offset s)) :=
  (replyUpd_moves i 8 code (Covers.rfl.trans rfl) (updRefuse_moves code offset (Covers.rfl.trans rfl) (.refl _ _))).only

/-! #### The messages of a load -/

/-- The committed image is read back into the slot that is not running (R364). -/
def readingBack (i : Fin 8) (l : UpdLoad) (s : State) : State :=
  let s := modFwSlot s.spareSlot (fun x => { x with image := joinBlocks l.blocks l.total }) s
  defer 2 i { s with upd := { s.upd with storing := true, committer := some i.val, load := none } }

/-- A load whose header passed, with its slot LOADING (R362). -/
def loadOpened (i : Fin 8) (data : List Byte) (s : State) : State :=
  let s := modFwSlot s.spareSlot (fun _ => { state := 1 }) s
  let l : UpdLoad := { owner := some i.val, total := leField data 0x20 4, header := data.take 512, blocks := [(0, data)], since := s.aon }
  { s with upd := { s.upd with load := some l, skipBlvl := s.blvlSkipped } }

theorem block_taken {b : List Byte} (hlen : 1 ≤ b.length ∧ b.length ≤ 4096) : (b.isEmpty || decide (4096 < b.length)) = false := by
  rw [decide_eq_false (by omega), Bool.or_false, ← Bool.not_eq_true, List.isEmpty_iff, ← List.length_eq_zero_iff]
  omega

section
variable {w : When} {i : Fin 8} {s : State} (h : s.serves i 3 = true)
include h

theorem exec_firmwareLoadBlock_first {offset : Nat} {b : FlashBlock} (hload : s.upd.load = none)
    (hlen : 1 ≤ b.bytes.length ∧ b.bytes.length ≤ 4096) :
    exec (.firmwareLoadBlock w i offset b) s = .next (updFirst i offset b (received i 4 (s.at w))) := by
  refine congrArg Host.Outcome.next ((withSession_serves (s := s.at w) h 4 false _).trans ?_)
  have hload' : (received i 4 (s.at w)).upd.load = none := hload
  rw [block_taken hlen, if_neg Bool.false_ne_true, hload']

theorem exec_firmwareLoadBlock_next {offset : Nat} {b : FlashBlock} {l : UpdLoad} (hload : s.upd.load = some l)
    (hown : l.owner = some i.val ∨ (l.owner = none ∧ offset ≠ 0)) (hlen : 1 ≤ b.bytes.length ∧ b.bytes.length ≤ 4096) :
    exec (.firmwareLoadBlock w i offset b) s = .next (updNext i l offset b (received i 4 (s.at w))) := by
  refine congrArg Host.Outcome.next ((withSession_serves (s := s.at w) h 4 false _).trans ?_)
  have hload' : (received i 4 (s.at w)).upd.load = some l := hload
  rw [block_taken hlen, if_neg Bool.false_ne_true, hload']
  exact if_pos hown

theorem exec_firmwareCommit_idle (hload : s.upd.load = none) : exec (.firmwareCommit w i) s =
    .next (replyUpd i 8 (if s.upd.storing then 0x0D else 0x0F)
      (updRefuse (if s.upd.storing then 0x0D else 0x0F) 0 (received i 5 (s.at w)))) := by
  refine congrArg Host.Outcome.next ((withSession_serves (s := s.at w) h 5 false _).trans ?_)
  have hload' : (received i 5 (s.at w)).upd.load = none := hload
  rw [hload']
  rfl

section
variable {l : UpdLoad} (hload : s.upd.load = some l) (hown : l.owner = some i.val ∨ l.owner = none)
include hload hown

theorem exec_firmwareCommit_complete (hall : allBlocks l.blocks l.total = true) :
    exec (.firmwareCommit w i) s = .next (readingBack i l (received i 5 (s.at w))) := by
  refine congrArg Host.Outcome.next ((withSession_serves (s := s.at w) h 5 false _).trans ?_)
  have hload' : (received i 5 (s.at w)).upd.load = some l := hload
  rw [hload']
  dsimp only
  rw [if_neg (fun hno => hown.elim hno.1 hno.2), if_pos hall]
  rfl

theorem exec_firmwareCommit_incomplete (hall : allBlocks l.blocks l.total = false) :
    exec (.firmwareCommit w i) s = .next (updRefuseAll i 0x0F 0 (received i 5 (s.at w))) := by
  refine congrArg Host.Outcome.next ((withSession_serves (s := s.at w) h 5 false _).trans ?_)
  have hload' : (received i 5 (s.at w)).upd.load = some l := hload
  rw [hload']
  dsimp only
  rw [if_neg (fun hno => hown.elim hno.1 hno.2), hall, if_neg Bool.false_ne_true]

theorem exec_firmwareRevert_keeps :
    exec (.firmwareRevert w i) s = .next (reply i 9 0 [0, 0, 0] (updTouch i l (received i 5 (s.at w)))) := by
  refine congrArg Host.Outcome.next ((withSession_serves (s := s.at w) h 5 false _).trans ?_)
  have hload' : (received i 5 (s.at w)).upd.load = some l := hload
  rw [hload']
  dsimp only
  rw [if_pos hown]
  rfl

theorem exec_firmwareAbort_drops :
    exec (.firmwareAbort w i) s = .next (replyUpd i 0 0 (updDrop (received i 5 (s.at w)))) := by
  refine congrArg Host.Outcome.next ((withSession_serves (s := s.at w) h 5 false _).trans ?_)
  have hload' : (received i 5 (s.at w)).upd.load = some l := hload
  rw [hload']
  exact if_pos hown

end

theorem exec_firmwareRevert_idle (hload : s.upd.load = none) :
    exec (.firmwareRevert w i) s = .next (reply i 9 0 [0, 0, 0] (received i 5 (s.at w))) := by
  refine congrArg Host.Outcome.next ((withSession_serves (s := s.at w) h 5 false _).trans ?_)
  have hload' : (received i 5 (s.at w)).upd.load = none := hload
  rw [hload']
  rfl

end

/-! #### Blocks -/

section
variable {i : Fin 8} {offset : Nat} {b : FlashBlock} {s : State}

theorem updFirst_misplaced (hidle : s.upd.storing = false) (hbad : offset ≠ 0 ∨ b.bytes.length ≠ 4096) :
    updFirst i offset b s = updRefuseAll i 0x0B offset s := by
  unfold updFirst
  dsimp only
  rw [hidle, if_neg Bool.false_ne_true, if_pos hbad]

theorem updFirst_fails {f : Nat × Nat} (hidle : s.upd.storing = false) (hlen : b.bytes.length = 4096)
    (hcheck : imageCheck false b.bytes s = some f) : updFirst i 0 b s = updRefuseAll i f.1 f.2 s := by
  unfold updFirst
  dsimp only
  rw [hidle, if_neg Bool.false_ne_true, if_neg (by simp [hlen]), hcheck]

theorem updFirst_opens (hidle : s.upd.storing = false) (hlen : b.bytes.length = 4096) (hcheck : imageCheck false b.bytes s = none)
    (hflash : b.flashOk = true) : updFirst i 0 b s = replyUpd i 0 0 (loadOpened i b.bytes s) := by
  unfold updFirst
  dsimp only
  rw [hidle, if_neg Bool.false_ne_true, if_neg (by simp [hlen]), hcheck]
  dsimp only
  rw [hflash]
  rfl

variable {l : UpdLoad} (hsize : offset % 4096 = 0 ∧ offset < l.total ∧ b.bytes.length = blockSize l.total offset)
  (hnew : l.blocks.find? (fun x => x.1 == offset) = none)
include hsize hnew

theorem updNext_holds (hflash : b.flashOk = true) : updNext i l offset b s =
    replyUpd i 0 0 (updTouch i (l.add offset b.bytes) (updTouch i l s)) := by
  unfold updNext
  dsimp only
  rw [if_neg (by omega), hnew]
  dsimp only
  rw [if_pos hflash]

theorem updNext_flashFails (hflash : b.flashOk = false) :
    updNext i l offset b s = updRefuseAll i 0x10 offset (updTouch i l s) := by
  unfold updNext
  dsimp only
  rw [if_neg (by omega), hnew]
  dsimp only
  rw [hflash, if_neg Bool.false_ne_true]

end

/-- The checks of a header read the update unit and the keeper. -/
theorem imageCheck_congr {s t : State} (hupd : t.upd = s.upd) (hkpr : t.kpr = s.kpr) (boot : Bool) (bs : List Byte) :
    imageCheck boot bs t = imageCheck boot bs s := by
  unfold imageCheck State.blvlSkipped State.keeperReadable State.cart
  rw [hupd, hkpr]

/-! #### What the parts of a load leave -/

theorem setUpd_only (u : UpdState) (s : State) : Only [.firmware] s { s with upd := u } := by
  refine ⟨rfl, fun p hp => ?_⟩
  cases p
  case firmware => exact absurd List.mem_cons_self hp
  all_goals simp [Part.Same]

theorem updDrop_only (s : State) : Only [.firmware] s (updDrop s) := (updDrop_moves Covers.rfl (.refl _ _)).only

theorem updRefuse_only (code offset : Nat) (s : State) : Only [.events, .firmware, .ledger, .keeper, .sessions, .host] s (updRefuse code offset s) :=
  (updRefuse_moves code offset (Covers.rfl.trans rfl) (.refl _ _)).only

theorem answerUpd_only (i : Option Nat) (status detail : Nat) (s : State) : Only [.sessions, .sent] s (answerUpd i status detail s) :=
  (answerTo_moves 2 i status detail _ Covers.rfl (.refl _ _)).only

theorem answerUpd_upd (i : Option Nat) (status detail : Nat) (s : State) : (answerUpd i status detail s).upd = s.upd :=
  (answerUpd_only i status detail s).2 .firmware (by decide)

/-! #### The read-back -/

/-- The read-back has ended. -/
def readbackEnded (s : State) : State := { s with upd := { s.upd with storing := false, committer := none } }

/-- The read-back did not match: the slot is EMPTY. -/
def readbackRefused (code offset : Nat) (s : State) : State :=
  answerUpd s.upd.committer 8 code (updRefuse code offset (modFwSlot s.spareSlot (fun _ => {}) (readbackEnded s)))

/-- The slot is STAGED, with its event and record. -/
def stagedNoted (n : Nat) (img : List Byte) (s : State) : State :=
  ledger 0x1102 n [n, leField img 0x18 4, leField img 0x1C 2, bit1 (updEvent 1 s).upd.skipBlvl] (updEvent 1 s)

/-- The read-back matched. -/
def readbackStaged (s : State) : State :=
  answerUpd s.upd.committer 0 0 (stagedNoted s.spareSlot (s.upd.slots.getD s.spareSlot {}).image
    (modFwSlot s.spareSlot (fun x => { x with state := 2 }) (readbackEnded s)))

theorem stagedNoted_upd (n : Nat) (img : List Byte) (s : State) : (stagedNoted n img s).upd = s.upd :=
  (ledger_upd ..).trans (raise_upd ..)

theorem stagedNoted_only (n : Nat) (img : List Byte) (s : State) : Only [.events, .ledger, .keeper, .sessions, .host] s (stagedNoted n img s) :=
  (ledger_moves _ _ _ (Covers.rfl.trans rfl) (updEvent_moves 1 (Covers.rfl.trans rfl) (.refl _ _))).only

theorem readbackRefused_upd (code offset : Nat) (s : State) : (readbackRefused code offset s).upd =
    (modFwSlot s.spareSlot (fun _ => {}) (readbackEnded s)).upd.refusing code offset :=
  (answerUpd_upd ..).trans (updRefuse_upd ..)

theorem readbackStaged_upd (s : State) :
    (readbackStaged s).upd = (modFwSlot s.spareSlot (fun x => { x with state := 2 }) (readbackEnded s)).upd :=
  (answerUpd_upd ..).trans (stagedNoted_upd ..)

theorem readbackRefused_only (code offset : Nat) (s : State) :
    Only [.events, .firmware, .ledger, .keeper, .sessions, .host, .sent] s (readbackRefused code offset s) :=
  .after (answerUpd_only ..) (.after (updRefuse_only ..) (setUpd_only _ s).mono)

theorem readbackStaged_only (s : State) :
    Only [.events, .firmware, .ledger, .keeper, .sessions, .host, .sent] s (readbackStaged s) :=
  .after (answerUpd_only ..) (.after (stagedNoted_only ..) (setUpd_only _ s).mono)

section
variable {w : When} {s : State} (hstoring : s.upd.storing = true)
include hstoring

theorem exec_readback_fails : exec (.firmwareReadbackComplete w false) s = .next (readbackRefused 0x10 0 (s.at w)) := by
  have hstoring' : (s.at w).upd.storing = true := hstoring
  show execFirmwareReadbackComplete w false s = _
  unfold execFirmwareReadbackComplete
  dsimp only
  rw [hstoring', if_neg (by decide), Bool.false_and, if_neg Bool.false_ne_true]
  rfl

theorem exec_readback_matches (hmatch : imageDigest (s.upd.slots.getD s.spareSlot {}).image = slice (s.upd.slots.getD s.spareSlot {}).image 0x100 48) :
    exec (.firmwareReadbackComplete w true) s = .next (readbackStaged (s.at w)) := by
  have hstoring' : (s.at w).upd.storing = true := hstoring
  have hmatch' : imageDigest ((s.at w).upd.slots.getD (s.at w).spareSlot {}).image
    = slice ((s.at w).upd.slots.getD (s.at w).spareSlot {}).image 0x100 48 := hmatch
  show execFirmwareReadbackComplete w true s = _
  unfold execFirmwareReadbackComplete
  dsimp only
  rw [hstoring', if_neg (by decide), Bool.true_and, if_pos (beq_iff_eq.mpr hmatch')]
  rfl

theorem exec_readback_differs (hdiffer : imageDigest (s.upd.slots.getD s.spareSlot {}).image ≠ slice (s.upd.slots.getD s.spareSlot {}).image 0x100 48) :
    exec (.firmwareReadbackComplete w true) s = .next (readbackRefused 0x0C 0x100 (s.at w)) := by
  have hstoring' : (s.at w).upd.storing = true := hstoring
  have hdiffer' : imageDigest ((s.at w).upd.slots.getD (s.at w).spareSlot {}).image
    ≠ slice ((s.at w).upd.slots.getD (s.at w).spareSlot {}).image 0x100 48 := hdiffer
  show execFirmwareReadbackComplete w true s = _
  unfold execFirmwareReadbackComplete
  dsimp only
  rw [hstoring', if_neg (by decide), Bool.true_and, if_neg (fun hsame => hdiffer' (beq_iff_eq.mp hsame))]
  rfl

end

theorem exec_readback_idle {w : When} {ok : Bool} {s : State} (hidle : s.upd.storing = false) :
    exec (.firmwareReadbackComplete w ok) s = .next (s.at w) := by
  refine if_pos ?_
  show (!s.upd.storing) = true
  rw [hidle]
  rfl

/-! #### Timeouts and aborts -/

theorem exec_firmwareLoadTimeout_drops {w : When} {l : UpdLoad} {s : State} (hload : s.upd.load = some l)
    (hdue : l.since + aonSec 60 ≤ max s.aon w.a) : exec (.firmwareLoadTimeout w) s = .next (updRefuse 0x0E 0 (updDrop (s.at w))) := by
  have hload' : (s.at w).upd.load = some l := hload
  show execFirmwareLoadTimeout w s = _
  unfold execFirmwareLoadTimeout
  dsimp only
  rw [hload']
  exact congrArg Host.Outcome.next (if_pos hdue)

theorem exec_firmwareLoadTimeout_idle {w : When} {s : State} (hload : s.upd.load = none) :
    exec (.firmwareLoadTimeout w) s = .next (s.at w) := by
  have hload' : (s.at w).upd.load = none := hload
  show execFirmwareLoadTimeout w s = _
  unfold execFirmwareLoadTimeout
  dsimp only
  rw [hload']

theorem updAbortAct_allowed {who : Agent} {s : State} (hwho : fwOrEngineer who s = true) : updAbortAct who s = updDrop s := if_pos hwho

theorem updAbortAct_ignored {who : Agent} {s : State} (h : s.upd.load = none ∨ fwOrEngineer who s = false) : updAbortAct who s = s := by
  unfold updAbortAct
  split
  next hwho =>
    refine updDrop_idle (h.resolve_right ?_)
    rw [hwho]
    decide
  next => rfl

end Sys2Proof.Machine


/-! ### The loads of access sets, and O54 settled -/

namespace Sys2Proof.Machine

set_option Elab.async false

open Sys2Proof

/-! #### The session that loads -/

section
variable {i : Fin 8} {x : Session} {s : State} (hasked : Asked i x s)
include hasked

/-- A change of the asking session that leaves its port and its replies. -/
theorem Asked.modSes {f : Session → Session} (hreplies : (f x).replies = x.replies) (hport : (f x).port = x.port) :
    Asked i (f x) (modSes i f s) where
  session := session_modSes hasked.session f
  noReply := hreplies.trans hasked.noReply
  first := (congrArg s.pubFirst hport).trans hasked.first

/-- What an asking session holds once it is replied to, and what leaves. -/
theorem Asked.reply {status : Nat} (hst : status ≠ 3) (detail : Nat) (payload : List Nat) :
    ((reply i status detail payload s).hif.sessions.getD i.val none).map (·.accessBlocks) = some x.accessBlocks
    ∧ (Machine.reply i status detail payload s).out =
      .shp i.val { length := 4 * payload.length, ty := x.reqTy, flags := 1, tag := x.reqTag } status detail payload :: s.out := by
  obtain ⟨hses, hout⟩ := answer_asked hasked status detail payload
  rw [reply_eq_answer hst, hses]
  exact ⟨rfl, hout⟩

theorem Asked.accessBytes : s.accessBytes i = x.accessBlocks.foldl layBlock [] := by
  unfold State.accessBytes
  rw [hasked.session]

end

/-- What the session has loaded is given up. -/
def blocksDropped (i : Fin 8) (s : State) : State := modSes i (fun y => { y with accessBlocks := [] }) s

/-- A block is held for the session. -/
def blockHeld (i : Fin 8) (offset : Nat) (data : List Byte) (s : State) : State :=
  modSes i (fun y => { y with accessBlocks := y.accessBlocks ++ [(offset, data)] }) s

theorem accessBytes_received {i : Fin 8} {r ty : Nat} {s : State} (h : s.serves i r = true) :
    (received i ty s).accessBytes i = s.accessBytes i := by
  obtain ⟨x, hx, hasked⟩ := received_asked h ty
  rw [hasked.accessBytes]
  unfold State.accessBytes
  rw [hx]
  rfl

/-- The checks of a set read the set in force and whether the keeper can be written. -/
theorem accessCheck_congr {s t : State} (haccess : t.hif.access = s.hif.access) (hkpr : t.kpr = s.kpr) (bs : List Byte) (keyOk chainOk : Bool) :
    accessCheck bs keyOk chainOk t = accessCheck bs keyOk chainOk s := by
  unfold accessCheck
  rw [haccess, keeperWritable_congr (congrArg KprState.mounted hkpr)]

section
variable {w : When} {i : Fin 8} {s : State} (h : s.serves i 3 = true)
include h

theorem exec_accessSetLoadBlock_holds {offset : Nat} {data : List Byte} (hlen : 1 ≤ data.length ∧ data.length ≤ 4096)
    (hfits : offset + data.length ≤ 65536) :
    exec (.accessSetLoadBlock w i offset data) s = .next (reply i 0 0 [0, 0, 0] (blockHeld i offset data (received i 4 (s.at w)))) := by
  refine congrArg Host.Outcome.next ((withSession_serves (s := s.at w) h 4 true _).trans ?_)
  rw [block_taken hlen, if_neg Bool.false_ne_true, if_neg (by omega)]
  rfl

theorem exec_accessSetLoadBlock_beyond {offset : Nat} {data : List Byte} (hlen : 1 ≤ data.length ∧ data.length ≤ 4096)
    (hbeyond : 65536 < offset + data.length) :
    exec (.accessSetLoadBlock w i offset data) s = .next (reply i 9 0 [0, 0, 0] (received i 4 (s.at w))) := by
  refine congrArg Host.Outcome.next ((withSession_serves (s := s.at w) h 4 true _).trans ?_)
  rw [block_taken hlen, if_neg Bool.false_ne_true, if_pos hbeyond]

theorem exec_accessSetCommit_commits {keyOk chainOk : Bool} : exec (.accessSetCommit w i (.commit keyOk) chainOk) s =
    .next (commitAccess i (s.accessBytes i) keyOk chainOk (blocksDropped i (received i 5 (s.at w)))) := by
  refine congrArg Host.Outcome.next ((withSession_serves (s := s.at w) h 5 true _).trans ?_)
  dsimp only
  rw [accessBytes_received (s := s.at w) h]
  rfl

theorem exec_accessSetCommit_aborts {chainOk : Bool} : exec (.accessSetCommit w i .abort chainOk) s =
    .next (reply i 0 0 [0, 0, 0] (blocksDropped i (received i 5 (s.at w)))) :=
  congrArg Host.Outcome.next (withSession_serves (s := s.at w) h 5 true _)

theorem exec_accessSetCommit_reverts {chainOk : Bool} : exec (.accessSetCommit w i .revert chainOk) s =
    .next (reply i 9 0 [0, 0, 0] (received i 5 (s.at w))) :=
  congrArg Host.Outcome.next (withSession_serves (s := s.at w) h 5 true _)

end

/-! #### The commit of a set -/

/-- The keeper write of a set. -/
def storeOf (a : AccessSet) (bs : List Byte) : KprJob := { cls := 3, kind := .access a, pages := (bs.length + 4095) / 4096 }

/-- A set that passes its checks is to be stored. -/
def accessQueued (i : Fin 8) (j : KprJob) (s : State) : State :=
  { queueJob j (defer 3 i s) with
    hif := { (queueJob j (defer 3 i s)).hif with accessStoring := (queueJob j (defer 3 i s)).hif.accessStoring ++ [some i.val] } }

theorem setStoring_only (l : List (Option Nat)) (s : State) : Only [.access] s { s with hif := { s.hif with accessStoring := l } } := by
  refine ⟨rfl, fun p hp => ?_⟩
  cases p
  case access => exact absurd List.mem_cons_self hp
  all_goals simp [Part.Same]

theorem queueJob_jobs (j : KprJob) (s : State) : (queueJob j s).kpr.jobs = insertJob j s.kpr.jobs := by
  unfold queueJob
  dsimp only
  split
  · rfl
  · rw [raise_kpr]

theorem defer_only (kind : Nat) (i : Fin 8) (s : State) : Only [.sessions] s (defer kind i s) := modSes_only ..

theorem queueJob_only (j : KprJob) (s : State) : Only [.events, .keeper, .sessions, .host] s (queueJob j s) :=
  (queueJob_moves j Covers.rfl (.refl _ _)).only

theorem queued_only (i : Fin 8) (j : KprJob) (s : State) : Only [.events, .keeper, .sessions, .host] s (queueJob j (defer 3 i s)) :=
  .after (queueJob_only ..) (defer_only ..).mono

theorem accessQueued_only (i : Fin 8) (j : KprJob) (s : State) : Only [.events, .keeper, .sessions, .access, .host] s (accessQueued i j s) :=
  .after (setStoring_only _ _) (queued_only ..).mono

theorem accessQueued_access (i : Fin 8) (j : KprJob) (s : State) : (accessQueued i j s).hif.access = s.hif.access
    ∧ (accessQueued i j s).hif.accessStoring = s.hif.accessStoring ++ [some i.val] := by
  obtain ⟨haccess, hstoring, _⟩ := (queued_only i j s).2 .access (by decide)
  exact ⟨haccess, congrArg (· ++ [some i.val]) hstoring⟩

theorem accessQueued_jobs (i : Fin 8) (j : KprJob) (s : State) : (accessQueued i j s).kpr.jobs = insertJob j s.kpr.jobs :=
  queueJob_jobs ..

theorem accessQueued_blocks {i : Fin 8} {x : Session} (j : KprJob) {s : State} (hx : s.hif.sessions.getD i.val none = some x) :
    ((accessQueued i j s).hif.sessions.getD i.val none).map (·.accessBlocks) = some x.accessBlocks :=
  (map_of_unnotified (queueJob_unnotified j (defer 3 i s)) Session.accessBlocks (fun _ => rfl) i.val).trans
    (congrArg (Option.map Session.accessBlocks) (session_modSes hx _))

theorem commitAccess_refused {i : Fin 8} {bs : List Byte} {keyOk chainOk : Bool} {e : Nat} {s : State}
    (h : accessCheck bs keyOk chainOk s = .error e) : commitAccess i bs keyOk chainOk s = reply i 8 e [0, 0, 0] s := by
  unfold commitAccess
  rw [h]

theorem commitAccess_stores {i : Fin 8} {bs : List Byte} {keyOk chainOk : Bool} {a : AccessSet} {s : State}
    (h : accessCheck bs keyOk chainOk s = .ok a) : commitAccess i bs keyOk chainOk s = accessQueued i (storeOf a bs) s := by
  unfold commitAccess
  rw [h]
  rfl

/-! #### Every session closes -/

theorem leaveHost_access (p : Nat) (l : List Out) (s : State) : (leaveHost p l s).hif.access = s.hif.access
    ∧ (leaveHost p l s).hif.accessReady = s.hif.accessReady ∧ (leaveHost p l s).hif.accessStoring = s.hif.accessStoring := by
  unfold leaveHost
  split <;> exact ⟨rfl, rfl, rfl⟩

theorem sessions_length_of_unnotified {g h : HifState} (heq : g.unnotified = h.unnotified) : g.sessions.length = h.sessions.length := by
  simpa [HifState.unnotified] using congrArg (fun x : HifState => x.sessions.length) heq

/-- What the closing of sessions leaves. -/
structure SessionsClosing (s t : State) : Prop where
  queue : t.pending = s.pending
  storing : t.bsl.storing = s.bsl.storing
  access : t.hif.access = s.hif.access
  ready : t.hif.accessReady = s.hif.accessReady
  stores : t.hif.accessStoring.length = s.hif.accessStoring.length
  indices : t.hif.sessions.length = s.hif.sessions.length
  free : ∀ j, s.hif.sessions.getD j none = none → t.hif.sessions.getD j none = none

theorem SessionsClosing.refl (s : State) : SessionsClosing s s := ⟨rfl, rfl, rfl, rfl, rfl, rfl, fun _ h => h⟩

theorem SessionsClosing.trans {s t u : State} (h : SessionsClosing s t) (h' : SessionsClosing t u) : SessionsClosing s u :=
  ⟨h'.queue.trans h.queue, h'.storing.trans h.storing, h'.access.trans h.access, h'.ready.trans h.ready, h'.stores.trans h.stores,
    h'.indices.trans h.indices, fun j hj => h'.free j (h.free j hj)⟩

theorem getD_putAt_none_of (l : List (Option Session)) (i j : Nat) (h : l.getD j none = none) : (putAt l i none).getD j none = none := by
  by_cases hij : i = j
  · subst hij; exact getD_putAt_none ..
  · exact (getD_putAt_other hij ..).trans h

theorem closeSession_closing (i cause : Nat) (s : State) : SessionsClosing s (closeSession i cause s)
    ∧ (closeSession i cause s).hif.sessions.getD i none = none := by
  cases hx : s.hif.sessions.getD i none with
  | none =>
    have heq : closeSession i cause s = s := by unfold closeSession; rw [hx]
    rw [heq]
    exact ⟨.refl s, hx⟩
  | some x =>
    obtain ⟨hpend, hnone, hstoring, _⟩ := closeSession_shows (cause := cause) hx
    have hun := closingNoted_unnotified i cause x.port x.role s
    obtain ⟨haccess, hready, hstores⟩ := leaveHost_access x.port (x.ready.map (·.out i) ++ [.shpClosed i]) (closingNoted i cause x.port x.role s)
    obtain ⟨_, _, hsessions⟩ := leaveHost_keeps x.port (x.ready.map (·.out i) ++ [.shpClosed i]) (closingNoted i cause x.port x.role s)
    rw [← closeSession_eq hx] at haccess hready hstores hsessions
    refine ⟨⟨hpend, hstoring, haccess.trans ?_, hready.trans ?_, (congrArg List.length hstores).trans ?_,
      (congrArg List.length hsessions).trans ?_, fun j hj => ?_⟩, hnone⟩
    · show (closingNoted i cause x.port x.role s).hif.unnotified.access = (sessionFreed i s).hif.unnotified.access
      rw [hun]
    · show (closingNoted i cause x.port x.role s).hif.unnotified.accessReady = (sessionFreed i s).hif.unnotified.accessReady
      rw [hun]
    · refine Eq.trans (b := (sessionFreed i s).hif.unnotified.accessStoring.length) ?_ (List.length_map _)
      show (closingNoted i cause x.port x.role s).hif.unnotified.accessStoring.length = _
      rw [hun]
    · exact (sessions_length_of_unnotified hun).trans List.length_set
    · rw [hsessions]
      exact noSession_of_unnotified hun (getD_putAt_none_of _ i j hj)

/-- The sessions below `n` close. -/
def closeBelow (n : Nat) (s : State) : State := (List.range n).foldl (fun s i => closeSession i 2 s) s

theorem closeBelow_closing (n : Nat) (s : State) : SessionsClosing s (closeBelow n s)
    ∧ ∀ j < n, (closeBelow n s).hif.sessions.getD j none = none := by
  induction n with
  | zero => exact ⟨.refl s, fun j hj => absurd hj (Nat.not_lt_zero j)⟩
  | succ n ih =>
    obtain ⟨hclosing, hfree⟩ := ih
    have heq : closeBelow (n + 1) s = closeSession n 2 (closeBelow n s) := by
      unfold closeBelow
      rw [List.range_succ, List.foldl_append]
      rfl
    obtain ⟨hlast, hnone⟩ := closeSession_closing n 2 (closeBelow n s)
    rw [heq]
    refine ⟨hclosing.trans hlast, fun j hj => ?_⟩
    rcases Nat.lt_succ_iff_lt_or_eq.mp hj with hlt | rfl
    · exact hlast.free j (hfree j hlt)
    · exact hnone

theorem closeBelow_all {n : Nat} {s : State} (hlen : s.hif.sessions.length = n) : (closeBelow n s).hif.sessions = List.replicate n none := by
  obtain ⟨hclosing, hfree⟩ := closeBelow_closing n s
  refine List.eq_replicate_iff.mpr ⟨hclosing.indices.trans hlen, fun x hx => ?_⟩
  obtain ⟨j, hj, rfl⟩ := List.getElem_of_mem hx
  have hnone := hfree j (by rwa [hclosing.indices, hlen] at hj)
  rwa [getD_of_lt hj] at hnone

/-! #### The stored set comes into force -/

/-- The set at hand is taken from those that are stored. -/
def accessTaken (a : AccessSet) (rest : List AccessSet) (s : State) : State :=
  { s with hif := { s.hif with access := some a, accessReady := rest, accessStoring := s.hif.accessStoring.drop 1 } }

/-- The event and the record of a set that comes into force. -/
def accessNoted (a : AccessSet) (s : State) : State := ledger 0x1304 0xFFFF [a.serial] (raise .hif 3 s)

/-- A set comes into force, its committer `who` answered. -/
def accessComes (a : AccessSet) (rest : List AccessSet) (who : Option Nat) (s : State) : State :=
  answerTo 3 who 0 0 [0, 0, 0] (accessNoted a (accessTaken a rest s))

theorem exec_accessSetStored_comes {w : When} {a : AccessSet} {rest : List AccessSet} {s : State} (h : s.hif.accessReady = a :: rest) :
    exec (.accessSetStored w) s = .next (closeBelow 8 (accessComes a rest (s.hif.accessStoring.headD none) (s.at w))) := by
  have h' : (s.at w).hif.accessReady = a :: rest := h
  show execAccessSetStored w s = _
  unfold execAccessSetStored
  dsimp only
  rw [h']
  rfl

theorem exec_accessSetStored_idle {w : When} {s : State} (h : s.hif.accessReady = []) : exec (.accessSetStored w) s = .next (s.at w) := by
  have h' : (s.at w).hif.accessReady = [] := h
  show execAccessSetStored w s = _
  unfold execAccessSetStored
  dsimp only
  rw [h']

theorem accessNoted_unnotified (a : AccessSet) (s : State) : (accessNoted a s).hif.unnotified = s.hif.unnotified :=
  (ledger_unnotified ..).trans (raise_unnotified ..)

theorem accessNoted_only (a : AccessSet) (s : State) : Only [.events, .ledger, .keeper, .sessions, .host] s (accessNoted a s) :=
  (ledger_moves _ _ _ (Covers.rfl.trans rfl) (raise_moves _ _ (Covers.rfl.trans rfl) (.refl _ _))).only

theorem answerTo_only (kind : Nat) (i : Option Nat) (status detail : Nat) (payload : List Nat) (s : State) :
    Only [.sessions, .sent] s (answerTo kind i status detail payload s) := (answerTo_moves kind i status detail payload Covers.rfl (.refl _ _)).only

theorem flushReplies_indices (i : Fin 8) (s : State) : (flushReplies i s).hif.sessions.length = s.hif.sessions.length := by
  unfold flushReplies
  split
  · exact List.length_modify ..
  · rfl

theorem answerTo_indices (kind : Nat) (i : Option Nat) (status detail : Nat) (payload : List Nat) (s : State) :
    (answerTo kind i status detail payload s).hif.sessions.length = s.hif.sessions.length := by
  unfold answerTo answerLate sendReplies
  split
  · split
    · split
      · split
        · exact List.length_modify ..
        · exact (flushReplies_indices ..).trans (List.length_modify ..)
      · exact List.length_modify ..
    · rfl
  · rfl

theorem accessComes_shows (a : AccessSet) (rest : List AccessSet) (who : Option Nat) (s : State) :
    (accessComes a rest who s).pending = s.pending ∧ (accessComes a rest who s).hif.access = some a
    ∧ (accessComes a rest who s).hif.accessReady = rest ∧ (accessComes a rest who s).hif.accessStoring = s.hif.accessStoring.drop 1
    ∧ (accessComes a rest who s).hif.sessions.length = s.hif.sessions.length ∧ (accessComes a rest who s).bsl = s.bsl := by
  have hnote := accessNoted_only a (accessTaken a rest s)
  have hanswer := answerTo_only 3 who 0 0 [0, 0, 0] (accessNoted a (accessTaken a rest s))
  obtain ⟨haccess, hstoring, hready⟩ := hanswer.2 .access (by decide)
  obtain ⟨haccess', hstoring', hready'⟩ := hnote.2 .access (by decide)
  exact ⟨hanswer.1.trans hnote.1, haccess.trans haccess', hready.trans hready', hstoring.trans hstoring',
    (answerTo_indices ..).trans ((sessions_length_of_unnotified (accessNoted_unnotified a (accessTaken a rest s))).trans rfl),
    Eq.trans (hanswer.2 .loader (by decide)) (hnote.2 .loader (by decide))⟩

/-! #### O54 -/

/-- Settles O54: the message, timeout or read-back at hand by its branch; refusals and the load given up by what they leave of the
update unit, sets by what their store and the closing of the sessions leave. -/
theorem firmwareAndAccessSets : Obligations.FirmwareAndAccessSets := by
  unfold Obligations.FirmwareAndAccessSets
  refine ⟨?misplaced, ?held, ?flash, ?first, ?noLoad, ?complete, ?incomplete, ?readFails, ?readEnds, ?readIdle, ?revert, ?revertLoad, ?abort,
    ?ctrl, ?ctrlIdle, ?timeout, ?timeoutIdle, ?block, ?beyond, ?commit, ?refused, ?accessAbort, ?accessRevert, ?stored, ?storedIdle, ?ctrlBy⟩
  case misplaced =>
    intro w i offset b s h hload hidle hlen hbad
    refine ⟨_, (exec_firmwareLoadBlock_first h hload hlen).trans (congrArg Host.Outcome.next (updFirst_misplaced hidle hbad)),
      .after (updRefuseAll_only ..) (received_at_only i 4 w s).mono, ?_⟩
    have hupd := updRefuseAll_idle (s := received i 4 (s.at w)) hload i 0x0B offset
    rw [hupd]
    exact ⟨hload, rfl, rfl, rfl, rfl⟩
  case held =>
    intro w i l offset data s h hload hown hlen haligned hin hsize hnew
    refine ⟨_, (exec_firmwareLoadBlock_next h hload hown hlen).trans
      (congrArg Host.Outcome.next (updNext_holds ⟨haligned, hin, hsize⟩ hnew rfl)),
      .after (replyUpd_only (by decide) ..) (.after (setUpd_only _ _) (.after (setUpd_only _ _) (received_at_only i 4 w s).mono)), ?_⟩
    rw [replyUpd_upd]
    exact ⟨rfl, rfl, rfl⟩
  case flash =>
    intro w i l offset data s h hload hown hlen haligned hin hsize hnew
    refine ⟨_, (exec_firmwareLoadBlock_next h hload hown hlen).trans
      (congrArg Host.Outcome.next (updNext_flashFails ⟨haligned, hin, hsize⟩ hnew rfl)),
      .after (updRefuseAll_only ..) (.after (setUpd_only _ _) (received_at_only i 4 w s).mono), ?_⟩
    rw [updRefuseAll_upd rfl]
    exact ⟨rfl, rfl, rfl, rfl⟩
  case first =>
    intro w i data s h hload hidle hlen
    have hexec := exec_firmwareLoadBlock_first (w := w) (offset := 0) (b := { bytes := data, flashOk := true }) h hload
      ⟨by rw [hlen]; omega, Nat.le_of_eq hlen⟩
    have hcheck := imageCheck_congr (s := s.at w) (t := received i 4 (s.at w)) rfl rfl false data
    cases himage : imageCheck false data (s.at w) with
    | none =>
      refine ⟨_, hexec.trans (congrArg Host.Outcome.next (updFirst_opens hidle hlen (hcheck.trans himage) rfl)), reply_pending .., ?_⟩
      rw [replyUpd_upd]
      exact ⟨rfl, fun _ => ⟨rfl, rfl⟩, fun _ hf => nomatch hf⟩
    | some f =>
      refine ⟨_, hexec.trans (congrArg Host.Outcome.next (updFirst_fails hidle hlen (hcheck.trans himage))), updRefuseAll_pending .., ?_⟩
      rw [updRefuseAll_idle (s := received i 4 (s.at w)) hload]
      refine ⟨rfl, fun hno => (nomatch hno), fun f' hf => ?_⟩
      cases hf
      exact ⟨hload, rfl, rfl, rfl⟩
  case noLoad =>
    intro w i s h hload
    refine ⟨_, exec_firmwareCommit_idle h hload, .after (refusedReply_only ..) (received_at_only i 5 w s).mono, ?_⟩
    rw [refusedReply_upd]
    exact ⟨rfl, rfl, rfl, hload⟩
  case complete =>
    exact fun w i l s h hload hown hall => ⟨_, exec_firmwareCommit_complete h hload hown hall,
      .after (defer_only ..) (.after (setUpd_only _ _) (.after (setUpd_only _ _) (received_at_only i 5 w s).mono)), rfl, rfl, rfl, rfl, rfl⟩
  case incomplete =>
    intro w i l s h hload hown hall
    refine ⟨_, exec_firmwareCommit_incomplete h hload hown hall, .after (updRefuseAll_only ..) (received_at_only i 5 w s).mono, ?_⟩
    rw [updRefuseAll_upd (show (received i 5 (s.at w)).upd.load.isSome = true from (congrArg Option.isSome hload).trans rfl)]
    exact ⟨rfl, rfl, rfl, rfl⟩
  case readFails =>
    intro w s hstoring
    refine ⟨_, exec_readback_fails hstoring, .after (readbackRefused_only ..) (at_only w s (Covers.rfl.trans rfl)), ?_⟩
    rw [readbackRefused_upd]
    exact ⟨rfl, rfl, rfl, rfl⟩
  case readEnds =>
    intro w s hstoring
    by_cases hmatch : imageDigest (s.upd.slots.getD s.spareSlot {}).image = slice (s.upd.slots.getD s.spareSlot {}).image 0x100 48
    · refine ⟨_, exec_readback_matches hstoring hmatch, .after (readbackStaged_only ..) (at_only w s (Covers.rfl.trans rfl)), ?_⟩
      rw [readbackStaged_upd]
      exact ⟨rfl, rfl, fun _ => rfl⟩
    · refine ⟨_, exec_readback_differs hstoring hmatch, .after (readbackRefused_only ..) (at_only w s (Covers.rfl.trans rfl)), ?_⟩
      rw [readbackRefused_upd]
      exact ⟨rfl, rfl, fun hno => absurd hno hmatch⟩
  case readIdle => exact fun w ok s hidle => ⟨_, exec_readback_idle hidle, at_only w s Covers.rfl⟩
  case revert =>
    intro w i s h hload
    obtain ⟨honly, hout⟩ := reply_served (w := w) (ty := 5) (detail := 0) (payload := [0, 0, 0]) h (show 9 ≠ 3 by decide)
    exact ⟨_, exec_firmwareRevert_idle h hload, honly, hout⟩
  case revertLoad =>
    intro w i l s h hload hown
    obtain ⟨x, _, hsession, hreplies, hfirst⟩ := received_asked (s := s.at w) h 5
    have hasked : Asked i (x.received 5 w.tag (max s.aon w.a)) (updTouch i l (received i 5 (s.at w))) := ⟨hsession, hreplies, hfirst⟩
    refine ⟨_, exec_firmwareRevert_keeps h hload hown,
      .after (reply_only (by decide) ..) (.after (setUpd_only _ _) (received_at_only i 5 w s).mono),
      (hasked.reply (by decide) 0 [0, 0, 0]).2, ?_⟩
    rw [reply_upd]
    exact ⟨rfl, rfl⟩
  case abort =>
    intro w i l s h hload hown
    refine ⟨_, exec_firmwareAbort_drops h hload hown,
      .after (replyUpd_only (by decide) ..) (.after (updDrop_only _) (received_at_only i 5 w s).mono), ?_⟩
    rw [replyUpd_upd, updDrop_upd (show (received i 5 (s.at w)).upd.load.isSome = true from (congrArg Option.isSome hload).trans rfl)]
    exact ⟨rfl, rfl, rfl⟩
  case ctrl =>
    intro w s hload hgrant
    refine ⟨_, answers_granted (w := w) rfl hgrant (updAbortAct_allowed rfl), .after (updDrop_only _) (at_only w s (Covers.rfl.trans rfl)), ?_⟩
    rw [updDrop_upd (s := s.at w) hload]
    exact ⟨rfl, rfl, rfl⟩
  case ctrlIdle =>
    exact fun w who s hno hgrant => ⟨_, answers_granted (w := w) rfl hgrant (updAbortAct_ignored hno), at_only w s Covers.rfl⟩
  case timeout =>
    intro w l s hload hdue
    refine ⟨_, exec_firmwareLoadTimeout_drops hload hdue,
      .after (updRefuse_only ..) (.after (updDrop_only _) (at_only w s (Covers.rfl.trans rfl))), ?_⟩
    rw [updRefuse_upd, updDrop_upd (show (s.at w).upd.load.isSome = true from (congrArg Option.isSome hload).trans rfl)]
    exact ⟨rfl, rfl, rfl⟩
  case timeoutIdle => exact fun w s hload => ⟨_, exec_firmwareLoadTimeout_idle hload, at_only w s Covers.rfl⟩
  case block =>
    intro w i x offset data s hx h hlen hfits
    obtain ⟨x', hx', hasked⟩ := received_asked (s := s.at w) h 4
    cases hx.symm.trans hx'
    refine ⟨_, exec_accessSetLoadBlock_holds h hlen hfits,
      .after (reply_only (by decide) ..) (.after (modSes_only ..) (received_at_only i 4 w s).mono),
      ((hasked.modSes (f := fun y => { y with accessBlocks := y.accessBlocks ++ [(offset, data)] }) rfl rfl).reply (by decide) 0 [0, 0, 0]).1, ?_⟩
    exact ((reply_only (by decide) i 0 [0, 0, 0] (blockHeld i offset data (received i 4 (s.at w)))).2 .access (by decide)).1
  case beyond =>
    intro w i x offset data s hx h hlen hbeyond
    obtain ⟨x', hx', hasked⟩ := received_asked (s := s.at w) h 4
    cases hx.symm.trans hx'
    obtain ⟨honly, hout⟩ := reply_served (w := w) (ty := 4) (detail := 0) (payload := [0, 0, 0]) h (show 9 ≠ 3 by decide)
    exact ⟨_, exec_accessSetLoadBlock_beyond h hlen hbeyond, honly, (hasked.reply (by decide) 0 [0, 0, 0]).1, hout⟩
  case commit =>
    intro w i keyOk chainOk s h _
    obtain ⟨x, _, hasked⟩ := received_asked (s := s.at w) h 5
    have hdropped : Asked i { x.received 5 w.tag (max s.aon w.a) with accessBlocks := [] } (blocksDropped i (received i 5 (s.at w))) :=
      hasked.modSes (f := fun y => { y with accessBlocks := [] }) rfl rfl
    have hbefore : Only [.time, .sessions] s (blocksDropped i (received i 5 (s.at w))) :=
      .after (modSes_only ..) (received_at_only i 5 w s)
    have hcheck := accessCheck_congr (s := s) (t := blocksDropped i (received i 5 (s.at w))) rfl rfl (s.accessBytes i) keyOk chainOk
    cases hset : accessCheck (s.accessBytes i) keyOk chainOk s with
    | error e =>
      have honly := reply_only (show 8 ≠ 3 by decide) i e [0, 0, 0] (blocksDropped i (received i 5 (s.at w)))
      exact ⟨_, (exec_accessSetCommit_commits h).trans (congrArg Host.Outcome.next (commitAccess_refused (hcheck.trans hset))),
        .after honly hbefore.mono, (hdropped.reply (by decide) e [0, 0, 0]).1, (honly.2 .access (by decide)).1,
        honly.2 .cartridge (by decide), fun a ha => nomatch ha⟩
    | ok a =>
      have honly := accessQueued_only i (storeOf a (s.accessBytes i)) (blocksDropped i (received i 5 (s.at w)))
      obtain ⟨haccess, hstoring⟩ := accessQueued_access i (storeOf a (s.accessBytes i)) (blocksDropped i (received i 5 (s.at w)))
      refine ⟨_, (exec_accessSetCommit_commits h).trans (congrArg Host.Outcome.next (commitAccess_stores (hcheck.trans hset))),
        .after honly hbefore.mono, accessQueued_blocks _ hdropped.session, haccess, honly.2 .cartridge (by decide), fun a' ha => ?_⟩
      cases ha
      exact ⟨hstoring, accessQueued_jobs ..⟩
  case refused =>
    intro w i keyOk chainOk e s h hset
    obtain ⟨x, _, hasked⟩ := received_asked (s := s.at w) h 5
    have hcheck := accessCheck_congr (s := s) (t := blocksDropped i (received i 5 (s.at w))) rfl rfl (s.accessBytes i) keyOk chainOk
    have honly := reply_only (show 8 ≠ 3 by decide) i e [0, 0, 0] (blocksDropped i (received i 5 (s.at w)))
    exact ⟨_, (exec_accessSetCommit_commits h).trans (congrArg Host.Outcome.next (commitAccess_refused (hcheck.trans hset))),
      .after honly (.after (modSes_only ..) (received_at_only i 5 w s).mono), (honly.2 .access (by decide)).1,
      ((hasked.modSes (f := fun y => { y with accessBlocks := [] }) rfl rfl).reply (by decide) e [0, 0, 0]).2⟩
  case accessAbort =>
    intro w i chainOk s h
    obtain ⟨x, _, hasked⟩ := received_asked (s := s.at w) h 5
    have hreply := (hasked.modSes (f := fun y => { y with accessBlocks := [] }) rfl rfl).reply (show 0 ≠ 3 by decide) 0 [0, 0, 0]
    exact ⟨_, exec_accessSetCommit_aborts h,
      .after (reply_only (by decide) ..) (.after (modSes_only ..) (received_at_only i 5 w s).mono), hreply.1, hreply.2⟩
  case accessRevert =>
    intro w i chainOk x s hx h
    obtain ⟨x', hx', hasked⟩ := received_asked (s := s.at w) h 5
    cases hx.symm.trans hx'
    obtain ⟨honly, hout⟩ := reply_served (w := w) (ty := 5) (detail := 0) (payload := [0, 0, 0]) h (show 9 ≠ 3 by decide)
    exact ⟨_, exec_accessSetCommit_reverts h, honly, (hasked.reply (by decide) 0 [0, 0, 0]).1, hout⟩
  case stored =>
    intro w a rest s hready hlen
    obtain ⟨hpend, haccess, hrest, hstoring, hindices, hbsl⟩ := accessComes_shows a rest (s.hif.accessStoring.headD none) (s.at w)
    have hclosing := (closeBelow_closing 8 (accessComes a rest (s.hif.accessStoring.headD none) (s.at w))).1
    exact ⟨_, exec_accessSetStored_comes hready, hclosing.queue.trans hpend, hclosing.access.trans haccess, hclosing.ready.trans hrest,
      hclosing.stores.trans ((congrArg List.length hstoring).trans List.length_drop), closeBelow_all (hindices.trans hlen),
      hclosing.storing.trans (congrArg BslState.storing hbsl)⟩
  case storedIdle => exact fun w s hready => ⟨_, exec_accessSetStored_idle hready, at_only w s Covers.rfl⟩
  case ctrlBy =>
    intro w who s hload hwho hgrant
    refine ⟨_, answers_granted (w := w) rfl hgrant (updAbortAct_allowed hwho), .after (updDrop_only _) (at_only w s (Covers.rfl.trans rfl)), ?_⟩
    rw [updDrop_upd (s := s.at w) hload]
    exact ⟨rfl, rfl, rfl⟩

end Sys2Proof.Machine


/-! ### The course of the tasks (O31)

What a task's cycle turns on (`TaskState.course`) stays while memory is read and written, copies are made and banks flip: only the
commands of the cycle itself change it. -/

namespace Sys2Proof.Machine

set_option Elab.async false

open Sys2Proof

/-- A task without its digest, its shadow banks, the lines it marks for copies, and the inputs it moves and forces. -/
def TaskState.course (x : TaskState) : TaskState :=
  { x with digest := 0, banks := [], cur := 0, retAll := 0, dirtyLink := [], moved := none, left := [], leaving := [], forced := [] }

/-- The courses of the tasks, and the forces. -/
def SeqState.course (q : SeqState) : List TaskState × List Force := (q.tasks.map TaskState.course, q.forces)

/-! #### What equal courses say -/

section
variable {s t : State} (h : t.seq.course = s.seq.course)
include h

theorem tasks_length_of_course : t.seq.tasks.length = s.seq.tasks.length := by
  simpa [SeqState.course] using congrArg (fun c => c.1.length) h

theorem forces_of_course : t.seq.forces = s.seq.forces := congrArg Prod.snd h

theorem task_of_course (n : Nat) : (t.task n).course = (s.task n).course := by
  have hmap : t.seq.tasks.map TaskState.course = s.seq.tasks.map TaskState.course := congrArg Prod.fst h
  have hget : ∀ l : List TaskState, (l.getD n {}).course = (l.map TaskState.course).getD n (TaskState.course {}) := by
    intro l
    rw [List.getD_eq_getElem?_getD, List.getD_eq_getElem?_getD, List.getElem?_map]
    cases l[n]? <;> rfl
  exact (hget _).trans ((congrArg (fun l => l.getD n (TaskState.course {})) hmap).trans (hget _).symm)

theorem task_field_of_course {α : Type} (f : TaskState → α) (hf : ∀ x : TaskState, f x.course = f x) (n : Nat) :
    f (t.task n) = f (s.task n) := by
  rw [← hf, task_of_course h, hf]

end

/-! #### Operations that leave the courses -/

theorem Moves.course_eq {P : List Part} {s t : State} (h : Moves P s t) (htasks : P.contains .tasks = false)
    (hforces : P.contains .forces = false) : t.seq.course = s.seq.course :=
  Prod.ext (congrArg (List.map TaskState.course) (h.keeps .tasks htasks)) (h.keeps .forces hforces).1

theorem map_updAt {α β : Type} {g : α → β} {f : α → α} (hf : ∀ x, g (f x) = g x) (l : List α) (i : Nat) : (updAt l i f).map g = l.map g := by
  refine List.ext_getElem? fun j => ?_
  simp only [updAt, List.getElem?_map, List.getElem?_modify]
  split <;> cases l[j]? <;> simp [hf]

theorem modTask_course {f : TaskState → TaskState} (hf : ∀ x, (f x).course = x.course) (n : Nat) (s : State) :
    (modTask n f s).seq.course = s.seq.course := congrArg (·, s.seq.forces) (map_updAt hf ..)

theorem ite_course {a b : State} {d : List TaskState × List Force} {c : Prop} [Decidable c] (ha : a.seq.course = d) (hb : b.seq.course = d) :
    (if c then a else b).seq.course = d := by
  split <;> assumption

theorem foldl_course {α : Type} {f : State → α → State} (hf : ∀ s x, (f s x).seq.course = s.seq.course) (l : List α) (s : State) :
    (l.foldl f s).seq.course = s.seq.course :=
  foldl_same (·.seq.course) hf l s

theorem newDigest_course (n : Nat) (v : Option Nat) (s : State) : (newDigest n v s).seq.course = s.seq.course := by
  cases v with
  | some d => exact modTask_course (by exact fun _ => rfl) n s
  | none => exact (modTask_course (by exact fun _ => rfl) n (draw s).2).trans rfl

theorem readCrc_course (a : Nat) (s : State) : (readCrc a s).2.seq.course = s.seq.course :=
  (readCrc_moves a Covers.rfl (.refl _ s)).course_eq rfl rfl

theorem storeMem_course (a n : Nat) (m : Memory) (s : State) : (s.storeMem a n m).seq.course = s.seq.course := by
  refine Eq.trans rfl (foldl_course (fun u k => ?_) _ s)
  dsimp only
  split
  · exact (newDigest_course ..).trans (readCrc_course ..)
  · rfl

theorem unitMay_course (ident a n : Nat) (write : Bool) (s : State) : (unitMay ident a n write s).2.seq.course = s.seq.course :=
  (unitMay_moves ident a n write Covers.rfl (.refl _ s)).course_eq rfl rfl

theorem mergeRead_course (a : Nat) (faults : List (Nat × MemFault)) (l : List (Nat × Nat)) (s : State) :
    (mergeRead a faults l s).2.seq.course = s.seq.course := (mergeRead_moves a faults l Covers.rfl (.refl _ s)).course_eq rfl rfl

theorem writePiece_course (ident a : Nat) (bs : List Byte) (s : State) : (writePiece ident a bs s).seq.course = s.seq.course := by
  have hmay := unitMay_course ident a bs.length true s
  unfold writePiece
  split
  next u heq => rwa [heq] at hmay
  next u heq =>
    rw [heq] at hmay
    have hmerge := (mergeRead_course a [] (u.mem.mem.mergeReads a bs.length) u).trans hmay
    split
    next v hv => rwa [hv] at hmerge
    next v hv =>
      rw [hv] at hmerge
      split
      · exact (storeMem_course ..).trans hmerge
      next line _ => exact ((uncorrectable_moves line Covers.rfl (.refl _ v)).course_eq rfl rfl).trans hmerge

theorem unitWrite_course (ident a : Nat) (bs : List Byte) (s : State) : (unitWrite ident a bs s).seq.course = s.seq.course :=
  foldl_course (fun _ _ => writePiece_course ..) _ s

theorem priorRecs_course (t : Nat) (pts : List PointCfg) (base : Nat) (s : State) : (priorRecs t pts base s).2.seq.course = s.seq.course :=
  (priorRecs_moves t pts base Covers.rfl (.refl _ s)).course_eq rfl rfl

theorem readRec_course (a : Nat) (s : State) : (readRec a s).2.seq.course = s.seq.course :=
  (readRec_moves a Covers.rfl (.refl _ s)).course_eq rfl rfl

theorem putAside_course (t : Nat) (s : State) : (putAside t s).seq.course = s.seq.course :=
  (modTask_course (by exact fun _ => rfl) t _).trans
    (foldl_same (fun acc : List (Nat × ImgRec) × State => acc.2.seq.course) (fun _ _ => readRec_course ..) _ ([], s))

theorem freezeInputs_course (t : Nat) (s : State) : (freezeInputs t s).seq.course = s.seq.course :=
  (modTask_course (by exact fun _ => rfl) t _).trans ((foldl_course (fun _ _ => unitWrite_course ..) _ _).trans
    ((putAside_course ..).trans (priorRecs_course ..)))

theorem readLines_course (ident : Nat) (ls : List Nat) (s : State) : (readLines ident ls s).2.seq.course = s.seq.course :=
  (readLines_moves ident ls Covers.rfl (.refl _ s)).course_eq rfl rfl

theorem shadowMay_course (unit : Nat) (write : Bool) (s : State) : (shadowMay unit write s).2.seq.course = s.seq.course :=
  (shadowMay_moves unit write Covers.rfl (.refl _ s)).course_eq rfl rfl

theorem shadowCommit_course (t : Nat) (outs : List (Nat × Nat)) (cycle : Nat) (s : State) :
    (shadowCommit t outs cycle s).seq.course = s.seq.course :=
  have hread := (shadowMay_course (s.taskGen t).insts.shadowUnit true _).trans (readLines_course 4 _ s)
  ite_course ((modTask_course (by exact fun _ => rfl) t _).trans hread) hread

theorem captureOutputs_course (t : Nat) (s : State) : (captureOutputs t s).2.seq.course = s.seq.course :=
  (captureOutputs_moves t Covers.rfl (.refl _ s)).course_eq rfl rfl

theorem countDigest_course (t : Nat) (s : State) : (countDigest t s).seq.course = s.seq.course := by
  refine (newDigest_course ..).trans ?_
  generalize (s.taskGen t).taskLines t = l
  induction l generalizing s with
  | nil => rfl
  | cons a l ih => exact (ih _).trans (readCrc_course a s)

theorem modWvl_course (f : WvlState → WvlState) (s : State) : (modWvl f s).seq.course = s.seq.course := rfl

theorem underReseed_course (t : Nat) (s : State) : (underReseed t s).seq.course = s.seq.course :=
  (underReseed_moves t Covers.rfl (.refl _ s)).course_eq rfl rfl

theorem startReseed_course (t : Nat) (s : State) : (startReseed t s).seq.course = s.seq.course :=
  (modTask_course (by exact fun _ => rfl) t _).trans ((modWvl_course _ _).trans ((countDigest_course ..).trans (underReseed_course ..)))

theorem reseedIfDue_course (t : Nat) (s : State) : (reseedIfDue t s).seq.course = s.seq.course := ite_course (startReseed_course ..) rfl

theorem dropUnsentCopy_course (t : Nat) (s : State) : (dropUnsentCopy t s).seq.course = s.seq.course := by
  unfold dropUnsentCopy
  split
  · rfl
  · exact (reseedIfDue_course ..).trans (((copyDrop_moves t Covers.rfl (.refl _ _)).course_eq rfl rfl).trans (ite_course rfl rfl))

/-! #### A copy to the partner -/

theorem startReseed_duty (t : Nat) (s : State) : (startReseed t s).wvl.duty = s.wvl.duty :=
  (modTask_duty t _ _).trans ((modWvl_duty (by exact fun _ => rfl) _).trans
    (((countDigest_moves t Covers.rfl (.refl _ (underReseed t s))).duty_eq rfl).trans (underReseed_duty ..)))

theorem linkFrames_duty (msg n : Nat) (f : LinkTx → Out) (s : State) : (linkFrames msg n f s).wvl.duty = s.wvl.duty := rfl

theorem modCopy_duty (t : Nat) (f : CopyState → CopyState) (s : State) : (modCopy t f s).wvl.duty = s.wvl.duty := rfl

theorem chargeSlot_duty (i n : Nat) (s : State) : (chargeSlot i n s).wvl.duty = s.wvl.duty := rfl

theorem pumpOne_duty (s : State) : (pumpOne s).wvl.duty = s.wvl.duty := by
  unfold pumpOne
  dsimp only
  split
  · exact Eq.refl s.wvl.duty
  · refine ite_duty ?_ ((modCopy_duty ..).trans (chargeSlot_duty ..))
    split
    · exact (linkFrames_duty ..).trans ((modCopy_duty ..).trans (chargeSlot_duty ..))
    · exact chargeSlot_duty ..

theorem pumpCopies_duty (s : State) : (pumpCopies s).wvl.duty = s.wvl.duty := foldl_duty (fun _ _ => ite_duty rfl (pumpOne_duty ..)) _ s

theorem pumpCopies_course (s : State) : (pumpCopies s).seq.course = s.seq.course :=
  (pumpCopies_moves Covers.rfl (.refl _ s)).course_eq rfl rfl

/-- A copy of `b` bytes is counted. -/
def copyCounted (b : Nat) (s : State) : State := modWvl (fun w => { w with copyMax := max w.copyMax b, copySeq := w.copySeq + 1 }) s

/-- The copy takes its place on the link. -/
def copyQueued (t : Nat) (m : CopyMsg) (b : Nat) (s : State) : State :=
  modTask t (fun x => { x with dirtyLink := [] })
    (modCopy t (fun c => { c with pending := some m, left := b, order := s.wvl.copySeq, base := m.cycle, extra := [] }) s)

/-- The copy carries the force table. -/
def forcesCopied (s : State) : State := { s with seq := { s.seq with forcesSent := true } }

theorem copyQueued_course (t : Nat) (m : CopyMsg) (b : Nat) (s : State) : (copyQueued t m b s).seq.course = s.seq.course :=
  (modTask_course (by exact fun _ => rfl) t _).trans rfl

theorem copyQueued_duty (t : Nat) (m : CopyMsg) (b : Nat) (s : State) : (copyQueued t m b s).wvl.duty = s.wvl.duty :=
  (modTask_duty ..).trans (modCopy_duty ..)

theorem copyCounted_duty (b : Nat) (s : State) : (copyCounted b s).wvl.duty = s.wvl.duty := modWvl_duty (by exact fun _ => rfl) s

theorem forcesCopied_duty (s : State) : (forcesCopied s).wvl.duty = s.wvl.duty := rfl

theorem forcesCopied_course (s : State) : (forcesCopied s).seq.course = s.seq.course := rfl

theorem copySend_eq {t : Nat} (ht : t < 16) (s : State) : copySend t s =
    if s.primary && s.partnerInService && decide (s.pair.mode ≠ 0) then
      if 33554432 < copyBytes (copyMsg ⟨t, ht⟩ s).1 then startReseed t (copyMsg ⟨t, ht⟩ s).2
      else pumpCopies (forcesCopied (copyQueued t (copyMsg ⟨t, ht⟩ s).1 (copyBytes (copyMsg ⟨t, ht⟩ s).1)
        (copyCounted (copyBytes (copyMsg ⟨t, ht⟩ s).1) (copyMsg ⟨t, ht⟩ s).2)))
    else s := by
  unfold copySend
  rw [dif_pos ht]
  rfl

theorem copySend_alone {t : Nat} {s : State} (h : s.partnerInService = false) : copySend t s = s := by
  unfold copySend
  rw [h, Bool.and_false, Bool.false_and]
  split <;> rfl

theorem copySend_course {t : Nat} (ht : t < 16) (s : State) : (copySend t s).seq.course = s.seq.course := by
  have hmsg : (copyMsg ⟨t, ht⟩ s).2.seq.course = s.seq.course := (copyMsg_moves ⟨t, ht⟩ Covers.rfl (.refl _ s)).course_eq rfl rfl
  rw [copySend_eq ht]
  exact ite_course (ite_course ((startReseed_course ..).trans hmsg) ((pumpCopies_course _).trans ((forcesCopied_course _).trans ((copyQueued_course ..).trans hmsg)))) rfl

theorem copySend_duty {t : Nat} (ht : t < 16) (s : State) : (copySend t s).wvl.duty = s.wvl.duty := by
  have hmsg : (copyMsg ⟨t, ht⟩ s).2.wvl.duty = s.wvl.duty := (copyMsg_moves ⟨t, ht⟩ Covers.rfl (.refl _ s)).duty_eq rfl
  rw [copySend_eq ht]
  exact ite_duty (ite_duty ((startReseed_duty ..).trans hmsg) ((pumpCopies_duty _).trans ((forcesCopied_duty _).trans ((copyQueued_duty ..).trans ((copyCounted_duty ..).trans hmsg))))) rfl

/-! #### A commit -/

/-- The commit's last step: the cycle is counted and closed. -/
def cycleClosed (t : Nat) (outs : List (Nat × Nat)) (cyc : Nat) (s : State) : State :=
  modTask t (fun x => { x with
    prevBuf := x.buf, buf := captureBuf outs s.cfg.next.isSome x.buf, cycles := cyc, state := 0, frozen := false, committedAt := some (s.now, s.aon)
    dirtyPrev := x.dirty, dirty := []
    dirtyLink := x.dirtyLink ++ x.dirty.filter fun l => !(x.dirtyLink.contains l) }) s

theorem commitTask_eq (t : Nat) (s : State) : commitTask t s =
    cycleClosed t (captureOutputs t s).1 ((((captureOutputs t s).2.task t).cycles + 1) % 2 ^ 64)
      (shadowCommit t (captureOutputs t s).1 ((((captureOutputs t s).2.task t).cycles + 1) % 2 ^ 64) (captureOutputs t s).2) := rfl

end Sys2Proof.Machine


/-! ### The cycle of a task, settled (O31) -/

namespace Sys2Proof.Machine

set_option Elab.async false

open Sys2Proof

/-! #### Parts put together -/

theorem Only.phe_eq {P : List Part} {s t : State} (h : Only P s t) (hphasors : .phasors ∉ P) (hstreams : .streams ∉ P)
    (hmailbox : .mailbox ∉ P) : t.phe = s.phe := by
  have hrest : t.phe.rest = s.phe.rest := h.2 .phasors hphasors
  obtain ⟨hdefs, hqueue⟩ := h.2 .streams hstreams
  obtain ⟨hbanks, hnewest, hpend, hlocked, hbefore⟩ := h.2 .mailbox hmailbox
  calc t.phe = { t.phe.rest with streams := t.phe.streams, queue := t.phe.queue, banks := t.phe.banks, newest := t.phe.newest,
                                 pendMb := t.phe.pendMb, locked := t.phe.locked, before := t.phe.before } := rfl
    _ = s.phe := by rw [hrest, hdefs, hqueue, hbanks, hnewest, hpend, hlocked, hbefore]

theorem Only.fio_eq {P : List Part} {s t : State} (h : Only P s t) (hinputs : .inputs ∉ P) (houtputs : .outputs ∉ P)
    (hloops : .loops ∉ P) (hfield : .field ∉ P) : t.fio = s.fio := by
  have hrest : t.fio.rest = s.fio.rest := h.2 .field hfield
  have hdi : t.fio.di = s.fio.di := h.2 .inputs hinputs
  have hdout : t.fio.dout = s.fio.dout := h.2 .outputs houtputs
  obtain ⟨hao, hsel, hcomm⟩ := h.2 .loops hloops
  calc t.fio = { t.fio.rest with di := t.fio.di, dout := t.fio.dout, ao := t.fio.ao, aoSel := t.fio.aoSel, comm := t.fio.comm } := rfl
    _ = s.fio := by rw [hrest, hdi, hdout, hao, hsel, hcomm]

theorem Only.tmb_eq {P : List Part} {s t : State} (h : Only P s t) (htimebase : .timebase ∉ P) (hpulses : .pulses ∉ P)
    (hsnaps : .snaps ∉ P) (hdelays : .delays ∉ P) : t.tmb = s.tmb := by
  have hrest : t.tmb.rest = s.tmb.rest := h.2 .timebase htimebase
  obtain ⟨hgens, htpo⟩ := h.2 .pulses hpulses
  obtain ⟨hfw, hhost⟩ := h.2 .snaps hsnaps
  obtain ⟨hmean, ht1, hresp, htwo⟩ := h.2 .delays hdelays
  calc t.tmb = { t.tmb.rest with gens := t.tmb.gens, tpo := t.tmb.tpo, snapFw := t.tmb.snapFw, snapHost := t.tmb.snapHost,
                                 meanDelay := t.tmb.meanDelay, pdelayT1 := t.tmb.pdelayT1, pdelayResp := t.tmb.pdelayResp,
                                 twoStep := t.tmb.twoStep } := rfl
    _ = s.tmb := by rw [hrest, hgens, htpo, hfw, hhost, hmean, ht1, hresp, htwo]

theorem Only.islandTime_eq {P : List Part} {s t : State} (h : Only P s t) (htime : .time ∉ P) (hcount : .count ∉ P) (i : Nat) :
    t.islandTime i = s.islandTime i := by
  obtain ⟨hnow, haon, _⟩ := h.2 .time htime
  obtain ⟨_, hfollowers, _⟩ := h.2 .count hcount
  unfold State.islandTime
  rw [hnow, haon, hfollowers]

theorem setLocked_only (l : Option (Nat × Nat)) (s : State) : Only [.mailbox] s (modPhe (fun p => { p with locked := l }) s) := by
  refine ⟨rfl, fun p hp => ?_⟩
  cases p
  case mailbox => exact absurd List.mem_cons_self hp
  all_goals simp [Part.Same, modPhe]

theorem setSeq_only {q : SeqState} {s : State} (htasks : q.tasks = s.seq.tasks) (hforces : q.forces = s.seq.forces)
    (hsent : q.forcesSent = s.seq.forcesSent) : Only [.sequencer] s { s with seq := q } := by
  refine ⟨rfl, fun p hp => ?_⟩
  cases p
  case sequencer => exact absurd List.mem_cons_self hp
  all_goals simp [Part.Same, htasks, hforces, hsent]

theorem task_modTask {n : Nat} {s : State} (h : n < s.seq.tasks.length) (f : TaskState → TaskState) : (modTask n f s).task n = f (s.task n) :=
  getD_updAt_self h f {}

/-! #### The freeze -/

theorem evaluateStations_only (t : Nat) (receiving : List Nat) (s : State) :
    Only [.events, .stations, .ledger, .keeper, .sessions, .host] s (evaluateStations t receiving s) :=
  (evaluateStations_moves t receiving Covers.rfl (.refl _ s)).only

theorem freezeInputs_only (t : Nat) (s : State) :
    Only [.draws, .events, .tasks, .memory, .memctl, .wards, .faults, .ledger, .keeper, .sessions, .host] s (freezeInputs t s) :=
  (freezeInputs_moves t Covers.rfl (.refl _ s)).only

theorem evaluateStations_course (t : Nat) (receiving : List Nat) (s : State) : (evaluateStations t receiving s).seq.course = s.seq.course :=
  (evaluateStations_moves t receiving Covers.rfl (.refl _ s)).course_eq rfl rfl

theorem evaluateStations_snapBank (t : Nat) (receiving : List Nat) (s : State) : (evaluateStations t receiving s).snapBank = s.snapBank := by
  have honly := evaluateStations_only t receiving s
  obtain ⟨hnow, haon, _⟩ := honly.2 .time (by decide)
  unfold State.snapBank
  rw [honly.phe_eq (by decide) (by decide) (by decide), hnow, haon]

/-- The mailbox's bank is locked for a task. -/
def bankLocked (t b : Nat) (s : State) : State := modPhe (fun p => { p with locked := some (t, b) }) s

theorem bankLocked_course (t b : Nat) (s : State) : (bankLocked t b s).seq.course = s.seq.course := rfl

/-- The freeze up to its mark in the task. -/
def inputsTaken (t : Nat) (receiving : List Nat) (s : State) : State :=
  freezeInputs t (bankLocked t (evaluateStations t receiving s).snapBank (evaluateStations t receiving s))

theorem inputsTaken_only (t : Nat) (receiving : List Nat) (s : State) :
    Only [.draws, .events, .stations, .mailbox, .tasks, .memory, .memctl, .wards, .faults, .ledger, .keeper, .sessions, .host] s
      (inputsTaken t receiving s) :=
  .after (freezeInputs_only ..) (.after (setLocked_only ..) (evaluateStations_only ..).mono)

theorem inputsTaken_course (t : Nat) (receiving : List Nat) (s : State) : (inputsTaken t receiving s).seq.course = s.seq.course :=
  (freezeInputs_course ..).trans ((bankLocked_course ..).trans (evaluateStations_course ..))

theorem inputsTaken_locked (t : Nat) (receiving : List Nat) (s : State) : (inputsTaken t receiving s).phe.locked = some (t, s.snapBank) := by
  obtain ⟨_, _, _, hlocked, _⟩ :=
    (freezeInputs_only t (bankLocked t (evaluateStations t receiving s).snapBank (evaluateStations t receiving s))).2 .mailbox (by decide)
  exact hlocked.trans (congrArg (fun b => some (t, b)) (evaluateStations_snapBank ..))

/-- The freeze of a task set. -/
def inputsFrozen (t : Nat) (receiving : List Nat) (s : State) : State := modTask t (fun y => { y with frozen := true }) (inputsTaken t receiving s)

/-- What a freeze leaves. -/
theorem inputsFrozen_shows {t : Nat} (receiving : List Nat) {s : State} (hlen : t < s.seq.tasks.length) :
    (inputsFrozen t receiving s).pending = s.pending ∧ (inputsFrozen t receiving s).phe.locked = some (t, s.snapBank)
    ∧ ((inputsFrozen t receiving s).task t).frozen = true ∧ ((inputsFrozen t receiving s).task t).state = (s.task t).state
    ∧ ((inputsFrozen t receiving s).task t).cycles = (s.task t).cycles ∧ (inputsFrozen t receiving s).seq.forces = s.seq.forces
    ∧ (inputsFrozen t receiving s).wvl = s.wvl ∧ (inputsFrozen t receiving s).tmb = s.tmb := by
  have hmark := modTask_only t (fun y => { y with frozen := true }) (inputsTaken t receiving s)
  have honly := Only.after hmark (inputsTaken_only t receiving s)
  have hcourse := inputsTaken_course t receiving s
  obtain ⟨_, _, _, hlocked, _⟩ := hmark.2 .mailbox (by decide)
  refine ⟨honly.1, hlocked.trans (inputsTaken_locked ..), ?_⟩
  unfold inputsFrozen
  rw [task_modTask ((tasks_length_of_course hcourse).symm ▸ hlen)]
  exact ⟨rfl, task_field_of_course hcourse TaskState.state (fun _ => rfl) t, task_field_of_course hcourse TaskState.cycles (fun _ => rfl) t,
    (honly.2 .forces (by decide)).1, honly.2 .pair (by decide), honly.tmb_eq (by decide) (by decide) (by decide) (by decide)⟩

section
variable {w : When} {task : Fin 16} {recv : List Nat} {s : State}

theorem exec_taskFreeze_standby (hrole : s.primary = false) : exec (.taskFreeze w ⟨task, recv⟩) s = .next (s.at w) := by
  have hrole' : (s.at w).primary = false := hrole
  show execTaskFreeze w ⟨task, recv⟩ s = _
  unfold execTaskFreeze
  dsimp only
  split
  · rfl
  · rw [hrole']
    exact if_pos rfl

variable {c : TaskCfg} (hcfg : s.taskCfg task.val = some c) (hrole : s.primary = true)
include hcfg hrole

theorem exec_taskFreeze_freezes (hskip : (s.task task.val).skipAt = none) (hstate : (s.task task.val).state = 1)
    (hfrozen : (s.task task.val).frozen = false)
    (hdue : (s.task task.val).t0 + (nsTicks c.deadline + usTicks 2) ≤ (s.at w).islandTime marketIsland) :
    exec (.taskFreeze w ⟨task, recv⟩) s =
      .next (inputsFrozen task.val recv (s.at w)) := by
  have hcfg' : (s.at w).taskCfg task.val = some c := hcfg
  have hrole' : (s.at w).primary = true := hrole
  have hskip' : ((s.at w).task task.val).skipAt = none := hskip
  have hstate' : ((s.at w).task task.val).state = 1 := hstate
  have hfrozen' : ((s.at w).task task.val).frozen = false := hfrozen
  have hdue' : ((s.at w).task task.val).t0 + (nsTicks c.deadline + usTicks 2) ≤ (s.at w).islandTime marketIsland := hdue
  show execTaskFreeze w ⟨task, recv⟩ s = _
  unfold execTaskFreeze
  dsimp only
  rw [hcfg']
  dsimp only
  rw [hrole', if_neg (by decide), hskip']
  dsimp only
  rw [hfrozen', decide_eq_true ⟨hstate', hdue'⟩]
  rfl

theorem exec_taskFreeze_judges {n : Nat} (hskip : (s.task task.val).skipAt = some n)
    (hdue : n + (nsTicks c.deadline + usTicks 2) ≤ (s.at w).islandTime marketIsland) :
    exec (.taskFreeze w ⟨task, recv⟩) s =
      .next (modTask task.val (fun y => { y with skipAt := none }) (evaluateStations task.val recv (s.at w))) := by
  have hcfg' : (s.at w).taskCfg task.val = some c := hcfg
  have hrole' : (s.at w).primary = true := hrole
  have hskip' : ((s.at w).task task.val).skipAt = some n := hskip
  show execTaskFreeze w ⟨task, recv⟩ s = _
  unfold execTaskFreeze
  dsimp only
  rw [hcfg']
  dsimp only
  rw [hrole', if_neg (by decide), hskip']
  dsimp only
  rw [if_pos hdue]

end

/-! #### The start signal -/

/-- The bank that a task had locked is free. -/
def bankFreed (t : Nat) (s : State) : State := modPhe (fun p => { p with locked := p.locked.filter (·.1 != t) }) s

/-- What is settled at a task's start signal: the copy that has not left, the late replies, the bank. -/
def startSettled (t : Nat) (s : State) : State := bankFreed t (settleTask t (dropUnsentCopy t s))

/-- The task is ready. -/
def taskReady (t : Nat) (s : State) : State := modTask t (fun y => { y with state := 2, readyAt := s.islandTime marketIsland }) s

theorem dropUnsentCopy_only (t : Nat) (s : State) :
    Only [.draws, .events, .tasks, .forces, .pair, .memctl, .faults, .sessions, .host] s (dropUnsentCopy t s) :=
  (dropUnsentCopy_moves t Covers.rfl (.refl _ s)).only

theorem settleTask_only (t : Nat) (s : State) : Only [.ports, .stations] s (settleTask t s) := (settleTask_moves t Covers.rfl (.refl _ s)).only

theorem bankFreed_only (t : Nat) (s : State) : Only [.mailbox] s (bankFreed t s) := setLocked_only ..

theorem startSettled_only (t : Nat) (s : State) :
    Only [.draws, .events, .ports, .stations, .mailbox, .tasks, .forces, .pair, .memctl, .faults, .sessions, .host] s (startSettled t s) :=
  .after (bankFreed_only ..) (.after (settleTask_only ..) (dropUnsentCopy_only ..).mono)

theorem dropUnsentCopy_sent {t : Nat} {s : State} (h : (s.copyState t).pending = none) : dropUnsentCopy t s = s := by
  unfold dropUnsentCopy
  rw [h]

theorem startSettled_sent_only {t : Nat} {s : State} (h : (s.copyState t).pending = none) :
    Only [.ports, .stations, .mailbox] s (startSettled t s) := by
  unfold startSettled
  rw [dropUnsentCopy_sent h]
  exact .after (bankFreed_only ..) (settleTask_only ..).mono

theorem startSettled_course (t : Nat) (s : State) : (startSettled t s).seq.course = s.seq.course :=
  Eq.trans (b := (settleTask t (dropUnsentCopy t s)).seq.course) rfl
    (((settleTask_moves t Covers.rfl (.refl _ _)).course_eq rfl rfl).trans (dropUnsentCopy_course ..))

theorem reschedule_only (s : State) : Only [.sequencer] s (reschedule s) := (reschedule_moves Covers.rfl (.refl _ s)).only

theorem splitInterrupted_only (cause : Nat) (d : Digests) (s : State) :
    Only [.events, .triad, .budgets, .faults, .ledger, .keeper, .sessions, .host] s (splitInterrupted cause d s) :=
  (splitInterrupted_moves cause d Covers.rfl (.refl _ s)).only

theorem splitInterrupted_whole {cause : Nat} {d : Digests} {s : State} (h : s.trd.mode ≠ 3) : splitInterrupted cause d s = s := if_neg h

/-- The start signal of a frozen task, on the primary. -/
def signalled (t : Nat) (d : Digests) (s : State) : State := reschedule (splitInterrupted 2 d (taskReady t (startSettled t s)))

theorem exec_taskStartSignal_starts {w : When} {task : Fin 16} {d : Digests} {s : State} (hstate : (s.task task.val).state = 1)
    (hfrozen : (s.task task.val).frozen = true) (hrole : s.primary = true) :
    exec (.taskStartSignal w task d) s = .next (signalled task.val d (s.at w)) := by
  refine if_pos ?_
  show (decide ((s.task task.val).state = 1) && (s.task task.val).frozen && s.primary) = true
  rw [hfrozen, hrole, decide_eq_true hstate]
  rfl

/-- What the start signal leaves of its task. -/
theorem signalled_task {t : Nat} {s : State} (d : Digests) (hlen : t < s.seq.tasks.length) :
    ((signalled t d s).task t).state = 2 ∧ ((signalled t d s).task t).readyAt = s.islandTime marketIsland
    ∧ ((signalled t d s).task t).frozen = (s.task t).frozen ∧ (signalled t d s).seq.tasks.length = s.seq.tasks.length := by
  have hcourse := startSettled_course t s
  have hready := task_modTask ((tasks_length_of_course hcourse).symm ▸ hlen)
    (fun y => { y with state := 2, readyAt := (startSettled t s).islandTime marketIsland })
  have htasks : (signalled t d s).seq.tasks = (taskReady t (startSettled t s)).seq.tasks :=
    Eq.trans ((reschedule_only _).2 .tasks (by decide)) ((splitInterrupted_only 2 d _).2 .tasks (by decide))
  have htask : (signalled t d s).task t = (taskReady t (startSettled t s)).task t := congrArg (fun l => l.getD t {}) htasks
  rw [htask, htasks]
  refine ⟨congrArg TaskState.state hready, (congrArg TaskState.readyAt hready).trans ?_, (congrArg TaskState.frozen hready).trans ?_, ?_⟩
  · exact (startSettled_only t s).islandTime_eq (by decide) (by decide) marketIsland
  · exact task_field_of_course hcourse TaskState.frozen (fun _ => rfl) t
  · exact (updAt_length ..).trans (tasks_length_of_course hcourse)

theorem signalled_only (t : Nat) (d : Digests) (s : State) :
    Only [.draws, .events, .ports, .stations, .mailbox, .tasks, .forces, .sequencer, .triad, .budgets, .pair, .memctl, .faults, .ledger,
      .keeper, .sessions, .host] s (signalled t d s) :=
  .after (reschedule_only _) (.after (splitInterrupted_only ..) (.after (modTask_only ..) (startSettled_only t s).mono))

theorem signalled_quiet_only {t : Nat} {d : Digests} {s : State} (hsent : (s.copyState t).pending = none) (hwhole : s.trd.mode ≠ 3) :
    Only [.ports, .stations, .mailbox, .tasks, .sequencer] s (signalled t d s) := by
  have hready : Only [.ports, .stations, .mailbox, .tasks] s (taskReady t (startSettled t s)) :=
    .after (modTask_only ..) (startSettled_sent_only hsent).mono
  have hrest : (taskReady t (startSettled t s)).trd.rest = s.trd.rest := hready.2 .triad (by decide)
  have hmode : (taskReady t (startSettled t s)).trd.rest.mode = s.trd.rest.mode := by rw [hrest]
  unfold signalled
  rw [splitInterrupted_whole (hmode ▸ hwhole)]
  exact .after (reschedule_only _) hready.mono

/-! #### The commit -/

/-- A ready task commits; its longest run is noted. -/
def committing (t run : Nat) (s : State) : State := modTask t (fun y => { y with state := 3, runMax := max y.runMax run }) s

theorem committing_task {t : Nat} {s : State} (hlen : t < s.seq.tasks.length) (run : Nat) :
    (reschedule (committing t run s)).task t = { s.task t with state := 3, runMax := max (s.task t).runMax run } :=
  (congrArg (fun l => l.getD t {}) ((reschedule_only (committing t run s)).2 .tasks (by decide))).trans (task_modTask hlen _)

theorem rejoinStart_unfenced {s : State} (h : s.trd.mode ≠ 1) : rejoinStart s = s := if_neg fun hfenced => h hfenced.1

theorem seqCommitAct_commits {t : Nat} {s : State} (hstate : (s.task t).state = 2) (hwhole : s.trd.mode ≠ 1) (hruns : s.trd.mode ≠ 4)
    (hpower : s.ptm.powerFail = false) :
    seqCommitAct .firmware t s = reschedule (committing t ((s.islandTime marketIsland - (s.task t).readyAt) / ticksPerNs) s) := by
  unfold seqCommitAct
  rw [hpower, decide_eq_false hruns, if_neg (by decide), if_neg (not_not_intro hstate)]
  exact congrArg reschedule (rejoinStart_unfenced hwhole)

/-- A commit is refused. -/
def commitRefusal (s : State) : State := hwSet 0x60000 3 none { s with seq := { s.seq with commitRefused := true } }

theorem commitRefusal_only (s : State) : Only [.events, .sequencer] s (commitRefusal s) :=
  have hset : Only [.sequencer] s { s with seq := { s.seq with commitRefused := true } } := setSeq_only rfl rfl rfl
  .after (hwSet_moves 0x60000 3 none Covers.rfl (.refl _ _)).only hset.mono

theorem seqCommitAct_refuses {t : Nat} {s : State} (hstate : (s.task t).state ≠ 2) (hruns : s.trd.mode ≠ 4) (hpower : s.ptm.powerFail = false) :
    seqCommitAct .firmware t s = commitRefusal s := by
  unfold seqCommitAct
  rw [hpower, decide_eq_false hruns, if_neg (by decide), if_pos hstate]
  rfl

theorem seqCommitAct_ignored {who : Agent} {t : Nat} {s : State} (h : isFw who = false ∨ s.trd.mode = 4 ∨ s.ptm.powerFail = true) :
    seqCommitAct who t s = s := by
  refine if_pos ?_
  rcases h with hwho | hstopped | hpower
  · rw [hwho]; rfl
  · rw [decide_eq_true hstopped, Bool.or_true]
  · rw [hpower, Bool.or_true, Bool.true_or]

theorem retNowAct_allowed {who : Agent} {s : State} (h : isFw who = true ∨ hostAtLeast 2 who s = true) :
    retNowAct who s = { s with seq := { s.seq with retNow := true } } := if_pos (by simpa using h)

/-! #### The completed commit -/

theorem commitTask_only (t : Nat) (s : State) :
    Only [.draws, .events, .tasks, .memctl, .wards, .faults, .ledger, .keeper, .sessions, .host] s (commitTask t s) :=
  (commitTask_moves t Covers.rfl (.refl _ s)).only

theorem cycleClosed_task {t : Nat} {s : State} (hlen : t < s.seq.tasks.length) (outs : List (Nat × Nat)) (cyc : Nat) :
    ((cycleClosed t outs cyc s).task t).state = 0 ∧ ((cycleClosed t outs cyc s).task t).cycles = cyc
    ∧ ((cycleClosed t outs cyc s).task t).frozen = false ∧ ((cycleClosed t outs cyc s).task t).skips = (s.task t).skips := by
  unfold cycleClosed
  rw [task_modTask hlen]
  exact ⟨rfl, rfl, rfl, rfl⟩

/-- What a commit leaves of its task. -/
theorem commitTask_task {t : Nat} {s : State} (hlen : t < s.seq.tasks.length) : ((commitTask t s).task t).state = 0
    ∧ ((commitTask t s).task t).cycles = ((s.task t).cycles + 1) % 2 ^ 64 ∧ ((commitTask t s).task t).frozen = false
    ∧ ((commitTask t s).task t).skips = (s.task t).skips := by
  have hcaptured := captureOutputs_course t s
  have hcourse := (shadowCommit_course t (captureOutputs t s).1 ((((captureOutputs t s).2.task t).cycles + 1) % 2 ^ 64)
    (captureOutputs t s).2).trans hcaptured
  have hcycles := task_field_of_course hcaptured TaskState.cycles (fun _ => rfl) t
  have hskips := task_field_of_course hcourse TaskState.skips (fun _ => rfl) t
  rw [commitTask_eq]
  obtain ⟨hstate, hcyc, hfrozen, hkept⟩ := cycleClosed_task ((tasks_length_of_course hcourse).symm ▸ hlen) (captureOutputs t s).1
    ((((captureOutputs t s).2.task t).cycles + 1) % 2 ^ 64)
  exact ⟨hstate, hcyc.trans (congrArg (fun n => (n + 1) % 2 ^ 64) hcycles), hfrozen, hkept.trans hskips⟩

theorem exec_commitComplete_completes {w : When} {task : Fin 16} {s : State} (hstate : (s.task task.val).state = 3) (hruns : s.trd.mode ≠ 4)
    (hpower : s.ptm.powerFail = false) : exec (.commitComplete w task) s = .next (copySend task.val (commitTask task.val (s.at w))) := by
  refine if_pos ⟨hstate, hruns, ?_⟩
  show (!s.ptm.powerFail) = true
  rw [hpower]
  rfl

/-- What a completed commit leaves, whatever copy goes to the partner. -/
theorem completed_shows {t : Nat} (ht : t < 16) {s : State} (hlen : t < s.seq.tasks.length) :
    (copySend t (commitTask t s)).pending = s.pending ∧ ((copySend t (commitTask t s)).task t).state = 0
    ∧ ((copySend t (commitTask t s)).task t).cycles = ((s.task t).cycles + 1) % 2 ^ 64
    ∧ ((copySend t (commitTask t s)).task t).frozen = false ∧ ((copySend t (commitTask t s)).task t).skips = (s.task t).skips
    ∧ (copySend t (commitTask t s)).seq.forces = s.seq.forces ∧ (copySend t (commitTask t s)).wvl.role = s.wvl.role := by
  obtain ⟨hstate, hcycles, hfrozen, hskips⟩ := commitTask_task hlen
  have honly := commitTask_only t s
  have hsent := copySend_course ht (commitTask t s)
  have hforces : (commitTask t s).seq.forces = s.seq.forces := (honly.2 .forces (by decide)).1
  have hduty : (copySend t (commitTask t s)).wvl.duty = s.wvl.duty :=
    (copySend_duty ht _).trans (congrArg WvlState.duty (honly.2 .pair (by decide)))
  exact ⟨(copySend_moves t Covers.rfl (.refl _ (commitTask t s))).only.1.trans honly.1,
    (task_field_of_course hsent TaskState.state (fun _ => rfl) t).trans hstate,
    (task_field_of_course hsent TaskState.cycles (fun _ => rfl) t).trans hcycles,
    (task_field_of_course hsent TaskState.frozen (fun _ => rfl) t).trans hfrozen,
    (task_field_of_course hsent TaskState.skips (fun _ => rfl) t).trans hskips, (forces_of_course hsent).trans hforces,
    congrArg Duty.role hduty⟩

/-! #### O31 -/

/-- Settles O31: what the freeze, the signal and the commit set in their task stands while memory and copies are served
(`TaskState.course`). -/
theorem taskCycle : Obligations.TaskCycle := by
  unfold Obligations.TaskCycle
  refine ⟨?freeze, ?standby, ?quiet, ?commit, ?refused, ?halted, ?notFirmware, ?alone, ?retNow, ?complete, ?signal, ?retBy, ?skipped⟩
  case freeze =>
    intro w task recv c s hcfg hrole hlen hskip hstate hfrozen hdue
    obtain ⟨hpend, hlocked, hmark, hstays, hcycles, hforces, hpair, htmb⟩ := inputsFrozen_shows recv (s := s.at w) hlen
    exact ⟨_, exec_taskFreeze_freezes hcfg hrole hskip hstate hfrozen hdue, hpend, hlocked, hmark, hstays.trans hstate, hcycles, hforces,
      hpair, htmb⟩
  case standby => exact fun w task recv s hrole => ⟨_, exec_taskFreeze_standby hrole, at_only w s Covers.rfl⟩
  case quiet =>
    intro w task d s hlen hstate hfrozen hrole hsent hwhole
    obtain ⟨hready, hat, hkept, hcount⟩ := signalled_task (s := s.at w) d hlen
    exact ⟨_, exec_taskStartSignal_starts hstate hfrozen hrole,
      .after (signalled_quiet_only (s := s.at w) hsent hwhole) (at_only w s (Covers.rfl.trans rfl)), hready, hat, hkept.trans hfrozen, hcount⟩
  case commit =>
    intro w task s hlen hstate hwhole hruns hpower hgrant
    have htask := committing_task (s := s.at w) hlen (((s.at w).islandTime marketIsland - ((s.at w).task task.val).readyAt) / ticksPerNs)
    exact ⟨_, answers_granted (w := w) rfl hgrant (seqCommitAct_commits hstate hwhole hruns hpower),
      .after (reschedule_only _) (.after (modTask_only ..) (at_only w s (Covers.rfl.trans rfl))), (congrArg TaskState.state htask).trans rfl,
      (congrArg TaskState.runMax htask).trans rfl, (congrArg TaskState.cycles htask).trans rfl⟩
  case refused =>
    exact fun w task s hstate hruns hpower hgrant =>
      ⟨_, answers_granted (w := w) rfl hgrant (seqCommitAct_refuses hstate hruns hpower),
        .after (commitRefusal_only _) (at_only w s (Covers.rfl.trans rfl)), congrArg SeqState.commitRefused (hwSet_seq ..)⟩
  case halted =>
    exact fun w who task s hhalted hgrant => ⟨_, answers_granted (w := w) rfl hgrant (seqCommitAct_ignored (.inr hhalted)),
      at_only w s Covers.rfl⟩
  case notFirmware =>
    exact fun w who task s hwho hgrant => ⟨_, answers_granted (w := w) rfl hgrant (seqCommitAct_ignored (.inl hwho)), at_only w s Covers.rfl⟩
  case alone =>
    intro w task s hlen hstate hruns hpower hpartner
    have hshows := completed_shows task.isLt (s := s.at w) hlen
    have hpair : (commitTask task.val (s.at w)).wvl = s.wvl := (commitTask_only ..).2 .pair (by decide)
    have hno : (commitTask task.val (s.at w)).partnerInService = false := by
      unfold State.partnerInService
      rw [hpair]
      exact hpartner
    rw [copySend_alone hno] at hshows
    obtain ⟨hpend, hidle, hcycles, hfrozen, hskips, hforces, _⟩ := hshows
    exact ⟨_, (exec_commitComplete_completes hstate hruns hpower).trans (congrArg Host.Outcome.next (copySend_alone hno)), hpend, hidle,
      hcycles, hfrozen, hskips, hforces, hpair⟩
  case retNow =>
    exact fun w s hgrant => ⟨_, answers_granted (w := w) rfl hgrant (retNowAct_allowed (.inl rfl)),
      .after (setSeq_only rfl rfl rfl) (at_only w s (Covers.rfl.trans rfl)), rfl⟩
  case complete =>
    exact fun w task s hlen hstate hruns hpower =>
      ⟨_, exec_commitComplete_completes hstate hruns hpower, completed_shows task.isLt (s := s.at w) hlen⟩
  case signal =>
    intro w task d s hlen hstate hfrozen hrole
    obtain ⟨hready, hat, _⟩ := signalled_task (s := s.at w) d hlen
    have honly := signalled_only task.val d (s.at w)
    exact ⟨_, exec_taskStartSignal_starts hstate hfrozen hrole, honly.1, hready, hat,
      honly.fio_eq (by decide) (by decide) (by decide) (by decide), honly.2 .loader (by decide)⟩
  case retBy =>
    exact fun w who s hwho hgrant => ⟨_, answers_granted (w := w) rfl hgrant (retNowAct_allowed hwho),
      .after (setSeq_only rfl rfl rfl) (at_only w s (Covers.rfl.trans rfl)), rfl, rfl⟩
  case skipped =>
    intro w task recv c n s hcfg hrole hlen hskip hdue
    have honly := evaluateStations_only task.val recv (s.at w)
    have hcourse := evaluateStations_course task.val recv (s.at w)
    have htask := task_modTask (n := task.val) (s := evaluateStations task.val recv (s.at w)) ((tasks_length_of_course hcourse).symm ▸ hlen)
      (fun y => { y with skipAt := none })
    exact ⟨_, exec_taskFreeze_judges hcfg hrole hskip hdue, honly.1, congrArg TaskState.skipAt htask,
      (congrArg TaskState.frozen htask).trans (task_field_of_course hcourse TaskState.frozen (fun _ => rfl) _),
      (congrArg TaskState.state htask).trans (task_field_of_course hcourse TaskState.state (fun _ => rfl) _),
      honly.phe_eq (by decide) (by decide) (by decide)⟩

end Sys2Proof.Machine


/-! ### Assembled streams pass their own digests (R39, R40, R46)

What `assembleStream` lays out reads back: its directory, its sections and gaps, its digests. -/

namespace Sys2Proof.Machine

set_option Elab.async false

open Sys2Proof

/-! #### Fields and slices -/

theorem natLe_length (n k : Nat) : (natLe n k).length = k := by
  induction k generalizing n with
  | zero => rfl
  | succ k ih => exact congrArg Nat.succ (ih _)

theorem natBe_length (n k : Nat) : (natBe n k).length = k := by simp [natBe, natLe_length]

theorem shaBlocks_length (n : Nat) (bs : List Byte) (l : List (BitVec 64)) (hl : l.length = 8) : (shaBlocks n bs l).length = 8 := by
  induction n generalizing bs l with
  | zero => exact hl
  | succ n ih => exact ih _ _ (by simp [shaBlock, hl])

theorem sha384_length (bs : List Byte) : (sha384 bs).length = 48 := by
  have hwords : ∀ l : List (BitVec 64), (l.flatMap fun x => natBe x.toNat 8).length = 8 * l.length := by
    intro l
    induction l with
    | nil => rfl
    | cons x l ih =>
      rw [List.flatMap_cons, List.length_append, ih, natBe_length, List.length_cons]
      omega
  unfold sha384
  rw [hwords, List.length_take, shaBlocks_length _ _ _ rfl]
  rfl

theorem slice_middle {a m c : List Byte} {off len : Nat} (hoff : a.length = off) (hlen : m.length = len) :
    slice (a ++ m ++ c) off len = m := by
  subst hoff hlen
  rw [slice, List.append_assoc, List.drop_left, List.take_left]

theorem leField_natLe {a c : List Byte} {n k off : Nat} (hoff : a.length = off) (hn : leNat (natLe n k) = n) :
    leField (a ++ natLe n k ++ c) off k = n := by
  rw [leField, slice_middle hoff (natLe_length n k), hn]

theorem leNat_natLe_two {n : Nat} (h : n < 65536) : leNat (natLe n 2) = n := by
  simp only [natLe, leNat, BitVec.toNat_ofNat]
  omega

theorem leNat_natLe_four {n : Nat} (h : n < 4294967296) : leNat (natLe n 4) = n := by
  simp only [natLe, leNat, BitVec.toNat_ofNat]
  omega

/-! #### Directory entries -/

/-- The directory entry that the bytes of an entry give. -/
def parseEntry (e : List Byte) : DirEntry :=
  { ty := u16 e 0, flags := u16 e 2, off := u32 e 4, len := u32 e 8, spare := u32 e 0xC, digest := slice e 0x10 16 }

theorem directory_eq (b : List Byte) : directory b = (List.range (u16 b 0x24)).map fun i => parseEntry (slice b (0x80 + 32 * i) 32) :=
  List.map_map

/-- The entry of a section at `pos`. -/
def entryOf (pos : Nat) (p : Nat × List Byte) : DirEntry := { ty := p.1, off := pos, len := p.2.length, digest := (sha384 p.2).take 16 }

/-- Its bytes. -/
def entryBytes (pos : Nat) (p : Nat × List Byte) : List Byte :=
  natLe p.1 2 ++ natLe 0 2 ++ natLe pos 4 ++ natLe p.2.length 4 ++ natLe 0 4 ++ (sha384 p.2).take 16

theorem entryBytes_length (pos : Nat) (p : Nat × List Byte) : (entryBytes pos p).length = 32 := by
  simp [entryBytes, natLe_length, sha384_length]

theorem parseEntry_entryBytes {pos : Nat} {p : Nat × List Byte} (hty : p.1 < 65536) (hpos : pos < 4294967296)
    (hlen : p.2.length < 4294967296) : parseEntry (entryBytes pos p) = entryOf pos p := by
  have hdigest : ((sha384 p.2).take 16).take 16 = (sha384 p.2).take 16 := by rw [List.take_take]; rfl
  have hty' : leNat (natLe p.1 2) = p.1 := leNat_natLe_two hty
  have hpos' : leNat (natLe pos 4) = pos := leNat_natLe_four hpos
  have hlen' : leNat (natLe p.2.length 4) = p.2.length := leNat_natLe_four hlen
  simp only [parseEntry, entryOf, DirEntry.mk.injEq]
  exact ⟨hty', rfl, hpos', hlen', rfl, hdigest⟩

/-! #### The sections of a stream one after the other -/

/-- The directory of sections, the first of them at `pos`. -/
def dirOf : Nat → List (Nat × List Byte) → List DirEntry
  | _, [] => []
  | pos, p :: t => entryOf pos p :: dirOf (pos + roundUp p.2.length 64) t

/-- No section is empty, and types, offsets and lengths fit the fields of the directory. -/
def partsFit : Nat → List (Nat × List Byte) → Bool
  | _, [] => true
  | pos, p :: t =>
    decide (p.1 < 65536 ∧ pos < 4294967296 ∧ 1 ≤ p.2.length ∧ p.2.length < 4294967296) && partsFit (pos + roundUp p.2.length 64) t

theorem partsFit_cons {pos : Nat} {p : Nat × List Byte} {t : List (Nat × List Byte)} (h : partsFit pos (p :: t) = true) :
    (p.1 < 65536 ∧ pos < 4294967296 ∧ 1 ≤ p.2.length ∧ p.2.length < 4294967296) ∧ partsFit (pos + roundUp p.2.length 64) t = true := by
  rwa [partsFit, Bool.and_eq_true, decide_eq_true_eq] at h

theorem le_roundUp (n : Nat) : n ≤ roundUp n 64 := by
  unfold roundUp
  omega

theorem assembleParts_cons (pos : Nat) (p : Nat × List Byte) (t : List (Nat × List Byte)) : assembleParts pos (p :: t) =
    (entryBytes pos p ++ (assembleParts (pos + roundUp p.2.length 64) t).1,
      p.2 ++ List.replicate (if t.isEmpty then 0 else roundUp p.2.length 64 - p.2.length) 0
        ++ (assembleParts (pos + roundUp p.2.length 64) t).2) := rfl

theorem assembleParts_dir_length (pos : Nat) (parts : List (Nat × List Byte)) : (assembleParts pos parts).1.length = 32 * parts.length := by
  induction parts generalizing pos with
  | nil => rfl
  | cons p t ih =>
    rw [assembleParts_cons, List.length_append, entryBytes_length, ih, List.length_cons]
    omega

/-- The entries of assembled sections read back, wherever they lie. -/
theorem parseEntry_assembleParts {parts : List (Nat × List Byte)} {pos : Nat} (h : partsFit pos parts = true) (pre post : List Byte) :
    ((List.range parts.length).map fun i => parseEntry (slice (pre ++ (assembleParts pos parts).1 ++ post) (pre.length + 32 * i) 32))
      = dirOf pos parts := by
  induction parts generalizing pos pre with
  | nil => rfl
  | cons p t ih =>
    obtain ⟨⟨hty, hpos, _, hlen⟩, hrest⟩ := partsFit_cons h
    have hassoc : pre ++ (assembleParts pos (p :: t)).1 ++ post =
        (pre ++ entryBytes pos p) ++ (assembleParts (pos + roundUp p.2.length 64) t).1 ++ post := by
      rw [assembleParts_cons, List.append_assoc pre (entryBytes pos p)]
    rw [List.length_cons, List.range_succ_eq_map, List.map_cons, List.map_map, hassoc, dirOf]
    refine List.cons_eq_cons.mpr ⟨?_, Eq.trans (List.map_congr_left fun i _ => ?_) (ih hrest (pre ++ entryBytes pos p))⟩
    · rw [List.append_assoc _ _ post, slice_middle (off := pre.length + 32 * 0) rfl (entryBytes_length pos p), parseEntry_entryBytes hty hpos hlen]
    · rw [List.length_append, entryBytes_length]
      simp only [Function.comp_apply]
      rw [show pre.length + 32 * i.succ = pre.length + 32 + 32 * i by omega]

/-! #### The pieces of a stream -/

/-- A piece is a gap of zeros, or one of the sections with its type and digest. -/
def PieceOf (parts : List (Nat × List Byte)) (q : Piece) (bytes : List Byte) : Prop :=
  (q.entry = none ∧ allZero bytes = true)
    ∨ ∃ p ∈ parts, ∃ e, q.entry = some e ∧ e.ty = p.1 ∧ e.digest = (sha384 p.2).take 16 ∧ bytes = p.2

theorem PieceOf.cons {parts : List (Nat × List Byte)} {q : Piece} {bytes : List Byte} (h : PieceOf parts q bytes) (p : Nat × List Byte) :
    PieceOf (p :: parts) q bytes := by
  rcases h with hgap | ⟨x, hx, hsection⟩
  · exact .inl hgap
  · exact .inr ⟨x, List.mem_cons_of_mem p hx, hsection⟩

theorem allZero_replicate (n : Nat) : allZero (List.replicate n 0) = true := by simp [allZero]

theorem mem_piecesFrom_cons {gap : Nat} {e : DirEntry} {t : List DirEntry} {q : Piece} (h : q ∈ piecesFrom (some gap) (e :: t)) :
    q = { first := gap, past := e.off } ∨ q = { first := e.off, past := e.off + e.len, entry := some e }
      ∨ q ∈ piecesFrom (some (e.off + e.len)) t := by
  rw [piecesFrom] at h
  by_cases hlt : gap < e.off
  · simpa [hlt] using h
  · exact .inr (by simpa [hlt] using h)

theorem piecesFrom_assembleParts {parts : List (Nat × List Byte)} {pos gap : Nat} {pre : List Byte} (hpre : pre.length = pos)
    (hgap : gap ≤ pos) (hzero : allZero (pre.drop gap) = true) (q : Piece) (hq : q ∈ piecesFrom (some gap) (dirOf pos parts)) :
    PieceOf parts q (slice (pre ++ (assembleParts pos parts).2) q.first (q.past - q.first)) := by
  induction parts generalizing pos gap pre with
  | nil => cases hq
  | cons p t ih =>
    have hhere : ∀ c, slice (pre ++ (p.2 ++ c)) pos (pos + p.2.length - pos) = p.2 := by
      intro c
      rw [← List.append_assoc]
      exact slice_middle hpre (by omega)
    have hin : q = { first := gap, past := pos } ∨ q = { first := pos, past := pos + p.2.length, entry := some (entryOf pos p) }
        ∨ q ∈ piecesFrom (some (pos + p.2.length)) (dirOf (pos + roundUp p.2.length 64) t) := mem_piecesFrom_cons hq
    rw [assembleParts_cons]
    dsimp only
    rw [List.append_assoc p.2]
    rcases hin with rfl | rfl | hrest
    · refine .inl ⟨rfl, ?_⟩
      dsimp only
      rw [slice, List.drop_append_of_le_length (by omega), List.take_append_of_le_length (Nat.le_of_eq (by rw [List.length_drop, hpre])),
        List.take_of_length_le (Nat.le_of_eq (by rw [List.length_drop, hpre]))]
      exact hzero
    · exact .inr ⟨p, List.mem_cons_self, _, rfl, rfl, rfl, hhere _⟩
    · cases t with
      | nil => cases hrest
      | cons p' t =>
        have hsize := le_roundUp p.2.length
        have hnext := ih (pre := pre ++ p.2 ++ List.replicate (roundUp p.2.length 64 - p.2.length) 0)
          (by simp only [List.length_append, List.length_replicate, hpre]; omega) (by omega)
          (by
            rw [List.drop_append_of_le_length (by simp [hpre]), List.drop_of_length_le (by simp [hpre]), List.nil_append]
            exact allZero_replicate _) hrest
        simpa [List.append_assoc] using hnext.cons p

/-- The sections read back at the places that the directory gives. -/
theorem sections_assembleParts {parts : List (Nat × List Byte)} {pos : Nat} {pre : List Byte} (hpre : pre.length = pos) :
    ((dirOf pos parts).map fun e => (e.ty, e.bytes (pre ++ (assembleParts pos parts).2))) = parts := by
  induction parts generalizing pos pre with
  | nil => rfl
  | cons p t ih =>
    rw [dirOf, List.map_cons, assembleParts_cons]
    refine List.cons_eq_cons.mpr ⟨congrArg (p.1, ·) ?_, ?_⟩
    · dsimp only
      rw [List.append_assoc p.2, ← List.append_assoc]
      exact slice_middle hpre rfl
    · cases t with
      | nil => rfl
      | cons p' t =>
        have hsize := le_roundUp p.2.length
        have hnext := ih (pos := pos + roundUp p.2.length 64)
          (pre := pre ++ p.2 ++ List.replicate (roundUp p.2.length 64 - p.2.length) 0)
          (by simp only [List.length_append, List.length_replicate, hpre]; omega)
        simpa [List.append_assoc] using hnext

/-! #### Entries in order -/

theorem insertEntry_last {e : DirEntry} {l : List DirEntry} (h : ∀ y ∈ l, y.off < e.off) : insertEntry e l = l ++ [e] := by
  induction l with
  | nil => rfl
  | cons y l ih =>
    rw [insertEntry, if_neg (Nat.lt_asymm (h y List.mem_cons_self)), ih fun z hz => h z (List.mem_cons_of_mem y hz)]
    rfl

theorem foldl_insertEntry_dirOf {parts : List (Nat × List Byte)} {pos : Nat} (h : partsFit pos parts = true) (acc : List DirEntry)
    (hacc : ∀ y ∈ acc, y.off < pos) : (dirOf pos parts).foldl (fun l e => insertEntry e l) acc = acc ++ dirOf pos parts := by
  induction parts generalizing pos acc with
  | nil => exact (List.append_nil acc).symm
  | cons p t ih =>
    obtain ⟨⟨_, _, hlen, _⟩, hrest⟩ := partsFit_cons h
    have hsize := le_roundUp p.2.length
    rw [dirOf, List.foldl_cons, insertEntry_last (e := entryOf pos p) hacc, ih hrest, List.append_assoc]
    · rfl
    · intro y hy
      rcases List.mem_append.mp hy with hold | hnew
      · exact Nat.lt_of_lt_of_le (hacc y hold) (Nat.le_add_right ..)
      · cases List.mem_singleton.mp hnew
        show pos < pos + roundUp p.2.length 64
        omega

theorem piecesFrom_none_dirOf (pos : Nat) (parts : List (Nat × List Byte)) :
    piecesFrom none (dirOf pos parts) = piecesFrom (some pos) (dirOf pos parts) := by
  cases parts with
  | nil => rfl
  | cons p t => exact (if_neg (Nat.lt_irrefl pos)).symm

/-! #### The stream -/

/-- The header up to its digest. -/
def fixedHead (hdr : List Byte) (parts : List (Nat × List Byte)) : List Byte :=
  hdr.take 6 ++ natLe 1 2 ++ slice hdr 8 16 ++ natLe 0 4 ++ natLe (0x1000 + (assembleParts 0x1000 parts).2.length) 4 ++ natLe 0x80 4
    ++ natLe parts.length 2 ++ List.replicate 10 0

/-- What stands between the directory and the first section. -/
def headGap (parts : List (Nat × List Byte)) : List Byte := List.replicate (0x1000 - 128 - (assembleParts 0x1000 parts).1.length) 0

/-- What follows the digest. -/
def afterDigest (parts : List (Nat × List Byte)) : List Byte :=
  List.replicate 32 0 ++ (assembleParts 0x1000 parts).1 ++ headGap parts ++ (assembleParts 0x1000 parts).2

section
variable {hdr : List Byte} (hhdr : hdr.length = 24) (parts : List (Nat × List Byte))
include hhdr

theorem fixedHead_length : (fixedHead hdr parts).length = 48 := by simp [fixedHead, natLe_length, slice, hhdr]

theorem assembleStream_eq : assembleStream hdr parts =
    fixedHead hdr parts ++ sha384 (fixedHead hdr parts ++ List.replicate 48 0 ++ afterDigest parts) ++ afterDigest parts := by
  have hbytes : fixedHead hdr parts ++ List.replicate 48 0 ++ List.replicate 32 0 ++ (assembleParts 0x1000 parts).1 ++ headGap parts
      ++ (assembleParts 0x1000 parts).2 = fixedHead hdr parts ++ List.replicate 48 0 ++ afterDigest parts := by
    simp [afterDigest, List.append_assoc]
  have hhead := fixedHead_length hhdr parts
  show overlay (fixedHead hdr parts ++ List.replicate 48 0 ++ List.replicate 32 0 ++ (assembleParts 0x1000 parts).1 ++ headGap parts
      ++ (assembleParts 0x1000 parts).2) 0x30 (sha384 (fixedHead hdr parts ++ List.replicate 48 0 ++ List.replicate 32 0
      ++ (assembleParts 0x1000 parts).1 ++ headGap parts ++ (assembleParts 0x1000 parts).2)) = _
  have hdrop : (fixedHead hdr parts ++ (List.replicate 48 0 ++ afterDigest parts)).drop (0x30 + 48) = afterDigest parts := by
    rw [← List.append_assoc]
    exact List.drop_left' (by simp [hhead])
  rw [hbytes, overlay, sha384_length, List.append_assoc (fixedHead hdr parts) (List.replicate 48 0), List.take_left' hhead, hdrop]

theorem slice_digest : slice (assembleStream hdr parts) 0x30 48 =
    sha384 (fixedHead hdr parts ++ List.replicate 48 0 ++ afterDigest parts) := by
  rw [assembleStream_eq hhdr]
  exact slice_middle (fixedHead_length hhdr parts) (sha384_length _)

theorem streamDigest_assembleStream : streamDigest (assembleStream hdr parts) = slice (assembleStream hdr parts) 0x30 48 := by
  have hhead := fixedHead_length hhdr parts
  rw [slice_digest hhdr, streamDigest, assembleStream_eq hhdr]
  congr 2
  · rw [List.append_assoc, List.take_left' hhead]
  · exact List.drop_left' (by simp [hhead, sha384_length])

theorem directory_assembleStream (hfit : partsFit 0x1000 parts = true) (hcount : parts.length < 65536) :
    directory (assembleStream hdr parts) = dirOf 0x1000 parts := by
  have hsha := sha384_length (fixedHead hdr parts ++ List.replicate 48 0 ++ afterDigest parts)
  generalize hd : sha384 (fixedHead hdr parts ++ List.replicate 48 0 ++ afterDigest parts) = digest at hsha
  have hbytes : assembleStream hdr parts = (fixedHead hdr parts ++ digest ++ List.replicate 32 0) ++ (assembleParts 0x1000 parts).1
      ++ (headGap parts ++ (assembleParts 0x1000 parts).2) := by
    rw [assembleStream_eq hhdr, hd]
    simp [afterDigest, List.append_assoc]
  have hn : u16 (assembleStream hdr parts) 0x24 = parts.length := by
    rw [assembleStream_eq hhdr, fixedHead, List.append_assoc _ (List.replicate 10 0), List.append_assoc _ (List.replicate 10 0 ++ _)]
    exact leField_natLe (by simp [natLe_length, slice, hhdr]) (leNat_natLe_two hcount)
  rw [directory_eq, hn, hbytes]
  refine Eq.trans (List.map_congr_left fun i _ => ?_)
    (parseEntry_assembleParts hfit (fixedHead hdr parts ++ digest ++ List.replicate 32 0) (headGap parts ++ (assembleParts 0x1000 parts).2))
  simp [fixedHead_length hhdr, hsha]

theorem assembleStream_body (hcount : parts.length < 125) : ∃ pre : List Byte, pre.length = 0x1000
    ∧ assembleStream hdr parts = pre ++ (assembleParts 0x1000 parts).2 := by
  have hsha := sha384_length (fixedHead hdr parts ++ List.replicate 48 0 ++ afterDigest parts)
  generalize hd : sha384 (fixedHead hdr parts ++ List.replicate 48 0 ++ afterDigest parts) = digest at hsha
  refine ⟨fixedHead hdr parts ++ digest ++ List.replicate 32 0 ++ (assembleParts 0x1000 parts).1 ++ headGap parts, ?_, ?_⟩
  · simp only [List.length_append, fixedHead_length hhdr, hsha, List.length_replicate, assembleParts_dir_length, headGap]
    omega
  · rw [assembleStream_eq hhdr, hd]
    simp [afterDigest, List.append_assoc]

theorem sectionParts_assembleStream (hfit : partsFit 0x1000 parts = true) (hcount : parts.length < 125) :
    sectionParts (assembleStream hdr parts) = parts := by
  obtain ⟨pre, hpre, hbytes⟩ := assembleStream_body hhdr parts hcount
  rw [sectionParts, directory_assembleStream hhdr parts hfit (by omega), hbytes]
  exact sections_assembleParts hpre

theorem pieces_assembleStream (hfit : partsFit 0x1000 parts = true) (hcount : parts.length < 125) (q : Piece)
    (hq : q ∈ pieces (assembleStream hdr parts)) : PieceOf parts q (slice (assembleStream hdr parts) q.first (q.past - q.first)) := by
  have hdir := directory_assembleStream hhdr parts hfit (by omega)
  rw [pieces, hdir, foldl_insertEntry_dirOf hfit [] (by simp), List.nil_append, piecesFrom_none_dirOf] at hq
  obtain ⟨pre, hpre, hbytes⟩ := assembleStream_body hhdr parts hcount
  rw [hbytes]
  exact piecesFrom_assembleParts hpre (Nat.le_refl _) (by rw [List.drop_of_length_le (Nat.le_of_eq hpre)]; rfl) q hq

/-- A stream whose header and sections pass loads as the generation of its sections: its digests agree and its gaps are zero. -/
theorem checkStored_assembleStream {s : State} (hfit : partsFit 0x1000 parts = true) (hcount : parts.length < 125)
    (hhead : headerCheck (assembleStream hdr parts) (some (assembleStream hdr parts).length) s = none)
    (hcontent : ∀ p ∈ parts, checkSection { unitUse := u32 (assembleStream hdr parts) 0xC } p.1 p.2 = none)
    (hcross : crossChecks false { g := generationOf (assembleStream hdr parts) parts, parts := parts } = none) :
    checkStored (assembleStream hdr parts) s = .ok (generationOf (assembleStream hdr parts) parts) := by
  have hpieces := pieces_assembleStream hhdr parts hfit hcount
  have hdigests : ((pieces (assembleStream hdr parts)).findSome? fun p =>
      checkDigest p (slice (assembleStream hdr parts) p.first (p.past - p.first))) = none := by
    refine List.findSome?_eq_none_iff.mpr fun q hq => ?_
    rcases hpieces q hq with ⟨hnone, _⟩ | ⟨p, _, e, hentry, _, hdigest, hbytes⟩
    · rw [checkDigest, hnone]; rfl
    · rw [checkDigest, hentry, hbytes]
      exact if_neg (not_not_intro hdigest.symm)
  have hcontents : ((pieces (assembleStream hdr parts)).findSome? fun p => checkContent { unitUse := u32 (assembleStream hdr parts) 0xC } p
      (slice (assembleStream hdr parts) p.first (p.past - p.first))) = none := by
    refine List.findSome?_eq_none_iff.mpr fun q hq => ?_
    rcases hpieces q hq with ⟨hnone, hzero⟩ | ⟨p, hp, e, hentry, hty, _, hbytes⟩
    · rw [checkContent, hnone]
      dsimp only
      rw [List.findIdx?_eq_none_iff.mpr fun x hx => by simpa using List.all_eq_true.mp hzero x hx]
      rfl
    · rw [checkContent, hentry, hbytes]
      dsimp only
      rw [hty, hcontent p hp]
      rfl
  unfold checkStored
  rw [hhead]
  dsimp only
  rw [hdigests, hcontents]
  dsimp only [Option.or]
  rw [if_neg (not_not_intro (streamDigest_assembleStream hhdr parts)), sectionParts_assembleStream hhdr parts hfit hcount, hcross]

end

end Sys2Proof.Machine


/-! ### The load of a generation (O11)

`GENERATION_LOAD` leaves out the slot that this start has staged (R390), also where it is the current one: a stored generation that
passes its checks does not come into force then. The stream is the least that loads: one station, one point, one task. -/

namespace Sys2Proof.Machine

set_option Elab.async false

open Sys2Proof

/-! #### The sections of the least stream -/

/-- Reserved bytes. -/
def blank (n : Nat) : List Byte := List.replicate n 0

/-- Port 0 is on (R98). -/
def leastPorts : List Byte := natLe 0 2 ++ natLe 1 6 ++ blank 8 ++ natLe 1 8 ++ blank 504

/-- One station, on port 0 (R99). -/
def leastStations : List Byte := natLe 1 16 ++ blank 10 ++ natLe 1 2 ++ blank 20

/-- One point, the digital input 0 (R201). -/
def leastPoints : List Byte := natLe 1 16 ++ natLe 1 4 ++ natLe 3 4 ++ blank 8

/-- One task of one call (R196, R206). -/
def leastTasks : List Byte :=
  natLe 1 16 ++ (natLe 0 1 ++ natLe 1 3 ++ natLe 2 2 ++ natLe 0 2 ++ natLe 1000 4 ++ natLe 48 4 ++ natLe 1 4 ++ blank 12)
    ++ (natLe 0 4 ++ natLe 0 4 ++ natLe 1 4 ++ blank 4)

/-- One entry point (R210). -/
def leastCode : List Byte := natLe 1 16 ++ blank 4

/-- One block of 64 bytes, in unit 32, its shadow in unit 33 (R207, R208). -/
def leastInsts : List Byte :=
  (natLe 1 4 ++ natLe 32 2 ++ natLe 1 2 ++ natLe 33 4 ++ natLe 32 4 ++ blank 16) ++ (natLe 0 4 ++ natLe 40 4)
    ++ (natLe 0 4 ++ natLe 32 4 ++ (natLe 1 4 ++ natLe 1 4 ++ natLe 64 4 ++ blank 20)) ++ blank 8

/-- The task's image holds the point, in unit 40 (R202). -/
def leastImages : List Byte := blank 32 ++ (natLe 0x2800000 4 ++ natLe 1 4 ++ natLe 0x220 4 ++ blank 20) ++ blank 480 ++ blank 4

/-- The least budgets, at the default ranks (R238, R240). -/
def leastBudgets : List Byte :=
  blank 16 ++ (List.range 64).flatMap (fun i => natLe (budgetMin i) 4 ++ natLe (defaultRank i) 4) ++ natLe 15625 4 ++ blank 252

/-- The least power ceiling (R245). -/
def leastPower : List Byte := natLe 40000 4 ++ natLe 0 4 ++ natLe 8 8 ++ (List.range 12).flatMap (fun _ => natLe 0 2 ++ natLe 16 6) ++ blank 512

/-- All of memory STRONG: streams from unit 0, staging from unit 16, the spare unit 255 (R282). -/
def leastMap : List Byte := natLe 1 2 ++ natLe 255 2 ++ natLe 0 2 ++ natLe 16 2 ++ blank 24 ++ (natLe 0 2 ++ natLe 256 2 ++ blank 4)

/-- Every memory ward readable by the scrubber (R298). -/
def leastWards : List Byte :=
  blank 16 ++ (List.range 8).flatMap (fun w => natLe (w * 0x2000000) 4 ++ natLe 0x2000000 4 ++ natLe 0x8000 4 ++ blank 116) ++ blank 128

/-- The staging region to identity 13 (R303). -/
def leastCentral : List Byte :=
  natLe 1 16 ++ (natLe 0x40000000 8 ++ natLe 0x1000000 4 ++ blank 4 ++ natLe 0x2000 4 ++ natLe 0x2000 4 ++ blank 8)

/-- The default bucket alone (R328). -/
def leastLimits : List Byte := natLe 0 2 ++ natLe 1 2 ++ natLe 1 4 ++ blank 8

/-- Input 0 in use, each output a group of its own (R383). -/
def leastField : List Byte := natLe 1 4 ++ blank 60 ++ (List.range 8).flatMap (fun _ => natLe 1 2) ++ blank 48

/-- No slave port and no source (R87). -/
def leastPtp : List Byte := natLe 1 2 ++ blank 14 ++ natLe 0xFFFF 2 ++ blank 46

/-- The pair off (R257). -/
def leastPair : List Byte := natLe 0 1 ++ natLe 2 1 ++ natLe 2 1 ++ natLe 1 1 ++ blank 28

/-- The sections that a full stream must carry (R41). -/
def leastParts : List (Nat × List Byte) :=
  [(0x01, leastPorts), (0x02, leastStations), (0x03, leastPoints), (0x07, leastTasks), (0x08, leastCode), (0x09, leastInsts),
   (0x0A, leastImages), (0x0B, leastBudgets), (0x0C, leastPower), (0x0D, leastMap), (0x0E, leastWards), (0x0F, leastCentral),
   (0x10, leastLimits), (0x11, leastField), (0x12, leastPtp), (0x13, blank 792), (0x14, leastPair)]

/-- The first fields of its header: generation 1. -/
def leastHeader : List Byte := natLe 0x53424658 4 ++ natLe 1 2 ++ natLe 1 2 ++ natLe 0x64 4 ++ natLe 0 4 ++ natLe 0 4 ++ natLe 1 4

/-- The least stream. -/
def leastStream : List Byte := assembleStream leastHeader leastParts

/-! #### It passes its checks -/

theorem leastParts_fit : partsFit 0x1000 leastParts = true := by decide +kernel

theorem unitUse_leastStream : u32 leastStream 0xC = 0 := by decide +kernel

theorem checkSection_leastParts : ∀ p ∈ leastParts, checkSection {} p.1 p.2 = none := by decide +kernel

theorem crossChecks_leastParts : crossChecks false { g := generationOf leastStream leastParts, parts := leastParts } = none := by
  decide +kernel

/-- A module in P4 whose current slot holds the stream, and whose start has staged that same slot. -/
def stagedCurrent : State :=
  { gen := { phase := 4, held := false }
    kpr := { cartridge := some { slots := [some { bytes := leastStream }, none], current := some 0 } }
    bsl := { newSlot := some 0 } }

theorem headerCheck_leastStream : headerCheck leastStream (some leastStream.length) (stagedCurrent.at { t := 0 }) = none := by
  unfold headerCheck dirInvalid leastStream
  rw [directory_assembleStream rfl leastParts leastParts_fit (by decide)]
  decide +kernel

theorem checkStored_leastStream : checkStored leastStream (stagedCurrent.at { t := 0 }) = .ok (generationOf leastStream leastParts) := by
  refine checkStored_assembleStream rfl leastParts leastParts_fit (by decide) headerCheck_leastStream ?_ crossChecks_leastParts
  rw [show u32 (assembleStream leastHeader leastParts) 0xC = 0 from unitUse_leastStream]
  exact checkSection_leastParts

/-- No slot is tried that holds a stream: the module is held in P4 (R47, R390). -/
theorem exec_generationLoad_stagedCurrent :
    exec (.generationLoad { t := 0 }) stagedCurrent = .next (heldInP4 (stagedCurrent.at { t := 0 })) := rfl

theorem not_loaded_stagedCurrent : (heldInP4 (stagedCurrent.at { t := 0 })).cfg.loaded = false := rfl

/-- Refutes O11: the current slot is left out where this start has staged it, and its stored generation does not come into force. -/
theorem not_p3ToP7 : ¬ Obligations.P3ToP7 := by
  unfold Obligations.P3ToP7
  rintro ⟨_, _, hload, _⟩
  obtain ⟨t, hexec, hforce⟩ := hload { t := 0 } 0 { bytes := leastStream } stagedCurrent rfl rfl rfl rfl rfl rfl
  obtain ⟨hcfg, _⟩ := hforce _ checkStored_leastStream
  rw [exec_generationLoad_stagedCurrent] at hexec
  cases hexec
  have hloaded : (heldInP4 (stagedCurrent.at { t := 0 })).cfg.loaded = true := congrArg CfgState.loaded hcfg
  rw [not_loaded_stagedCurrent] at hloaded
  cases hloaded

end Sys2Proof.Machine
